-- ==== Sys2Proof/Word.lean ====
section
/-! DEFINITION. The words of the FJW-9768: bytes, 32-bit and 64-bit words (R3, R4), and nothing more. -/
namespace Sys2Proof

/-- One byte of memory (R4: byte k of a word holds bits [8k+7:8k]). -/
abbrev Byte := BitVec 8

/-- A 32-bit word: a named register, a uniform register, an instruction word (R152, R316). -/
abbrev Word := BitVec 32

/-- A 64-bit word: a result entry, a special register, a launch-packet word (R160, R59). -/
abbrev DWord := BitVec 64

/-- A 64-byte line (R105, R27). -/
abbrev Line := BitVec 512

end Sys2Proof
end

