-- ==== Sys2Proof/Syntax.lean ====
section
/-! DEFINITION. The instructions of the FJW-9768: guards, source operands and field enumerations (chapter 13), then
Instr, one constructor per row of the opcode table. -/
namespace Sys2Proof

/-- A guard field G (R320): the negate bit and the predicate it names. -/
structure Guard where
  neg : Bool
  p : Fin 8
deriving DecidableEq, Repr

/-- The chain bit and the guard of a word (R317, R320). -/
structure Hd where
  c : Bool
  gd : Guard
deriving DecidableEq, Repr

/-- A source operand (Table 13.4). -/
inductive Src where
  /-- n0 to n31 at run start (codes 0 to 31). -/
  | n (i : Fin 32)
  /-- The entry of age k+1 (codes 32 to 47). -/
  | q (k : Fin 16)
  /-- The uniform window (codes 48 to 55). -/
  | gw (i : Fin 8)
  /-- Zero (code 56). -/
  | zero
  /-- A literal (code 57). -/
  | lit
  /-- TID (code 58). -/
  | tid
  /-- IID (code 59). -/
  | iid
  /-- A stream head (codes 60 to 63). -/
  | h (i : Fin 4)
deriving DecidableEq, Repr

/-- Rounding modes (R246): the codes 0 to 5 of an RM field. -/
inductive RM where
  | rne | rtz | rup | rdn | rna | sr
deriving DecidableEq, Repr

/-- Relations of CMP (R351). -/
inductive Rel where
  | eq | ne | lt | le | gt | ge
deriving DecidableEq, Repr

/-- Relations of FCMP (R352). -/
inductive FRel where
  | eq | ne | lt | le | gt | ge | un | ord
deriving DecidableEq, Repr

/-- Types of CVT (R358). -/
inductive NumTy where
  | i32 | n32 | i64 | n64 | f16 | bf16 | f32 | f64
deriving DecidableEq, Repr

/-- The integer types of CVT. -/
def NumTy.isInt : NumTy → Bool
  | .i32 | .n32 | .i64 | .n64 => true
  | .f16 | .bf16 | .f32 | .f64 => false

/-- Modes of XSHUF (R364). -/
inductive XMode where
  | index | up | down | xor
deriving DecidableEq, Repr

/-- Forms of VOTE (R365). -/
inductive VoteForm where
  | all | any | ballot | uni
deriving DecidableEq, Repr

/-- Operations of REDUCE and SCAN (R366). -/
inductive ScanOp where
  | add | min | max | and | or | xor | mul
deriving DecidableEq, Repr

/-- Types of REDUCE and SCAN (R366). -/
inductive ScanTy where
  | i32 | n32 | i64 | n64 | f32 | f64 | f32sr | f64sr
deriving DecidableEq, Repr

/-- Operations of INTF (Table 14.7). -/
inductive IntfOp where
  | add | sub | mul | min | max | minu | maxu | and | or | xor | andn | shl | shr | sar | mov
deriving DecidableEq, Repr

/-- Operations of FLTF (Table 14.7). -/
inductive FltfOp where
  | fadd | fsub | fmul | fmin | fmax
deriving DecidableEq, Repr

/-- Address spaces (Table 5.1). -/
inductive Space where
  | glb | loc | rng | am | cst | stk | frm | img
deriving DecidableEq, Repr

/-- Access widths (R321). -/
inductive Width where
  | b8 | b16 | b32 | b64 | b128
deriving DecidableEq, Repr

/-- Modes of BOXU (R430). -/
inductive BoxMode where
  | u | p | set
deriving DecidableEq, Repr

/-- Culling of RAST (R427). -/
inductive Cull where
  | none | back | front
deriving DecidableEq, Repr

/-- Widths of a subfield selection (R326): four bytes, five six-bit fields, eight nibbles. -/
inductive SubW where
  | by | sx | nb
deriving DecidableEq, Repr

/-- How many subfields of a width a register holds (R326). -/
def SubW.count : SubW → Nat
  | .by => 4
  | .sx => 5
  | .nb => 8

/-- A source selection of an NS prefix (R326): the source whole, or one subfield. -/
inductive Sel where
  | whole (i : Fin 8)
  | sub (w : SubW) (i : Fin 8)
deriving DecidableEq, Repr

/-- A module of a UCIe link (R16, R18): the link and the number of the module in it. -/
structure LinkModule where
  link : Nat
  mod : Nat
deriving DecidableEq, Repr

/-- What GET_MEASUREMENTS asks for (R41): the block, or 255 for all, and whether the reply is to be signed. -/
structure MeasureReq where
  index : Nat
  sign : Bool
deriving DecidableEq, Repr

/-- What a power-on brings from outside (Table 2.1): whether the self test passes, the seed the PUF gives, whether links
train, the capacity in GiB that each stack reports, and at the first power-on what the NOR store was programmed with. -/
structure BootIn where
  selfTest : Bool
  puf : Option (BitVec 256)
  links : Bool
  caps : List Nat
  nor : Option (List (Nat × List Byte))
deriving DecidableEq, Repr

/-- What a scrub of one line finds (R27). -/
inductive ScrubFound where
  | clean
  | corrected (sym : Nat)
  | uncorrectable (sym : Nat)
deriving DecidableEq, Repr

/-- A unit whose corrected errors are counted (Table 1.10). -/
inductive HwUnit where
  | core (t c : Nat)
  | slice (t s : Nat)
  | array (t a : Nat)
  | stack (s : Nat)
  | linkModule (l m : Nat)
deriving DecidableEq, Repr

/-- Where an uncorrectable SRAM error lies (R122). -/
inductive SramPlace where
  /-- An L1 line of a core, by its physical line address. -/
  | l1 (core line : Nat)
  /-- A clean line of an L2 slice. -/
  | l2Clean (tile line : Nat)
  /-- A dirty line of an L2 slice. -/
  | l2Dirty (tile line : Nat)
  /-- A 32-bit word of a core's scratchpad granule. -/
  | scratch (core gran word : Nat)
  /-- A 64-bit word of an array's ring store. -/
  | ringStore (arr word : Nat)
  /-- A 32-bit word of an array's accumulator memory. -/
  | accMem (arr word : Nat)
  /-- A named register of a thread slot. -/
  | reg (lane slot reg : Nat)
  /-- The tag table, a forwarding buffer or the bin unit, for a residency. -/
  | table (rid : Nat)
deriving DecidableEq, Repr

/-- Classes of a request (Table 2.3). -/
inductive ReqClass where
  | read | write | atomic | fetch | command | tableWrite
deriving DecidableEq, Repr

/-- What a frame from another package is (R149, R150, R426): a line, a line whose source was poisoned, or the acknowledgment of a line. -/
inductive PodKind where
  | data | poisoned | ack
deriving DecidableEq, Repr

/-- Where a report from another package comes in, and the package that sends it (R393). -/
structure PodSrc where
  port : Nat
  package : Nat
deriving DecidableEq, Repr

/-- One constructor per row of the opcode table: the 214 instruction words (chapters 13 to 16) with their decoded
fields, then the 94 events of the machine, which have no encoding, with the data each brings from outside or names. -/
inductive Instr where
  /-- R346. Integer add, optionally 64-bit, saturating or unsigned. -/
  | add (hd : Hd) (a : Src) (b : Src) (w : Bool) (s : Bool) (u : Bool)
  /-- R346. Integer subtract. -/
  | sub (hd : Hd) (a : Src) (b : Src) (w : Bool) (s : Bool) (u : Bool)
  /-- R346. Integer multiply, wrapping or widening. -/
  | mul (hd : Hd) (a : Src) (b : Src) (w : Bool) (v : Bool) (u : Bool)
  /-- R346. High half of the double-width product. -/
  | mulh (hd : Hd) (a : Src) (b : Src) (w : Bool) (u : Bool)
  /-- R346. Integer divide truncating toward zero, long-latency. -/
  | div (hd : Hd) (a : Src) (b : Src) (w : Bool) (u : Bool)
  /-- R346. Integer remainder with the sign of a. -/
  | rem (hd : Hd) (a : Src) (b : Src) (w : Bool) (u : Bool)
  /-- R346. Integer minimum. -/
  | min (hd : Hd) (a : Src) (b : Src) (w : Bool) (u : Bool)
  /-- R346. Integer maximum. -/
  | max (hd : Hd) (a : Src) (b : Src) (w : Bool) (u : Bool)
  /-- R346. Integer absolute value. -/
  | abs (hd : Hd) (a : Src) (w : Bool) (s : Bool)
  /-- R346. Integer negation. -/
  | neg (hd : Hd) (a : Src) (w : Bool) (s : Bool)
  /-- R347. Bitwise and. -/
  | and (hd : Hd) (a : Src) (b : Src) (w : Bool)
  /-- R347. Bitwise or. -/
  | or (hd : Hd) (a : Src) (b : Src) (w : Bool)
  /-- R347. Bitwise exclusive or. -/
  | xor (hd : Hd) (a : Src) (b : Src) (w : Bool)
  /-- R347. a and not b. -/
  | andn (hd : Hd) (a : Src) (b : Src) (w : Bool)
  /-- R347. Bitwise complement. -/
  | not (hd : Hd) (a : Src) (w : Bool)
  /-- R347. Shift left. -/
  | shl (hd : Hd) (a : Src) (b : Src) (w : Bool)
  /-- R347. Logical shift right. -/
  | shr (hd : Hd) (a : Src) (b : Src) (w : Bool)
  /-- R347. Arithmetic shift right. -/
  | sar (hd : Hd) (a : Src) (b : Src) (w : Bool)
  /-- R347. Rotate left. -/
  | rot (hd : Hd) (a : Src) (b : Src) (w : Bool)
  /-- R347. Population count. -/
  | popc (hd : Hd) (a : Src) (w : Bool)
  /-- R347. Count leading zeros. -/
  | clz (hd : Hd) (a : Src) (w : Bool)
  /-- R347. Count trailing zeros. -/
  | ctz (hd : Hd) (a : Src) (w : Bool)
  /-- R347. Bit reverse. -/
  | brev (hd : Hd) (a : Src) (w : Bool)
  /-- R347. Copy a. -/
  | mov (hd : Hd) (a : Src) (w : Bool)
  /-- R347. 32-bit select by a predicate. -/
  | sel (hd : Hd) (a : Src) (b : Src) (p : Fin 8)
  /-- R347. 64-bit select by a predicate. -/
  | sel64 (hd : Hd) (a : Src) (b : Src) (p : Fin 8)
  /-- R348. Bit-field extract, optionally sign-extended. -/
  | bfx (hd : Hd) (a : Src) (b : Src) (x : Bool)
  /-- R348. Sum of four byte products. -/
  | dot4 (hd : Hd) (a : Src) (b : Src) (u : Bool)
  /-- R348. Sum of eight nibble products. -/
  | dotn (hd : Hd) (a : Src) (b : Src) (u : Bool)
  /-- R348. Write predicates from bits of a under a mask. -/
  | unpackp (hd : Hd) (a : Src) (b : Src)
  /-- R349. wrap32(a·b + c). -/
  | mad (hd : Hd) (a : Src) (b : Src) (d : Src)
  /-- R349. 64-bit multiply-add of i32 operands. -/
  | madw (hd : Hd) (a : Src) (b : Src) (d : Src)
  /-- R349. Add with carry in and out. -/
  | addc (hd : Hd) (a : Src) (b : Src) (d : Src)
  /-- R349. Subtract with borrow. -/
  | subb (hd : Hd) (a : Src) (b : Src) (d : Src)
  /-- R349. Funnel shift of b:a. -/
  | shf (hd : Hd) (a : Src) (b : Src) (d : Src)
  /-- R349. Bit-field insert. -/
  | bfi (hd : Hd) (a : Src) (b : Src) (d : Src)
  /-- R349. Byte permute. -/
  | perm (hd : Hd) (a : Src) (b : Src) (d : Src)
  /-- R349. 64-bit address a + b·2^c. -/
  | lea (hd : Hd) (a : Src) (b : Src) (d : Src)
  /-- R350. INTI add of a 12-bit immediate. -/
  | addImm (hd : Hd) (a : Src) (i : BitVec 12)
  /-- R350. INTI and with an immediate. -/
  | andImm (hd : Hd) (a : Src) (i : BitVec 12)
  /-- R350. INTI or with an immediate. -/
  | orImm (hd : Hd) (a : Src) (i : BitVec 12)
  /-- R350. INTI xor with an immediate. -/
  | xorImm (hd : Hd) (a : Src) (i : BitVec 12)
  /-- R350. INTI shift left by an immediate. -/
  | shlImm (hd : Hd) (a : Src) (i : BitVec 12)
  /-- R350. INTI logical shift right by an immediate. -/
  | shrImm (hd : Hd) (a : Src) (i : BitVec 12)
  /-- R350. INTI arithmetic shift right by an immediate. -/
  | sarImm (hd : Hd) (a : Src) (i : BitVec 12)
  /-- R350. INTI multiply by an immediate. -/
  | mulImm (hd : Hd) (a : Src) (i : BitVec 12)
  /-- R351. Integer compare writing a predicate. -/
  | cmp (hd : Hd) (a : Src) (b : Src) (p : Fin 8) (r : Rel) (u : Bool) (w : Bool) (n : Bool)
  /-- R352. f32 compare writing a predicate. -/
  | fcmp (hd : Hd) (a : Src) (b : Src) (p : Fin 8) (r : FRel) (n : Bool)
  /-- R352. f64 compare writing a predicate. -/
  | dcmp (hd : Hd) (a : Src) (b : Src) (p : Fin 8) (r : FRel) (n : Bool)
  /-- R352. f16 compare writing a predicate. -/
  | fcmpH (hd : Hd) (a : Src) (b : Src) (p : Fin 8) (r : FRel) (n : Bool)
  /-- R353. Predicate logic through a truth table. -/
  | plop (hd : Hd) (x : Fin 8) (y : Fin 8) (p : Fin 8) (t : BitVec 8)
  /-- R353. Pack p0-p6 into a result. -/
  | packp (hd : Hd)
  /-- R355. f32 add rounded once. -/
  | fadd (hd : Hd) (a : Src) (b : Src) (r : RM)
  /-- R355. f32 subtract. -/
  | fsub (hd : Hd) (a : Src) (b : Src) (r : RM)
  /-- R355. f32 multiply. -/
  | fmul (hd : Hd) (a : Src) (b : Src) (r : RM)
  /-- R356. IEEE minimum. -/
  | fmin (hd : Hd) (a : Src) (b : Src)
  /-- R356. IEEE maximum. -/
  | fmax (hd : Hd) (a : Src) (b : Src)
  /-- R356. minimumNumber. -/
  | fminn (hd : Hd) (a : Src) (b : Src)
  /-- R356. maximumNumber. -/
  | fmaxn (hd : Hd) (a : Src) (b : Src)
  /-- R357. Round f32 to an integral value. -/
  | frnd (hd : Hd) (a : Src) (r : RM)
  /-- R357. a·2^b in f32. -/
  | fscale (hd : Hd) (a : Src) (b : Src) (r : RM)
  /-- R357. Exponent of an f32. -/
  | fgetx (hd : Hd) (a : Src)
  /-- R357. Class of an f32. -/
  | fclass (hd : Hd) (a : Src)
  /-- R355. Two-lane f16 add. -/
  | hadd2 (hd : Hd) (a : Src) (b : Src) (r : RM)
  /-- R355. Two-lane f16 multiply. -/
  | hmul2 (hd : Hd) (a : Src) (b : Src) (r : RM)
  /-- R355. f32 fused multiply-add. -/
  | ffma (hd : Hd) (a : Src) (b : Src) (d : Src) (r : RM)
  /-- R355. Two-term f16 dot product added to f32. -/
  | fdot2 (hd : Hd) (a : Src) (b : Src) (d : Src)
  /-- R355. Two-term bf16 dot product added to f32. -/
  | fdot2Bf (hd : Hd) (a : Src) (b : Src) (d : Src)
  /-- R355. Two-lane f16 fused multiply-add. -/
  | hfma2 (hd : Hd) (a : Src) (b : Src) (d : Src) (r : RM)
  /-- R355. f64 add. -/
  | dadd (hd : Hd) (a : Src) (b : Src) (r : RM)
  /-- R355. f64 subtract. -/
  | dsub (hd : Hd) (a : Src) (b : Src) (r : RM)
  /-- R355. f64 multiply. -/
  | dmul (hd : Hd) (a : Src) (b : Src) (r : RM)
  /-- R356. f64 IEEE minimum. -/
  | dmin (hd : Hd) (a : Src) (b : Src)
  /-- R356. f64 IEEE maximum. -/
  | dmax (hd : Hd) (a : Src) (b : Src)
  /-- R357. Round f64 to an integral value. -/
  | drnd (hd : Hd) (a : Src) (r : RM)
  /-- R357. a·2^b in f64. -/
  | dscale (hd : Hd) (a : Src) (b : Src) (r : RM)
  /-- R357. Exponent of an f64. -/
  | dgetx (hd : Hd) (a : Src)
  /-- R357. Class of an f64. -/
  | dclass (hd : Hd) (a : Src)
  /-- R355. f64 fused multiply-add. -/
  | dfma (hd : Hd) (a : Src) (b : Src) (d : Src) (r : RM)
  /-- R359. Conversion between the eight scalar types. -/
  | cvt (hd : Hd) (a : Src) (f : NumTy) (t : NumTy) (r : RM)
  /-- R360. Narrow conversion from i32 into an ND subfield. -/
  | cvtnI32 (hd : Hd) (a : Src) (b : Src)
  /-- R360. Narrow conversion from n32 into an ND subfield. -/
  | cvtnN32 (hd : Hd) (a : Src) (b : Src)
  /-- R360. Narrow conversion from f32 into an ND subfield. -/
  | cvtnF32 (hd : Hd) (a : Src) (b : Src)
  /-- R360. Narrow conversion from f64 into an ND subfield. -/
  | cvtnF64 (hd : Hd) (a : Src) (b : Src)
  /-- R360. Pack two f32 values as f16 halves. -/
  | pk2F16 (hd : Hd) (a : Src) (b : Src) (r : RM)
  /-- R360. Pack two f32 values as bf16 halves. -/
  | pk2Bf16 (hd : Hd) (a : Src) (b : Src) (r : RM)
  /-- R361. f32 reciprocal. -/
  | rcp (hd : Hd) (a : Src)
  /-- R361. f32 reciprocal square root. -/
  | rsq (hd : Hd) (a : Src)
  /-- R361. Correctly rounded f32 square root. -/
  | sqrt (hd : Hd) (a : Src) (r : RM)
  /-- R361. 2^a in f32. -/
  | ex2 (hd : Hd) (a : Src)
  /-- R361. log2 a in f32. -/
  | lg2 (hd : Hd) (a : Src)
  /-- R361. sin(πa). -/
  | sinpi (hd : Hd) (a : Src)
  /-- R361. cos(πa). -/
  | cospi (hd : Hd) (a : Src)
  /-- R361. tanh a. -/
  | tanh (hd : Hd) (a : Src)
  /-- R361. f64 reciprocal. -/
  | drcp (hd : Hd) (a : Src)
  /-- R361. f64 reciprocal square root. -/
  | drsq (hd : Hd) (a : Src)
  /-- R364. Cross-group shuffle. -/
  | xshuf (hd : Hd) (a : Src) (b : Src) (m : XMode)
  /-- R365. Cross-group vote: all, any, ballot or uniform. -/
  | vote (hd : Hd) (a : Src) (b : Src) (m : VoteForm)
  /-- R366. Reduction over the set in a fixed tree. -/
  | reduce (hd : Hd) (a : Src) (b : Src) (o : ScanOp) (t : ScanTy)
  /-- R366. Inclusive prefix over the set. -/
  | scan (hd : Hd) (a : Src) (b : Src) (o : ScanOp) (t : ScanTy)
  /-- R366. Exclusive prefix over the set. -/
  | scanX (hd : Hd) (a : Src) (b : Src) (o : ScanOp) (t : ScanTy)
  /-- R367. Mask of threads with an equal value. -/
  | matchX (hd : Hd) (a : Src) (w : Bool)
  /-- R367. Elect the lowest-TID receiver. -/
  | elect (hd : Hd)
  /-- R368. Integer op with a forwarded operand n[-k]. -/
  | intf (hd : Hd) (a : Src) (f : Fin 32) (k : Fin 8) (o : IntfOp) (v : Bool)
  /-- R368. Floating op with a forwarded operand n[-k]. -/
  | fltf (hd : Hd) (a : Src) (f : Fin 32) (k : Fin 8) (o : FltfOp) (v : Bool) (r : RM)
  /-- R371. Uniform move. -/
  | umov (hd : Hd) (a : Src) (e : Fin 64)
  /-- R371. Uniform add. -/
  | uadd (hd : Hd) (a : Src) (b : Src) (e : Fin 64)
  /-- R371. Uniform subtract. -/
  | usub (hd : Hd) (a : Src) (b : Src) (e : Fin 64)
  /-- R371. Uniform multiply. -/
  | umul (hd : Hd) (a : Src) (b : Src) (e : Fin 64)
  /-- R371. Uniform and. -/
  | uand (hd : Hd) (a : Src) (b : Src) (e : Fin 64)
  /-- R371. Uniform or. -/
  | uor (hd : Hd) (a : Src) (b : Src) (e : Fin 64)
  /-- R371. Uniform xor. -/
  | uxor (hd : Hd) (a : Src) (b : Src) (e : Fin 64)
  /-- R371. Uniform shift left. -/
  | ushl (hd : Hd) (a : Src) (b : Src) (e : Fin 64)
  /-- R372. Uniform 32-bit cst load. -/
  | uld (hd : Hd) (a : Src) (e : Fin 64)
  /-- R372. Uniform 64-bit cst load. -/
  | uld64 (hd : Hd) (a : Src) (e : Fin 64)
  /-- R371. Uniform logical shift right. -/
  | ushr (hd : Hd) (a : Src) (b : Src) (e : Fin 64)
  /-- R371. Uniform signed compare. -/
  | ucmp (hd : Hd) (a : Src) (b : Src) (e : Fin 64)
  /-- R371. Uniform select on g(GD). -/
  | usel (hd : Hd) (a : Src) (b : Src) (e : Fin 64)
  /-- R371. Set the uniform window base. -/
  | uwin (hd : Hd) (a : Src)
  /-- R378. Load with zero extension. -/
  | ld (hd : Hd) (a : Src) (b : Src) (p : Space) (w : Width)
  /-- R378. Load with sign extension. -/
  | ldS (hd : Hd) (a : Src) (b : Src) (p : Space) (w : Width)
  /-- R380. Prefetch a line into L1. -/
  | pref (hd : Hd) (a : Src) (p : Space)
  /-- R380. L1 invalidate, L2 write-back or L2 evict of a line. -/
  | cache (hd : Hd) (a : Src) (b : Src) (p : Space)
  /-- R379. Store. -/
  | st (hd : Hd) (a : Src) (b : Src) (p : Space) (w : Width)
  /-- R384. Deterministic reduction integer add. -/
  | reddAdd (hd : Hd) (a : Src) (b : Src) (w : Width)
  /-- R384. Deterministic reduction floating add. -/
  | reddFadd (hd : Hd) (a : Src) (b : Src) (w : Width)
  /-- R384. Deterministic reduction signed minimum. -/
  | reddMin (hd : Hd) (a : Src) (b : Src) (w : Width)
  /-- R384. Deterministic reduction signed maximum. -/
  | reddMax (hd : Hd) (a : Src) (b : Src) (w : Width)
  /-- R384. Deterministic reduction unsigned minimum. -/
  | reddMinU (hd : Hd) (a : Src) (b : Src) (w : Width)
  /-- R384. Deterministic reduction unsigned maximum. -/
  | reddMaxU (hd : Hd) (a : Src) (b : Src) (w : Width)
  /-- R384. Deterministic reduction bitwise or. -/
  | reddOr (hd : Hd) (a : Src) (b : Src) (w : Width)
  /-- R381. Atomic add returning the old value. -/
  | atomAdd (hd : Hd) (a : Src) (b : Src) (p : Space) (w : Width)
  /-- R381. Atomic floating add. -/
  | atomFadd (hd : Hd) (a : Src) (b : Src) (p : Space) (w : Width)
  /-- R381. Atomic signed minimum. -/
  | atomMin (hd : Hd) (a : Src) (b : Src) (p : Space) (w : Width)
  /-- R381. Atomic signed maximum. -/
  | atomMax (hd : Hd) (a : Src) (b : Src) (p : Space) (w : Width)
  /-- R381. Atomic and. -/
  | atomAnd (hd : Hd) (a : Src) (b : Src) (p : Space) (w : Width)
  /-- R381. Atomic or. -/
  | atomOr (hd : Hd) (a : Src) (b : Src) (p : Space) (w : Width)
  /-- R381. Atomic xor. -/
  | atomXor (hd : Hd) (a : Src) (b : Src) (p : Space) (w : Width)
  /-- R381. Atomic swap. -/
  | atomSwap (hd : Hd) (a : Src) (b : Src) (p : Space) (w : Width)
  /-- R383. Non-returning atomic add. -/
  | redAdd (hd : Hd) (a : Src) (b : Src) (p : Space) (w : Width)
  /-- R383. Non-returning atomic floating add. -/
  | redFadd (hd : Hd) (a : Src) (b : Src) (p : Space) (w : Width)
  /-- R383. Non-returning atomic minimum. -/
  | redMin (hd : Hd) (a : Src) (b : Src) (p : Space) (w : Width)
  /-- R383. Non-returning atomic maximum. -/
  | redMax (hd : Hd) (a : Src) (b : Src) (p : Space) (w : Width)
  /-- R383. Non-returning atomic and. -/
  | redAnd (hd : Hd) (a : Src) (b : Src) (p : Space) (w : Width)
  /-- R383. Non-returning atomic or. -/
  | redOr (hd : Hd) (a : Src) (b : Src) (p : Space) (w : Width)
  /-- R383. Non-returning atomic xor. -/
  | redXor (hd : Hd) (a : Src) (b : Src) (p : Space) (w : Width)
  /-- R385. Look up a tag-table entry. -/
  | tagq (hd : Hd) (a : Src)
  /-- R385. Set or insert a tag-table entry. -/
  | tagset (hd : Hd) (a : Src) (b : Src)
  /-- R385. Clear a tag-table entry. -/
  | tagclr (hd : Hd) (a : Src)
  /-- R386. Configure a ring descriptor, stream record or head binding. -/
  | scfg (hd : Hd) (a : Src) (b : Src) (p : Space)
  /-- R387. Map link registers onto a stream record. -/
  | mapl (hd : Hd) (a : Src) (b : Src)
  /-- R382. Compare and swap. -/
  | cas (hd : Hd) (a : Src) (b : Src) (p : Space) (w : Width)
  /-- R197. Producer claim per thread. -/
  | racqP (hd : Hd) (a : Src)
  /-- R197. Consumer claim per thread. -/
  | racqC (hd : Hd) (a : Src)
  /-- R197. One producer claim for the set. -/
  | racqPU (hd : Hd) (a : Src)
  /-- R197. One consumer claim for the set. -/
  | racqCU (hd : Hd) (a : Src)
  /-- R198. Release a ring slot with side, phase and weight. -/
  | rrel (hd : Hd) (a : Src) (b : Src)
  /-- R199. Wait on a ring's head, tail or a slot state. -/
  | rwait (hd : Hd) (a : Src) (b : Src)
  /-- R202. Add to a count object. -/
  | carm (hd : Hd) (a : Src) (b : Src)
  /-- R202. Wait until a count object is zero. -/
  | cwait (hd : Hd) (a : Src)
  /-- R390. Create a child in the spawn frame and file it in a SPAWN bin. -/
  | spawn (hd : Hd) (a : Src) (b : Src)
  /-- R391. Mark the thread for the launch's trigger. -/
  | trig (hd : Hd)
  /-- R392. Publish forwarded registers at run end. -/
  | pub (hd : Hd)
  /-- R393. Arrive at a barrier of a level at run end. -/
  | bar (hd : Hd) (a : Src) (b : Src) (l : Fin 8)
  /-- R394. Post records to a work list or node. -/
  | post (hd : Hd) (a : Src) (b : Src) (s : Bool) (n : Fin 8)
  /-- R395. Take one record from a work list. -/
  | pick (hd : Hd) (a : Src) (n : Fin 8)
  /-- R396. Wait until a completion word is final. -/
  | qwait (hd : Hd) (a : Src) (s : Bool)
  /-- R397. Flush or count a node's bins on this core. -/
  | node (hd : Hd) (a : Src) (s : Bool)
  /-- R416. Arm a convergence register once for the set. -/
  | marm (hd : Hd) (a : Src) (b : Src) (v : Fin 16)
  /-- R417. Sign an armed operation; the last signature appends it. -/
  | msign (hd : Hd) (a : Src) (v : Fin 16)
  /-- R221. Wait for the latest arm of a convergence register to complete. -/
  | mwait (hd : Hd) (v : Fin 16)
  /-- R418. Wait for the operation of one ticket. -/
  | mdrain (hd : Hd) (a : Src) (v : Fin 16)
  /-- R419. Write TRAPM. -/
  | mcfg (hd : Hd) (a : Src) (v : Fin 16)
  /-- R419. Write the norm reference REF. -/
  | mnorm (hd : Hd) (a : Src) (v : Fin 16)
  /-- R419. Cancel an unsigned arm and clear CST and REF. -/
  | mreset (hd : Hd) (v : Fin 16)
  /-- R423. Asynchronous copy between spaces. -/
  | cpy (hd : Hd) (a : Src) (b : Src) (s : Space) (d : Space)
  /-- R423. Strided copy by a stream record. -/
  | cpys (hd : Hd) (a : Src) (b : Src) (d : Space)
  /-- R423. Indexed gather copy by a stream record. -/
  | gath (hd : Hd) (a : Src) (b : Src) (d : Space)
  /-- R424. Copy into a remote window of the pod. -/
  | cpyr (hd : Hd) (a : Src) (b : Src) (s : Space) (r : Bool)
  /-- R428. Rasterise one triangle walk step for the set. -/
  | rast (hd : Hd) (a : Src) (n : Fin 4) (l : Cull)
  /-- R429. Start ray traversal. -/
  | trace (hd : Hd) (a : Src)
  /-- R429. Resume a suspended ray with a procedural verdict. -/
  | hitr (hd : Hd) (a : Src) (b : Src)
  /-- R430. Interval union, point union or set union. -/
  | boxu (hd : Hd) (a : Src) (b : Src) (m : BoxMode)
  /-- R431. Surface-area cost. -/
  | sah (hd : Hd) (a : Src) (b : Src) (r : RM)
  /-- R432. Form a child reference. -/
  | npack (hd : Hd) (a : Src) (b : Src)
  /-- R434. Sample a texture at a given level. -/
  | tex (hd : Hd) (a : Src) (b : Src)
  /-- R434. Sample a texture with gradients. -/
  | texg (hd : Hd) (a : Src) (b : Src)
  /-- R435. Query texture level dimensions. -/
  | texq (hd : Hd) (a : Src) (b : Src)
  /-- R436. Load one texel at integer coordinates. -/
  | imld (hd : Hd) (a : Src) (b : Src) (w : Width)
  /-- R436. Store one texel at integer coordinates. -/
  | imst (hd : Hd) (a : Src) (b : Src) (w : Width)
  /-- R404. Read a special register. -/
  | rds (hd : Hd) (s : Fin 32)
  /-- R404. Write a special register at run end. -/
  | wrs (hd : Hd) (a : Src) (s : Fin 32)
  /-- R405. Raise class TRAP after the run's deferred effects. -/
  | trap (hd : Hd) (a : Src)
  /-- R406. Invalidate cached translations of a context or page. -/
  | tlbi (hd : Hd) (a : Src) (b : Src) (t : Bool)
  /-- R407. Wait n die cycles at run end. -/
  | sleep (hd : Hd) (a : Src)
  /-- R407. Stop a control core or Root until woken. -/
  | halt (hd : Hd)
  /-- R408. Thaw a frozen master if its SEQ matches, resuming or discarding. -/
  | thaw (hd : Hd) (a : Src) (b : Src)
  /-- R409. Install an AES-256-XTS key pair in every endpoint. -/
  | keyld (hd : Hd) (a : Src) (b : Src)
  /-- R162. Commit one or two result-queue entries to named registers at run end. -/
  | commit (gd : Guard) (a : Fin 16) (n : Fin 32) (w : Bool) (b : Fin 16) (m : Fin 32) (x : Bool) (v : Bool)
  /-- R169. Push a rejoin entry at run end. -/
  | rej (gd : Guard) (d : BitVec 18)
  /-- R329. No operation. -/
  | nop
  /-- R400. Continue at the packet after the run. -/
  | next (gd : Guard)
  /-- R400. Branch by a packet displacement. -/
  | bra (gd : Guard) (d : BitVec 18)
  /-- R189. Call through a frame packet, pushing the link record. -/
  | call (gd : Guard) (d : BitVec 18)
  /-- R190. Return through the link record. -/
  | ret (gd : Guard)
  /-- R402. End the thread, or park it with children outstanding. -/
  | exit (gd : Guard)
  /-- R182. Join children, parking the thread if any are outstanding. -/
  | await (gd : Guard)
  /-- R88. File the thread into a REFORM bin keyed by the target. -/
  | reform (gd : Guard) (d : BitVec 18)
  /-- R307. Return from a handler to the record's resume point. -/
  | iret (gd : Guard)
  /-- R400. Branch to a register target. -/
  | brx (gd : Guard) (a : Src)
  /-- R189. Call through a register frame-packet address. -/
  | callx (gd : Guard) (a : Src)
  /-- R88. File the thread into a REFORM.K bin keyed by a 32-bit key. -/
  | reformK (gd : Guard) (a : Src)
  /-- R326. X-word selecting narrow source subfields of its host. -/
  | nsPrefix (t : Fin 16) (a : Sel) (b : Sel) (d : Sel) (x : Bool)
  /-- R327. X-word writing its host's result as one narrow subfield. -/
  | ndPrefix (w : SubW) (i : Fin 8) (r : RM) (s : Bool) (t : Fin 16) (n : Bool) (q : Bool)
  /-- R36. Power-on or package reset: control core 0 runs the boot ROM through the stages of Table 2.1 while the other control cores stay in reset. -/
  | powerOn (b : BootIn)
  /-- R15. A die's voltage-frequency controller changes its clock in 25 MHz steps; crossing FIFOs hold messages while the PLL relocks. -/
  | clockChange (die mhz : Nat)
  /-- R33. Celeriac lowers clock ceilings, Marrow dies first, to keep the package within 4.4 kW. -/
  | powerCap (die mhz : Nat)
  /-- R34. A die reaches 105 °C junction temperature and takes its clock to 400 MHz. -/
  | thermalThrottle (die : Nat)
  /-- R34. A throttled die falls below 100 °C and leaves the 400 MHz limit. -/
  | thermalRecover (die : Nat)
  /-- R34. A die reaches 115 °C: machine check, every context terminated, package power removed. -/
  | thermalShutdown (die : Nat)
  /-- R34. Coolant flow falls below 4 L/min and Celeriac holds every die at 400 MHz. -/
  | coolantFlowLow
  /-- R18. A flit fails its CRC and the adapter replays it from its retry buffer. -/
  | flitReplay (m : LinkModule)
  /-- R18. A link module exhausts lane repair or fails 1,000 replays in 1 ms and firmware takes it out of service. -/
  | moduleRetire (m : LinkModule)
  /-- R22. Stack Link READ command returns one or two 64-byte lines. -/
  | stackRead (stk : Nat) (hdr : Line) (data : List Line)
  /-- R22. Stack Link WRITE command writes every byte of the line(s) and clears poison. -/
  | stackWrite (stk : Nat) (hdr : Line) (data : List Line)
  /-- R22. Stack Link WRITEM command writes the bytes whose MASK bit is set; poison stays. -/
  | stackWritem (stk : Nat) (hdr : Line) (data : List Line)
  /-- R24. Stack Link ATOMIC performs the SUB read-modify-write of Table 1.7 indivisibly and returns the old value. -/
  | stackAtomic (stk : Nat) (hdr : Line) (data : List Line)
  /-- R25. ROOT LOADI copies bytes from the stack into Root SRAM, refused while Root runs. -/
  | rootLoadi (stk : Nat) (hdr : Line) (data : List Line)
  /-- R25. ROOT START starts Root at an SRAM offset with n0-n1 and a completion word address. -/
  | rootStart (stk : Nat) (hdr : Line) (data : List Line)
  /-- R25. ROOT STOP stops Root at its next run boundary without writing the completion word. -/
  | rootStop (stk : Nat) (hdr : Line) (data : List Line)
  /-- R25. ROOT STATUS returns Root's state, fault class and PC offset. -/
  | rootStatus (stk : Nat) (hdr : Line) (data : List Line)
  /-- R22. Stack Link ACCT writes an entry of Root's access table, accepted only from control cores. -/
  | stackAcct (stk : Nat) (hdr : Line) (data : List Line)
  /-- R26. Stack Link DISC returns the geometry page of the stack. -/
  | stackDisc (stk : Nat) (hdr : Line) (data : List Line)
  /-- R27. Stack Link ERRPOLL returns up to four pending error reports. -/
  | stackErrpoll (stk : Nat) (hdr : Line) (data : List Line)
  /-- R23. A Stack Link response arrives at the Chard endpoint and is matched to its request by tag. -/
  | stackResponse (stk tag : Nat)
  /-- R27. The base die's 24-hour scrub pass over the stack, correcting and poisoning lines. -/
  | stackScrub (stk line : Nat) (found : ScrubFound)
  /-- R122. A corrected SRAM error is counted toward the retirement thresholds without changing any value. -/
  | sramCorrectedError (unit : HwUnit)
  /-- R122. An uncorrectable SRAM error is handled by location: refetch, poison, fault or context termination. -/
  | sramUncorrectableError (place : SramPlace)
  /-- R48. Once every context is DRAINED by an ALL drain, pending retirements are applied, routes and placement recomputed and contexts resumed or destroyed. -/
  | harvestApply
  /-- R43. A target refuses a request: DENY completion, violation record to Celeriac, and the master freezes. -/
  | accessRefusal (mid tgt : Nat) (cls : ReqClass) (addr : Nat)
  /-- R42. A write to an access-table entry, refused if not from a control core or if the entry is locked. -/
  | accessTableWrite (mid tgt idx : Nat) (v : BitVec 128)
  /-- R28. A request from below a PCIe root sub-port enters with its port's master id and passes the target's access table. -/
  | pcieInboundRequest (port : Nat) (wr : Bool) (pa len : Nat) (data : List Byte)
  /-- R41. SPDM GET_VERSION request answered on the management port. -/
  | getVersion
  /-- R41. SPDM GET_CAPABILITIES request answered. -/
  | getCapabilities
  /-- R41. SPDM NEGOTIATE_ALGORITHMS request answered with Ed25519 and SHA-512. -/
  | negotiateAlgorithms
  /-- R41. SPDM GET_DIGESTS request answered. -/
  | getDigests
  /-- R41. SPDM GET_CERTIFICATE request answered with the certificate chain. -/
  | getCertificate (off len : Nat)
  /-- R41. SPDM CHALLENGE answered with a signature by the alias key. -/
  | challenge (nonce : BitVec 256)
  /-- R41. SPDM GET_MEASUREMENTS returns measurement blocks 1-4. -/
  | getMeasurements (r : MeasureReq)
  /-- R41. Any other SPDM request is answered with ERROR UnsupportedRequest. -/
  | spdmUnsupportedRequest (code : Nat)
  /-- R45. A Redfish request over HTTPS is served from Chassis, Processor or Memory resources. -/
  | redfishRequest (res index : Nat)
  /-- R45. UpdateService writes an image to the inactive slot and verifies it under R38. -/
  | updateserviceImageWrite (rec : List Byte)
  /-- R45. Once per second before stage 0x0F, the management port sends a boot-status frame. -/
  | bootStatusFrame
  /-- R47. CTXCMD CREATE checks a descriptor in order and makes a FREE context LIVE. -/
  | create (mid ctx desc : Nat)
  /-- R47. CTXCMD DRAIN makes a LIVE context (or every one with ALL) DRAINING. -/
  | drain (mid : Nat) (all : Bool) (ctx : Nat)
  /-- R47. CTXCMD RESUME returns a DRAINED context to LIVE and rereads the fault-area header. -/
  | resume (mid ctx : Nat)
  /-- R47. CTXCMD DESTROY aborts the context's launches, writes back its lines and frees it. -/
  | destroy (mid ctx : Nat)
  /-- R46. A CTXCMD write with an unassigned OP gives RESULT 6. -/
  | ctxcmdBadOp (mid op ctx : Nat)
  /-- R54. A QCFG write enables or disables a queue, resetting HEAD, ACC and ready bits on enable. -/
  | qcfgWrite (mid ctx q : Nat) (v : DWord)
  /-- R55. A QDB write sets the ready bit of a slot, or is ignored and sets ERR. -/
  | queueDoorbell (mid ctx q : Nat) (v : DWord)
  /-- R58. A QSTS write clears STALL or ERR; clearing STALL makes the front end read slot HEAD again. -/
  | qstsWrite (mid ctx q : Nat) (v : DWord)
  /-- R55. The front end accepts the ready HEAD slot: reads the packet, checks SEQ, advances HEAD and ACC, checks the packet and writes PENDING. -/
  | slotAccept (ctx q : Nat)
  /-- R65. The front end reads a dependence record of a launch it does not hold, satisfying or failing the dependence. -/
  | drecRead (lid dep : Nat)
  /-- R68. The front end reads an indirect launch's count once, completing BADCOUNT, FAULT or OK on zero as needed. -/
  | countRead (lid : Nat)
  /-- R62. The front end reads an ordered launch's defaults table once before admission. -/
  | defaultsRead (lid : Nat)
  /-- R61. The front end reads the launch's uniform block once before admission. -/
  | uniformBlockRead (lid : Nat)
  /-- R452. The front end reads the launch's role table once before admission. -/
  | roleTableRead (lid : Nat)
  /-- R74. The front end admits an eligible launch in key order when its first residency fits, with backfill and reservation. -/
  | launchAdmit (lid : Nat)
  /-- R67. QCLK passes DEADLINE of an unadmitted launch of a drop queue and it completes MISSED. -/
  | deadlineMiss (lid : Nat)
  /-- R82. The front end places the next group of a launch on a tile, core and lane. -/
  | groupPlace (lid : Nat)
  /-- R76. A deadlined launch blocked for 10 µs chooses victim cores and starts their saves. -/
  | preemptDecision (lid : Nat)
  /-- R310. A residency's state is saved at instruction boundaries once pending entries, scoreboard entries and stalls have cleared. -/
  | residencySave (rid : Nat)
  /-- R78. A saved residency is restored to its own core and resumes at its saved words. -/
  | residencyRestore (rid : Nat)
  /-- R66. Every counted thread has executed TRIG or ended: batches close and TRIGGERED is written. -/
  | triggerFire (lid : Nat)
  /-- R69. The front end reconciles the launch's writes and writes its final completion status. -/
  | launchComplete (lid : Nat)
  /-- R94. The termination detector reports device quiescence and completes the live node launches. -/
  | quiescenceReport (ctx dev : Nat)
  /-- R90. 16,384 cycles after its first entry, a REFORM, SPAWN or CONT bin seals with fewer than W entries. -/
  | binFlushTimeout (core bin : Nat)
  /-- R87. NTIMER·1,024 cycles after its first record, a NODE bin seals and launches a group. -/
  | nodeBinTimeout (core bin : Nat)
  /-- R91. A sealed bin is placed as a group on its own core once there is room. -/
  | binPlace (core bin : Nat)
  /-- R91. A sealed bin not placed within 4,096 cycles goes to the first core of the quad or tile with room. -/
  | binSteal (core bin : Nat)
  /-- R95. Every 4,096 cycles each quad reads ring occupancy and adjusts role group counts by one. -/
  | roleEvaluation (quad : Nat)
  /-- R97. A lane chooses a ready group and a set of its threads and starts a run. -/
  | runStart (lane : Nat)
  /-- R164. At run end, commits, WRS, uniform writes, PUB, REJ, the K word and waits take effect in order. -/
  | runEnd (lane : Nat)
  /-- R96. A ready waiting group that has waited 8,192 cycles displaces the oldest unpinned active group. -/
  | activeSetDisplace (lane : Nat)
  /-- R165. Data for a pending entry arrives and fills the entry or its committed register. -/
  | resultArrival (arr : Nat)
  /-- R173. An engine or stream fills an empty mapped link register and sets it full. -/
  | linkFill (thr : Nat)
  /-- R135. Every participant has arrived and the barrier instance completes, giving its edges. -/
  | barrierComplete (bar : Nat)
  /-- R407. A SLEEP wait ends n die cycles after arrival. -/
  | sleepExpire (thr : Nat)
  /-- R203. A queued copy operation starts in queue order on its copy engine. -/
  | copyStart (quad : Nat)
  /-- R202. A copy's writes have taken effect; its count object is decremented or its ring slot released. -/
  | copyComplete (quad op : Nat)
  /-- R426. A copy fails after issue: it stops, writes a fault record, signals its target and marks the launch FAULT. -/
  | copyEngineError (quad op : Nat)
  /-- R220. At a chunk boundary the array serves the lowest-key entry whose slots are FULL and computes the chunk. -/
  | matrixChunkServe (arr : Nat)
  /-- R229. After the last chunk, the drain rounds each FX element and writes outputs, scales and norm record to AM. -/
  | matrixDrain (arr : Nat)
  /-- R234. An operation completes, merges its status into CST and advances DONESEQ. -/
  | matrixOpComplete (arr : Nat)
  /-- R282. A traversal unit finishes a ray and fills H0-H2. -/
  | traversalResult (arr : Nat)
  /-- R291. The texture unit finishes sampling and fills the result entries. -/
  | textureResult (arr : Nat)
  /-- R149. A pod frame arrives and its remote line takes effect at its home, or it acknowledges a line sent before. -/
  | podFrameReceive (port pa : Nat) (mask : BitVec 64) (line : Line) (kind : PodKind)
  /-- R149. A lost pod frame is sent again, or the transfer fails after retries. -/
  | podFrameRetransmit (frame : Nat) (ok : Bool)
  /-- R393. A level-6 barrier report from another package arrives and counts toward the instance. -/
  | podBarrierReport (src : PodSrc) (ctx id count : Nat)
  /-- R298. A thread fault waiting on a full fault area writes its record once RDIDX advances. -/
  | faultAreaRoom (thr : Nat)
  /-- R303. FSVC ACT 0 resumes the thread at F3 with F6 and F7 values and optional NEWSTKL. -/
  | fsvcResume (core : Nat) (w0 : DWord)
  /-- R303. FSVC ACT 1 delivers the fault to the handler, or terminates when TRAPV is 0. -/
  | fsvcDeliver (core : Nat) (w0 : DWord)
  /-- R303. FSVC ACT 2 terminates the faulting thread. -/
  | fsvcTerminate (core : Nat) (w0 : DWord)
  /-- R303. FSVC ACT 3 gives LAST 1 and changes nothing. -/
  | fsvcInvalid (core : Nat) (w0 : DWord)
  /-- R304. A VECSET write sets the trap vector of a context's residencies at their next run boundaries. -/
  | vecset (core : Nat) (w0 : DWord)
  /-- R402. A WAKE write restarts an exited or halted control core. -/
  | wake (mid core : Nat) (v : DWord)
  /-- R5. A write to a control register with no behaviour of its own (queue heads, FRZSEL, QBASE and the like). -/
  | registerWrite (mid off : Nat) (v : DWord)
  /-- R34. Coolant flow rises back to at least 4 L/min and Celeriac stops holding every die at 400 MHz. -/
  | coolantFlowRestore
deriving DecidableEq, Repr

end Sys2Proof
end

