-- ==== Sys2Proof/WellFormed.lean ====
section
/-! DEFINITION. Well-formedness of an instruction: what R320 to R327 and the entries ask of the fields that the types of
Syntax leave open. -/
namespace Sys2Proof

/-- G = 0b1111 would mean never and is ILLEGAL (R320). -/
def Guard.ok (g : Guard) : Bool := !(g.neg && g.p == 7)

/-- The operations and types REDUCE and SCAN combine (R366). -/
def scanOk (o : ScanOp) (t : ScanTy) : Bool :=
  match o, t with
  | .and, .f32 | .and, .f64 | .and, .f32sr | .and, .f64sr => false
  | .or, .f32 | .or, .f64 | .or, .f32sr | .or, .f64sr => false
  | .xor, .f32 | .xor, .f64 | .xor, .f32sr | .xor, .f64sr => false
  | .min, .f32sr | .min, .f64sr | .max, .f32sr | .max, .f64sr => false
  | _, _ => true

/-- An NS selection: index 0 for the whole source, and within the count of its width otherwise (R326). -/
def Sel.ok : Sel → Bool
  | .whole i => i == 0
  | .sub w i => decide (i.val < w.count)

/-- A well-formed instruction: one whose word decoding accepts (R320 to R327 and the entries of chapters 14 to 16).
Events carry no encoding and are always well formed. -/
def Instr.wf : Instr → Bool
  | .add hd _ _ _ s u => hd.gd.ok && (s || !u)
  | .sub hd _ _ _ s u => hd.gd.ok && (s || !u)
  | .mul hd _ _ w v u => hd.gd.ok && ((!v || !w) && (!u || v))
  | .mulh hd _ _ _ _ => hd.gd.ok
  | .div hd _ _ _ _ => hd.gd.ok
  | .rem hd _ _ _ _ => hd.gd.ok
  | .min hd _ _ _ _ => hd.gd.ok
  | .max hd _ _ _ _ => hd.gd.ok
  | .abs hd _ _ _ => hd.gd.ok
  | .neg hd _ _ _ => hd.gd.ok
  | .and hd _ _ _ => hd.gd.ok
  | .or hd _ _ _ => hd.gd.ok
  | .xor hd _ _ _ => hd.gd.ok
  | .andn hd _ _ _ => hd.gd.ok
  | .not hd _ _ => hd.gd.ok
  | .shl hd _ _ _ => hd.gd.ok
  | .shr hd _ _ _ => hd.gd.ok
  | .sar hd _ _ _ => hd.gd.ok
  | .rot hd _ _ _ => hd.gd.ok
  | .popc hd _ _ => hd.gd.ok
  | .clz hd _ _ => hd.gd.ok
  | .ctz hd _ _ => hd.gd.ok
  | .brev hd _ _ => hd.gd.ok
  | .mov hd _ _ => hd.gd.ok
  | .sel hd _ _ _ => hd.gd.ok
  | .sel64 hd _ _ _ => hd.gd.ok
  | .bfx hd _ _ _ => hd.gd.ok
  | .dot4 hd _ _ _ => hd.gd.ok
  | .dotn hd _ _ _ => hd.gd.ok
  | .unpackp hd _ _ => hd.gd.ok
  | .mad hd _ _ _ => hd.gd.ok
  | .madw hd _ _ _ => hd.gd.ok
  | .addc hd _ _ _ => hd.gd.ok
  | .subb hd _ _ _ => hd.gd.ok
  | .shf hd _ _ _ => hd.gd.ok
  | .bfi hd _ _ _ => hd.gd.ok
  | .perm hd _ _ _ => hd.gd.ok
  | .lea hd _ _ _ => hd.gd.ok
  | .addImm hd _ _ => hd.gd.ok
  | .andImm hd _ _ => hd.gd.ok
  | .orImm hd _ _ => hd.gd.ok
  | .xorImm hd _ _ => hd.gd.ok
  | .shlImm hd _ _ => hd.gd.ok
  | .shrImm hd _ _ => hd.gd.ok
  | .sarImm hd _ _ => hd.gd.ok
  | .mulImm hd _ _ => hd.gd.ok
  | .cmp hd _ _ _ _ _ _ _ => hd.gd.ok
  | .fcmp hd _ _ _ _ _ => hd.gd.ok
  | .dcmp hd _ _ _ _ _ => hd.gd.ok
  | .fcmpH hd _ _ _ _ _ => hd.gd.ok
  | .plop hd _ _ _ _ => hd.gd.ok
  | .packp hd => hd.gd.ok
  | .fadd hd _ _ _ => hd.gd.ok
  | .fsub hd _ _ _ => hd.gd.ok
  | .fmul hd _ _ _ => hd.gd.ok
  | .fmin hd _ _ => hd.gd.ok
  | .fmax hd _ _ => hd.gd.ok
  | .fminn hd _ _ => hd.gd.ok
  | .fmaxn hd _ _ => hd.gd.ok
  | .frnd hd _ _ => hd.gd.ok
  | .fscale hd _ _ _ => hd.gd.ok
  | .fgetx hd _ => hd.gd.ok
  | .fclass hd _ => hd.gd.ok
  | .hadd2 hd _ _ _ => hd.gd.ok
  | .hmul2 hd _ _ _ => hd.gd.ok
  | .ffma hd _ _ _ _ => hd.gd.ok
  | .fdot2 hd _ _ _ => hd.gd.ok
  | .fdot2Bf hd _ _ _ => hd.gd.ok
  | .hfma2 hd _ _ _ _ => hd.gd.ok
  | .dadd hd _ _ _ => hd.gd.ok
  | .dsub hd _ _ _ => hd.gd.ok
  | .dmul hd _ _ _ => hd.gd.ok
  | .dmin hd _ _ => hd.gd.ok
  | .dmax hd _ _ => hd.gd.ok
  | .drnd hd _ _ => hd.gd.ok
  | .dscale hd _ _ _ => hd.gd.ok
  | .dgetx hd _ => hd.gd.ok
  | .dclass hd _ => hd.gd.ok
  | .dfma hd _ _ _ _ => hd.gd.ok
  | .cvt hd _ f t r => hd.gd.ok && (f != t && (!(f.isInt && t.isInt) || r == .rne))
  | .cvtnI32 hd _ _ => hd.gd.ok
  | .cvtnN32 hd _ _ => hd.gd.ok
  | .cvtnF32 hd _ _ => hd.gd.ok
  | .cvtnF64 hd _ _ => hd.gd.ok
  | .pk2F16 hd _ _ _ => hd.gd.ok
  | .pk2Bf16 hd _ _ _ => hd.gd.ok
  | .rcp hd _ => hd.gd.ok
  | .rsq hd _ => hd.gd.ok
  | .sqrt hd _ _ => hd.gd.ok
  | .ex2 hd _ => hd.gd.ok
  | .lg2 hd _ => hd.gd.ok
  | .sinpi hd _ => hd.gd.ok
  | .cospi hd _ => hd.gd.ok
  | .tanh hd _ => hd.gd.ok
  | .drcp hd _ => hd.gd.ok
  | .drsq hd _ => hd.gd.ok
  | .xshuf hd _ _ _ => hd.gd.ok
  | .vote hd _ b m => hd.gd.ok && (m == .ballot || b == .zero)
  | .reduce hd _ _ o t => hd.gd.ok && scanOk o t
  | .scan hd _ _ o t => hd.gd.ok && scanOk o t
  | .scanX hd _ _ o t => hd.gd.ok && scanOk o t
  | .matchX hd _ _ => hd.gd.ok
  | .elect hd => hd.gd.ok
  | .intf hd a _ _ o v => hd.gd.ok && (o != .mov || (!v && a == .zero))
  | .fltf hd _ _ _ o _ r => hd.gd.ok && (!(o == .fmin || o == .fmax) || r == .rne)
  | .umov hd _ _ => hd.gd.ok
  | .uadd hd _ _ _ => hd.gd.ok
  | .usub hd _ _ _ => hd.gd.ok
  | .umul hd _ _ _ => hd.gd.ok
  | .uand hd _ _ _ => hd.gd.ok
  | .uor hd _ _ _ => hd.gd.ok
  | .uxor hd _ _ _ => hd.gd.ok
  | .ushl hd _ _ _ => hd.gd.ok
  | .uld hd _ _ => hd.gd.ok
  | .uld64 hd _ _ => hd.gd.ok
  | .ushr hd _ _ _ => hd.gd.ok
  | .ucmp hd _ _ _ => hd.gd.ok
  | .usel hd _ _ _ => hd.gd.ok
  | .uwin hd _ => hd.gd.ok
  | .ld hd _ _ _ _ => hd.gd.ok
  | .ldS hd _ _ _ _ => hd.gd.ok
  | .pref hd _ _ => hd.gd.ok
  | .cache hd _ _ _ => hd.gd.ok
  | .st hd _ _ _ _ => hd.gd.ok
  | .reddAdd hd _ _ _ => hd.gd.ok
  | .reddFadd hd _ _ _ => hd.gd.ok
  | .reddMin hd _ _ _ => hd.gd.ok
  | .reddMax hd _ _ _ => hd.gd.ok
  | .reddMinU hd _ _ _ => hd.gd.ok
  | .reddMaxU hd _ _ _ => hd.gd.ok
  | .reddOr hd _ _ _ => hd.gd.ok
  | .atomAdd hd _ _ _ _ => hd.gd.ok
  | .atomFadd hd _ _ _ _ => hd.gd.ok
  | .atomMin hd _ _ _ _ => hd.gd.ok
  | .atomMax hd _ _ _ _ => hd.gd.ok
  | .atomAnd hd _ _ _ _ => hd.gd.ok
  | .atomOr hd _ _ _ _ => hd.gd.ok
  | .atomXor hd _ _ _ _ => hd.gd.ok
  | .atomSwap hd _ _ _ _ => hd.gd.ok
  | .redAdd hd _ _ _ _ => hd.gd.ok
  | .redFadd hd _ _ _ _ => hd.gd.ok
  | .redMin hd _ _ _ _ => hd.gd.ok
  | .redMax hd _ _ _ _ => hd.gd.ok
  | .redAnd hd _ _ _ _ => hd.gd.ok
  | .redOr hd _ _ _ _ => hd.gd.ok
  | .redXor hd _ _ _ _ => hd.gd.ok
  | .tagq hd _ => hd.gd.ok
  | .tagset hd _ _ => hd.gd.ok
  | .tagclr hd _ => hd.gd.ok
  | .scfg hd _ _ _ => hd.gd.ok
  | .mapl hd _ _ => hd.gd.ok
  | .cas hd _ _ _ _ => hd.gd.ok
  | .racqP hd _ => hd.gd.ok
  | .racqC hd _ => hd.gd.ok
  | .racqPU hd _ => hd.gd.ok
  | .racqCU hd _ => hd.gd.ok
  | .rrel hd _ _ => hd.gd.ok
  | .rwait hd _ _ => hd.gd.ok
  | .carm hd _ _ => hd.gd.ok
  | .cwait hd _ => hd.gd.ok
  | .spawn hd _ _ => hd.gd.ok
  | .trig hd => hd.gd.ok
  | .pub hd => hd.gd.ok
  | .bar hd a b l => hd.gd.ok && (l == 6 || (a == .zero && b == .zero))
  | .post hd _ _ _ _ => hd.gd.ok
  | .pick hd _ _ => hd.gd.ok
  | .qwait hd _ _ => hd.gd.ok
  | .node hd _ _ => hd.gd.ok
  | .marm hd _ _ _ => hd.gd.ok
  | .msign hd _ _ => hd.gd.ok
  | .mwait hd _ => hd.gd.ok
  | .mdrain hd _ _ => hd.gd.ok
  | .mcfg hd _ _ => hd.gd.ok
  | .mnorm hd _ _ => hd.gd.ok
  | .mreset hd _ => hd.gd.ok
  | .cpy hd _ _ _ _ => hd.gd.ok
  | .cpys hd _ _ _ => hd.gd.ok
  | .gath hd _ _ _ => hd.gd.ok
  | .cpyr hd _ _ _ _ => hd.gd.ok
  | .rast hd _ _ _ => hd.gd.ok
  | .trace hd _ => hd.gd.ok
  | .hitr hd _ _ => hd.gd.ok
  | .boxu hd _ _ _ => hd.gd.ok
  | .sah hd _ _ _ => hd.gd.ok
  | .npack hd _ _ => hd.gd.ok
  | .tex hd _ _ => hd.gd.ok
  | .texg hd _ _ => hd.gd.ok
  | .texq hd _ _ => hd.gd.ok
  | .imld hd _ _ _ => hd.gd.ok
  | .imst hd _ _ _ => hd.gd.ok
  | .rds hd _ => hd.gd.ok
  | .wrs hd _ _ => hd.gd.ok
  | .trap hd _ => hd.gd.ok
  | .tlbi hd a _ t => hd.gd.ok && (t || a == .zero)
  | .sleep hd _ => hd.gd.ok
  | .halt hd => hd.gd.ok
  | .thaw hd _ _ => hd.gd.ok
  | .keyld hd _ _ => hd.gd.ok
  | .commit gd _ _ _ b m x v => gd.ok && (v || (b == 0 && m == 0 && !x))
  | .rej gd _ => gd.ok
  | .nop => true
  | .next gd => gd.ok
  | .bra gd _ => gd.ok
  | .call gd _ => gd.ok
  | .ret gd => gd.ok
  | .exit gd => gd.ok
  | .await gd => gd.ok
  | .reform gd _ => gd.ok
  | .iret gd => gd.ok
  | .brx gd _ => gd.ok
  | .callx gd _ => gd.ok
  | .reformK gd _ => gd.ok
  | .nsPrefix _ a b d _ => (a.ok && b.ok && d.ok)
  | .ndPrefix w i _ _ t n q => (decide (i.val < w.count) && (if n then t == 0 else !q))
  | .powerOn _ => true
  | .clockChange _ _ => true
  | .powerCap _ _ => true
  | .thermalThrottle _ => true
  | .thermalRecover _ => true
  | .thermalShutdown _ => true
  | .coolantFlowLow => true
  | .flitReplay _ => true
  | .moduleRetire _ => true
  | .stackRead _ _ _ => true
  | .stackWrite _ _ _ => true
  | .stackWritem _ _ _ => true
  | .stackAtomic _ _ _ => true
  | .rootLoadi _ _ _ => true
  | .rootStart _ _ _ => true
  | .rootStop _ _ _ => true
  | .rootStatus _ _ _ => true
  | .stackAcct _ _ _ => true
  | .stackDisc _ _ _ => true
  | .stackErrpoll _ _ _ => true
  | .stackResponse _ _ => true
  | .stackScrub _ _ _ => true
  | .sramCorrectedError _ => true
  | .sramUncorrectableError _ => true
  | .harvestApply => true
  | .accessRefusal _ _ _ _ => true
  | .accessTableWrite _ _ _ _ => true
  | .pcieInboundRequest _ _ _ _ _ => true
  | .getVersion => true
  | .getCapabilities => true
  | .negotiateAlgorithms => true
  | .getDigests => true
  | .getCertificate _ _ => true
  | .challenge _ => true
  | .getMeasurements _ => true
  | .spdmUnsupportedRequest _ => true
  | .redfishRequest _ _ => true
  | .updateserviceImageWrite _ => true
  | .bootStatusFrame => true
  | .create _ _ _ => true
  | .drain _ _ _ => true
  | .resume _ _ => true
  | .destroy _ _ => true
  | .ctxcmdBadOp _ _ _ => true
  | .qcfgWrite _ _ _ _ => true
  | .queueDoorbell _ _ _ _ => true
  | .qstsWrite _ _ _ _ => true
  | .slotAccept _ _ => true
  | .drecRead _ _ => true
  | .countRead _ => true
  | .defaultsRead _ => true
  | .uniformBlockRead _ => true
  | .roleTableRead _ => true
  | .launchAdmit _ => true
  | .deadlineMiss _ => true
  | .groupPlace _ => true
  | .preemptDecision _ => true
  | .residencySave _ => true
  | .residencyRestore _ => true
  | .triggerFire _ => true
  | .launchComplete _ => true
  | .quiescenceReport _ _ => true
  | .binFlushTimeout _ _ => true
  | .nodeBinTimeout _ _ => true
  | .binPlace _ _ => true
  | .binSteal _ _ => true
  | .roleEvaluation _ => true
  | .runStart _ => true
  | .runEnd _ => true
  | .activeSetDisplace _ => true
  | .resultArrival _ => true
  | .linkFill _ => true
  | .barrierComplete _ => true
  | .sleepExpire _ => true
  | .copyStart _ => true
  | .copyComplete _ _ => true
  | .copyEngineError _ _ => true
  | .matrixChunkServe _ => true
  | .matrixDrain _ => true
  | .matrixOpComplete _ => true
  | .traversalResult _ => true
  | .textureResult _ => true
  | .podFrameReceive _ _ _ _ _ => true
  | .podFrameRetransmit _ _ => true
  | .podBarrierReport _ _ _ _ => true
  | .faultAreaRoom _ => true
  | .fsvcResume _ _ => true
  | .fsvcDeliver _ _ => true
  | .fsvcTerminate _ _ => true
  | .fsvcInvalid _ _ => true
  | .vecset _ _ => true
  | .wake _ _ _ => true
  | .registerWrite _ _ _ => true
  | .coolantFlowRestore => true

/-- The instruction words: the constructors that have an encoding. -/
def Instr.isWord : Instr → Bool
  | .powerOn .. => false
  | .clockChange .. => false
  | .powerCap .. => false
  | .thermalThrottle .. => false
  | .thermalRecover .. => false
  | .thermalShutdown .. => false
  | .coolantFlowLow .. => false
  | .flitReplay .. => false
  | .moduleRetire .. => false
  | .stackRead .. => false
  | .stackWrite .. => false
  | .stackWritem .. => false
  | .stackAtomic .. => false
  | .rootLoadi .. => false
  | .rootStart .. => false
  | .rootStop .. => false
  | .rootStatus .. => false
  | .stackAcct .. => false
  | .stackDisc .. => false
  | .stackErrpoll .. => false
  | .stackResponse .. => false
  | .stackScrub .. => false
  | .sramCorrectedError .. => false
  | .sramUncorrectableError .. => false
  | .harvestApply .. => false
  | .accessRefusal .. => false
  | .accessTableWrite .. => false
  | .pcieInboundRequest .. => false
  | .getVersion .. => false
  | .getCapabilities .. => false
  | .negotiateAlgorithms .. => false
  | .getDigests .. => false
  | .getCertificate .. => false
  | .challenge .. => false
  | .getMeasurements .. => false
  | .spdmUnsupportedRequest .. => false
  | .redfishRequest .. => false
  | .updateserviceImageWrite .. => false
  | .bootStatusFrame .. => false
  | .create .. => false
  | .drain .. => false
  | .resume .. => false
  | .destroy .. => false
  | .ctxcmdBadOp .. => false
  | .qcfgWrite .. => false
  | .queueDoorbell .. => false
  | .qstsWrite .. => false
  | .slotAccept .. => false
  | .drecRead .. => false
  | .countRead .. => false
  | .defaultsRead .. => false
  | .uniformBlockRead .. => false
  | .roleTableRead .. => false
  | .launchAdmit .. => false
  | .deadlineMiss .. => false
  | .groupPlace .. => false
  | .preemptDecision .. => false
  | .residencySave .. => false
  | .residencyRestore .. => false
  | .triggerFire .. => false
  | .launchComplete .. => false
  | .quiescenceReport .. => false
  | .binFlushTimeout .. => false
  | .nodeBinTimeout .. => false
  | .binPlace .. => false
  | .binSteal .. => false
  | .roleEvaluation .. => false
  | .runStart .. => false
  | .runEnd .. => false
  | .activeSetDisplace .. => false
  | .resultArrival .. => false
  | .linkFill .. => false
  | .barrierComplete .. => false
  | .sleepExpire .. => false
  | .copyStart .. => false
  | .copyComplete .. => false
  | .copyEngineError .. => false
  | .matrixChunkServe .. => false
  | .matrixDrain .. => false
  | .matrixOpComplete .. => false
  | .traversalResult .. => false
  | .textureResult .. => false
  | .podFrameReceive .. => false
  | .podFrameRetransmit .. => false
  | .podBarrierReport .. => false
  | .faultAreaRoom .. => false
  | .fsvcResume .. => false
  | .fsvcDeliver .. => false
  | .fsvcTerminate .. => false
  | .fsvcInvalid .. => false
  | .vecset .. => false
  | .wake .. => false
  | .registerWrite .. => false
  | .coolantFlowRestore .. => false
  | _ => true

end Sys2Proof
end

