-- ==== Sys2Proof/Decode.lean ====
section
/-! DEFINITION. Decoding of instruction words (chapter 13), total on every word and rejecting by name, and the
encoder written from the same tables. -/
namespace Sys2Proof

/-- Why decoding refuses a word (R319): a field value the format leaves undefined is ILLEGAL, a defined value that is
not allowed is OPERAND. -/
inductive DecErr where
  | illegal | operand
deriving DecidableEq, Repr

/-- Bits [hi:lo] of a word (R4). -/
def fld (n hi lo : Nat) : Nat := n / 2 ^ lo % 2 ^ (hi + 1 - lo)

/-- Bit i of a word. -/
def bit (n i : Nat) : Bool := n / 2 ^ i % 2 == 1

/-- A Boolean as a bit. -/
def b2n : Bool → Nat
  | true => 1
  | false => 0

/-- The guard field (R320). -/
def gdOf (n : Nat) : Guard := ⟨bit n 24, Fin.ofNat 8 (fld n 23 21)⟩

/-- The chain bit and the guard (R317, R320). -/
def hdOf (n : Nat) : Hd := ⟨bit n 31, gdOf n⟩

/-- The guard's bits in place. -/
def Guard.enc (g : Guard) : Nat := b2n g.neg * 16777216 + g.p.val * 2097152

/-- The chain bit and guard in place. -/
def Hd.enc (h : Hd) : Nat := b2n h.c * 2147483648 + h.gd.enc

/-- A source code (Table 13.4). -/
def Src.dec (c : Nat) : Src :=
  if c < 32 then .n (Fin.ofNat 32 c)
  else if c < 48 then .q (Fin.ofNat 16 (c - 32))
  else if c < 56 then .gw (Fin.ofNat 8 (c - 48))
  else match c with
    | 56 => .zero
    | 57 => .lit
    | 58 => .tid
    | 59 => .iid
    | _ => .h (Fin.ofNat 4 (c - 60))

/-- The code of a source (Table 13.4). -/
def Src.enc : Src → Nat
  | .n i => i.val
  | .q k => 32 + k.val
  | .gw i => 48 + i.val
  | .zero => 56
  | .lit => 57
  | .tid => 58
  | .iid => 59
  | .h i => 60 + i.val

/-- Codes of RM (R246). -/
def RM.enc : RM → Nat
  | .rne => 0
  | .rtz => 1
  | .rup => 2
  | .rdn => 3
  | .rna => 4
  | .sr => 5

/-- RM of a code; the codes left over are ILLEGAL (R246). -/
def RM.dec (c : Nat) : Except DecErr RM :=
  match c with
  | 0 => .ok .rne
  | 1 => .ok .rtz
  | 2 => .ok .rup
  | 3 => .ok .rdn
  | 4 => .ok .rna
  | 5 => .ok .sr
  | _ => .error .illegal

/-- Codes of Rel (R351). -/
def Rel.enc : Rel → Nat
  | .eq => 0
  | .ne => 1
  | .lt => 2
  | .le => 3
  | .gt => 4
  | .ge => 5

/-- Rel of a code; the codes left over are ILLEGAL (R351). -/
def Rel.dec (c : Nat) : Except DecErr Rel :=
  match c with
  | 0 => .ok .eq
  | 1 => .ok .ne
  | 2 => .ok .lt
  | 3 => .ok .le
  | 4 => .ok .gt
  | 5 => .ok .ge
  | _ => .error .illegal

/-- Codes of FRel (R352). -/
def FRel.enc : FRel → Nat
  | .eq => 0
  | .ne => 1
  | .lt => 2
  | .le => 3
  | .gt => 4
  | .ge => 5
  | .un => 6
  | .ord => 7

/-- FRel of a code (R352). -/
def FRel.dec (c : Nat) : FRel :=
  match c with
  | 0 => .eq
  | 1 => .ne
  | 2 => .lt
  | 3 => .le
  | 4 => .gt
  | 5 => .ge
  | 6 => .un
  | _ => .ord

/-- Codes of NumTy (R358). -/
def NumTy.enc : NumTy → Nat
  | .i32 => 0
  | .n32 => 1
  | .i64 => 2
  | .n64 => 3
  | .f16 => 4
  | .bf16 => 5
  | .f32 => 6
  | .f64 => 7

/-- NumTy of a code (R358). -/
def NumTy.dec (c : Nat) : NumTy :=
  match c with
  | 0 => .i32
  | 1 => .n32
  | 2 => .i64
  | 3 => .n64
  | 4 => .f16
  | 5 => .bf16
  | 6 => .f32
  | _ => .f64

/-- Codes of XMode (R364). -/
def XMode.enc : XMode → Nat
  | .index => 0
  | .up => 1
  | .down => 2
  | .xor => 3

/-- XMode of a code (R364). -/
def XMode.dec (c : Nat) : XMode :=
  match c with
  | 0 => .index
  | 1 => .up
  | 2 => .down
  | _ => .xor

/-- Codes of VoteForm (R365). -/
def VoteForm.enc : VoteForm → Nat
  | .all => 0
  | .any => 1
  | .ballot => 2
  | .uni => 3

/-- VoteForm of a code (R365). -/
def VoteForm.dec (c : Nat) : VoteForm :=
  match c with
  | 0 => .all
  | 1 => .any
  | 2 => .ballot
  | _ => .uni

/-- Codes of ScanOp (R366). -/
def ScanOp.enc : ScanOp → Nat
  | .add => 0
  | .min => 1
  | .max => 2
  | .and => 3
  | .or => 4
  | .xor => 5
  | .mul => 6

/-- ScanOp of a code; the codes left over are ILLEGAL (R366). -/
def ScanOp.dec (c : Nat) : Except DecErr ScanOp :=
  match c with
  | 0 => .ok .add
  | 1 => .ok .min
  | 2 => .ok .max
  | 3 => .ok .and
  | 4 => .ok .or
  | 5 => .ok .xor
  | 6 => .ok .mul
  | _ => .error .illegal

/-- Codes of ScanTy (R366). -/
def ScanTy.enc : ScanTy → Nat
  | .i32 => 0
  | .n32 => 1
  | .i64 => 2
  | .n64 => 3
  | .f32 => 4
  | .f64 => 5
  | .f32sr => 6
  | .f64sr => 7

/-- ScanTy of a code (R366). -/
def ScanTy.dec (c : Nat) : ScanTy :=
  match c with
  | 0 => .i32
  | 1 => .n32
  | 2 => .i64
  | 3 => .n64
  | 4 => .f32
  | 5 => .f64
  | 6 => .f32sr
  | _ => .f64sr

/-- Codes of IntfOp (Table 14.7). -/
def IntfOp.enc : IntfOp → Nat
  | .add => 0
  | .sub => 1
  | .mul => 2
  | .min => 3
  | .max => 4
  | .minu => 5
  | .maxu => 6
  | .and => 7
  | .or => 8
  | .xor => 9
  | .andn => 10
  | .shl => 11
  | .shr => 12
  | .sar => 13
  | .mov => 14

/-- IntfOp of a code; the codes left over are ILLEGAL (Table 14.7). -/
def IntfOp.dec (c : Nat) : Except DecErr IntfOp :=
  match c with
  | 0 => .ok .add
  | 1 => .ok .sub
  | 2 => .ok .mul
  | 3 => .ok .min
  | 4 => .ok .max
  | 5 => .ok .minu
  | 6 => .ok .maxu
  | 7 => .ok .and
  | 8 => .ok .or
  | 9 => .ok .xor
  | 10 => .ok .andn
  | 11 => .ok .shl
  | 12 => .ok .shr
  | 13 => .ok .sar
  | 14 => .ok .mov
  | _ => .error .illegal

/-- Codes of FltfOp (Table 14.7). -/
def FltfOp.enc : FltfOp → Nat
  | .fadd => 0
  | .fsub => 1
  | .fmul => 2
  | .fmin => 3
  | .fmax => 4

/-- FltfOp of a code; the codes left over are ILLEGAL (Table 14.7). -/
def FltfOp.dec (c : Nat) : Except DecErr FltfOp :=
  match c with
  | 0 => .ok .fadd
  | 1 => .ok .fsub
  | 2 => .ok .fmul
  | 3 => .ok .fmin
  | 4 => .ok .fmax
  | _ => .error .illegal

/-- Codes of Space (R321). -/
def Space.enc : Space → Nat
  | .glb => 0
  | .loc => 1
  | .rng => 2
  | .am => 3
  | .cst => 4
  | .stk => 5
  | .frm => 6
  | .img => 7

/-- Space of a code (R321). -/
def Space.dec (c : Nat) : Space :=
  match c with
  | 0 => .glb
  | 1 => .loc
  | 2 => .rng
  | 3 => .am
  | 4 => .cst
  | 5 => .stk
  | 6 => .frm
  | _ => .img

/-- Codes of Width (R321). -/
def Width.enc : Width → Nat
  | .b8 => 0
  | .b16 => 1
  | .b32 => 2
  | .b64 => 3
  | .b128 => 4

/-- Width of a code; the codes left over are ILLEGAL (R321). -/
def Width.dec (c : Nat) : Except DecErr Width :=
  match c with
  | 0 => .ok .b8
  | 1 => .ok .b16
  | 2 => .ok .b32
  | 3 => .ok .b64
  | 4 => .ok .b128
  | _ => .error .illegal

/-- Codes of BoxMode (R427). -/
def BoxMode.enc : BoxMode → Nat
  | .u => 0
  | .p => 1
  | .set => 2

/-- BoxMode of a code; the codes left over are ILLEGAL (R427). -/
def BoxMode.dec (c : Nat) : Except DecErr BoxMode :=
  match c with
  | 0 => .ok .u
  | 1 => .ok .p
  | 2 => .ok .set
  | _ => .error .illegal

/-- Codes of Cull (R427). -/
def Cull.enc : Cull → Nat
  | .none => 0
  | .back => 1
  | .front => 2

/-- Cull of a code; the codes left over are ILLEGAL (R427). -/
def Cull.dec (c : Nat) : Except DecErr Cull :=
  match c with
  | 0 => .ok .none
  | 1 => .ok .back
  | 2 => .ok .front
  | _ => .error .illegal

/-- Codes of an NS selection (R326): width in [4:3], index in [2:0]. -/
def Sel.dec (c : Nat) : Sel :=
  match c / 8 % 4 with
  | 0 => .whole (Fin.ofNat 8 c)
  | 1 => .sub .by (Fin.ofNat 8 c)
  | 2 => .sub .sx (Fin.ofNat 8 c)
  | _ => .sub .nb (Fin.ofNat 8 c)

/-- The code of a subfield width: 1 by, 2 sx, 3 nb (R326, R327). -/
def SubW.enc : SubW → Nat
  | .by => 1
  | .sx => 2
  | .nb => 3

/-- The width field of ND: 0 is ILLEGAL (R327). -/
def SubW.dec (c : Nat) : Except DecErr SubW :=
  match c with
  | 1 => .ok .by
  | 2 => .ok .sx
  | 3 => .ok .nb
  | _ => .error .illegal

/-- The code of an NS selection. -/
def Sel.enc : Sel → Nat
  | .whole i => i.val
  | .sub w i => w.enc * 8 + i.val

/-- A condition that the word must meet, with the fault its absence gives. Where one word breaks rules of both kinds,
ILLEGAL is raised (R319). -/
def need (c : Bool) (e : DecErr) (r : Except DecErr Instr) : Except DecErr Instr :=
  if c then r else
    match r with
    | .error .illegal => .error .illegal
    | _ => .error e

/-- Accepts an instruction that is well formed; any other is ILLEGAL. -/
def mk (i : Instr) : Except DecErr Instr := if i.wf then .ok i else .error .illegal

/-- Decoding of major 0x01 (Table 13.1). -/
def decInt2 (n : Nat) : Except DecErr Instr :=
  match fld n 8 3 with
  | 0 => mk (.add (hdOf n) (Src.dec (fld n 20 15)) (Src.dec (fld n 14 9)) (bit n 2) (bit n 1) (bit n 0))
  | 1 => mk (.sub (hdOf n) (Src.dec (fld n 20 15)) (Src.dec (fld n 14 9)) (bit n 2) (bit n 1) (bit n 0))
  | 2 => mk (.mul (hdOf n) (Src.dec (fld n 20 15)) (Src.dec (fld n 14 9)) (bit n 2) (bit n 1) (bit n 0))
  | 3 => need (fld n 1 1 == 0) .illegal (mk (.mulh (hdOf n) (Src.dec (fld n 20 15)) (Src.dec (fld n 14 9)) (bit n 2) (bit n 0)))
  | 4 => need (fld n 1 1 == 0) .illegal (mk (.div (hdOf n) (Src.dec (fld n 20 15)) (Src.dec (fld n 14 9)) (bit n 2) (bit n 0)))
  | 5 => need (fld n 1 1 == 0) .illegal (mk (.rem (hdOf n) (Src.dec (fld n 20 15)) (Src.dec (fld n 14 9)) (bit n 2) (bit n 0)))
  | 6 => need (fld n 1 1 == 0) .illegal (mk (.min (hdOf n) (Src.dec (fld n 20 15)) (Src.dec (fld n 14 9)) (bit n 2) (bit n 0)))
  | 7 => need (fld n 1 1 == 0) .illegal (mk (.max (hdOf n) (Src.dec (fld n 20 15)) (Src.dec (fld n 14 9)) (bit n 2) (bit n 0)))
  | 8 => need (fld n 0 0 == 0 && fld n 14 9 == 56) .illegal (mk (.abs (hdOf n) (Src.dec (fld n 20 15)) (bit n 2) (bit n 1)))
  | 9 => need (fld n 0 0 == 0 && fld n 14 9 == 56) .illegal (mk (.neg (hdOf n) (Src.dec (fld n 20 15)) (bit n 2) (bit n 1)))
  | 10 => need (fld n 1 0 == 0) .illegal (mk (.and (hdOf n) (Src.dec (fld n 20 15)) (Src.dec (fld n 14 9)) (bit n 2)))
  | 11 => need (fld n 1 0 == 0) .illegal (mk (.or (hdOf n) (Src.dec (fld n 20 15)) (Src.dec (fld n 14 9)) (bit n 2)))
  | 12 => need (fld n 1 0 == 0) .illegal (mk (.xor (hdOf n) (Src.dec (fld n 20 15)) (Src.dec (fld n 14 9)) (bit n 2)))
  | 13 => need (fld n 1 0 == 0) .illegal (mk (.andn (hdOf n) (Src.dec (fld n 20 15)) (Src.dec (fld n 14 9)) (bit n 2)))
  | 14 => need (fld n 1 0 == 0 && fld n 14 9 == 56) .illegal (mk (.not (hdOf n) (Src.dec (fld n 20 15)) (bit n 2)))
  | 15 => need (fld n 1 0 == 0) .illegal (mk (.shl (hdOf n) (Src.dec (fld n 20 15)) (Src.dec (fld n 14 9)) (bit n 2)))
  | 16 => need (fld n 1 0 == 0) .illegal (mk (.shr (hdOf n) (Src.dec (fld n 20 15)) (Src.dec (fld n 14 9)) (bit n 2)))
  | 17 => need (fld n 1 0 == 0) .illegal (mk (.sar (hdOf n) (Src.dec (fld n 20 15)) (Src.dec (fld n 14 9)) (bit n 2)))
  | 18 => need (fld n 1 0 == 0) .illegal (mk (.rot (hdOf n) (Src.dec (fld n 20 15)) (Src.dec (fld n 14 9)) (bit n 2)))
  | 19 => need (fld n 1 0 == 0 && fld n 14 9 == 56) .illegal (mk (.popc (hdOf n) (Src.dec (fld n 20 15)) (bit n 2)))
  | 20 => need (fld n 1 0 == 0 && fld n 14 9 == 56) .illegal (mk (.clz (hdOf n) (Src.dec (fld n 20 15)) (bit n 2)))
  | 21 => need (fld n 1 0 == 0 && fld n 14 9 == 56) .illegal (mk (.ctz (hdOf n) (Src.dec (fld n 20 15)) (bit n 2)))
  | 22 => need (fld n 1 0 == 0 && fld n 14 9 == 56) .illegal (mk (.brev (hdOf n) (Src.dec (fld n 20 15)) (bit n 2)))
  | 23 => need (fld n 1 0 == 0 && fld n 14 9 == 56) .illegal (mk (.mov (hdOf n) (Src.dec (fld n 20 15)) (bit n 2)))
  | 24 => mk (.sel (hdOf n) (Src.dec (fld n 20 15)) (Src.dec (fld n 14 9)) (Fin.ofNat 8 (fld n 2 0)))
  | 25 => mk (.sel64 (hdOf n) (Src.dec (fld n 20 15)) (Src.dec (fld n 14 9)) (Fin.ofNat 8 (fld n 2 0)))
  | 26 => need (fld n 2 1 == 0) .illegal (mk (.bfx (hdOf n) (Src.dec (fld n 20 15)) (Src.dec (fld n 14 9)) (bit n 0)))
  | 27 => need (fld n 2 1 == 0) .illegal (mk (.dot4 (hdOf n) (Src.dec (fld n 20 15)) (Src.dec (fld n 14 9)) (bit n 0)))
  | 28 => need (fld n 2 1 == 0) .illegal (mk (.dotn (hdOf n) (Src.dec (fld n 20 15)) (Src.dec (fld n 14 9)) (bit n 0)))
  | 29 => need (fld n 2 0 == 0) .illegal (mk (.unpackp (hdOf n) (Src.dec (fld n 20 15)) (Src.dec (fld n 14 9))))
  | _ => .error .illegal

/-- Decoding of major 0x02 (Table 13.1). -/
def decInt3 (n : Nat) : Except DecErr Instr :=
  match fld n 2 0 with
  | 0 => mk (.mad (hdOf n) (Src.dec (fld n 20 15)) (Src.dec (fld n 14 9)) (Src.dec (fld n 8 3)))
  | 1 => mk (.madw (hdOf n) (Src.dec (fld n 20 15)) (Src.dec (fld n 14 9)) (Src.dec (fld n 8 3)))
  | 2 => mk (.addc (hdOf n) (Src.dec (fld n 20 15)) (Src.dec (fld n 14 9)) (Src.dec (fld n 8 3)))
  | 3 => mk (.subb (hdOf n) (Src.dec (fld n 20 15)) (Src.dec (fld n 14 9)) (Src.dec (fld n 8 3)))
  | 4 => mk (.shf (hdOf n) (Src.dec (fld n 20 15)) (Src.dec (fld n 14 9)) (Src.dec (fld n 8 3)))
  | 5 => mk (.bfi (hdOf n) (Src.dec (fld n 20 15)) (Src.dec (fld n 14 9)) (Src.dec (fld n 8 3)))
  | 6 => mk (.perm (hdOf n) (Src.dec (fld n 20 15)) (Src.dec (fld n 14 9)) (Src.dec (fld n 8 3)))
  | 7 => mk (.lea (hdOf n) (Src.dec (fld n 20 15)) (Src.dec (fld n 14 9)) (Src.dec (fld n 8 3)))
  | _ => .error .illegal

/-- Decoding of major 0x03 (Table 13.1). -/
def decInti (n : Nat) : Except DecErr Instr :=
  match fld n 2 0 with
  | 0 => mk (.addImm (hdOf n) (Src.dec (fld n 20 15)) (BitVec.ofNat 12 (fld n 14 3)))
  | 1 => mk (.andImm (hdOf n) (Src.dec (fld n 20 15)) (BitVec.ofNat 12 (fld n 14 3)))
  | 2 => mk (.orImm (hdOf n) (Src.dec (fld n 20 15)) (BitVec.ofNat 12 (fld n 14 3)))
  | 3 => mk (.xorImm (hdOf n) (Src.dec (fld n 20 15)) (BitVec.ofNat 12 (fld n 14 3)))
  | 4 => mk (.shlImm (hdOf n) (Src.dec (fld n 20 15)) (BitVec.ofNat 12 (fld n 14 3)))
  | 5 => mk (.shrImm (hdOf n) (Src.dec (fld n 20 15)) (BitVec.ofNat 12 (fld n 14 3)))
  | 6 => mk (.sarImm (hdOf n) (Src.dec (fld n 20 15)) (BitVec.ofNat 12 (fld n 14 3)))
  | 7 => mk (.mulImm (hdOf n) (Src.dec (fld n 20 15)) (BitVec.ofNat 12 (fld n 14 3)))
  | _ => .error .illegal

/-- Decoding of major 0x04 (Table 13.1). -/
def decCmp (n : Nat) : Except DecErr Instr :=
  (do let r ← Rel.dec (fld n 5 3); mk (.cmp (hdOf n) (Src.dec (fld n 20 15)) (Src.dec (fld n 14 9)) (Fin.ofNat 8 (fld n 8 6)) r (bit n 2) (bit n 1) (bit n 0)))

/-- Decoding of major 0x05 (Table 13.1). -/
def decFcmp (n : Nat) : Except DecErr Instr :=
  match fld n 2 1 with
  | 0 => mk (.fcmp (hdOf n) (Src.dec (fld n 20 15)) (Src.dec (fld n 14 9)) (Fin.ofNat 8 (fld n 8 6)) (FRel.dec (fld n 5 3)) (bit n 0))
  | 1 => mk (.dcmp (hdOf n) (Src.dec (fld n 20 15)) (Src.dec (fld n 14 9)) (Fin.ofNat 8 (fld n 8 6)) (FRel.dec (fld n 5 3)) (bit n 0))
  | 2 => mk (.fcmpH (hdOf n) (Src.dec (fld n 20 15)) (Src.dec (fld n 14 9)) (Fin.ofNat 8 (fld n 8 6)) (FRel.dec (fld n 5 3)) (bit n 0))
  | _ => .error .illegal

/-- Decoding of major 0x06 (Table 13.1). -/
def decPred (n : Nat) : Except DecErr Instr :=
  match fld n 3 0 with
  | 0 => mk (.plop (hdOf n) (Fin.ofNat 8 (fld n 20 18)) (Fin.ofNat 8 (fld n 17 15)) (Fin.ofNat 8 (fld n 14 12)) (BitVec.ofNat 8 (fld n 11 4)))
  | 1 => need (fld n 20 4 == 0) .illegal (mk (.packp (hdOf n)))
  | _ => .error .illegal

/-- Decoding of major 0x07 (Table 13.1). -/
def decFalu2 (n : Nat) : Except DecErr Instr :=
  match fld n 8 3 with
  | 0 => (do let r ← RM.dec (fld n 2 0); mk (.fadd (hdOf n) (Src.dec (fld n 20 15)) (Src.dec (fld n 14 9)) r))
  | 1 => (do let r ← RM.dec (fld n 2 0); mk (.fsub (hdOf n) (Src.dec (fld n 20 15)) (Src.dec (fld n 14 9)) r))
  | 2 => (do let r ← RM.dec (fld n 2 0); mk (.fmul (hdOf n) (Src.dec (fld n 20 15)) (Src.dec (fld n 14 9)) r))
  | 3 => need (fld n 2 0 == 0) .illegal (mk (.fmin (hdOf n) (Src.dec (fld n 20 15)) (Src.dec (fld n 14 9))))
  | 4 => need (fld n 2 0 == 0) .illegal (mk (.fmax (hdOf n) (Src.dec (fld n 20 15)) (Src.dec (fld n 14 9))))
  | 5 => need (fld n 2 0 == 0) .illegal (mk (.fminn (hdOf n) (Src.dec (fld n 20 15)) (Src.dec (fld n 14 9))))
  | 6 => need (fld n 2 0 == 0) .illegal (mk (.fmaxn (hdOf n) (Src.dec (fld n 20 15)) (Src.dec (fld n 14 9))))
  | 7 => need (fld n 14 9 == 56) .illegal ((do let r ← RM.dec (fld n 2 0); mk (.frnd (hdOf n) (Src.dec (fld n 20 15)) r)))
  | 8 => (do let r ← RM.dec (fld n 2 0); mk (.fscale (hdOf n) (Src.dec (fld n 20 15)) (Src.dec (fld n 14 9)) r))
  | 9 => need (fld n 2 0 == 0 && fld n 14 9 == 56) .illegal (mk (.fgetx (hdOf n) (Src.dec (fld n 20 15))))
  | 10 => need (fld n 2 0 == 0 && fld n 14 9 == 56) .illegal (mk (.fclass (hdOf n) (Src.dec (fld n 20 15))))
  | 11 => (do let r ← RM.dec (fld n 2 0); mk (.hadd2 (hdOf n) (Src.dec (fld n 20 15)) (Src.dec (fld n 14 9)) r))
  | 12 => (do let r ← RM.dec (fld n 2 0); mk (.hmul2 (hdOf n) (Src.dec (fld n 20 15)) (Src.dec (fld n 14 9)) r))
  | _ => .error .illegal

/-- Decoding of major 0x08 (Table 13.1). -/
def decFalu3 (n : Nat) : Except DecErr Instr :=
  match fld n 2 0 with
  | 6 => mk (.fdot2 (hdOf n) (Src.dec (fld n 20 15)) (Src.dec (fld n 14 9)) (Src.dec (fld n 8 3)))
  | 7 => mk (.fdot2Bf (hdOf n) (Src.dec (fld n 20 15)) (Src.dec (fld n 14 9)) (Src.dec (fld n 8 3)))
  | _ => (do let r ← RM.dec (fld n 2 0); mk (.ffma (hdOf n) (Src.dec (fld n 20 15)) (Src.dec (fld n 14 9)) (Src.dec (fld n 8 3)) r))

/-- Decoding of major 0x09 (Table 13.1). -/
def decHalu3 (n : Nat) : Except DecErr Instr :=
  (do let r ← RM.dec (fld n 2 0); mk (.hfma2 (hdOf n) (Src.dec (fld n 20 15)) (Src.dec (fld n 14 9)) (Src.dec (fld n 8 3)) r))

/-- Decoding of major 0x0A (Table 13.1). -/
def decDalu2 (n : Nat) : Except DecErr Instr :=
  match fld n 8 3 with
  | 0 => (do let r ← RM.dec (fld n 2 0); mk (.dadd (hdOf n) (Src.dec (fld n 20 15)) (Src.dec (fld n 14 9)) r))
  | 1 => (do let r ← RM.dec (fld n 2 0); mk (.dsub (hdOf n) (Src.dec (fld n 20 15)) (Src.dec (fld n 14 9)) r))
  | 2 => (do let r ← RM.dec (fld n 2 0); mk (.dmul (hdOf n) (Src.dec (fld n 20 15)) (Src.dec (fld n 14 9)) r))
  | 3 => need (fld n 2 0 == 0) .illegal (mk (.dmin (hdOf n) (Src.dec (fld n 20 15)) (Src.dec (fld n 14 9))))
  | 4 => need (fld n 2 0 == 0) .illegal (mk (.dmax (hdOf n) (Src.dec (fld n 20 15)) (Src.dec (fld n 14 9))))
  | 5 => need (fld n 14 9 == 56) .illegal ((do let r ← RM.dec (fld n 2 0); mk (.drnd (hdOf n) (Src.dec (fld n 20 15)) r)))
  | 6 => (do let r ← RM.dec (fld n 2 0); mk (.dscale (hdOf n) (Src.dec (fld n 20 15)) (Src.dec (fld n 14 9)) r))
  | 7 => need (fld n 2 0 == 0 && fld n 14 9 == 56) .illegal (mk (.dgetx (hdOf n) (Src.dec (fld n 20 15))))
  | 8 => need (fld n 2 0 == 0 && fld n 14 9 == 56) .illegal (mk (.dclass (hdOf n) (Src.dec (fld n 20 15))))
  | _ => .error .illegal

/-- Decoding of major 0x0B (Table 13.1). -/
def decDalu3 (n : Nat) : Except DecErr Instr :=
  (do let r ← RM.dec (fld n 2 0); mk (.dfma (hdOf n) (Src.dec (fld n 20 15)) (Src.dec (fld n 14 9)) (Src.dec (fld n 8 3)) r))

/-- Decoding of major 0x0C (Table 13.1). -/
def decCvt (n : Nat) : Except DecErr Instr :=
  if fld n 8 6 = fld n 5 3 then
    match fld n 8 6 with
    | 0 => need (fld n 2 0 == 0) .illegal (mk (.cvtnI32 (hdOf n) (Src.dec (fld n 20 15)) (Src.dec (fld n 14 9))))
    | 1 => need (fld n 2 0 == 0) .illegal (mk (.cvtnN32 (hdOf n) (Src.dec (fld n 20 15)) (Src.dec (fld n 14 9))))
    | 4 => (do let r ← RM.dec (fld n 2 0); mk (.pk2F16 (hdOf n) (Src.dec (fld n 20 15)) (Src.dec (fld n 14 9)) r))
    | 5 => (do let r ← RM.dec (fld n 2 0); mk (.pk2Bf16 (hdOf n) (Src.dec (fld n 20 15)) (Src.dec (fld n 14 9)) r))
    | 6 => need (fld n 2 0 == 0) .illegal (mk (.cvtnF32 (hdOf n) (Src.dec (fld n 20 15)) (Src.dec (fld n 14 9))))
    | 7 => need (fld n 2 0 == 0) .illegal (mk (.cvtnF64 (hdOf n) (Src.dec (fld n 20 15)) (Src.dec (fld n 14 9))))
    | _ => .error .illegal
  else need (fld n 14 9 == 56) .illegal ((do let r ← RM.dec (fld n 2 0); mk (.cvt (hdOf n) (Src.dec (fld n 20 15)) (NumTy.dec (fld n 8 6)) (NumTy.dec (fld n 5 3)) r)))

/-- Decoding of major 0x0D (Table 13.1). -/
def decSfu (n : Nat) : Except DecErr Instr :=
  match fld n 8 3 with
  | 0 => need (fld n 2 0 == 0 && fld n 14 9 == 56) .illegal (mk (.rcp (hdOf n) (Src.dec (fld n 20 15))))
  | 1 => need (fld n 2 0 == 0 && fld n 14 9 == 56) .illegal (mk (.rsq (hdOf n) (Src.dec (fld n 20 15))))
  | 2 => need (fld n 14 9 == 56) .illegal ((do let r ← RM.dec (fld n 2 0); mk (.sqrt (hdOf n) (Src.dec (fld n 20 15)) r)))
  | 3 => need (fld n 2 0 == 0 && fld n 14 9 == 56) .illegal (mk (.ex2 (hdOf n) (Src.dec (fld n 20 15))))
  | 4 => need (fld n 2 0 == 0 && fld n 14 9 == 56) .illegal (mk (.lg2 (hdOf n) (Src.dec (fld n 20 15))))
  | 5 => need (fld n 2 0 == 0 && fld n 14 9 == 56) .illegal (mk (.sinpi (hdOf n) (Src.dec (fld n 20 15))))
  | 6 => need (fld n 2 0 == 0 && fld n 14 9 == 56) .illegal (mk (.cospi (hdOf n) (Src.dec (fld n 20 15))))
  | 7 => need (fld n 2 0 == 0 && fld n 14 9 == 56) .illegal (mk (.tanh (hdOf n) (Src.dec (fld n 20 15))))
  | 8 => need (fld n 2 0 == 0 && fld n 14 9 == 56) .illegal (mk (.drcp (hdOf n) (Src.dec (fld n 20 15))))
  | 9 => need (fld n 2 0 == 0 && fld n 14 9 == 56) .illegal (mk (.drsq (hdOf n) (Src.dec (fld n 20 15))))
  | _ => .error .illegal

/-- Decoding of major 0x0E (Table 13.1). -/
def decXgrp (n : Nat) : Except DecErr Instr :=
  match fld n 8 6 with
  | 0 => need (fld n 3 0 == 0) .illegal (mk (.xshuf (hdOf n) (Src.dec (fld n 20 15)) (Src.dec (fld n 14 9)) (XMode.dec (fld n 5 4))))
  | 1 => need (fld n 3 0 == 0) .illegal (mk (.vote (hdOf n) (Src.dec (fld n 20 15)) (Src.dec (fld n 14 9)) (VoteForm.dec (fld n 5 4))))
  | 2 => (do let o ← ScanOp.dec (fld n 5 3); mk (.reduce (hdOf n) (Src.dec (fld n 20 15)) (Src.dec (fld n 14 9)) o (ScanTy.dec (fld n 2 0))))
  | 3 => (do let o ← ScanOp.dec (fld n 5 3); mk (.scan (hdOf n) (Src.dec (fld n 20 15)) (Src.dec (fld n 14 9)) o (ScanTy.dec (fld n 2 0))))
  | 4 => (do let o ← ScanOp.dec (fld n 5 3); mk (.scanX (hdOf n) (Src.dec (fld n 20 15)) (Src.dec (fld n 14 9)) o (ScanTy.dec (fld n 2 0))))
  | 5 => need (fld n 2 0 == 0 && fld n 5 4 == 0 && fld n 14 9 == 56) .illegal (mk (.matchX (hdOf n) (Src.dec (fld n 20 15)) (bit n 3)))
  | 6 => need (fld n 5 0 == 0 && fld n 20 9 == 3640) .illegal (mk (.elect (hdOf n)))
  | _ => .error .illegal

/-- Decoding of major 0x0F (Table 13.1). -/
def decIntf (n : Nat) : Except DecErr Instr :=
  (do let o ← IntfOp.dec (fld n 6 1); mk (.intf (hdOf n) (Src.dec (fld n 20 15)) (Fin.ofNat 32 (fld n 14 10)) (Fin.ofNat 8 (fld n 9 7)) o (bit n 0)))

/-- Decoding of major 0x10 (Table 13.1). -/
def decFltf (n : Nat) : Except DecErr Instr :=
  (do let o ← FltfOp.dec (fld n 6 4); let r ← RM.dec (fld n 2 0); mk (.fltf (hdOf n) (Src.dec (fld n 20 15)) (Fin.ofNat 32 (fld n 14 10)) (Fin.ofNat 8 (fld n 9 7)) o (bit n 3) r))

/-- Decoding of major 0x11 (Table 13.1). -/
def decUni (n : Nat) : Except DecErr Instr :=
  match fld n 2 0 with
  | 0 => need (fld n 14 9 == 56) .illegal (mk (.umov (hdOf n) (Src.dec (fld n 20 15)) (Fin.ofNat 64 (fld n 8 3))))
  | 1 => mk (.uadd (hdOf n) (Src.dec (fld n 20 15)) (Src.dec (fld n 14 9)) (Fin.ofNat 64 (fld n 8 3)))
  | 2 => mk (.usub (hdOf n) (Src.dec (fld n 20 15)) (Src.dec (fld n 14 9)) (Fin.ofNat 64 (fld n 8 3)))
  | 3 => mk (.umul (hdOf n) (Src.dec (fld n 20 15)) (Src.dec (fld n 14 9)) (Fin.ofNat 64 (fld n 8 3)))
  | 4 => mk (.uand (hdOf n) (Src.dec (fld n 20 15)) (Src.dec (fld n 14 9)) (Fin.ofNat 64 (fld n 8 3)))
  | 5 => mk (.uor (hdOf n) (Src.dec (fld n 20 15)) (Src.dec (fld n 14 9)) (Fin.ofNat 64 (fld n 8 3)))
  | 6 => mk (.uxor (hdOf n) (Src.dec (fld n 20 15)) (Src.dec (fld n 14 9)) (Fin.ofNat 64 (fld n 8 3)))
  | 7 => mk (.ushl (hdOf n) (Src.dec (fld n 20 15)) (Src.dec (fld n 14 9)) (Fin.ofNat 64 (fld n 8 3)))
  | _ => .error .illegal

/-- Decoding of major 0x12 (Table 13.1). -/
def decUld (n : Nat) : Except DecErr Instr :=
  match fld n 2 0 with
  | 0 => need (fld n 14 9 == 56) .illegal (mk (.uld (hdOf n) (Src.dec (fld n 20 15)) (Fin.ofNat 64 (fld n 8 3))))
  | 1 => need (fld n 14 9 == 56) .illegal (mk (.uld64 (hdOf n) (Src.dec (fld n 20 15)) (Fin.ofNat 64 (fld n 8 3))))
  | 2 => mk (.ushr (hdOf n) (Src.dec (fld n 20 15)) (Src.dec (fld n 14 9)) (Fin.ofNat 64 (fld n 8 3)))
  | 3 => mk (.ucmp (hdOf n) (Src.dec (fld n 20 15)) (Src.dec (fld n 14 9)) (Fin.ofNat 64 (fld n 8 3)))
  | 4 => mk (.usel (hdOf n) (Src.dec (fld n 20 15)) (Src.dec (fld n 14 9)) (Fin.ofNat 64 (fld n 8 3)))
  | 5 => need (fld n 14 3 == 3584) .illegal (mk (.uwin (hdOf n) (Src.dec (fld n 20 15))))
  | _ => .error .illegal

/-- Decoding of major 0x18 (Table 13.1). -/
def decLd (n : Nat) : Except DecErr Instr :=
  match fld n 2 0 with
  | 0 => (do let w ← Width.dec (fld n 5 3); mk (.ld (hdOf n) (Src.dec (fld n 20 15)) (Src.dec (fld n 14 9)) (Space.dec (fld n 8 6)) w))
  | 1 => (do let w ← Width.dec (fld n 5 3); mk (.ldS (hdOf n) (Src.dec (fld n 20 15)) (Src.dec (fld n 14 9)) (Space.dec (fld n 8 6)) w))
  | 2 => need (fld n 14 9 == 56) .illegal (need (decide (fld n 5 3 < 5)) .illegal (need (fld n 5 3 == 0) .operand (mk (.pref (hdOf n) (Src.dec (fld n 20 15)) (Space.dec (fld n 8 6))))))
  | 3 => need (decide (fld n 5 3 < 5)) .illegal (need (fld n 5 3 == 0) .operand (mk (.cache (hdOf n) (Src.dec (fld n 20 15)) (Src.dec (fld n 14 9)) (Space.dec (fld n 8 6)))))
  | _ => .error .illegal

/-- Decoding of major 0x19 (Table 13.1). -/
def decSt (n : Nat) : Except DecErr Instr :=
  match fld n 2 0 with
  | 0 => (do let w ← Width.dec (fld n 5 3); mk (.st (hdOf n) (Src.dec (fld n 20 15)) (Src.dec (fld n 14 9)) (Space.dec (fld n 8 6)) w))
  | 1 => need (fld n 8 6 == 0) .operand ((do let w ← Width.dec (fld n 5 3); mk (.reddAdd (hdOf n) (Src.dec (fld n 20 15)) (Src.dec (fld n 14 9)) w)))
  | 2 => need (fld n 8 6 == 0) .operand ((do let w ← Width.dec (fld n 5 3); mk (.reddFadd (hdOf n) (Src.dec (fld n 20 15)) (Src.dec (fld n 14 9)) w)))
  | 3 => need (fld n 8 6 == 0) .operand ((do let w ← Width.dec (fld n 5 3); mk (.reddMin (hdOf n) (Src.dec (fld n 20 15)) (Src.dec (fld n 14 9)) w)))
  | 4 => need (fld n 8 6 == 0) .operand ((do let w ← Width.dec (fld n 5 3); mk (.reddMax (hdOf n) (Src.dec (fld n 20 15)) (Src.dec (fld n 14 9)) w)))
  | 5 => need (fld n 8 6 == 0) .operand ((do let w ← Width.dec (fld n 5 3); mk (.reddMinU (hdOf n) (Src.dec (fld n 20 15)) (Src.dec (fld n 14 9)) w)))
  | 6 => need (fld n 8 6 == 0) .operand ((do let w ← Width.dec (fld n 5 3); mk (.reddMaxU (hdOf n) (Src.dec (fld n 20 15)) (Src.dec (fld n 14 9)) w)))
  | 7 => need (fld n 8 6 == 0) .operand ((do let w ← Width.dec (fld n 5 3); mk (.reddOr (hdOf n) (Src.dec (fld n 20 15)) (Src.dec (fld n 14 9)) w)))
  | _ => .error .illegal

/-- Decoding of major 0x1A (Table 13.1). -/
def decAtom (n : Nat) : Except DecErr Instr :=
  match fld n 2 0 with
  | 0 => (do let w ← Width.dec (fld n 5 3); mk (.atomAdd (hdOf n) (Src.dec (fld n 20 15)) (Src.dec (fld n 14 9)) (Space.dec (fld n 8 6)) w))
  | 1 => (do let w ← Width.dec (fld n 5 3); mk (.atomFadd (hdOf n) (Src.dec (fld n 20 15)) (Src.dec (fld n 14 9)) (Space.dec (fld n 8 6)) w))
  | 2 => (do let w ← Width.dec (fld n 5 3); mk (.atomMin (hdOf n) (Src.dec (fld n 20 15)) (Src.dec (fld n 14 9)) (Space.dec (fld n 8 6)) w))
  | 3 => (do let w ← Width.dec (fld n 5 3); mk (.atomMax (hdOf n) (Src.dec (fld n 20 15)) (Src.dec (fld n 14 9)) (Space.dec (fld n 8 6)) w))
  | 4 => (do let w ← Width.dec (fld n 5 3); mk (.atomAnd (hdOf n) (Src.dec (fld n 20 15)) (Src.dec (fld n 14 9)) (Space.dec (fld n 8 6)) w))
  | 5 => (do let w ← Width.dec (fld n 5 3); mk (.atomOr (hdOf n) (Src.dec (fld n 20 15)) (Src.dec (fld n 14 9)) (Space.dec (fld n 8 6)) w))
  | 6 => (do let w ← Width.dec (fld n 5 3); mk (.atomXor (hdOf n) (Src.dec (fld n 20 15)) (Src.dec (fld n 14 9)) (Space.dec (fld n 8 6)) w))
  | 7 => (do let w ← Width.dec (fld n 5 3); mk (.atomSwap (hdOf n) (Src.dec (fld n 20 15)) (Src.dec (fld n 14 9)) (Space.dec (fld n 8 6)) w))
  | _ => .error .illegal

/-- Decoding of major 0x1B (Table 13.1). -/
def decRed (n : Nat) : Except DecErr Instr :=
  match fld n 2 0 with
  | 0 => (do let w ← Width.dec (fld n 5 3); mk (.redAdd (hdOf n) (Src.dec (fld n 20 15)) (Src.dec (fld n 14 9)) (Space.dec (fld n 8 6)) w))
  | 1 => (do let w ← Width.dec (fld n 5 3); mk (.redFadd (hdOf n) (Src.dec (fld n 20 15)) (Src.dec (fld n 14 9)) (Space.dec (fld n 8 6)) w))
  | 2 => (do let w ← Width.dec (fld n 5 3); mk (.redMin (hdOf n) (Src.dec (fld n 20 15)) (Src.dec (fld n 14 9)) (Space.dec (fld n 8 6)) w))
  | 3 => (do let w ← Width.dec (fld n 5 3); mk (.redMax (hdOf n) (Src.dec (fld n 20 15)) (Src.dec (fld n 14 9)) (Space.dec (fld n 8 6)) w))
  | 4 => (do let w ← Width.dec (fld n 5 3); mk (.redAnd (hdOf n) (Src.dec (fld n 20 15)) (Src.dec (fld n 14 9)) (Space.dec (fld n 8 6)) w))
  | 5 => (do let w ← Width.dec (fld n 5 3); mk (.redOr (hdOf n) (Src.dec (fld n 20 15)) (Src.dec (fld n 14 9)) (Space.dec (fld n 8 6)) w))
  | 6 => (do let w ← Width.dec (fld n 5 3); mk (.redXor (hdOf n) (Src.dec (fld n 20 15)) (Src.dec (fld n 14 9)) (Space.dec (fld n 8 6)) w))
  | _ => .error .illegal

/-- Decoding of major 0x1C (Table 13.1). -/
def decMctl (n : Nat) : Except DecErr Instr :=
  match fld n 2 0 with
  | 0 => need (fld n 14 9 == 56) .illegal (need (decide (fld n 5 3 < 5)) .illegal (need (fld n 8 6 == 0 && fld n 5 3 == 0) .operand (mk (.tagq (hdOf n) (Src.dec (fld n 20 15))))))
  | 1 => need (decide (fld n 5 3 < 5)) .illegal (need (fld n 8 6 == 0 && fld n 5 3 == 0) .operand (mk (.tagset (hdOf n) (Src.dec (fld n 20 15)) (Src.dec (fld n 14 9)))))
  | 2 => need (fld n 14 9 == 56) .illegal (need (decide (fld n 5 3 < 5)) .illegal (need (fld n 8 6 == 0 && fld n 5 3 == 0) .operand (mk (.tagclr (hdOf n) (Src.dec (fld n 20 15))))))
  | 3 => need (decide (fld n 5 3 < 5)) .illegal (need (fld n 5 3 == 0) .operand (mk (.scfg (hdOf n) (Src.dec (fld n 20 15)) (Src.dec (fld n 14 9)) (Space.dec (fld n 8 6)))))
  | 4 => need (decide (fld n 5 3 < 5)) .illegal (need (fld n 8 6 == 0 && fld n 5 3 == 0) .operand (mk (.mapl (hdOf n) (Src.dec (fld n 20 15)) (Src.dec (fld n 14 9)))))
  | 5 => (do let w ← Width.dec (fld n 5 3); mk (.cas (hdOf n) (Src.dec (fld n 20 15)) (Src.dec (fld n 14 9)) (Space.dec (fld n 8 6)) w))
  | _ => .error .illegal

/-- Decoding of major 0x1D (Table 13.1). -/
def decRing (n : Nat) : Except DecErr Instr :=
  match fld n 2 0 with
  | 0 => need (fld n 14 9 == 56) .illegal (need (decide (fld n 5 3 < 5)) .illegal (need (fld n 8 6 == 0 && fld n 5 3 == 0) .operand (mk (.racqP (hdOf n) (Src.dec (fld n 20 15))))))
  | 1 => need (fld n 14 9 == 56) .illegal (need (decide (fld n 5 3 < 5)) .illegal (need (fld n 8 6 == 0 && fld n 5 3 == 0) .operand (mk (.racqC (hdOf n) (Src.dec (fld n 20 15))))))
  | 2 => need (fld n 14 9 == 56) .illegal (need (decide (fld n 5 3 < 5)) .illegal (need (fld n 8 6 == 0 && fld n 5 3 == 0) .operand (mk (.racqPU (hdOf n) (Src.dec (fld n 20 15))))))
  | 3 => need (fld n 14 9 == 56) .illegal (need (decide (fld n 5 3 < 5)) .illegal (need (fld n 8 6 == 0 && fld n 5 3 == 0) .operand (mk (.racqCU (hdOf n) (Src.dec (fld n 20 15))))))
  | 4 => need (decide (fld n 5 3 < 5)) .illegal (need (fld n 8 6 == 0 && fld n 5 3 == 0) .operand (mk (.rrel (hdOf n) (Src.dec (fld n 20 15)) (Src.dec (fld n 14 9)))))
  | 5 => need (decide (fld n 5 3 < 5)) .illegal (need (fld n 8 6 == 0 && fld n 5 3 == 0) .operand (mk (.rwait (hdOf n) (Src.dec (fld n 20 15)) (Src.dec (fld n 14 9)))))
  | 6 => need (decide (fld n 5 3 < 5)) .illegal (need (fld n 8 6 == 0 && fld n 5 3 == 0) .operand (mk (.carm (hdOf n) (Src.dec (fld n 20 15)) (Src.dec (fld n 14 9)))))
  | 7 => need (fld n 14 9 == 56) .illegal (need (decide (fld n 5 3 < 5)) .illegal (need (fld n 8 6 == 0 && fld n 5 3 == 0) .operand (mk (.cwait (hdOf n) (Src.dec (fld n 20 15))))))
  | _ => .error .illegal

/-- Decoding of major 0x1E (Table 13.1). -/
def decEdge (n : Nat) : Except DecErr Instr :=
  match fld n 8 6 with
  | 0 => need (fld n 5 0 == 0) .illegal (mk (.spawn (hdOf n) (Src.dec (fld n 20 15)) (Src.dec (fld n 14 9))))
  | 1 => need (fld n 5 0 == 0 && fld n 20 9 == 3640) .illegal (mk (.trig (hdOf n)))
  | 2 => need (fld n 5 0 == 0 && fld n 20 9 == 3640) .illegal (mk (.pub (hdOf n)))
  | 3 => need (fld n 5 3 == 0) .illegal (mk (.bar (hdOf n) (Src.dec (fld n 20 15)) (Src.dec (fld n 14 9)) (Fin.ofNat 8 (fld n 2 0))))
  | 4 => need (fld n 5 4 == 0) .illegal (mk (.post (hdOf n) (Src.dec (fld n 20 15)) (Src.dec (fld n 14 9)) (bit n 3) (Fin.ofNat 8 (fld n 2 0))))
  | 5 => need (fld n 5 3 == 0 && fld n 14 9 == 56) .illegal (mk (.pick (hdOf n) (Src.dec (fld n 20 15)) (Fin.ofNat 8 (fld n 2 0))))
  | 6 => need (fld n 2 0 == 0 && fld n 5 4 == 0 && fld n 14 9 == 56) .illegal (mk (.qwait (hdOf n) (Src.dec (fld n 20 15)) (bit n 3)))
  | 7 => need (fld n 2 0 == 0 && fld n 5 4 == 0 && fld n 14 9 == 56) .illegal (mk (.node (hdOf n) (Src.dec (fld n 20 15)) (bit n 3)))
  | _ => .error .illegal

/-- Decoding of major 0x1F (Table 13.1). -/
def decEngm (n : Nat) : Except DecErr Instr :=
  match fld n 8 6 with
  | 0 => need (fld n 5 4 == 0) .illegal (mk (.marm (hdOf n) (Src.dec (fld n 20 15)) (Src.dec (fld n 14 9)) (Fin.ofNat 16 (fld n 3 0))))
  | 1 => need (fld n 5 4 == 0 && fld n 14 9 == 56) .illegal (mk (.msign (hdOf n) (Src.dec (fld n 20 15)) (Fin.ofNat 16 (fld n 3 0))))
  | 2 => need (fld n 5 4 == 0 && fld n 20 9 == 3640) .illegal (mk (.mwait (hdOf n) (Fin.ofNat 16 (fld n 3 0))))
  | 3 => need (fld n 5 4 == 0 && fld n 14 9 == 56) .illegal (mk (.mdrain (hdOf n) (Src.dec (fld n 20 15)) (Fin.ofNat 16 (fld n 3 0))))
  | 4 => need (fld n 5 4 == 0 && fld n 14 9 == 56) .illegal (mk (.mcfg (hdOf n) (Src.dec (fld n 20 15)) (Fin.ofNat 16 (fld n 3 0))))
  | 5 => need (fld n 5 4 == 0 && fld n 14 9 == 56) .illegal (mk (.mnorm (hdOf n) (Src.dec (fld n 20 15)) (Fin.ofNat 16 (fld n 3 0))))
  | 6 => need (fld n 5 4 == 0 && fld n 20 9 == 3640) .illegal (mk (.mreset (hdOf n) (Fin.ofNat 16 (fld n 3 0))))
  | _ => .error .illegal

/-- Decoding of major 0x20 (Table 13.1). -/
def decEngc (n : Nat) : Except DecErr Instr :=
  match fld n 8 6 with
  | 0 => mk (.cpy (hdOf n) (Src.dec (fld n 20 15)) (Src.dec (fld n 14 9)) (Space.dec (fld n 5 3)) (Space.dec (fld n 2 0)))
  | 1 => need (fld n 5 3 == 0) .illegal (mk (.cpys (hdOf n) (Src.dec (fld n 20 15)) (Src.dec (fld n 14 9)) (Space.dec (fld n 2 0))))
  | 2 => need (fld n 5 3 == 0) .illegal (mk (.gath (hdOf n) (Src.dec (fld n 20 15)) (Src.dec (fld n 14 9)) (Space.dec (fld n 2 0))))
  | 3 => need (fld n 2 1 == 0) .illegal (mk (.cpyr (hdOf n) (Src.dec (fld n 20 15)) (Src.dec (fld n 14 9)) (Space.dec (fld n 5 3)) (bit n 0)))
  | _ => .error .illegal

/-- Decoding of major 0x21 (Table 13.1). -/
def decGfx (n : Nat) : Except DecErr Instr :=
  match fld n 8 6 with
  | 0 => need (fld n 1 0 == 0 && fld n 14 9 == 56) .illegal ((do let l ← Cull.dec (fld n 3 2); mk (.rast (hdOf n) (Src.dec (fld n 20 15)) (Fin.ofNat 4 (fld n 5 4)) l)))
  | 1 => need (fld n 5 0 == 0 && fld n 14 9 == 56) .illegal (mk (.trace (hdOf n) (Src.dec (fld n 20 15))))
  | 2 => need (fld n 5 0 == 0) .illegal (mk (.hitr (hdOf n) (Src.dec (fld n 20 15)) (Src.dec (fld n 14 9))))
  | 3 => need (fld n 3 0 == 0) .illegal ((do let m ← BoxMode.dec (fld n 5 4); mk (.boxu (hdOf n) (Src.dec (fld n 20 15)) (Src.dec (fld n 14 9)) m)))
  | 4 => need (fld n 5 3 == 0) .illegal ((do let r ← RM.dec (fld n 2 0); mk (.sah (hdOf n) (Src.dec (fld n 20 15)) (Src.dec (fld n 14 9)) r)))
  | 5 => need (fld n 5 0 == 0) .illegal (mk (.npack (hdOf n) (Src.dec (fld n 20 15)) (Src.dec (fld n 14 9))))
  | _ => .error .illegal

/-- Decoding of major 0x22 (Table 13.1). -/
def decTexi (n : Nat) : Except DecErr Instr :=
  match fld n 2 0 with
  | 0 => need (decide (fld n 5 3 < 5)) .illegal (need (fld n 8 6 == 7 && fld n 5 3 == 0) .operand (mk (.tex (hdOf n) (Src.dec (fld n 20 15)) (Src.dec (fld n 14 9)))))
  | 1 => need (decide (fld n 5 3 < 5)) .illegal (need (fld n 8 6 == 7 && fld n 5 3 == 0) .operand (mk (.texg (hdOf n) (Src.dec (fld n 20 15)) (Src.dec (fld n 14 9)))))
  | 2 => need (decide (fld n 5 3 < 5)) .illegal (need (fld n 8 6 == 7 && fld n 5 3 == 0) .operand (mk (.texq (hdOf n) (Src.dec (fld n 20 15)) (Src.dec (fld n 14 9)))))
  | 3 => need (fld n 8 6 == 7) .operand ((do let w ← Width.dec (fld n 5 3); mk (.imld (hdOf n) (Src.dec (fld n 20 15)) (Src.dec (fld n 14 9)) w)))
  | 4 => need (fld n 8 6 == 7) .operand ((do let w ← Width.dec (fld n 5 3); mk (.imst (hdOf n) (Src.dec (fld n 20 15)) (Src.dec (fld n 14 9)) w)))
  | _ => .error .illegal

/-- Decoding of major 0x23 (Table 13.1). -/
def decSys (n : Nat) : Except DecErr Instr :=
  match fld n 8 5 with
  | 0 => need (fld n 20 9 == 3640) .illegal (mk (.rds (hdOf n) (Fin.ofNat 32 (fld n 4 0))))
  | 1 => need (fld n 14 9 == 56) .illegal (mk (.wrs (hdOf n) (Src.dec (fld n 20 15)) (Fin.ofNat 32 (fld n 4 0))))
  | 2 => need (fld n 4 0 == 0 && fld n 14 9 == 56) .illegal (mk (.trap (hdOf n) (Src.dec (fld n 20 15))))
  | 3 => need (fld n 4 1 == 0) .illegal (mk (.tlbi (hdOf n) (Src.dec (fld n 20 15)) (Src.dec (fld n 14 9)) (bit n 0)))
  | 4 => need (fld n 4 0 == 0 && fld n 14 9 == 56) .illegal (mk (.sleep (hdOf n) (Src.dec (fld n 20 15))))
  | 5 => need (fld n 4 0 == 0 && fld n 20 9 == 3640) .illegal (mk (.halt (hdOf n)))
  | 6 => need (fld n 4 0 == 0) .illegal (mk (.thaw (hdOf n) (Src.dec (fld n 20 15)) (Src.dec (fld n 14 9))))
  | 7 => need (fld n 4 0 == 0) .illegal (mk (.keyld (hdOf n) (Src.dec (fld n 20 15)) (Src.dec (fld n 14 9))))
  | _ => .error .illegal

/-- Decoding of major 0x24 (Table 13.1). -/
def decCommit (n : Nat) : Except DecErr Instr :=
  need (fld n 31 31 == 0) .illegal (mk (.commit (gdOf n) (Fin.ofNat 16 (fld n 20 17)) (Fin.ofNat 32 (fld n 16 12)) (bit n 11) (Fin.ofNat 16 (fld n 10 7)) (Fin.ofNat 32 (fld n 6 2)) (bit n 1) (bit n 0)))

/-- Decoding of major 0x25 (Table 13.1). -/
def decRej (n : Nat) : Except DecErr Instr :=
  need (fld n 20 18 == 0 && fld n 31 31 == 0) .illegal (mk (.rej (gdOf n) (BitVec.ofNat 18 (fld n 17 0))))

/-- Decoding of major 0x26 (Table 13.1). -/
def decNop (n : Nat) : Except DecErr Instr :=
  need (fld n 24 0 == 0 && fld n 31 31 == 0) .illegal (mk (.nop))

/-- Decoding of major 0x30 (Table 13.1). -/
def decCtrl (n : Nat) : Except DecErr Instr :=
  match fld n 20 18 with
  | 0 => need (fld n 17 0 == 0 && fld n 31 31 == 0) .illegal (mk (.next (gdOf n)))
  | 1 => need (fld n 31 31 == 0) .illegal (mk (.bra (gdOf n) (BitVec.ofNat 18 (fld n 17 0))))
  | 2 => need (fld n 31 31 == 0) .illegal (mk (.call (gdOf n) (BitVec.ofNat 18 (fld n 17 0))))
  | 3 => need (fld n 17 0 == 0 && fld n 31 31 == 0) .illegal (mk (.ret (gdOf n)))
  | 4 => need (fld n 17 0 == 0 && fld n 31 31 == 0) .illegal (mk (.exit (gdOf n)))
  | 5 => need (fld n 17 0 == 0 && fld n 31 31 == 0) .illegal (mk (.await (gdOf n)))
  | 6 => need (fld n 31 31 == 0) .illegal (mk (.reform (gdOf n) (BitVec.ofNat 18 (fld n 17 0))))
  | 7 => need (fld n 17 0 == 0 && fld n 31 31 == 0) .illegal (mk (.iret (gdOf n)))
  | _ => .error .illegal

/-- Decoding of major 0x31 (Table 13.1). -/
def decCtrlx (n : Nat) : Except DecErr Instr :=
  match fld n 20 18 with
  | 0 => need (fld n 11 0 == 0 && fld n 31 31 == 0) .illegal (mk (.brx (gdOf n) (Src.dec (fld n 17 12))))
  | 1 => need (fld n 11 0 == 0 && fld n 31 31 == 0) .illegal (mk (.callx (gdOf n) (Src.dec (fld n 17 12))))
  | 2 => need (fld n 11 0 == 0 && fld n 31 31 == 0) .illegal (mk (.reformK (gdOf n) (Src.dec (fld n 17 12))))
  | _ => .error .illegal

/-- Decoding of major 0x3F (Table 13.1). -/
def decXword (n : Nat) : Except DecErr Instr :=
  match fld n 24 21 with
  | 0 => need (fld n 0 0 == 0 && fld n 31 31 == 0) .illegal (mk (.nsPrefix (Fin.ofNat 16 (fld n 20 17)) (Sel.dec (fld n 16 12)) (Sel.dec (fld n 11 7)) (Sel.dec (fld n 6 2)) (bit n 1)))
  | 1 => need (fld n 5 0 == 0 && fld n 31 31 == 0) .illegal ((do let w ← SubW.dec (fld n 20 19); let r ← RM.dec (fld n 15 13); mk (.ndPrefix w (Fin.ofNat 8 (fld n 18 16)) r (bit n 12) (Fin.ofNat 16 (fld n 11 8)) (bit n 7) (bit n 6))))
  | _ => .error .illegal

/-- Decoding of one word that is not a literal (R317, R320, R331): total on every 32-bit word. An unlisted OP is ILLEGAL. -/
def decodeNat (n : Nat) : Except DecErr Instr :=
  match fld n 30 25 with
  | 1 => decInt2 n
  | 2 => decInt3 n
  | 3 => decInti n
  | 4 => decCmp n
  | 5 => decFcmp n
  | 6 => decPred n
  | 7 => decFalu2 n
  | 8 => decFalu3 n
  | 9 => decHalu3 n
  | 10 => decDalu2 n
  | 11 => decDalu3 n
  | 12 => decCvt n
  | 13 => decSfu n
  | 14 => decXgrp n
  | 15 => decIntf n
  | 16 => decFltf n
  | 17 => decUni n
  | 18 => decUld n
  | 24 => decLd n
  | 25 => decSt n
  | 26 => decAtom n
  | 27 => decRed n
  | 28 => decMctl n
  | 29 => decRing n
  | 30 => decEdge n
  | 31 => decEngm n
  | 32 => decEngc n
  | 33 => decGfx n
  | 34 => decTexi n
  | 35 => decSys n
  | 36 => decCommit n
  | 37 => decRej n
  | 38 => decNop n
  | 48 => decCtrl n
  | 49 => decCtrlx n
  | 63 => decXword n
  | _ => .error .illegal

/-- Decoding of a 32-bit instruction word. -/
def decodeWord (w : Word) : Except DecErr Instr := decodeNat w.toNat

/-- The host's probe: the instruction the decoder reads from an instruction whose bits are w, numbered as the opcode
table numbers them. Every instruction word is 32 bits, little-endian, so bit 0 of the table is bit 0 of the word
(R316); literals are data of the words after it. An event has no bits, so no word decodes to one. -/
def decodeTableWord (nbits w : Nat) : Option Instr :=
  if nbits = 32 then
    match decodeNat (w % 4294967296) with
    | .ok i => some i
    | .error _ => none
  else none

/-- The word of an instruction as a number, written from Table 13.3 and the function-code tables; 0 for an event. -/
def encodeNat : Instr → Nat
  | .add hd a b w s u => 0x02000000 + hd.enc + a.enc * 32768 + b.enc * 512 + b2n w * 4 + b2n s * 2 + b2n u
  | .sub hd a b w s u => 0x02000008 + hd.enc + a.enc * 32768 + b.enc * 512 + b2n w * 4 + b2n s * 2 + b2n u
  | .mul hd a b w v u => 0x02000010 + hd.enc + a.enc * 32768 + b.enc * 512 + b2n w * 4 + b2n v * 2 + b2n u
  | .mulh hd a b w u => 0x02000018 + hd.enc + a.enc * 32768 + b.enc * 512 + b2n w * 4 + b2n u
  | .div hd a b w u => 0x02000020 + hd.enc + a.enc * 32768 + b.enc * 512 + b2n w * 4 + b2n u
  | .rem hd a b w u => 0x02000028 + hd.enc + a.enc * 32768 + b.enc * 512 + b2n w * 4 + b2n u
  | .min hd a b w u => 0x02000030 + hd.enc + a.enc * 32768 + b.enc * 512 + b2n w * 4 + b2n u
  | .max hd a b w u => 0x02000038 + hd.enc + a.enc * 32768 + b.enc * 512 + b2n w * 4 + b2n u
  | .abs hd a w s => 0x02007040 + hd.enc + a.enc * 32768 + b2n w * 4 + b2n s * 2
  | .neg hd a w s => 0x02007048 + hd.enc + a.enc * 32768 + b2n w * 4 + b2n s * 2
  | .and hd a b w => 0x02000050 + hd.enc + a.enc * 32768 + b.enc * 512 + b2n w * 4
  | .or hd a b w => 0x02000058 + hd.enc + a.enc * 32768 + b.enc * 512 + b2n w * 4
  | .xor hd a b w => 0x02000060 + hd.enc + a.enc * 32768 + b.enc * 512 + b2n w * 4
  | .andn hd a b w => 0x02000068 + hd.enc + a.enc * 32768 + b.enc * 512 + b2n w * 4
  | .not hd a w => 0x02007070 + hd.enc + a.enc * 32768 + b2n w * 4
  | .shl hd a b w => 0x02000078 + hd.enc + a.enc * 32768 + b.enc * 512 + b2n w * 4
  | .shr hd a b w => 0x02000080 + hd.enc + a.enc * 32768 + b.enc * 512 + b2n w * 4
  | .sar hd a b w => 0x02000088 + hd.enc + a.enc * 32768 + b.enc * 512 + b2n w * 4
  | .rot hd a b w => 0x02000090 + hd.enc + a.enc * 32768 + b.enc * 512 + b2n w * 4
  | .popc hd a w => 0x02007098 + hd.enc + a.enc * 32768 + b2n w * 4
  | .clz hd a w => 0x020070A0 + hd.enc + a.enc * 32768 + b2n w * 4
  | .ctz hd a w => 0x020070A8 + hd.enc + a.enc * 32768 + b2n w * 4
  | .brev hd a w => 0x020070B0 + hd.enc + a.enc * 32768 + b2n w * 4
  | .mov hd a w => 0x020070B8 + hd.enc + a.enc * 32768 + b2n w * 4
  | .sel hd a b p => 0x020000C0 + hd.enc + a.enc * 32768 + b.enc * 512 + p.val
  | .sel64 hd a b p => 0x020000C8 + hd.enc + a.enc * 32768 + b.enc * 512 + p.val
  | .bfx hd a b x => 0x020000D0 + hd.enc + a.enc * 32768 + b.enc * 512 + b2n x
  | .dot4 hd a b u => 0x020000D8 + hd.enc + a.enc * 32768 + b.enc * 512 + b2n u
  | .dotn hd a b u => 0x020000E0 + hd.enc + a.enc * 32768 + b.enc * 512 + b2n u
  | .unpackp hd a b => 0x020000E8 + hd.enc + a.enc * 32768 + b.enc * 512
  | .mad hd a b d => 0x04000000 + hd.enc + a.enc * 32768 + b.enc * 512 + d.enc * 8
  | .madw hd a b d => 0x04000001 + hd.enc + a.enc * 32768 + b.enc * 512 + d.enc * 8
  | .addc hd a b d => 0x04000002 + hd.enc + a.enc * 32768 + b.enc * 512 + d.enc * 8
  | .subb hd a b d => 0x04000003 + hd.enc + a.enc * 32768 + b.enc * 512 + d.enc * 8
  | .shf hd a b d => 0x04000004 + hd.enc + a.enc * 32768 + b.enc * 512 + d.enc * 8
  | .bfi hd a b d => 0x04000005 + hd.enc + a.enc * 32768 + b.enc * 512 + d.enc * 8
  | .perm hd a b d => 0x04000006 + hd.enc + a.enc * 32768 + b.enc * 512 + d.enc * 8
  | .lea hd a b d => 0x04000007 + hd.enc + a.enc * 32768 + b.enc * 512 + d.enc * 8
  | .addImm hd a i => 0x06000000 + hd.enc + a.enc * 32768 + i.toNat * 8
  | .andImm hd a i => 0x06000001 + hd.enc + a.enc * 32768 + i.toNat * 8
  | .orImm hd a i => 0x06000002 + hd.enc + a.enc * 32768 + i.toNat * 8
  | .xorImm hd a i => 0x06000003 + hd.enc + a.enc * 32768 + i.toNat * 8
  | .shlImm hd a i => 0x06000004 + hd.enc + a.enc * 32768 + i.toNat * 8
  | .shrImm hd a i => 0x06000005 + hd.enc + a.enc * 32768 + i.toNat * 8
  | .sarImm hd a i => 0x06000006 + hd.enc + a.enc * 32768 + i.toNat * 8
  | .mulImm hd a i => 0x06000007 + hd.enc + a.enc * 32768 + i.toNat * 8
  | .cmp hd a b p r u w n => 0x08000000 + hd.enc + a.enc * 32768 + b.enc * 512 + p.val * 64 + r.enc * 8 + b2n u * 4 + b2n w * 2 + b2n n
  | .fcmp hd a b p r n => 0x0A000000 + hd.enc + a.enc * 32768 + b.enc * 512 + p.val * 64 + r.enc * 8 + b2n n
  | .dcmp hd a b p r n => 0x0A000002 + hd.enc + a.enc * 32768 + b.enc * 512 + p.val * 64 + r.enc * 8 + b2n n
  | .fcmpH hd a b p r n => 0x0A000004 + hd.enc + a.enc * 32768 + b.enc * 512 + p.val * 64 + r.enc * 8 + b2n n
  | .plop hd x y p t => 0x0C000000 + hd.enc + x.val * 262144 + y.val * 32768 + p.val * 4096 + t.toNat * 16
  | .packp hd => 0x0C000001 + hd.enc
  | .fadd hd a b r => 0x0E000000 + hd.enc + a.enc * 32768 + b.enc * 512 + r.enc
  | .fsub hd a b r => 0x0E000008 + hd.enc + a.enc * 32768 + b.enc * 512 + r.enc
  | .fmul hd a b r => 0x0E000010 + hd.enc + a.enc * 32768 + b.enc * 512 + r.enc
  | .fmin hd a b => 0x0E000018 + hd.enc + a.enc * 32768 + b.enc * 512
  | .fmax hd a b => 0x0E000020 + hd.enc + a.enc * 32768 + b.enc * 512
  | .fminn hd a b => 0x0E000028 + hd.enc + a.enc * 32768 + b.enc * 512
  | .fmaxn hd a b => 0x0E000030 + hd.enc + a.enc * 32768 + b.enc * 512
  | .frnd hd a r => 0x0E007038 + hd.enc + a.enc * 32768 + r.enc
  | .fscale hd a b r => 0x0E000040 + hd.enc + a.enc * 32768 + b.enc * 512 + r.enc
  | .fgetx hd a => 0x0E007048 + hd.enc + a.enc * 32768
  | .fclass hd a => 0x0E007050 + hd.enc + a.enc * 32768
  | .hadd2 hd a b r => 0x0E000058 + hd.enc + a.enc * 32768 + b.enc * 512 + r.enc
  | .hmul2 hd a b r => 0x0E000060 + hd.enc + a.enc * 32768 + b.enc * 512 + r.enc
  | .ffma hd a b d r => 0x10000000 + hd.enc + a.enc * 32768 + b.enc * 512 + d.enc * 8 + r.enc
  | .fdot2 hd a b d => 0x10000006 + hd.enc + a.enc * 32768 + b.enc * 512 + d.enc * 8
  | .fdot2Bf hd a b d => 0x10000007 + hd.enc + a.enc * 32768 + b.enc * 512 + d.enc * 8
  | .hfma2 hd a b d r => 0x12000000 + hd.enc + a.enc * 32768 + b.enc * 512 + d.enc * 8 + r.enc
  | .dadd hd a b r => 0x14000000 + hd.enc + a.enc * 32768 + b.enc * 512 + r.enc
  | .dsub hd a b r => 0x14000008 + hd.enc + a.enc * 32768 + b.enc * 512 + r.enc
  | .dmul hd a b r => 0x14000010 + hd.enc + a.enc * 32768 + b.enc * 512 + r.enc
  | .dmin hd a b => 0x14000018 + hd.enc + a.enc * 32768 + b.enc * 512
  | .dmax hd a b => 0x14000020 + hd.enc + a.enc * 32768 + b.enc * 512
  | .drnd hd a r => 0x14007028 + hd.enc + a.enc * 32768 + r.enc
  | .dscale hd a b r => 0x14000030 + hd.enc + a.enc * 32768 + b.enc * 512 + r.enc
  | .dgetx hd a => 0x14007038 + hd.enc + a.enc * 32768
  | .dclass hd a => 0x14007040 + hd.enc + a.enc * 32768
  | .dfma hd a b d r => 0x16000000 + hd.enc + a.enc * 32768 + b.enc * 512 + d.enc * 8 + r.enc
  | .cvt hd a f t r => 0x18007000 + hd.enc + a.enc * 32768 + f.enc * 64 + t.enc * 8 + r.enc
  | .cvtnI32 hd a b => 0x18000000 + hd.enc + a.enc * 32768 + b.enc * 512
  | .cvtnN32 hd a b => 0x18000048 + hd.enc + a.enc * 32768 + b.enc * 512
  | .cvtnF32 hd a b => 0x180001B0 + hd.enc + a.enc * 32768 + b.enc * 512
  | .cvtnF64 hd a b => 0x180001F8 + hd.enc + a.enc * 32768 + b.enc * 512
  | .pk2F16 hd a b r => 0x18000120 + hd.enc + a.enc * 32768 + b.enc * 512 + r.enc
  | .pk2Bf16 hd a b r => 0x18000168 + hd.enc + a.enc * 32768 + b.enc * 512 + r.enc
  | .rcp hd a => 0x1A007000 + hd.enc + a.enc * 32768
  | .rsq hd a => 0x1A007008 + hd.enc + a.enc * 32768
  | .sqrt hd a r => 0x1A007010 + hd.enc + a.enc * 32768 + r.enc
  | .ex2 hd a => 0x1A007018 + hd.enc + a.enc * 32768
  | .lg2 hd a => 0x1A007020 + hd.enc + a.enc * 32768
  | .sinpi hd a => 0x1A007028 + hd.enc + a.enc * 32768
  | .cospi hd a => 0x1A007030 + hd.enc + a.enc * 32768
  | .tanh hd a => 0x1A007038 + hd.enc + a.enc * 32768
  | .drcp hd a => 0x1A007040 + hd.enc + a.enc * 32768
  | .drsq hd a => 0x1A007048 + hd.enc + a.enc * 32768
  | .xshuf hd a b m => 0x1C000000 + hd.enc + a.enc * 32768 + b.enc * 512 + m.enc * 16
  | .vote hd a b m => 0x1C000040 + hd.enc + a.enc * 32768 + b.enc * 512 + m.enc * 16
  | .reduce hd a b o t => 0x1C000080 + hd.enc + a.enc * 32768 + b.enc * 512 + o.enc * 8 + t.enc
  | .scan hd a b o t => 0x1C0000C0 + hd.enc + a.enc * 32768 + b.enc * 512 + o.enc * 8 + t.enc
  | .scanX hd a b o t => 0x1C000100 + hd.enc + a.enc * 32768 + b.enc * 512 + o.enc * 8 + t.enc
  | .matchX hd a w => 0x1C007140 + hd.enc + a.enc * 32768 + b2n w * 8
  | .elect hd => 0x1C1C7180 + hd.enc
  | .intf hd a f k o v => 0x1E000000 + hd.enc + a.enc * 32768 + f.val * 1024 + k.val * 128 + o.enc * 2 + b2n v
  | .fltf hd a f k o v r => 0x20000000 + hd.enc + a.enc * 32768 + f.val * 1024 + k.val * 128 + o.enc * 16 + b2n v * 8 + r.enc
  | .umov hd a e => 0x22007000 + hd.enc + a.enc * 32768 + e.val * 8
  | .uadd hd a b e => 0x22000001 + hd.enc + a.enc * 32768 + b.enc * 512 + e.val * 8
  | .usub hd a b e => 0x22000002 + hd.enc + a.enc * 32768 + b.enc * 512 + e.val * 8
  | .umul hd a b e => 0x22000003 + hd.enc + a.enc * 32768 + b.enc * 512 + e.val * 8
  | .uand hd a b e => 0x22000004 + hd.enc + a.enc * 32768 + b.enc * 512 + e.val * 8
  | .uor hd a b e => 0x22000005 + hd.enc + a.enc * 32768 + b.enc * 512 + e.val * 8
  | .uxor hd a b e => 0x22000006 + hd.enc + a.enc * 32768 + b.enc * 512 + e.val * 8
  | .ushl hd a b e => 0x22000007 + hd.enc + a.enc * 32768 + b.enc * 512 + e.val * 8
  | .uld hd a e => 0x24007000 + hd.enc + a.enc * 32768 + e.val * 8
  | .uld64 hd a e => 0x24007001 + hd.enc + a.enc * 32768 + e.val * 8
  | .ushr hd a b e => 0x24000002 + hd.enc + a.enc * 32768 + b.enc * 512 + e.val * 8
  | .ucmp hd a b e => 0x24000003 + hd.enc + a.enc * 32768 + b.enc * 512 + e.val * 8
  | .usel hd a b e => 0x24000004 + hd.enc + a.enc * 32768 + b.enc * 512 + e.val * 8
  | .uwin hd a => 0x24007005 + hd.enc + a.enc * 32768
  | .ld hd a b p w => 0x30000000 + hd.enc + a.enc * 32768 + b.enc * 512 + p.enc * 64 + w.enc * 8
  | .ldS hd a b p w => 0x30000001 + hd.enc + a.enc * 32768 + b.enc * 512 + p.enc * 64 + w.enc * 8
  | .pref hd a p => 0x30007002 + hd.enc + a.enc * 32768 + p.enc * 64
  | .cache hd a b p => 0x30000003 + hd.enc + a.enc * 32768 + b.enc * 512 + p.enc * 64
  | .st hd a b p w => 0x32000000 + hd.enc + a.enc * 32768 + b.enc * 512 + p.enc * 64 + w.enc * 8
  | .reddAdd hd a b w => 0x32000001 + hd.enc + a.enc * 32768 + b.enc * 512 + w.enc * 8
  | .reddFadd hd a b w => 0x32000002 + hd.enc + a.enc * 32768 + b.enc * 512 + w.enc * 8
  | .reddMin hd a b w => 0x32000003 + hd.enc + a.enc * 32768 + b.enc * 512 + w.enc * 8
  | .reddMax hd a b w => 0x32000004 + hd.enc + a.enc * 32768 + b.enc * 512 + w.enc * 8
  | .reddMinU hd a b w => 0x32000005 + hd.enc + a.enc * 32768 + b.enc * 512 + w.enc * 8
  | .reddMaxU hd a b w => 0x32000006 + hd.enc + a.enc * 32768 + b.enc * 512 + w.enc * 8
  | .reddOr hd a b w => 0x32000007 + hd.enc + a.enc * 32768 + b.enc * 512 + w.enc * 8
  | .atomAdd hd a b p w => 0x34000000 + hd.enc + a.enc * 32768 + b.enc * 512 + p.enc * 64 + w.enc * 8
  | .atomFadd hd a b p w => 0x34000001 + hd.enc + a.enc * 32768 + b.enc * 512 + p.enc * 64 + w.enc * 8
  | .atomMin hd a b p w => 0x34000002 + hd.enc + a.enc * 32768 + b.enc * 512 + p.enc * 64 + w.enc * 8
  | .atomMax hd a b p w => 0x34000003 + hd.enc + a.enc * 32768 + b.enc * 512 + p.enc * 64 + w.enc * 8
  | .atomAnd hd a b p w => 0x34000004 + hd.enc + a.enc * 32768 + b.enc * 512 + p.enc * 64 + w.enc * 8
  | .atomOr hd a b p w => 0x34000005 + hd.enc + a.enc * 32768 + b.enc * 512 + p.enc * 64 + w.enc * 8
  | .atomXor hd a b p w => 0x34000006 + hd.enc + a.enc * 32768 + b.enc * 512 + p.enc * 64 + w.enc * 8
  | .atomSwap hd a b p w => 0x34000007 + hd.enc + a.enc * 32768 + b.enc * 512 + p.enc * 64 + w.enc * 8
  | .redAdd hd a b p w => 0x36000000 + hd.enc + a.enc * 32768 + b.enc * 512 + p.enc * 64 + w.enc * 8
  | .redFadd hd a b p w => 0x36000001 + hd.enc + a.enc * 32768 + b.enc * 512 + p.enc * 64 + w.enc * 8
  | .redMin hd a b p w => 0x36000002 + hd.enc + a.enc * 32768 + b.enc * 512 + p.enc * 64 + w.enc * 8
  | .redMax hd a b p w => 0x36000003 + hd.enc + a.enc * 32768 + b.enc * 512 + p.enc * 64 + w.enc * 8
  | .redAnd hd a b p w => 0x36000004 + hd.enc + a.enc * 32768 + b.enc * 512 + p.enc * 64 + w.enc * 8
  | .redOr hd a b p w => 0x36000005 + hd.enc + a.enc * 32768 + b.enc * 512 + p.enc * 64 + w.enc * 8
  | .redXor hd a b p w => 0x36000006 + hd.enc + a.enc * 32768 + b.enc * 512 + p.enc * 64 + w.enc * 8
  | .tagq hd a => 0x38007000 + hd.enc + a.enc * 32768
  | .tagset hd a b => 0x38000001 + hd.enc + a.enc * 32768 + b.enc * 512
  | .tagclr hd a => 0x38007002 + hd.enc + a.enc * 32768
  | .scfg hd a b p => 0x38000003 + hd.enc + a.enc * 32768 + b.enc * 512 + p.enc * 64
  | .mapl hd a b => 0x38000004 + hd.enc + a.enc * 32768 + b.enc * 512
  | .cas hd a b p w => 0x38000005 + hd.enc + a.enc * 32768 + b.enc * 512 + p.enc * 64 + w.enc * 8
  | .racqP hd a => 0x3A007000 + hd.enc + a.enc * 32768
  | .racqC hd a => 0x3A007001 + hd.enc + a.enc * 32768
  | .racqPU hd a => 0x3A007002 + hd.enc + a.enc * 32768
  | .racqCU hd a => 0x3A007003 + hd.enc + a.enc * 32768
  | .rrel hd a b => 0x3A000004 + hd.enc + a.enc * 32768 + b.enc * 512
  | .rwait hd a b => 0x3A000005 + hd.enc + a.enc * 32768 + b.enc * 512
  | .carm hd a b => 0x3A000006 + hd.enc + a.enc * 32768 + b.enc * 512
  | .cwait hd a => 0x3A007007 + hd.enc + a.enc * 32768
  | .spawn hd a b => 0x3C000000 + hd.enc + a.enc * 32768 + b.enc * 512
  | .trig hd => 0x3C1C7040 + hd.enc
  | .pub hd => 0x3C1C7080 + hd.enc
  | .bar hd a b l => 0x3C0000C0 + hd.enc + a.enc * 32768 + b.enc * 512 + l.val
  | .post hd a b s n => 0x3C000100 + hd.enc + a.enc * 32768 + b.enc * 512 + b2n s * 8 + n.val
  | .pick hd a n => 0x3C007140 + hd.enc + a.enc * 32768 + n.val
  | .qwait hd a s => 0x3C007180 + hd.enc + a.enc * 32768 + b2n s * 8
  | .node hd a s => 0x3C0071C0 + hd.enc + a.enc * 32768 + b2n s * 8
  | .marm hd a b v => 0x3E000000 + hd.enc + a.enc * 32768 + b.enc * 512 + v.val
  | .msign hd a v => 0x3E007040 + hd.enc + a.enc * 32768 + v.val
  | .mwait hd v => 0x3E1C7080 + hd.enc + v.val
  | .mdrain hd a v => 0x3E0070C0 + hd.enc + a.enc * 32768 + v.val
  | .mcfg hd a v => 0x3E007100 + hd.enc + a.enc * 32768 + v.val
  | .mnorm hd a v => 0x3E007140 + hd.enc + a.enc * 32768 + v.val
  | .mreset hd v => 0x3E1C7180 + hd.enc + v.val
  | .cpy hd a b s d => 0x40000000 + hd.enc + a.enc * 32768 + b.enc * 512 + s.enc * 8 + d.enc
  | .cpys hd a b d => 0x40000040 + hd.enc + a.enc * 32768 + b.enc * 512 + d.enc
  | .gath hd a b d => 0x40000080 + hd.enc + a.enc * 32768 + b.enc * 512 + d.enc
  | .cpyr hd a b s r => 0x400000C0 + hd.enc + a.enc * 32768 + b.enc * 512 + s.enc * 8 + b2n r
  | .rast hd a n l => 0x42007000 + hd.enc + a.enc * 32768 + n.val * 16 + l.enc * 4
  | .trace hd a => 0x42007040 + hd.enc + a.enc * 32768
  | .hitr hd a b => 0x42000080 + hd.enc + a.enc * 32768 + b.enc * 512
  | .boxu hd a b m => 0x420000C0 + hd.enc + a.enc * 32768 + b.enc * 512 + m.enc * 16
  | .sah hd a b r => 0x42000100 + hd.enc + a.enc * 32768 + b.enc * 512 + r.enc
  | .npack hd a b => 0x42000140 + hd.enc + a.enc * 32768 + b.enc * 512
  | .tex hd a b => 0x440001C0 + hd.enc + a.enc * 32768 + b.enc * 512
  | .texg hd a b => 0x440001C1 + hd.enc + a.enc * 32768 + b.enc * 512
  | .texq hd a b => 0x440001C2 + hd.enc + a.enc * 32768 + b.enc * 512
  | .imld hd a b w => 0x440001C3 + hd.enc + a.enc * 32768 + b.enc * 512 + w.enc * 8
  | .imst hd a b w => 0x440001C4 + hd.enc + a.enc * 32768 + b.enc * 512 + w.enc * 8
  | .rds hd s => 0x461C7000 + hd.enc + s.val
  | .wrs hd a s => 0x46007020 + hd.enc + a.enc * 32768 + s.val
  | .trap hd a => 0x46007040 + hd.enc + a.enc * 32768
  | .tlbi hd a b t => 0x46000060 + hd.enc + a.enc * 32768 + b.enc * 512 + b2n t
  | .sleep hd a => 0x46007080 + hd.enc + a.enc * 32768
  | .halt hd => 0x461C70A0 + hd.enc
  | .thaw hd a b => 0x460000C0 + hd.enc + a.enc * 32768 + b.enc * 512
  | .keyld hd a b => 0x460000E0 + hd.enc + a.enc * 32768 + b.enc * 512
  | .commit gd a n w b m x v => 0x48000000 + gd.enc + a.val * 131072 + n.val * 4096 + b2n w * 2048 + b.val * 128 + m.val * 4 + b2n x * 2 + b2n v
  | .rej gd d => 0x4A000000 + gd.enc + d.toNat
  | .nop => 0x4C000000
  | .next gd => 0x60000000 + gd.enc
  | .bra gd d => 0x60040000 + gd.enc + d.toNat
  | .call gd d => 0x60080000 + gd.enc + d.toNat
  | .ret gd => 0x600C0000 + gd.enc
  | .exit gd => 0x60100000 + gd.enc
  | .await gd => 0x60140000 + gd.enc
  | .reform gd d => 0x60180000 + gd.enc + d.toNat
  | .iret gd => 0x601C0000 + gd.enc
  | .brx gd a => 0x62000000 + gd.enc + a.enc * 4096
  | .callx gd a => 0x62040000 + gd.enc + a.enc * 4096
  | .reformK gd a => 0x62080000 + gd.enc + a.enc * 4096
  | .nsPrefix t a b d x => 0x7E000000 + t.val * 131072 + a.enc * 4096 + b.enc * 128 + d.enc * 4 + b2n x * 2
  | .ndPrefix w i r s t n q => 0x7E200000 + w.enc * 524288 + i.val * 65536 + r.enc * 8192 + b2n s * 4096 + t.val * 256 + b2n n * 128 + b2n q * 64
  | .powerOn .. => 0
  | .clockChange .. => 0
  | .powerCap .. => 0
  | .thermalThrottle .. => 0
  | .thermalRecover .. => 0
  | .thermalShutdown .. => 0
  | .coolantFlowLow .. => 0
  | .flitReplay .. => 0
  | .moduleRetire .. => 0
  | .stackRead .. => 0
  | .stackWrite .. => 0
  | .stackWritem .. => 0
  | .stackAtomic .. => 0
  | .rootLoadi .. => 0
  | .rootStart .. => 0
  | .rootStop .. => 0
  | .rootStatus .. => 0
  | .stackAcct .. => 0
  | .stackDisc .. => 0
  | .stackErrpoll .. => 0
  | .stackResponse .. => 0
  | .stackScrub .. => 0
  | .sramCorrectedError .. => 0
  | .sramUncorrectableError .. => 0
  | .harvestApply .. => 0
  | .accessRefusal .. => 0
  | .accessTableWrite .. => 0
  | .pcieInboundRequest .. => 0
  | .getVersion .. => 0
  | .getCapabilities .. => 0
  | .negotiateAlgorithms .. => 0
  | .getDigests .. => 0
  | .getCertificate .. => 0
  | .challenge .. => 0
  | .getMeasurements .. => 0
  | .spdmUnsupportedRequest .. => 0
  | .redfishRequest .. => 0
  | .updateserviceImageWrite .. => 0
  | .bootStatusFrame .. => 0
  | .create .. => 0
  | .drain .. => 0
  | .resume .. => 0
  | .destroy .. => 0
  | .ctxcmdBadOp .. => 0
  | .qcfgWrite .. => 0
  | .queueDoorbell .. => 0
  | .qstsWrite .. => 0
  | .slotAccept .. => 0
  | .drecRead .. => 0
  | .countRead .. => 0
  | .defaultsRead .. => 0
  | .uniformBlockRead .. => 0
  | .roleTableRead .. => 0
  | .launchAdmit .. => 0
  | .deadlineMiss .. => 0
  | .groupPlace .. => 0
  | .preemptDecision .. => 0
  | .residencySave .. => 0
  | .residencyRestore .. => 0
  | .triggerFire .. => 0
  | .launchComplete .. => 0
  | .quiescenceReport .. => 0
  | .binFlushTimeout .. => 0
  | .nodeBinTimeout .. => 0
  | .binPlace .. => 0
  | .binSteal .. => 0
  | .roleEvaluation .. => 0
  | .runStart .. => 0
  | .runEnd .. => 0
  | .activeSetDisplace .. => 0
  | .resultArrival .. => 0
  | .linkFill .. => 0
  | .barrierComplete .. => 0
  | .sleepExpire .. => 0
  | .copyStart .. => 0
  | .copyComplete .. => 0
  | .copyEngineError .. => 0
  | .matrixChunkServe .. => 0
  | .matrixDrain .. => 0
  | .matrixOpComplete .. => 0
  | .traversalResult .. => 0
  | .textureResult .. => 0
  | .podFrameReceive .. => 0
  | .podFrameRetransmit .. => 0
  | .podBarrierReport .. => 0
  | .faultAreaRoom .. => 0
  | .fsvcResume .. => 0
  | .fsvcDeliver .. => 0
  | .fsvcTerminate .. => 0
  | .fsvcInvalid .. => 0
  | .vecset .. => 0
  | .wake .. => 0
  | .registerWrite .. => 0
  | .coolantFlowRestore .. => 0

/-- The encoder: the 32-bit word of a well-formed instruction word; none for an event or an ill-formed term. -/
def encode (i : Instr) : Option Word :=
  if i.isWord && i.wf then some (BitVec.ofNat 32 (encodeNat i)) else none

end Sys2Proof
end

