-- ==== Sys2Proof/Config.lean ====
section
/-! DEFINITION. What the part fixes (Table 0.1, Table 1.1, Table 1.4, Table 1.9) and the free values: opaque
constants, each standing for a value the manual leaves open, so that no statement can rest on a value of it. -/
namespace Sys2Proof.Config

/-- W of a Chard lane (R1). -/
def width : Nat := 32
/-- Chard tiles (R8). -/
def tiles : Nat := 8
/-- Cores of a Chard (R1). -/
def coresPerTile : Nat := 64
/-- Lanes of a core (R1). -/
def lanesPerCore : Nat := 32
/-- Thread slots of a lane (R153). -/
def slotsPerLane : Nat := 128
/-- Groups a lane holds at most (R81). -/
def groupsPerLane : Nat := 16
/-- Active groups of a lane (R96). -/
def activePerLane : Nat := 8
/-- Capacity of a stack: the standard board (Table 1.9; DESIGN CHOICE, log entry 10). -/
def stackGiB : Nat := 48
/-- Size of a core's granule (R103). -/
def granBytes : Nat := 16384
/-- Private SRAM of a control core and of a Root engine (R25, R35). -/
def sramBytes : Nat := 262144
/-- Ring store and accumulator memory of an array (R1). -/
def arrBytes : Nat := 4194304

/-- A free value of 64 bits for the n-th draw: nothing constrains it (log entry 4). -/
opaque freeWord : Nat → BitVec 64
/-- Which value inside the bound of Table 14.5 an SFU function gives: a fixed function of op and input (R361). -/
opaque sfuPick : Nat → BitVec 64 → Nat
/-- The key pair a slot that was never loaded by KEYLD stands for (R120 gives no reset value). -/
opaque unsetKey : Nat → BitVec 512
/-- The Kilsol root public key whose digest the boot ROM holds (R38). -/
opaque kilsolRoot : BitVec 256
/-- Digest of the boot ROM, measurement block 1 (R41). -/
opaque romDigest : BitVec 512
/-- What a configuration record's payload says (its layout is not given): MINSVN, owner keys certified, ranges of each
stack used by the direct window (R38, R116). -/
opaque cfgMinSvn : List (BitVec 8) → Nat
opaque cfgOwnerKeys : List (BitVec 8) → List (BitVec 256)
opaque cfgDirect : List (BitVec 8) → Nat → List (Nat × Nat)
/-- The MAC address, the IP settings and the TCP port of SPDM that a configuration record's payload names (R41, R45). -/
opaque cfgMac : List (BitVec 8) → BitVec 48
opaque cfgIp : List (BitVec 8) → List Nat
opaque cfgTcpPort : List (BitVec 8) → Option Nat
/-- A harvest record's payload from the harvest registers and back (its layout is not given): HVSUM's TLIVE, MLIVE and SLIVE,
then CORELIVE, SLCLIVE and ARRLIVE of each tile (R32, R39). -/
opaque harvestEnc : List (BitVec 64) → List (BitVec 8)
opaque harvestDec : List (BitVec 8) → List (BitVec 64)
/-- Bytes of a response that outside standards lay out (SPDM 1.2, Redfish): kind, arguments, content (R41, R45). -/
opaque portReply : Nat → List Nat → List (BitVec 8) → List (BitVec 8)
/-- The anchor at which the side products of a chunk enter where a zero block leaves EA + EB open (R260): a function of the
descriptor without COOP, the chunk and the block exponents there are, so that it depends on the operands and the descriptor alone and on
no split of the tile (R216; log entry 29). -/
opaque zeroAnchor : List (BitVec 64) → Nat → Option Int → Option Int → Int
/-- Bytes 12 to 31 of DISC, which the vendor and the DRAM define (Table 1.9). -/
opaque discVendor : Nat → BitVec 160

end Sys2Proof.Config
end

