-- ==== Sys2Proof/Machine/State.lean ====
section
/-! DEFINITION. The state of the package as plain data: everything the manual gives the machine, with sparse keyed
lists for what exists in large numbers, and State.reset. -/
namespace Sys2Proof.Machine

/-- A sparse table keyed by number: a key that is not listed holds the default its reader names. -/
abbrev AL (α : Type) := List (Nat × α)

/-! ### Identity of units

Cores: Chard core c of tile t is t·64 + c (0 to 511), control core k is 512 + k, the Root engine of stack s is 544 + s.
Lanes: lane l of Chard core x is x·32 + l, control core k is lane 16384 + k, Root s is lane 16416 + s.
Quads and arrays: quad q of tile t is t·16 + q. -/

/-! ### Threads -/

/-- State of a result-queue entry (R160, R161, R165). -/
inductive EntSt where
  /-- The entry holds its value. -/
  | full
  /-- The value has not arrived; the number names the arrival (R165). -/
  | pending (a : Nat)
  /-- A guarded-off word's entry, which reads as zero and commits nothing (R161, R162). -/
  | notWritten
  /-- Poisoned memory data (R165). -/
  | poison
deriving DecidableEq, Repr

/-- A result-queue entry (Table 7.1). -/
structure QEnt where
  v : DWord
  st : EntSt
deriving DecidableEq, Repr

/-- A named register: its word, the arrival it awaits and whether that arrival's high half (R165), its poison (R165), an
uncorrectable error (R123), whether its latent-error record is written, and the full bit of a link register (R173). -/
structure NReg where
  v : Word
  pend : Option (Nat × Bool)
  poison : Bool
  uncorr : Bool
  told : Bool
  full : Bool
deriving DecidableEq, Repr

/-- A thread fault before it is delivered (Table 12.1, Table 12.3). -/
structure FaultInfo where
  cls : Nat
  cause : Nat
  addr : DWord
  word : Nat
  instr : Word
  /-- It terminates the thread, as a fault of IRET's read does (R307). -/
  fatal : Bool
deriving DecidableEq, Repr

/-- What the K word of a run does for a thread at step 6 of Table 7.5, its checks passed (R164, Table 15.3). -/
inductive KKind where
  /-- The packet after the run; the region entry stands. -/
  | next
  /-- BRA, BRX: the target. -/
  | goto (pc : Nat)
  /-- CALL, CALLX, RET: the stack pointer and the PC after it. -/
  | frame (sp pc : Nat)
  | exit
  | await
  /-- REFORM (1) or REFORM.K (2): key and next PC. -/
  | reform (kind key pc : Nat)
  /-- IRET: F3, F6 and F7 of the record. -/
  | iret (f3 f6 f7 : Nat)
deriving DecidableEq, Repr

/-- A wait of step 7 of Table 7.5. -/
inductive Wait where
  /-- A BAR that has not joined an instance yet: level, pod barrier, package count (R186, R393). -/
  | bar (lvl id count : Nat)
  /-- A BAR that has arrived at an instance (R135). -/
  | barIn (inst : Nat)
  /-- RWAIT.P and RWAIT.C (R199). -/
  | ringHead (ring : Nat) (cons : Bool)
  /-- RWAIT.S (R199): the slot in state full or empty, with its phase. -/
  | ringSlot (ring slot : Nat) (full ph : Bool)
  /-- CWAIT (R202). -/
  | count (k : Nat)
  /-- MWAIT: the sequence number c held at the thread's arrival (R221). -/
  | mwait (c : Nat) (seq : Option Word)
  /-- MDRAIN (R418). -/
  | mdrain (c : Nat) (t : Word)
  /-- QWAIT on a 64-bit glb word (R396). -/
  | word (va : Nat) (nz : Bool)
  /-- SLEEP for n cycles, then until the die's CYC (R407). -/
  | sleep (n : Nat) (till : Option Nat)
  /-- HALT on a control core (R407). -/
  | halt
  /-- A thread whose run ended it, parked it or filed it, and which still waits to go: for the open instances that the run's BARs, by
  level, pod barrier and package count, are no participants of (R135), or for the pending registers that its end publishes (R176). -/
  | gone (bars : List (Nat × Nat × Nat)) (k : KKind) (next : Nat)
deriving DecidableEq, Repr

/-- A wait with the index of its word in the run, the word and the run's first packet. -/
structure PWait where
  word : Nat
  instr : Word
  pc : Nat
  w : Wait
deriving DecidableEq, Repr

/-- A commit gathered for run end (R162): the entry its age named, the register, the .w form. -/
structure Commit where
  ent : QEnt
  d : Nat
  wide : Bool
deriving DecidableEq, Repr

/-- A MAPL mapping (R173, R210): first register, count, stream record, registers filled so far in the round, position in
the stream and a fault held for the registers the fill would have filled. -/
structure LinkMap where
  first : Nat
  count : Nat
  record : Nat
  fills : Nat
  pos : Nat
  held : Option (List Nat × FaultInfo)
deriving DecidableEq, Repr

/-- What a thread holds within a run (Table 7.1, Table 7.5). -/
structure RunT where
  q : List QEnt
  chk : BitVec 7
  srs : DWord
  flags : Word
  commits : List Commit
  wrs : List (Nat × DWord)
  pub : Bool
  rejs : List (Nat × Nat)
  mapl : Option LinkMap
  unmap : Bool
  k : Option (Nat × KKind)
  waits : List PWait
  trap : Option (Nat × DWord)
  linkRead : List Nat
  spos0 : AL (Nat × Nat)
deriving DecidableEq, Repr

/-- Where a thread is. -/
inductive Where where
  /-- In group g at position tid. -/
  | grp (g tid : Nat)
  /-- Filed into a bin of a core. -/
  | filed (core bin : Nat)
  /-- A continuation that waits for a bin of a core to file into (R89): the lane of the child that ended last. -/
  | filing (lane : Nat)
  /-- Parked in its frame (R182); exit says that it ends, and does not continue, when its last child ends (R183). -/
  | parked (exit : Bool)
  /-- Ended. -/
  | ended
deriving DecidableEq, Repr

/-- Where a fault that has been raised stands. -/
inductive SvcSt where
  /-- Its record is not due: the run that raised it, or a fault of a lower TID, is not done with (R296), or runs are in flight on the core
  that a serviced fault stalls (R302). -/
  | held
  /-- Its record waits: the area is full (R298). -/
  | noRoom
  /-- Its record is written and the supervisor has been told (R302). -/
  | written
deriving DecidableEq, Repr

/-- A fault of a thread that has not had its outcome (R296, R298, R302): core, FSEQ, address of its record once it is written. -/
structure Svc where
  core : Nat
  fseq : Nat
  recVa : Nat
  info : FaultInfo
  resume : Nat
  st : SvcSt
  /-- The fault is serviced. -/
  svc : Bool
  /-- First packet of the faulting run (F2). -/
  pc : Nat
deriving DecidableEq, Repr

/-- Who a thread is. -/
structure ThId where
  launch : Option Nat
  ctx : Nat
  iid : DWord
  role : Nat
  item : Bool
  parent : Option Nat
deriving DecidableEq, Repr

/-- Per-thread state (Table 7.1). -/
structure Thr where
  id : ThId
  loc : Where
  pc : Nat
  regs : List NReg
  p : BitVec 7
  sp : DWord
  stkb : DWord
  stkl : DWord
  frame : Option Nat
  srs : DWord
  fst : Word
  mst : DWord
  rgnc : Word
  rentry : Nat
  spos : AL (Nat × Nat)
  link : Option LinkMap
  slot : Nat
  gen : BitVec 8
  inTrap : Bool
  /-- A fault of its next fetch is a double fault: it has been delivered to its handler and has not entered it (R308), or a control core
was woken at a PC that is no multiple of 12 (R402). -/
  dblFetch : Bool
  restarts : Nat
  waits : List PWait
  svc : Option Svc
  trig : Bool
  pubd : Bool
  rt : RunT
deriving DecidableEq, Repr

/-! ### Groups, runs, lanes -/

/-- An effect of SCFG held for step 3 of Table 7.5 (R386). -/
inductive ScfgEff where
  | ring (k : Nat) (img : BitVec 128)
  | stream (r : Nat) (img : BitVec 256)
  | bind (h r : Nat)
  | unbind (h : Nat)
deriving DecidableEq, Repr

/-- A thread's part in a cross-group word, which the index of the word in the run names (R363). -/
structure XgEnt where
  word : Nat
  tid : Nat
  contrib : Bool
  a : DWord
  b : Word
deriving DecidableEq, Repr

/-- What a once-per-set word did for the set (R325, R412). -/
inductive Once where
  | done (ents : List QEnt)
  | failed (f : FaultInfo)
deriving DecidableEq, Repr

/-- A run in progress on a lane (R157 to R167): its fetched words, the slot it stands at, the threads that slot has still
to issue for and what the run has gathered for the group: uniform writes with their words, the records a POST is to append (list, words),
what a read of constants has given the whole set, by word, address and bytes (R102). -/
structure Run where
  grp : Nat
  pc : Nat
  words : List Word
  wi : Nat
  set : List Nat
  todo : List Nat
  xg : List XgEnt
  once : AL Once
  uni : List (Nat × Nat × Word)
  uwin : Option (Nat × Nat)
  scfg : List ScfgEff
  posts : List (Nat × List Word)
  bcast : List ((Nat × Nat × Nat) × (Nat × Bool))
  /-- The slot at hand has not issued for the next thread (R166). -/
  stalled : Bool
deriving DecidableEq, Repr

/-- Per-group state (Table 7.4) with the scheduler's marks (R96 to R98) and, while its residency is saved, the run a
save stopped between two slots (R310, R311). -/
structure Grp where
  launch : Option Nat
  ctx : Nat
  res : Nat
  lane : Nat
  no : Word
  g : List Word
  ub : Nat
  rejoin : List (Nat × List Nat)
  ages : AL Nat
  mem : AL Nat
  heads : AL Nat
  role : Nat
  lastRun : Nat
  passed : Nat
  waitSince : Nat
  readySince : Option Nat
  setSince : Nat
  trapv : Nat
  srun : Option Run
deriving DecidableEq, Repr

/-- A temporal lane (R96, R153); ended is the group whose run has just ended, for which the exchange of R96 is still to be looked at. -/
structure Lane where
  active : List Nat
  waiting : List Nat
  run : Option Run
  ended : Option Nat
  runs : Nat
  slots : AL Nat
  tags : AL (BitVec 8)
deriving DecidableEq, Repr

/-- The NS prefix at hand (R326). -/
structure NsP where
  ft : Nat
  a : Sel
  b : Sel
  d : Sel
  sx : Bool
deriving DecidableEq, Repr

/-- The ND prefix at hand (R327). -/
structure NdP where
  w : SubW
  i : Nat
  rm : RM
  sat : Bool
  ft : Nat
  int : Bool
  sgn : Bool
deriving DecidableEq, Repr

/-- What the lane is issuing now: the thread, the slot's first word, the word at hand, its literals, its prefixes, the
queue as it stood before the chain (R160), whether no later thread issues for the slot, and what the issue came to: a
stall, a stall for want of a bin, a fault of a chain's member. -/
structure Issue where
  lane : Nat
  grp : Nat
  tid : Nat
  thr : Nat
  word : Nat
  instr : Word
  lits : List Word
  ns : Option NsP
  nd : Option NdP
  q0 : List QEnt
  chained : Bool
  last : Bool
  stalled : Bool
  noBin : Bool
  faulted : Option FaultInfo
deriving DecidableEq, Repr

/-! ### Cores and residencies -/

/-- A 64-byte line of an L1 (R105): its context, its address, the granule of the pool it lies in. -/
structure L1Line where
  ctx : Nat
  pa : Nat
  gran : Nat
  data : Line
deriving DecidableEq, Repr

/-- A decoded texel block of an L1 (R106, R290). -/
structure TexBlock where
  ctx : Nat
  gran : Nat
  desc : Nat
  layer : Nat
  level : Nat
  dx : Nat
  dy : Nat
  data : Line
deriving DecidableEq, Repr

/-- A line of the write-combining buffer (R105). -/
structure WLine where
  ctx : Nat
  pa : Nat
  key : Nat
  mask : BitVec 64
  data : Line
deriving DecidableEq, Repr

/-- A tag-table entry (Table 5.2) with its set and way. -/
structure TagEnt where
  set : Nat
  way : Nat
  st : Nat
  res : Nat
  tag : Nat
  loc : Nat
deriving DecidableEq, Repr

/-- A range-scoreboard entry (R114): residency, direction, range. -/
structure Score where
  id : Nat
  res : Nat
  inDir : Bool
  lo : Nat
  hi : Nat
deriving DecidableEq, Repr

/-- A forwarding-buffer reservation (R86): launch, group number, entries, the first and the last item that may read it, and what was read
of it: the reader, the item read and the register. -/
structure FwdRes where
  launch : Nat
  grp : Nat
  n : Nat
  first : Nat
  last : Nat
  seen : List (Nat × Nat × Nat)
deriving DecidableEq, Repr

/-- Kinds of bin (Table 4.1). -/
inductive BinKind where
  | reform | reformK | spawn | cont | node | list
deriving DecidableEq, Repr

/-- A bin entry: a thread, or a record with its IID (R64, R93). -/
inductive BinEnt where
  | thr (t : Nat)
  | record (words : List Word) (iid : DWord)
deriving DecidableEq, Repr

/-- A bin (R87). -/
structure Bin where
  kind : BinKind
  launch : Nat
  key : Nat
  target : Nat
  sealed : Bool
  tOpen : Nat
  tSeal : Nat
  ents : List BinEnt
deriving DecidableEq, Repr

/-- A granule: the residency that owns it and the context that owned it last (R80, R104). -/
structure Gran where
  res : Option Nat
  ctx : Option Nat
deriving DecidableEq, Repr

/-- A core's own state. -/
structure Core where
  gran : AL Gran
  pool : AL Byte
  poison : List Nat
  l1 : List L1Line
  tex : List TexBlock
  wcb : List WLine
  tags : List TagEnt
  score : List Score
  fwd : List FwdRes
  bins : AL Bin
  binGrps : Nat
  fseq : BitVec 16
  /-- Double faults that wait for the other contexts' residencies to be saved (R309): context, launch, address of the record. -/
  dbl : List (Nat × Option Nat × Nat)
  /-- Cycles its service stalls have taken, in which no group's wait for a place advances (R305). -/
  stallC : Nat
deriving DecidableEq, Repr

/-- A residency (R80, R311). -/
structure Res where
  launch : Nat
  ctx : Nat
  core : Nat
  slot : Nat
  rg : List Nat
  sg : List Nat
  lg : List Nat
  trapv : Nat
  srec : AL (BitVec 256)
  saved : Bool
  saving : Bool
  since : Nat
  /-- Saved scratchpad by the residency's own offsets, and its poisoned words (R122). -/
  spare : AL Byte
  spoison : List Nat
  stags : List TagEnt
deriving DecidableEq, Repr

/-! ### Launches, contexts -/

/-- Phases of a launch (R65, R74, Table 3.8). -/
inductive LPhase where
  | accepted
  | admitted
  | done (status : Nat)
deriving DecidableEq, Repr

/-- A dependence (R65): waiting for a launch the front end holds, to be read from memory, satisfied, failed. -/
inductive Dep where
  | none
  | onLaunch (l : Nat) (early : Bool)
  | toRead
  | satisfied
  | failed
deriving DecidableEq, Repr

/-- A launch the front end holds (R55 to R71). -/
structure Launch where
  ctx : Nat
  dev : Nat
  queue : Nat
  slotVa : Nat
  pkt : List DWord
  drop : Bool
  aseq : Nat
  phase : LPhase
  deps : List Dep
  count : Option Nat
  uni : Option (List Word)
  dflt : Option (List Word)
  roles : Option (List (DWord × DWord))
  tadm : Nat
  nthr : Nat
  frec : Option Nat
  faulted : Bool
  trigd : Bool
  /-- A thread of it has executed TRIG (R66, R391). -/
  trigs : Bool
  nextGrp : Nat
  blocked : Option Nat
  /-- While blocked, what was freed for it on cores of its device (R74): granules by core, thread slots by 2^20 + lane,
  group slots by 2^21 + lane. -/
  resv : AL Nat
  /-- The cores a pre-emption chose for it (R77). -/
  victims : List Nat
  iidNext : AL Nat
  pubs : AL (AL Word)
deriving DecidableEq, Repr

/-- States of a context (R46). -/
inductive CtxSt where
  | free | live | draining | drained
deriving DecidableEq, Repr

/-- Registers of a launch queue (Table 3.5). -/
structure Queue where
  base : Nat
  en : Bool
  drop : Bool
  logsz : Nat
  head : Nat
  acc : Nat
  ready : List Nat
  stall : Bool
  err : Bool
deriving DecidableEq, Repr

/-- A remote window (R149): its virtual range, the package and the address there that its first byte stands for. -/
structure Window where
  va : Nat
  len : Nat
  pkg : Nat
  remote : Nat
deriving DecidableEq, Repr

/-- Room that a residency's save, a frame or a filed thread's record has in its context's save arena (R312): ranges of the residency area
by offset and bytes, whether it has been written there, and when the save was made. -/
structure ArenaRoom where
  ranges : List (Nat × Nat)
  out : Bool
  age : Nat
deriving DecidableEq, Repr

/-- A context (R46 to R51): its descriptor, its devices and extents, its formats and the fault-area fields as read. -/
structure Ctx where
  st : CtxSt
  allDrained : Bool
  desc : List DWord
  devs : List (List Nat)
  ext : AL Nat
  ft : List DWord
  vec : Nat
  route : Nat
  sava : Nat
  savn : Nat
  windows : List Window
  stks : List (Nat × Nat)
  /-- Room in the save arena by residency, frame or filed thread (R312). -/
  room : AL ArenaRoom
  nextFrame : Nat
  /-- Threads of a role k ≥ 1 started in a device, under 8·device + k (Table 7.3). -/
  roleNext : AL Nat
  queues : AL Queue
deriving DecidableEq, Repr

/-- A spawn frame (R178): the tile it was created on, the thread that owns it, children outstanding, next ordinal, user area. -/
structure Frame where
  ctx : Nat
  tile : Nat
  owner : Nat
  handle : Nat
  out : Nat
  next : Nat
  area : AL Byte
deriving DecidableEq, Repr

/-- A barrier instance (R135): participants still to arrive, threads that arrived by BAR and pod reports. -/
structure Bar where
  launch : Nat
  lvl : Nat
  unit : Nat
  left : List Nat
  waiting : List Nat
  id : Nat
  count : Nat
  /-- The packages that have reported (R393). -/
  reports : List Nat
  sent : Bool
deriving DecidableEq, Repr

/-! ### Quads: rings, count objects, convergence registers, copies -/

/-- A slot of a ring (R196). -/
structure Slot where
  full : Bool
  ph : Bool
  cnt : Nat
deriving DecidableEq, Repr

/-- A ring descriptor (Table 8.1) with its owner and slots. -/
structure Ring where
  v : Bool
  store : Bool
  qcore : Nat
  base : Nat
  slsz : Nat
  nslot : Nat
  filln : Nat
  drainn : Nat
  head : Nat
  tail : Nat
  hph : Bool
  tph : Bool
  own : Nat
  slots : AL Slot
deriving DecidableEq, Repr

/-- A count object (R202). -/
structure CountObj where
  cnt : Int
  pend : Nat
  own : Option Nat
deriving DecidableEq, Repr

/-- A convergence register (Table 9.2); doneq holds the arms that completed out of turn, with their statuses (R418). -/
structure Creg where
  armed : Bool
  own : Option Nat
  daddr : Nat
  nsig : Nat
  sigs : Nat
  armseq : Word
  doneseq : Word
  cst : DWord
  ref : DWord
  trapm : BitVec 2
  doneq : List (Word × Option DWord)
deriving DecidableEq, Repr

/-- Who issued an engine operation, as its fault record names it (R426). -/
structure Issuer where
  launch : Nat
  ctx : Nat
  core : Nat
  lane : Nat
  slot : Nat
  word : Nat
  instr : Word
  iid : DWord
  pc : Nat
  rgnc : Word
  grp : Word
  tid : Nat
  p : BitVec 7
  n0 : Word
  n1 : Word
  res : Nat
deriving DecidableEq, Repr

/-- Kinds of copy (R420). -/
inductive CopyKind where
  | cpy | cpys | gath | cpyr (rc : Bool)
deriving DecidableEq, Repr

/-- A copy operation (R203, R204, R423): its source and destination, the stream records as they stood at issue, its completion
word, its scoreboard entries by core, the bytes done (for CPYR: whether its lines are sent). -/
structure CopyOp where
  id : Nat
  kind : CopyKind
  by_ : Issuer
  sSp : Space
  dSp : Space
  src : Nat
  dst : Nat
  len : Nat
  record : BitVec 256
  ixRec : BitVec 256
  tgt : Word
  score : List (Nat × Nat)
  started : Bool
  pos : Nat
deriving DecidableEq, Repr

/-- An element of the FX store (R260, R261, R263): V, its anchor L once it has one, the losses, the special conditions met
(bit 0 NaN, bits 1 and 2 products of +∞ and −∞), and Σ n(c)·2^(EA+EB+3−P) as errM·2^errE. -/
structure FxEl where
  v : Int
  l : Option Int
  nl : Nat
  spec : Nat
  errM : Nat
  errE : Int
deriving DecidableEq, Repr

/-- A matrix operation in the command queue of an array (R218 to R224): its home quad, its ticket, its descriptor, where it
stands (0 not yet checked, 1 streaming, 2 accumulated, 3 drained), the chunk it is at, this array's FX store, the flags and
outlier counts gathered (Table 9.5), whether it is the reissue of R233 with the first pass's OCNT, and its status. -/
structure MOp where
  id : Nat
  launch : Nat
  ctx : Nat
  quad : Nat
  creg : Nat
  seq : Word
  desc : List DWord
  appended : Nat
  stage : Nat
  chunk : Nat
  fx : List FxEl
  flags : DWord
  ocnt : Nat
  second : Bool
  ocnt1 : Nat
  status : DWord
deriving DecidableEq, Repr

/-- A stack entry of a traversal (R282): a child reference, its place among its parent's children in order of entry, the depth of
what it refers to in its tree, whether that tree is the current instance's, and its box as f32 codes (empty for a root). -/
structure RayItem where
  ref : Nat
  rank : Nat
  depth : Nat
  inst : Bool
  box : List Nat
deriving DecidableEq, Repr

/-- An accepted hit (R280): T, INST, GEOM, PRIM, U and V. -/
structure RayHit where
  t : Nat
  inst : Nat
  geom : Nat
  prim : Nat
  u : Nat
  v : Nat
deriving DecidableEq, Repr

/-- The instance a traversal is in (R278): INST, its root, o′ and d′ as f32 codes, and the leaf it stands in with the record that
follows it there. -/
structure RayInst where
  num : Nat
  root : Nat
  o : List Nat
  d : List Nat
  leaf : RayItem
  next : Nat
deriving DecidableEq, Repr

/-- The state of a traversal (R282): its stack, newest first, of which chip entries are on chip; how many spilled entries were
discarded; the tree of a discarded entry is lost; the restart trail of each tree, by depth; whether it descends along the trail;
the instance it is in, the leaf it is at with its next record, the item it enters next; t_cur, the best hit, the candidate
reported, and the slots of the spill area written. -/
structure RayWalk where
  stack : List RayItem
  chip : Nat
  base : Nat
  lostTop : Bool
  lostInst : Bool
  trailTop : List Nat
  trailInst : List Nat
  follow : Bool
  inst : Option RayInst
  leaf : Option (RayItem × Nat)
  item : Option RayItem
  tcur : Nat
  best : Option RayHit
  cand : Nat × Nat × Nat
  wrote : List Nat
deriving DecidableEq, Repr

/-- What a state block stands for (R284): the context, the bytes of the block and of the spill slots in use, as 16-byte pieces at
their offsets in the spill area, the traversal they hold, and the spill areas (residency and offset) whose ray has gone. -/
structure SuspRay where
  ctx : Nat
  kept : List (Nat × Nat)
  gone : List (Nat × Nat)
  walk : RayWalk
deriving DecidableEq, Repr

/-- A quad: its ring unit, copy engine queue and role marks. -/
structure Quad where
  rings : AL Ring
  counts : AL CountObj
  cregs : AL Creg
  copyq : List CopyOp
  roleHold : AL (Nat × Nat)
  roleExtra : AL Nat
  lastEval : Nat
deriving DecidableEq, Repr

/-- A matrix array: command queue, ring store and its poisoned words, accumulator memory and its poisoned words by context, the
context that owns AM, and the operation whose cells and FX store it holds (R237, R238). -/
structure Arr where
  q : List MOp
  ring : AL Byte
  ringPoison : List Nat
  am : AL (AL Byte)
  amPoison : AL (List Nat)
  owner : Option Nat
  cur : Option Nat
deriving DecidableEq, Repr

/-- A result on its way to a thread (R153, R165): the thread, its slot's tag at issue, where it comes from (0 memory and others,
1 traversal unit, 2 texture unit), the values of the entries that wait for id, id + 1 and on, and the scoreboard entries it
releases. -/
structure Arrival where
  id : Nat
  thr : Nat
  lane : Nat
  slot : Nat
  gen : BitVec 8
  kind : Nat
  vs : List DWord
  poison : Bool
  score : List (Nat × Nat)
deriving DecidableEq, Repr

/-! ### Memory and translation -/

/-- A cached translation (R119). -/
structure TlbEnt where
  die : Nat
  ctx : Nat
  va : Nat
  size : Nat
  leaf : DWord
deriving DecidableEq, Repr

/-- A deterministic-reduction batch (R142). -/
structure Batch where
  launch : Nat
  ctx : Nat
  pa : Nat
  key : Nat
  fn : Nat
  w64 : Bool
  ups : List (Nat × Nat)
deriving DecidableEq, Repr

/-- Memory and what stands around it. -/
structure Memory where
  cells : List Host.Cell
  poison : List Nat
  /-- Poisoned lines that are dirty lines of L2 (R122). -/
  l2p : List Nat
  /-- Capacity of a stack in GiB by stack (Table 1.9); one that is not listed is the standard stack (log entry 10). -/
  caps : AL Nat
  /-- Errors that stand in the DRAM, by line, until a read or a scrub meets them (R27; log entry 86). -/
  flaws : AL ScrubFound
  tags : AL (BitVec 512)
  keys : AL (BitVec 512)
  tlb : List TlbEnt
  batches : List Batch
  owned : List (Nat × Nat)
  acc : AL (AL (BitVec 128))
deriving DecidableEq, Repr

/-! ### System die and package -/

/-- A record queue of control space: HEAD, TAIL, DROP and its records (Table 2.3, Table 12.5, R124). -/
structure RecQ where
  head : Nat
  tail : Nat
  /-- Every entry holds a record that has not been taken: HEAD and TAIL are then equal too. -/
  full : Bool
  drop : Word
  recs : AL (BitVec 128)
deriving DecidableEq, Repr

/-- States of a control core (R36, R402, R407). -/
inductive CtlSt where
  | held | running | exited | halted | stopped
deriving DecidableEq, Repr

/-- A control core (R35): its private SRAM, state, trap vector, context and the word 1 it holds for FSVC and VECSET. -/
structure Ctl where
  st : CtlSt
  sram : AL Byte
  trapv : Nat
  ctx : Nat
  fsvc1 : DWord
  vec1 : DWord
deriving DecidableEq, Repr

/-- Celeriac control space (chapters 2, 3, 5, 12). -/
structure Sys where
  bootStage : BitVec 8
  bootFail : BitVec 8
  viol : RecQ
  mcheck : RecQ
  latent : RecQ
  vseq : BitVec 16
  frzsel : BitVec 16
  frozen : AL Bool
  heldSeq : AL (BitVec 16)
  svcHead : Nat
  svcTail : Nat
  /-- Every entry of the service queue holds a notice that has not been taken. -/
  svcFull : Bool
  svcLast : BitVec 4
  notices : AL DWord
  svcWait : List DWord
  ctxn : BitVec 6
  result : BitVec 8
  /-- CTXSTS.BUSY (Table 3.2): steps for which a command is in progress (log entry 87). -/
  busy : Nat
  allDrain : Bool
  /-- Error reports that ERRPOLL has brought to Celeriac, with their stacks, in arrival order (R27). -/
  reports : List (Nat × BitVec 128)
  /-- What a master's last read of control space gave it (R44, R46; log entry 88). -/
  reads : AL DWord
deriving DecidableEq, Repr

/-- The harvest registers (Table 1.12, R32). -/
structure Harvest where
  tlive : BitVec 8
  mlive : BitVec 10
  msrv : BitVec 8
  slive : BitVec 16
  pend : BitVec 8
  gen : BitVec 8
  cores : AL (BitVec 64)
  slices : AL (BitVec 32)
  arrays : AL (BitVec 16)
deriving DecidableEq, Repr

/-- The package: power, clocks, links, counters, NOR store, identity, what its ports have sent. -/
structure Pkg where
  powered : Bool
  clock : AL Nat
  ceiling : AL Nat
  throttled : List Nat
  coolantLow : Bool
  cyc : AL DWord
  qclk : DWord
  /-- Modules out of service by link (R18). -/
  modules : AL (List Nat)
  fenced : List Nat
  /-- Times of the replays of a link's module, 64·link + module, within a millisecond (R18), and of counted errors by unit, within
  their windows (Table 1.10). -/
  replays : AL (List Nat)
  hv : Harvest
  errs : AL (List Nat)
  pending : List HwUnit
  routes : AL (List Nat)
  /-- Records of the NOR store: slot (0 A, 1 B) and bytes, header first (R37). -/
  nor : List (Nat × List Byte)
  devSeed : Option (BitVec 256)
  devPub : BitVec 256
  aliasSeed : Option (BitVec 256)
  /-- The DevID-signed certificate of the alias key that firmware holds (R40). -/
  aliasCert : List Byte
  /-- A boot in progress, with what it meets (R36). -/
  boot : Option BootIn
  measure : List (BitVec 512)
  fseq : DWord
  slot : Nat
  outbox : List (Nat × List Byte)
deriving DecidableEq, Repr

/-- States Root reports (Table 1.8). -/
inductive RootSt where
  | idle | running | fault | stopped
deriving DecidableEq, Repr

/-- A stack: its Root engine, error reports and responses on their way (R21 to R27). -/
structure Stack where
  root : RootSt
  cls : Nat
  pcOff : Nat
  stopReq : Bool
  compl : Nat
  sram : AL Byte
  errs : List (BitVec 128)
  resps : List (Nat × List Line)
deriving DecidableEq, Repr

/-- A line of a remote transfer in flight (R149): the copy it belongs to, the address in the window, the package and the address
there that it stands for, the bytes it carries, whether their source was poisoned (R426), and whether the port has given it up while the
copy engine stood frozen. -/
structure PodFrame where
  id : Nat
  quad : Nat
  op : Nat
  va : Nat
  pkg : Nat
  addr : Nat
  mask : BitVec 64
  line : Line
  poison : Bool
  failed : Bool
deriving DecidableEq, Repr

/-- A choice of what happens next: an event with what it brings from outside, a word issued by a lane, a cache that
gives up or drains a line, time that passes on a die. -/
inductive Act where
  | ev (i : Instr)
  | issue (lane : Nat)
  | evict (core pa : Nat)
  | drain (core : Nat)
  | untlb (die ctx va : Nat)
  | tick (die n : Nat)
  /-- The boot in progress passes to its next stage (R36). -/
  | boot
  /-- An error arises in a line of DRAM (R27). -/
  | flaw (pa : Nat) (found : ScrubFound)
  /-- A master reads a register of control space (R44, R46). -/
  | ctlRead (mid off : Nat)
  /-- The pod's management opens a remote window of a context (R149). -/
  | window (ctx : Nat) (w : Window)
deriving DecidableEq, Repr

/-- The whole machine. The last fields are the model's own: the agenda (log entry 3), the counter of free values (log
entry 4), the counter of names and the issue at hand. -/
structure State where
  pkg : Pkg
  sys : Sys
  mem : Memory
  ctxs : AL Ctx
  launches : AL Launch
  aseq : Nat
  ress : AL Res
  cores : AL Core
  lanes : AL Lane
  grps : AL Grp
  thrs : AL Thr
  frames : AL Frame
  bars : AL Bar
  nodes : List (Nat × Nat × Nat × Nat)
  quads : AL Quad
  arrs : AL Arr
  ctls : AL Ctl
  stks : AL Stack
  pods : List PodFrame
  rays : List SuspRay
  arrivals : List Arrival
  agenda : List Act
  free : Nat
  fresh : Nat
  iss : Issue
deriving DecidableEq, Repr

/-! ### Why a step stops -/

/-- The machine stops: nothing below gives it a next state. -/
inductive Fault where
  /-- The package has no power: raised by step alone, after THERMAL_SHUTDOWN (R34), unless the agenda names POWER_ON. Safe:
without power nothing changes. -/
  | noPower
deriving DecidableEq, Repr

/-- No meaning is given. -/
inductive Refusal where
  /-- An instruction without a meaning yet: raised by Dispatch alone. Safe. -/
  | notModelled (mnemonic : String)
deriving DecidableEq, Repr

/-! ### Defaults and reset -/

/-- A named register at thread start (R154). -/
def NReg.zero : NReg := ⟨0, none, false, false, false, false⟩
/-- The run-scoped state outside a run. -/
def RunT.empty : RunT := ⟨[], 0, 0, 0, [], [], false, [], none, false, none, [], none, [], []⟩
/-- A lane with no group. -/
def Lane.empty : Lane := ⟨[], [], none, none, 0, [], []⟩
/-- No word at issue. -/
def Issue.none : Issue := ⟨0, 0, 0, 0, 0, 0, [], .none, .none, [], false, true, false, false, .none⟩
/-- A core as reset leaves it. -/
def Core.empty : Core := ⟨[], [], [], [], [], [], [], [], [], [], 0, 0, [], 0⟩
/-- A quad as reset leaves it. -/
def Quad.empty : Quad := ⟨[], [], [], [], [], [], 0⟩
/-- An array as reset leaves it. -/
def Arr.empty : Arr := ⟨[], [], [], [], [], none, none⟩
/-- A stack as reset leaves it: Root idle (Table 1.8). -/
def Stack.empty : Stack := ⟨.idle, 0, 0, false, 0, [], [], []⟩
/-- A FREE context: every register of its queues reads as zero (R53). -/
def Ctx.empty : Ctx := ⟨.free, false, [], [], [], [], 0, 0, 0, 0, [], [], [], 1, [], []⟩
/-- A queue's reset values (Table 3.5). -/
def Queue.empty : Queue := ⟨0, false, false, 0, 0, 0, [], false, false⟩
/-- A ring descriptor's reset value (Table 8.1). -/
def Ring.empty : Ring := ⟨false, false, 0, 0, 0, 0, 0, 0, 0, 0, false, false, 0, []⟩
/-- A slot after SCFG (R193). -/
def Slot.empty : Slot := ⟨false, false, 0⟩
/-- A count object's reset value (R202). -/
def CountObj.empty : CountObj := ⟨0, 0, none⟩
/-- A convergence register at reset (log entry 17). -/
def Creg.empty : Creg := ⟨false, none, 0, 0, 0, 0, 0, 0, 0, 0, []⟩
/-- A control core held in reset (R36). -/
def Ctl.held : Ctl := ⟨.held, [], 0, 0, 0, 0⟩
/-- An empty record queue. -/
def RecQ.empty : RecQ := ⟨0, 0, false, 0, []⟩
/-- Harvest registers with no harvest record: every unit live (R32). -/
def Harvest.all : Harvest := ⟨0xFF, 0x3FF, 0, 0xFFFF, 0, 0, [], [], []⟩

/-- The package after power-on, before the boot ROM has run (R36): clocks at their maxima (log entry 10). -/
def Pkg.reset : Pkg :=
  { powered := true, clock := [], ceiling := [], throttled := [], coolantLow := false, cyc := [], qclk := 0,
    modules := [], fenced := [], replays := [], hv := .all, errs := [], pending := [], routes := [], nor := [],
    devSeed := none, devPub := 0, aliasSeed := none, aliasCert := [], boot := none, measure := [], fseq := 0, slot := 0, outbox := [] }

/-- Control space after reset. -/
def Sys.reset : Sys :=
  { bootStage := 0, bootFail := 0, viol := .empty, mcheck := .empty, latent := .empty, vseq := 0, frzsel := 0,
    frozen := [], heldSeq := [], svcHead := 0, svcTail := 0, svcFull := false, svcLast := 0, notices := [], svcWait := [], ctxn := 0,
    result := 0, busy := 0, allDrain := false, reports := [], reads := [] }

/-- Memory after reset: nothing listed (log entry 14). -/
def Memory.reset : Memory :=
  { cells := [], poison := [], l2p := [], caps := [], flaws := [], tags := [], keys := [], tlb := [], batches := [], owned := [], acc := [] }

/-- The machine right after reset: control core 0 at the boot ROM, every other core held (R36), no context, no launch,
no thread. -/
def State.reset : State :=
  { pkg := .reset, sys := .reset, mem := .reset, ctxs := [], launches := [], aseq := 0, ress := [], cores := [],
    lanes := [], grps := [], thrs := [], frames := [], bars := [], nodes := [], quads := [], arrs := [],
    ctls := [(0, { Ctl.held with st := .running })], stks := [], pods := [], rays := [], arrivals := [], agenda := [],
    free := 0, fresh := 1, iss := .none }

end Sys2Proof.Machine
end

