-- ==== Sys2Proof/Machine/Flags.lean ====
section
/-! DEFINITION. Exact values, rounding and status flags (chapter 10): rationals, the IEEE formats and the narrow formats,
round_to with its flags, and the flag bits of FST. -/
namespace Sys2Proof.Machine

/-! ### Flag bits (Table 10.2) -/

/-- Invalid operation. -/
def fIV : Word := 1
/-- Division by zero. -/
def fDZ : Word := 2
/-- Overflow. -/
def fOF : Word := 4
/-- Underflow. -/
def fUF : Word := 8
/-- Inexact. -/
def fNX : Word := 16
/-- A saturation changed a value. -/
def fSATN : Word := 32

/-- A flag when a condition holds. -/
def flag (c : Bool) (f : Word) : Word := if c then f else 0

/-! ### Exact rationals -/

/-- The exact rational n / d, with d > 0 by construction. -/
structure Q where
  n : Int
  d : Nat
deriving DecidableEq, Repr

/-- m · 2^e. -/
def Q.dy (m e : Int) : Q := if e ≥ 0 then ⟨m * 2 ^ e.toNat, 1⟩ else ⟨m, 2 ^ (-e).toNat⟩
/-- An integer. -/
def Q.ofInt (m : Int) : Q := ⟨m, 1⟩
def Q.add (x y : Q) : Q := if x.d = y.d then ⟨x.n + y.n, x.d⟩ else ⟨x.n * y.d + y.n * x.d, x.d * y.d⟩
def Q.neg (x : Q) : Q := ⟨-x.n, x.d⟩
def Q.sub (x y : Q) : Q := x.add y.neg
def Q.mul (x y : Q) : Q := ⟨x.n * y.n, x.d * y.d⟩
/-- x / y for y ≠ 0; x when y = 0, which no caller uses. -/
def Q.div (x y : Q) : Q :=
  if y.n = 0 then x else if y.n > 0 then ⟨x.n * y.d, x.d * y.n.toNat⟩ else ⟨-(x.n * y.d), x.d * (-y.n).toNat⟩
def Q.lt (x y : Q) : Bool := decide (x.n * y.d < y.n * x.d)
def Q.le (x y : Q) : Bool := decide (x.n * y.d ≤ y.n * x.d)
def Q.eq (x y : Q) : Bool := decide (x.n * y.d = y.n * x.d)
def Q.abs (x : Q) : Q := ⟨x.n.natAbs, x.d⟩
def Q.min (x y : Q) : Q := if x.le y then x else y
def Q.max (x y : Q) : Q := if x.le y then y else x
/-- floor. -/
def Q.floor (x : Q) : Int := x.n / (x.d : Int)
/-- Truncation toward zero. -/
def Q.trunc (x : Q) : Int := x.n.tdiv (x.d : Int)
/-- x · 2^e. -/
def Q.shl (x : Q) (e : Int) : Q := if e ≥ 0 then ⟨x.n * 2 ^ e.toNat, x.d⟩ else ⟨x.n, x.d * 2 ^ (-e).toNat⟩
/-- floor(log2 (n / d)) for n, d > 0. -/
def log2Q (n d : Nat) : Int :=
  let e : Int := (Nat.log2 n : Int) - (Nat.log2 d : Int)
  if e ≥ 0 then (if n ≥ d * 2 ^ e.toNat then e else e - 1)
  else (if n * 2 ^ (-e).toNat ≥ d then e else e - 1)
/-- ceil(log2 (n / d)) for n, d > 0. -/
def clog2Q (n d : Nat) : Int :=
  let e := log2Q n d
  if e ≥ 0 then (if n = d * 2 ^ e.toNat then e else e + 1) else (if n * 2 ^ (-e).toNat = d then e else e + 1)

/-! ### Values of floating formats -/

/-- A decoded floating value: a NaN, signalling or quiet; an infinity; ±m · 2^e, a zero keeping its sign. -/
inductive FV where
  | nan (sig : Bool)
  | inf (neg : Bool)
  | fin (neg : Bool) (m : Nat) (e : Int)
deriving DecidableEq, Repr

def FV.isNan : FV → Bool
  | .nan _ => true
  | _ => false
def FV.isSig : FV → Bool
  | .nan s => s
  | _ => false
def FV.isInf : FV → Bool
  | .inf _ => true
  | _ => false
def FV.isZero : FV → Bool
  | .fin _ 0 _ => true
  | _ => false
def FV.neg : FV → Bool
  | .nan _ => false
  | .inf n => n
  | .fin n _ _ => n
/-- The exact value of a finite one; 0 otherwise. -/
def FV.q : FV → Q
  | .fin neg m e => Q.dy (if neg then -(m : Int) else m) e
  | _ => ⟨0, 1⟩
/-- The value with its sign exchanged. -/
def FV.flip : FV → FV
  | .nan s => .nan s
  | .inf n => .inf (!n)
  | .fin n m e => .fin (!n) m e
/-- An integer as an exact value. -/
def FV.ofInt (x : Int) : FV := .fin (decide (x < 0)) x.natAbs 0

/-- An IEEE-style interchange format (Table 10.1): exponent and fraction bits. -/
structure IFmt where
  eb : Nat
  mb : Nat
deriving DecidableEq, Repr

def f16 : IFmt := ⟨5, 10⟩
def bf16 : IFmt := ⟨8, 7⟩
def f32 : IFmt := ⟨8, 23⟩
def f64 : IFmt := ⟨11, 52⟩
def IFmt.bias (f : IFmt) : Int := 2 ^ (f.eb - 1) - 1
def IFmt.width (f : IFmt) : Nat := 1 + f.eb + f.mb
/-- Exponent of the smallest normal (Table 10.1). -/
def IFmt.emin (f : IFmt) : Int := 1 - f.bias
/-- The default NaN (Table 10.1, R243). -/
def IFmt.dnan (f : IFmt) : Nat := (2 ^ f.eb - 1) * 2 ^ f.mb + 2 ^ (f.mb - 1)
/-- The code of an infinity. -/
def IFmt.infCode (f : IFmt) (neg : Bool) : Nat := (if neg then 2 ^ (f.eb + f.mb) else 0) + (2 ^ f.eb - 1) * 2 ^ f.mb
/-- The code of the largest finite value. -/
def IFmt.maxCode (f : IFmt) (neg : Bool) : Nat := f.infCode neg - 1
/-- The code of a zero. -/
def IFmt.zeroCode (f : IFmt) (neg : Bool) : Nat := if neg then 2 ^ (f.eb + f.mb) else 0
/-- The value of a code (R242). -/
def IFmt.dec (f : IFmt) (c : Nat) : FV :=
  let neg := c / 2 ^ (f.eb + f.mb) % 2 == 1
  let e := c / 2 ^ f.mb % 2 ^ f.eb
  let m := c % 2 ^ f.mb
  if e = 2 ^ f.eb - 1 then
    if m = 0 then .inf neg else .nan (m < 2 ^ (f.mb - 1))
  else if e = 0 then .fin neg m (f.emin - f.mb)
  else .fin neg (m + 2 ^ f.mb) ((e : Int) - f.bias - f.mb)

/-! ### Rounding (R246, R247) -/

/-- Whether the magnitude is moved one step away from zero: rem / den is the fraction f in [0, 1) beyond the truncated
magnitude t, odd says that t's code has its least significant bit 1, u is the 24-bit draw of SR. -/
def roundUp (rm : RM) (neg odd : Bool) (u : Nat) (rem den : Nat) : Bool :=
  match rm with
  | .rne => decide (2 * rem > den) || (decide (2 * rem = den) && odd)
  | .rtz => false
  | .rup => !neg && decide (rem ≠ 0)
  | .rdn => neg && decide (rem ≠ 0)
  | .rna => decide (2 * rem ≥ den)
  | .sr => decide (u < rem * 16777216 / den)

/-- The magnitude n / d > 0 rounded to a multiple of 2^e: (multiple, inexact). The code of multiple t has the parity of
t + par. -/
def roundAtP (par : Int) (rm : RM) (neg : Bool) (u n d : Nat) (e : Int) : Nat × Bool :=
  let num := if e ≥ 0 then n else n * 2 ^ (-e).toNat
  let den := if e ≥ 0 then d * 2 ^ e.toNat else d
  let t := num / den
  let r := num % den
  (if roundUp rm neg (((t : Int) + par) % 2 == 1) u r den then t + 1 else t, decide (r ≠ 0))

/-- roundAtP where a code's parity is that of the multiple: every format with a fraction field, and the integers. -/
def roundAt (rm : RM) (neg : Bool) (u n d : Nat) (e : Int) : Nat × Bool := roundAtP 0 rm neg u n d e

/-- round_to with precision p (bits of the significand) and smallest normal exponent emin, the exponent unbounded above:
(multiple m, unit exponent e, inexact, tiny after rounding). -/
def roundMag (rm : RM) (neg : Bool) (u n d p : Nat) (emin : Int) : Nat × Int × Bool × Bool :=
  let k := log2Q n d
  let e0 := k - ((p : Int) - 1)
  let e := max e0 (emin - ((p : Int) - 1))
  let par (e : Int) : Int := if p = 1 then e - emin else 0
  let (m, ix) := roundAtP (par e) rm neg u n d e
  let (m0, _) := roundAtP (par e0) rm neg u n d e0
  let tiny := decide (k < emin) && !(decide (k = emin - 1) && m0 == 2 ^ p)
  (m, e, ix, tiny)

/-- The code of the magnitude m · 2^e that roundMag gave, e at least the subnormal unit; none beyond the largest finite. -/
def IFmt.pack (f : IFmt) (neg : Bool) (m : Nat) (e : Int) : Option Nat :=
  let sub := f.emin - f.mb
  let s := f.zeroCode neg
  if m < 2 ^ f.mb then some (s + m)
  else
    let (m, e) := if m ≥ 2 ^ (f.mb + 1) then (m / 2, e + 1) else (m, e)
    let be := (e - sub).toNat + 1
    if be ≥ 2 ^ f.eb - 1 then none else some (s + be * 2 ^ f.mb + (m - 2 ^ f.mb))

/-- The overflow result of IEEE 754 under a rounding mode (R243); SR overflows to the infinity it rounded past. -/
def IFmt.over (f : IFmt) (rm : RM) (neg : Bool) : Nat :=
  match rm with
  | .rtz => f.maxCode neg
  | .rup => if neg then f.maxCode neg else f.infCode neg
  | .rdn => if neg then f.infCode neg else f.maxCode neg
  | _ => f.infCode neg

/-- round_to(f, x, rm) with the flags of R243; zneg is the sign of an exact zero, u the draw of SR. -/
def IFmt.round (f : IFmt) (rm : RM) (u : Nat) (zneg : Bool) (x : Q) : Nat × Word :=
  if x.n = 0 then (f.zeroCode zneg, 0)
  else
    let neg := decide (x.n < 0)
    let (m, e, ix, tiny) := roundMag rm neg u x.n.natAbs x.d (f.mb + 1) f.emin
    match f.pack neg m e with
    | some c => (c, flag ix fNX ||| flag (ix && tiny) fUF)
    | none => (f.over rm neg, fOF ||| fNX)

/-- The sign of an exact zero sum (R243): the common sign of terms that are all zero with one sign, else minus under RDN. -/
def zeroSign (rm : RM) (terms : List FV) : Bool :=
  if terms.all (fun t => t.isZero && t.neg) then true
  else if terms.all (fun t => t.isZero && !t.neg) then false
  else rm == .rdn

/-- The generator of R247: one advance, with the 24 bits it gives. -/
def srNext (z : DWord) : DWord × Nat :=
  let z := z ^^^ (z <<< 13)
  let z := z ^^^ (z >>> 7)
  let z := z ^^^ (z <<< 17)
  (z, z.toNat / 2 ^ 40)

/-! ### The arithmetic ops of R355 on values: the result and its flags -/

/-- Whether a product is 0 · inf. -/
def badProd (a b : FV) : Bool := (a.isInf && b.isZero) || (a.isZero && b.isInf)
/-- The infinities among terms. -/
def infTerm (a b : FV) : Option Bool := if (a.isInf || b.isInf) && !badProd a b then some (a.neg != b.neg) else none

/-- c + Σ aᵢ·bᵢ rounded once: the shared form of ADD (with b = 1), MUL, FMA and FDOT2 (R355). The list holds the
products; a plain term is a product with the value 1. -/
def fusedSum (f : IFmt) (rm : RM) (u : Nat) (ts : List (FV × FV)) : Nat × Word :=
  let iv := flag (ts.any (fun t => t.1.isSig || t.2.isSig)) fIV
  if ts.any (fun t => t.1.isNan || t.2.isNan) then (f.dnan, iv)
  else
    let infs := ts.filterMap (fun t => infTerm t.1 t.2)
    if ts.any (fun t => badProd t.1 t.2) || (infs.any id && infs.any (!·)) then (f.dnan, fIV)
    else match infs with
      | s :: _ => (f.infCode s, 0)
      | [] =>
        let x := ts.foldl (fun acc t => acc.add (t.1.q.mul t.2.q)) ⟨0, 1⟩
        let prods := ts.map (fun t => FV.fin (t.1.neg != t.2.neg) (if t.1.isZero || t.2.isZero then 0 else 1) 0)
        f.round rm u (zeroSign rm prods) x

/-- The value 1. -/
def FV.one : FV := .fin false 1 0

/-- a + b (R355). -/
def fAdd (f : IFmt) (rm : RM) (u : Nat) (a b : FV) : Nat × Word := fusedSum f rm u [(a, .one), (b, .one)]
/-- a - b. -/
def fSub (f : IFmt) (rm : RM) (u : Nat) (a b : FV) : Nat × Word := fusedSum f rm u [(a, .one), (b.flip, .one)]
/-- a · b. -/
def fMul (f : IFmt) (rm : RM) (u : Nat) (a b : FV) : Nat × Word := fusedSum f rm u [(a, b)]
/-- a · b + c. -/
def fFma (f : IFmt) (rm : RM) (u : Nat) (a b c : FV) : Nat × Word := fusedSum f rm u [(a, b), (c, .one)]
/-- a · 2^b (R357). -/
def fScale (f : IFmt) (rm : RM) (u : Nat) (a : FV) (b : Int) : Nat × Word :=
  match a with
  | .nan s => (f.dnan, flag s fIV)
  | .inf n => (f.infCode n, 0)
  | .fin n m e =>
    if m = 0 then (f.zeroCode n, 0)
    else
      -- beyond these limits the outcome no longer depends on b: the clamp keeps the numbers small
      let b' := max (-5000) (min 5000 b)
      f.round rm u n (Q.dy (if n then -(m : Int) else m) (e + b'))

/-- Order of two values that are no NaN: a < b (−0 equals +0). -/
def fvLt (a b : FV) : Bool :=
  match a, b with
  | .inf true, .inf true => false
  | .inf true, _ => true
  | _, .inf true => false
  | .inf false, _ => false
  | _, .inf false => true
  | x, y => x.q.lt y.q
/-- Equality of two values that are no NaN. -/
def fvEq (a b : FV) : Bool := !fvLt a b && !fvLt b a

/-- IEEE minimum or maximum of codes (R356): −0 orders below +0; num says that one NaN operand gives way. -/
def fMinMax (f : IFmt) (isMax num : Bool) (a b : Nat) : Nat × Word :=
  let x := f.dec a
  let y := f.dec b
  let iv := flag (x.isSig || y.isSig) fIV
  if x.isNan || y.isNan then
    if num && !x.isNan then (a, iv)
    else if num && !y.isNan then (b, iv)
    else (f.dnan, iv)
  else
    let aLow := fvLt x y || (fvEq x y && x.neg)
    (if aLow != isMax then a else b, iv)

/-- FRND (R357): an integral value of the format, a zero keeping the sign of a. -/
def fRnd (f : IFmt) (rm : RM) (u : Nat) (a : Nat) : Nat × Word :=
  match f.dec a with
  | .nan s => (f.dnan, flag s fIV)
  | .inf _ => (a, 0)
  | .fin n m e =>
    if m = 0 ∨ e ≥ 0 then (a, 0)
    else
      let (t, _) := roundAt rm n u m (2 ^ (-e).toNat) 0
      ((f.round .rtz 0 n (Q.ofInt (if n then -(t : Int) else t))).1, 0)

/-- FGETX (R357). -/
def fGetx (f : IFmt) (a : Nat) : Word × Word :=
  match f.dec a with
  | .nan _ => (0x80000000, fIV)
  | .inf _ => (0x7FFFFFFF, 0)
  | .fin _ m e => if m = 0 then (0x80000000, fDZ) else (BitVec.ofInt 32 ((Nat.log2 m : Int) + e), 0)

/-- FCLASS (R357): the bit that is set. -/
def fClass (f : IFmt) (a : Nat) : Nat :=
  match f.dec a with
  | .nan true => 256
  | .nan false => 512
  | .inf true => 1
  | .inf false => 128
  | .fin n m _ =>
    if m = 0 then (if n then 8 else 16)
    else if a / 2 ^ f.mb % 2 ^ f.eb = 0 then (if n then 4 else 32)
    else (if n then 2 else 64)

/-- A relation of FCMP with its flag (R352). -/
def fRel (r : FRel) (x y : FV) : Bool × Word :=
  let un := x.isNan || y.isNan
  let sg := x.isSig || y.isSig
  let v := match r with
    | .eq => !un && fvEq x y
    | .ne => un || !fvEq x y
    | .lt => !un && fvLt x y
    | .le => !un && !fvLt y x
    | .gt => !un && fvLt y x
    | .ge => !un && !fvLt x y
    | .un => un
    | .ord => !un
  let q := match r with
    | .lt | .le | .gt | .ge => un
    | _ => sg
  (v, flag (q || sg) fIV)

/-! ### Integers from reals -/

/-- x rounded to an integer under a mode (R246): (integer, changed). -/
def roundInt (rm : RM) (u : Nat) (x : Q) : Int × Bool :=
  if x.n = 0 then (0, false)
  else
    let neg := decide (x.n < 0)
    let (t, ix) := roundAt rm neg u x.n.natAbs x.d 0
    (if neg then -(t : Int) else t, ix)

/-- sat(x, lo, hi) (R6). -/
def satI (x lo hi : Int) : Int := if x < lo then lo else if x > hi then hi else x

/-! ### Narrow formats (R248 to R251) -/

/-- A format-table entry: width, exponent and mantissa bits, bias, sign, special mode; e8 marks E8M0. -/
structure NFmt where
  wid : Nat
  eb : Nat
  mb : Nat
  bias : Int
  sgn : Bool
  spm : Nat
  e8 : Bool
deriving DecidableEq, Repr

/-- The fixed entries ft0 to ft7 (Table 10.4). -/
def fixedFmt (k : Nat) : NFmt :=
  match k with
  | 0 => ⟨8, 4, 3, 7, true, 1, false⟩
  | 1 => ⟨8, 5, 2, 15, true, 2, false⟩
  | 2 => ⟨6, 2, 3, 1, true, 0, false⟩
  | 3 => ⟨6, 3, 2, 3, true, 0, false⟩
  | 4 => ⟨4, 2, 1, 1, true, 0, false⟩
  | 5 => ⟨8, 0, 7, 6, true, 0, false⟩
  | 6 => ⟨4, 0, 3, 2, true, 0, false⟩
  | _ => ⟨8, 8, 0, 127, false, 1, true⟩

/-- A programmable entry (Table 10.5). -/
def progFmt (e : DWord) : NFmt :=
  let n := e.toNat
  ⟨n / 2 ^ 28 % 16, n / 2 ^ 24 % 16, n / 2 ^ 20 % 16, (BitVec.ofNat 8 (n / 2 ^ 12)).toInt, n / 2 ^ 11 % 2 == 1,
    n / 2 ^ 9 % 4, false⟩

/-- A valid entry that is not absent (R249). -/
def progOk (e : DWord) : Bool :=
  let n := e.toNat
  let f := progFmt e
  n / 2 ^ 32 == 0 && n % 2 ^ 9 == 0 && decide (2 ≤ f.wid) && decide (f.wid ≤ 8) && decide (f.eb ≤ 7) && decide (f.mb ≤ 7) &&
    f.wid == (if f.sgn then 1 else 0) + f.eb + f.mb && (f.spm != 2 || decide (f.eb ≥ 2)) &&
    ((f.spm != 1 && f.spm != 3) || decide (f.eb ≥ 1))

/-- The exponent and mantissa field width of a float format. -/
def NFmt.body (f : NFmt) : Nat := f.eb + f.mb

/-- The code of NaN: every exponent and mantissa bit set, sign 0 (R251); none where the format has none. -/
def NFmt.nanCode (f : NFmt) : Option Nat :=
  if f.spm = 0 then none else if f.spm = 2 && f.mb = 0 then none else some (2 ^ f.body - 1)

/-- The body (exponent and mantissa fields) of the largest finite value. -/
def NFmt.maxBody (f : NFmt) : Nat :=
  if f.spm = 0 then 2 ^ f.body - 1
  else if f.spm = 2 then (2 ^ f.eb - 1) * 2 ^ f.mb - 1
  else 2 ^ f.body - 2

/-- The sign in place. -/
def NFmt.signed (f : NFmt) (neg : Bool) (body : Nat) : Nat := if neg && f.sgn then 2 ^ f.body + body else body

/-- The value of a body of a float format (R250). -/
def NFmt.bodyVal (f : NFmt) (neg : Bool) (b : Nat) : FV :=
  let e := b / 2 ^ f.mb
  let m := b % 2 ^ f.mb
  if e = 0 then .fin neg m (1 - f.bias - f.mb) else .fin neg (m + 2 ^ f.mb) ((e : Int) - f.bias - f.mb)

/-- The value of a code (R250, R251). -/
def NFmt.dec (f : NFmt) (code : Nat) : FV :=
  let c := code % 2 ^ f.wid
  if f.e8 then (if c = 255 then .nan false else .fin false 1 ((c : Int) - 127))
  else if f.eb = 0 then
    let v : Int := if f.sgn && decide (c ≥ 2 ^ (f.wid - 1)) then (c : Int) - 2 ^ f.wid else c
    .fin (decide (v < 0)) v.natAbs (-f.bias)
  else
    let neg := f.sgn && decide (c ≥ 2 ^ f.body)
    let b := c % 2 ^ f.body
    if f.spm = 2 && b / 2 ^ f.mb = 2 ^ f.eb - 1 then (if b % 2 ^ f.mb = 0 then .inf neg else .nan false)
    else if (f.spm = 1 || f.spm = 3) && b = 2 ^ f.body - 1 then .nan false
    else f.bodyVal neg b

/-- The largest finite value and its exponent emax (Table 10.4). -/
def NFmt.maxVal (f : NFmt) : FV :=
  if f.e8 then .fin false 1 127
  else if f.eb = 0 then .fin false (2 ^ (if f.sgn then f.wid - 1 else f.wid) - 1) (-f.bias)
  else f.bodyVal false f.maxBody
def NFmt.emax (f : NFmt) : Int :=
  match f.maxVal with
  | .fin _ m e => (Nat.log2 m : Int) + e
  | _ => 0
/-- Whether a code is subnormal in its format (R262). -/
def NFmt.isSub (f : NFmt) (code : Nat) : Bool :=
  !f.e8 && f.eb != 0 && (let b := code % 2 ^ f.wid % 2 ^ f.body; b / 2 ^ f.mb == 0 && b % 2 ^ f.mb != 0)

/-- What the conversion of an infinity or an overflow of one sign gives under R251: the code and whether it is a NaN
column of mode 1. -/
def NFmt.limit (f : NFmt) (neg : Bool) : Nat :=
  if f.eb = 0 then
    (if f.sgn then (if neg then 2 ^ (f.wid - 1) else 2 ^ (f.wid - 1) - 1) else (if neg then 0 else 2 ^ f.wid - 1))
  else f.signed neg f.maxBody

/-- Overflow column (R251). A negative overflow of a two's complement format takes the most negative code (log entry 24). -/
def NFmt.over (f : NFmt) (sat neg : Bool) : Nat :=
  if sat then f.limit neg
  else if f.spm = 1 then 2 ^ f.body - 1
  else if f.spm = 2 then f.signed neg ((2 ^ f.eb - 1) * 2 ^ f.mb)
  else f.limit neg

/-- Infinity column (R251). -/
def NFmt.ofInf (f : NFmt) (sat neg : Bool) : Nat :=
  if f.spm = 1 then (if sat then f.limit neg else 2 ^ f.body - 1)
  else if f.spm = 2 then f.signed neg ((2 ^ f.eb - 1) * 2 ^ f.mb)
  else f.limit neg

/-- Conversion into E8M0 (R250). -/
def e8Round (rm : RM) (u : Nat) (sat : Bool) (neg : Bool) (x : Option Q) : Nat × Word :=
  if neg then (255, fIV)
  else match x with
    | none => (if sat then 254 else 255, 0)
    | some x =>
      if x.n ≤ 0 then (255, fIV)
      else
        let k := log2Q x.n.natAbs x.d
        let (m, ix) := roundAtP (k + 126) rm false u x.n.natAbs x.d k
        let k' := if m ≥ 2 then k + 1 else k
        if k < -127 then (0, fUF ||| fNX)
        else if k' > 127 then (if sat then 254 else 255, fOF ||| fSATN ||| fNX)
        else ((k' + 127).toNat, flag ix fNX)

/-- The conversion of a value into a narrow format (R251) with the flags of a vector instruction. -/
def NFmt.conv (f : NFmt) (rm : RM) (u : Nat) (sat : Bool) (v : Sum FV Q) (zneg : Bool) : Nat × Word :=
  let special : FV → Nat × Word := fun v =>
    match v with
    | .nan s => if f.e8 then (255, fIV) else
        match f.nanCode with
        | some c => (c, flag s fIV)
        | none => (0, fIV)
    | .inf n =>
      if f.e8 then (if n then (255, fIV) else e8Round rm u sat false none)
      else if n && !f.sgn then (0, fSATN)
      else (f.ofInf sat n, 0)
    | .fin _ _ _ => (0, 0)
  let finite : Q → Bool → Nat × Word := fun x zn =>
    if f.e8 then e8Round rm u sat (decide (x.n < 0)) (some x)
    else if x.n = 0 then (if f.eb = 0 then 0 else f.signed zn 0, 0)
    else
      let neg := decide (x.n < 0)
      if neg && !f.sgn then (0, fSATN ||| fNX)
      else if f.eb = 0 then
        let (m, ix) := roundAt rm neg u x.n.natAbs x.d (-f.bias)
        let lim := if f.sgn then (if neg then 2 ^ (f.wid - 1) else 2 ^ (f.wid - 1) - 1) else 2 ^ f.wid - 1
        if m > lim then (f.over sat neg, fOF ||| fSATN ||| fNX)
        else ((if neg then (2 ^ f.wid - m) % 2 ^ f.wid else m), flag ix fNX)
      else
        let (m, e, ix, tiny) := roundMag rm neg u x.n.natAbs x.d (f.mb + 1) (1 - f.bias)
        let sub := 1 - f.bias - (f.mb : Int)
        let body := if m < 2 ^ f.mb then m
          else
            let (m, e) := if m ≥ 2 ^ (f.mb + 1) then (m / 2, e + 1) else (m, e)
            ((e - sub).toNat + 1) * 2 ^ f.mb + (m - 2 ^ f.mb)
        if body > f.maxBody then (f.over sat neg, fOF ||| fSATN ||| fNX)
        else (f.signed neg body, flag ix fNX ||| flag (ix && tiny) fUF)
  match v with
  | .inl (.fin n m e) => finite (Q.dy (if n then -(m : Int) else m) e) n
  | .inl w => special w
  | .inr x => finite x zneg

end Sys2Proof.Machine
end

