-- ==== Sys2Proof/Machine/Base.lean ====
section
/-! DEFINITION. Sparse tables, bit fields, unit numbers, byte memories and the state-and-exception monad the meanings are
written in. -/
namespace Sys2Proof.Machine

/-! ### Sparse tables -/

/-- The entry at a key, if listed. -/
def alGet {α : Type} : AL α → Nat → Option α
  | [], _ => none
  | (j, v) :: r, k => if j = k then some v else alGet r k

/-- The entry at a key, or the default. -/
def alGetD {α : Type} (l : AL α) (k : Nat) (d : α) : α := (alGet l k).getD d

/-- Lists an entry, keys ascending. -/
def alSet {α : Type} : AL α → Nat → α → AL α
  | [], k, v => [(k, v)]
  | (j, w) :: r, k, v => if k < j then (k, v) :: (j, w) :: r else if k = j then (k, v) :: r else (j, w) :: alSet r k v

/-- Unlists a key. -/
def alDel {α : Type} : AL α → Nat → AL α
  | [], _ => []
  | (j, w) :: r, k => if k = j then alDel r k else (j, w) :: alDel r k

/-- Changes the entry at a key, which starts from a default. -/
def alMod {α : Type} (l : AL α) (k : Nat) (d : α) (f : α → α) : AL α := alSet l k (f (alGetD l k d))

/-- Changes the entry at a key only where it is listed. -/
def alAdj {α : Type} (l : AL α) (k : Nat) (f : α → α) : AL α := l.map (fun e => if e.1 = k then (e.1, f e.2) else e)

/-! ### Bit fields -/

/-- Bits [hi:lo] of a 64-bit word. -/
def bits (x : DWord) (hi lo : Nat) : Nat := fld x.toNat hi lo
/-- Bit i of a 64-bit word. -/
def tbit (x : DWord) (i : Nat) : Bool := bit x.toNat i
/-- A number of w bits read as two's complement. -/
def sx (w x : Nat) : Int := if x % 2 ^ w ≥ 2 ^ (w - 1) then (x % 2 ^ w : Int) - 2 ^ w else (x % 2 ^ w : Nat)
/-- x mod 2^w. -/
def modW (w : Nat) (x : Int) : Nat := (x % (2 ^ w : Int)).toNat
/-- A 64-bit word of a number. -/
def dw (n : Nat) : DWord := BitVec.ofNat 64 n
/-- A 32-bit word of a number. -/
def w32 (n : Nat) : Word := BitVec.ofNat 32 n
/-- Low 32 bits. -/
def lo32 (x : DWord) : Word := BitVec.ofNat 32 x.toNat
/-- High 32 bits. -/
def hi32 (x : DWord) : Word := BitVec.ofNat 32 (x.toNat / 2 ^ 32)
/-- A 64-bit word of its halves: the even register holds the low one (R4). -/
def pair (lo hi : Word) : DWord := BitVec.ofNat 64 (hi.toNat * 2 ^ 32 + lo.toNat)
/-- a rounded up to a multiple of m. -/
def roundUpTo (a m : Nat) : Nat := (a + m - 1) / m * m
/-- Number of set bits among the low w. -/
def popN : Nat → Nat → Nat
  | 0, _ => 0
  | w + 1, x => x % 2 + popN w (x / 2)
/-- The numbers below n whose bit is set in x. -/
def bitList (n x : Nat) : List Nat := (List.range n).filter (fun i => bit x i)

/-! ### Byte memories: little-endian (R4), an unlisted byte reads 0 -/

/-- One byte. -/
def byteAt (m : AL Byte) (a : Nat) : Byte := alGetD m a 0
/-- Writes one byte; the value an unlisted byte reads as is not listed. -/
def setByte (m : AL Byte) (a : Nat) (b : Byte) : AL Byte := if b = 0 then alDel m a else alSet m a b
/-- The canonical form of a byte memory: addresses strictly rise and no entry equals what an unlisted byte reads as. -/
abbrev canon (m : AL Byte) : Prop := m.Pairwise (fun a b => a.1 < b.1) ∧ ∀ c ∈ m, c.2 ≠ 0
/-- n bytes at a as a number. -/
def rdBytes (m : AL Byte) (a : Nat) : Nat → Nat
  | 0 => 0
  | n + 1 => (byteAt m a).toNat + 256 * rdBytes m (a + 1) n
/-- Writes the low n bytes of v at a. -/
def wrBytes (m : AL Byte) (a : Nat) : Nat → Nat → AL Byte
  | 0, _ => m
  | n + 1, v => wrBytes (setByte m a (BitVec.ofNat 8 v)) (a + 1) n (v / 256)
/-- Writes the bytes of v whose mask bit is set, n of them from a. -/
def wrMasked (m : AL Byte) (a : Nat) : Nat → Nat → Nat → AL Byte
  | 0, _, _ => m
  | n + 1, mask, v =>
    wrMasked (if mask % 2 = 1 then setByte m a (BitVec.ofNat 8 v) else m) (a + 1) n (mask / 2) (v / 256)
/-- The bytes of a number. -/
def bytesOf : Nat → Nat → List Byte
  | 0, _ => []
  | n + 1, v => BitVec.ofNat 8 v :: bytesOf n (v / 256)
/-- The number of a little-endian byte list. -/
def numOf : List Byte → Nat
  | [] => 0
  | b :: r => b.toNat + 256 * numOf r
/-- new's bytes over old's where the mask bit is set, n bytes. -/
def mergeBytes : Nat → Nat → Nat → Nat → Nat
  | 0, _, _, _ => 0
  | n + 1, mask, new, old =>
    (if mask % 2 = 1 then new % 256 else old % 256) + 256 * mergeBytes n (mask / 2) (new / 256) (old / 256)

/-! ### Units and masters (R8, R9) -/

/-- Core of a lane. -/
def laneCore (lane : Nat) : Nat :=
  if lane < 16384 then lane / 32 else if lane < 16416 then 512 + (lane - 16384) else 544 + (lane - 16416)
/-- A Chard core. -/
def isChard (core : Nat) : Bool := decide (core < 512)
/-- A control core. -/
def isCtl (core : Nat) : Bool := decide (512 ≤ core) && decide (core < 544)
/-- A Root engine. -/
def isRoot (core : Nat) : Bool := decide (544 ≤ core)
/-- Lane of a core: lane l of a Chard core, the one lane of the others. -/
def coreLane (core l : Nat) : Nat :=
  if core < 512 then core * 32 + l else if core < 544 then 16384 + (core - 512) else 16416 + (core - 544)
/-- Tile of a Chard core. -/
def coreTile (core : Nat) : Nat := core / 64
/-- Quad of a Chard core, over the package. -/
def coreQuad (core : Nat) : Nat := core / 4
/-- Die of a core (Table 1.1). -/
def coreDie (core : Nat) : Nat := if core < 512 then core / 64 else if core < 544 then 16 else 32 + (core - 544)
/-- Master id of a core (R9). -/
def coreMid (core : Nat) : Nat :=
  if core < 512 then core / 64 * 1024 + core % 64
  else if core < 544 then 16 * 1024 + 256 + (core - 512)
  else (32 + (core - 544)) * 1024 + 512
/-- Core of a master id, where it names one. -/
def midCore (mid : Nat) : Option Nat :=
  let d := mid / 1024
  let i := mid % 1024
  if d < 8 ∧ i < 64 then some (d * 64 + i)
  else if d = 16 ∧ 256 ≤ i ∧ i < 288 then some (512 + (i - 256))
  else if 32 ≤ d ∧ d < 48 ∧ i = 512 then some (544 + (d - 32))
  else none
/-- Master id of a quad's copy engine (R203). -/
def copyMid (quad : Nat) : Nat := quad / 16 * 1024 + 64 + quad % 16
/-- Master id of an array (R9). -/
def arrMid (arr : Nat) : Nat := (8 + arr / 16) * 1024 + 128 + arr % 16
/-- Master id of a quad's traversal unit (R269). -/
def travMid (quad : Nat) : Nat := quad / 16 * 1024 + 192 + 2 * (quad % 16)
/-- Master id of a quad's texture unit (R269). -/
def texMid (quad : Nat) : Nat := quad / 16 * 1024 + 193 + 2 * (quad % 16)
/-- Master id of a pod port (Table 1.2). -/
def podMid (port : Nat) : Nat := 16 * 1024 + 416 + port
/-- Master id of the launch front end (Table 1.2). -/
def feMid : Nat := 16 * 1024 + 448
/-- Masters 256 to 287 of Celeriac: the control cores. -/
def isCtlMid (mid : Nat) : Bool := mid / 1024 == 16 && decide (256 ≤ mid % 1024) && decide (mid % 1024 < 288)

/-! ### Parts of the state -/

namespace State
def coreD (s : State) (c : Nat) : Core := alGetD s.cores c .empty
def laneD (s : State) (l : Nat) : Lane := alGetD s.lanes l .empty
def quadD (s : State) (q : Nat) : Quad := alGetD s.quads q .empty
def arrD (s : State) (a : Nat) : Arr := alGetD s.arrs a .empty
def ctxD (s : State) (c : Nat) : Ctx := alGetD s.ctxs c .empty
def ctlD (s : State) (k : Nat) : Ctl := alGetD s.ctls k .held
def stackD (s : State) (k : Nat) : Stack := alGetD s.stks k .empty
def modCore (s : State) (c : Nat) (f : Core → Core) : State := { s with cores := alMod s.cores c .empty f }
def modLane (s : State) (l : Nat) (f : Lane → Lane) : State := { s with lanes := alMod s.lanes l .empty f }
def modQuad (s : State) (q : Nat) (f : Quad → Quad) : State := { s with quads := alMod s.quads q .empty f }
def modArr (s : State) (a : Nat) (f : Arr → Arr) : State := { s with arrs := alMod s.arrs a .empty f }
def modCtx (s : State) (c : Nat) (f : Ctx → Ctx) : State := { s with ctxs := alMod s.ctxs c .empty f }
def modCtl (s : State) (k : Nat) (f : Ctl → Ctl) : State := { s with ctls := alMod s.ctls k .held f }
def modStack (s : State) (k : Nat) (f : Stack → Stack) : State := { s with stks := alMod s.stks k .empty f }
def modThr (s : State) (t : Nat) (f : Thr → Thr) : State := { s with thrs := alAdj s.thrs t f }
def modGrp (s : State) (g : Nat) (f : Grp → Grp) : State := { s with grps := alAdj s.grps g f }
def modRes (s : State) (r : Nat) (f : Res → Res) : State := { s with ress := alAdj s.ress r f }
def modLaunch (s : State) (l : Nat) (f : Launch → Launch) : State := { s with launches := alAdj s.launches l f }
def modFrame (s : State) (k : Nat) (f : Frame → Frame) : State := { s with frames := alAdj s.frames k f }
def thr? (s : State) (t : Nat) : Option Thr := alGet s.thrs t
def grp? (s : State) (g : Nat) : Option Grp := alGet s.grps g
def launch? (s : State) (l : Nat) : Option Launch := alGet s.launches l
def res? (s : State) (r : Nat) : Option Res := alGet s.ress r
/-- CYC of a die (R11). -/
def cyc (s : State) (die : Nat) : Nat := (alGetD s.pkg.cyc die 0).toNat
/-- QCLK (R12). -/
def qclk (s : State) : Nat := s.pkg.qclk.toNat
/-- Cycles that count for the places of a core's lanes: its die's without the core's service stalls (R96, R305). -/
def ageOf (s : State) (core : Nat) : Nat := s.cyc (coreDie core) - (s.coreD core).stallC
/-- A master is frozen (R43). -/
def isFrozen (s : State) (mid : Nat) : Bool := alGetD s.sys.frozen mid false
/-- A name never used before, for threads, groups, residencies, operations and arrivals. -/
def newId (s : State) : Nat × State := (s.fresh, { s with fresh := s.fresh + 1 })
/-- A free value: nothing constrains it (log entry 4). -/
def newFree (s : State) : DWord × State := (Config.freeWord s.free, { s with free := s.free + 1 })
end State

/-! ### Launch packets and descriptors (Table 3.6, Table 3.3) -/

/-- Word i of a packet or descriptor. -/
def wordAt (p : List DWord) (i : Nat) : DWord := p.getD i 0
/-- Bits [hi:lo] of word i. -/
def pf (p : List DWord) (i hi lo : Nat) : Nat := bits (wordAt p i) hi lo

namespace Launch
def seq (l : Launch) : Nat := pf l.pkt 0 63 40
def typ (l : Launch) : Nat := pf l.pkt 0 39 38
def ncap (l : Launch) : Nat := pf l.pkt 0 37 32
def rgran (l : Launch) : Nat := pf l.pkt 0 31 26
def sgran (l : Launch) : Nat := pf l.pkt 0 25 20
def lgran (l : Launch) : Nat := pf l.pkt 0 19 15
def ord (l : Launch) : Bool := tbit (wordAt l.pkt 0) 14
def spill (l : Launch) : Nat := pf l.pkt 0 13 7
/-- GCAP′ (R60). -/
def gcap (l : Launch) : Nat := if pf l.pkt 0 6 0 = 0 then 128 else pf l.pkt 0 6 0
def entry (l : Launch) : Nat := pf l.pkt 1 54 0
def ucnt (l : Launch) : Nat := pf l.pkt 2 63 57
def ublk (l : Launch) : Nat := pf l.pkt 2 54 6 * 64
def countW (l : Launch) : DWord := wordAt l.pkt 3
/-- ARG k (Table 3.6). -/
def arg (l : Launch) (k : Nat) : Word := w32 (bits (wordAt l.pkt (4 + k / 2)) 63 0 / 2 ^ (32 * (k % 2)))
def deadline (l : Launch) : Nat := (wordAt l.pkt 8).toNat
def compl (l : Launch) : Nat := pf l.pkt 9 54 6 * 64
def ncoal (l : Launch) : Nat := pf l.pkt 12 63 58
def ntimer (l : Launch) : Nat := pf l.pkt 12 57 42
def nrec (l : Launch) : Nat := pf l.pkt 12 41 38
/-- KM1: largest forwarding distance minus one. -/
def km1 (l : Launch) : Nat := pf l.pkt 12 37 35
def fwd (l : Launch) : Nat := pf l.pkt 12 31 0
def stkkb (l : Launch) : Nat := pf l.pkt 13 63 55
def deft (l : Launch) : Nat := pf l.pkt 13 54 6 * 64
def baseidx (l : Launch) : Nat := (wordAt l.pkt 14).toNat
def nrole (l : Launch) : Nat := pf l.pkt 15 63 61
def rtab (l : Launch) : Nat := pf l.pkt 15 54 4 * 16
def nodeId (l : Launch) : Nat := pf l.pkt 3 11 0
/-- The admission key (R72): class, deadline, acceptance. -/
def key (l : Launch) : Nat × Nat × Nat := (if l.deadline = 0 then 1 else 0, l.deadline, l.aseq)
end Launch

/-- Lexicographic order of admission keys (R72). -/
def keyLt (a b : Nat × Nat × Nat) : Bool :=
  decide (a.1 < b.1) || (a.1 == b.1 && (decide (a.2.1 < b.2.1) || (a.2.1 == b.2.1 && decide (a.2.2 < b.2.2))))

namespace Ctx
def mode (c : Ctx) : Nat := pf c.desc 0 63 62
def pod (c : Ctx) : Bool := tbit (wordAt c.desc 0) 61
def ptroot (c : Ctx) : Nat := pf c.desc 0 49 16 * 65536
def keylo (c : Ctx) : Nat := pf c.desc 1 63 53
def keyhi (c : Ctx) : Nat := pf c.desc 1 52 42
def tmask (c : Ctx) : Nat := pf c.desc 1 41 34
def partm (c : Ctx) : Nat := pf c.desc 1 33 29
def pbase (c : Ctx) : Nat := pf c.desc 2 49 0
def psize (c : Ctx) : Nat := pf c.desc 3 49 0
def stka (c : Ctx) : Nat := pf c.desc 4 54 0
def stkn (c : Ctx) : Nat := pf c.desc 5 54 0
def ftab (c : Ctx) : Nat := pf c.desc 6 54 0
def flta (c : Ctx) : Nat := pf c.desc 7 54 0
/-- Widest BAR level (Table 3.4). -/
def maxBar (c : Ctx) : Nat := match c.mode with | 0 => if c.pod then 6 else 5 | 1 => 5 | _ => 4
/-- D of a context as its CREATE fixed it. -/
def dCount (c : Ctx) : Nat := (c.devs.map List.length).foldl (· + ·) 0
/-- Bytes of a context's extent on each stack of a tile (R116). -/
def extBytes (c : Ctx) : Nat := if c.dCount = 0 then 0 else c.psize / (2 * c.dCount)
/-- Device of a queue (Table 3.4). -/
def queueDev (c : Ctx) (j : Nat) : Nat := match c.mode with | 0 => 0 | 1 => j / 32 | _ => j / 8
end Ctx

/-! ### The monad of the meanings -/

/-- Why a meaning stops before its end: a thread fault, a stall of the lane (R166), a filing that finds no bin (R89), a
refusal by an access table (R43: master, target, class, address, WHY, entry). -/
inductive Exc where
  | fault (f : FaultInfo)
  | stall
  | noBin
  | deny (mid tgt : Nat) (cls : ReqClass) (addr why entry : Nat)
deriving DecidableEq, Repr

/-- State and exception, in one flat monad. -/
abbrev X := EStateM Exc State

/-- Raises a fault at the word at hand (Table 12.1). -/
def raise {α : Type} (cls cause : Nat) (addr : Nat := 0) : X α := fun s =>
  .error (.fault ⟨cls, cause, dw addr, s.iss.word, s.iss.instr, false⟩) s
/-- Class codes (Table 12.1). -/
def cILLEGAL : Nat := 1
def cOPERAND : Nat := 2
def cPRIV : Nat := 3
def cALIGN : Nat := 4
def cBOUND : Nat := 5
def cXLATE : Nat := 6
def cSTACK : Nat := 7
def cPOISON : Nat := 8
def cREGUE : Nat := 9
def cMATRIX : Nat := 10
def cTRAP : Nat := 11
def cLAUNCH : Nat := 12
/-- An OPERAND fault at the word at hand. -/
def operand {α : Type} : X α := raise cOPERAND 0
/-- Stalls the lane. -/
def stallX {α : Type} : X α := throw .stall
/-- A condition whose absence raises a fault. -/
def ensure (c : Bool) (cls cause : Nat) (addr : Nat := 0) : X Unit := if c then pure () else raise cls cause addr
/-- A free value (log entry 4). -/
def freeX : X DWord := fun s => .ok (Config.freeWord s.free) { s with free := s.free + 1 }
/-- A name never used before. -/
def freshX : X Nat := fun s => .ok s.fresh { s with fresh := s.fresh + 1 }
/-- Applies an action to each item in turn. -/
def forX {α : Type} (f : α → X Unit) : List α → X Unit
  | [] => pure ()
  | a :: r => do f a; forX f r
/-- Collects an action's results over a list. -/
def mapX {α β : Type} (f : α → X β) : List α → X (List β)
  | [] => pure []
  | a :: r => do
    let b ← f a
    let bs ← mapX f r
    pure (b :: bs)

end Sys2Proof.Machine
end

