-- ==== Sys2Proof/Machine/Errors.lean ====
section
/-! DEFINITION. The links between dies (R16, R18 to R20), the units whose errors firmware counts (R30), the reports of a base die and
what a request to a line of DRAM meets (R27). -/
namespace Sys2Proof.Machine

/-! ### Links (Table 1.4): mesh link k is k (0 to 9), the bridge of tile t 16 + t, Celeriac's link of tile t 24 + t, the Stack
Link of stack s 32 + s -/

/-- A link's number names one. -/
def isLink (k : Nat) : Bool := decide (k < 10) || (decide (16 ≤ k) && decide (k < 48))
/-- Modules of a link. -/
def linkFull (k : Nat) : Nat := if k < 16 then 16 else if k < 24 then 24 else if k < 32 then 4 else 12
/-- Least live modules. -/
def linkMin (k : Nat) : Nat := if k < 16 then 8 else if k < 24 then 16 else if k < 32 then 1 else 8
/-- Live modules. -/
def linkLive (p : Pkg) (k : Nat) : Nat := linkFull k - (alGetD p.modules k []).length
/-- A link carries messages. -/
def linkUp (p : Pkg) (k : Nat) : Bool := !p.fenced.contains k && decide (linkLive p k ≥ linkMin k) && (k ≥ 10 || p.hv.mlive.getLsbD k)
/-- The mesh link between two tiles (R19). -/
def meshLink (a b : Nat) : Option Nat :=
  let lo := min a b
  let hi := max a b
  if hi = lo + 1 ∧ lo / 4 = hi / 4 then some (3 * (lo / 4) + lo % 4)
  else if hi = lo + 4 then some (6 + lo)
  else none
/-- The tiles a link belongs to. -/
def linkTiles (k : Nat) : List Nat :=
  if k < 10 then (List.range 8).filter (fun t => (List.range 8).any (fun u => meshLink t u == some k))
  else if k < 32 then [k % 8] else [(k - 32) / 2]

/-! ### Counted errors (R30, Table 1.10) -/

/-- A unit's key in the counts. -/
def unitKey : HwUnit → Nat
  | .core t c => t * 64 + c
  | .slice t k => 4096 + t * 32 + k
  | .array t a => 8192 + t * 16 + a
  | .stack k => 12288 + k
  | .linkModule l m => 16384 + 64 * l + m
/-- The unit names one. -/
def unitOk : HwUnit → Bool
  | .core t c => decide (t < 8) && decide (c < 64)
  | .slice t k => decide (t < 8) && decide (k < 32)
  | .array t a => decide (t < 8) && decide (a < 16)
  | .stack k => decide (k < 16)
  | .linkModule l m => isLink l && decide (m < linkFull l)
/-- Threshold and window in nanoseconds. -/
def unitLimit : HwUnit → Nat × Nat
  | .core _ _ => (32, 86400000000000)
  | .slice _ _ => (64, 86400000000000)
  | .array _ _ => (64, 86400000000000)
  | .stack _ => (4096, 86400000000000)
  | .linkModule _ _ => (10000, 3600000000000)
/-- Tiles that hold a unit. -/
def unitTiles : HwUnit → List Nat
  | .core t _ | .slice t _ | .array t _ => [t]
  | .stack k => [k / 2]
  | .linkModule l _ => linkTiles l
/-- Firmware marks a unit pending. -/
def State.markPending (s : State) (u : HwUnit) : State :=
  if s.pkg.pending.contains u then s
  else
    let bits8 := (unitTiles u).foldl (fun b t => b ||| BitVec.ofNat 8 (2 ^ t)) s.pkg.hv.pend
    { s with pkg := { s.pkg with pending := s.pkg.pending ++ [u], hv := { s.pkg.hv with pend := bits8 } } }
/-- An event of a unit's kind is counted over its window. -/
def State.countErr (s : State) (u : HwUnit) : State :=
  let (limit, window) := unitLimit u
  let ts := (alGetD s.pkg.errs (unitKey u) [] ++ [s.qclk]).filter (fun t => decide (t + window > s.qclk))
  let s := { s with pkg := { s.pkg with errs := alSet s.pkg.errs (unitKey u) ts } }
  if ts.length ≥ limit then s.markPending u else s
/-! ### Reports and errors of the DRAM (R27) -/

/-- An error report of a base die (Table 1.11): kind, tag, master, address, symbol. -/
def State.errReport (s : State) (stk kind tag mid addr sym : Nat) : State :=
  let r : BitVec 128 := BitVec.ofNat 128 (kind * 2 ^ 122 + tag * 2 ^ 112 + mid * 2 ^ 96 + addr * 2 ^ 60 + sym * 2 ^ 52)
  s.modStack stk (fun k => { k with errs := k.errs ++ [r] })

/-- A request of a master to a line of DRAM (R27): an error that can be corrected is, is reported and counted; one that cannot
poisons the line; a poisoned line is reported again. A line whose poison lies in L2 alone is not read from DRAM (R122). -/
def State.meetLine (s : State) (mid tag la : Nat) : State :=
  let stk := la / 2 ^ 36 % 16
  let report (s : State) (kind sym : Nat) : State := s.errReport stk kind tag mid (la % 2 ^ 36) (sym % 256)
  let clear (s : State) : State := { s with mem := { s.mem with flaws := alDel s.mem.flaws la } }
  match alGet s.mem.flaws la with
  | some (.corrected sym) => ((report (clear s) 1 sym)).countErr (.stack stk)
  | some (.uncorrectable sym) =>
    let s := clear s
    report { s with mem := { s.mem with poison := if s.mem.poison.contains la then s.mem.poison else s.mem.poison ++ [la] } } 2 sym
  | _ => if s.mem.poison.contains la && !s.mem.l2p.contains la then report s 2 0xFF else s

/-! ### Messages across failed links (R18) -/

/-- The links that a message between a die and a stack crosses. -/
def linksTo (p : Pkg) (die stk : Nat) : List Nat :=
  let t := stk / 2
  let mesh (a : Nat) : List Nat := let r := alGetD p.routes (a * 8 + t) []
    (r.zip (r.drop 1)).filterMap (fun h => meshLink h.1 h.2)
  if die < 8 then mesh die ++ [32 + stk]
  else if die < 16 then (16 + (die - 8)) :: mesh (die - 8) ++ [32 + stk]
  else if die = 16 then [24 + t, 32 + stk]
  else []
/-- A fenced link keeps a die from a stack: no message crosses it. -/
def fencedOff (p : Pkg) (die stk : Nat) : Bool := !p.fenced.isEmpty && (linksTo p die stk).any (fun k => p.fenced.contains k)

end Sys2Proof.Machine
end

