-- ==== Sys2Proof/Machine/Xts.lean ====
section
/-! DEFINITION. AES-256-XTS over one 64-byte line (R120, R409), as the standards the rule names define it (FIPS 197, IEEE 1619;
PRESUMED, log entry 89). Bytes are numbers; byte k of a block is bits [8k+7:8k]. -/
namespace Sys2Proof.Machine

/-! ### AES-256 -/

/-- The substitution of every byte, byte b at bits [8b+7:8b]. -/
def aesSub : Nat :=
    0x16bb54b00f2d99416842e6bf0d89a18cdf2855cee9871e9b948ed9691198f8e19e1dc186b95735610ef6034866b53e708a8bbd4b1f74dde8c6b4a61c2e2578ba * 2 ^ 1536 +
    0x08ae7a65eaf4566ca94ed58d6d37c8e779e4959162acd3c25c2406490a3a32e0db0b5ede14b8ee4688902a22dc4f816073195d643d7ea7c41744975fec130ccd * 2 ^ 1024 +
    0xd2f3ff1021dab6bcf5389d928f40a351a89f3c507f02f94585334d43fbaaefd0cf584c4a39becb6a5bb1fc20ed00d153842fe329b3d63b52a05a6e1b1a2c8309 * 2 ^ 512 +
    0x75b227ebe28012079a059618c323c7041531d871f1e5a534ccf73f362693fdb7c072a49cafa2d4adf04759fa7dc982ca76abd7fe2b670130c56f6bf27b777c63
/-- The inverse substitution. -/
def aesInvSub : Nat :=
    0x7d0c2155631469e126d677ba7e042b17619953833cbbebc8b0f52aae4d3be0a0ef9cc9939f7ae52d0d4ab519a97f51605fec8027591012b131c7078833a8dd1f * 2 ^ 1536 +
    0xf45acd78fec0db9a2079d2c64b3e56fc1bbe18aa0e62b76f89c5291d711af1476edf751ce837f9e28535ade72274ac9673e6b4f0cecff297eadc674f4111913a * 2 ^ 1024 +
    0x6b8a130103bdafc1020f3fca8f1e2cd00645b3b80558e4f70ad3bc8c00abd890849d8da75746155edab9edfd5048706c92b6655dcc5ca4d41698688664f6f872 * 2 ^ 512 +
    0x25d18b6d49a25b76b224d92866a12e084ec3fa420b954cee3d23c2a632947b54cbe9dec444438e3487ff2f9b8239e37cfbd7f3819ea340bf38a53630d56a0952
/-- A byte through a substitution. -/
def aesByte (table b : Nat) : Nat := table / 2 ^ (8 * b) % 256
/-- The 16 bytes of a block. -/
def blockBytes (x : Nat) : List Nat := (List.range 16).map (fun i => x / 256 ^ i % 256)
/-- The block of its bytes. -/
def bytesBlock (l : List Nat) : Nat := l.foldr (fun b r => b % 256 + 256 * r) 0
/-- Doubling in AES's field. -/
def xtime (b : Nat) : Nat := if b ≥ 128 then (2 * b) % 256 ^^^ 0x1B else 2 * b
/-- The product of a byte with a small number in AES's field. -/
def aesMul (k b : Nat) : Nat :=
  let b2 := xtime b
  let b4 := xtime b2
  let b8 := xtime b4
  (if k.testBit 0 then b else 0) ^^^ (if k.testBit 1 then b2 else 0) ^^^ (if k.testBit 2 then b4 else 0) ^^^
    (if k.testBit 3 then b8 else 0)
/-- Every column times the circulant matrix of a row. -/
def aesMix (row : List Nat) (l : List Nat) : List Nat :=
  (List.range 16).map (fun i =>
    (List.range 4).foldl (fun x k => x ^^^ aesMul (row.getD ((k + 4 - i % 4) % 4) 0) (l.getD (i / 4 * 4 + k) 0)) 0)
/-- Row r turns by r columns, forward or back. -/
def aesShift (inv : Bool) (l : List Nat) : List Nat :=
  (List.range 16).map (fun i => l.getD (((if inv then i / 4 + 4 - i % 4 else i / 4 + i % 4) % 4) * 4 + i % 4) 0)
/-- Bytes combined with a round key. -/
def aesAdd (k l : List Nat) : List Nat := List.zipWith (· ^^^ ·) l k
/-- The words of the key schedule, newest first: n more after those given. -/
def aesWords : Nat → Nat → Nat → List (List Nat) → List (List Nat)
  | 0, _, _, ws => ws
  | n + 1, i, rcon, ws =>
    let last := ws.headD []
    let sub (w : List Nat) : List Nat := w.map (aesByte aesSub)
    let t := if i % 8 = 0 then (match sub (last.drop 1 ++ last.take 1) with
        | b :: r => (b ^^^ rcon) :: r
        | [] => [])
      else if i % 8 = 4 then sub last else last
    aesWords n (i + 1) (if i % 8 = 0 then xtime rcon else rcon) (List.zipWith (· ^^^ ·) (ws.getD 7 []) t :: ws)
/-- The 15 round keys of a 256-bit key. -/
def aesKeys (key : Nat) : List (List Nat) :=
  let w0 := (List.range 8).map (fun i => (List.range 4).map (fun j => key / 256 ^ (4 * i + j) % 256))
  let ws := (aesWords 52 8 1 w0.reverse).reverse
  (List.range 15).map (fun r => ((ws.drop (4 * r)).take 4).flatten)
/-- A block encrypted under the round keys. -/
def aesEnc (ks : List (List Nat)) (x : Nat) : Nat :=
  let s := aesAdd (ks.headD []) (blockBytes x)
  let s := ((ks.drop 1).take 13).foldl (fun s k =>
    aesAdd k (aesMix [2, 3, 1, 1] (aesShift false (s.map (aesByte aesSub))))) s
  bytesBlock (aesAdd (ks.getD 14 []) (aesShift false (s.map (aesByte aesSub))))
/-- A block decrypted. -/
def aesDec (ks : List (List Nat)) (x : Nat) : Nat :=
  let s := (aesShift true (aesAdd (ks.getD 14 []) (blockBytes x))).map (aesByte aesInvSub)
  let s := ((ks.drop 1).take 13).reverse.foldl (fun s k =>
    (aesShift true (aesMix [14, 11, 13, 9] (aesAdd k s))).map (aesByte aesInvSub)) s
  bytesBlock (aesAdd (ks.headD []) s)

/-! ### XTS over the four blocks of a line -/

/-- The tweak of the next block. -/
def xtsNext (t : Nat) : Nat := 2 * t % 2 ^ 128 ^^^ (if t ≥ 2 ^ 127 then 0x87 else 0)
/-- n blocks of a line from a tweak on, under a block function. -/
def xtsBlocks (f : Nat → Nat) : Nat → Nat → Nat → Nat
  | 0, _, _ => 0
  | n + 1, t, x => (f (x % 2 ^ 128 ^^^ t) ^^^ t) + 2 ^ 128 * xtsBlocks f n (xtsNext t) (x / 2 ^ 128)
/-- A line encrypted or decrypted: bits [255:0] of the pair are the data key, bits [511:256] the tweak key. -/
def xtsLine (dec : Bool) (pair : BitVec 512) (tweak line : Nat) : Nat :=
  let ks := aesKeys (pair.toNat % 2 ^ 256)
  xtsBlocks (if dec then aesDec ks else aesEnc ks) 4 (aesEnc (aesKeys (pair.toNat / 2 ^ 256)) (tweak % 2 ^ 44)) line
/-- The bytes a line shows when it was stored under one key pair and is read under another: the stored ciphertext decrypted
under the other (R121). -/
def xtsView (stored asked : Option (BitVec 512)) (tweak plain : Nat) : Nat :=
  let c := match stored with | none => plain | some k => xtsLine false k tweak plain
  match asked with | none => c | some k => xtsLine true k tweak c

end Sys2Proof.Machine
end

