-- ==== Sys2Proof/Machine/Mem.lean ====
section
/-! DEFINITION. Memory: physical addresses and placement (R115, R116), encryption (R120, R121), access tables and
refusals (R42 to R44), page walks (R117 to R119), the L1 and write-combining buffer of each core (R105) and the home. -/
namespace Sys2Proof.Machine

/-! ### Physical addresses (R115, R116) -/

/-- The stack of a direct-window address. -/
def paStack (pa : Nat) : Nat := pa / 2 ^ 36 % 16
/-- The stack-local address. -/
def paLocal (pa : Nat) : Nat := pa % 2 ^ 36
/-- The direct-window address of a stack-local address. -/
def directPa (stk addr : Nat) : Nat := 2 ^ 49 + stk * 2 ^ 36 + addr
/-- The 64-byte line of an address. -/
def lineOf (pa : Nat) : Nat := pa / 64 * 64
/-- Capacity of a stack in bytes (Table 1.9, R115). -/
def stackCap (m : Memory) (stk : Nat) : Nat := 2 ^ 30 * alGetD m.caps stk Config.stackGiB
/-- Within a stack's capacity (R115). The manual does not say what comes of a direct-window address whose bits [48:40] are not zero:
it is taken as beyond every stack (log entry 90), as is a Root engine's address beyond 36 bits. -/
def inCapacity (m : Memory) (pa : Nat) : Bool :=
  pa / 2 ^ 40 == 512 && decide (paLocal pa < stackCap m (paStack pa))

/-- The shares of a context's region, device by device: base, size, tiles (Table 3.4). -/
def sharesFrom (unit base : Nat) : List (List Nat) → List (Nat × Nat × List Nat)
  | [] => []
  | ts :: r => (base, unit * ts.length, ts) :: sharesFrom unit (base + unit * ts.length) r

/-- The shares of the placement region: every mode gives device k the part PSIZE·Dk/D, in device order. -/
def Ctx.shares (c : Ctx) : List (Nat × Nat × List Nat) :=
  let d := (c.devs.map List.length).foldl (· + ·) 0
  if d = 0 then [] else sharesFrom (c.psize / d) c.pbase c.devs

/-- R116: the direct-window address of offset o in the share of the tiles ts. -/
def placeAt (ext : AL Nat) (ts : List Nat) (o : Nat) : Nat :=
  let dk := ts.length
  let g := o / 4096
  let b := o % 4096
  let q := g / dk
  let h := (q ^^^ (q / 2 ^ 7) ^^^ (q / 2 ^ 17)) % dk
  let tile := ts.getD ((g % dk + h) % dk) 0
  let stk := 2 * tile + ((q ^^^ (q / 32)) % 2)
  directPa stk (alGetD ext tile 0 + q / 2 * 4096 + b)

/-- A physical address of a context as a direct-window address; none for a placed address outside its region. -/
def Ctx.resolve (c : Ctx) (pa : Nat) : Option Nat :=
  if pa / 2 ^ 49 % 2 = 1 then some pa
  else match c.shares.find? (fun sh => decide (sh.1 ≤ pa) && decide (pa < sh.1 + sh.2.1)) with
    | some (b, _, ts) => some (placeAt c.ext ts (pa - b))
    | none => none

/-! ### Memory's form (log entry 14) -/

/-- The memory is in its one canonical form. -/
abbrev Memory.wf (m : Memory) : Prop := canon m.cells

/-! ### Encrypted lines (R120, R121) -/

/-- The key pair of a key id: none for id 0. -/
def keyMat (m : Memory) (id : Nat) : Option (BitVec 512) :=
  if id = 0 then none else some ((alGet m.keys id).getD (Config.unsetKey id))

/-- The 64 bytes a line shows under a key. -/
def viewLine (m : Memory) (key : Option (BitVec 512)) (la : Nat) : Nat :=
  let plain := rdBytes m.cells la 64
  let tag := alGet m.tags la
  if tag = key then plain else xtsView tag key (la / 64) plain % 2 ^ 512

/-- n bytes at pa, within one line. -/
def memRead (m : Memory) (key : Option (BitVec 512)) (pa n : Nat) : Nat :=
  if alGet m.tags (lineOf pa) = key then rdBytes m.cells pa n
  else viewLine m key (lineOf pa) / 256 ^ (pa % 64) % 256 ^ n

/-- A line's tag set to a key. -/
def setTag (m : Memory) (key : Option (BitVec 512)) (la : Nat) : Memory :=
  match key with
  | none => { m with tags := alDel m.tags la }
  | some k => { m with tags := alSet m.tags la k }

/-- Writes the bytes of d that the mask names into the line at la; a full line clears its poison (R27). -/
def memWriteMasked (m : Memory) (key : Option (BitVec 512)) (la mask d : Nat) : Memory :=
  let m := if mask = 2 ^ 64 - 1 then 
      { m with poison := m.poison.filter (· != la), l2p := m.l2p.filter (· != la), flaws := alDel m.flaws la } else m
  if alGet m.tags la = key then { m with cells := wrMasked m.cells la 64 mask d }
  else
    let whole := mergeBytes 64 mask d (viewLine m key la)
    setTag { m with cells := wrBytes m.cells la 64 whole } key la

/-- Writes n bytes at pa, within one line. -/
def memWrite (m : Memory) (key : Option (BitVec 512)) (pa n v : Nat) : Memory :=
  memWriteMasked m key (lineOf pa) ((2 ^ n - 1) * 2 ^ (pa % 64)) (v % 256 ^ n * 256 ^ (pa % 64))

/-! ### Access tables and refusals (R42 to R44) -/

/-- The bit of an entry that grants a class (Table 2.2). -/
def reqGrant : ReqClass → Nat
  | .read => 0
  | .write => 1
  | .fetch => 2
  | .atomic => 3
  | .command => 4
  | .tableWrite => 5
/-- The class code of a violation record (Table 2.3). -/
def reqCode : ReqClass → Nat
  | .read => 0
  | .write => 1
  | .atomic => 2
  | .fetch => 3
  | .command => 4
  | .tableWrite => 5

/-- Whether an entry matches a request (R42). -/
def accMatch (e : BitVec 128) (mid addr : Nat) : Bool :=
  let n := e.toNat
  bit n 7 && (mid ^^^ fld n 127 112) &&& fld n 111 96 == 0 && decide (fld n 95 62 ≤ addr / 65536) &&
    decide (addr / 65536 ≤ fld n 61 28)

/-- The decision of a table: none for an allowed request, else WHY and the deciding entry (Table 2.3). -/
def accCheck (tbl : AL (BitVec 128)) (mid : Nat) (cls : ReqClass) (addr : Nat) : Option (Nat × Nat) :=
  match tbl.find? (fun e => accMatch e.2 mid addr) with
  | none => some (1, 255)
  | some (i, e) => if bit e.toNat (reqGrant cls) then none else some (2, i)

/-- The table of a target (R42): by die, Chard endpoints, Marrow, Celeriac control space, base dies. -/
def State.table (s : State) (tgt : Nat) : AL (BitVec 128) := alGetD s.mem.acc (tgt / 1024) []

/-- The endpoint id a direct-window address stands at (Table 1.2). -/
def endpointOf (pa : Nat) : Nat := paStack pa / 2 * 1024 + 96 + paStack pa % 2

/-- Appends a record to a queue of n entries; a full queue drops it (log entry 18). -/
def RecQ.push (q : RecQ) (n : Nat) (r : BitVec 128) : RecQ :=
  if q.full then { q with drop := q.drop + 1 }
  else
    let t := (q.tail + 1) % n
    { q with recs := alSet q.recs q.tail r, tail := t, full := t == q.head % n }

/-- A machine-check record (Table 12.5). -/
def State.machineCheck (s : State) (kind mid ctx info : Nat) : State :=
  let r : BitVec 128 := BitVec.ofNat 128 (kind * 2 ^ 120 + mid * 2 ^ 104 + ctx * 2 ^ 98 + info)
  { s with sys := { s.sys with mcheck := s.sys.mcheck.push 16 r } }

/-- A package reset: the machine of State.reset, with the NOR store and the stacks kept (R26, R36, R43). -/
def State.packageReset (s : State) : State :=
  { State.reset with
    pkg := { Pkg.reset with nor := s.pkg.nor }, mem := { Memory.reset with caps := s.mem.caps }, agenda := s.agenda, free := s.free }

/-- A copy engine that freezes releases every line that its operations own (R140). -/
def State.freezeLines (s : State) (mid : Nat) : State :=
  if mid < 8192 ∧ 64 ≤ mid % 1024 ∧ mid % 1024 < 80 then
    let ids := (s.quadD (mid / 1024 * 16 + (mid % 1024 - 64))).copyq.map (·.id)
    { s with mem := { s.mem with owned := s.mem.owned.filter (fun o => !ids.contains o.2) } }
  else s
/-- A master freezes (R43, R309): a copy engine releases its lines; with all 32 control cores frozen a machine check is recorded, which
outlives the package reset that follows (log entry 105). -/
def State.freezeMaster (s : State) (mid : Nat) : State :=
  let s := ({ s with sys := { s.sys with frozen := alSet s.sys.frozen mid true } } : State).freezeLines mid
  if isCtlMid mid && (List.range 32).all (fun k => s.isFrozen (16640 + k)) then
    let r := (s.machineCheck 6 mid 0 0).packageReset
    { r with sys := { r.sys with mcheck := (s.machineCheck 6 mid 0 0).sys.mcheck } }
  else s
/-- R43: a refusal's violation record, SEQ and freeze. The front end (master 448) is not frozen (R58). -/
def State.refuse (s : State) (mid tgt : Nat) (cls : ReqClass) (addr why entry : Nat) : State :=
  let seq := s.sys.vseq
  let r : BitVec 128 := BitVec.ofNat 128
    (mid * 2 ^ 112 + tgt * 2 ^ 96 + seq.toNat * 2 ^ 80 + reqCode cls * 2 ^ 76 + why * 2 ^ 72 + entry * 2 ^ 64 +
      addr % 2 ^ 50 * 2 ^ 14)
  let sys := { s.sys with viol := s.sys.viol.push 256 r, vseq := seq + 1 }
  let s := { s with sys := sys }
  if mid = feMid then s
  else
    let s := if mid % 1024 = 512 ∧ mid ≥ 32768 then
        s.modStack (mid / 1024 - 32) (fun k => { k with root := .fault }) else s
    ({ s with sys := { s.sys with heldSeq := alSet s.sys.heldSeq mid seq } } : State).freezeMaster mid

/-! ### Requesters -/

/-- Who makes an access: master, die, context, the core whose L1 and buffer it passes, whether it is a control core,
and for an untranslated requester the base its addresses count from. -/
structure Who where
  mid : Nat
  die : Nat
  ctx : Nat
  core : Option Nat
  sup : Bool
  raw : Option Nat
deriving DecidableEq, Repr

/-- The access table allows the request, or it is refused. -/
def allow (who : Who) (tgt : Nat) (cls : ReqClass) (addr : Nat) : X Unit := fun s =>
  match accCheck (s.table tgt) who.mid cls addr with
  | none => .ok () s
  | some (why, e) => .error (.deny who.mid tgt cls addr why e) s

/-- A master's request beyond a stack's capacity completes with STATUS ADDR and is reported (R27, R115); its tag is the endpoint's, a free
value. -/
def State.beyondAt (s : State) (mid pa : Nat) : State :=
  let (t, s) := s.newFree
  s.errReport (paStack pa) 3 (t.toNat % 1024) mid (paLocal pa) 0xFF

/-! ### Translation (R117 to R119) -/

/-- Reserved fields of an entry, and a leaf's own rules (Table 5.3, cause 3 of Table 5.4). -/
def pteMalformed (e : DWord) (shift : Nat) : Bool :=
  let resv := bits e 52 50 != 0 || bits e 15 10 != 0 || tbit e 7
  if tbit e 1 then resv || bits e 49 16 * 65536 % 2 ^ shift != 0 || bits e 9 8 == 3
  else resv || shift == 16 || bits e 63 53 != 0 || bits e 9 8 != 0 || bits e 6 2 != 0

/-- A leaf granted to an access (causes 4 to 6): 0 when it is. -/
def leafCause (c : Ctx) (sup : Bool) (cls : ReqClass) (e : DWord) (shift : Nat) : Nat :=
  let pa := bits e 49 16 * 65536
  let key := bits e 63 53
  let isSup := tbit e 6
  if key < c.keylo ∨ key > c.keyhi then 4
  else if (if tbit e 49 then !isSup else !(decide (c.pbase ≤ pa) && decide (pa + 2 ^ shift ≤ c.pbase + c.psize))) then 5
  else
    let ok := match cls with
      | .read => tbit e 2
      | .write => tbit e 3
      | .fetch => tbit e 4
      | .atomic => tbit e 5
      | .command | .tableWrite => true
    if ok && (!isSup || sup) then 0 else 6

/-- A walk over the levels left: the leaf with its page shift, or a cause and, for a refused entry read, the refusal. A table in the
placed window is refused at the requester's die (R115); one beyond a stack's capacity is reported and gives no entry (R27; log entry 90);
one behind a fenced link never answers (R18). -/
def walk (who : Who) (va : Nat) : Nat → List Nat → State → State × Except (Nat × Option Exc) (DWord × Nat)
  | _, [], s => (s, .error (3, none))
  | tbl, sh :: rest, s =>
    let pa := tbl + va / 2 ^ sh % 8192 * 8
    if pa / 2 ^ 49 % 2 = 0 then (s, .error (7, some (.deny who.mid (who.die * 1024) .read pa 1 255)))
    else
      let tgt := endpointOf pa
      match accCheck (s.table tgt) who.mid .read pa with
      | some (why, e) => (s, .error (7, some (.deny who.mid tgt .read pa why e)))
      | none =>
        if fencedOff s.pkg who.die (paStack pa) then (s, .error (7, some .stall))
        else if !inCapacity s.mem pa then (s.beyondAt who.mid pa, .error (7, none))
        else
          let s := s.meetLine who.mid 0 (lineOf pa)
          if s.mem.poison.contains (lineOf pa) then (s, .error (7, none))
          else
            let e := dw (memRead s.mem none pa 8)
            if !tbit e 0 then (s, .error (2, none))
            else if pteMalformed e sh then (s, .error (3, none))
            else if tbit e 1 then (s, .ok (e, sh))
            else walk who va (bits e 49 16 * 65536) rest s

/-- A cached translation of the die (R119). -/
def tlbHit (m : Memory) (die ctx va : Nat) : Option TlbEnt :=
  m.tlb.find? (fun t => t.die == die && t.ctx == ctx && decide (t.va ≤ va) && decide (va < t.va + 2 ^ t.size))

/-- A VA in a remote window of the context (R149). -/
def inWindow (c : Ctx) (va : Nat) : Bool := c.windows.any (fun w => decide (w.va ≤ va) && decide (va < w.va + w.len))

/-- Applies a refusal's effects where the access itself takes another fault. -/
def applyDeny (s : State) : Exc → State
  | .deny mid tgt cls addr why e => s.refuse mid tgt cls addr why e
  | _ => s

/-- Translation of an address: direct-window address, key id, caching policy and the address that an access table compares (R42):
the physical address as the requester names it, for a Root engine the stack-local one. Raises XLATE with the cause of Table 5.4. -/
def translate (who : Who) (cls : ReqClass) (va : Nat) : X (Nat × Nat × Nat × Nat) := fun s =>
  let bad (cause : Nat) (s : State) : EStateM.Result Exc State (Nat × Nat × Nat × Nat) :=
    .error (.fault ⟨cXLATE, cause, dw va, s.iss.word, s.iss.instr, false⟩) s
  let refused (pa : Nat) (s : State) : EStateM.Result Exc State (Nat × Nat × Nat × Nat) :=
    .error (.deny who.mid (who.die * 1024) cls pa 1 255) s
  match who.raw with
  | some base =>
    if base ≠ 0 then .ok (base + va % 2 ^ 36 + (if va < 2 ^ 36 then 0 else 2 ^ 50), 0, 0, va) s
    else if va ≥ 2 ^ 50 then bad 1 s
    else if va / 2 ^ 49 = 0 then refused va s
    else .ok (va, 0, 0, va) s
  | none =>
    if va ≥ 2 ^ 55 then bad 1 s
    else
      let c := s.ctxD who.ctx
      if inWindow c va then bad 5 s
      else
        let fin (e : DWord) (sh : Nat) (s : State) : EStateM.Result Exc State (Nat × Nat × Nat × Nat) :=
          match leafCause c who.sup cls e sh with
          | 0 =>
            let ca := bits e 49 16 * 65536 + va % 2 ^ sh
            match c.resolve ca with
            | some pa => .ok (pa, bits e 63 53, bits e 9 8, ca) s
            | none => refused ca s
          | k => bad k s
        match tlbHit s.mem who.die who.ctx va with
        | some t => fin t.leaf t.size s
        | none =>
          match walk who va c.ptroot [42, 29, 16] s with
          | (s, .error (_, some .stall)) => .error .stall s
          | (s, .error (cause, d)) => bad cause (match d with | some e => applyDeny s e | none => s)
          | (s, .ok (e, sh)) =>
            let t : TlbEnt := ⟨who.die, who.ctx, va / 2 ^ sh * 2 ^ sh, sh, e⟩
            fin e sh { s with mem := { s.mem with tlb := t :: s.mem.tlb } }

/-! ### Home accesses -/

/-- n bytes nothing constrains (log entry 4). -/
def freeBytes : Nat → X Nat
  | 0 => pure 0
  | k + 1 => do
    let a ← freeX
    let r ← freeBytes k
    pure (a.toNat + 2 ^ 64 * r)

/-- The table that decides a request to a home (R42): the Chard endpoint's, for a Root engine its base die's. -/
def homeTable (who : Who) (pa : Nat) : Nat :=
  match who.raw with
  | some base => if base ≠ 0 then who.die * 1024 else endpointOf pa
  | none => endpointOf pa
/-- A request reaches a home (R18, R42): its table allows it, and no fenced link lies between, else it waits for good. -/
def reach (who : Who) (cls : ReqClass) (pa ca : Nat) : X Unit := do
  allow who (homeTable who pa) cls ca
  let s ← get
  if fencedOff s.pkg who.die (paStack pa) then stallX else pure ()
/-- What the base die finds at a line that a request reads (R27); the tag of the request is the endpoint's, a free value. -/
def meetX (who : Who) (la : Nat) : X Unit := do
  let s ← get
  if (alGet s.mem.flaws la).isNone && !s.mem.poison.contains la then pure ()
  else do
    let t ← freeX
    modify (fun s => s.meetLine who.mid (t.toNat % 1024) la)
/-- A request beyond a stack's capacity, as an action. -/
def beyondX (who : Who) (pa : Nat) : X Unit := modify (fun s => s.beyondAt who.mid pa)

/-- A read at the home of n bytes within a line: the value and whether the line is poisoned. Beyond a stack's capacity
the data is a free value (R115 gives STATUS ADDR and no data). -/
def homeRead (who : Who) (cls : ReqClass) (pa ca key n : Nat) : X (Nat × Bool) := do
  reach who cls pa ca
  let s ← get
  if inCapacity s.mem pa then do
    meetX who (lineOf pa)
    let s ← get
    pure (memRead s.mem (keyMat s.mem key) pa n, s.mem.poison.contains (lineOf pa))
  else do
    beyondX who pa
    let v ← freeBytes ((n + 7) / 8)
    pure (v % 256 ^ n, false)

/-- A write at the home of n bytes within a line; beyond capacity nothing in memory changes. -/
def homeWrite (who : Who) (cls : ReqClass) (pa ca key n v : Nat) : X Unit := do
  reach who cls pa ca
  let s ← get
  if inCapacity s.mem pa then
    modify (fun s => { s with mem := memWrite s.mem (keyMat s.mem key) pa n v })
  else beyondX who pa

/-- An engine operation owns the line (R139). -/
def ownedLine (s : State) (pa : Nat) : Bool := s.mem.owned.any (fun o => o.1 == lineOf pa)

/-- A thread access to an owned line stalls (R139). -/
def waitOwned (pa : Nat) : X Unit := do
  let s ← get
  if ownedLine s pa then stallX else pure ()

/-! ### L1 and the write-combining buffer (R105) -/

/-- The L1 line of a context. -/
def l1Find (c : Core) (ctx la : Nat) : Option L1Line := c.l1.find? (fun l => l.ctx == ctx && l.pa == la)
/-- The buffered bytes of a line: mask and data. -/
def wcbFind (c : Core) (ctx la : Nat) : Nat × Nat :=
  match c.wcb.find? (fun l => l.ctx == ctx && l.pa == la) with
  | some l => (l.mask.toNat, l.data.toNat)
  | none => (0, 0)
/-- Writes one buffered line to its home; what a fenced link cuts off is discarded (R18). -/
def drainLine (p : Pkg) (die : Nat) (m : Memory) (l : WLine) : Memory :=
  if inCapacity m l.pa && !fencedOff p die (paStack l.pa) then memWriteMasked m (keyMat m l.key) l.pa l.mask.toNat l.data.toNat else m
/-- A drained line beyond its stack's capacity is reported (R27, R115). -/
def State.drainReport (s : State) (core : Nat) (l : WLine) : State :=
  if inCapacity s.mem l.pa || fencedOff s.pkg (coreDie core) (paStack l.pa) then s else s.beyondAt (coreMid core) l.pa
/-- Drains the buffered lines that a condition selects, oldest first. -/
def State.drainIf (s : State) (core : Nat) (p : WLine → Bool) : State :=
  let c := s.coreD core
  let s := { s with mem := (c.wcb.filter p).foldl (drainLine s.pkg (coreDie core)) s.mem }
  let s := (c.wcb.filter p).foldl (fun s l => s.drainReport core l) s
  s.modCore core (fun c => { c with wcb := c.wcb.filter (fun l => !p l) })
/-- The source action of R136: the whole buffer drains to the homes. -/
def State.drainCore (s : State) (core : Nat) : State :=
  if (s.coreD core).wcb.isEmpty then s else s.drainIf core (fun _ => true)
/-- The target action of R136: every L1 line and decoded block of the context goes. -/
def State.invalidate (s : State) (core ctx : Nat) : State :=
  let c := s.coreD core
  if c.l1.isEmpty && c.tex.isEmpty then s
  else s.modCore core (fun c => { c with l1 := c.l1.filter (·.ctx != ctx), tex := c.tex.filter (·.ctx != ctx) })
/-- On taking a line for an engine, every L1 copy goes and every buffered write to it takes effect first (R139). -/
def State.recall (s : State) (la : Nat) : State :=
  s.cores.foldl (fun s c =>
    let s := if c.2.wcb.any (·.pa == la) then s.drainIf c.1 (·.pa == la) else s
    if c.2.l1.any (·.pa == la) then s.modCore c.1 (fun c => { c with l1 := c.l1.filter (·.pa != la) }) else s) s

/-- Lines of 64 bytes that a granule holds (R105). -/
def granLines : Nat := 256
/-- L1 granules of a core's current residencies (R105). -/
def State.l1Grans (s : State) (core : Nat) : List Nat :=
  (s.ress.filter (fun r => r.2.core == core && !r.2.saved)).flatMap (fun r => r.2.lg)
/-- Lines and blocks that lie in a granule. -/
def Core.inGran (c : Core) (g : Nat) : Nat := (c.l1.filter (·.gran == g)).length + (c.tex.filter (·.gran == g)).length
/-- The granule a new line or block takes (R105: any of them), and the core with room in it: the first granule that has some, else that
of the oldest line, or with no line the oldest block, which goes. -/
def State.l1Place (s : State) (core : Nat) : Option (Nat × Core) :=
  let c := s.coreD core
  match (s.l1Grans core).find? (fun g => decide (c.inGran g < granLines)), c.l1.getLast?, c.tex.getLast? with
  | some g, _, _ => some (g, c)
  | none, some l, _ => some (l.gran, { c with l1 := c.l1.dropLast })
  | none, none, some b => some (b.gran, { c with tex := c.tex.dropLast })
  | none, none, none => none
/-- Keeps something in a core's L1; a Chard core without a granule keeps none, and the bound of the other cores' L1 is not given. -/
def State.keepL1 (s : State) (core : Nat) (put : Nat → Core → Core) : State :=
  if isChard core then
    match s.l1Place core with
    | some (g, c) => s.modCore core (fun _ => put g c)
    | none => s
  else s.modCore core (put 0)
/-- Keeps a line. -/
def State.keepLine (s : State) (core ctx la d : Nat) : State :=
  s.keepL1 core (fun g c => { c with l1 := ⟨ctx, la, g, BitVec.ofNat 512 d⟩ :: c.l1 })
/-- The lines and blocks of granules that a residency gives back go (R105). -/
def State.dropGrans (s : State) (core : Nat) (gs : List Nat) : State :=
  s.modCore core (fun c => { c with l1 := c.l1.filter (fun l => !gs.contains l.gran), tex := c.tex.filter (fun l => !gs.contains l.gran) })

/-- An access to a line under a key id: what the core has buffered of the line under another id goes to its home first and its copy of the
line goes, so that the line is read again under the id (R121). -/
def State.underKey (s : State) (core ctx la key : Nat) : State :=
  if (s.coreD core).wcb.any (fun l => l.ctx == ctx && l.pa == la && l.key != key) then
    (s.drainIf core (·.pa == la)).modCore core (fun c => { c with l1 := c.l1.filter (·.pa != la) })
  else s
/-- A read of n bytes at a virtual address through the requester's L1: value and poison (R105, R128). -/
def loadV (who : Who) (cls : ReqClass) (va n : Nat) : X (Nat × Bool) := do
  let (pa, key, cp, ca) ← translate who cls va
  waitOwned pa
  match who.core with
  | none => homeRead who cls pa ca key n
  | some core => do
    modify (fun s => s.underKey core who.ctx (lineOf pa) key)
    let s ← get
    let c := s.coreD core
    let la := lineOf pa
    let cut (d : Nat) : Nat := d / 256 ^ (pa % 64) % 256 ^ n
    match (if cp = 2 then none else l1Find c who.ctx la) with
    | some l => pure (cut l.data.toNat, false)
    | none => do
      let (d, po) ← homeRead who cls la (ca / 64 * 64) key 64
      let (mask, wd) := wcbFind c who.ctx la
      let d := mergeBytes 64 mask wd d
      if cp != 2 && !po then
        modify (fun s => s.keepLine core who.ctx la d)
      else pure ()
      pure (cut d, po)

/-- Puts bytes into the buffer and into the core's own L1 copy; the buffered bytes of the line, if any, are of the same key id. -/
def wcbPut (c : Core) (ctx la key mask d : Nat) : Core :=
  let upd (l : L1Line) : L1Line :=
    if l.ctx == ctx && l.pa == la then { l with data := BitVec.ofNat 512 (mergeBytes 64 mask d l.data.toNat) } else l
  let c := { c with l1 := c.l1.map upd }
  if c.wcb.any (fun l => l.ctx == ctx && l.pa == la) then
    { c with wcb := c.wcb.map (fun l => if l.ctx == ctx && l.pa == la then
        { l with mask := l.mask ||| BitVec.ofNat 64 mask, data := BitVec.ofNat 512 (mergeBytes 64 mask d l.data.toNat) }
        else l) }
  else { c with wcb := c.wcb ++ [⟨ctx, la, key, BitVec.ofNat 64 mask, BitVec.ofNat 512 d⟩] }

/-- A write of n bytes at a virtual address through the buffer (R105, R379). -/
def storeV (who : Who) (va n v : Nat) : X Unit := do
  let (pa, key, _, ca) ← translate who .write va
  waitOwned pa
  match who.core with
  | none => homeWrite who .write pa ca key n v
  | some core => do
    reach who .write pa ca
    modify (fun s => s.underKey core who.ctx (lineOf pa) key)
    let s ← get
    let la := lineOf pa
    let c := s.coreD core
    let fresh := !c.wcb.any (fun l => l.ctx == who.ctx && l.pa == la)
    let s := if fresh && decide (c.wcb.length ≥ 64) then s.drainCore core else s
    set (s.modCore core (fun c => wcbPut c who.ctx la key ((2 ^ n - 1) * 2 ^ (pa % 64)) (v % 256 ^ n * 256 ^ (pa % 64))))

/-- A read-modify-write of n bytes at the home (R132, R381): old value and poison; a poisoned location is unchanged.
The core's own buffered bytes of the line go first and its L1 copy goes, so that R129 holds. -/
def atomV (who : Who) (va n : Nat) (f : Nat → Nat) : X (Nat × Bool) := do
  let (pa, key, _, ca) ← translate who .atomic va
  waitOwned pa
  reach who .atomic pa ca
  let la := lineOf pa
  match who.core with
  | none => pure ()
  | some core => modify (fun s =>
      let s := if (s.coreD core).wcb.any (·.pa == la) then s.drainIf core (·.pa == la) else s
      s.modCore core (fun c => { c with l1 := c.l1.filter (·.pa != la) }))
  let s ← get
  if !inCapacity s.mem pa then do
    beyondX who pa
    let v ← freeBytes 1
    pure (v % 256 ^ n, false)
  else do
    meetX who la
    let s ← get
    if s.mem.poison.contains la then pure (0, true)
    else do
      let old := memRead s.mem (keyMat s.mem key) pa n
      set { s with mem := memWrite s.mem (keyMat s.mem key) pa n (f old) }
      pure (old, false)

/-- Reads n bytes at a virtual address straight from the homes, line by line, as an engine or the front end does. -/
def readLines (who : Who) (cls : ReqClass) (va : Nat) : Nat → Nat → X (Nat × Bool)
  | 0, _ => pure (0, false)
  | fuel + 1, n =>
    if n = 0 then pure (0, false)
    else do
      let k := min n (64 - va % 64)
      let (pa, key, _, ca) ← translate who cls va
      let (v, po) ← homeRead who cls pa ca key k
      let (r, po') ← readLines who cls (va + k) fuel (n - k)
      pure (v + 256 ^ k * r, po || po')

/-- Writes n bytes at a virtual address straight to the homes. -/
def writeLines (who : Who) (va : Nat) : Nat → Nat → Nat → X Unit
  | 0, _, _ => pure ()
  | fuel + 1, n, v =>
    if n = 0 then pure ()
    else do
      let k := min n (64 - va % 64)
      let (pa, key, _, ca) ← translate who .write va
      homeWrite who .write pa ca key k (v % 256 ^ k)
      writeLines who (va + k) fuel (n - k) (v / 256 ^ k)

end Sys2Proof.Machine
end

