-- ==== Sys2Proof/Machine/Thread.lean ====
section
/-! DEFINITION. Threads, groups, bins and residencies: starting and ending a thread, leaving a group, filing into bins,
publication of items, stacks, barriers left, residencies ended (chapters 4 and 7). -/
namespace Sys2Proof.Machine

/-! ### Registers and entries of a thread -/

/-- Named register i. -/
def Thr.reg (t : Thr) (i : Nat) : NReg := t.regs.getD i NReg.zero
/-- The value of named register i. -/
def Thr.val (t : Thr) (i : Nat) : Word := (t.reg i).v
/-- Writes a register with a value that is there: a write clears pending, poison and a register error (R123, R165). -/
def Thr.setReg (t : Thr) (i : Nat) (v : Word) : Thr :=
  { t with regs := t.regs.set i { (t.reg i) with v := v, pend := none, poison := false, uncorr := false } }
/-- Writes a register with what an entry holds: a value, poison or a pending mark (R165). -/
def Thr.setEnt (t : Thr) (i : Nat) (e : QEnt) (high : Bool) : Thr :=
  let v := if high then hi32 e.v else lo32 e.v
  let r := t.reg i
  match e.st with
  | .full => t.setReg i v
  | .notWritten => t
  | .poison => { t with regs := t.regs.set i { r with v := v, pend := none, poison := true, uncorr := false } }
  | .pending a => { t with regs := t.regs.set i { r with pend := some (a, high), poison := false, uncorr := false } }
/-- Some register awaits data. -/
def Thr.hasPending (t : Thr) : Bool := t.regs.any (fun r => r.pend.isSome)
/-- Pushes an entry; a seventeenth drops the oldest (R160). -/
def Thr.push (t : Thr) (e : QEnt) : Thr := { t with rt := { t.rt with q := (e :: t.rt.q).take 16 } }
/-- The predicate p0 to p7 (p7 is true). -/
def Thr.pred (t : Thr) (i : Nat) : Bool := if i = 7 then true else t.p.getLsbD i
/-- Writes a predicate; p7 ignores writes. -/
def setPred (p : BitVec 7) (i : Nat) (b : Bool) : BitVec 7 :=
  if i ≥ 7 then p else if b then p ||| BitVec.ofNat 7 (2 ^ i) else p &&& ~~~ (BitVec.ofNat 7 (2 ^ i))

/-- A thread at its start with the given identity (R154): every state Table 7.3 does not name is zero but SRS, and RGNC, to which the
setting of the region entry at the start has added 1 (R299). -/
def Thr.start (id : ThId) (pc : Nat) (args : List Word) (stkb stkl : Nat) : Thr :=
  let z := (id.iid.toNat + 1) * 0x9E3779B97F4A7C15 % 2 ^ 64
  {
    id := id, loc := .ended, pc := pc,
    regs := (List.range 32).map (fun i => { NReg.zero with v := args.getD i 0 }),
    p := 0, sp := dw stkb, stkb := dw stkb, stkl := dw stkl, frame := none,
    srs := if z = 0 then 1 else dw z, fst := 0, mst := 0, rgnc := 1, rentry := pc, spos := [], link := none, slot := 0,
    gen := 0, inTrap := false, dblFetch := false, restarts := 0, waits := [], svc := none, trig := false, pubd := false, rt := .empty }

/-- Sets the region entry (R299): the entry counter advances and the count of restarts starts again. -/
def Thr.enter (t : Thr) (pc : Nat) : Thr := { t with rentry := pc, rgnc := t.rgnc + 1, restarts := 0 }

/-! ### Stacks (R61, R187) -/

/-- The lowest free range of n bytes in the arena, at multiples of 1 KiB. -/
def findStack (used : List (Nat × Nat)) (lo hi n : Nat) : Nat → Option Nat
  | 0 => none
  | fuel + 1 =>
    if lo + n > hi then none
    else match used.find? (fun u => decide (u.1 < lo + n) && decide (lo < u.2)) with
      | some u => findStack used (roundUpTo u.2 1024) hi n fuel
      | none => some lo

/-- Takes a stack of kb KiB: its bounds (low, high). A launch with STKKB = 0 has STKL = STKB (R187). -/
def takeStack (c : Ctx) (kb : Nat) : Option ((Nat × Nat) × Ctx) :=
  if kb = 0 then some ((0, 0), c)
  else match findStack c.stks (roundUpTo c.stka 1024) (c.stka + c.stkn) (kb * 1024) (c.stks.length + 2) with
    | some lo => some ((lo, lo + kb * 1024), { c with stks := c.stks ++ [(lo, lo + kb * 1024)] })
    | none => none

/-! ### Residencies and granules -/

/-- Threads of the launch in groups of the core. -/
def State.resHas (s : State) (r : Nat) : Bool := s.grps.any (fun g => g.2.res == r)

/-- Bins of a core that hold a thread of the launch: records are no threads (R80). -/
def State.binHas (s : State) (core launch : Nat) : Bool :=
  (s.coreD core).bins.any (fun b => b.2.launch == launch && b.2.kind != .list && b.2.kind != .node && !b.2.ents.isEmpty)

/-- A thread of the launch waits on the core for a bin to file into: it is resident there (R80, R89). -/
def State.filingOn (s : State) (core launch : Nat) : Bool :=
  s.thrs.any (fun t => t.2.id.launch == some launch &&
    (match t.2.loc with | .filing l => laneCore l == core | _ => false))

/-- Invalidates the rings of a launch that its last residency in the quad leaves (R193). -/
def State.dropRings (s : State) (launch core rid : Nat) : State :=
  let quad := coreQuad core
  let still := s.ress.any (fun r => r.1 != rid && r.2.launch == launch && coreQuad r.2.core == quad)
  s.modQuad quad (fun q => { q with rings := q.rings.map (fun (k, r) =>
    if r.own == launch && (!still || (!r.store && core == quad * 4 + r.qcore)) then (k, { r with v := false }) else (k, r)) })

/-- What is freed on a core is reserved for every blocked launch whose device holds the core's tile (R74). -/
def State.freed (s : State) (core key n : Nat) : State :=
  if s.launches.any (fun l => l.2.blocked.isSome) then
    { s with launches := s.launches.map (fun l =>
        if l.2.blocked.isSome && ((s.ctxD l.2.ctx).devs.getD l.2.dev []).contains (coreTile core) then
          (l.1, { l.2 with resv := alMod l.2.resv key 0 (· + n) })
        else l) }
  else s
/-- A launch has taken room on a core, of which so much is left free: what is reserved for the blocked launches of later keys is at most
that (R74; log entry 68). -/
def State.took (s : State) (core key left : Nat) (lk : Nat × Nat × Nat) : State :=
  if s.launches.any (fun l => l.2.blocked.isSome) then
    { s with launches := s.launches.map (fun l =>
        if l.2.blocked.isSome && keyLt lk l.2.key && ((s.ctxD l.2.ctx).devs.getD l.2.dev []).contains (coreTile core) then
          (l.1, { l.2 with resv := alMod l.2.resv key 0 (min left) })
        else l) }
  else s
/-- Keys of thread slots and group slots of a lane in such a reservation. -/
def thrKey (lane : Nat) : Nat := 2 ^ 20 + lane
def grpKey (lane : Nat) : Nat := 2 ^ 21 + lane

/-- A residency ends: the buffer drains its context's writes, the lines in its L1 granules go, granules, tags and its room in the save
arena are freed (R80, R105, R112, R312). -/
def State.endRes (s : State) (rid : Nat) : State :=
  match s.res? rid with
  | none => s
  | some r =>
    let s := s.drainIf r.core (·.ctx == r.ctx)
    let s := s.dropGrans r.core r.lg
    let s := s.modCore r.core (fun c => { c with
      gran := c.gran.map (fun (k, g) => if g.res == some rid then (k, { g with res := none }) else (k, g)),
      tags := c.tags.filter (·.res != rid) })
    let s := s.dropRings r.launch r.core rid
    let s := s.modCtx r.ctx (fun c => { c with room := alDel c.room rid })
    { s with ress := alDel s.ress rid }.freed r.core r.core (r.rg.length + r.sg.length + r.lg.length)

/-- Ends the residency when nothing of its launch is left on the core (R80). -/
def State.checkRes (s : State) (rid : Nat) : State :=
  match s.res? rid with
  | none => s
  | some r =>
    if r.saved || s.resHas rid || s.binHas r.core r.launch || s.filingOn r.core r.launch then s else s.endRes rid

/-! ### Leaving a group -/

/-- The set and todo lists of a lane's run without a thread. -/
def Run.without (r : Run) (tid : Nat) : Run :=
  { r with set := r.set.filter (· != tid), todo := r.todo.filter (· != tid) }

/-- A participant that exits, parks or is filed counts as arrived at every open instance (R135). -/
def State.leaveBars (s : State) (t : Nat) : State :=
  { s with bars := s.bars.map (fun (k, b) => (k, { b with left := b.left.filter (· != t) })) }

/-- A thread leaves its group and its lane's slot; a group without threads ends (R156). The residency stands. -/
def State.leaveSeat (s : State) (t : Nat) : State :=
  match s.thr? t with
  | none => s
  | some th =>
    match th.loc with
    | .grp g tid =>
      match s.grp? g with
      | none => s
      | some gr =>
        let s := s.modLane gr.lane (fun l => { l with
          slots := alDel l.slots th.slot
          run := l.run.map (fun r => if r.grp = g then r.without tid else r) })
        let s := s.freed (laneCore gr.lane) (thrKey gr.lane) 1
        let mem := alDel gr.mem tid
        if mem.isEmpty then
          let s := s.freed (laneCore gr.lane) (grpKey gr.lane) 1
          let s := s.modLane gr.lane (fun l => { l with active := l.active.filter (· != g), waiting := l.waiting.filter (· != g) })
          { s with grps := alDel s.grps g }
        else s.modGrp g (fun gr => { gr with
          mem := mem
          srun := gr.srun.map (fun r => r.without tid)
          rejoin := gr.rejoin.map (fun (p, m) => (p, m.filter (· != tid))) })
    | _ => s

/-- The residency of a thread's group. -/
def State.resOfThr (s : State) (t : Nat) : Option Nat :=
  match s.thr? t with
  | some th => match th.loc with | .grp g _ => (s.grp? g).map (·.res) | _ => none
  | none => none
/-- A thread leaves its group for good: its residency ends where nothing of its launch is left there (R80). -/
def State.leaveGrp (s : State) (t : Nat) : State :=
  match s.resOfThr t with
  | some r => (s.leaveSeat t).checkRes r
  | none => s.leaveSeat t

/-- Where the thread stands: the lane of its group. -/
def State.laneOf (s : State) (t : Nat) : Nat :=
  match s.thr? t with
  | some th => match th.loc with
    | .grp g _ => match s.grp? g with | some gr => gr.lane | none => 0
    | .filing l => l
    | _ => 0
  | none => 0

/-! ### Items (R174 to R176) -/

/-- Publishes every register of FWD once, with the values committed now (R176). -/
def State.publish (s : State) (t : Nat) : State :=
  match s.thr? t with
  | none => s
  | some th =>
    match th.id.launch with
    | some l =>
      match s.launch? l with
      | some la =>
        if la.ord && th.id.item && !th.pubd then
          let vals : AL Word := (bitList 32 la.fwd).map (fun i => (i, th.val i))
          let s := s.drainCore (laneCore (s.laneOf t))
          let s := s.modThr t (fun th => { th with pubd := true })
          s.modLaunch l (fun la => { la with pubs := alSet la.pubs th.id.iid.toNat vals })
        else s
      | none => s
    | none => s

/-! ### Bins (R87 to R91) -/

/-- Bins a core holds at most. -/
def binMax : Nat := 64
/-- Entries at which a bin is sealed. -/
def binFull (s : State) (b : Bin) : Bool :=
  match b.kind with
  | .list => false
  | .node => match s.launch? b.launch with
    | some l => decide (b.ents.length ≥ l.ncoal)
    | none => false
  | _ => decide (b.ents.length ≥ Config.width)

/-- The open bin of a kind, owner and key (R87). -/
def findBin (c : Core) (k : BinKind) (launch key : Nat) : Option (Nat × Bin) :=
  c.bins.find? (fun b => b.2.kind == k && b.2.launch == launch && b.2.key == key && !b.2.sealed)

/-- The oldest open bin of any kind except LIST (R89). -/
def oldestBin (c : Core) : Option (Nat × Bin) :=
  (c.bins.filter (fun b => b.2.kind != .list && !b.2.sealed)).foldl
    (fun o b => match o with
      | none => some b
      | some x => if b.2.tOpen < x.2.tOpen then some b else o) none

/-- Seals a bin of a core. -/
def State.sealBin (s : State) (core bin : Nat) : State :=
  let now := s.cyc (coreDie core)
  s.modCore core (fun c => { c with bins := alAdj c.bins bin (fun b => if b.sealed then b else { b with sealed := true, tSeal := now }) })

/-- Files an entry on a core; none when no bin takes it: the core's oldest open bin is then sealed to make room (R89). -/
def State.file (s : State) (core : Nat) (k : BinKind) (launch key target : Nat) (e : BinEnt) : Option (Nat × State) :=
  let c := s.coreD core
  match findBin c k launch key with
  | some (i, b) =>
    let b := { b with ents := b.ents ++ [e] }
    let s := s.modCore core (fun c => { c with bins := alSet c.bins i b })
    some (i, if binFull s b then s.sealBin core i else s)
  | none =>
    if c.bins.length < binMax then
      let (i, s) := s.newId
      let b : Bin := ⟨k, launch, key, target, false, s.cyc (coreDie core), 0, [e]⟩
      let s := s.modCore core (fun c => { c with bins := alSet c.bins i b })
      some (i, if binFull s b then s.sealBin core i else s)
    else none

/-- What a filing that finds no bin does to the core: it seals the oldest open bin, unless one already waits (R89). -/
def State.makeRoom (s : State) (core : Nat) : State :=
  let c := s.coreD core
  if c.bins.any (fun b => b.2.sealed) then s
  else match oldestBin c with
    | some (i, _) => s.sealBin core i
    | none => s

/-- Bytes of a filed-thread record (R88) and of a frame (log entry 25). -/
def recBytes : Nat := 256
def frameBytes : Nat := 1024
/-- The tile on which a filed thread's record lies (R88): a CONT entry refers to its frame. -/
def State.recTile (s : State) (th : Thr) : Option Nat :=
  match th.loc with
  | .filed core bin =>
    match alGet (s.coreD core).bins bin with
    | some b => if b.kind == .cont then none else some (coreTile core)
    | none => none
  | _ => none
/-- The rooms of a context's residency area that are in use: those of residencies, frames and filed threads that there are. -/
def State.rooms (s : State) (c : Nat) : AL ArenaRoom :=
  (s.ctxD c).room.filter (fun x => (s.res? x.1).isSome || (alGet s.frames x.1).isSome ||
    (match s.thr? x.1 with | some th => (s.recTile th).isSome | none => false))
/-- Frames and filed-thread records of a context in its partition of a tile, with their bytes (R88, R178). -/
def State.partItems (s : State) (c tile : Nat) : List (Nat × Nat) :=
  let out := s.rooms c
  ((s.frames.filter (fun f => f.2.ctx == c && f.2.tile == tile)).map (fun f => (f.1, frameBytes)) ++
    (s.thrs.filter (fun t => t.2.id.ctx == c && s.recTile t.2 == some tile)).map (fun t => (t.1, recBytes))).filter
      (fun x => (alGet out x.1).isNone)
/-- Bytes of frames and filed-thread records in a context's partition of a tile. -/
def State.tileUse (s : State) (c tile : Nat) : Nat := ((s.partItems c tile).map (·.2)).foldl (· + ·) 0
/-- Bytes of a room in the residency area of a save arena. -/
def ArenaRoom.bytes (r : ArenaRoom) : Nat := (r.ranges.map (·.2)).foldl (· + ·) 0
/-- Bytes of a context's residency area that are reserved or in use (R312). -/
def State.roomBytes (s : State) (c : Nat) : Nat := ((s.rooms c).map (·.2.bytes)).foldl (· + ·) 0
/-- Changes a room. -/
def Ctx.modRoom (c : Ctx) (rid : Nat) (f : ArenaRoom → ArenaRoom) : Ctx :=
  { c with room := c.room.map (fun x => if x.1 = rid then (x.1, f x.2) else x) }
/-- Room for n more bytes on a tile: in the context's partition, else in the residency area of the save arena, less what is reserved or
in use there (R88, R109, R312). -/
def State.partRoom (s : State) (c tile n : Nat) : Bool :=
  let x := s.ctxD c
  let past (t : Nat) : Nat := s.tileUse c t + (if t = tile then n else 0) - x.partm * 2 ^ 20
  decide (((List.range 8).map past).foldl (· + ·) (s.roomBytes c) ≤ x.savn - 0x25000000)

/-- Files a continuation on the core of a lane, or leaves it waiting for a bin (R89, R184): its record is its frame's save area. -/
def State.fileCont (s : State) (lane t : Nat) : State :=
  match s.thr? t with
  | none => s
  | some th =>
    let core := laneCore lane
    match s.file core .cont (th.id.launch.getD 0) th.pc th.pc (.thr t) with
    | some (b, s) => s.modThr t (fun th => { th with loc := .filed core b })
    | none => (s.makeRoom core).modThr t (fun th => { th with loc := .filing lane })
/-- Retries the continuations that wait, in order of their threads' names. -/
def State.retryConts (s : State) : State :=
  s.thrs.foldl (fun s (t, th) =>
    match th.loc with
    | .filing l => s.fileCont l t
    | _ => s) s
/-- The thread stands at a REFORM or REFORM.K that waits for a bin, or for room for its record (R88, R89). -/
def Thr.reforming (th : Thr) : Option (KKind × Nat) :=
  th.waits.findSome? (fun w => match w.w with | .gone [] (.reform k key pc) next => some (.reform k key pc, next) | _ => none)
/-- The threads of a lane's groups that stand there, by group and ascending TID. -/
def State.reformers (s : State) (lane : Nat) : List Nat :=
  let l := s.laneD lane
  (l.active ++ l.waiting).flatMap (fun g => match s.grp? g with
    | some gr => (gr.mem.map (·.2)).filter (fun t => ((s.thr? t).bind Thr.reforming).isSome)
    | none => [])
/-- A filing stalls the lane at its instruction (R89, R166). -/
def State.laneFiling (s : State) (lane : Nat) : Bool :=
  s.thrs.any (fun t => match t.2.loc with | .filing l => l == lane | _ => false) || !(s.reformers lane).isEmpty

/-! ### Ending a thread (R183, R184, R402) -/

/-- Frees a thread's stack. -/
def State.freeStack (s : State) (th : Thr) : State :=
  if th.stkb = th.stkl then s
  else s.modCtx th.id.ctx (fun c => { c with stks := c.stks.filter (fun u => u.2 != th.stkb.toNat) })

/-- Ends a thread on a lane, then its parent's frame counts down: the last child files the continuation on its own core,
or ends a parent that had executed EXIT (R183, R184). fuel bounds the chain of parents. The child's residency ends only after the
continuation is filed (R80). -/
def State.endThr (s : State) (lane : Nat) : Nat → Nat → State
  | 0, _ => s
  | fuel + 1, t =>
    match s.thr? t with
    | none => s
    | some th =>
      let s := (s.publish t).drainCore (laneCore lane)
      let s := s.freeStack th
      let s := { s with frames := s.frames.filter (fun f => f.2.owner != t) }
      let rid := s.resOfThr t
      let s := (s.leaveBars t).leaveSeat t
      let s := { s with thrs := alDel s.thrs t }
      let s := match th.id.parent with
        | none => s
        | some f =>
          match alGet s.frames f with
          | none => s
          | some fr =>
            let s := s.modFrame f (fun fr => { fr with out := fr.out - 1 })
            if fr.out = 1 then
              match s.thr? fr.owner with
              | some pt =>
                match pt.loc with
                | .parked true => s.endThr lane fuel fr.owner
                | .parked false => s.fileCont lane fr.owner
                | _ => s
              | none => s
            else s
      match rid with
      | some r => s.checkRes r
      | none => s

/-- Ends a thread with every parent that waits for it. -/
def State.endThread (s : State) (lane t : Nat) : State := s.endThr lane (s.frames.length + 1) t

/-- Ends a thread on its lane; a control core whose thread ends has exited. -/
def State.endAt (s : State) (lane t : Nat) : State :=
  let s := s.endThread lane t
  if isCtl (laneCore lane) then s.modCtl (laneCore lane - 512) (fun k => { k with st := .exited }) else s

/-- Parks a thread in its frame (R182, R183): its slot is freed, its state stays. -/
def State.park (s : State) (lane t : Nat) (exit : Bool) : State :=
  let s := s.drainCore (laneCore lane)
  let s := (s.leaveBars t).leaveGrp t
  s.modThr t (fun th => { th with loc := .parked exit, rt := .empty, waits := [] })

/-- Children of a thread's frame still to end. -/
def State.children (s : State) (th : Thr) : Nat :=
  match th.frame with
  | none => 0
  | some f => match alGet s.frames f with | some fr => fr.out | none => 0

/-! ### Placing a group on a lane (R81, R96, R153) -/

/-- Lowest free slots of a lane whose next tag has no write in flight (R153). -/
def freeSlots (s : State) (lane : Nat) : List Nat :=
  let l := s.laneD lane
  (List.range Config.slotsPerLane).filter (fun k =>
    (alGet l.slots k).isNone &&
      !(s.arrivals.any (fun a => a.lane == lane && a.slot == k && a.gen == alGetD l.tags k 0 + 1)))

/-- A launch has taken thread slots and group slots of a lane (R74). -/
def State.tookLane (s : State) (lane : Nat) (lk : Nat × Nat × Nat) : State :=
  let l := s.laneD lane
  (s.took (laneCore lane) (thrKey lane) (freeSlots s lane).length lk).took (laneCore lane) (grpKey lane)
    (Config.groupsPerLane - (l.active.length + l.waiting.length)) lk

/-- Room for a group of n threads on a lane (R81). -/
def laneFits (s : State) (lane n : Nat) : Bool :=
  let l := s.laneD lane
  decide (l.active.length + l.waiting.length < Config.groupsPerLane) && decide (n ≤ (freeSlots s lane).length)

/-- The lane of a core with the most free thread slots that has room, ties to the lower number (R82). -/
def pickLane (s : State) (core n : Nat) : Option Nat :=
  let ls := (List.range Config.lanesPerCore).map (fun l => coreLane core l)
  (ls.filter (fun l => laneFits s l n)).foldl (fun o l => match o with
    | none => some l
    | some x => if (freeSlots s l).length > (freeSlots s x).length then some l else o) none

/-- Seats threads on a lane as TIDs from n upward: slot granted, tag advanced. -/
def State.seat (s : State) (lane g : Nat) : Nat → List Nat → State
  | _, [] => s
  | tid, t :: r =>
    match freeSlots s lane with
    | [] => s
    | k :: _ =>
      let tag := alGetD (s.laneD lane).tags k 0 + 1
      let s := s.modLane lane (fun l => { l with slots := alSet l.slots k t, tags := alSet l.tags k tag })
      let s := s.modThr t (fun th => { th with loc := .grp g tid, slot := k, gen := tag, rt := .empty, waits := [] })
      let s := s.modGrp g (fun gr => { gr with mem := alSet gr.mem tid t })
      s.seat lane g (tid + 1) r

/-- The uniform registers a group starts with (R61, R88). -/
def uniStart (la : Option Launch) : List Word :=
  let u := (la.bind (·.uni)).getD []
  (List.range 64).map (fun i => u.getD i 0)

/-- Places threads as a new group on a lane: a newly placed group enters the active set if it has room (R96). -/
def State.place (s : State) (launch : Option Nat) (ctx res lane : Nat) (no : Word) (role : Nat) (ts : List Nat) : Nat × State :=
  let (g, s) := s.newId
  let la := launch.bind s.launch?
  let now := s.ageOf (laneCore lane)
  let tv := match s.res? res with | some r => r.trapv | none => 0
  let gr : Grp := {
    launch := launch, ctx := ctx, res := res, lane := lane, no := no, g := uniStart la, ub := 0,
    rejoin := [], ages := [], mem := [], heads := [], role := role, lastRun := 0, passed := 0, waitSince := now,
    readySince := some now, setSince := now, trapv := tv, srun := none }
  let s := { s with grps := alSet s.grps g gr }
  let s := s.seat lane g 0 ts
  let s := s.modLane lane (fun l =>
    if l.active.length < Config.activePerLane then { l with active := l.active ++ [g] }
    else { l with waiting := l.waiting ++ [g] })
  (g, s)

/-! ### The thread at issue -/

/-- A thread no table holds. -/
def Thr.absent : Thr := Thr.start ⟨.none, 0, 0, 0, false, .none⟩ 0 [] 0 0
/-- A group no table holds. -/
def Grp.absent : Grp :=
  {
    launch := .none, ctx := 0, res := 0, lane := 0, no := 0, g := [], ub := 0, rejoin := [], ages := [], mem := [],
    heads := [], role := 0, lastRun := 0, passed := 0, waitSince := 0, readySince := .none, setSince := 0, trapv := 0, srun := .none }
/-- The thread the word at hand issues for. -/
def State.cur (s : State) : Thr := (s.thr? s.iss.thr).getD .absent
/-- Its group. -/
def State.curGrp (s : State) : Grp := (s.grp? s.iss.grp).getD .absent
/-- Its core. -/
def State.curCore (s : State) : Nat := laneCore s.iss.lane
/-- Its launch. -/
def State.curLaunch (s : State) : Option Launch := s.cur.id.launch.bind s.launch?
/-- The run on its lane. -/
def State.curRun (s : State) : Option Run := (s.laneD s.iss.lane).run
/-- Changes the thread at issue. -/
def State.modCur (s : State) (f : Thr → Thr) : State := s.modThr s.iss.thr f
/-- Changes the run at issue. -/
def State.modRun (s : State) (f : Run → Run) : State := s.modLane s.iss.lane (fun l => { l with run := l.run.map f })

/-- The requester that a thread's accesses carry: its core's master, through its core's L1; a control core whose context
is not LIVE and Root are untranslated (R25, R35; log entry 20). -/
def State.who (s : State) (core ctx : Nat) : Who :=
  {
    mid := coreMid core, die := coreDie core, ctx := ctx, core := some core, sup := isCtl core,
    raw := if isRoot core then some (directPa (core - 544) 0)
           else if isCtl core && (s.ctxD ctx).st == .free then some 0 else none }
/-- The requester of the thread at issue. -/
def State.curWho (s : State) : Who := s.who s.curCore s.cur.id.ctx
/-- The front end's requester for a context (R452). -/
def feWho (ctx : Nat) : Who := ⟨feMid, 16, ctx, none, false, none⟩

end Sys2Proof.Machine
end

