-- ==== Sys2Proof/Machine/Launch.lean ====
section
/-! DEFINITION. Launches as the front end keeps them: its reads and writes (R452), fault records of the context's fault
area (R297, R298), reduction batches (R142 to R146), completion records (R65, R66, R69), completion and DESTROY (R47). -/
namespace Sys2Proof.Machine

/-! ### Actions outside a run -/

/-- Runs an action from outside a thread: a refusal is recorded as R43 has it, a fault leaves what was done. -/
def attempt {α : Type} (x : X α) (s : State) : State × Option α :=
  match x s with
  | .ok a s' => (s', some a)
  | .error e s' => (applyDeny s' e, none)

/-- Writes a free 64-byte line, bytes whose layout no rule gives, at an address; what stops the write, if anything does. -/
def freeLine (who : Who) (va : Nat) (s : State) : State × Option Exc :=
  let v := (List.range 8).foldl (fun a i => a + 2 ^ (64 * i) * (Config.freeWord (s.free + i)).toNat) 0
  match writeLines who va 2 64 v { s with free := s.free + 8 } with
  | .ok _ s' => (s', none)
  | .error e s' => (applyDeny s' e, some e)

/-- Cause and address of a failed front-end access (R58): 1 translation, 2 refused. -/
def failCause (va : Nat) : Exc → Nat × Nat
  | .fault f => (1, f.addr.toNat)
  | .deny .. => (2, va)
  | .stall | .noBin => (1, va)

/-- A read of n bytes line by line: its number, or cause and address of the first line that fails (R452). -/
def feRead (who : Who) (va : Nat) : Nat → Nat → State → State × Except (Nat × Nat) Nat
  | 0, _, s => (s, .ok 0)
  | fuel + 1, n, s =>
    if n = 0 then (s, .ok 0)
    else
      let k := min n (64 - va % 64)
      match readLines who .read va 2 k s with
      | .error e s' => (applyDeny s' e, .error (failCause va e))
      | .ok (v, po) s' =>
        if po then (s', .error (3, va))
        else match feRead who (va + k) fuel (n - k) s' with
          | (s'', .ok r) => (s'', .ok (v + 256 ^ k * r))
          | (s'', .error f) => (s'', .error f)

/-- A write of n bytes within one line; poison at the line is a failure (R452: "meets poisoned data"). -/
def feWrite (who : Who) (va n v : Nat) (s : State) : State × Option (Nat × Nat) :=
  match translate who .write va s with
  | .error e s' => (applyDeny s' e, some (failCause va e))
  | .ok (pa, key, _, ca) s' =>
    if s'.mem.poison.contains (lineOf pa) then (s', some (3, va))
    else match homeWrite who .write pa ca key n v s' with
      | .error e s'' => (applyDeny s'' e, some (failCause va e))
      | .ok _ s'' => (s'', none)

/-! ### The fault area (R297, R298) -/

/-- What became of a record. -/
inductive RecOut where
  /-- Written at this address with this index. -/
  | at_ (va idx : Nat)
  /-- The area is full. -/
  | full
  /-- The write faulted, at the record's address where the header could be read. -/
  | bad (va : Option Nat)
deriving DecidableEq, Repr

/-- Writes one record of eight words under who's translation of FLTA and counts it: WRIDX − RDIDX = 63 is a full area. -/
def putRecord (who : Who) (flta : Nat) (ws : List Nat) (s : State) : State × RecOut :=
  match feRead who flta 2 16 s with
  | (s, .error _) => (s, .bad none)
  | (s, .ok h) =>
    let wr := h / 2 ^ 32 % 2 ^ 32
    let rd := h / 2 ^ 64 % 2 ^ 32
    if (wr + 2 ^ 32 - rd) % 2 ^ 32 ≥ 63 then (s, .full)
    else
      let va := flta + 64 + 64 * (wr % 63)
      match feWrite who va 64 (ws.foldr (fun w r => w + 2 ^ 64 * r) 0) s with
      | (s, some _) => (s, .bad (some va))
      | (s, none) =>
        match feWrite who (flta + 4) 4 ((wr + 1) % 2 ^ 32) s with
        | (s, some _) => (s, .bad (some va))
        | (s, none) => (s, .at_ va wr)

/-- A LAUNCH or engine-error record: dropped and counted in DROPS where it cannot be written (R298). -/
def State.asyncRecord (s : State) (who : Who) (flta : Nat) (ws : List Nat) : State × Option Nat :=
  match putRecord who flta ws s with
  | (s, .at_ va _) => (s, some va)
  | (s, _) =>
    match feRead who flta 2 8 s with
    | (s, .error _) => (s, none)
    | (s, .ok h) => ((feWrite who flta 4 ((h % 2 ^ 32 + 1) % 2 ^ 32) s).1, none)

/-- A LAUNCH record (class 12): F2 the packet's slot, F4 the address that failed, F7 W0 of the packet (R298). -/
def State.launchRecord (s : State) (ctx cause slot addr w0 : Nat) : State × Option Nat :=
  let f0 := cLAUNCH * 2 ^ 58 + cause * 2 ^ 54 + ctx * 2 ^ 45
  s.asyncRecord (feWho ctx) (s.ctxD ctx).flta [f0, 0, slot, 0, addr, 0, 0, w0]

/-! ### Completion records (R65, R66, R69) -/

/-- The status code a final phase carries, or 0 while none does. -/
def statusWord (l : Launch) (st : Nat) : Nat := st * 2 ^ 56 + l.seq * 2 ^ 32

/-- Writes n bytes of a completion record; a failed write leaves a LAUNCH record with F4 = COMPL (R452). -/
def State.writeCompl (s : State) (l : Launch) (n v : Nat) : State :=
  match feWrite (feWho l.ctx) l.compl n v s with
  | (s, none) => s
  | (s, some (cause, _)) => (s.launchRecord l.ctx cause l.slotVa l.compl (wordAt l.pkt 0).toNat).1

/-- Writes PENDING or TRIGGERED (R65, R66). -/
def State.writeStatus (s : State) (l : Launch) (st : Nat) : State := s.writeCompl l 8 (statusWord l st)

/-- Writes a final status with the rest of the record (Table 3.8). -/
def State.writeFinal (s : State) (l : Launch) (st : Nat) : State :=
  let tend := s.qclk
  let late := if l.deadline ≠ 0 ∧ tend > l.deadline then tend - l.deadline else 0
  s.writeCompl l 64 (statusWord l st + l.tadm * 2 ^ 64 + tend * 2 ^ 128 + l.nthr * 2 ^ 192 +
    l.frec.getD 0 * 2 ^ 256 + late * 2 ^ 320)

/-! ### Reduction batches (R142 to R146) -/

/-- Insertion into a sorted list. -/
def insSorted {α : Type} (le : α → α → Bool) (a : α) : List α → List α
  | [] => [a]
  | b :: r => if le a b then a :: b :: r else b :: insSorted le a r
/-- Insertion sort, stable. -/
def isort {α : Type} (le : α → α → Bool) : List α → List α
  | [] => []
  | a :: r => insSorted le a (isort le r)

/-- One REDD step on values of w bits: 0 add, 1 floating add, 2 min, 3 max, 4 unsigned min, 5 unsigned max, 6 or. -/
def reddOp (fn w m v : Nat) : Nat :=
  let f := if w = 64 then f64 else f32
  match fn with
  | 0 => (m + v) % 2 ^ w
  | 1 => (fAdd f .rne 0 (f.dec m) (f.dec v)).1
  | 2 => if sx w m ≤ sx w v then m else v
  | 3 => if sx w m ≥ sx w v then m else v
  | 4 => min m v
  | 5 => max m v
  | _ => m ||| v

/-- The exact path of R144 for floating addition. -/
def reddExact (f : IFmt) (m : Nat) (vs : List Nat) : Nat :=
  let ts := (m :: vs).map f.dec
  let infs := ts.filter FV.isInf
  if ts.any FV.isNan || (infs.any FV.neg && infs.any (fun t => !t.neg)) then f.dnan
  else match infs with
    | t :: _ => f.infCode t.neg
    | [] =>
      let sum := ts.foldl (fun q t => q.add t.q) (Q.ofInt 0)
      (f.round .rne 0 (ts.all (fun t => t.isZero && t.neg)) sum).1

/-- The value a batch writes over m: the held path in ascending (key, value) order to 16 updates, else the exact path. -/
def batchResult (b : Batch) (m : Nat) : Nat :=
  let w := if b.w64 then 64 else 32
  if b.fn = 1 ∧ b.ups.length > 16 then reddExact (if b.w64 then f64 else f32) m (b.ups.map (·.2))
  else (isort (fun x y => decide (x.1 < y.1) || (x.1 == y.1 && decide (x.2 ≤ y.2))) b.ups).foldl
    (fun m u => reddOp b.fn w m u.2) m

/-- A batch takes effect at its home in one coherence step; a poisoned word stays. Its read meets what stands in the line (R27), for a
master that the manual does not name (a free value); nothing crosses a fenced Stack Link (R18), and beyond the stack's capacity there is
only the report. -/
def State.closeBatch (s : State) (b : Batch) : State :=
  let n := if b.w64 then 8 else 4
  if s.pkg.fenced.contains (32 + paStack b.pa) then s
  else
    let (f, s) := s.newFree
    if !inCapacity s.mem b.pa then s.beyondAt (f.toNat % 2 ^ 16) b.pa
    else
      let s := s.meetLine (f.toNat % 2 ^ 16) (f.toNat / 2 ^ 16 % 1024) (lineOf b.pa)
      let m := s.mem
      if m.poison.contains (lineOf b.pa) then s
      else { s with mem := memWrite m (keyMat m b.key) b.pa n (batchResult b (memRead m (keyMat m b.key) b.pa n)) }

/-- Order of the batches of one address: function code, then width (R145). -/
def batchLe (a b : Batch) : Bool :=
  decide (a.fn < b.fn) || (a.fn == b.fn && (!a.w64 || b.w64))

/-- Closes every open batch of a launch (R145). -/
def State.closeBatches (s : State) (l : Nat) : State :=
  if s.mem.batches.any (·.launch == l) then
    let s := (isort batchLe (s.mem.batches.filter (·.launch == l))).foldl State.closeBatch s
    { s with mem := { s.mem with batches := s.mem.batches.filter (·.launch != l) } }
  else s

/-! ### Completion (R69, R75, R65) -/

/-- Cores that hold a residency of a launch. -/
def State.coresOf (s : State) (l : Nat) : List Nat := (s.ress.filter (fun r => r.2.launch == l)).map (·.2.core)

/-- What a final status of launch l does to a dependence: OK satisfies, anything else fails (R65). -/
def depFinal (l st : Nat) : Dep → Dep
  | .onLaunch k e => if k = l then (if st = 2 then .satisfied else .failed) else .onLaunch k e
  | d => d
/-- What the trigger of launch l does to a dependence with EARLY = 1. -/
def depTrig (l : Nat) : Dep → Dep
  | .onLaunch k true => if k = l then .satisfied else .onLaunch k true
  | d => d

/-- Applies a change to the dependences of every launch held. -/
def State.modDeps (s : State) (f : Dep → Dep) : State :=
  { s with launches := s.launches.map (fun (k, l) => (k, { l with deps := l.deps.map f })) }

/-- Completes a launch with a final status: its cores drain, its batches close, the record is written, dependants learn
the status, its node id, its bins and its reservations are free (R64, R65, R69, R145). -/
def State.complete (s : State) (l st : Nat) : State :=
  match s.launch? l with
  | none => s
  | some _ =>
    let s := (s.coresOf l).foldl State.drainCore s
    let s := s.closeBatches l
    match s.launch? l with
    | none => s
    | some la =>
      let s := s.writeFinal la st
      let s := s.modDeps (depFinal l st)
      { s with
        launches := alDel s.launches l
        nodes := s.nodes.filter (fun n => n.2.2.1 != l)
        cores := s.cores.map (fun (k, c) => (k, { c with
          fwd := c.fwd.filter (·.launch != l), bins := c.bins.filter (·.2.launch != l) })) }

/-- Fires a launch's trigger once: batches close, TRIGGERED is written, EARLY dependants go on (R66, R145). -/
def State.fireTrigger (s : State) (l : Nat) : State :=
  match s.launch? l with
  | none => s
  | some la =>
    if la.trigd then s
    else
      let s := (s.coresOf l).foldl State.drainCore s
      let s := s.closeBatches l
      let s := s.writeStatus la 1
      (s.modLaunch l (fun la => { la with trigd := true })).modDeps (depTrig l)

/-- Records the first fault that terminates a thread of a launch (R69, R70). -/
def State.launchFault (s : State) (l : Option Nat) (rec_ : Option Nat) : State :=
  match l with
  | none => s
  | some k => s.modLaunch k (fun la => { la with faulted := true, frec := la.frec.orElse (fun _ => rec_) })

/-! ### DESTROY (R47) -/

/-- The slots of a group that stands on a lane are freed for the launches that wait (R74). -/
def State.freedGrp (s : State) (g : Grp) : State :=
  if (match s.res? g.res with | some r => r.saved | none => false) then s
  else (s.freed (laneCore g.lane) (thrKey g.lane) g.mem.length).freed (laneCore g.lane) (grpKey g.lane) 1
/-- The threads of a context's launches leave without restart; its residencies, bins, frames, barriers and arrivals go, and what they held is
freed. -/
def State.clearThreads (s : State) (c : Nat) : State :=
  let rs := s.ress.filter (fun r => r.2.ctx == c && isChard r.2.core)
  let ls := (s.launches.filter (fun l => l.2.ctx == c)).map (·.1)
  let mine : AL Grp := s.grps.filter (fun g => g.2.ctx == c && g.2.launch.isSome)
  let gs := mine.map (·.1)
  let ts := (s.thrs.filter (fun t => t.2.id.ctx == c && t.2.id.launch.isSome)).map (·.1)
  let s := rs.foldl (fun s r => s.drainIf r.2.core (·.ctx == c)) s
  let s := mine.foldl (fun s g => s.freedGrp g.2) s
  let s := rs.foldl (fun s r => s.endRes r.1) s
  { s with
    thrs := s.thrs.filter (fun t => !ts.contains t.1)
    grps := s.grps.filter (fun g => !gs.contains g.1)
    lanes := s.lanes.map (fun (k, l) => (k, { l with
      active := l.active.filter (fun g => !gs.contains g)
      waiting := l.waiting.filter (fun g => !gs.contains g)
      run := l.run.filter (fun r => !gs.contains r.grp)
      slots := l.slots.filter (fun x => !ts.contains x.2) }))
    cores := s.cores.map (fun (k, co) => (k, { co with bins := co.bins.filter (fun b => !ls.contains b.2.launch) }))
    frames := s.frames.filter (fun f => f.2.ctx != c)
    bars := s.bars.filter (fun b => !ls.contains b.2.launch)
    mem := { s.mem with batches := s.mem.batches.filter (·.ctx != c) } }

/-! ### Convergence registers (R217, R218, R234, R418) -/

/-- Changes a convergence register of a quad. -/
def State.modCreg (s : State) (quad c : Nat) (f : Creg → Creg) : State :=
  s.modQuad quad (fun q => { q with cregs := alMod q.cregs c .empty f })
/-- A convergence register. -/
def State.cregD (s : State) (quad c : Nat) : Creg := alGetD (s.quadD quad).cregs c .empty
/-- IDLE with no operation appended from it incomplete (R217). -/
def Creg.free (r : Creg) : Bool := !r.armed && r.doneseq == r.armseq
/-- Merges an operation's status (R234, Table 9.5). -/
def mergeStatus (cst st : DWord) : DWord :=
  let mc := bits cst 31 24
  let b (x : DWord) : Int := sx 12 (bits x 63 52)
  let bexp := if mc = 0 then b st else max (b cst) (b st)
  let exact := if mc = 0 then bits st 51 51 else bits cst 51 51 &&& bits st 51 51
  let flags := bits cst 50 41 ||| bits st 50 41
  let err := if bits cst 39 36 ≠ 0 then bits cst 39 36 else bits st 39 36
  dw (modW 12 bexp * 2 ^ 52 + exact * 2 ^ 51 + flags * 2 ^ 41 + err * 2 ^ 36 +
    min 255 (mc + bits st 31 24) * 2 ^ 24 + min (2 ^ 24 - 1) (bits cst 23 0 + bits st 23 0))
/-- DONESEQ advances in ARMSEQ order over the arms that have completed (R418). fuel bounds the chain. -/
def Creg.advance (r : Creg) : Nat → Creg
  | 0 => r
  | fuel + 1 =>
    match r.doneq.find? (fun e => e.1 == r.doneseq + 1) with
    | none => r
    | some (t, st) =>
      ({ r with
          doneseq := t
          cst := (match st with | some x => mergeStatus r.cst x | none => r.cst)
          doneq := r.doneq.filter (fun e => e.1 != t) } : Creg).advance fuel
/-- An arm completes: with a status, or cancelled. -/
def Creg.complete (r : Creg) (t : Word) (st : Option DWord) : Creg :=
  ({ r with doneq := r.doneq ++ [(t, st)] } : Creg).advance (r.doneq.length + 1)
/-- The status of an operation that ended in error: its B and EXACT are free values, since no rule gives them
(log entry 4). -/
def errStatus (free : DWord) (err : Nat) : DWord :=
  let b := bits free 63 52
  dw (b * 2 ^ 52 + (if b = 0x800 then 2 ^ 51 else 0) + err * 2 ^ 36 + 2 ^ 24)

/-! ### Clearing a context -/

/-- A context's copies are discarded without a decrement and release their lines; its matrix operations complete with
ERR 6, their slots unreleased, and its accumulators go (R140, R239, R204). -/
def State.clearEngines (s : State) (c : Nat) : State :=
  let copies := s.quads.flatMap (fun q => q.2.copyq.filter (fun o => o.by_.ctx == c))
  let gone := copies.map (·.id)
  let scores := copies.flatMap (·.score)
  let ops := (s.arrs.map (fun a => (a.2.q.filter (fun o => o.ctx == c)))).flatten
  let ls := (s.launches.filter (fun l => l.2.ctx == c)).map (·.1)
  let seqs (q k : Nat) : List Word := ((ops.filter (fun o => o.creg == k && o.quad == q)).map (·.seq)).eraseDups
  let (f, s) := s.newFree
  let fin (k : Nat) (q : Nat) (r : Creg) : Creg :=
    let r := (seqs q k).foldl (fun r t => r.complete t (some (errStatus f 6))) r
    -- an arm of the context that was never fully signed goes with it
    if r.armed && (match r.own with | some l => ls.contains l | none => false) then
      { r with armed := false }.complete r.armseq none
    else r
  let pend (q : Quad) (k : Nat) : Nat :=
    (q.copyq.filter (fun o => o.by_.ctx == c && o.tgt.toNat / 2 ^ 30 == 0 && o.tgt.toNat % 32 == k)).length
  { s with
    quads := s.quads.map (fun (qi, q) => (qi, { q with
      copyq := q.copyq.filter (fun o => o.by_.ctx != c)
      counts := q.counts.map (fun (k, n) => (k, { n with pend := n.pend - pend q k }))
      cregs := q.cregs.map (fun (k, r) => (k, fin k qi r))
      rings := q.rings.map (fun (k, r) => (k, if ls.contains r.own then { r with v := false } else r)) }))
    arrs := s.arrs.map (fun (k, a) => (k, { a with
      q := a.q.filter (·.ctx != c)
      am := alDel a.am c
      amPoison := alDel a.amPoison c
      owner := if a.owner = some c then none else a.owner }))
    cores := s.cores.map (fun (k, co) => (k, { co with score := co.score.filter (fun e => !scores.contains (k, e.id)) }))
    rays := s.rays.filter (·.ctx != c)
    pods := s.pods.filter (fun p => !gone.contains p.op)
    mem := { s.mem with owned := s.mem.owned.filter (fun o => !gone.contains o.2) } }

/-- HVSUM.MSRV's bit of a tile clears once no context names the tile (R49). -/
def State.trimMsrv (s : State) : State :=
  let named := s.ctxs.flatMap (fun c => c.2.devs.flatten)
  let m := (bitList 8 s.pkg.hv.msrv.toNat).filter (fun t => named.contains t)
  { s with pkg := { s.pkg with hv := { s.pkg.hv with msrv := BitVec.ofNat 8 ((m.map (2 ^ ·)).foldl (· + ·) 0) } } }

/-- An address lies in a context's extents (R116). -/
def Ctx.holds (c : Ctx) (pa : Nat) : Bool :=
  match alGet c.ext (paStack pa / 2) with
  | some b => decide (b ≤ paLocal pa) && decide (paLocal pa < b + c.extBytes)
  | none => false
/-- DESTROY resolves the pending faults of a context as ACT 2 (R305): the launch of each such thread has faulted, with its record where it
is written; the thread of a control core ends. -/
def State.endPending (s : State) (c : Nat) : State :=
  (s.thrs.filter (fun t => t.2.id.ctx == c)).foldl (fun s t =>
    match t.2.svc with
    | none => s
    | some v =>
      let s := s.launchFault t.2.id.launch (if v.st = .written then some v.recVa else none)
      if isChard v.core then s else s.endAt (s.laneOf t.1) t.1) s
/-- DESTROY: launches complete ABORTED, lines are written back and invalidated, the context is FREE (R47). What is given for a launch is
the record of a double fault, which completes it FAULT with FREC set to that record (R309). -/
def State.destroyCtx (s : State) (c : Nat) (dbl : Option (Nat × Option Nat)) : State :=
  let s := ((s.endPending c).clearEngines c).clearThreads c
  let ls := (s.launches.filter (fun l => l.2.ctx == c)).map (·.1)
  let s := ls.foldl (fun s l =>
    match dbl with
    | some (k, r) => if k = l then (s.modLaunch l (fun la => { la with faulted := true, frec := r })).complete l 4 else s.complete l 7
    | none => s.complete l 7) s
  let s := s.cores.foldl (fun s k => (s.drainIf k.1 (·.ctx == c)).invalidate k.1 c) s
  -- a context created later under the number is another one (R104)
  let s : State := { s with cores := s.cores.map (fun (k, co) => (k, { co with
    gran := co.gran.map (fun (i, g) => (i, if g.ctx == some c then { g with ctx := none } else g)) })) }
  -- a dirty line of L2 is poisoned no longer than its context lasts (R122)
  let ofCtx (a : Nat) : Bool := (s.ctxD c).holds a
  { s with
    ctxs := alDel s.ctxs c
    mem := { s.mem with
      tlb := s.mem.tlb.filter (·.ctx != c)
      poison := s.mem.poison.filter (fun a => !(s.mem.l2p.contains a && ofCtx a))
      l2p := s.mem.l2p.filter (fun a => !ofCtx a) } }.trimMsrv

end Sys2Proof.Machine
end

