-- ==== Sys2Proof/Machine/Save.lean ====
section
/-! DEFINITION. Residencies taken from a core's pool (R80, R103, R104), saved and restored (R310 to R312). -/
namespace Sys2Proof.Machine

/-- The granule with a number, free at reset. -/
def Core.granD (c : Core) (i : Nat) : Gran := alGetD c.gran i ⟨none, none⟩
/-- The free granules, lowest first. -/
def Core.freeGrans (c : Core) : List Nat := (List.range 64).filter (fun i => (c.granD i).res.isNone)
/-- Scratchpad bytes of a granule. -/
def granBytesOf (i : Nat) (b : Nat × Byte) : Bool := b.1 / Config.granBytes == i

/-- Gives granules to a residency; those of another context are cleared (R104). -/
def Core.take (c : Core) (rid ctx : Nat) (gs : List Nat) : Core :=
  gs.foldl (fun c i =>
    let old := c.granD i
    let c := if old.ctx = some ctx then c else { c with
      pool := c.pool.filter (fun b => !granBytesOf i b)
      poison := c.poison.filter (fun a => a / Config.granBytes != i) }
    { c with gran := alSet c.gran i ⟨some rid, some ctx⟩ }) c

/-- Room on a core for a residency of a launch: granules free, not already three residencies with granules (R80, R103). -/
def resFits (s : State) (core : Nat) (l : Launch) : Bool :=
  decide (l.rgran + l.sgran + l.lgran ≤ (s.coreD core).freeGrans.length) &&
    decide ((s.ress.filter (fun r => r.2.core == core && !r.2.saved)).length < 3)

/-- The lowest residency slot of a core that no resident residency uses. -/
def resSlot (s : State) (core : Nat) : Nat :=
  (([0, 1, 2] : List Nat).find? (fun k => !s.ress.any (fun r => r.2.core == core && !r.2.saved && r.2.slot == k))).getD 0

/-- Splits the granules of a residency: registers, scratchpad, L1, lowest first (R103). -/
def splitGrans (c : Core) (l : Launch) : List Nat × List Nat × List Nat :=
  let f := c.freeGrans
  (f.take l.rgran, (f.drop l.rgran).take l.sgran, (f.drop (l.rgran + l.sgran)).take l.lgran)

/-- Creates a residency of a launch on a core. -/
def State.newRes (s : State) (lid core : Nat) (l : Launch) : Nat × State :=
  let (rid, s) := s.newId
  let c := s.coreD core
  let (rg, sg, lg) := splitGrans c l
  let r : Res := {
    launch := lid, ctx := l.ctx, core := core, slot := resSlot s core, rg := rg, sg := sg, lg := lg
    trapv := (s.ctxD l.ctx).vec, srec := [], saved := false, saving := false, since := s.qclk, spare := [], spoison := [], stags := [] }
  let s := s.modCore core (fun c => c.take rid l.ctx (rg ++ sg ++ lg))
  (rid, { s with ress := alSet s.ress rid r }.took core core (s.coreD core).freeGrans.length l.key)

/-- The residency of a launch on a core. -/
def State.resOn (s : State) (lid core : Nat) : Option (Nat × Res) :=
  s.ress.find? (fun r => r.2.launch == lid && r.2.core == core)

/-- The scratchpad of a residency by its own offsets. -/
def Core.spadOf (c : Core) (sg : List Nat) : AL Byte :=
  (sg.zipIdx.map (fun gi =>
    (c.pool.filter (granBytesOf gi.1)).map (fun b => (b.1 % Config.granBytes + gi.2 * Config.granBytes, b.2)))).flatten

/-- Where an offset of a residency's scratchpad lies in its core's pool. -/
def poolAt (sg : List Nat) (off : Nat) : Nat := sg.getD (off / Config.granBytes) 64 * Config.granBytes + off % Config.granBytes
/-- The poisoned words of a residency's scratchpad by its own offsets. -/
def Core.spoisonOf (c : Core) (sg : List Nat) : List Nat :=
  (sg.zipIdx.map (fun gi =>
    (c.poison.filter (fun a => a / Config.granBytes == gi.1)).map (fun a => a % Config.granBytes + gi.2 * Config.granBytes))).flatten

/-- R311: a save moves a residency's state off its core. Its groups leave the lanes with the run they stand in, its
granules and slots are free (a group saved again before it has gone on keeps the run it was saved in), its buffer drains and the lines in
its L1 granules go (R105). What stood in its granules stays there for a later owner of the same context (R104). -/
def State.saveRes (s : State) (rid : Nat) : State :=
  match s.res? rid with
  | none => s
  | some r =>
    let s := s.drainIf r.core (·.ctx == r.ctx)
    let s := s.dropGrans r.core r.lg
    let gs := s.grps.filter (fun g => g.2.res == rid)
    let s := gs.foldl (fun s g =>
      let run := (s.laneD g.2.lane).run.filter (fun x => x.grp == g.1)
      let s := s.modGrp g.1 (fun x => { x with srun := run.orElse (fun _ => x.srun) })
      let s := s.modLane g.2.lane (fun l => { l with
        active := l.active.filter (· != g.1)
        waiting := l.waiting.filter (· != g.1)
        run := if run.isSome then none else l.run
        slots := l.slots.filter (fun x => !(g.2.mem.any (fun m => m.2 == x.2))) })
      (s.freed r.core (thrKey g.2.lane) g.2.mem.length).freed r.core (grpKey g.2.lane) 1) s
    let s := s.freed r.core r.core (r.rg.length + r.sg.length + r.lg.length)
    let c := s.coreD r.core
    let s := s.modCore r.core (fun c => { c with
      gran := c.gran.map (fun x => if x.2.res == some rid then (x.1, { x.2 with res := none }) else x)
      tags := c.tags.filter (·.res != rid) })
    s.modRes rid (fun r => { r with
      saved := true, saving := false, spare := c.spadOf r.sg, spoison := c.spoisonOf r.sg, stags := c.tags.filter (·.res == rid)
      rg := [], sg := [], lg := [] })

/-- Seats a restored group's threads: each takes a slot of the lane under the tag it was saved with (R311). -/
def State.reseat (s : State) (lane : Nat) : List Nat → State
  | [] => s
  | t :: r =>
    match (List.range Config.slotsPerLane).find? (fun k => (alGet (s.laneD lane).slots k).isNone), s.thr? t with
    | some k, some th =>
      let s := s.modLane lane (fun l => { l with slots := alSet l.slots k t, tags := alSet l.tags k th.gen })
      (s.modThr t (fun th => { th with slot := k })).reseat lane r
    | _, _ => s

/-- A saved residency fits back on its core (R78): granules for its split and a lane for each group. -/
def restoreFits (s : State) (r : Res) (l : Launch) : Bool :=
  r.saved && resFits s r.core l

/-- A restored tag entry takes its way again, else the lowest empty way of its set; in a full set it is lost (R112; log entry 67). -/
def putTag (ts : List TagEnt) (t : TagEnt) : List TagEnt :=
  let free (w : Nat) : Bool := !ts.any (fun x => x.set == t.set && x.way == w)
  match (t.way :: List.range 4).find? free with
  | some w => ts ++ [{ t with way := w }]
  | none => ts
/-- R310, R311: restores a residency on its core; each group goes back to its lane (R81) and on at its saved word. What it takes is no
longer reserved for launches of later keys (R74). The edges of waits that ended meanwhile are given (R151). -/
def State.restoreRes (s : State) (rid : Nat) : State :=
  match s.res? rid with
  | none => s
  | some r =>
    match s.launch? r.launch with
    | none => s
    | some l =>
      let (rg, sg, lg) := splitGrans (s.coreD r.core) l
      let slot := resSlot s r.core
      let s := s.modCore r.core (fun c =>
        let c := c.take rid r.ctx (rg ++ sg ++ lg)
        { c with
          pool := r.spare.foldl (fun p b => setByte p (poolAt sg b.1) b.2)
            (c.pool.filter (fun b => !sg.any (fun i => granBytesOf i b)))
          poison := c.poison.filter (fun a => !sg.contains (a / Config.granBytes)) ++ r.spoison.map (poolAt sg)
          tags := r.stags.foldl putTag c.tags })
      -- its 50 µs of residence start again (log entry 67)
      let s := s.modRes rid (fun r => { r with
        saved := false, spare := [], spoison := [], stags := [], rg := rg, sg := sg, lg := lg, slot := slot, since := s.qclk })
      let s := s.took r.core r.core (s.coreD r.core).freeGrans.length l.key
      (s.grps.filter (fun g => g.2.res == rid)).foldl (fun s g =>
        let lane := g.2.lane
        let s := s.reseat lane (g.2.mem.map (·.2))
        (s.modLane lane (fun l =>
          if l.active.length < Config.activePerLane then { l with active := l.active ++ [g.1] }
          else { l with waiting := l.waiting ++ [g.1] })).tookLane lane l.key) (s.invalidate r.core r.ctx)

/-! ### The context partitions of L2 and the residency area of the save arena (R312, R313) -/

/-- Arena bytes a context has left. -/
def roomLeft (s : State) (ctx : Nat) : Nat := (s.ctxD ctx).savn - 0x25000000 - s.roomBytes ctx
/-- The lowest n bytes from an offset on that ranges in rising order leave free. -/
def gapsFrom : Nat → Nat → List (Nat × Nat) → List (Nat × Nat)
  | lo, n, [] => if n = 0 then [] else [(lo, n)]
  | lo, n, (a, k) :: r =>
    let g := min n (a - lo)
    (if g = 0 then [] else [(lo, g)]) ++ gapsFrom (max lo (a + k)) (n - g) r
/-- Reserves room for n bytes in the residency area, the lowest free (R312; log entry 100). -/
def State.reserveRoom (s : State) (ctx id n : Nat) : State :=
  let rs := s.rooms ctx
  let used := isort (fun a b => decide (a.1 ≤ b.1)) (rs.flatMap (·.2.ranges))
  s.modCtx ctx (fun c => { c with room := alSet rs id ⟨gapsFrom 0 n used, false, 0⟩ })
/-- The rooms of what is saved in a context's partition of a tile: the residency that is being saved and those saved before it that the
part has not written out. -/
def State.heldRooms (s : State) (ctx tile rid : Nat) : AL ArenaRoom :=
  (s.ctxD ctx).room.filter (fun x => !x.2.out && (match s.res? x.1 with
    | some y => coreTile y.core == tile && (y.saved || x.1 == rid)
    | none => false))
/-- The context's partition of a tile holds what is saved there beside its frames and filed threads (R109, R312). A context has
PARTM MiB on a tile whatever slices of it have retired (log entry 107). -/
def State.absorbs (s : State) (ctx tile rid : Nat) : Bool :=
  decide (s.tileUse ctx tile + ((s.heldRooms ctx tile rid).map (·.2.bytes)).foldl (· + ·) 0 ≤ (s.ctxD ctx).partm * 2 ^ 20)
/-- The lines of a room, by address. -/
def ArenaRoom.lines (sava : Nat) (m : ArenaRoom) : List Nat :=
  m.ranges.flatMap (fun x => (List.range ((x.2 + 63) / 64)).map (fun i => sava + 0x25000000 + x.1 + 64 * i))
/-- Writes saved lines to the arena, up to the first write that something stops. -/
def writeArena (who : Who) : List Nat → State → State × Option Exc
  | [], s => (s, none)
  | va :: r, s =>
    match freeLine who va s with
    | (s, none) => writeArena who r s
    | x => x
/-- Reads saved lines back, up to the first read that something stops; poison does, too. -/
def readArena (who : Who) : List Nat → State → State × Option Exc
  | [], s => (s, none)
  | va :: r, s =>
    match readLines who .read va 2 64 s with
    | .ok (_, po) s' => if po then (s', some (.fault ⟨cPOISON, 0, dw va, 0, 0, false⟩)) else readArena who r s'
    | .error e s' => (applyDeny s' e, some e)
/-- What a context's partition of a tile holds and can go out to the arena: age, number, and for frames and records, whose room is not
reserved before, their bytes. -/
def State.held (s : State) (ctx tile rid : Nat) : List (Nat × Nat × Option Nat) :=
  (s.heldRooms ctx tile rid).map (fun x => (x.2.age, x.1, none)) ++
    (s.partItems ctx tile).filterMap (fun x => if x.2 ≤ roomLeft s ctx then some (x.1, x.1, some x.2) else none)
/-- What goes out has room in the arena: a save reserved it before, a frame or a record takes it now. -/
def State.outRoom (s : State) (ctx id : Nat) : Option Nat → State
  | some n => s.reserveRoom ctx id n
  | none => s
/-- R312: while the partition is over-full the part writes the lines of what was used least recently to the arena (log entry 100). -/
def State.spill (s : State) (who : Who) (ctx tile rid : Nat) : Nat → State × Option Exc
  | 0 => (s, none)
  | n + 1 =>
    if s.absorbs ctx tile rid then (s, none)
    else match (isort (fun a b => decide (a.1 ≤ b.1)) (s.held ctx tile rid)).head? with
      | none => (s, none)
      | some (_, id, k) =>
        let s := s.outRoom ctx id k
        let c := s.ctxD ctx
        match writeArena who (match alGet c.room id with | some m => m.lines c.sava | none => []) s with
        | (s, none) => (s.modCtx ctx (fun c => c.modRoom id (fun m => { m with out := true }))).spill who ctx tile rid n
        | y => y
/-- A frame or the record of a filed thread has come into the partition of the core's tile, where it is the one used last (R88, R178):
what the partition cannot hold goes out, up to a write that something stops (log entry 100). -/
def State.makeWay (s : State) (core ctx id : Nat) : State :=
  let s := s.modCtx ctx (fun c => { c with room := alDel c.room id })
  let tile := coreTile core
  (s.spill { (s.who core ctx) with core := none } ctx tile id (s.held ctx tile id).length).1

end Sys2Proof.Machine
end

