-- ==== Sys2Proof/Machine/Local.lean ====
section
/-! DEFINITION. The spaces a thread's accesses name (R100, R101, R137): scratchpad, private SRAM, rings, accumulator
memory, frames; the range scoreboard (R114); stream records and the pops of heads (R206 to R208). -/
namespace Sys2Proof.Machine

/-! ### Storage beside memory -/

/-- A storage that is not memory. -/
inductive Store where
  /-- A core's pool, by pool address (R103). -/
  | pool (core : Nat)
  /-- The scratchpad of a saved residency, by its own offsets (R78, R311). -/
  | spare (rid : Nat)
  /-- The private SRAM of a control core or a Root engine (R35, R25). -/
  | sram (core : Nat)
  /-- An array's ring store. -/
  | ring (arr : Nat)
  /-- The accumulator memory of an array as a context sees it (R238). -/
  | am (arr ctx : Nat)
  /-- The user area of a frame (R178). -/
  | frame (f : Nat)
deriving DecidableEq, Repr

/-- n bytes of a storage. -/
def Store.read (s : State) (a n : Nat) : Store → Nat
  | .pool c => rdBytes (s.coreD c).pool a n
  | .spare r => match s.res? r with | some re => rdBytes re.spare a n | none => 0
  | .sram c => if isRoot c then rdBytes (s.stackD (c - 544)).sram a n else rdBytes (s.ctlD (c - 512)).sram a n
  | .ring r => rdBytes (s.arrD r).ring a n
  | .am r c => rdBytes (alGetD (s.arrD r).am c []) a n
  | .frame f => match alGet s.frames f with | some fr => rdBytes fr.area a n | none => 0

/-- The words of w bytes that a range covers wholly lose their poison (R122). -/
def clearPoison (l : List Nat) (w a n : Nat) : List Nat := l.filter (fun x => !(decide (a ≤ x) && decide (x + w ≤ a + n)))

/-- Writes n bytes of a storage. -/
def Store.write (s : State) (a n v : Nat) : Store → State
  | .pool c => s.modCore c (fun c => { c with pool := wrBytes c.pool a n v, poison := clearPoison c.poison 4 a n })
  | .spare r => s.modRes r (fun x => { x with spare := wrBytes x.spare a n v, spoison := clearPoison x.spoison 4 a n })
  | .sram c => if isRoot c then s.modStack (c - 544) (fun k => { k with sram := wrBytes k.sram a n v })
               else s.modCtl (c - 512) (fun k => { k with sram := wrBytes k.sram a n v })
  | .ring r => s.modArr r (fun x => { x with ring := wrBytes x.ring a n v, ringPoison := clearPoison x.ringPoison 8 a n })
  | .am r c => s.modArr r (fun x => { x with
      am := alMod x.am c [] (fun m => wrBytes m a n v)
      amPoison := alMod x.amPoison c [] (fun l => clearPoison l 4 a n) })
  | .frame f => s.modFrame f (fun fr => { fr with area := wrBytes fr.area a n v })

/-- Some word of w bytes that the range meets is in the list. -/
def meets (l : List Nat) (w a n : Nat) : Bool := l.any (fun x => decide (x < a + n) && decide (a < x + w))

/-- The range holds a poisoned word (R122). -/
def Store.poisoned (s : State) (a n : Nat) : Store → Bool
  | .pool c => meets (s.coreD c).poison 4 a n
  | .spare r => match s.res? r with | some re => meets re.spoison 4 a n | none => false
  | .ring r => meets (s.arrD r).ringPoison 8 a n
  | .am r c => meets (alGetD (s.arrD r).amPoison c []) 4 a n
  | .sram _ | .frame _ => false

/-- Marks the words of the range as poisoned (R122, R423). -/
def Store.poison (s : State) (a n : Nat) : Store → State
  | .pool c => s.modCore c (fun c => { c with poison := c.poison ++ (List.range ((n + 3) / 4)).map (fun i => a / 4 * 4 + 4 * i) })
  | .spare r => s.modRes r (fun x => { x with
      spoison := x.spoison ++ (List.range ((n + 3) / 4)).map (fun i => a / 4 * 4 + 4 * i) })
  | .ring r => s.modArr r (fun x => { x with
      ringPoison := x.ringPoison ++ (List.range ((n + 7) / 8)).map (fun i => a / 8 * 8 + 8 * i) })
  | .am r c => s.modArr r (fun x => { x with
      amPoison := alMod x.amPoison c [] (fun l => l ++ (List.range ((n + 3) / 4)).map (fun i => a / 4 * 4 + 4 * i)) })
  | .sram _ | .frame _ => s

/-! ### Where an address lies -/

/-- An array is live (Table 1.12: ARRLIVE reads all ones with no harvest). -/
def arrLive (s : State) (a : Nat) : Bool := (alGetD s.pkg.hv.arrays (a / 16) 0xFFFF).getLsbD (a % 16)

/-- The address a Marrow's access table sees (R42; log entry 21): 4 MiB of ring store, then 4 MiB of accumulator memory
for each array in turn. -/
def marrowAddr (arr : Nat) (isAm : Bool) (off : Nat) : Nat := arr % 16 * 2 ^ 23 + (if isAm then 2 ^ 22 else 0) + off

/-- Bytes in a slot. -/
def Ring.slotBytes (r : Ring) : Nat := (r.slsz + 1) * 64

/-- The ring a word names, which is valid and belongs to the launch (R193), or a bound fault. -/
def ringOf (quad k : Nat) (launch : Option Nat) (addr : Nat) : X Ring := do
  let s ← get
  let r := alGetD (s.quadD quad).rings k .empty
  if r.v && launch == some r.own then pure r else raise cBOUND 1 addr

/-- Scratchpad granules of a residency, on its core or saved (R103). -/
def State.spadGrans (s : State) (re : Res) : Nat :=
  if re.saved then (match s.launch? re.launch with | some l => l.sgran | none => 0) else re.sg.length
/-- Residency whose scratchpad holds a ring's data. -/
def ringRes (s : State) (quad : Nat) (r : Ring) : Option (Nat × Res) := s.resOn r.own (quad * 4 + r.qcore)

/-- A place with what a thread's access to it waits for: its residency and its offset there, for the scoreboard. -/
structure Place where
  st : Store
  a : Nat
  score : Option (Nat × Nat × Nat)
deriving DecidableEq, Repr

/-- An rng address of n bytes for a launch's access from a quad (R195). -/
def ringPlace (quad : Nat) (launch : Option Nat) (va n : Nat) : X Place := do
  let r ← ringOf quad (fld va 31 28) launch va
  let slot := fld va 27 16
  let off := fld va 15 0
  if slot > r.nslot ∨ off + n > r.slotBytes then raise cBOUND 1 va
  else
    let b := r.base * 64 + slot * r.slotBytes + off
    if r.store then pure ⟨.ring quad, b, none⟩
    else do
      let s ← get
      match ringRes s quad r with
      | none => raise cBOUND 1 va
      | some (rid, re) =>
        if re.saved then pure ⟨.spare rid, b, some (re.core, rid, b)⟩
        else pure ⟨.pool re.core, poolAt re.sg b, some (re.core, rid, b)⟩

/-- A scratchpad offset of a residency (R103). -/
def locPlace (rid : Nat) (off n addr : Nat) : X Place := do
  let s ← get
  match s.res? rid with
  | none => raise cBOUND 1 addr
  | some r =>
    if off + n > r.sg.length * Config.granBytes then raise cBOUND 1 addr
    else pure ⟨.pool r.core, poolAt r.sg off, some (r.core, rid, off)⟩

/-- Where a context's save slot of an array begins (R314). -/
def amSlot (c : Ctx) (arr : Nat) : Nat := c.sava + arr * 0x4A0000
/-- The requester of an array for a context. -/
def arrWho (arr ctx : Nat) : Who := ⟨arrMid arr, 8 + arr / 16, ctx, none, false, none⟩
/-- The owner's contents of an array's AM go to its save slot. -/
def State.amOut (s : State) (arr n : Nat) : State :=
  match (s.arrD arr).owner with
  | some o => (attempt (writeLines (arrWho arr o) (amSlot (s.ctxD o) arr) (n / 64 + 1) n (rdBytes (alGetD (s.arrD arr).am o []) 0 n)) s).1
  | none => s
/-- A context that has used the array before gets its contents back. -/
def State.amIn (s : State) (arr ctx n : Nat) : State :=
  match alGet (s.arrD arr).am ctx with
  | some _ =>
    match attempt (readLines (arrWho arr ctx) .read (amSlot (s.ctxD ctx) arr) (n / 64 + 1) n) s with
    | (s, some (v, _)) => s.modArr arr (fun a => { a with am := alSet a.am ctx (wrBytes [] 0 n v) })
    | (s, none) => s
  | none => s.modArr arr (fun a => { a with am := alSet a.am ctx [] })
/-- R237: an array's AM passes to a context. A save slot that cannot be reached leaves the contents as the array last held them
(log entry 27). -/
def State.amOwn (s : State) (arr ctx : Nat) : State :=
  if (s.arrD arr).owner = some ctx then s
  else ((s.amOut arr Config.arrBytes).amIn arr ctx Config.arrBytes).modArr arr (fun a => { a with owner := some ctx })
/-- An offset of accumulator memory (R100, R101). -/
def amPlace (quad ctx off n addr : Nat) : X Place := do
  let s ← get
  if !arrLive s quad ∨ off + n > Config.arrBytes then raise cBOUND 1 addr
  else do
    set (s.amOwn quad ctx)
    pure ⟨.am quad ctx, off, none⟩

/-- An offset of the frm space (R180). -/
def frmPlace (th : Thr) (off n : Nat) : X Place := do
  let s ← get
  let f := if off / 2 ^ 31 = 1 then th.id.parent else th.frame
  let o := off % 2 ^ 31
  match f with
  | none => raise cBOUND 1 off
  | some f =>
    if o + n > 256 ∨ (alGet s.frames f).isNone then raise cBOUND 1 off else pure ⟨.frame f, o, none⟩

/-- Where a loc, rng, am or frm address of the thread at issue lies. -/
def curPlace (sp : Space) (va n : Nat) : X Place := do
  let s ← get
  let core := s.curCore
  match sp with
  | .loc =>
    if isChard core then locPlace s.curGrp.res va n va
    else if va + n > Config.sramBytes then raise cBOUND 1 va else pure ⟨.sram core, va, none⟩
  | .rng => ringPlace (coreQuad core) s.cur.id.launch va n
  | .am => amPlace (coreQuad core) s.cur.id.ctx va n va
  | .frm => frmPlace s.cur va n
  | _ => operand

/-! ### The range scoreboard (R114) -/

/-- Ranges of a residency widened to 64 bytes that overlap [off, off + n): any In range, or for a store any. -/
def scoreHits (c : Core) (rid off n : Nat) (load : Bool) : Bool :=
  c.score.any (fun e => e.res == rid && (e.inDir || !load) && decide (e.lo < off + n) && decide (off < e.hi))

/-- A thread's access waits for every entry it overlaps. -/
def waitScore (p : Place) (n : Nat) (load : Bool) : X Unit := do
  match p.score with
  | none => pure ()
  | some (core, rid, off) => do
    let s ← get
    if scoreHits (s.coreD core) rid off n load then stallX else pure ()

/-- A request to an array crosses the bridge of its tile: Marrow's table allows it (R42), and it waits for good behind a fenced bridge
(R18). -/
def crossBridge (who : Who) (arr : Nat) (cls : ReqClass) (addr : Nat) : X Unit := do
  allow who (arrMid arr) cls addr
  let s ← get
  if s.pkg.fenced.contains (16 + arr / 16) then stallX else pure ()
/-- An access to ring store or accumulator memory crosses the bridge. -/
def allowMarrow (who : Who) (cls : ReqClass) (p : Place) : X Unit :=
  match p.st with
  | .ring r => crossBridge who r cls (marrowAddr r false p.a)
  | .am r _ => crossBridge who r cls (marrowAddr r true p.a)
  | _ => pure ()

/-! ### Loads, stores and read-modify-writes by space -/

/-- Spaces whose address is 64 bits (R100). -/
def wideSpace : Space → Bool
  | .glb | .cst | .stk | .img => true
  | .loc | .rng | .am | .frm => false

/-- The address as its space takes it. -/
def spaceAddr (sp : Space) (a : DWord) : Nat := if wideSpace sp then a.toNat else a.toNat % 2 ^ 32

/-- A glb address of the part: canonical (R100), then a multiple of n (R101). -/
def alignX (va n : Nat) : X Unit :=
  if va ≥ 2 ^ 55 then raise cXLATE 1 va else if va % n ≠ 0 then raise cALIGN 0 va else pure ()

/-- A canonical address (R100), natural alignment (R101), then the stack's bounds (R100). -/
def checkAccess (sp : Space) (va n : Nat) : X Unit := do
  if wideSpace sp ∧ va ≥ 2 ^ 55 then raise cXLATE 1 va
  else if va % n ≠ 0 then raise cALIGN 0 va
  else match sp with
    | .stk => do
      let s ← get
      if s.cur.stkl.toNat ≤ va ∧ va + n ≤ s.cur.stkb.toNat then pure () else raise cSTACK 0 va
    | _ => pure ()

/-- A load of n bytes: value and poison. -/
def spaceLoad (sp : Space) (va n : Nat) : X (Nat × Bool) := do
  checkAccess sp va n
  match sp with
  | .glb | .cst | .stk => do
    let s ← get
    loadV s.curWho .read va n
  | _ => do
    let p ← curPlace sp va n
    waitScore p n true
    let s ← get
    allowMarrow s.curWho .read p
    let s ← get
    pure (p.st.read s p.a n, p.st.poisoned s p.a n)

/-- A store of n bytes. -/
def spaceStore (sp : Space) (va n v : Nat) : X Unit := do
  checkAccess sp va n
  match sp with
  | .glb | .stk => do
    let s ← get
    storeV s.curWho va n v
  | .cst | .img => operand
  | _ => do
    let p ← curPlace sp va n
    waitScore p n false
    let s ← get
    allowMarrow s.curWho .write p
    modify (fun s => p.st.write s p.a n (v % 256 ^ n))

/-- An indivisible read-modify-write of n bytes: old value and poison; a poisoned location is unchanged. -/
def spaceAtom (sp : Space) (va n : Nat) (f : Nat → Nat) : X (Nat × Bool) := do
  checkAccess sp va n
  match sp with
  | .glb | .stk => do
    let s ← get
    atomV s.curWho va n f
  | .cst | .img => operand
  | _ => do
    let p ← curPlace sp va n
    waitScore p n false
    let s ← get
    allowMarrow s.curWho .atomic p
    let s ← get
    if p.st.poisoned s p.a n then pure (0, true)
    else do
      let old := p.st.read s p.a n
      set (p.st.write s p.a n (f old % 256 ^ n))
      pure (old, false)

/-! ### Stream records (R206) -/

/-- Word i of a stream record. -/
def srW (r : BitVec 256) (i : Nat) : DWord := BitVec.ofNat 64 (r.toNat / 2 ^ (64 * i))
def srBase (r : BitVec 256) : Nat := bits (srW r 0) 54 0
def srStride (r : BitVec 256) : Int := sx 32 (bits (srW r 1) 31 0)
def srTstride (r : BitVec 256) : Int := sx 32 (bits (srW r 1) 63 32)
def srCount (r : BitVec 256) : Nat := (srW r 2).toNat
def srSp (r : BitVec 256) : Nat := bits (srW r 3) 63 61
def srEsz (r : BitVec 256) : Nat := bits (srW r 3) 60 58
def srIx (r : BitVec 256) : Bool := tbit (srW r 3) 57
def srIxr (r : BitVec 256) : Nat := bits (srW r 3) 56 51
/-- A record keeps the rules of Table 8.3. -/
def srOk (r : BitVec 256) : Bool :=
  bits (srW r 0) 63 55 == 0 && decide (srCount r ≥ 1) && [0, 1, 2, 4].contains (srSp r) && decide (srEsz r ≤ 3) &&
    (srIx r || srIxr r == 0) && bits (srW r 3) 50 0 == 0 && (!([1, 2].contains (srSp r)) || bits (srW r 0) 54 32 == 0)
/-- The space a record names. -/
def srSpace (r : BitVec 256) : Space :=
  match srSp r with
  | 0 => .glb
  | 1 => .loc
  | 2 => .rng
  | _ => .cst

/-- One element at an unbounded address: outside its space's numbers it takes the space's fault (R208). -/
def loadElem (r : BitVec 256) (a : Int) : X (Nat × Bool) :=
  let n := 2 ^ srEsz r
  let wide := wideSpace (srSpace r)
  let lim : Int := if wide then 2 ^ 64 else 2 ^ 32
  if a < 0 ∨ a ≥ lim then
    (if wide then raise cXLATE 1 (modW 64 a) else raise cBOUND 1 (modW 64 a))
  else spaceLoad (srSpace r) a.toNat n

/-- Raises POISON where a value read is poisoned. -/
def needClean (addr : Nat) (v : Nat × Bool) : X Nat := if v.2 then raise cPOISON 0 addr else pure v.1

/-- Element i of a record for a thread (R208); an index record holds b32 or b64 elements without an index. -/
def streamElem (recs : AL (BitVec 256)) (r : BitVec 256) (tid i : Nat) : X Nat := do
  if i ≥ srCount r then raise cBOUND 1 0
  else do
    let a : Int ← (if srIx r then do
        let ix := alGetD recs (srIxr r) 0
        if srIx ix ∨ srEsz ix < 2 then operand
        else if i ≥ srCount ix then raise cBOUND 1 0
        else do
          let xa : Int := (srBase ix : Int) + tid * srTstride ix + i * srStride ix
          let x ← loadElem ix xa
          let x ← needClean (modW 64 xa) x
          pure ((srBase r : Int) + x * srStride r)
      else pure ((srBase r : Int) + tid * srTstride r + i * srStride r))
    let v ← loadElem r a
    needClean (modW 64 a) v

/-- TID of a thread in its group. -/
def Thr.tid (t : Thr) : Nat := match t.loc with | .grp _ tid => tid | _ => 0

/-- The stream records of the residency at issue. -/
def State.curRecs (s : State) : AL (BitVec 256) := match s.res? s.curGrp.res with | some r => r.srec | none => []

/-- Pops head k for the thread at issue (R172, R208); an unbound head is an illegal operand. -/
def popHead (k : Nat) : X DWord := do
  let s ← get
  match alGet s.curGrp.heads k with
  | none => operand
  | some ri => do
    let r := alGetD s.curRecs ri 0
    let th := s.cur
    let pos := match alGet th.spos k with | some (r', p) => if r' = ri then p else 0 | none => 0
    let v ← streamElem s.curRecs r th.tid pos
    modify (fun s => s.modCur (fun th => { th with spos := alSet th.spos k (ri, pos + 1) }))
    pure (dw v)

end Sys2Proof.Machine
end

