-- ==== Sys2Proof/Machine/Ops.lean ====
section
/-! DEFINITION. The operations every meaning shares: evaluating a guard, issuing a word for the thread at hand, pushing
results, abandoning a run (R167), taking a thread fault (R296 to R309) and returning from its handler (R307). -/
namespace Sys2Proof.Machine

/-! ### Leaving a run -/

/-- Pops every entry at the top whose threads all stand at its PC or have left (R169). -/
def popRej (s : State) (g : Grp) : List (Nat × List Nat) → List (Nat × List Nat)
  | [] => []
  | (p, m) :: r =>
    if m.all (fun tid => match alGet g.mem tid with
      | none => true
      | some t => match s.thr? t with | some th => decide (th.pc = p) | none => true)
    then popRej s g r else (p, m) :: r

/-- Undoes a thread's run-scoped state and takes it out of its run (R167); a fill whose fault was held is tried again. -/
def State.abandon (s : State) (t : Nat) : State :=
  match s.thr? t with
  | none => s
  | some th =>
    let s := s.modThr t (fun th => { th with
      p := th.rt.chk, spos := th.rt.spos0, rt := .empty, waits := []
      link := th.link.map (fun m => { m with held := none }) })
    match th.loc with
    | .grp g tid =>
      match s.grp? g with
      | none => s
      | some gr => s.modLane gr.lane (fun l => { l with
          run := l.run.map (fun r => if r.grp = g then r.without tid else r) })
    | _ => s

/-- Lane, group and TID of a thread. -/
def State.seatOf (s : State) (t : Nat) : Nat × Grp × Nat :=
  match s.thr? t with
  | none => (0, .absent, 0)
  | some th => match th.loc with
    | .grp g tid => match s.grp? g with | some gr => (gr.lane, gr, tid) | none => (0, .absent, tid)
    | .filing l => (l, .absent, 0)
    | _ => (0, .absent, 0)

/-- The thread stands on a frozen core: what it does gives no edge until the core is thawed (R151). -/
def State.frozenThr (s : State) (t : Nat) : Bool := s.isFrozen (coreMid (laneCore (s.seatOf t).1))

/-! ### Latent errors (R123, R124) -/

/-- A latent-error record (Table 5.5). -/
def State.latentRec (s : State) (kind ctx die core slot reg gran word : Nat) : State :=
  let r := kind * 2 ^ 60 + ctx * 2 ^ 54 + die * 2 ^ 48 + core * 2 ^ 42 + slot * 2 ^ 30 + reg * 2 ^ 24 + gran * 2 ^ 18 + word * 2 ^ 2
  { s with sys := { s.sys with latent := s.sys.latent.push 128 (BitVec.ofNat 128 r) } }
/-- The record of a register of a thread slot: where in the residency's register granules it lies is not given, and so free (log entry
82). -/
def State.latentReg (s : State) (ctx lane slot reg : Nat) (rg : List Nat) : State :=
  let core := laneCore lane
  let (g, s) := s.newFree
  let (w, s) := s.newFree
  s.latentRec 1 ctx (coreDie core) (core % 64) (lane % 32 * 128 + slot) reg
    (if rg.isEmpty then g.toNat % 64 else rg.getD (g.toNat % rg.length) 0) (w.toNat % 4096)
/-- Register granules of a thread's residency. -/
def State.regGrans (s : State) (t : Nat) : List Nat :=
  match (s.resOfThr t).bind s.res? with
  | some r => r.rg
  | none => []
/-- Errors in a thread's registers that no instruction of its run has consumed get their records (R123). -/
def State.tellRegs (s : State) (lane t : Nat) : State :=
  match s.thr? t with
  | none => s
  | some th =>
    match (List.range 32).filter (fun i => (th.reg i).uncorr && !(th.reg i).told) with
    | [] => s
    | is => (is.foldl (fun s i => s.latentReg th.id.ctx lane th.slot i (s.regGrans t)) s).modThr t (fun th => { th with
        regs := th.regs.map (fun r => if r.uncorr then { r with told := true } else r) })

/-! ### Where a thread ends -/

/-- The report of a Root stop (R27). -/
def State.rootReport (s : State) (core : Nat) : State := s.errReport (core - 544) 6 0 (coreMid core) 0 0xFF
/-- Stops the Root engine of a lane with a state (Table 1.8); a fault or a STOP is reported (R27). -/
def State.stopRoot (s : State) (t : Nat) (core : Nat) (st : RootSt) (cls pc : Nat) : State :=
  let s := (s.drainCore core).leaveGrp t
  let s := { s with thrs := alDel s.thrs t }
  let s := s.modStack (core - 544) (fun k => { k with root := st, cls := cls, pcOff := pc, stopReq := false })
  if st == .fault || st == .stopped then s.rootReport core else s

/-- A thread ends as EXIT ends it (R176, R183, R296): an item that still publishes waits for its pending registers, children outstanding
park it until the last of them ends. On a frozen core it ends once the core is thawed (R151; log entry 106). -/
def State.endOrPark (s : State) (lane t : Nat) : State :=
  match s.thr? t with
  | none => s
  | some th =>
    if s.frozenThr t || (th.id.item && !th.pubd && th.hasPending) then
      s.modThr t (fun th => { th with svc := none, waits := [⟨0, 0, th.pc, .gone [] .exit th.pc⟩] })
    else if s.children th > 0 then ((s.publish t).modThr t (fun th => { th with svc := none })).park lane t true
    else s.endAt lane t

/-! ### Faults (chapter 12) -/

/-- Classes whose resume point is the region entry (Table 12.1). -/
def regionClass (cls : Nat) : Bool := decide (cls ≠ cMATRIX) && decide (cls ≠ cTRAP)

/-- Number of a core within its die, as a fault record names it. -/
def coreNo (core : Nat) : Nat := if core < 512 then core % 64 else if core < 544 then core - 512 else 0

/-- Words F0 to F7 of a thread's fault record (Table 12.3), from the thread as the fault leaves it. -/
def faultWords (lane : Nat) (g : Grp) (tid : Nat) (th : Thr) (f : FaultInfo) (pc resume fseq : Nat) (svc term dbl : Bool) :
    List Nat :=
  let core := laneCore lane
  let b (x : Bool) (k : Nat) : Nat := if x then 2 ^ k else 0
  let f0 := f.cls * 2 ^ 58 + f.cause * 2 ^ 54 + b svc 53 + b term 52 + b dbl 51 + th.id.ctx * 2 ^ 45 +
    coreDie core * 2 ^ 39 + coreNo core * 2 ^ 33 + (if isChard core then lane % 32 else 0) * 2 ^ 28 + th.slot * 2 ^ 21 +
    f.word * 2 ^ 16 + fseq
  [f0, th.id.iid.toNat, pc, resume, f.addr.toNat, th.rgnc.toNat * 2 ^ 32 + g.no.toNat,
    f.instr.toNat * 2 ^ 32 + tid * 2 ^ 24 + th.p.toNat * 2 ^ 17, (th.val 1).toNat * 2 ^ 32 + (th.val 0).toNat]

/-- The requester of a thread's fault record: its own translation, straight to the home (R298). -/
def recWho (s : State) (core ctx : Nat) : Who := { (s.who core ctx) with core := none }

/-- Appends a notice to the 1,024-entry service queue, or leaves it waiting while the queue is full (R302; log entry 18). None crosses a
fenced link (R18). -/
def State.notice (s : State) (core ctx idx : Nat) : State :=
  if isChard core && s.pkg.fenced.contains (24 + coreTile core) then s else
  let w := dw (coreMid core * 2 ^ 48 + ctx * 2 ^ 42 + idx)
  let y := s.sys
  let t := (y.svcTail + 1) % 1024
  if y.svcFull then { s with sys := { y with svcWait := y.svcWait ++ [w] } }
  else { s with sys := { y with notices := alSet y.notices y.svcTail w, svcTail := t, svcFull := t == y.svcHead % 1024 } }

/-- R306: the fault is delivered to the handler of the residency. -/
def Thr.deliver (th : Thr) (recVa trapv : Nat) : Thr :=
  let th := (th.setReg 0 (w32 recVa)).setReg 1 (w32 (recVa / 2 ^ 32))
  { (th.enter trapv) with inTrap := true, dblFetch := true, pc := trapv, svc := .none }

/-- R309: once every residency of the other contexts on the core is saved, the core freezes, a machine check is recorded and the faulting
context is destroyed, for each double fault that waits. -/
def State.endDouble (s : State) (core : Nat) : State :=
  let ds := (s.coreD core).dbl
  if ds.isEmpty || s.ress.any (fun r => r.2.core == core && !r.2.saved && !ds.any (·.1 == r.2.ctx)) then s
  else ds.foldl (fun s d => (s.machineCheck 1 (coreMid core) d.1 d.2.2).destroyCtx d.1 (d.2.1.map (fun k => (k, some d.2.2))))
    ((s.modCore core (fun c => { c with dbl := [] })).freezeMaster (coreMid core))
/-- R309: the residencies of other contexts on the core are to be saved, each as its save falls due (R310; log entry 95); no run starts
there meanwhile. -/
def State.doubleFault (s : State) (core ctx : Nat) (l : Option Nat) (recVa : Nat) : State :=
  let s := (s.ress.filter (fun r => r.2.core == core && r.2.ctx != ctx && !r.2.saved)).foldl
    (fun s r => s.modRes r.1 (fun x => { x with saving := true })) s
  (s.modCore core (fun c => { c with dbl := c.dbl ++ [(ctx, l, recVa)] })).endDouble core

/-- Which outcome R296 gives a fault of a thread: serviced, delivered (else terminated), and whether it is a fault on the
handler's first fetch (R308). A thread restarted 64 times in a row is terminated (R301), as a fault of IRET's read does (R307). -/
def faultRoute (s : State) (g : Grp) (th : Thr) (f : FaultInfo) : Bool × Bool × Bool :=
  let dbl := th.dblFetch && [cALIGN, cXLATE, cPOISON].contains f.cls
  let force := decide (th.restarts ≥ 64) || f.fatal
  let svc := !force && !dbl && decide (1 ≤ f.cls) && decide (f.cls ≤ 11) && (s.ctxD th.id.ctx).route.testBit f.cls
  let hand := !force && !svc && !dbl && decide (g.trapv ≠ 0) && !th.inTrap
  (svc, hand, dbl)

/-- Terminates a thread by a fault with its record: it ends as at EXIT (R296 step 3, R70). -/
def State.terminate (s : State) (lane t : Nat) (recVa : Option Nat) : State :=
  match s.thr? t with
  | none => s
  | some th => (s.launchFault th.id.launch recVa).endOrPark lane t

/-- A delivery is the target of the edge from its record (R133, R136). -/
def State.handTo (s : State) (t core ctx recVa trapv : Nat) : State :=
  (s.invalidate core ctx).modThr t (fun th => th.deliver recVa trapv)
/-- Writes a fault's record and gives the fault its outcome; a full area leaves the thread waiting with its core stalled
(R298), as n0 or n1 still pending does, since the record holds them as they stand at the resume point (log entry 97); a record that
cannot be written is a double fault, which leaves the thread where it is. -/
def State.settleFault (s : State) (t fseq : Nat) (f : FaultInfo) (pc resume : Nat) : State :=
  match s.thr? t with
  | none => s
  | some th =>
    let (lane, g, tid) := s.seatOf t
    let core := laneCore lane
    let (svc, hand, dbl) := faultRoute s g th f
    let term := !svc && !hand
    let ws := faultWords lane g tid th f pc resume fseq svc term dbl
    if (th.reg 0).pend.isSome || (th.reg 1).pend.isSome then
      s.modThr t (fun th => { th with svc := some ⟨core, fseq, 0, f, resume, .noRoom, svc, pc⟩ })
    else match putRecord (recWho s core th.id.ctx) (s.ctxD th.id.ctx).flta ws s with
    | (s, .full) => s.modThr t (fun th => { th with svc := some ⟨core, fseq, 0, f, resume, .noRoom, svc, pc⟩ })
    | (s, .bad (some va)) => (s.modThr t (fun th => { th with svc := none })).doubleFault core th.id.ctx th.id.launch va
    | (s, .bad none) =>
      let (v, s) := s.newFree
      (s.modThr t (fun th => { th with svc := none })).doubleFault core th.id.ctx th.id.launch v.toNat
    | (s, .at_ va idx) =>
      let s := (s.drainCore core).modThr t (fun th => { th with svc := none })
      if dbl then s.doubleFault core th.id.ctx th.id.launch va
      else if svc then
        (s.notice core th.id.ctx idx).modThr t (fun th => { th with svc := some ⟨core, fseq, va, f, resume, .written, true, pc⟩ })
      else if hand then s.handTo t core th.id.ctx va g.trapv
      else s.terminate lane t (some va)

/-- No run is in flight on a core. -/
def coreQuiet (s : State) (core : Nat) : Bool := s.lanes.all (fun l => laneCore l.1 != core || l.2.run.isNone)
/-- A fault that is held is due: the run that raised it is over, and of a serviced one no run is in flight on the core (R296, R302). -/
def State.faultDue (s : State) (t : Nat) : Bool :=
  match s.thr? t with
  | none => false
  | some th =>
    match th.svc, th.loc with
    | some v, .grp g _ =>
      match s.grp? g with
      | some gr => v.st == .held && gr.srun.isNone && !(s.laneD gr.lane).run.any (fun r => r.grp == g) &&
          (!v.svc || coreQuiet s v.core)
      | none => false
    | _, _ => false
/-- The thread's fault has no record yet. -/
def Thr.unrecorded (th : Thr) : Bool := th.svc.any (fun v => v.st != .written)
/-- Gives the faults of a group's threads, in ascending TID, their records and outcomes, as far as they are due and find room (R296). -/
def State.giveGroup (s : State) : List Nat → State
  | [] => s
  | t :: r =>
    match (s.thr? t).bind (·.svc) with
    | none => s.giveGroup r
    | some v =>
      if !s.faultDue t then s
      else
        let s := s.settleFault t v.fseq v.info v.pc v.resume
        if (s.thr? t).any Thr.unrecorded then s else s.giveGroup r
/-- The faults on a core that are due. -/
def State.giveFaults (s : State) (core : Nat) : State :=
  if s.thrs.any (fun t => t.2.unrecorded) then
    (s.grps.filter (fun g => laneCore g.2.lane == core)).foldl (fun s g =>
      s.giveGroup ((g.2.mem.map (·.2)).filter (fun t => (s.thr? t).any Thr.unrecorded))) s
  else s
/-- A lane's run is over: the faults it raised are given, then, at this boundary, its group takes the vector of its residency (R304), its
rejoin stack pops (R169), and the lane's exchange is due (R96). -/
def State.runOver (s : State) (lane g : Nat) : State :=
  let s := (s.modLane lane (fun l => { l with run := none, ended := some g })).giveFaults (laneCore lane)
  match s.grp? g with
  | none => s
  | some gr =>
    let tv := if isChard (laneCore lane) then (match s.res? gr.res with | some r => r.trapv | none => gr.trapv) else gr.trapv
    s.modGrp g (fun x => { x with trapv := tv, rejoin := popRej s gr gr.rejoin })
/-- The run of a lane whose set has emptied is over: nothing of the set is left to commit for (R167, R171). -/
def State.settle (s : State) (lane : Nat) : State :=
  match (s.laneD lane).run with
  | some r => if r.set.isEmpty then s.runOver lane r.grp else s
  | none => s

/-- TAKING A FAULT (R295 to R308): a thread's fault of Table 12.1, rpc being the first packet of the faulting run. A fault of a region-entry
class abandons the run (R167); MATRIX and TRAP come after the run's effects and resume at the next PC. The record and the outcome follow
once the run is over (R296). A Root engine stops with the class (R25); a control core without a context that holds a fault area stops (log
entry 22), frozen and with a machine check where the fault is a double one. -/
def State.takeFaultAt (s : State) (t : Nat) (f : FaultInfo) (rpc : Nat) : State :=
  match s.thr? t with
  | none => s
  | some th =>
    let (lane, g, _) := s.seatOf t
    let core := laneCore lane
    if isRoot core then s.stopRoot t core .fault f.cls (th.pc % 2 ^ 18)
    else
      let s := if regionClass f.cls then s.abandon t else s
      let fseq := (s.coreD core).fseq + 1
      let s := s.modCore core (fun c => { c with fseq := fseq })
      if isCtl core && (s.ctxD th.id.ctx).st == .free then
        let s := (s.modCtl (core - 512) (fun k => { k with st := .stopped })).settle lane
        if th.dblFetch then
          -- no context to destroy, and no record whose address the machine check could hold
          let (v, s) := s.newFree
          (s.freezeMaster (coreMid core)).machineCheck 1 (coreMid core) th.id.ctx v.toNat
        else s
      else
        let v : Svc := {
          core := core, fseq := fseq.toNat, recVa := 0, info := f, resume := if regionClass f.cls then th.rentry else th.pc, st := .held
          svc := (faultRoute s g th f).1, pc := rpc }
        ((s.modThr t (fun th => { th with svc := some v })).settle lane).giveFaults core

/-- A fault of the run the thread stands in. -/
def State.takeFault (s : State) (t : Nat) (f : FaultInfo) : State :=
  s.takeFaultAt t f ((s.thr? t).map (·.pc) |>.getD 0)

/-- The thread goes back to its region entry, which counts as a restart (R300, R301). -/
def Thr.restart (th : Thr) : Thr := { th with pc := th.rentry, restarts := th.restarts + 1 }
/-- A refusal by an access table (R43): the violation is recorded and the master frozen; the thread's run is abandoned and
it restarts at its region entry. A Root engine stops, and STATUS shows class 0 for a refusal (log entry 111). -/
def State.takeDeny (s : State) (t : Nat) (e : Exc) : State :=
  match s.thr? t with
  | none => applyDeny s e
  | some th =>
    let (lane, _, _) := s.seatOf t
    let core := laneCore lane
    if isRoot core then (applyDeny s e).stopRoot t core .fault 0 (th.pc % 2 ^ 18)
    else
      let s := (s.abandon t).modThr t Thr.restart
      (applyDeny s e).settle lane
/-- A control core's refused request gives nothing and its core stops at its next run boundary (R43): the word at hand comes to what stands
for it. -/
def onCtl {α : Type} (other x : X α) : X α := fun s =>
  match x s with
  | .error (.deny mid tgt cls addr why e) s' =>
    if isCtl s.curCore then other (applyDeny s' (.deny mid tgt cls addr why e)) else .error (.deny mid tgt cls addr why e) s'
  | r => r

/-! ### RETURNING FROM A HANDLER (R307) -/

/-- One word of a record as IRET reads it; a fault names the address accessed (R298). -/
def recWord (va : Nat) : X Nat := do
  alignX va 8
  let s ← get
  let v ← loadV s.curWho .read va 8
  needClean va v
/-- What IRET reads of a record: F3, F6 and F7. -/
def iretRead (va : Nat) : X (Nat × Nat × Nat) := do
  let a ← recWord (va + 24)
  let b ← recWord (va + 48)
  let c ← recWord (va + 56)
  pure (a, b, c)

/-- Leaves the handler: n0 and n1, p0 to p6 and the PC of the record, the in-trap bit clear, F3 the region entry. The reserved bits of F6
are ignored (log entry 110). -/
def Thr.leaveTrap (th : Thr) (r : Nat × Nat × Nat) : Thr :=
  let th := (th.setReg 0 (w32 r.2.2)).setReg 1 (w32 (r.2.2 / 2 ^ 32))
  let pc := r.1 % 2 ^ 55
  { (th.enter pc) with inTrap := false, p := BitVec.ofNat 7 (r.2.1 / 2 ^ 17), pc := pc }

/-! ### Issuing a word for the thread at hand -/

/-- The guard of a word for the thread at issue (R320). -/
def guardOf (g : Guard) (th : Thr) : Bool := th.pred g.p.val != g.neg

/-- Pushes an entry for the thread at issue (R160). -/
def pushEnt (e : QEnt) : X Unit := modify (fun s => s.modCur (fun th => th.push e))
/-- Pushes a 64-bit result. -/
def push64 (v : DWord) : X Unit := pushEnt ⟨v, .full⟩
/-- Pushes a 32-bit result: bits [63:32] are zero. -/
def push32 (v : Word) : X Unit := pushEnt ⟨dw v.toNat, .full⟩
/-- Pushes n entries that are not written (R161). -/
def pushNot : Nat → X Unit
  | 0 => pure ()
  | n + 1 => do
    pushEnt ⟨0, .notWritten⟩
    pushNot n

/-- Gathers flags for run end (R245). -/
def raiseFlags (f : Word) : X Unit :=
  if f = 0 then pure ()
  else modify (fun s => s.modCur (fun th => { th with rt := { th.rt with flags := th.rt.flags ||| f } }))

/-- Draws for one SR rounding on the run's copy of SRS; no other mode advances it (R247). -/
def drawSR (rm : RM) : X Nat := do
  if rm = .sr then do
    let s ← get
    let (z, u) := srNext s.cur.rt.srs
    modify (fun s => s.modCur (fun th => { th with rt := { th.rt with srs := z } }))
    pure u
  else pure 0

/-- What one word comes to: its effects, a stall of the lane with nothing done (R166), a fault taken (in a chain it waits
for the chain's end, R325), a refusal. -/
def applyX (x : X Unit) (s : State) : State :=
  match x s with
  | .ok _ s' => s'
  | .error .stall _ => { s with iss := { s.iss with stalled := true } }
  | .error .noBin _ =>
    let s := s.makeRoom s.curCore
    { s with iss := { s.iss with stalled := true, noBin := true } }
  | .error (.fault f) s' =>
    if s.iss.chained then { s' with iss := { s'.iss with faulted := some f } } else s'.takeFault s.iss.thr f
  | .error (.deny mid tgt cls addr why e) s' => s'.takeDeny s.iss.thr (.deny mid tgt cls addr why e)

/-- A step's outcome. -/
abbrev Out := Host.Outcome State Fault Refusal

/-- Pushes n entries that nothing constrains. -/
def pushFree : Nat → X Unit
  | 0 => pure ()
  | n + 1 => do
    let v ← freeX
    push64 v
    pushFree n
/-- A word with a guard that pushes n entries: a false guard pushes them unwritten and does nothing else (R161). A refused request of a
control core pushes free values in their place (R43; log entry 51). -/
def runWord (g : Guard) (n : Nat) (x : X Unit) (s : State) : Out :=
  .next (applyX (if guardOf g s.cur then onCtl (pushFree n) x else pushNot n) s)

end Sys2Proof.Machine
end

