-- ==== Sys2Proof/Machine/Operands.lean ====
section
/-! DEFINITION. Source operands in every form (R323, R326), forwarded operands (R175), and results with and without a
narrowing prefix (R254, R255, R344). -/
namespace Sys2Proof.Machine

/-! ### Registers, entries, uniform registers, literals -/

/-- The register is mapped by MAPL (R173). -/
def LinkMap.has (m : LinkMap) (i : Nat) : Bool := decide (m.first ≤ i) && decide (i < m.first + m.count)

/-- A named register as a source: it stalls while pending, faults when poisoned (R165) or in error (R123), and a mapped
register takes the fault held for it (R210) and is emptied at run end (R173). -/
def readReg (i : Nat) : X Word := do
  let s ← get
  let th := s.cur
  let r := th.reg i
  if r.pend.isSome then stallX
  else if r.uncorr then raise cREGUE 0
  else if r.poison then raise cPOISON 0
  else match th.link with
    | none => pure r.v
    | some m =>
      if m.has i then
        match m.held with
        | some (js, f) =>
          if js.contains i then raise f.cls f.cause f.addr.toNat
          else do
            modify (fun s => s.modCur (fun th => { th with rt := { th.rt with linkRead := th.rt.linkRead ++ [i] } }))
            pure r.v
        | none => do
          modify (fun s => s.modCur (fun th => { th with rt := { th.rt with linkRead := th.rt.linkRead ++ [i] } }))
          pure r.v
      else pure r.v

/-- The entry of age k + 1 as it stood before the chain (R160): it stalls while pending, faults when poisoned. -/
def readQ (k : Nat) : X DWord := do
  let s ← get
  match s.iss.q0[k]? with
  | none => operand
  | some e =>
    match e.st with
    | .full => pure e.v
    | .notWritten => pure 0
    | .pending _ => stallX
    | .poison => raise cPOISON 0

/-- Uniform register i of the group (R170). -/
def Grp.uni (g : Grp) (i : Nat) : Word := g.g.getD i 0

/-- The next literal word of the word at hand (R324). -/
def readLit : X Word := do
  let s ← get
  match s.iss.lits with
  | [] => operand
  | w :: r => do
    set { s with iss := { s.iss with lits := r } }
    pure w

/-- A 32-bit source (Table 13.4). -/
def src32 : Src → X Word
  | .n i => readReg i.val
  | .q k => do
    let v ← readQ k.val
    pure (lo32 v)
  | .gw i => do
    let s ← get
    pure (s.curGrp.uni (s.curGrp.ub + i.val))
  | .zero => pure 0
  | .lit => readLit
  | .tid => do
    let s ← get
    pure (w32 s.cur.tid)
  | .iid => do
    let s ← get
    pure (lo32 s.cur.id.iid)
  | .h i => do
    let v ← popHead i.val
    pure (lo32 v)

/-- A 64-bit source (Table 13.4). -/
def src64 : Src → X DWord
  | .n i => do
    if i.val % 2 = 1 then operand
    else do
      let a ← readReg i.val
      let b ← readReg (i.val + 1)
      pure (pair a b)
  | .q k => readQ k.val
  | .gw i => do
    let s ← get
    let j := s.curGrp.ub + i.val
    if j % 2 = 1 then operand else pure (pair (s.curGrp.uni j) (s.curGrp.uni (j + 1)))
  | .zero => pure 0
  | .lit => do
    let a ← readLit
    let b ← readLit
    pure (pair a b)
  | .tid => do
    let s ← get
    pure (dw s.cur.tid)
  | .iid => do
    let s ← get
    pure s.cur.id.iid
  | .h i => popHead i.val

/-! ### Subfield selections (R326, R254) -/

/-- Bits of a subfield width. -/
def subBits : SubW → Nat
  | .by => 8
  | .sx => 6
  | .nb => 4

/-- Entry k of the format table in a context (R248, R249). -/
def ftOf (c : Ctx) (k : Nat) : NFmt := if k < 8 then fixedFmt k else progFmt (c.ft.getD (k - 8) 0)

/-- The selection an NS prefix makes for source field i, if it selects a subfield. -/
def selFor (ns : Option NsP) (i : Nat) : Option (SubW × Nat) :=
  match ns with
  | none => none
  | some p =>
    match (if i = 0 then p.a else if i = 1 then p.b else p.d) with
    | .whole _ => none
    | .sub w k => some (w, k.val)

/-- Field i as a 32-bit integer source: whole, or a subfield zero- or sign-extended. -/
def srcI (i : Nat) (x : Src) : X Word := do
  let v ← src32 x
  let s ← get
  match selFor s.iss.ns i, s.iss.ns with
  | some (w, k), some p =>
    let f := v.toNat / 2 ^ (subBits w * k) % 2 ^ (subBits w)
    pure (if p.sx then BitVec.ofInt 32 (sx (subBits w) f) else w32 f)
  | _, _ => pure v

/-- Field i as an f32 source: whole, or a subfield decoded through the prefix's format and converted to f32 (R254). -/
def srcF (i : Nat) (x : Src) : X Word := do
  let v ← src32 x
  let s ← get
  match selFor s.iss.ns i, s.iss.ns with
  | some (w, k), some p =>
    let fm := ftOf (s.ctxD s.cur.id.ctx) p.ft
    match fm.dec (v.toNat / 2 ^ (subBits w * k) % 2 ^ (subBits w)) with
    | .nan _ => pure (w32 f32.dnan)
    | .inf n => pure (w32 (f32.infCode n))
    | .fin n m e => do
      let (c, fl) := f32.round .rne 0 n (Q.dy (if n then -(m : Int) else m) e)
      raiseFlags fl
      pure (w32 c)
  | _, _ => pure v

/-- A source of 32 or 64 bits as a number below 2^w; a selection applies to 32-bit sources. -/
def srcN (w64 : Bool) (i : Nat) (x : Src) : X Nat := do
  if w64 then do
    let v ← src64 x
    pure v.toNat
  else do
    let v ← srcI i x
    pure v.toNat

/-- Pushes a result of 32 or 64 bits. -/
def pushN (w64 : Bool) (v : Nat) : X Unit := if w64 then push64 (dw v) else push32 (w32 v)

/-! ### Narrow results (R255, R344) -/

/-- A value that a narrowing conversion takes: a special or exact value, the sign of its zero, flags already raised. -/
structure NVal where
  v : Sum FV Q
  zneg : Bool
  fl : Word

/-- An integer target (R255): NaN gives 0, an infinity the nearer limit, out of range wraps or saturates. -/
def narrowInt (w : Nat) (sgn sat : Bool) (rm : RM) (u : Nat) (v : Sum FV Q) : Nat × Word :=
  let lo : Int := if sgn then -(2 ^ (w - 1)) else 0
  let hi : Int := if sgn then 2 ^ (w - 1) - 1 else 2 ^ w - 1
  let fin (x : Q) : Nat × Word :=
    let (y, ix) := roundInt rm u x
    if lo ≤ y ∧ y ≤ hi then (modW w y, flag ix fNX)
    else if sat then (modW w (satI y lo hi), fSATN ||| flag ix fNX)
    else (modW w y, flag ix fNX)
  match v with
  | .inl (.nan _) => (0, fIV)
  | .inl (.inf n) => (modW w (if n then lo else hi), fIV)
  | .inl (.fin n m e) => fin (Q.dy (if n then -(m : Int) else m) e)
  | .inr x => fin x

/-- The result with the code in the prefix's subfield and the bits of base elsewhere. -/
def placeSub (base : Word) (off w code : Nat) : Word :=
  let m := (2 ^ w - 1) * 2 ^ off
  w32 ((base.toNat &&& (2 ^ 32 - 1 - m)) ||| (code % 2 ^ w * 2 ^ off))

/-- Pushes a value narrowed by an ND prefix into one subfield of base (R344: rounded once). -/
def pushNarrow (nd : NdP) (base : Word) (v : NVal) : X Unit := do
  let s ← get
  let u ← drawSR nd.rm
  let off := subBits nd.w * nd.i
  let fm := ftOf (s.ctxD s.cur.id.ctx) nd.ft
  let (code, fl) := if nd.int then narrowInt (subBits nd.w) nd.sgn nd.sat nd.rm u v.v else fm.conv nd.rm u nd.sat v.v v.zneg
  raiseFlags (v.fl ||| fl)
  push32 (placeSub base off (if nd.int then subBits nd.w else fm.wid) code)

/-- Pushes an integer host's 32-bit result: through ND where one stands, from the exact value. -/
def pushIntNd (exact : Int) (plain : Word) : X Unit := do
  let s ← get
  match s.iss.nd with
  | some nd => pushNarrow nd 0 ⟨.inr (Q.ofInt exact), false, 0⟩
  | none => push32 plain

/-- The exact value of a sum of products before any rounding, as ND narrows it (R355, R344). -/
def fusedVal (rm : RM) (ts : List (FV × FV)) : NVal :=
  let iv := flag (ts.any (fun t => t.1.isSig || t.2.isSig)) fIV
  if ts.any (fun t => t.1.isNan || t.2.isNan) then ⟨.inl (.nan false), false, iv⟩
  else
    let infs := ts.filterMap (fun t => infTerm t.1 t.2)
    if ts.any (fun t => badProd t.1 t.2) || (infs.any id && infs.any (!·)) then ⟨.inl (.nan false), false, fIV⟩
    else match infs with
      | n :: _ => ⟨.inl (.inf n), false, 0⟩
      | [] =>
        let x := ts.foldl (fun acc t => acc.add (t.1.q.mul t.2.q)) ⟨0, 1⟩
        let prods := ts.map (fun t => FV.fin (t.1.neg != t.2.neg) (if t.1.isZero || t.2.isZero then 0 else 1) 0)
        ⟨.inr x, zeroSign rm prods, 0⟩

/-- Pushes a floating host's sum of products in format f, or narrowed through ND. -/
def pushFused (f : IFmt) (rm : RM) (ts : List (FV × FV)) : X Unit := do
  let s ← get
  match s.iss.nd with
  | some nd => pushNarrow nd 0 (fusedVal nd.rm ts)
  | none => do
    let u ← drawSR rm
    let (c, fl) := fusedSum f rm u ts
    raiseFlags fl
    pushN (decide (f.width = 64)) c

/-! ### Forwarded operands (R62, R175) -/

/-- The value n[-k] names for the thread at issue: the defaults table below BASEIDX, else the published value. -/
def readFwd (n k : Nat) : X Word := do
  let s ← get
  match s.cur.id.item, s.curLaunch with
  | true, some l =>
    let i := s.cur.id.iid.toNat
    if i < l.baseidx + k then
      pure ((l.dflt.getD []).getD (32 * (l.baseidx + k - i - 1) + n) 0)
    else match alGet l.pubs (i - k) with
      | some p => pure (alGetD p n 0)
      | none => stallX
  | _, _ => operand

/-! ### Results that arrive later (R165) -/

/-- Pushes pending entries, the first value first, that arrive together under the slot's tag (R153, R165). -/
def pushArrival (kind : Nat) (vs : List DWord) (poison : Bool) (score : List (Nat × Nat)) : X Unit := do
  let s ← get
  let id := s.fresh
  let th := s.cur
  set { s with
    fresh := id + vs.length + 1
    arrivals := s.arrivals ++ [(⟨id, s.iss.thr, s.iss.lane, th.slot, th.gen, kind, vs, poison, score⟩ : Arrival)] }
  forX (fun (k : Nat) => pushEnt ⟨0, .pending (id + k)⟩) (List.range vs.length)
/-- Pushes one pending entry. -/
def pushLate (v : DWord) (poison : Bool) : X Unit := pushArrival 0 [v] poison []

/-! ### Predicates -/

/-- Writes a predicate at issue (R163). -/
def writePred (i : Nat) (b : Bool) : X Unit := modify (fun s => s.modCur (fun th => { th with p := setPred th.p i b }))
/-- A predicate of the thread at issue. -/
def readPred (i : Nat) : X Bool := do
  let s ← get
  pure (s.cur.pred i)

/-! ### Once per set (R325, R370, R412) -/

/-- What a word that acts once for its set gives: the first thread at issue whose guard is true does it, the others take
its entries or, for a lone word, its fault (R325; log entry 23). -/
def onceVal (x : X (List QEnt)) : X (List QEnt) := do
  let s ← get
  let w := s.iss.word
  match s.curRun.bind (fun r => alGet r.once w) with
  | some (.done es) => pure es
  | some (.failed f) =>
    fun s => .error (.fault f) s
  | none =>
    fun s =>
      match x s with
      | .ok es s' => .ok es (s'.modRun (fun r => { r with once := alSet r.once w (.done es) }))
      | .error (.fault f) s' =>
        if s.iss.chained then .error (.fault f) s'
        else .error (.fault f) (s'.modRun (fun r => { r with once := alSet r.once w (.failed f) }))
      | .error e s' => .error e s'
/-- A word that acts once for its set and pushes its entries to every thread. -/
def onceX (x : X (List QEnt)) : X Unit := do
  let es ← onceVal x
  forX pushEnt es
/-- A word that acts once for its set and whose entry arrives later. -/
def onceLate (x : X DWord) : X Unit := do
  let es ← onceVal (do
    let v ← x
    pure [⟨v, .full⟩])
  forX (fun (e : QEnt) => pushLate e.v false) es

end Sys2Proof.Machine
end

