-- ==== Sys2Proof/Machine/Int.lean ====
section
/-! DEFINITION. The integer words: INT2, INT3, INTI, CMP and PRED (R345 to R351, R353). -/
namespace Sys2Proof.Machine

/-! ### The operations (R346 to R349) -/

/-- Width of a form. -/
def wid (w : Bool) : Nat := if w then 64 else 32
/-- A number below 2^w as the type reads it. -/
def asInt (w : Nat) (u : Bool) (x : Nat) : Int := if u then (x % 2 ^ w : Nat) else sx w x
/-- Limits of the type. -/
def minInt (w : Nat) (u : Bool) : Int := if u then 0 else -(2 ^ (w - 1))
def maxInt (w : Nat) (u : Bool) : Int := if u then 2 ^ w - 1 else 2 ^ (w - 1) - 1
/-- x mod 2^w, or saturated with SATN where that changes it (R346). -/
def satOr (w : Nat) (s u : Bool) (x : Int) : Nat × Word :=
  if s then
    let r := satI x (minInt w u) (maxInt w u)
    (modW w r, flag (decide (r ≠ x)) fSATN)
  else (modW w x, 0)
/-- DIV (R346). -/
def divI (w : Nat) (u : Bool) (a b : Nat) : Nat :=
  if b = 0 then 2 ^ w - 1 else modW w ((asInt w u a).tdiv (asInt w u b))
/-- REM (R346). -/
def remI (w : Nat) (u : Bool) (a b : Nat) : Nat :=
  if b = 0 then a else modW w ((asInt w u a).tmod (asInt w u b))
/-- MULH (R346): floor of the product over 2^w. -/
def mulhI (w : Nat) (u : Bool) (a b : Nat) : Nat := modW w ((asInt w u a * asInt w u b) / (2 ^ w : Int))
/-- MIN and MAX (R346). -/
def minI (w : Nat) (u : Bool) (a b : Nat) : Nat := if asInt w u a ≤ asInt w u b then a else b
def maxI (w : Nat) (u : Bool) (a b : Nat) : Nat := if asInt w u a ≥ asInt w u b then a else b
/-- NOT (R347). -/
def notI (w a : Nat) : Nat := 2 ^ w - 1 - a
/-- SHL, SHR, SAR, ROT (R347). -/
def shlI (w a s : Nat) : Nat := if s ≥ w then 0 else a * 2 ^ s % 2 ^ w
def shrI (w a s : Nat) : Nat := if s ≥ w then 0 else a / 2 ^ s
def sarI (w a s : Nat) : Nat := modW w (sx w a / (2 ^ min s w : Int))
def rotI (w a s : Nat) : Nat := (a * 2 ^ (s % w)) % 2 ^ w + a / 2 ^ (w - s % w)
/-- Leading zeros among the low w bits (R347). -/
def clzI (w a : Nat) : Nat := if a = 0 then w else w - 1 - Nat.log2 a
/-- Trailing zeros. -/
def ctzI : Nat → Nat → Nat
  | 0, _ => 0
  | w + 1, a => if a % 2 = 1 then 0 else 1 + ctzI w (a / 2)
/-- The w bits in reverse. -/
def brevI : Nat → Nat → Nat
  | 0, _ => 0
  | w + 1, a => a % 2 * 2 ^ w + brevI w (a / 2)
/-- BFX (R348). -/
def bfxI (x : Bool) (a ctl : Nat) : Nat :=
  let len := min (fld ctl 13 8) 32
  let f := a / 2 ^ fld ctl 4 0 % 2 ^ len
  if x && decide (len ≥ 1) then modW 32 (sx len f) else f
/-- Sum of the products of n fields of k bits (R348). -/
def dotI (k : Nat) (u : Bool) (a b : Nat) : Nat → Int
  | 0 => 0
  | n + 1 => asInt k u (a % 2 ^ k) * asInt k u (b % 2 ^ k) + dotI k u (a / 2 ^ k) (b / 2 ^ k) n
/-- BFI (R349). -/
def bfiI (a b ctl : Nat) : Nat :=
  let pos := fld ctl 4 0
  let m := ((2 ^ min (fld ctl 13 8) 32 - 1) * 2 ^ pos) % 2 ^ 32
  (a &&& (2 ^ 32 - 1 - m)) ||| ((b * 2 ^ pos) &&& m)
/-- One byte of PERM (R349). -/
def permByte (ab c i : Nat) : Nat :=
  let s := c / 2 ^ (4 * i) % 16
  let b := ab / 2 ^ (8 * (s % 8)) % 256
  if s ≥ 8 then (if b ≥ 128 then 255 else 0) else b
/-- PERM. -/
def permI (a b c : Nat) : Nat :=
  let ab := b * 2 ^ 32 + a
  permByte ab c 0 + permByte ab c 1 * 2 ^ 8 + permByte ab c 2 * 2 ^ 16 + permByte ab c 3 * 2 ^ 24
/-- A relation of CMP (R351). -/
def relI : Rel → Int → Int → Bool
  | .eq, a, b => decide (a = b)
  | .ne, a, b => decide (a ≠ b)
  | .lt, a, b => decide (a < b)
  | .le, a, b => decide (a ≤ b)
  | .gt, a, b => decide (a > b)
  | .ge, a, b => decide (a ≥ b)

/-! ### Shapes of words -/

/-- Two sources of the form's width, a result of it. -/
def intBin (w : Bool) (a b : Src) (f : Nat → Nat → Nat) : X Unit := do
  let x ← srcN w 0 a
  let y ← srcN w 1 b
  pushN w (f x y)
/-- As intBin, the result a long-latency entry (R341). -/
def intLate (w : Bool) (a b : Src) (f : Nat → Nat → Nat) : X Unit := do
  let x ← srcN w 0 a
  let y ← srcN w 1 b
  pushLate (dw (f x y)) false
/-- One source of the form's width. -/
def intUn (w : Bool) (a : Src) (f : Nat → Nat) : X Unit := do
  let x ← srcN w 0 a
  pushN w (f x)
/-- One source of the form's width, a 32-bit result. -/
def intUn32 (w : Bool) (a : Src) (f : Nat → Nat) : X Unit := do
  let x ← srcN w 0 a
  push32 (w32 (f x))
/-- A shift: the amount is a 32-bit source. -/
def intShift (w : Bool) (a b : Src) (f : Nat → Nat → Nat) : X Unit := do
  let x ← srcN w 0 a
  let y ← srcI 1 b
  pushN w (f x y.toNat)
/-- ADD and SUB with .sat, .u and ND. -/
def intSat (w s u : Bool) (a b : Src) (f : Int → Int → Int) : X Unit := do
  let x ← srcN w 0 a
  let y ← srcN w 1 b
  let e := f (asInt (wid w) u x) (asInt (wid w) u y)
  let (r, fl) := satOr (wid w) s u e
  raiseFlags fl
  if w then push64 (dw r) else pushIntNd e (w32 r)
/-- ABS and NEG. -/
def intSat1 (w s : Bool) (a : Src) (f : Int → Int) : X Unit := do
  let x ← srcN w 0 a
  let (r, fl) := satOr (wid w) s false (f (asInt (wid w) false x))
  raiseFlags fl
  pushN w r
/-- Three 32-bit sources, a 32-bit result. -/
def int3 (a b d : Src) (f : Nat → Nat → Nat → Nat) : X Unit := do
  let x ← srcI 0 a
  let y ← srcI 1 b
  let z ← srcI 2 d
  push32 (w32 (f x.toNat y.toNat z.toNat))
/-- An immediate form: b is the sign-extended immediate (R350). -/
def intImm (a : Src) (i : BitVec 12) (f : Nat → Nat → Nat) : X Unit := do
  let x ← srcI 0 a
  push32 (w32 (f x.toNat (i.signExtend 32).toNat))

/-! ### INT2 -/

/-- ADD (R346). -/
def execAdd (hd : Hd) (a b : Src) (w s u : Bool) (st : State) : Out := runWord hd.gd 1 (intSat w s u a b (· + ·)) st
/-- SUB. -/
def execSub (hd : Hd) (a b : Src) (w s u : Bool) (st : State) : Out := runWord hd.gd 1 (intSat w s u a b (· - ·)) st
/-- MUL: v is .w, the exact 64-bit product of 32-bit sources. -/
def execMul (hd : Hd) (a b : Src) (w v u : Bool) (st : State) : Out := runWord hd.gd 1 (do
  let x ← srcN w 0 a
  let y ← srcN w 1 b
  let e := asInt (wid w) u x * asInt (wid w) u y
  if v then push64 (dw (modW 64 e)) else if w then push64 (dw (modW 64 e)) else pushIntNd e (w32 (modW 32 e))) st
/-- MULH. -/
def execMulh (hd : Hd) (a b : Src) (w u : Bool) (st : State) : Out := runWord hd.gd 1 (intBin w a b (mulhI (wid w) u)) st
/-- DIV. -/
def execDiv (hd : Hd) (a b : Src) (w u : Bool) (st : State) : Out := runWord hd.gd 1 (intLate w a b (divI (wid w) u)) st
/-- REM. -/
def execRem (hd : Hd) (a b : Src) (w u : Bool) (st : State) : Out := runWord hd.gd 1 (intLate w a b (remI (wid w) u)) st
/-- MIN. -/
def execMin (hd : Hd) (a b : Src) (w u : Bool) (st : State) : Out := runWord hd.gd 1 (intBin w a b (minI (wid w) u)) st
/-- MAX. -/
def execMax (hd : Hd) (a b : Src) (w u : Bool) (st : State) : Out := runWord hd.gd 1 (intBin w a b (maxI (wid w) u)) st
/-- ABS. -/
def execAbs (hd : Hd) (a : Src) (w s : Bool) (st : State) : Out := runWord hd.gd 1 (intSat1 w s a (fun x => (x.natAbs : Int))) st
/-- NEG. -/
def execNeg (hd : Hd) (a : Src) (w s : Bool) (st : State) : Out := runWord hd.gd 1 (intSat1 w s a (fun x => -x)) st
/-- AND (R347). -/
def execAnd (hd : Hd) (a b : Src) (w : Bool) (st : State) : Out := runWord hd.gd 1 (intBin w a b (· &&& ·)) st
/-- OR. -/
def execOr (hd : Hd) (a b : Src) (w : Bool) (st : State) : Out := runWord hd.gd 1 (intBin w a b (· ||| ·)) st
/-- XOR. -/
def execXor (hd : Hd) (a b : Src) (w : Bool) (st : State) : Out := runWord hd.gd 1 (intBin w a b (· ^^^ ·)) st
/-- ANDN: a and (not b). -/
def execAndn (hd : Hd) (a b : Src) (w : Bool) (st : State) : Out :=
  runWord hd.gd 1 (intBin w a b (fun x y => x &&& notI (wid w) y)) st
/-- NOT. -/
def execNot (hd : Hd) (a : Src) (w : Bool) (st : State) : Out := runWord hd.gd 1 (intUn w a (notI (wid w))) st
/-- SHL. -/
def execShl (hd : Hd) (a b : Src) (w : Bool) (st : State) : Out := runWord hd.gd 1 (intShift w a b (shlI (wid w))) st
/-- SHR. -/
def execShr (hd : Hd) (a b : Src) (w : Bool) (st : State) : Out := runWord hd.gd 1 (intShift w a b (shrI (wid w))) st
/-- SAR. -/
def execSar (hd : Hd) (a b : Src) (w : Bool) (st : State) : Out := runWord hd.gd 1 (intShift w a b (sarI (wid w))) st
/-- ROT. -/
def execRot (hd : Hd) (a b : Src) (w : Bool) (st : State) : Out := runWord hd.gd 1 (intShift w a b (rotI (wid w))) st
/-- POPC. -/
def execPopc (hd : Hd) (a : Src) (w : Bool) (st : State) : Out := runWord hd.gd 1 (intUn32 w a (popN (wid w))) st
/-- CLZ. -/
def execClz (hd : Hd) (a : Src) (w : Bool) (st : State) : Out := runWord hd.gd 1 (intUn32 w a (clzI (wid w))) st
/-- CTZ. -/
def execCtz (hd : Hd) (a : Src) (w : Bool) (st : State) : Out := runWord hd.gd 1 (intUn32 w a (ctzI (wid w))) st
/-- BREV. -/
def execBrev (hd : Hd) (a : Src) (w : Bool) (st : State) : Out := runWord hd.gd 1 (intUn w a (brevI (wid w))) st
/-- MOV. -/
def execMov (hd : Hd) (a : Src) (w : Bool) (st : State) : Out := runWord hd.gd 1 (intUn w a id) st
/-- SEL (R347): both sources are read. -/
def execSel (hd : Hd) (a b : Src) (p : Fin 8) (st : State) : Out := runWord hd.gd 1 (do
  let x ← srcI 0 a
  let y ← srcI 1 b
  let c ← readPred p.val
  push32 (if c then x else y)) st
/-- SEL.64. -/
def execSel64 (hd : Hd) (a b : Src) (p : Fin 8) (st : State) : Out := runWord hd.gd 1 (do
  let x ← src64 a
  let y ← src64 b
  let c ← readPred p.val
  push64 (if c then x else y)) st
/-- BFX (R348). -/
def execBfx (hd : Hd) (a b : Src) (x : Bool) (st : State) : Out := runWord hd.gd 1 (intBin false a b (bfxI x)) st
/-- DOT4. -/
def execDot4 (hd : Hd) (a b : Src) (u : Bool) (st : State) : Out :=
  runWord hd.gd 1 (intBin false a b (fun x y => modW 32 (dotI 8 u x y 4))) st
/-- DOTN. -/
def execDotn (hd : Hd) (a b : Src) (u : Bool) (st : State) : Out :=
  runWord hd.gd 1 (intBin false a b (fun x y => modW 32 (dotI 4 u x y 8))) st
/-- UNPACKP: writes predicates, pushes nothing. -/
def execUnpackp (hd : Hd) (a b : Src) (st : State) : Out := runWord hd.gd 0 (do
  let x ← srcI 0 a
  let m ← srcI 1 b
  forX (fun i => writePred i (x.getLsbD i)) (bitList 7 m.toNat)) st

/-! ### INT3 (R349) -/

/-- MAD. -/
def execMad (hd : Hd) (a b d : Src) (st : State) : Out := runWord hd.gd 1 (int3 a b d (fun x y z => x * y + z)) st
/-- MADW: signed 32-bit a and b, 64-bit c. -/
def execMadw (hd : Hd) (a b d : Src) (st : State) : Out := runWord hd.gd 1 (do
  let x ← srcI 0 a
  let y ← srcI 1 b
  let z ← src64 d
  push64 (dw (modW 64 (x.toInt * y.toInt + z.toNat)))) st
/-- ADDC: carry in and out at bit 32. -/
def execAddc (hd : Hd) (a b d : Src) (st : State) : Out := runWord hd.gd 1 (do
  let x ← srcI 0 a
  let y ← srcI 1 b
  let z ← src64 d
  push64 (dw (x.toNat + y.toNat + z.toNat / 2 ^ 32 % 2))) st
/-- SUBB: borrow in and out at bit 32. -/
def execSubb (hd : Hd) (a b d : Src) (st : State) : Out := runWord hd.gd 1 (do
  let x ← srcI 0 a
  let y ← srcI 1 b
  let z ← src64 d
  let t : Int := (x.toNat : Int) - y.toNat - (z.toNat / 2 ^ 32 % 2 : Nat)
  push64 (dw (modW 32 t + (if t < 0 then 2 ^ 32 else 0)))) st
/-- SHF: funnel shift right. -/
def execShf (hd : Hd) (a b d : Src) (st : State) : Out :=
  runWord hd.gd 1 (int3 a b d (fun x y z => (y * 2 ^ 32 + x) / 2 ^ (z % 64))) st
/-- BFI. -/
def execBfi (hd : Hd) (a b d : Src) (st : State) : Out := runWord hd.gd 1 (int3 a b d bfiI) st
/-- PERM. -/
def execPerm (hd : Hd) (a b d : Src) (st : State) : Out := runWord hd.gd 1 (int3 a b d permI) st
/-- LEA: 64-bit a, signed b. -/
def execLea (hd : Hd) (a b d : Src) (st : State) : Out := runWord hd.gd 1 (do
  let x ← src64 a
  let y ← srcI 1 b
  let z ← srcI 2 d
  push64 (dw (modW 64 ((x.toNat : Int) + y.toInt * 2 ^ (z.toNat % 8))))) st

/-! ### INTI (R350) -/

/-- ADD with an immediate. -/
def execAddImm (hd : Hd) (a : Src) (i : BitVec 12) (st : State) : Out := runWord hd.gd 1 (intImm a i (· + ·)) st
/-- AND with an immediate. -/
def execAndImm (hd : Hd) (a : Src) (i : BitVec 12) (st : State) : Out := runWord hd.gd 1 (intImm a i (· &&& ·)) st
/-- OR with an immediate. -/
def execOrImm (hd : Hd) (a : Src) (i : BitVec 12) (st : State) : Out := runWord hd.gd 1 (intImm a i (· ||| ·)) st
/-- XOR with an immediate. -/
def execXorImm (hd : Hd) (a : Src) (i : BitVec 12) (st : State) : Out := runWord hd.gd 1 (intImm a i (· ^^^ ·)) st
/-- SHL with an immediate. -/
def execShlImm (hd : Hd) (a : Src) (i : BitVec 12) (st : State) : Out := runWord hd.gd 1 (intImm a i (shlI 32)) st
/-- SHR with an immediate. -/
def execShrImm (hd : Hd) (a : Src) (i : BitVec 12) (st : State) : Out := runWord hd.gd 1 (intImm a i (shrI 32)) st
/-- SAR with an immediate. -/
def execSarImm (hd : Hd) (a : Src) (i : BitVec 12) (st : State) : Out := runWord hd.gd 1 (intImm a i (sarI 32)) st
/-- MUL with an immediate. -/
def execMulImm (hd : Hd) (a : Src) (i : BitVec 12) (st : State) : Out := runWord hd.gd 1 (intImm a i (· * ·)) st

/-! ### CMP and PRED (R351, R353) -/

/-- Writes a relation's outcome, under .and with the predicate's own value; p7 ignores the write. -/
def putRel (p : Nat) (n t : Bool) : X Unit := do
  let o ← readPred p
  writePred p (if n then o && t else t)
/-- CMP: w is .64, n is .and. -/
def execCmp (hd : Hd) (a b : Src) (p : Fin 8) (r : Rel) (u w n : Bool) (st : State) : Out := runWord hd.gd 0 (do
  let x ← srcN w 0 a
  let y ← srcN w 1 b
  putRel p.val n (relI r (asInt (wid w) u x) (asInt (wid w) u y))) st
/-- PLOP: the truth table indexed by 4·pa + 2·pb + pd. -/
def execPlop (hd : Hd) (x y p : Fin 8) (t : BitVec 8) (st : State) : Out := runWord hd.gd 0 (do
  let a ← readPred x.val
  let b ← readPred y.val
  let d ← readPred p.val
  writePred p.val (t.getLsbD (4 * a.toNat + 2 * b.toNat + d.toNat))) st
/-- PACKP: p0 to p6 at issue. -/
def execPackp (hd : Hd) (st : State) : Out := runWord hd.gd 1 (do
  let s ← get
  push32 (w32 s.cur.p.toNat)) st

end Sys2Proof.Machine
end

