-- ==== Sys2Proof/Machine/MemOps.lean ====
section
/-! DEFINITION. Loads, stores, atomics, reductions, the tag table, stream and ring configuration, link mapping
(R374 to R387). -/
namespace Sys2Proof.Machine

/-! ### Addresses and data (R375) -/

/-- The address operand of a space: 64 bits in glb, cst, stk and img, else the low 32 bits of the operand (R100). -/
def addrOf (sp : Space) (a : Src) : X Nat := do
  if wideSpace sp then do
    let x ← src64 a
    pure x.toNat
  else do
    let x ← src32 a
    pure x.toNat
/-- LD's address: a + b wraps at its space's width. -/
def addrOff (sp : Space) (a b : Src) : X Nat := do
  let x ← addrOf sp a
  let y ← src32 b
  pure (modW (if wideSpace sp then 64 else 32) ((x : Int) + y.toInt))
/-- Bytes of a width. -/
def Width.bytes' : Width → Nat
  | .b8 => 1
  | .b16 => 2
  | .b32 => 4
  | .b64 => 8
  | .b128 => 16
/-- A register quad: n(d) holds the lowest word; the code is a multiple of 4. -/
def readQuad (b : Src) : X Nat :=
  match b with
  | .n i => do
    if i.val % 4 ≠ 0 then operand
    else do
      let w ← readReg i.val
      let x ← readReg (i.val + 1)
      let y ← readReg (i.val + 2)
      let z ← readReg (i.val + 3)
      pure (w.toNat + 2 ^ 32 * x.toNat + 2 ^ 64 * y.toNat + 2 ^ 96 * z.toNat)
  | _ => operand
/-- The data operand of a width. -/
def dataOf (w : Width) (b : Src) : X Nat :=
  match w with
  | .b128 => readQuad b
  | .b64 => do
    let x ← src64 b
    pure x.toNat
  | w => do
    let x ← src32 b
    pure (x.toNat % 256 ^ Width.bytes' w)
/-- Two operands of a width in one source: a 64-bit source for b32, a quad for b64 (R382, R384). -/
def dataPair (w : Width) (b : Src) : X (Nat × Nat) :=
  match w with
  | .b64 => do
    let x ← readQuad b
    pure (x % 2 ^ 64, x / 2 ^ 64)
  | _ => do
    let x ← src64 b
    pure (x.toNat % 2 ^ 32, x.toNat / 2 ^ 32)

/-! ### LD, ST (R376 to R380) -/

/-- A load of constants reads once for the threads of the run that name one address, and every one of them gets what was read (R102). -/
def cstLoad (va n : Nat) : X (Nat × Bool) := do
  let s ← get
  let k := (s.iss.word, va, n)
  match s.curRun.bind (fun r => (r.bcast.find? (fun e => e.1 == k)).map (·.2)) with
  | some v => pure v
  | none => do
    let v ← spaceLoad .cst va n
    modify (fun s => s.modRun (fun r => { r with bcast := r.bcast ++ [(k, v)] }))
    pure v
/-- A load: f extends the value; a b128 load pushes its low half first. -/
def loadWord (a b : Src) (p : Space) (w : Width) (f : Nat → Nat) : X Unit := do
  let va ← addrOff p a b
  let (v, po) ← (if p = .cst then cstLoad va (Width.bytes' w) else spaceLoad p va (Width.bytes' w))
  match w with
  | .b128 => do
    pushLate (dw (v % 2 ^ 64)) po
    pushLate (dw (v / 2 ^ 64)) po
  | _ => pushLate (dw (f v)) po
/-- Entries a load pushes (Table 15.1). -/
def ldCount : Width → Nat
  | .b128 => 2
  | _ => 1
/-- LD: zero-extended (R376). -/
def execLd (hd : Hd) (a b : Src) (p : Space) (w : Width) (st : State) : Out :=
  runWord hd.gd (ldCount w) (loadWord a b p w id) st
/-- LD.s: sign-extended into the low 32 bits. -/
def execLdS (hd : Hd) (a b : Src) (p : Space) (w : Width) (st : State) : Out :=
  runWord hd.gd 1 (loadWord a b p w (fun v => modW 32 (sx (8 * Width.bytes' w) v))) st
/-- PREF: a hint; a prefetch that cannot be translated is dropped (R380). -/
def execPref (hd : Hd) (a : Src) (_p : Space) (st : State) : Out := runWord hd.gd 0 (do
  let x ← src64 a
  fun s => match loadV s.curWho .read (x.toNat / 64 * 64) 64 s with
    | .ok _ s' => .ok () s'
    | .error (.deny m t c ad y e) s' => .error (.deny m t c ad y e) s'
    | .error _ s' => .ok () s') st
/-- CACHE: drops the core's L1 copy, or writes back at the home, which changes no value here (R380, R108). -/
def execCache (hd : Hd) (a b : Src) (_p : Space) (st : State) : Out := runWord hd.gd 0 (do
  let x ← src64 a
  let op ← src32 b
  let s ← get
  let (pa, _) ← translate s.curWho .read (x.toNat / 64 * 64)
  if op.toNat > 2 then operand
  else if op = 0 then modify (fun s => s.modCore s.curCore (fun c =>
    { c with l1 := c.l1.filter (fun l => !(l.ctx == s.cur.id.ctx && l.pa == lineOf pa)) }))
  else pure ()) st
/-- ST (R379). -/
def execSt (hd : Hd) (a b : Src) (p : Space) (w : Width) (st : State) : Out := runWord hd.gd 0 (do
  let va ← addrOf p a
  let v ← dataOf w b
  spaceStore p va (Width.bytes' w) v) st

/-! ### ATOM, CAS, RED (R381 to R383) -/

/-- The operation of an atomic. -/
inductive AtomOp where
  | add | fadd | min | max | and | or | xor | swap
deriving DecidableEq, Repr
/-- m updated by v at w bits (R381). -/
def atomF (o : AtomOp) (w m v : Nat) : Nat :=
  let f := if w = 64 then f64 else f32
  match o with
  | .add => (m + v) % 2 ^ w
  | .fadd => (fAdd f .rne 0 (f.dec m) (f.dec v)).1
  | .min => minI w false m v
  | .max => maxI w false m v
  | .and => m &&& v
  | .or => m ||| v
  | .xor => m ^^^ v
  | .swap => v
/-- ATOM: pushes the old value, poisoned where the location is. -/
def atomWord (o : AtomOp) (a b : Src) (p : Space) (w : Width) : X Unit := do
  let va ← addrOf p a
  let v ← dataOf w b
  let n := Width.bytes' w
  let (old, po) ← spaceAtom p va n (fun m => atomF o (8 * n) m v)
  pushLate (dw old) po
/-- RED: the same operation, nothing pushed. -/
def redWord (o : AtomOp) (a b : Src) (p : Space) (w : Width) : X Unit := do
  let va ← addrOf p a
  let v ← dataOf w b
  let n := Width.bytes' w
  let _ ← spaceAtom p va n (fun m => atomF o (8 * n) m v)

/-- ATOM.add. -/
def execAtomAdd (hd : Hd) (a b : Src) (p : Space) (w : Width) (st : State) : Out := runWord hd.gd 1 (atomWord .add a b p w) st
/-- ATOM.fadd. -/
def execAtomFadd (hd : Hd) (a b : Src) (p : Space) (w : Width) (st : State) : Out := runWord hd.gd 1 (atomWord .fadd a b p w) st
/-- ATOM.min. -/
def execAtomMin (hd : Hd) (a b : Src) (p : Space) (w : Width) (st : State) : Out := runWord hd.gd 1 (atomWord .min a b p w) st
/-- ATOM.max. -/
def execAtomMax (hd : Hd) (a b : Src) (p : Space) (w : Width) (st : State) : Out := runWord hd.gd 1 (atomWord .max a b p w) st
/-- ATOM.and. -/
def execAtomAnd (hd : Hd) (a b : Src) (p : Space) (w : Width) (st : State) : Out := runWord hd.gd 1 (atomWord .and a b p w) st
/-- ATOM.or. -/
def execAtomOr (hd : Hd) (a b : Src) (p : Space) (w : Width) (st : State) : Out := runWord hd.gd 1 (atomWord .or a b p w) st
/-- ATOM.xor. -/
def execAtomXor (hd : Hd) (a b : Src) (p : Space) (w : Width) (st : State) : Out := runWord hd.gd 1 (atomWord .xor a b p w) st
/-- ATOM.swap. -/
def execAtomSwap (hd : Hd) (a b : Src) (p : Space) (w : Width) (st : State) : Out := runWord hd.gd 1 (atomWord .swap a b p w) st
/-- RED.add. -/
def execRedAdd (hd : Hd) (a b : Src) (p : Space) (w : Width) (st : State) : Out := runWord hd.gd 0 (redWord .add a b p w) st
/-- RED.fadd. -/
def execRedFadd (hd : Hd) (a b : Src) (p : Space) (w : Width) (st : State) : Out := runWord hd.gd 0 (redWord .fadd a b p w) st
/-- RED.min. -/
def execRedMin (hd : Hd) (a b : Src) (p : Space) (w : Width) (st : State) : Out := runWord hd.gd 0 (redWord .min a b p w) st
/-- RED.max. -/
def execRedMax (hd : Hd) (a b : Src) (p : Space) (w : Width) (st : State) : Out := runWord hd.gd 0 (redWord .max a b p w) st
/-- RED.and. -/
def execRedAnd (hd : Hd) (a b : Src) (p : Space) (w : Width) (st : State) : Out := runWord hd.gd 0 (redWord .and a b p w) st
/-- RED.or. -/
def execRedOr (hd : Hd) (a b : Src) (p : Space) (w : Width) (st : State) : Out := runWord hd.gd 0 (redWord .or a b p w) st
/-- RED.xor. -/
def execRedXor (hd : Hd) (a b : Src) (p : Space) (w : Width) (st : State) : Out := runWord hd.gd 0 (redWord .xor a b p w) st
/-- CAS (R382). -/
def execCas (hd : Hd) (a b : Src) (p : Space) (w : Width) (st : State) : Out := runWord hd.gd 1 (do
  let va ← addrOf p a
  let (c, v) ← dataPair w b
  let (old, po) ← spaceAtom p va (Width.bytes' w) (fun m => if m = c then v else m)
  pushLate (dw old) po) st

/-! ### REDD (R384, R142 to R143) -/

/-- Files one update into the batch of the launch, address, function and width. -/
def fileRedd (bs : List Batch) (l c pa key fn : Nat) (w64 : Bool) (k v : Nat) : List Batch :=
  let is (b : Batch) : Bool := b.launch == l && b.pa == pa && b.fn == fn && b.w64 == w64
  if bs.any is then bs.map (fun b => if is b then { b with ups := b.ups ++ [(k, v)] } else b)
  else bs ++ [⟨l, c, pa, key, fn, w64, [(k, v)]⟩]
/-- REDD: nothing in memory changes until the batch closes (R146). -/
def reddWord (fn : Nat) (a b : Src) (w : Width) : X Unit := do
  let x ← src64 a
  let (v, k) ← dataPair w b
  let va := x.toNat
  let n := Width.bytes' w
  alignX va n
  let s ← get
  match s.cur.id.launch with
  | none => operand
  | some l => do
      let (pa, key, _, ca) ← translate s.curWho .atomic va
      reach s.curWho .atomic pa ca
      modify (fun s => { s with mem := { s.mem with
        batches := fileRedd s.mem.batches l s.cur.id.ctx pa key fn (decide (n = 8)) (k % 2 ^ 32) v } })

/-- REDD.add. -/
def execReddAdd (hd : Hd) (a b : Src) (w : Width) (st : State) : Out := runWord hd.gd 0 (reddWord 0 a b w) st
/-- REDD.fadd. -/
def execReddFadd (hd : Hd) (a b : Src) (w : Width) (st : State) : Out := runWord hd.gd 0 (reddWord 1 a b w) st
/-- REDD.min. -/
def execReddMin (hd : Hd) (a b : Src) (w : Width) (st : State) : Out := runWord hd.gd 0 (reddWord 2 a b w) st
/-- REDD.max. -/
def execReddMax (hd : Hd) (a b : Src) (w : Width) (st : State) : Out := runWord hd.gd 0 (reddWord 3 a b w) st
/-- REDD.min.u. -/
def execReddMinU (hd : Hd) (a b : Src) (w : Width) (st : State) : Out := runWord hd.gd 0 (reddWord 4 a b w) st
/-- REDD.max.u. -/
def execReddMaxU (hd : Hd) (a b : Src) (w : Width) (st : State) : Out := runWord hd.gd 0 (reddWord 5 a b w) st
/-- REDD.or. -/
def execReddOr (hd : Hd) (a b : Src) (w : Width) (st : State) : Out := runWord hd.gd 0 (reddWord 6 a b w) st

/-! ### The tag table (R112, R385) -/

/-- Set and tag of a glb address. -/
def tagSet (va : Nat) : Nat := fld va 13 6 ^^^ fld va 21 14
def tagTag (va : Nat) : Nat := fld va 54 6
/-- The entry of a residency that holds an address's tag, ways from 0. -/
def tagFind (c : Core) (res va : Nat) : Option TagEnt :=
  (isort (fun x y => decide (x.way ≤ y.way)) (c.tags.filter (fun t => t.set == tagSet va))).find?
    (fun t => t.res == res && t.st != 0 && t.tag == tagTag va)
/-- The entry with a set and way gets a state and place; state 0 frees it. -/
def tagPut (c : Core) (t : TagEnt) : Core :=
  let r := c.tags.filter (fun x => !(x.set == t.set && x.way == t.way))
  { c with tags := if t.st = 0 then r else r ++ [t] }
/-- TAGQ. -/
def execTagq (hd : Hd) (a : Src) (st : State) : Out := runWord hd.gd 1 (do
  let x ← src64 a
  let s ← get
  match tagFind (s.coreD s.curCore) s.curGrp.res x.toNat with
  | none => push64 0
  | some t => push64 (dw (2 ^ 34 + t.st * 2 ^ 32 + t.loc * 64 + t.way))) st
/-- TAGSET. -/
def execTagset (hd : Hd) (a b : Src) (st : State) : Out := runWord hd.gd 1 (do
  let x ← src64 a
  let y ← src32 b
  let s ← get
  let c := y.toNat
  let loc := fld c 18 6
  let st := c % 4
  let core := s.curCore
  let rid := s.curGrp.res
  let lim := match s.res? rid with | some r => r.sg.length * Config.granBytes | none => 0
  if c / 2 ^ 19 ≠ 0 ∨ fld c 5 2 ≠ 0 ∨ st = 0 then operand
  else if loc * 64 + 64 > lim then raise cBOUND 1 0
  else match tagFind (s.coreD core) rid x.toNat with
    | some t => do
      modify (fun s => s.modCore core (fun k => tagPut k { t with st := st, loc := loc }))
      push64 3
    | none =>
      let set := tagSet x.toNat
      match (List.range 4).find? (fun w => !(s.coreD core).tags.any (fun t => t.set == set && t.way == w)) with
      | none => push64 0
      | some w => do
        modify (fun s => s.modCore core (fun k => tagPut k ⟨set, w, st, rid, tagTag x.toNat, loc⟩))
        push64 1) st
/-- TAGCLR. -/
def execTagclr (hd : Hd) (a : Src) (st : State) : Out := runWord hd.gd 1 (do
  let x ← src64 a
  let s ← get
  match tagFind (s.coreD s.curCore) s.curGrp.res x.toNat with
  | none => push64 0
  | some t => do
    modify (fun s => s.modCore s.curCore (fun k => tagPut k { t with st := 0 }))
    push64 1) st

/-! ### SCFG and MAPL (R386, R387) -/

/-- A ring descriptor from its image (Table 8.1): every slot EMPTY with phase 0. -/
def ringOfImg (img : BitVec 128) (own : Nat) : Ring :=
  let n := img.toNat
  { v := n.testBit 127, store := n.testBit 126, qcore := fld n 125 124, base := fld n 111 96, slsz := fld n 95 86
    nslot := fld n 85 74, filln := fld n 73 65, drainn := fld n 64 56, head := 0, tail := 0, hph := false, tph := false
    own := own, slots := [] }
/-- R194: what makes an image with V = 1 an illegal operand. -/
def ringBad (s : State) (quad launch : Nat) (img : BitVec 128) : Bool :=
  let n := img.toNat
  let r := ringOfImg img launch
  let size := (r.base + (r.nslot + 1) * (r.slsz + 1)) * 64
  r.filln == 0 || decide (r.filln > 256) || r.drainn == 0 || decide (r.drainn > 256) || fld n 123 112 != 0 || fld n 29 0 != 0 ||
    (if r.store then r.qcore != 0 || decide (size > Config.arrBytes) || !arrLive s quad
     else match ringRes s quad r with
       | none => true
       | some (_, re) => decide (size > s.spadGrans re * Config.granBytes))
/-- Holds an effect of SCFG for run end. -/
def putScfg (e : ScfgEff) : X (List QEnt) := do
  modify (fun s => s.modRun (fun r => { r with scfg := r.scfg ++ [e] }))
  pure []
/-- Reads an image of n bytes as a load does; poison faults the word. -/
def readImg (va n : Nat) : X Nat := do
  alignX va n
  let s ← get
  let v ← loadV s.curWho .read va n
  needClean va v
/-- The ring form. -/
def scfgRing (va k : Nat) : X (List QEnt) := do
  let v ← readImg va 16
  let s ← get
  let quad := coreQuad s.curCore
  let img := BitVec.ofNat 128 v
  let old := alGetD (s.quadD quad).rings k .empty
  match s.cur.id.launch with
  | none => operand
  | some l =>
    if old.v ∧ old.own ≠ l then raise cBOUND 1 0
    else if v.testBit 127 && ringBad s quad l img then operand
    else putScfg (.ring k img)
/-- The stream form. -/
def scfgStream (va r : Nat) : X (List QEnt) := do
  let v ← readImg va 32
  if srOk (BitVec.ofNat 256 v) then putScfg (.stream r (BitVec.ofNat 256 v)) else operand
/-- SCFG: once for the set, in the form its control word selects; the bind form does not use SA, which then holds 56 (R322). -/
def execScfg (hd : Hd) (a b : Src) (p : Space) (st : State) : Out := runWord hd.gd 0 (onceX (do
  let x ← src64 a
  let c ← src32 b
  let s ← get
  let n := c.toNat
  match fld n 9 8 with
  | 0 => if n / 2 ^ 10 ≠ 0 ∨ fld n 7 4 ≠ 0 ∨ !isChard s.curCore then operand else scfgRing x.toNat (fld n 3 0)
  | 1 => if n / 2 ^ 10 ≠ 0 ∨ fld n 7 6 ≠ 0 then operand else scfgStream x.toNat (fld n 5 0)
  | 2 =>
    if a ≠ .zero then raise cILLEGAL 0
    else if n / 2 ^ 11 ≠ 0 ∨ p ≠ .glb then operand
    else putScfg (if n.testBit 10 then .unbind (fld n 7 6) else .bind (fld n 7 6) (fld n 5 0))
  | _ => operand)) st
/-- MAPL: the mapping takes effect at run end (R173, R210). -/
def execMapl (hd : Hd) (a b : Src) (st : State) : Out := runWord hd.gd 0 (do
  let x ← src32 a
  let y ← src32 b
  let s ← get
  let c := y.toNat
  let d := fld c 4 0
  let n := fld c 8 5
  let r := x.toNat
  let b64 := srEsz (alGetD s.curRecs (r % 64) 0) == 3
  let cap := match s.curLaunch with | some l => l.ncap | none => 32
  if c / 2 ^ 9 ≠ 0 ∨ r ≥ 64 ∨ n > 8 ∨ d + n > cap ∨ (b64 ∧ (d % 2 = 1 ∨ n % 2 = 1)) then operand
  else modify (fun s => s.modCur (fun th => { th with rt := { th.rt with
    mapl := if n = 0 then none else some ⟨d, n, r, 0, 0, none⟩, unmap := n == 0 } }))) st

end Sys2Proof.Machine
end

