-- ==== Sys2Proof/Machine/RingOps.lean ====
section
/-! DEFINITION. Ring words and count objects (R196 to R202, R388). -/
namespace Sys2Proof.Machine

/-- A slot of a ring. -/
def Ring.slot (r : Ring) (k : Nat) : Slot := alGetD r.slots k .empty
/-- The next slot number, and whether the phase flips (Table 8.2). -/
def Ring.advance (r : Ring) (k : Nat) (ph : Bool) : Nat × Bool := if k + 1 > r.nslot then (0, !ph) else (k + 1, ph)
/-- The claim conditions of Table 8.2. -/
def Ring.canFill (r : Ring) : Bool := !(r.slot r.head).full && (r.slot r.head).ph == r.hph
def Ring.canDrain (r : Ring) : Bool := (r.slot r.tail).full && (r.slot r.tail).ph == r.tph
/-- A claim: phase and slot, and the descriptor after it; none where the slot is not ready. -/
def Ring.claim (r : Ring) (cons : Bool) : Option (Bool × Nat × Ring) :=
  if cons then
    if r.canDrain then
      let (k, p) := r.advance r.tail r.tph
      some (r.tph, r.tail, { r with tail := k, tph := p })
    else none
  else
    if r.canFill then
      let (k, p) := r.advance r.head r.hph
      some (r.hph, r.head, { r with head := k, hph := p })
    else none
/-- A release of weight w on a side in a phase; none where a condition of Table 8.2 fails. -/
def Ring.release (r : Ring) (k : Nat) (cons ph : Bool) (w : Nat) : Option Ring :=
  let t := r.slot k
  let lim := if cons then r.drainn else r.filln
  if k ≤ r.nslot ∧ t.full = cons ∧ t.ph = ph ∧ t.cnt + w ≤ lim then
    let t := if t.cnt + w = lim then ⟨!cons, if cons then !t.ph else t.ph, 0⟩ else { t with cnt := t.cnt + w }
    some { r with slots := if t = Slot.empty then alDel r.slots k else alSet r.slots k t }
  else none
/-- Changes a ring of a quad. -/
def State.setRing (s : State) (quad k : Nat) (r : Ring) : State :=
  s.modQuad quad (fun q => { q with rings := alSet q.rings k r })
/-- A release from an engine: discarded where a condition fails (Table 8.2). -/
def State.engineRelease (s : State) (quad launch rng : Nat) (cons ph : Bool) (w : Nat) : State :=
  let r := alGetD (s.quadD quad).rings (fld rng 31 28) .empty
  if r.v && r.own == launch then
    match r.release (fld rng 27 16) cons ph w with
    | some r' => s.setRing quad (fld rng 31 28) r'
    | none => s
  else s

/-- One claim for a thread or a set: the entry of R197. A claim is the target of its slot's edge (R200). -/
def claimX (a : Src) (cons : Bool) : X DWord := do
  let x ← src32 a
  let s ← get
  let quad := coreQuad s.curCore
  let k := fld x.toNat 31 28
  let r ← ringOf quad k s.cur.id.launch x.toNat
  match r.claim cons with
  | none => pure 0
  | some (ph, slot, r') => do
    modify (fun s => (s.setRing quad k r').invalidate s.curCore s.cur.id.ctx)
    pure (dw (2 ^ 33 + (if ph then 2 ^ 32 else 0) + k * 2 ^ 28 + slot * 2 ^ 16))
/-- A claim per thread. -/
def racq (a : Src) (cons : Bool) : X Unit := do
  let v ← claimX a cons
  pushLate v false
/-- One claim for the set. -/
def racqU (a : Src) (cons : Bool) : X Unit := onceX (do
  let v ← claimX a cons
  pure [⟨v, .full⟩])
/-- RACQ.P. -/
def execRacqP (hd : Hd) (a : Src) (st : State) : Out := runWord hd.gd 1 (racq a false) st
/-- RACQ.C. -/
def execRacqC (hd : Hd) (a : Src) (st : State) : Out := runWord hd.gd 1 (racq a true) st
/-- RACQ.P.U. -/
def execRacqPU (hd : Hd) (a : Src) (st : State) : Out := runWord hd.gd 1 (racqU a false) st
/-- RACQ.C.U. -/
def execRacqCU (hd : Hd) (a : Src) (st : State) : Out := runWord hd.gd 1 (racqU a true) st
/-- RREL: after the thread's source action (R136, R198); a slot that the ring does not have is a bound fault (R195; log entry 104). -/
def execRrel (hd : Hd) (a b : Src) (st : State) : Out := runWord hd.gd 0 (do
  let x ← src32 a
  let y ← src32 b
  let s ← get
  let quad := coreQuad s.curCore
  let n := y.toNat
  let w := fld n 8 0
  let k := fld x.toNat 31 28
  let r ← ringOf quad k s.cur.id.launch x.toNat
  if n / 2 ^ 11 ≠ 0 ∨ w = 0 ∨ w > 256 then operand
  else if fld x.toNat 27 16 > r.nslot then raise cBOUND 1 x.toNat
  else match r.release (fld x.toNat 27 16) (n.testBit 10) (n.testBit 9) w with
    | none => operand
    | some r' => modify (fun s => (s.drainCore s.curCore).setRing quad k r')) st
/-- Adds a wait of the word at hand for run end (step 7 of Table 7.5). -/
def addWait (w : Wait) : X Unit := modify (fun s => s.modCur (fun th =>
  { th with rt := { th.rt with waits := th.rt.waits ++ [⟨s.iss.word, s.iss.instr, th.pc, w⟩] } }))
/-- RWAIT (R199); a slot that the ring does not have is a bound fault (R195; log entry 104). -/
def execRwait (hd : Hd) (a b : Src) (st : State) : Out := runWord hd.gd 0 (do
  let x ← src32 a
  let y ← src32 b
  let s ← get
  let n := y.toNat
  let k := fld x.toNat 31 28
  let slot := fld x.toNat 27 16
  let r ← ringOf (coreQuad s.curCore) k s.cur.id.launch x.toNat
  let form := n % 4
  if n / 8 ≠ 0 ∨ (form < 2 ∧ n.testBit 2) then operand
  else if 2 ≤ form ∧ slot > r.nslot then raise cBOUND 1 x.toNat
  else if form < 2 then addWait (.ringHead k (form == 1))
  else addWait (.ringSlot k slot (form == 2) (n.testBit 2))) st

/-! ### Count objects (R202) -/

/-- The count object k a launch names: taking it where it is at rest, a bound fault where it is another's. -/
def nameCount (quad k : Nat) (l : Option Nat) : X CountObj := do
  let s ← get
  let c := alGetD (s.quadD quad).counts k .empty
  if c.cnt = 0 ∧ c.pend = 0 then pure { c with own := l }
  else if c.own = l then pure c
  else raise cBOUND 1
/-- Changes a count object. -/
def State.setCount (s : State) (quad k : Nat) (c : CountObj) : State :=
  s.modQuad quad (fun q => { q with counts := alSet q.counts k c })
/-- CARM: adds n at issue, thread by thread. -/
def execCarm (hd : Hd) (a b : Src) (st : State) : Out := runWord hd.gd 0 (do
  let x ← src32 a
  let y ← src32 b
  let s ← get
  let quad := coreQuad s.curCore
  let n := y.toNat
  if x.toNat ≥ 32 ∨ n = 0 ∨ n > 2 ^ 24 then operand
  else do
    let c ← nameCount quad x.toNat s.cur.id.launch
    if c.cnt + n > 2 ^ 31 - 1 then operand
    else modify (fun s => s.setCount quad x.toNat { c with cnt := c.cnt + n })) st
/-- CWAIT. -/
def execCwait (hd : Hd) (a : Src) (st : State) : Out := runWord hd.gd 0 (do
  let x ← src32 a
  let s ← get
  if x.toNat ≥ 32 then operand
  else do
    let _ ← nameCount (coreQuad s.curCore) x.toNat s.cur.id.launch
    addWait (.count x.toNat)) st

end Sys2Proof.Machine
end

