-- ==== Sys2Proof/Machine/Copy.lean ====
section
/-! DEFINITION. Copy words and the copy engines (R203 to R205, R420 to R426). -/
namespace Sys2Proof.Machine

/-! ### What an engine reads and writes -/

/-- The requester of a quad's copy engine for a context. -/
def copyWho (quad ctx : Nat) : Who := ⟨copyMid quad, quad / 16, ctx, none, false, none⟩
/-- Where a loc, rng or am address of an operation lies. -/
def CopyOp.place (o : CopyOp) (quad : Nat) (sp : Space) (va n : Nat) : X Place :=
  match sp with
  | .loc => locPlace o.by_.res va n va
  | .rng => ringPlace quad (some o.by_.launch) va n
  | .am => amPlace quad o.by_.ctx va n va
  | _ => operand
/-- Reads n bytes, within one line, for an operation: value and poison. -/
def CopyOp.read (o : CopyOp) (quad : Nat) (sp : Space) (va n : Nat) : X (Nat × Bool) := do
  let who := copyWho quad o.by_.ctx
  match sp with
  | .glb | .cst => do
    let (pa, key, _, ca) ← translate who .read va
    homeRead who .read pa ca key n
  | _ => do
    let p ← o.place quad sp va n
    allowMarrow who .read p
    let s ← get
    pure (p.st.read s p.a n, p.st.poisoned s p.a n)
/-- Writes n bytes, within one line; poisoned data leaves the destination poisoned (R122, R426). -/
def CopyOp.write (o : CopyOp) (quad : Nat) (va n v : Nat) (po : Bool) : X Unit := do
  let who := copyWho quad o.by_.ctx
  match o.dSp with
  | .glb | .cst => do
    let (pa, key, _, ca) ← translate who .write va
    homeWrite who .write pa ca key n v
    -- the last byte of the line is written: the operation releases it (R139)
    modify (fun s => { s with mem := { s.mem with owned := s.mem.owned.filter (fun e => !(e.1 == lineOf pa && e.2 == o.id)) } })
    if po then modify (fun s => { s with mem := { s.mem with poison := lineOf pa :: s.mem.poison } }) else pure ()
  | sp => do
    let p ← o.place quad sp va n
    allowMarrow who .write p
    modify (fun s =>
      let s := p.st.write s p.a n v
      if po then p.st.poison s p.a n else s)

/-! ### Addresses of the bytes (R208, R423) -/

/-- Bytes an operation moves. -/
def CopyOp.total (o : CopyOp) : Nat :=
  match o.kind with
  | .cpy | .cpyr _ => o.len
  | .cpys | .gath => srCount o.record * o.len
/-- The space an operation reads. -/
def CopyOp.from (o : CopyOp) : Space :=
  match o.kind with
  | .cpy | .cpyr _ => o.sSp
  | .cpys | .gath => srSpace o.record
/-- An unbounded row address as its space takes it: outside its numbers, or off its element's boundary, it is an error. -/
def rowAt (r : BitVec 256) (a : Int) : X Nat := do
  let lim : Int := if wideSpace (srSpace r) then 2 ^ 64 else 2 ^ 32
  if a < 0 ∨ a ≥ lim then
    (if wideSpace (srSpace r) then raise cXLATE 1 (modW 64 a) else raise cBOUND 1 (modW 64 a))
  else if a.toNat % 2 ^ srEsz r ≠ 0 then raise cALIGN 0 a.toNat
  else pure a.toNat
/-- Address of row i. -/
def CopyOp.row (o : CopyOp) (quad i : Nat) : X Nat := do
  match o.kind with
  | .gath =>
    let ix := o.ixRec
    if i ≥ srCount ix then raise cBOUND 1 0
    else do
      let xa ← rowAt ix ((srBase ix : Int) + o.by_.tid * srTstride ix + i * srStride ix)
      let (x, _) ← o.read quad (srSpace ix) xa (2 ^ srEsz ix)
      rowAt o.record ((srBase o.record : Int) + x * srStride o.record)
  | _ => rowAt o.record ((srBase o.record : Int) + o.by_.tid * srTstride o.record + i * srStride o.record)
/-- A row lies within its space's bound, and in rng within one slot (R195, R423). -/
def CopyOp.rowInside (o : CopyOp) (quad r : Nat) : X Unit := do
  if wideSpace o.from then pure ()
  else do
    let _ ← o.place quad o.from r o.len
    pure ()
/-- Source bytes [pos, pos + n) of an operation. -/
def CopyOp.bytes (o : CopyOp) (quad : Nat) : Nat → Nat → Nat → X (Nat × Bool)
  | 0, _, _ => pure (0, false)
  | fuel + 1, pos, n =>
    if n = 0 then pure (0, false)
    else do
      let (a, avail) ← (match o.kind with
        | .cpy | .cpyr _ => pure (o.src + pos, n)
        | .cpys | .gath => do
          let r ← o.row quad (pos / o.len)
          o.rowInside quad r
          pure (r + pos % o.len, o.len - pos % o.len))
      let k := min n (min avail (64 - a % 64))
      let (v, po) ← o.read quad o.from a k
      let (r, po') ← o.bytes quad fuel (pos + k) (n - k)
      pure (v + 256 ^ k * r, po || po')

/-! ### Doing the copy (R423 to R426) -/

/-- Changes an operation in its queue. -/
def State.modCopy (s : State) (quad id : Nat) (f : CopyOp → CopyOp) : State :=
  s.modQuad quad (fun q => { q with copyq := q.copyq.map (fun o => if o.id = id then f o else o) })
/-- Copies from byte pos on, a destination line (or word) at a time: each piece is read whole before it is written. -/
def CopyOp.run (o : CopyOp) (quad : Nat) : Nat → Nat → X Unit
  | 0, _ => pure ()
  | fuel + 1, pos =>
    if pos ≥ o.total then pure ()
    else do
      let n := min (o.total - pos) (if o.dSp = .glb then 64 - (o.dst + pos) % 64 else 4)
      let (v, po) ← o.bytes quad 65 pos n
      o.write quad (o.dst + pos) n v po
      modify (fun s => s.modCopy quad o.id (fun o => { o with pos := pos + n }))
      o.run quad fuel (pos + n)
/-- The window of the context that holds a range. -/
def windowOf (c : Ctx) (va n : Nat) : Option Window :=
  c.windows.find? (fun w => decide (w.va ≤ va) && decide (va + n ≤ w.va + w.len))
/-- Address of the remote completion word (R424). -/
def CopyOp.remoteWord (o : CopyOp) : Nat := roundUpTo (o.dst + o.len) 8
/-- A line of an operation goes out in a frame to the window's package: address in the window, mask, data, poison (R149, R426). -/
def CopyOp.frame (o : CopyOp) (quad : Nat) (w : Window) (l : Nat × Nat × Nat) (po : Bool) : X Unit := do
  let id ← freshX
  modify (fun s => { s with pods := s.pods ++
    [⟨id, quad, o.id, l.1, w.pkg, w.remote + (l.1 - w.va), BitVec.ofNat 64 l.2.1, BitVec.ofNat 512 l.2.2, po, false⟩] })
/-- The lines of a remote transfer go out, each read from its source first: those before a line that cannot be read are sent (R149,
R426). -/
def CopyOp.sendLines (o : CopyOp) (quad : Nat) (w : Window) : Nat → Nat → X Unit
  | 0, _ => pure ()
  | fuel + 1, pos =>
    if pos ≥ o.len then pure ()
    else do
      let va := o.dst + pos
      let n := min (o.len - pos) (64 - va % 64)
      let (v, po) ← o.bytes quad 65 pos n
      o.frame quad w (va / 64 * 64, (2 ^ n - 1) * 2 ^ (va % 64), v * 256 ^ (va % 64)) po
      o.sendLines quad w fuel (pos + n)
/-- CPYR sends its lines: the destination and the remote completion word must lie in one window (R424). -/
def CopyOp.send (o : CopyOp) (quad : Nat) (rc : Bool) : X Unit := do
  let s ← get
  match windowOf (s.ctxD o.by_.ctx) o.dst o.len with
  | none => raise cXLATE 5 o.dst
  | some w =>
    if rc && !(decide (o.remoteWord + 8 ≤ w.va + w.len)) then raise cXLATE 5 o.remoteWord
    else do
      o.sendLines quad w (o.len + 1) 0
      modify (fun s => s.modCopy quad o.id (fun o => { o with pos := 1 }))
/-- Once every line is acknowledged the remote completion word goes: 1, by the remote pod port, after the last line has taken effect
(R150, R424). -/
def CopyOp.sendWord (o : CopyOp) (quad : Nat) : X Unit := do
  let s ← get
  let word := o.remoteWord
  match windowOf (s.ctxD o.by_.ctx) o.dst o.len with
  | none => pure ()
  | some w => do
    o.frame quad w (word / 64 * 64, 0xFF * 2 ^ (word % 64), 256 ^ (word % 64)) false
    modify (fun s => s.modCopy quad o.id (fun o => { o with pos := 2 }))

/-! ### Completion -/

/-- The copy engine releases a scoreboard entry: a tag entry of the residency that is filling at a location in it is clean (R113). -/
def Core.releaseScore (c : Core) (id : Nat) : Core :=
  let es := c.score.filter (fun e => e.id == id && e.inDir)
  let hit (t : TagEnt) : Bool := t.st == 1 && es.any (fun e => e.res == t.res && decide (e.lo ≤ t.loc * 64) && decide (t.loc * 64 < e.hi))
  { c with
    score := c.score.filter (·.id != id)
    tags := c.tags.map (fun t => if hit t then { t with st := 2 } else t) }
/-- Takes an operation out: its lines and scoreboard entries are released. Frames that have gone out stay on their way (R426). -/
def State.dropCopy (s : State) (quad : Nat) (o : CopyOp) : State :=
  let s := s.modQuad quad (fun q => { q with copyq := q.copyq.filter (·.id != o.id) })
  let s := o.score.foldl (fun s e => s.modCore e.1 (fun c => c.releaseScore e.2)) s
  { s with mem := { s.mem with owned := s.mem.owned.filter (·.2 != o.id) } }
/-- Where an operation's source begins: for CPYS at the thread's row 0 (R208), for GATH at the record's base. -/
def CopyOp.source (o : CopyOp) : Nat :=
  match o.kind with
  | .cpys => modW 32 ((srBase o.record : Int) + o.by_.tid * srTstride o.record)
  | .gath => srBase o.record
  | _ => o.src
/-- Signals the completion target (R202, R198). -/
def State.signalCopy (s : State) (quad : Nat) (o : CopyOp) : State :=
  let t := o.tgt.toNat
  match t / 2 ^ 30 with
  | 0 =>
    let k := t % 32
    let c := alGetD (s.quadD quad).counts k .empty
    s.setCount quad k { c with cnt := c.cnt - 1, pend := c.pend - 1 }
  | 1 => s.engineRelease quad o.by_.launch o.dst (t.testBit 10) (t.testBit 9) (t % 512)
  | _ => s.engineRelease quad o.by_.launch o.source (t.testBit 10) (t.testBit 9) (t % 512)
/-- What an operation comes to: done, remote lines sent, failed with its fault, refused or held up. -/
inductive CopyOut where
  | done
  | sent
  | failed (f : FaultInfo)
  | denied
/-- The lines that an operation has yet to send: its own, then the remote completion word (R150). -/
def CopyOp.sends (o : CopyOp) : Bool :=
  match o.kind with
  | .cpyr rc => o.pos == 0 || (rc && o.pos == 1)
  | _ => false
/-- Performs a started operation: a refusal freezes the engine, which releases its lines (R140); behind a fenced link it waits. -/
def State.doCopy (s : State) (quad : Nat) (o : CopyOp) : State × CopyOut :=
  let x : X Unit := match o.kind with
    | .cpyr rc => if o.pos = 0 then o.send quad rc else if rc && o.pos = 1 then o.sendWord quad else pure ()
    | _ => o.run quad (o.total + 1) o.pos
  match x s with
  | .ok _ s' => (s', if o.sends then .sent else .done)
  | .error (.fault f) s' => (s', .failed f)
  | .error .stall s' => (s', .denied)
  | .error e s' => (applyDeny s' e, .denied)
/-- The operation of a queue that an event names, if its engine runs and it has started. -/
def copyNamed (s : State) (quad id : Nat) : Option CopyOp :=
  if s.isFrozen (copyMid quad) then none else (s.quadD quad).copyq.find? (fun o => o.id == id && o.started)
/-- COPY_START: the first operation not yet started starts (R203). -/
def State.startCopy (s : State) (quad : Nat) : State :=
  if s.isFrozen (copyMid quad) then s
  else match (s.quadD quad).copyq.find? (!·.started) with
    | some o => s.modCopy quad o.id (fun o => { o with started := true })
    | none => s
/-- COPY_COMPLETE: every write takes effect and the target is signalled; a CPYR first sends its lines, then its remote completion
word, each once what went before is acknowledged, and then completes (R150). -/
def State.completeCopy (s : State) (quad id : Nat) : State :=
  match copyNamed s quad id with
  | none => s
  | some o =>
    if s.pods.any (·.op == id) then s
    else
      match s.doCopy quad o with
      | (s', .done) => (s'.signalCopy quad o).dropCopy quad o
      | (s', .sent) => s'
      | (s', .denied) => s'
      | (_, .failed _) => s
/-- Words F0 to F7 of an engine error (R426, Table 12.3). -/
def copyRecord (by_ : Issuer) (fseq : Nat) (f : FaultInfo) : List Nat :=
  let core := by_.core
  let f0 := f.cls * 2 ^ 58 + f.cause * 2 ^ 54 + by_.ctx * 2 ^ 45 + coreDie core * 2 ^ 39 + core % 64 * 2 ^ 33 +
    by_.lane % 32 * 2 ^ 28 + by_.slot * 2 ^ 21 + by_.word * 2 ^ 16 + fseq
  [f0, by_.iid.toNat, by_.pc, 0, f.addr.toNat, by_.rgnc.toNat * 2 ^ 32 + by_.grp.toNat,
    by_.instr.toNat * 2 ^ 32 + by_.tid * 2 ^ 24 + by_.p.toNat * 2 ^ 17, by_.n1.toNat * 2 ^ 32 + by_.n0.toNat]
/-- An engine error (R426): the record, the target signalled, the launch FAULT. -/
def State.copyError (s : State) (quad : Nat) (o : CopyOp) (f : FaultInfo) : State :=
  let core := o.by_.core
  let fseq := (s.coreD core).fseq + 1
  let s := s.modCore core (fun c => { c with fseq := fseq })
  let (s, r) := s.asyncRecord { (s.who core o.by_.ctx) with core := none } (s.ctxD o.by_.ctx).flta (copyRecord o.by_ fseq.toNat f)
  let s := s.launchFault (some o.by_.launch) r
  (s.signalCopy quad o).dropCopy quad o
/-- A frame is given up. -/
def State.forgetFrame (s : State) (frame : Nat) : State := { s with pods := s.pods.filter (fun p => !(p.id == frame)) }
/-- The engine error of a line that could not be delivered (R149, R426). -/
def State.lineLost (s : State) (o : CopyOp) (p : PodFrame) : State :=
  (s.copyError p.quad o ⟨cBOUND, 3, dw p.va, 0, 0, false⟩).forgetFrame p.id
/-- COPY_ENGINE_ERROR: an operation that fails stops where it fails; a line that the port gave up while the engine was frozen fails it
now. -/
def State.failCopy (s : State) (quad id : Nat) : State :=
  match copyNamed s quad id with
  | none => s
  | some o =>
    match s.pods.find? (fun p => p.op == id && p.failed) with
    | some p => s.lineLost o p
    | none =>
      if s.pods.any (·.op == id) then s
      else match s.doCopy quad o with
        | (s', .failed f) => s'.copyError quad o f
        | _ => s
/-- A transfer that cannot be delivered after its retries (R149, R426): its copy fails, at once or when its engine is thawed; a line whose
copy has gone is forgotten. -/
def State.undelivered (s : State) (frame : Nat) : State :=
  match s.pods.find? (·.id == frame) with
  | none => s
  | some p =>
    match copyNamed s p.quad p.op with
    | some o => s.lineLost o p
    | none =>
      if (s.quadD p.quad).copyq.any (·.id == p.op) then
        { s with pods := s.pods.map (fun x => if x.id == frame then { x with failed := true } else x) }
      else s.forgetFrame frame
/-- A THAW that discards: the engine's operations complete without a decrement or a release (R140, Table 8.4). -/
def State.discardCopies (s : State) (quad : Nat) : State :=
  ((s.quadD quad).copyq.filter (·.started)).foldl (fun s o =>
    let s := s.dropCopy quad o
    let s := { s with pods := s.pods.filter (fun p => !(p.op == o.id)) }
    if o.tgt.toNat / 2 ^ 30 = 0 then
      let c := alGetD (s.quadD quad).counts (o.tgt.toNat % 32) .empty
      s.setCount quad (o.tgt.toNat % 32) { c with pend := c.pend - 1 }
    else s) s
/-- A line's home for an engine, where the translation stands and nothing refuses it. -/
def peekLine (s : State) (who : Who) (va : Nat) : Option Nat :=
  match translate who .write va s with
  | .ok (pa, _) _ => some (lineOf pa)
  | .error _ _ => none
/-- Takes the glb lines an operation has still to write (R139). -/
def State.ownLines (s : State) (quad : Nat) (o : CopyOp) : State :=
  if o.dSp = .glb && (match o.kind with | .cpyr _ => false | _ => true) then
    let n := (o.dst % 64 + o.total + 63) / 64
    (List.range n).foldl (fun s i =>
      if (o.dst / 64 + i + 1) * 64 ≤ o.dst + o.pos then s
      else match peekLine s (copyWho quad o.by_.ctx) ((o.dst / 64 + i) * 64) with
        | some la => let s := s.recall la; { s with mem := { s.mem with owned := (la, o.id) :: s.mem.owned } }
        | none => s) s
  else s
/-- After a THAW each operation of the queue takes the lines it has still to write again (R139, R140). -/
def State.resumeCopies (s : State) (quad : Nat) : State :=
  (s.quadD quad).copyq.foldl (fun s o => s.ownLines quad o) s

/-! ### Issue (R420 to R422) -/

/-- Entries a scoreboard holds (R114). -/
def scoreMax : Nat := 64
/-- The thread at issue as an operation's records name it (R426). -/
def State.issuer (s : State) : Issuer :=
  let th := s.cur
  {
    launch := th.id.launch.getD 0, ctx := th.id.ctx, core := s.curCore, lane := s.iss.lane, slot := th.slot
    word := s.iss.word, instr := s.iss.instr, iid := th.id.iid, pc := th.pc, rgnc := th.rgnc, grp := s.curGrp.no
    tid := th.tid, p := th.p, n0 := th.val 0, n1 := th.val 1, res := s.curGrp.res }
/-- A range of one word's operand within its space, naming the place (R422, BOUND). -/
def rangePlace (sp : Space) (va n : Nat) : X (Option Place) :=
  match sp with
  | .glb | .cst => pure none
  | _ => do
    let p ← curPlace sp va n
    pure (some p)
/-- Takes scoreboard entries away (R114). -/
def State.unscore (s : State) (l : List (Nat × Nat)) : State :=
  l.foldl (fun s e => s.modCore e.1 (fun c => { c with score := c.score.filter (·.id != e.2) })) s
/-- Takes a scoreboard entry over a range of a place; a full scoreboard stalls the lane. -/
def takeScore (p : Option Place) (inDir : Bool) (n : Nat) : X (List (Nat × Nat)) :=
  match p.bind (·.score) with
  | none => pure []
  | some (core, rid, off) => do
    let s ← get
    if (s.coreD core).score.length ≥ scoreMax then stallX
    else do
      let id ← freshX
      modify (fun s => s.modCore core (fun c => { c with
        score := c.score ++ [⟨id, rid, inDir, off / 64 * 64, roundUpTo (off + n) 64⟩] }))
      pure [(core, id)]
/-- Where an rng address, held within its ring, lies in the ring's store. -/
def Ring.lin (r : Ring) (k : Nat) (a : Int) : Nat :=
  let x := (max 0 (min (2 ^ 28 - 1) (a - k * 2 ^ 28))).toNat
  r.base * 64 + min (x / 2 ^ 16) r.nslot * r.slotBytes + min (x % 2 ^ 16) r.slotBytes
/-- The Out entry of a strided or indexed source in scratchpad: for CPYS the range its rows can reach, for GATH the whole
scratchpad of the residency (R422). -/
def takeRows (kind : CopyKind) (rec_ : BitVec 256) (len : Nat) : X (List (Nat × Nat)) := do
  let s ← get
  let core := s.curCore
  let whole (c rid : Nat) : X (List (Nat × Nat)) := match s.res? rid with
    | some r => takeScore (some ⟨.pool c, 0, some (c, rid, 0)⟩) false (s.spadGrans r * Config.granBytes)
    | none => pure []
  let a : Int := (srBase rec_ : Int) + s.cur.tid * srTstride rec_
  let b : Int := a + (srCount rec_ - 1 : Nat) * srStride rec_
  match srSpace rec_ with
  | .loc =>
    if kind = .cpys then do
      let lo := max 0 (min a b)
      takeScore (some ⟨.pool core, 0, some (core, s.curGrp.res, lo.toNat)⟩) false (max 0 (max a b) + len - lo).toNat
    else whole core s.curGrp.res
  | .rng =>
    let k := fld (srBase rec_) 31 28
    let r := alGetD (s.quadD (coreQuad core)).rings k .empty
    if r.v && !r.store then
      match ringRes s (coreQuad core) r with
      | some (rid, re) =>
        if kind = .cpys then do
          let lo := r.lin k (min a b)
          takeScore (some ⟨.pool re.core, 0, some (re.core, rid, lo)⟩) false (r.lin k (max a b) + len - lo)
        else whole re.core rid
      | none => pure []
    else pure []
  | _ => pure []
/-- Two ranges share a byte. -/
def overlap (a b n : Nat) : Bool := decide (a < b + n) && decide (b < a + n)
/-- The completion word's own rules (Table 16.5, R422). -/
def tgtOk (t : Nat) (srcRng dstRng remote : Bool) : Bool :=
  fld t 29 11 == 0 && (match t / 2 ^ 30 with
    | 0 => fld t 10 5 == 0
    | 1 => decide (1 ≤ t % 512) && decide (t % 512 ≤ 256) && dstRng && !remote
    | 2 => decide (1 ≤ t % 512) && decide (t % 512 ≤ 256) && srcRng && !remote
    | _ => false)
/-- Queues an operation that has passed its checks (R422); its issue is an edge from the thread (R133, R136). -/
def queueCopy (o : CopyOp) (sp dp : Option Place) : X Unit := do
  modify (fun s => s.drainCore s.curCore)
  let s ← get
  let quad := coreQuad s.curCore
  if (s.quadD quad).copyq.length ≥ 64 then stallX
  else do
    let a ← (match o.kind with
      | .cpys | .gath => takeRows o.kind o.record o.len
      | _ => takeScore sp false o.len)
    let b ← takeScore dp true o.total
    let id ← freshX
    let o := { o with id := id, score := a ++ b }
    modify (fun s =>
      let s := s.modQuad quad (fun q => { q with copyq := q.copyq ++ [o] })
      let s := if o.tgt.toNat / 2 ^ 30 = 0 then
          let k := o.tgt.toNat % 32
          let c := alGetD (s.quadD quad).counts k .empty
          let c := if c.cnt = 0 ∧ c.pend = 0 then { c with own := some o.by_.launch } else c
          s.setCount quad k { c with pend := c.pend + 1 }
        else s
      s.ownLines quad o)
/-- A wide address out of the space's numbers. -/
def canonX (sp : Space) (a : Nat) : X Unit :=
  match sp with
  | .glb | .cst => if a ≥ 2 ^ 55 then raise cXLATE 1 a else pure ()
  | _ => pure ()
/-- The count object of a completion word belongs to the launch or to none (R202). -/
def countOk (t : Nat) : X Unit :=
  if t / 2 ^ 30 = 0 then do
    let s ← get
    let _ ← nameCount (coreQuad s.curCore) (t % 32) s.cur.id.launch
    pure ()
  else pure ()
/-- CPY and CPYR (R422, in its order of checks). -/
def copyX (a b : Src) (sp dp : Space) (rc : Option Bool) : X Unit := do
  let x ← src64 a
  let q ← readQuad b
  let src := x.toNat
  let dst := q % 2 ^ 64
  let len := q / 2 ^ 64 % 2 ^ 32
  let t := q / 2 ^ 96
  let s ← get
  let remote := rc.isSome
  if len = 0 ∨ len > 2 ^ 24 ∨ len % 4 ≠ 0 ∨ (!wideSpace sp ∧ src ≥ 2 ^ 32) ∨ (!wideSpace dp ∧ dst ≥ 2 ^ 32) ∨
      !tgtOk t (sp == .rng) (dp == .rng) remote then operand
  else if !remote ∧ sp = dp ∧ overlap src dst len then operand
  else do
    canonX sp src
    canonX dp dst
    if src % 4 ≠ 0 then raise cALIGN 0 src
    else if dst % 4 ≠ 0 then raise cALIGN 0 dst
    else do
      let pS ← rangePlace sp src len
      let pD ← rangePlace dp dst len
      countOk t
      queueCopy {
        id := 0, kind := (match rc with | some r => .cpyr r | none => .cpy), by_ := s.issuer, sSp := sp, dSp := dp
        src := src, dst := dst, len := len, record := 0, ixRec := 0, tgt := w32 t, score := [], started := false, pos := 0 } pS pD
/-- CPYS and GATH (R422). -/
def rowsX (a b : Src) (dp : Space) (kind : CopyKind) : X Unit := do
  let x ← src32 a
  let q ← readQuad b
  let dst := q % 2 ^ 64
  let len := q / 2 ^ 64 % 2 ^ 32
  let t := q / 2 ^ 96
  let s ← get
  let ix := decide (kind = .gath)
  match alGet s.curRecs x.toNat with
  | none => operand
  | some r =>
    let ir := alGetD s.curRecs (srIxr r) 0
    if x.toNat ≥ 64 ∨ len = 0 ∨ len > 65536 ∨ len % 2 ^ srEsz r ≠ 0 ∨ (!wideSpace dp ∧ dst ≥ 2 ^ 32) ∨
        !tgtOk t (srSpace r == .rng) (dp == .rng) false then operand
    else if srIx r != ix ∨ !srOk r ∨ srCount r * len > 2 ^ 24 ∨ (ix ∧ (srIx ir ∨ srEsz ir < 2 ∨ !srOk ir)) then operand
    else do
      canonX dp dst
      if dst % 4 ≠ 0 then raise cALIGN 0 dst
      else do
        let pD ← rangePlace dp dst (srCount r * len)
        countOk t
        queueCopy {
          id := 0, kind := kind, by_ := s.issuer, sSp := srSpace r, dSp := dp, src := srBase r, dst := dst, len := len
          record := r, ixRec := if ix then ir else 0, tgt := w32 t, score := [], started := false, pos := 0 } none pD

/-- CPY. -/
def execCpy (hd : Hd) (a b : Src) (s d : Space) (st : State) : Out := runWord hd.gd 0 (copyX a b s d none) st
/-- CPYS. -/
def execCpys (hd : Hd) (a b : Src) (d : Space) (st : State) : Out := runWord hd.gd 0 (rowsX a b d .cpys) st
/-- GATH. -/
def execGath (hd : Hd) (a b : Src) (d : Space) (st : State) : Out := runWord hd.gd 0 (rowsX a b d .gath) st
/-- CPYR: the destination is a glb address of a remote window. -/
def execCpyr (hd : Hd) (a b : Src) (s : Space) (r : Bool) (st : State) : Out := runWord hd.gd 0 (copyX a b s .glb (some r)) st

end Sys2Proof.Machine
end

