-- ==== Sys2Proof/Machine/Fp.lean ====
section
/-! DEFINITION. The floating words: FALU2, FALU3, HALU3, DALU2, DALU3, FCMP (R352, R354 to R357). -/
namespace Sys2Proof.Machine

/-! ### Shapes -/

/-- An f32 source as a value. -/
def valF (i : Nat) (x : Src) : X FV := do
  let v ← srcF i x
  pure (f32.dec v.toNat)
/-- An f64 source as a value. -/
def valD (x : Src) : X FV := do
  let v ← src64 x
  pure (f64.dec v.toNat)
/-- Two f32 sources as a sum of products, rounded once. -/
def f32Bin (a b : Src) (r : RM) (f : FV → FV → List (FV × FV)) : X Unit := do
  let x ← valF 0 a
  let y ← valF 1 b
  pushFused f32 r (f x y)
/-- Two f64 sources as a sum of products, rounded once. -/
def f64Bin (a b : Src) (r : RM) (f : FV → FV → List (FV × FV)) : X Unit := do
  let x ← valD a
  let y ← valD b
  pushFused f64 r (f x y)
/-- Pushes a result with its flags. -/
def pushFl (w64 : Bool) (r : Nat × Word) : X Unit := do
  raiseFlags r.2
  pushN w64 r.1
/-- Minimum or maximum of f32 sources (R356). -/
def f32Mm (a b : Src) (isMax num : Bool) : X Unit := do
  let x ← srcF 0 a
  let y ← srcF 1 b
  pushFl false (fMinMax f32 isMax num x.toNat y.toNat)
/-- Minimum or maximum of f64 sources. -/
def f64Mm (a b : Src) (isMax : Bool) : X Unit := do
  let x ← src64 a
  let y ← src64 b
  pushFl true (fMinMax f64 isMax false x.toNat y.toNat)
/-- a + b, a − b and a · b as sums of products. -/
def tAdd (x y : FV) : List (FV × FV) := [(x, .one), (y, .one)]
def tSub (x y : FV) : List (FV × FV) := [(x, .one), (y.flip, .one)]
def tMul (x y : FV) : List (FV × FV) := [(x, y)]
/-- Half l of a 32-bit word. -/
def halfOf (l : Nat) (x : Word) : Nat := x.toNat / 2 ^ (16 * l) % 2 ^ 16
/-- Both f16 lanes of up to three words, lane 0 rounded first (R355). -/
def halves (r : RM) (f : Nat → List (FV × FV)) : X Unit := do
  let u0 ← drawSR r
  let (c0, f0) := fusedSum f16 r u0 (f 0)
  let u1 ← drawSR r
  let (c1, f1) := fusedSum f16 r u1 (f 1)
  raiseFlags (f0 ||| f1)
  push32 (w32 (c0 + 2 ^ 16 * c1))
/-- A half as a value. -/
def halfV (f : IFmt) (x : Word) (l : Nat) : FV := f.dec (halfOf l x)

/-! ### FALU2 (Table 14.4) -/

/-- FADD. -/
def execFadd (hd : Hd) (a b : Src) (r : RM) (st : State) : Out := runWord hd.gd 1 (f32Bin a b r tAdd) st
/-- FSUB. -/
def execFsub (hd : Hd) (a b : Src) (r : RM) (st : State) : Out := runWord hd.gd 1 (f32Bin a b r tSub) st
/-- FMUL. -/
def execFmul (hd : Hd) (a b : Src) (r : RM) (st : State) : Out := runWord hd.gd 1 (f32Bin a b r tMul) st
/-- FMIN (R356). -/
def execFmin (hd : Hd) (a b : Src) (st : State) : Out := runWord hd.gd 1 (f32Mm a b false false) st
/-- FMAX. -/
def execFmax (hd : Hd) (a b : Src) (st : State) : Out := runWord hd.gd 1 (f32Mm a b true false) st
/-- FMINN. -/
def execFminn (hd : Hd) (a b : Src) (st : State) : Out := runWord hd.gd 1 (f32Mm a b false true) st
/-- FMAXN. -/
def execFmaxn (hd : Hd) (a b : Src) (st : State) : Out := runWord hd.gd 1 (f32Mm a b true true) st
/-- FRND (R357). -/
def execFrnd (hd : Hd) (a : Src) (r : RM) (st : State) : Out := runWord hd.gd 1 (do
  let x ← srcF 0 a
  let u ← drawSR r
  pushFl false (fRnd f32 r u x.toNat)) st
/-- FSCALE: b is an i32. -/
def execFscale (hd : Hd) (a b : Src) (r : RM) (st : State) : Out := runWord hd.gd 1 (do
  let x ← valF 0 a
  let y ← src32 b
  let u ← drawSR r
  pushFl false (fScale f32 r u x y.toInt)) st
/-- FGETX. -/
def execFgetx (hd : Hd) (a : Src) (st : State) : Out := runWord hd.gd 1 (do
  let x ← srcF 0 a
  let (v, fl) := fGetx f32 x.toNat
  raiseFlags fl
  push32 v) st
/-- FCLASS. -/
def execFclass (hd : Hd) (a : Src) (st : State) : Out := runWord hd.gd 1 (do
  let x ← srcF 0 a
  push32 (w32 (fClass f32 x.toNat))) st
/-- HADD2. -/
def execHadd2 (hd : Hd) (a b : Src) (r : RM) (st : State) : Out := runWord hd.gd 1 (do
  let x ← src32 a
  let y ← src32 b
  halves r (fun l => tAdd (halfV f16 x l) (halfV f16 y l))) st
/-- HMUL2. -/
def execHmul2 (hd : Hd) (a b : Src) (r : RM) (st : State) : Out := runWord hd.gd 1 (do
  let x ← src32 a
  let y ← src32 b
  halves r (fun l => tMul (halfV f16 x l) (halfV f16 y l))) st

/-! ### FALU3, HALU3 -/

/-- FFMA (R355). -/
def execFfma (hd : Hd) (a b d : Src) (r : RM) (st : State) : Out := runWord hd.gd 1 (do
  let x ← valF 0 a
  let y ← valF 1 b
  let z ← valF 2 d
  pushFused f32 r [(x, y), (z, .one)]) st
/-- FDOT2 over halves of a format: one rounding to f32 under RNE. -/
def dot2 (h : IFmt) (a b d : Src) : X Unit := do
  let x ← src32 a
  let y ← src32 b
  let z ← src32 d
  pushFused f32 .rne [(f32.dec z.toNat, .one), (halfV h x 0, halfV h y 0), (halfV h x 1, halfV h y 1)]
/-- FDOT2. -/
def execFdot2 (hd : Hd) (a b d : Src) (st : State) : Out := runWord hd.gd 1 (dot2 f16 a b d) st
/-- FDOT2.bf. -/
def execFdot2Bf (hd : Hd) (a b d : Src) (st : State) : Out := runWord hd.gd 1 (dot2 bf16 a b d) st
/-- HFMA2. -/
def execHfma2 (hd : Hd) (a b d : Src) (r : RM) (st : State) : Out := runWord hd.gd 1 (do
  let x ← src32 a
  let y ← src32 b
  let z ← src32 d
  halves r (fun l => [(halfV f16 x l, halfV f16 y l), (halfV f16 z l, .one)])) st

/-! ### DALU2, DALU3 -/

/-- DADD. -/
def execDadd (hd : Hd) (a b : Src) (r : RM) (st : State) : Out := runWord hd.gd 1 (f64Bin a b r tAdd) st
/-- DSUB. -/
def execDsub (hd : Hd) (a b : Src) (r : RM) (st : State) : Out := runWord hd.gd 1 (f64Bin a b r tSub) st
/-- DMUL. -/
def execDmul (hd : Hd) (a b : Src) (r : RM) (st : State) : Out := runWord hd.gd 1 (f64Bin a b r tMul) st
/-- DMIN. -/
def execDmin (hd : Hd) (a b : Src) (st : State) : Out := runWord hd.gd 1 (f64Mm a b false) st
/-- DMAX. -/
def execDmax (hd : Hd) (a b : Src) (st : State) : Out := runWord hd.gd 1 (f64Mm a b true) st
/-- DRND. -/
def execDrnd (hd : Hd) (a : Src) (r : RM) (st : State) : Out := runWord hd.gd 1 (do
  let x ← src64 a
  let u ← drawSR r
  pushFl true (fRnd f64 r u x.toNat)) st
/-- DSCALE: b is an i32. -/
def execDscale (hd : Hd) (a b : Src) (r : RM) (st : State) : Out := runWord hd.gd 1 (do
  let x ← valD a
  let y ← src32 b
  let u ← drawSR r
  pushFl true (fScale f64 r u x y.toInt)) st
/-- DGETX. -/
def execDgetx (hd : Hd) (a : Src) (st : State) : Out := runWord hd.gd 1 (do
  let x ← src64 a
  let (v, fl) := fGetx f64 x.toNat
  raiseFlags fl
  push32 v) st
/-- DCLASS. -/
def execDclass (hd : Hd) (a : Src) (st : State) : Out := runWord hd.gd 1 (do
  let x ← src64 a
  push32 (w32 (fClass f64 x.toNat))) st
/-- DFMA. -/
def execDfma (hd : Hd) (a b d : Src) (r : RM) (st : State) : Out := runWord hd.gd 1 (do
  let x ← valD a
  let y ← valD b
  let z ← valD d
  pushFused f64 r [(x, y), (z, .one)]) st

/-! ### FCMP (R352) -/

/-- Writes a floating relation's outcome with its flags; under .and with the predicate's own value. -/
def putFrel (p : Nat) (r : FRel) (n : Bool) (x y : FV) : X Unit := do
  let (t, fl) := fRel r x y
  raiseFlags fl
  let o ← readPred p
  writePred p (if n then o && t else t)
/-- FCMP. -/
def execFcmp (hd : Hd) (a b : Src) (p : Fin 8) (r : FRel) (n : Bool) (st : State) : Out := runWord hd.gd 0 (do
  let x ← valF 0 a
  let y ← valF 1 b
  putFrel p.val r n x y) st
/-- DCMP. -/
def execDcmp (hd : Hd) (a b : Src) (p : Fin 8) (r : FRel) (n : Bool) (st : State) : Out := runWord hd.gd 0 (do
  let x ← valD a
  let y ← valD b
  putFrel p.val r n x y) st
/-- FCMP.h: f16 from bits [15:0]. -/
def execFcmpH (hd : Hd) (a b : Src) (p : Fin 8) (r : FRel) (n : Bool) (st : State) : Out := runWord hd.gd 0 (do
  let x ← src32 a
  let y ← src32 b
  putFrel p.val r n (halfV f16 x 0) (halfV f16 y 0)) st

end Sys2Proof.Machine
end

