-- ==== Sys2Proof/Machine/Xgrp.lean ====
section
/-! DEFINITION. Cross-group words (R363 to R367) with the fixed trees of R265 to R267, and the forwarded forms (R368). -/
namespace Sys2Proof.Machine

/-- What a cross-group word computes once it has issued for the last thread of the set. -/
inductive XgOp where
  | shuf (m : XMode)
  | vote (f : VoteForm)
  | red (o : ScanOp) (t : ScanTy)
  | scan (o : ScanOp) (t : ScanTy) (ex : Bool)
  | mtch
  | elect
  | box
  | rast (n : Nat) (c : Cull)
deriving DecidableEq, Repr

/-- A type of R366: 64 bits, floating, unsigned, stochastic. -/
def stW : ScanTy → Bool
  | .i64 | .n64 | .f64 | .f64sr => true
  | _ => false
def stF : ScanTy → Option (IFmt × RM)
  | .f32 => some (f32, .rne)
  | .f64 => some (f64, .rne)
  | .f32sr => some (f32, .sr)
  | .f64sr => some (f64, .sr)
  | _ => none
def stU : ScanTy → Bool
  | .n32 | .n64 => true
  | _ => false

/-- One step op(x, y) with its flags; u is the draw of an SR step. -/
def scanStep (o : ScanOp) (t : ScanTy) (u x y : Nat) : Nat × Word :=
  match stF t with
  | some (f, rm) =>
    match o with
    | .min => fMinMax f false false x y
    | .max => fMinMax f true false x y
    | .mul => fMul f rm u (f.dec x) (f.dec y)
    | _ => fAdd f rm u (f.dec x) (f.dec y)
  | none =>
    let w := wid (stW t)
    match o with
    | .add => ((x + y) % 2 ^ w, 0)
    | .min => (minI w (stU t) x y, 0)
    | .max => (maxI w (stU t) x y, 0)
    | .and => (x &&& y, 0)
    | .or => (x ||| y, 0)
    | .xor => (x ^^^ y, 0)
    | .mul => (x * y % 2 ^ w, 0)

/-- Identities (R267). -/
def identOf (o : ScanOp) (t : ScanTy) : Nat :=
  match stF t with
  | some (f, _) =>
    match o with
    | .min => f.infCode false
    | .max => f.infCode true
    | .mul => (f.round .rne 0 false (Q.ofInt 1)).1
    | _ => 0
  | none =>
    let w := wid (stW t)
    match o with
    | .add | .or | .xor => 0
    | .and => 2 ^ w - 1
    | .min => (maxInt w (stU t)).toNat
    | .max => if stU t then 0 else 2 ^ (w - 1)
    | .mul => 1

/-- A value in a tree: the number, the flags of the steps it includes, the contributors it includes. -/
structure XV where
  v : Nat
  fl : Word
  inc : List Nat
deriving DecidableEq, Repr

/-- One step at position t, absent operands passed through; an SR step draws from t's generator, or that of the lowest
contributor the step includes (R265). -/
def treeStep (o : ScanOp) (ty : ScanTy) (t : Nat) (srs : AL DWord) (x y : Option XV) : Option XV × AL DWord :=
  match x, y with
  | none, y => (y, srs)
  | x, none => (x, srs)
  | some x, some y =>
    let inc := x.inc ++ y.inc
    let isSr := match stF ty with | some (_, .sr) => true | _ => false
    let (u, srs) :=
      if isSr then
        let who := if inc.contains t then t else inc.foldl min (inc.headD 0)
        let (z, u) := srNext (alGetD srs who 0)
        (u, alSet srs who z)
      else (0, srs)
    let (v, fl) := scanStep o ty u x.v y.v
    (some ⟨v, x.fl ||| y.fl ||| fl, inc⟩, srs)

/-- One level of REDUCE's tree: v[t] := op(v[t], v[t+d]) for t below d. -/
def redLevel (o : ScanOp) (ty : ScanTy) (d : Nat) (v : List (Option XV)) (srs : AL DWord) : List (Option XV) × AL DWord :=
  (List.range d).foldl (fun (acc : List (Option XV) × AL DWord) t =>
    let (r, srs) := treeStep o ty t acc.2 (acc.1.getD t none) (acc.1.getD (t + d) none)
    (acc.1.set t r, srs)) (v, srs)
/-- REDUCE's tree from d = W/2 down (R265). -/
def redTree (o : ScanOp) (ty : ScanTy) : List Nat → List (Option XV) → AL DWord → List (Option XV) × AL DWord
  | [], v, srs => (v, srs)
  | d :: ds, v, srs => let (v, srs) := redLevel o ty d v srs; redTree o ty ds v srs
/-- One level of SCAN: all t ≥ d at once from the values before. -/
def scanLevel (o : ScanOp) (ty : ScanTy) (w d : Nat) (v : List (Option XV)) (srs : AL DWord) : List (Option XV) × AL DWord :=
  ((List.range w).filter (fun t => decide (d ≤ t))).foldl (fun (acc : List (Option XV) × AL DWord) t =>
    let (r, srs) := treeStep o ty t acc.2 (v.getD (t - d) none) (v.getD t none)
    (acc.1.set t r, srs)) (v, srs)
/-- SCAN's levels d = 1, 2, 4, … (R266). -/
def scanTree (o : ScanOp) (ty : ScanTy) (w : Nat) : List Nat → List (Option XV) → AL DWord → List (Option XV) × AL DWord
  | [], v, srs => (v, srs)
  | d :: ds, v, srs => let (v, srs) := scanLevel o ty w d v srs; scanTree o ty w ds v srs

/-- The powers of two below w, ascending. -/
def levels (w : Nat) : List Nat := [1, 2, 4, 8, 16].filter (fun d => decide (d < w))

/-- The entry a value gives: for 32-bit types bit 32 says whether it combines a contribution. -/
def scanEntry (o : ScanOp) (ty : ScanTy) (x : Option XV) : DWord :=
  match x with
  | none => dw (identOf o ty)
  | some x => if stW ty then dw x.v else dw (x.v % 2 ^ 32 + 2 ^ 32)

/-- The contributor at a TID. -/
def xgAt (es : List XgEnt) (t : Int) : Option XgEnt :=
  if t < 0 then none else es.find? (fun e => e.contrib && e.tid == t.toNat)

/-- The number of a bit set by a condition on contributors. -/
def xgMask (es : List XgEnt) (p : XgEnt → Bool) : Nat :=
  (es.filter (fun e => e.contrib && p e)).foldl (fun m e => m + 2 ^ e.tid) 0

/-! ### Intervals (R430) -/

/-- Order of f32 codes that are no NaN: −0 below +0. -/
def f32Key (c : Nat) : Int := if c ≥ 2 ^ 31 then -((c - 2 ^ 31 : Nat) : Int) - 1 else c
/-- The canonical empty interval. -/
def boxEmpty : DWord := 0xFF8000007F800000
/-- An interval as it is read: min and max, none where it is empty (log entry 33). -/
def boxOf (x : DWord) : Option (Nat × Nat) :=
  let lo := if (f32.dec (bits x 31 0)).isNan then bits boxEmpty 31 0 else bits x 31 0
  let hi := if (f32.dec (bits x 63 32)).isNan then bits boxEmpty 63 32 else bits x 63 32
  if f32Key lo > f32Key hi then none else some (lo, hi)
/-- The union of intervals. -/
def boxUnion (xs : List DWord) : DWord :=
  match xs.filterMap boxOf with
  | [] => boxEmpty
  | b :: r =>
    let u := r.foldl (fun u x => (if f32Key x.1 < f32Key u.1 then x.1 else u.1, if f32Key u.2 < f32Key x.2 then x.2 else u.2)) b
    dw (u.2 * 2 ^ 32 + u.1)

/-! ### Rasterisation (R270 to R273) -/

/-- A coordinate snapped to 1/256 pixel; none where the triangle has no coverage. -/
def snap (c : Word) : Option Int :=
  match f32.dec c.toNat with
  | .fin n m e =>
    let x := (roundInt .rne 0 (Q.dy (if n then -(m : Int) else m) (e + 8))).1
    if -(2 ^ 22) ≤ x ∧ x < 2 ^ 22 then some x else none
  | _ => none
/-- Sample offsets (Table 11.2). -/
def samples : Nat → List (Int × Int)
  | 0 => [(128, 128)]
  | 1 => [(64, 64), (192, 192)]
  | 2 => [(96, 32), (224, 96), (32, 160), (160, 224)]
  | _ => [(16, 144), (48, 16), (80, 208), (112, 80), (144, 240), (176, 112), (208, 48), (240, 176)]
/-- The edge value from vertex i to vertex j at a point (R271). -/
def edgeAt (i j p : Int × Int) : Int := (j.1 - i.1) * (p.2 - i.2) - (j.2 - i.2) * (p.1 - i.1)
/-- A point is on the covered side of an edge. -/
def edgeIn (i j p : Int × Int) : Bool :=
  let e := edgeAt i j p
  let dy := j.2 - i.2
  decide (e > 0) || (e == 0 && (decide (dy < 0) || (dy == 0 && decide (j.1 - i.1 > 0))))
/-- A triangle set up for its walk: vertices as given, vertices for the edge tests, A, the walk box. -/
structure Tri where
  v0 : Int × Int
  v1 : Int × Int
  v2 : Int × Int
  e1 : Int × Int
  e2 : Int × Int
  a : Int
  x0 : Nat
  x1 : Nat
  y0 : Nat
  y1 : Nat
/-- R270 to R272: the triangle of the window; none where it has no coverage. -/
def triOf (g : List Word) (c : Cull) : Option Tri :=
  let r (i : Nat) : Word := g.getD i 0
  match snap (r 0), snap (r 1), snap (r 2), snap (r 3), snap (r 4), snap (r 5) with
  | some a, some b, some e, some f, some h, some k =>
    let A := (e - a) * (k - b) - (h - a) * (f - b)
    let lo (x y z : Int) : Int := min x (min y z) / 256
    let hi (x y z : Int) : Int := max x (max y z) / 256
    let sx0 := fld (r 6).toNat 15 0
    let sy0 := fld (r 6).toNat 31 16
    let sx1 := min 16383 (fld (r 7).toNat 15 0)
    let sy1 := min 16383 (fld (r 7).toNat 31 16)
    let bx0 := max (lo a e h) sx0
    let bx1 := min (hi a e h) sx1
    let by0 := max (lo b f k) sy0
    let by1 := min (hi b f k) sy1
    if A = 0 ∨ (c = .back ∧ A < 0) ∨ (c = .front ∧ A > 0) ∨ bx0 > bx1 ∨ by0 > by1 ∨ bx1 < 0 ∨ by1 < 0 then none
    else
      let p1 := (e, f)
      let p2 := (h, k)
      some ⟨(a, b), p1, p2, if A < 0 then p2 else p1, if A < 0 then p1 else p2, A, (max 0 bx0).toNat, bx1.toNat,
        (max 0 by0).toNat, by1.toNat⟩
  | _, _, _, _, _, _ => none
/-- MASK of a pixel. -/
def Tri.mask (t : Tri) (n : Nat) (x y : Nat) : Nat :=
  (samples n).zipIdx.foldl (fun m o =>
    let p : Int × Int := (256 * (x : Int) + o.1.1, 256 * (y : Int) + o.1.2)
    if edgeIn t.v0 t.e1 p && edgeIn t.e1 t.e2 p && edgeIn t.e2 t.v0 p then m + 2 ^ o.2 else m) 0
/-- Every second bit of a Morton index. -/
def unMorton (m : Nat) : Nat := m % 2 + 2 * (m / 4 % 2) + 4 * (m / 16 % 2)
/-- Tiles in a row of the walk. -/
def Tri.cols (t : Tri) : Nat := t.x1 / 8 - t.x0 / 8 + 1
/-- The pixel at a walk position. -/
def Tri.pixel (t : Tri) (pos : Nat) : Nat × Nat :=
  let tile := pos / 64
  let m := pos % 64
  ((t.x0 / 8 + tile % t.cols) * 8 + unMorton m, (t.y0 / 8 + tile / t.cols) * 8 + unMorton (m / 2))
/-- The covered pixels from a position on: position, x, y, mask; at most k of them. -/
def Tri.walk (t : Tri) (n : Nat) : Nat → Nat → Nat → List (Nat × Nat × Nat × Nat)
  | 0, _, _ => []
  | _, _, 0 => []
  | fuel + 1, pos, k + 1 =>
    let (x, y) := t.pixel pos
    let m := if t.x0 ≤ x ∧ x ≤ t.x1 ∧ t.y0 ≤ y ∧ y ≤ t.y1 then t.mask n x y else 0
    if m = 0 then t.walk n fuel (pos + 1) (k + 1) else (pos, x, y, m) :: t.walk n fuel (pos + 1) k
/-- The three entries of each thread (R273): the threads take the covered pixels in order from the token on. -/
def rastEntries (g : List Word) (n : Nat) (c : Cull) (token : Nat) (tids : List Nat) : List (Nat × List DWord) :=
  let k := tids.length
  let done : Nat := 2 ^ 32 - 1
  match (if token = done then none else triOf g c) with
  | none => tids.map (fun t => (t, [0, 0, dw done]))
  | some t =>
    let total := 64 * t.cols * (t.y1 / 8 - t.y0 / 8 + 1)
    let ps := t.walk n (total - token) token (k + 1)
    let tok := if ps.length ≤ k then done else match ps[k - 1]? with | some p => p.1 + 1 | none => done
    tids.zipIdx.map (fun x =>
      match (ps.take k)[x.2]? with
      | none => (x.1, [0, 0, dw tok])
      | some (_, px, py, m) =>
        let p : Int × Int := (256 * (px : Int) + 128, 256 * (py : Int) + 128)
        let f (e : Int) : Nat := (f32.round .rne 0 false ((Q.ofInt e).div (Q.ofInt t.a))).1
        (x.1, [dw (2 ^ 63 + m * 2 ^ 48 + py * 2 ^ 16 + px), dw (f (edgeAt t.v2 t.v0 p) * 2 ^ 32 + f (edgeAt t.v0 t.v1 p)),
          dw tok]))

/-- Entries and flags for every receiver, and the generators after the draws (R364 to R367). -/
def xgResults (w : Nat) (set : List Nat) (g : List Word) (es : List XgEnt) (op : XgOp) (srs : AL DWord) :
    List (Nat × List DWord × Word) × AL DWord :=
  let vals : List (Option XV) := (List.range w).map (fun (t : Nat) =>
    (xgAt es (t : Int)).map (fun e => ⟨e.a.toNat, 0, [t]⟩))
  match op with
  | .shuf m =>
    (es.map (fun e =>
      let b := e.b.toNat
      let src : Int := match m with
        | .index => (b % w : Nat)
        | .up => (e.tid : Int) - b
        | .down => (e.tid : Int) + b
        | .xor => (e.tid ^^^ (b % w) : Nat)
      match (if src < w then xgAt es src else none) with
      | some x => (e.tid, [dw (x.a.toNat % 2 ^ 32 + 2 ^ 32)], 0)
      | none => (e.tid, [dw (e.a.toNat % 2 ^ 32)], 0)), srs)
  | .vote f =>
    let cs := es.filter (·.contrib)
    let v (_ : XgEnt) : DWord := match f with
      | .all => if cs.all (fun x => x.a != 0) then 1 else 0
      | .any => if cs.any (fun x => x.a != 0) then 1 else 0
      | .ballot => dw (xgMask es (fun x => x.a != 0))
      | .uni => if cs.all (fun x => x.a == (cs.head?.map (·.a)).getD 0) then 1 else 0
    (es.map (fun e => (e.tid, [v e], 0)), srs)
  | .mtch => (es.map (fun e => (e.tid, [dw (xgMask es (fun x => x.a == e.a))], 0)), srs)
  | .elect =>
    let lo := es.foldl (fun m e => min m e.tid) (es.head?.map (·.tid) |>.getD 0)
    (es.map (fun e => (e.tid, [if e.tid = lo then 1 else 0], 0)), srs)
  | .rast n c =>
    ((rastEntries g n c ((es.head?.map (·.a.toNat)).getD 0) (es.map (·.tid))).map (fun x => (x.1, x.2, 0)), srs)
  | .box =>
    let u := boxUnion ((es.filter (·.contrib)).map (·.a))
    (es.map (fun e => (e.tid, [u], 0)), srs)
  | .red o ty =>
    let (v, srs) := redTree o ty (levels w).reverse vals srs
    let r := v.getD 0 none
    (es.map (fun e => (e.tid, [scanEntry o ty r], (r.map (·.fl)).getD 0)), srs)
  | .scan o ty ex =>
    let (v, srs) := scanTree o ty w (levels w) vals srs
    let at_ (t : Nat) : Option XV :=
      if ex then
        match (set.filter (fun x => decide (x < t))) with
        | [] => none
        | x :: r => v.getD (r.foldl max x) none
      else v.getD t none
    (es.map (fun e => (e.tid, [scanEntry o ty (at_ e.tid)], ((at_ e.tid).map (·.fl)).getD 0)), srs)

/-- The name of the k-th pending entry of a cross-group word of the run at hand: no arrival has it. -/
def xgId (word k : Nat) : Nat := 2 ^ 64 + 256 * word + k

/-- Fills a thread's entries that wait for a name. -/
def Thr.fillEnt (t : Thr) (id : Nat) (v : DWord) (poison : Bool) : Thr :=
  let f (e : QEnt) : QEnt := if e.st == .pending id then ⟨v, if poison then .poison else .full⟩ else e
  { t with rt := { t.rt with q := t.rt.q.map f, commits := t.rt.commits.map (fun c => { c with ent := f c.ent }) } }

/-- Fills the entries of a cross-group word once it has issued for the last thread of the set (R363). -/
def State.fillXg (s : State) (lane word : Nat) (op : XgOp) : State :=
  match (s.laneD lane).run with
  | none => s
  | some r =>
    match s.grp? r.grp with
    | none => s
    | some g =>
      let w := if isChard (laneCore lane) then 32 else 1
      let es := r.xg.filter (fun e => e.word == word && r.set.contains e.tid)
      let thr (tid : Nat) : Option (Nat × Thr) := (alGet g.mem tid).bind (fun t => (s.thr? t).map (fun th => (t, th)))
      let srs : AL DWord := es.filterMap (fun e => (thr e.tid).map (fun x => (e.tid, x.2.rt.srs)))
      let win := (List.range 8).map (fun i => g.uni (g.ub + i))
      let (rs, srs) := xgResults w r.set win es op srs
      let s := rs.foldl (fun s (x : Nat × List DWord × Word) =>
        match alGet g.mem x.1 with
        | none => s
        | some t => s.modThr t (fun th =>
            let th := x.2.1.zipIdx.foldl (fun th v => th.fillEnt (xgId word v.2) v.1 false) th
            { th with rt := { th.rt with flags := th.rt.flags ||| x.2.2, srs := alGetD srs x.1 th.rt.srs } })) s
      s.modLane lane (fun l => { l with run := l.run.map (fun r => { r with xg := r.xg.filter (·.word != word) }) })

/-- A cross-group word: the thread joins with its operands and gets pending entries; the last thread's issue fills all. -/
def runXgN (g : Guard) (n : Nat) (op : XgOp) (x : X (Bool × DWord × Word)) (st : State) : Out :=
  match runWord g n (do
      let (c, a, b) ← x
      let s ← get
      modify (fun s => s.modRun (fun r => { r with xg := r.xg ++ [⟨s.iss.word, s.cur.tid, c, a, b⟩] }))
      forX (fun (k : Nat) => pushEnt ⟨0, .pending (xgId s.iss.word k)⟩) (List.range n)) st with
  | .next s => .next (if st.iss.last && !s.iss.stalled then s.fillXg st.iss.lane st.iss.word op else s)
  | o => o

/-- A cross-group word with one entry. -/
def runXg (g : Guard) (op : XgOp) (x : X (Bool × DWord × Word)) (st : State) : Out := runXgN g 1 op x st

/-- A 32-bit operand that every guard-true thread contributes. -/
def xgOne (a : Src) : X (Bool × DWord × Word) := do
  let x ← src32 a
  pure (true, dw x.toNat, 0)
/-- Two 32-bit operands. -/
def xgTwo (a b : Src) : X (Bool × DWord × Word) := do
  let x ← src32 a
  let y ← src32 b
  pure (true, dw x.toNat, y)
/-- A value of the type and an exclusion operand (R366). -/
def xgScan (t : ScanTy) (a b : Src) : X (Bool × DWord × Word) := do
  let x ← (if stW t then src64 a else do
    let v ← src32 a
    pure (dw v.toNat))
  let y ← src32 b
  pure (y == 0, x, y)

/-- XSHUF (R364). -/
def execXshuf (hd : Hd) (a b : Src) (m : XMode) (st : State) : Out := runXg hd.gd (.shuf m) (xgTwo a b) st
/-- VOTE (R365). -/
def execVote (hd : Hd) (a b : Src) (m : VoteForm) (st : State) : Out := runXg hd.gd (.vote m) (xgTwo a b) st
/-- REDUCE (R366). -/
def execReduce (hd : Hd) (a b : Src) (o : ScanOp) (t : ScanTy) (st : State) : Out := runXg hd.gd (.red o t) (xgScan t a b) st
/-- SCAN. -/
def execScan (hd : Hd) (a b : Src) (o : ScanOp) (t : ScanTy) (st : State) : Out :=
  runXg hd.gd (.scan o t false) (xgScan t a b) st
/-- SCAN.X. -/
def execScanX (hd : Hd) (a b : Src) (o : ScanOp) (t : ScanTy) (st : State) : Out :=
  runXg hd.gd (.scan o t true) (xgScan t a b) st
/-- MATCH (R367). -/
def execMatchX (hd : Hd) (a : Src) (w : Bool) (st : State) : Out := runXg hd.gd .mtch
  (if w then do
    let x ← src64 a
    pure (true, x, 0)
  else xgOne a) st
/-- ELECT. -/
def execElect (hd : Hd) (st : State) : Out := runXg hd.gd .elect (pure (true, 0, 0)) st

/-- What a word fills for its set, if it is a cross-group word. -/
def xgOpOf : Instr → Option XgOp
  | .xshuf _ _ _ m => some (.shuf m)
  | .vote _ _ _ m => some (.vote m)
  | .reduce _ _ _ o t => some (.red o t)
  | .scan _ _ _ o t => some (.scan o t false)
  | .scanX _ _ _ o t => some (.scan o t true)
  | .matchX _ _ _ => some .mtch
  | .elect _ => some .elect
  | .boxu _ _ _ .set => some .box
  | .rast _ _ n c => some (.rast n.val c)
  | _ => none

/-! ### Forwarded forms (R368) -/

/-- The effect of an INTF op on 32-bit numbers (Table 14.7). -/
def intfF (o : IntfOp) (x y : Nat) : Nat :=
  match o with
  | .add => x + y
  | .sub => modW 32 ((x : Int) - y)
  | .mul => x * y
  | .min => minI 32 false x y
  | .max => maxI 32 false x y
  | .minu => minI 32 true x y
  | .maxu => maxI 32 true x y
  | .and => x &&& y
  | .or => x ||| y
  | .xor => x ^^^ y
  | .andn => x &&& notI 32 y
  | .shl => shlI 32 x y
  | .shr => shrI 32 x y
  | .sar => sarI 32 x y
  | .mov => y
/-- INTF: with REV the forwarded value is the first operand; MOV gives the forwarded value. -/
def execIntf (hd : Hd) (a : Src) (f : Fin 32) (k : Fin 8) (o : IntfOp) (v : Bool) (st : State) : Out :=
  runWord hd.gd 1 (do
    let x ← srcI 0 a
    let y ← readFwd f.val (k.val + 1)
    push32 (w32 (if v then intfF o y.toNat x.toNat else intfF o x.toNat y.toNat))) st
/-- FLTF. -/
def execFltf (hd : Hd) (a : Src) (f : Fin 32) (k : Fin 8) (o : FltfOp) (v : Bool) (r : RM) (st : State) : Out :=
  runWord hd.gd 1 (do
    let x ← srcF 0 a
    let y ← readFwd f.val (k.val + 1)
    let p := if v then y else x
    let q := if v then x else y
    match o with
    | .fadd => pushFused f32 r (tAdd (f32.dec p.toNat) (f32.dec q.toNat))
    | .fsub => pushFused f32 r (tSub (f32.dec p.toNat) (f32.dec q.toNat))
    | .fmul => pushFused f32 r (tMul (f32.dec p.toNat) (f32.dec q.toNat))
    | .fmin => pushFl false (fMinMax f32 false false p.toNat q.toNat)
    | .fmax => pushFl false (fMinMax f32 true false p.toNat q.toNat)) st

end Sys2Proof.Machine
end

