-- ==== Sys2Proof/Machine/Render.lean ====
section
/-! DEFINITION. The words of GFX (R427 to R432): the raster walk, ray traversal (R275 to R286), intervals, the surface-area
cost and child references. -/
namespace Sys2Proof.Machine

/-! ### Extended rationals -/

/-- A rational or an infinity. -/
inductive EQ where
  | ninf
  | fin (q : Q)
  | pinf
deriving DecidableEq, Repr
/-- a ≤ b. -/
def EQ.le : EQ → EQ → Bool
  | .ninf, _ => true
  | _, .pinf => true
  | .fin a, .fin b => a.le b
  | _, _ => false
def EQ.lt (a b : EQ) : Bool := !b.le a
def EQ.max (a b : EQ) : EQ := if a.le b then b else a
def EQ.min (a b : EQ) : EQ := if a.le b then a else b
/-- The value of an f32 code that is no NaN. -/
def EQ.ofCode (c : Nat) : EQ :=
  match f32.dec c with
  | .inf true => .ninf
  | .inf false => .pinf
  | v => .fin v.q
/-- The f32 code of a value, rounded RNE. -/
def EQ.code : EQ → Nat
  | .ninf => f32.infCode true
  | .pinf => f32.infCode false
  | .fin q => (f32.round .rne 0 false q).1

/-! ### Intersection tests (R281) -/

/-- An f32 code is a NaN. -/
def isNanC (c : Nat) : Bool := (f32.dec c).isNan
/-- The exact values of three codes, where all are finite (log entry 34). -/
def vec3 (cs : List Nat) : Option (Q × Q × Q) :=
  match cs.map f32.dec with
  | [.fin a b c, .fin d e f, .fin g h i] => some ((FV.fin a b c).q, (FV.fin d e f).q, (FV.fin g h i).q)
  | _ => none
/-- The slab of one axis: the interval of t, none where it is empty. -/
def slab (o d : Q) (lo hi : EQ) : Option (EQ × EQ) :=
  if d.n = 0 then (if lo.le (.fin o) && (EQ.fin o).le hi then some (.ninf, .pinf) else none)
  else
    let f (b : EQ) : EQ := match b with
      | .fin b => .fin ((b.sub o).div d)
      | .pinf => if d.n > 0 then .pinf else .ninf
      | .ninf => if d.n > 0 then .ninf else .pinf
    if d.n > 0 then some (f lo, f hi) else some (f hi, f lo)
/-- The exact slab intersection of a ray with a box of six codes (R276): entry and leave; none where it is empty. -/
def boxHit (o d : List Nat) (box : List Nat) : Option (EQ × EQ) :=
  let c (i : Nat) : Nat := box.getD i 0
  match vec3 o, vec3 d with
  | some (ox, oy, oz), some (dx, dy, dz) =>
    if box.any isNanC then none
    else
      let e (i : Nat) : EQ := EQ.ofCode (c i)
      if (e 3).lt (e 0) || (e 4).lt (e 1) || (e 5).lt (e 2) then none
      else match slab ox dx (e 0) (e 3), slab oy dy (e 1) (e 4), slab oz dz (e 2) (e 5) with
        | some a, some b, some g => some (EQ.max a.1 (EQ.max b.1 g.1), EQ.min a.2 (EQ.min b.2 g.2))
        | _, _, _ => none
  | _, _ => none
/-- The entry distance over [TMIN, +∞) of a box that meets the ray over [TMIN, t_cur]. -/
def boxMeets (o d box : List Nat) (tmin tcur : Nat) : Option EQ :=
  match boxHit o d box with
  | none => none
  | some (a, b) =>
    let lo := EQ.max a (EQ.ofCode tmin)
    if lo.le b && lo.le (EQ.ofCode tcur) then some lo else none
/-- Exact vectors. -/
abbrev V3 := Q × Q × Q
def V3.sub (a b : V3) : V3 := (a.1.sub b.1, a.2.1.sub b.2.1, a.2.2.sub b.2.2)
def V3.dot (a b : V3) : Q := (a.1.mul b.1).add ((a.2.1.mul b.2.1).add (a.2.2.mul b.2.2))
def V3.cross (a b : V3) : V3 :=
  ((a.2.1.mul b.2.2).sub (a.2.2.mul b.2.1), (a.2.2.mul b.1).sub (a.1.mul b.2.2), (a.1.mul b.2.1).sub (a.2.1.mul b.1))
/-- A triangle hit: T, U and V as f32 codes; cull is CULLB and CULLF. -/
def triHit (o d v0 v1 v2 : List Nat) (cullB cullF : Bool) : Option (Nat × Nat × Nat) :=
  match vec3 o, vec3 d, vec3 v0, vec3 v1, vec3 v2 with
  | some o, some d, some a, some b, some c =>
    let e1 := V3.sub b a
    let e2 := V3.sub c a
    let n := V3.cross e1 e2
    let D := V3.dot d n
    let nn := V3.dot n n
    if nn.n = 0 ∨ D.n = 0 ∨ (cullB ∧ D.n > 0) ∨ (cullF ∧ D.n < 0) then none
    else
      let t := (V3.dot (V3.sub a o) n).div D
      let p : V3 := (o.1.add (t.mul d.1), o.2.1.add (t.mul d.2.1), o.2.2.add (t.mul d.2.2))
      let w := V3.sub p a
      let u := (V3.dot (V3.cross w e2) n).div nn
      let v := (V3.dot (V3.cross e1 w) n).div nn
      if u.n < 0 ∨ v.n < 0 ∨ Q.lt (Q.ofInt 1) (u.add v) then none
      else
        let r (x : Q) : Nat := (f32.round .rne 0 false x).1
        some (r t, r u, r v)
  | _, _, _, _, _ => none

/-! ### Rays (R278 to R283) -/

/-- n bytes of a little-endian number at byte k. -/
def byteFld (x k n : Nat) : Nat := x / 256 ^ k % 256 ^ n
/-- Three consecutive f32 codes at byte k. -/
def codes3 (x k : Nat) : List Nat := [byteFld x k 4, byteFld x (k + 4) 4, byteFld x (k + 8) 4]
/-- Fields of a ray record (R279). -/
def rayOrg (x : Nat) : List Nat := codes3 x 0
def rayDir (x : Nat) : List Nat := codes3 x 12
def rayTmin (x : Nat) : Nat := byteFld x 24 4
def rayTmax (x : Nat) : Nat := byteFld x 28 4
def rayRoot (x : Nat) : Nat := byteFld x 32 8
def rayFlags (x : Nat) : Nat := byteFld x 40 4
def raySpoff (x : Nat) : Nat := byteFld x 44 4
/-- Spill entries of the launch (R59). -/
def spillOf (s : State) : Nat := (s.curLaunch.map (·.spill)).getD 0
/-- A ray record keeps the rules of R279; SPOFF is a multiple of 16 (log entry 36). -/
def recOk (x bytes spill : Nat) : Bool :=
  let f (k : Nat) : FV := f32.dec (byteFld x k 4)
  let spoff := byteFld x 44 4
  (([0, 4, 8, 12, 16, 20, 24, 28] : List Nat).all (fun k => !(f k).isNan)) &&
    (([12, 16, 20] : List Nat).any (fun k => !(f k).isZero)) && !fvLt (f 28) (f 24) &&
    byteFld x 40 4 &&& 0xFFFF00F8 == 0 && byteFld x 48 16 == 0 && spoff % 16 == 0 &&
    decide (spoff + 256 + 16 * spill ≤ bytes)
/-- Fields of a child reference (R275). -/
def refType (r : Nat) : Nat := fld r 63 61
def refCnt (r : Nat) : Nat := fld r 60 57
def refAddr (r : Nat) : Nat := fld r 54 6 * 64
def refBad (r : Nat) : Bool :=
  decide (refType r ≥ 5) || (decide (refType r ≤ 1) && refCnt r != 0) || fld r 56 55 != 0 || fld r 5 0 != 0 ||
    (refType r == 1 && r.testBit 6)
/-- INST of an entry. -/
def instOf (i : Option Nat) : Nat := i.getD 0xFFFFFFFF
/-- A hit is accepted (R283). -/
def accepts (tmin : Nat) (w : RayWalk) (h : RayHit) : Bool :=
  let t := f32.dec h.t
  !t.isNan && !fvLt t (f32.dec tmin) && !fvLt (f32.dec w.tcur) t &&
    (fvLt t (f32.dec w.tcur) || (match w.best with
      | none => true
      | some b => keyLt (h.inst, h.geom, h.prim) (b.inst, b.geom, b.prim)))
/-- Offers a hit to the ray of a record: under ANY an accepted one ends the traversal. -/
def offer (x : Nat) (w : RayWalk) (h : RayHit) : RayWalk × Bool :=
  if accepts (rayTmin x) w h then ({ w with tcur := h.t, best := some h }, (rayFlags x).testBit 0) else (w, false)
/-- What a traversal comes to: H0 to H2 are made of it; a candidate, at its T, leaves the ray suspended. -/
inductive RayOut where
  | final
  | cand (t : Nat)
  | err (code : Nat)
/-- A read of n bytes by a unit, under its own id (R269, R285). -/
def unitRead (who : Who) (va n : Nat) : X Nat := do
  let v ← readLines who .read va 9 n
  needClean va v
/-- The children of a node that the ray meets, in order of entry, ties to the lower index (R282). An empty child is not met, whatever its
other bits (log entry 110). -/
def children (o d : List Nat) (it : RayItem) (node tmin tcur : Nat) : List RayItem :=
  let cs := (List.range 4).filterMap (fun k =>
    let ref := byteFld node (96 + 8 * k) 8
    let box := (List.range 6).map (fun j => byteFld node (24 * k + 4 * j) 4)
    if refType ref = 0 then none
    else match boxMeets o d box tmin tcur with
      | none => none
      | some e => some (e, ref, box))
  (isort (fun (a b : EQ × Nat × List Nat) => a.1.le b.1) cs).zipIdx.map (fun c =>
    ⟨c.1.2.1, c.2, it.depth + 1, it.inst, c.1.2.2⟩)
/-- o′ and d′ of an instance (R278). -/
def instRay (x : Nat) (o d : List Nat) : List Nat × List Nat :=
  let m (i j : Nat) : FV := f32.dec (byteFld x (16 * i + 4 * j) 4)
  let v (l : List Nat) (j : Nat) : FV := f32.dec (l.getD j 0)
  let row (i : Nat) (l : List Nat) (t : Bool) : Nat :=
    (fusedSum f32 .rne 0 ([(m i 0, v l 0), (m i 1, v l 1), (m i 2, v l 2)] ++ (if t then [(m i 3, .one)] else []))).1
  ((List.range 3).map (fun i => row i o true), (List.range 3).map (fun i => row i d false))
/-- Depth of a tree at most (R280). -/
def maxDepth : Nat := 64
namespace RayWalk
/-- The ray of the tree an item lies in: o and d of the record, or o′ and d′. -/
def ray (w : RayWalk) (x : Nat) (inst : Bool) : List Nat × List Nat :=
  match w.inst with
  | some i => if inst then (i.o, i.d) else (rayOrg x, rayDir x)
  | none => (rayOrg x, rayDir x)
/-- Changes the trail of a tree. -/
def modTrail (w : RayWalk) (inst : Bool) (f : List Nat → List Nat) : RayWalk :=
  if inst then { w with trailInst := f w.trailInst } else { w with trailTop := f w.trailTop }
/-- Of an item's parent n children are finished; deeper counts go. -/
def mark (w : RayWalk) (it : RayItem) (n : Nat) : RayWalk :=
  if it.depth < 2 then w.modTrail it.inst (fun _ => [])
  else w.modTrail it.inst (fun l => l.take (it.depth - 2) ++ [n])
/-- An item is finished: every leaf under it has been tested or culled. -/
def finish (w : RayWalk) (it : RayItem) : RayWalk :=
  { (w.mark it (it.rank + 1)) with leaf := none, item := none, follow := false }
/-- A push (R282): a 13th entry on chip moves the oldest there to the spill area; where 12 + SPILL entries stand, the oldest is
discarded and its tree is lost. -/
def push (w : RayWalk) (spill : Nat) (it : RayItem) : RayWalk :=
  if w.chip < 12 then { w with stack := it :: w.stack, chip := w.chip + 1 }
  else
    let out := w.stack.length - w.chip
    let w := if out < spill then w
      else match w.stack.getLast? with
        | none => w
        | some o =>
          let w := { w with stack := w.stack.dropLast, base := w.base + 1 }
          if o.inst then { w with lostInst := true } else { w with lostTop := true }
    let out := w.stack.length - 12
    { w with
      stack := it :: w.stack
      wrote := if spill = 0 then w.wrote else w.wrote ++ [(w.base + out) % spill] }
/-- A pop: an empty chip reloads the newest spilled entry. -/
def pop (w : RayWalk) : RayWalk := { w with stack := w.stack.drop 1, chip := w.chip - 1 }
/-- The spill slots in use. -/
def used (w : RayWalk) (spill : Nat) : List Nat := (List.range (w.stack.length - w.chip)).map (fun i => (w.base + i) % spill)
/-- The traversal of a record's ray before its first item (R282). -/
def start (x : Nat) : RayWalk := {
  stack := [], chip := 0, base := 0, lostTop := false, lostInst := false, trailTop := [], trailInst := [], follow := false
  inst := none, leaf := none, item := some ⟨rayRoot x, 0, 1, false, []⟩
  tcur := rayTmax x, best := none, cand := (0, 0, 0), wrote := [] }
end RayWalk
/-- The newest stack entry leaves the stack; one whose box no longer meets the ray is culled (R282). -/
def popItem (x : Nat) (w : RayWalk) (it : RayItem) : RayWalk :=
  let r := w.ray x it.inst
  let w := w.pop
  if (boxMeets r.1 r.2 it.box (rayTmin x) w.tcur).isNone then w.finish it
  else { (w.mark it it.rank) with item := some it, follow := false }
/-- What follows an exhausted leaf or subtree (R282): the next stack entry; at the end of an instance's tree a restart from its
root if the tree is lost, else the record after it; at the end of the stack a restart from ROOT if the top tree is lost, else
the end. -/
def popNext (x : Nat) (w : RayWalk) : RayWalk × Option RayOut :=
  match w.inst with
  | some i =>
    match w.stack with
    | it :: _ => if it.inst then (popItem x w it, none) else instEnd w i
    | [] => instEnd w i
  | none =>
    match w.stack with
    | it :: _ => (popItem x w it, none)
    | [] =>
      if w.lostTop then ({ w with lostTop := false, item := some ⟨rayRoot x, 0, 1, false, []⟩, follow := true }, none)
      else (w, some .final)
where
  instEnd (w : RayWalk) (i : RayInst) : RayWalk × Option RayOut :=
    if w.lostInst then ({ w with lostInst := false, item := some ⟨i.root, 0, 1, true, []⟩, follow := true }, none)
    else ({ w with inst := none, trailInst := [], leaf := some (i.leaf, i.next) }, none)
/-- A node or a leaf is entered (R282): a node's first unfinished child is descended, the others are pushed, the nearest last. -/
def enterItem (who : Who) (x spill : Nat) (w : RayWalk) (it : RayItem) : X (RayWalk × Option RayOut) :=
  if refBad it.ref then pure (w, some (.err 2))
  else match refType it.ref with
    | 0 => pure (w.finish it, none)
    | 1 =>
      if it.depth > maxDepth then pure (w, some (.err 3))
      else do
        let n ← unitRead who (refAddr it.ref) 128
        let r := w.ray x it.inst
        let trail := if it.inst then w.trailInst else w.trailTop
        let k := if w.follow then trail.getD (it.depth - 1) 0 else 0
        match (children r.1 r.2 it n (rayTmin x) w.tcur).drop k with
        | [] => pure (w.finish it, none)
        | c :: rest =>
          let w := if w.follow && decide (it.depth < trail.length) then w else w.mark c c.rank
          let w := { w with item := some c, follow := w.follow && decide (it.depth < trail.length) }
          pure (rest.reverse.foldl (fun w o => w.push spill o) w, none)
    | _ => pure ({ w with leaf := some (it, 0), item := none, follow := false }, none)
/-- One record of a leaf (R277, R278, R281). -/
def leafRecord (who : Who) (x : Nat) (w : RayWalk) (it : RayItem) (k : Nat) : X (RayWalk × Option RayOut) :=
  let at_ (size : Nat) : Nat := refAddr it.ref + k * size
  let r := w.ray x it.inst
  let num := instOf (if it.inst then w.inst.map (·.num) else none)
  let w := { w with leaf := some (it, k + 1) }
  match refType it.ref with
  | 2 => do
    let y ← unitRead who (at_ 48) 48
    if byteFld y 39 1 ≠ 0 ∨ byteFld y 44 4 ≠ 0 then pure (w, some (.err 2))
    else match triHit r.1 r.2 (codes3 y 0) (codes3 y 12) (codes3 y 24) ((rayFlags x).testBit 1) ((rayFlags x).testBit 2) with
      | none => pure (w, none)
      | some (t, u, v) =>
        let (w, stop) := offer x w ⟨t, num, byteFld y 36 3, byteFld y 40 4, u, v⟩
        pure (w, if stop then some .final else none)
  | 3 =>
    if it.inst then pure (w, some (.err 2))
    else do
      let y ← unitRead who (at_ 64) 64
      let ref := byteFld y 48 8
      if byteFld y 60 4 ≠ 0 ∨ refBad ref ∨ !([1, 2, 4].contains (refType ref)) then pure (w, some (.err 2))
      else if byteFld y 59 1 &&& fld (rayFlags x) 15 8 = 0 then pure (w, none)
      else
        let (o, d) := instRay y r.1 r.2
        pure ({ w with
          inst := some ⟨byteFld y 56 3, ref, o, d, it, k + 1⟩
          leaf := none, item := some ⟨ref, 0, 1, true, []⟩, follow := false, lostInst := false, trailInst := [] }, none)
  | _ => do
    let y ← unitRead who (at_ 32) 32
    if byteFld y 27 1 ≠ 0 then pure (w, some (.err 2))
    else match boxMeets r.1 r.2 ((List.range 6).map (fun j => byteFld y (4 * j) 4)) (rayTmin x) w.tcur with
      | none => pure (w, none)
      | some e => pure ({ w with cand := (num, byteFld y 24 3, byteFld y 28 4) }, some (.cand e.code))
/-- Depth-first traversal (R282), an item, a record or a pop at a time. -/
def traverse (who : Who) (x spill : Nat) : Nat → RayWalk → X (RayWalk × RayOut)
  | 0, w => pure (w, .final)
  | fuel + 1, w => do
    let (w, out) ← (match w.leaf, w.item with
      | some (it, k), _ => if k > refCnt it.ref then pure (w.finish it, none) else leafRecord who x w it k
      | none, some it => enterItem who x spill w it
      | none, none => pure (popNext x w))
    match out with
    | some o => pure (w, o)
    | none => traverse who x spill fuel w
/-- More entries and records than any tree of 64 levels below 64 levels of instances holds. -/
def rayFuel : Nat := 2 ^ 300

/-! ### H0 to H2 (R280) -/

/-- The entries of a result: T, KIND, ERR, GEOM; INST, PRIM; U, V. -/
def rayEntries (t kind err geom inst prim u v : Nat) : List DWord :=
  [dw (t * 2 ^ 32 + kind * 2 ^ 28 + err * 2 ^ 24 + geom), dw (inst * 2 ^ 32 + prim), dw (u * 2 ^ 32 + v)]
/-- A miss or an error names nothing. -/
def rayNone (t kind err : Nat) : List DWord := rayEntries t kind err 0xFFFFFF 0xFFFFFFFF 0xFFFFFFFF 0 0
/-- The result of KIND 3; T is a free value, since no rule gives it. -/
def rayError (code : Nat) : X (List DWord) := do
  let f ← freeX
  pure (rayNone (lo32 f).toNat 3 code)
/-- Writes n free 64-bit words into a residency's scratchpad: bytes whose layout no rule gives (R279, R284; log entry 37). -/
def freeSpill (rid off : Nat) : Nat → X Unit
  | 0 => pure ()
  | n + 1 => do
    let f ← freeX
    let p ← locPlace rid off 8 off
    modify (fun s => p.st.write s p.a 8 f.toNat)
    freeSpill rid (off + 8) n
/-- The spill slots a traversal wrote take free bytes. -/
def freeSpillSlots (rid off : Nat) : List Nat → X Unit
  | [] => pure ()
  | k :: r => do
    freeSpill rid (off + 16 * k) 2
    freeSpillSlots rid off r
/-- Reads 16-byte pieces of a spill area at their offsets. -/
def spillPieces (rid off : Nat) : List Nat → X (List (Nat × Nat))
  | [] => pure []
  | k :: r => do
    let p ← locPlace rid (off + k) 16 off
    let s ← get
    let rest ← spillPieces rid off r
    pure ((k, p.st.read s p.a 16) :: rest)
/-- The newest ray that the bytes of a spill area hold, if it has not gone from there (R284; log entry 37). -/
def heldRay (ctx rid off : Nat) : List SuspRay → X (Option SuspRay)
  | [] => pure none
  | r :: rest => do
    let now ← if r.ctx = ctx ∧ !r.gone.contains (rid, off) then spillPieces rid off (r.kept.map (·.1)) else pure []
    if r.ctx = ctx ∧ !r.gone.contains (rid, off) ∧ now = r.kept then pure (some r) else heldRay ctx rid off rest
/-- What a spill area held goes from it: a new TRACE discards it, and a HITR takes it up (R284). -/
def State.dropRay (s : State) (rid off : Nat) : State :=
  { s with rays := s.rays.map (fun r => { r with gone := if r.gone.contains (rid, off) then r.gone else (rid, off) :: r.gone }) }
/-- What a traversal leaves and its entries: spilled entries lie in the spill area, a candidate leaves the ray's state in the state
block and in the slots in use. -/
def settleRay (rid spoff spill ctx tmax : Nat) (w : RayWalk) (out : RayOut) : X (List DWord) := do
  modify (fun s => s.dropRay rid spoff)
  freeSpillSlots rid (spoff + 256) w.wrote.eraseDups
  match out with
  | .err c => rayError c
  | .final =>
    match w.best with
    | some h => pure (rayEntries h.t 1 0 h.geom h.inst h.prim h.u h.v)
    | none => pure (rayNone tmax 0 0)
  | .cand t => do
    freeSpill rid spoff 32
    let kept ← spillPieces rid spoff ((List.range 16).map (16 * ·) ++ (w.used spill).map (fun k => 256 + 16 * k))
    modify (fun s => { s with rays := ⟨ctx, kept, [], { w with wrote := [] }⟩ :: s.rays })
    pure (rayEntries t 2 0 w.cand.2.1 w.cand.1 w.cand.2.2 0 0)
/-- Where the ray record of a word lies (R429): its offset is a multiple of 64 within the residency's scratchpad. -/
def rayPlace (off : Nat) : X Place := do
  let s ← get
  if off % 64 ≠ 0 then raise cALIGN 0 off else locPlace s.curGrp.res off 64 off
/-- The unit reads the record as the word issues. -/
def rayRecord (off : Nat) (p : Place) : X Nat := do
  waitScore p 64 true
  let s ← get
  if p.st.poisoned s p.a 64 then raise cPOISON 0 off else pure (p.st.read s p.a 64)
/-- Rays a unit holds (R269). -/
def rayMax : Nat := 512
/-- Runs a unit's part of a word: a frozen unit stalls the lane, a refused read freezes it (R437) and gives none. -/
def tryUnit {α : Type} (mid : Nat) (x : X α) : X (Option α) := do
  let s ← get
  if s.isFrozen mid then stallX
  else
    fun s =>
      match x s with
      | .ok v s' => .ok (some v) s'
      | .error (.deny m t c a y e) s' => .ok none (applyDeny s' (.deny m t c a y e))
      | .error e s' => .error e s'
/-- A word of a unit with n entries: a refused read fills them as poisoned (R437). -/
def onUnit (mid n kind : Nat) (x : X (List DWord × Bool × List (Nat × Nat))) : X Unit := do
  match ← tryUnit mid x with
  | some (vs, po, sc) => pushArrival kind vs po sc
  | none => pushArrival kind (List.replicate n 0) true []
/-- The traversal unit's requester. -/
def travWho (quad ctx : Nat) : Who := ⟨travMid quad, quad / 16, ctx, none, false, none⟩
/-- Runs a part of a word that holds scoreboard entries: a fault or a refusal in it releases them. -/
def holding {α : Type} (sc : List (Nat × Nat)) (x : X α) : X α := fun s =>
  match x s with
  | .ok v s' => .ok v s'
  | .error e s' => .error e (s'.unscore sc)
/-- The traversal of a ray on its unit: hit holds T and the accept flag of a HITR, which takes up the ray that the state block
holds (R284, R429). The walk changes nothing of the spill area before it is done, so that a fault leaves a suspended ray as it
was (R285). -/
def rayGo (x : Nat) (rid spill ctx : Nat) (hit : Option (Nat × Bool)) : X (List DWord × Bool × List (Nat × Nat)) := do
  let s ← get
  let quad := coreQuad s.curCore
  let bytes := match s.res? rid with | some r => r.sg.length * Config.granBytes | none => 0
  if !recOk x bytes spill then do
    let e ← rayError 1
    pure (e, false, [])
  else do
    let spoff := raySpoff x
    let p ← locPlace rid spoff (256 + 16 * spill) spoff
    let sc ← takeScore (some p) true (256 + 16 * spill)
    holding sc (do
      let s ← get
      let go (w : RayWalk) : X (List DWord × Bool × List (Nat × Nat)) := do
        let (w, out) ← traverse (travWho quad ctx) x spill rayFuel w
        let e ← settleRay rid spoff spill ctx (rayTmax x) w out
        pure (e, false, sc)
      match hit with
      | none => go (.start x)
      | some (t, accept) => do
        match ← heldRay ctx rid spoff s.rays with
        | none => do
          let e ← rayError 4
          pure (e, false, sc)
        | some r =>
          let (w, stop) := if accept then offer x r.walk ⟨t, r.walk.cand.1, r.walk.cand.2.1, r.walk.cand.2.2, 0, 0⟩ else (r.walk, false)
          if stop then do
            let e ← settleRay rid spoff spill ctx (rayTmax x) w .final
            pure (e, false, sc)
          else go w)
/-- TRACE and HITR for a thread: hitr holds T and the accept flag. -/
def rayX (a : Src) (hitr : Option (X (Nat × Bool))) : X Unit := do
  let off ← src32 a
  let p ← rayPlace off.toNat
  let v ← (match hitr with
    | none => pure none
    | some x => do
      let v ← x
      pure (some v))
  -- the source of the issue edge (R136, R286)
  modify (fun s => s.drainCore s.curCore)
  let s ← get
  let quad := coreQuad s.curCore
  let x ← rayRecord off.toNat p
  if (s.arrivals.filter (fun e => e.kind == 1 && coreQuad (laneCore e.lane) == quad)).length ≥ rayMax then stallX
  else onUnit (travMid quad) 3 1 (rayGo x s.curGrp.res (spillOf s) s.cur.id.ctx v)
/-- TRACE. -/
def execTrace (hd : Hd) (a : Src) (st : State) : Out := runWord hd.gd 3 (rayX a none) st
/-- HITR: bits [63:33] of h must be zero. -/
def execHitr (hd : Hd) (a b : Src) (st : State) : Out := runWord hd.gd 3 (rayX a (some (do
  let h ← src64 b
  if h.toNat / 2 ^ 33 ≠ 0 then operand else pure (bits h 31 0, tbit h 32)))) st

/-! ### RAST -/

/-- The set's token, noted by the lowest TID of the set as it issues, whatever its guard (R428, Table 16.1). -/
def noteToken (a : Src) (st : State) : EStateM.Result Exc State Unit :=
  let w := st.iss.word
  match st.curRun.bind (fun r => alGet r.once w) with
  | some _ => .ok () st
  | none =>
    let put (o : Once) (s : State) : State := s.modRun (fun r => { r with once := alSet r.once w o })
    match src32 a st with
    | .ok v s => .ok () (put (.done [⟨dw v.toNat, .full⟩]) s)
    | .error (.fault f) s => .ok () (put (.failed f) s)
    | .error e s => .error e s
/-- RAST: the entries of every thread are filled once the word has issued for the last. -/
def execRast (hd : Hd) (a : Src) (n : Fin 4) (l : Cull) (st : State) : Out :=
  match noteToken a st with
  | .error e _ => .next (applyX (throw e) st)
  | .ok _ st => runXgN hd.gd 3 (.rast n.val l) (do
      let s ← get
      match s.curRun.bind (fun r => alGet r.once s.iss.word) with
      | some (.done (e :: _)) => pure (true, e.v, 0)
      | some (.failed f) => throw (.fault f)
      | _ => operand) st

/-! ### BOXU, SAH, NPACK -/

/-- BOXU (R430). -/
def execBoxu (hd : Hd) (a b : Src) (m : BoxMode) (st : State) : Out :=
  match m with
  | .u => runWord hd.gd 1 (do
    let x ← src64 a
    let y ← src64 b
    push64 (boxUnion [x, y])) st
  | .p => runWord hd.gd 1 (do
    let x ← src64 a
    let y ← src32 b
    push64 (boxUnion [x, if isNanC y.toNat then boxEmpty else pair y y])) st
  | .set => runXg hd.gd .box (do
    let x ← src64 a
    let e ← src32 b
    pure (e == 0, x, e)) st
/-- SAH (R431). -/
def execSah (hd : Hd) (a b : Src) (r : RM) (st : State) : Out := runWord hd.gd 1 (do
  let x ← src64 a
  let y ← src64 b
  let ex := f32.dec (bits x 31 0)
  let ey := f32.dec (bits x 63 32)
  let ez := f32.dec (bits y 31 0)
  let n := bits y 63 32
  let neg (v : FV) : Bool := v.neg && !v.isZero
  -- the count of advances does not depend on the data (R247)
  let u ← drawSR r
  if ex.isNan || ey.isNan || ez.isNan then do
    raiseFlags fIV
    push32 (w32 f32.dnan)
  else if n = 0 ∨ neg ex ∨ neg ey ∨ neg ez then push32 0
  else if ex.isInf || ey.isInf || ez.isInf then push32 (w32 (f32.infCode false))
  else do
    let s := ((ex.q.mul ey.q).add (ey.q.mul ez.q)).add (ez.q.mul ex.q)
    let (c, fl) := f32.round r u false ((Q.ofInt n).mul s)
    raiseFlags fl
    push32 (w32 c)) st
/-- NPACK (R432). -/
def execNpack (hd : Hd) (a b : Src) (st : State) : Out := runWord hd.gd 1 (do
  let x ← src64 a
  let k ← src32 b
  let t := k.toNat % 8
  let cnt := k.toNat / 8 % 16
  let v := x.toNat
  if k.toNat / 2 ^ 7 ≠ 0 ∨ t > 4 ∨ (t ≤ 1 ∧ cnt ≠ 0) ∨ (t = 0 ∧ v ≠ 0) ∨ (t ≠ 0 ∧ (v ≥ 2 ^ 55 ∨ v % 64 ≠ 0)) ∨
      (t = 1 ∧ v % 128 ≠ 0) then operand
  else push64 (dw (t * 2 ^ 61 + cnt * 2 ^ 57 + v))) st

end Sys2Proof.Machine
end

