-- ==== Sys2Proof/Machine/Edge.lean ====
section
/-! DEFINITION. Edge words: SPAWN, TRIG, PUB, BAR, POST, PICK, QWAIT, NODE (R389 to R398). -/
namespace Sys2Proof.Machine

/-- The argument registers from SB's code on, or zeros (R390, R394). -/
def argRegs (b : Src) : Nat → Nat → X (List Word)
  | _, 0 => pure []
  | k, n + 1 => do
    let v ← (match b with
      | .n i => readReg (i.val + k)
      | _ => pure 0)
    let r ← argRegs b (k + 1) n
    pure (v :: r)

/-- The thread's frame, created at its first SPAWN (R178); no room takes BOUND with cause 2. -/
def needFrame : X Nat := do
  let s ← get
  match s.cur.frame with
  | some f => pure f
  | none =>
    let c := s.cur.id.ctx
    if s.partRoom c (coreTile s.curCore) frameBytes then do
      let f ← freshX
      modify (fun s =>
        let h := (s.ctxD c).nextFrame
        let s := s.modCtx c (fun x => { x with nextFrame := h + 1 })
        let s := { s with frames := alSet s.frames f ⟨c, coreTile s.curCore, s.iss.thr, h, 0, 0, []⟩ }
        (s.modCur (fun th => { th with frame := some f })).makeWay s.curCore c f)
      pure f
    else raise cBOUND 2
/-- Children a frame holds at most (R179). -/
def maxChildren : Nat := 2 ^ 20
/-- SPAWN (R181, R390): the source action, then one child filed into the SPAWN bin of its target, its record on the core's tile (R88); the
lane stalls while there is no room. -/
def execSpawn (hd : Hd) (a b : Src) (st : State) : Out := runWord hd.gd 0 (do
  let t ← src64 a
  let args ← argRegs b 0 8
  let pc := t.toNat
  if pc % 12 ≠ 0 then raise cALIGN 0
  else do
    let f ← needFrame
    let s ← get
    match alGet s.frames f with
    | none => pure ()
    | some fr =>
      if fr.out ≥ maxChildren || !s.partRoom fr.ctx (coreTile s.curCore) recBytes then stallX
      else do
        let core := s.curCore
        let par := s.cur
        let id ← freshX
        let ch := Thr.start ⟨par.id.launch, par.id.ctx, dw fr.next, par.id.role, false, some f⟩ pc args 0 0
        modify (fun s =>
          let s := s.drainCore core
          let s := s.modFrame f (fun fr => { fr with out := fr.out + 1, next := fr.next + 1 })
          { s with thrs := alSet s.thrs id ch })
        let s ← get
        match s.file core .spawn (par.id.launch.getD 0) pc pc (.thr id) with
        | some (bin, s) => set ((s.modThr id (fun th => { th with loc := .filed core bin })).makeWay core fr.ctx id)
        | none => throw .noBin) st
/-- TRIG: after the thread's source action (R391). -/
def execTrig (hd : Hd) (st : State) : Out := runWord hd.gd 0
  (modify (fun s =>
    let s := (s.drainCore s.curCore).modCur (fun th => { th with trig := true })
    match s.cur.id.launch with
    | some l => s.modLaunch l (fun la => { la with trigs := true })
    | none => s)) st
/-- PUB: publication at run end; only items publish (R392). -/
def execPub (hd : Hd) (st : State) : Out := runWord hd.gd 0 (do
  let s ← get
  if s.cur.id.item then modify (fun s => s.modCur (fun th => { th with rt := { th.rt with pub := true } }))
  else operand) st
/-- BAR: the thread arrives at run end (R393). A BAR at level 0 completes at once. -/
def execBar (hd : Hd) (a b : Src) (l : Fin 8) (st : State) : Out := runWord hd.gd 0 (do
  let x ← src32 a
  let y ← src32 b
  if l.val = 7 then operand
  else if l.val = 0 then pure ()
  else if l.val = 6 then
    if x.toNat ≥ 2 ^ 16 ∨ y.toNat = 0 ∨ y.toNat > 64 then operand else addWait (.bar 6 x.toNat y.toNat)
  else addWait (.bar l.val 0 0)) st

/-! ### POST, PICK, NODE -/

/-- Entries a LIST bin holds (chapter 4). -/
def listMax : Nat := 64
/-- The node live under an id in the device of a launch: its launch (R52, R394). -/
def nodeOf (s : State) (la : Launch) (id : Nat) : Option Nat :=
  (s.nodes.find? (fun n => n.1 == la.ctx && n.2.1 == la.dev && n.2.2.2 == id)).map (·.2.2.1)
/-- The IID a record takes when it is filed on a core (R64). -/
def recIid (la : Launch) (core : Nat) : Nat := (64 * coreTile core + core % 64) * 2 ^ 40 + alGetD la.iidNext core 0
/-- POST to a work list: the compaction unit gathers the records of the run's active threads (R93). -/
def postList (id : Nat) (ws : List Word) : X Unit := modify (fun s =>
  (s.drainCore s.curCore).modRun (fun r => { r with posts := r.posts ++ [(id, ws)] }))
/-- Appends records to a list's bin on a core, all of them or none (R93): none while the bin has no room, or no bin is free. -/
def State.appendList (s : State) (core l id : Nat) (es : List BinEnt) : Option State :=
  let c := s.coreD core
  match findBin c .list l id with
  | some (i, b) =>
    if b.ents.length + es.length ≤ listMax then
      some (s.modCore core (fun c => { c with bins := alSet c.bins i { b with ents := b.ents ++ es } }))
    else none
  | none =>
    if c.bins.length < binMax then
      let (i, s) := s.newId
      some (s.modCore core (fun c => { c with bins := alSet c.bins i ⟨.list, l, id, 0, false, s.cyc (coreDie core), 0, es⟩ }))
    else none
/-- Appends what a slot posted, list by list, the records of each contiguous in ascending TID; what finds no room stays (R93). -/
def State.packLists (s : State) (lane l : Nat) (posts : List (Nat × List Word)) : State :=
  let core := laneCore lane
  ((posts.map (·.1)).eraseDups).foldl (fun s id =>
    match s.appendList core l id ((posts.filter (·.1 == id)).map (fun p => .record p.2 0)) with
    | some s => s.modLane lane (fun x => { x with run := x.run.map (fun r => { r with posts := r.posts.filter (·.1 != id) }) })
    | none => if (findBin (s.coreD core) .list l id).isSome then s else s.makeRoom core) s
/-- Packs what the slot of a lane's run posted. -/
def State.packPosts (s : State) (lane : Nat) : State :=
  match (s.laneD lane).run with
  | none => s
  | some r =>
    match r.posts, (s.grp? r.grp).bind (·.launch) with
    | [], _ => s
    | ps, some l => s.packLists lane l ps
    | _, none => s
/-- POST to a node: the record takes its IID where it is filed. -/
def postNode (nl : Nat) (ws : List Word) : X Unit := do
  modify (fun s => s.drainCore s.curCore)
  let s ← get
  let core := s.curCore
  match s.launch? nl with
  | none => operand
  | some la =>
    match s.file core .node nl la.nodeId 0 (.record ws (dw (recIid la core))) with
    | some (_, s) => set (s.modLaunch nl (fun la => { la with iidNext := alMod la.iidNext core 0 (· + 1) }))
    | none => throw .noBin
/-- POST (R394): s is the node form. -/
def execPost (hd : Hd) (a b : Src) (s : Bool) (n : Fin 8) (st : State) : Out := runWord hd.gd 0 (do
  let x ← src32 a
  let ws ← argRegs b 0 (n.val + 1)
  let t ← get
  match t.curLaunch with
  | some la =>
    if x.toNat ≥ 4096 then operand
    else if s then
      match nodeOf t la x.toNat with
      | none => operand
      | some nl =>
        match t.launch? nl with
        | none => operand
        | some k => if k.nrec ≠ n.val + 1 then operand else postNode nl ws
    else postList x.toNat ws
  | none => operand) st
/-- Cores of a tile in the order PICK looks at them: its own, then ascending, wrapping (R93). -/
def pickOrder (core : Nat) : List Nat :=
  (List.range 64).map (fun i => core / 64 * 64 + (core % 64 + i) % 64)
/-- Takes the oldest record of a list from the first core that holds one: the core, the record, the state after. -/
def takeRecord (s : State) (core l id : Nat) : Option (Nat × List Word × State) :=
  (pickOrder core).findSome? (fun c =>
    match findBin (s.coreD c) .list l id with
    | some (i, b) =>
      match b.ents with
      | .record ws _ :: r =>
        let s := s.modCore c (fun k => { k with
          bins := if r.isEmpty then alDel k.bins i else alSet k.bins i { b with ents := r } })
        some (c, ws, s)
      | _ => none
    | none => none)
/-- Record entries of n words, two words an entry (R395). -/
def recEnts (ws : List Word) (n : Nat) : List QEnt :=
  (List.range ((n + 1) / 2)).map (fun j =>
    let w (k : Nat) : Word := if k < n then ws.getD k 0 else 0
    ⟨pair (w (2 * j)) (w (2 * j + 1)), .full⟩)
/-- PICK (R395): the target action precedes its entries where the record was posted on another core. -/
def execPick (hd : Hd) (a : Src) (n : Fin 8) (st : State) : Out := runWord hd.gd ((n.val + 2) / 2 + 1) (do
  let x ← src32 a
  let s ← get
  match s.cur.id.launch with
  | none => operand
  | some l =>
    if x.toNat ≥ 4096 then operand
    else match takeRecord s s.curCore l x.toNat with
      | none => do
        forX pushEnt (recEnts [] (n.val + 1))
        push64 0
      | some (c, ws, s') => do
        set (if c = s.curCore then s' else s'.invalidate s.curCore s.cur.id.ctx)
        forX pushEnt (recEnts ws (n.val + 1))
        push64 1) st
/-- QWAIT (R396): s is the form .nz. The word's translation and alignment are checked at the word. -/
def execQwait (hd : Hd) (a : Src) (s : Bool) (st : State) : Out := runWord hd.gd 0 (do
  let x ← src64 a
  alignX x.toNat 8
  let t ← get
  let _ ← translate t.curWho .read x.toNat
  addWait (.word x.toNat s)) st
/-- Records in a node's bins on a core. -/
def nodeCount (c : Core) (nl : Nat) : Nat :=
  ((c.bins.filter (fun b => b.2.kind == .node && b.2.launch == nl)).map (fun b => b.2.ents.length)).foldl (· + ·) 0
/-- NODE (R397): s is the form .cnt, which pushes the count; .flush seals the node's open bin on this core. -/
def execNode (hd : Hd) (a : Src) (s : Bool) (st : State) : Out := runWord hd.gd (if s then 1 else 0) (onceX (do
  let x ← src32 a
  let t ← get
  match t.curLaunch with
  | none => operand
  | some la =>
    match nodeOf t la x.toNat with
    | none => operand
    | some nl =>
      if s then pure [⟨dw (nodeCount (t.coreD t.curCore) nl), .full⟩]
      else do
        match findBin (t.coreD t.curCore) .node nl x.toNat with
        | some (i, _) => set (t.sealBin t.curCore i)
        | none => pure ()
        pure [])) st

end Sys2Proof.Machine
end

