-- ==== Sys2Proof/Machine/RunEnd.lean ====
section
/-! DEFINITION. The end of a run: the deferred effects of Table 7.5 in their order, barriers (R135, R186), waits (R398),
the rejoin stack (R169) and the active set of a lane (R96). -/
namespace Sys2Proof.Machine

/-! ### Step 1: commits -/

/-- Applies one commit (R162); a mapped register is no target of one that reaches here. -/
def Thr.commit (t : Thr) (c : Commit) : Thr :=
  let t := t.setEnt c.d c.ent false
  if c.wide then t.setEnt (c.d + 1) c.ent true else t
/-- Step 1 of Table 7.5: commits, link registers read, flags and the generator. -/
def Thr.step1 (t : Thr) : Thr :=
  let t := t.rt.commits.foldl Thr.commit t
  let regs := t.rt.linkRead.foldl (fun (rs : List NReg) i =>
    match rs[i]? with
    | some r => rs.set i { r with full := false }
    | none => rs) t.regs
  { t with regs := regs, fst := t.fst ||| t.rt.flags, srs := t.rt.srs }

/-! ### Step 2: special registers -/

/-- The bits of MST that are not reserved (Table 9.5, R5): [40] and [35:32] read as zero. -/
def mstMask : DWord := ~~~ dw (2 ^ 40 + 15 * 2 ^ 32)
/-- One WRS of a thread (R155, R247). -/
def Thr.wrs (t : Thr) (x : Nat × DWord) : Thr :=
  match x.1 with
  | 8 => { t with mst := x.2 &&& mstMask }
  | 9 => { t with fst := lo32 x.2 &&& 0x3F }
  | 10 => { t with sp := x.2 }
  | 18 => { t with srs := if x.2 = 0 then 1 else x.2 }
  | _ => t
/-- Step 2. -/
def Thr.step2 (t : Thr) : Thr := t.rt.wrs.foldl Thr.wrs t
/-- The thread as steps 1 to 5 would leave it for its K word (R164). -/
def Thr.atK (t : Thr) : Thr := t.step1.step2

/-! ### Step 3: uniform registers, streams, mappings -/

/-- One effect of SCFG (R193, R207). -/
def State.applyScfg (s : State) (g : Nat) (gr : Grp) (e : ScfgEff) : State :=
  match e with
  | .ring k img =>
    let quad := coreQuad (laneCore gr.lane)
    s.setRing quad k (ringOfImg img (gr.launch.getD 0))
  | .stream r img => s.modRes gr.res (fun x => { x with srec := alSet x.srec r img })
  | .bind h r =>
    let s := gr.mem.foldl (fun s m => s.modThr m.2 (fun th =>
      let p := match alGet th.spos h with | some (r', p) => if r' = r then p else 0 | none => 0
      { th with spos := alSet th.spos h (r, p) })) s
    s.modGrp g (fun x => { x with heads := alSet x.heads h r })
  | .unbind h => s.modGrp g (fun x => { x with heads := alDel x.heads h })
/-- MAPL's mapping (R387): newly mapped registers start empty. -/
def Thr.step3 (t : Thr) : Thr :=
  if t.rt.unmap then { t with link := none }
  else match t.rt.mapl with
    | none => t
    | some m => { t with
        link := some m
        regs := t.regs.zipIdx.map (fun x => if m.has x.2 then { x.1 with full := false } else x.1) }

/-! ### Barriers (R135) -/

/-- The unit of a level for a place: the group, core, quad, tile or device. -/
def barUnit (lvl g core : Nat) : Nat :=
  match lvl with
  | 1 => g
  | 2 => core
  | 3 => coreQuad core
  | 4 => coreTile core
  | _ => 0
/-- The live threads of a launch in a unit that stand in groups: the participants when an instance opens. A thread that is
parked or filed then counts as arrived. -/
def barMembers (s : State) (l lvl unit : Nat) : List Nat :=
  s.thrs.filterMap (fun t =>
    match t.2.loc with
    | .grp g _ =>
      match s.grp? g with
      | some gr => if t.2.id.launch = some l ∧ (lvl ≥ 5 ∨ barUnit lvl g (laneCore gr.lane) = unit) then some t.1 else none
      | none => none
    | _ => none)
/-- Owner of the reports of a pod barrier that this package has not opened: no launch. -/
def podEarly : Nat := 2 ^ 64
/-- The open instance of a launch's unit and level; at level 6 of a context's pod barrier. -/
def barOpen (s : State) (l lvl unit id : Nat) : Option (Nat × Bar) :=
  s.bars.find? (fun b => b.2.lvl == lvl && b.2.unit == unit &&
    (if lvl = 6 then b.2.id == id && b.2.launch != podEarly else b.2.launch == l))
/-- Reports of other packages that came before the instance opened (R393). -/
def State.earlyReports (s : State) (ctx id count : Nat) : List Nat × State :=
  let mine (b : Bar) : Bool := b.launch == podEarly && b.unit == ctx && b.id == id && b.count == count
  match s.bars.find? (fun b => mine b.2) with
  | some (k, b) => (b.reports, { s with bars := alDel s.bars k })
  | none => ([], s)
/-- A thread arrives by BAR: at the open instance if it is a participant, else it opens one; none while an open instance it
is no participant of is in the way (R135). The unit of a pod barrier is the set of launches that name it: one instance of a context and
id stands open at a time, whose participants are those of the launch that opened it (log entry 96). -/
def State.joinBar (s : State) (t lvl id count : Nat) : Option (Nat × State) :=
  match s.thr? t with
  | none => none
  | some th =>
    let (lane, _, _) := s.seatOf t
    let g := match th.loc with | .grp g _ => g | _ => 0
    let l := th.id.launch.getD 0
    let unit := if lvl = 6 then th.id.ctx else barUnit lvl g (laneCore lane)
    let s := s.drainCore (laneCore lane)
    match barOpen s l lvl unit id with
    | some (k, b) =>
      if b.left.contains t then
        some (k, { s with bars := alSet s.bars k { b with left := b.left.filter (· != t), waiting := b.waiting ++ [t] } })
      else none
    | none =>
      let (k, s) := s.newId
      let (n, s) := if lvl = 6 then s.earlyReports th.id.ctx id count else ([], s)
      some (k, { s with bars := alSet s.bars k ⟨l, lvl, unit, (barMembers s l lvl unit).filter (· != t), [t], id, count, n, false⟩ })
/-- A wait as it stands at the thread's arrival: a BAR joins its instance where it can (R398), on a frozen core once it is thawed (R151),
MWAIT takes the register's ARMSEQ (R221), SLEEP its end (R407). -/
def State.arriveAt (s : State) (t : Nat) (w : PWait) : State :=
  let put (s : State) (x : Wait) : State := s.modThr t (fun th => { th with
    waits := th.waits.map (fun y => if y = w then { y with w := x } else y) })
  let core := laneCore (s.laneOf t)
  match w.w with
  | .bar lvl id count =>
    if s.frozenThr t then s
    else match s.joinBar t lvl id count with
      | some (k, s) => put s (.barIn k)
      | none => s
  | .mwait c none => put s (.mwait c (some (alGetD (s.quadD (coreQuad core)).cregs c .empty).armseq))
  | .sleep n none => put s (.sleep n (some (s.cyc (coreDie core) + n)))
  -- QWAIT's reads see the thread's own stores that precede it (R129)
  | .word _ _ => s.drainCore core
  | _ => s
/-- A thread arrives at the waits of its run. -/
def State.arrive (s : State) (t : Nat) : State :=
  match s.thr? t with
  | none => s
  | some th => th.waits.foldl (fun s w => s.arriveAt t w) s
/-- The BARs of a run, in word order. -/
def Thr.runBars (th : Thr) : List (Nat × Nat × Nat) :=
  th.rt.waits.filterMap (fun w => match w.w with | .bar lvl id count => some (lvl, id, count) | _ => none)
/-- The BARs of a run that ends, parks or files its thread arrive and give no edge (R398), each once no open instance that the thread is
no participant of stands in the way (R135): those that still wait, and the state. -/
def State.arriveGone (s : State) (t : Nat) : List (Nat × Nat × Nat) → List (Nat × Nat × Nat) × State
  | [] => ([], s)
  | (lvl, id, count) :: r =>
    match s.joinBar t lvl id count with
    | some (k, s) =>
      State.arriveGone { s with bars := alAdj s.bars k (fun b => { b with waiting := b.waiting.filter (· != t) }) } t r
    | none => ((lvl, id, count) :: r, s)

/-! ### Step 6: where the thread goes -/

/-- What Root's EXIT writes to its completion word (R396). -/
def rootFinal : Nat := 1
/-- A Root engine's EXIT: its writes finish, then the completion word is written (R25, R138); a write that the table refuses stops Root
by a fault, which is reported (R25, R27). -/
def State.rootExit (s : State) (t core : Nat) : State :=
  let k := s.stackD (core - 544)
  let s := (s.stopRoot t core .idle 0 0).drainCore core
  let s := (attempt (homeWrite ⟨coreMid core, coreDie core, 0, none, false, some (directPa (core - 544) 0)⟩ .write
    (directPa (core - 544) k.compl) k.compl 0 8 rootFinal) s).1
  if (s.stackD (core - 544)).root == .fault then s.rootReport core else s
/-- The thread's run takes it out of its group (R398): by EXIT, by AWAIT with children, by REFORM in a launch that is not ordered. -/
def goes (s : State) (th : Thr) : KKind → Bool
  | .exit => true
  | .await => s.children th > 0
  | .reform _ _ _ => !(match th.id.launch.bind s.launch? with | some l => l.ord | none => false)
  | _ => false
/-- A K word that files its thread. -/
def KKind.files : KKind → Bool
  | .reform _ _ _ => true
  | _ => false
/-- A thread whose run takes it out of its group waits there: for the instances of these BARs, then for step 6 (R89, R135). -/
def State.waitGone (s : State) (t : Nat) (bars : List (Nat × Nat × Nat)) (k : KKind) (next : Nat) : State :=
  s.modThr t (fun th => { th with waits := [⟨0, 0, th.pc, .gone bars k next⟩] })
/-- REFORM and REFORM.K file the thread: it leaves its group and goes on at the target (R88, R401). Without a bin, or without room for its
record, it stays where it is and waits (R88, R89). Its residency ends, where nothing is left, only after the filing (R80). -/
def State.reformThr (s : State) (lane t kind key pc next : Nat) : State :=
  match s.thr? t with
  | none => s
  | some th =>
    let core := laneCore lane
    let s := s.drainCore core
    if !s.partRoom th.id.ctx (coreTile core) recBytes then s.waitGone t [] (.reform kind key pc) next
    else match s.file core (if kind = 1 then .reform else .reformK) (th.id.launch.getD 0) key pc (.thr t) with
      | none => (s.makeRoom core).waitGone t [] (.reform kind key pc) next
      | some (b, s) =>
        let rid := s.resOfThr t
        let s := (((s.leaveBars t).leaveSeat t).modThr t (fun th => { th.enter pc with
          pc := pc, rt := .empty, waits := [], loc := .filed core b })).makeWay core th.id.ctx t
        match rid with
        | some r => s.checkRes r
        | none => s
/-- Step 6 for one thread (Table 15.3), its BARs arrived where it goes: next is the packet after the run. -/
def State.step6 (s : State) (lane t next : Nat) (k : KKind) : State :=
  match s.thr? t with
  | none => s
  | some th =>
    let core := laneCore lane
    match k with
    | .next => s.modThr t (fun th => { th with pc := next })
    | .goto pc => s.modThr t (fun th => { th.enter pc with pc := pc })
    | .frame sp pc => s.modThr t (fun th => { th.enter pc with pc := pc, sp := dw sp })
    | .iret a b c => s.modThr t (fun th => th.leaveTrap (a, b, c))
    | .exit =>
      if isRoot core then s.rootExit t core
      else (s.modThr t (fun th => { th with pc := next })).endOrPark lane t
    | .await =>
      if s.children th > 0 then
        (s.modThr t (fun th => { th.enter next with pc := next })).park lane t false
      else
        let s := if th.frame.isSome then s.invalidate core th.id.ctx else s
        s.modThr t (fun th => { th.enter next with pc := next })
    | .reform kind key pc =>
      if goes s th k then s.reformThr lane t kind key pc next else s.modThr t (fun th => { th.enter pc with pc := pc })
/-- Step 6 of a thread whose BARs have arrived, but for those that remain: it waits with these (R135), or behind a filing that stalls its
lane (R89, R166), or on a frozen core until it is thawed (R151). -/
def State.stepGone (s : State) (lane t next : Nat) (k : KKind) (rest : List (Nat × Nat × Nat)) : State :=
  if rest.isEmpty && !s.frozenThr t && !(k.files && s.laneFiling lane) then s.step6 lane t next k else s.waitGone t rest k next
/-- Step 6: a thread that goes waits first for the instances its BARs are no participants of (R135). -/
def State.goStep6 (s : State) (lane t next : Nat) (k : KKind) (bars : List (Nat × Nat × Nat)) : State :=
  match s.thr? t with
  | none => s
  | some th =>
    if !goes s th k then s.step6 lane t next k
    else
      let (rest, s) := if s.frozenThr t then (bars, s) else s.arriveGone t bars
      s.stepGone lane t next k rest
/-- Tries again the REFORMs of threads that wait, in order, until one still waits (R88, R89). -/
def State.retryReforms (s : State) (lane : Nat) : List Nat → State
  | [] => s
  | t :: r =>
    match (s.thr? t).bind Thr.reforming with
    | none => s.retryReforms lane r
    | some (k, next) =>
      let s := s.step6 lane t next k
      if ((s.thr? t).bind Thr.reforming).isSome then s else s.retryReforms lane r

/-! ### Step 5 and the rejoin stack (R169) -/

/-- Pushes the masks of a run's REJ words, in word order; a full stack loses its bottom entry. -/
def pushRej (stack : List (Nat × List Nat)) (ents : List (Nat × List Nat)) : List (Nat × List Nat) :=
  ents.foldl (fun st e => ((e :: st)).take 4) stack
/-- The masks of the set's REJ words in word order. -/
def rejMasks (ts : List (Nat × Thr)) : List (Nat × List Nat) :=
  let ws := isort (fun a b => decide (a.1 ≤ b.1)) ((ts.map (fun t => t.2.rt.rejs)).flatten)
  let keys := ws.foldl (fun (l : List (Nat × Nat)) w => if l.contains w then l else l ++ [w]) []
  keys.map (fun w => (w.2, (ts.filter (fun t => t.2.rt.rejs.contains w)).map (·.1)))
/-! ### Run end (Table 7.5) -/

/-- The threads of a run's set with their TIDs, ascending. -/
def setThrs (s : State) (r : Run) : List (Nat × Nat) :=
  match s.grp? r.grp with
  | none => []
  | some g => (g.mem.filter (fun m => r.set.contains m.1))
/-- The packet after a run: the words fetched are whole packets (R318). -/
def Run.after (r : Run) : Nat := r.pc + 4 * r.words.length
/-- A thread's filing, parking or publication must wait for registers that are pending after its commits (R401, R182;
log entry 26), and a publication on a frozen core for the thaw (R151; log entry 106). -/
def needsFill (s : State) (t : Nat) (th : Thr) : Bool :=
  let k := match th.rt.k with
    | some (_, .await) | some (_, .reform _ _ _) => true
    | some (_, .exit) => th.id.item && !th.pubd
    | _ => false
  ((k || th.rt.pub) && th.step1.hasPending) || (th.rt.pub && s.frozenThr t)
/-- A run that stands at its K word with every thread's part done. -/
def runDone (s : State) (r : Run) : Bool :=
  decide (r.wi ≥ r.words.length) || (setThrs s r).all (fun m => match s.thr? m.2 with | some th => th.rt.k.isSome | none => true)

/-- Does something for each thread of a run's set that the machine still holds, in order of TID. -/
def State.forSet (s : State) (ts : List (Nat × Nat)) (f : State → Nat → Thr → State) : State :=
  ts.foldl (fun s m => match s.thr? m.2 with
    | some th => f s m.2 th
    | none => s) s
/-- A wait of a thread that its run takes out of its group. -/
def PWait.isGone (w : PWait) : Bool := match w.w with | .gone _ _ _ => true | _ => false
/-- A thread that stays in its group. -/
def stays (s : State) (t : Nat) : Bool :=
  match s.thr? t with
  | some th => (match th.loc with | .grp _ _ => true | _ => false) && !th.waits.any PWait.isGone
  | none => false
/-- Steps 1 to 3 of a run's end (Table 7.5): registers, then the uniform registers, the writes of the control core's trap vector
and the configuration effects. -/
def State.commitRun (s : State) (lane : Nat) (r : Run) (gr : Grp) (ts : List (Nat × Nat)) : State :=
  let s := ts.foldl (fun s m => s.modThr m.2 Thr.step1) s
  let s := ts.foldl (fun s m => s.modThr m.2 Thr.step2) s
  let s := if isCtl (laneCore lane) then s.forSet ts (fun s _ th =>
      (th.rt.wrs.filter (·.1 == 16)).foldl (fun s w =>
        (s.modGrp r.grp (fun g => { g with trapv := w.2.toNat })).modCtl (laneCore lane - 512)
          (fun k => { k with trapv := w.2.toNat })) s) else s
  let s := s.modGrp r.grp (fun g => { g with
    g := ((isort (fun a b => decide (a.1 ≤ b.1)) r.uni).map (·.2)).foldl (fun g u => g.set u.1 u.2) g.g
    ub := (r.uwin.map (·.2)).getD g.ub })
  let s := r.scfg.foldl (fun s e => s.applyScfg r.grp gr e) s
  ts.foldl (fun s m => s.modThr m.2 Thr.step3) s
/-- Steps 4 to 6 of a run's end: publication, the rejoin pushes, where each thread goes. -/
def State.fileRun (s : State) (lane : Nat) (r : Run) (ts : List (Nat × Nat)) : State :=
  let s := s.forSet ts (fun s t th => if th.rt.pub then s.publish t else s)
  let masks := rejMasks (ts.filterMap (fun m => (s.thr? m.2).map (fun th => (m.1, th))))
  let s := s.modGrp r.grp (fun g => { g with rejoin := pushRej g.rejoin masks })
  s.forSet ts (fun s t th => s.goStep6 lane t r.after (match th.rt.k with | some (_, k) => k | none => .next) th.runBars)
/-- Step 7 of a run's end: the waits of the threads that stay, and a control core's HALT. -/
def State.parkRun (s : State) (lane : Nat) (ts : List (Nat × Nat)) : State :=
  let s := ts.foldl (fun s m => if stays s m.2 then s.modThr m.2 (fun th => { th with waits := th.rt.waits }) else s) s
  let s := ts.foldl (fun s m => if stays s m.2 then s.arrive m.2 else s) s
  match ts.filter (fun m => match s.thr? m.2 with | some th => th.waits.any (fun w => w.w == .halt) | none => false) with
  | [] => s
  | m :: _ =>
    if isCtl (laneCore lane) then s.modCtl (laneCore lane - 512) (fun k => { k with st := .halted })
    else if isRoot (laneCore lane) then (s.stopRoot m.2 (laneCore lane) .idle 0 0).rootReport (laneCore lane)
    else s
/-- TRAP comes after the deferred effects (R296, R405). -/
def State.trapRun (s : State) (r : Run) (ts : List (Nat × Nat)) : State :=
  s.forSet ts (fun s t th => match th.rt.trap with
    | some (w, a) => if stays s t then s.takeFaultAt t ⟨cTRAP, 0, a, w, r.words.getD w 0, false⟩ r.pc else s
    | none => s)
/-- At the boundary after a run, a stop asked of the Root core is answered. -/
def State.boundary (s : State) (lane : Nat) (ts : List (Nat × Nat)) : State :=
  let k := s.stackD (laneCore lane - 544)
  if isRoot (laneCore lane) && k.stopReq && k.root == .running then
    match ts with
    | m :: _ => s.stopRoot m.2 (laneCore lane) .stopped 0 ((s.thr? m.2).map (·.pc % 2 ^ 18) |>.getD 0)
    | [] => s
  else s
/-- R157 to R171, Table 7.5: ends the run of a lane for the threads left in its set, step by step across the set. It does
nothing while a thread still has to fill (R401). -/
def State.runEnd (s : State) (lane : Nat) : State :=
  match (s.laneD lane).run with
  | none => s
  | some r =>
    match s.grp? r.grp with
    | none => s.modLane lane (fun l => { l with run := none })
    | some gr =>
      let ts := setThrs s r
      if ts.any (fun m => match s.thr? m.2 with | some th => needsFill s m.2 th | none => false) then s
      else
        let s := ts.foldl (fun s m => s.tellRegs lane m.2) s
        let s := (((s.commitRun lane r gr ts).fileRun lane r ts).parkRun lane ts).trapRun r ts
        let s := ts.foldl (fun s m => s.modThr m.2 (fun th => { th with rt := .empty })) s
        (s.runOver lane r.grp).boundary lane ts

end Sys2Proof.Machine
end

