-- ==== Sys2Proof/Machine/Control.lean ====
section
/-! DEFINITION. COMMIT, REJ, NOP, the prefixes and the run-end kinds (R326 to R330, R399 to R402). -/
namespace Sys2Proof.Machine

/-! ### COMMIT, REJ, NOP, prefixes -/

/-- One pair of a COMMIT: the entry its age names, captured for run end (R162); a target mapped as a link register is an
illegal operand (R328). -/
def commitPair (k d : Nat) (wide : Bool) : X Unit := do
  let s ← get
  let th := s.cur
  match th.rt.q[k]? with
  | none => operand
  | some e =>
    let mapped (i : Nat) : Bool := match th.link with | some m => m.has i | none => false
    if mapped d || (wide && mapped (d + 1)) then operand
    else if e.st == .notWritten then pure ()
    else modify (fun s => s.modCur (fun th => { th with rt := { th.rt with commits := th.rt.commits ++ [⟨e, d, wide⟩] } }))
/-- COMMIT (R162, R328): v says that a second pair is there. -/
def execCommit (g : Guard) (a : Fin 16) (n : Fin 32) (w : Bool) (b : Fin 16) (m : Fin 32) (x v : Bool) (st : State) : Out :=
  runWord g 0 (do
    commitPair a.val n.val w
    if v then commitPair b.val m.val x else pure ()) st
/-- Address of the packet that holds the word at hand (R330). -/
def State.packet (s : State) : Nat := s.cur.pc + s.iss.word / 3 * 12
/-- A displaced packet (R329, R330), as an integer. -/
def State.displaced (s : State) (d : BitVec 18) : Int := (s.packet : Int) + 12 * d.toInt
/-- REJ: joins the mask of this word (R169). -/
def execRej (g : Guard) (d : BitVec 18) (st : State) : Out := runWord g 0
  (modify (fun s => s.modCur (fun th => { th with rt := { th.rt with
    rejs := th.rt.rejs ++ [(s.iss.word, modW 55 (s.displaced d))] } }))) st
/-- NOP has no effect (R318). -/
def execNop (st : State) : Out := .next st
/-- An NS prefix stands before its host, which reads through it (R326). -/
def execNsPrefix (t : Fin 16) (a b d : Sel) (x : Bool) (st : State) : Out :=
  .next { st with iss := { st.iss with ns := some ⟨t.val, a, b, d, x⟩ } }
/-- An ND prefix: its host writes a narrow result (R327). -/
def execNdPrefix (w : SubW) (i : Fin 8) (r : RM) (s : Bool) (t : Fin 16) (n q : Bool) (st : State) : Out :=
  .next { st with iss := { st.iss with nd := some ⟨w, i.val, r, s, t.val, n, q⟩ } }

/-! ### Run-end kinds (Table 15.3) -/

/-- A K word: a thread whose guard is false goes on as NEXT (R161), as does one of a control core whose K word is refused (R43; log entry
51); each thread's checks are made at the word, and the last thread's issue ends the run (R164). -/
def runK (g : Guard) (x : X KKind) (st : State) : Out :=
  let body : X Unit := do
    let k ← (if guardOf g st.cur then onCtl (pure .next) x else pure .next)
    modify (fun s => s.modCur (fun th => { th with rt := { th.rt with k := some (s.iss.word, k) } }))
  let s := applyX body st
  .next (if st.iss.last && !st.iss.chained && !s.iss.stalled then s.runEnd st.iss.lane else s)

/-- A branch target lies within the address space (Table 15.3). -/
def branchTo (t : Int) : X Nat :=
  if t < 0 ∨ t ≥ 2 ^ 55 then raise cXLATE 1 (modW 64 t) else pure t.toNat
/-- A target in a register (BRX): canonical, then a multiple of 12. -/
def registerTarget (v : Nat) : X Nat :=
  if v ≥ 2 ^ 55 then raise cXLATE 1 v else if v % 12 ≠ 0 then raise cALIGN 0 v else pure v
/-- No register is mapped as a link register (R173), as steps 1 to 5 would leave the mapping. -/
def noLink : X Unit := do
  let s ← get
  if (s.cur.step1.step2.step3).link.isSome then operand else pure ()
/-- A control core that no context translates for runs the image that boot put into its own SRAM, at the SRAM's offsets (R35, R36; log
entry 94). -/
def ownFetch (s : State) (va : Nat) : Bool :=
  isCtl s.curCore && (s.ctxD s.cur.id.ctx).st == .free && decide (va + 4 ≤ Config.sramBytes)
/-- One instruction word by fetch: of Root from its SRAM, at the offset modulo its size (log entry 111), else with execute permission
(R188, R333). -/
def fetchWord (va : Nat) : X Nat := do
  let s ← get
  if isRoot s.curCore || ownFetch s va then pure (Store.read s (va % Config.sramBytes) 4 (.sram s.curCore))
  else do
    let v ← loadV s.curWho .fetch va 4
    needClean va v
/-- FSZ of the frame packet at a target, or an illegal operand (R188). -/
def frameSize (pc : Nat) : X Nat := do
  let a ← fetchWord pc
  let b ← fetchWord (pc + 4)
  let c ← fetchWord (pc + 8)
  if fld a 31 20 ≠ 0 ∨ fld a 3 0 ≠ 0 ∨ b ≠ 0 ∨ c ≠ 0 ∨ fld a 19 4 = 0 then operand
  else pure (fld a 19 4 * 16)
/-- A 64-bit store to stk at the K word: inside the stack's bounds as the thread's WRS leave them (R189). -/
def stkStore (th : Thr) (va v : Nat) : X Unit := do
  if va % 8 ≠ 0 then raise cALIGN 0 va
  else if th.stkl.toNat ≤ va ∧ va + 8 ≤ th.stkb.toNat then do
    let s ← get
    storeV s.curWho va 8 v
  else raise cSTACK 0 va
/-- A 64-bit load from stk at the K word (R190). -/
def stkLoad (th : Thr) (va : Nat) : X Nat := do
  if va % 8 ≠ 0 then raise cALIGN 0 va
  else if th.stkl.toNat ≤ va ∧ va + 8 ≤ th.stkb.toNat then do
    let s ← get
    let v ← loadV s.curWho .read va 8
    needClean va v
  else raise cSTACK 0 va
/-- The packet after the run at hand. -/
def State.afterRun (s : State) : Nat := match s.curRun with | some r => r.after | none => s.packet + 12
/-- CALL to a frame packet (R189): the link record goes to the new frame's foot. -/
def callTo (pc : Nat) : X KKind := do
  let fsz ← frameSize pc
  let s ← get
  let th := s.cur.atK
  let sp := th.sp.toNat
  if sp < th.stkl.toNat + fsz then raise cSTACK 0 (modW 64 ((sp : Int) - fsz))
  else do
    stkStore th (sp - fsz) s.afterRun
    stkStore th (sp - fsz + 8) fsz
    pure (.frame (sp - fsz) (pc + 12))
/-- RET (R190). -/
def retTo : X KKind := do
  let s ← get
  let th := s.cur.atK
  let sp := th.sp.toNat
  if sp + 16 > th.stkb.toNat then raise cSTACK 0 (sp + 16)
  else do
    let ra ← stkLoad th sp
    let fsz ← stkLoad th (sp + 8)
    if sp + fsz > th.stkb.toNat ∨ fsz % 16 ≠ 0 then raise cSTACK 0 (modW 64 (sp + fsz : Nat))
    else if ra % 12 ≠ 0 then raise cALIGN 0 ra
    else pure (.frame (sp + fsz) ra)

/-- NEXT. -/
def execNext (g : Guard) (st : State) : Out := runK g (pure .next) st
/-- BRA. -/
def execBra (g : Guard) (d : BitVec 18) (st : State) : Out := runK g (do
  let s ← get
  let pc ← branchTo (s.displaced d)
  pure (.goto pc)) st
/-- CALL. -/
def execCall (g : Guard) (d : BitVec 18) (st : State) : Out := runK g (do
  let s ← get
  let pc ← branchTo (s.displaced d)
  callTo pc) st
/-- RET. -/
def execRet (g : Guard) (st : State) : Out := runK g retTo st
/-- EXIT (R183, R402). -/
def execExit (g : Guard) (st : State) : Out := runK g (pure .exit) st
/-- AWAIT (R182); control cores have no frames, and it acts as NEXT (R401). -/
def execAwait (g : Guard) (st : State) : Out := runK g (do
  noLink
  pure .await) st
/-- REFORM (R88). -/
def execReform (g : Guard) (d : BitVec 18) (st : State) : Out := runK g (do
  let s ← get
  let pc ← branchTo (s.displaced d)
  noLink
  pure (.reform 1 pc pc)) st
/-- IRET (R307): outside a handler it is an illegal instruction; a fault of the record's read terminates the thread. The record's address
is n0 and n1 as the run's commits leave them (R164): the word waits while one is pending. -/
def execIret (g : Guard) (st : State) : Out := runK g (do
  let s ← get
  let th := s.cur.atK
  if !s.cur.inTrap then raise cILLEGAL 0
  else if (th.reg 0).pend.isSome || (th.reg 1).pend.isSome then stallX
  else if (th.reg 0).uncorr || (th.reg 1).uncorr then raise cREGUE 0
  else if (th.reg 0).poison || (th.reg 1).poison then raise cPOISON 0
  else
    fun s => match iretRead (pair (th.val 0) (th.val 1)).toNat s with
      | .ok r s' => .ok (.iret r.1 r.2.1 r.2.2) s'
      | .error (.fault f) s' => .error (.fault { f with fatal := true }) s'
      | .error e s' => .error e s') st
/-- BRX. -/
def execBrx (g : Guard) (a : Src) (st : State) : Out := runK g (do
  let x ← src64 a
  let pc ← registerTarget x.toNat
  pure (.goto pc)) st
/-- CALLX. -/
def execCallx (g : Guard) (a : Src) (st : State) : Out := runK g (do
  let x ← src64 a
  let pc ← registerTarget x.toNat
  callTo pc) st
/-- REFORM.K: keyed by a, next PC the packet after the run. -/
def execReformK (g : Guard) (a : Src) (st : State) : Out := runK g (do
  let x ← src32 a
  noLink
  let s ← get
  pure (.reform 2 x.toNat s.afterRun)) st

end Sys2Proof.Machine
end

