-- ==== Sys2Proof/Machine/Onion.lean ====
section
/-! DEFINITION. The exact arithmetic of the matrix path: element formats and scales (R248 to R253), slicing, ranks, the FX
window and the error term (R256 to R263), narrow outputs with outliers (R229). -/
namespace Sys2Proof.Machine

/-! ### Element formats (Table 9.4) -/

/-- The IEEE-style format of codes 16 to 19. -/
def mxIeee : Nat → IFmt
  | 16 => bf16
  | 17 => f16
  | 18 => f32
  | _ => f64
/-- Width of an element in bits. -/
def mxBits (c : Ctx) (f : Nat) : Nat :=
  if f < 16 then (ftOf c f).wid else if f = 20 then 32 else (mxIeee f).width
/-- The value of an element's code. -/
def mxDec (c : Ctx) (f code : Nat) : FV :=
  if f < 16 then (ftOf c f).dec code else if f = 20 then FV.ofInt (sx 32 code) else (mxIeee f).dec code
/-- An IEEE-style code is subnormal. -/
def IFmt.isSub (f : IFmt) (code : Nat) : Bool := code / 2 ^ f.mb % 2 ^ f.eb == 0 && code % 2 ^ f.mb != 0
/-- A code is subnormal in its format (R262). -/
def mxSub (c : Ctx) (f code : Nat) : Bool :=
  if f < 16 then (ftOf c f).isSub code else f != 20 && (mxIeee f).isSub code
/-- Default slice count (R258). -/
def mxSlices (f : Nat) : Nat :=
  if f < 16 then (if [2, 4, 5, 6].contains f then 1 else 2)
  else match f with
    | 16 => 1
    | 17 => 2
    | 18 => 3
    | _ => 7
/-- An entry of the format table is present (R249). -/
def fmtHere (c : Ctx) (f : Nat) : Bool := decide (f < 8) || decide (f ≥ 16) || c.ft.getD (f - 8) 0 != 0

/-! ### Values -/

/-- The product of a value and a finite scale. -/
def FV.scaled (x s : FV) : FV :=
  match x, s with
  | .fin n m e, .fin n' m' e' => .fin (n != n') (m * m') (e + e')
  | .inf n, .fin n' _ _ => .inf (n != n')
  | .nan b, _ => .nan b
  | _, _ => .nan false
/-- The exact sum of two values; opposite infinities give a NaN. -/
def FV.plus (x y : FV) : FV :=
  match x, y with
  | .nan b, _ => .nan b
  | _, .nan b => .nan b
  | .inf n, .inf n' => if n = n' then .inf n else .nan false
  | .inf n, _ => .inf n
  | _, .inf n => .inf n
  | .fin n m e, .fin n' m' e' =>
    let k := min e e'
    let v : Int := (if n then -(m : Int) else m) * 2 ^ (e - k).toNat + (if n' then -(m' : Int) else m') * 2 ^ (e' - k).toNat
    .fin (decide (v < 0)) v.natAbs k
/-- An element as the array receives it: its coded value with its scale, and the outliers added to it (R227). -/
structure El where
  x : FV
  outs : List FV
deriving DecidableEq, Repr
/-- The zero of a padding position. -/
def El.zero : El := ⟨.fin false 0 0, []⟩
/-- The effective value (R227). -/
def El.eff (e : El) : FV := e.outs.foldl FV.plus e.x
/-- Non-zero and finite. -/
def FV.live : FV → Bool
  | .fin _ m _ => m != 0
  | _ => false

/-! ### Slicing (R256, R257) -/

/-- e(x) of a non-zero finite value (R256). -/
def sliceExp : FV → Option Int
  | .fin n m e => if m = 0 then none else some (if n then clog2Q m 1 + e - 1 else log2Q m 1 + e)
  | _ => none
/-- The block exponent of a row or column of a chunk; none for a zero block. -/
def blockExp (xs : List FV) : Option Int :=
  xs.foldl (fun o x => match o, sliceExp x with
    | none, y => y
    | some a, some b => some (max a b)
    | a, none => a) none
/-- P (R257). -/
def sliceP (s : Nat) : Int := if s = 1 then 7 else 8 * s - 2
/-- Digits d[0] to d[s−1] of Y (R257). -/
def sliceDigits : Nat → Int → List Int
  | 0, _ => []
  | 1, y => [y]
  | n + 2, y =>
    let d := (y + 128) % 256 - 128
    sliceDigits (n + 1) ((y - d) / 256) ++ [d]
/-- m·2^k truncated toward zero, and whether something was lost. -/
def truncShl (m : Int) (k : Int) : Int × Bool :=
  if k ≥ 0 then (m * 2 ^ k.toNat, false)
  else
    let q := m.tdiv (2 ^ (-k).toNat)
    (q, decide (q * 2 ^ (-k).toNat ≠ m))
/-- The digits of a value under block exponent E, and whether bits were dropped: NaN and ∞ count as zero (R256). -/
def sliceOf (s : Nat) (E : Int) : FV → List Int × Bool
  | .fin n m e =>
    let (y, lost) := truncShl (if n then -(m : Int) else m) (e + sliceP s - 1 - E)
    (sliceDigits s y, lost)
  | _ => (List.replicate s 0, false)

/-! ### The FX register (R260) -/

/-- Before the first contribution. -/
def FxEl.empty : FxEl := ⟨0, none, 0, 0, 0, 0⟩
/-- raise(L′). -/
def FxEl.raiseTo (x : FxEl) (l l' : Int) : FxEl :=
  let (v, lost) := truncShl x.v (l - l')
  { x with v := v, l := some l', nl := x.nl + (if lost then 1 else 0) }
/-- Bits of the window. -/
def fxBits : Nat := 255
/-- fx_add with the anchor of the chunk at hand. -/
def FxEl.add (x : FxEl) (anchor q w : Int) : FxEl :=
  let x := match x.l with
    | none => { x with v := 0, l := some anchor }
    | some l => if anchor > l then x.raiseTo l anchor else x
  let l := x.l.getD anchor
  let (d, lost) := truncShl q (w - l)
  let x := { x with v := x.v + d, nl := x.nl + (if lost then 1 else 0) }
  if x.v.natAbs ≥ 2 ^ fxBits then x.raiseTo l (l + (Nat.log2 x.v.natAbs + 1 - fxBits : Nat)) else x
/-- m·2^e added to the error sum. -/
def FxEl.addErr (x : FxEl) (n : Nat) (e : Int) : FxEl :=
  if n = 0 then x
  else if x.errM = 0 then { x with errM := n, errE := e }
  else
    let k := min e x.errE
    { x with errM := x.errM * 2 ^ (x.errE - k).toNat + n * 2 ^ (e - k).toNat, errE := k }
/-- The special conditions of R261 one K-step adds. -/
def specBits (a b : FV) : Nat :=
  if a.isNan || b.isNan then 1
  else if badProd a b then 1
  else match infTerm a b with
    | some true => 4
    | some false => 2
    | none => 0
/-- The element drains to the special path. -/
def FxEl.special (x : FxEl) : Option FV :=
  if x.spec = 0 then none
  else if x.spec % 2 = 1 ∨ x.spec = 6 then some (.nan false)
  else some (.inf (x.spec == 4))
/-- The value an element drains to (R229 step 1, R262). -/
def FxEl.out (x : FxEl) : Sum FV Q :=
  match x.special with
  | some v => .inl v
  | none => .inr (match x.l with | some l => Q.dy x.v l | none => Q.ofInt 0)

/-! ### One chunk (R215, R259, R263) -/

/-- A row or column of a chunk, sliced. -/
structure Sliced where
  els : List El
  e : Option Int
  ds : List (List Int)
  lost : Bool
/-- Slices a row or column. -/
def slicedOf (s : Nat) (els : List El) : Sliced :=
  let e := blockExp (els.map (·.x))
  let ds := els.map (fun x => match e with
    | some e => sliceOf s e x.x
    | none => (List.replicate s 0, false))
  ⟨els, e, ds.map (·.1), ds.any (·.2)⟩
/-- The highest digit index with a non-zero digit, over a list of rows; none where all are zero. -/
def topDigit (rs : List Sliced) : Option Nat :=
  rs.foldl (fun o r => r.ds.foldl (fun o d => d.zipIdx.foldl (fun o x =>
    if x.1 = 0 then o else some (max (o.getD 0) x.2)) o) o) none
/-- Digit i of a value. -/
def digitAt (d : List Int) (i : Nat) : Int := d.getD i 0
/-- The cell sum of rank r over the K-steps of a chunk. -/
def rankSum (s r : Nat) (a b : List (List Int)) : Int :=
  let ps := (List.range s).filter (fun p => decide (p ≤ r) && decide (r - p < s))
  (a.zip b).foldl (fun acc x => acc + ps.foldl (fun t p => t + digitAt x.1 p * digitAt x.2 (r - p)) 0) 0
/-- The exact dyadic side product of an outlier and a value. -/
def sideProduct (x y : FV) : Option (Int × Int) :=
  match x, y with
  | .fin n m e, .fin n' m' e' =>
    if m = 0 ∨ m' = 0 then none else some (if n != n' then -((m * m' : Nat) : Int) else ((m * m' : Nat) : Int), e + e')
  | _, _ => none
/-- The side products of a K-step: each outlier of A with the effective element of B, each outlier of B with the coded element
of A, so that each product of two effective values enters once (R227; log entry 28). -/
def sideProducts (a b : El) : List (Int × Int) :=
  a.outs.filterMap (fun o => sideProduct o b.eff) ++ b.outs.filterMap (fun o => sideProduct o a.x)
/-- One element over one chunk: its ranks in ascending order, then the side products in ascending k. zero gives the anchor where
a zero block leaves EA + EB open (log entry 29). The steps n(c) are those of the coded values: of an outlier only the FX losses
count (R263, Table 10.8). -/
def FxEl.chunk (s : Nat) (square : Bool) (zero : Option Int → Option Int → Int) (a b : Sliced) (x : FxEl) : FxEl :=
  let prs := a.els.zip b.els
  let x := { x with spec := prs.foldl (fun t p => t ||| specBits p.1.eff p.2.eff) x.spec }
  let p := sliceP s
  let ranks := List.range (if square then 2 * s - 1 else s)
  let sum : Option Int := match a.e, b.e with
    | some ea, some eb => some (ea + eb)
    | _, _ => none
  let anchor := sum.getD (zero a.e b.e) - 228
  let x := match sum with
    | none => x
    | some e =>
      let x := ranks.foldl (fun x r => x.add anchor (rankSum s r a.ds b.ds) (e + 2 - 2 * p + 8 * (2 * (s : Int) - 2 - r))) x
      x.addErr (prs.filter (fun p => p.1.x.live && p.2.x.live)).length (e + 3 - p)
  prs.foldl (fun x p => (sideProducts p.1 p.2).foldl (fun x t => x.add anchor t.1 t.2) x) x
/-- The error term of an element once TR and OM are known (R263): e = m·2^k. -/
def FxEl.err (x : FxEl) (k : Nat) : Nat × Int :=
  let y := { x with errM := x.errM * k }
  let y := match x.l with
    | some l => y.addErr x.nl l
    | none => y
  (y.errM, y.errE)
/-- B of an operation over its elements' error terms: −2048 when all are zero (R263). -/
def boundOf (es : List (Nat × Int)) : Int :=
  es.foldl (fun b e => if e.1 = 0 then b else max b (max (-2047) (min 2047 (clog2Q e.1 1 + e.2)))) (-2048)

/-! ### Operand sections of a slot (R226, R227) -/

/-- Bits of a storage at a bit offset. -/
def rdBits (m : AL Byte) (bit n : Nat) : Nat := rdBytes m (bit / 8) ((bit % 8 + n + 7) / 8) / 2 ^ (bit % 8) % 2 ^ n
/-- Writes n bits at a bit offset. -/
def wrBits (m : AL Byte) (bit n v : Nat) : AL Byte :=
  let k := (bit % 8 + n + 7) / 8
  let old := rdBytes m (bit / 8) k
  let m0 := old % 2 ^ (bit % 8)
  let hi := old / 2 ^ (bit % 8 + n) * 2 ^ (bit % 8 + n)
  wrBytes m (bit / 8) k (m0 + v % 2 ^ n * 2 ^ (bit % 8) + hi)

/-- A layout of R226: format, geometry, live rows (or columns), K-steps, kept elements of 48 where sparse, outlier slots. -/
structure Sec where
  fmt : Nat
  geo : Nat
  rows : Nat
  kc : Nat
  nsp : Option Nat
  oc : Nat
deriving DecidableEq, Repr
/-- MP or NP. -/
def Sec.rp (x : Sec) : Nat := roundUpTo x.rows 8
/-- K-steps the element section stores. -/
def Sec.kst (x : Sec) : Nat := match x.nsp with | some n => x.kc / 48 * n | none => x.kc
/-- Bytes of the element section. -/
def Sec.elBytes (x : Sec) (c : Ctx) : Nat := (x.kst * x.rp * mxBits c x.fmt + 7) / 8
/-- Blocks of a geometry: row blocks and blocks along K. -/
def blkRows (geo rp : Nat) : Nat := match geo with | 1 => (rp + 15) / 16 | 2 => (rp + 31) / 32 | _ => rp
def blkCols (geo k : Nat) : Nat := match geo with | 1 => (k + 15) / 16 | _ => (k + 31) / 32
/-- The block of an element: for geometry 11 the 1×32 vector its outliers count in. -/
def blkOf (geo i k : Nat) : Nat × Nat := match geo with | 1 => (i / 16, k / 16) | 2 => (i / 32, k / 32) | _ => (i, k / 32)
/-- An element's index in its block: K-steps fastest in a vector, rows fastest in a tile (log entry 30). -/
def blkIdx (geo i k : Nat) : Nat := match geo with | 1 => k % 16 * 16 + i % 16 | 2 => k % 32 * 32 + i % 32 | _ => k % 32
/-- Elements of a block. -/
def blkSize (geo : Nat) : Nat := match geo with | 1 => 256 | 2 => 1024 | _ => 32
/-- Bytes of the scale section. -/
def Sec.scBytes (x : Sec) : Nat :=
  if x.fmt ≥ 16 then 0 else if x.geo = 3 then 4 else blkRows x.geo x.rp * blkCols x.geo x.kc
/-- Bytes of the mask section. -/
def Sec.mkBytes (x : Sec) : Nat := match x.nsp with | some _ => 8 * x.rp * (x.kc / 48) | none => 0
/-- Bytes of the outlier section. -/
def Sec.ocBytes (x : Sec) : Nat := 4 * x.oc * blkRows x.geo x.rp * blkCols x.geo x.kc
/-- Where each section begins, and the whole. -/
def Sec.scOff (x : Sec) (c : Ctx) : Nat := roundUpTo (x.elBytes c) 64
def Sec.mkOff (x : Sec) (c : Ctx) : Nat := roundUpTo (x.scOff c + x.scBytes) 64
def Sec.ocOff (x : Sec) (c : Ctx) : Nat := roundUpTo (x.mkOff c + x.mkBytes) 64
def Sec.size (x : Sec) (c : Ctx) : Nat := x.ocOff c + x.ocBytes
/-- The mask word of a row's group, and the positions kept: the NSP lowest set ones (R227). -/
def Sec.mask (x : Sec) (c : Ctx) (m : AL Byte) (base i g : Nat) : Nat := rdBytes m (base + x.mkOff c + 8 * (g * x.rp + i)) 8
def keptOf (nsp mask : Nat) : List Nat := (bitList 48 mask).take nsp
/-- The stored position of K-step k of row i, if it is stored. -/
def Sec.stored (x : Sec) (c : Ctx) (m : AL Byte) (base i k : Nat) : Option Nat :=
  match x.nsp with
  | none => some k
  | some n => match (keptOf n (x.mask c m base i (k / 48))).idxOf? (k % 48) with
    | some p => some (k / 48 * n + p)
    | none => none
/-- The scale of an element: none where the format has none. -/
def Sec.scale (x : Sec) (c : Ctx) (m : AL Byte) (base i k : Nat) : Option FV :=
  if x.fmt ≥ 16 then none
  else if x.geo = 3 then some (f32.dec (rdBytes m (base + x.scOff c) 4))
  else
    let b := blkOf x.geo i k
    some ((fixedFmt 7).dec (byteAt m (base + x.scOff c + b.2 * blkRows x.geo x.rp + b.1)).toNat)
/-- Code of an element as stored; 0 where it is padding or not kept. -/
def Sec.code (x : Sec) (c : Ctx) (m : AL Byte) (base i k : Nat) : Option Nat :=
  if i ≥ x.rows then none
  else match x.stored c m base i k with
    | none => none
    | some p => some (rdBits m (8 * base + (p * x.rp + i) * mxBits c x.fmt) (mxBits c x.fmt))
/-- The index outliers count an element of a sparse block by: its place among the kept ones (Table 9.6; log entry 30). -/
def Sec.outIdx (x : Sec) (c : Ctx) (m : AL Byte) (base i k : Nat) : Option Nat :=
  match x.nsp with
  | none => some (blkIdx x.geo i k)
  | some _ =>
    let b := blkOf x.geo i k
    let els := ((List.range x.kc).filter (fun k' => blkOf x.geo i k' == b)).flatMap (fun k' =>
      ((List.range x.rp).filter (fun i' => blkOf x.geo i' k == b)).filterMap (fun i' =>
        if (x.stored c m base i' k').isSome then some (i', k') else none))
    els.idxOf? (i, k)
/-- The outlier entries of a block that are valid: index and value. -/
def Sec.outEnts (x : Sec) (c : Ctx) (m : AL Byte) (base : Nat) (b : Nat × Nat) : List (Nat × FV) :=
  (List.range x.oc).filterMap (fun t =>
    let w := rdBytes m (base + x.ocOff c + 4 * ((b.2 * blkRows x.geo x.rp + b.1) * x.oc + t)) 4
    if w.testBit 5 then some (fld w 15 6, bf16.dec (fld w 31 16)) else none)
/-- Element (i, k) of a chunk (R226, R227). -/
def Sec.el (x : Sec) (c : Ctx) (m : AL Byte) (base i k : Nat) : El :=
  if i ≥ x.rows then El.zero
  else
    let v := match x.code c m base i k with
      | some w => mxDec c x.fmt w
      | none => .fin false 0 0
    let v := match x.scale c m base i k with
      | some (.fin n e f) => v.scaled (.fin n e f)
      | some _ => .nan false
      | none => v
    let outs := if x.oc = 0 then [] else match x.outIdx c m base i k with
      | some t => ((x.outEnts c m base (blkOf x.geo i k)).filter (·.1 == t)).map (·.2)
      | none => []
    ⟨v, outs⟩
/-- Elements of a block as outlier indices may name them. -/
def Sec.blkCount (x : Sec) (c : Ctx) (m : AL Byte) (base : Nat) (b : Nat × Nat) : Nat :=
  let ks := (List.range x.kc).filter (fun k => blkCols x.geo (k + 1) == b.2 + 1)
  match x.nsp with
  | none => if x.geo = 0 ∨ x.geo = 3 then ks.length else blkSize x.geo
  | some _ => ((List.range x.rp).filter (fun i => (blkOf x.geo i 0).1 == b.1)).foldl (fun n i =>
      n + (ks.filter (fun k => (x.stored c m base i k).isSome)).length) 0
/-- MERR of a chunk (R227): a mask out of form or an outlier index outside its block. -/
def Sec.merr (x : Sec) (c : Ctx) (m : AL Byte) (base : Nat) : Bool :=
  (match x.nsp with
    | none => false
    | some n => (List.range (x.kc / 48)).any (fun g => (List.range x.rows).any (fun i =>
        let w := x.mask c m base i g
        w / 2 ^ 48 != 0 || decide (popN 48 w > n)))) ||
  (x.oc != 0 && (List.range (blkCols x.geo x.kc)).any (fun kb => (List.range (blkRows x.geo x.rp)).any (fun ib =>
    (x.outEnts c m base (ib, kb)).any (fun e => decide (e.1 ≥ x.blkCount c m base (ib, kb))))))
/-- The per-tensor scale is not usable (Table 10.7). -/
def Sec.badScale (x : Sec) (c : Ctx) (m : AL Byte) (base : Nat) : Bool :=
  x.fmt < 16 && x.geo == 3 && !(f32.dec (rdBytes m (base + x.scOff c) 4)).live
/-- An element of the chunk is subnormal in its format. -/
def Sec.anySub (x : Sec) (c : Ctx) (m : AL Byte) (base : Nat) : Bool :=
  (List.range x.rows).any (fun i => (List.range x.kc).any (fun k =>
    match x.code c m base i k with | some w => mxSub c x.fmt w | none => false))

/-! ### Narrow outputs (R229 step 3, R253) and ReLU -/

/-- A value to be written: special or exact. -/
abbrev OutV := Sum FV Q
/-- Negative. -/
def OutV.neg : OutV → Bool
  | .inl (.inf n) => n
  | .inl (.fin n _ _) => n
  | .inl (.nan _) => false
  | .inr x => decide (x.n < 0)
/-- R229 step 2: a negative value becomes +0, a NaN stays a NaN. -/
def OutV.relu (on : Bool) (v : OutV) : OutV := if on && OutV.neg v then .inr (Q.ofInt 0) else v
/-- The magnitude of a finite value. -/
def OutV.mag : OutV → Option Q
  | .inr x => some x.abs
  | .inl (.fin _ m e) => some (Q.dy m e)
  | .inl _ => none
/-- What a drain gathers: SATC, SUBN, SPEC, OOVF and the outliers saturated. -/
structure DFlags where
  satc : Bool
  subn : Bool
  spec : Bool
  ocnt : Nat
deriving DecidableEq, Repr
/-- Nothing gathered. -/
def DFlags.zero : DFlags := ⟨false, false, false, 0⟩
/-- Both. -/
def DFlags.or (a b : DFlags) : DFlags := ⟨a.satc || b.satc, a.subn || b.subn, a.spec || b.spec, a.ocnt + b.ocnt⟩

/-- A matrix of values to be coded, m by n. -/
structure Mat where
  m : Nat
  n : Nat
  rows : List (List OutV)
/-- Element (i, j); zero outside. -/
def Mat.at (x : Mat) (i j : Nat) : OutV := (x.rows.getD i []).getD j (.inr (Q.ofInt 0))
/-- The elements of the block at (bi, bj): index, row, column, within the matrix. -/
def Mat.blk (x : Mat) (geo : Nat) (b : Nat × Nat) : List (Nat × Nat × Nat) :=
  ((List.range (blkSize geo)).map (fun t => match geo with
    | 1 => (t, b.1 * 16 + t % 16, b.2 * 16 + t / 16)
    | 2 => (t, b.1 * 32 + t % 32, b.2 * 32 + t / 32)
    | _ => (t, b.1, b.2 * 32 + t))).filter (fun e => decide (e.2.1 < x.m) && decide (e.2.2 < x.n))
/-- The outliers of a block, largest magnitude first, ties to the lower index (R229 step 3; log entry 31). -/
def Mat.outliers (x : Mat) (geo : Nat) (lim : Q) (b : Nat × Nat) : List (Nat × Nat × Nat) :=
  let c := (x.blk geo b).filterMap (fun e => match OutV.mag (x.at e.2.1 e.2.2) with
    | some q => if lim.le q then some (q, e) else none
    | none => none)
  (isort (fun (a b : Q × Nat × Nat × Nat) => b.1.lt a.1 || (a.1.eq b.1 && decide (a.2.1 ≤ b.2.1))) c).map (·.2)
/-- A block as coded: its scale exponent (none for a NaN scale), its slotted outliers, the further ones. -/
structure Blk where
  at_ : Nat × Nat
  slotted : List (Nat × Nat × Nat)
  further : List (Nat × Nat × Nat)
/-- The outlier blocks of a matrix. -/
def Mat.blocks (x : Mat) (geo oc : Nat) (lim : Q) : List Blk :=
  (List.range (blkCols geo x.n)).flatMap (fun bj => (List.range (blkRows geo x.m)).map (fun bi =>
    let o := x.outliers geo lim (bi, bj)
    ⟨(bi, bj), o.take oc, o.drop oc⟩))
/-- The scale of a set of values (R253): exponent, or none for NaN. outs are left out of amax; full says that no zero padding
takes part; lim is 2^OLIM. -/
def scaleExp (f : NFmt) (g3 : Bool) (olim : Int) (full : Bool) (vs : List (OutV × Bool)) : Option Int :=
  let ieee := f.spm == 2 && f.eb != 0
  if vs.any (fun v => match v.1 with | .inl (.nan _) => true | .inl (.inf _) => !ieee | _ => false) then none
  else
    let fin := vs.filterMap (fun v => if v.2 then none else OutV.mag v.1)
    let lo : Int := if g3 then -126 else -127
    let clamp (e : Int) : Int := max lo (min 127 e)
    if fin.isEmpty && full && vs.any (·.2) then some (clamp (olim - 1 - f.emax))
    else
      let amax := fin.foldl Q.max (Q.ofInt 0)
      if amax.n = 0 then some 0 else some (clamp (log2Q amax.n.natAbs amax.d - f.emax))
/-- The code of one element of a narrow output (R253 coding, R251), with what it gathers. -/
def narrowCode (f : NFmt) (e : Option Int) (v : OutV) : Nat × DFlags :=
  match e with
  | none => (0, ⟨false, false, (match v with | .inl (.nan _) => true | _ => false), 0⟩)
  | some e =>
    let v' : OutV := match v with
      | .inr x => .inr (x.shl (-e))
      | .inl (.fin n m k) => .inl (.fin n m (k - e))
      | w => w
    let neg := OutV.neg v'
    let nz := match OutV.mag v' with | some q => q.n != 0 | none => false
    let (c, fl) := f.conv .rne 0 true v' false
    let noNan := (match v with | .inl (.nan _) => true | _ => false) && f.nanCode.isNone && !f.e8
    let bad := if f.e8 then fl &&& (fIV ||| fUF ||| fOF ||| fSATN) != 0 else neg && !f.sgn && !(nz == false && (OutV.mag v').isSome)
    (c, ⟨bad, nz && (f.isSub c || (match f.dec c with | .fin _ 0 _ => true | _ => false)), noNan, 0⟩)
/-- A narrow matrix: codes by row, the scale exponents by block, the outlier entries by block, the values written and what was
gathered. -/
structure Narrow where
  codes : List (List Nat)
  scales : List ((Nat × Nat) × Option Int)
  entries : List ((Nat × Nat) × List (Nat × Nat))
  vals : List (List El)
  fl : DFlags
/-- The value of a scale exponent. -/
def scaleVal : Option Int → FV
  | some e => .fin false 1 e
  | none => .nan false
/-- bf16 RNE of a value. -/
def toBf16 (v : OutV) : Nat :=
  match v with
  | .inr x => (bf16.round .rne 0 false x).1
  | .inl (.fin n m e) => (bf16.round .rne 0 n (Q.dy (if n then -(m : Int) else m) e)).1
  | .inl (.inf n) => bf16.infCode n
  | .inl (.nan _) => bf16.dnan
/-- R229 step 3 over a whole matrix. -/
def narrowMat (f : NFmt) (geo oc : Nat) (olim : Int) (x : Mat) : Narrow :=
  let bs := x.blocks geo oc (Q.dy 1 olim)
  let outs := bs.flatMap (fun b => (b.slotted ++ b.further).map (fun e => (e.2.1, e.2.2)))
  let slots := bs.flatMap (fun b => b.slotted.map (fun e => (e.2.1, e.2.2)))
  let vs (b : Nat × Nat) : List (OutV × Bool) := (x.blk geo b).map (fun e => (x.at e.2.1 e.2.2, outs.contains (e.2.1, e.2.2)))
  let scales : List ((Nat × Nat) × Option Int) :=
    if geo = 3 then
      let all := (List.range x.m).flatMap (fun i => (List.range x.n).map (fun j => (x.at i j, outs.contains (i, j))))
      [((0, 0), scaleExp f true olim true all)]
    else bs.map (fun b => (b.at_, scaleExp f false olim (decide ((vs b.at_).length = blkSize geo)) (vs b.at_)))
  let sc (i j : Nat) : Option Int :=
    if geo = 3 then (scales.head?.map (·.2)).getD (some 0)
    else match scales.find? (fun s => s.1 == blkOf geo i j) with | some s => s.2 | none => some 0
  let one (i j : Nat) : (Nat × El) × DFlags :=
    let e := sc i j
    let v := x.at i j
    if slots.contains (i, j) then
      ((0, ⟨(f.dec 0).scaled (scaleVal e), if e.isSome then [bf16.dec (toBf16 v)] else []⟩), .zero)
    else
      let (c, fl) := narrowCode f e v
      ((c, ⟨(f.dec c).scaled (scaleVal e), []⟩), fl)
  let rows := (List.range x.m).map (fun i => (List.range x.n).map (one i))
  let fl := rows.foldl (fun a r => r.foldl (fun a e => a.or e.2) a) DFlags.zero
  let further := (bs.map (fun b => b.further.length)).foldl (· + ·) 0
  ⟨rows.map (fun r => r.map (·.1.1)), scales,
    -- the NaN of a scale wins: the slots of its block are zero (Table 10.8)
    bs.map (fun b => (b.at_, b.slotted.filterMap (fun e =>
      if (sc e.2.1 e.2.2).isSome then some (e.1, toBf16 (x.at e.2.1 e.2.2)) else none))),
    rows.map (fun r => r.map (·.1.2)), { fl with ocnt := further }⟩

/-- R229 step 4 for codes 16 to 20: the code and what it gathers. -/
def wideCode (fm : Nat) (sat : Bool) (v : OutV) : Nat × DFlags :=
  if fm = 20 then
    match v with
    | .inl (.nan _) => (0, ⟨true, false, false, 0⟩)
    | .inl (.inf n) => (if n then 0x80000000 else 0x7FFFFFFF, ⟨true, false, false, 0⟩)
    | .inl (.fin n m e) =>
      let x := Q.dy (if n then -(m : Int) else m) e
      let (y, _) := roundInt .rne 0 x
      let z := satI y (-(2 ^ 31)) (2 ^ 31 - 1)
      (modW 32 z, ⟨decide (z ≠ y), decide (x.n ≠ 0) && decide (z = 0), false, 0⟩)
    | .inr x =>
      let (y, _) := roundInt .rne 0 x
      let z := satI y (-(2 ^ 31)) (2 ^ 31 - 1)
      (modW 32 z, ⟨decide (z ≠ y), decide (x.n ≠ 0) && decide (z = 0), false, 0⟩)
  else
    let f := mxIeee fm
    let rnd (n : Bool) (x : Q) : Nat × DFlags :=
      let (c, fl) := f.round .rne 0 n x
      let ov := fl &&& fOF != 0
      let c := if ov && sat then f.maxCode (decide (x.n < 0)) else c
      (c, ⟨ov, decide (x.n ≠ 0) && (c / 2 ^ f.mb % 2 ^ f.eb == 0), false, 0⟩)
    match v with
    | .inl (.nan _) => (f.dnan, .zero)
    | .inl (.inf n) => (f.infCode n, .zero)
    | .inl (.fin n m e) => rnd n (Q.dy (if n then -(m : Int) else m) e)
    | .inr x => rnd false x

end Sys2Proof.Machine
end

