-- ==== Sys2Proof/Machine/Array.lean ====
section
/-! DEFINITION. The matrix arrays (chapter 9): descriptors and their checks, operand streams, chunks, the drain, the norm
monitor and fallback, statuses and convergence registers, and the events that move an operation on. -/
namespace Sys2Proof.Machine

/-! ### The descriptor (Table 9.3) -/

/-- Bits [hi:lo] of word Dw. -/
abbrev Desc := List DWord
namespace MOp
def opc (o : MOp) : Nat := pf o.desc 0 63 60
/-- FA, or FBA in a reissue of an AM-sourced A (R233). -/
def fa (o : MOp) : Nat := if o.second && tbit (wordAt o.desc 2) 63 then pf o.desc 6 62 58 else pf o.desc 0 59 55
def fb (o : MOp) : Nat := pf o.desc 0 54 50
def ga (o : MOp) : Nat := pf o.desc 0 49 48
def gb (o : MOp) : Nat := pf o.desc 0 47 46
def slc (o : MOp) : Nat := pf o.desc 0 45 42
def square (o : MOp) : Bool := tbit (wordAt o.desc 0) 41
def coop (o : MOp) : Nat := pf o.desc 0 40 38
/-- The descriptor with COOP zero: what no split of the tile changes (R216). -/
def unsplit (o : MOp) : List DWord := o.desc.set 0 (wordAt o.desc 0 &&& ~~~ dw (7 * 2 ^ 38))
def spe (o : MOp) : Bool := tbit (wordAt o.desc 0) 37
def spb (o : MOp) : Bool := tbit (wordAt o.desc 0) 36
def nsp (o : MOp) : Nat := pf o.desc 0 35 30
def nmon (o : MOp) : Bool := tbit (wordAt o.desc 0) 29
def oca (o : MOp) : Nat := pf o.desc 0 28 25
def ocb (o : MOp) : Nat := pf o.desc 0 24 21
def m (o : MOp) : Nat := pf o.desc 1 63 54 + 1
def n (o : MOp) : Nat := pf o.desc 1 53 45 + 1
def k (o : MOp) : Nat := pf o.desc 1 44 21 + 1
def kc (o : MOp) : Nat := pf o.desc 1 20 5 + 1
def chunks (o : MOp) : Nat := o.k / o.kc
def asrc (o : MOp) : Bool := tbit (wordAt o.desc 2) 63
def aoff (o : MOp) : Nat := pf o.desc 2 62 47 * 64
def afmt (o : MOp) : Nat := pf o.desc 2 46 42
def arelu (o : MOp) : Bool := tbit (wordAt o.desc 2) 41
def apitch (o : MOp) : Nat := pf o.desc 2 40 31 * 64
def olima (o : MOp) : Int := sx 8 (pf o.desc 2 30 23)
/-- DFMT, or FBD in a reissue. -/
def dfmt (o : MOp) : Nat := if o.second then pf o.desc 6 57 53 else pf o.desc 4 63 59
/-- DG, or FBDG in a reissue. -/
def dg (o : MOp) : Nat := if o.second then pf o.desc 6 52 51 else pf o.desc 4 58 57
def sat (o : MOp) : Bool := tbit (wordAt o.desc 4) 56
def doff (o : MOp) : Nat := pf o.desc 4 55 40 * 64
def dpitch (o : MOp) : Nat := pf o.desc 4 39 30 * 64
def oco (o : MOp) : Nat := pf o.desc 4 29 26
def drelu (o : MOp) : Bool := tbit (wordAt o.desc 4) 25
def olimo (o : MOp) : Int := sx 8 (pf o.desc 4 24 17)
def nrt (o : MOp) : Nat := pf o.desc 5 63 32
def noff (o : MOp) : Nat := pf o.desc 5 31 16 * 64
def nwr (o : MOp) : Bool := tbit (wordAt o.desc 5) 15
def fv (o : MOp) : Bool := tbit (wordAt o.desc 6) 63
/-- Slices of both operands (R258). -/
def slices (o : MOp) : Nat := if o.slc ≠ 0 then o.slc else max (mxSlices o.fa) (mxSlices o.fb)
/-- Rows and columns of arrays (Table 9.3). -/
def grid (o : MOp) : Nat × Nat :=
  match o.coop with
  | 1 => (2, 1)
  | 2 => (1, 2)
  | 3 => (2, 2)
  | 4 => (4, 1)
  | 5 => (4, 2)
  | _ => (1, 1)
/-- The member arrays, in ascending number (R224). -/
def members (o : MOp) : List Nat :=
  let z := o.grid.1 * o.grid.2
  (List.range z).map (fun i => o.quad / z * z + i)
/-- Row block and column block of a member array, and its live rows and columns. -/
def block (o : MOp) (arr : Nat) : Nat × Nat :=
  let i := arr % (o.grid.1 * o.grid.2)
  (i / o.grid.2, i % o.grid.2)
def subM (o : MOp) (arr : Nat) : Nat := min 128 (o.m - 128 * (o.block arr).1)
def subN (o : MOp) (arr : Nat) : Nat := min 128 (o.n - 128 * (o.block arr).2)
/-- The operand sections of a ring slot (R226). -/
def secA (o : MOp) : Sec := ⟨o.fa, o.ga, o.m, o.kc, if o.spe && !o.spb then some o.nsp else none, o.oca⟩
def secB (o : MOp) : Sec := ⟨o.fb, o.gb, o.n, o.kc, if o.spe && o.spb then some o.nsp else none, o.ocb⟩
end MOp

/-- Ring, phase, slot and release weight of a ring operand (Table 9.3). -/
structure RingSrc where
  ring : Nat
  ph : Bool
  slot : Nat
  rel : Nat
def MOp.srcA (o : MOp) : RingSrc := ⟨pf o.desc 2 62 59, tbit (wordAt o.desc 2) 58, pf o.desc 2 57 46, pf o.desc 2 45 37⟩
def MOp.srcB (o : MOp) : RingSrc := ⟨pf o.desc 3 62 59, tbit (wordAt o.desc 3) 58, pf o.desc 3 57 46, pf o.desc 3 45 37⟩
/-- The ring operands of an operation with the layout of each. -/
def MOp.srcs (o : MOp) : List (RingSrc × Sec) :=
  (if o.asrc then [] else [(o.srcA, o.secA)]) ++ (if o.opc = 0 then [(o.srcB, o.secB)] else [])
/-- Slot and phase of chunk c (R225). -/
def RingSrc.at (x : RingSrc) (r : Ring) (c : Nat) : Nat × Bool :=
  let i := x.slot % (r.nslot + 1) + c
  (i % (r.nslot + 1), x.ph != decide (i / (r.nslot + 1) % 2 = 1))

/-- Bytes of the drain area of a format and geometry (R230). -/
def MOp.scaleOff (o : MOp) : Nat := o.doff + o.m * o.dpitch
def MOp.scaleBytes (o : MOp) (fm g : Nat) : Nat :=
  if fm ≥ 16 then 0 else if g = 3 then 4 else blkRows g o.m * blkCols g o.n
def MOp.outOff (o : MOp) (fm g : Nat) : Nat := roundUpTo (o.scaleOff + o.scaleBytes fm g) 64
def MOp.drainEnd (o : MOp) (fm g : Nat) : Nat :=
  if fm ≥ 16 then o.scaleOff
  else if o.oco = 0 then o.scaleOff + o.scaleBytes fm g
  else o.outOff fm g + 4 * o.oco * blkRows g o.m * blkCols g o.n
/-- An output format fits its pitch and the 4 MiB of AM (R223). -/
def MOp.fits (o : MOp) (c : Ctx) (fm g : Nat) : Bool :=
  decide (o.n * mxBits c fm ≤ o.dpitch * 8) && decide (o.drainEnd fm g ≤ Config.arrBytes)

/-- The rules of Table 9.3, Table 9.4, R223 and R224 that give ERR 1; slots gives a ring's slots. -/
def MOp.wellFormed (o : MOp) (c : Ctx) (live : Nat → Bool) (slots : Nat → Option Nat) : Bool :=
  let d (w hi lo : Nat) : Nat := pf o.desc w hi lo
  let conv := o.opc == 1
  let kmul (g : Nat) : Bool := match g with | 0 | 2 => o.kc % 32 == 0 | 1 => o.kc % 16 == 0 | _ => true
  let nv := f32.dec o.nrt
  -- D0
  decide (o.opc ≤ 1) && decide (o.fa ≤ 19) && fmtHere c o.fa && decide (o.fb ≤ 19) && (conv || fmtHere c o.fb) &&
  (!conv || o.fb == 0) && (o.ga == 0 || decide (o.fa < 16)) && (o.gb == 0 || decide (o.fb < 16)) && decide (o.slc ≤ 8) &&
  (!conv || o.slc == 0) && decide (o.coop ≤ 5) &&
  (if o.spe then decide (1 ≤ o.nsp) && decide (o.nsp ≤ 48) else !o.spb && o.nsp == 0) && decide (o.oca ≤ 8) &&
  decide (o.ocb ≤ 8) && d 0 20 0 == 0 &&
  -- D1
  decide (o.m ≤ 128 * o.grid.1) && decide (o.n ≤ 128 * o.grid.2) && o.k % o.kc == 0 && (!o.spe || o.kc % 48 == 0) &&
  kmul o.ga && kmul o.gb && d 1 4 0 == 0 &&
  -- D2, D3
  (if o.asrc then
    decide (16 ≤ o.afmt) && decide (o.afmt ≤ 20) && decide (1 ≤ d 2 40 31) && d 2 22 0 == 0 &&
    decide ((if conv then o.n else o.k) * mxBits c o.afmt ≤ o.apitch * 8) && decide (o.aoff + o.m * o.apitch ≤ Config.arrBytes)
  else !conv && decide (1 ≤ d 2 45 37) && decide (d 2 45 37 ≤ 256) && d 2 36 0 == 0) &&
  (if conv then wordAt o.desc 3 == 0
  else !tbit (wordAt o.desc 3) 63 && decide (1 ≤ d 3 45 37) && decide (d 3 45 37 ≤ 256) && d 3 36 0 == 0) &&
  -- D4
  decide (d 4 63 59 ≤ 20) && fmtHere c (d 4 63 59) && (d 4 58 57 == 0 || decide (d 4 63 59 < 16)) && decide (1 ≤ d 4 39 30) &&
  decide (o.oco ≤ 8) && (o.oco == 0 || decide (d 4 63 59 < 16)) && d 4 16 0 == 0 && o.fits c (d 4 63 59) (d 4 58 57) &&
  -- D5
  (if o.nmon then nv.live && !nv.neg && Q.lt (Q.ofInt 1) nv.q else o.nrt == 0) && d 5 14 0 == 0 &&
  (!o.nwr || decide (o.noff + 64 ≤ Config.arrBytes)) &&
  -- D6, D7
  (!o.fv || o.nmon) && decide (d 6 62 58 ≤ 19) && decide (d 6 57 53 ≤ 19) && d 6 50 0 == 0 && wordAt o.desc 7 == 0 &&
  (!o.fv || ((!o.asrc || fmtHere c (d 6 62 58)) && fmtHere c (d 6 57 53) && o.fits c (d 6 57 53) (d 6 52 51))) &&
  (!o.fv || o.srcs.all (fun x => match slots x.1.ring with | some n => decide (o.chunks ≤ n) | none => true)) &&
  o.members.all live

/-! ### Entries of the queues -/

/-- Changes every member's entry of an operation. -/
def State.modOp (s : State) (id : Nat) (f : MOp → MOp) : State :=
  { s with arrs := s.arrs.map (fun (k, a) => (k, { a with q := a.q.map (fun o => if o.id = id then f o else o) })) }
/-- Changes one array's entry of an operation. -/
def State.modEntry (s : State) (arr id : Nat) (f : MOp → MOp) : State :=
  s.modArr arr (fun a => { a with q := a.q.map (fun o => if o.id = id then f o else o) })
/-- Takes an operation out of every queue. -/
def State.dropOp (s : State) (id : Nat) : State :=
  { s with arrs := s.arrs.map (fun (k, a) => (k, { a with q := a.q.filter (fun o => o.id != id) })) }
/-- Every entry of an operation. -/
def State.entries (s : State) (id : Nat) : List MOp := s.arrs.flatMap (fun a => a.2.q.filter (fun o => o.id == id))
/-- An operation stands at completion with a status. -/
def State.failOp (s : State) (id err : Nat) : State :=
  let (f, s) := s.newFree
  s.modOp id (fun o => { o with stage := 3, status := errStatus f err })
/-- R218, R219: reads the descriptor of an armed register and appends the operation; true when a target queue is full. A read
that fails completes the arm with ERR 5; poisoned data counts as such a read (log entry 32). -/
def State.appendOp (s : State) (quad c launch ctx : Nat) : State × Bool :=
  let r := s.cregD quad c
  let s0 := s.modCreg quad c (fun r => { r with armed := false })
  let who : Who := ⟨arrMid quad, 8 + quad / 16, ctx, none, false, none⟩
  let fail (s : State) : State × Bool :=
    let (f, s) := s.newFree
    (s.modCreg quad c (fun r => r.complete r.armseq (some (errStatus f 5))), false)
  match attempt (readLines who .read r.daddr 2 64) s0 with
  | (s, none) => fail s
  | (s, some (_, true)) => fail s
  | (s, some (v, false)) =>
    let (id, s) := s.newId
    let desc := (List.range 8).map (fun i => dw (v / 2 ^ (64 * i)))
    let o : MOp := {
      id := id, launch := launch, ctx := ctx, quad := quad, creg := c, seq := r.armseq, desc := desc
      appended := id, stage := 0, chunk := 0, fx := [], flags := 0, ocnt := 0, second := false, ocnt1 := 0, status := 0 }
    let ms := if o.coop ≤ 5 then o.members else [quad]
    (ms.foldl (fun s a => s.modArr a (fun x => { x with q := x.q ++ [o] })) s, ms.any (fun a => decide ((s.arrD a).q.length ≥ 64)))

/-! ### Service (R220, R225, R227, R228) -/

/-- The ring of an operation's operand, if it is valid and of the launch. -/
def opRing (s : State) (o : MOp) (x : RingSrc) : Option Ring :=
  let r := alGetD (s.quadD o.quad).rings x.ring .empty
  if r.v && r.own == o.launch then some r else none
/-- The check at the head of the queue: 0, ERR 1 or ERR 2 (R222, R223). -/
def opCheck (s : State) (o : MOp) : Nat :=
  let c := s.ctxD o.ctx
  if !o.wellFormed c (arrLive s) (fun k => (opRing s o ⟨k, false, 0, 0⟩).map (fun r => r.nslot + 1)) then 1
  else if o.srcs.all (fun x => match opRing s o x.1 with
      | some r => r.store && decide (x.2.size c ≤ r.slotBytes)
      | none => false) then 0
  else 2
/-- The current chunk's slots are FULL in their phases (R225). -/
def opReady (s : State) (o : MOp) : Bool :=
  o.srcs.all (fun x => match opRing s o x.1 with
    | some r =>
      let (k, p) := x.1.at r o.chunk
      (r.slot k).full && (r.slot k).ph == p
    | none => false)
/-- Where the slot of a chunk begins in ring store. -/
def slotBase (r : Ring) (k : Nat) : Nat := r.base * 64 + k * r.slotBytes
/-- Releases the slots of a chunk: consumer side, phase, weight (R225). -/
def State.releaseChunk (s : State) (o : MOp) (c : Nat) : State :=
  o.srcs.foldl (fun s x => match opRing s o x.1 with
    | some r =>
      let (k, p) := x.1.at r c
      s.engineRelease o.quad o.launch (x.1.ring * 2 ^ 28 + k * 2 ^ 16) true p x.1.rel
    | none => s) s
/-- The admission key of an operation's launch; one that has ended comes last. -/
def opKey (s : State) (o : MOp) : Nat × Nat × Nat := match s.launch? o.launch with | some l => l.key | none => (2, 0, 0)
/-- The oldest entry of each launch in a queue. -/
def oldest : List MOp → List Nat → List MOp
  | [], _ => []
  | o :: r, ls => if ls.contains o.launch then oldest r ls else o :: oldest r (o.launch :: ls)
/-- No operation armed earlier on the same convergence register has its drain still to make: the operations of a register
execute in ARMSEQ order, and each reads AM after the earlier ones wrote it (R141, R220). -/
def opTurn (s : State) (o : MOp) : Bool :=
  (s.arrD o.quad).q.all (fun e => e.quad != o.quad || e.creg != o.creg || decide (e.appended ≥ o.appended) || e.stage == 3)
/-- A member of the operation is frozen: its current operation halts (R236). -/
def opHalted (s : State) (o : MOp) : Bool := o.members.any (fun a => s.isFrozen (arrMid a))
/-- A ring the operation streams from has gone: its launch has ended (R220; log entry 98). -/
def ringLost (s : State) (o : MOp) : Bool := o.srcs.any (fun x => (opRing s o x.1).isNone)
/-- A member whose sub-tile lies wholly at or beyond M or N: it does no work (R224). -/
def MOp.idleAt (o : MOp) (arr : Nat) : Bool := o.subM arr == 0 || o.subN arr == 0
/-- An entry the array can serve now: one to check, one without work, or a chunk whose slots are FULL. -/
def servable (s : State) (arr : Nat) (o : MOp) : Bool :=
  o.stage == 0 || (o.stage == 1 && opTurn s o && !opHalted s o &&
    (o.idleAt arr || decide (o.opc = 1) || ringLost s o || opReady s o))
/-- The entry an array serves next: a reissue first (R233), else the lowest admission key, ties to the earlier entry. -/
def pickOp (s : State) (arr : Nat) : Option MOp :=
  let c := (oldest (s.arrD arr).q []).filter (servable s arr)
  match c.find? (·.second) with
  | some o => some o
  | none => c.foldl (fun b o => match b with
      | none => some o
      | some x => if keyLt (opKey s o) (opKey s x) then some o else some x) none

/-- The AM source region as values (R231 steps 1 and 2). -/
def amMat (s : State) (o : MOp) (cols : Nat) : Mat :=
  let c := s.ctxD o.ctx
  let m := alGetD (s.arrD o.quad).am o.ctx []
  let w := mxBits c o.afmt
  ⟨o.m, cols, (List.range o.m).map (fun i => (List.range cols).map (fun k =>
    OutV.relu o.arelu (.inl (mxDec c o.afmt (rdBits m (8 * (o.aoff + i * o.apitch) + k * w) w)))))⟩
/-- The down-converter (R231): elements as converted, the codes' subnormals and what was gathered. -/
def downConvert (s : State) (o : MOp) (cols : Nat) : List (List El) × Bool × DFlags :=
  let c := s.ctxD o.ctx
  let x := amMat s o cols
  if o.fa < 16 then
    let r := narrowMat (ftOf c o.fa) o.ga o.oca o.olima x
    (r.vals, r.codes.any (fun l => l.any (fun k => mxSub c o.fa k)), { r.fl with subn := false })
  else
    let cs := x.rows.map (fun r => r.map (wideCode o.fa o.sat))
    (cs.map (fun r => r.map (fun e => ⟨mxDec c o.fa e.1, []⟩)), cs.any (fun r => r.any (fun e => mxSub c o.fa e.1)),
      { (cs.foldl (fun a r => r.foldl (fun a e => a.or e.2) a) DFlags.zero) with subn := false })
/-- Flag bits of a status (Table 9.5). -/
def stFlag (i : Nat) (b : Bool) : DWord := if b then dw (2 ^ i) else 0
/-- A poisoned word lies in what a chunk reads (R228): of an AM source the columns of the chunk, or all of them where the one
scale of geometry 11 is chosen from the whole tensor. -/
def chunkPoison (s : State) (o : MOp) : Bool :=
  let c := s.ctxD o.ctx
  o.srcs.any (fun x => match opRing s o x.1 with
    | some r => (Store.ring o.quad).poisoned s (slotBase r (x.1.at r o.chunk).1) (x.2.size c)
    | none => false) ||
  (o.asrc && (
    let whole := o.opc == 1 || (o.fa < 16 && o.ga == 3)
    let w := mxBits c o.afmt / 8
    (List.range o.m).any (fun i => (Store.am o.quad o.ctx).poisoned s
      (o.aoff + i * o.apitch + (if whole then 0 else o.chunk * o.kc * w))
      ((if o.opc = 1 then o.n else if whole then o.k else o.kc) * w))))
/-- One chunk of a member array: its FX store, flags and outliers after it. -/
def runChunk (s : State) (o : MOp) (arr : Nat) : MOp :=
  let c := s.ctxD o.ctx
  let first := decide (o.members.head? = some arr)
  let m := (s.arrD o.quad).ring
  let base (x : RingSrc) : Nat := match opRing s o x with
    | some r => slotBase r (x.at r o.chunk).1
    | none => 0
  let (br, bc) := o.block arr
  let (dc, dsub, dfl) : List (List El) × Bool × DFlags := if o.asrc then downConvert s o o.k else ([], false, .zero)
  let rowEls (i : Nat) : List El := (List.range o.kc).map (fun k =>
    if o.asrc then (dc.getD i []).getD (o.chunk * o.kc + k) .zero else o.secA.el c m (base o.srcA) i k)
  let colEls (j : Nat) : List El := (List.range o.kc).map (fun k => o.secB.el c m (base o.srcB) j k)
  let sl := o.slices
  let rows := (List.range (o.subM arr)).map (fun i => slicedOf sl (rowEls (128 * br + i)))
  let cols := (List.range (o.subN arr)).map (fun j => slicedOf sl (colEls (128 * bc + j)))
  let old := if o.chunk = 0 then List.replicate (rows.length * cols.length) FxEl.empty else o.fx
  let fx := (rows.flatMap (fun a => cols.map (fun b => (a, b)))).zip old |>.map (fun x => x.2.chunk sl o.square (Config.zeroAnchor o.unsplit o.chunk) x.1.1 x.1.2)
  let trunc := (rows ++ cols).any (·.lost)
  let om := !o.square && decide (sl ≥ 2) && (match topDigit rows, topDigit cols with
    | some p, some q => decide (p + q ≥ sl)
    | _, _ => false)
  let once := first && decide (o.chunk = 0)
  let subn := (if o.asrc then once && dsub else o.secA.anySub c m (base o.srcA)) || o.secB.anySub c m (base o.srcB)
  let merr := (!o.asrc && o.secA.merr c m (base o.srcA)) || o.secB.merr c m (base o.srcB)
  { o with
    fx := fx, chunk := o.chunk + 1
    stage := if o.chunk + 1 = o.chunks then 2 else 1
    flags := o.flags ||| stFlag 50 trunc ||| stFlag 49 om ||| stFlag 46 subn ||| stFlag 41 merr |||
      stFlag 42 (once && dfl.satc) ||| stFlag 45 (once && decide (dfl.ocnt > 0))
    ocnt := o.ocnt + (if once then dfl.ocnt else 0) }
/-- CONV takes each converted value as its FX (R231). -/
def convFx (e : El) : FxEl :=
  match e.eff with
  | .nan _ => { FxEl.empty with spec := 1 }
  | .inf n => { FxEl.empty with spec := if n then 4 else 2 }
  | .fin n m x => { FxEl.empty with v := if n then -(m : Int) else m, l := some x }
/-- CONV on a member array. -/
def runConv (s : State) (o : MOp) (arr : Nat) : MOp :=
  let first := decide (o.members.head? = some arr)
  let (br, bc) := o.block arr
  let (dc, dsub, dfl) := downConvert s o o.n
  { o with
    fx := (List.range (o.subM arr)).flatMap (fun i => (List.range (o.subN arr)).map (fun j =>
      convFx ((dc.getD (128 * br + i) []).getD (128 * bc + j) .zero)))
    chunk := o.chunk + 1
    stage := 2
    flags := if first then o.flags ||| stFlag 46 dsub ||| stFlag 42 dfl.satc ||| stFlag 45 (decide (dfl.ocnt > 0)) else o.flags
    ocnt := if first then o.ocnt + dfl.ocnt else o.ocnt }
/-- A per-tensor scale of the chunk is not usable (Table 10.7). -/
def chunkBadScale (s : State) (o : MOp) : Bool :=
  o.srcs.any (fun x => match opRing s o x.1 with
    | some r => x.2.badScale (s.ctxD o.ctx) (s.arrD o.quad).ring (slotBase r (x.1.at r o.chunk).1)
    | none => false)
/-- The entries of the members that have work: a sub-tile wholly beyond M or N has none (R224). -/
def State.working (s : State) (o : MOp) : List MOp :=
  (o.members.filter (fun a => o.subM a != 0 && o.subN a != 0)).filterMap (fun a => (s.arrD a).q.find? (fun e => e.id == o.id))
/-- The first chunk some working member has still to read: the chunks before it have been read by every member. -/
def State.lowChunk (s : State) (o : MOp) : Nat := (s.working o).foldl (fun n e => min n e.chunk) (2 ^ 24)
/-- How many chunks some member has read. -/
def State.topChunk (s : State) (o : MOp) : Nat := (s.working o).foldl (fun n e => max n e.chunk) 0
/-- An operation that ends at its chunk: every slot it has read and still holds is released (R225, R228). -/
def State.endAtChunk (s : State) (o : MOp) (err : Nat) : State :=
  let top := if o.second then o.chunks else max (s.topChunk o) (o.chunk + 1)
  let low := if o.fv then 0 else s.lowChunk o
  (((List.range top).filter (fun c => decide (low ≤ c))).foldl (fun s c => s.releaseChunk o c) s).failOp o.id err
/-- Writes n free 64-byte lines from an address: bytes whose layout no rule gives. -/
def freeLinesAt (who : Who) (va : Nat) : Nat → State → State
  | 0, s => s
  | n + 1, s => freeLinesAt who (va + 64) n (freeLine who va s).1
/-- R238: an array that turns to another operation saves the cells and the FX store of one it leaves unfinished in that
context's save slot, after AM's 4 MiB (R314). The bytes' layout is not given (log entry 99). -/
def State.cellsTo (s : State) (arr : Nat) (o : MOp) : State :=
  let left := (s.arrD arr).cur.bind (fun id => (s.arrD arr).q.find? (fun e => e.id == id))
  let s := match left with
    | some p =>
      if p.id != o.id && !p.fx.isEmpty && decide (p.stage < 3) then
        freeLinesAt (arrWho arr p.ctx) (amSlot (s.ctxD p.ctx) arr + Config.arrBytes) 10240 s
      else s
    | none => s
  s.modArr arr (fun a => { a with cur := some o.id })
/-- MATRIX_CHUNK_SERVE: the array checks an entry at its head, or serves one chunk (R220, R222, R225 to R228). -/
def State.serveChunk (s : State) (arr : Nat) : State :=
  if s.isFrozen (arrMid arr) then s
  else match pickOp s arr with
  | none => s
  | some o =>
    if o.stage = 0 then
      match opCheck s o with
      | 0 => s.modOp o.id (fun o => { o with stage := 1 })
      | e => s.failOp o.id e
    else if o.idleAt arr then
      -- a sub-tile wholly beyond M or N does no work (R224)
      s.modEntry arr o.id (fun o => { o with stage := 2, chunk := o.chunks })
    else
      let s := ((s.cellsTo arr o).amOwn arr o.ctx).amOwn o.quad o.ctx
      if ringLost s o then s.failOp o.id 6
      else if chunkPoison s o then s.endAtChunk o 4
      else if o.opc = 1 then s.modEntry arr o.id (fun _ => runConv s o arr)
      else if chunkBadScale s o then s.endAtChunk o 1
      else
        let before := s.lowChunk o
        let s := s.modEntry arr o.id (fun _ => runChunk s o arr)
        if s.lowChunk o > before && !o.fv then s.releaseChunk o before else s

/-! ### The drain (R229 to R233) -/

/-- The tile of an operation: each element's FX, from the member that holds it. -/
def tileFx (s : State) (o : MOp) : List (List FxEl) :=
  let part (arr : Nat) : List FxEl := match (s.arrD arr).q.find? (fun e => e.id == o.id) with | some e => e.fx | none => []
  let parts := o.members.map (fun a => (a, part a))
  (List.range o.m).map (fun i => (List.range o.n).map (fun j =>
    let a := (o.members.getD (i / 128 * o.grid.2 + j / 128) o.quad)
    ((parts.find? (fun p => p.1 == a)).map (·.2) |>.getD []).getD (i % 128 * o.subN a + j % 128) .empty))
/-- The norm figures over the values written (R229 step 5): sum of squares and maximum as f64 codes, NaN count. -/
def normOf (vs : List FV) : Nat × Nat × Nat :=
  let nans := (vs.filter FV.isNan).length
  let inf := vs.any FV.isInf
  let sq := vs.foldl (fun a v => a.add (v.q.mul v.q)) (Q.ofInt 0)
  let mx := vs.foldl (fun a v => Q.max a v.q.abs) (Q.ofInt 0)
  (if nans > 0 then f64.dnan else if inf then f64.infCode false else (f64.round .rne 0 false sq).1,
    if inf then f64.infCode false else (f64.round .rne 0 false mx).1, nans)
/-- What a drain writes: codes by row with their width, and for a narrow output scales and outlier records. -/
structure Drained where
  codes : List (List Nat)
  narrow : Option Narrow
  vals : List FV
  fl : DFlags
/-- Steps 1 to 4 of R229. -/
def drainVals (c : Ctx) (o : MOp) (tile : List (List FxEl)) : Drained :=
  let x : Mat := ⟨o.m, o.n, tile.map (fun r => r.map (fun e => OutV.relu o.drelu e.out))⟩
  if o.dfmt < 16 then
    let r := narrowMat (ftOf c o.dfmt) o.dg o.oco o.olimo x
    ⟨r.codes, some r, r.vals.flatMap (fun l => l.map El.eff), r.fl⟩
  else
    let cs := x.rows.map (fun r => r.map (wideCode o.dfmt o.sat))
    ⟨cs.map (fun r => r.map (·.1)), none, cs.flatMap (fun r => r.map (fun e => mxDec c o.dfmt e.1)),
      cs.foldl (fun a r => r.foldl (fun a e => a.or e.2) a) DFlags.zero⟩
/-- The AM of an operation after its drain (R230). -/
def drainWrite (c : Ctx) (o : MOp) (d : Drained) (norm : Nat × Nat × Nat) (m : AL Byte) : AL Byte :=
  let w := mxBits c o.dfmt
  let m := d.codes.zipIdx.foldl (fun m r => r.1.zipIdx.foldl (fun m e =>
    wrBits m (8 * (o.doff + r.2 * o.dpitch) + e.2 * w) w e.1) m) m
  let m := match d.narrow with
    | none => m
    | some r =>
      let m := r.scales.foldl (fun m sc =>
        if o.dg = 3 then
          wrBytes m o.scaleOff 4 (match sc.2 with | some e => (f32.round .rne 0 false (Q.dy 1 e)).1 | none => f32.dnan)
        else wrBytes m (o.scaleOff + sc.1.2 * blkRows o.dg o.m + sc.1.1) 1 (match sc.2 with | some e => (e + 127).toNat | none => 255)) m
      if o.oco = 0 then m
      else r.entries.foldl (fun m b => (List.range o.oco).foldl (fun m t =>
        wrBytes m (o.outOff o.dfmt o.dg + 4 * ((b.1.2 * blkRows o.dg o.m + b.1.1) * o.oco + t)) 4
          (match b.2[t]? with | some (i, v) => v * 2 ^ 16 + i * 2 ^ 6 + 2 ^ 5 | none => 0)) m) m
  if o.nwr then wrBytes m o.noff 64 (norm.1 + norm.2.1 * 2 ^ 64 + norm.2.2 * 2 ^ 128) else m
/-- The words a drain overwrites whole lose their poison (R122): the rows, then the scales and the outlier records, and the norm
record. -/
def drainClears (c : Ctx) (o : MOp) (l : List Nat) : List Nat :=
  let l := (List.range o.m).foldl (fun l i => clearPoison l 4 (o.doff + i * o.dpitch) (o.n * mxBits c o.dfmt / 8)) l
  let l := clearPoison l 4 o.scaleOff (o.scaleBytes o.dfmt o.dg)
  let l := if o.dfmt < 16 && o.oco != 0 then
      clearPoison l 4 (o.outOff o.dfmt o.dg) (4 * o.oco * blkRows o.dg o.m * blkCols o.dg o.n) else l
  if o.nwr then clearPoison l 4 o.noff 64 else l
/-- The status of a result (R234, R263, R264): bound, flags gathered and the drain's own. -/
def opStatus (o : MOp) (all : List MOp) (tile : List (List FxEl)) (d : Drained) : DWord :=
  let els := tile.flatten
  let live := els.filter (fun e => e.spec == 0)
  let fl := all.foldl (fun a e => a ||| e.flags) 0
  let sl := o.slices
  let k := (if tbit fl 50 then 1 else 0) + (if tbit fl 49 then sl - 1 else 0)
  let b := if o.opc = 1 then -2048 else boundOf (live.map (fun e => e.err k))
  let oc := (all.map (·.ocnt)).foldl (· + ·) 0 + d.fl.ocnt + o.ocnt1
  let fl := fl ||| stFlag 48 (live.any (fun e => decide (e.nl > 0))) |||
    stFlag 47 (els.any (fun e => e.spec != 0) || d.fl.spec) ||| stFlag 46 d.fl.subn ||| stFlag 42 d.fl.satc |||
    stFlag 45 (decide (d.fl.ocnt > 0))
  fl ||| dw (modW 12 b * 2 ^ 52 + (if b = -2048 then 2 ^ 51 else 0) + 2 ^ 24 + min (2 ^ 24 - 1) oc)
/-- The norm monitor's verdict after a drain (R232): no trip where REF = 0, else a trip where S is not finite or exceeds
NRT²·REF. -/
def normTrips (o : MOp) (ref : DWord) (norm : Nat) : Bool :=
  let nr := (f32.dec o.nrt).q
  o.nmon && ref != 0 && (match f64.dec norm, f64.dec ref.toNat with
    | .fin n m e, .fin n' m' e' => Q.lt ((nr.mul nr).mul (FV.fin n' m' e').q) (FV.fin n m e).q
    | .fin .., _ => false
    | _, _ => true)
/-- What follows a drain: the operation is reissued once for its fallback, or stands at completion with its status
(R229 to R233). -/
def State.settleOp (s : State) (o : MOp) (norm : Nat) (st : DWord) (trip : Bool) : State :=
  if trip && o.fv && !o.second then
    s.modOp o.id (fun e => { e with
      second := true, stage := 1, chunk := 0, fx := [], flags := 0, ocnt := 0,
      ocnt1 := if e.quad = o.quad then bits st 23 0 else 0 })
  else
    let s := if o.nmon && !trip then s.modCreg o.quad o.creg (fun r => { r with ref := dw norm }) else s
    let s := if o.fv then (List.range o.chunks).foldl (fun s k => s.releaseChunk o k) s else s
    let st := st ||| stFlag 44 (trip || o.second) ||| stFlag 43 (trip && o.second)
    s.modOp o.id (fun e => { e with stage := 3, status := st })
/-- MATRIX_DRAIN: once every member has accumulated, the tile drains into the home's AM, the norm monitor decides, and the
operation stands at completion or is reissued (R229 to R233). -/
def State.drainOp (s : State) (arr : Nat) : State :=
  if s.isFrozen (arrMid arr) then s
  else match (s.arrD arr).q.find? (fun o => o.stage == 2 && !opHalted s o && (s.entries o.id).all (fun e => e.stage == 2)) with
  | none => s
  | some o0 =>
    let all := s.entries o0.id
    let o := ((s.arrD o0.quad).q.find? (fun e => e.id == o0.id)).getD o0
    let c := s.ctxD o.ctx
    let s := s.amOwn o.quad o.ctx
    let tile := tileFx s o
    let d := drainVals c o tile
    let norm := normOf d.vals
    (s.modArr o.quad (fun a => { a with
      am := alMod a.am o.ctx [] (drainWrite c o d norm)
      amPoison := alMod a.amPoison o.ctx [] (drainClears c o) })).settleOp o norm.1
      (opStatus o all tile d) (normTrips o (s.cregD o.quad o.creg).ref norm.1)
/-- MATRIX_OP_COMPLETE: an operation leaves the queues and its status merges in its turn (R234, R418). -/
def State.finishOp (s : State) (arr : Nat) : State :=
  if s.isFrozen (arrMid arr) then s
  else match (s.arrD arr).q.find? (fun o => o.stage == 3 && !opHalted s o) with
  | none => s
  | some o => (s.dropOp o.id).modCreg o.quad o.creg (fun r => r.complete o.seq (some o.status))
/-- A THAW that discards: the operation the array is at, if it has not drained, completes with ERR 6 (R236). -/
def State.discardOp (s : State) (arr : Nat) : State :=
  match (s.arrD arr).q.find? (fun o => (s.arrD arr).cur == some o.id && (o.stage == 1 || o.stage == 2)) with
  | none => s
  | some o =>
    let s := s.failOp o.id 6
    match (s.entries o.id).head? with
    | some e => (s.dropOp o.id).modCreg o.quad o.creg (fun r => r.complete o.seq (some e.status))
    | none => s

end Sys2Proof.Machine
end

