-- ==== Sys2Proof/Machine/Matrix.lean ====
section
/-! DEFINITION. The words of ENGM (R415 to R419). -/
namespace Sys2Proof.Machine

/-- The convergence register a word names, after the checks every ENGM word makes at issue (R415): quad and register. -/
def namedCreg (c : Nat) : X (Nat × Creg) := do
  let s ← get
  let quad := coreQuad s.curCore
  let r := s.cregD quad c
  if !arrLive s quad then raise cBOUND 1
  else if r.own.isSome && r.own != s.cur.id.launch && !r.free then raise cBOUND 1
  else pure (quad, r)

/-- MARM (R416): once for the set. -/
def execMarm (hd : Hd) (a b : Src) (v : Fin 16) (st : State) : Out := runWord hd.gd 1 (onceLate (do
  let x ← src64 a
  let n ← src32 b
  let (quad, r) ← namedCreg v.val
  if n.toNat = 0 ∨ n.toNat > 4096 then operand
  else if x.toNat ≥ 2 ^ 55 then raise cXLATE 1 x.toNat
  else if x.toNat % 64 ≠ 0 then raise cALIGN 0 x.toNat
  else do
    let s ← get
    let l := s.cur.id.launch
    let r := if r.free then (if r.own = l then r else { r with own := l, cst := 0, ref := 0 }) else r
    if r.armed then pure 0
    else do
      let r := { r with armed := true, daddr := x.toNat, nsig := n.toNat, sigs := 0, armseq := r.armseq + 1 }
      set (s.modCreg quad v.val (fun _ => r))
      pure (dw (2 ^ 32 + r.armseq.toNat)))) st
/-- The arrays to whose command queues an append has added (R218). -/
def appendedTo (s t : State) : List Nat := (t.arrs.filter (fun a => decide ((s.arrD a.1).q.length < a.2.q.length))).map (·.1)
/-- MSIGN (R417): after the thread's source action the signature counts; the last one appends the operation. -/
def execMsign (hd : Hd) (a : Src) (v : Fin 16) (st : State) : Out := runWord hd.gd 0 (do
  let t ← src32 a
  let (quad, _) ← namedCreg v.val
  modify (fun s => s.drainCore s.curCore)
  let s ← get
  let r := s.cregD quad v.val
  if !r.armed ∨ t ≠ r.armseq then operand
  else do
    let s := s.modCreg quad v.val (fun r => { r with sigs := r.sigs + 1 })
    if r.sigs + 1 = r.nsig then
      let (s', full) := s.appendOp quad v.val (s.cur.id.launch.getD 0) s.cur.id.ctx
      if full then stallX
      else do
        -- each member's command queue takes the command through Marrow's table (R42; log entry 21)
        forX (fun a => crossBridge s.curWho a .command (marrowAddr a false 0)) (appendedTo s s')
        set s'
    else set s) st
/-- MWAIT (R221): the wait takes the ARMSEQ that c holds at the thread's arrival. -/
def execMwait (hd : Hd) (v : Fin 16) (st : State) : Out := runWord hd.gd 0 (do
  let _ ← namedCreg v.val
  addWait (.mwait v.val none)) st
/-- MDRAIN (R418): a ticket ahead of every arm is an illegal operand. -/
def execMdrain (hd : Hd) (a : Src) (v : Fin 16) (st : State) : Out := runWord hd.gd 0 (do
  let t ← src32 a
  let (_, r) ← namedCreg v.val
  if (r.armseq - t).toNat ≥ 2 ^ 31 then operand else addWait (.mdrain v.val t)) st
/-- MCFG (R419). -/
def execMcfg (hd : Hd) (a : Src) (v : Fin 16) (st : State) : Out := runWord hd.gd 0 (onceX (do
  let m ← src32 a
  let (quad, _) ← namedCreg v.val
  if m.toNat > 3 then operand
  else do
    modify (fun s => s.modCreg quad v.val (fun r => { r with trapm := BitVec.ofNat 2 m.toNat }))
    pure [])) st
/-- MNORM (R419). -/
def execMnorm (hd : Hd) (a : Src) (v : Fin 16) (st : State) : Out := runWord hd.gd 0 (onceX (do
  let x ← src64 a
  let (quad, _) ← namedCreg v.val
  match f64.dec x.toNat with
  | .nan _ | .inf _ => operand
  | .fin n m _ =>
    if n && m != 0 then operand
    else do
      modify (fun s => s.modCreg quad v.val (fun r => { r with ref := if m = 0 then 0 else x }))
      pure [])) st
/-- MRESET (R419): an unsigned arm is cancelled and completes in its turn, CST and REF clear. -/
def execMreset (hd : Hd) (v : Fin 16) (st : State) : Out := runWord hd.gd 0 (onceX (do
  let (quad, _) ← namedCreg v.val
  modify (fun s => s.modCreg quad v.val (fun r =>
    let r := if r.armed then { r with armed := false }.complete r.armseq none else r
    { r with cst := 0, ref := 0 }))
  pure [])) st

end Sys2Proof.Machine
end

