-- ==== Sys2Proof/Machine/Blocks.lean ====
section
/-! DEFINITION. Texels of ETC2 and ASTC blocks (R288), as the Khronos Data Format Specification lays them down (PRESUMED, log entry
102). A block is the number of its bytes, byte k at bits [8k+7:8k]; a texel is the number of its bytes R, G, B, A. -/
namespace Sys2Proof.Machine

/-- A number confined to one byte. -/
def byteSat (x : Int) : Nat := if x < 0 then 0 else if x > 255 then 255 else x.toNat
/-- A texel of its channels. -/
def rgba (r g b a : Nat) : Nat := r + 2 ^ 8 * g + 2 ^ 16 * b + 2 ^ 24 * a
/-- A field of w bits as a signed number. -/
def signedField (w x : Nat) : Int := if x ≥ 2 ^ (w - 1) then (x : Int) - 2 ^ w else x

/-! ### ETC2 -/

/-- Eight bytes from the most significant on. -/
def bigBlock (x : Nat) : Nat := (List.range 8).foldl (fun a i => 256 * a + x / 256 ^ i % 256) 0
/-- The small and the large modifier of a table. -/
def etcMods : List (Nat × Nat) := [(2, 8), (5, 17), (9, 29), (13, 42), (18, 60), (24, 80), (33, 106), (47, 183)]
/-- The modifier a pixel index selects. -/
def etcMod (t i : Nat) : Int :=
  let m := etcMods.getD t (0, 0)
  let v : Int := if i % 2 = 1 then m.2 else m.1
  if i ≥ 2 then -v else v
/-- The distances of the T and H modes. -/
def etcDist : List Nat := [3, 6, 11, 16, 23, 32, 41, 64]
/-- A colour with one amount added to every channel. -/
def shiftRgb (c : Nat × Nat × Nat) (m : Int) : Nat × Nat × Nat :=
  (byteSat (c.1 + m), byteSat (c.2.1 + m), byteSat (c.2.2 + m))
/-- Four bits, five bits, six bits and seven bits widened to a byte. -/
def widen4 (x : Nat) : Nat := 17 * x
def widen5 (x : Nat) : Nat := 8 * x + x / 4
def widen6 (x : Nat) : Nat := 4 * x + x / 16
def widen7 (x : Nat) : Nat := 2 * x + x / 64
/-- The T mode's colour for a pixel index. -/
def etcT (b i : Nat) : Nat × Nat × Nat :=
  let c1 := (widen4 (fld b 60 59 * 4 + fld b 57 56), widen4 (fld b 55 52), widen4 (fld b 51 48))
  let c2 := (widen4 (fld b 47 44), widen4 (fld b 43 40), widen4 (fld b 39 36))
  let d : Int := etcDist.getD (fld b 35 34 * 2 + fld b 32 32) 0
  match i with
  | 0 => c1
  | 1 => shiftRgb c2 d
  | 2 => c2
  | _ => shiftRgb c2 (-d)
/-- The H mode's colour for a pixel index. -/
def etcH (b i : Nat) : Nat × Nat × Nat :=
  let n1 := (fld b 62 59, fld b 58 56 * 2 + fld b 52 52, fld b 51 51 * 8 + fld b 49 47)
  let n2 := (fld b 46 43, fld b 42 39, fld b 38 35)
  let k (n : Nat × Nat × Nat) : Nat := n.1 * 256 + n.2.1 * 16 + n.2.2
  let d : Int := etcDist.getD (fld b 34 34 * 4 + fld b 32 32 * 2 + (if k n1 ≥ k n2 then 1 else 0)) 0
  let w (n : Nat × Nat × Nat) : Nat × Nat × Nat := (widen4 n.1, widen4 n.2.1, widen4 n.2.2)
  shiftRgb (w (if i < 2 then n1 else n2)) (if i % 2 = 1 then -d else d)
/-- The planar mode's colour of a pixel. -/
def etcPlanar (b x y : Nat) : Nat × Nat × Nat :=
  let f (o h v : Nat) : Nat := byteSat (((x : Int) * ((h : Int) - o) + y * ((v : Int) - o) + 4 * o + 2) / 4)
  (f (widen6 (fld b 62 57)) (widen6 (fld b 38 34 * 2 + fld b 32 32)) (widen6 (fld b 18 13)),
   f (widen7 (fld b 56 56 * 64 + fld b 54 49)) (widen7 (fld b 31 25)) (widen7 (fld b 12 6)),
   f (widen6 (fld b 48 48 * 32 + fld b 44 43 * 8 + fld b 41 39)) (widen6 (fld b 24 19)) (widen6 (fld b 5 0)))
/-- The colour of pixel (x, y) of an ETC2 RGB block. -/
def etcRgb (b x y : Nat) : Nat × Nat × Nat :=
  let px := 4 * x + y
  let i := b / 2 ^ (16 + px) % 2 * 2 + b / 2 ^ px % 2
  let second := decide ((if fld b 32 32 = 1 then y else x) ≥ 2)
  let t := if second then fld b 36 34 else fld b 39 37
  if fld b 33 33 = 0 then
    let c := if second then (widen4 (fld b 59 56), widen4 (fld b 51 48), widen4 (fld b 43 40))
      else (widen4 (fld b 63 60), widen4 (fld b 55 52), widen4 (fld b 47 44))
    shiftRgb c (etcMod t i)
  else
    let r := (fld b 63 59 : Int) + signedField 3 (fld b 58 56)
    let g := (fld b 55 51 : Int) + signedField 3 (fld b 50 48)
    let u := (fld b 47 43 : Int) + signedField 3 (fld b 42 40)
    if r < 0 ∨ r > 31 then etcT b i
    else if g < 0 ∨ g > 31 then etcH b i
    else if u < 0 ∨ u > 31 then etcPlanar b x y
    else
      let c := if second then (widen5 r.toNat, widen5 g.toNat, widen5 u.toNat)
        else (widen5 (fld b 63 59), widen5 (fld b 55 51), widen5 (fld b 47 43))
      shiftRgb c (etcMod t i)
/-- The modifiers of the alpha blocks: indices 0 to 3 count down, 4 to 7 up. -/
def eacTable : List (List Int) :=
  [[-3, -6, -9, -15, 2, 5, 8, 14], [-3, -7, -10, -13, 2, 6, 9, 12], [-2, -5, -8, -13, 1, 4, 7, 12], [-2, -4, -6, -13, 1, 3, 5, 12],
   [-3, -6, -8, -12, 2, 5, 7, 11], [-3, -7, -9, -11, 2, 6, 8, 10], [-4, -7, -8, -11, 3, 6, 7, 10], [-3, -5, -8, -11, 2, 4, 7, 10],
   [-2, -6, -8, -10, 1, 5, 7, 9], [-2, -5, -8, -10, 1, 4, 7, 9], [-2, -4, -8, -10, 1, 3, 7, 9], [-2, -5, -7, -10, 1, 4, 6, 9],
   [-3, -4, -7, -10, 2, 3, 6, 9], [-1, -2, -3, -10, 0, 1, 2, 9], [-4, -6, -8, -9, 3, 5, 7, 8], [-3, -5, -7, -9, 2, 4, 6, 8]]
/-- The alpha of pixel (x, y) of an alpha block. -/
def eacAlpha (b x y : Nat) : Nat :=
  let i := b / 2 ^ (45 - 3 * (4 * x + y)) % 8
  byteSat (fld b 63 56 + (eacTable.getD (fld b 51 48) []).getD i 0 * (fld b 55 52 : Nat))
/-- Texel (x, y) of an ETC2 block: RGB8 with A = 255, or RGBA8, whose alpha block comes first. -/
def etc2Texel (alpha : Bool) (x i j : Nat) : Nat :=
  let c := etcRgb (bigBlock (if alpha then x / 2 ^ 64 else x)) i j
  rgba c.1 c.2.1 c.2.2 (if alpha then eacAlpha (bigBlock (x % 2 ^ 64)) i j else 255)

/-! ### ASTC: bounded integer sequences -/

/-- Bits, and trits (1) or quints (2), of each range: 2, 3, 4, 5, 6, 8, 10, 12, 16, 20, 24, 32, 40, 48, 64, 80, 96, 128, 160, 192,
256 values. -/
def iseForm : List (Nat × Nat) :=
  [(1, 0), (0, 1), (2, 0), (0, 2), (1, 1), (3, 0), (1, 2), (2, 1), (4, 0), (2, 2), (3, 1), (5, 0), (3, 2), (4, 1), (6, 0), (4, 2),
   (5, 1), (7, 0), (5, 2), (6, 1), (8, 0)]
/-- Bits that n values of a range take. -/
def iseBits (q n : Nat) : Nat :=
  let f := iseForm.getD q (0, 0)
  n * f.1 + (match f.2 with | 0 => 0 | 1 => (8 * n + 4) / 5 | _ => (7 * n + 2) / 3)
/-- The five trits of a packed byte. -/
def trits (t : Nat) : List Nat :=
  let (c, t3, t4) : Nat × Nat × Nat :=
    if fld t 4 2 = 7 then (fld t 7 5 * 4 + t % 4, 2, 2)
    else if fld t 6 5 = 3 then (t % 32, fld t 7 7, 2)
    else (t % 32, fld t 6 5, fld t 7 7)
  let lo (hi b : Nat) : Nat := hi * 2 + (if hi = 1 then 0 else b)
  if c % 4 = 3 then [lo (fld c 3 3) (fld c 2 2), fld c 4 4, 2, t3, t4]
  else if fld c 3 2 = 3 then [c % 4, 2, 2, t3, t4]
  else [lo (fld c 1 1) (fld c 0 0), fld c 3 2, fld c 4 4, t3, t4]
/-- The three quints of seven packed bits. -/
def quints (q : Nat) : List Nat :=
  if fld q 2 1 = 3 ∧ fld q 6 5 = 0 then
    [4, 4, q % 2 * 4 + (if q % 2 = 1 then 0 else fld q 4 3)]
  else
    let (c, q2) : Nat × Nat :=
      if fld q 2 1 = 3 then (fld q 4 3 * 8 + (3 - fld q 6 5) * 2 + q % 2, 4) else (q % 32, fld q 6 5)
    if c % 8 = 5 then [fld c 4 3, 4, q2] else [c % 8, fld c 4 3, q2]
/-- The widths of the pieces of a packed number that follow each value's own bits. -/
def packPieces : Nat → List Nat
  | 1 => [2, 2, 1, 2, 1]
  | 2 => [3, 2, 2]
  | _ => [0]
/-- A block of values of m bits with the pieces of a packed number between them: the values' bits, the packed number. -/
def unpackGroup (m : Nat) : List Nat → Nat → Nat → List Nat × Nat
  | [], _, _ => ([], 0)
  | p :: ps, pos, x =>
    let (l, t) := unpackGroup m ps (pos + p) (x / 2 ^ (m + p))
    (x % 2 ^ m :: l, x / 2 ^ m % 2 ^ p * 2 ^ pos + t)
/-- n groups of a stream: the values as pairs of a packed digit and m bits. -/
def iseGroups (m k : Nat) : Nat → Nat → List (Nat × Nat)
  | 0, _ => []
  | n + 1, x =>
    let ps := packPieces k
    let (l, t) := unpackGroup m ps 0 x
    (match k with | 1 => (trits t).zip l | 2 => (quints t).zip l | _ => l.map (fun v => (0, v))) ++
      iseGroups m k n (x / 2 ^ (m * ps.length + ps.foldl (· + ·) 0))
/-- n values of a range from a stream, the bits past its end read as zero. -/
def iseRead (q n x : Nat) : List (Nat × Nat) :=
  let f := iseForm.getD q (0, 0)
  let x := x % 2 ^ iseBits q n
  (iseGroups f.1 f.2 n x).take n

/-! ### ASTC: unquantisation -/

/-- The m low bits of a value repeated from the top of w bits down. -/
def repeatBits (m w v : Nat) : Nat :=
  if m = 0 then 0 else
    (List.range w).foldl (fun a i => 2 * a + v / 2 ^ (m - 1 - i % m) % 2) 0
/-- The bits of v above the lowest, spread as B of a colour's or a weight's table: each number of the list is a bit of v at a place
from the top, 0 for a zero. -/
def spread (l : List Nat) (v : Nat) : Nat := l.foldl (fun a i => 2 * a + (if i = 0 then 0 else v / 2 ^ i % 2)) 0
/-- B's places and C of a colour range with trits or quints, by its bits. -/
def colourTab (k m : Nat) : List Nat × Nat :=
  match k, m with
  | 1, 1 => ([], 204)
  | 1, 2 => ([1, 0, 0, 0, 1, 0, 1, 1, 0], 93)
  | 1, 3 => ([2, 1, 0, 0, 0, 2, 1, 2, 1], 44)
  | 1, 4 => ([3, 2, 1, 0, 0, 0, 3, 2, 1], 22)
  | 1, 5 => ([4, 3, 2, 1, 0, 0, 0, 4, 3], 11)
  | 1, _ => ([5, 4, 3, 2, 1, 0, 0, 0, 5], 5)
  | _, 1 => ([], 113)
  | _, 2 => ([1, 0, 0, 0, 0, 1, 1, 0, 0], 54)
  | _, 3 => ([2, 1, 0, 0, 0, 0, 2, 1, 2], 26)
  | _, 4 => ([3, 2, 1, 0, 0, 0, 0, 3, 2], 13)
  | _, _ => ([4, 3, 2, 1, 0, 0, 0, 0, 4], 6)
/-- A colour value in 0 to 255. -/
def colourOf (q : Nat) (v : Nat × Nat) : Nat :=
  let f := iseForm.getD q (0, 0)
  if f.2 = 0 then repeatBits f.1 8 v.2
  else
    let (b, c) := colourTab f.2 f.1
    let a := if v.2 % 2 = 1 then 511 else 0
    let t := (v.1 * c + spread b v.2) ^^^ a
    (a &&& 128) ||| (t / 4)
/-- B's places and C of a weight range with trits or quints, by its bits. -/
def weightTab (k m : Nat) : List Nat × Nat :=
  match k, m with
  | 1, 1 => ([], 50)
  | 1, 2 => ([1, 0, 0, 0, 1, 0, 1], 23)
  | 1, _ => ([2, 1, 0, 0, 0, 2, 1], 11)
  | _, 1 => ([], 28)
  | _, _ => ([1, 0, 0, 0, 0, 1, 0], 13)
/-- A weight in 0 to 64. -/
def weightOf (q : Nat) (v : Nat × Nat) : Nat :=
  let f := iseForm.getD q (0, 0)
  let w := match f with
    | (0, 1) => ([0, 32, 63] : List Nat).getD v.1 0
    | (0, _) => ([0, 16, 32, 47, 63] : List Nat).getD v.1 0
    | (m, 0) => repeatBits m 6 v.2
    | (m, k) =>
      let (b, c) := weightTab k m
      let a := if v.2 % 2 = 1 then 127 else 0
      let t := (v.1 * c + spread b v.2) ^^^ a
      (a &&& 32) ||| (t / 4)
  if w > 32 then w + 1 else w

/-! ### ASTC: the block mode -/

/-- The weight grid of a block: columns, rows, range, two planes. -/
structure AstcGrid where
  w : Nat
  h : Nat
  q : Nat
  dual : Bool
deriving DecidableEq, Repr
/-- Weights of a grid and the bits they take. -/
def AstcGrid.count (g : AstcGrid) : Nat := g.w * g.h * (if g.dual then 2 else 1)
def AstcGrid.bits (g : AstcGrid) : Nat := iseBits g.q g.count
/-- The grid that the mode bits name; none where they are reserved. -/
def astcGrid (x : Nat) : Option AstcGrid :=
  let a := fld x 6 5
  let d := fld x 10 10 == 1
  let hi := fld x 9 9 * 6
  if x % 4 ≠ 0 then
    let r := x % 4 * 2 + fld x 4 4
    let b := fld x 8 7
    let g (w h : Nat) : Option AstcGrid := some ⟨w, h, r - 2 + hi, d⟩
    match fld x 3 2 with
    | 0 => g (b + 4) (a + 2)
    | 1 => g (b + 8) (a + 2)
    | 2 => g (a + 2) (b + 8)
    | _ => if b ≥ 2 then g (b % 2 + 2) (a + 2) else g (a + 2) (b % 2 + 6)
  else
    let r := fld x 3 2 * 2 + fld x 4 4
    if r < 2 then none
    else
      let g (w h : Nat) : Option AstcGrid := some ⟨w, h, r - 2 + hi, d⟩
      match fld x 8 7 with
      | 0 => g 12 (a + 2)
      | 1 => g (a + 2) 12
      | 2 => some ⟨a + 6, fld x 10 9 + 6, r - 2, false⟩
      | _ => if a = 0 then g 6 10 else if a = 1 then g 10 6 else none
/-- A grid that a block of n by n texels may have. -/
def AstcGrid.ok (g : AstcGrid) (n : Nat) : Bool :=
  decide (g.w ≤ n) && decide (g.h ≤ n) && decide (g.count ≤ 64) && decide (24 ≤ g.bits) && decide (g.bits ≤ 96)

/-! ### ASTC: partitions -/

/-- The hash of a partition index. -/
def hash52 (p : Nat) : Nat :=
  let p := p ^^^ (p / 2 ^ 15)
  let p := p * 0xEEDE0891 % 2 ^ 32
  let p := p ^^^ (p / 2 ^ 5)
  let p := (p + p * 2 ^ 16) % 2 ^ 32
  let p := p ^^^ (p / 2 ^ 7)
  let p := p ^^^ (p / 2 ^ 3)
  let p := (p ^^^ (p * 2 ^ 6)) % 2 ^ 32
  p ^^^ (p / 2 ^ 17)
/-- The partition of texel (x, y) among n, for an index; small blocks count their places twice. -/
def astcPart (index n : Nat) (small : Bool) (x y : Nat) : Nat :=
  let x := if small then 2 * x else x
  let y := if small then 2 * y else y
  let seed := index + (n - 1) * 1024
  let r := hash52 seed
  let s1 := if seed % 2 = 1 then (if fld seed 1 1 = 1 then 4 else 5) else (if n = 3 then 6 else 5)
  let s2 := if seed % 2 = 1 then (if n = 3 then 6 else 5) else (if fld seed 1 1 = 1 then 4 else 5)
  let k (lo sh : Nat) : Nat := let v := r / 2 ^ lo % 16; v * v / 2 ^ sh
  let a := (k 0 s1 * x + k 4 s2 * y + r / 2 ^ 14) % 64
  let b := (k 8 s1 * x + k 12 s2 * y + r / 2 ^ 10) % 64
  let c := if n < 3 then 0 else (k 16 s1 * x + k 20 s2 * y + r / 2 ^ 6) % 64
  let d := if n < 4 then 0 else (k 24 s1 * x + k 28 s2 * y + r / 2 ^ 2) % 64
  if a ≥ b ∧ a ≥ c ∧ a ≥ d then 0 else if b ≥ c ∧ b ≥ d then 1 else if c ≥ d then 2 else 3

/-! ### ASTC: endpoints -/

/-- The endpoint modes of the partitions. -/
def astcModes (x n below : Nat) : List Nat :=
  if n = 1 then [fld x 16 13]
  else if fld x 24 23 = 0 then List.replicate n (fld x 28 25)
  else
    let e := fld x 28 23 + x / 2 ^ below % 2 ^ (3 * n - 4) * 64
    (List.range n).map (fun i => (e / 2 ^ (2 + i) % 2 + e % 4 - 1) * 4 + e / 2 ^ (2 + n + 2 * i) % 4)
/-- Values of a mode. -/
def cemValues (m : Nat) : Nat := (m / 4 + 1) * 2
/-- A base and an offset: the offset's top bit moves to the base, and the rest is signed. -/
def bitTransfer (a b : Nat) : Int × Nat := (signedField 6 (a / 2 % 64), b / 2 + a / 128 * 128)
/-- A colour whose red and green are drawn to its blue. -/
def blueContract (c : List Int) : List Int :=
  match c with
  | [r, g, b, a] => [(r + b) / 2, (g + b) / 2, b, a]
  | c => c
/-- The two colours of a mode, in order or drawn to blue and exchanged. -/
def ordered (swap : Bool) (e f : List Int) : List Int × List Int := if swap then (blueContract f, blueContract e) else (e, f)
/-- The endpoints of a mode's values; none for the modes of high dynamic range. -/
def astcEnds (m : Nat) (v : List Nat) : Option (List Nat × List Nat) :=
  let n (i : Nat) : Int := v.getD i 0
  let sum (i : Nat) : Int := n i + n (i + 2) + n (i + 4)
  let bt (i : Nat) : Int × Nat := bitTransfer (v.getD (i + 1) 0) (v.getD i 0)
  let o (i : Nat) : Int := (bt i).1
  let p (i : Nat) : Int := (bt i).2
  let sc (i : Nat) : Int := n i * n 3 / 256
  let out (x : List Int × List Int) : Option (List Nat × List Nat) := some (x.1.map byteSat, x.2.map byteSat)
  match m with
  | 0 => out ([n 0, n 0, n 0, 255], [n 1, n 1, n 1, 255])
  | 1 =>
    let l : Int := (v.getD 0 0 / 4 + v.getD 1 0 / 64 * 64 : Nat)
    let h := l + (v.getD 1 0 % 64 : Nat)
    out ([l, l, l, 255], [h, h, h, 255])
  | 4 => out ([n 0, n 0, n 0, n 2], [n 1, n 1, n 1, n 3])
  | 5 => out ([p 0, p 0, p 0, p 2], [p 0 + o 0, p 0 + o 0, p 0 + o 0, p 2 + o 2])
  | 6 => out ([sc 0, sc 1, sc 2, 255], [n 0, n 1, n 2, 255])
  | 8 => out (ordered (decide (sum 1 < sum 0)) [n 0, n 2, n 4, 255] [n 1, n 3, n 5, 255])
  | 9 => out (ordered (decide (o 0 + o 2 + o 4 < 0)) [p 0, p 2, p 4, 255] [p 0 + o 0, p 2 + o 2, p 4 + o 4, 255])
  | 10 => out ([sc 0, sc 1, sc 2, n 4], [n 0, n 1, n 2, n 5])
  | 12 => out (ordered (decide (sum 1 < sum 0)) [n 0, n 2, n 4, n 6] [n 1, n 3, n 5, n 7])
  | 13 => out (ordered (decide (o 0 + o 2 + o 4 < 0)) [p 0, p 2, p 4, p 6] [p 0 + o 0, p 2 + o 2, p 4 + o 4, p 6 + o 6])
  | _ => none

/-! ### ASTC: the texel -/

/-- The error colour. -/
def astcError : Nat := rgba 255 0 255 255
/-- A block of one colour. -/
def astcVoid (x : Nat) : Nat :=
  let f (i : Nat) : Nat := x / 2 ^ (12 + 13 * i) % 2 ^ 13
  if fld x 9 9 = 1 ∨ fld x 11 10 ≠ 3 ∨ (fld x 63 12 ≠ 2 ^ 52 - 1 ∧ (f 0 ≥ f 1 ∨ f 2 ≥ f 3)) then astcError
  else rgba (fld x 79 72) (fld x 95 88) (fld x 111 104) (fld x 127 120)
/-- The weight of texel (i, j) of an n by n block from one plane of the grid. -/
def astcWeight (g : AstcGrid) (n : Nat) (ws : List Nat) (plane i j : Nat) : Nat :=
  let step := (1024 + n / 2) / (n - 1)
  let gs := (step * i * (g.w - 1) + 32) / 64
  let gt := (step * j * (g.h - 1) + 32) / 64
  let fs := gs % 16
  let ft := gt % 16
  let at_ (k : Nat) : Nat := ws.getD (if g.dual then 2 * k + plane else k) 0
  let v := gs / 16 + gt / 16 * g.w
  let w11 := (fs * ft + 8) / 16
  (at_ v * (16 + w11 - fs - ft) + at_ (v + 1) * (fs - w11) + at_ (v + g.w) * (ft - w11) + at_ (v + g.w + 1) * w11 + 8) / 16
/-- One channel between its endpoints, c of them sRGB. -/
def astcMix (srgb : Bool) (w a b : Nat) : Nat :=
  let wide (c : Nat) : Nat := 256 * c + (if srgb then 128 else c)
  ((wide a * (64 - w) + wide b * w + 32) / 64) / 256
/-- Bits of a 128-bit number in reverse. -/
def reverse128 (x : Nat) : Nat := (List.range 128).foldl (fun a i => 2 * a + x / 2 ^ i % 2) 0
/-- The texel of a block whose grid is known. -/
def astcGridTexel (g : AstcGrid) (n : Nat) (srgb : Bool) (x i j : Nat) : Nat :=
  let parts := fld x 12 11 + 1
  let extra := if parts > 1 ∧ fld x 24 23 ≠ 0 then 3 * parts - 4 else 0
  let below := 128 - g.bits - extra
  let modes := astcModes x parts below
  let count := (modes.map cemValues).foldl (· + ·) 0
  let from_ := if parts = 1 then 17 else 29
  let room := below - from_ - (if g.dual then 2 else 0)
  match ((List.range 21).reverse.find? (fun q => decide (iseBits q count ≤ room))) with
  | none => astcError
  | some q =>
    if q < 4 ∨ count > 18 ∨ (parts = 4 ∧ g.dual) ∨ below < from_ + (if g.dual then 2 else 0) then astcError
    else
      let vals := (iseRead q count (x / 2 ^ from_)).map (colourOf q)
      let ends := modes.zipIdx.map (fun m => astcEnds m.1 (vals.drop (((modes.take m.2).map cemValues).foldl (· + ·) 0)))
      if ends.any (·.isNone) then astcError
      else
        let ws := (iseRead g.q g.count (reverse128 x)).map (weightOf g.q)
        let k := if parts = 1 then 0 else astcPart (fld x 22 13) parts (decide (n * n < 31)) i j
        let e := (ends.getD k none).getD ([], [])
        let second := x / 2 ^ (below - 2) % 4
        let c (h : Nat) : Nat :=
          let w := astcWeight g n ws (if g.dual && h == second then 1 else 0) i j
          astcMix (srgb && h != 3) w (e.1.getD h 0) (e.2.getD h 0)
        rgba (c 0) (c 1) (c 2) (c 3)
/-- Texel (i, j) of an ASTC block of n by n texels, of the LDR profile. -/
def astcTexel (n : Nat) (srgb : Bool) (x i j : Nat) : Nat :=
  if fld x 8 0 = 0x1FC then astcVoid x
  else match astcGrid x with
    | none => astcError
    | some g => if g.ok n then astcGridTexel g n srgb x i j else astcError

end Sys2Proof.Machine
end

