-- ==== Sys2Proof/Machine/Texture.lean ====
section
/-! DEFINITION. Textures (R287 to R292) and the words of TEXI (R433 to R436). -/
namespace Sys2Proof.Machine

/-! ### Descriptors (Table 11.3, Table 11.4) -/

/-- A texture descriptor's 256 bits with its address. -/
structure TexD where
  at_ : Nat
  img : Nat
namespace TexD
def w (d : TexD) (i hi lo : Nat) : Nat := fld d.img (64 * i + hi) (64 * i + lo)
def fmt (d : TexD) : Nat := d.w 0 63 56
def base (d : TexD) : Nat := d.w 0 54 8 * 256
def width (d : TexD) : Nat := d.w 1 63 50 + 1
def height (d : TexD) : Nat := d.w 1 49 36 + 1
def lm1 (d : TexD) : Nat := d.w 1 35 25
def vm1 (d : TexD) : Nat := d.w 1 24 21
def lstr (d : TexD) : Nat := d.w 2 63 32 * 256
def addrU (d : TexD) : Nat := d.w 3 63 61
def addrV (d : TexD) : Nat := d.w 3 60 58
def magL (d : TexD) : Bool := d.w 3 57 57 == 1
def minL (d : TexD) : Bool := d.w 3 56 56 == 1
def mipL (d : TexD) : Bool := d.w 3 55 55 == 1
def bord (d : TexD) : Nat := d.w 3 54 53
def lbias (d : TexD) : Q := ⟨sx 12 (d.w 3 52 41), 256⟩
/-- Block width, block height and bytes of a format; none for a malformed one. -/
def block (d : TexD) : Option (Nat × Nat × Nat) :=
  match d.fmt with
  | 0x01 => some (1, 1, 1)
  | 0x02 => some (1, 1, 2)
  | 0x03 | 0x04 => some (1, 1, 4)
  | 0x05 => some (1, 1, 2)
  | 0x06 => some (1, 1, 8)
  | 0x07 => some (1, 1, 4)
  | 0x08 => some (1, 1, 16)
  | 0x10 => some (4, 4, 8)
  | 0x11 | 0x20 | 0x21 => some (4, 4, 16)
  | 0x22 => some (6, 6, 16)
  | 0x23 => some (8, 8, 16)
  | _ => none
def bw (d : TexD) : Nat := (d.block.map (·.1)).getD 1
def bh (d : TexD) : Nat := (d.block.map (·.2.1)).getD 1
def bsz (d : TexD) : Nat := (d.block.map (·.2.2)).getD 1
/-- A compressed format. -/
def packed (d : TexD) : Bool := decide (d.fmt ≥ 0x10)
/-- Bytes of a texel as IMLD and IMST see it. -/
def texel (d : TexD) : Nat := if d.packed then 4 else d.bsz
/-- Dimensions of a level and its layout (R289). -/
def wl (d : TexD) (l : Nat) : Nat := max 1 (d.width / 2 ^ l)
def hl (d : TexD) (l : Nat) : Nat := max 1 (d.height / 2 ^ l)
def row (d : TexD) (l : Nat) : Nat := roundUpTo ((d.wl l + d.bw - 1) / d.bw * d.bsz) 64
def size (d : TexD) (l : Nat) : Nat := roundUpTo (d.row l * ((d.hl l + d.bh - 1) / d.bh)) 256
def off (d : TexD) (l : Nat) : Nat := ((List.range l).map d.size).foldl (· + ·) 0
/-- Address of block (bx, by) of a level and layer. -/
def blockAt (d : TexD) (n l bx by_ : Nat) : Nat := d.base + n * d.lstr + d.off l + by_ * d.row l + bx * d.bsz
/-- The descriptor keeps the rules of Table 11.3. -/
def ok (d : TexD) : Bool :=
  d.block.isSome && d.w 0 55 55 == 0 && d.w 0 7 0 == 0 && decide (d.vm1 ≤ Nat.log2 (max d.width d.height)) && d.w 1 20 0 == 0 &&
    decide (d.off (d.vm1 + 1) ≤ d.lstr) && d.w 2 31 0 == 0 && decide (d.addrU ≤ 3) && decide (d.addrV ≤ 3) && d.bord != 3 &&
    d.w 3 40 0 == 0
end TexD
/-- The texture unit's requester through the core's L1 (R269, R290). -/
def texWho (s : State) : Who :=
  ⟨texMid (coreQuad s.curCore), s.curCore / 64, s.cur.id.ctx, some s.curCore, false, none⟩
/-- The descriptor of a word, checked in the order of R433. -/
def texDesc (a : Nat) : X TexD := do
  if a ≥ 2 ^ 55 then raise cXLATE 1 a
  else if a % 32 ≠ 0 then raise cALIGN 0 a
  else do
    let s ← get
    let v ← loadV (texWho s) .read a 32
    let v ← needClean a v
    let d : TexD := ⟨a, v⟩
    if d.ok then pure d else raise cBOUND 1 a

/-! ### Texel values (R288, R290) -/

/-- The integer n-th root, rounded down, by bits from 2^k down. -/
def rootN (n x : Nat) : Nat → Nat → Nat
  | 0, r => r
  | k + 1, r => rootN n x k (if (r + 2 ^ k) ^ n ≤ x then r + 2 ^ k else r)
/-- The sRGB transfer function of c/255, rounded once to f32 (R288): above the linear part v^5 = x^12 with
x = (c/255 + 0.055)/1.055, whose 40-bit fifth root decides the rounding. -/
def srgb (c : Nat) : Q :=
  if c * 100000 ≤ 4045 * 255 then (f32.dec (f32.round .rne 0 false ⟨c * 100, 255 * 1292⟩).1).q
  else
    let n := (c * 1000 + 55 * 255) ^ 12 * 2 ^ 200
    let d := (1055 * 255) ^ 12
    (f32.dec (f32.round .rne 0 false (Q.dy (2 * (rootN 5 (n / d) 41 0 : Nat) + 1) (-41))).1).q
/-- Four channels of bytes: c/255, or the sRGB table with a linear alpha. -/
def un8 (s : Bool) (x n : Nat) : List OutV :=
  (List.range 4).map (fun i =>
    if i < n then (let c := x / 256 ^ i % 256; .inr (if s && i < 3 then srgb c else ⟨c, 255⟩))
    else .inr (Q.ofInt (if i = 3 then 1 else 0)))
/-- Four channels of floating texels. -/
def flTex (f : IFmt) (x n : Nat) : List OutV :=
  (List.range 4).map (fun i =>
    if i < n then .inl (f.dec (x / 2 ^ (f.width * i) % 2 ^ f.width)) else .inr (Q.ofInt (if i = 3 then 1 else 0)))
/-- The channels of a texel's bytes (Table 11.4). -/
def texVals (fmt x : Nat) : List OutV :=
  match fmt with
  | 0x01 => un8 false x 1
  | 0x02 => un8 false x 2
  | 0x03 => un8 false x 4
  | 0x04 => un8 true x 4
  | 0x05 => flTex f16 x 1
  | 0x06 => flTex f16 x 4
  | 0x07 => flTex f32 x 1
  | 0x08 => flTex f32 x 4
  | 0x21 => un8 true x 4
  | _ => un8 false x 4
/-- Texel (i, j) of a compressed block (R288). -/
def unpackTexel (fmt x i j : Nat) : Nat :=
  match fmt with
  | 0x10 => etc2Texel false x i j
  | 0x11 => etc2Texel true x i j
  | 0x20 => astcTexel 4 false x i j
  | 0x21 => astcTexel 4 true x i j
  | 0x22 => astcTexel 6 false x i j
  | _ => astcTexel 8 false x i j
/-- A decoded block (R290): from the core's L1, or decoded from the compressed blocks at their homes and kept. -/
def texBlock (d : TexD) (n l dx dy : Nat) : X (Nat × Bool) := do
  let s ← get
  let core := s.curCore
  let ctx := s.cur.id.ctx
  match (s.coreD core).tex.find? (fun b => b.ctx == ctx && b.desc == d.at_ && b.layer == n && b.level == l && b.dx == dx && b.dy == dy) with
  | some b => pure (b.data.toNat, false)
  | none => do
    let who := { (texWho s) with core := none }
    let ts ← mapX (fun (t : Nat) => do
      let x := 4 * dx + t % 4
      let y := 4 * dy + t / 4
      if x ≥ d.wl l ∨ y ≥ d.hl l then pure (0, false)
      else do
        let a := d.blockAt n l (x / d.bw) (y / d.bh)
        let (pa, _, _, _) ← translate who .read a
        waitOwned pa
        let (v, po) ← readLines who .read a 3 d.bsz
        pure (unpackTexel d.fmt v (x % d.bw) (y % d.bh), po)) (List.range 16)
    let data := ts.foldr (fun t r => t.1 % 2 ^ 32 + 2 ^ 32 * r) 0
    let po := ts.any (·.2)
    if po then pure (data, true)
    else do
      modify (fun s => s.keepL1 core (fun g c => { c with tex := ⟨ctx, g, d.at_, n, l, dx, dy, BitVec.ofNat 512 data⟩ :: c.tex }))
      pure (data, false)
/-- The bytes of texel (x, y) of a level and layer, and whether they are poisoned. -/
def texelAt (d : TexD) (n l x y : Nat) : X (Nat × Bool) := do
  if d.packed then do
    let (b, po) ← texBlock d n l (x / 4) (y / 4)
    pure (b / 2 ^ (32 * (4 * (y % 4) + x % 4)) % 2 ^ 32, po)
  else do
    let s ← get
    loadV (texWho s) .read (d.blockAt n l x y) d.bsz

/-! ### Sampling (R291) -/

/-- A finite coordinate; a NaN or an infinity acts as 0. -/
def texCoord (c : Nat) : Q := match f32.dec c with | .fin n m e => (FV.fin n m e).q | _ => Q.ofInt 0
/-- An index under an addressing mode; none is the border. -/
def texIndex (mode w : Nat) (i : Int) : Option Nat :=
  match mode with
  | 0 => some (i % (w : Int)).toNat
  | 1 => some (satI i 0 ((w : Int) - 1)).toNat
  | 2 =>
    let j := (i % (2 * w : Int)).toNat
    some (if j < w then j else 2 * w - 1 - j)
  | _ => if 0 ≤ i ∧ i < w then some i.toNat else none
/-- The taps along one axis: index and weight in 1/256. -/
def texTaps (lin : Bool) (u : Q) (w : Nat) : List (Int × Nat) :=
  if lin then
    let x := (u.mul (Q.ofInt w)).sub ⟨1, 2⟩
    let i := x.floor
    let a := ((x.sub (Q.ofInt i)).mul (Q.ofInt 256)).floor.toNat
    [(i, 256 - a), (i + 1, a)]
  else [((u.mul (Q.ofInt w)).floor, 256)]
/-- Border colours. -/
def texBorder (b : Nat) : List OutV :=
  (List.range 4).map (fun i => .inr (Q.ofInt (if b = 2 then 1 else if b = 1 ∧ i = 3 then 1 else 0)))
/-- The taps of one level with their weights in 1/65536, scaled by a level weight in 1/256; a tap of weight zero takes no part. -/
def levelTaps (d : TexD) (lin : Bool) (n l : Nat) (u v : Q) (wt : Nat) : X (List (Nat × List OutV) × Bool) := do
  let ps := (texTaps lin v (d.hl l)).flatMap (fun y => (texTaps lin u (d.wl l)).map (fun x => (x.1, y.1, x.2 * y.2 * wt)))
  let ts ← mapX (fun (p : Int × Int × Nat) => do
    match texIndex d.addrU (d.wl l) p.1, texIndex d.addrV (d.hl l) p.2.1 with
    | some x, some y => do
      let (b, po) ← texelAt d n l x y
      pure (p.2.2, texVals d.fmt b, po)
    | _, _ => pure (p.2.2, texBorder d.bord, false)) (ps.filter (fun p => p.2.2 != 0))
  pure (ts.map (fun t => (t.1, t.2.1)), ts.any (·.2.2))
/-- One channel: the exact weighted sum rounded once to f32. One texel alone gives its own value; a sum with a value that is not
finite has no stated result and is a free value (log entry 35). -/
def texChannel (ts : List (Nat × List OutV)) (i : Nat) : X Nat := do
  let vs : List (Nat × OutV) := ts.map (fun t => (t.1, t.2.getD i (.inr (Q.ofInt 0))))
  let bad := vs.any (fun v => match v.2 with | .inl (.fin _ _ _) => false | .inl _ => true | .inr _ => false)
  if bad then
    match vs with
    | [(_, .inl (.inf n))] => pure (f32.infCode n)
    | [(_, .inl (.nan _))] => pure f32.dnan
    | _ => do
      let f ← freeX
      pure (lo32 f).toNat
  else
    let q (v : OutV) : Q := match v with | .inr x => x | .inl x => x.q
    let sum := vs.foldl (fun a v => a.add ((q v.2).mul ⟨v.1, 2 ^ 24⟩)) (Q.ofInt 0)
    pure (f32.round .rne 0 false sum).1
/-- Levels with their weights in 1/256, and whether filtering is linear (R291 steps 1 and 2). -/
def texLevels (d : TexD) (lam : FV) : List (Nat × Nat) × Bool :=
  let top := Q.ofInt d.vm1
  let (x, mag) : Q × Bool := match lam with
    | .inf true => (Q.ofInt 0, true)
    | .inf false => (top, false)
    | .nan _ => (let y := d.lbias; (Q.min (Q.max y (Q.ofInt 0)) top, decide (y.n ≤ 0)))
    | v => (let y := v.q.add d.lbias; (Q.min (Q.max y (Q.ofInt 0)) top, decide (y.n ≤ 0)))
  let lin := if mag then d.magL else d.minL
  if d.mipL then
    let l := x.floor.toNat
    if l ≥ d.vm1 then ([(d.vm1, 256)], lin)
    else
      let f := ((x.sub (Q.ofInt l)).mul (Q.ofInt 256)).floor.toNat
      ([(l, 256 - f), (l + 1, f)], lin)
  else ([((x.add ⟨1, 2⟩).floor.toNat, 256)], lin)
/-- A sample: two entries, R and G low, and poison (R434). -/
def texSample (d : TexD) (u v : Nat) (layer : Nat) (lam : FV) : X (List DWord × Bool) := do
  let (ls, lin) := texLevels d lam
  let n := min layer d.lm1
  let ts ← mapX (fun (l : Nat × Nat) => levelTaps d lin n l.1 (texCoord u) (texCoord v) l.2) (ls.filter (fun l => l.2 != 0))
  let taps := ts.flatMap (·.1)
  let cs ← mapX (texChannel taps) [0, 1, 2, 3]
  let c (i : Nat) : Nat := cs.getD i 0
  pure ([dw (c 0 + 2 ^ 32 * c 1), dw (c 2 + 2 ^ 32 * c 3)], ts.any (·.2))

/-! ### λ from gradients (R434) -/

/-- Fraction bits of log2 of m/2^600 in [1, 2), from the most significant one, by repeated squaring. -/
def lgBits : Nat → Nat → Nat → Nat
  | 0, _, acc => acc
  | k + 1, m, acc =>
    let sq := m * m / 2 ^ 600
    if sq ≥ 2 ^ 601 then lgBits k (sq / 2) (2 * acc + 1) else lgBits k sq (2 * acc)
/-- Half of log2 of a positive rational, rounded to f32: 200 fraction bits decide the rounding (log entry 38). -/
def halfLog2 (q : Q) : FV :=
  let k := log2Q q.n.natAbs q.d
  let num := if k ≥ 0 then q.n.natAbs else q.n.natAbs * 2 ^ (-k).toNat
  let den := if k ≥ 0 then q.d * 2 ^ k.toNat else q.d
  let exact := decide (num = den)
  let fr := lgBits 200 (num * 2 ^ 600 / den) 0
  let v := if exact then Q.dy k (-1) else Q.dy ((k * 2 ^ 200 + fr) * 2 + 1) (-202)
  f32.dec (f32.round .rne 0 false v).1
/-- λ of TEXG: four gradients and the dimensions of level 0. -/
def texLambda (g : List Nat) (w h : Nat) : FV :=
  let v (i : Nat) : FV := f32.dec (g.getD i 0)
  let vs := (List.range 4).map v
  if vs.any FV.isNan then .nan false
  else if vs.any FV.isInf then .inf false
  else
    let sq (x : FV) (n : Nat) : Q := let y := x.q.mul (Q.ofInt n); y.mul y
    let r := Q.max ((sq (v 0) w).add (sq (v 1) h)) ((sq (v 2) w).add (sq (v 3) h))
    if r.n = 0 then .inf true else halfLog2 r

/-! ### The words -/

/-- A register octet: the code is a multiple of 8. -/
def readOctet (b : Src) : X Nat :=
  match b with
  | .n i => do
    if i.val % 8 ≠ 0 then operand
    else do
      let ws ← mapX (fun (k : Nat) => readReg (i.val + k)) (List.range 8)
      pure (ws.foldr (fun w r => w.toNat + 2 ^ 32 * r) 0)
  | _ => operand
/-- Register k of a group. -/
def grpReg (x k : Nat) : Nat := x / 2 ^ (32 * k) % 2 ^ 32
/-- The texture unit at issue. -/
def texUnit : X Nat := do
  let s ← get
  pure (texMid (coreQuad s.curCore))
/-- TEX (R434). -/
def execTex (hd : Hd) (a b : Src) (st : State) : Out := runWord hd.gd 2 (do
  let x ← src64 a
  let q ← readQuad b
  let m ← texUnit
  onUnit m 2 2 (do
    let d ← texDesc x.toNat
    let (vs, po) ← texSample d (grpReg q 0) (grpReg q 1) (grpReg q 2) (f32.dec (grpReg q 3))
    pure (vs, po, []))) st
/-- TEXG. -/
def execTexg (hd : Hd) (a b : Src) (st : State) : Out := runWord hd.gd 2 (do
  let x ← src64 a
  let q ← readOctet b
  let m ← texUnit
  onUnit m 2 2 (do
    let d ← texDesc x.toNat
    let lam := texLambda ((List.range 4).map (fun i => grpReg q (4 + i))) d.width d.height
    let (vs, po) ← texSample d (grpReg q 0) (grpReg q 1) (grpReg q 2) lam
    pure (vs, po, []))) st
/-- TEXQ (R435). -/
def execTexq (hd : Hd) (a b : Src) (st : State) : Out := runWord hd.gd 1 (do
  let x ← src64 a
  let l ← src32 b
  let m ← texUnit
  onUnit m 1 2 (do
    let d ← texDesc x.toNat
    if l.toNat > d.vm1 then operand
    else pure ([dw (d.fmt * 2 ^ 48 + (d.vm1 + 1) * 2 ^ 44 + (d.lm1 + 1) * 2 ^ 32 + d.hl l.toNat * 2 ^ 16 + d.wl l.toNat)], false, []))) st
/-- The texel an image word names, after the checks of R436. -/
def imgTexel (d : TexD) (q : Nat) (w : Width) (st : Bool) : X (Nat × Nat × Nat × Nat) := do
  let x := grpReg q 0
  let y := grpReg q 1
  let n := grpReg q 2
  let l := grpReg q 3
  if l > d.vm1 ∨ n > d.lm1 ∨ x ≥ d.wl l ∨ y ≥ d.hl l then raise cBOUND 1 d.at_
  else if Width.bytes' w ≠ d.texel ∨ (st ∧ d.packed) then operand
  else pure (x, y, n, l)
/-- IMLD (R436): pushes as LD of its width. -/
def execImld (hd : Hd) (a b : Src) (w : Width) (st : State) : Out := runWord hd.gd (ldCount w) (do
  let x ← src64 a
  let q ← readQuad b
  let m ← texUnit
  onUnit m (ldCount w) 2 (do
    let d ← texDesc x.toNat
    let (x, y, n, l) ← imgTexel d q w false
    let (v, po) ← texelAt d n l x y
    pure (if ldCount w = 2 then [dw (v % 2 ^ 64), dw (v / 2 ^ 64)] else [dw v], po, []))) st
/-- IMST (R436): the store is the core's own (R379). -/
def execImst (hd : Hd) (a b : Src) (w : Width) (st : State) : Out := runWord hd.gd 0 (do
  let x ← src64 a
  let q ← readOctet b
  let m ← texUnit
  match ← tryUnit m (do
      let d ← texDesc x.toNat
      let t ← imgTexel d q w true
      pure (d, t)) with
  | none => pure ()
  | some (d, (x, y, n, l)) => do
    let s ← get
    storeV s.curWho (d.blockAt n l x y) (Width.bytes' w) (q / 2 ^ 128 % 256 ^ Width.bytes' w)) st

end Sys2Proof.Machine
end

