-- ==== Sys2Proof/Machine/Sys.lean ====
section
/-! DEFINITION. The words of SYS: RDS, WRS, TRAP, TLBI, SLEEP, HALT, THAW, KEYLD (R403 to R409). -/
namespace Sys2Proof.Machine

/-! ### RDS and WRS (R155, R404) -/

/-- A special register of the thread at issue (Table 7.2) on a Chard core or a control core; TILE of a control core is not
stated and is a free value. -/
def readSpecial (k : Nat) : X DWord := do
  let s ← get
  let th := s.cur
  let g := s.curGrp
  let core := s.curCore
  match k with
  | 0 => pure (if isChard core then dw Config.width else 1)
  | 1 => pure (dw th.tid)
  | 2 => pure (dw g.no.toNat)
  | 3 => pure (dw (coreNo core))
  | 4 => pure (dw (coreNo core / 4))
  | 5 => if isChard core then pure (dw (coreTile core)) else do
      let f ← freeX
      pure (dw (lo32 f).toNat)
  | 6 => pure th.id.iid
  | 7 => pure (dw (s.cyc (coreDie core)))
  | 8 => pure th.mst
  | 9 => pure (dw th.fst.toNat)
  | 10 => pure th.sp
  | 11 => pure th.stkb
  | 12 => pure th.stkl
  | 13 => pure (dw (match th.frame with
      | some f => (match alGet s.frames f with | some fr => fr.handle | none => 0)
      | none => 0))
  | 14 => pure (dw th.id.role)
  | 15 => pure (dw th.rgnc.toNat)
  | 16 => pure (dw g.trapv)
  | 17 => pure (dw th.id.ctx)
  | 18 => pure th.srs
  | 19 => if isCtl core then pure s.pkg.qclk else operand
  | _ => operand
/-- RDS; on Root WIDTH reads 1 and every other number 0 (R404). -/
def execRds (hd : Hd) (k : Fin 32) (st : State) : Out := runWord hd.gd 1 (do
  let s ← get
  let v ← (if isRoot s.curCore then pure (if k.val = 0 then 1 else 0) else readSpecial k.val)
  push64 v) st
/-- Holds a WRS for run end (step 2 of Table 7.5). -/
def putWrs (k : Nat) (v : DWord) : X Unit := modify (fun s => s.modCur (fun th =>
  { th with rt := { th.rt with wrs := th.rt.wrs ++ [(k, v)] } }))
/-- WRS: SP is checked at the word (R155), TRAPV is protected (R404). -/
def execWrs (hd : Hd) (a : Src) (k : Fin 32) (st : State) : Out := runWord hd.gd 0 (do
  let s ← get
  let th := s.cur
  match k.val with
  | 9 => do
    let v ← src32 a
    putWrs 9 (dw v.toNat)
  | 8 => do
    let v ← src64 a
    putWrs 8 v
  | 10 => do
    let v ← src64 a
    if v.toNat % 16 ≠ 0 ∨ v.toNat < th.stkl.toNat ∨ v.toNat > th.stkb.toNat then raise cSTACK 0 v.toNat else putWrs 10 v
  | 16 =>
    if isChard s.curCore then raise cPRIV 0
    else do
      let v ← src64 a
      putWrs 16 v
  | 18 => do
    let v ← src64 a
    putWrs 18 v
  | _ => operand) st

/-! ### TRAP, SLEEP, HALT -/

/-- TRAP: the fault comes after the run's effects (R405, R296). -/
def execTrap (hd : Hd) (a : Src) (st : State) : Out := runWord hd.gd 0 (do
  let v ← src64 a
  modify (fun s => s.modCur (fun th => { th with rt := { th.rt with trap := some (s.iss.word, v) } }))) st
/-- SLEEP (R407). -/
def execSleep (hd : Hd) (a : Src) (st : State) : Out := runWord hd.gd 0 (do
  let v ← src32 a
  if v.toNat = 0 then pure () else addWait (.sleep v.toNat none)) st
/-- HALT: the core stops at the end of its run (R407). -/
def execHalt (hd : Hd) (st : State) : Out := runWord hd.gd 0 (addWait .halt) st

/-! ### TLBI, KEYLD -/

/-- The words that only control cores may run (Table 15.5). -/
def needCtl : X Unit := do
  let s ← get
  if isCtl s.curCore then pure () else raise cPRIV 0
/-- TLBI: the cached translations go on every die; the accesses made through them reach their homes (R406). t is the page form. -/
def execTlbi (hd : Hd) (a b : Src) (t : Bool) (st : State) : Out := runWord hd.gd 1 (do
  needCtl
  let va ← (if t then src64 a else pure 0)
  let c ← src32 b
  if c.toNat > 63 then operand
  else do
    let gone (e : TlbEnt) : Bool := e.ctx == c.toNat &&
      (!t || (decide (e.va ≤ va.toNat) && decide (va.toNat < e.va + 2 ^ e.size)))
    modify (fun s =>
      let s := s.cores.foldl (fun s k => s.drainIf k.1 (·.ctx == c.toNat)) s
      { s with mem := { s.mem with tlb := s.mem.tlb.filter (fun e => !gone e) } })
    pushLate 1 false) st
/-- KEYLD: installs data key and tweak key as the pair of an id (R409). -/
def execKeyld (hd : Hd) (a b : Src) (st : State) : Out := runWord hd.gd 1 (do
  needCtl
  let va ← src64 a
  let id ← src32 b
  if id = 0 ∨ id.toNat > 2047 then operand
  else do
    alignX va.toNat 64
    let s ← get
    let v ← loadV s.curWho .read va.toNat 64
    let v ← needClean va.toNat v
    modify (fun s => { s with
      mem := { s.mem with keys := alSet s.mem.keys id.toNat (BitVec.ofNat 512 v) }
      -- the L1 lines and decoded blocks of the contexts that use the id go (R294)
      cores := s.cores.map (fun (k, c) => (k, { c with l1 := [], tex := [] })) })
    pushLate 1 false) st

/-! ### THAW (R44, R140, R236, R408) -/

/-- A master is released: a copy engine or array resumes or discards its halted operation. -/
def State.thaw (s : State) (mid : Nat) (discard : Bool) : State :=
  let s := { s with sys := { s.sys with frozen := alSet s.sys.frozen mid false } }
  let d := mid / 1024
  let i := mid % 1024
  if d < 8 ∧ 64 ≤ i ∧ i < 80 then
    (if discard then s.discardCopies (d * 16 + (i - 64)) else s).resumeCopies (d * 16 + (i - 64))
  else if 8 ≤ d ∧ d < 16 ∧ 128 ≤ i ∧ i < 144 then
    (if discard then s.discardOp ((d - 8) * 16 + (i - 128)) else s)
  else s
/-- THAW. -/
def execThaw (hd : Hd) (a b : Src) (st : State) : Out := runWord hd.gd 1 (do
  needCtl
  let m ← src32 a
  let q ← src32 b
  if m.toNat ≥ 2 ^ 16 ∨ q.toNat ≥ 2 ^ 17 then operand
  else do
    let s ← get
    if s.isFrozen m.toNat && (alGetD s.sys.heldSeq m.toNat 0).toNat == q.toNat % 2 ^ 16 then do
      set (s.thaw m.toNat (q.toNat.testBit 16))
      pushLate 1 false
    else pushLate 0 false) st

end Sys2Proof.Machine
end

