-- ==== Sys2Proof/Machine/Meta.lean ====
section
/-! DEFINITION. What decoding a run needs of each word (chapters 13 to 16): its sources with their widths, the entries it
pushes, the prefixes its entry accepts (Table 14.1), and the OPERAND faults its bits, its launch and its core give. -/
namespace Sys2Proof.Machine

/-- Width of a source (R323, R375, R390, R394, R413). -/
inductive SW where
  | w32 | w64 | quad | octet
  | blk (n : Nat)
deriving DecidableEq, Repr

/-- 64 bits or 32. -/
def swid (w : Bool) : SW := if w then .w64 else .w32
/-- A data source of a width (R375). -/
def dataW : Width → SW
  | .b64 => .w64
  | .b128 => .quad
  | _ => .w32
/-- A data source of two values of a width (R382, R384). -/
def pairW : Width → SW
  | .b64 => .quad
  | _ => .w64
/-- A 64-bit type of CVT. -/
def f64Src : NumTy → Bool
  | .i64 | .n64 | .f64 => true
  | _ => false
/-- Special registers of 64 bits (Table 7.2). -/
def wrs64 (k : Nat) : Bool := [6, 7, 8, 10, 11, 12, 13, 16, 18, 19].contains k

/-- Sources of a word in field order with their widths. -/
def Instr.srcs : Instr → List (Src × SW)
  | .add _ a b w _ _ | .sub _ a b w _ _ | .mul _ a b w _ _ | .mulh _ a b w _ | .div _ a b w _ | .rem _ a b w _
  | .min _ a b w _ | .max _ a b w _ | .and _ a b w | .or _ a b w | .xor _ a b w | .andn _ a b w | .cmp _ a b _ _ _ w _ => [(a, swid w), (b, swid w)]
  | .abs _ a w _ | .neg _ a w _ | .not _ a w | .popc _ a w | .clz _ a w | .ctz _ a w | .brev _ a w | .mov _ a w
  | .matchX _ a w => [(a, swid w)]
  | .shl _ a b w | .shr _ a b w | .sar _ a b w | .rot _ a b w => [(a, swid w), (b, .w32)]
  | .sel _ a b _ | .bfx _ a b _ | .dot4 _ a b _ | .dotn _ a b _ | .unpackp _ a b | .fcmp _ a b _ _ _
  | .fcmpH _ a b _ _ _ | .fadd _ a b _ | .fsub _ a b _ | .fmul _ a b _ | .fmin _ a b | .fmax _ a b | .fminn _ a b
  | .fmaxn _ a b | .fscale _ a b _ | .hadd2 _ a b _ | .hmul2 _ a b _ | .cvtnI32 _ a b | .cvtnN32 _ a b
  | .cvtnF32 _ a b | .pk2F16 _ a b _ | .pk2Bf16 _ a b _ | .xshuf _ a b _ | .vote _ a b _ | .uadd _ a b _
  | .usub _ a b _ | .umul _ a b _ | .uand _ a b _ | .uor _ a b _ | .uxor _ a b _ | .ushl _ a b _ | .ushr _ a b _
  | .ucmp _ a b _ | .usel _ a b _ | .mapl _ a b | .rrel _ a b | .rwait _ a b | .carm _ a b | .bar _ a b _
  | .thaw _ a b => [(a, .w32), (b, .w32)]
  | .sel64 _ a b _ | .dcmp _ a b _ _ _ | .dadd _ a b _ | .dsub _ a b _ | .dmul _ a b _ | .dmin _ a b | .dmax _ a b
  | .sah _ a b _ => [(a, .w64), (b, .w64)]
  | .mad _ a b d | .shf _ a b d | .bfi _ a b d | .perm _ a b d | .ffma _ a b d _ | .fdot2 _ a b d | .fdot2Bf _ a b d
  | .hfma2 _ a b d _ => [(a, .w32), (b, .w32), (d, .w32)]
  | .madw _ a b d | .addc _ a b d | .subb _ a b d => [(a, .w32), (b, .w32), (d, .w64)]
  | .lea _ a b d => [(a, .w64), (b, .w32), (d, .w32)]
  | .addImm _ a _ | .andImm _ a _ | .orImm _ a _ | .xorImm _ a _ | .shlImm _ a _ | .shrImm _ a _ | .sarImm _ a _
  | .mulImm _ a _ | .frnd _ a _ | .fgetx _ a | .fclass _ a | .rcp _ a | .rsq _ a | .sqrt _ a _ | .ex2 _ a | .lg2 _ a
  | .sinpi _ a | .cospi _ a | .tanh _ a | .intf _ a _ _ _ _ | .fltf _ a _ _ _ _ _ | .umov _ a _ | .uwin _ a
  | .racqP _ a | .racqC _ a | .racqPU _ a | .racqCU _ a | .cwait _ a | .pick _ a _ | .node _ a _ | .msign _ a _
  | .mdrain _ a _ | .mcfg _ a _ | .rast _ a _ _ | .trace _ a | .sleep _ a | .reformK _ a => [(a, .w32)]
  | .drnd _ a _ | .dgetx _ a | .dclass _ a | .drcp _ a | .drsq _ a | .uld _ a _ | .uld64 _ a _ | .pref _ a _
  | .tagq _ a | .tagclr _ a | .qwait _ a _ | .mnorm _ a _ | .trap _ a | .brx _ a | .callx _ a => [(a, .w64)]
  | .dscale _ a b _ | .cvtnF64 _ a b | .cache _ a b _ | .tagset _ a b | .scfg _ a b _ | .marm _ a b _ | .npack _ a b
  | .texq _ a b | .tlbi _ a b _ | .keyld _ a b => [(a, .w64), (b, .w32)]
  | .dfma _ a b d _ => [(a, .w64), (b, .w64), (d, .w64)]
  | .cvt _ a f _ _ => [(a, swid (f64Src f))]
  | .reduce _ a b _ t | .scan _ a b _ t | .scanX _ a b _ t => [(a, swid (stW t)), (b, .w32)]
  | .ld _ a b p _ | .ldS _ a b p _ => [(a, swid (wideSpace p)), (b, .w32)]
  | .st _ a b p w | .atomAdd _ a b p w | .atomFadd _ a b p w | .atomMin _ a b p w | .atomMax _ a b p w
  | .atomAnd _ a b p w | .atomOr _ a b p w | .atomXor _ a b p w | .atomSwap _ a b p w | .redAdd _ a b p w
  | .redFadd _ a b p w | .redMin _ a b p w | .redMax _ a b p w | .redAnd _ a b p w | .redOr _ a b p w
  | .redXor _ a b p w => [(a, swid (wideSpace p)), (b, dataW w)]
  | .reddAdd _ a b w | .reddFadd _ a b w | .reddMin _ a b w | .reddMax _ a b w | .reddMinU _ a b w | .reddMaxU _ a b w
  | .reddOr _ a b w => [(a, .w64), (b, pairW w)]
  | .cas _ a b p w => [(a, swid (wideSpace p)), (b, pairW w)]
  | .spawn _ a b => [(a, .w64), (b, .blk 8)]
  | .post _ a b _ n => [(a, .w32), (b, .blk (n.val + 1))]
  | .cpy _ a b _ _ | .cpyr _ a b _ _ | .tex _ a b | .imld _ a b _ => [(a, .w64), (b, .quad)]
  | .cpys _ a b _ | .gath _ a b _ => [(a, .w32), (b, .quad)]
  | .hitr _ a b => [(a, .w32), (b, .w64)]
  | .boxu _ a b m => [(a, .w64), (b, swid (m == .u))]
  | .texg _ a b | .imst _ a b _ => [(a, .w64), (b, .octet)]
  | .wrs _ a s => [(a, swid (wrs64 s.val))]
  | _ => []

/-- Entries a word pushes (Table 15.1, R340, R395, Table 16.6). -/
def Instr.pushes : Instr → Nat
  | .add _ _ _ _ _ _ | .sub _ _ _ _ _ _ | .mul _ _ _ _ _ _ | .mulh _ _ _ _ _ | .div _ _ _ _ _ | .rem _ _ _ _ _
  | .min _ _ _ _ _ | .max _ _ _ _ _ | .abs _ _ _ _ | .neg _ _ _ _ | .and _ _ _ _ | .or _ _ _ _ | .xor _ _ _ _
  | .andn _ _ _ _ | .not _ _ _ | .shl _ _ _ _ | .shr _ _ _ _ | .sar _ _ _ _ | .rot _ _ _ _ | .popc _ _ _ | .clz _ _ _
  | .ctz _ _ _ | .brev _ _ _ | .mov _ _ _ | .sel _ _ _ _ | .sel64 _ _ _ _ | .bfx _ _ _ _ | .dot4 _ _ _ _
  | .dotn _ _ _ _ | .mad _ _ _ _ | .madw _ _ _ _ | .addc _ _ _ _ | .subb _ _ _ _ | .shf _ _ _ _ | .bfi _ _ _ _
  | .perm _ _ _ _ | .lea _ _ _ _ | .addImm _ _ _ | .andImm _ _ _ | .orImm _ _ _ | .xorImm _ _ _ | .shlImm _ _ _
  | .shrImm _ _ _ | .sarImm _ _ _ | .mulImm _ _ _ | .packp _ | .fadd _ _ _ _ | .fsub _ _ _ _ | .fmul _ _ _ _
  | .fmin _ _ _ | .fmax _ _ _ | .fminn _ _ _ | .fmaxn _ _ _ | .frnd _ _ _ | .fscale _ _ _ _ | .fgetx _ _ | .fclass _ _
  | .hadd2 _ _ _ _ | .hmul2 _ _ _ _ | .ffma _ _ _ _ _ | .fdot2 _ _ _ _ | .fdot2Bf _ _ _ _ | .hfma2 _ _ _ _ _
  | .dadd _ _ _ _ | .dsub _ _ _ _ | .dmul _ _ _ _ | .dmin _ _ _ | .dmax _ _ _ | .drnd _ _ _ | .dscale _ _ _ _
  | .dgetx _ _ | .dclass _ _ | .dfma _ _ _ _ _ | .cvt _ _ _ _ _ | .cvtnI32 _ _ _ | .cvtnN32 _ _ _ | .cvtnF32 _ _ _
  | .cvtnF64 _ _ _ | .pk2F16 _ _ _ _ | .pk2Bf16 _ _ _ _ | .rcp _ _ | .rsq _ _ | .sqrt _ _ _ | .ex2 _ _ | .lg2 _ _
  | .sinpi _ _ | .cospi _ _ | .tanh _ _ | .drcp _ _ | .drsq _ _ | .xshuf _ _ _ _ | .vote _ _ _ _ | .reduce _ _ _ _ _
  | .scan _ _ _ _ _ | .scanX _ _ _ _ _ | .matchX _ _ _ | .elect _ | .intf _ _ _ _ _ _ | .fltf _ _ _ _ _ _ _
  | .ldS _ _ _ _ _ | .atomAdd _ _ _ _ _ | .atomFadd _ _ _ _ _ | .atomMin _ _ _ _ _ | .atomMax _ _ _ _ _
  | .atomAnd _ _ _ _ _ | .atomOr _ _ _ _ _ | .atomXor _ _ _ _ _ | .atomSwap _ _ _ _ _ | .tagq _ _ | .tagset _ _ _
  | .tagclr _ _ | .cas _ _ _ _ _ | .racqP _ _ | .racqC _ _ | .racqPU _ _ | .racqCU _ _ | .marm _ _ _ _ | .boxu _ _ _ _
  | .sah _ _ _ _ | .npack _ _ _ | .texq _ _ _ | .rds _ _ | .tlbi _ _ _ _ | .thaw _ _ _ | .keyld _ _ _ => 1
  | .ld _ _ _ _ w | .imld _ _ _ w => ldCount w
  | .pick _ _ n => (n.val + 2) / 2 + 1
  | .node _ _ s => if s then 1 else 0
  | .rast _ _ _ _ | .trace _ _ | .hitr _ _ _ => 3
  | .tex _ _ _ | .texg _ _ _ => 2
  | _ => 0

/-- NS on CVT: by its source type (Table 14.1). -/
def cvtNs (f : NumTy) : Option (List Nat × Bool) :=
  match f with
  | .i32 | .n32 => some ([0], false)
  | .f32 => some ([0], true)
  | _ => none
/-- The source fields an NS prefix may select from, and whether they are read as floats (Table 14.1). -/
def Instr.nsFields : Instr → Option (List Nat × Bool)
  | .add _ _ _ _ _ _ | .sub _ _ _ _ _ _ | .mul _ _ _ _ _ _ | .mulh _ _ _ _ _ | .div _ _ _ _ _ | .rem _ _ _ _ _
  | .min _ _ _ _ _ | .max _ _ _ _ _ | .abs _ _ _ _ | .neg _ _ _ _ | .and _ _ _ _ | .or _ _ _ _ | .xor _ _ _ _
  | .andn _ _ _ _ | .not _ _ _ | .shl _ _ _ _ | .shr _ _ _ _ | .sar _ _ _ _ | .rot _ _ _ _ | .popc _ _ _ | .clz _ _ _
  | .ctz _ _ _ | .brev _ _ _ | .mov _ _ _ | .sel _ _ _ _ | .sel64 _ _ _ _ | .bfx _ _ _ _ | .dot4 _ _ _ _
  | .dotn _ _ _ _ | .unpackp _ _ _ | .cmp _ _ _ _ _ _ _ _ => some ([0, 1], false)
  | .mad _ _ _ _ | .shf _ _ _ _ | .bfi _ _ _ _ | .perm _ _ _ _ => some ([0, 1, 2], false)
  | .addImm _ _ _ | .andImm _ _ _ | .orImm _ _ _ | .xorImm _ _ _ | .shlImm _ _ _ | .shrImm _ _ _ | .sarImm _ _ _
  | .mulImm _ _ _ | .cvtnI32 _ _ _ | .cvtnN32 _ _ _ | .intf _ _ _ _ _ _ => some ([0], false)
  | .fcmp _ _ _ _ _ _ | .fadd _ _ _ _ | .fsub _ _ _ _ | .fmul _ _ _ _ | .fmin _ _ _ | .fmax _ _ _
  | .fminn _ _ _ | .fmaxn _ _ _ => some ([0, 1], true)
  | .frnd _ _ _ | .fscale _ _ _ _ | .fgetx _ _ | .fclass _ _ | .cvtnF32 _ _ _ | .rcp _ _ | .rsq _ _ | .sqrt _ _ _
  | .ex2 _ _ | .lg2 _ _ | .sinpi _ _ | .cospi _ _ | .tanh _ _ | .fltf _ _ _ _ _ _ _ => some ([0], true)
  | .ffma _ _ _ _ _ => some ([0, 1, 2], true)
  | .cvt _ _ f _ _ => cvtNs f
  | _ => none

/-- The words that accept an ND prefix, their own rounding field at 0 (Table 14.1, R344). -/
def Instr.ndOk : Instr → Bool
  | .add _ _ _ w s u | .sub _ _ _ w s u => !w && !s && !u
  | .mul _ _ _ w v u => !w && !v && !u
  | .fadd _ _ _ r | .fsub _ _ _ r | .fmul _ _ _ r | .ffma _ _ _ _ r | .dadd _ _ _ r | .dsub _ _ _ r | .dmul _ _ _ r
  | .dfma _ _ _ _ r => r == .rne
  | .fdot2 _ _ _ _ | .fdot2Bf _ _ _ _ | .cvtnI32 _ _ _ | .cvtnN32 _ _ _ | .cvtnF32 _ _ _ | .cvtnF64 _ _ _ => true
  | _ => false

/-! ### OPERAND faults of decoding -/

/-- Kind of core (R319). -/
inductive CoreKind where
  | chard | ctl | root
deriving DecidableEq, Repr
/-- What decoding looks at beside the words (R319): NCAP, ORD, FWD, KM1, the device mode, the kind of core and the context's
formats. -/
structure DecEnv where
  kind : CoreKind
  ncap : Nat
  ord : Bool
  fwd : Nat
  km1 : Nat
  maxBar : Nat
  ctx : Ctx
/-- Spaces and widths of the read-modify-writes (Table 15.1). -/
def atomBad (p : Space) (w : Width) : Bool := !(p == .glb || p == .loc || p == .rng || p == .stk || p == .frm) || !(w == .b32 || w == .b64)
/-- Source and destination spaces of the copies (Table 16.3). -/
def copySrc (p : Space) : Bool := p == .glb || p == .loc || p == .rng || p == .am || p == .cst
def copyDst (p : Space) : Bool := p == .glb || p == .loc || p == .rng || p == .am
/-- RDS of a number absent from Table 7.2, or of QCLK on a Chard core. -/
def rdsBad (k : CoreKind) (n : Nat) : Bool := decide (n > 19) || (n == 19 && k == .chard)
/-- A COMMIT pair (R328): a target at or above NCAP, an odd one with .w, an age not pushed yet. -/
def pairBad (v : DecEnv) (pushed : Nat) (a : Fin 16) (n : Fin 32) (w : Bool) : Bool :=
  decide (a.val + 1 > pushed) || decide (n.val + (if w then 1 else 0) ≥ v.ncap) || (w && n.val % 2 == 1)
/-- Values that the word's own entry refuses, with the number of entries pushed before it. -/
def Instr.operandBad (v : DecEnv) (pushed : Nat) : Instr → Bool
  | .intf _ _ f k _ _ | .fltf _ _ f k _ _ _ => !v.ord || !v.fwd.testBit f.val || decide (k.val > v.km1)
  | .uld64 _ _ e => e.val % 2 == 1
  | .ld _ _ _ p _ => p == .img
  | .ldS _ _ _ p w => p == .img || !(w == .b8 || w == .b16)
  | .pref _ _ p | .cache _ _ _ p | .scfg _ _ _ p => !(p == .glb || p == .cst)
  | .st _ _ _ p _ => p == .cst || p == .img
  | .reddAdd _ _ _ w | .reddFadd _ _ _ w | .reddMin _ _ _ w | .reddMax _ _ _ w | .reddMinU _ _ _ w | .reddMaxU _ _ _ w
  | .reddOr _ _ _ w => !(w == .b32 || w == .b64)
  | .atomAdd _ _ _ p w | .atomFadd _ _ _ p w | .atomMin _ _ _ p w | .atomMax _ _ _ p w | .atomAnd _ _ _ p w
  | .atomOr _ _ _ p w | .atomXor _ _ _ p w | .atomSwap _ _ _ p w | .redAdd _ _ _ p w | .redFadd _ _ _ p w
  | .redMin _ _ _ p w | .redMax _ _ _ p w | .redAnd _ _ _ p w | .redOr _ _ _ p w | .redXor _ _ _ p w | .cas _ _ _ p w => atomBad p w
  | .pub _ => !v.ord
  | .bar _ _ _ l => l.val == 7 || decide (l.val > v.maxBar)
  | .cpy _ _ _ s d => !copySrc s || !copyDst d
  | .cpys _ _ _ d | .gath _ _ _ d => !copyDst d
  | .cpyr _ _ _ s _ => !(s == .glb || s == .loc)
  | .rds _ s => rdsBad v.kind s.val
  | .wrs _ _ s => !([8, 9, 10, 16, 18].contains s.val)
  | .halt _ => v.kind == .chard
  | .commit _ a n w b m x y => pairBad v pushed a n w || (y && pairBad v pushed b m x)
  | _ => false
/-- What a control core's kind refuses (R35, R374, R389, R401). -/
def Instr.ctlBad : Instr → Bool
  | .ld _ _ _ p _ | .ldS _ _ _ p _ | .st _ _ _ p _ | .atomAdd _ _ _ p _ | .atomFadd _ _ _ p _ | .atomMin _ _ _ p _
  | .atomMax _ _ _ p _ | .atomAnd _ _ _ p _ | .atomOr _ _ _ p _ | .atomXor _ _ _ p _ | .atomSwap _ _ _ p _
  | .redAdd _ _ _ p _ | .redFadd _ _ _ p _ | .redMin _ _ _ p _ | .redMax _ _ _ p _ | .redAnd _ _ _ p _
  | .redOr _ _ _ p _ | .redXor _ _ _ p _ | .cas _ _ _ p _ => p == .rng || p == .am || p == .img
  | .reddAdd _ _ _ _ | .reddFadd _ _ _ _ | .reddMin _ _ _ _ | .reddMax _ _ _ _ | .reddMinU _ _ _ _ | .reddMaxU _ _ _ _
  | .reddOr _ _ _ _ | .mapl _ _ _ | .racqP _ _ | .racqC _ _ | .racqPU _ _ | .racqCU _ _ | .rrel _ _ _ | .rwait _ _ _
  | .carm _ _ _ | .cwait _ _ | .spawn _ _ _ | .trig _ | .pub _ | .bar _ _ _ _ | .post _ _ _ _ _ | .pick _ _ _
  | .node _ _ _ | .reform _ _ | .reformK _ _ => true
  | _ => false
/-- What Root refuses within its majors (R25, R374, Table 15.5). -/
def Instr.rootBad : Instr → Bool
  | .ld _ _ _ p _ | .ldS _ _ _ p _ | .pref _ _ p | .cache _ _ _ p | .st _ _ _ p _ | .atomAdd _ _ _ p _
  | .atomFadd _ _ _ p _ | .atomMin _ _ _ p _ | .atomMax _ _ _ p _ | .atomAnd _ _ _ p _ | .atomOr _ _ _ p _
  | .atomXor _ _ _ p _ | .atomSwap _ _ _ p _ => !(p == .glb || p == .loc)
  | .reddAdd _ _ _ _ | .reddFadd _ _ _ _ | .reddMin _ _ _ _ | .reddMax _ _ _ _ | .reddMinU _ _ _ _ | .reddMaxU _ _ _ _
  | .reddOr _ _ _ _ | .wrs _ _ _ | .trap _ _ | .tlbi _ _ _ _ | .sleep _ _ | .thaw _ _ _ | .keyld _ _ _ => true
  | _ => false

end Sys2Proof.Machine
end

