-- ==== Sys2Proof/Machine/Check.lean ====
section
/-! DEFINITION. Fetching and decoding a run whole (R318, R319): its packets, its first decode fault, and the slots it is cut
into (R332). -/
namespace Sys2Proof.Machine

/-! ### One word -/

/-- OP of a word. -/
def opOf (n : Nat) : Nat := fld n 30 25
/-- Pipe of an OP (Table 13.1): 0 none, 1 A, 2 X, 3 M, 4 E, 5 K. -/
def pipeOf (op : Nat) : Nat :=
  if op = 0 then 0
  else if op ≤ 9 then 1
  else if op ≤ 14 then 2
  else if op ≤ 17 then 1
  else if op = 18 then 3
  else if op < 24 then 0
  else if op ≤ 29 then 3
  else if op ≤ 33 then 4
  else if op = 34 then 3
  else if op = 35 then 4
  else if op = 48 ∨ op = 49 then 5
  else 0
/-- Words with a guard field (R320): all but NOP and X-words. -/
def hasGuard (op : Nat) : Bool := op != 0x26 && op != 0x3F
/-- Guard 0b1111, which is ILLEGAL (R320). -/
def neverGuard (n : Nat) : Bool := hasGuard (opOf n) && fld n 24 21 == 15
/-- The word with fields whose values are defined but not allowed replaced, so that the rest of it can be read: SP and W of
format M. -/
def mendWord (n : Nat) : Nat :=
  let op := opOf n
  let z := n - fld n 8 3 * 8
  if op = 0x18 ∨ op = 0x19 ∨ op = 0x1C ∨ op = 0x1D then z
  else if op = 0x22 then z + 7 * 64
  else n
/-- A word that is not a literal: its instruction, where its fields can be read, and its own decode fault (true: ILLEGAL). -/
def readWord (n : Nat) : Option Instr × Option Bool :=
  let g := neverGuard n
  let m := if g then n - 2 ^ 24 else n
  match decodeNat m with
  | .ok i => (some i, if g then some true else none)
  | .error .illegal => (none, some true)
  | .error .operand =>
    match decodeNat (mendWord m) with
    | .ok i => (some i, some g)
    | .error _ => (none, some g)
/-- Literal words one source takes (R324). -/
def srcLits : Src × SW → Nat
  | (.lit, .w32) => 1
  | (.lit, .w64) => 2
  | _ => 0
/-- Literal words an instruction takes; a KX word takes none. -/
def Instr.lits (i : Instr) : Nat :=
  match i with
  | .brx _ _ | .callx _ _ | .reformK _ _ => 0
  | _ => ((Instr.srcs i).map srcLits).foldl (· + ·) 0
/-- Literal words after a word. -/
def litsOf (n : Nat) : Nat := match (readWord n).1 with | some i => Instr.lits i | none => 0
/-- Index of the first K word among the words fetched, literals passed over (R318). -/
def kIndex : Nat → List Word → Nat → Option Nat
  | 0, _, _ => none
  | _ + 1, [], _ => none
  | f + 1, w :: r, k =>
    if pipeOf (opOf w.toNat) = 5 then some k
    else
      let n := litsOf w.toNat
      kIndex f (r.drop n) (k + 1 + n)

/-! ### Decode faults -/

/-- Majors a core's kind lacks (R25, R35). -/
def lacks (k : CoreKind) (op : Nat) : Bool :=
  match k with
  | .chard => false
  | .ctl => [0x1F, 0x20, 0x21, 0x22, 0x0F, 0x10].contains op
  | .root => !([0x01, 0x02, 0x03, 0x04, 0x06, 0x18, 0x19, 0x1A, 0x23, 0x24, 0x25, 0x26, 0x30].contains op)
/-- Run-end kinds of Root (R25). -/
def rootKind (n : Nat) : Bool := opOf n != 0x30 || decide (fld n 20 18 ≤ 4)
/-- A source whose code its launch or its instruction does not allow (R323, R375, R390, R394, R413). -/
def srcBad (v : DecEnv) (pushed : Nat) (uni kx : Bool) : Src × SW → Bool
  | (.n i, .w32) => decide (i.val ≥ v.ncap)
  | (.n i, .w64) => i.val % 2 == 1 || decide (i.val + 2 > v.ncap)
  | (.n i, .quad) => i.val % 4 != 0 || decide (i.val + 4 > v.ncap)
  | (.n i, .octet) => i.val % 8 != 0 || decide (i.val + 8 > v.ncap)
  | (.n i, .blk k) => decide (i.val + k > v.ncap)
  | (.zero, .quad) | (.zero, .octet) => true
  | (.zero, _) => false
  | (_, .quad) | (_, .octet) | (_, .blk _) => true
  | (.q k, _) => decide (k.val + 1 > pushed)
  | (.lit, _) => kx
  | (.gw _, _) => false
  | (.tid, _) | (.iid, _) | (.h _, _) => uni
/-- Source fields of a major's format (Table 13.3). -/
def fieldsOf (op : Nat) : Nat :=
  if op = 0x02 ∨ op = 0x08 ∨ op = 0x09 ∨ op = 0x0B then 3
  else if op = 0x03 ∨ op = 0x0F ∨ op = 0x10 then 1
  else 2
/-- Majors that accept NS on some word (Table 14.1). -/
def majorNs (op : Nat) : Bool := [0x01, 0x02, 0x03, 0x04, 0x05, 0x07, 0x08, 0x0C, 0x0D, 0x0F, 0x10].contains op
/-- Majors that accept ND on some word. -/
def majorNd (op : Nat) : Bool := [0x01, 0x07, 0x08, 0x0A, 0x0B, 0x0C].contains op
/-- A format entry is absent (R249). -/
def fmtAbsent (c : Ctx) (k : Nat) : Bool := decide (k ≥ 8) && c.ft.getD (k - 8) 0 == 0
/-- Width of a format entry. -/
def fmtWidth (c : Ctx) (k : Nat) : Nat := (ftOf c k).wid
/-- Worse of two faults of one word: ILLEGAL (R319). -/
def worse (a b : Option Bool) : Option Bool :=
  match a, b with
  | none, b => b
  | a, none => a
  | some x, some y => some (x || y)
/-- A fault where a condition fails. -/
def failIf (c : Bool) (illegal : Bool) : Option Bool := if c then some illegal else none
/-- A subfield selection of NS. -/
def Sel.width? : Sel → Option SubW
  | .sub w _ => some w
  | .whole _ => none
/-- Source field j of a word is 64 bits wide, as every field of a .64 form of INT2 and CMP counts for a selection (Table 14.1). -/
def wideField (op : Nat) (i : Instr) (j : Nat) : Bool :=
  (match (Instr.srcs i)[j]? with | some (_, .w32) => false | some _ => true | none => false) ||
    ((op == 0x01 || op == 0x04) && (Instr.srcs i).any (fun x => x.2 == .w64))
/-- One selection of an NS prefix on source field j of a host (R326, R343). -/
def selBad (v : DecEnv) (op : Nat) (i : Instr) (acc : Option (List Nat × Bool)) (ft j : Nat) (s : Sel) : Option Bool :=
  match Sel.width? s with
  | none => none
  | some w =>
    if j ≥ fieldsOf op then some true
    else if wideField op i j && majorNs op then some false
    else match acc with
      | none => some true
      | some (fs, fl) =>
        if !fs.contains j then some true
        else failIf (fl && (fmtAbsent v.ctx ft || decide (fmtWidth v.ctx ft > subBits w))) false
/-- Some selection names a 64-bit source of a major that accepts NS. -/
def selWide (op : Nat) (i : Instr) (l : List (Nat × Sel)) : Bool := l.any (fun x =>
  (Sel.width? x.2).isSome && majorNs op && decide (x.1 < fieldsOf op) && wideField op i x.1)
/-- An NS prefix before a host (R326, R343). -/
def nsBad (v : DecEnv) (op : Nat) (i : Instr) (ft : Nat) (a b d : Sel) (sx : Bool) : Option Bool :=
  let acc := Instr.nsFields i
  let l := [(0, a), (1, b), (2, d)]
  let f := l.foldl (fun r x => worse r (selBad v op i acc ft x.1 x.2)) none
  match acc with
  | none => worse f (failIf (!selWide op i l) true)
  | some (_, true) => worse (worse f (failIf sx true)) (failIf (fmtAbsent v.ctx ft) false)
  | some (_, false) => worse f (failIf (ft != 0) true)
/-- An ND prefix before a host (R327, R343). -/
def ndBad (v : DecEnv) (i : Instr) (w : SubW) (ft : Nat) (int : Bool) : Option Bool :=
  if !Instr.ndOk i then some true
  else failIf (!int && (fmtAbsent v.ctx ft || decide (fmtWidth v.ctx ft > subBits w))) false
/-- CVTN, which requires an ND prefix (R360). -/
def needsNd : Instr → Bool
  | .cvtnI32 _ _ _ | .cvtnN32 _ _ _ | .cvtnF32 _ _ _ | .cvtnF64 _ _ _ => true
  | _ => false
/-- An ND prefix. -/
def isNd : Instr → Bool
  | .ndPrefix _ _ _ _ _ _ _ => true
  | _ => false
/-- Where the walk over a run stands: index, entries pushed, the entries before the open chain and its pipes, the word whose
C = 1 is open, pending X-words, TRAP words met, the first fault, the K word. -/
structure Chk where
  k : Nat
  pushed : Nat
  base : Nat
  pipes : List Nat
  link : Nat
  xs : List (Nat × Instr)
  traps : List Nat
  bad : Option (Nat × Bool)
  kAt : Option Nat
  kNext : Bool
deriving DecidableEq, Repr
/-- Keeps the first fault in word order, ILLEGAL first on one word. -/
def Chk.flag (c : Chk) (k : Nat) (f : Option Bool) : Chk :=
  match f with
  | none => c
  | some il =>
    match c.bad with
    | none => { c with bad := some (k, il) }
    | some (j, il') => if k < j then { c with bad := some (k, il) } else if k = j then { c with bad := some (k, il || il') } else c
/-- The X-words pending before a host that takes a pipe: NS stands first, ND once. -/
def Chk.prefixes (c : Chk) (v : DecEnv) (op : Nat) (i : Option Instr) : Chk :=
  let one (c : Chk) (px : Nat × (Nat × Instr)) : Chk :=
    let pos := px.1
    let k := px.2.1
    let before := c.xs.take pos
    match px.2.2 with
    | .nsPrefix t a b d x =>
      if pos ≠ 0 then c.flag k (some true)
      else match i with
        | some i => c.flag k (nsBad v op i t.val a b d x)
        | none => c.flag k (failIf (!majorNs op) true)
    | .ndPrefix w _ _ _ t n _ =>
      if before.any (fun y => isNd y.2) then c.flag k (some true)
      else match i with
        | some i => c.flag k (ndBad v i w t.val n)
        | none => c.flag k (failIf (!majorNd op) true)
    | _ => c
  let c' := (c.xs.zipIdx.map (fun x => (x.2, x.1))).foldl one c
  { c' with xs := [] }
/-- The word's own faults (R319): its bits, its sources, its launch, its core. -/
def wordBad (v : DecEnv) (pushed : Nat) (n : Nat) (i : Option Instr) (own : Option Bool) : Option Bool :=
  let op := opOf n
  let f := worse own (failIf (lacks v.kind op || (v.kind == .root && !rootKind n)) true)
  match i with
  | none => f
  | some i =>
    let uni := op == 0x11 || op == 0x12
    let kx := op == 0x31
    let bad := (Instr.srcs i).any (srcBad v pushed uni kx) || Instr.operandBad v pushed i ||
      (v.kind == .ctl && Instr.ctlBad i) || (v.kind == .root && Instr.rootBad i)
    worse f (failIf bad false)
/-- SCFG whose control word, zero or a literal, selects the ring form, which a control core lacks (R374); ls holds the words after it. -/
def scfgRingBad (v : DecEnv) (i : Option Instr) (ls : List Word) : Bool :=
  v.kind == .ctl && (match i with
    | some (.scfg _ _ .zero _) => true
    | some (.scfg _ a .lit _) => (ls[if a = .lit then 2 else 0]?).any (fun w => fld w.toNat 9 8 == 0)
    | _ => false)
/-- One word of the walk; ls holds the words after it. -/
def Chk.word (c : Chk) (v : DecEnv) (n : Nat) (ls : List Word) : Chk :=
  let op := opOf n
  let p := pipeOf op
  let (i, own) := readWord n
  let k := c.k
  let next := k + 1 + (match i with | some i => Instr.lits i | none => 0)
  if op = 0x3F then
    let c := c.flag k (worse own (failIf (lacks v.kind op) true))
    { c with k := next, xs := match i with | some x => c.xs ++ [(k, x)] | none => c.xs }
  else
    let before := if c.pipes.isEmpty then c.pushed else c.base
    let c := c.flag k (worse (wordBad v before n i own) (failIf (scfgRingBad v i ls) false))
    let push := match i with | some i => Instr.pushes i | none => 0
    if p = 0 then
      let c := if c.pipes.isEmpty then c else c.flag c.link (some true)
      let c := c.xs.foldl (fun c x => c.flag x.1 (some true)) c
      { c with k := next, xs := [], pipes := [], pushed := c.pushed + push }
    else
      let c := c.flag k (match i with
        | some i => failIf (needsNd i && !c.xs.any (fun x => isNd x.2)) true
        | none => none)
      let c := c.prefixes v op i
      let c := if c.pipes.contains p then c.flag c.link (some true) else c
      let open_ := bit n 31
      let c := if p = 5 then { c.flag k (failIf open_ true) with
          kAt := some k
          kNext := match i with | some (.next _) => true | _ => false } else c
      let c := match i with
        | some (.trap _ _) => { c with traps := c.traps ++ [k] }
        | _ => c
      { c with
        k := next
        base := before
        pushed := c.pushed + push
        pipes := if open_ then c.pipes ++ [p] else []
        link := if open_ then k else c.link }
/-- The walk to the K word or the end of the words fetched. -/
def Chk.walk (v : DecEnv) : Nat → List Word → Chk → Chk
  | 0, _, c => c
  | f + 1, ws, c =>
    if c.kAt.isSome then c
    else match ws[c.k]? with
      | none => c
      | some w => Chk.walk v f ws (c.word v w.toNat (ws.drop (c.k + 1)))
/-- NOP. -/
def nopWord : Nat := 0x4C000000
/-- The first decode fault of the words fetched: its word, and whether it is ILLEGAL (R318, R319). whole says that no fetch
fault ended them. -/
def runFault (v : DecEnv) (ws : List Word) (whole : Bool) : Option (Nat × Bool) :=
  let c := Chk.walk v 24 ws ⟨0, 0, 0, [], 0, [], [], none, none, false⟩
  let c := match c.traps with
    | a :: b :: _ => c.flag (if c.kAt.isNone || c.kNext then b else a) (some false)
    | [a] => if c.kAt.isNone || c.kNext then c else c.flag a (some false)
    | [] => c
  match c.kAt with
  | some k =>
    (((List.range 24).filter (fun j => decide (j > k) && decide (j / 3 = k / 3))).foldl
      (fun c j => c.flag j (failIf ((ws.getD j 0).toNat != nopWord) true)) c).bad
  | none => (if whole then c.flag 23 (some true) else c).bad

/-! ### Fetching a run -/

/-- The three words of the packet at an address (R316, R333). -/
def fetchPacket (pc : Nat) : X (List Word) := do
  let a ← fetchWord pc
  let b ← fetchWord (pc + 4)
  let c ← fetchWord (pc + 8)
  pure [w32 a, w32 b, w32 c]
/-- Packets in ascending address to the one that holds the first K word, eight at most (R319): the words and what stopped
the fetch. -/
def fetchRun (pc : Nat) : Nat → List Word → State → State × List Word × Option Exc
  | 0, ws, s => (s, ws, none)
  | f + 1, ws, s =>
    match fetchPacket (pc + 4 * ws.length) s with
    | .error e s' => (s', ws, some e)
    | .ok p s' =>
      let ws := ws ++ p
      if (kIndex 24 ws 0).isSome then (s', ws, none) else fetchRun pc f ws s'

/-- What decoding looks at for a core, a launch and a context (R319). -/
def decEnv (s : State) (core : Nat) (la : Option Launch) (ctx : Nat) : DecEnv :=
  let c := s.ctxD ctx
  {
    kind := if isChard core then .chard else if isCtl core then .ctl else .root
    ncap := match la with | some l => l.ncap | none => 32
    ord := match la with | some l => l.ord | none => false
    fwd := match la with | some l => l.fwd | none => 0
    km1 := match la with | some l => l.km1 | none => 0
    maxBar := c.maxBar
    ctx := c }

/-- Fetches and decodes the run at a PC for the group at issue: its words, or what stops it. -/
def loadRun (pc : Nat) (s : State) : State × Except Exc (List Word) :=
  if pc % 12 ≠ 0 then (s, .error (.fault ⟨cALIGN, 0, dw pc, 0, 0, false⟩))
  else
    let (s, ws, stop) := fetchRun pc 8 [] s
    let v := decEnv s s.curCore s.curLaunch s.cur.id.ctx
    match runFault v ws stop.isNone with
    | some (k, il) => (s, .error (.fault ⟨if il then cILLEGAL else cOPERAND, 0, 0, k, ws.getD k 0, false⟩))
    | none =>
      match stop with
      | some (.fault f) => (s, .error (.fault { f with word := ws.length, instr := 0 }))
      | some e => (s, .error e)
      | none => (s, .ok ws)

/-! ### Slots of a decoded run (R332) -/

/-- A word with its prefixes and literals: index of its first word, its prefixes, its own index, word and instruction, its
literals, the index after it. -/
structure Item where
  at_ : Nat
  xs : List (Nat × Instr)
  ix : Nat
  w : Word
  i : Instr
  lits : List Word
  next : Nat
deriving DecidableEq, Repr
/-- The instruction of a word of a run that decodes. -/
def instrAt (ws : List Word) (k : Nat) : Option Instr :=
  match ws[k]? with
  | none => none
  | some w => match decodeWord w with | .ok i => some i | .error _ => none
/-- The item at an index: at most two prefixes stand before it. A prefix without a host, which no decoded run holds, stands for
itself. -/
def itemAt (ws : List Word) (start : Nat) : Nat → Nat → List (Nat × Instr) → Option Item
  | 0, _, _ => none
  | f + 1, k, xs =>
    match instrAt ws k with
    | none =>
      match xs.reverse with
      | [] => none
      | (j, i) :: r => some ⟨start, r.reverse, j, ws.getD j 0, i, [], k⟩
    | some i =>
      if opOf (ws.getD k 0).toNat = 0x3F then itemAt ws start f (k + 1) (xs ++ [(k, i)])
      else
        let n := Instr.lits i
        some ⟨start, xs, k, ws.getD k 0, i, (ws.drop (k + 1)).take n, k + 1 + n⟩
/-- The members of the slot that starts at an index: one item, or a chain (R325). COMMIT, REJ and NOP stand alone. -/
def slotAt (ws : List Word) : Nat → Nat → List Item
  | 0, _ => []
  | f + 1, k =>
    match itemAt ws k 3 k [] with
    | none => []
    | some it => if bit it.w.toNat 31 then it :: slotAt ws f it.next else [it]
/-- The slot of a run at its index. -/
def Run.slot (r : Run) : List Item := slotAt r.words 5 r.wi

end Sys2Proof.Machine
end

