-- ==== Sys2Proof/Machine/Sched.lean ====
section
/-! DEFINITION. What a lane does between runs: readiness (R96, R173, R177), the active set (R96), the choice of a group (R97)
and of a set (R98), the start of a run, and the ends of waits (R186, R199, R202, R221, R396, R418). -/
namespace Sys2Proof.Machine

/-! ### Readiness (R96) -/

/-- The issue of a thread before any word. -/
def issueFor (lane g tid t : Nat) : Issue := { Issue.none with lane := lane, grp := g, tid := tid, thr := t }
/-- Registers a source covers. -/
def srcRegs : Src × SW → List Nat
  | (.n i, .w32) => [i.val]
  | (.n i, .w64) => [i.val, i.val + 1]
  | (.n i, .quad) => (List.range 4).map (fun k => i.val + k)
  | (.n i, .octet) => (List.range 8).map (fun k => i.val + k)
  | (.n i, .blk n) => (List.range n).map (fun k => i.val + k)
  | _ => []
/-- The forwarded operand a word names. -/
def fwdSrc : Instr → Option (Nat × Nat)
  | .intf _ _ f k _ _ | .fltf _ _ f k _ _ _ => some (f.val, k.val + 1)
  | _ => none
/-- The instructions of a run's words, literals passed over. -/
def runInstrs (ws : List Word) : Nat → Nat → List Instr
  | 0, _ => []
  | f + 1, k =>
    match itemAt ws k 3 k [] with
    | none => []
    | some it => it.i :: runInstrs ws f it.next
/-- A register lets a run start: not pending, and full where it is mapped, or the fill's fault is held for it. -/
def regReady (th : Thr) (i : Nat) : Bool :=
  (th.reg i).pend.isNone &&
    (match th.link with
     | none => true
     | some m => !m.has i || (th.reg i).full || (match m.held with | some (js, _) => js.contains i | none => false))
/-- The value of item i − k is there (R175, R177); a thread that is no item does not wait, and faults at issue (R369). -/
def fwdReady (s : State) (th : Thr) (k : Nat) : Bool :=
  if !th.id.item then true
  else match th.id.launch.bind s.launch? with
  | none => true
  | some l =>
    let i := th.id.iid.toNat
    decide (i < l.baseidx + k) || (alGet l.pubs (i - k)).isSome
/-- The operands that the next run's start needs are there. The run is looked at without effect; one that will not start is
ready, since its fault is raised at the start. -/
def operandsReady (s : State) (lane g tid t : Nat) (th : Thr) : Bool :=
  if th.hasPending || th.link.isSome || th.id.item then
    match fetchRun th.pc 8 [] { s with iss := issueFor lane g tid t } with
    | (_, _, some _) => true
    | (_, ws, none) =>
      (runInstrs ws 24 0).all (fun i =>
        ((Instr.srcs i).flatMap srcRegs).all (regReady th) &&
          (match fwdSrc i with | some (_, k) => fwdReady s th k | none => true))
  else true
/-- A thread that can start a run. -/
def thrReady (s : State) (lane g tid t : Nat) : Bool :=
  match s.thr? t with
  | none => false
  | some th => th.waits.isEmpty && th.svc.isNone && operandsReady s lane g tid t th
/-- The ready threads of a group with their TIDs. -/
def readyOf (s : State) (lane g : Nat) : List (Nat × Nat) :=
  match s.grp? g with
  | none => []
  | some gr => gr.mem.filter (fun m => thrReady s lane g m.1 m.2)

/-! ### The core lets a run start -/

/-- A serviced fault, or one that waits for room, stalls its core (R298, R302). -/
def coreStalled (s : State) (core : Nat) : Bool :=
  s.thrs.any (fun t => match t.2.svc with | some v => v.core == core && (v.svc || v.st != .held) | none => false)
/-- No run starts on a frozen or stalled core, on one that saves its residencies for a double fault, or where the core itself does not
run. -/
def coreRuns (s : State) (core : Nat) : Bool :=
  !s.isFrozen (coreMid core) && !coreStalled s core && (s.coreD core).dbl.isEmpty &&
    (if isCtl core then (s.ctlD (core - 512)).st == .running
     else if isRoot core then (s.stackD (core - 544)).root == .running
     else true)

/-! ### The active set (R96) -/

/-- The oldest item of a launch that has neither exited nor published (R85). -/
def oldestItem (s : State) (l : Nat) : Option Nat :=
  s.thrs.foldl (fun o t =>
    if t.2.id.launch = some l ∧ t.2.id.item ∧ !t.2.pubd then
      match o with
      | none => some t.2.id.iid.toNat
      | some x => some (min x t.2.id.iid.toNat)
    else o) none
/-- A group pinned as the oldest unfinished group of its ordered launch (R85). -/
def pinned (s : State) (gr : Grp) : Bool :=
  match gr.launch with
  | none => false
  | some l =>
    match oldestItem s l with
    | none => false
    | some i => gr.mem.any (fun m => match s.thr? m.2 with
      | some th => th.id.item && !th.pubd && th.id.iid.toNat == i
      | none => false)
/-- Time on a lane's die. -/
def laneNow (s : State) (lane : Nat) : Nat := s.cyc (coreDie (laneCore lane))
/-- The cycles that count for the places of a lane (R96, R305). -/
def laneAge (s : State) (lane : Nat) : Nat := s.ageOf (laneCore lane)
/-- A group can run: a thread of it can start a run, or a restoration left it within one (R96, R310). -/
def canRun (s : State) (lane g : Nat) : Bool :=
  (match s.grp? g with | some gr => gr.srun.isSome | none => false) || !(readyOf s lane g).isEmpty
/-- Marks since when each group of a lane is ready; a group that is not ready is not passed over. -/
def State.markReady (s : State) (lane : Nat) : State :=
  let l := s.laneD lane
  let now := laneAge s lane
  let rs := (l.active ++ l.waiting).map (fun g => (g, canRun s lane g))
  rs.foldl (fun s x => s.modGrp x.1 (fun gr =>
    if x.2 then { gr with readySince := gr.readySince.orElse (fun _ => some now) }
    else { gr with readySince := none, passed := 0 })) s
/-- A group was marked ready. -/
def isReady (s : State) (g : Nat) : Bool := match s.grp? g with | some gr => gr.readySince.isSome | none => false
/-- The group of a list with the least key. -/
def leastBy (key : Nat → Nat) : List Nat → Option Nat
  | [] => none
  | g :: r =>
    match leastBy key r with
    | none => some g
    | some h => if key h < key g then some h else some g
/-- The waiting group that became ready earliest. -/
def nextWaiting (s : State) (lane : Nat) : Option Nat :=
  leastBy (fun g => match s.grp? g with | some gr => gr.readySince.getD 0 | none => 0)
    ((s.laneD lane).waiting.filter (isReady s))
/-- The unpinned active group that has been in the set longest. -/
def oldestActive (s : State) (lane : Nat) : Option Nat :=
  leastBy (fun g => match s.grp? g with | some gr => gr.setSince | none => 0)
    ((s.laneD lane).active.filter (fun g => match s.grp? g with | some gr => !pinned s gr | none => false))
/-- An active and a waiting group change places. -/
def State.exchange (s : State) (lane a w : Nat) : State :=
  let now := laneAge s lane
  let s := s.modLane lane (fun l => { l with
    active := l.active.map (fun g => if g = a then w else g)
    waiting := l.waiting.filter (· != w) ++ [a] })
  (s.modGrp w (fun g => { g with setSince := now })).modGrp a (fun g => { g with waitSince := now })
/-- The active set of a lane after a change (R96): the waiting group that became ready earliest fills a free place. -/
def State.fillActive (s : State) (lane : Nat) : State :=
  let l := s.laneD lane
  if l.active.length < Config.activePerLane then
    match l.waiting with
    | [] => s
    | w :: ws =>
      let key (g : Nat) : Nat × Nat := match s.grp? g with
        | some gr => match gr.readySince with | some r => (0, r) | none => (1, gr.waitSince)
        | none => (2, 0)
      let best := ws.foldl (fun b g => let kb := key b; let kg := key g
        if kg.1 < kb.1 ∨ (kg.1 = kb.1 ∧ kg.2 < kb.2) then g else b) w
      let now := s.ageOf (laneCore lane)
      let s := s.modLane lane (fun l => { l with active := l.active ++ [best], waiting := l.waiting.filter (· != best) })
      s.modGrp best (fun g => { g with setSince := now })
  else s

/-- The exchange at a run's end (R96): its group, where it is not ready and not pinned, gives its place to a ready waiting group. -/
def State.leaveEnded (s : State) (lane : Nat) : State :=
  let l := s.laneD lane
  let gone (g : Nat) : Bool := l.active.contains g &&
    (match s.grp? g with | some gr => gr.readySince.isNone && !pinned s gr | none => false)
  let s' := match l.ended.filter gone, nextWaiting s lane with
    | some a, some w => s.exchange lane a w
    | _, _ => s
  s'.modLane lane (fun l => { l with ended := none })
/-- The exchange of an idle lane (R96): with no active group ready, the unpinned group longest in the set gives its place to a ready
waiting group. -/
def State.leaveIdle (s : State) (lane : Nat) : State :=
  if (s.laneD lane).active.any (isReady s) then s
  else match oldestActive s lane, nextWaiting s lane with
    | some a, some w => s.exchange lane a w
    | _, _ => s

/-- A ready waiting group has waited 8,192 cycles for a place. -/
def placeDue (s : State) (lane g : Nat) : Bool :=
  match s.grp? g with
  | some gr => (match gr.readySince with
    | some r => decide (laneAge s lane ≥ max gr.waitSince r + 8192)
    | none => false)
  | none => false
/-- ACTIVE_SET_DISPLACE (R96): on a lane at a run boundary, the waiting group ready earliest of those that have been ready for 8,192
cycles takes the place of the unpinned group longest in the set. The stall of a core holds it off (R305). -/
def State.displace (s : State) (lane : Nat) : State :=
  let l := s.laneD lane
  if l.run.isSome || coreStalled s (laneCore lane) || l.active.length < Config.activePerLane then s
  else
    let s' := s.markReady lane
    let due := leastBy (fun g => match s'.grp? g with | some gr => gr.readySince.getD 0 | none => 0) (l.waiting.filter (placeDue s' lane))
    match due, oldestActive s' lane with
    | some w, some a => s'.exchange lane a w
    | _, _ => s
/-- What falls due on a lane that has groups waiting (R96): they become ready or not and, at a run boundary, free places are filled, then
come the exchange of the run that ended, the displacement and the exchange of an idle lane. A filing that waits holds the lane at its
instruction (R89, R166). -/
def State.atBound (s : State) (lane : Nat) : State :=
  let l := s.laneD lane
  if l.waiting.isEmpty then (if l.ended.isSome then s.modLane lane (fun l => { l with ended := none }) else s)
  else
    let s := s.markReady lane
    if l.run.isSome || s.laneFiling lane then s
    else
      let s := (List.range Config.activePerLane).foldl (fun s _ => s.fillActive lane) s
      ((s.leaveEnded lane).displace lane).leaveIdle lane

/-! ### The choice of a group and a set (R97, R98) -/

/-- Order of R97: passed over 32 times, pinned, admission key, oldest last run. -/
def groupKey (s : State) (g : Nat) : Nat × Nat × (Nat × Nat × Nat) × Nat :=
  match s.grp? g with
  | none => (2, 2, (0, 0, 0), 0)
  | some gr =>
    (if gr.passed ≥ 32 then 0 else 1, if pinned s gr then 0 else 1,
      (match gr.launch.bind s.launch? with | some l => l.key | none => (0, 0, 0)), gr.lastRun)
/-- The lexicographic order of such keys. -/
def groupLt (a b : Nat × Nat × (Nat × Nat × Nat) × Nat) : Bool :=
  decide (a.1 < b.1) || (a.1 == b.1 && (decide (a.2.1 < b.2.1) || (a.2.1 == b.2.1 &&
    (keyLt a.2.2.1 b.2.2.1 || (a.2.2.1 == b.2.2.1 && decide (a.2.2.2 < b.2.2.2))))))
/-- The ready active group R97 chooses. -/
def chooseGroup (s : State) (lane : Nat) : Option Nat :=
  ((s.laneD lane).active.filter (isReady s)).foldl (fun o g =>
    match o with
    | none => some g
    | some h => if groupLt (groupKey s g) (groupKey s h) then some g else some h) none
/-- The sets of a group's ready threads: PC and TIDs, by ascending PC. -/
def setsOf (s : State) (ready : List (Nat × Nat)) : List (Nat × List Nat) :=
  ready.foldl (fun (l : AL (List Nat)) m =>
    match s.thr? m.2 with
    | some th => alSet l th.pc (alGetD l th.pc [] ++ [m.1])
    | none => l) []
/-- The set R98 chooses: an age of 8 first, else the largest that the rejoin mask leaves. -/
def chooseSet (gr : Grp) (sets : List (Nat × List Nat)) : Option (Nat × List Nat) :=
  match sets.find? (fun x => decide (alGetD gr.ages x.1 0 ≥ 8)) with
  | some x => some x
  | none =>
    let held (x : Nat × List Nat) : Bool :=
      match gr.rejoin with
      | (p, m) :: _ => x.1 == p && sets.any (fun y => y.1 != p && y.2.any (fun tid => m.contains tid))
      | [] => false
    (sets.filter (fun x => !held x)).foldl (fun o x =>
      match o with
      | none => some x
      | some y => if x.2.length > y.2.length then some x else some y) none
/-- Ages after a choice: the sets not chosen age by one. -/
def nextAges (gr : Grp) (sets : List (Nat × List Nat)) (pc : Nat) : AL Nat :=
  (sets.filter (fun x => x.1 != pc)).map (fun x => (x.1, alGetD gr.ages x.1 0 + 1))

/-! ### The start of a run -/

/-- A thread as its run starts: the checkpoint of p0 to p6 (R163), the generator (R247), the stream positions. -/
def Thr.startRun (th : Thr) : Thr := { th with rt := { RunT.empty with chk := th.p, srs := th.srs, spos0 := th.spos } }
/-- What a fault at the start of a run comes to for the threads of its set, in ascending TID (R319). -/
def State.failStart (s : State) (pc : Nat) (e : Exc) (ts : List Nat) : State :=
  match e, ts with
  | .fault f, ts => ts.foldl (fun s t => s.takeFaultAt t f pc) s
  | e, t :: r =>
    -- a control core stops where it stands (R43)
    if isCtl (laneCore (s.laneOf t)) then applyDeny s e
    else r.foldl (fun s u => (s.abandon u).modThr u Thr.restart) (s.takeDeny t e)
  | _, [] => s
/-- A run that names forwarded operands reads them at its start: what it reads is read (R86), and it is the target of the edges that
forward them (R133, R136). -/
def State.readForward (s : State) (core ctx : Nat) (ts : List Nat) (ws : List Word) : State :=
  match (runInstrs ws 24 0).filterMap fwdSrc with
  | [] => s
  | fs =>
    let got (r : FwdRes) : List (Nat × Nat × Nat) := ts.flatMap (fun t => match s.thr? t with
      | some th =>
        let i := th.id.iid.toNat
        if th.id.item && th.id.launch == some r.launch && decide (r.first ≤ i) && decide (i ≤ r.last) then
          (fs.filter (fun f => decide (f.2 ≤ i))).map (fun f => (i, i - f.2, f.1))
        else []
      | none => [])
    let s : State := { s with cores := s.cores.map (fun (k, c) =>
      (k, { c with fwd := c.fwd.map (fun r => { r with seen := (r.seen ++ got r).eraseDups }) })) }
    s.invalidate core ctx
/-- The threads' next fetch has been made: a later fault of a fetch is no double fault (R308, R402). -/
def State.fetched (s : State) (ts : List Nat) : State := ts.foldl (fun s t => s.modThr t (fun th => { th with dblFetch := false })) s
/-- The fetch of a run was made, and its decoding failed (R319). -/
def decodeFault : Exc → Bool
  | .fault f => f.cls == cILLEGAL || f.cls == cOPERAND
  | _ => false
/-- Starts a run of a lane for a group's set at a PC; none where its fetch must wait (R139, R333). -/
def State.beginRun (s : State) (lane g pc : Nat) (tids : List Nat) : Option State :=
  match s.grp? g with
  | none => none
  | some gr =>
    let ts := (gr.mem.filter (fun m => tids.contains m.1)).map (·.2)
    let s := ts.foldl (fun s t => s.modThr t Thr.startRun) s
    let s := { s with iss := issueFor lane g (tids.headD 0) (ts.headD 0) }
    match loadRun pc s with
    | (_, .error .stall) => none
    | (s, .error e) => some ((if decodeFault e then s.fetched ts else s).failStart pc e ts)
    | (s, .ok ws) => some (((s.fetched ts).readForward (laneCore lane) gr.ctx ts ws).modLane lane (fun l => { l with
        run := some ⟨g, pc, ws, 0, tids, tids, [], [], [], none, [], [], [], false⟩ }))
/-- A restored group goes on within the run its save stopped, at its saved word; the run's words are fetched again (R310, R311; log entry
95). -/
def State.resumeRun (s : State) (lane g : Nat) (gr : Grp) (r : Run) : State :=
  let ts := (gr.mem.filter (fun m => r.set.contains m.1)).map (·.2)
  let s0 := s
  let s := s.modGrp g (fun x => { x with srun := none })
  let s := { s with iss := issueFor lane g (r.set.headD 0) (ts.headD 0) }
  match loadRun r.pc s with
  | (_, .error .stall) => s0
  | (s, .error e) => s.failStart r.pc e ts
  | (s, .ok ws) => (s.readForward (laneCore lane) gr.ctx ts ws).modLane lane (fun l => { l with run := some { r with words := ws } })
/-- The lane's turn for a group: the ready groups passed over count it, the group's ages and vector move on (R97, R98, R304). -/
def State.turn (s : State) (lane g : Nat) (gr : Grp) (sets : List (Nat × List Nat)) (pc : Nat) : State :=
  let rest := ((s.laneD lane).active.filter (fun h => h != g && isReady s h))
  let s := rest.foldl (fun s h => s.modGrp h (fun x => { x with passed := x.passed + 1 })) s
  let n := (s.laneD lane).runs + 1
  let s := s.modLane lane (fun l => { l with runs := n })
  let tv := if isChard (laneCore lane) then (match s.res? gr.res with | some r => r.trapv | none => gr.trapv) else gr.trapv
  s.modGrp g (fun x => { x with passed := 0, lastRun := n, ages := nextAges gr sets pc, trapv := tv, rejoin := popRej s gr gr.rejoin })
/-- RUN_START (R97, R98, R319): what is due at the boundary comes first (R96), then the lane chooses a group and a set and starts its
run, or goes on within a run that a save stopped. A filing that waits stalls the lane (R89, R166). -/
def State.runStart (s : State) (lane : Nat) : State :=
  let l := s.laneD lane
  if l.run.isSome || (l.active.isEmpty && l.waiting.isEmpty) || !coreRuns s (laneCore lane) || s.laneFiling lane then s
  else
    let s := (s.atBound lane).markReady lane
    match chooseGroup s lane with
    | none => s
    | some g =>
      match s.grp? g with
      | none => s
      | some gr =>
        match gr.srun with
        | some r => s.resumeRun lane g gr r
        | none =>
          let sets := setsOf s (readyOf s lane g)
          match chooseSet { gr with rejoin := popRej s gr gr.rejoin } sets with
          | none => s
          | some (pc, tids) => ((s.turn lane g gr sets pc).beginRun lane g pc tids).getD s

/-! ### The ends of waits -/

/-- A wait of a thread ends; where it is the target of an edge, the core's copies of the context go (R136). -/
def State.endWait (s : State) (t : Nat) (w : PWait) (edge : Bool) : State :=
  let s := s.modThr t (fun th => { th with waits := th.waits.filter (· != w) })
  match s.thr? t with
  | some th => if edge then s.invalidate (laneCore (s.laneOf t)) th.id.ctx else s
  | none => s
/-- MATRIX faults of a register's status (R221): CST.ERR, or a trap that TRAPM asks for. -/
def matrixTrap (r : Creg) : Option Nat :=
  let err := bits r.cst 39 36
  if err ≠ 0 then some err
  else if (r.trapm.getLsbD 0 && tbit r.cst 45) || (r.trapm.getLsbD 1 && tbit r.cst 43) then some 0
  else none
/-- MWAIT and MDRAIN end: CST goes to MST, the edge is given, then the MATRIX fault is raised (R221, R418). -/
def State.endMatrix (s : State) (t : Nat) (w : PWait) (r : Creg) : State :=
  let s := (s.modThr t (fun th => { th with mst := r.cst })).endWait t w true
  match matrixTrap r with
  | none => s
  | some c => s.takeFaultAt t ⟨cMATRIX, c, 0, w.word, w.instr, false⟩ w.pc
/-- The read of a QWAIT: at the home, once no engine owns the line (R139, R396). -/
def pollRead (who : Who) (va : Nat) : X (Nat × Bool) := do
  let (pa, _, _, _) ← translate who .read va
  waitOwned pa
  readLines who .read va 2 8
/-- The home word that a QWAIT looks at, with the state after its translation. -/
def pollWord (s : State) (core ctx va : Nat) : Option (Nat × State) :=
  match pollRead { (s.who core ctx) with core := none } va s with
  | .ok (v, po) s' => if po then none else some (v, s')
  | .error _ _ => none
/-- One wait of a thread, looked at: it ends where its condition holds. SLEEP ends by its own event. -/
def State.pollWait (s : State) (t : Nat) (w : PWait) : State :=
  match s.thr? t with
  | none => s
  | some th =>
    let core := laneCore (s.laneOf t)
    let quad := coreQuad core
    let ring (k : Nat) : Ring := alGetD (s.quadD quad).rings k .empty
    let mine (r : Ring) : Bool := r.v && th.id.launch == some r.own
    match w.w with
    | .bar _ _ _ => s.arriveAt t w
    | .barIn k => if (alGet s.bars k).isNone then s.endWait t w true else s
    | .ringHead k cons =>
      let r := ring k
      if mine r && (if cons then r.canDrain else r.canFill) then s.endWait t w false else s
    | .ringSlot k slot full ph =>
      let r := ring k
      let x := r.slot slot
      if mine r && x.full == full && (if full then x.ph == ph else x.ph != ph) then s.endWait t w true else s
    | .count k => if (alGetD (s.quadD quad).counts k .empty).cnt = 0 then s.endWait t w true else s
    | .mwait c seq =>
      let r := s.cregD quad c
      match seq with
      | none => s.arriveAt t w
      -- DONESEQ may pass a ticket within one act (R418)
      | some q => if (r.doneseq - q).toNat < 2 ^ 31 then s.endMatrix t w r else s
    | .mdrain c q =>
      let r := s.cregD quad c
      if (r.doneseq - q).toNat < 2 ^ 31 then s.endMatrix t w r else s
    | .word va nz =>
      match pollWord s core th.id.ctx va with
      | none => s
      | some (v, s') => if (if nz then v ≠ 0 else v / 2 ^ 56 ≥ 2) then s'.endWait t w true else s
    | .sleep _ none => s.arriveAt t w
    | .sleep _ (some _) => s
    | .halt => if (s.ctlD (core - 512)).st == .halted then s else s.endWait t w false
    | .gone bars k next =>
      -- a REFORM that waits for a bin is tried with its lane's others, in order
      if bars.isEmpty && k.files then s
      else
        let (rest, s) := s.arriveGone t bars
        (s.modThr t (fun th => { th with waits := [] })).stepGone (s.laneOf t) t next k rest
/-- The thread's residency is saved. -/
def savedThr (s : State) (t : Nat) : Bool := match s.res? (s.seatOf t).2.1.res with | some r => r.saved | none => false
/-- A wait that goes on while its thread is saved (Table 15.6); the waits whose end does more for the thread end after restoration (R151;
log entry 106). -/
def Wait.goesOn : Wait → Bool
  | .mwait _ _ | .mdrain _ _ | .gone _ _ _ | .halt => false
  | _ => true
/-- The waits of one thread: those of a thread on a frozen core stand as they are (R151). -/
def State.pollThr (s : State) (t : Nat) : State :=
  match s.thr? t with
  | none => s
  | some th =>
    if s.frozenThr t then s
    else (th.waits.filter (fun w => w.w.goesOn || !savedThr s t)).foldl (fun s w => s.pollWait t w) s
/-- A record queue holds a record that has not been taken. -/
def RecQ.holds (q : RecQ) : Bool := q.head != q.tail || q.full
/-- What wakes a halted control core: a notice, a violation record or a machine-check record in its queue (R407). -/
def State.wakeHalted (s : State) : State :=
  if (s.sys.svcHead != s.sys.svcTail || s.sys.svcFull || s.sys.viol.holds || s.sys.mcheck.holds) &&
      s.ctls.any (fun k => k.2.st == .halted) then
    { s with ctls := s.ctls.map (fun k => if k.2.st == .halted then (k.1, { k.2 with st := .running }) else k) }
  else s
/-- A context command in progress comes nearer to its end (Table 3.2; log entry 87). -/
def State.passBusy (s : State) : State :=
  if s.sys.busy = 0 then s else { s with sys := { s.sys with busy := s.sys.busy - 1 } }
/-- A double fault goes on as its core's saves are made (R309). Every wait whose condition holds ends; filings that waited are tried again
(R89), and the lanes fill their free places (R96). -/
def State.pollAll (st : State) : State :=
  let s := st.wakeHalted.passBusy
  let s := s.cores.foldl (fun s c => if c.2.dbl.isEmpty then s else s.endDouble c.1) s
  let s := s.thrs.foldl (fun s t => if t.2.waits.isEmpty then s else s.pollThr t.1) s
  let s := s.retryConts
  let s := s.lanes.foldl (fun s l => if s.isFrozen (coreMid (laneCore l.1)) then s else s.retryReforms l.1 (s.reformers l.1)) s
  s.lanes.foldl (fun s l => s.atBound l.1) s
/-- SLEEP_EXPIRE (R407): the sleeps of a thread whose cycles have passed end; no edge. -/
def State.sleepEnd (s : State) (t : Nat) : State :=
  match s.thr? t with
  | none => s
  | some th =>
    let now := laneNow s (s.laneOf t)
    if s.frozenThr t then s
    else th.waits.foldl (fun s w => match w.w with
      | .sleep _ (some u) => if u ≤ now then s.endWait t w false else s
      | _ => s) s

end Sys2Proof.Machine
end

