-- ==== Sys2Proof/Machine/Issue.lean ====
section
/-! DEFINITION. Issuing a slot for one thread of a run's set (R157, R325, R332): prefixes, members of a chain, a stall that
undoes the issue (R166), a chain's fault, the advance to the next slot and the end of the run. The meaning of a word is an
argument: Step passes exec. -/
namespace Sys2Proof.Machine

/-- What the meaning of an instruction is to an issue. -/
abbrev Meaning := Instr → State → Out
/-- A meaning's next state; a fault or refusal of the machine leaves the state as it was and is kept aside. -/
def after (o : Out) (s : State) : State × Option Out :=
  match o with
  | .next s' => (s', none)
  | o => (s, some o)

/-- An item is at hand: its literals, and its prefixes have been issued. -/
def prefixItem (ex : Meaning) (it : Item) (chained : Bool) (q0 : List QEnt) (s : State) : State × Option Out :=
  let s := { s with iss := { s.iss with
    word := it.ix, instr := it.w, lits := it.lits, ns := none, nd := none, q0 := q0, chained := chained } }
  it.xs.foldl (fun (x : State × Option Out) p =>
    match x with
    | (s, none) => after (ex p.2 s) s
    | x => x) (s, none)
/-- Issues one item for the thread at hand: its prefixes, then the word with its literals. -/
def issueItem (ex : Meaning) (it : Item) (chained : Bool) (q0 : List QEnt) (s : State) : State × Option Out :=
  match prefixItem ex it chained q0 s with
  | (s, some o) => (s, some o)
  | (s, none) => after (ex it.i s) s
/-- The thread at hand is no longer in its run's set: a refusal has abandoned its run (R43). -/
def State.leftRun (s : State) : Bool :=
  !(match (s.laneD s.iss.lane).run with
    | some r => r.grp == s.iss.grp && r.set.contains s.iss.tid
    | none => false)
/-- Issues the members of a slot in order; a stall, a member's fault or its refusal ends the issue. -/
def issueItems (ex : Meaning) (chained : Bool) (q0 : List QEnt) : List Item → State → State × Option Out
  | [], s => (s, none)
  | it :: r, s =>
    match issueItem ex it chained q0 s with
    | (s, some o) => (s, some o)
    | (s, none) => if s.iss.stalled || s.iss.faulted.isSome || s.leftRun then (s, none) else issueItems ex chained q0 r s
/-- A stalled issue has done nothing, but for the bin it asks to be sealed (R89, R166). -/
def unissue (before s : State) : State :=
  let b := if s.iss.noBin then before.makeRoom (laneCore before.iss.lane) else before
  let b := b.modLane b.iss.lane (fun l => { l with run := l.run.map (fun r => { r with stalled := true }) })
  { b with iss := { before.iss with stalled := true, noBin := s.iss.noBin } }
/-- What a chain that takes no effect leaves of the system registers: the violations that refusals recorded and the masters they froze
(R43). -/
def Sys.refusals (before s : Sys) : Sys :=
  { before with
    viol := if s.viol.tail == before.viol.tail && s.viol.drop == before.viol.drop then before.viol else s.viol
    vseq := s.vseq
    heldSeq := s.heldSeq
    frozen := s.frozen.map (fun m => (m.1, m.2 || alGetD before.frozen m.1 false)) }
/-- The tokens of a slot's RAST words are the set's lowest TID's, although a member faults for it (R325). -/
def noteTokens (ex : Meaning) (items : List Item) (q0 : List QEnt) (s : State) : State :=
  items.foldl (fun s it =>
    match it.i with
    | .rast _ a _ _ =>
      match noteToken a (prefixItem ex it true q0 s).1 with
      | .ok _ s' =>
        match s'.curRun.bind (fun r => alGet r.once it.ix) with
        | some o => s.modRun (fun r => { r with once := alSet r.once it.ix o })
        | none => s
      | .error .. => s
    | _ => s) s
/-- A chain with a faulting member takes no effect for the thread (R325): only refusals recorded, RAST's token, cached translations
and values drawn stay. The fault is then taken. -/
def unchain (before s : State) (f : FaultInfo) : State :=
  let b := { before with
    sys := before.sys.refusals s.sys
    free := s.free
    fresh := s.fresh
    mem := { before.mem with tlb := s.mem.tlb } }
  b.takeFault before.iss.thr f

/-! ### The slot's end -/

/-- The slot holds the K word. -/
def slotHasK (items : List Item) : Bool := items.any (fun it => pipeOf (opOf it.w.toNat) == 5)
/-- Index after a slot. -/
def slotNext (items : List Item) (wi : Nat) : Nat :=
  match items.getLast? with
  | some it => it.next
  | none => wi + 1
/-- A cross-group word whose last thread did not complete fills for the others (R363). -/
def State.fillSlot (s : State) (lane : Nat) (items : List Item) : State :=
  items.foldl (fun s it =>
    match xgOpOf it.i, (s.laneD lane).run with
    | some op, some r => if r.xg.any (·.word == it.ix) then s.fillXg lane it.ix op else s
    | _, _ => s) s
/-- The slot has issued for its whole set: the records it posts are packed, or the lane stalls while they find no room (R93, R166); the
run ends at its K word, or goes on at the next slot. -/
def State.finishSlot (s : State) (lane : Nat) (items : List Item) : State :=
  let s := (s.fillSlot lane items).packPosts lane
  match (s.laneD lane).run with
  | none => s
  | some r =>
    if !r.posts.isEmpty then { s with iss := { s.iss with lane := lane, stalled := true } }
    else if slotHasK items || items.isEmpty then s.runEnd lane
    else s.modLane lane (fun l => { l with run := some { r with wi := slotNext items r.wi, todo := r.set } })
/-- A thread has issued for the slot. -/
def State.issued (s : State) (lane g tid : Nat) (items : List Item) : State :=
  match (s.laneD lane).run with
  | none => s
  | some r =>
    if r.grp ≠ g then s
    else
      let todo := r.todo.filter (· != tid)
      let s := s.modLane lane (fun l => { l with run := some { r with todo := todo, stalled := false } })
      if todo.isEmpty then s.finishSlot lane items else s

/-! ### One issue -/

/-- Issues the slot at hand of a lane's run for the next thread of its set; a run whose last slot has issued ends, once what
it waits for is there (R164). -/
def issueLane (ex : Meaning) (lane : Nat) (s : State) : Out :=
  match (s.laneD lane).run with
  | none => .next s
  | some r =>
    let items := r.slot
    match r.todo with
    | [] => .next (s.finishSlot lane items)
    | tid :: rest =>
      match (s.grp? r.grp).bind (fun g => alGet g.mem tid) with
      | none => .next (s.issued lane r.grp tid items)
      | some t =>
        let chained := decide (items.length > 1)
        let q0 := match s.thr? t with | some th => th.rt.q | none => []
        let before := { s with iss := { issueFor lane r.grp tid t with last := rest.isEmpty } }
        match issueItems ex chained q0 items before with
        | (_, some o) => o
        | (s', none) =>
          if s'.iss.stalled then .next (unissue before s')
          else match s'.iss.faulted with
            | some f => .next ((unchain (noteTokens ex items q0 before) s' f).issued lane r.grp tid items)
            | none => .next (s'.issued lane r.grp tid items)

end Sys2Proof.Machine
end

