-- ==== Sys2Proof/Machine/Arrive.lean ====
section
/-! DEFINITION. Events of the lanes: a run's start and end, the active set, results that arrive (R153, R165), link fills (R210),
barriers (R135, R393) and sleeps (R407). An event that is not due changes nothing. -/
namespace Sys2Proof.Machine

/-! ### Runs -/

/-- RUN_START. -/
def execRunStart (lane : Nat) (st : State) : Out := .next (st.runStart lane)
/-- RUN_END: the run of a lane whose slots have all issued ends, once what it waits for is there. -/
def execRunEnd (lane : Nat) (st : State) : Out :=
  match (st.laneD lane).run with
  | none => .next st
  | some r => .next (if r.todo.isEmpty && r.posts.isEmpty && slotHasK r.slot then st.runEnd lane else st)
/-- ACTIVE_SET_DISPLACE. -/
def execActiveSetDisplace (lane : Nat) (st : State) : Out := .next (st.displace lane)

/-! ### Arrivals -/

/-- Fills the named registers that wait for a name (R165); a write clears a register error (R123). -/
def Thr.fillRegs (t : Thr) (id : Nat) (v : DWord) (poison : Bool) : Thr :=
  { t with regs := t.regs.map (fun r =>
      match r.pend with
      | some (a, hi) => if a = id then { r with v := if hi then hi32 v else lo32 v, pend := none, poison := poison, uncorr := false } else r
      | none => r) }
/-- The values of an arrival go to the entries and registers that wait for them. -/
def Thr.arrive (t : Thr) (a : Arrival) : Thr :=
  a.vs.zipIdx.foldl (fun t x => (t.fillEnt (a.id + x.2) x.1 a.poison).fillRegs (a.id + x.2) x.1 a.poison) t
/-- An arrival takes effect: a write whose generation tag is not the slot's is dropped (R153). -/
def State.deliver (s : State) (a : Arrival) : State :=
  let s := { s with arrivals := s.arrivals.filter (·.id != a.id) }.unscore a.score
  match s.thr? a.thr with
  | some th => if th.gen = a.gen then s.modThr a.thr (fun th => th.arrive a) else s
  | none => s
/-- The arrival of a kind with a name. -/
def State.takeArrival (s : State) (id : Nat) (k : Nat → Bool) : State :=
  match s.arrivals.find? (fun a => a.id == id && k a.kind) with
  | some a => s.deliver a
  | none => s
/-- RESULT_ARRIVAL. -/
def execResultArrival (arr : Nat) (st : State) : Out := .next (st.takeArrival arr (fun k => k != 1 && k != 2))
/-- TRAVERSAL_RESULT: H0 to H2 fill (R282, R285). -/
def execTraversalResult (arr : Nat) (st : State) : Out := .next (st.takeArrival arr (· == 1))
/-- TEXTURE_RESULT (R291). -/
def execTextureResult (arr : Nat) (st : State) : Out := .next (st.takeArrival arr (· == 2))

/-! ### Link registers (R173, R210) -/

/-- A fill of a register: the value, full. -/
def Thr.fillLink (t : Thr) (i : Nat) (v : Word) : Thr :=
  let t := t.setReg i v
  { t with regs := t.regs.set i { (t.reg i) with full := true } }
/-- The next fill of a thread's mapping: an element of its stream into the next register of the round, or two for b64 elements; a fault of
the fill is held for that register. A full register holds the fill off. A refused fill freezes the core (R43); no run issued it, and none is
abandoned (log entry 106). -/
def State.linkFill (s : State) (t : Nat) : State :=
  match s.thr? t with
  | none => s
  | some th =>
    match th.link, th.loc with
    | some m, .grp g tid =>
      match s.grp? g, s.res? (s.seatOf t).2.1.res with
      | some gr, some r =>
        let wide := srEsz (alGetD r.srec m.record 0) == 3
        let i := m.first + m.fills % max m.count 1
        if r.saved || s.isFrozen (coreMid (laneCore gr.lane)) || m.held.isSome || m.count = 0 || (th.reg i).full || (wide && (th.reg (i + 1)).full) then s
        else
          let s0 := { s with iss := issueFor gr.lane g tid t }
          match streamElem r.srec (alGetD r.srec m.record 0) tid m.pos s0 with
          | .ok v s' =>
            { s'.modThr t (fun th =>
                let th := th.fillLink i (lo32 (dw v))
                let th := if wide then th.fillLink (i + 1) (hi32 (dw v)) else th
                { th with link := some { m with fills := m.fills + (if wide then 2 else 1), pos := m.pos + 1 } }) with iss := s.iss }
          | .error (.fault f) s' => { s'.modThr t (fun th => { th with link := some { m with held := some (if wide then [i, i + 1] else [i], f) } }) with iss := s.iss }
          | .error .stall _ | .error .noBin _ => s
          | .error e s' => { applyDeny s' e with iss := s.iss }
      | _, _ => s
    | _, _ => s
/-- LINK_FILL. -/
def execLinkFill (thr : Nat) (st : State) : Out := .next (st.linkFill thr)

/-! ### Barriers -/

/-- Code of a pod port in what the ports have sent. -/
def podOut : Nat := 3
/-- An instance completes: at levels 5 and 6 the launch's batches close (R145), then every participant that arrived by BAR goes
on and takes the edges, but for those that stand frozen (R151). -/
def State.barDone (s : State) (k : Nat) (b : Bar) : State :=
  let s := if b.lvl ≥ 5 then s.closeBatches b.launch else s
  let s := b.waiting.foldl (fun s t =>
    match s.thr? t with
    | some th => if s.frozenThr t then s else (th.waits.filter (fun w => w.w == .barIn k)).foldl (fun s w => s.endWait t w true) s
    | none => s) s
  { s with bars := alDel s.bars k }
/-- This package's report of a pod barrier leaves through the pod ports once its participants have arrived (R393). -/
def State.barSend (s : State) (k : Nat) (b : Bar) : State :=
  { s with
    bars := alSet s.bars k { b with sent := true }
    pkg := { s.pkg with outbox := s.pkg.outbox ++ [(podOut, bytesOf 2 b.id ++ bytesOf 1 b.count)] } }
/-- BARRIER_COMPLETE: every participant has arrived, and at level 6 every other package has reported. -/
def execBarrierComplete (bar : Nat) (st : State) : Out := .next (
  match alGet st.bars bar with
  | none => st
  | some b =>
    if !b.left.isEmpty || b.launch = podEarly then st
    else if b.lvl = 6 then
      let s := if b.sent then st else st.barSend bar b
      if b.reports.length + 1 ≥ b.count then s.barDone bar b else s
    else st.barDone bar b)
/-- One more package among those that have reported. -/
def addReport (src : Nat) (rs : List Nat) : List Nat := if rs.contains src then rs else rs ++ [src]
/-- POD_BARRIER_REPORT (R393): the report of a package counts once toward the open instance of the id if its count is the same, or waits
for the instance to open; one whose count differs is ignored. A frozen port takes nothing (R43, R151). -/
def execPodBarrierReport (src : PodSrc) (ctx id count : Nat) (st : State) : Out := .next (
  let here (b : Bar) : Bool := b.lvl == 6 && b.id == id && b.launch != podEarly && b.unit == ctx
  if src.port > 8 || st.isFrozen (podMid src.port) then st else
  match st.bars.find? (fun b => here b.2) with
  | some (k, b) => if b.count = count then { st with bars := alSet st.bars k { b with reports := addReport src.package b.reports } } else st
  | none =>
    if (st.ctxD ctx).st == .free || count = 0 || count > 64 || id ≥ 2 ^ 16 then st
    else
      let (n, s) := st.earlyReports ctx id count
      let (k, s) := s.newId
      { s with bars := alSet s.bars k ⟨podEarly, 6, ctx, [], [], id, count, addReport src.package n, false⟩ })
/-- SLEEP_EXPIRE. -/
def execSleepExpire (thr : Nat) (st : State) : Out := .next (st.sleepEnd thr)

end Sys2Proof.Machine
end

