-- ==== Sys2Proof/Machine/Engines.lean ====
section
/-! DEFINITION. Events of the engines: copies (R202 to R204, R423 to R426), matrix arrays (R220 to R234) and the frames of the
pod ports (R149, R150). An event that is not due changes nothing. -/
namespace Sys2Proof.Machine

/-- COPY_START. -/
def execCopyStart (quad : Nat) (st : State) : Out := .next (st.startCopy quad)
/-- COPY_COMPLETE. -/
def execCopyComplete (quad op : Nat) (st : State) : Out := .next (st.completeCopy quad op)
/-- COPY_ENGINE_ERROR. -/
def execCopyEngineError (quad op : Nat) (st : State) : Out := .next (st.failCopy quad op)
/-- MATRIX_CHUNK_SERVE. -/
def execMatrixChunkServe (arr : Nat) (st : State) : Out := .next (st.serveChunk arr)
/-- MATRIX_DRAIN. -/
def execMatrixDrain (arr : Nat) (st : State) : Out := .next (st.drainOp arr)
/-- MATRIX_OP_COMPLETE. -/
def execMatrixOpComplete (arr : Nat) (st : State) : Out := .next (st.finishOp arr)

/-- What a pod port sends stands in Pkg.outbox under this code. -/
def podAck : Nat := 3
/-- A line from another package takes effect whole at its home (R149): the bytes that the mask names, as the port's master, poisoned
where its source was (R426). It takes no effect where the table refuses it, behind a fenced link, or beyond the stack's capacity, which is
reported (R18, R27, R43). -/
def State.podLine (s : State) (port pa : Nat) (mask : BitVec 64) (line : Line) (poison : Bool) : State × Bool :=
  let la := lineOf pa
  match accCheck (s.table (endpointOf la)) (podMid port) .write la with
  | some (why, e) => (s.refuse (podMid port) (endpointOf la) .write la why e, false)
  | none =>
    if fencedOff s.pkg 16 (paStack la) then (s, false)
    else if !inCapacity s.mem la then (s.beyondAt (podMid port) la, false)
    else
      let m := memWriteMasked s.mem (keyMat s.mem 0) la mask.toNat line.toNat
      ({ s with mem := if poison then { m with poison := la :: m.poison } else m }, true)
/-- POD_FRAME_RECEIVE: a line, which is acknowledged once it has taken effect, or the acknowledgment of a line this package sent (R150). A
frozen port takes nothing (R43); an address in the placed window is refused at the die (R115). -/
def execPodFrameReceive (port pa : Nat) (mask : BitVec 64) (line : Line) (kind : PodKind) (st : State) : Out := .next (
  if port > 8 || st.isFrozen (podMid port) then st
  else if kind == .ack then { st with pods := st.pods.filter (fun p => p.failed || p.id != pa) }
  else if pa ≥ 2 ^ 50 then st
  else if pa / 2 ^ 49 = 0 then st.refuse (podMid port) (16 * 1024) .write pa 1 255
  else match st.podLine port pa mask line (kind == .poisoned) with
    | (s, true) => { s with pkg := { s.pkg with outbox := s.pkg.outbox ++ [(podAck, bytesOf 8 pa)] } }
    | (s, false) => s)
/-- Opens a remote window of a live context with POD = 1 (R149): whole lines, apart from its other windows, on another package. How it
is asked for is not the manual's: the pod's management does it (log entry 13). -/
def State.openWindow (s : State) (ctx : Nat) (w : Window) : State :=
  let c := s.ctxD ctx
  let lines := w.va % 64 == 0 && w.len % 64 == 0 && w.remote % 64 == 0 && decide (0 < w.len) && decide (w.va + w.len ≤ 2 ^ 55)
  let apart := c.windows.all (fun x => decide (x.va + x.len ≤ w.va) || decide (w.va + w.len ≤ x.va))
  if c.st == .live && c.pod && decide (w.pkg < 64) && lines && apart then s.modCtx ctx (fun c => { c with windows := c.windows ++ [w] })
  else s
/-- POD_FRAME_RETRANSMIT (R149): a lost frame goes again, which programs see as delay only, or the transfer fails. -/
def execPodFrameRetransmit (frame : Nat) (ok : Bool) (st : State) : Out := .next (if ok then st else st.undelivered frame)

end Sys2Proof.Machine
end

