-- ==== Sys2Proof/Machine/Crypto.lean ====
section
/-! DEFINITION. SHA-512 and Ed25519, with which the NOR store is signed and the part identifies itself (R37 to R41), as FIPS 180-4
and RFC 8032 define them (PRESUMED, log entry 101). -/
namespace Sys2Proof.Machine

/-! ### SHA-512 -/

/-- The round constants. -/
def shaK : List Nat :=
    [0x428a2f98d728ae22, 0x7137449123ef65cd, 0xb5c0fbcfec4d3b2f, 0xe9b5dba58189dbbc, 0x3956c25bf348b538] ++
    [0x59f111f1b605d019, 0x923f82a4af194f9b, 0xab1c5ed5da6d8118, 0xd807aa98a3030242, 0x12835b0145706fbe] ++
    [0x243185be4ee4b28c, 0x550c7dc3d5ffb4e2, 0x72be5d74f27b896f, 0x80deb1fe3b1696b1, 0x9bdc06a725c71235] ++
    [0xc19bf174cf692694, 0xe49b69c19ef14ad2, 0xefbe4786384f25e3, 0x0fc19dc68b8cd5b5, 0x240ca1cc77ac9c65] ++
    [0x2de92c6f592b0275, 0x4a7484aa6ea6e483, 0x5cb0a9dcbd41fbd4, 0x76f988da831153b5, 0x983e5152ee66dfab] ++
    [0xa831c66d2db43210, 0xb00327c898fb213f, 0xbf597fc7beef0ee4, 0xc6e00bf33da88fc2, 0xd5a79147930aa725] ++
    [0x06ca6351e003826f, 0x142929670a0e6e70, 0x27b70a8546d22ffc, 0x2e1b21385c26c926, 0x4d2c6dfc5ac42aed] ++
    [0x53380d139d95b3df, 0x650a73548baf63de, 0x766a0abb3c77b2a8, 0x81c2c92e47edaee6, 0x92722c851482353b] ++
    [0xa2bfe8a14cf10364, 0xa81a664bbc423001, 0xc24b8b70d0f89791, 0xc76c51a30654be30, 0xd192e819d6ef5218] ++
    [0xd69906245565a910, 0xf40e35855771202a, 0x106aa07032bbd1b8, 0x19a4c116b8d2d0c8, 0x1e376c085141ab53] ++
    [0x2748774cdf8eeb99, 0x34b0bcb5e19b48a8, 0x391c0cb3c5c95a63, 0x4ed8aa4ae3418acb, 0x5b9cca4f7763e373] ++
    [0x682e6ff3d6b2b8a3, 0x748f82ee5defb2fc, 0x78a5636f43172f60, 0x84c87814a1f0ab72, 0x8cc702081a6439ec] ++
    [0x90befffa23631e28, 0xa4506cebde82bde9, 0xbef9a3f7b2c67915, 0xc67178f2e372532b, 0xca273eceea26619c] ++
    [0xd186b8c721c0c207, 0xeada7dd6cde0eb1e, 0xf57d4f7fee6ed178, 0x06f067aa72176fba, 0x0a637dc5a2c898a6] ++
    [0x113f9804bef90dae, 0x1b710b35131c471b, 0x28db77f523047d84, 0x32caab7b40c72493, 0x3c9ebe0a15c9bebc] ++
    [0x431d67c49c100d4c, 0x4cc5d4becb3e42b6, 0x597f299cfc657e2a, 0x5fcb6fab3ad6faec, 0x6c44198c4a475817]
/-- The first hash value. -/
def shaInit : List Nat :=
    [0x6a09e667f3bcc908, 0xbb67ae8584caa73b, 0x3c6ef372fe94f82b, 0xa54ff53a5f1d36f1] ++
    [0x510e527fade682d1, 0x9b05688c2b3e6c1f, 0x1f83d9abfb41bd6b, 0x5be0cd19137e2179]
/-- A 64-bit word turned right. -/
def rotr (n x : Nat) : Nat := x / 2 ^ n + x % 2 ^ n * 2 ^ (64 - n)
/-- The functions of the schedule and of the rounds. -/
def shaLow0 (x : Nat) : Nat := rotr 1 x ^^^ rotr 8 x ^^^ (x / 2 ^ 7)
def shaLow1 (x : Nat) : Nat := rotr 19 x ^^^ rotr 61 x ^^^ (x / 2 ^ 6)
def shaBig0 (x : Nat) : Nat := rotr 28 x ^^^ rotr 34 x ^^^ rotr 39 x
def shaBig1 (x : Nat) : Nat := rotr 14 x ^^^ rotr 18 x ^^^ rotr 41 x
/-- n more words of the schedule before those given, newest first. -/
def shaWords : Nat → List Nat → List Nat
  | 0, ws => ws
  | n + 1, ws =>
    shaWords n ((shaLow1 (ws.getD 1 0) + ws.getD 6 0 + shaLow0 (ws.getD 14 0) + ws.getD 15 0) % 2 ^ 64 :: ws)
/-- One round on the working words a to h. -/
def shaRound (v : List Nat) (kw : Nat × Nat) : List Nat :=
  match v with
  | [a, b, c, d, e, f, g, h] =>
    let t := h + shaBig1 e + ((e &&& f) ^^^ ((2 ^ 64 - 1 - e) &&& g)) + kw.1 + kw.2
    let u := shaBig0 a + ((a &&& b) ^^^ (a &&& c) ^^^ (b &&& c))
    [(t + u) % 2 ^ 64, a, b, c, (d + t) % 2 ^ 64, e, f, g]
  | v => v
/-- The hash value after one block of sixteen words. -/
def shaBlock (h ws : List Nat) : List Nat :=
  let v := ((shaK.zip (shaWords 64 ws.reverse).reverse)).foldl shaRound h
  List.zipWith (fun x y => (x + y) % 2 ^ 64) h v
/-- The number of a big-endian byte list. -/
def numBig (l : List Byte) : Nat := l.foldl (fun a b => 256 * a + b.toNat) 0
/-- The blocks of a padded message. -/
def shaBlocks : Nat → List Byte → List Nat → List Nat
  | 0, _, h => h
  | n + 1, m, h => shaBlocks n (m.drop 128) (shaBlock h ((List.range 16).map (fun i => numBig ((m.drop (8 * i)).take 8))))
/-- SHA-512: byte k of the digest is bits [8k+7:8k]. -/
def sha512 (m : List Byte) : BitVec 512 :=
  let n := (m.length + 17 + 127) / 128
  let pad := m ++ [0x80] ++ List.replicate (128 * n - m.length - 17) 0 ++ (bytesOf 16 (8 * m.length)).reverse
  let h := shaBlocks n pad shaInit
  BitVec.ofNat 512 (numOf (h.flatMap (fun w => (bytesOf 8 w).reverse)))

/-! ### Ed25519 -/

/-- The prime of the field. -/
def edP : Nat := 2 ^ 255 - 19
/-- The order of the base point. -/
def edL : Nat := 2 ^ 252 + 27742317777372353535851937790883648493
/-- The curve's constant d, and a square root of −1. -/
def edD : Nat := 0x52036cee2b6ffe738cc740797779e89800700a4d4141d8ab75eb4dca135978a3
def edI : Nat := 0x2b8324804fc1df0b2b4d00993dfbd7a72f431806ad2fe478c4ee1b274a0ea0b0
/-- A power modulo the prime, n bits of the exponent, the most significant first. -/
def edPow (x e : Nat) : Nat → Nat
  | 0 => 1
  | n + 1 =>
    let r := edPow x (e / 2) n
    r * r % edP * (if e % 2 = 1 then x else 1) % edP
/-- A difference modulo the prime. -/
def edSub (x y : Nat) : Nat := (x + (edP - y % edP)) % edP
/-- A point in extended coordinates X, Y, Z, T. -/
structure EdPt where
  x : Nat
  y : Nat
  z : Nat
  t : Nat
deriving DecidableEq, Repr
/-- The neutral point. -/
def edZero : EdPt := ⟨0, 1, 1, 0⟩
/-- The base point. -/
def edBase : EdPt :=
  ⟨0x216936d3cd6e53fec0a4e231fdd6dc5c692cc7609525a7b2c9562d608f25d51a,
   0x6666666666666666666666666666666666666666666666666666666666666658, 1,
   0x67875f0fd78b766566ea4e8e64abe37d20f09f80775152f56dde8ab3a5b7dda3⟩
/-- The sum of two points. -/
def EdPt.add (p q : EdPt) : EdPt :=
  let a := edSub p.y p.x * edSub q.y q.x % edP
  let b := (p.y + p.x) * (q.y + q.x) % edP
  let c := 2 * p.t * q.t % edP * edD % edP
  let d := 2 * p.z * q.z % edP
  let e := edSub b a
  let f := edSub d c
  let g := (d + c) % edP
  let h := (b + a) % edP
  ⟨e * f % edP, g * h % edP, f * g % edP, e * h % edP⟩
/-- k times a point, n bits of k. -/
def EdPt.mul (p : EdPt) (k : Nat) : Nat → EdPt
  | 0 => edZero
  | n + 1 =>
    let r := p.mul (k / 2) n
    let r := r.add r
    if k % 2 = 1 then r.add p else r
/-- Two points are one. -/
def EdPt.same (p q : EdPt) : Bool :=
  p.x * q.z % edP == q.x * p.z % edP && p.y * q.z % edP == q.y * p.z % edP
/-- A point's 32 bytes as a number. -/
def EdPt.enc (p : EdPt) : Nat :=
  let i := edPow p.z (edP - 2) 255
  p.y * i % edP + (p.x * i % edP) % 2 * 2 ^ 255
/-- The point of 32 bytes; none where there is none. -/
def edDec (k : Nat) : Option EdPt :=
  let y := k % 2 ^ 255
  let s := k / 2 ^ 255 % 2
  if y ≥ edP then none
  else
    let x2 := edSub (y * y) 1 * edPow ((edD * (y * y % edP) + 1) % edP) (edP - 2) 255 % edP
    let r := edPow x2 ((edP + 3) / 8) 255
    let r := if r * r % edP = x2 then r else r * edI % edP
    if r * r % edP ≠ x2 ∨ (r = 0 ∧ s = 1) then none
    else
      let x := if r % 2 = s then r else edP - r
      some ⟨x, y, 1, x * y % edP⟩
/-- A digest of bytes as a number modulo the order. -/
def edHash (m : List Byte) : Nat := (sha512 m).toNat % edL
/-- The secret scalar of a seed, and the half of its digest that makes nonces. -/
def edSecret (seed : BitVec 256) : Nat × Nat :=
  let h := (sha512 (bytesOf 32 seed.toNat)).toNat
  let a := h % 2 ^ 256
  (a % 2 ^ 254 / 8 * 8 + 2 ^ 254, h / 2 ^ 256)
/-- The public half of a seed (R40). -/
def edPublic (seed : BitVec 256) : BitVec 256 := BitVec.ofNat 256 (edBase.mul (edSecret seed).1 255).enc
/-- The signature of a message under a seed (R39 to R41). -/
def edSign (seed : BitVec 256) (m : List Byte) : BitVec 512 :=
  let (a, pre) := edSecret seed
  let r := edHash (bytesOf 32 pre ++ m)
  let big := (edBase.mul r 253).enc
  let k := edHash (bytesOf 32 big ++ bytesOf 32 (edPublic seed).toNat ++ m)
  BitVec.ofNat 512 (big + (r + k * a) % edL * 2 ^ 256)
/-- The signature of a message holds under a public key (R37, R38): the group equation with its cofactor. -/
def edVerify (key : BitVec 256) (m : List Byte) (sig : BitVec 512) : Bool :=
  let r := sig.toNat % 2 ^ 256
  let s := sig.toNat / 2 ^ 256
  match edDec key.toNat, edDec r with
  | some a, some q =>
    let k := edHash (bytesOf 32 r ++ bytesOf 32 key.toNat ++ m)
    decide (s < edL) && ((edBase.mul s 253).mul 8 4).same ((q.add (a.mul k 253)).mul 8 4)
  | _, _ => false

end Sys2Proof.Machine
end

