-- ==== Sys2Proof/Machine/Nor.lean ====
section
/-! DEFINITION. The signed NOR store (R37 to R39): records, their signatures, and the record of a type that is used. -/
namespace Sys2Proof.Machine

/-- A little-endian field of a record's header. -/
def recField (r : List Byte) (lo n : Nat) : Nat := numOf ((r.drop lo).take n)
/-- TYPE. -/
def recType (r : List Byte) : Nat := recField r 0 2
/-- SIGNER. -/
def recSigner (r : List Byte) : Nat := recField r 2 2
/-- GEN. -/
def recGen (r : List Byte) : Nat := recField r 4 4
/-- Payload length. -/
def recLen (r : List Byte) : Nat := recField r 8 4
/-- SVN. -/
def recSvn (r : List Byte) : Nat := recField r 12 4
/-- The signature. -/
def recSig (r : List Byte) : BitVec 512 := BitVec.ofNat 512 (recField r 64 64)
/-- The payload. -/
def recPayload (r : List Byte) : List Byte := (r.drop 128).take (recLen r)
/-- The bytes signed: bytes 0 to 63 of the header and the payload. -/
def recSigned (r : List Byte) : List Byte := r.take 64 ++ recPayload r
/-- A whole record: header, zeros where it is reserved, payload. -/
def recWhole (r : List Byte) : Bool := decide (128 + recLen r ≤ r.length) && recField r 16 48 == 0
/-- The signature holds under a key. -/
def recBy (key : BitVec 256) (r : List Byte) : Bool := recWhole r && edVerify key (recSigned r) (recSig r)

/-- The configuration records that Kilsol signed. -/
def kilsolCfgs (p : Pkg) : List (List Byte) :=
  (p.nor.map (·.2)).filter (fun r => recType r == 6 && recSigner r == 1 && recBy Config.kilsolRoot r)
/-- Owner keys that they certify (R38). -/
def ownerKeys (p : Pkg) : List (BitVec 256) := (kilsolCfgs p).flatMap (fun r => Config.cfgOwnerKeys (recPayload r))
/-- The signature of a record verifies under a key its SIGNER may use (R37 to R39). -/
def recValid (p : Pkg) (r : List Byte) : Bool :=
  match recSigner r with
  | 1 => recBy Config.kilsolRoot r
  | 2 => (ownerKeys p).any (fun k => recBy k r)
  | 3 => recBy p.devPub r
  | _ => false
/-- The record of the highest GEN in a list; of equal ones, which the manual leaves open, the one listed first (log entry 9). -/
def bestRec : List (List Byte) → Option (List Byte)
  | [] => none
  | r :: rs =>
    match bestRec rs with
    | none => some r
    | some b => if recGen b ≤ recGen r then some r else some b
/-- The valid record of a type that is used, over the slots that a condition names (R37). -/
def useRec (p : Pkg) (typ : Nat) (slot : Nat → Bool) : Option (List Byte) :=
  bestRec ((p.nor.filter (fun e => slot e.1 && recType e.2 == typ && recValid p e.2)).map (·.2))
/-- MINSVN (R38). -/
def minSvn (p : Pkg) : Nat := match useRec p 6 (fun _ => true) with | some r => Config.cfgMinSvn (recPayload r) | none => 0
/-- Stack-local ranges of direct-window uses (R116). -/
def directUses (p : Pkg) (stk : Nat) : List (Nat × Nat) :=
  match useRec p 6 (fun _ => true) with
  | some r => Config.cfgDirect (recPayload r) stk
  | none => []
/-- The image of a type in a slot that R38 accepts, or whether its SVN alone was too low. -/
def slotImage (p : Pkg) (typ slot : Nat) : Except Bool (List Byte) :=
  match bestRec ((p.nor.filter (fun e => e.1 == slot && recType e.2 == typ && recSigner e.2 != 3 && recValid p e.2)).map (·.2)) with
  | none => .error false
  | some r => if recSvn r < minSvn p then .error true else .ok r
/-- The image used: slot A, or B if A fails; else the failure code of R38. -/
def pickImage (p : Pkg) (typ : Nat) : Except Nat (Nat × List Byte) :=
  match slotImage p typ 0 with
  | .ok r => .ok (0, r)
  | .error a =>
    match slotImage p typ 1 with
    | .ok r => .ok (1, r)
    | .error b => .error (if a || b then 5 else 4)
/-- Bytes that the store holds (R37). -/
def norBytes : Nat := 2 ^ 26
/-- A record goes into a slot of the store where it still fits; the manual does not say what comes of one that does not: it is not
written (log entry 9). -/
def Pkg.norAdd (p : Pkg) (slot : Nat) (r : List Byte) : Pkg :=
  if (p.nor.map (fun e => e.2.length)).foldl (· + ·) r.length ≤ norBytes then { p with nor := p.nor ++ [(slot, r)] } else p
/-- The records that measurement block 4 covers: the harvest record and the configuration record in use (R41). -/
def activeRecs (p : Pkg) : List Byte := (useRec p 5 (fun _ => true)).getD [] ++ (useRec p 6 (fun _ => true)).getD []
/-- A record's bytes. -/
def mkRec (typ signer gen svn : Nat) (payload : List Byte) (seed : BitVec 256) : List Byte :=
  let head := bytesOf 2 typ ++ bytesOf 2 signer ++ bytesOf 4 gen ++ bytesOf 4 payload.length ++ bytesOf 4 svn ++ bytesOf 48 0
  head ++ bytesOf 64 (edSign seed (head ++ payload)).toNat ++ payload

end Sys2Proof.Machine
end

