-- ==== Sys2Proof/Machine/FrontEnd.lean ====
section
/-! DEFINITION. The front end up to admission: context commands (R46 to R51), launch queues (R53 to R58), packets (R59, R60) and
the reads of a launch (R61 to R68, R452). -/
namespace Sys2Proof.Machine

/-! ### Control space (R42, R53) -/

/-- Celeriac's control space as a target. -/
def ctlTgt : Nat := 16 * 1024
/-- A write of control space by a master: nothing from a frozen master, a violation where the table refuses it (R42, R43). -/
def State.ctlWrite (s : State) (mid off : Nat) (f : State → State) : State :=
  if s.isFrozen mid then s
  else match accCheck (s.table ctlTgt) mid .write off with
    | none => f s
    | some (why, e) => s.refuse mid ctlTgt .write off why e
/-- Offset of a register of a queue (R53). -/
def queueOff (ctx q reg : Nat) : Nat := 0x10000 + 0x1000 * ctx + 0x40 * q + reg
/-- A write of CTXCMD: only the control cores change context state, and a write while BUSY is set is ignored (R46; log entry 87). -/
def State.ctxCmd (s : State) (mid ctx : Nat) (f : State → State × Nat) : State :=
  s.ctlWrite mid 0x4000 (fun s =>
    if isCtlMid mid && decide (ctx < 64) && s.sys.busy == 0 then
      let (s, r) := f s
      { s with sys := { s.sys with ctxn := BitVec.ofNat 6 ctx, result := BitVec.ofNat 8 r, busy := 2 } }
    else s)

/-! ### CREATE (R47, R49 to R51, R109, R116, R249, R297) -/

/-- The rules of Table 3.3 that do not depend on D. -/
def descOk (d : List DWord) : Bool :=
  pf d 0 63 62 != 3 && pf d 0 60 50 == 0 && pf d 0 15 0 == 0 && pf d 1 28 0 == 0 && decide (pf d 1 63 53 ≤ pf d 1 52 42) &&
    decide (pf d 1 33 29 ≤ 16) && pf d 2 63 50 == 0 && pf d 3 63 50 == 0 && pf d 2 49 0 % 65536 == 0 &&
    ([4, 5, 6, 7] : List Nat).all (fun i => pf d i 63 55 == 0) && pf d 4 54 0 % 65536 == 0 && pf d 5 54 0 % 65536 == 0 &&
    pf d 6 54 0 % 64 == 0 && pf d 7 54 0 % 4096 == 0
/-- The tiles that serve compute and are granted, ascending (R51). -/
def grantedTiles (s : State) (c : Ctx) : List Nat :=
  (List.range 8).filter (fun t => s.pkg.hv.tlive.getLsbD t && c.tmask.testBit t)
/-- The devices of a mode over the tiles (Table 3.4); none where the mode needs more. -/
def devicesOf (mode : Nat) (ts : List Nat) : Option (List (List Nat)) :=
  let d := ts.length
  match mode with
  | 0 => if d ≥ 1 then some [ts] else none
  | 1 => if d ≥ 2 then some [ts.take ((d + 1) / 2), ts.drop ((d + 1) / 2)] else none
  | _ => if d ≥ 1 then some (ts.map (fun t => [t])) else none
/-- Ranges of a tile's stacks that an extent must leave clear: other contexts' extents, the direct window's uses. -/
def usedOn (s : State) (tile : Nat) : List (Nat × Nat) :=
  s.ctxs.filterMap (fun c => (alGet c.2.ext tile).map (fun b => (b, b + c.2.extBytes))) ++
    directUses s.pkg (2 * tile) ++ directUses s.pkg (2 * tile + 1)
/-- The lowest 64 KiB-aligned range of n bytes that is clear. -/
def findExt (cap : Nat) (used : List (Nat × Nat)) (n : Nat) : Nat → Nat → Option Nat
  | 0, _ => none
  | fuel + 1, lo =>
    if lo + n > cap then none
    else match used.find? (fun u => decide (u.1 < lo + n) && decide (lo < u.2)) with
      | some u => findExt cap used n fuel (roundUpTo u.2 65536)
      | none => some lo
/-- The extents of a new context: those of the context it coincides with, also where a harvest has changed its tile list since (log entry
108), else a range for every tile. -/
def extentsFor (s : State) (c : Ctx) : Option (AL Nat) :=
  match s.ctxs.find? (fun x => x.2.pbase == c.pbase && x.2.psize == c.psize && x.2.mode == c.mode && x.2.tmask == c.tmask) with
  | some x => some x.2.ext
  | none => c.devs.flatten.foldl (fun (o : Option (AL Nat)) t =>
      match o with
      | none => none
      | some l =>
        let used := usedOn s t
        (findExt (min (stackCap s.mem (2 * t)) (stackCap s.mem (2 * t + 1))) used c.extBytes (used.length + 1) 0).map (fun b => alSet l t b)) (some [])
/-- The placement region overlaps that of a live context that it does not coincide with (R50). -/
def regionConflict (s : State) (c : Ctx) : Bool :=
  s.ctxs.any (fun x => decide (x.2.pbase < c.pbase + c.psize) && decide (c.pbase < x.2.pbase + x.2.psize) &&
    !(x.2.pbase == c.pbase && x.2.psize == c.psize && x.2.mode == c.mode && x.2.tmask == c.tmask))
/-- PARTM of all contexts stays within 16 MiB on every tile (R109). -/
def partmFits (s : State) (c : Ctx) : Bool :=
  c.devs.flatten.all (fun t =>
    decide (((s.ctxs.filter (fun x => x.2.devs.flatten.contains t)).map (·.2.partm)).foldl (· + ·) c.partm ≤ 16))
/-- Words of a number. -/
def wordsOf (n v : Nat) : List DWord := (List.range n).map (fun i => dw (v / 2 ^ (64 * i)))
/-- The fault-area header's fields into the context (R297). -/
def Ctx.withHeader (c : Ctx) (h : Nat) : Ctx :=
  { c with vec := fld h 182 128, route := fld h 207 192, sava := fld h 310 256, savn := fld h 374 320 }
/-- The header keeps R297's rules. Its reserved fields are ignored, since R297 does not name them (log entry 110). -/
def Ctx.headerOk (c : Ctx) : Bool := c.vec % 12 == 0 && c.sava % 65536 == 0 && decide (c.savn ≥ 0x25000000)
/-- The formats and the header of a new context, read under its page tables: none where a read fails or a rule breaks. -/
def State.readNew (s : State) (ctx : Nat) (c : Ctx) : State × Option Ctx :=
  let s0 := { s with ctxs := alSet s.ctxs ctx c }
  let (s1, f) := feRead (feWho ctx) c.ftab 3 64 s0
  match f with
  | .error _ => (s1, none)
  | .ok f =>
    let ft := wordsOf 8 f
    if !ft.all (fun e => e == 0 || progOk e) then (s1, none)
    else
      let (s2, h) := feRead (feWho ctx) c.flta 3 48 s1
      match h with
      | .error _ => (s2, none)
      | .ok h =>
        let c := { (c.withHeader h) with ft := ft }
        (s2, if c.headerOk then some c else none)
/-- What a failed CREATE leaves: the violations of its reads and nothing else. -/
def State.undone (s s' : State) : State := { s' with ctxs := s.ctxs, mem := s.mem, stks := s.stks }
/-- CREATE: the state and RESULT. -/
def State.create (s : State) (ctx desc : Nat) : State × Nat :=
  if (s.ctxD ctx).st != .free then (s, 2)
  else
    match feRead ⟨feMid, 16, ctx, none, false, some 0⟩ (desc % 2 ^ 44 * 64) 2 64 s with
    | (s', .error _) => (s.undone s', 1)
    | (s', .ok d) =>
      let s := s.undone s'
      let c := { Ctx.empty with st := .live, desc := wordsOf 8 d }
      if !descOk c.desc then (s, 1)
      else match devicesOf c.mode (grantedTiles s c) with
        | none => (s, 4)
        | some devs =>
          let c := { c with devs := devs }
          if c.psize = 0 ∨ c.psize % (65536 * c.dCount) ≠ 0 then (s, 1)
          else
            let ext := extentsFor s c
            let c := { c with ext := ext.getD [] }
            match s.readNew ctx c with
            | (s', none) => (s.undone s', 1)
            | (s', some c) =>
              if regionConflict s c || ext.isNone then (s.undone s', 3)
              else if !partmFits s c then (s.undone s', 3)
              else ({ s' with ctxs := alSet s'.ctxs ctx c }, 0)
/-- CREATE (R47). -/
def execCreate (mid ctx desc : Nat) (st : State) : Out := .next (st.ctxCmd mid ctx (fun s => s.create ctx desc))

/-! ### DRAIN, RESUME, DESTROY -/

/-- A launch of the context that the front end has admitted. -/
def State.hasAdmitted (s : State) (ctx : Nat) : Bool := s.launches.any (fun l => l.2.ctx == ctx && l.2.phase == .admitted)
/-- A DRAINING context with no admitted launch left is DRAINED (R47). -/
def State.settleDrains (s : State) : State :=
  { s with ctxs := s.ctxs.map (fun c => if c.2.st == .draining && !s.hasAdmitted c.1 then (c.1, { c.2 with st := .drained }) else c) }
/-- DRAIN, of one context or of all that are LIVE (R47, R48): the state and RESULT. A context that an earlier DRAIN left DRAINING is
resumed too after the harvest: only one that was DRAINED before stays so (R48). -/
def State.drainCtx (s : State) (all : Bool) (ctx : Nat) : State × Nat :=
  if all then
    let cs : AL Ctx := s.ctxs.map (fun c => if c.2.st == .live || c.2.st == .draining then
      (c.1, { c.2 with st := .draining, allDrained := true }) else c)
    ({ s with ctxs := cs, sys := { s.sys with allDrain := true } }.settleDrains, 0)
  else if (s.ctxD ctx).st == .live then ((s.modCtx ctx (fun c => { c with st := .draining })).settleDrains, 0)
  else (s, 2)
/-- DRAIN (R47). -/
def execDrain (mid : Nat) (all : Bool) (ctx : Nat) (st : State) : Out := .next (st.ctxCmd mid ctx (fun s => s.drainCtx all ctx))
/-- The header of the fault area read again; a read that fails leaves the fields as they were (R297). -/
def State.rereadHeader (s : State) (ctx : Nat) : State :=
  match feRead (feWho ctx) (s.ctxD ctx).flta 3 48 s with
  | (s, .error _) => s
  | (s, .ok h) => s.modCtx ctx (fun c => c.withHeader h)
/-- A DRAINED context is LIVE again. -/
def State.resumeCtx (s : State) (ctx : Nat) : State :=
  (s.modCtx ctx (fun c => { c with st := .live, allDrained := false })).rereadHeader ctx
/-- RESUME (R47). -/
def execResume (mid ctx : Nat) (st : State) : Out :=
  .next (st.ctxCmd mid ctx (fun s => if (s.ctxD ctx).st == .drained then (s.resumeCtx ctx, 0) else (s, 2)))
/-- DESTROY (R47). -/
def execDestroy (mid ctx : Nat) (st : State) : Out :=
  .next (st.ctxCmd mid ctx (fun s => if (s.ctxD ctx).st == .free then (s, 2) else (s.destroyCtx ctx none, 0)))
/-- A CTXCMD write whose OP is not assigned gives RESULT 6 (Table 3.1). -/
def execCtxcmdBadOp (mid op ctx : Nat) (st : State) : Out :=
  .next (st.ctxCmd mid ctx (fun s => if 1 ≤ op ∧ op ≤ 4 then (s, s.sys.result.toNat) else (s, 6)))

/-! ### Queues (R53 to R56) -/

/-- Changes a queue of a context that is not FREE. -/
def State.modQueue (s : State) (ctx q : Nat) (f : Queue → Queue) : State :=
  if (s.ctxD ctx).st == .free || decide (q ≥ 64) then s
  else s.modCtx ctx (fun c => { c with queues := alMod c.queues q .empty f })
/-- A queue of a context. -/
def State.queueD (s : State) (ctx q : Nat) : Queue := alGetD (s.ctxD ctx).queues q .empty
/-- A queue of a MODE 2 context beyond its devices cannot be enabled (Table 3.4). -/
def Ctx.canEnable (c : Ctx) (q : Nat) : Bool := decide (c.queueDev q < c.devs.length)
/-- QCFG's write (R54). -/
def Queue.cfg (q : Queue) (can : Bool) (v : DWord) : Queue :=
  let logsz := if q.en then q.logsz else bits v 61 58
  let q := { q with drop := tbit v 62, logsz := logsz }
  if tbit v 63 then { q with en := can && decide (logsz ≤ 12), head := 0, acc := 0, ready := [] }
  else { q with en := false, ready := [] }
/-- QCFG_WRITE (R54). -/
def execQcfgWrite (mid ctx q : Nat) (v : DWord) (st : State) : Out :=
  .next (st.ctlWrite mid (queueOff ctx q 8) (fun s => s.modQueue ctx q (fun x => x.cfg ((s.ctxD ctx).canEnable q) v)))
/-- QDB's write (R55). -/
def Queue.ring (q : Queue) (v : DWord) : Queue :=
  let slot := v.toNat
  if v.toNat ≥ 4096 || !q.en || decide (slot ≥ 2 ^ q.logsz) || q.ready.contains slot then { q with err := true }
  else { q with ready := q.ready ++ [slot] }
/-- QUEUE_DOORBELL: a spawn edge, whose source action comes first (R55, R56). -/
def execQueueDoorbell (mid ctx q : Nat) (v : DWord) (st : State) : Out :=
  .next (st.ctlWrite mid (queueOff ctx q 16) (fun s =>
    let s := match midCore mid with | some c => s.drainCore c | none => s
    s.modQueue ctx q (fun x => x.ring v)))
/-- QSTS_WRITE: STALL and ERR clear where a 1 is written (R58). -/
def execQstsWrite (mid ctx q : Nat) (v : DWord) (st : State) : Out :=
  .next (st.ctlWrite mid (queueOff ctx q 24) (fun s => s.modQueue ctx q (fun x =>
    { x with stall := x.stall && !tbit v 1, err := x.err && !tbit v 0 })))

/-! ### Packets (R59, R60) -/

/-- The thread count of a launch and its first index stay in range (R59, R68). -/
def countFits (l : Launch) (n : Nat) : Bool := decide (n ≤ 2 ^ 48) && decide (l.baseidx + n ≤ 2 ^ 64)
/-- The limits of Table 3.6. -/
def packetLimits (l : Launch) : Bool :=
  let p := l.pkt
  let al (i lo : Nat) : Bool := pf p i (lo - 1) 0 == 0
  l.typ != 3 && decide (8 ≤ l.ncap) && decide (l.ncap ≤ 32) && decide (16 ≤ l.rgran) && decide (l.rgran ≤ 48) &&
    decide (l.sgran ≤ 32) && decide (4 ≤ l.lgran) && decide (l.lgran ≤ 16) && decide (l.rgran + l.sgran + l.lgran ≤ 64) &&
    decide (l.spill ≤ 64) && pf p 1 63 55 == 0 && l.entry % 12 == 0 && decide (l.ucnt ≤ 64) && pf p 2 56 55 == 0 && al 2 6 &&
    (match l.typ with
     | 0 => countFits l l.countW.toNat
     | 1 => pf p 3 63 55 == 0 && al 3 3
     | _ => decide (l.countW.toNat < 4096)) &&
    pf p 9 63 55 == 0 && al 9 6 && ([10, 11] : List Nat).all (fun i => pf p i 61 55 == 0 && al i 6) && pf p 12 34 32 == 0 &&
    al 13 6 && decide (l.nrole ≤ 4) && pf p 15 60 55 == 0 && al 15 4
/-- The rules of R60; live says that the node id is live in the device. -/
def packetRules (l : Launch) (live : Bool) : Bool :=
  decide (l.gcap * Config.width * l.ncap * 4 ≤ l.rgran * Config.granBytes) &&
    (if l.typ = 2 then !l.ord && l.ncoal != 0 && l.nrec != 0 && decide (l.nrec ≤ 8) && decide (l.ncoal ≤ Config.width) && !live
     else l.ncoal == 0 && l.ntimer == 0 && l.nrec == 0) &&
    (l.ord || (l.fwd == 0 && l.km1 == 0)) && decide (l.fwd < 2 ^ l.ncap) && (!l.ord || l.nrole == 0)
/-- A node id is live in a device (R60, R64). -/
def nodeLive (s : State) (ctx dev id : Nat) : Bool := s.nodes.any (fun n => n.1 == ctx && n.2.1 == dev && n.2.2.2 == id)

/-! ### Acceptance (R55 to R58, R65) -/

/-- Where a virtual address of a context lies, whatever its page grants. -/
def fePa (s : State) (ctx va : Nat) : Option Nat :=
  match translate (feWho ctx) .command va s with
  | .ok (pa, _) _ => some pa
  | .error _ _ => none
/-- A launch that the front end holds owns the record at an address of a context: it names the same address, or both lie at one place. -/
def ownsRecord (s : State) (ctx va : Nat) (l : Launch) : Bool :=
  (l.ctx == ctx && l.compl == va) ||
    (match fePa s ctx va, fePa s l.ctx l.compl with
     | some a, some b => a == b
     | _, _ => false)
/-- A dependence as it stands at acceptance (R65): a launch that the front end holds owns the record, or it is to be read. Of several
such launches it follows the one accepted last (log entry 91). -/
def depAt (s : State) (ctx : Nat) (w : DWord) : Dep :=
  if !tbit w 63 then .none
  else
    let early := tbit w 62
    match (s.launches.filter (fun l => ownsRecord s ctx (bits w 54 6 * 64) l.2)).getLast? with
    | some (k, l) => if early && l.trigd then .satisfied else .onLaunch k early
    | none => .toRead
/-- Both dependences let the launch run. -/
def Launch.depsDone (l : Launch) : Bool := l.deps.all (fun d => d == .none || d == .satisfied)
/-- A dependence has failed. -/
def Launch.depFailed (l : Launch) : Bool := l.deps.any (· == .failed)
/-- A launch of a drop queue is past its deadline before it is admitted (R67). -/
def Launch.missed (l : Launch) (now : Nat) : Bool :=
  l.drop && l.deadline != 0 && l.phase == .accepted && decide (now > l.deadline)
/-- Completion that needs no thread: MISSED before DEPFAIL, then a count of 0 (R65, R67, R68, R75). -/
def State.settleAccepted (s : State) (lid : Nat) : State :=
  match s.launch? lid with
  | none => s
  | some l =>
    if l.phase != .accepted then s
    else if l.depFailed then (if l.missed s.qclk then s.complete lid 3 else s.complete lid 8)
    else if l.depsDone && l.count == some 0 && l.typ != 2 && !l.missed s.qclk then s.complete lid 2
    else s
/-- The launch that a packet asks for, as accepted. -/
def newLaunch (s : State) (ctx q slotVa : Nat) (pkt : List DWord) : Launch :=
  let l : Launch := {
    ctx := ctx, dev := (s.ctxD ctx).queueDev q, queue := q, slotVa := slotVa, pkt := pkt, drop := (s.queueD ctx q).drop
    aseq := s.aseq, phase := .accepted, deps := [], count := none, uni := none, dflt := none, roles := none, tadm := 0, nthr := 0
    frec := none, faulted := false, trigd := false, trigs := false, nextGrp := 0, blocked := none, resv := [], victims := [], iidNext := []
    pubs := [] }
  { l with
    count := if l.typ = 0 then some l.countW.toNat else if l.typ = 2 then some 0 else none
    uni := if l.ucnt = 0 then some [] else none
    dflt := if l.ord then none else some []
    roles := if l.nrole = 0 then some [] else none }
/-- Steps 2 to 5 of R55: SEQ against ACC, the ready bit, HEAD and ACC, then the rest of the packet and PENDING. -/
def State.acceptPacket (s : State) (ctx q slotVa : Nat) (pkt : List DWord) : State :=
  let x := s.queueD ctx q
  let l := newLaunch s ctx q slotVa pkt
  let ok := l.seq == x.acc % 2 ^ 24 && packetLimits l && packetRules l (nodeLive s ctx l.dev l.countW.toNat)
  let s := s.modQueue ctx q (fun x => { x with
    ready := x.ready.filter (· != x.head), head := (x.head + 1) % 2 ^ x.logsz, acc := x.acc + 1 })
  let deps := [depAt s ctx (wordAt pkt 10), depAt s ctx (wordAt pkt 11)]
  let (lid, s) := s.newId
  let s := { s with launches := alSet s.launches lid { l with deps := if ok then deps else [] }, aseq := s.aseq + 1 }
  if ok then (s.writeStatus { l with deps := deps } 0).settleAccepted lid else s.complete lid 5
/-- Launches the front end holds at most (R55). -/
def acceptMax : Nat := 4096
/-- SLOT_ACCEPT (R55, R58): the ready slot HEAD of an enabled queue; a packet that cannot be read stalls the queue. -/
def execSlotAccept (ctx q : Nat) (st : State) : Out := .next (
  let x := st.queueD ctx q
  if (st.ctxD ctx).st == .free || !x.en || x.stall || !x.ready.contains x.head || decide (st.launches.length ≥ acceptMax) then st
  else
    let va := x.base + 128 * x.head
    match feRead (feWho ctx) va 3 128 st with
    | (s, .ok p) => s.acceptPacket ctx q va (wordsOf 16 p)
    | (s, .error (cause, addr)) => ((s.modQueue ctx q (fun x => { x with stall := true })).launchRecord ctx cause va addr 0).1)

/-! ### Reads before admission (R61 to R63, R65, R68, R452) -/

/-- DREC_READ (R65): a final status of OK satisfies the dependence, anything else fails it. -/
def execDrecRead (lid dep : Nat) (st : State) : Out := .next (
  match st.launch? lid with
  | none => st
  | some l =>
    if l.phase != .accepted || l.deps.getD dep .none != .toRead then st
    else
      let (s, r) := feRead (feWho l.ctx) (pf l.pkt (10 + dep) 54 6 * 64) 2 8 st
      let d : Dep := match r with
        | .ok v => if v / 2 ^ 56 = 2 then .satisfied else .failed
        | .error _ => .failed
      (s.modLaunch lid (fun l => { l with deps := l.deps.set dep d })).settleAccepted lid)
/-- A read of a launch's tables is due: its dependences are satisfied, it is not admitted and not missed. -/
def Launch.readsDue (l : Launch) (now : Nat) : Bool := l.phase == .accepted && l.depsDone && !l.missed now
/-- A failed read completes the launch FAULT with a LAUNCH record (R452). -/
def State.readFailed (s : State) (lid : Nat) (l : Launch) (f : Nat × Nat) : State :=
  let (s, r) := s.launchRecord l.ctx f.1 l.slotVa f.2 (wordAt l.pkt 0).toNat
  (s.launchFault (some lid) r).complete lid 4
/-- One read of n bytes for a launch. -/
def State.launchRead (s : State) (lid va n : Nat) (due : Launch → Bool) (f : State → Launch → Nat → State) : State :=
  match s.launch? lid with
  | none => s
  | some l =>
    if l.readsDue s.qclk && due l then
      match feRead (feWho l.ctx) va (n / 64 + 2) n s with
      | (s, .ok v) => f s l v
      | (s, .error e) => s.readFailed lid l e
    else s
/-- A launch's packet, or an empty one. -/
def State.launchD (s : State) (lid : Nat) : Launch := (s.launch? lid).getD (newLaunch s 0 0 0 [])
/-- COUNT_READ (R68). -/
def execCountRead (lid : Nat) (st : State) : Out := .next (
  st.launchRead lid (bits (st.launchD lid).countW 54 0) 8 (fun l => l.count.isNone) (fun s l v =>
    if countFits l v then (s.modLaunch lid (fun l => { l with count := some v })).settleAccepted lid else s.complete lid 6))
/-- Words of 32 bits of a number. -/
def words32 (n v : Nat) : List Word := (List.range n).map (fun i => w32 (v / 2 ^ (32 * i)))
/-- DEFAULTS_READ (R62). -/
def execDefaultsRead (lid : Nat) (st : State) : Out := .next (
  let l := st.launchD lid
  st.launchRead lid l.deft (128 * (l.km1 + 1)) (fun l => l.dflt.isNone) (fun s l v =>
    s.modLaunch lid (fun x => { x with dflt := some (words32 (32 * (l.km1 + 1)) v) })))
/-- UNIFORM_BLOCK_READ (R61). -/
def execUniformBlockRead (lid : Nat) (st : State) : Out := .next (
  let l := st.launchD lid
  st.launchRead lid l.ublk (4 * l.ucnt) (fun l => l.uni.isNone) (fun s l v =>
    s.modLaunch lid (fun x => { x with uni := some (words32 l.ucnt v) })))
/-- A role entry keeps the rules of R63 and Table 3.7. -/
def roleOk (e : DWord × DWord) : Bool :=
  bits e.1 63 55 == 0 && bits e.1 54 0 % 12 == 0 && decide (bits e.2 63 56 ≤ bits e.2 55 48) &&
    decide (bits e.2 43 36 < bits e.2 35 28) && bits e.2 27 0 == 0
/-- ROLE_TABLE_READ (R63, R452): an entry that breaks a rule makes the packet malformed. -/
def execRoleTableRead (lid : Nat) (st : State) : Out := .next (
  let l := st.launchD lid
  st.launchRead lid l.rtab (16 * l.nrole) (fun l => l.roles.isNone) (fun s l v =>
    let rs := (List.range l.nrole).map (fun k => (dw (v / 2 ^ (128 * k)), dw (v / 2 ^ (128 * k + 64))))
    if rs.all roleOk then s.modLaunch lid (fun x => { x with roles := some rs }) else s.complete lid 5))
/-- DEADLINE_MISS (R67). -/
def execDeadlineMiss (lid : Nat) (st : State) : Out := .next (
  match st.launch? lid with
  | none => st
  | some l => if l.missed st.qclk then st.complete lid 3 else st)

end Sys2Proof.Machine
end

