-- ==== Sys2Proof/Machine/Place.lean ====
section
/-! DEFINITION. Admission (R72 to R75), placement (R80 to R86), bins (R87 to R92), roles (R95), pre-emption (R76 to R79, R310 to
R312), triggers and completion (R64 to R70, R94). -/
namespace Sys2Proof.Machine

/-! ### Sizes -/

/-- Threads of a direct or indirect launch. -/
def Launch.threads (l : Launch) : Nat := if l.typ = 2 then 0 else l.count.getD 0
/-- Its groups (R61). -/
def Launch.ngroups (l : Launch) : Nat := (l.threads + Config.width - 1) / Config.width
/-- Threads of group j. -/
def Launch.groupSize (l : Launch) (j : Nat) : Nat := min Config.width (l.threads - Config.width * j)
/-- Granules of a residency. -/
def Launch.grans (l : Launch) : Nat := l.rgran + l.sgran + l.lgran

/-! ### Room on cores (R74, R80 to R82) -/

/-- The tiles of a launch's device that serve compute, in device order (R49). -/
def deviceTiles (s : State) (l : Launch) : List Nat :=
  ((s.ctxD l.ctx).devs.getD l.dev []).filter (fun t => s.pkg.hv.tlive.getLsbD t)
/-- A core is live (R30). -/
def coreLive (s : State) (core : Nat) : Bool := (alGetD s.pkg.hv.cores (coreTile core) (BitVec.allOnes 64)).getLsbD (core % 64)
/-- The live cores of a tile. -/
def tileCores (s : State) (t : Nat) : List Nat := ((List.range 64).map (fun c => t * 64 + c)).filter (coreLive s)
/-- Threads resident on a core. -/
def threadsOn (s : State) (core : Nat) : Nat :=
  ((s.lanes.filter (fun l => laneCore l.1 == core)).map (fun l => l.2.slots.length)).foldl (· + ·) 0
/-- Groups of a launch that stand on a core or are saved there (R79, R81). -/
def groupsOn (s : State) (lid core : Nat) : Nat :=
  (s.grps.filter (fun g => g.2.launch == some lid && laneCore g.2.lane == core)).length
/-- Groups of a launch on a tile. -/
def groupsInTile (s : State) (lid t : Nat) : Nat :=
  (s.grps.filter (fun g => g.2.launch == some lid && coreTile (laneCore g.2.lane) == t)).length
/-- What blocked launches of earlier keys have reserved under a key of a core (R74). -/
def reserved (s : State) (l : Launch) (core key : Nat) : Nat :=
  (s.launches.map (fun b =>
    if b.2.blocked.isSome && keyLt b.2.key l.key && ((s.ctxD b.2.ctx).devs.getD b.2.dev []).contains (coreTile core) then
      alGetD b.2.resv key 0
    else 0)).foldl Nat.max 0
/-- Room for a group of n threads on a lane beside what is reserved. -/
def laneRoom (s : State) (l : Launch) (core n lane : Nat) : Bool :=
  let x := s.laneD lane
  decide (x.active.length + x.waiting.length + reserved s l core (grpKey lane) < Config.groupsPerLane) &&
    decide (n + reserved s l core (thrKey lane) ≤ (freeSlots s lane).length)
/-- R82's lane rule: the most free thread slots, ties to the lower number. -/
def laneFor (s : State) (l : Launch) (core n : Nat) : Option Nat :=
  ((List.range Config.lanesPerCore).map (coreLane core)).foldl (fun o x =>
    if laneRoom s l core n x then
      match o with
      | none => some x
      | some y => if (freeSlots s y).length < (freeSlots s x).length then some x else o
    else o) none
/-- A core taken by pre-emption for launch b has yet to take its residency: b has groups to place (R77). -/
def coreOwed (s : State) (b : Nat × Launch) (core : Nat) : Bool :=
  b.2.victims.contains core && decide (b.2.nextGrp < b.2.ngroups) && (s.resOn b.1 core).isNone
/-- A saved residency of an earlier key waits to be restored on the core (R78), or the core is owed to a launch of an earlier key (R77). -/
def workAhead (s : State) (l : Launch) (core : Nat) : Bool :=
  s.ress.any (fun r => r.2.core == core && r.2.saved &&
    (match s.launch? r.2.launch with | some x => keyLt x.key l.key | none => false)) ||
    s.launches.any (fun b => keyLt b.2.key l.key && coreOwed s b core)
/-- The lane on which a core that holds a residency of the launch takes one more group. -/
def takesGroup (s : State) (lid : Nat) (l : Launch) (n core : Nat) : Option Nat :=
  match s.resOn lid core with
  | some (_, r) =>
    if r.saved || r.saving || decide (groupsOn s lid core ≥ l.gcap) || workAhead s l core then none else laneFor s l core n
  | none => none
/-- The lane on which a core takes a new residency of the launch with a group. -/
def takesRes (s : State) (lid : Nat) (l : Launch) (n core : Nat) : Option Nat :=
  if (s.resOn lid core).isSome || !resFits s core l || workAhead s l core ||
      decide (l.grans + reserved s l core core > (s.coreD core).freeGrans.length) then none
  else laneFor s l core n
/-- Room on one core. -/
def coreSpot (s : State) (lid : Nat) (l : Launch) (n core : Nat) : Option Nat :=
  (takesGroup s lid l n core).orElse (fun _ => takesRes s lid l n core)
/-- Cores in the order of R82: fewest resident threads, then number. -/
def coreOrder (s : State) (cs : List Nat) : List Nat :=
  (isort (fun a b => decide (a.1 ≤ b.1)) (cs.map (fun c => (threadsOn s c, c)))).map (·.2)
/-- R82 steps 2 to 4 over cores: the core and the lane. -/
def spotIn (s : State) (lid : Nat) (l : Launch) (n : Nat) (cs : List Nat) : Option (Nat × Nat) :=
  let cs := coreOrder s cs
  (cs.findSome? (fun c => (takesGroup s lid l n c).map (fun x => (c, x)))).orElse
    (fun _ => cs.findSome? (fun c => (takesRes s lid l n c).map (fun x => (c, x))))
/-- R82: where the next group of a launch goes; Celeriac reaches no tile behind a fenced link of its own (R18). -/
def placeSpot (s : State) (lid : Nat) (l : Launch) (n : Nat) : Option (Nat × Nat) :=
  let ts := (isort (fun a b => decide (a.1 ≤ b.1)) (((deviceTiles s l).filter (fun t => !s.pkg.fenced.contains (24 + t))).map (fun t => (groupsInTile s lid t, t)))).map (·.2)
  ts.findSome? (fun t => spotIn s lid l n (tileCores s t))

/-! ### Starting threads (R61, R64, R154) -/

/-- Stacks for n threads (R61): their bounds and the arena after. -/
def takeStacks (c : Ctx) (kb : Nat) : Nat → Option (List (Nat × Nat) × Ctx)
  | 0 => some ([], c)
  | n + 1 =>
    match takeStack c kb with
    | none => none
    | some (b, c') => (takeStacks c' kb n).map (fun r => (b :: r.1, r.2))
/-- Makes threads, each of an identity, a PC and its registers, on stacks taken; none without stacks. -/
def State.makeThreads (s : State) (l : Launch) (ts : List (ThId × Nat × List Word)) : Option (List Nat × State) :=
  match takeStacks (s.ctxD l.ctx) l.stkkb ts.length with
  | none => none
  | some (ks, c) =>
    let s := s.modCtx l.ctx (fun _ => c)
    some ((ts.zip ks).foldl (fun (r : List Nat × State) t =>
      let (k, s) := r.2.newId
      (r.1 ++ [k], { s with thrs := alSet s.thrs k (Thr.start t.1.1 t.1.2.1 t.1.2.2 t.2.2 t.2.1) })) ([], s))
/-- Argument registers of a launch. -/
def Launch.args (l : Launch) : List Word := (List.range 8).map l.arg
/-- The residency of a launch on a core, created where there is none (R80). -/
def State.residency (s : State) (lid core : Nat) (l : Launch) : Nat × State :=
  match s.resOn lid core with
  | some (rid, _) => (rid, s)
  | none => s.newRes lid core l
/-- Seats threads as a group of a launch; their start is the target of their spawn edges (R133, R136). -/
def State.seatGroup (s : State) (lid : Nat) (l : Launch) (core lane : Nat) (no : Word) (role : Nat) (ts : List Nat) : Nat × State :=
  let (rid, s) := s.residency lid core l
  let (g, s) := (s.invalidate core l.ctx).place (some lid) l.ctx rid lane no role ts
  (g, s.tookLane lane l.key)

/-! ### Admission (R72 to R75) -/

/-- Everything a launch reads before admission has been read. -/
def Launch.readsDone (l : Launch) : Bool := l.count.isSome && l.uni.isSome && l.dflt.isSome && l.roles.isSome
/-- A launch is eligible (R72); a node launch whose id is live is not (log entry 68). -/
def eligible (s : State) (l : Launch) : Bool :=
  l.phase == .accepted && (s.ctxD l.ctx).st == .live && l.depsDone && l.readsDone && !l.missed s.qclk &&
    (if l.typ = 2 then !nodeLive s l.ctx l.dev l.nodeId else l.count != some 0)
/-- The first residency of a launch fits, with the stacks of its first group. -/
def admitFits (s : State) (lid : Nat) (l : Launch) : Bool :=
  l.typ == 2 ||
    ((placeSpot s lid l (l.groupSize 0)).isSome && (takeStacks (s.ctxD l.ctx) l.stkkb (l.groupSize 0)).isSome)
/-- Launches of one device that are admitted at once. -/
def admitMax : Nat := 256
/-- Eligible launches of a launch's device with an earlier key. -/
def earlierEligible (s : State) (l : Launch) : List (Nat × Launch) :=
  s.launches.filter (fun x => x.2.ctx == l.ctx && x.2.dev == l.dev && eligible s x.2 && keyLt x.2.key l.key)
/-- TADM in the completion record (R75). -/
def State.writeTadm (s : State) (l : Launch) : State :=
  match feWrite (feWho l.ctx) (l.compl + 8) 8 s.qclk s with
  | (s, none) => s
  | (s, some (cause, _)) => (s.launchRecord l.ctx cause l.slotVa l.compl (wordAt l.pkt 0).toNat).1
/-- Admission: TADM; a node launch installs its node (R64). -/
def State.takeIn (s : State) (lid : Nat) (l : Launch) : State :=
  let s := (s.writeTadm l).modLaunch lid (fun x => { x with phase := .admitted, tadm := s.qclk })
  if l.typ = 2 then { s with nodes := s.nodes ++ [(l.ctx, l.dev, lid, l.nodeId)] } else s
/-- LAUNCH_ADMIT (R74): in key order, with backfill; a launch that does not fit is blocked. -/
def execLaunchAdmit (lid : Nat) (st : State) : Out := .next (
  match st.launch? lid with
  | none => st
  | some l =>
    let ahead := earlierEligible st l
    if !eligible st l || ahead.any (fun x => x.2.blocked.isNone || admitFits st x.1 x.2 || (l.deadline == 0 && x.2.deadline != 0)) then st
    else if (deviceTiles st l).isEmpty then st.complete lid 7
    else if (st.launches.filter (fun x => x.2.ctx == l.ctx && x.2.dev == l.dev && x.2.phase == .admitted)).length ≥ admitMax then st
    else if admitFits st lid l then st.takeIn lid l
    else st.modLaunch lid (fun x => { x with blocked := x.blocked.orElse (fun _ => some st.qclk) }))

/-! ### Groups (R82 to R86) -/

/-- An item has exited: no thread of it is left, or it waits only for its children's ends. -/
def itemGone (s : State) (lid i : Nat) : Bool :=
  !s.thrs.any (fun t => t.2.id.launch == some lid && t.2.id.item && t.2.id.iid.toNat == i && t.2.loc != .parked true)
/-- A forwarding reservation is over: every item that may read it has read each of its entries that it may read, or has exited (R86). -/
def fwdOver (s : State) (r : FwdRes) : Bool :=
  match s.launch? r.launch with
  | none => true
  | some l =>
    let last := min r.last (l.baseidx + l.threads - 1)
    decide (last < l.baseidx + Config.width * l.nextGrp) &&
      (List.range (last + 1 - r.first)).all (fun j =>
        let i := r.first + j
        itemGone s r.launch i || (List.range (l.km1 + 1)).all (fun d =>
          decide (i - (d + 1) ≥ r.first) || (bitList 32 l.fwd).all (fun f => r.seen.contains (i, i - (d + 1), f))))
/-- A core's reservations without those that are over. -/
def liveFwd (s : State) (core : Nat) : List FwdRes := (s.coreD core).fwd.filter (fun r => !fwdOver s r)
/-- Entries of a forwarding buffer (R86). -/
def fwdEntries : Nat := 256
/-- Entries a group of an ordered launch reserves. -/
def Launch.fwdNeed (l : Launch) : Nat := if l.ord then (l.km1 + 1) * popN 32 l.fwd else 0
/-- The reservation fits on a core. -/
def fwdFits (s : State) (l : Launch) (core : Nat) : Bool :=
  decide (((liveFwd s core).map (·.n)).foldl (· + ·) l.fwdNeed ≤ fwdEntries)
/-- Makes the reservation of group j: items from the group's last KM1 + 1 on may be read up to last + KM1 + 1. -/
def State.reserveFwd (s : State) (lid : Nat) (l : Launch) (core j : Nat) : State :=
  if l.fwdNeed = 0 then s
  else
    let last := l.baseidx + Config.width * j + l.groupSize j - 1
    let live := liveFwd s core
    s.modCore core (fun c => { c with fwd := live ++ [⟨lid, j, l.fwdNeed, last + 1, last + l.km1 + 1, []⟩] })
/-- The group with the lowest unfinished item of an ordered launch is saved (R85). -/
def oldestSaved (s : State) (lid : Nat) (l : Launch) : Bool :=
  l.ord && (match oldestItem s lid with
    | none => false
    | some i => s.grps.any (fun g => g.2.launch == some lid &&
        (match s.res? g.2.res with | some r => r.saved | none => false) &&
        g.2.mem.any (fun m => match s.thr? m.2 with | some th => th.id.item && th.id.iid.toNat == i | none => false)))
/-- The threads of group j (R61). -/
def groupThreads (lid : Nat) (l : Launch) (j : Nat) : List (ThId × Nat × List Word) :=
  (List.range (l.groupSize j)).map (fun i =>
    (⟨some lid, l.ctx, dw (l.baseidx + Config.width * j + i), 0, l.ord, none⟩, l.entry, l.args))
/-- Places the next group of role 0. -/
def State.placeNext (s : State) (lid : Nat) (l : Launch) : State :=
  let j := l.nextGrp
  match placeSpot s lid l (l.groupSize j) with
    | none => s
    | some (core, lane) =>
      if !fwdFits s l core then s
      else match s.makeThreads l (groupThreads lid l j) with
        | none => s
        | some (ts, s) =>
          let (_, s) := s.seatGroup lid l core lane (w32 j) 0 ts
          (s.modLaunch lid (fun x => { x with
            nextGrp := j + 1, nthr := x.nthr + ts.length, blocked := none, resv := [] })).reserveFwd lid l core j

/-! ### Roles (R63, R95) -/

/-- A thread of role 0 has not exited; of a node launch, whose role 0 is its node threads, a record in a bin is such a thread to come (log
entry 70). -/
def roleZero (s : State) (lid : Nat) (l : Launch) : Bool :=
  decide (l.nextGrp < l.ngroups) || s.thrs.any (fun t => t.2.id.launch == some lid && t.2.id.role == 0) ||
    s.cores.any (fun c => c.2.bins.any (fun b => b.2.launch == lid && b.2.kind == .node && !b.2.ents.isEmpty))
/-- Groups of a role in a quad, saved ones included. -/
def roleLive (s : State) (lid role quad : Nat) : Nat :=
  (s.grps.filter (fun g => g.2.launch == some lid && g.2.role == role && coreQuad (laneCore g.2.lane) == quad)).length
/-- Key of a role in a quad's tables. -/
def roleKey (lid role : Nat) : Nat := lid * 8 + role
/-- The cores of a quad that are live. -/
def quadCores (s : State) (quad : Nat) : List Nat := ((List.range 4).map (fun k => quad * 4 + k)).filter (coreLive s)
/-- A quad's role that has fewer groups than its count. -/
def roleShort (s : State) (lid : Nat) (l : Launch) : Option (Nat × Nat) :=
  s.quads.findSome? (fun q => ((List.range l.nrole).find? (fun k =>
    decide (roleLive s lid (k + 1) q.1 < alGetD q.2.roleExtra (roleKey lid (k + 1)) 0) &&
      (spotIn s lid l Config.width (quadCores s q.1)).isSome)).map (fun k => (q.1, k + 1)))
/-- Places a group of a role k ≥ 1 in a quad; its number is a free value, since the manual gives it none. -/
def State.placeRole (s : State) (lid : Nat) (l : Launch) (quad role : Nat) : State :=
  match spotIn s lid l Config.width (quadCores s quad), (l.roles.getD [])[role - 1]? with
  | some (core, lane), some e =>
    -- role-k threads are counted in the device (Table 7.3)
    let rk := 8 * l.dev + role
    let n := alGetD (s.ctxD l.ctx).roleNext rk 0
    let ths := (List.range Config.width).map (fun i => (⟨some lid, l.ctx, dw (n + i), role, false, none⟩, bits e.1 54 0, l.args))
    (match s.makeThreads l ths with
    | none => s
    | some (ts, s) =>
      let (f, s) := s.newFree
      let (_, s) := s.seatGroup lid l core lane (lo32 f) role ts
      (s.modLaunch lid (fun x => { x with nthr := x.nthr + ts.length })).modCtx l.ctx (fun c => { c with
        roleNext := alSet c.roleNext rk (n + Config.width) }))
  | _, _ => s
/-- GROUP_PLACE (R82, R84, R95): a role group that is due, at once, else the next group of an admitted launch. -/
def execGroupPlace (lid : Nat) (st : State) : Out := .next (
  match st.launch? lid with
  | none => st
  | some l =>
    if l.phase != .admitted || oldestSaved st lid l then st
    else match (if l.nrole ≠ 0 && roleZero st lid l then roleShort st lid l else none) with
      | some (q, k) => st.placeRole lid l q k
      | none => if l.nextGrp < l.ngroups then st.placeNext lid l else st)

/-- Occupancy of a role's ring (R201); none where the descriptor is not one of the launch. -/
def roleOcc (s : State) (lid quad : Nat) (e : DWord × DWord) : Option Nat :=
  let r := alGetD (s.quadD quad).rings (bits e.2 47 44) .empty
  if r.v && r.own == lid then
    some ((((List.range (r.nslot + 1)).filter (fun i => (alGetD r.slots i .empty).full)).length) * 256 / (r.nslot + 1))
  else none
/-- The role that gives up its next group to another (R95): the highest occupancy above its HIGH, then the most groups above its
MING, of those whose count may go down: it is above MING, has not just gone up, and has not changed in this evaluation already. -/
def roleDonor (s : State) (lid : Nat) (l : Launch) (quad role : Nat) : Option Nat :=
  let q := s.quadD quad
  let rs := (l.roles.getD []).zipIdx.filterMap (fun x =>
    let k := x.2 + 1
    let n := alGetD q.roleExtra (roleKey lid k) 0
    match roleOcc s lid quad x.1 with
    | some o =>
      let (dir, hold) := alGetD q.roleHold (roleKey lid k) (0, 0)
      let held := (dir == 1 && hold > 0) || hold == 3 || (dir == 2 && hold == 2 && decide (k < role))
      if k ≠ role ∧ n > bits x.1.2 63 56 ∧ !held then some (k, o - bits x.1.2 35 28, n - bits x.1.2 63 56) else none
    | none => none)
  (rs.foldl (fun (b : Option (Nat × Nat × Nat)) x =>
    match b with
    | none => some x
    | some y => if x.2.1 > y.2.1 ∨ (x.2.1 = y.2.1 ∧ x.2.2 > y.2.2) then some x else b) none).map (·.1)
/-- One role's change at an evaluation (R95): up below LOW or MING, down above HIGH; after a change none the other way for the
next two. A role that gave a group up in this evaluation before its turn changes no more in it: its hold stands one higher till then. -/
def State.evalRole (s : State) (lid : Nat) (l : Launch) (quad k : Nat) (e : DWord × DWord) : State :=
  match roleOcc s lid quad e with
  | none => s
  | some o =>
    let key := roleKey lid k
    let q := s.quadD quad
    let n := alGetD q.roleExtra key 0
    let (dir, hold) := alGetD q.roleHold key (0, 0)
    let ming := bits e.2 63 56
    let up := (decide (o < bits e.2 43 36) || decide (n < ming)) && decide (n < bits e.2 55 48)
    let down := !up && decide (o > bits e.2 35 28) && decide (n > ming)
    if hold = 3 then s.modQuad quad (fun q => { q with roleHold := alSet q.roleHold key (dir, 2) })
    else if up && !(hold > 0 && dir == 2) then
      let s := s.modQuad quad (fun q => { q with roleExtra := alSet q.roleExtra key (n + 1), roleHold := alSet q.roleHold key (1, 2) })
      if (spotIn s lid l Config.width (quadCores s quad)).isSome then s
      else match roleDonor s lid l quad k with
        | some d => s.modQuad quad (fun q => { q with
            roleExtra := alMod q.roleExtra (roleKey lid d) 0 (· - 1)
            roleHold := alSet q.roleHold (roleKey lid d) (2, if d < k then 2 else 3) })
        | none => s
    else if down && !(hold > 0 && dir == 1) then
      s.modQuad quad (fun q => { q with roleExtra := alSet q.roleExtra key (n - 1), roleHold := alSet q.roleHold key (2, 2) })
    else s.modQuad quad (fun q => { q with roleHold := alSet q.roleHold key (dir, hold - 1) })
/-- ROLE_EVALUATION: every 4,096 cycles, for each launch with roles that the quad holds a residency of. -/
def execRoleEvaluation (quad : Nat) (st : State) : Out := .next (
  let now := st.cyc (quad / 16)
  if quad ≥ 128 || decide (now < (st.quadD quad).lastEval + 4096) then st
  else
    let ls := st.launches.filter (fun l => l.2.nrole != 0 && l.2.phase == .admitted &&
      st.ress.any (fun r => r.2.launch == l.1 && coreQuad r.2.core == quad))
    if ls.isEmpty then st
    else
      let s := ls.foldl (fun s l => (l.2.roles.getD []).zipIdx.foldl (fun s x => s.evalRole l.1 l.2 quad (x.2 + 1) x.1) s) st
      s.modQuad quad (fun q => { q with lastEval := now }))

/-! ### Bins (R64, R87 to R92) -/

/-- Kinds whose bins flush, in the order of R90. -/
def flushRank : BinKind → Nat
  | .reform => 0
  | .reformK => 1
  | .spawn => 2
  | .cont => 3
  | _ => 4
/-- A thread of a launch on a core is still in a group, or waits to file. -/
def canFile (s : State) (lid core : Nat) : Bool :=
  s.thrs.any (fun t => t.2.id.launch == some lid && (match t.2.loc with
    | .grp _ _ => laneCore (s.laneOf t.1) == core
    | .filing x => laneCore x == core
    | _ => false))
/-- A REFORM, SPAWN or CONT bin is due to flush (R90). -/
def flushDue (s : State) (core : Nat) (b : Bin) : Bool :=
  !b.sealed && decide (flushRank b.kind < 4) && !b.ents.isEmpty &&
    (!canFile s b.launch core || decide (s.cyc (coreDie core) ≥ b.tOpen + 16384))
/-- Order in which bins that are due at one moment are sealed (R90). -/
def flushLt (a b : Bin) : Bool :=
  let ka := if a.kind == .reform then a.target else a.key
  let kb := if b.kind == .reform then b.target else b.key
  decide (flushRank a.kind < flushRank b.kind) || (flushRank a.kind == flushRank b.kind &&
    (decide (ka < kb) || (ka == kb && decide (a.target < b.target))))
/-- BIN_FLUSH_TIMEOUT (R90): a bin that is due is sealed when no other due bin of the core comes before it. -/
def execBinFlushTimeout (core bin : Nat) (st : State) : Out := .next (
  match alGet (st.coreD core).bins bin with
  | none => st
  | some b =>
    if flushDue st core b && !(st.coreD core).bins.any (fun x => flushDue st core x.2 && flushLt x.2 b) then st.sealBin core bin
    else st)
/-- A thread of a device stands in a group or waits to file (R94). -/
def deviceRuns (s : State) (ctx dev : Nat) : Bool :=
  s.thrs.any (fun t => (match t.2.loc with | .grp _ _ | .filing _ => true | _ => false) &&
    (match t.2.id.launch.bind s.launch? with | some l => l.ctx == ctx && l.dev == dev | none => false))
/-- NODE_BIN_TIMEOUT (R64, R87): NTIMER is over, or no thread of the device runs. -/
def execNodeBinTimeout (core bin : Nat) (st : State) : Out := .next (
  match alGet (st.coreD core).bins bin with
  | none => st
  | some b =>
    match st.launch? b.launch with
    | none => st
    | some l =>
      let timer := l.ntimer != 0 && decide (st.cyc (coreDie core) ≥ b.tOpen + l.ntimer * 1024)
      if b.kind == .node && !b.sealed && !b.ents.isEmpty && (timer || !deviceRuns st l.ctx l.dev) then st.sealBin core bin else st)
/-- Registers of a node thread: the record's words, then the arguments (R64). -/
def nodeRegs (l : Launch) (ws : List Word) : List Word := ws.take l.nrec ++ (l.args.drop l.nrec)
/-- New threads of a bin's entries: node threads, and children that now take their stacks; none without stacks. -/
def State.binThreads (s : State) (l : Launch) (b : Bin) : Option (List Nat × State) :=
  if b.kind == .node then
    s.makeThreads l (b.ents.filterMap (fun e => match e with
      | .record ws iid => some (⟨some b.launch, l.ctx, iid, 0, false, none⟩, l.entry, nodeRegs l ws)
      | .thr _ => none))
  else
    let ts := b.ents.filterMap (fun e => match e with | .thr t => some t | .record _ _ => none)
    if b.kind == .spawn then
      match takeStacks (s.ctxD l.ctx) l.stkkb ts.length with
      | none => none
      | some (ks, c) =>
        let s := s.modCtx l.ctx (fun _ => c)
        some (ts, (ts.zip ks).foldl (fun s x => s.modThr x.1 (fun th =>
          { th with stkb := dw x.2.2, stkl := dw x.2.1, sp := dw x.2.2 })) s)
    else some (ts, s)
/-- Places a sealed bin of a core as a group on a core and lane (R91): entries in filing order, GRP by the placing core's count. -/
def State.placeBin (s : State) (core bin : Nat) (b : Bin) (l : Launch) (dst lane : Nat) : State :=
  match s.binThreads l b with
  | none => s
  | some (ts, s) =>
    let n := (s.coreD dst).binGrps
    let role := match ts with | t :: _ => ((s.thr? t).map (·.id.role)).getD 0 | [] => 0
    let s := s.modCore core (fun c => { c with bins := alDel c.bins bin })
    let s := s.modCore dst (fun c => { c with binGrps := (c.binGrps + 1) % 2 ^ 31 })
    let (_, s) := s.seatGroup b.launch l dst lane (w32 (2 ^ 31 + n)) role ts
    -- node threads and children start here (R69); a stolen bin may leave its core's residency empty (R80)
    let s := if b.kind == .node || b.kind == .spawn then s.modLaunch b.launch (fun x => { x with nthr := x.nthr + ts.length }) else s
    match s.resOn b.launch core with
    | some (rid, _) => s.checkRes rid
    | none => s
/-- The owner's residency on a core is saved: its bins wait for the restoration (R78). -/
def binHeld (s : State) (core : Nat) (b : Bin) : Bool :=
  match s.resOn b.launch core with
  | some (_, r) => r.saved
  | none => false
/-- A sealed bin with its launch, which may place a group (R78, R85): of a frozen core, once it is thawed, since what was filed there gives
no edge before (R151; log entry 106). -/
def sealedBin (s : State) (core bin : Nat) : Option (Bin × Launch) :=
  match alGet (s.coreD core).bins bin with
  | some b =>
    match s.launch? b.launch with
    | some l => if b.sealed && !s.isFrozen (coreMid core) && !binHeld s core b && !oldestSaved s b.launch l then some (b, l) else none
    | none => none
  | none => none
/-- BIN_PLACE (R91): on its own core. -/
def execBinPlace (core bin : Nat) (st : State) : Out := .next (
  match sealedBin st core bin with
  | none => st
  | some (b, l) =>
    match coreSpot st b.launch l b.ents.length core with
    | some lane => st.placeBin core bin b l core lane
    | none => st)
/-- Cores a bin may be stolen by, in order (R91). -/
def stealOrder (s : State) (core : Nat) : List Nat :=
  (quadCores s (coreQuad core)).filter (· != core) ++ (tileCores s (coreTile core)).filter (fun c => coreQuad c != coreQuad core)
/-- BIN_STEAL (R91): after 4,096 cycles, the first core with room; its own core comes first. -/
def execBinSteal (core bin : Nat) (st : State) : Out := .next (
  match sealedBin st core bin with
  | none => st
  | some (b, l) =>
    if st.cyc (coreDie core) < b.tSeal + 4096 then st
    else
      match (core :: stealOrder st core).findSome? (fun c => (coreSpot st b.launch l b.ents.length c).map (fun x => (c, x))) with
      | some (c, lane) => st.placeBin core bin b l c lane
      | none => st)

/-! ### Pre-emption (R76 to R79, R310 to R312) -/

/-- Unsaved residencies of a core. -/
def resident (s : State) (core : Nat) : List (Nat × Res) := s.ress.filter (fun r => r.2.core == core && !r.2.saved)
/-- Arena bytes a save of a residency reserves (R312). -/
def saveBytes (s : State) (rid : Nat) (l : Launch) : Nat :=
  let gs := s.grps.filter (fun g => g.2.res == rid)
  l.sgran * 16384 + l.rgran * 16384 + 256 * (gs.map (fun g => g.2.mem.length)).foldl (· + ·) 0 + 1024 * gs.length + 49152
/-- A residency's room is reserved and its save starts, where the room is there. -/
def State.beginSave (s : State) (r : Nat × Res) : Option State :=
  match s.launch? r.2.launch with
  | none => none
  | some l =>
    if saveBytes s r.1 l ≤ roomLeft s r.2.ctx then
      some ((s.reserveRoom r.2.ctx r.1 (saveBytes s r.1 l)).modRes r.1 (fun x => { x with saving := true }))
    else none
/-- Starts the saves of a core's residencies; none where one does not fit. -/
def State.beginSaves (s : State) : List (Nat × Res) → Option State
  | [] => some s
  | r :: rs =>
    match s.beginSave r with
    | none => none
    | some s => s.beginSaves rs
/-- A candidate core for a launch (R76, R312). -/
def candidate (s : State) (l : Launch) (core : Nat) : Bool :=
  let rs := resident s core
  !rs.isEmpty && rs.all (fun r => !r.2.saving && decide (r.2.since + 50000 ≤ s.qclk) &&
    (match s.launch? r.2.launch with | some x => keyLt l.key x.key | none => false)) && (s.beginSaves rs).isSome
/-- The largest key resident on a core. -/
def topKey (s : State) (core : Nat) : Nat × Nat × Nat :=
  ((resident s core).filterMap (fun r => (s.launch? r.2.launch).map (·.key))).foldl (fun a b => if keyLt a b then b else a) (0, 0, 0)
/-- A core holds the oldest unfinished group of an ordered launch. -/
def holdsOldest (s : State) (core : Nat) : Bool := s.grps.any (fun g => laneCore g.2.lane == core && pinned s g.2)
/-- Order of victims (R77); cores come in device order. -/
def victimLt (s : State) (a b : Nat) : Bool :=
  let ka := topKey s a
  let kb := topKey s b
  keyLt kb ka || (ka == kb && (decide (threadsOn s a < threadsOn s b) || (threadsOn s a == threadsOn s b &&
    (!holdsOldest s a && holdsOldest s b))))
/-- Starts the saves of the first n cores, in order, whose saves find room: they are a launch's victims (R77, R312). -/
def State.takeVictims (s : State) (lid : Nat) : Nat → List Nat → State
  | 0, _ => s
  | _, [] => s
  | n + 1, c :: r =>
    match s.beginSaves (resident s c) with
    | some s => (s.modLaunch lid (fun x => { x with victims := x.victims ++ [c] })).takeVictims lid n r
    | none => s.takeVictims lid (n + 1) r
/-- Victims that L's unplaced groups need, at GCAP′ groups a core: cores taken for it that it has yet to take count. -/
def victimNeed (s : State) (lid : Nat) (l : Launch) : Nat :=
  min 64 ((l.ngroups - l.nextGrp + l.gcap - 1) / l.gcap - (l.victims.filter (coreOwed s (lid, l))).length)
/-- PREEMPT_DECISION (R76, R77). -/
def execPreemptDecision (lid : Nat) (st : State) : Out := .next (
  match st.launch? lid with
  | none => st
  | some l =>
    let lower := st.launches.any (fun x => x.2.ctx == l.ctx && x.2.dev == l.dev && x.2.blocked.isSome && keyLt x.2.key l.key)
    let due := match l.blocked with | some t => decide (st.qclk ≥ t + 10000) | none => false
    if !due || l.deadline == 0 || lower || !eligible st l then st
    else
      let cs := ((deviceTiles st l).flatMap (tileCores st)).filter (candidate st l)
      st.takeVictims lid (victimNeed st lid l) (isort (fun a b => !victimLt st b a) cs))
/-- A thread of a residency has nothing pending. -/
def settled (s : State) (t : Nat) : Bool :=
  (match s.thr? t with
   | some th => !th.hasPending && th.rt.q.all (fun e => match e.st with | .pending _ => false | _ => true)
   | none => true) && !s.arrivals.any (fun a => a.thr == t)
/-- A word needs a traversal or texture unit of its quad that is frozen: it stalls until THAW (R437). -/
def State.unitFrozen (s : State) (quad : Nat) : Instr → Bool
  | .trace .. | .hitr .. => s.isFrozen (travMid quad)
  | .tex .. | .texg .. | .texq .. | .imld .. | .imst .. => s.isFrozen (texMid quad)
  | _ => false
/-- Every group of a residency stands at a boundary with nothing pending; a word that is stalled has not issued (R310), but for a stall
at a frozen unit the save waits (R437). -/
def saveReady (s : State) (rid core : Nat) : Bool :=
  let gs := s.grps.filter (fun g => g.2.res == rid)
  !coreStalled s core && !(s.coreD core).score.any (fun e => e.res == rid) &&
    gs.all (fun g => g.2.mem.all (fun m => settled s m.2) &&
      (match (s.laneD g.2.lane).run with
        | some r => r.grp != g.1 || ((r.todo == r.set || r.stalled || r.todo.isEmpty) &&
            !(r.stalled && r.slot.any (fun it => s.unitFrozen (coreQuad core) it.i)))
        | none => true))
/-- A save or a restore that something stops in the arena, in the state before and after it: a fault is a double fault of its core (R313),
a refused access has frozen the core (R43), and an access that gets no answer waits (R18). -/
def arenaStop (r : Res) (before s : State) : Exc → State
  | .fault _ =>
    let (v, s) := s.newFree
    s.doubleFault r.core r.ctx (some r.launch) v.toNat
  | .deny .. => s
  | .stall | .noBin => before
/-- The room of a save, which is now the one used last. A save before a freeze (R309) that finds no room reserves none (log entry 95). -/
def State.takeRoom (s : State) (rid : Nat) (r : Res) (l : Launch) : State :=
  let n := saveBytes s rid l
  let s := if (alGet (s.ctxD r.ctx).room rid).isNone && decide (n ≤ roomLeft s r.ctx) then s.reserveRoom r.ctx rid n else s
  let (age, s) := s.newId
  s.modCtx r.ctx (fun c => c.modRoom rid (fun m => { m with age := age }))
/-- The save of a residency that is ready: it has its room, what the partition cannot hold goes out, and it leaves its core. -/
def State.saveThrough (s : State) (rid : Nat) (r : Res) (l : Launch) : State :=
  let before := s
  let s := s.takeRoom rid r l
  -- a frozen core sends no request
  let out := if s.isFrozen (coreMid r.core) && !s.absorbs r.ctx (coreTile r.core) rid then (s, some .stall)
    else s.spill (recWho s r.core r.ctx) r.ctx (coreTile r.core) rid (s.held r.ctx (coreTile r.core) rid).length
  match out with
  | (s, none) => s.saveRes rid
  | (s, some e) => arenaStop r before s e
/-- The restore of a residency: what has gone to the arena is read back, and its room is free. -/
def State.restoreThrough (s : State) (rid : Nat) (r : Res) : State :=
  let c := s.ctxD r.ctx
  let back := match alGet c.room rid with
    | some m => if m.out then readArena (recWho s r.core r.ctx) (m.lines c.sava) s else (s, none)
    | none => (s, none)
  match back with
  | (t, none) => (t.restoreRes rid).modCtx r.ctx (fun c => { c with room := alDel c.room rid })
  | (t, some e) => arenaStop r s t e
/-- RESIDENCY_SAVE (R310, R311). -/
def execResidencySave (rid : Nat) (st : State) : Out := .next (
  match st.res? rid with
  | none => st
  | some r =>
    match st.launch? r.launch with
    | none => st
    | some l =>
      if r.saving && !r.saved && saveReady st rid r.core && !(st.coreD r.core).dbl.any (·.1 == r.ctx) then st.saveThrough rid r l
      else st)
/-- A lane takes its saved groups back, together, beside what is reserved for launches of earlier keys (R74, R78, R81). -/
def laneTakes (s : State) (rid : Nat) (l : Launch) (core lane : Nat) : Bool :=
  let gs := s.grps.filter (fun g => g.2.res == rid && g.2.lane == lane)
  let n := (gs.map (fun g => g.2.mem.length)).foldl (· + ·) 0
  let x := s.laneD lane
  gs.isEmpty || (decide (x.active.length + x.waiting.length + gs.length + reserved s l core (grpKey lane) ≤ Config.groupsPerLane) &&
    decide (x.slots.length + n + reserved s l core (thrKey lane) ≤ Config.slotsPerLane))
/-- RESIDENCY_RESTORE (R78, R312): on its own core, before work of later keys. -/
def execResidencyRestore (rid : Nat) (st : State) : Out := .next (
  match st.res? rid with
  | none => st
  | some r =>
    match st.launch? r.launch with
    | none => st
    | some l =>
      let lanes := ((List.range Config.lanesPerCore).map (coreLane r.core)).all (laneTakes st rid l r.core)
      if restoreFits st r l && lanes && !workAhead st l r.core && !st.isFrozen (coreMid r.core) &&
          decide (l.grans + reserved st l r.core r.core ≤ (st.coreD r.core).freeGrans.length) then
        st.restoreThrough rid r
      else st)

/-! ### Trigger, completion, quiescence (R64 to R70, R94, R391) -/

/-- A child that has been filed and not yet started. -/
def unstarted (s : State) (th : Thr) : Bool :=
  match th.loc with
  | .filed core bin => (match alGet (s.coreD core).bins bin with | some b => b.kind == .spawn | none => false)
  | _ => false
/-- Threads of a launch that have started and not ended. -/
def startedOf (s : State) (lid : Nat) : List Thr :=
  (s.thrs.filter (fun t => t.2.id.launch == some lid && !unstarted s t.2)).map (·.2)
/-- TRIGGER_FIRE (R66, R391): every thread counted has executed TRIG or ended; a launch none of whose threads has executed TRIG triggers
at completion (log entry 71). A TRIG on a frozen core counts once the core is thawed (R151; log entry 106). -/
def execTriggerFire (lid : Nat) (st : State) : Out := .next (
  match st.launch? lid with
  | none => st
  | some l =>
    if l.phase == .admitted && !l.trigd && l.trigs && decide (l.nextGrp ≥ l.ngroups) && (startedOf st lid).all (·.trig) &&
        !(st.coresOf lid).any (fun c => st.isFrozen (coreMid c)) then st.fireTrigger lid
    else st)
/-- LAUNCH_COMPLETE (R65, R69, R70): a failed dependence, a count of 0, or the last thread has ended. -/
def execLaunchComplete (lid : Nat) (st : State) : Out := .next (
  match st.launch? lid with
  | none => st
  | some l =>
    if l.phase == .admitted && l.typ != 2 && decide (l.nextGrp ≥ l.ngroups) && !st.thrs.any (fun t => t.2.id.launch == some lid) then
      (st.complete lid (if l.faulted then 4 else 2)).settleDrains
    else st.settleAccepted lid)
/-- No thread of a device is left and none of its bins holds an entry (R94). -/
def quiescent (s : State) (ctx dev : Nat) : Bool :=
  let mine (k : Nat) : Bool := match s.launch? k with | some l => l.ctx == ctx && l.dev == dev | none => false
  !s.thrs.any (fun t => match t.2.id.launch with | some k => mine k | none => false) &&
    !s.cores.any (fun c => c.2.bins.any (fun b => mine b.2.launch && !b.2.ents.isEmpty))
/-- QUIESCENCE_REPORT (R64, R94): every live node launch of the device completes. -/
def execQuiescenceReport (ctx dev : Nat) (st : State) : Out := .next (
  if quiescent st ctx dev then
    let ls := st.launches.filter (fun l => l.2.ctx == ctx && l.2.dev == dev && l.2.typ == 2 && l.2.phase == .admitted)
    if ls.isEmpty then st
    else (ls.foldl (fun s l => s.complete l.1 (if l.2.faulted then 4 else 2)) st).settleDrains
  else st)

end Sys2Proof.Machine
end

