-- ==== Sys2Proof/Machine/Service.lean ====
section
/-! DEFINITION. What Celeriac's control space does when it is written: fault service (R298, R302 to R304), WAKE (R402), plain
registers, and the access tables (R42, R43). -/
namespace Sys2Proof.Machine

/-! ### Fault service -/

/-- FAULT_AREA_ROOM (R298): a fault that waits for room tries its record again; then those behind it are given (R296). -/
def execFaultAreaRoom (thr : Nat) (st : State) : Out := .next (
  match st.thr? thr with
  | none => st
  | some th =>
    match th.svc with
    | none => st
    | some v =>
      if v.st = .noRoom then (st.settleFault thr v.fseq v.info v.pc v.resume).giveFaults v.core else st)
/-- SVCTL.LAST (Table 12.4). -/
def State.svcResult (s : State) (n : Nat) : State := { s with sys := { s.sys with svcLast := BitVec.ofNat 4 n } }
/-- Master id of a control core. -/
def ctlMid (core : Nat) : Nat := 16 * 1024 + 256 + core
/-- The thread whose serviced fault word 0 of FSVC names. -/
def svcThread (s : State) (w0 : DWord) : Option (Nat × Thr × Svc) :=
  s.thrs.findSome? (fun t => match t.2.svc with
    | some v => if v.svc && v.st == .written && coreMid v.core == bits w0 63 48 && v.fseq == bits w0 47 32 then some (t.1, t.2, v) else none
    | none => none)
/-- A write of FSVC word 0 whose ACT is the given one (R303): LAST 1 without such a fault, LAST 2 for a bad NEWSTKL. -/
def State.fsvc (s : State) (core act : Nat) (w0 : DWord) (f : State → Nat → Thr → Svc → State) : State :=
  if core ≥ 32 ∨ bits w0 31 30 ≠ act then s
  else s.ctlWrite (ctlMid core) 0x2410 (fun s =>
    match svcThread s w0 with
    | none => s.svcResult 1
    | some (t, th, v) =>
      let new := bits (s.ctlD core).fsvc1 54 0
      if new ≠ 0 ∧ (new % 16 ≠ 0 ∨ new > th.stkb.toNat) then s.svcResult 2
      else
        let s := if new = 0 then s else s.modThr t (fun th => { th with stkl := dw new })
        (f s t th v).svcResult 0)
/-- F3, F6 and F7 of a record; none where it cannot be read. -/
def State.readRecord (s : State) (core ctx va : Nat) : State × Option (Nat × Nat × Nat) :=
  match feRead (recWho s core ctx) (va + 24) 2 8 s with
  | (s, .error _) => (s, none)
  | (s, .ok f3) =>
    match feRead (recWho s core ctx) (va + 48) 2 16 s with
    | (s, .error _) => (s, none)
    | (s, .ok r) => (s, some (f3, r % 2 ^ 64, r / 2 ^ 64))
/-- ACT 0: the thread goes on at F3 with F6's predicates and F7's n0 and n1; going on at its region entry after a fault of a region-entry
class counts as a restart (R300, R301). A record that cannot be read terminates the thread. -/
def State.svcResume (s : State) (t : Nat) (th : Thr) (v : Svc) : State :=
  match s.readRecord v.core th.id.ctx v.recVa with
  | (s, none) => s.terminate (s.laneOf t) t (some v.recVa)
  | (s, some (f3, f6, f7)) => s.modThr t (fun th =>
      let th := (th.setReg 0 (w32 f7)).setReg 1 (w32 (f7 / 2 ^ 32))
      { th with pc := f3 % 2 ^ 55, p := BitVec.ofNat 7 (f6 / 2 ^ 17), svc := none
                restarts := if regionClass v.info.cls && f3 % 2 ^ 55 == th.rentry then th.restarts + 1 else th.restarts })
/-- FSVC_RESUME. -/
def execFsvcResume (core : Nat) (w0 : DWord) (st : State) : Out := .next (st.fsvc core 0 w0 State.svcResume)
/-- FSVC_DELIVER: ACT 1 delivers the fault, or terminates the thread where TRAPV is 0. -/
def execFsvcDeliver (core : Nat) (w0 : DWord) (st : State) : Out := .next (st.fsvc core 1 w0 (fun s t _ v =>
  let (lane, g, _) := s.seatOf t
  match s.thr? t with
  | none => s
  | some th =>
    if g.trapv = 0 then s.terminate lane t (some v.recVa) else s.handTo t (laneCore lane) th.id.ctx v.recVa g.trapv))
/-- FSVC_TERMINATE: ACT 2. -/
def execFsvcTerminate (core : Nat) (w0 : DWord) (st : State) : Out :=
  .next (st.fsvc core 2 w0 (fun s t _ v => s.terminate (s.laneOf t) t (some v.recVa)))
/-- FSVC_INVALID: ACT 3 gives LAST 1. -/
def execFsvcInvalid (core : Nat) (w0 : DWord) (st : State) : Out := .next (
  if core ≥ 32 ∨ bits w0 31 30 ≠ 3 then st else st.ctlWrite (ctlMid core) 0x2410 (fun s => s.svcResult 1))
/-- A group stands between two runs. -/
def atBoundary (s : State) (g : Nat × Grp) : Bool :=
  g.2.srun.isNone && (match (s.laneD g.2.lane).run with | some r => r.grp != g.1 | none => true)
/-- VECSET (R304): the residencies and those to come take the vector, each group at its next run boundary. -/
def execVecset (core : Nat) (w0 : DWord) (st : State) : Out := .next (
  if core ≥ 32 then st
  else st.ctlWrite (ctlMid core) 0x2420 (fun s =>
    let c := bits w0 63 58
    let vec := bits (s.ctlD core).vec1 54 0
    let x := (s.ctxD c).st
    if vec % 12 ≠ 0 ∨ (x ≠ .live ∧ x ≠ .drained) then s.svcResult 3
    else
      let s := s.modCtx c (fun c => { c with vec := vec })
      let mine (r : Res) : Bool := r.ctx == c && isChard r.core
      let rs : AL Res := s.ress.map (fun r => if mine r.2 then (r.1, { r.2 with trapv := vec }) else r)
      let gs : AL Grp := s.grps.map (fun g =>
        match s.res? g.2.res with
        | some r => if mine r && atBoundary s g then (g.1, { g.2 with trapv := vec }) else g
        | none => g)
      { s with ress := rs, grps := gs }.svcResult 0))

/-! ### WAKE (R402, R407) -/

/-- Owner of a control core's or Root's own residency: no launch. -/
def noLaunch : Nat := 2 ^ 64
/-- Starts the one thread of a control core or a Root engine (W = 1): PC, n0 and n1, everything else as Table 7.3 leaves it, with an
empty stack (log entry 111). A PC that is no multiple of 12 makes the first fetch a double fault (R402). -/
def State.startSolo (s : State) (core ctx pc trapv : Nat) (regs : List Word) : State :=
  let lane := coreLane core 0
  let old := (s.laneD lane).slots.map (·.2)
  let s := old.foldl (fun s t => { s.leaveGrp t with thrs := alDel (s.leaveGrp t).thrs t }) s
  let (t, s) := s.newId
  let s := { s with thrs := alSet s.thrs t { Thr.start ⟨none, ctx, 0, 0, false, none⟩ pc regs 0 0 with dblFetch := decide (pc % 12 ≠ 0) } }
  let (rid, s) := s.newId
  let r : Res := {
    launch := noLaunch, ctx := ctx, core := core, slot := 0, rg := [], sg := [], lg := [], trapv := trapv, srec := []
    saved := false, saving := false, since := s.qclk, spare := [], spoison := [], stags := [] }
  let s := { s with ress := alSet s.ress rid r }
  ((s.modLane lane (fun l => { l with run := none })).place none ctx rid lane 0 0 [t]).2
/-- WAKE: a halted core goes on; one that has exited, or has not run yet, starts at the written PC. -/
def execWake (mid core : Nat) (v : DWord) (st : State) : Out := .next (
  if core ≥ 32 then st
  else st.ctlWrite mid (0x700 + 8 * core) (fun s =>
    let k := s.ctlD core
    if s.sys.bootFail ≠ 0 then s
    else if k.st == .halted then s.modCtl core (fun k => { k with st := .running })
    else if k.st == .running && !(s.laneD (coreLane (512 + core) 0)).slots.isEmpty then s
    else (s.modCtl core (fun k => { k with st := .running })).startSolo (512 + core) k.ctx (bits v 54 0) k.trapv []))

/-! ### Plain registers -/

/-- Notices that waited enter the service queue while it has room (R302). -/
def State.admitNotices (s : State) : Nat → State
  | 0 => s
  | n + 1 =>
    match s.sys.svcWait with
    | [] => s
    | w :: r =>
      let y := s.sys
      if y.svcFull then s
      else
        let t := (y.svcTail + 1) % 1024
        ({ s with sys := { y with
          notices := alSet y.notices y.svcTail w, svcTail := t, svcFull := t == y.svcHead % 1024, svcWait := r } }).admitNotices n
/-- REGISTER_WRITE: HEAD of a record queue, FRZSEL, word 1 of FSVC and VECSET (held for the control core that writes it),
QBASE while its queue is disabled; every other field is read only or belongs to an event of its own (R5). -/
def State.writeReg (s : State) (mid off : Nat) (v : DWord) : State :=
  let head := bits v 47 40
  if off = 0x2000 then { s with sys := { s.sys with viol := { s.sys.viol with head := head, full := false } } }
  else if off = 0x2010 then { s with sys := { s.sys with frzsel := BitVec.ofNat 16 v.toNat } }
  else if off = 0x2100 then { s with sys := { s.sys with mcheck := { s.sys.mcheck with head := head, full := false } } }
  else if off = 0x2800 then { s with sys := { s.sys with latent := { s.sys.latent with head := head, full := false } } }
  else if off = 0x2400 then
    ({ s with sys := { s.sys with svcHead := bits v 63 54, svcFull := false } }).admitNotices s.sys.svcWait.length
  else if off = 0x2418 && isCtlMid mid then s.modCtl (mid % 1024 - 256) (fun k => { k with fsvc1 := v })
  else if off = 0x2428 && isCtlMid mid then s.modCtl (mid % 1024 - 256) (fun k => { k with vec1 := v })
  else if 0x10000 ≤ off ∧ off < 0x50000 ∧ off % 64 = 0 then
    s.modQueue ((off - 0x10000) / 0x1000) (off % 0x1000 / 64) (fun q => if q.en then q else { q with base := bits v 54 7 * 128 })
  else s
/-- REGISTER_WRITE. -/
def execRegisterWrite (mid off : Nat) (v : DWord) (st : State) : Out := .next (st.ctlWrite mid off (fun s => s.writeReg mid off v))

/-! ### Reads of control space (R5, R32, R43, R44, R46, R53, R124, R302, R309) -/

/-- HEAD, TAIL and DROP of a record queue. -/
def RecQ.ctl (q : RecQ) : Nat := q.head * 2 ^ 40 + q.tail * 2 ^ 32 + q.drop.toNat
/-- HVSUM (Table 1.12): D is the number of serving tiles. -/
def hvSum (h : Harvest) : Nat :=
  h.tlive.toNat * 2 ^ 56 + popN 8 h.tlive.toNat * 2 ^ 52 + h.mlive.toNat * 2 ^ 42 + h.msrv.toNat * 2 ^ 34 + h.slive.toNat * 2 ^ 16 +
    h.pend.toNat * 2 ^ 8 + h.gen.toNat
/-- A register of a launch queue (Table 3.5); QDB is write only. -/
def Queue.read (q : Queue) (reg : Nat) : Nat :=
  match reg with
  | 0 => q.base
  | 8 => (if q.en then 2 ^ 63 else 0) + (if q.drop then 2 ^ 62 else 0) + q.logsz * 2 ^ 58
  | 24 => q.head * 2 ^ 52 + (if q.stall then 2 else 0) + (if q.err then 1 else 0)
  | _ => 0
/-- What a read of control space gives at an offset: a write-only field, and an offset that names no register, read as zero (R5). -/
def State.readCtl (s : State) (off : Nat) : Nat :=
  let y := s.sys
  let half (q : RecQ) (base : Nat) : Nat := (alGetD q.recs ((off - base) / 16) 0).toNat / 2 ^ (64 * ((off - base) / 8 % 2)) % 2 ^ 64
  if off = 0x800 then y.bootStage.toNat * 256 + y.bootFail.toNat
  else if off = 0x1000 then hvSum s.pkg.hv
  else if 0x1100 ≤ off ∧ off < 0x1200 then
    let t := (off - 0x1100) / 32
    match off % 32 with
    | 0 => (alGetD s.pkg.hv.cores t (BitVec.allOnes 64)).toNat
    | 8 => (alGetD s.pkg.hv.slices t (BitVec.allOnes 32)).toNat
    | 16 => (alGetD s.pkg.hv.arrays t (BitVec.allOnes 16)).toNat
    | _ => 0
  else if off = 0x2000 then y.viol.ctl
  else if off = 0x2010 then y.frzsel.toNat
  else if off = 0x2018 then
    (if s.isFrozen y.frzsel.toNat then 2 ^ 63 else 0) + (alGetD y.heldSeq y.frzsel.toNat 0).toNat
  else if off = 0x2100 then y.mcheck.ctl
  else if 0x2200 ≤ off ∧ off < 0x2300 then half y.mcheck 0x2200
  else if off = 0x2400 then y.svcHead * 2 ^ 54 + y.svcTail * 2 ^ 44 + y.svcLast.toNat * 2 ^ 40
  else if off = 0x2800 then y.latent.ctl
  else if 0x2C00 ≤ off ∧ off < 0x3000 then (alGetD y.latent.recs ((off - 0x2C00) / 8) 0).toNat % 2 ^ 64
  else if 0x3000 ≤ off ∧ off < 0x4000 then half y.viol 0x3000
  else if off = 0x4008 then (if y.busy ≠ 0 then 2 ^ 63 else 0) + y.ctxn.toNat * 2 ^ 50 + y.result.toNat
  else if 0x8000 ≤ off ∧ off < 0xA000 then (alGetD y.notices ((off - 0x8000) / 8) 0).toNat
  else if 0x10000 ≤ off ∧ off < 0x50000 then
    let c := (off - 0x10000) / 0x1000
    if (s.ctxD c).st == .free then 0 else (s.queueD c (off % 0x1000 / 64)).read (off % 64)
  else 0
/-- A master reads a register of 8 bytes of control space: the table decides, and the value is kept as that master's (R42, R44; log
entry 88). A control core that reads a notice is the target of its record's edge (R302, R136). -/
def State.ctlRead (s : State) (mid off : Nat) : State :=
  if s.isFrozen mid ∨ mid ≥ 2 ^ 16 ∨ off % 8 ≠ 0 then s
  else match accCheck (s.table ctlTgt) mid .read off with
    | some (why, e) => s.refuse mid ctlTgt .read off why e
    | none =>
      let v := dw (s.readCtl off)
      let s := { s with sys := { s.sys with reads := alSet s.sys.reads mid v } }
      match midCore mid with
      | some c => if isCtlMid mid && decide (0x8000 ≤ off) && decide (off < 0xA000) then
          s.modCore c (fun c => { c with l1 := [], tex := [] }) else s
      | none => s

/-! ### Access tables (R42, R43) -/

/-- ACCESS_REFUSAL (R43): a request that the target's table does not allow. -/
def execAccessRefusal (mid tgt : Nat) (cls : ReqClass) (addr : Nat) (st : State) : Out := .next (
  if mid ≥ 2 ^ 16 ∨ tgt ≥ 2 ^ 16 then st
  else match accCheck (st.table tgt) mid cls addr with
    | none => st
    | some (why, e) => st.refuse mid tgt cls addr why e)
/-- Entries of a target's table; Root's tables are written through ACCT alone. -/
def tableSize (tgt : Nat) : Nat :=
  let d := tgt / 1024
  if d < 8 ∨ d = 16 then 256 else if d < 16 then 64 else 0
/-- An entry as it is stored: reserved bits read as zero. -/
def accStored (v : BitVec 128) : BitVec 128 := v &&& ~~~ BitVec.ofNat 128 0x0FFFFF20
/-- A write of entry idx by a master (R42): WHY 3 for one that is no control core, WHY 4 for a locked entry. -/
def State.writeAcc (s : State) (mid tgt idx : Nat) (v : BitVec 128) : State :=
  let tbl := s.table tgt
  if !isCtlMid mid then s.refuse mid tgt .tableWrite idx 3 255
  else if (alGetD tbl idx 0).getLsbD 6 then s.refuse mid tgt .tableWrite idx 4 idx
  else { s with mem := { s.mem with acc := alSet s.mem.acc (tgt / 1024) (alSet tbl idx (accStored v)) } }
/-- ACCESS_TABLE_WRITE. -/
def execAccessTableWrite (mid tgt idx : Nat) (v : BitVec 128) (st : State) : Out := .next (
  if st.isFrozen mid || decide (idx ≥ tableSize tgt) || decide (mid ≥ 2 ^ 16) then st else st.writeAcc mid tgt idx v)

end Sys2Proof.Machine
end

