-- ==== Sys2Proof/Machine/Power.lean ====
section
/-! DEFINITION. Power-on and boot (R36 to R40), clocks and temperature (R10, R15, R33, R34), links and routes (R16 to R20), counted
errors and harvesting (R30 to R32, R39, R48, R49), uncorrectable SRAM errors (R122, R123). -/
namespace Sys2Proof.Machine

/-! ### Routes (R20) -/

/-- A hop over a live link. -/
def hopUp (p : Pkg) (a b : Nat) : Bool := match meshLink a b with | some k => linkUp p k | none => false
/-- A path goes over live links alone. -/
def pathUp (p : Pkg) : List Nat → Bool
  | a :: b :: r => hopUp p a b && pathUp p (b :: r)
  | _ => true
/-- Paths of n hops over live links, lowest next-hop tiles first. -/
def walks (p : Pkg) : Nat → Nat → Nat → List (List Nat)
  | 0, a, b => if a = b then [[a]] else []
  | n + 1, a, b => ((List.range 8).filter (hopUp p a)).flatMap (fun c => (walks p n c b).map (a :: ·))
/-- The first of the shortest paths. -/
def firstWalk (p : Pkg) (a b : Nat) : Nat → Nat → Option (List Nat)
  | 0, _ => none
  | f + 1, n =>
    match walks p n a b with
    | w :: _ => some w
    | [] => firstWalk p a b f (n + 1)
/-- Tiles from x to y of one row or column. -/
def ramp (x y : Nat) : List Nat := if x ≤ y then (List.range (y - x + 1)).map (x + ·) else (List.range (x - y + 1)).map (x - ·)
/-- The path by columns first. -/
def xyPath (a b : Nat) : List Nat := (ramp (a % 4) (b % 4)).map (fun x => a / 4 * 4 + x) ++ ((ramp (a / 4) (b / 4)).drop 1).map (fun y => y * 4 + b % 4)
/-- The path by rows first. -/
def yxPath (a b : Nat) : List Nat := (ramp (a / 4) (b / 4)).map (fun y => y * 4 + a % 4) ++ ((ramp (a % 4) (b % 4)).drop 1).map (fun x => b / 4 * 4 + x)
/-- The route of a pair; none where the live links do not join it. -/
def route (p : Pkg) (a b : Nat) : Option (List Nat) :=
  match firstWalk p a b 8 0 with
  | none => none
  | some w =>
    let ok (q : List Nat) : Bool := q.length == w.length && pathUp p q
    some (if ok (xyPath a b) then xyPath a b else if ok (yxPath a b) then yxPath a b else w)
/-- All routes. -/
def allRoutes (p : Pkg) : AL (List Nat) :=
  (List.range 64).filterMap (fun k => (route p (k / 8) (k % 8)).map (fun r => (k, r)))
/-- A path crosses a mesh link. -/
def crosses (k : Nat) : List Nat → Bool
  | a :: b :: r => meshLink a b == some k || crosses k (b :: r)
  | _ => false
/-- Tiles joined to a tile by live links. -/
def joined (p : Pkg) (t : Nat) : List Nat := (List.range 8).filter (fun u => (firstWalk p t u 8 0).isSome)

/-! ### Harvest records (R30, R32, R39) -/

/-- The registers and the link modules out of service, as words in the order of a harvest record. -/
def hvWords (p : Pkg) : List DWord :=
  let h := p.hv
  dw (h.tlive.toNat * 2 ^ 56 + h.mlive.toNat * 2 ^ 42 + h.slive.toNat * 2 ^ 16) ::
    (List.range 8).flatMap (fun t => [alGetD h.cores t (BitVec.allOnes 64), dw (alGetD h.slices t (BitVec.allOnes 32)).toNat,
      dw (alGetD h.arrays t (BitVec.allOnes 16)).toNat]) ++
    (List.range 48).map (fun k => dw (((alGetD p.modules k []).map (2 ^ ·)).foldl (· + ·) 0))
/-- The harvest registers that a record gives (R32, R39). -/
def hvOf (gen : Nat) (ws : List DWord) : Harvest :=
  let tiles := List.range 8
  {
    tlive := BitVec.ofNat 8 (pf ws 0 63 56), mlive := BitVec.ofNat 10 (pf ws 0 51 42), msrv := 0
    slive := BitVec.ofNat 16 (pf ws 0 31 16), pend := 0, gen := BitVec.ofNat 8 gen
    cores := tiles.map (fun t => (t, wordAt ws (1 + 3 * t)))
    slices := tiles.map (fun t => (t, BitVec.ofNat 32 (wordAt ws (2 + 3 * t)).toNat))
    arrays := tiles.map (fun t => (t, BitVec.ofNat 16 (wordAt ws (3 + 3 * t)).toNat)) }
/-- The modules that a record takes out of service. -/
def hvModules (ws : List DWord) : AL (List Nat) :=
  ((List.range 48).map (fun k => (k, bitList (linkFull k) (wordAt ws (25 + k)).toNat))).filter (fun e => !e.2.isEmpty)
/-- What is live in both: a record signed by the device only retires (R39). -/
def Harvest.meet (h n : Harvest) : Harvest :=
  let tiles := List.range 8
  { n with
    tlive := h.tlive &&& n.tlive, mlive := h.mlive &&& n.mlive, slive := h.slive &&& n.slive
    cores := tiles.map (fun t => (t, alGetD h.cores t (BitVec.allOnes 64) &&& alGetD n.cores t (BitVec.allOnes 64)))
    slices := tiles.map (fun t => (t, alGetD h.slices t (BitVec.allOnes 32) &&& alGetD n.slices t (BitVec.allOnes 32)))
    arrays := tiles.map (fun t => (t, alGetD h.arrays t (BitVec.allOnes 16) &&& alGetD n.arrays t (BitVec.allOnes 16))) }
/-- The package under one more harvest record: one of Kilsol or of the owner is taken whole, one of the device only retires. -/
def Pkg.underRec (p : Pkg) (r : List Byte) : Pkg :=
  let ws := Config.harvestDec (recPayload r)
  let n := hvOf (recGen r) ws
  if recSigner r = 3 then
    { p with
      hv := p.hv.meet n
      modules := (hvModules ws).foldl (fun m e => alMod m e.1 [] (fun o => o ++ e.2.filter (fun x => !o.contains x))) p.modules }
  else { p with hv := n, modules := hvModules ws }
/-- The package under every valid harvest record, in rising GEN (R39). -/
def Pkg.underRecs (p : Pkg) : Pkg :=
  let rs := ((p.nor.map (·.2)).filter (fun r => recType r == 5 && recValid p r)).reverse
  (isort (fun a b => decide (recGen a ≤ recGen b)) rs).foldl Pkg.underRec { p with hv := .all, modules := [] }

/-! ### Boot (R36 to R40) -/

/-- A failed stage: the code is held, the boot ends and every control core stops. -/
def State.bootFails (s : State) (stage code : Nat) : State :=
  { s with
    sys := { s.sys with bootStage := BitVec.ofNat 8 stage, bootFail := BitVec.ofNat 8 code }
    pkg := { s.pkg with boot := none }
    ctls := (List.range 32).map (fun k => (k, { s.ctlD k with st := .stopped })) }
/-- An image into the SRAM of a control core, which starts at its first byte (log entry 9). -/
def State.startImage (s : State) (k : Nat) (img : List Byte) : State :=
  (s.modCtl k (fun c => { c with st := .running, sram := wrBytes [] 0 (min img.length Config.sramBytes) (numOf img) })).startSolo
    (512 + k) (s.ctlD k).ctx 0 0 []
/-- A capacity that a stack may have, in GiB (R26). -/
def capOk (c : Nat) : Bool := ([24, 36, 48, 64] : List Nat).contains c
/-- The next stage of a boot in progress (Table 2.1): its code is in STAGE, and its action is done or fails. Which core the supervisor
starts on and how DevID's certificate of the alias key is laid out are the model's (log entry 112). -/
def State.bootStep (s : State) : State :=
  match s.pkg.boot with
  | none => s
  | some b =>
    let enter (n : Nat) : State := { s with sys := { s.sys with bootStage := BitVec.ofNat 8 n } }
    match s.sys.bootStage.toNat with
    | 0 => if b.selfTest then enter 1 else s.bootFails 1 1
    | 1 =>
      match b.puf with
      | none => s.bootFails 2 2
      | some seed =>
        let p := { s.pkg with devSeed := some seed, devPub := edPublic seed }
        if (useRec p 3 (fun _ => true)).isNone then s.bootFails 2 2 else { enter 2 with pkg := p }
    | 2 => enter 3
    | 3 =>
      match pickImage s.pkg 1 with
      | .error c => s.bootFails 4 c
      | .ok (slot, _) => { enter 4 with pkg := { s.pkg with slot := slot } }
    | 4 =>
      match pickImage s.pkg 1, s.pkg.devSeed with
      | .ok (_, r), some seed =>
        let m := sha512 (recPayload r)
        let a := BitVec.ofNat 256 (sha512 (bytesOf 32 seed.toNat ++ bytesOf 64 m.toNat)).toNat
        let pub := bytesOf 32 (edPublic a).toNat
        { enter 5 with pkg := { s.pkg with
            aliasSeed := some a, aliasCert := pub ++ bytesOf 64 (edSign seed pub).toNat, measure := [Config.romDigest, m] } }.startImage
          0 (recPayload r)
      | _, _ => s.bootFails 4 4
    | 5 =>
      let cap (k : Nat) : Nat := alGetD s.mem.caps k Config.stackGiB
      if !b.links then s.bootFails 6 6
      else if !(List.range 16).all (fun k => cap k == cap 0) || !capOk (cap 0) then s.bootFails 6 7
      else enter 6
    | 6 =>
      let p := s.pkg.underRecs
      let p := { p with routes := allRoutes p }
      if p.hv.tlive == 0 then { s with pkg := p }.bootFails 7 8 else { enter 7 with pkg := p }
    | 7 =>
      match pickImage s.pkg 2 with
      | .error c => s.bootFails 8 c
      | .ok (_, r) =>
        let s := { enter 8 with
          pkg := { s.pkg with measure := s.pkg.measure ++ [sha512 (recPayload r)] }
          ctls := (List.range 32).map (fun k => (k, if k = 0 then s.ctlD 0 else { s.ctlD k with st := .exited })) }
        s.startImage 1 (recPayload r)
    | 8 => { enter 0x0F with pkg := { s.pkg with boot := none } }
    | _ => { s with pkg := { s.pkg with boot := none } }
/-- POWER_ON (R36): a package reset, then the boot's first stage. What the board's stacks and its store are is taken from the first
one (log entries 10, 11). -/
def execPowerOn (b : BootIn) (st : State) : Out := .next (
  let s := st.packageReset
  let s := match b.nor with
    | some n => if s.pkg.nor.isEmpty then { s with pkg := { s.pkg with nor := n } } else s
    | none => s
  let s := if s.mem.caps.isEmpty then { s with mem := { s.mem with caps := b.caps.zipIdx.map (fun c => (c.2, c.1)) } } else s
  { s with pkg := { s.pkg with boot := some b } }.bootStep)

/-! ### Clocks (R10, R15, R33, R34) -/

/-- Every die. -/
def allDies : List Nat := List.range 17 ++ (List.range 16).map (32 + ·)
/-- The highest clock of a die in MHz (R1; log entry 10). -/
def maxClock (die : Nat) : Nat := if die < 16 then 3000 else 2000
/-- The highest clock a die may take now. -/
def clockLimit (p : Pkg) (die : Nat) : Nat :=
  if p.coolantLow || p.throttled.contains die then 400 else min (maxClock die) (alGetD p.ceiling die (maxClock die))
/-- CLOCK_CHANGE (R10, R15): a step of 25 MHz from 400 MHz to the limit. -/
def execClockChange (die mhz : Nat) (st : State) : Out := .next (
  if allDies.contains die && mhz % 25 == 0 && decide (400 ≤ mhz) && decide (mhz ≤ clockLimit st.pkg die) then
    { st with pkg := { st.pkg with clock := alSet st.pkg.clock die mhz } }
  else st)
/-- A die's clock comes down to its limit. -/
def Pkg.clamp (p : Pkg) (die : Nat) : Pkg :=
  { p with clock := alSet p.clock die (min (alGetD p.clock die (maxClock die)) (clockLimit p die)) }
/-- POWER_CAP (R33): a clock ceiling comes down, those of the Marrow dies before those of the Chard dies. The manual does not say when a
ceiling rises again: it stands until package reset (log entry 80). -/
def execPowerCap (die mhz : Nat) (st : State) : Out := .next (
  let p := st.pkg
  let first := decide (8 ≤ die) || (List.range 8).all (fun t => decide (alGetD p.ceiling (8 + t) 3000 < 3000))
  if die < 16 && first && mhz % 25 == 0 && decide (400 ≤ mhz) && decide (mhz < alGetD p.ceiling die 3000) then
    { st with pkg := ({ p with ceiling := alSet p.ceiling die mhz }).clamp die }
  else st)
/-- THERMAL_THROTTLE (R34). -/
def execThermalThrottle (die : Nat) (st : State) : Out := .next (
  if allDies.contains die && !st.pkg.throttled.contains die then
    { st with pkg := ({ st.pkg with throttled := st.pkg.throttled ++ [die] }).clamp die }
  else st)
/-- THERMAL_RECOVER (R34). -/
def execThermalRecover (die : Nat) (st : State) : Out := .next (
  { st with pkg := { st.pkg with throttled := st.pkg.throttled.filter (· != die) } })
/-- A machine check whose master the manual does not name: a free value (Table 12.5). -/
def State.checkAnon (s : State) (kind ctx : Nat) : State :=
  let (f, s) := s.newFree
  s.machineCheck kind (f.toNat % 2 ^ 16) ctx 0
/-- DESTROY of every context that a condition names. -/
def State.destroyAll (s : State) (p : Nat × Ctx → Bool) : State := (s.ctxs.filter p).foldl (fun s c => s.destroyCtx c.1 none) s
/-- THERMAL_SHUTDOWN (R34). -/
def execThermalShutdown (die : Nat) (st : State) : Out := .next (
  if allDies.contains die then
    let s := (st.checkAnon 3 0).destroyAll (fun _ => true)
    { s with pkg := { s.pkg with powered := false } }
  else st)
/-- COOLANT_FLOW_LOW (R34). -/
def execCoolantFlowLow (st : State) : Out := .next (
  { st with pkg := allDies.foldl Pkg.clamp { st.pkg with coolantLow := true } })
/-- COOLANT_FLOW_RESTORE (R34). -/
def execCoolantFlowRestore (st : State) : Out := .next ({ st with pkg := { st.pkg with coolantLow := false } })

/-! ### Events of errors and links (R18, R27, R30) -/

/-- SRAM_CORRECTED_ERROR (R122): counted, no value changes. -/
def execSramCorrectedError (unit : HwUnit) (st : State) : Out := .next (
  match unit with
  | .linkModule _ _ => st
  | u => if unitOk u then st.countErr u else st)
/-- Contexts that a failed link ends (R18): by their device tiles, for a mesh link those whose traffic crosses it. -/
def onLink (p : Pkg) (k : Nat) (c : Nat × Ctx) : Bool :=
  let ts := c.2.devs.flatten
  if k < 10 then ts.any (fun a => ts.any (fun b => crosses k (alGetD p.routes (a * 8 + b) [])))
  else (linkTiles k).any (fun t => ts.contains t)
/-- A link below its minimum (R18): a machine check, the link is fenced at once, and the contexts on it end. -/
def State.failLink (s : State) (link : Nat) : State :=
  if s.pkg.fenced.contains link || decide (linkLive s.pkg link ≥ linkMin link) then s
  else
    let s := (s.checkAnon 2 0)
    ({ s with pkg := { s.pkg with fenced := s.pkg.fenced ++ [link] } } : State).destroyAll (onLink s.pkg link)
/-- A module goes out of service; the link goes on with the others (R18). -/
def Pkg.loseModule (p : Pkg) (link mod : Nat) : Pkg :=
  if (alGetD p.modules link []).contains mod then p else { p with modules := alMod p.modules link [] (fun l => l ++ [mod]) }
/-- Replays within a millisecond that take a module out of service (R18). -/
def replayMax : Nat := 1000
/-- FLIT_REPLAY (R18, R30): counted for its module, which goes out of service at once at 1,000 within a millisecond. -/
def execFlitReplay (m : LinkModule) (st : State) : Out := .next (
  if unitOk (.linkModule m.link m.mod) && !st.pkg.fenced.contains m.link then
    let ts := (alGetD st.pkg.replays (64 * m.link + m.mod) [] ++ [st.qclk]).filter (fun t => decide (t + 1000000 > st.qclk))
    let s := { st with pkg := { st.pkg with replays := alSet st.pkg.replays (64 * m.link + m.mod) ts } }
    let s := s.countErr (.linkModule m.link m.mod)
    if ts.length ≥ replayMax then { s with pkg := s.pkg.loseModule m.link m.mod }.failLink m.link else s
  else st)
/-- MODULE_RETIRE (R18): a module fewer; below the minimum the link fails. -/
def execModuleRetire (m : LinkModule) (st : State) : Out := .next (
  if !unitOk (.linkModule m.link m.mod) || st.pkg.fenced.contains m.link then st
  else { st with pkg := st.pkg.loseModule m.link m.mod }.failLink m.link)
/-- An error arises in a line of DRAM; the event and what it finds are the outside's (R27; log entry 86). -/
def State.flawAt (s : State) (pa : Nat) (found : ScrubFound) : State :=
  let la := lineOf pa
  if !inCapacity s.mem la || found == .clean then s else { s with mem := { s.mem with flaws := alSet s.mem.flaws la found } }
/-- What stands in a line of a stack is met by its scrub: corrected, counted and reported, or poisoned and its stack pending. -/
def State.scrubbed (st : State) (stk addr pa : Nat) : State :=
  let clear (s : State) : State := { s with mem := { s.mem with flaws := alDel s.mem.flaws pa } }
  match alGet st.mem.flaws pa with
  | some (.corrected sym) => ((clear st).errReport stk 1 0 0 addr (sym % 256)).countErr (.stack stk)
  | some (.uncorrectable sym) =>
    let s := clear st
    let s := { s with mem := { s.mem with poison := if s.mem.poison.contains pa then s.mem.poison else s.mem.poison ++ [pa] } }
    (s.errReport stk 7 0 0 addr (sym % 256)).markPending (.stack stk)
  | _ => st
/-- STACK_SCRUB (R27): what stands in a line, or arises in it now, is met. -/
def execStackScrub (stk line : Nat) (found : ScrubFound) (st : State) : Out := .next (
  let pa := directPa stk (line * 64)
  if stk ≥ 16 || !inCapacity st.mem pa || decide (line * 64 ≥ 2 ^ 36) then st
  else (st.flawAt pa found).scrubbed stk (line * 64) pa)

/-! ### Harvest drain (R30 to R32, R39, R48, R49) -/

/-- Retires one unit in the registers. -/
def Harvest.drop (h : Harvest) : HwUnit → Harvest
  | .core t c => { h with cores := alMod h.cores t (BitVec.allOnes 64) (fun m => m &&& ~~~ BitVec.ofNat 64 (2 ^ c)) }
  | .slice t k => { h with slices := alMod h.slices t (BitVec.allOnes 32) (fun m => m &&& ~~~ BitVec.ofNat 32 (2 ^ k)) }
  | .array t a => { h with arrays := alMod h.arrays t (BitVec.allOnes 16) (fun m => m &&& ~~~ BitVec.ofNat 16 (2 ^ a)) }
  | .stack k => { h with slive := h.slive &&& ~~~ BitVec.ofNat 16 (2 ^ k) }
  | .linkModule _ _ => h
/-- The pending modules go out of service. -/
def retireModules (p : Pkg) : Pkg :=
  p.pending.foldl (fun p u => match u with
    | .linkModule l m => p.loseModule l m
    | _ => p) p
/-- Both stacks of a tile are live, and the links to them. -/
def stacksUp (p : Pkg) (t : Nat) : Bool :=
  ([2 * t, 2 * t + 1] : List Nat).all (fun k => p.hv.slive.getLsbD k && linkUp p (32 + k))
/-- A tile keeps serving compute by R31, but for R20's cut. -/
def tileStays (p : Pkg) (t : Nat) : Bool :=
  decide (popN 64 (alGetD p.hv.cores t (BitVec.allOnes 64)).toNat ≥ 32) &&
    decide (popN 32 (alGetD p.hv.slices t (BitVec.allOnes 32)).toNat ≥ 24) &&
    decide (popN 16 (alGetD p.hv.arrays t (BitVec.allOnes 16)).toNat ≥ 12) && linkUp p (16 + t) && linkUp p (24 + t) && stacksUp p t
/-- The largest part of the mesh among tiles, the one of the lowest tile between equals (R20). -/
def largestPart (p : Pkg) (ts : List Nat) : List Nat :=
  ts.foldl (fun best t =>
    let part := (joined p t).filter (fun u => ts.contains u)
    if part.length > best.length then part else best) []
/-- A retired tile's memory still serves: a slice, both stacks, a live route to the tiles that stay (R49). -/
def memServes (p : Pkg) (stay : List Nat) (t : Nat) : Bool :=
  stacksUp p t && decide ((alGetD p.hv.slices t (BitVec.allOnes 32)).toNat ≠ 0) && (joined p t).any (fun u => stay.contains u)
/-- A mask of tiles. -/
def tileMask (ts : List Nat) : BitVec 8 := BitVec.ofNat 8 ((ts.map (2 ^ ·)).foldl (· + ·) 0)
/-- The device-signed record of a retirement (R30, R39). -/
def Pkg.writeHarvest (p : Pkg) : Pkg :=
  let gen := (match useRec p 5 (fun _ => true) with | some r => recGen r | none => 0) + 1
  match p.devSeed with
  | none => p
  | some seed => p.norAdd p.slot (mkRec 5 3 gen 0 (Config.harvestEnc (hvWords p)) seed)
/-- Every link. -/
def allLinks : List Nat := (List.range 48).filter isLink
/-- What a harvest drain brings about besides its registers: tiles whose memory is lost, links that fell below their minimum. -/
structure HarvestOut where
  lost : List Nat
  links : List Nat
deriving DecidableEq, Repr
/-- The registers and routes after the pending units retire (R30, R31, R48, R49). -/
def State.harvest (s : State) : State × HarvestOut :=
  let p := retireModules s.pkg
  let hv := p.pending.foldl Harvest.drop p.hv
  let fell := allLinks.filter (fun k => !p.fenced.contains k && decide (linkLive p k < linkMin k))
  let p := { p with fenced := p.fenced ++ fell }
  let hv := { hv with mlive := hv.mlive &&& ~~~ BitVec.ofNat 10 (((p.fenced.filter (· < 10)).eraseDups.map (2 ^ ·)).foldl (· + ·) 0) }
  let p := { p with hv := hv }
  let was := bitList 8 s.pkg.hv.tlive.toNat
  let fit := was.filter (tileStays p)
  let stay := largestPart p fit
  let retired := was.filter (fun t => !stay.contains t)
  let named (t : Nat) : Bool := s.ctxs.any (fun c => c.2.devs.flatten.contains t)
  let lost := (retired ++ bitList 8 s.pkg.hv.msrv.toNat).filter (fun t => !memServes p stay t)
  let served := (retired ++ bitList 8 s.pkg.hv.msrv.toNat).filter (fun t => memServes p stay t && named t)
  let changed := !p.pending.isEmpty || !retired.isEmpty || hv.mlive != s.pkg.hv.mlive
  let hv := { hv with tlive := tileMask stay, msrv := tileMask served, pend := 0, gen := if changed then hv.gen + 1 else hv.gen }
  let p := { p with hv := hv, pending := [] }
  let p := if changed then p.writeHarvest else p
  let p := { p with routes := allRoutes p }
  ({ s with pkg := p, sys := { s.sys with allDrain := false } }, ⟨lost, fell⟩)
/-- The rings whose slots stand in the store of an array that has retired are no longer valid (Table 8.4). -/
def State.dropStoreRings (s : State) : State :=
  { s with quads := s.quads.map (fun q =>
      if (alGetD s.pkg.hv.arrays (q.1 / 16) (BitVec.allOnes 16)).getLsbD (q.1 % 16) then q
      else (q.1, { q.2 with rings := q.2.rings.map (fun r => if r.2.store then (r.1, { r.2 with v := false }) else r) })) }
/-- Links that fell give a machine check, contexts whose memory is lost end with one of their own, and every other context that the drain
took goes on: nothing of it has run since (R18, R48, R49). -/
def State.afterHarvest (s : State) (d : HarvestOut) : State :=
  let s := s.dropStoreRings
  let s := d.links.foldl (fun s _ => s.checkAnon 2 0) s
  let gone := s.ctxs.filter (fun c => c.2.devs.flatten.any (fun t => d.lost.contains t))
  let s := gone.foldl (fun s c => (s.checkAnon 7 c.1).destroyCtx c.1 none) s
  let s := s.trimMsrv
  (s.ctxs.filter (fun c => c.2.allDrained)).foldl (fun s c => s.resumeCtx c.1) s
/-- HARVEST_APPLY (R48): once an ALL drain has left every context DRAINED, the pending units retire and HVSUM and the routes change
at once. -/
def execHarvestApply (st : State) : Out := .next (
  if !st.sys.allDrain || !st.ctxs.all (fun c => c.2.st == .drained) then st
  else st.harvest.1.afterHarvest st.harvest.2)

/-! ### Uncorrectable SRAM errors (R122 to R124) -/

/-- The L2 slice of a line (R107). -/
def homeSlice (h : Harvest) (pa : Nat) : Nat :=
  let k := pa / 2 ^ 36 % 2 * 2 ^ 30 + pa % 2 ^ 36 / 64
  let f (i : Nat) : Nat := k / 2 ^ (5 * i) % 32
  let x := f 0 ^^^ f 1 ^^^ f 2 ^^^ f 3 ^^^ f 4 ^^^ f 5 ^^^ (k / 2 ^ 30 % 2)
  let live := (alGetD h.slices (paStack pa / 2) (BitVec.allOnes 32)).toNat
  if live.testBit x then x
  else
    let on := bitList 32 live
    on.getD (((List.range 32).filter (fun i => !live.testBit i && decide (i < x))).length) x
/-- The context of the residency that owns a granule. -/
def granCtx (s : State) (core gran : Nat) : Option Nat := (((s.coreD core).granD gran).res.bind s.res?).map (·.ctx)
/-- The ring of a quad that lies over a byte of its array's ring store. -/
def ringAt (s : State) (arr a : Nat) : Option Ring :=
  ((s.quadD arr).rings.find? (fun r => r.2.v && r.2.store && decide (r.2.base * 64 ≤ a) &&
    decide (a < r.2.base * 64 + (r.2.nslot + 1) * r.2.slotBytes))).map (·.2)
/-- A thread is in the set of a run in progress. -/
def inRun (s : State) (t : Nat) : Bool :=
  match s.thr? t with
  | some th => (match th.loc with
    | .grp g tid => (match (s.laneD (s.laneOf t)).run with | some r => r.grp == g && r.set.contains tid | none => false)
    | _ => false)
  | none => false
/-- SRAM_UNCORRECTABLE_ERROR (R122, R123): by where it lies. A poisoned word waits for its consumer; a register's error is kept with
the register, and recorded as latent at once where its thread is in no run, else at the run's end if the run has not consumed it. The
manual does not say which granule and word a record of KIND 3 or 4 names, which line of its slice one of KIND 5, nor the context of a word
that no residency or context holds: free values. -/
def State.sramError (s : State) : SramPlace → State
  | .l1 core line => (s.modCore core (fun c => { c with l1 := c.l1.filter (·.pa != lineOf line) })).countErr (.core (coreTile core) (core % 64))
  | .l2Clean _ _ => s
  | .l2Dirty tile line =>
    let pa := lineOf line
    if paStack pa / 2 ≠ tile || !inCapacity s.mem pa then s
    else
      let k := homeSlice s.pkg.hv pa
      let s := { s with mem := { s.mem with
        poison := if s.mem.poison.contains pa then s.mem.poison else s.mem.poison ++ [pa]
        l2p := if s.mem.l2p.contains pa then s.mem.l2p else s.mem.l2p ++ [pa] } }
      let (f, s) := s.newFree
      let (x, s) := s.newFree
      let c := match s.ctxs.find? (fun c => c.2.holds pa) with | some c => c.1 | none => x.toNat % 64
      let s := s.latentRec 5 c tile 0 0 0 k (f.toNat % 49152)
      if (s.mem.l2p.filter (fun a => paStack a / 2 == tile && homeSlice s.pkg.hv a == k)).length > 16 then s.checkAnon 5 0 else s
  | .scratch core gran word =>
    let a := gran * Config.granBytes + 4 * word
    if core ≥ 512 ∨ gran ≥ 64 ∨ word ≥ 4096 then s
    else
      let (x, s) := s.newFree
      (s.modCore core (fun c => { c with poison := if c.poison.contains a then c.poison else c.poison ++ [a] })).latentRec 2
        ((granCtx s core gran).getD (x.toNat % 64)) (coreTile core) (core % 64) 0 0 gran word
  | .ringStore arr word =>
    if arr ≥ 128 ∨ 8 * word ≥ Config.arrBytes then s
    else
      let (x, s) := s.newFree
      let (y, s) := s.newFree
      let s := s.modArr arr (fun a => { a with
        ringPoison := if a.ringPoison.contains (8 * word) then a.ringPoison else a.ringPoison ++ [8 * word] })
      let c := match (ringAt s arr (8 * word)).bind (fun r => s.launch? r.own) with | some l => l.ctx | none => x.toNat % 64
      s.latentRec 3 c (8 + arr / 16) (arr % 16) 0 0 (y.toNat % 64) (y.toNat / 64 % 65536)
  | .accMem arr word =>
    if arr ≥ 128 ∨ 4 * word ≥ Config.arrBytes then s
    else
      let (x, s) := s.newFree
      let (y, s) := s.newFree
      let c := (s.arrD arr).owner
      let s := s.modArr arr (fun a => { a with
        amPoison := alMod a.amPoison (c.getD 0) [] (fun l => if l.contains (4 * word) then l else l ++ [4 * word]) })
      s.latentRec 4 (c.getD (x.toNat % 64)) (8 + arr / 16) (arr % 16) 0 0 (y.toNat % 64) (y.toNat / 64 % 65536)
  | .reg lane slot reg =>
    match alGet (s.laneD lane).slots slot with
    | none => s.latentReg 0 lane slot reg []
    | some t =>
      let latent := !inRun s t
      let ctx := match s.thr? t with | some th => th.id.ctx | none => 0
      let s := s.modThr t (fun th => { th with regs := th.regs.set reg { (th.reg reg) with uncorr := true, told := latent } })
      if latent then s.latentReg ctx lane slot reg (s.regGrans t) else s
  | .table rid =>
    match s.res? rid with
    | none => s
    | some r => (s.machineCheck 4 (coreMid r.core) r.ctx 0).destroyCtx r.ctx none
/-- SRAM_UNCORRECTABLE_ERROR. -/
def execSramUncorrectableError (place : SramPlace) (st : State) : Out := .next (st.sramError place)

end Sys2Proof.Machine
end

