-- ==== Sys2Proof/Machine/StackLink.lean ====
section
/-! DEFINITION. The Stack Link (R21 to R27): requests to a base die, their checks, their effect and their responses. -/
namespace Sys2Proof.Machine

/-! ### Requests (Table 1.5) -/

/-- Bits [hi:lo] of a slot. -/
def slotF (h : Line) (hi lo : Nat) : Nat := fld h.toNat hi lo
def hCmd (h : Line) : Nat := slotF h 63 58
def hTag (h : Line) : Nat := slotF h 57 48
def hSize (h : Line) : Nat := slotF h 47 46
def hAddr (h : Line) : Nat := slotF h 35 0
def hMid (h : Line) : Nat := slotF h 127 112
def hSub (h : Line) : Nat := slotF h 111 104
def hMask (h : Line) : Nat := slotF h 255 128
def hOpnd (h : Line) : Nat := slotF h 383 256
/-- Bytes a request covers. -/
def hBytes (h : Line) : Nat := 64 * (hSize h + 1)
/-- The commands of Table 1.6. -/
def stackCmds : List Nat := [1, 2, 3, 8, 16, 17, 24, 26]
/-- A master id names a die that exists (R8). -/
def midDie (mid : Nat) : Bool := decide (mid / 1024 < 17) || (decide (32 ≤ mid / 1024) && decide (mid / 1024 < 48))
/-- The zero fields of Table 1.5 for a command that uses SUB, MASK and OPND or not, and a master id of a die that exists (R8). -/
def headOk (h : Line) (sub mask opnd : Bool) : Bool :=
  midDie (hMid h) && decide (hSize h ≤ 1) && slotF h 45 36 == 0 && slotF h 103 64 == 0 && slotF h 511 384 == 0 && (sub || hSub h == 0) &&
    (if mask then hSize h == 1 || decide (hMask h < 2 ^ 64) else hMask h == 0) && (opnd || hOpnd h == 0)
/-- Aligned to the size of the request. -/
def sizeAligned (h : Line) : Bool := hAddr h % hBytes h == 0

/-! ### Responses and reports -/

/-- A response: header slot, then data (R23). -/
def State.respond (s : State) (stk : Nat) (h : Line) (status : Nat) (data : List Line) : State :=
  let head : Line := BitVec.ofNat 512 (hCmd h * 2 ^ 58 + hTag h * 2 ^ 48 + status * 2 ^ 44)
  s.modStack stk (fun k => { k with resps := k.resps ++ [(hTag h, head :: data)] })
/-- An error report of a request (Table 1.11). -/
def State.reqReport (s : State) (stk : Nat) (h : Line) (kind : Nat) : State :=
  s.errReport stk kind (hTag h) (hMid h) (hAddr h) 0xFF
/-- A request answered MALF: no memory changes (R22). The spec does not say how many data slots such a response carries: none
(log entry 93). -/
def State.malformedReq (s : State) (stk : Nat) (h : Line) : State := (s.reqReport stk h 5).respond stk h 5 []
/-- n data slots that nothing constrains. -/
def freeLines : Nat → X (List Line)
  | 0 => pure []
  | n + 1 => do
    let v ← freeBytes 8
    let r ← freeLines n
    pure (BitVec.ofNat 512 v :: r)
/-- A request beyond the capacity (STATUS ADDR): the data that comes back is free. -/
def State.beyondReq (s : State) (stk : Nat) (h : Line) (n : Nat) : State :=
  let (s, d) := attempt (freeLines n) s
  (s.reqReport stk h 3).respond stk h 3 (d.getD [])
/-- A command refused to its source (STATUS DENY). The spec does not say what its data slots hold: as many slots as the command's
answer has, of zeros (log entry 93). -/
def State.denyReq (s : State) (stk : Nat) (h : Line) (n : Nat) : State :=
  (s.reqReport stk h 4).respond stk h 4 (List.replicate n 0)
/-- What the DRAM finds at the lines that a request reads: the status OK, CE or UE (R23, R27). -/
def State.meetReq (s : State) (h : Line) (las : List Nat) : State × Nat :=
  let ce := las.any (fun a => match alGet s.mem.flaws a with | some (.corrected _) => true | _ => false)
  let s := las.foldl (fun s a => s.meetLine (hMid h) (hTag h) a) s
  (s, if las.any (fun a => s.mem.poison.contains a && !s.mem.l2p.contains a) then 2 else if ce then 1 else 0)
/-- Requests that a stack holds unanswered: the endpoint sends no request under a tag that one of them bears, so that tags name
them and no more than 1,024 are outstanding (R21, R23). -/
def tagFree (s : State) (stk : Nat) (h : Line) : Bool := (s.stackD stk).resps.all (fun r => r.1 != hTag h)
/-- A request of a command: nothing on a link that is fenced (R18), under a tag that is outstanding, or when the slot names another
command of Table 1.6; MALF for a bad one; else its effect. -/
def State.stackReq (s : State) (stk cmd : Nat) (h : Line) (ok : Bool) (f : State → State) : State :=
  if stk ≥ 16 || s.pkg.fenced.contains (32 + stk) || !tagFree s stk h then s
  else if hCmd h ≠ cmd && stackCmds.contains (hCmd h) then s
  else if hCmd h ≠ cmd || !ok then s.malformedReq stk h
  else f s

/-! ### Memory commands (R22, R24) -/

/-- The lines of a request. -/
def reqLines (stk : Nat) (h : Line) : List Nat := (List.range (hSize h + 1)).map (fun i => directPa stk (hAddr h) + 64 * i)
/-- A request lies within the stack. -/
def reqInside (s : State) (stk : Nat) (h : Line) (n : Nat) : Bool := decide (hAddr h + n ≤ stackCap s.mem stk)
/-- STACK_READ: the bytes as the DRAM holds them, with status CE where an error was corrected and UE where the data is poisoned. -/
def execStackRead (stk : Nat) (hdr : Line) (data : List Line) (st : State) : Out := .next (
  st.stackReq stk 1 hdr (headOk hdr false false false && sizeAligned hdr && data.isEmpty) (fun s =>
    if !reqInside s stk hdr (hBytes hdr) then s.beyondReq stk hdr (hSize hdr + 1)
    else
      let d : List Line := (reqLines stk hdr).map (fun a => BitVec.ofNat 512 (memRead s.mem none a 64))
      let (s, status) := s.meetReq hdr (reqLines stk hdr)
      s.respond stk hdr status d))
/-- Writes lines under a mask; a whole line written by WRITE clears its poison, WRITEM leaves it (R22, R27). -/
def stackPut (m : Memory) (keep : Bool) : List (Nat × Nat × Line) → Memory
  | [] => m
  | (a, mask, d) :: r =>
    let m' := memWriteMasked m none a mask d.toNat
    stackPut (if keep then { m' with poison := m.poison } else m') keep r
/-- STACK_WRITE. -/
def execStackWrite (stk : Nat) (hdr : Line) (data : List Line) (st : State) : Out := .next (
  st.stackReq stk 2 hdr (headOk hdr false false false && sizeAligned hdr && data.length == hSize hdr + 1) (fun s =>
    if !reqInside s stk hdr (hBytes hdr) then s.beyondReq stk hdr 0
    else
      let ws := (reqLines stk hdr).zip data |>.map (fun x => (x.1, 2 ^ 64 - 1, x.2))
      { s with mem := stackPut s.mem false ws }.respond stk hdr 0 []))
/-- STACK_WRITEM. -/
def execStackWritem (stk : Nat) (hdr : Line) (data : List Line) (st : State) : Out := .next (
  st.stackReq stk 3 hdr (headOk hdr false true false && sizeAligned hdr && data.length == hSize hdr + 1) (fun s =>
    if !reqInside s stk hdr (hBytes hdr) then s.beyondReq stk hdr 0
    else
      let ws := ((reqLines stk hdr).zip data).zipIdx.map (fun x => (x.1.1, hMask hdr / 2 ^ (64 * x.2) % 2 ^ 64, x.1.2))
      { s with mem := stackPut s.mem true ws }.respond stk hdr 0 []))
/-- Width in bytes of an ATOMIC operation. -/
def atomBytes (sub : Nat) : Nat := if [0, 2, 3, 11, 13, 14, 15, 16, 17].contains sub then 4 else 8
/-- ATOMIC's new value (Table 1.7): memory word, operand, comparand. -/
def atomNew (sub m v cmp : Nat) : Nat :=
  let w := 8 * atomBytes sub
  let v := v % 2 ^ w
  let c := cmp % 2 ^ w
  match sub with
  | 0 | 1 => (m + v) % 2 ^ w
  | 2 | 4 => if sx w m ≤ sx w v then m else v
  | 3 | 5 => if sx w m ≥ sx w v then m else v
  | 6 | 13 => m &&& v
  | 7 | 14 => m ||| v
  | 8 | 15 => m ^^^ v
  | 9 | 16 => v
  | 10 | 17 => if m = c then v else m
  | 11 => (fAdd f32 .rne 0 (f32.dec m) (f32.dec v)).1
  | _ => (fAdd f64 .rne 0 (f64.dec m) (f64.dec v)).1
/-- The operand fields of an ATOMIC that its operation does not use are zero: the comparand but for the two that compare
(Table 1.5). -/
def atomZero (h : Line) : Bool := hSub h == 10 || hSub h == 17 || hOpnd h / 2 ^ 64 == 0
/-- STACK_ATOMIC (R24): the old value comes back in the low bytes; a poisoned line stays as it is. -/
def execStackAtomic (stk : Nat) (hdr : Line) (data : List Line) (st : State) : Out := .next (
  let n := atomBytes (hSub hdr)
  let ok := headOk hdr true false true && hSize hdr == 0 && decide (hSub hdr ≤ 17) && atomZero hdr && hAddr hdr % n == 0 &&
    data.isEmpty
  st.stackReq stk 8 hdr ok (fun s =>
    if !reqInside s stk hdr n then s.beyondReq stk hdr 1
    else
      let pa := directPa stk (hAddr hdr)
      let old := memRead s.mem none pa n
      let d : List Line := [BitVec.ofNat 512 old]
      let (s, status) := s.meetReq hdr [lineOf pa]
      if status = 2 || s.mem.poison.contains (lineOf pa) then s.respond stk hdr 2 d
      else
        let new := atomNew (hSub hdr) old (hOpnd hdr % 2 ^ 64) (hOpnd hdr / 2 ^ 64)
        { s with mem := memWrite s.mem none pa n new }.respond stk hdr status d))

/-! ### Root commands (R25, Table 1.8) -/

/-- The bits of OPND that a ROOT operation uses (Table 1.8); the others are zero (Table 1.5). -/
def rootOpndBits (sub : Nat) : Nat := match sub with | 1 => 32 | 2 => 64 | _ => 0
/-- A well-formed ROOT slot of an operation. The spec gives no rule for a SIZE other than 64 bytes, or for data slots that Table 1.6 does
not have: both are taken as malformed, as in ACCT, DISC and ERRPOLL (log entry 93). -/
def rootOk (h : Line) (data : List Line) : Bool :=
  headOk h true false true && hSize h == 0 && hAddr h % 64 == 0 && decide (hOpnd h < 2 ^ rootOpndBits (hSub h)) && data.isEmpty
/-- The endpoint's table on a ROOT command that it passes on (R25, R42): class command, at the address the command names. A refusal freezes
the master, and the command comes back DENY. -/
def State.commandTo (s : State) (stk : Nat) (h : Line) (f : State → State) : State :=
  let pa := directPa stk (hAddr h)
  match accCheck (s.table (endpointOf pa)) (hMid h) .command pa with
  | none => f s
  | some (why, e) => (s.refuse (hMid h) (endpointOf pa) .command pa why e).denyReq stk h 1
/-- A ROOT command of an operation: nothing when the slot names another, MALF for one Table 1.8 does not list, DENY from a master that is no
control core or that the endpoint's table does not grant commands, ADDR beyond the stack's capacity (R21). -/
def State.rootReq (s : State) (stk sub : Nat) (h : Line) (data : List Line) (ok : Bool) (f : State → State) : State :=
  if hCmd h = 16 ∧ hSub h ≠ sub ∧ 1 ≤ hSub h ∧ hSub h ≤ 4 then s
  else s.stackReq stk 16 h (rootOk h data && hSub h == sub && ok) (fun s =>
    if !isCtlMid (hMid h) then s.denyReq stk h 1
    else if !reqInside s stk h 1 then s.beyondReq stk h 1
    else s.commandTo stk h f)
/-- Root runs. -/
def rootRuns (s : State) (stk : Nat) : Bool := (s.stackD stk).root == .running
/-- ROOT_LOADI: refused while Root runs. -/
def execRootLoadi (stk : Nat) (hdr : Line) (data : List Line) (st : State) : Out := .next (
  let n := hOpnd hdr % 2 ^ 32
  st.rootReq stk 1 hdr data (n % 64 == 0 && decide (n ≤ Config.sramBytes)) (fun s =>
    if rootRuns s stk then s.denyReq stk hdr 1
    else if !reqInside s stk hdr n then s.beyondReq stk hdr 1
    else
      let ls := (List.range (n / 64)).map (fun i => directPa stk (hAddr hdr) + 64 * i)
      let (s, status) := s.meetReq hdr ls
      if status = 2 then s.respond stk hdr 2 [0]
      else
        let m := ls.zipIdx.foldl (fun m a => wrBytes m (64 * a.2) 64 (memRead s.mem none a.1 64)) (s.stackD stk).sram
        (s.modStack stk (fun k => { k with sram := m })).respond stk hdr status [0]))
/-- The edge of a START (R136, R138): the control core that issued it drains its buffer, and Root drops the lines it kept. -/
def State.startEdge (s : State) (stk mid : Nat) : State :=
  let s := match midCore mid with | some c => s.drainCore c | none => s
  s.invalidate (544 + stk) 0
/-- ROOT_START: refused while Root runs. -/
def execRootStart (stk : Nat) (hdr : Line) (data : List Line) (st : State) : Out := .next (
  let off := hOpnd hdr % 2 ^ 18
  st.rootReq stk 2 hdr data (off % 12 == 0) (fun s =>
    if rootRuns s stk then s.denyReq stk hdr 1
    else
      let s := (s.startEdge stk (hMid hdr)).modStack stk (fun k => { k with root := .running, cls := 0, pcOff := off, stopReq := false, compl := hAddr hdr })
      (s.startSolo (544 + stk) 0 off 0 [w32 (hOpnd hdr), w32 (hOpnd hdr / 2 ^ 32)]).respond stk hdr 0 [0]))
/-- The thread of a Root engine. -/
def rootThread (s : State) (stk : Nat) : Option (Nat × Thr) :=
  match (s.laneD (coreLane (544 + stk) 0)).slots with
  | (_, t) :: _ => (s.thr? t).map (fun th => (t, th))
  | [] => none
/-- ROOT_STOP: at the next run boundary; between runs Root stands at one. -/
def execRootStop (stk : Nat) (hdr : Line) (data : List Line) (st : State) : Out := .next (
  st.rootReq stk 3 hdr data true (fun s =>
    let s := if !rootRuns s stk then s
      else match rootThread s stk with
        | some (t, th) =>
          if (s.laneD (coreLane (544 + stk) 0)).run.isNone then s.stopRoot t (544 + stk) .stopped 0 (th.pc % 2 ^ 18)
          else s.modStack stk (fun k => { k with stopReq := true })
        | none => s
    s.respond stk hdr 0 [0]))
/-- STATUS's word (Table 1.8). -/
def rootWord (s : State) (stk : Nat) : Nat :=
  let k := s.stackD stk
  let st : Nat := match k.root with | .idle => 0 | .running => 1 | .fault => 2 | .stopped => 3
  let pc := match rootThread s stk with | some (_, th) => th.pc % 2 ^ 18 | none => k.pcOff
  st * 2 ^ 62 + k.cls * 2 ^ 56 + pc * 2 ^ 38
/-- ROOT_STATUS. -/
def execRootStatus (stk : Nat) (hdr : Line) (data : List Line) (st : State) : Out := .next (
  st.rootReq stk 4 hdr data true (fun s => s.respond stk hdr 0 [BitVec.ofNat 512 (rootWord s stk)]))

/-! ### Access table, geometry, reports, responses -/

/-- STACK_ACCT (R22, R42): entry ADDR[11:6] of Root's table, from control cores alone; a locked entry is refused. A SIZE other than 64
bytes and other data slots than the one of Table 1.6 are malformed (log entry 93). -/
def execStackAcct (stk : Nat) (hdr : Line) (data : List Line) (st : State) : Out := .next (
  let d : Line := data.headD 0
  let ok := headOk hdr false false false && hSize hdr == 0 && hAddr hdr % 64 == 0 && data.length == 1 && d.toNat / 2 ^ 128 == 0
  st.stackReq stk 17 hdr ok (fun s =>
    let tgt := (32 + stk) * 1024
    if !reqInside s stk hdr 1 then s.beyondReq stk hdr 0 else
    let idx := hAddr hdr / 64 % 64
    let locked := (alGetD (s.table tgt) idx 0).getLsbD 6
    if isCtlMid (hMid hdr) && !locked then (s.writeAcc (hMid hdr) tgt idx (BitVec.ofNat 128 d.toNat)).respond stk hdr 0 []
    else (s.writeAcc (hMid hdr) tgt idx (BitVec.ofNat 128 d.toNat)).denyReq stk hdr 0))
/-- The geometry page (Table 1.9). -/
def discPage (m : Memory) (stk : Nat) : Line :=
  BitVec.ofNat 512 (numOf (bytesOf 2 1 ++ bytesOf 1 (alGetD m.caps stk Config.stackGiB) ++ bytesOf 1 16 ++ bytesOf 1 32 ++ bytesOf 1 2 ++ bytesOf 1 64 ++
    bytesOf 1 10 ++ bytesOf 2 1024 ++ bytesOf 2 256 ++ bytesOf 20 (Config.discVendor stk).toNat))
/-- STACK_DISC (R26); SIZE and data slots as for ROOT (log entry 93). -/
def execStackDisc (stk : Nat) (hdr : Line) (data : List Line) (st : State) : Out := .next (
  st.stackReq stk 24 hdr (headOk hdr false false false && hSize hdr == 0 && hAddr hdr == 0 && data.isEmpty)
    (fun s => s.respond stk hdr 0 [discPage s.mem stk]))
/-- STACK_ERRPOLL (R27): up to four reports, oldest first, zero-filled; SIZE and data slots as for ROOT (log entry 93). -/
def execStackErrpoll (stk : Nat) (hdr : Line) (data : List Line) (st : State) : Out := .next (
  st.stackReq stk 26 hdr (headOk hdr false false false && hSize hdr == 0 && hAddr hdr == 0 && data.isEmpty) (fun s =>
    let es := (s.stackD stk).errs
    let v := ((es.take 4).zipIdx.map (fun e => e.1.toNat * 2 ^ (128 * e.2))).foldl (· + ·) 0
    (s.modStack stk (fun k => { k with errs := es.drop 4 })).respond stk hdr 0 [BitVec.ofNat 512 v]))
/-- The error reports in the data slot of an ERRPOLL's response. -/
def pollReports (ls : List Line) : List (BitVec 128) :=
  match ls with
  | [h, d] => if hCmd h = 26 then
      ((List.range 4).map (fun i => BitVec.ofNat 128 (d.toNat / 2 ^ (128 * i)))).filter (· != 0) else []
  | _ => []
/-- STACK_RESPONSE (R23): the response that waits with the tag reaches the endpoint, which sends the reports that an ERRPOLL brings on to
Celeriac in arrival order (R27). -/
def execStackResponse (stk tag : Nat) (st : State) : Out := .next (
  match (st.stackD stk).resps.find? (fun r => r.1 == tag) with
  | none => st
  | some r =>
    let s := st.modStack stk (fun k => { k with resps := k.resps.erase r })
    { s with sys := { s.sys with reports := s.sys.reports ++ (pollReports r.2).map (fun e => (stk, e)) } })

end Sys2Proof.Machine
end

