-- ==== Sys2Proof/Machine/Agenda.lean ====
section
/-! DEFINITION. What happens next (log entry 3): the acts a step performs, and the act it takes where the agenda names none. -/
namespace Sys2Proof.Machine

/-! ### Time and caches -/

/-- Cycles pass on a die (R11). -/
def State.tickDie (s : State) (die n : Nat) : State :=
  { s with
    pkg := { s.pkg with cyc := alMod s.pkg.cyc die 0 (fun c => c + dw n) }
    cores := s.cores.map (fun k =>
      if coreDie k.1 = die ∧ coreStalled s k.1 then (k.1, { k.2 with stallC := k.2.stallC + n }) else k) }
/-- The dies that hold a cycle counter: eight Chards, eight Marrows, Celeriac (R11). -/
def cycDies : List Nat := List.range 17
/-- A die's clock in MHz (R10). -/
def Pkg.mhz (p : Pkg) (die : Nat) : Nat := alGetD p.clock die (maxClock die)
/-- What n nanoseconds from QCLK q on add to the cycles of a clock. -/
def cyclesIn (mhz q n : Nat) : Nat := mhz * (q + n) / 1000 - mhz * q / 1000
/-- What n cycles from CYC c on add to the nanoseconds of QCLK. -/
def nanosIn (mhz c n : Nat) : Nat := 1000 * (c + n) / mhz - 1000 * c / mhz
/-- QCLK moves by n nanoseconds (R12). -/
def State.tickQ (s : State) (n : Nat) : State := { s with pkg := { s.pkg with qclk := s.pkg.qclk + dw n } }
/-- Time passes: cycles of one die, or from 64 on nanoseconds of QCLK with the cycles of every die's clock (R10 to R12). -/
def State.tick (s : State) (die n : Nat) : State :=
  if die < 64 then s.tickDie die n
  else (cycDies.foldl (fun t d => t.tickDie d (cyclesIn (s.pkg.mhz d) s.qclk n)) s).tickQ n
/-- A lane's issue takes one cycle of its die, and QCLK moves by as much (R157). -/
def State.tickIssue (s : State) (die : Nat) : State :=
  (s.tickDie die 1).tickQ (nanosIn (s.pkg.mhz die) (s.cyc die) 1)
/-- A core gives up its copies of a line (R105). -/
def State.evictLine (s : State) (core pa : Nat) : State :=
  s.modCore core (fun c => { c with l1 := c.l1.filter (·.pa != pa) })
/-- A die gives up the cached translations of a page (R119). -/
def State.forgetTlb (s : State) (die ctx va : Nat) : State :=
  { s with mem := { s.mem with tlb := s.mem.tlb.filter (fun t =>
      !(t.die == die && t.ctx == ctx && decide (t.va ≤ va) && decide (va < t.va + 2 ^ t.size))) } }

/-! ### Acts -/

/-- The lane's next issue: an idle lane starts a run first. Each issue takes a clock of its die (R157). -/
def issueAct (ex : Meaning) (lane : Nat) (s : State) : Out :=
  let s := if (s.laneD lane).run.isNone then s.runStart lane else s
  match issueLane ex lane s with
  | .next s' => .next ({ s' with iss := { s'.iss with lane := lane } }.tickIssue (coreDie (laneCore lane)))
  | o => o
/-- One act. An instruction word is no event. -/
def doAct (ex : Meaning) (a : Act) (s : State) : Out :=
  match a with
  | .ev i => if i.isWord then .next s else ex i s
  | .issue lane => issueAct ex lane s
  | .evict core pa => .next (s.evictLine core pa)
  | .drain core => .next (s.drainCore core)
  | .untlb die ctx va => .next (s.forgetTlb die ctx va)
  | .tick die n => .next (s.tick die n)
  | .boot => .next s.bootStep
  | .flaw pa found => .next (s.flawAt pa found)
  | .ctlRead mid off => .next (s.ctlRead mid off)
  | .window ctx w => .next (s.openWindow ctx w)

/-! ### The default act -/

/-- An event as what it does to the state. -/
abbrev Due := State → Out
/-- The arrival of a result as its event. -/
def arrivalDue (a : Arrival) : Due :=
  if a.kind = 1 then execTraversalResult a.id else if a.kind = 2 then execTextureResult a.id else execResultArrival a.id
/-- Events of a quad that may be due. -/
def quadDue (q : Nat × Quad) : List Due :=
  (if q.2.copyq.isEmpty then [] else [execCopyStart q.1]) ++
    (q.2.copyq.filter (·.started)).flatMap (fun o => [execCopyComplete q.1 o.id, execCopyEngineError q.1 o.id])
/-- Events of an array's queue. -/
def arrDue (a : Nat × Arr) : List Due :=
  if a.2.q.isEmpty then [] else [execMatrixChunkServe a.1, execMatrixDrain a.1, execMatrixOpComplete a.1]
/-- Events of a core's bins. -/
def binDue (k : Nat × Core) : List Due :=
  k.2.bins.flatMap (fun b =>
    if b.2.sealed then [execBinPlace k.1 b.1, execBinSteal k.1 b.1] else [execBinFlushTimeout k.1 b.1, execNodeBinTimeout k.1 b.1])
/-- Events of a launch. -/
def launchDue (l : Nat × Launch) : List Due :=
  (List.range l.2.deps.length).map (fun d => execDrecRead l.1 d) ++
    [execDeadlineMiss l.1, execCountRead l.1, execDefaultsRead l.1, execUniformBlockRead l.1, execRoleTableRead l.1,
      execLaunchAdmit l.1, execGroupPlace l.1, execPreemptDecision l.1, execTriggerFire l.1, execLaunchComplete l.1]
/-- Events of a context's queues and devices. -/
def ctxDue (c : Nat × Ctx) : List Due :=
  c.2.queues.map (fun q => execSlotAccept c.1 q.1) ++ (List.range c.2.devs.length).map (fun d => execQuiescenceReport c.1 d)
/-- Events of a thread. -/
def thrDue (t : Nat × Thr) : List Due :=
  (if t.2.waits.isEmpty then [] else [execSleepExpire t.1]) ++ (if t.2.link.isSome then [execLinkFill t.1] else []) ++
    (if t.2.svc.isSome then [execFaultAreaRoom t.1] else [])
/-- Events of residencies. -/
def resDue (r : Nat × Res) : List Due :=
  if r.2.saved then [execResidencyRestore r.1] else if r.2.saving then [execResidencySave r.1] else []
/-- Quads that hold a launch with roles. -/
def roleQuads (s : State) : List Nat :=
  if s.launches.any (fun l => l.2.nrole != 0) then (s.ress.map (fun r => coreQuad r.2.core)).eraseDups else []
/-- The events that may be due, in a fixed order. -/
def State.dueEvs (s : State) : List Due :=
  s.thrs.flatMap thrDue ++ s.bars.map (fun b => execBarrierComplete b.1) ++ s.quads.flatMap quadDue ++ s.arrs.flatMap arrDue ++
    s.ress.flatMap resDue ++ s.cores.flatMap binDue ++ s.launches.flatMap launchDue ++ s.ctxs.flatMap ctxDue ++
    (roleQuads s).map execRoleEvaluation ++ s.stks.flatMap (fun k => k.2.resps.map (fun r => execStackResponse k.1 r.1)) ++
    (if s.sys.allDrain then [execHarvestApply] else [])
/-- An event changes the state. -/
def changes (s : State) (d : Due) : Bool :=
  match d s with
  | .next s' => s' != s
  | _ => false
/-- The first event that is due. -/
def State.firstEv (s : State) : Option Due := s.dueEvs.find? (changes s)
/-- The next lane in turn whose run can go on, or that a run start changes: it starts a run, or its threads fault at the start. -/
def State.firstLane (s : State) : Option Nat :=
  let ks := s.lanes.map (·.1)
  (ks.filter (· > s.iss.lane) ++ ks.filter (· ≤ s.iss.lane)).find? (fun l =>
    (s.laneD l).run.isSome || s.runStart l != s)
/-- What a step does where the agenda is empty: the next stage of a boot, a result that has not arrived, an event that is due, a lane,
time. -/
def State.defaultAct (ex : Meaning) (s : State) : Due :=
  if s.pkg.boot.isSome then fun s => .next s.bootStep else
  match s.arrivals with
  | a :: _ => arrivalDue a
  | [] =>
    match s.firstEv with
    | some e => e
    | none =>
      match s.firstLane with
      | some l => issueAct ex l
      | none => fun s => .next (s.tick 64 1)

/-- What follows an act: every wait that it has met ends. -/
def polled (o : Out) : Out :=
  match o with
  | .next s => .next s.pollAll
  | o => o
/-- One step over the meanings of the instructions: the agenda's first act, or the default one; then every wait that its act
has met ends. Without power only POWER_ON changes anything (R34). -/
def stepWith (ex : Meaning) (s : State) : Out :=
  if s.pkg.powered then
    match s.agenda with
    | a :: r => polled (doAct ex a { s with agenda := r })
    | [] => polled (s.defaultAct ex s)
  else
    match s.agenda with
    | .ev (.powerOn b) :: r => ex (.powerOn b) { s with agenda := r }
    | _ => .fault .noPower

/-! ### The word a step runs next (log entry 5) -/

/-- The words of a run from the one at hand on: the word, then zeros. -/
def wordAlone (w : Nat) : List Word := w32 w :: List.replicate 23 0
/-- The context of a loaded program: LIVE, all tiles, one device, every key, a placement region of 8 TiB. -/
def probeCtx : Ctx := { Ctx.empty with
  st := .live
  desc := [0, 2047 * 2 ^ 42 + 0xFF * 2 ^ 34, 0, dw (2 ^ 43), dw (2 ^ 24), dw (2 ^ 24), dw (2 ^ 20), dw (2 ^ 21)]
  devs := [List.range 8] }
/-- Its launch: TYPE 0, NCAP 32, 16 register, 4 scratchpad and 4 L1 granules, GCAP 1, one thread. -/
def probeLaunch : Launch := {
  ctx := 0, dev := 0, queue := 0, slotVa := 0
  pkt := [dw (32 * 2 ^ 32 + 16 * 2 ^ 26 + 4 * 2 ^ 20 + 4 * 2 ^ 15 + 1), 0, 0, 1, 0, 0, 0, 0, 0, 0, 0, 0, 0, 0, 0, 0]
  drop := false, aseq := 0, phase := .admitted, deps := [], count := some 1, uni := some [], dflt := some []
  roles := some [], tadm := 0, nthr := 1, frec := none, faulted := false, trigd := false, trigs := false, nextGrp := 1
  blocked := none, resv := [], victims := [], iidNext := [], pubs := [] }
/-- Its residency, on core 0. -/
def probeRes : Res := {
  launch := 0, ctx := 0, core := 0, slot := 0, rg := List.range 16, sg := [16, 17, 18, 19], lg := [20, 21, 22, 23]
  trapv := 0, srec := [], saved := false, saving := false, since := 0, spare := [], spoison := [], stags := [] }
/-- A machine on which such a program runs: a page that grants everything to the context is cached on die 0, the access tables
grant everything to every master, one thread of the launch stands on lane 0 of core 0 in a run of the words. -/
def State.load (s : State) (ws : List Word) : State :=
  let id := s.fresh
  let g := id
  let t := id + 1
  let r := id + 2
  let th := { Thr.start ⟨some 0, 0, 0, 0, false, none⟩ 0 [] 0 0 with loc := .grp g 0 }
  let grant : AL (BitVec 128) := [(0, BitVec.ofNat 128 ((2 ^ 34 - 1) * 2 ^ 28 + 0x9F))]
  { s with
    pkg := { s.pkg with powered := true }
    fresh := id + 3
    ctxs := alSet s.ctxs 0 probeCtx
    launches := alSet s.launches 0 probeLaunch
    ress := alSet s.ress r probeRes
    grps := alSet s.grps g ⟨some 0, 0, r, 0, 0, uniStart (some probeLaunch), 0, [], [], [(0, t)], [], 0, 1, 0, 0, some 0, 0, 0, none⟩
    thrs := alSet s.thrs t th
    lanes := alSet s.lanes 0 ⟨[g], [], some ⟨g, 0, ws, 0, [0], [0], [], [], [], none, [], [], [], false⟩, none, 1, [(0, t)], []⟩
    mem := { s.mem with
      tlb := ⟨0, 0, 0, 42, 0x3F⟩ :: s.mem.tlb
      acc := (List.range 48).foldl (fun a d => alSet a d grant) s.mem.acc } }
/-- The lane that issues next: one whose run has a thread left to issue for. -/
def State.nextLane (s : State) : Option Nat :=
  (s.lanes.find? (fun l => match l.2.run with | some r => !r.todo.isEmpty | none => false)).map (·.1)
/-- The word at hand of the lane that issues next becomes w; with no lane at a word, a program of that word is loaded. -/
def State.putWord (s : State) (w : Nat) : State :=
  match s.nextLane with
  | some lane =>
    { s.modLane lane (fun l => { l with
        run := l.run.map (fun r => { r with words := r.words.take r.wi ++ wordAlone w }) }) with
      pkg := { s.pkg with powered := true }, agenda := .issue lane :: s.agenda }
  | none => { s.load (wordAlone w) with agenda := .issue 0 :: s.agenda }

end Sys2Proof.Machine
end

