-- ==== Sys2Proof/Machine/Cvt.lean ====
section
/-! DEFINITION. Conversions: CVT, CVTN, PK2 (R358 to R360). -/
namespace Sys2Proof.Machine

/-- Width in bits of a type (R358). -/
def tyW : NumTy → Nat
  | .f16 | .bf16 => 16
  | .i32 | .n32 | .f32 => 32
  | .i64 | .n64 | .f64 => 64
/-- The format of a floating type. -/
def tyF : NumTy → IFmt
  | .f16 => f16
  | .bf16 => bf16
  | .f64 => f64
  | _ => f32
/-- Unsigned integer types. -/
def tyU : NumTy → Bool
  | .n32 | .n64 => true
  | _ => false

/-- Float to integer (R359). -/
def toInt (t : NumTy) (rm : RM) (u : Nat) (v : FV) : Nat × Word :=
  let w := tyW t
  match v with
  | .nan _ => (0, fIV)
  | .inf n => (modW w (if n then minInt' w (tyU t) else maxInt' w (tyU t)), fIV)
  | .fin _ _ _ =>
    let (y, ix) := roundInt rm u v.q
    if y < minInt' w (tyU t) then (modW w (minInt' w (tyU t)), fIV)
    else if y > maxInt' w (tyU t) then (modW w (maxInt' w (tyU t)), fIV)
    else (modW w y, flag ix fNX)
where
  minInt' (w : Nat) (u : Bool) : Int := if u then 0 else -(2 ^ (w - 1))
  maxInt' (w : Nat) (u : Bool) : Int := if u then 2 ^ w - 1 else 2 ^ (w - 1) - 1

/-- A code of a type as an integer. -/
def tyInt (t : NumTy) (c : Nat) : Int := if tyU t then (c % 2 ^ tyW t : Nat) else sx (tyW t) c

/-- CVT on a source code: the result code and flags (R359). -/
def cvtCode (f t : NumTy) (rm : RM) (u : Nat) (c : Nat) : Nat × Word :=
  match f.isInt, t.isInt with
  | true, true =>
    let x := tyInt f c
    let lo : Int := if tyU t then 0 else -(2 ^ (tyW t - 1))
    let hi : Int := if tyU t then 2 ^ tyW t - 1 else 2 ^ (tyW t - 1) - 1
    let r := satI x lo hi
    (modW (tyW t) r, flag (decide (r ≠ x)) fSATN)
  | true, false => (tyF t).round rm u false (Q.ofInt (tyInt f c))
  | false, true => toInt t rm u ((tyF f).dec (c % 2 ^ tyW f))
  | false, false =>
    match (tyF f).dec (c % 2 ^ tyW f) with
    | .nan s => ((tyF t).dnan, flag s fIV)
    | .inf n => ((tyF t).infCode n, 0)
    | .fin n m e => (tyF t).round rm u n (Q.dy (if n then -(m : Int) else m) e)

/-- A source of a type: 64-bit types read pairs; i32, n32 and f32 take NS (Table 14.1). -/
def tySrc (t : NumTy) (a : Src) : X Nat := do
  match t with
  | .i64 | .n64 | .f64 => do
    let v ← src64 a
    pure v.toNat
  | .f32 => do
    let v ← srcF 0 a
    pure v.toNat
  | .i32 | .n32 => do
    let v ← srcI 0 a
    pure v.toNat
  | .f16 | .bf16 => do
    let v ← src32 a
    pure (v.toNat % 2 ^ 16)

/-- CVT.to.from. -/
def execCvt (hd : Hd) (a : Src) (f t : NumTy) (r : RM) (st : State) : Out := runWord hd.gd 1 (do
  let c ← tySrc f a
  let u ← drawSR r
  let (v, fl) := cvtCode f t r u c
  raiseFlags fl
  pushN (decide (tyW t = 64)) v) st

/-- CVTN: the exact value of SA into ND's subfield, the other bits from SB (R360). -/
def cvtn (t : NumTy) (a b : Src) : X Unit := do
  let c ← tySrc t a
  let base ← src32 b
  let s ← get
  match s.iss.nd with
  | none => raise cILLEGAL 0
  | some nd =>
    if t.isInt then pushNarrow nd base ⟨.inr (Q.ofInt (tyInt t c)), false, 0⟩
    else
      let v := (tyF t).dec c
      pushNarrow nd base ⟨.inl (match v with | .nan _ => .nan false | w => w), v.neg, flag v.isSig fIV⟩
/-- CVTN.i32. -/
def execCvtnI32 (hd : Hd) (a b : Src) (st : State) : Out := runWord hd.gd 1 (cvtn .i32 a b) st
/-- CVTN.n32. -/
def execCvtnN32 (hd : Hd) (a b : Src) (st : State) : Out := runWord hd.gd 1 (cvtn .n32 a b) st
/-- CVTN.f32. -/
def execCvtnF32 (hd : Hd) (a b : Src) (st : State) : Out := runWord hd.gd 1 (cvtn .f32 a b) st
/-- CVTN.f64. -/
def execCvtnF64 (hd : Hd) (a b : Src) (st : State) : Out := runWord hd.gd 1 (cvtn .f64 a b) st

/-- PK2: two f32 values rounded into halves, a drawing before b (R360). -/
def pk2 (h : NumTy) (a b : Src) (r : RM) : X Unit := do
  let x ← src32 a
  let y ← src32 b
  let u0 ← drawSR r
  let u1 ← drawSR r
  let (c0, g0) := cvtCode .f32 h r u0 x.toNat
  let (c1, g1) := cvtCode .f32 h r u1 y.toNat
  raiseFlags (g0 ||| g1)
  push32 (w32 (c0 + 2 ^ 16 * c1))
/-- PK2.f16. -/
def execPk2F16 (hd : Hd) (a b : Src) (r : RM) (st : State) : Out := runWord hd.gd 1 (pk2 .f16 a b r) st
/-- PK2.bf16. -/
def execPk2Bf16 (hd : Hd) (a b : Src) (r : RM) (st : State) : Out := runWord hd.gd 1 (pk2 .bf16 a b r) st

end Sys2Proof.Machine
end

