-- ==== Sys2Proof/Machine/Port.lean ====
section
/-! DEFINITION. What the management port answers (R41, R45) and what enters below a PCIe port (R28). What a port sends is kept in
Pkg.outbox under its code: 0 boot-status frames, 1 SPDM, 2 Redfish, 3 pod ports, 4 + p PCIe sub-port p. -/
namespace Sys2Proof.Machine

/-- The management port (Table 1.2). -/
def mgmtMid : Nat := 16 * 1024 + 400
/-- Sends bytes on a port. -/
def State.send (s : State) (port : Nat) (bs : List Byte) : State :=
  { s with pkg := { s.pkg with outbox := s.pkg.outbox ++ [(port, bs)] } }
/-- Stage 0x0F has been reached (R45). -/
def booted (s : State) : Bool := s.sys.bootStage == 0x0F && s.sys.bootFail == 0
/-- The payload of the configuration record in use. -/
def cfgPayload (p : Pkg) : Option (List Byte) := (useRec p 6 (fun _ => true)).map recPayload
/-- The MAC address of the management port: the configuration record's, and before it is verified 02-00-00-00-00-00 (R45). Stage 0x04
verifies it, since it asks it for MINSVN (R38). -/
def macOf (s : State) : Nat :=
  match cfgPayload s.pkg with
  | some c => if s.sys.bootStage.toNat ≥ 4 then (Config.cfgMac c).toNat else 0x020000000000
  | none => 0x020000000000
/-- Where an answer comes from: MAC address, IP settings, and the TCP port, 4194 by default for SPDM (R41, R45). -/
def netOf (s : State) (port : Nat) : List Nat :=
  let c := cfgPayload s.pkg
  macOf s :: (if port = 1 then (c.bind Config.cfgTcpPort).getD 4194 else 443) :: (c.map Config.cfgIp).getD []
/-- A request on the management port is answered from stage 0x0F, unless the port is frozen (R43, R45). The message's layout is
the outside standard's. -/
def State.answer (s : State) (port kind : Nat) (args : List Nat) (content : List Byte) : State :=
  if booted s && !s.isFrozen mgmtMid then s.send port (Config.portReply kind (netOf s port ++ args) content) else s

/-! ### SPDM (R41): the codes of requests are those of SPDM 1.2 -/

/-- The certificate chain: the payload of the type 4 record, which certifies DevID, then DevID's certificate of the alias key (R37,
R40). -/
def certChain (p : Pkg) : List Byte := (match useRec p 4 (fun _ => true) with | some r => recPayload r | none => []) ++ p.aliasCert
/-- Measurement block i, from 1 (R41): what boot measured, and for block 4 the records active now. -/
def measureBlock (p : Pkg) (i : Nat) : List Byte :=
  if i = 4 then bytesOf 64 (sha512 (activeRecs p)).toNat
  else match p.measure[i - 1]? with | some m => bytesOf 64 m.toNat | none => []
/-- A signature by the alias key. -/
def aliasSign (p : Pkg) (msg : List Byte) : List Byte :=
  match p.aliasSeed with
  | some k => bytesOf 64 (edSign k msg).toNat
  | none => []
/-- GET_VERSION: version 1.2. -/
def execGetVersion (st : State) : Out := .next (st.answer 1 0x84 [1, 2] [])
/-- GET_CAPABILITIES. -/
def execGetCapabilities (st : State) : Out := .next (st.answer 1 0xE1 [] [])
/-- NEGOTIATE_ALGORITHMS: EdDSA Ed25519 and SHA-512. -/
def execNegotiateAlgorithms (st : State) : Out := .next (st.answer 1 0xE3 [25519, 512] [])
/-- GET_DIGESTS: SHA-512 of the chain. -/
def execGetDigests (st : State) : Out := .next (st.answer 1 0x81 [] (bytesOf 64 (sha512 (certChain st.pkg)).toNat))
/-- GET_CERTIFICATE: a part of the chain. -/
def execGetCertificate (off len : Nat) (st : State) : Out := .next (st.answer 1 0x82 [off, len] (((certChain st.pkg).drop off).take len))
/-- CHALLENGE: signed by the alias key over the transcript of the nonce. -/
def execChallenge (nonce : BitVec 256) (st : State) : Out := .next (
  let msg := Config.portReply 0x83 [nonce.toNat] (sha512 (certChain st.pkg) |>.toNat |> bytesOf 64)
  st.answer 1 0x83 [nonce.toNat] (aliasSign st.pkg msg))
/-- GET_MEASUREMENTS: one block of the four, or all of them at index 255; signed by the alias key where the request asks it. -/
def execGetMeasurements (r : MeasureReq) (st : State) : Out := .next (
  let c := if r.index = 255 then ([1, 2, 3, 4] : List Nat).flatMap (measureBlock st.pkg) else measureBlock st.pkg r.index
  st.answer 1 0xE0 [r.index, 4] (if r.sign then c ++ aliasSign st.pkg (Config.portReply 0xE0 [r.index, 4] c) else c))
/-- Codes of the requests R41 supports. -/
def spdmCodes : List Nat := [0x84, 0xE1, 0xE3, 0x81, 0x82, 0x83, 0xE0]
/-- SPDM_UNSUPPORTED_REQUEST: ERROR UnsupportedRequest for any other request. -/
def execSpdmUnsupportedRequest (code : Nat) (st : State) : Out := .next (
  if spdmCodes.contains code then st else st.answer 1 0x7F [code] [])

/-! ### Redfish, images, boot status (R45) -/

/-- Content of a resource: 1 Processor of a tile, 2 Memory of a stack, in GiB as DISC gives it. -/
def redfishData (s : State) (res index : Nat) : List Byte :=
  let p := s.pkg
  match res with
  | 1 => bytesOf 1 (if p.hv.tlive.getLsbD index then 1 else 0) ++ bytesOf 8 (alGetD p.hv.cores index (BitVec.allOnes 64)).toNat ++
      bytesOf 4 (alGetD p.hv.slices index (BitVec.allOnes 32)).toNat ++ bytesOf 2 (alGetD p.hv.arrays index (BitVec.allOnes 16)).toNat
  | _ => bytesOf 1 (alGetD s.mem.caps index Config.stackGiB)
/-- Chassis: the power and the temperature of each die, which are the die's own and free values here (R33, R34, R45). -/
def State.chassis (s : State) : State :=
  match freeBytes allDies.length s with
  | .ok v s => s.answer 2 0 [0] (bytesOf (8 * allDies.length) v)
  | .error _ s => s
/-- REDFISH_REQUEST: a resource that exists is served. -/
def execRedfishRequest (res index : Nat) (st : State) : Out := .next (
  if res = 0 ∧ index = 0 then st.chassis
  else if (res = 1 ∧ index < 8) ∨ (res = 2 ∧ index < 16) then st.answer 2 res [index] (redfishData st res index)
  else st)
/-- UPDATESERVICE_IMAGE_WRITE: the image goes to the inactive slot, in place of its type there, and is verified under R38. -/
def execUpdateserviceImageWrite (rec : List Byte) (st : State) : Out := .next (
  let t := recType rec
  if !booted st || st.isFrozen mgmtMid || (t != 1 && t != 2) then st
  else
    let slot := 1 - st.pkg.slot
    let p := ({ st.pkg with nor := st.pkg.nor.filter (fun e => !(e.1 == slot && recType e.2 == t)) }).norAdd slot rec
    let ok := match slotImage p t slot with | .ok _ => true | .error _ => false
    ({ st with pkg := p }).answer 2 3 [if ok then 1 else 0] [])
/-- The bytes of a number, most significant first, as Ethernet sends them. -/
def bytesNet (n v : Nat) : List Byte := (bytesOf n v).reverse
/-- BOOT_STATUS_FRAME (Table 2.5): until stage 0x0F, an Ethernet frame to the broadcast address of EtherType 0x88B5; FSEQ is the count of
frames sent before this one. -/
def execBootStatusFrame (st : State) : Out := .next (
  if booted st then st
  else
    let boot := st.sys.bootStage.toNat * 256 + st.sys.bootFail.toNat
    let bs := bytesNet 6 (2 ^ 48 - 1) ++ bytesNet 6 (macOf st) ++ bytesNet 2 0x88B5 ++ bytesOf 1 1 ++ bytesOf 1 1 ++ bytesOf 2 56 ++ bytesOf 8 boot ++ bytesOf 32 st.pkg.devPub.toNat ++
      bytesOf 8 st.pkg.fseq.toNat ++ bytesOf 8 0
    ({ st with pkg := { st.pkg with fseq := st.pkg.fseq + 1 } }).send 0 bs)

/-! ### PCIe (R28) -/

/-- Master id of a PCIe sub-port. -/
def pcieMid (port : Nat) : Nat := 16 * 1024 + 384 + port
/-- PCIE_INBOUND_REQUEST: it passes its target's access table as any master's (R28, R42); a frozen port takes nothing (R43). A read's
data goes back through the port. -/
def execPcieInboundRequest (port : Nat) (wr : Bool) (pa len : Nat) (data : List Byte) (st : State) : Out := .next (
  if port ≥ 16 || st.isFrozen (pcieMid port) || pa + len > 2 ^ 50 then st
  else
    let who : Who := ⟨pcieMid port, 16, 0, none, false, some 0⟩
    if wr then (attempt (writeLines who pa (len / 64 + 2) len (numOf (data.take len))) st).1
    else match attempt (readLines who .read pa (len / 64 + 2) len) st with
      | (s, some (v, _)) => s.send (4 + port) (bytesOf len v)
      | (s, none) => s)

end Sys2Proof.Machine
end

