-- ==== Sys2Proof/Machine/Sfu.lean ====
section
/-! DEFINITION. The special functions (R361, R362): the exact cases and special values as Tables 14.5 and 14.6 give them,
and otherwise a fixed value inside the table's bound, which the part alone chooses (Config.sfuPick; log entry 4). The
functions are computed in integers scaled by 2^160, far below any bound. -/
namespace Sys2Proof.Machine

/-! ### Fixed point with 160 fraction bits -/

/-- Scale of the fixed-point numbers. -/
def fxS : Nat := 2 ^ 160
/-- A non-negative rational in fixed point, rounded down. -/
def fxOf (x : Q) : Nat := x.n.toNat * fxS / x.d
/-- Taylor sum: term, then term · x / (k·c) and so on, n further terms; c is 1 or the next divisor's second factor. -/
def expSum (x : Nat) : Nat → Nat → Nat → Nat
  | 0, _, _ => 0
  | n + 1, k, t => t + expSum x n (k + 1) (t * x / fxS / (k + 1))
/-- e^x for 0 ≤ x < 1 in fixed point. -/
def fxExp (x : Nat) : Nat := expSum x 48 0 fxS
/-- Σ z^(2i+1)/(2i+1): atanh z for z ≤ 1/3 in fixed point. -/
def atanhSum (z2 : Nat) : Nat → Nat → Nat → Nat
  | 0, _, _ => 0
  | n + 1, k, p => p / (2 * k + 1) + atanhSum z2 n (k + 1) (p * z2 / fxS)
/-- atanh. -/
def fxAtanh (z : Nat) : Nat := atanhSum (z * z / fxS) 60 0 z
/-- ln 2 = 2·atanh(1/3). -/
def fxLn2 : Nat := 2 * fxAtanh (fxS / 3)
/-- Σ (−1)^i z^(2i+1)/(2i+1): atan z for small z. -/
def atanSum (z2 : Nat) : Nat → Nat → Int → Int
  | 0, _, _ => 0
  | n + 1, k, p => p / (2 * (k : Int) + 1) + atanSum z2 n (k + 1) (-(p * z2 / fxS))
/-- π by Machin's formula. -/
def fxPi : Nat :=
  let at_ (d : Nat) : Int := atanSum (fxS / d * (fxS / d) / fxS) 60 0 (fxS / d : Nat)
  (4 * (4 * at_ 5 - at_ 239)).toNat
/-- Alternating Taylor sum of sine and cosine from term t with divisors (k+1)(k+2). -/
def trigSum (x2 : Nat) : Nat → Nat → Int → Int
  | 0, _, _ => 0
  | n + 1, k, t => t + trigSum x2 n (k + 2) (-(t * x2 / fxS / ((k + 1) * (k + 2) : Nat)))
/-- sin of x for 0 ≤ x ≤ 1.6. -/
def fxSin (x : Nat) : Int := trigSum (x * x / fxS) 40 1 (x : Nat)
/-- Integer square root from the top bit down. -/
def isqrtFrom (a : Nat) : Nat → Nat → Nat
  | 0, r => r
  | k + 1, r => let r' := r + 2 ^ k; isqrtFrom a k (if r' * r' ≤ a then r' else r)
/-- Floor of the square root. -/
def isqrt (a : Nat) : Nat := isqrtFrom a (Nat.log2 a / 2 + 1) 0

/-! ### The functions on exact values -/

/-- √x for x > 0 with 160 bits and more: floor, and whether exact; the result is s / 2^k. -/
def sqrtQ (x : Q) : Q × Bool :=
  -- x = n/d; √x = √(n·d)/d
  let a := x.n.toNat * x.d
  let k := 200 + x.d.log2
  let s := isqrt (a * 2 ^ (2 * k))
  (⟨s, x.d * 2 ^ k⟩, decide (s * s = a * 2 ^ (2 * k)))
/-- 2^x. -/
def ex2Q (x : Q) : Q :=
  let n := x.floor
  let f := x.sub (Q.ofInt n)
  (⟨fxExp (fxOf f * fxLn2 / fxS), fxS⟩ : Q).shl n
/-- log2 x for x > 0. -/
def lg2Q (x : Q) : Q :=
  let e := log2Q x.n.toNat x.d
  let m := x.shl (-e)
  let z := (m.sub (Q.ofInt 1)).div (m.add (Q.ofInt 1))
  Q.add (Q.ofInt e) ⟨(2 * fxAtanh (fxOf z) * fxS / fxLn2 : Nat), fxS⟩
/-- sin(π x). -/
def sinpiQ (x : Q) : Q :=
  let k := (x.shl (-1)).floor
  let r := x.sub (Q.ofInt (2 * k))
  let (neg, r) := if r.lt (Q.ofInt 1) then (false, r) else (true, r.sub (Q.ofInt 1))
  let r := if Q.lt ⟨1, 2⟩ r then (Q.ofInt 1).sub r else r
  let v := fxSin (fxOf r * fxPi / fxS)
  ⟨if neg then -v else v, fxS⟩
/-- tanh x for x > 0. -/
def tanhQ (x : Q) : Q :=
  if x.lt ⟨1, 2 ^ 30⟩ then x.sub (((x.mul x).mul x).div (Q.ofInt 3))
  else if Q.lt (Q.ofInt 48) x then ⟨2 ^ 120 - 1, 2 ^ 120⟩
  else
    let t := fxOf (x.shl 1)
    let k := t / fxLn2
    let e := fxExp (t % fxLn2) * 2 ^ k
    ⟨((e - fxS : Nat) : Int), e + fxS⟩

/-! ### A value inside the bound -/

/-- Position of a code in the order of its format's values. -/
def ordOf (f : IFmt) (c : Nat) : Int := if c ≥ 2 ^ (f.eb + f.mb) then -((c : Int) - 2 ^ (f.eb + f.mb)) else c
/-- The code at a position. -/
def codeAt (f : IFmt) (i : Int) : Nat := if i < 0 then (2 ^ (f.eb + f.mb) + (-i).toNat) else i.toNat
/-- The spacing of a format's values at x. -/
def ulpAt (f : IFmt) (x : Q) : Q :=
  if x.n = 0 then Q.dy 1 (f.emin - f.mb) else Q.dy 1 (max (log2Q x.n.natAbs x.d) f.emin - f.mb)

/-- The part's value for op at input a: some code within B of y, never a step beyond lim in magnitude where one is given. -/
def within (f : IFmt) (op : Nat) (a : Nat) (y b : Q) (lim : Option Nat) : Nat × Word :=
  let (c0, fl) := f.round .rne 0 false y
  if fl &&& fOF ≠ 0 then (c0, fOF ||| fNX)
  else
    let b := b.sub (b.shl (-60))
    let (lo, _) := f.round .rup 0 false (y.sub b)
    let (hi, _) := f.round .rdn 0 false (y.add b)
    let top : Int := (lim.getD (f.maxCode false) : Nat)
    let lo := max (ordOf f lo) (-top)
    let hi := min (ordOf f hi) top
    let n := (hi - lo + 1).toNat
    let c := codeAt f (lo + ((Config.sfuPick op (BitVec.ofNat 64 a) % n : Nat) : Int))
    (c, fNX ||| (fl &&& fUF))

/-- A bound of n units in the last place. -/
def inUlp (f : IFmt) (op a : Nat) (y : Q) (n : Nat) (lim : Option Nat) : Nat × Word :=
  within f op a y ((ulpAt f y).mul (Q.ofInt n)) lim

/-- An exact result, whatever it rounds to. -/
def exactly (f : IFmt) (y : Q) (zneg : Bool) : Nat × Word :=
  let (c, fl) := f.round .rne 0 zneg y
  (c, fl)

/-- RCP and DRCP. -/
def rcpF (f : IFmt) (op a : Nat) : Nat × Word :=
  match f.dec a with
  | .nan s => (f.dnan, flag s fIV)
  | .inf n => (f.zeroCode n, 0)
  | .fin n 0 _ => (f.infCode n, fDZ)
  | .fin n m e =>
    let y := (Q.ofInt 1).div (Q.dy (if n then -(m : Int) else m) e)
    let (c, fl) := f.round .rne 0 n y
    if fl = 0 then (c, 0) else inUlp f op a y 1 none
/-- RSQ and DRSQ. -/
def rsqF (f : IFmt) (op a : Nat) : Nat × Word :=
  match f.dec a with
  | .nan s => (f.dnan, flag s fIV)
  | .inf n => if n then (f.dnan, fIV) else (f.zeroCode false, 0)
  | .fin n 0 _ => (f.infCode n, fDZ)
  | .fin true _ _ => (f.dnan, fIV)
  | .fin false m e =>
    let (s, ex) := sqrtQ (Q.dy m e)
    let y := (Q.ofInt 1).div s
    let (c, fl) := f.round .rne 0 false y
    if ex && fl == 0 then (c, 0) else inUlp f op a y 2 none
/-- SQRT, correctly rounded; NX is raised whatever the root, since Table 14.5 lists no exact case of it (R362). -/
def sqrtF (rm : RM) (u a : Nat) : Nat × Word :=
  match f32.dec a with
  | .nan s => (f32.dnan, flag s fIV)
  | .inf n => if n then (f32.dnan, fIV) else (a, 0)
  | .fin _ 0 _ => (a, 0)
  | .fin true _ _ => (f32.dnan, fIV)
  | .fin false m e =>
    let (s, ex) := sqrtQ (Q.dy m e)
    let (c, fl) := f32.round rm u false (if ex then s else ⟨2 * s.n + 1, 2 * s.d⟩)
    (c, fl ||| fNX)
/-- EX2: inputs beyond ±200 only say which way the result leaves the range. -/
def ex2F (a : Nat) : Nat × Word :=
  match f32.dec a with
  | .nan s => (f32.dnan, flag s fIV)
  | .inf n => if n then (0, 0) else (f32.infCode false, 0)
  | .fin n m e =>
    let x : Q := Q.dy (if n then -(m : Int) else m) e
    let x := (x.max (Q.ofInt (-200))).min (Q.ofInt 200)
    if x.eq (Q.ofInt x.floor) then
      let (c, fl) := exactly f32 ((Q.ofInt 1).shl x.floor) false
      if fl = 0 then (c, 0) else inUlp f32 3 a ((Q.ofInt 1).shl x.floor) 2 none
    else inUlp f32 3 a (ex2Q x) 2 none
/-- LG2: an absolute bound of 2^−22 on [0.5, 2], 2 ulp elsewhere. -/
def lg2F (a : Nat) : Nat × Word :=
  match f32.dec a with
  | .nan s => (f32.dnan, flag s fIV)
  | .inf n => if n then (f32.dnan, fIV) else (a, 0)
  | .fin _ 0 _ => (f32.infCode true, fDZ)
  | .fin true _ _ => (f32.dnan, fIV)
  | .fin false m e =>
    let x := Q.dy m e
    let k := log2Q x.n.toNat x.d
    if x.eq ((Q.ofInt 1).shl k) then exactly f32 (Q.ofInt k) false
    else if Q.le ⟨1, 2⟩ x && x.le (Q.ofInt 2) then within f32 4 a (lg2Q x) ⟨1, 2 ^ 22⟩ none
    else inUlp f32 4 a (lg2Q x) 2 none
/-- SINPI and COSPI: h is the half turn added, zn the sign of an exact zero. -/
def trigF (op a : Nat) (cos : Bool) : Nat × Word :=
  match f32.dec a with
  | .nan s => (f32.dnan, flag s fIV)
  | .inf _ => (f32.dnan, fIV)
  | .fin n m e =>
    let x : Q := Q.dy (if n then -(m : Int) else m) e
    let y := if cos then x.add ⟨1, 2⟩ else x
    let t := y.shl 1
    if t.eq (Q.ofInt t.floor) then
      match t.floor % 4 with
      | 1 => (f32.round .rne 0 false (Q.ofInt 1)).1 |> fun c => (c, 0)
      | 3 => (f32.round .rne 0 false (Q.ofInt (-1))).1 |> fun c => (c, 0)
      | _ => (f32.zeroCode (!cos && n), 0)
    else within f32 op a (sinpiQ y) ⟨1, 2 ^ 22⟩ none
/-- TANH: the magnitude never exceeds 1. -/
def tanhF (a : Nat) : Nat × Word :=
  match f32.dec a with
  | .nan s => (f32.dnan, flag s fIV)
  | .inf n => ((f32.round .rne 0 false (Q.ofInt (if n then -1 else 1))).1, 0)
  | .fin _ 0 _ => (a, 0)
  | .fin n m e =>
    let y := tanhQ (Q.dy m e)
    inUlp f32 7 a (if n then y.neg else y) 2 (some 0x3F800000)

/-- A special function of an f32: its result is a long-latency entry (R341). -/
def sfu32 (a : Src) (f : Nat → Nat × Word) : X Unit := do
  let x ← srcF 0 a
  let (c, fl) := f x.toNat
  raiseFlags fl
  pushLate (dw c) false
/-- A special function of an f64. -/
def sfu64 (a : Src) (f : Nat → Nat × Word) : X Unit := do
  let x ← src64 a
  let (c, fl) := f x.toNat
  raiseFlags fl
  pushLate (dw c) false

/-- RCP. -/
def execRcp (hd : Hd) (a : Src) (st : State) : Out := runWord hd.gd 1 (sfu32 a (rcpF f32 0)) st
/-- RSQ. -/
def execRsq (hd : Hd) (a : Src) (st : State) : Out := runWord hd.gd 1 (sfu32 a (rsqF f32 1)) st
/-- SQRT. -/
def execSqrt (hd : Hd) (a : Src) (r : RM) (st : State) : Out := runWord hd.gd 1 (do
  let x ← srcF 0 a
  let u ← drawSR r
  let (c, fl) := sqrtF r u x.toNat
  raiseFlags fl
  pushLate (dw c) false) st
/-- EX2. -/
def execEx2 (hd : Hd) (a : Src) (st : State) : Out := runWord hd.gd 1 (sfu32 a ex2F) st
/-- LG2. -/
def execLg2 (hd : Hd) (a : Src) (st : State) : Out := runWord hd.gd 1 (sfu32 a lg2F) st
/-- SINPI. -/
def execSinpi (hd : Hd) (a : Src) (st : State) : Out := runWord hd.gd 1 (sfu32 a (fun x => trigF 5 x false)) st
/-- COSPI. -/
def execCospi (hd : Hd) (a : Src) (st : State) : Out := runWord hd.gd 1 (sfu32 a (fun x => trigF 6 x true)) st
/-- TANH. -/
def execTanh (hd : Hd) (a : Src) (st : State) : Out := runWord hd.gd 1 (sfu32 a tanhF) st
/-- DRCP. -/
def execDrcp (hd : Hd) (a : Src) (st : State) : Out := runWord hd.gd 1 (sfu64 a (rcpF f64 8)) st
/-- DRSQ. -/
def execDrsq (hd : Hd) (a : Src) (st : State) : Out := runWord hd.gd 1 (sfu64 a (rsqF f64 9)) st

end Sys2Proof.Machine
end

