-- ==== Sys2Proof/Machine/Uniform.lean ====
section
/-! DEFINITION. Uniform words (R370 to R372): each computes once for the set, at the first true-guard thread's issue, and
its write takes effect at run end (R171). -/
namespace Sys2Proof.Machine

/-- Holds a write of uniform register e for run end. -/
def putUni (e : Nat) (v : Word) : X (List QEnt) := do
  modify (fun s => s.modRun (fun r => { r with uni := r.uni ++ [(s.iss.word, e, v)] }))
  pure []
/-- A uniform word of two 32-bit operands. -/
def uni2 (a b : Src) (e : Nat) (f : Nat → Nat → Nat) : X Unit := onceX (do
  let x ← src32 a
  let y ← src32 b
  putUni e (w32 (f x.toNat y.toNat)))

/-- UMOV. -/
def execUmov (hd : Hd) (a : Src) (e : Fin 64) (st : State) : Out := runWord hd.gd 0 (onceX (do
  let x ← src32 a
  putUni e.val x)) st
/-- UADD. -/
def execUadd (hd : Hd) (a b : Src) (e : Fin 64) (st : State) : Out := runWord hd.gd 0 (uni2 a b e.val (· + ·)) st
/-- USUB. -/
def execUsub (hd : Hd) (a b : Src) (e : Fin 64) (st : State) : Out :=
  runWord hd.gd 0 (uni2 a b e.val (fun x y => modW 32 ((x : Int) - y))) st
/-- UMUL. -/
def execUmul (hd : Hd) (a b : Src) (e : Fin 64) (st : State) : Out := runWord hd.gd 0 (uni2 a b e.val (· * ·)) st
/-- UAND. -/
def execUand (hd : Hd) (a b : Src) (e : Fin 64) (st : State) : Out := runWord hd.gd 0 (uni2 a b e.val (· &&& ·)) st
/-- UOR. -/
def execUor (hd : Hd) (a b : Src) (e : Fin 64) (st : State) : Out := runWord hd.gd 0 (uni2 a b e.val (· ||| ·)) st
/-- UXOR. -/
def execUxor (hd : Hd) (a b : Src) (e : Fin 64) (st : State) : Out := runWord hd.gd 0 (uni2 a b e.val (· ^^^ ·)) st
/-- USHL. -/
def execUshl (hd : Hd) (a b : Src) (e : Fin 64) (st : State) : Out := runWord hd.gd 0 (uni2 a b e.val (shlI 32)) st
/-- USHR. -/
def execUshr (hd : Hd) (a b : Src) (e : Fin 64) (st : State) : Out := runWord hd.gd 0 (uni2 a b e.val (shrI 32)) st
/-- UCMP: all ones, 0 or 1 as a is below, equal to or above b, signed. -/
def execUcmp (hd : Hd) (a b : Src) (e : Fin 64) (st : State) : Out := runWord hd.gd 0 (uni2 a b e.val (fun x y =>
  if sx 32 x < sx 32 y then 0xFFFFFFFF else if x = y then 0 else 1)) st
/-- USEL: the choice is by the register as the run's start left it. -/
def execUsel (hd : Hd) (a b : Src) (e : Fin 64) (st : State) : Out := runWord hd.gd 0 (onceX (do
  let x ← src32 a
  let y ← src32 b
  let s ← get
  putUni e.val (if s.curGrp.uni e.val = 0 then y else x))) st
/-- Of two words of a run that write one thing, the later one's write (R171). -/
def laterOf (old : Option (Nat × Nat)) (new : Nat × Nat) : Option (Nat × Nat) :=
  match old with
  | some o => if o.1 ≤ new.1 then some new else some o
  | none => some new
/-- UWIN: a base above 56 is an illegal operand. -/
def execUwin (hd : Hd) (a : Src) (st : State) : Out := runWord hd.gd 0 (onceX (do
  let x ← src32 a
  if x.toNat > 56 then operand
  else do
    modify (fun s => s.modRun (fun r => { r with uwin := laterOf r.uwin (s.iss.word, x.toNat) }))
    pure [])) st
/-- A cst load of n bytes for the set (R372); poisoned data faults the word. -/
def uldAt (a : Src) (n : Nat) : X Nat := do
  let x ← src64 a
  let v ← spaceLoad .cst x.toNat n
  needClean x.toNat v
/-- ULD. -/
def execUld (hd : Hd) (a : Src) (e : Fin 64) (st : State) : Out := runWord hd.gd 0 (onceX (do
  let v ← uldAt a 4
  putUni e.val (w32 v))) st
/-- ULD.64: two uniform registers. -/
def execUld64 (hd : Hd) (a : Src) (e : Fin 64) (st : State) : Out := runWord hd.gd 0 (onceX (do
  let v ← uldAt a 8
  let _ ← putUni e.val (w32 v)
  putUni (e.val + 1) (w32 (v / 2 ^ 32)))) st

end Sys2Proof.Machine
end

