-- ==== Sys2Proof/Machine/Dispatch.lean ====
section
/-! DEFINITION. exec: one arm per constructor of Instr. -/
namespace Sys2Proof.Machine

/-- The meaning of each instruction: one direct call. -/
def exec (i : Instr) (s : State) : Host.Outcome State Fault Refusal :=
  match i with
  | .add a0 a1 a2 a3 a4 a5 => Sys2Proof.Machine.execAdd a0 a1 a2 a3 a4 a5 s
  | .sub a0 a1 a2 a3 a4 a5 => Sys2Proof.Machine.execSub a0 a1 a2 a3 a4 a5 s
  | .mul a0 a1 a2 a3 a4 a5 => Sys2Proof.Machine.execMul a0 a1 a2 a3 a4 a5 s
  | .mulh a0 a1 a2 a3 a4 => Sys2Proof.Machine.execMulh a0 a1 a2 a3 a4 s
  | .div a0 a1 a2 a3 a4 => Sys2Proof.Machine.execDiv a0 a1 a2 a3 a4 s
  | .rem a0 a1 a2 a3 a4 => Sys2Proof.Machine.execRem a0 a1 a2 a3 a4 s
  | .min a0 a1 a2 a3 a4 => Sys2Proof.Machine.execMin a0 a1 a2 a3 a4 s
  | .max a0 a1 a2 a3 a4 => Sys2Proof.Machine.execMax a0 a1 a2 a3 a4 s
  | .abs a0 a1 a2 a3 => Sys2Proof.Machine.execAbs a0 a1 a2 a3 s
  | .neg a0 a1 a2 a3 => Sys2Proof.Machine.execNeg a0 a1 a2 a3 s
  | .and a0 a1 a2 a3 => Sys2Proof.Machine.execAnd a0 a1 a2 a3 s
  | .or a0 a1 a2 a3 => Sys2Proof.Machine.execOr a0 a1 a2 a3 s
  | .xor a0 a1 a2 a3 => Sys2Proof.Machine.execXor a0 a1 a2 a3 s
  | .andn a0 a1 a2 a3 => Sys2Proof.Machine.execAndn a0 a1 a2 a3 s
  | .not a0 a1 a2 => Sys2Proof.Machine.execNot a0 a1 a2 s
  | .shl a0 a1 a2 a3 => Sys2Proof.Machine.execShl a0 a1 a2 a3 s
  | .shr a0 a1 a2 a3 => Sys2Proof.Machine.execShr a0 a1 a2 a3 s
  | .sar a0 a1 a2 a3 => Sys2Proof.Machine.execSar a0 a1 a2 a3 s
  | .rot a0 a1 a2 a3 => Sys2Proof.Machine.execRot a0 a1 a2 a3 s
  | .popc a0 a1 a2 => Sys2Proof.Machine.execPopc a0 a1 a2 s
  | .clz a0 a1 a2 => Sys2Proof.Machine.execClz a0 a1 a2 s
  | .ctz a0 a1 a2 => Sys2Proof.Machine.execCtz a0 a1 a2 s
  | .brev a0 a1 a2 => Sys2Proof.Machine.execBrev a0 a1 a2 s
  | .mov a0 a1 a2 => Sys2Proof.Machine.execMov a0 a1 a2 s
  | .sel a0 a1 a2 a3 => Sys2Proof.Machine.execSel a0 a1 a2 a3 s
  | .sel64 a0 a1 a2 a3 => Sys2Proof.Machine.execSel64 a0 a1 a2 a3 s
  | .bfx a0 a1 a2 a3 => Sys2Proof.Machine.execBfx a0 a1 a2 a3 s
  | .dot4 a0 a1 a2 a3 => Sys2Proof.Machine.execDot4 a0 a1 a2 a3 s
  | .dotn a0 a1 a2 a3 => Sys2Proof.Machine.execDotn a0 a1 a2 a3 s
  | .unpackp a0 a1 a2 => Sys2Proof.Machine.execUnpackp a0 a1 a2 s
  | .mad a0 a1 a2 a3 => Sys2Proof.Machine.execMad a0 a1 a2 a3 s
  | .madw a0 a1 a2 a3 => Sys2Proof.Machine.execMadw a0 a1 a2 a3 s
  | .addc a0 a1 a2 a3 => Sys2Proof.Machine.execAddc a0 a1 a2 a3 s
  | .subb a0 a1 a2 a3 => Sys2Proof.Machine.execSubb a0 a1 a2 a3 s
  | .shf a0 a1 a2 a3 => Sys2Proof.Machine.execShf a0 a1 a2 a3 s
  | .bfi a0 a1 a2 a3 => Sys2Proof.Machine.execBfi a0 a1 a2 a3 s
  | .perm a0 a1 a2 a3 => Sys2Proof.Machine.execPerm a0 a1 a2 a3 s
  | .lea a0 a1 a2 a3 => Sys2Proof.Machine.execLea a0 a1 a2 a3 s
  | .addImm a0 a1 a2 => Sys2Proof.Machine.execAddImm a0 a1 a2 s
  | .andImm a0 a1 a2 => Sys2Proof.Machine.execAndImm a0 a1 a2 s
  | .orImm a0 a1 a2 => Sys2Proof.Machine.execOrImm a0 a1 a2 s
  | .xorImm a0 a1 a2 => Sys2Proof.Machine.execXorImm a0 a1 a2 s
  | .shlImm a0 a1 a2 => Sys2Proof.Machine.execShlImm a0 a1 a2 s
  | .shrImm a0 a1 a2 => Sys2Proof.Machine.execShrImm a0 a1 a2 s
  | .sarImm a0 a1 a2 => Sys2Proof.Machine.execSarImm a0 a1 a2 s
  | .mulImm a0 a1 a2 => Sys2Proof.Machine.execMulImm a0 a1 a2 s
  | .cmp a0 a1 a2 a3 a4 a5 a6 a7 => Sys2Proof.Machine.execCmp a0 a1 a2 a3 a4 a5 a6 a7 s
  | .fcmp a0 a1 a2 a3 a4 a5 => Sys2Proof.Machine.execFcmp a0 a1 a2 a3 a4 a5 s
  | .dcmp a0 a1 a2 a3 a4 a5 => Sys2Proof.Machine.execDcmp a0 a1 a2 a3 a4 a5 s
  | .fcmpH a0 a1 a2 a3 a4 a5 => Sys2Proof.Machine.execFcmpH a0 a1 a2 a3 a4 a5 s
  | .plop a0 a1 a2 a3 a4 => Sys2Proof.Machine.execPlop a0 a1 a2 a3 a4 s
  | .packp a0 => Sys2Proof.Machine.execPackp a0 s
  | .fadd a0 a1 a2 a3 => Sys2Proof.Machine.execFadd a0 a1 a2 a3 s
  | .fsub a0 a1 a2 a3 => Sys2Proof.Machine.execFsub a0 a1 a2 a3 s
  | .fmul a0 a1 a2 a3 => Sys2Proof.Machine.execFmul a0 a1 a2 a3 s
  | .fmin a0 a1 a2 => Sys2Proof.Machine.execFmin a0 a1 a2 s
  | .fmax a0 a1 a2 => Sys2Proof.Machine.execFmax a0 a1 a2 s
  | .fminn a0 a1 a2 => Sys2Proof.Machine.execFminn a0 a1 a2 s
  | .fmaxn a0 a1 a2 => Sys2Proof.Machine.execFmaxn a0 a1 a2 s
  | .frnd a0 a1 a2 => Sys2Proof.Machine.execFrnd a0 a1 a2 s
  | .fscale a0 a1 a2 a3 => Sys2Proof.Machine.execFscale a0 a1 a2 a3 s
  | .fgetx a0 a1 => Sys2Proof.Machine.execFgetx a0 a1 s
  | .fclass a0 a1 => Sys2Proof.Machine.execFclass a0 a1 s
  | .hadd2 a0 a1 a2 a3 => Sys2Proof.Machine.execHadd2 a0 a1 a2 a3 s
  | .hmul2 a0 a1 a2 a3 => Sys2Proof.Machine.execHmul2 a0 a1 a2 a3 s
  | .ffma a0 a1 a2 a3 a4 => Sys2Proof.Machine.execFfma a0 a1 a2 a3 a4 s
  | .fdot2 a0 a1 a2 a3 => Sys2Proof.Machine.execFdot2 a0 a1 a2 a3 s
  | .fdot2Bf a0 a1 a2 a3 => Sys2Proof.Machine.execFdot2Bf a0 a1 a2 a3 s
  | .hfma2 a0 a1 a2 a3 a4 => Sys2Proof.Machine.execHfma2 a0 a1 a2 a3 a4 s
  | .dadd a0 a1 a2 a3 => Sys2Proof.Machine.execDadd a0 a1 a2 a3 s
  | .dsub a0 a1 a2 a3 => Sys2Proof.Machine.execDsub a0 a1 a2 a3 s
  | .dmul a0 a1 a2 a3 => Sys2Proof.Machine.execDmul a0 a1 a2 a3 s
  | .dmin a0 a1 a2 => Sys2Proof.Machine.execDmin a0 a1 a2 s
  | .dmax a0 a1 a2 => Sys2Proof.Machine.execDmax a0 a1 a2 s
  | .drnd a0 a1 a2 => Sys2Proof.Machine.execDrnd a0 a1 a2 s
  | .dscale a0 a1 a2 a3 => Sys2Proof.Machine.execDscale a0 a1 a2 a3 s
  | .dgetx a0 a1 => Sys2Proof.Machine.execDgetx a0 a1 s
  | .dclass a0 a1 => Sys2Proof.Machine.execDclass a0 a1 s
  | .dfma a0 a1 a2 a3 a4 => Sys2Proof.Machine.execDfma a0 a1 a2 a3 a4 s
  | .cvt a0 a1 a2 a3 a4 => Sys2Proof.Machine.execCvt a0 a1 a2 a3 a4 s
  | .cvtnI32 a0 a1 a2 => Sys2Proof.Machine.execCvtnI32 a0 a1 a2 s
  | .cvtnN32 a0 a1 a2 => Sys2Proof.Machine.execCvtnN32 a0 a1 a2 s
  | .cvtnF32 a0 a1 a2 => Sys2Proof.Machine.execCvtnF32 a0 a1 a2 s
  | .cvtnF64 a0 a1 a2 => Sys2Proof.Machine.execCvtnF64 a0 a1 a2 s
  | .pk2F16 a0 a1 a2 a3 => Sys2Proof.Machine.execPk2F16 a0 a1 a2 a3 s
  | .pk2Bf16 a0 a1 a2 a3 => Sys2Proof.Machine.execPk2Bf16 a0 a1 a2 a3 s
  | .rcp a0 a1 => Sys2Proof.Machine.execRcp a0 a1 s
  | .rsq a0 a1 => Sys2Proof.Machine.execRsq a0 a1 s
  | .sqrt a0 a1 a2 => Sys2Proof.Machine.execSqrt a0 a1 a2 s
  | .ex2 a0 a1 => Sys2Proof.Machine.execEx2 a0 a1 s
  | .lg2 a0 a1 => Sys2Proof.Machine.execLg2 a0 a1 s
  | .sinpi a0 a1 => Sys2Proof.Machine.execSinpi a0 a1 s
  | .cospi a0 a1 => Sys2Proof.Machine.execCospi a0 a1 s
  | .tanh a0 a1 => Sys2Proof.Machine.execTanh a0 a1 s
  | .drcp a0 a1 => Sys2Proof.Machine.execDrcp a0 a1 s
  | .drsq a0 a1 => Sys2Proof.Machine.execDrsq a0 a1 s
  | .xshuf a0 a1 a2 a3 => Sys2Proof.Machine.execXshuf a0 a1 a2 a3 s
  | .vote a0 a1 a2 a3 => Sys2Proof.Machine.execVote a0 a1 a2 a3 s
  | .reduce a0 a1 a2 a3 a4 => Sys2Proof.Machine.execReduce a0 a1 a2 a3 a4 s
  | .scan a0 a1 a2 a3 a4 => Sys2Proof.Machine.execScan a0 a1 a2 a3 a4 s
  | .scanX a0 a1 a2 a3 a4 => Sys2Proof.Machine.execScanX a0 a1 a2 a3 a4 s
  | .matchX a0 a1 a2 => Sys2Proof.Machine.execMatchX a0 a1 a2 s
  | .elect a0 => Sys2Proof.Machine.execElect a0 s
  | .intf a0 a1 a2 a3 a4 a5 => Sys2Proof.Machine.execIntf a0 a1 a2 a3 a4 a5 s
  | .fltf a0 a1 a2 a3 a4 a5 a6 => Sys2Proof.Machine.execFltf a0 a1 a2 a3 a4 a5 a6 s
  | .umov a0 a1 a2 => Sys2Proof.Machine.execUmov a0 a1 a2 s
  | .uadd a0 a1 a2 a3 => Sys2Proof.Machine.execUadd a0 a1 a2 a3 s
  | .usub a0 a1 a2 a3 => Sys2Proof.Machine.execUsub a0 a1 a2 a3 s
  | .umul a0 a1 a2 a3 => Sys2Proof.Machine.execUmul a0 a1 a2 a3 s
  | .uand a0 a1 a2 a3 => Sys2Proof.Machine.execUand a0 a1 a2 a3 s
  | .uor a0 a1 a2 a3 => Sys2Proof.Machine.execUor a0 a1 a2 a3 s
  | .uxor a0 a1 a2 a3 => Sys2Proof.Machine.execUxor a0 a1 a2 a3 s
  | .ushl a0 a1 a2 a3 => Sys2Proof.Machine.execUshl a0 a1 a2 a3 s
  | .uld a0 a1 a2 => Sys2Proof.Machine.execUld a0 a1 a2 s
  | .uld64 a0 a1 a2 => Sys2Proof.Machine.execUld64 a0 a1 a2 s
  | .ushr a0 a1 a2 a3 => Sys2Proof.Machine.execUshr a0 a1 a2 a3 s
  | .ucmp a0 a1 a2 a3 => Sys2Proof.Machine.execUcmp a0 a1 a2 a3 s
  | .usel a0 a1 a2 a3 => Sys2Proof.Machine.execUsel a0 a1 a2 a3 s
  | .uwin a0 a1 => Sys2Proof.Machine.execUwin a0 a1 s
  | .ld a0 a1 a2 a3 a4 => Sys2Proof.Machine.execLd a0 a1 a2 a3 a4 s
  | .ldS a0 a1 a2 a3 a4 => Sys2Proof.Machine.execLdS a0 a1 a2 a3 a4 s
  | .pref a0 a1 a2 => Sys2Proof.Machine.execPref a0 a1 a2 s
  | .cache a0 a1 a2 a3 => Sys2Proof.Machine.execCache a0 a1 a2 a3 s
  | .st a0 a1 a2 a3 a4 => Sys2Proof.Machine.execSt a0 a1 a2 a3 a4 s
  | .reddAdd a0 a1 a2 a3 => Sys2Proof.Machine.execReddAdd a0 a1 a2 a3 s
  | .reddFadd a0 a1 a2 a3 => Sys2Proof.Machine.execReddFadd a0 a1 a2 a3 s
  | .reddMin a0 a1 a2 a3 => Sys2Proof.Machine.execReddMin a0 a1 a2 a3 s
  | .reddMax a0 a1 a2 a3 => Sys2Proof.Machine.execReddMax a0 a1 a2 a3 s
  | .reddMinU a0 a1 a2 a3 => Sys2Proof.Machine.execReddMinU a0 a1 a2 a3 s
  | .reddMaxU a0 a1 a2 a3 => Sys2Proof.Machine.execReddMaxU a0 a1 a2 a3 s
  | .reddOr a0 a1 a2 a3 => Sys2Proof.Machine.execReddOr a0 a1 a2 a3 s
  | .atomAdd a0 a1 a2 a3 a4 => Sys2Proof.Machine.execAtomAdd a0 a1 a2 a3 a4 s
  | .atomFadd a0 a1 a2 a3 a4 => Sys2Proof.Machine.execAtomFadd a0 a1 a2 a3 a4 s
  | .atomMin a0 a1 a2 a3 a4 => Sys2Proof.Machine.execAtomMin a0 a1 a2 a3 a4 s
  | .atomMax a0 a1 a2 a3 a4 => Sys2Proof.Machine.execAtomMax a0 a1 a2 a3 a4 s
  | .atomAnd a0 a1 a2 a3 a4 => Sys2Proof.Machine.execAtomAnd a0 a1 a2 a3 a4 s
  | .atomOr a0 a1 a2 a3 a4 => Sys2Proof.Machine.execAtomOr a0 a1 a2 a3 a4 s
  | .atomXor a0 a1 a2 a3 a4 => Sys2Proof.Machine.execAtomXor a0 a1 a2 a3 a4 s
  | .atomSwap a0 a1 a2 a3 a4 => Sys2Proof.Machine.execAtomSwap a0 a1 a2 a3 a4 s
  | .redAdd a0 a1 a2 a3 a4 => Sys2Proof.Machine.execRedAdd a0 a1 a2 a3 a4 s
  | .redFadd a0 a1 a2 a3 a4 => Sys2Proof.Machine.execRedFadd a0 a1 a2 a3 a4 s
  | .redMin a0 a1 a2 a3 a4 => Sys2Proof.Machine.execRedMin a0 a1 a2 a3 a4 s
  | .redMax a0 a1 a2 a3 a4 => Sys2Proof.Machine.execRedMax a0 a1 a2 a3 a4 s
  | .redAnd a0 a1 a2 a3 a4 => Sys2Proof.Machine.execRedAnd a0 a1 a2 a3 a4 s
  | .redOr a0 a1 a2 a3 a4 => Sys2Proof.Machine.execRedOr a0 a1 a2 a3 a4 s
  | .redXor a0 a1 a2 a3 a4 => Sys2Proof.Machine.execRedXor a0 a1 a2 a3 a4 s
  | .tagq a0 a1 => Sys2Proof.Machine.execTagq a0 a1 s
  | .tagset a0 a1 a2 => Sys2Proof.Machine.execTagset a0 a1 a2 s
  | .tagclr a0 a1 => Sys2Proof.Machine.execTagclr a0 a1 s
  | .scfg a0 a1 a2 a3 => Sys2Proof.Machine.execScfg a0 a1 a2 a3 s
  | .mapl a0 a1 a2 => Sys2Proof.Machine.execMapl a0 a1 a2 s
  | .cas a0 a1 a2 a3 a4 => Sys2Proof.Machine.execCas a0 a1 a2 a3 a4 s
  | .racqP a0 a1 => Sys2Proof.Machine.execRacqP a0 a1 s
  | .racqC a0 a1 => Sys2Proof.Machine.execRacqC a0 a1 s
  | .racqPU a0 a1 => Sys2Proof.Machine.execRacqPU a0 a1 s
  | .racqCU a0 a1 => Sys2Proof.Machine.execRacqCU a0 a1 s
  | .rrel a0 a1 a2 => Sys2Proof.Machine.execRrel a0 a1 a2 s
  | .rwait a0 a1 a2 => Sys2Proof.Machine.execRwait a0 a1 a2 s
  | .carm a0 a1 a2 => Sys2Proof.Machine.execCarm a0 a1 a2 s
  | .cwait a0 a1 => Sys2Proof.Machine.execCwait a0 a1 s
  | .spawn a0 a1 a2 => Sys2Proof.Machine.execSpawn a0 a1 a2 s
  | .trig a0 => Sys2Proof.Machine.execTrig a0 s
  | .pub a0 => Sys2Proof.Machine.execPub a0 s
  | .bar a0 a1 a2 a3 => Sys2Proof.Machine.execBar a0 a1 a2 a3 s
  | .post a0 a1 a2 a3 a4 => Sys2Proof.Machine.execPost a0 a1 a2 a3 a4 s
  | .pick a0 a1 a2 => Sys2Proof.Machine.execPick a0 a1 a2 s
  | .qwait a0 a1 a2 => Sys2Proof.Machine.execQwait a0 a1 a2 s
  | .node a0 a1 a2 => Sys2Proof.Machine.execNode a0 a1 a2 s
  | .marm a0 a1 a2 a3 => Sys2Proof.Machine.execMarm a0 a1 a2 a3 s
  | .msign a0 a1 a2 => Sys2Proof.Machine.execMsign a0 a1 a2 s
  | .mwait a0 a1 => Sys2Proof.Machine.execMwait a0 a1 s
  | .mdrain a0 a1 a2 => Sys2Proof.Machine.execMdrain a0 a1 a2 s
  | .mcfg a0 a1 a2 => Sys2Proof.Machine.execMcfg a0 a1 a2 s
  | .mnorm a0 a1 a2 => Sys2Proof.Machine.execMnorm a0 a1 a2 s
  | .mreset a0 a1 => Sys2Proof.Machine.execMreset a0 a1 s
  | .cpy a0 a1 a2 a3 a4 => Sys2Proof.Machine.execCpy a0 a1 a2 a3 a4 s
  | .cpys a0 a1 a2 a3 => Sys2Proof.Machine.execCpys a0 a1 a2 a3 s
  | .gath a0 a1 a2 a3 => Sys2Proof.Machine.execGath a0 a1 a2 a3 s
  | .cpyr a0 a1 a2 a3 a4 => Sys2Proof.Machine.execCpyr a0 a1 a2 a3 a4 s
  | .rast a0 a1 a2 a3 => Sys2Proof.Machine.execRast a0 a1 a2 a3 s
  | .trace a0 a1 => Sys2Proof.Machine.execTrace a0 a1 s
  | .hitr a0 a1 a2 => Sys2Proof.Machine.execHitr a0 a1 a2 s
  | .boxu a0 a1 a2 a3 => Sys2Proof.Machine.execBoxu a0 a1 a2 a3 s
  | .sah a0 a1 a2 a3 => Sys2Proof.Machine.execSah a0 a1 a2 a3 s
  | .npack a0 a1 a2 => Sys2Proof.Machine.execNpack a0 a1 a2 s
  | .tex a0 a1 a2 => Sys2Proof.Machine.execTex a0 a1 a2 s
  | .texg a0 a1 a2 => Sys2Proof.Machine.execTexg a0 a1 a2 s
  | .texq a0 a1 a2 => Sys2Proof.Machine.execTexq a0 a1 a2 s
  | .imld a0 a1 a2 a3 => Sys2Proof.Machine.execImld a0 a1 a2 a3 s
  | .imst a0 a1 a2 a3 => Sys2Proof.Machine.execImst a0 a1 a2 a3 s
  | .rds a0 a1 => Sys2Proof.Machine.execRds a0 a1 s
  | .wrs a0 a1 a2 => Sys2Proof.Machine.execWrs a0 a1 a2 s
  | .trap a0 a1 => Sys2Proof.Machine.execTrap a0 a1 s
  | .tlbi a0 a1 a2 a3 => Sys2Proof.Machine.execTlbi a0 a1 a2 a3 s
  | .sleep a0 a1 => Sys2Proof.Machine.execSleep a0 a1 s
  | .halt a0 => Sys2Proof.Machine.execHalt a0 s
  | .thaw a0 a1 a2 => Sys2Proof.Machine.execThaw a0 a1 a2 s
  | .keyld a0 a1 a2 => Sys2Proof.Machine.execKeyld a0 a1 a2 s
  | .commit a0 a1 a2 a3 a4 a5 a6 a7 => Sys2Proof.Machine.execCommit a0 a1 a2 a3 a4 a5 a6 a7 s
  | .rej a0 a1 => Sys2Proof.Machine.execRej a0 a1 s
  | .nop => Sys2Proof.Machine.execNop s
  | .next a0 => Sys2Proof.Machine.execNext a0 s
  | .bra a0 a1 => Sys2Proof.Machine.execBra a0 a1 s
  | .call a0 a1 => Sys2Proof.Machine.execCall a0 a1 s
  | .ret a0 => Sys2Proof.Machine.execRet a0 s
  | .exit a0 => Sys2Proof.Machine.execExit a0 s
  | .await a0 => Sys2Proof.Machine.execAwait a0 s
  | .reform a0 a1 => Sys2Proof.Machine.execReform a0 a1 s
  | .iret a0 => Sys2Proof.Machine.execIret a0 s
  | .brx a0 a1 => Sys2Proof.Machine.execBrx a0 a1 s
  | .callx a0 a1 => Sys2Proof.Machine.execCallx a0 a1 s
  | .reformK a0 a1 => Sys2Proof.Machine.execReformK a0 a1 s
  | .nsPrefix a0 a1 a2 a3 a4 => Sys2Proof.Machine.execNsPrefix a0 a1 a2 a3 a4 s
  | .ndPrefix a0 a1 a2 a3 a4 a5 a6 => Sys2Proof.Machine.execNdPrefix a0 a1 a2 a3 a4 a5 a6 s
  | .powerOn a0 => Sys2Proof.Machine.execPowerOn a0 s
  | .clockChange a0 a1 => Sys2Proof.Machine.execClockChange a0 a1 s
  | .powerCap a0 a1 => Sys2Proof.Machine.execPowerCap a0 a1 s
  | .thermalThrottle a0 => Sys2Proof.Machine.execThermalThrottle a0 s
  | .thermalRecover a0 => Sys2Proof.Machine.execThermalRecover a0 s
  | .thermalShutdown a0 => Sys2Proof.Machine.execThermalShutdown a0 s
  | .coolantFlowLow => Sys2Proof.Machine.execCoolantFlowLow s
  | .flitReplay a0 => Sys2Proof.Machine.execFlitReplay a0 s
  | .moduleRetire a0 => Sys2Proof.Machine.execModuleRetire a0 s
  | .stackRead a0 a1 a2 => Sys2Proof.Machine.execStackRead a0 a1 a2 s
  | .stackWrite a0 a1 a2 => Sys2Proof.Machine.execStackWrite a0 a1 a2 s
  | .stackWritem a0 a1 a2 => Sys2Proof.Machine.execStackWritem a0 a1 a2 s
  | .stackAtomic a0 a1 a2 => Sys2Proof.Machine.execStackAtomic a0 a1 a2 s
  | .rootLoadi a0 a1 a2 => Sys2Proof.Machine.execRootLoadi a0 a1 a2 s
  | .rootStart a0 a1 a2 => Sys2Proof.Machine.execRootStart a0 a1 a2 s
  | .rootStop a0 a1 a2 => Sys2Proof.Machine.execRootStop a0 a1 a2 s
  | .rootStatus a0 a1 a2 => Sys2Proof.Machine.execRootStatus a0 a1 a2 s
  | .stackAcct a0 a1 a2 => Sys2Proof.Machine.execStackAcct a0 a1 a2 s
  | .stackDisc a0 a1 a2 => Sys2Proof.Machine.execStackDisc a0 a1 a2 s
  | .stackErrpoll a0 a1 a2 => Sys2Proof.Machine.execStackErrpoll a0 a1 a2 s
  | .stackResponse a0 a1 => Sys2Proof.Machine.execStackResponse a0 a1 s
  | .stackScrub a0 a1 a2 => Sys2Proof.Machine.execStackScrub a0 a1 a2 s
  | .sramCorrectedError a0 => Sys2Proof.Machine.execSramCorrectedError a0 s
  | .sramUncorrectableError a0 => Sys2Proof.Machine.execSramUncorrectableError a0 s
  | .harvestApply => Sys2Proof.Machine.execHarvestApply s
  | .accessRefusal a0 a1 a2 a3 => Sys2Proof.Machine.execAccessRefusal a0 a1 a2 a3 s
  | .accessTableWrite a0 a1 a2 a3 => Sys2Proof.Machine.execAccessTableWrite a0 a1 a2 a3 s
  | .pcieInboundRequest a0 a1 a2 a3 a4 => Sys2Proof.Machine.execPcieInboundRequest a0 a1 a2 a3 a4 s
  | .getVersion => Sys2Proof.Machine.execGetVersion s
  | .getCapabilities => Sys2Proof.Machine.execGetCapabilities s
  | .negotiateAlgorithms => Sys2Proof.Machine.execNegotiateAlgorithms s
  | .getDigests => Sys2Proof.Machine.execGetDigests s
  | .getCertificate a0 a1 => Sys2Proof.Machine.execGetCertificate a0 a1 s
  | .challenge a0 => Sys2Proof.Machine.execChallenge a0 s
  | .getMeasurements a0 => Sys2Proof.Machine.execGetMeasurements a0 s
  | .spdmUnsupportedRequest a0 => Sys2Proof.Machine.execSpdmUnsupportedRequest a0 s
  | .redfishRequest a0 a1 => Sys2Proof.Machine.execRedfishRequest a0 a1 s
  | .updateserviceImageWrite a0 => Sys2Proof.Machine.execUpdateserviceImageWrite a0 s
  | .bootStatusFrame => Sys2Proof.Machine.execBootStatusFrame s
  | .create a0 a1 a2 => Sys2Proof.Machine.execCreate a0 a1 a2 s
  | .drain a0 a1 a2 => Sys2Proof.Machine.execDrain a0 a1 a2 s
  | .resume a0 a1 => Sys2Proof.Machine.execResume a0 a1 s
  | .destroy a0 a1 => Sys2Proof.Machine.execDestroy a0 a1 s
  | .ctxcmdBadOp a0 a1 a2 => Sys2Proof.Machine.execCtxcmdBadOp a0 a1 a2 s
  | .qcfgWrite a0 a1 a2 a3 => Sys2Proof.Machine.execQcfgWrite a0 a1 a2 a3 s
  | .queueDoorbell a0 a1 a2 a3 => Sys2Proof.Machine.execQueueDoorbell a0 a1 a2 a3 s
  | .qstsWrite a0 a1 a2 a3 => Sys2Proof.Machine.execQstsWrite a0 a1 a2 a3 s
  | .slotAccept a0 a1 => Sys2Proof.Machine.execSlotAccept a0 a1 s
  | .drecRead a0 a1 => Sys2Proof.Machine.execDrecRead a0 a1 s
  | .countRead a0 => Sys2Proof.Machine.execCountRead a0 s
  | .defaultsRead a0 => Sys2Proof.Machine.execDefaultsRead a0 s
  | .uniformBlockRead a0 => Sys2Proof.Machine.execUniformBlockRead a0 s
  | .roleTableRead a0 => Sys2Proof.Machine.execRoleTableRead a0 s
  | .launchAdmit a0 => Sys2Proof.Machine.execLaunchAdmit a0 s
  | .deadlineMiss a0 => Sys2Proof.Machine.execDeadlineMiss a0 s
  | .groupPlace a0 => Sys2Proof.Machine.execGroupPlace a0 s
  | .preemptDecision a0 => Sys2Proof.Machine.execPreemptDecision a0 s
  | .residencySave a0 => Sys2Proof.Machine.execResidencySave a0 s
  | .residencyRestore a0 => Sys2Proof.Machine.execResidencyRestore a0 s
  | .triggerFire a0 => Sys2Proof.Machine.execTriggerFire a0 s
  | .launchComplete a0 => Sys2Proof.Machine.execLaunchComplete a0 s
  | .quiescenceReport a0 a1 => Sys2Proof.Machine.execQuiescenceReport a0 a1 s
  | .binFlushTimeout a0 a1 => Sys2Proof.Machine.execBinFlushTimeout a0 a1 s
  | .nodeBinTimeout a0 a1 => Sys2Proof.Machine.execNodeBinTimeout a0 a1 s
  | .binPlace a0 a1 => Sys2Proof.Machine.execBinPlace a0 a1 s
  | .binSteal a0 a1 => Sys2Proof.Machine.execBinSteal a0 a1 s
  | .roleEvaluation a0 => Sys2Proof.Machine.execRoleEvaluation a0 s
  | .runStart a0 => Sys2Proof.Machine.execRunStart a0 s
  | .runEnd a0 => Sys2Proof.Machine.execRunEnd a0 s
  | .activeSetDisplace a0 => Sys2Proof.Machine.execActiveSetDisplace a0 s
  | .resultArrival a0 => Sys2Proof.Machine.execResultArrival a0 s
  | .linkFill a0 => Sys2Proof.Machine.execLinkFill a0 s
  | .barrierComplete a0 => Sys2Proof.Machine.execBarrierComplete a0 s
  | .sleepExpire a0 => Sys2Proof.Machine.execSleepExpire a0 s
  | .copyStart a0 => Sys2Proof.Machine.execCopyStart a0 s
  | .copyComplete a0 a1 => Sys2Proof.Machine.execCopyComplete a0 a1 s
  | .copyEngineError a0 a1 => Sys2Proof.Machine.execCopyEngineError a0 a1 s
  | .matrixChunkServe a0 => Sys2Proof.Machine.execMatrixChunkServe a0 s
  | .matrixDrain a0 => Sys2Proof.Machine.execMatrixDrain a0 s
  | .matrixOpComplete a0 => Sys2Proof.Machine.execMatrixOpComplete a0 s
  | .traversalResult a0 => Sys2Proof.Machine.execTraversalResult a0 s
  | .textureResult a0 => Sys2Proof.Machine.execTextureResult a0 s
  | .podFrameReceive a0 a1 a2 a3 a4 => Sys2Proof.Machine.execPodFrameReceive a0 a1 a2 a3 a4 s
  | .podFrameRetransmit a0 a1 => Sys2Proof.Machine.execPodFrameRetransmit a0 a1 s
  | .podBarrierReport a0 a1 a2 a3 => Sys2Proof.Machine.execPodBarrierReport a0 a1 a2 a3 s
  | .faultAreaRoom a0 => Sys2Proof.Machine.execFaultAreaRoom a0 s
  | .fsvcResume a0 a1 => Sys2Proof.Machine.execFsvcResume a0 a1 s
  | .fsvcDeliver a0 a1 => Sys2Proof.Machine.execFsvcDeliver a0 a1 s
  | .fsvcTerminate a0 a1 => Sys2Proof.Machine.execFsvcTerminate a0 a1 s
  | .fsvcInvalid a0 a1 => Sys2Proof.Machine.execFsvcInvalid a0 a1 s
  | .vecset a0 a1 => Sys2Proof.Machine.execVecset a0 a1 s
  | .wake a0 a1 a2 => Sys2Proof.Machine.execWake a0 a1 a2 s
  | .registerWrite a0 a1 a2 => Sys2Proof.Machine.execRegisterWrite a0 a1 a2 s
  | .coolantFlowRestore => Sys2Proof.Machine.execCoolantFlowRestore s

end Sys2Proof.Machine
end

