-- ==== Sys2Proof/Machine/Step.lean ====
section
/-! DEFINITION. One step of the machine: the act the agenda names first, or the default one, then the waits that end. -/
namespace Sys2Proof.Machine

/-- One step (log entry 3). Without power only POWER_ON changes anything (R34). -/
def step (s : State) : Host.Outcome State Fault Refusal := stepWith exec s

/-- The word a step runs next becomes w (log entry 5). Every instruction word is 32 bits. -/
def State.withFetchWord (s : State) (nbits w : Nat) : State := s.putWord (if nbits = 32 then w % 2 ^ 32 else 0)

end Sys2Proof.Machine
end

