-- ==== Sys2Proof/Safety.lean ====
section
/-! DEFINITION. What counts as a safe run, and the terms that statements about the machine use: how a word completes, what it leaves
alone, how it ends without completing. -/
namespace Sys2Proof.Machine

/-- A step that stops nothing. -/
def Goes (s : State) : Prop := ∃ t, step s = .next t

/-! ### How a word completes -/

/-- The word's guard is true for the thread at issue (R320). -/
def Fires (g : Guard) (s : State) : Prop := guardOf g s.cur = true
/-- No prefix stands before the word at hand. -/
def Plain (s : State) : Prop := s.iss.ns = none ∧ s.iss.nd = none
/-- The state in which the thread at issue has one more full entry at the head of its result queue (R160). -/
def State.pushed (s : State) (v : DWord) : State := s.modCur (fun th => th.push ⟨v, .full⟩)
/-- A 32-bit result: bits [63:32] of its entry are zero (R340). -/
def State.pushed32 (s : State) (v : Word) : State := s.pushed (v.setWidth 64)
/-- Flags gathered for run end (R245). -/
def State.raised (s : State) (f : Word) : State :=
  if f = 0 then s else s.modCur (fun th => { th with rt := { th.rt with flags := th.rt.flags ||| f } })
/-- A long-latency result (R165): a pending entry at the head of the queue, and its value on its way. -/
def State.sent (s : State) (v : DWord) (poison : Bool) : State :=
  let a : Arrival := ⟨s.fresh, s.iss.thr, s.iss.lane, s.cur.slot, s.cur.gen, 0, [v], poison, []⟩
  ({ s with fresh := s.fresh + 2, arrivals := s.arrivals ++ [a] } : State).modCur (fun th => th.push ⟨0, .pending s.fresh⟩)
/-- n entries that are not written (R161). -/
def State.unwritten (s : State) : Nat → State
  | 0 => s
  | n + 1 => (s.modCur (fun th => th.push ⟨0, .notWritten⟩)).unwritten n
/-- Two 32-bit integer sources, read in field order (R323, R326). -/
def Reads32 (a b : Src) (s : State) (x y : Word) (t : State) : Prop := ∃ u, srcI 0 a s = .ok x u ∧ srcI 1 b u = .ok y t
/-- Two 64-bit sources. -/
def Reads64 (a b : Src) (s : State) (x y : DWord) (t : State) : Prop := ∃ u, src64 a s = .ok x u ∧ src64 b u = .ok y t
/-- A 64-bit source and a 32-bit shift amount. -/
def ReadsShift (a b : Src) (s : State) (x : DWord) (y : Word) (t : State) : Prop := ∃ u, src64 a s = .ok x u ∧ srcI 1 b u = .ok y t
/-- LEA's sources: 64, 32 and 32 bits. -/
def ReadsLea (a b d : Src) (s : State) (x : DWord) (y z : Word) (t : State) : Prop :=
  ∃ u v, src64 a s = .ok x u ∧ srcI 1 b u = .ok y v ∧ srcI 2 d v = .ok z t
/-- A 64-bit and a 32-bit source. -/
def ReadsWide (a b : Src) (s : State) (x : DWord) (y : Word) (t : State) : Prop := ∃ u, src64 a s = .ok x u ∧ src32 b u = .ok y t
/-- Two 32-bit sources of a word that takes no prefix. -/
def ReadsRaw (a b : Src) (s : State) (x y : Word) (t : State) : Prop := ∃ u, src32 a s = .ok x u ∧ src32 b u = .ok y t
/-- Two f32 sources. -/
def ReadsF (a b : Src) (s : State) (x y : Word) (t : State) : Prop := ∃ u, srcF 0 a s = .ok x u ∧ srcF 1 b u = .ok y t
/-- A value as a conversion takes it: a NaN is quiet. -/
def FV.quiet : FV → FV
  | .nan _ => .nan false
  | v => v
/-- Three 32-bit integer sources. -/
def ReadsThree (a b d : Src) (s : State) (x y z : Word) (t : State) : Prop :=
  ∃ u v, srcI 0 a s = .ok x u ∧ srcI 1 b u = .ok y v ∧ srcI 2 d v = .ok z t
/-- Two 32-bit integer sources and a 64-bit one. -/
def ReadsCarry (a b d : Src) (s : State) (x y : Word) (z : DWord) (t : State) : Prop :=
  ∃ u v, srcI 0 a s = .ok x u ∧ srcI 1 b u = .ok y v ∧ src64 d v = .ok z t
/-- A predicate written at issue (R163); p7 ignores it. -/
def State.withPred (s : State) (i : Nat) (b : Bool) : State := s.modCur (fun th => { th with p := setPred th.p i b })
/-- A wait of the word at hand, held for run end. -/
def State.waits (s : State) (w : Wait) : State := s.modCur (fun th =>
  { th with rt := { th.rt with waits := th.rt.waits ++ [⟨s.iss.word, s.iss.instr, th.pc, w⟩] } })
/-- The thread at issue joins a cross-group word with its operands and pushes n entries that wait for the set (R363). -/
def State.joined (s : State) (n : Nat) (c : Bool) (a : DWord) (b : Word) : State :=
  (List.range n).foldl (fun t k => t.modCur (fun th => th.push ⟨0, .pending (xgId s.iss.word k)⟩))
    (s.modRun (fun r => { r with xg := r.xg ++ [⟨s.iss.word, s.cur.tid, c, a, b⟩] }))
/-- No thread of the set has done the once-per-set word at hand (R325). -/
def FirstOfSet (s : State) : Prop := s.curRun.bind (fun r => alGet r.once s.iss.word) = none
/-- Entries pushed in order. -/
def State.pushedAll (s : State) (es : List QEnt) : State := es.foldl (fun s e => s.modCur (fun th => th.push e)) s
/-- The once-per-set word at hand is noted as done for the set. -/
def State.noted (s : State) (w : Nat) (es : List QEnt) : State := s.modRun (fun r => { r with once := alSet r.once w (.done es) })
/-- The once-per-set word at hand is done for the set, and its entries pushed. -/
def State.onceDone (s : State) (w : Nat) (es : List QEnt) : State := (s.noted w es).pushedAll es
/-- Results of a unit on their way together (R165). -/
def State.sentAll (s : State) (kind : Nat) (vs : List DWord) (poison : Bool) (score : List (Nat × Nat)) : State :=
  let a : Arrival := ⟨s.fresh, s.iss.thr, s.iss.lane, s.cur.slot, s.cur.gen, kind, vs, poison, score⟩
  ({ s with fresh := s.fresh + vs.length + 1, arrivals := s.arrivals ++ [a] } : State).pushedAll
    ((List.range vs.length).map (fun k => ⟨0, .pending (s.fresh + k)⟩))
/-- What the K word at hand does for the thread at issue is settled (R164). -/
def State.settledK (s : State) (k : KKind) : State :=
  s.modCur (fun th => { th with rt := { th.rt with k := some (s.iss.word, k) } })
/-- The thread at issue names a convergence register that it may name (R415). -/
def MayName (s : State) (c : Nat) : Prop :=
  arrLive s (coreQuad s.curCore) = true ∧ ((s.cregD (coreQuad s.curCore) c).own = none ∨
    (s.cregD (coreQuad s.curCore) c).own = s.cur.id.launch ∨ (s.cregD (coreQuad s.curCore) c).free = true)

/-! ### Kinds of words -/

/-- The guard of a word that only computes: it reads its sources and gives results, flags or predicates. -/
def computing : Instr → Option Guard
  | .add hd .. | .sub hd .. | .mul hd .. | .mulh hd .. | .div hd .. | .rem hd .. | .min hd .. | .max hd .. | .abs hd ..
  | .neg hd .. | .and hd .. | .or hd .. | .xor hd .. | .andn hd .. | .not hd .. | .shl hd .. | .shr hd .. | .sar hd ..
  | .rot hd .. | .popc hd .. | .clz hd .. | .ctz hd .. | .brev hd .. | .mov hd .. | .sel hd .. | .sel64 hd .. | .bfx hd ..
  | .dot4 hd .. | .dotn hd .. | .unpackp hd .. | .mad hd .. | .madw hd .. | .addc hd .. | .subb hd .. | .shf hd ..
  | .bfi hd .. | .perm hd .. | .lea hd .. | .addImm hd .. | .andImm hd .. | .orImm hd .. | .xorImm hd .. | .shlImm hd ..
  | .shrImm hd .. | .sarImm hd .. | .mulImm hd .. | .cmp hd .. | .plop hd .. | .packp hd .. | .fcmp hd .. | .dcmp hd ..
  | .fcmpH hd .. | .fadd hd .. | .fsub hd .. | .fmul hd .. | .fmin hd .. | .fmax hd .. | .fminn hd .. | .fmaxn hd ..
  | .frnd hd .. | .fscale hd .. | .fgetx hd .. | .fclass hd .. | .hadd2 hd .. | .hmul2 hd .. | .ffma hd .. | .fdot2 hd ..
  | .fdot2Bf hd .. | .hfma2 hd .. | .dadd hd .. | .dsub hd .. | .dmul hd .. | .dmin hd .. | .dmax hd .. | .drnd hd ..
  | .dscale hd .. | .dgetx hd .. | .dclass hd .. | .dfma hd .. | .cvt hd .. | .cvtnI32 hd .. | .cvtnN32 hd ..
  | .cvtnF32 hd .. | .cvtnF64 hd .. | .pk2F16 hd .. | .pk2Bf16 hd .. | .rcp hd .. | .rsq hd .. | .sqrt hd .. | .ex2 hd ..
  | .lg2 hd .. | .sinpi hd .. | .cospi hd .. | .tanh hd .. | .drcp hd .. | .drsq hd .. | .intf hd .. | .fltf hd ..
  | .sah hd .. | .npack hd .. | .rds hd .. => some hd.gd
  | .boxu hd _ _ .u | .boxu hd _ _ .p => some hd.gd
  | _ => none
/-- The guard of a word that a false guard keeps from all but its unwritten entries (R161). -/
def guarded : Instr → Option Guard
  | .umov hd .. | .uadd hd .. | .usub hd .. | .umul hd .. | .uand hd .. | .uor hd .. | .uxor hd .. | .ushl hd ..
  | .uld hd .. | .uld64 hd .. | .ushr hd .. | .ucmp hd .. | .usel hd .. | .uwin hd .. | .ld hd .. | .ldS hd .. | .pref hd ..
  | .cache hd .. | .st hd .. | .reddAdd hd .. | .reddFadd hd .. | .reddMin hd .. | .reddMax hd .. | .reddMinU hd ..
  | .reddMaxU hd .. | .reddOr hd .. | .atomAdd hd .. | .atomFadd hd .. | .atomMin hd .. | .atomMax hd .. | .atomAnd hd ..
  | .atomOr hd .. | .atomXor hd .. | .atomSwap hd .. | .redAdd hd .. | .redFadd hd .. | .redMin hd .. | .redMax hd ..
  | .redAnd hd .. | .redOr hd .. | .redXor hd .. | .tagq hd .. | .tagset hd .. | .tagclr hd .. | .scfg hd .. | .mapl hd ..
  | .cas hd .. | .racqP hd .. | .racqC hd .. | .racqPU hd .. | .racqCU hd .. | .rrel hd .. | .rwait hd .. | .carm hd ..
  | .cwait hd .. | .spawn hd .. | .trig hd .. | .pub hd .. | .bar hd .. | .post hd .. | .pick hd .. | .qwait hd ..
  | .node hd .. | .marm hd .. | .msign hd .. | .mwait hd .. | .mdrain hd .. | .mcfg hd .. | .mnorm hd .. | .mreset hd ..
  | .cpy hd .. | .cpys hd .. | .gath hd .. | .cpyr hd .. | .trace hd .. | .hitr hd .. | .tex hd .. | .texg hd ..
  | .texq hd .. | .imld hd .. | .imst hd .. | .wrs hd .. | .trap hd .. | .tlbi hd .. | .sleep hd .. | .halt hd ..
  | .thaw hd .. | .keyld hd .. => some hd.gd
  | .commit g .. | .rej g .. => some g
  | i => computing i
/-- The guard of a word in which the threads of a set join (R363), RAST apart. -/
def joining : Instr → Option Guard
  | .xshuf hd .. | .vote hd .. | .reduce hd .. | .scan hd .. | .scanX hd .. | .matchX hd .. | .elect hd => some hd.gd
  | .boxu hd _ _ .set => some hd.gd
  | _ => none
/-- A byte of a storage that is not memory. -/
def Store.byte (s : State) (a : Nat) : Store → Byte
  | .pool c => byteAt (s.coreD c).pool a
  | .spare r => match s.res? r with | some re => byteAt re.spare a | none => 0
  | .sram c => if isRoot c then byteAt (s.stackD (c - 544)).sram a else byteAt (s.ctlD (c - 512)).sram a
  | .ring r => byteAt (s.arrD r).ring a
  | .am r c => byteAt (alGetD (s.arrD r).am c []) a
  | .frame f => match alGet s.frames f with | some fr => byteAt fr.area a | none => 0
/-- Everything that a word that only computes leaves as it was: all but the run's own state of the thread at issue with its
predicates and stream positions, the issue, names, free values, results on their way, and what a read of memory by a stream may bring
about: the copies that caches hold, errors of the DRAM met and reported (R27), and the bytes of a line that its core has buffered, which
go home where the line is read under another key id (R121). -/
def Quiet (s u : State) : Prop :=
  u.pkg = { s.pkg with errs := u.pkg.errs, pending := u.pkg.pending, hv := { s.pkg.hv with pend := u.pkg.hv.pend } } ∧
  u.sys = s.sys ∧ u.ctxs = s.ctxs ∧ u.launches = s.launches ∧ u.nodes = s.nodes ∧ u.ress = s.ress ∧ u.grps = s.grps ∧
  u.lanes = s.lanes ∧ u.frames = s.frames ∧ u.bars = s.bars ∧ u.quads = s.quads ∧ u.arrs = s.arrs ∧ u.ctls = s.ctls ∧
  u.pods = s.pods ∧ u.rays = s.rays ∧ u.agenda = s.agenda ∧
  u.mem = { s.mem with
    cells := u.mem.cells, tags := u.mem.tags, tlb := u.mem.tlb, flaws := u.mem.flaws, poison := u.mem.poison, l2p := u.mem.l2p } ∧
  (∀ a, (∀ l ∈ (s.coreD s.curCore).wcb, a < l.pa ∨ l.pa + 64 ≤ a) →
    byteAt u.mem.cells a = byteAt s.mem.cells a ∧ alGet u.mem.tags a = alGet s.mem.tags a) ∧
  (∀ k, u.stackD k = { s.stackD k with errs := (u.stackD k).errs }) ∧
  (∀ c, u.coreD c = { s.coreD c with l1 := (u.coreD c).l1, tex := (u.coreD c).tex, wcb := (u.coreD c).wcb } ∧
    (∀ l ∈ (u.coreD c).wcb, l ∈ (s.coreD c).wcb) ∧ (c ≠ s.curCore → (u.coreD c).wcb = (s.coreD c).wcb)) ∧
  (∀ k, k ≠ s.iss.thr → u.thr? k = s.thr? k) ∧
  (∀ th, s.thr? s.iss.thr = some th → ∃ rt p pos, u.thr? s.iss.thr = some { th with rt := rt, p := p, spos := pos })

/-! ### Conditions of events -/

/-- A master's write of an offset of control space is taken: the master is not frozen and the table allows it (R42, R43). -/
def CtlOk (s : State) (mid off : Nat) : Prop := s.isFrozen mid = false ∧ accCheck (s.table ctlTgt) mid .write off = none
/-- A context command that is taken: from a control core, for one of the 64 contexts, while none is in progress (R46). -/
def CmdOk (s : State) (mid ctx : Nat) : Prop := CtlOk s mid 0x4000 ∧ isCtlMid mid = true ∧ ctx < 64 ∧ s.sys.busy = 0
/-- CTXCMD's RESULT and context after a command, with BUSY up for the step that follows (Table 3.1; log entry 87). -/
def State.resulted (s : State) (ctx r : Nat) : State :=
  { s with sys := { s.sys with ctxn := BitVec.ofNat 6 ctx, result := BitVec.ofNat 8 r, busy := 2 } }
/-- The management port answers: the boot has reached stage 0x0F and the port is not frozen (R43, R45). -/
def Answers (s : State) : Prop := booted s = true ∧ s.isFrozen mgmtMid = false
/-- The FSVC write of a control core names the serviced fault of a thread, with no new stack limit (R303). -/
def Serves (s : State) (core act : Nat) (w0 : DWord) (t : Nat) (th : Thr) (v : Svc) : Prop :=
  core < 32 ∧ bits w0 31 30 = act ∧ CtlOk s (ctlMid core) 0x2410 ∧ svcThread s w0 = some (t, th, v) ∧ bits (s.ctlD core).fsvc1 54 0 = 0

end Sys2Proof.Machine
end

