-- ==== Sys2Proof/Certificates/Slice0/Obligations.lean ====
section
/-! DEFINITION. The statements about the machine. Each docstring names the rules of the manual that its statement draws on, whole or
in part, and the log entries of the model's own choices that it rests on. -/
open Sys2Proof Sys2Proof.Machine


/-! ### Integer words -/

/-- R346, R347, R350: the two-operand integer words at 32 bits and their immediate forms, whose immediate is sign-extended to 32 bits,
complete with the word that the rule names, in wrapping arithmetic. -/
def Obligations.IntTwo32 : Prop := ∀ (hd : Hd) (a b : Src) (i : BitVec 12) (st s : State) (x y : Word) (u : Bool),
  Fires hd.gd st →
  (Reads32 a b st x y s → s.iss.nd = none →
    exec (.add hd a b false false u) st = .next (s.pushed32 (x + y)) ∧
    exec (.sub hd a b false false u) st = .next (s.pushed32 (x - y)) ∧
    exec (.mul hd a b false false u) st = .next (s.pushed32 (x * y)) ∧
    exec (.mul hd a b false true false) st = .next (s.pushed (x.signExtend 64 * y.signExtend 64)) ∧
    exec (.mul hd a b false true true) st = .next (s.pushed (x.setWidth 64 * y.setWidth 64)) ∧
    exec (.mulh hd a b false false) st =
      .next (s.pushed32 (((x.signExtend 64 * y.signExtend 64).sshiftRight 32).setWidth 32)) ∧
    exec (.mulh hd a b false true) st = .next (s.pushed32 (((x.setWidth 64 * y.setWidth 64) >>> 32).setWidth 32)) ∧
    exec (.min hd a b false false) st = .next (s.pushed32 (if x.sle y then x else y)) ∧
    exec (.min hd a b false true) st = .next (s.pushed32 (if x ≤ y then x else y)) ∧
    exec (.max hd a b false false) st = .next (s.pushed32 (if y.sle x then x else y)) ∧
    exec (.max hd a b false true) st = .next (s.pushed32 (if y ≤ x then x else y)) ∧
    exec (.and hd a b false) st = .next (s.pushed32 (x &&& y)) ∧
    exec (.or hd a b false) st = .next (s.pushed32 (x ||| y)) ∧
    exec (.xor hd a b false) st = .next (s.pushed32 (x ^^^ y)) ∧
    exec (.andn hd a b false) st = .next (s.pushed32 (x &&& ~~~ y)) ∧
    exec (.shl hd a b false) st = .next (s.pushed32 (x <<< y.toNat)) ∧
    exec (.shr hd a b false) st = .next (s.pushed32 (x >>> y.toNat)) ∧
    exec (.sar hd a b false) st = .next (s.pushed32 (x.sshiftRight y.toNat)) ∧
    exec (.rot hd a b false) st = .next (s.pushed32 (x.rotateLeft y.toNat))) ∧
  (srcI 0 a st = .ok x s →
    let z := i.signExtend 32
    exec (.addImm hd a i) st = .next (s.pushed32 (x + z)) ∧ exec (.andImm hd a i) st = .next (s.pushed32 (x &&& z)) ∧
    exec (.orImm hd a i) st = .next (s.pushed32 (x ||| z)) ∧ exec (.xorImm hd a i) st = .next (s.pushed32 (x ^^^ z)) ∧
    exec (.shlImm hd a i) st = .next (s.pushed32 (x <<< z.toNat)) ∧
    exec (.shrImm hd a i) st = .next (s.pushed32 (x >>> z.toNat)) ∧
    exec (.sarImm hd a i) st = .next (s.pushed32 (x.sshiftRight z.toNat)) ∧
    exec (.mulImm hd a i) st = .next (s.pushed32 (x * z)))

/-- R346, R347: the .64 forms. A shift amount is a 32-bit source. -/
def Obligations.IntTwo64 : Prop := ∀ (hd : Hd) (a b : Src) (st s : State) (x y : DWord) (n : Word) (u : Bool), Fires hd.gd st →
  (Reads64 a b st x y s →
    exec (.add hd a b true false u) st = .next (s.pushed (x + y)) ∧
    exec (.sub hd a b true false u) st = .next (s.pushed (x - y)) ∧
    exec (.mul hd a b true false u) st = .next (s.pushed (x * y)) ∧
    exec (.mulh hd a b true false) st =
      .next (s.pushed (((x.signExtend 128 * y.signExtend 128).sshiftRight 64).setWidth 64)) ∧
    exec (.mulh hd a b true true) st = .next (s.pushed (((x.setWidth 128 * y.setWidth 128) >>> 64).setWidth 64)) ∧
    exec (.min hd a b true false) st = .next (s.pushed (if x.sle y then x else y)) ∧
    exec (.min hd a b true true) st = .next (s.pushed (if x ≤ y then x else y)) ∧
    exec (.max hd a b true false) st = .next (s.pushed (if y.sle x then x else y)) ∧
    exec (.max hd a b true true) st = .next (s.pushed (if y ≤ x then x else y)) ∧
    exec (.and hd a b true) st = .next (s.pushed (x &&& y)) ∧
    exec (.or hd a b true) st = .next (s.pushed (x ||| y)) ∧
    exec (.xor hd a b true) st = .next (s.pushed (x ^^^ y)) ∧
    exec (.andn hd a b true) st = .next (s.pushed (x &&& ~~~ y))) ∧
  (ReadsShift a b st x n s →
    exec (.shl hd a b true) st = .next (s.pushed (x <<< n.toNat)) ∧
    exec (.shr hd a b true) st = .next (s.pushed (x >>> n.toNat)) ∧
    exec (.sar hd a b true) st = .next (s.pushed (x.sshiftRight n.toNat)) ∧
    exec (.rot hd a b true) st = .next (s.pushed (x.rotateLeft n.toNat)))

/-- R346: .sat clamps the exact result to the type's limits and sets SATN where that changes it; without .sat, ABS and NEG of the
least number give it back. -/
def Obligations.IntSaturating : Prop := ∀ (hd : Hd) (a b : Src) (st s : State) (u : Bool), Fires hd.gd st →
  (∀ x y : Word, Reads32 a b st x y s → s.iss.nd = none →
    let rd (v : Word) : Int := if u then v.toNat else v.toInt
    let lo : Int := if u then 0 else -(2 ^ 31)
    let hi : Int := if u then 2 ^ 32 - 1 else 2 ^ 31 - 1
    let r (e : Int) : Host.Outcome State Fault Refusal :=
      .next ((s.raised (if lo ≤ e ∧ e ≤ hi then 0 else fSATN)).pushed32 (BitVec.ofInt 32 (max lo (min hi e))))
    exec (.add hd a b false true u) st = r (rd x + rd y) ∧ exec (.sub hd a b false true u) st = r (rd x - rd y)) ∧
  (∀ x y : DWord, Reads64 a b st x y s →
    let rd (v : DWord) : Int := if u then v.toNat else v.toInt
    let lo : Int := if u then 0 else -(2 ^ 63)
    let hi : Int := if u then 2 ^ 64 - 1 else 2 ^ 63 - 1
    let r (e : Int) : Host.Outcome State Fault Refusal :=
      .next ((s.raised (if lo ≤ e ∧ e ≤ hi then 0 else fSATN)).pushed (BitVec.ofInt 64 (max lo (min hi e))))
    exec (.add hd a b true true u) st = r (rd x + rd y) ∧ exec (.sub hd a b true true u) st = r (rd x - rd y)) ∧
  (∀ x : Word, srcI 0 a st = .ok x s →
    let r (e : Int) : Host.Outcome State Fault Refusal :=
      .next ((s.raised (if e ≤ 2 ^ 31 - 1 then 0 else fSATN)).pushed32 (BitVec.ofInt 32 (min (2 ^ 31 - 1) e)))
    exec (.abs hd a false true) st = r |x.toInt| ∧ exec (.neg hd a false true) st = r (-x.toInt) ∧
    exec (.abs hd a false false) st = .next (s.pushed32 x.abs) ∧ exec (.neg hd a false false) st = .next (s.pushed32 (-x))) ∧
  (∀ x : DWord, src64 a st = .ok x s →
    let r (e : Int) : Host.Outcome State Fault Refusal :=
      .next ((s.raised (if e ≤ 2 ^ 63 - 1 then 0 else fSATN)).pushed (BitVec.ofInt 64 (min (2 ^ 63 - 1) e)))
    exec (.abs hd a true true) st = r |x.toInt| ∧ exec (.neg hd a true true) st = r (-x.toInt) ∧
    exec (.abs hd a true false) st = .next (s.pushed x.abs) ∧ exec (.neg hd a true false) st = .next (s.pushed (-x)))

/-- R347: the one-operand words, SEL among them. A count is characterised by the bits it counts. -/
def Obligations.IntOne : Prop := ∀ (hd : Hd) (a : Src) (st s : State), Fires hd.gd st →
  (∀ x : Word, srcI 0 a st = .ok x s →
    exec (.not hd a false) st = .next (s.pushed32 (~~~ x)) ∧ exec (.brev hd a false) st = .next (s.pushed32 x.reverse) ∧
    exec (.mov hd a false) st = .next (s.pushed32 x) ∧
    exec (.popc hd a false) st = .next (s.pushed32 (BitVec.ofNat 32 ((List.range 32).filter x.getLsbD).length)) ∧
    (∃ k ≤ 32, exec (.clz hd a false) st = .next (s.pushed32 (BitVec.ofNat 32 k)) ∧ x.toNat < 2 ^ (32 - k) ∧
      (k < 32 → x.getLsbD (31 - k) = true)) ∧
    (∃ k ≤ 32, exec (.ctz hd a false) st = .next (s.pushed32 (BitVec.ofNat 32 k)) ∧ (∀ j < k, x.getLsbD j = false) ∧
      (k < 32 → x.getLsbD k = true))) ∧
  (∀ x : DWord, src64 a st = .ok x s →
    exec (.not hd a true) st = .next (s.pushed (~~~ x)) ∧ exec (.brev hd a true) st = .next (s.pushed x.reverse) ∧
    exec (.mov hd a true) st = .next (s.pushed x) ∧
    exec (.popc hd a true) st = .next (s.pushed32 (BitVec.ofNat 32 ((List.range 64).filter x.getLsbD).length)) ∧
    (∃ k ≤ 64, exec (.clz hd a true) st = .next (s.pushed32 (BitVec.ofNat 32 k)) ∧ x.toNat < 2 ^ (64 - k) ∧
      (k < 64 → x.getLsbD (63 - k) = true)) ∧
    (∃ k ≤ 64, exec (.ctz hd a true) st = .next (s.pushed32 (BitVec.ofNat 32 k)) ∧ (∀ j < k, x.getLsbD j = false) ∧
      (k < 64 → x.getLsbD k = true))) ∧
  (∀ (b : Src) (p : Fin 8) (x y : Word), Reads32 a b st x y s →
    exec (.sel hd a b p) st = .next (s.pushed32 (if s.cur.pred p.val then x else y))) ∧
  (∀ (b : Src) (p : Fin 8) (x y : DWord), Reads64 a b st x y s →
    exec (.sel64 hd a b p) st = .next (s.pushed (if s.cur.pred p.val then x else y)))

/-- R346, R341: DIV and REM are long-latency results; division by zero gives all ones and the dividend, and no flag. -/
def Obligations.IntDivide : Prop := ∀ (hd : Hd) (a b : Src) (st s : State), Fires hd.gd st →
  (∀ x y : Word, Reads32 a b st x y s →
    exec (.div hd a b false false) st = .next (s.sent ((if y = 0 then -1 else x.sdiv y).setWidth 64) false) ∧
    exec (.div hd a b false true) st = .next (s.sent ((if y = 0 then -1 else x / y).setWidth 64) false) ∧
    exec (.rem hd a b false false) st = .next (s.sent ((if y = 0 then x else x.srem y).setWidth 64) false) ∧
    exec (.rem hd a b false true) st = .next (s.sent ((if y = 0 then x else x % y).setWidth 64) false)) ∧
  (∀ x y : DWord, Reads64 a b st x y s →
    exec (.div hd a b true false) st = .next (s.sent (if y = 0 then -1 else x.sdiv y) false) ∧
    exec (.div hd a b true true) st = .next (s.sent (if y = 0 then -1 else x / y) false) ∧
    exec (.rem hd a b true false) st = .next (s.sent (if y = 0 then x else x.srem y) false) ∧
    exec (.rem hd a b true true) st = .next (s.sent (if y = 0 then x else x % y) false))

/-- R349: the three-operand integer words; R348's BFX, DOT4 and DOTN. -/
def Obligations.IntThree : Prop := ∀ (hd : Hd) (a b d : Src) (st s : State), Fires hd.gd st →
  (∀ x y z : Word, ReadsThree a b d st x y z s →
    exec (.mad hd a b d) st = .next (s.pushed32 (x * y + z)) ∧
    exec (.shf hd a b d) st = .next (s.pushed32 (((y ++ x) >>> (z.toNat % 64)).setWidth 32)) ∧
    (let m : Word := ((1#64 <<< min (fld z.toNat 13 8) 32) - 1).setWidth 32 <<< fld z.toNat 4 0
     exec (.bfi hd a b d) st = .next (s.pushed32 ((x &&& ~~~ m) ||| ((y <<< fld z.toNat 4 0) &&& m)))) ∧
    exec (.perm hd a b d) st = .next (s.pushed32 (
      let byte (i : Nat) : Byte :=
        let v : Byte := (y ++ x).extractLsb' (8 * fld z.toNat (4 * i + 2) (4 * i)) 8
        if z.getLsbD (4 * i + 3) then (if v.msb then -1 else 0) else v
      byte 3 ++ byte 2 ++ byte 1 ++ byte 0))) ∧
  (∀ (x y : Word) (z : DWord), ReadsCarry a b d st x y z s →
    exec (.madw hd a b d) st = .next (s.pushed (x.signExtend 64 * y.signExtend 64 + z)) ∧
    exec (.addc hd a b d) st = .next (s.pushed (x.setWidth 64 + y.setWidth 64 + (z >>> 32 &&& 1))) ∧
    exec (.subb hd a b d) st = .next (s.pushed ((x.setWidth 64 - y.setWidth 64 - (z >>> 32 &&& 1)) &&& 0x1FFFFFFFF))) ∧
  (∀ (x : DWord) (y z : Word), ReadsLea a b d st x y z s →
    exec (.lea hd a b d) st = .next (s.pushed (x + (y.signExtend 64 <<< (z.toNat % 8))))) ∧
  (∀ x y : Word, Reads32 a b st x y s →
    (let len := min (fld y.toNat 13 8) 32
     let f : Word := (x >>> fld y.toNat 4 0) &&& ((1#64 <<< len) - 1).setWidth 32
     exec (.bfx hd a b false) st = .next (s.pushed32 f) ∧
     exec (.bfx hd a b true) st = .next (s.pushed32 ((f <<< (32 - len)).sshiftRight (32 - len)))) ∧
    (let by_ (v : Word) (k : Nat) : Byte := v.extractLsb' (8 * k) 8
     let nb (v : Word) (k : Nat) : BitVec 4 := v.extractLsb' (4 * k) 4
     exec (.dot4 hd a b false) st = .next (s.pushed32 (BitVec.ofInt 32
       (((List.range 4).map (fun k => (by_ x k).toInt * (by_ y k).toInt)).sum))) ∧
     exec (.dot4 hd a b true) st = .next (s.pushed32 (BitVec.ofNat 32
       (((List.range 4).map (fun k => (by_ x k).toNat * (by_ y k).toNat)).sum))) ∧
     exec (.dotn hd a b false) st = .next (s.pushed32 (BitVec.ofInt 32
       (((List.range 8).map (fun k => (nb x k).toInt * (nb y k).toInt)).sum))) ∧
     exec (.dotn hd a b true) st = .next (s.pushed32 (BitVec.ofNat 32
       (((List.range 8).map (fun k => (nb x k).toNat * (nb y k).toNat)).sum)))))

/-- R353: PLOP and PACKP, and the other words of their major, which are ILLEGAL. R351, R348: CMP and UNPACKP; p7 ignores a write
and reads true. -/
def Obligations.Predicates : Prop := ∀ (hd : Hd) (st s : State), Fires hd.gd st →
  (∀ (a b : Src) (p : Fin 8) (r : Rel) (u n : Bool),
    let holds (x y : Int) : Bool := match r with
      | .eq => x == y | .ne => x != y | .lt => decide (x < y) | .le => decide (x ≤ y) | .gt => decide (y < x) | .ge => decide (y ≤ x)
    let put (t : Bool) : Bool := if n then s.cur.pred p.val && t else t
    (∀ x y : Word, Reads32 a b st x y s → exec (.cmp hd a b p r u false n) st = .next (s.withPred p.val
      (put (if u then holds x.toNat y.toNat else holds x.toInt y.toInt)))) ∧
    (∀ x y : DWord, Reads64 a b st x y s → exec (.cmp hd a b p r u true n) st = .next (s.withPred p.val
      (put (if u then holds x.toNat y.toNat else holds x.toInt y.toInt))))) ∧
  (∀ (x y p : Fin 8) (t : BitVec 8), exec (.plop hd x y p t) st = .next (st.withPred p.val
    (t.getLsbD (4 * (st.cur.pred x.val).toNat + 2 * (st.cur.pred y.val).toNat + (st.cur.pred p.val).toNat)))) ∧
  exec (.packp hd) st = .next (st.pushed32 (st.cur.p.setWidth 32)) ∧
  (∀ (a b : Src) (x m : Word), Reads32 a b st x m s → exec (.unpackp hd a b) st =
    .next (((List.range 7).filter m.getLsbD).foldl (fun s i => s.withPred i (x.getLsbD i)) s)) ∧
  (∀ (p : Fin 8) (v : Bool), (p.val = 7 → st.withPred p.val v = st) ∧ st.cur.pred 7 = true) ∧
  (∀ w : Word, fld w.toNat 30 25 = 6 → (2 ≤ fld w.toNat 3 0 ∨ (fld w.toNat 3 0 = 1 ∧ fld w.toNat 20 4 ≠ 0)) → decodeWord w = .error .illegal)


/-! ### Floating words -/

/-- R355: FADD, FSUB, FMUL and FFMA, and their f64 forms, round the exact result once, in the word's mode, with one draw where it is
SR (R247). In any format: a NaN gives the default NaN, with IV for a signalling one only; an invalid form gives it with IV; an exact
infinity stands; finite terms are rounded once from their exact sum. -/
def Obligations.FpSums : Prop := (∀ (hd : Hd) (a b d : Src) (r : RM) (st s t : State) (n : Nat), Fires hd.gd st →
  (∀ x y : Word,
    let v (w : Word) : FV := f32.dec w.toNat
    let res (ts : List (FV × FV)) : Host.Outcome State Fault Refusal :=
      .next ((t.raised (fusedSum f32 r n ts).2).pushed32 (w32 (fusedSum f32 r n ts).1))
    (ReadsF a b st x y s → s.iss.nd = none → drawSR r s = .ok n t →
      exec (.fadd hd a b r) st = res [(v x, .one), (v y, .one)] ∧
      exec (.fsub hd a b r) st = res [(v x, .one), ((v y).flip, .one)] ∧
      exec (.fmul hd a b r) st = res [(v x, v y)]) ∧
    (∀ (u : State) (z : Word), ReadsF a b st x y u → srcF 2 d u = .ok z s → s.iss.nd = none → drawSR r s = .ok n t →
      exec (.ffma hd a b d r) st = res [(v x, v y), (v z, .one)])) ∧
  (∀ x y : DWord,
    let v (w : DWord) : FV := f64.dec w.toNat
    let res (ts : List (FV × FV)) : Host.Outcome State Fault Refusal :=
      .next ((t.raised (fusedSum f64 r n ts).2).pushed (dw (fusedSum f64 r n ts).1))
    (Reads64 a b st x y s → s.iss.nd = none → drawSR r s = .ok n t →
      exec (.dadd hd a b r) st = res [(v x, .one), (v y, .one)] ∧
      exec (.dsub hd a b r) st = res [(v x, .one), ((v y).flip, .one)] ∧
      exec (.dmul hd a b r) st = res [(v x, v y)]) ∧
    (∀ (u : State) (z : DWord), Reads64 a b st x y u → src64 d u = .ok z s → s.iss.nd = none → drawSR r s = .ok n t →
      exec (.dfma hd a b d r) st = res [(v x, v y), (v z, .one)]))) ∧
  (∀ (f : IFmt) (rm : RM) (u : Nat) (ts : List (FV × FV)),
    let nan := ∃ t ∈ ts, t.1.isNan = true ∨ t.2.isNan = true
    let bad := ∃ t ∈ ts, badProd t.1 t.2 = true
    let inf (neg : Bool) := ∃ t ∈ ts, infTerm t.1 t.2 = some neg
    (nan → (fusedSum f rm u ts).1 = f.dnan ∧
      ((fusedSum f rm u ts).2 = if ts.any (fun t => t.1.isSig || t.2.isSig) then fIV else 0)) ∧
    (¬ nan → (bad ∨ (inf true ∧ inf false)) → fusedSum f rm u ts = (f.dnan, fIV)) ∧
    (∀ neg, ¬ nan → ¬ bad → inf neg → ¬ inf (!neg) → fusedSum f rm u ts = (f.infCode neg, 0)) ∧
    ((∀ t ∈ ts, t.1.isNan = false ∧ t.1.isInf = false ∧ t.2.isNan = false ∧ t.2.isInf = false) →
      ∃ z, fusedSum f rm u ts = f.round rm u z (ts.foldl (fun acc t => acc.add (t.1.q.mul t.2.q)) ⟨0, 1⟩)))

/-- R355: the half words: two lanes of f16, lane 0 rounding and drawing first; FDOT2 rounds its exact sum once, to f32 under RNE. -/
def Obligations.FpHalves : Prop := ∀ (hd : Hd) (a b d : Src) (r : RM) (st s t : State) (x y z : Word) (n m : Nat), Fires hd.gd st →
  let v (w : Word) (l : Nat) : FV := f16.dec (w.toNat / 2 ^ (16 * l) % 2 ^ 16)
  let vb (w : Word) (l : Nat) : FV := bf16.dec (w.toNat / 2 ^ (16 * l) % 2 ^ 16)
  let two (f : Nat → List (FV × FV)) : Host.Outcome State Fault Refusal :=
    let p := fusedSum f16 r n (f 0)
    let q := fusedSum f16 r m (f 1)
    .next ((t.raised (p.2 ||| q.2)).pushed32 (w32 (p.1 + 2 ^ 16 * q.1)))
  (ReadsRaw a b st x y s → (∃ u, drawSR r s = .ok n u ∧ drawSR r u = .ok m t) →
    exec (.hadd2 hd a b r) st = two (fun l => [(v x l, .one), (v y l, .one)]) ∧
    exec (.hmul2 hd a b r) st = two (fun l => [(v x l, v y l)])) ∧
  (∀ p, ReadsRaw a b st x y p → src32 d p = .ok z s →
    ((∃ u, drawSR r s = .ok n u ∧ drawSR r u = .ok m t) →
      exec (.hfma2 hd a b d r) st = two (fun l => [(v x l, v y l), (v z l, .one)])) ∧
    (s.iss.nd = none →
      let dot (h : Word → Nat → FV) := fusedSum f32 .rne 0 [(f32.dec z.toNat, .one), (h x 0, h y 0), (h x 1, h y 1)]
      exec (.fdot2 hd a b d) st = .next ((s.raised (dot v).2).pushed32 (w32 (dot v).1)) ∧
      exec (.fdot2Bf hd a b d) st = .next ((s.raised (dot vb).2).pushed32 (w32 (dot vb).1))))

/-- R356: the minima and maxima: a NaN operand gives the default NaN, or under the number forms the other operand; IV is for a
signalling NaN only; of two numbers the result is one of them, below (or above) neither, and −0 orders below +0 on either side. -/
def Obligations.FpMinMax : Prop := (∀ (hd : Hd) (a b : Src) (st s : State), Fires hd.gd st →
  (∀ x y : Word, ReadsF a b st x y s →
    let res (mx num : Bool) : Host.Outcome State Fault Refusal := let r := fMinMax f32 mx num x.toNat y.toNat
      .next ((s.raised r.2).pushed32 (w32 r.1))
    exec (.fmin hd a b) st = res false false ∧ exec (.fmax hd a b) st = res true false ∧
    exec (.fminn hd a b) st = res false true ∧ exec (.fmaxn hd a b) st = res true true) ∧
  (∀ x y : DWord, Reads64 a b st x y s →
    let res (mx : Bool) : Host.Outcome State Fault Refusal := let r := fMinMax f64 mx false x.toNat y.toNat
      .next ((s.raised r.2).pushed (dw r.1))
    exec (.dmin hd a b) st = res false ∧ exec (.dmax hd a b) st = res true)) ∧
  (∀ (f : IFmt) (mx num : Bool) (x y : Nat),
    let r := fMinMax f mx num x y
    (r.2 = if (f.dec x).isSig || (f.dec y).isSig then fIV else 0) ∧
    ((f.dec x).isNan = true → (f.dec y).isNan = true → r.1 = f.dnan) ∧
    ((f.dec x).isNan = true → (f.dec y).isNan = false → r.1 = if num then y else f.dnan) ∧
    ((f.dec x).isNan = false → (f.dec y).isNan = true → r.1 = if num then x else f.dnan) ∧
    ((f.dec x).isNan = false → (f.dec y).isNan = false →
      (r.1 = x ∨ r.1 = y) ∧
      (fvLt (f.dec x) (f.dec y) = true → r.1 = if mx then y else x) ∧
      (fvLt (f.dec y) (f.dec x) = true → r.1 = if mx then x else y) ∧
      ((f.dec x).isZero = true → (f.dec y).isZero = true → (f.dec x).neg = true → (f.dec y).neg = false → r.1 = if mx then y else x) ∧
      ((f.dec x).isZero = true → (f.dec y).isZero = true → (f.dec x).neg = false → (f.dec y).neg = true → r.1 = if mx then x else y)))

/-- R357, R361, R341: the words of R357 and the special functions complete with the function of their operand that the model gives
the word, and raise its flags; a special function's result is a long-latency one. Of the functions themselves it says what FGETX
gives, and that a class is one bit, which one for each of the ten. What FRND, FSCALE and the special functions round to, it leaves to
the model's definitions.
The model's own choices that it rests on: log entry 4. -/
def Obligations.FpOther : Prop := ∀ (hd : Hd) (a b : Src) (r : RM) (st s : State), Fires hd.gd st →
  (∀ x : Word, srcF 0 a st = .ok x s →
    (∀ n t, drawSR r s = .ok n t → exec (.frnd hd a r) st =
      .next ((t.raised (fRnd f32 r n x.toNat).2).pushed32 (w32 (fRnd f32 r n x.toNat).1))) ∧
    (∀ n t u (y : Word), src32 b s = .ok y u → drawSR r u = .ok n t → exec (.fscale hd a b r) st =
      .next ((t.raised (fScale f32 r n (f32.dec x.toNat) y.toInt).2).pushed32 (w32 (fScale f32 r n (f32.dec x.toNat) y.toInt).1))) ∧
    exec (.fgetx hd a) st = .next ((s.raised (fGetx f32 x.toNat).2).pushed32 (fGetx f32 x.toNat).1) ∧
    exec (.fclass hd a) st = .next (s.pushed32 (w32 (fClass f32 x.toNat)))) ∧
  (∀ x : DWord, src64 a st = .ok x s →
    (∀ n t, drawSR r s = .ok n t → exec (.drnd hd a r) st =
      .next ((t.raised (fRnd f64 r n x.toNat).2).pushed (dw (fRnd f64 r n x.toNat).1))) ∧
    (∀ n t u (y : Word), src32 b s = .ok y u → drawSR r u = .ok n t → exec (.dscale hd a b r) st =
      .next ((t.raised (fScale f64 r n (f64.dec x.toNat) y.toInt).2).pushed (dw (fScale f64 r n (f64.dec x.toNat) y.toInt).1))) ∧
    exec (.dgetx hd a) st = .next ((s.raised (fGetx f64 x.toNat).2).pushed32 (fGetx f64 x.toNat).1) ∧
    exec (.dclass hd a) st = .next (s.pushed32 (w32 (fClass f64 x.toNat)))) ∧
  (∀ (f : IFmt) (c : Nat), ∃ k < 10, fClass f c = 2 ^ k ∧
    (f.dec c = .inf true ↔ k = 0) ∧ (f.dec c = .inf false ↔ k = 7) ∧ (f.dec c = .nan true ↔ k = 8) ∧ (f.dec c = .nan false ↔ k = 9) ∧
    (∀ (n : Bool) (m : Nat) (e : Int), f.dec c = .fin n m e →
      (m = 0 → k = if n then 3 else 4) ∧
      (m ≠ 0 → c / 2 ^ f.mb % 2 ^ f.eb = 0 → k = if n then 2 else 5) ∧
      (m ≠ 0 → c / 2 ^ f.mb % 2 ^ f.eb ≠ 0 → k = if n then 1 else 6))) ∧
  (∀ (f : IFmt) (c : Nat),
    ((f.dec c).isNan = true → fGetx f c = (0x80000000, fIV)) ∧ ((f.dec c).isInf = true → fGetx f c = (0x7FFFFFFF, 0)) ∧
    (∀ (n : Bool) (m : Nat) (e : Int), f.dec c = .fin n m e →
      (m = 0 → fGetx f c = (0x80000000, fDZ)) ∧
      (∀ j : Nat, 2 ^ j ≤ m → m < 2 ^ (j + 1) → fGetx f c = (BitVec.ofInt 32 (j + e), 0)))) ∧
  (∀ x : Word, srcF 0 a st = .ok x s →
    let res (p : Nat × Word) : Host.Outcome State Fault Refusal := .next ((s.raised p.2).sent (dw p.1) false)
    exec (.rcp hd a) st = res (rcpF f32 0 x.toNat) ∧ exec (.rsq hd a) st = res (rsqF f32 1 x.toNat) ∧
    exec (.ex2 hd a) st = res (ex2F x.toNat) ∧ exec (.lg2 hd a) st = res (lg2F x.toNat) ∧
    exec (.sinpi hd a) st = res (trigF 5 x.toNat false) ∧ exec (.cospi hd a) st = res (trigF 6 x.toNat true) ∧
    exec (.tanh hd a) st = res (tanhF x.toNat) ∧
    (∀ r n t, drawSR r s = .ok n t → exec (.sqrt hd a r) st =
      .next ((t.raised (sqrtF r n x.toNat).2).sent (dw (sqrtF r n x.toNat).1) false))) ∧
  (∀ x : DWord, src64 a st = .ok x s →
    let res (p : Nat × Word) : Host.Outcome State Fault Refusal := .next ((s.raised p.2).sent (dw p.1) false)
    exec (.drcp hd a) st = res (rcpF f64 8 x.toNat) ∧ exec (.drsq hd a) st = res (rsqF f64 9 x.toNat))

/-- R352: FCMP, DCMP and FCMP.h write the relation's outcome, under .and with the predicate's own value; an unordered pair is
neither equal nor ordered, and an ordering on it raises IV. -/
def Obligations.FpCompare : Prop := ∀ (hd : Hd) (a b : Src) (p : Fin 8) (r : FRel) (n : Bool) (st s : State), Fires hd.gd st →
  let res (x y : FV) : Host.Outcome State Fault Refusal :=
    .next ((s.raised (fRel r x y).2).withPred p.val (if n then s.cur.pred p.val && (fRel r x y).1 else (fRel r x y).1))
  (∀ x y : Word, ReadsF a b st x y s → exec (.fcmp hd a b p r n) st = res (f32.dec x.toNat) (f32.dec y.toNat)) ∧
  (∀ x y : DWord, Reads64 a b st x y s → exec (.dcmp hd a b p r n) st = res (f64.dec x.toNat) (f64.dec y.toNat)) ∧
  (∀ x y : Word, ReadsRaw a b st x y s →
    exec (.fcmpH hd a b p r n) st = res (f16.dec (x.toNat % 2 ^ 16)) (f16.dec (y.toNat % 2 ^ 16))) ∧
  (∀ x y : FV, x.isNan || y.isNan → (fRel r x y).1 = (r == .ne || r == .un) ∧
    ((fRel r x y).2 = if r == .lt || r == .le || r == .gt || r == .ge || x.isSig || y.isSig then fIV else 0))

/-- R359, R360: CVT between every pair of its types; PK2, a drawing before b; between integer types the value saturates with SATN; a
NaN converts to 0 with IV, an infinity to the nearer limit with IV.
The model's own choices that it rests on: log entries 4, 24, 103. -/
def Obligations.Convert : Prop := (∀ (hd : Hd) (a b : Src) (r : RM) (st s t : State), Fires hd.gd st →
  (∀ (f g : NumTy) (c n : Nat), tySrc f a st = .ok c s → drawSR r s = .ok n t →
    let v := cvtCode f g r n c
    exec (.cvt hd a f g r) st =
      .next (if tyW g = 64 then (t.raised v.2).pushed (dw v.1) else (t.raised v.2).pushed32 (w32 v.1))) ∧
  (∀ (x y : Word) (n m : Nat), ReadsRaw a b st x y s → (∃ u, drawSR r s = .ok n u ∧ drawSR r u = .ok m t) →
    let res (h : NumTy) : Host.Outcome State Fault Refusal :=
      let p := cvtCode .f32 h r n x.toNat
      let q := cvtCode .f32 h r m y.toNat
      .next ((t.raised (p.2 ||| q.2)).pushed32 (w32 (p.1 + 2 ^ 16 * q.1)))
    exec (.pk2F16 hd a b r) st = res .f16 ∧ exec (.pk2Bf16 hd a b r) st = res .bf16)) ∧
  (∀ (f g : NumTy) (r : RM) (u c : Nat),
    let lo : Int := if tyU g then 0 else -(2 ^ (tyW g - 1))
    let hi : Int := if tyU g then 2 ^ tyW g - 1 else 2 ^ (tyW g - 1) - 1
    g.isInt = true →
      (f.isInt = true → cvtCode f g r u c =
        (modW (tyW g) (max lo (min hi (tyInt f c))), if lo ≤ tyInt f c ∧ tyInt f c ≤ hi then 0 else fSATN)) ∧
      (f.isInt = false →
        (((tyF f).dec (c % 2 ^ tyW f)).isNan = true → cvtCode f g r u c = (0, fIV)) ∧
        ((tyF f).dec (c % 2 ^ tyW f) = .inf true → cvtCode f g r u c = (modW (tyW g) lo, fIV)) ∧
        ((tyF f).dec (c % 2 ^ tyW f) = .inf false → cvtCode f g r u c = (modW (tyW g) hi, fIV))))

/-- R344, R255, R327: a narrow result: an integer host's exact value, or CVTN's, is rounded once into the subfield that the prefix
names; the other bits are zero, for CVTN those of SB; a floating host's exact sum is rounded once into it.
The model's own choices that it rests on: log entries 24, 47, 103. -/
def Obligations.Narrow : Prop := ∀ (hd : Hd) (a b : Src) (st s t : State) (nd : NdP) (n : Nat), Fires hd.gd st →
  s.iss.nd = some nd → drawSR nd.rm s = .ok n t →
  let fm := ftOf (s.ctxD s.cur.id.ctx) nd.ft
  let w := if nd.int then subBits nd.w else fm.wid
  let res (base : Word) (v : NVal) : Host.Outcome State Fault Refusal :=
    let c := if nd.int then narrowInt (subBits nd.w) nd.sgn nd.sat nd.rm n v.v else fm.conv nd.rm n nd.sat v.v v.zneg
    .next ((t.raised (v.fl ||| c.2)).pushed32 (placeSub base (subBits nd.w * nd.i) w c.1))
  let int (e : Int) : NVal := ⟨.inr (Q.ofInt e), false, 0⟩
  (∀ x y : Word, Reads32 a b st x y s →
    exec (.add hd a b false false false) st = res 0 (int (x.toInt + y.toInt)) ∧
    exec (.sub hd a b false false false) st = res 0 (int (x.toInt - y.toInt)) ∧
    exec (.mul hd a b false false false) st = res 0 (int (x.toInt * y.toInt))) ∧
  (∀ (d : Src) (rm : RM),
    let f (w : Word) : FV := f32.dec w.toNat
    let g (w : DWord) : FV := f64.dec w.toNat
    let sum (ts : List (FV × FV)) : Out := res 0 (fusedVal nd.rm ts)
    (∀ x y : Word, ReadsF a b st x y s → exec (.fadd hd a b rm) st = sum [(f x, .one), (f y, .one)] ∧
      exec (.fsub hd a b rm) st = sum [(f x, .one), ((f y).flip, .one)] ∧ exec (.fmul hd a b rm) st = sum [(f x, f y)]) ∧
    (∀ (u : State) (x y z : Word), ReadsF a b st x y u → srcF 2 d u = .ok z s →
      exec (.ffma hd a b d rm) st = sum [(f x, f y), (f z, .one)]) ∧
    (∀ x y : DWord, Reads64 a b st x y s → exec (.dadd hd a b rm) st = sum [(g x, .one), (g y, .one)] ∧
      exec (.dsub hd a b rm) st = sum [(g x, .one), ((g y).flip, .one)] ∧ exec (.dmul hd a b rm) st = sum [(g x, g y)]) ∧
    (∀ (u : State) (x y z : DWord), Reads64 a b st x y u → src64 d u = .ok z s →
      exec (.dfma hd a b d rm) st = sum [(g x, g y), (g z, .one)]) ∧
    (∀ (u : State) (x y z : Word), ReadsRaw a b st x y u → src32 d u = .ok z s →
      let dot (m : IFmt) : Out :=
        let h (w : Word) (l : Nat) : FV := m.dec (w.toNat / 2 ^ (16 * l) % 2 ^ 16)
        sum [(f z, .one), (h x 0, h y 0), (h x 1, h y 1)]
      exec (.fdot2 hd a b d) st = dot f16 ∧ exec (.fdot2Bf hd a b d) st = dot bf16)) ∧
  (∀ x y : Word, (∃ u, srcI 0 a st = .ok x u ∧ src32 b u = .ok y s) →
    exec (.cvtnI32 hd a b) st = res y (int x.toInt) ∧ exec (.cvtnN32 hd a b) st = res y (int x.toNat)) ∧
  (∀ (x y : Word), (∃ u, srcF 0 a st = .ok x u ∧ src32 b u = .ok y s) → exec (.cvtnF32 hd a b) st =
    res y ⟨.inl (f32.dec x.toNat).quiet, (f32.dec x.toNat).neg, if (f32.dec x.toNat).isSig then fIV else 0⟩) ∧
  (∀ (x : DWord) (y : Word), ReadsWide a b st x y s → exec (.cvtnF64 hd a b) st =
    res y ⟨.inl (f64.dec x.toNat).quiet, (f64.dec x.toNat).neg, if (f64.dec x.toNat).isSig then fIV else 0⟩)


/-! ### Words of a set -/

/-- R363: a cross-group word joins with the thread's operands, pushes its entries and, at the last thread's issue, fills all.
The model's own choices that it rests on: log entry 3. -/
def Obligations.CrossGroup : Prop := ∀ (hd : Hd) (a b : Src) (st s : State), Fires hd.gd st → s.iss.stalled = false →
  let res (op : XgOp) (c : Bool) (x : DWord) (y : Word) : Out :=
    .next (if st.iss.last then (s.joined 1 c x y).fillXg st.iss.lane st.iss.word op else s.joined 1 c x y)
  (∀ x y : Word, ReadsRaw a b st x y s →
    (∀ m, exec (.xshuf hd a b m) st = res (.shuf m) true (x.setWidth 64) y) ∧
    (∀ m, exec (.vote hd a b m) st = res (.vote m) true (x.setWidth 64) y) ∧
    (∀ o t, stW t = false → exec (.reduce hd a b o t) st = res (.red o t) (y == 0) (x.setWidth 64) y ∧
      exec (.scan hd a b o t) st = res (.scan o t false) (y == 0) (x.setWidth 64) y ∧
      exec (.scanX hd a b o t) st = res (.scan o t true) (y == 0) (x.setWidth 64) y)) ∧
  (∀ (x : DWord) (y : Word), ReadsWide a b st x y s →
    exec (.boxu hd a b .set) st = res .box (y == 0) x y ∧
    (∀ o t, stW t = true → exec (.reduce hd a b o t) st = res (.red o t) (y == 0) x y ∧
      exec (.scan hd a b o t) st = res (.scan o t false) (y == 0) x y ∧
      exec (.scanX hd a b o t) st = res (.scan o t true) (y == 0) x y)) ∧
  (∀ x : Word, src32 a st = .ok x s → exec (.matchX hd a false) st = res .mtch true (x.setWidth 64) 0) ∧
  (∀ x : DWord, src64 a st = .ok x s → exec (.matchX hd a true) st = res .mtch true x 0) ∧
  (s = st → exec (.elect hd) st = res .elect true 0 0)

/-- R364, R365, R367: what the threads of a set get from XSHUF, VOTE, MATCH and ELECT, by the threads that contribute. -/
def Obligations.CrossResults : Prop := ∀ (set : List Nat) (g : List Word) (es : List XgEnt) (srs : AL DWord),
  es ≠ [] → es.Pairwise (fun x y => x.tid ≠ y.tid) → (∀ e ∈ es, e.tid < 32 ∧ e.contrib = true) →
  let get (op : XgOp) (e : XgEnt) (v : DWord) : Prop := (e.tid, [v], 0) ∈ (xgResults 32 set g es op srs).1
  let val (x : XgEnt) : DWord := dw (x.a.toNat % 2 ^ 32 + 2 ^ 32)
  (∀ op ∈ [XgOp.mtch, .elect, .vote .all, .vote .any, .vote .ballot, .vote .uni, .shuf .index, .shuf .up, .shuf .down, .shuf .xor],
    (xgResults 32 set g es op srs).1.map (·.1) = es.map (·.tid) ∧ (xgResults 32 set g es op srs).2 = srs) ∧
  (∀ e ∈ es,
    get (.vote .all) e (if ∀ x ∈ es, x.a ≠ 0 then 1 else 0) ∧
    get (.vote .any) e (if ∃ x ∈ es, x.a ≠ 0 then 1 else 0) ∧
    get (.vote .uni) e (if ∀ x ∈ es, x.a = e.a then 1 else 0) ∧
    (∃ v, get (.vote .ballot) e v ∧ ∀ t < 64, v.getLsbD t = es.any (fun x => x.tid == t && x.a != 0)) ∧
    (∃ v, get .mtch e v ∧ ∀ t < 64, v.getLsbD t = es.any (fun x => x.tid == t && x.a == e.a)) ∧
    get .elect e (if ∀ x ∈ es, e.tid ≤ x.tid then 1 else 0) ∧
    (∀ x ∈ es,
      (x.tid = e.tid ^^^ (e.b.toNat % 32) → get (.shuf .xor) e (val x)) ∧
      (x.tid = e.b.toNat % 32 → get (.shuf .index) e (val x)) ∧
      (x.tid + e.b.toNat = e.tid → get (.shuf .up) e (val x)) ∧
      (x.tid = e.tid + e.b.toNat → get (.shuf .down) e (val x))) ∧
    ((∀ x ∈ es, x.tid ≠ e.tid + e.b.toNat) → get (.shuf .down) e (dw (e.a.toNat % 2 ^ 32))) ∧
    ((∀ x ∈ es, x.tid + e.b.toNat ≠ e.tid) → get (.shuf .up) e (dw (e.a.toNat % 2 ^ 32))))

/-- R265, R267: over the fixed tree REDUCE.add of 32-bit integers gives every thread of the set the sum of the contributions, modulo
2^32, and bit 32 says whether there was one. -/
def Obligations.IntegerReduction : Prop := ∀ (set : List Nat) (g : List Word) (es : List XgEnt) (srs : AL DWord) (ty : ScanTy),
  (ty = .i32 ∨ ty = .n32) → es.Pairwise (fun x y => x.tid ≠ y.tid) → (∀ e ∈ es, e.tid < 32 ∧ e.a.toNat < 2 ^ 32) →
    ∀ e ∈ es, ∃ f, (e.tid,
      [if es.any (·.contrib) then dw (((es.filter (·.contrib)).map (·.a.toNat)).sum % 2 ^ 32 + 2 ^ 32) else 0], f) ∈
        (xgResults 32 set g es (.red .add ty) srs).1

/-- R368, R175: a forwarded form computes as its plain op, with the forwarded value as its second operand, or its first under
REV; MOV gives the second. -/
def Obligations.Forwarded : Prop := ∀ (hd : Hd) (a : Src) (f : Fin 32) (k : Fin 8) (v : Bool) (st u s : State) (x y : Word),
  Fires hd.gd st → readFwd f.val (k.val + 1) u = .ok y s →
  let p := if v then y else x
  let q := if v then x else y
  (srcI 0 a st = .ok x u →
    let r (o : IntfOp) (w : Word) : Prop := exec (.intf hd a f k o v) st = .next (s.pushed32 w)
    r .add (p + q) ∧ r .sub (p - q) ∧ r .mul (p * q) ∧ r .min (if p.sle q then p else q) ∧ r .max (if q.sle p then p else q) ∧
    r .minu (if p ≤ q then p else q) ∧ r .maxu (if q ≤ p then p else q) ∧ r .and (p &&& q) ∧ r .or (p ||| q) ∧ r .xor (p ^^^ q) ∧
    r .andn (p &&& ~~~ q) ∧ r .shl (p <<< q.toNat) ∧ r .shr (p >>> q.toNat) ∧ r .sar (p.sshiftRight q.toNat) ∧ r .mov q) ∧
  (srcF 0 a st = .ok x u →
    let d (w : Word) : FV := f32.dec w.toNat
    (∀ (rm : RM) (n : Nat) (t : State), s.iss.nd = none → drawSR rm s = .ok n t →
      let r (ts : List (FV × FV)) : Out := .next ((t.raised (fusedSum f32 rm n ts).2).pushed32 (w32 (fusedSum f32 rm n ts).1))
      exec (.fltf hd a f k .fadd v rm) st = r [(d p, .one), (d q, .one)] ∧
      exec (.fltf hd a f k .fsub v rm) st = r [(d p, .one), ((d q).flip, .one)] ∧
      exec (.fltf hd a f k .fmul v rm) st = r [(d p, d q)]) ∧
    (∀ rm : RM,
      let r (mx : Bool) : Out := let m := fMinMax f32 mx false p.toNat q.toNat
        .next ((s.raised m.2).pushed32 (w32 m.1))
      exec (.fltf hd a f k .fmin v rm) st = r false ∧ exec (.fltf hd a f k .fmax v rm) st = r true))

/-- R171, R325, R370 to R372: a uniform word computes once, at the set's first thread whose guard is true, and holds its write for run
end, USEL by the uniform register as it is when the run starts; for a later thread it does nothing.
The model's own choices that it rests on: log entry 23. -/
def Obligations.Uniform : Prop := ∀ (hd : Hd) (a b : Src) (e : Fin 64) (st s : State), Fires hd.gd st →
  let r (v : Word) : Out :=
    .next ((s.modRun (fun r => { r with uni := r.uni ++ [(s.iss.word, e.val, v)] })).onceDone st.iss.word [])
  let words : List Instr := [.umov hd a e, .uadd hd a b e, .usub hd a b e, .umul hd a b e, .uand hd a b e, .uor hd a b e,
    .uxor hd a b e, .ushl hd a b e, .ushr hd a b e, .ucmp hd a b e, .usel hd a b e, .uwin hd a, .uld hd a e, .uld64 hd a e]
  (FirstOfSet st →
    (∀ x : Word, src32 a st = .ok x s → exec (.umov hd a e) st = r x) ∧
    (∀ x y : Word, ReadsRaw a b st x y s →
      exec (.uadd hd a b e) st = r (x + y) ∧ exec (.usub hd a b e) st = r (x - y) ∧
      exec (.umul hd a b e) st = r (x * y) ∧ exec (.uand hd a b e) st = r (x &&& y) ∧
      exec (.uor hd a b e) st = r (x ||| y) ∧ exec (.uxor hd a b e) st = r (x ^^^ y) ∧
      exec (.ushl hd a b e) st = r (x <<< y.toNat) ∧ exec (.ushr hd a b e) st = r (x >>> y.toNat) ∧
      exec (.ucmp hd a b e) st = r (if x.slt y then -1 else if x = y then 0 else 1) ∧
      exec (.usel hd a b e) st = r (if s.curGrp.uni e.val = 0 then y else x)) ∧
    (∀ x : Word, src32 a st = .ok x s → x.toNat ≤ 56 →
      exec (.uwin hd a) st =
        .next ((s.modRun (fun r => { r with uwin := laterOf r.uwin (s.iss.word, x.toNat) })).onceDone st.iss.word [])) ∧
    (∀ (u : State) (x : DWord) (v : Nat), src64 a st = .ok x u →
      (spaceLoad .cst x.toNat 4 u = .ok (v, false) s → exec (.uld hd a e) st = r (w32 v)) ∧
      (spaceLoad .cst x.toNat 8 u = .ok (v, false) s → exec (.uld64 hd a e) st =
        .next ((s.modRun (fun r => { r with
          uni := r.uni ++ [(s.iss.word, e.val, w32 v), (s.iss.word, e.val + 1, w32 (v / 2 ^ 32))] })).onceDone
          st.iss.word [])))) ∧
  (st.curRun.bind (fun r => alGet r.once st.iss.word) = some (.done []) → ∀ i ∈ words, exec i st = .next st)

/-! ### Memory words -/

/-- R100, R102, R375, R376, R379, R380: LD and LD.s push what their address reads, zero- or sign-extended; a load of constants gets what the run's
first load of that address got (R102); ST stores its data;
PREF is a hint, which reads its line or is dropped (R380); CACHE drops the core's copy of the line or writes it back.
The model's own choices that it rests on: log entry 2. -/
def Obligations.LoadsAndStores : Prop := ∀ (hd : Hd) (a b : Src) (p : Space) (w : Width) (st t s : State) (va : Nat) (x : DWord), Fires hd.gd st →
  (∀ (v : Nat) (po : Bool), addrOff p a b st = .ok va t →
    (if p = .cst then cstLoad va (Width.bytes' w) else spaceLoad p va (Width.bytes' w)) t = .ok (v, po) s →
    (w ≠ .b128 → exec (.ld hd a b p w) st = .next (s.sent (dw v) po) ∧
      exec (.ldS hd a b p w) st = .next (s.sent (((BitVec.ofNat (8 * Width.bytes' w) v).signExtend 32).setWidth 64) po)) ∧
    (w = .b128 → exec (.ld hd a b p w) st = .next ((s.sent (dw v) po).sent (dw (v / 2 ^ 64)) po))) ∧
  (∀ (r : Run) (n : Nat) (k : Nat × Nat × Nat) (v : Nat × Bool), st.curRun = some r →
    r.bcast.find? (fun e => e.1 == (st.iss.word, va, n)) = some (k, v) → cstLoad va n st = .ok v st) ∧
  (∀ (u : State) (v : Nat), addrOf p a st = .ok va t → dataOf w b t = .ok v u → spaceStore p va (Width.bytes' w) v u = .ok () s →
    exec (.st hd a b p w) st = .next s) ∧
  (∀ (x : DWord) (y : Word), ReadsWide a b st x y s → wideSpace p = true → addrOff p a b st = .ok (x + y.signExtend 64).toNat s) ∧
  (∀ x y : Word, ReadsRaw a b st x y s → wideSpace p = false → addrOff p a b st = .ok (x + y).toNat s) ∧
  (src64 a st = .ok x t →
    (∀ v, loadV t.curWho .read (x.toNat / 64 * 64) 64 t = .ok v s → exec (.pref hd a p) st = .next s) ∧
    (∀ f, loadV t.curWho .read (x.toNat / 64 * 64) 64 t = .error (.fault f) s → exec (.pref hd a p) st = .next s)) ∧
  (∀ (y : Word) (pa : Nat) (r : Nat × Nat × Nat), ReadsWide a b st x y t → translate t.curWho .read (x.toNat / 64 * 64) t = .ok (pa, r) s →
    (y = 0 → exec (.cache hd a b p) st = .next (s.modCore s.curCore (fun c =>
      { c with l1 := c.l1.filter (fun l => !(l.ctx == s.cur.id.ctx && l.pa == lineOf pa)) }))) ∧
    (y = 1 ∨ y = 2 → exec (.cache hd a b p) st = .next s))

/-- R381 to R384, R142, R146: ATOM and CAS push the old value and RED pushes nothing; the location takes the operation's result
whole; REDD files an update, with its key, in the batch of its launch, address, function and width, and changes no memory; the batch
of an update holds it last. -/
def Obligations.Atomics : Prop := (∀ (hd : Hd) (a b : Src) (p : Space) (w : Width) (st t u s : State) (va v old : Nat) (po : Bool),
  Fires hd.gd st → addrOf p a st = .ok va t →
  let n := Width.bytes' w
  let does (f : Nat → Nat) : Prop := spaceAtom p va n f u = .ok (old, po) s
  (dataOf w b t = .ok v u →
    (does (fun m => atomF .add (8 * n) m v) →
      exec (.atomAdd hd a b p w) st = .next (s.sent (dw old) po) ∧ exec (.redAdd hd a b p w) st = .next s) ∧
    (does (fun m => atomF .fadd (8 * n) m v) →
      exec (.atomFadd hd a b p w) st = .next (s.sent (dw old) po) ∧ exec (.redFadd hd a b p w) st = .next s) ∧
    (does (fun m => atomF .min (8 * n) m v) →
      exec (.atomMin hd a b p w) st = .next (s.sent (dw old) po) ∧ exec (.redMin hd a b p w) st = .next s) ∧
    (does (fun m => atomF .max (8 * n) m v) →
      exec (.atomMax hd a b p w) st = .next (s.sent (dw old) po) ∧ exec (.redMax hd a b p w) st = .next s) ∧
    (does (fun m => atomF .and (8 * n) m v) →
      exec (.atomAnd hd a b p w) st = .next (s.sent (dw old) po) ∧ exec (.redAnd hd a b p w) st = .next s) ∧
    (does (fun m => atomF .or (8 * n) m v) →
      exec (.atomOr hd a b p w) st = .next (s.sent (dw old) po) ∧ exec (.redOr hd a b p w) st = .next s) ∧
    (does (fun m => atomF .xor (8 * n) m v) →
      exec (.atomXor hd a b p w) st = .next (s.sent (dw old) po) ∧ exec (.redXor hd a b p w) st = .next s) ∧
    (does (fun m => atomF .swap (8 * n) m v) → exec (.atomSwap hd a b p w) st = .next (s.sent (dw old) po))) ∧
  (∀ c, dataPair w b t = .ok (c, v) u → does (fun m => if m = c then v else m) →
    exec (.cas hd a b p w) st = .next (s.sent (dw old) po)) ∧
  (∀ x y : Word, atomF .add 32 x.toNat y.toNat = (x + y).toNat ∧ atomF .min 32 x.toNat y.toNat = (if x.sle y then x else y).toNat ∧
    atomF .max 32 x.toNat y.toNat = (if y.sle x then x else y).toNat ∧ atomF .and 32 x.toNat y.toNat = (x &&& y).toNat ∧
    atomF .or 32 x.toNat y.toNat = (x ||| y).toNat ∧ atomF .xor 32 x.toNat y.toNat = (x ^^^ y).toNat ∧
    atomF .swap 32 x.toNat y.toNat = y.toNat)) ∧
  (∀ (hd : Hd) (a b : Src) (w : Width) (st t u q s : State) (x : DWord) (v k l pa key cp ca : Nat), Fires hd.gd st →
    src64 a st = .ok x t → dataPair w b t = .ok (v, k) u → x.toNat < 2 ^ 55 → x.toNat % Width.bytes' w = 0 →
    u.cur.id.launch = some l → translate u.curWho .atomic x.toNat u = .ok (pa, key, cp, ca) q →
    reach u.curWho .atomic pa ca q = .ok () s →
    let r (fn : Nat) : Out := .next { s with mem := { s.mem with
      batches := fileRedd s.mem.batches l s.cur.id.ctx pa key fn (decide (Width.bytes' w = 8)) (k % 2 ^ 32) v } }
    exec (.reddAdd hd a b w) st = r 0 ∧ exec (.reddFadd hd a b w) st = r 1 ∧ exec (.reddMin hd a b w) st = r 2 ∧
    exec (.reddMax hd a b w) st = r 3 ∧ exec (.reddMinU hd a b w) st = r 4 ∧ exec (.reddMaxU hd a b w) st = r 5 ∧
    exec (.reddOr hd a b w) st = r 6) ∧
  (∀ (bs : List Batch) (l c pa key fn : Nat) (w64 : Bool) (k v : Nat),
    let bs' := fileRedd bs l c pa key fn w64 k v
    (∃ b ∈ bs', b.launch = l ∧ b.pa = pa ∧ b.fn = fn ∧ b.w64 = w64 ∧ b.ups.getLast? = some (k, v)) ∧
    (∀ b ∈ bs, ¬ (b.launch = l ∧ b.pa = pa ∧ b.fn = fn ∧ b.w64 = w64) → b ∈ bs'))

/-- R112, R385: TAGQ reports the entry that holds its address's tag; TAGSET changes it or takes a free way; TAGCLR frees it. -/
def Obligations.TagWords : Prop := ∀ (hd : Hd) (a b : Src) (st s : State) (x : DWord), Fires hd.gd st →
  let find := tagFind (s.coreD s.curCore) s.curGrp.res x.toNat
  (src64 a st = .ok x s →
    (find = none → exec (.tagq hd a) st = .next (s.pushed 0) ∧ exec (.tagclr hd a) st = .next (s.pushed 0)) ∧
    (∀ t, find = some t →
      exec (.tagq hd a) st = .next (s.pushed (dw (2 ^ 34 + t.st * 2 ^ 32 + t.loc * 64 + t.way))) ∧
      exec (.tagclr hd a) st = .next ((s.modCore s.curCore (fun k => tagPut k { t with st := 0 })).pushed 1))) ∧
  (∀ (y : Word) (r : Res), ReadsWide a b st x y s → y.toNat / 2 ^ 19 = 0 → fld y.toNat 5 2 = 0 → y.toNat % 4 ≠ 0 →
    s.res? s.curGrp.res = some r → fld y.toNat 18 6 * 64 + 64 ≤ r.sg.length * 16384 →
    (∀ t, find = some t → exec (.tagset hd a b) st = .next
      ((s.modCore s.curCore (fun k => tagPut k { t with st := y.toNat % 4, loc := fld y.toNat 18 6 })).pushed 3)) ∧
    (find = none →
      let ways := (List.range 4).find? (fun w => !(s.coreD s.curCore).tags.any (fun t => t.set == tagSet x.toNat && t.way == w))
      (ways = none → exec (.tagset hd a b) st = .next (s.pushed 0)) ∧
      (∀ w, ways = some w → exec (.tagset hd a b) st = .next ((s.modCore s.curCore (fun k =>
        tagPut k ⟨tagSet x.toNat, w, y.toNat % 4, s.curGrp.res, tagTag x.toNat, fld y.toNat 18 6⟩)).pushed 1))))

/-- R193, R206, R386, R387: SCFG holds a ring descriptor, a stream record, a binding or an unbinding for run end, once for the set;
MAPL holds a mapping or its end for run end. -/
def Obligations.StreamSetup : Prop := ∀ (hd : Hd) (a b : Src) (st u s : State), Fires hd.gd st →
  let held (e : ScfgEff) : Out := .next ((s.modRun (fun r => { r with scfg := r.scfg ++ [e] })).onceDone st.iss.word [])
  (∀ (p : Space) (x : DWord) (y : Word), FirstOfSet st → ReadsWide a b st x y u →
    (∀ (k l : Nat) (v : Nat), y.toNat = k → k < 16 → isChard u.curCore = true → readImg x.toNat 16 u = .ok v s →
      s.cur.id.launch = some l →
      let old := alGetD (s.quadD (coreQuad s.curCore)).rings k .empty
      (old.v = true → old.own = l) → (v.testBit 127 = true → ringBad s (coreQuad s.curCore) l (BitVec.ofNat 128 v) = false) →
      exec (.scfg hd a b p) st = held (.ring k (BitVec.ofNat 128 v))) ∧
    (∀ r v : Nat, y.toNat = 256 + r → r < 64 → readImg x.toNat 32 u = .ok v s → srOk (BitVec.ofNat 256 v) = true →
      exec (.scfg hd a b p) st = held (.stream r (BitVec.ofNat 256 v))) ∧
    (∀ h r : Nat, u = s → p = .glb → h < 4 → r < 64 →
      (y.toNat = 512 + h * 64 + r → exec (.scfg hd a b p) st = held (.bind h r)) ∧
      (y.toNat = 1536 + h * 64 + r → exec (.scfg hd a b p) st = held (.unbind h)))) ∧
  (∀ x y : Word, ReadsRaw a b st x y s →
    let d := fld y.toNat 4 0
    let n := fld y.toNat 8 5
    y.toNat / 2 ^ 9 = 0 → x.toNat < 64 → n ≤ 8 → (∀ l, s.curLaunch = some l → d + n ≤ l.ncap) → d + n ≤ 32 →
    (srEsz (alGetD s.curRecs x.toNat 0) = 3 → d % 2 = 0 ∧ n % 2 = 0) →
    exec (.mapl hd a b) st = .next (s.modCur (fun th => { th with rt := { th.rt with
      mapl := if n = 0 then none else some ⟨d, n, x.toNat, 0, 0, none⟩, unmap := n == 0 } })))

/-! ### Rings and edges -/

/-- R196 to R200, R202: a claim gives its slot, or 0 when the slot at the pointer is not ready; a release adds its weight; RWAIT and
CWAIT wait from run end; CARM adds to its count object. Table 8.2: a claim moves its pointer by one slot, wrapping with a change of
phase; a release that completes the side's weight turns the slot over, a drained one in the other phase.
The model's own choices that it rests on: log entry 104. -/
def Obligations.RingWords : Prop := (∀ (hd : Hd) (a b : Src) (st s : State) (x : Word), Fires hd.gd st →
  let quad := coreQuad s.curCore
  let k := fld x.toNat 31 28
  let slot := fld x.toNat 27 16
  let r := alGetD (s.quadD quad).rings k .empty
  let mine := r.v = true ∧ s.cur.id.launch = some r.own
  (src32 a st = .ok x s → mine →
    (∀ cons : Bool,
      let word : Instr := if cons then .racqC hd a else .racqP hd a
      let wordU : Instr := if cons then .racqCU hd a else .racqPU hd a
      (r.claim cons = none → exec word st = .next (s.sent 0 false) ∧
        (FirstOfSet st → exec wordU st = .next (s.onceDone st.iss.word [⟨0, .full⟩]))) ∧
      (∀ (ph : Bool) (n : Nat) (r' : Ring), r.claim cons = some (ph, n, r') →
        let v : DWord := dw (2 ^ 33 + (if ph then 2 ^ 32 else 0) + k * 2 ^ 28 + n * 2 ^ 16)
        let t := (s.setRing quad k r').invalidate s.curCore s.cur.id.ctx
        exec word st = .next (t.sent v false) ∧
        (FirstOfSet st → exec wordU st = .next (t.onceDone st.iss.word [⟨v, .full⟩]))))) ∧
  (∀ y : Word, ReadsRaw a b st x y s →
    (mine → y.toNat / 2 ^ 11 = 0 → 1 ≤ fld y.toNat 8 0 → fld y.toNat 8 0 ≤ 256 →
      ∀ r', r.release slot (y.toNat.testBit 10) (y.toNat.testBit 9) (fld y.toNat 8 0) = some r' →
        exec (.rrel hd a b) st = .next ((s.drainCore s.curCore).setRing quad k r')) ∧
    (mine →
      (y.toNat < 2 → exec (.rwait hd a b) st = .next (s.waits (.ringHead k (y == 1)))) ∧
      (y.toNat < 8 → 2 ≤ y.toNat % 4 → slot ≤ r.nslot → exec (.rwait hd a b) st =
        .next (s.waits (.ringSlot k slot (y.toNat % 4 == 2) (y.toNat.testBit 2))))) ∧
    (x.toNat < 32 → 1 ≤ y.toNat → y.toNat ≤ 2 ^ 24 →
      let c := alGetD (s.quadD quad).counts x.toNat .empty
      (c.cnt = 0 ∧ c.pend = 0) ∨ c.own = s.cur.id.launch → c.cnt + y.toNat ≤ 2 ^ 31 - 1 →
      exec (.carm hd a b) st = .next (s.setCount quad x.toNat { c with
        own := s.cur.id.launch, cnt := c.cnt + y.toNat }))) ∧
  (src32 a st = .ok x s → x.toNat < 32 →
    let c := alGetD (s.quadD quad).counts x.toNat .empty
    (c.cnt = 0 ∧ c.pend = 0) ∨ c.own = s.cur.id.launch → exec (.cwait hd a) st = .next (s.waits (.count x.toNat)))) ∧
  (∀ (r : Ring) (cons : Bool),
    let k := if cons then r.tail else r.head
    let ph := if cons then r.tph else r.hph
    let lim := if cons then r.drainn else r.filln
    (∀ q n r', r.claim cons = some (q, n, r') → q = ph ∧ n = k ∧ (r.slot k).full = cons ∧ (r.slot k).ph = ph ∧ r'.slots = r.slots ∧
      (if cons then r'.tail else r'.head) = (if k + 1 > r.nslot then 0 else k + 1) ∧
      (if cons then r'.tph else r'.hph) = (if k + 1 > r.nslot then !ph else ph) ∧
      (if cons then r'.head else r'.tail) = (if cons then r.head else r.tail)) ∧
    (∀ n q w r', r.release n cons q w = some r' → n ≤ r.nslot ∧ (r.slot n).full = cons ∧ (r.slot n).ph = q ∧ (r.slot n).cnt + w ≤ lim ∧
      (∀ m ≠ n, r'.slot m = r.slot m) ∧ r'.head = r.head ∧ r'.tail = r.tail ∧
      r'.slot n = if (r.slot n).cnt + w = lim then ⟨!cons, if cons then !q else q, 0⟩ else { r.slot n with cnt := (r.slot n).cnt + w }))

/-- R178 to R181, R389 to R397: the edge words. A store's source action comes first; SPAWN files its child; POST holds its record for the
end of its slot, or files it with a node; PICK takes the oldest record of its list; QWAIT and BAR wait from run end; NODE counts or seals.
The model's own choices that it rests on: log entries 25, 100. -/
def Obligations.EdgeWords : Prop := ∀ (hd : Hd) (a b : Src) (st u s : State), Fires hd.gd st →
  (∀ (v w : State) (t : DWord) (args : List Word) (f : Nat) (fr : Frame), src64 a st = .ok t u → argRegs b 0 8 u = .ok args v →
    t.toNat % 12 = 0 → needFrame v = .ok f w → alGet w.frames f = some fr → fr.out < 2 ^ 20 →
    w.partRoom fr.ctx (coreTile w.curCore) recBytes = true →
    let child := Thr.start ⟨w.cur.id.launch, w.cur.id.ctx, dw fr.next, w.cur.id.role, false, some f⟩ t.toNat args 0 0
    let x := (({ w with fresh := w.fresh + 1 } : State).drainCore w.curCore).modFrame f
      (fun fr => { fr with out := fr.out + 1, next := fr.next + 1 })
    let x := { x with thrs := alSet x.thrs w.fresh child }
    ∀ (l bin : Nat) (y : State), w.cur.id.launch = some l →
      x.file w.curCore .spawn l t.toNat t.toNat (.thr w.fresh) = some (bin, y) →
      exec (.spawn hd a b) st = .next ((y.modThr w.fresh (fun th => { th with loc := .filed w.curCore bin })).makeWay w.curCore fr.ctx w.fresh)) ∧
  (let t := (st.drainCore st.curCore).modCur (fun th => { th with trig := true })
   exec (.trig hd) st = .next (match t.cur.id.launch with
     | some l => t.modLaunch l (fun la => { la with trigs := true })
     | none => t)) ∧
  (st.cur.id.item = true → exec (.pub hd) st = .next (st.modCur (fun th => { th with rt := { th.rt with pub := true } }))) ∧
  (∀ (x y : Word) (l : Fin 8), ReadsRaw a b st x y s →
    (l.val = 0 → exec (.bar hd a b l) st = .next s) ∧
    (1 ≤ l.val → l.val ≤ 5 → exec (.bar hd a b l) st = .next (s.waits (.bar l.val 0 0))) ∧
    (l.val = 6 → x.toNat < 2 ^ 16 → 1 ≤ y.toNat → y.toNat ≤ 64 →
      exec (.bar hd a b l) st = .next (s.waits (.bar 6 x.toNat y.toNat)))) ∧
  (∀ (n : Fin 8) (x : Word) (ws : List Word) (l : Nat) (la : Launch), src32 a st = .ok x u →
    argRegs b 0 (n.val + 1) u = .ok ws s → s.cur.id.launch = some l → s.curLaunch = some la → x.toNat < 4096 →
    let t := s.drainCore s.curCore
    exec (.post hd a b false n) st = .next (t.modRun (fun r => { r with posts := r.posts ++ [(x.toNat, ws)] })) ∧
    (∀ (nl bin : Nat) (k : Launch) (y : State), nodeOf s la x.toNat = some nl → s.launch? nl = some k → t.launch? nl = some k →
      k.nrec = n.val + 1 → t.file t.curCore .node nl k.nodeId 0 (.record ws (dw (recIid k t.curCore))) = some (bin, y) →
      exec (.post hd a b true n) st = .next (y.modLaunch nl (fun la => { la with iidNext := alMod la.iidNext t.curCore 0 (· + 1) })))) ∧
  (∀ (n : Fin 8) (x : Word) (l : Nat), src32 a st = .ok x s → s.cur.id.launch = some l → x.toNat < 4096 →
    (takeRecord s s.curCore l x.toNat = none →
      exec (.pick hd a n) st = .next ((s.pushedAll (recEnts [] (n.val + 1))).pushed 0)) ∧
    (∀ (c : Nat) (ws : List Word) (t : State), takeRecord s s.curCore l x.toNat = some (c, ws, t) →
      exec (.pick hd a n) st = .next (((if c = s.curCore then t else t.invalidate s.curCore s.cur.id.ctx).pushedAll
        (recEnts ws (n.val + 1))).pushed 1))) ∧
  (∀ (nz : Bool) (x : DWord) (r : Nat × Nat × Nat × Nat), src64 a st = .ok x u → x.toNat < 2 ^ 55 → x.toNat % 8 = 0 →
    translate u.curWho .read x.toNat u = .ok r s → exec (.qwait hd a nz) st = .next (s.waits (.word x.toNat nz))) ∧
  (∀ (x : Word) (la : Launch) (nl : Nat), FirstOfSet st → src32 a st = .ok x s → s.curLaunch = some la → nodeOf s la x.toNat = some nl →
    exec (.node hd a true) st = .next (s.onceDone st.iss.word [⟨dw (nodeCount (s.coreD s.curCore) nl), .full⟩]) ∧
    (findBin (s.coreD s.curCore) .node nl x.toNat = none → exec (.node hd a false) st = .next (s.onceDone st.iss.word [])) ∧
    (∀ e, findBin (s.coreD s.curCore) .node nl x.toNat = some e →
      exec (.node hd a false) st = .next ((s.sealBin s.curCore e.1).onceDone st.iss.word [])))

/-! ### Engines and units -/

/-- R221, R415 to R419: the words of the convergence registers. -/
def Obligations.MatrixWords : Prop := ∀ (hd : Hd) (a b : Src) (c : Fin 16) (st s : State), Fires hd.gd st → MayName s c.val →
  let quad := coreQuad s.curCore
  let r := s.cregD quad c.val
  (∀ (x : DWord) (n : Word), FirstOfSet st → ReadsWide a b st x n s → 1 ≤ n.toNat → n.toNat ≤ 4096 → x.toNat < 2 ^ 55 → x.toNat % 64 = 0 →
    (r.armed = true → exec (.marm hd a b c) st = .next ((s.noted st.iss.word [⟨0, .full⟩]).sent 0 false)) ∧
    (r.armed = false →
      let r' := if r.free && r.own != s.cur.id.launch then { r with own := s.cur.id.launch, cst := 0, ref := 0 } else r
      let r' := { r' with armed := true, daddr := x.toNat, nsig := n.toNat, sigs := 0, armseq := r.armseq + 1 }
      let v : DWord := dw (2 ^ 32 + (r.armseq + 1).toNat)
      exec (.marm hd a b c) st = .next (((s.modCreg quad c.val (fun _ => r')).noted st.iss.word [⟨v, .full⟩]).sent v false))) ∧
  (∀ t : Word, src32 a st = .ok t s →
    (let d := s.drainCore s.curCore
     let q := d.cregD quad c.val
     q.armed = true → t = q.armseq →
      (q.sigs + 1 ≠ q.nsig → exec (.msign hd a c) st = .next (d.modCreg quad c.val (fun r => { r with sigs := r.sigs + 1 }))) ∧
      (q.sigs + 1 = q.nsig → ∀ y, (d.modCreg quad c.val (fun r => { r with sigs := r.sigs + 1 })).appendOp quad c.val
          (d.cur.id.launch.getD 0) d.cur.id.ctx = (y, false) →
        (∀ arr ∈ appendedTo (d.modCreg quad c.val (fun r => { r with sigs := r.sigs + 1 })) y,
          crossBridge d.curWho arr .command (marrowAddr arr false 0) d = .ok () d) → exec (.msign hd a c) st = .next y)) ∧
    ((r.armseq - t).toNat < 2 ^ 31 → exec (.mdrain hd a c) st = .next (s.waits (.mdrain c.val t))) ∧
    (FirstOfSet st → t.toNat ≤ 3 → exec (.mcfg hd a c) st =
      .next ((s.modCreg quad c.val (fun r => { r with trapm := BitVec.ofNat 2 t.toNat })).onceDone st.iss.word []))) ∧
  (∀ (x : DWord) (n : Bool) (m : Nat) (e : Int), FirstOfSet st → src64 a st = .ok x s → f64.dec x.toNat = .fin n m e → n = false ∨ m = 0 →
    exec (.mnorm hd a c) st =
      .next ((s.modCreg quad c.val (fun r => { r with ref := if m = 0 then 0 else x })).onceDone st.iss.word [])) ∧
  (s = st →
    exec (.mwait hd c) st = .next (s.waits (.mwait c.val none)) ∧
    (FirstOfSet st → exec (.mreset hd c) st = .next ((s.modCreg quad c.val (fun r =>
      { (if r.armed then ({ r with armed := false } : Creg).complete r.armseq none else r) with cst := 0, ref := 0 })).onceDone st.iss.word [])))

/-- R203, R422: a copy that passes its checks joins its quad's queue, at the end.
The model's own choices that it rests on: log entry 42. -/
def Obligations.CopyWords : Prop :=
  (∀ (hd : Hd) (a b : Src) (sp dp : Space) (st u s0 s1 s2 s3 s : State) (x : DWord) (q : Nat) (pS pD : Option Place), Fires hd.gd st →
    let dst := q % 2 ^ 64
    let len := q / 2 ^ 64 % 2 ^ 32
    let t := q / 2 ^ 96
    let op (k : CopyKind) (o : Space) : CopyOp := {
      id := 0, kind := k, by_ := s0.issuer, sSp := sp, dSp := o, src := x.toNat, dst := dst, len := len
      record := 0, ixRec := 0, tgt := w32 t, score := [], started := false, pos := 0 }
    src64 a st = .ok x u → readQuad b u = .ok q s0 → 1 ≤ len → len ≤ 2 ^ 24 → len % 4 = 0 → x.toNat % 4 = 0 → dst % 4 = 0 →
    x.toNat < (if wideSpace sp then 2 ^ 55 else 2 ^ 32) → rangePlace sp x.toNat len s0 = .ok pS s1 → countOk t s2 = .ok () s3 →
    (dst < (if wideSpace dp then 2 ^ 55 else 2 ^ 32) → tgtOk t (sp == .rng) (dp == .rng) false = true → (sp = dp → overlap x.toNat dst len = false) →
      rangePlace dp dst len s1 = .ok pD s2 → queueCopy (op .cpy dp) pS pD s3 = .ok () s → exec (.cpy hd a b sp dp) st = .next s) ∧
    (∀ rc, dst < 2 ^ 55 → tgtOk t (sp == .rng) false true = true → s1 = s2 →
      queueCopy (op (.cpyr rc) .glb) pS none s3 = .ok () s → exec (.cpyr hd a b sp rc) st = .next s)) ∧
  (∀ (hd : Hd) (a b : Src) (dp : Space) (st u s0 s1 s2 s : State) (x : Word) (q : Nat) (r : BitVec 256) (pD : Option Place), Fires hd.gd st →
    let dst := q % 2 ^ 64
    let len := q / 2 ^ 64 % 2 ^ 32
    let t := q / 2 ^ 96
    let ir := alGetD s0.curRecs (srIxr r) 0
    let op (k : CopyKind) (i : BitVec 256) : CopyOp := {
      id := 0, kind := k, by_ := s0.issuer, sSp := srSpace r, dSp := dp, src := srBase r, dst := dst, len := len
      record := r, ixRec := i, tgt := w32 t, score := [], started := false, pos := 0 }
    src32 a st = .ok x u → readQuad b u = .ok q s0 → x.toNat < 64 → alGet s0.curRecs x.toNat = some r → srOk r = true →
    1 ≤ len → len ≤ 65536 → len % 2 ^ srEsz r = 0 → srCount r * len ≤ 2 ^ 24 → dst % 4 = 0 →
    dst < (if wideSpace dp then 2 ^ 55 else 2 ^ 32) → tgtOk t (srSpace r == .rng) (dp == .rng) false = true →
    rangePlace dp dst (srCount r * len) s0 = .ok pD s1 → countOk t s1 = .ok () s2 →
    (srIx r = false → queueCopy (op .cpys 0) none pD s2 = .ok () s → exec (.cpys hd a b dp) st = .next s) ∧
    (srIx r = true → srOk ir = true → srIx ir = false → 2 ≤ srEsz ir →
      queueCopy (op .gath ir) none pD s2 = .ok () s → exec (.gath hd a b dp) st = .next s)) ∧
  (∀ (o : CopyOp) (pS pD : Option Place) (u s : State), queueCopy o pS pD u = .ok () s → ∃ id sc,
    (s.quadD (coreQuad u.curCore)).copyq = (u.quadD (coreQuad u.curCore)).copyq ++ [{ o with id := id, score := sc }])

/-- R273, R282, R427 to R432: the words of the rendering pipe.
The model's own choices that it rests on: log entries 33, 34, 37, 43. -/
def Obligations.RenderWords : Prop := ∀ (hd : Hd) (a b : Src) (st s : State), Fires hd.gd st →
  (∀ x y : DWord, Reads64 a b st x y s →
    exec (.boxu hd a b .u) st = .next (s.pushed (boxUnion [x, y])) ∧
    (∀ (r : RM) (d : Nat) (t : State), drawSR r s = .ok d t →
      let e (i : Nat) : FV := f32.dec (if i = 0 then bits x 31 0 else if i = 1 then bits x 63 32 else bits y 31 0)
      let n := bits y 63 32
      let neg (i : Nat) : Bool := (e i).neg && !(e i).isZero
      ((e 0).isNan || (e 1).isNan || (e 2).isNan → exec (.sah hd a b r) st = .next ((t.raised fIV).pushed32 (w32 f32.dnan))) ∧
      (¬ ((e 0).isNan || (e 1).isNan || (e 2).isNan) →
        (n = 0 ∨ neg 0 ∨ neg 1 ∨ neg 2 → exec (.sah hd a b r) st = .next (t.pushed32 0)) ∧
        (n ≠ 0 → neg 0 = false → neg 1 = false → neg 2 = false →
          ((e 0).isInf || (e 1).isInf || (e 2).isInf → exec (.sah hd a b r) st = .next (t.pushed32 0x7F800000)) ∧
          (¬ ((e 0).isInf || (e 1).isInf || (e 2).isInf) →
            let area := (((e 0).q.mul (e 1).q).add ((e 1).q.mul (e 2).q)).add ((e 2).q.mul (e 0).q)
            let c := f32.round r d false ((Q.ofInt n).mul area)
            exec (.sah hd a b r) st = .next ((t.raised c.2).pushed32 (w32 c.1))))))) ∧
  (∀ (x : DWord) (y : Word), ReadsWide a b st x y s →
    exec (.boxu hd a b .p) st = .next (s.pushed (boxUnion [x, if isNanC y.toNat then boxEmpty else pair y y])) ∧
    (let t := y.toNat % 8
     let c := y.toNat / 8
     c < 16 → (t = 0 ∧ c = 0 ∧ x = 0) ∨ (t = 1 ∧ c = 0 ∧ x.toNat < 2 ^ 55 ∧ x.toNat % 128 = 0) ∨
       (2 ≤ t ∧ t ≤ 4 ∧ x.toNat < 2 ^ 55 ∧ x.toNat % 64 = 0) →
       exec (.npack hd a b) st = .next (s.pushed (dw (t * 2 ^ 61 + c * 2 ^ 57 + x.toNat))))) ∧
  (∀ (o : Word) (p : Place) (rec_ : Nat) (t u v w : State) (vs : List DWord) (po : Bool) (sc : List (Nat × Nat)),
    let d := v.drainCore v.curCore
    src32 a st = .ok o t → rayPlace o.toNat t = .ok p u → rayRecord o.toNat p d = .ok rec_ w →
    let quad := coreQuad d.curCore
    (d.arrivals.filter (fun e => e.kind == 1 && coreQuad (laneCore e.lane) == quad)).length < 512 →
    w.isFrozen (travMid quad) = false →
    (u = v → rayGo rec_ d.curGrp.res (spillOf d) d.cur.id.ctx none w = .ok (vs, po, sc) s →
      exec (.trace hd a) st = .next (s.sentAll 1 vs po sc)) ∧
    (∀ h : DWord, src64 b u = .ok h v → h.toNat < 2 ^ 33 →
      rayGo rec_ d.curGrp.res (spillOf d) d.cur.id.ctx (some (bits h 31 0, tbit h 32)) w = .ok (vs, po, sc) s →
      exec (.hitr hd a b) st = .next (s.sentAll 1 vs po sc))) ∧
  (∀ (n : Fin 4) (c : Cull),
    let res (u : State) (v : DWord) : Out := .next (if u.iss.last then
      (u.joined 3 true v 0).fillXg u.iss.lane u.iss.word (.rast n.val c) else u.joined 3 true v 0)
    (∀ (e : QEnt) (es : List QEnt), st.curRun.bind (fun r => alGet r.once st.iss.word) = some (.done (e :: es)) →
      st.iss.stalled = false → exec (.rast hd a n c) st = res st e.v) ∧
    (∀ x : Word, FirstOfSet st → src32 a st = .ok x s → s.iss = st.iss → s.iss.stalled = false → s.curRun.isSome = true →
      Fires hd.gd (s.noted st.iss.word [⟨dw x.toNat, .full⟩]) →
      exec (.rast hd a n c) st = res (s.noted st.iss.word [⟨dw x.toNat, .full⟩]) (x.setWidth 64)))

/-- R434 to R436: the texture words answer with what their unit samples, reads or reports; IMST stores as the core's own.
The model's own choices that it rests on: log entries 35, 38. -/
def Obligations.TextureWords : Prop := ∀ (hd : Hd) (a b : Src) (w : Width) (st t u s : State) (x : DWord) (vs : List DWord) (po : Bool)
    (d : TexD) (v : State), Fires hd.gd st → src64 a st = .ok x t → u.isFrozen (texMid (coreQuad u.curCore)) = false → texDesc x.toNat u = .ok d v →
  (∀ q : Nat, readQuad b t = .ok q u →
    (texSample d (grpReg q 0) (grpReg q 1) (grpReg q 2) (f32.dec (grpReg q 3)) v = .ok (vs, po) s →
      exec (.tex hd a b) st = .next (s.sentAll 2 vs po [])) ∧
    (∀ (n : Nat) (z : State) (X Y N L : Nat), imgTexel d q w false v = .ok (X, Y, N, L) z → texelAt d N L X Y z = .ok (n, po) s →
      exec (.imld hd a b w) st = .next (s.sentAll 2 (if w = .b128 then [dw (n % 2 ^ 64), dw (n / 2 ^ 64)] else [dw n]) po []))) ∧
  (∀ q : Nat, readOctet b t = .ok q u →
    (texSample d (grpReg q 0) (grpReg q 1) (grpReg q 2)
        (texLambda ((List.range 4).map (fun i => grpReg q (4 + i))) d.width d.height) v = .ok (vs, po) s →
      exec (.texg hd a b) st = .next (s.sentAll 2 vs po [])) ∧
    (∀ (z : State) (X Y N L : Nat), imgTexel d q w true v = .ok (X, Y, N, L) z →
      storeV z.curWho (d.blockAt N L X Y) (Width.bytes' w) (q / 2 ^ 128 % 256 ^ Width.bytes' w) z = .ok () s →
      exec (.imst hd a b w) st = .next s)) ∧
  (∀ l : Word, src32 b t = .ok l u → l.toNat ≤ d.vm1 → exec (.texq hd a b) st = .next (v.sentAll 2
    [dw (d.fmt * 2 ^ 48 + (d.vm1 + 1) * 2 ^ 44 + (d.lm1 + 1) * 2 ^ 32 + d.hl l.toNat * 2 ^ 16 + d.wl l.toNat)] false []))

/-! ### System words -/

/-- R155, R403 to R405, R407: RDS reads the registers of Table 7.2; WRS, TRAP, SLEEP and HALT act at run end.
The model's own choices that it rests on: log entry 56. -/
def Obligations.SystemWords : Prop := ∀ (hd : Hd) (a : Src) (st s : State), Fires hd.gd st →
  let core := st.curCore
  let th := st.cur
  let rds (k : Nat) (h : k < 32) (v : DWord) : Prop := exec (.rds hd ⟨k, h⟩) st = .next (st.pushed v)
  (isRoot core = false →
    rds 0 (by decide) (if isChard core then 32 else 1) ∧ rds 1 (by decide) (dw th.tid) ∧ rds 2 (by decide) (dw st.curGrp.no.toNat) ∧
    rds 3 (by decide) (dw (coreNo core)) ∧ rds 4 (by decide) (dw (coreNo core / 4)) ∧
    (isChard core = true → rds 5 (by decide) (dw (core / 64))) ∧ rds 6 (by decide) th.id.iid ∧
    rds 7 (by decide) (dw (st.cyc (coreDie core))) ∧ rds 8 (by decide) th.mst ∧ rds 9 (by decide) (dw th.fst.toNat) ∧
    rds 10 (by decide) th.sp ∧ rds 11 (by decide) th.stkb ∧ rds 12 (by decide) th.stkl ∧
    (th.frame = none → rds 13 (by decide) 0) ∧ rds 14 (by decide) (dw th.id.role) ∧ rds 15 (by decide) (dw th.rgnc.toNat) ∧
    rds 16 (by decide) (dw st.curGrp.trapv) ∧ rds 17 (by decide) (dw th.id.ctx) ∧ rds 18 (by decide) th.srs ∧
    (isCtl core = true → rds 19 (by decide) st.pkg.qclk)) ∧
  (isRoot core = true → rds 0 (by decide) 1 ∧ rds 10 (by decide) 0) ∧
  (let put (t : State) (k : Nat) (v : DWord) : Out := .next (t.modCur (fun th => { th with rt := { th.rt with wrs := th.rt.wrs ++ [(k, v)] } }))
   (∀ v : Word, src32 a st = .ok v s → exec (.wrs hd a 9) st = put s 9 (v.setWidth 64)) ∧
   (∀ v : DWord, src64 a st = .ok v s →
     exec (.wrs hd a 8) st = put s 8 v ∧ exec (.wrs hd a 18) st = put s 18 v ∧
     (v.toNat % 16 = 0 → th.stkl.toNat ≤ v.toNat → v.toNat ≤ th.stkb.toNat → exec (.wrs hd a 10) st = put s 10 v) ∧
     (isChard core = false → exec (.wrs hd a 16) st = put s 16 v) ∧
     exec (.trap hd a) st = .next (s.modCur (fun th => { th with rt := { th.rt with trap := some (s.iss.word, v) } })))) ∧
  (∀ v : Word, src32 a st = .ok v s →
    (v = 0 → exec (.sleep hd a) st = .next s) ∧ (v ≠ 0 → exec (.sleep hd a) st = .next (s.waits (.sleep v.toNat none)))) ∧
  exec (.halt hd) st = .next (st.waits .halt)

/-- R406, R408, R409: TLBI, KEYLD and THAW act on a control core; on any other core they take a PRIV fault.
The model's own choices that it rests on: log entry 57. -/
def Obligations.ControlWords : Prop := ∀ (hd : Hd) (a b : Src) (st u s : State), Fires hd.gd st →
  (isCtl st.curCore = true →
    (∀ c : Word, c.toNat ≤ 63 →
      let res (t : State) (gone : TlbEnt → Bool) : Out :=
        let d := t.cores.foldl (fun s k => s.drainIf k.1 (·.ctx == c.toNat)) t
        .next (({ d with mem := { d.mem with tlb := d.mem.tlb.filter (fun e => !gone e) } } : State).sent 1 false)
      (src32 b st = .ok c s → exec (.tlbi hd a b false) st = res s (fun e => e.ctx == c.toNat)) ∧
      (∀ va : DWord, ReadsWide a b st va c s → exec (.tlbi hd a b true) st = res s
        (fun e => e.ctx == c.toNat && (decide (e.va ≤ va.toNat) && decide (va.toNat < e.va + 2 ^ e.size))))) ∧
    (∀ (va : DWord) (id : Word) (v : Nat), ReadsWide a b st va id u → 1 ≤ id.toNat → id.toNat ≤ 2047 → va.toNat < 2 ^ 55 → va.toNat % 64 = 0 →
      loadV u.curWho .read va.toNat 64 u = .ok (v, false) s → exec (.keyld hd a b) st =
        .next (({ s with
          mem := { s.mem with keys := alSet s.mem.keys id.toNat (BitVec.ofNat 512 v) }
          cores := s.cores.map (fun (k, c) => (k, { c with l1 := [], tex := [] })) } : State).sent 1 false)) ∧
    (∀ m q : Word, ReadsRaw a b st m q s → m.toNat < 2 ^ 16 → q.toNat < 2 ^ 17 →
      let due := s.isFrozen m.toNat = true ∧ (alGetD s.sys.heldSeq m.toNat 0).toNat = q.toNat % 2 ^ 16
      (due → exec (.thaw hd a b) st = .next ((s.thaw m.toNat (q.toNat.testBit 16)).sent 1 false)) ∧
      (¬ due → exec (.thaw hd a b) st = .next (s.sent 0 false)))) ∧
  (isCtl st.curCore = false → st.iss.chained = false → ∀ t : Bool, ∀ i ∈ [Instr.tlbi hd a b t, .keyld hd a b, .thaw hd a b],
    exec i st = .next (st.takeFault st.iss.thr ⟨3, 0, 0, st.iss.word, st.iss.instr, false⟩))

/-! ### Slots and run ends -/

/-- R162, R169, R318, R326 to R330: COMMIT captures the entry each age names; REJ joins a mask; NOP does nothing; a prefix stands for its
host. -/
def Obligations.SlotWords : Prop := ∀ (g : Guard) (st : State),
  (Fires g st → (∀ (d : BitVec 18), exec (.rej g d) st = .next (st.modCur (fun th => { th with rt := { th.rt with
      rejs := th.rt.rejs ++ [(st.iss.word, (((st.cur.pc + st.iss.word / 3 * 12 : Nat) + 12 * d.toInt) % (2 ^ 55 : Int)).toNat)] } }))) ∧
    (∀ (a : Fin 16) (n : Fin 32) (w : Bool) (b : Fin 16) (m : Fin 32) (x : Bool) (e f : QEnt), st.cur.link = none →
      st.cur.rt.q[a.val]? = some e → e.st ≠ .notWritten →
      exec (.commit g a n w b m x false) st =
        .next (st.modCur (fun th => { th with rt := { th.rt with commits := th.rt.commits ++ [⟨e, n.val, w⟩] } })) ∧
      (∀ th, st.thr? st.iss.thr = some th → st.cur.rt.q[b.val]? = some f → f.st ≠ .notWritten →
        exec (.commit g a n w b m x true) st = .next ((st.modCur (fun th => { th with rt := { th.rt with
          commits := th.rt.commits ++ [⟨e, n.val, w⟩] } })).modCur (fun th => { th with rt := { th.rt with
          commits := th.rt.commits ++ [⟨f, m.val, x⟩] } }))))) ∧
  exec .nop st = .next st ∧
  (∀ (t : Fin 16) (a b d : Sel) (x : Bool),
    exec (.nsPrefix t a b d x) st = .next { st with iss := { st.iss with ns := some ⟨t.val, a, b, d, x⟩ } }) ∧
  (∀ (w : SubW) (i : Fin 8) (r : RM) (s : Bool) (t : Fin 16) (n q : Bool),
    exec (.ndPrefix w i r s t n q) st = .next { st with iss := { st.iss with nd := some ⟨w, i.val, r, s, t.val, n, q⟩ } })

/-- R161, R164, R188 to R190, R330, R399 to R402: each run-end kind settles what the thread does at run end, and the last thread's issue
ends the run.
The model's own choices that it rests on: log entry 54. -/
def Obligations.RunEnds : Prop := ∀ (g : Guard) (a : Src) (st s : State), st.iss.chained = false → s.iss.stalled = false →
  let res (k : KKind) : Out := .next (if st.iss.last then (s.settledK k).runEnd st.iss.lane else s.settledK k)
  let pk := st.cur.pc + st.iss.word / 3 * 12
  (¬ Fires g st → s = st → ∀ d, ∀ i ∈ [Instr.next g, .bra g d, .call g d, .ret g, .exit g, .await g, .reform g d, .iret g, .brx g a,
    .callx g a, .reformK g a], exec i st = res .next) ∧
  (Fires g st →
    (s = st → exec (.next g) st = res .next ∧ exec (.exit g) st = res .exit ∧
      (noLink st = .ok () st → exec (.await g) st = res .await) ∧
      (∀ (d : BitVec 18) (pc : Nat), (pk : Int) + 12 * d.toInt = pc → pc < 2 ^ 55 → exec (.bra g d) st = res (.goto pc) ∧
        (noLink st = .ok () st → exec (.reform g d) st = res (.reform 1 pc pc)))) ∧
    (∀ x : DWord, src64 a st = .ok x s → x.toNat < 2 ^ 55 → x.toNat % 12 = 0 → exec (.brx g a) st = res (.goto x.toNat)) ∧
    (∀ (x : Word), src32 a st = .ok x s → noLink s = .ok () s → exec (.reformK g a) st = res (.reform 2 x.toNat s.afterRun)) ∧
    (∀ (pc fsz : Nat) (u v w : State),
      let th := v.cur.atK
      frameSize pc u = .ok fsz v → th.stkl.toNat + fsz ≤ th.sp.toNat →
      stkStore th (th.sp.toNat - fsz) v.afterRun v = .ok () w → stkStore th (th.sp.toNat - fsz + 8) fsz w = .ok () s →
      (∀ d : BitVec 18, u = st → (pk : Int) + 12 * d.toInt = pc → pc < 2 ^ 55 →
        exec (.call g d) st = res (.frame (th.sp.toNat - fsz) (pc + 12))) ∧
      (∀ x : DWord, src64 a st = .ok x u → x.toNat = pc → pc < 2 ^ 55 → pc % 12 = 0 →
        exec (.callx g a) st = res (.frame (th.sp.toNat - fsz) (pc + 12)))) ∧
    (∀ (ra fsz : Nat) (u : State),
      let th := st.cur.atK
      th.sp.toNat + 16 ≤ th.stkb.toNat → stkLoad th th.sp.toNat st = .ok ra u → stkLoad th (th.sp.toNat + 8) u = .ok fsz s →
      th.sp.toNat + fsz ≤ th.stkb.toNat → fsz % 16 = 0 → ra % 12 = 0 → exec (.ret g) st = res (.frame (th.sp.toNat + fsz) ra)) ∧
    (∀ r : Nat × Nat × Nat,
      let th := st.cur.atK
      let whole (c : NReg) : Prop := c.pend = none ∧ c.uncorr = false ∧ c.poison = false
      st.cur.inTrap = true → whole (th.reg 0) → whole (th.reg 1) → iretRead (pair (th.val 0) (th.val 1)).toNat st = .ok r s →
        exec (.iret g) st = res (.iret r.1 r.2.1 r.2.2)))

/-! ### Events -/

/-- R10, R15, R33, R34, R36: power, clocks and coolant. A powered-down package stays down until POWER_ON. Table 2.1: a boot in progress
goes a stage further, never back, or ends with its failure and every control core stopped.
The model's own choices that it rests on: log entries 9 to 11, 80, 94. -/
def Obligations.PowerEvents : Prop := (∀ (s : State) (die mhz : Nat),
  let top (p : Pkg) (d : Nat) : Nat := alGetD p.clock d (maxClock d)
  (die ∈ allDies → mhz % 25 = 0 → 400 ≤ mhz → mhz ≤ clockLimit s.pkg die →
    exec (.clockChange die mhz) s = .next { s with pkg := { s.pkg with clock := alSet s.pkg.clock die mhz } }) ∧
  (die < 16 → (die < 8 → ∀ t < 8, alGetD s.pkg.ceiling (8 + t) 3000 < 3000) → mhz % 25 = 0 → 400 ≤ mhz →
    mhz < alGetD s.pkg.ceiling die 3000 →
    ∃ t, exec (.powerCap die mhz) s = .next t ∧ alGetD t.pkg.ceiling die 3000 = mhz ∧ top t.pkg die ≤ mhz) ∧
  (die ∈ allDies → die ∉ s.pkg.throttled → ∃ t, exec (.thermalThrottle die) s = .next t ∧
    t.pkg.throttled = s.pkg.throttled ++ [die] ∧ top t.pkg die ≤ 400) ∧
  (∃ t, exec (.thermalRecover die) s = .next t ∧ die ∉ t.pkg.throttled ∧ ∀ d ∈ s.pkg.throttled, d ≠ die → d ∈ t.pkg.throttled) ∧
  (∃ t, exec .coolantFlowLow s = .next t ∧ t.pkg.coolantLow = true ∧ ∀ d ∈ allDies, top t.pkg d ≤ 400) ∧
  exec .coolantFlowRestore s = .next { s with pkg := { s.pkg with coolantLow := false } } ∧
  (die ∈ allDies → ∃ t, exec (.thermalShutdown die) s = .next t ∧ t.pkg.powered = false ∧
    ((∀ b r, t.agenda ≠ .ev (.powerOn b) :: r) → step t = .fault .noPower)) ∧
  (∀ b : BootIn, ∃ t, exec (.powerOn b) s = .next t ∧ t.pkg.powered = true ∧ t.ctxs = [] ∧ t.launches = [] ∧ t.thrs = [] ∧
    t.sys.bootStage = 1 ∧ (b.selfTest = true → t.pkg.boot = some b ∧ t.sys.bootFail = 0) ∧
    (b.selfTest = false → t.pkg.boot = none ∧ t.sys.bootFail = 1 ∧ ∀ k < 32, (t.ctlD k).st = .stopped))) ∧
  (∀ (s : State) (b : BootIn), s.pkg.boot = some b → s.sys.bootStage.toNat < 9 →
    let t := s.bootStep
    (t.sys.bootFail = s.sys.bootFail ∧ (t.pkg.boot = some b ∧ t.sys.bootStage = s.sys.bootStage + 1 ∨
        s.sys.bootStage = 8 ∧ t.pkg.boot = none ∧ t.sys.bootStage = 0x0F)) ∨
      (t.pkg.boot = none ∧ t.sys.bootFail ≠ 0 ∧ s.sys.bootStage.toNat ≤ t.sys.bootStage.toNat ∧ ∀ k < 32, (t.ctlD k).st = .stopped))

/-- R18, R27, R30, R48, R122, R123: errors that are counted, units that retire, uncorrectable words.
The model's own choices that it rests on: log entries 79 to 82, 86. -/
def Obligations.ErrorEvents : Prop := ∀ (s : State),
  (∀ u : HwUnit, unitOk u = true → (∀ l m, u ≠ .linkModule l m) → ∃ t, exec (.sramCorrectedError u) s = .next t ∧
    s.qclk ∈ alGetD t.pkg.errs (unitKey u) [] ∧ ((unitLimit u).1 ≤ (alGetD t.pkg.errs (unitKey u) []).length → u ∈ t.pkg.pending)) ∧
  (∀ k m, unitOk (.linkModule k m) = true → k ∉ s.pkg.fenced →
    (let key := 64 * k + m
     let ts := (alGetD s.pkg.replays key [] ++ [s.qclk]).filter (fun t => decide (t + 1000000 > s.qclk))
     let t := ({ s with pkg := { s.pkg with replays := alSet s.pkg.replays key ts } } : State).countErr (.linkModule k m)
     s.qclk ∈ ts ∧ s.qclk ∈ alGetD t.pkg.errs (unitKey (.linkModule k m)) [] ∧
     (ts.length < 1000 → exec (.flitReplay ⟨k, m⟩) s = .next t) ∧
     (1000 ≤ ts.length → exec (.flitReplay ⟨k, m⟩) s = .next (({ t with pkg := t.pkg.loseModule k m } : State).failLink k))) ∧
    exec (.moduleRetire ⟨k, m⟩) s = .next (({ s with pkg := s.pkg.loseModule k m } : State).failLink k) ∧
    m ∈ alGetD (s.pkg.loseModule k m).modules k [] ∧
    (linkMin k ≤ linkLive s.pkg k → s.failLink k = s) ∧ (linkLive s.pkg k < linkMin k → k ∈ (s.failLink k).pkg.fenced)) ∧
  (∀ stk line sym : Nat, stk < 16 → line * 64 < 2 ^ 36 →
    let la := directPa stk (line * 64)
    inCapacity s.mem la = true →
    (alGet s.mem.flaws la = none → exec (.stackScrub stk line .clean) s = .next s) ∧
    (∃ t, exec (.stackScrub stk line (.uncorrectable sym)) s = .next t ∧ la ∈ t.mem.poison ∧ .stack stk ∈ t.pkg.pending) ∧
    (∃ t, exec (.stackScrub stk line (.corrected sym)) s = .next t ∧ s.qclk ∈ alGetD t.pkg.errs (unitKey (.stack stk)) [] ∧
      t.mem.cells = s.mem.cells ∧ t.mem.poison = s.mem.poison)) ∧
  (∀ core gran word : Nat, core < 512 → gran < 64 → word < 4096 → ∃ t, exec (.sramUncorrectableError (.scratch core gran word)) s = .next t ∧
    gran * 16384 + 4 * word ∈ (t.coreD core).poison) ∧
  (∀ arr word : Nat, arr < 128 → (8 * word < 2 ^ 22 → ∃ t, exec (.sramUncorrectableError (.ringStore arr word)) s = .next t ∧
      8 * word ∈ (t.arrD arr).ringPoison) ∧
    (4 * word < 2 ^ 22 → ∃ t, exec (.sramUncorrectableError (.accMem arr word)) s = .next t ∧
      4 * word ∈ alGetD (t.arrD arr).amPoison ((s.arrD arr).owner.getD 0) [])) ∧
  (s.sys.allDrain = true → (∀ c ∈ s.ctxs, c.2.st = .drained) → exec .harvestApply s = .next (s.harvest.1.afterHarvest s.harvest.2) ∧
    s.harvest.1.pkg.pending = [] ∧ s.harvest.1.pkg.hv.pend = 0 ∧ s.harvest.1.sys.allDrain = false ∧ s.harvest.1.ctxs = s.ctxs ∧
    s.harvest.1.mem = s.mem)

/-- R21 to R27, Table 1.8: a well-formed request to a base die has its effect and answers OK; reads give the lines' data, and UE where
one is poisoned; ROOT commands of control cores.
The model's own choices that it rests on: log entries 10, 77, 78, 86, 93. -/
def Obligations.StackRequests : Prop := ∀ (s : State) (stk : Nat) (h : Line) (data : List Line), stk < 16 → 32 + stk ∉ s.pkg.fenced →
  tagFree s stk h = true →
  let sound (a : Nat) : Prop := alGet s.mem.flaws a = none ∧ a ∉ s.mem.poison
  let ls := reqLines stk h
  (hCmd h = 1 → headOk h false false false = true → sizeAligned h = true → data = [] → reqInside s stk h (hBytes h) = true →
    let d : List Line := ls.map (fun a => BitVec.ofNat 512 (memRead s.mem none a 64))
    ((∀ a ∈ ls, sound a) → exec (.stackRead stk h data) s = .next (s.respond stk h 0 d)) ∧
    ((∃ a ∈ ls, a ∈ s.mem.poison ∧ a ∉ s.mem.l2p) → (∀ a ∈ ls, alGet s.mem.flaws a = none) →
      ∃ t : State, exec (.stackRead stk h data) s = .next (t.respond stk h 2 d))) ∧
  (hCmd h = 2 → headOk h false false false = true → sizeAligned h = true → data.length = hSize h + 1 → reqInside s stk h (hBytes h) = true →
    exec (.stackWrite stk h data) s = .next (({ s with
      mem := stackPut s.mem false ((ls.zip data).map (fun x => (x.1, 2 ^ 64 - 1, x.2))) } : State).respond stk h 0 [])) ∧
  (hCmd h = 3 → headOk h false true false = true → sizeAligned h = true → data.length = hSize h + 1 → reqInside s stk h (hBytes h) = true →
    exec (.stackWritem stk h data) s = .next (({ s with mem := stackPut s.mem true ((ls.zip data).zipIdx.map
      (fun x => (x.1.1, hMask h / 2 ^ (64 * x.2) % 2 ^ 64, x.1.2))) } : State).respond stk h 0 [])) ∧
  (let n := atomBytes (hSub h)
   let pa := directPa stk (hAddr h)
   let old := memRead s.mem none pa n
   hCmd h = 8 → headOk h true false true = true → hSize h = 0 → hSub h ≤ 17 → atomZero h = true → hAddr h % n = 0 → data = [] →
    reqInside s stk h n = true → sound (lineOf pa) → exec (.stackAtomic stk h data) s =
      .next (({ s with mem := memWrite s.mem none pa n (atomNew (hSub h) old (hOpnd h % 2 ^ 64) (hOpnd h / 2 ^ 64)) } : State).respond
        stk h 0 [BitVec.ofNat 512 old])) ∧
  (hCmd h = 17 → headOk h false false false = true → hSize h = 0 → hAddr h % 64 = 0 → reqInside s stk h 1 = true →
    isCtlMid (hMid h) = true → ∀ d : Line, data = [d] → d.toNat < 2 ^ 128 →
    let idx := hAddr h / 64 % 64
    (alGetD (s.table ((32 + stk) * 1024)) idx 0).getLsbD 6 = false → exec (.stackAcct stk h data) s =
      .next ((s.writeAcc (hMid h) ((32 + stk) * 1024) idx (BitVec.ofNat 128 d.toNat)).respond stk h 0 [])) ∧
  (headOk h false false false = true → hSize h = 0 → hAddr h = 0 → data = [] →
    (hCmd h = 24 → exec (.stackDisc stk h data) s = .next (s.respond stk h 0 [discPage s.mem stk])) ∧
    (hCmd h = 26 → ∃ t d, exec (.stackErrpoll stk h data) s = .next t ∧ (t.stackD stk).errs = (s.stackD stk).errs.drop 4 ∧
      t = (s.modStack stk (fun k => { k with errs := k.errs.drop 4 })).respond stk h 0 [d] ∧
      ∀ i < 4, d.extractLsb' (128 * i) 128 = (s.stackD stk).errs.getD i 0)) ∧
  (∀ tag r, (s.stackD stk).resps.find? (fun r => r.1 == tag) = some r →
    ∃ t, exec (.stackResponse stk tag) s = .next t ∧ t.stks = (s.modStack stk (fun k => { k with resps := k.resps.erase r })).stks ∧
      t.sys = { s.sys with reports := s.sys.reports ++ (pollReports r.2).map (fun e => (stk, e)) }) ∧
  (hCmd h = 16 → rootOk h [] = true → isCtlMid (hMid h) = true → reqInside s stk h 1 = true →
    accCheck (s.table (endpointOf (directPa stk (hAddr h)))) (hMid h) .command (directPa stk (hAddr h)) = none →
    let run := (s.stackD stk).root = .running
    (hSub h = 1 → ¬ run → hOpnd h % 2 ^ 32 % 64 = 0 → hOpnd h % 2 ^ 32 ≤ 262144 → reqInside s stk h (hOpnd h % 2 ^ 32) = true →
      let ls := (List.range (hOpnd h % 2 ^ 32 / 64)).map (fun i => directPa stk (hAddr h) + 64 * i)
      (∀ a ∈ ls, sound a) → exec (.rootLoadi stk h []) s = .next ((s.modStack stk (fun k => { k with
        sram := ls.zipIdx.foldl (fun m a => wrBytes m (64 * a.2) 64 (memRead s.mem none a.1 64)) (s.stackD stk).sram })).respond stk h 0 [0])) ∧
    (hSub h = 2 → ¬ run → hOpnd h % 2 ^ 18 % 12 = 0 → ∃ t : State, exec (.rootStart stk h []) s = .next (State.respond t stk h 0 [0]) ∧
      t = ((s.startEdge stk (hMid h)).modStack stk (fun k => { k with
        root := .running, cls := 0, pcOff := hOpnd h % 2 ^ 18, stopReq := false, compl := hAddr h })).startSolo (544 + stk) 0
          (hOpnd h % 2 ^ 18) 0 [w32 (hOpnd h), w32 (hOpnd h / 2 ^ 32)]) ∧
    (hSub h = 3 → (¬ run → exec (.rootStop stk h []) s = .next (s.respond stk h 0 [0])) ∧
      (run → ∀ t th, rootThread s stk = some (t, th) →
        ((s.laneD (coreLane (544 + stk) 0)).run.isSome = true → exec (.rootStop stk h []) s =
          .next ((s.modStack stk (fun k => { k with stopReq := true })).respond stk h 0 [0])) ∧
        ((s.laneD (coreLane (544 + stk) 0)).run = none → exec (.rootStop stk h []) s =
          .next ((s.stopRoot t (544 + stk) .stopped 0 (th.pc % 2 ^ 18)).respond stk h 0 [0])))) ∧
    (hSub h = 4 → exec (.rootStatus stk h []) s = .next (s.respond stk h 0 [BitVec.ofNat 512 (rootWord s stk)])))

/-- R28, R41, R45: the management port answers from stage 0x0F; until then boot-status frames go out; a PCIe request is served.
The model's own choices that it rests on: log entries 4, 9, 82, 83. -/
def Obligations.PortEvents : Prop := ∀ (s : State),
  let sent (port kind : Nat) (args : List Nat) (c : List Byte) : Out :=
    .next { s with pkg := { s.pkg with outbox := s.pkg.outbox ++ [(port, Config.portReply kind (netOf s port ++ args) c)] } }
  let signed (m : Bool) (i : Nat) (c : List Byte) : List Byte :=
    if m then c ++ aliasSign s.pkg (Config.portReply 0xE0 [i, 4] c) else c
  (Answers s →
    exec .getVersion s = sent 1 0x84 [1, 2] [] ∧ exec .getCapabilities s = sent 1 0xE1 [] [] ∧
    exec .negotiateAlgorithms s = sent 1 0xE3 [25519, 512] [] ∧
    exec .getDigests s = sent 1 0x81 [] (bytesOf 64 (sha512 (certChain s.pkg)).toNat) ∧
    (∀ off len, exec (.getCertificate off len) s = sent 1 0x82 [off, len] (((certChain s.pkg).drop off).take len)) ∧
    (∀ nonce, exec (.challenge nonce) s = sent 1 0x83 [nonce.toNat] (aliasSign s.pkg
      (Config.portReply 0x83 [nonce.toNat] (bytesOf 64 (sha512 (certChain s.pkg)).toNat)))) ∧
    (∀ i m, 1 ≤ i → i ≤ 4 → exec (.getMeasurements ⟨i, m⟩) s = sent 1 0xE0 [i, 4] (signed m i (measureBlock s.pkg i))) ∧
    (∀ m, exec (.getMeasurements ⟨255, m⟩) s = sent 1 0xE0 [255, 4] (signed m 255 (measureBlock s.pkg 1 ++ measureBlock s.pkg 2 ++
      measureBlock s.pkg 3 ++ measureBlock s.pkg 4))) ∧
    (∀ c, c ∉ spdmCodes → exec (.spdmUnsupportedRequest c) s = sent 1 0x7F [c] []) ∧
    (∀ r i, (r = 1 ∧ i < 8) ∨ (r = 2 ∧ i < 16) → exec (.redfishRequest r i) s = sent 2 r [i] (redfishData s r i)) ∧
    (∃ (t : State) (c : List Byte), exec (.redfishRequest 0 0) s = .next t ∧ c.length = 8 * allDies.length ∧
      t = { s with free := t.free, pkg := { s.pkg with outbox := s.pkg.outbox ++ [(2, Config.portReply 0 (netOf s 2 ++ [0]) c)] } }) ∧
    (∀ rec_ : List Byte, recType rec_ = 1 ∨ recType rec_ = 2 → ∃ t : State, exec (.updateserviceImageWrite rec_) s = .next t ∧
      (∀ e ∈ s.pkg.nor, e.1 = s.pkg.slot → s.pkg.slot ≤ 1 → e ∈ t.pkg.nor) ∧
      (((s.pkg.nor.filter (fun e => !(e.1 == 1 - s.pkg.slot && recType e.2 == recType rec_))).map (fun e => e.2.length)).foldl
        (· + ·) rec_.length ≤ 2 ^ 26 →
        (1 - s.pkg.slot, rec_) ∈ t.pkg.nor))) ∧
  (booted s = false → ∃ (t : State) (bs : List Byte), exec .bootStatusFrame s = .next t ∧ bs.length = 74 ∧
    t = { s with pkg := { s.pkg with fseq := s.pkg.fseq + 1, outbox := s.pkg.outbox ++ [(0, bs)] } }) ∧
  (∀ (port pa len : Nat) (t : State) (v : Nat), port < 16 → s.isFrozen (pcieMid port) = false → pa + len ≤ 2 ^ 50 →
    let who : Who := ⟨pcieMid port, 16, 0, none, false, some 0⟩
    (∀ bs, writeLines who pa (len / 64 + 2) len (numOf (bs.take len)) s = .ok () t →
      exec (.pcieInboundRequest port true pa len bs) s = .next t) ∧
    (∀ po bs, readLines who .read pa (len / 64 + 2) len s = .ok (v, po) t → exec (.pcieInboundRequest port false pa len bs) s =
      .next { t with pkg := { t.pkg with outbox := t.pkg.outbox ++ [(4 + port, bytesOf len v)] } }))

/-- R42, R43, R46, R47, R53 to R58: writes of control space that are taken. A refusal records its
violation, freezes its master (all but the front end) and holds the violation's sequence number.
The model's own choices that it rests on: log entries 12, 18, 77, 87. -/
def Obligations.ControlSpace : Prop := ∀ (s : State) (mid ctx q : Nat) (v : DWord),
  (CmdOk s mid ctx →
    (∀ d, exec (.create mid ctx d) s = .next ((s.create ctx d).1.resulted ctx (s.create ctx d).2) ∧
      ((s.ctxD ctx).st ≠ .free → s.create ctx d = (s, 2)) ∧
      ((s.create ctx d).2 = 0 → ((s.create ctx d).1.ctxD ctx).st = .live)) ∧
    ((s.ctxD ctx).st = .live → (∀ l ∈ s.launches, l.2.ctx = ctx → l.2.phase ≠ .admitted) →
      ∃ t : State, exec (.drain mid false ctx) s = .next (t.resulted ctx 0) ∧ (t.ctxD ctx).st = .drained) ∧
    (∃ t : State, exec (.drain mid true ctx) s = .next (t.resulted ctx 0) ∧ t.sys.allDrain = true ∧ ∀ c ∈ t.ctxs, c.2.st ≠ .live) ∧
    ((s.ctxD ctx).st = .drained → exec (.resume mid ctx) s = .next (((s.modCtx ctx (fun c =>
      { c with st := .live, allDrained := false })).rereadHeader ctx).resulted ctx 0)) ∧
    ((s.ctxD ctx).st ≠ .free → ∃ t : State, exec (.destroy mid ctx) s = .next (t.resulted ctx 0) ∧ (t.ctxD ctx).st = .free) ∧
    (∀ op, op = 0 ∨ 5 ≤ op → exec (.ctxcmdBadOp mid op ctx) s = .next (s.resulted ctx 6))) ∧
  (q < 64 → (s.ctxD ctx).st ≠ .free →
    let x := s.queueD ctx q
    let put (s : State) (y : Queue) : Out := .next (s.modCtx ctx (fun c => { c with queues := alSet c.queues q y }))
    (CtlOk s mid (queueOff ctx q 8) → exec (.qcfgWrite mid ctx q v) s = put s (x.cfg ((s.ctxD ctx).canEnable q) v)) ∧
    (CtlOk s mid (queueOff ctx q 16) → exec (.queueDoorbell mid ctx q v) s =
      .next ((match midCore mid with | some c => s.drainCore c | none => s).modQueue ctx q (fun x => x.ring v))) ∧
    (∀ y : Queue, y.en = true → v.toNat < 4096 → v.toNat < 2 ^ y.logsz → v.toNat ∉ y.ready →
      y.ring v = { y with ready := y.ready ++ [v.toNat] }) ∧
    (∀ y : Queue, y.en = false ∨ 4096 ≤ v.toNat ∨ 2 ^ y.logsz ≤ v.toNat ∨ v.toNat ∈ y.ready → y.ring v = { y with err := true }) ∧
    (CtlOk s mid (queueOff ctx q 24) → exec (.qstsWrite mid ctx q v) s =
      put s { x with stall := x.stall && !v.getLsbD 1, err := x.err && !v.getLsbD 0 })) ∧
  (∀ off, CtlOk s mid off → exec (.registerWrite mid off v) s = .next (s.writeReg mid off v) ∧
    (off = 0x2010 → s.writeReg mid off v = { s with sys := { s.sys with frzsel := v.setWidth 16 } })) ∧
  (∀ (tgt addr why e : Nat) (cls : ReqClass), mid < 2 ^ 16 → tgt < 2 ^ 16 → accCheck (s.table tgt) mid cls addr = some (why, e) →
    exec (.accessRefusal mid tgt cls addr) s = .next (s.refuse mid tgt cls addr why e)) ∧
  (∀ (tgt idx : Nat) (w : BitVec 128), s.isFrozen mid = false → idx < tableSize tgt → mid < 2 ^ 16 →
    (isCtlMid mid = false → exec (.accessTableWrite mid tgt idx w) s = .next (s.refuse mid tgt .tableWrite idx 3 255)) ∧
    (isCtlMid mid = true → (alGetD (s.table tgt) idx 0).getLsbD 6 = true →
      exec (.accessTableWrite mid tgt idx w) s = .next (s.refuse mid tgt .tableWrite idx 4 idx)) ∧
    (isCtlMid mid = true → (alGetD (s.table tgt) idx 0).getLsbD 6 = false → exec (.accessTableWrite mid tgt idx w) s =
      .next { s with mem := { s.mem with acc := alSet s.mem.acc (tgt / 1024) (alSet (s.table tgt) idx (accStored w)) } })) ∧
  (∀ (tgt addr why e : Nat) (cls : ReqClass), mid < 2 ^ 16 → isCtlMid mid = false →
    let t := s.refuse mid tgt cls addr why e
    t.sys.vseq = s.sys.vseq + 1 ∧ (mid ≠ feMid → t.isFrozen mid = true ∧ alGetD t.sys.heldSeq mid 0 = s.sys.vseq) ∧
    (mid = feMid → t.sys.frozen = s.sys.frozen) ∧ t.mem = { s.mem with owned := t.mem.owned } ∧ t.thrs = s.thrs)



/-- R55, R58, R61 to R63, R65, R67, R68, R452: the front end's reads. A packet that is read is accepted, one that cannot be read stalls
its queue; a table that is read is kept, one that cannot be read completes its launch FAULT.
The model's own choices that it rests on: log entries 50, 66, 67, 69, 91. -/
def Obligations.LaunchReads : Prop := ∀ (s : State) (lid ctx q : Nat) (l : Launch),
  (let x := s.queueD ctx q
   let va := x.base + 128 * x.head
   (s.ctxD ctx).st ≠ .free → x.en = true → x.stall = false → x.head ∈ x.ready → s.launches.length < 4096 →
    (∀ t p, feRead (feWho ctx) va 3 128 s = (t, .ok p) → exec (.slotAccept ctx q) s = .next (t.acceptPacket ctx q va (wordsOf 16 p))) ∧
    (∀ t c a, feRead (feWho ctx) va 3 128 s = (t, .error (c, a)) → exec (.slotAccept ctx q) s =
      .next ((t.modQueue ctx q (fun x => { x with stall := true })).launchRecord ctx c va a 0).1)) ∧
  (s.launch? lid = some l →
    (∀ dep : Nat, l.phase = .accepted → l.deps.getD dep .none = .toRead → ∀ (t : State) (r : Except (Nat × Nat) Nat),
      feRead (feWho l.ctx) (pf l.pkt (10 + dep) 54 6 * 64) 2 8 s = (t, r) →
      let ok : Prop := ∃ v, r = .ok v ∧ v / 2 ^ 56 = 2
      let put (d : Dep) : Out := .next ((t.modLaunch lid (fun l => { l with deps := l.deps.set dep d })).settleAccepted lid)
      (ok → exec (.drecRead lid dep) s = put .satisfied) ∧ (¬ ok → exec (.drecRead lid dep) s = put .failed)) ∧
    (l.readsDue s.qclk = true →
      let got (va n : Nat) (i : Instr) (put : State → Nat → State) : Prop :=
        (∀ t v, feRead (feWho l.ctx) va (n / 64 + 2) n s = (t, .ok v) → exec i s = .next (put t v)) ∧
        (∀ t e, feRead (feWho l.ctx) va (n / 64 + 2) n s = (t, .error e) → exec i s = .next (t.readFailed lid l e))
      (l.count = none → got (bits l.countW 54 0) 8 (.countRead lid) (fun t v =>
        if v ≤ 2 ^ 48 ∧ l.baseidx + v ≤ 2 ^ 64 then (t.modLaunch lid (fun l => { l with count := some v })).settleAccepted lid
        else t.complete lid 6)) ∧
      (l.dflt = none → got l.deft (128 * (l.km1 + 1)) (.defaultsRead lid) (fun t v =>
        t.modLaunch lid (fun x => { x with dflt := some (words32 (32 * (l.km1 + 1)) v) }))) ∧
      (l.uni = none → got l.ublk (4 * l.ucnt) (.uniformBlockRead lid) (fun t v =>
        t.modLaunch lid (fun x => { x with uni := some (words32 l.ucnt v) }))) ∧
      (l.roles = none → got l.rtab (16 * l.nrole) (.roleTableRead lid) (fun t v =>
        let rs := (List.range l.nrole).map (fun k => (dw (v / 2 ^ (128 * k)), dw (v / 2 ^ (128 * k + 64))))
        if rs.all roleOk then t.modLaunch lid (fun x => { x with roles := some rs }) else t.complete lid 5))) ∧
    (l.missed s.qclk = true → exec (.deadlineMiss lid) s = .next (s.complete lid 3)))

/-- R64 to R66, R69, R70, R72 to R75, R94, R391: admission in key order with backfill, the trigger, and the ends of launches.
The model's own choices that it rests on: log entries 3, 67 to 69, 71, 72. -/
def Obligations.LaunchLife : Prop := ∀ (s : State) (lid ctx dev : Nat) (l : Launch),
  (s.launch? lid = some l →
    (eligible s l = true → (∀ x ∈ earlierEligible s l, x.2.blocked.isSome ∧ admitFits s x.1 x.2 = false ∧
        (l.deadline = 0 → x.2.deadline = 0)) →
      (deviceTiles s l = [] → exec (.launchAdmit lid) s = .next (s.complete lid 7)) ∧
      (deviceTiles s l ≠ [] →
        (s.launches.filter (fun x => x.2.ctx == l.ctx && x.2.dev == l.dev && x.2.phase == .admitted)).length < 256 →
        (l.typ = 2 → nodeLive s l.ctx l.dev l.nodeId = false) →
        (admitFits s lid l = true → exec (.launchAdmit lid) s = .next (s.takeIn lid l)) ∧
        (admitFits s lid l = false → exec (.launchAdmit lid) s =
          .next (s.modLaunch lid (fun x => { x with blocked := x.blocked.orElse (fun _ => some s.qclk) }))))) ∧
    (l.phase = .admitted → l.ngroups ≤ l.nextGrp →
      (l.trigd = false → l.trigs = true → (∀ th ∈ startedOf s lid, th.trig = true) →
        (∀ c ∈ s.coresOf lid, s.isFrozen (coreMid c) = false) →
        exec (.triggerFire lid) s = .next (s.fireTrigger lid)) ∧
      (l.typ ≠ 2 → (∀ t ∈ s.thrs, t.2.id.launch ≠ some lid) →
        exec (.launchComplete lid) s = .next ((s.complete lid (if l.faulted then 4 else 2)).settleDrains))) ∧
    (l.phase = .accepted →
      (Dep.failed ∈ l.deps → exec (.launchComplete lid) s = .next (s.complete lid (if l.missed s.qclk then 3 else 8))) ∧
      (l.depsDone = true → l.count = some 0 → l.typ ≠ 2 → l.missed s.qclk = false →
        exec (.launchComplete lid) s = .next (s.complete lid 2)))) ∧
  (let nodes := s.launches.filter (fun x => x.2.ctx == ctx && x.2.dev == dev && x.2.typ == 2 && x.2.phase == .admitted)
   quiescent s ctx dev = true → nodes ≠ [] → exec (.quiescenceReport ctx dev) s =
    .next (nodes.foldl (fun s x => s.complete x.1 (if x.2.faulted then 4 else 2)) s).settleDrains)

/-- R61, R82, R84, R86, R95, R154: the next group of a launch goes where R82 has it, its threads numbered on from the launch's first; a
role that is short of a group gets one. Table 7.3: a thread as it starts.
The model's own choices that it rests on: log entries 68 to 70. -/
def Obligations.Placement : Prop := (∀ (s : State) (lid : Nat) (l : Launch), s.launch? lid = some l → l.phase = .admitted →
  (let j := l.nextGrp
   j < l.ngroups → oldestSaved s lid l = false → (l.nrole = 0 ∨ roleZero s lid l = false ∨ roleShort s lid l = none) → ∀ core lane ts t, placeSpot s lid l (l.groupSize j) = some (core, lane) →
    fwdFits s l core = true → s.makeThreads l (groupThreads lid l j) = some (ts, t) →
      exec (.groupPlace lid) s = .next (((t.seatGroup lid l core lane (BitVec.ofNat 32 j) 0 ts).2.modLaunch lid (fun x =>
        { x with nextGrp := j + 1, nthr := x.nthr + ts.length, blocked := none, resv := [] })).reserveFwd lid l core j) ∧
      ts.length = l.groupSize j ∧
      ∀ k (h : k < ts.length), ∃ th, t.thr? ts[k] = some th ∧ th.id.iid = BitVec.ofNat 64 (l.baseidx + Config.width * j + k) ∧
        th.pc = l.entry ∧ ∀ i < 8, th.val i = l.arg i) ∧
  (oldestSaved s lid l = false → l.nrole ≠ 0 → roleZero s lid l = true → ∀ q k, roleShort s lid l = some (q, k) →
    exec (.groupPlace lid) s = .next (s.placeRole lid l q k))) ∧
  (∀ (id : ThId) (pc : Nat) (args : List Word) (top low : Nat),
    let th := Thr.start id pc args top low
    th.pc = pc ∧ th.rentry = pc ∧ th.p = 0 ∧ th.fst = 0 ∧ th.mst = 0 ∧ th.rgnc = 1 ∧ th.sp = BitVec.ofNat 64 top ∧ th.stkb = BitVec.ofNat 64 top ∧
    th.stkl = BitVec.ofNat 64 low ∧ th.frame = none ∧ th.link = none ∧ th.inTrap = false ∧ th.waits = [] ∧ th.rt.q = [] ∧ th.srs ≠ 0 ∧
    (let z := (id.iid + 1) * 0x9E3779B97F4A7C15#64
     th.srs = if z = 0 then 1 else z) ∧
    th.regs.length = 32 ∧ ∀ i < 32, th.val i = args.getD i 0 ∧ (th.reg i).pend = none ∧ (th.reg i).poison = false)

/-- R76 to R79, R87 to R92, R95, R310 to R312: pre-emption, saves and restorations; bins that flush, time out, are placed or stolen; the
evaluation of roles.
The model's own choices that it rests on: log entries 3, 68, 69, 73, 74, 95, 100. -/
def Obligations.Scheduling : Prop := ∀ (s : State) (lid rid core bin quad : Nat),
  (∀ (l : Launch) (since : Nat), s.launch? lid = some l → l.blocked = some since → since + 10000 ≤ s.qclk → l.deadline ≠ 0 →
    eligible s l = true →
    (∀ x ∈ s.launches, x.2.ctx = l.ctx → x.2.dev = l.dev → x.2.blocked.isSome → keyLt x.2.key l.key = false) →
    exec (.preemptDecision lid) s = .next (s.takeVictims lid (victimNeed s lid l)
      (isort (fun a b => !victimLt s b a) (((deviceTiles s l).flatMap (tileCores s)).filter (candidate s l))))) ∧
  (∀ (r : Res) (l : Launch), s.res? rid = some r → s.launch? r.launch = some l →
    let who := recWho s r.core r.ctx
    let tile := coreTile r.core
    (r.saving = true → r.saved = false → saveReady s rid r.core = true → (∀ d ∈ (s.coreD r.core).dbl, d.1 ≠ r.ctx) →
      let u := s.takeRoom rid r l
      (u.absorbs r.ctx tile rid = true → exec (.residencySave rid) s = .next (u.saveRes rid)) ∧
      (u.absorbs r.ctx tile rid = false → s.isFrozen (coreMid r.core) = false →
        ∀ t, u.spill who r.ctx tile rid (u.held r.ctx tile rid).length = (t, none) → exec (.residencySave rid) s = .next (t.saveRes rid))) ∧
    (restoreFits s r l = true → workAhead s l r.core = false → s.isFrozen (coreMid r.core) = false →
      l.grans + reserved s l r.core r.core ≤ (s.coreD r.core).freeGrans.length →
      (∀ k < Config.lanesPerCore, laneTakes s rid l r.core (coreLane r.core k) = true) →
      let res (t : State) : Out := .next ((t.restoreRes rid).modCtx r.ctx (fun c => { c with room := alDel c.room rid }))
      ((∀ m, alGet (s.ctxD r.ctx).room rid = some m → m.out = false) → exec (.residencyRestore rid) s = res s) ∧
      (∀ m t, alGet (s.ctxD r.ctx).room rid = some m → m.out = true → readArena who (m.lines (s.ctxD r.ctx).sava) s = (t, none) →
        exec (.residencyRestore rid) s = res t))) ∧
  (∀ b : Bin, alGet (s.coreD core).bins bin = some b →
    (flushDue s core b = true → (∀ x ∈ (s.coreD core).bins, flushDue s core x.2 = true → flushLt x.2 b = false) →
      exec (.binFlushTimeout core bin) s = .next (s.sealBin core bin)) ∧
    (∀ l : Launch, s.launch? b.launch = some l → b.ents ≠ [] →
      (b.kind = .node → b.sealed = false →
        (l.ntimer ≠ 0 ∧ b.tOpen + l.ntimer * 1024 ≤ s.cyc (coreDie core)) ∨ deviceRuns s l.ctx l.dev = false →
        exec (.nodeBinTimeout core bin) s = .next (s.sealBin core bin)) ∧
      (b.sealed = true → s.isFrozen (coreMid core) = false → binHeld s core b = false → oldestSaved s b.launch l = false →
        (∀ lane, coreSpot s b.launch l b.ents.length core = some lane →
          exec (.binPlace core bin) s = .next (s.placeBin core bin b l core lane)) ∧
        (b.tSeal + 4096 ≤ s.cyc (coreDie core) → ∀ c lane, coreSpot s b.launch l b.ents.length c = some lane →
          (∃ pre post, core :: stealOrder s core = pre ++ c :: post ∧ ∀ d ∈ pre, coreSpot s b.launch l b.ents.length d = none) →
          exec (.binSteal core bin) s = .next (s.placeBin core bin b l c lane))))) ∧
  (∀ (l : Launch) (r : Res), quad < 128 → (s.quadD quad).lastEval + 4096 ≤ s.cyc (quad / 16) →
    (lid, l) ∈ s.launches → l.nrole ≠ 0 → l.phase = .admitted → (rid, r) ∈ s.ress → r.launch = lid → coreQuad r.core = quad →
    ∃ t : State, exec (.roleEvaluation quad) s = .next t ∧ (t.quadD quad).lastEval = s.cyc (quad / 16) ∧ t.thrs = s.thrs ∧
      t.launches = s.launches ∧ t.mem = s.mem)

/-- R96 to R98, R153, R165, R210, R393, R407: runs start and end, groups change places, results arrive, link registers fill, barriers
complete, sleeps end.
The model's own choices that it rests on: log entries 3, 7, 95, 96. -/
def Obligations.LaneEvents : Prop := ∀ (s : State) (lane thr bar : Nat),
  ((s.laneD lane).run = none → (s.laneD lane).active ≠ [] ∨ (s.laneD lane).waiting ≠ [] → coreRuns s (laneCore lane) = true →
    s.laneFiling lane = false →
    let u := (s.atBound lane).markReady lane
    ∀ g gr, chooseGroup u lane = some g → u.grp? g = some gr →
      (∀ r, gr.srun = some r → exec (.runStart lane) s = .next (u.resumeRun lane g gr r)) ∧
      (gr.srun = none → ∀ pc tids, chooseSet { gr with rejoin := popRej u gr gr.rejoin } (setsOf u (readyOf u lane g)) = some (pc, tids) →
        exec (.runStart lane) s = .next (((u.turn lane g gr (setsOf u (readyOf u lane g)) pc).beginRun lane g pc tids).getD u))) ∧
  (∀ r, (s.laneD lane).run = some r → r.todo = [] → r.posts = [] → slotHasK r.slot = true →
    exec (.runEnd lane) s = .next (s.runEnd lane)) ∧
  ((s.laneD lane).run = none → coreStalled s (laneCore lane) = false → Config.activePerLane ≤ (s.laneD lane).active.length →
    let u := s.markReady lane
    ∀ a w, leastBy (fun g => match u.grp? g with | some gr => gr.readySince.getD 0 | none => 0)
        ((s.laneD lane).waiting.filter (placeDue u lane)) = some w → oldestActive u lane = some a →
      exec (.activeSetDisplace lane) s = .next (u.exchange lane a w)) ∧
  (∀ a : Arrival, s.arrivals.filter (fun b => b.id == a.id) = [a] →
    (a.kind = 1 → exec (.traversalResult a.id) s = .next (s.deliver a)) ∧
    (a.kind = 2 → exec (.textureResult a.id) s = .next (s.deliver a)) ∧
    (a.kind ≠ 1 → a.kind ≠ 2 → exec (.resultArrival a.id) s = .next (s.deliver a)) ∧
    a ∉ (s.deliver a).arrivals ∧
    ∀ th, s.thr? a.thr = some th → (s.deliver a).thr? a.thr = some (if th.gen = a.gen then th.arrive a else th)) ∧
  (∀ (th : Thr) (m : LinkMap) (g tid : Nat) (gr : Grp) (r : Res) (v : Nat) (t : State),
    s.thr? thr = some th → th.link = some m → th.loc = .grp g tid → s.grp? g = some gr → s.res? (s.seatOf thr).2.1.res = some r →
    r.saved = false → s.isFrozen (coreMid (laneCore gr.lane)) = false → m.held = none → m.count ≠ 0 →
    let i := m.first + m.fills % m.count
    let rec_ := alGetD r.srec m.record 0
    srEsz rec_ ≠ 3 → (th.reg i).full = false →
    streamElem r.srec rec_ tid m.pos { s with iss := issueFor gr.lane g tid thr } = .ok v t →
    exec (.linkFill thr) s = .next { t.modThr thr (fun th => { th.fillLink i (BitVec.ofNat 32 v) with
      link := some { m with fills := m.fills + 1, pos := m.pos + 1 } }) with iss := s.iss }) ∧
  (∀ b : Bar, alGet s.bars bar = some b → b.left = [] → b.launch ≠ podEarly →
    (b.lvl ≠ 6 → exec (.barrierComplete bar) s = .next (s.barDone bar b)) ∧
    (b.lvl = 6 → b.sent = false → b.reports.length + 1 < b.count → exec (.barrierComplete bar) s = .next (s.barSend bar b)) ∧
    (b.lvl = 6 → b.sent = true → b.count ≤ b.reports.length + 1 → exec (.barrierComplete bar) s = .next (s.barDone bar b))) ∧
  (∀ (src : PodSrc) (ctx id count : Nat) (b : Bar), src.port ≤ 8 → s.isFrozen (podMid src.port) = false →
    (bar, b) ∈ s.bars → b.lvl = 6 → b.id = id → b.launch ≠ podEarly → b.unit = ctx → b.count = count →
    (∀ c ∈ s.bars, c.2.lvl = 6 → c.2.id = id → c.2.unit = ctx → c = (bar, b)) →
    exec (.podBarrierReport src ctx id count) s =
      .next { s with bars := alSet s.bars bar { b with
        reports := if src.package ∈ b.reports then b.reports else b.reports ++ [src.package] } }) ∧
  (∀ (th : Thr) (w : PWait) (n u : Nat), s.thr? thr = some th → th.waits = [w] → w.w = .sleep n (some u) → s.frozenThr thr = false →
    u ≤ laneNow s (s.laneOf thr) →
    exec (.sleepExpire thr) s = .next (s.modThr thr (fun th => { th with waits := [] })))

/-- R149, R150, R203, R220 to R234, R423 to R426: the events that move copies, transfers and matrix operations on.
The model's own choices that it rests on: log entries 3, 13, 28 to 32, 40, 41, 59, 98, 99. -/
def Obligations.EngineEvents : Prop := ∀ (s : State) (quad op arr : Nat),
  (s.isFrozen (copyMid quad) = false →
    (∀ o, (s.quadD quad).copyq.find? (fun o => !o.started) = some o →
      exec (.copyStart quad) s = .next (s.modCopy quad o.id (fun o => { o with started := true }))) ∧
    (∀ o, (s.quadD quad).copyq.find? (fun o => o.id == op && o.started) = some o →
      ((∀ p ∈ s.pods, p.op ≠ op) →
        (∀ t, s.doCopy quad o = (t, .done) → exec (.copyComplete quad op) s = .next ((t.signalCopy quad o).dropCopy quad o)) ∧
        (∀ t, s.doCopy quad o = (t, .sent) → exec (.copyComplete quad op) s = .next t)) ∧
      let lost (p : PodFrame) : Out := .next ((s.copyError p.quad o ⟨5, 3, BitVec.ofNat 64 p.va, 0, 0, false⟩).forgetFrame p.id)
      ((∀ p ∈ s.pods, p.op ≠ op) → ∀ t f, s.doCopy quad o = (t, .failed f) →
        exec (.copyEngineError quad op) s = .next (t.copyError quad o f)) ∧
      (∀ p, s.pods.find? (fun p => p.op == op && p.failed) = some p → exec (.copyEngineError quad op) s = lost p) ∧
      (∀ frame p, s.pods.find? (fun p => p.id == frame) = some p → p.quad = quad → p.op = op →
        exec (.podFrameRetransmit frame false) s = lost p))) ∧
  (∀ frame, exec (.podFrameRetransmit frame true) s = .next s) ∧
  (s.isFrozen (arrMid arr) = false →
    (∀ o, pickOp s arr = some o →
      (o.stage = 0 → opCheck s o = 0 → exec (.matrixChunkServe arr) s = .next (s.modOp o.id (fun o => { o with stage := 1 }))) ∧
      (o.stage = 0 → opCheck s o ≠ 0 → exec (.matrixChunkServe arr) s = .next (s.failOp o.id (opCheck s o))) ∧
      (o.stage ≠ 0 → o.subM arr = 0 ∨ o.subN arr = 0 →
        exec (.matrixChunkServe arr) s = .next (s.modEntry arr o.id (fun o => { o with stage := 2, chunk := o.chunks }))) ∧
      (o.stage ≠ 0 → o.subM arr ≠ 0 → o.subN arr ≠ 0 →
        let t := ((s.cellsTo arr o).amOwn arr o.ctx).amOwn o.quad o.ctx
        (ringLost t o = true → exec (.matrixChunkServe arr) s = .next (t.failOp o.id 6)) ∧
        (ringLost t o = false → chunkPoison t o = true → exec (.matrixChunkServe arr) s = .next (t.endAtChunk o 4)) ∧
        (ringLost t o = false → chunkPoison t o = false →
          (o.opc = 1 → exec (.matrixChunkServe arr) s = .next (t.modEntry arr o.id (fun _ => runConv t o arr))) ∧
          (o.opc ≠ 1 → chunkBadScale t o = true → exec (.matrixChunkServe arr) s = .next (t.endAtChunk o 1)) ∧
          (o.opc ≠ 1 → chunkBadScale t o = false →
            let v := t.modEntry arr o.id (fun _ => runChunk t o arr)
            exec (.matrixChunkServe arr) s = .next (if v.lowChunk o > t.lowChunk o ∧ o.fv = false
              then v.releaseChunk o (t.lowChunk o) else v))))) ∧
    (∀ o0 o, (s.arrD arr).q.find? (fun o => o.stage == 2 && !opHalted s o && (s.entries o.id).all (fun e => e.stage == 2)) = some o0 →
      (s.arrD o0.quad).q.find? (fun e => e.id == o0.id) = some o →
      let t := s.amOwn o.quad o.ctx
      let tile := tileFx t o
      let d := drainVals (s.ctxD o.ctx) o tile
      let norm := normOf d.vals
      exec (.matrixDrain arr) s = .next ((t.modArr o.quad (fun a => { a with
        am := alMod a.am o.ctx [] (drainWrite (s.ctxD o.ctx) o d norm)
        amPoison := alMod a.amPoison o.ctx [] (drainClears (s.ctxD o.ctx) o) })).settleOp o norm.1
          (opStatus o (s.entries o0.id) tile d) (normTrips o (t.cregD o.quad o.creg).ref norm.1))) ∧
    (∀ o, (s.arrD arr).q.find? (fun o => o.stage == 3 && !opHalted s o) = some o →
      exec (.matrixOpComplete arr) s = .next ((s.dropOp o.id).modCreg o.quad o.creg (fun r => r.complete o.seq (some o.status))))) ∧
  (∀ (port pa : Nat) (mask : BitVec 64) (line : Line), port ≤ 8 → s.isFrozen (podMid port) = false →
    let la := lineOf pa
    exec (.podFrameReceive port pa mask line .ack) s = .next { s with pods := s.pods.filter (fun p => p.failed || p.id != pa) } ∧
    ∀ k : PodKind, k ≠ .ack → (pa < 2 ^ 49 → exec (.podFrameReceive port pa mask line k) s = .next (s.refuse (podMid port) (16 * 1024) .write pa 1 255)) ∧
    (pa / 2 ^ 49 = 1 →
      (∀ why e, accCheck (s.table (endpointOf la)) (podMid port) .write la = some (why, e) →
        exec (.podFrameReceive port pa mask line k) s = .next (s.refuse (podMid port) (endpointOf la) .write la why e)) ∧
      (accCheck (s.table (endpointOf la)) (podMid port) .write la = none → inCapacity s.mem la = true →
        fencedOff s.pkg 16 (paStack la) = false →
        let m := memWriteMasked s.mem (keyMat s.mem 0) la mask.toNat line.toNat
        exec (.podFrameReceive port pa mask line k) s = .next { s with
          mem := if k = .poisoned then { m with poison := la :: m.poison } else m
          pkg := { s.pkg with outbox := s.pkg.outbox ++ [(3, bytesOf 8 pa)] } })))

/-- R298, R302 to R304, R402, R407: fault service. RESUME goes on at the record's packet, DELIVER enters the handler or terminates the
thread, TERMINATE ends it; VECSET sets the vectors; WAKE starts a control core.
The model's own choices that it rests on: log entries 51, 75, 76. -/
def Obligations.FaultService : Prop := ∀ (s : State) (core thr mid : Nat) (w0 v : DWord),
  (∀ (th : Thr) (x : Svc), s.thr? thr = some th → th.svc = some x → x.st = .noRoom →
    exec (.faultAreaRoom thr) s = .next ((s.settleFault thr x.fseq x.info x.pc x.resume).giveFaults x.core)) ∧
  (∀ (th : Thr) (x : Svc), s.thr? thr = some th →
    (Serves s core 0 w0 thr th x →
      (∀ t f3 f6 f7, s.readRecord x.core th.id.ctx x.recVa = (t, some (f3, f6, f7)) → exec (.fsvcResume core w0) s =
        .next ((t.modThr thr (fun th => { ((th.setReg 0 (BitVec.ofNat 32 f7)).setReg 1 (BitVec.ofNat 32 (f7 / 2 ^ 32))) with
          pc := f3 % 2 ^ 55, p := BitVec.ofNat 7 (f6 / 2 ^ 17), svc := none
          restarts := if regionClass x.info.cls && f3 % 2 ^ 55 == th.rentry then th.restarts + 1 else th.restarts })).svcResult 0)) ∧
      (∀ t, s.readRecord x.core th.id.ctx x.recVa = (t, none) →
        exec (.fsvcResume core w0) s = .next ((t.terminate (t.laneOf thr) thr (some x.recVa)).svcResult 0))) ∧
    (Serves s core 1 w0 thr th x →
      ((s.seatOf thr).2.1.trapv = 0 → exec (.fsvcDeliver core w0) s =
        .next ((s.terminate (s.seatOf thr).1 thr (some x.recVa)).svcResult 0)) ∧
      ((s.seatOf thr).2.1.trapv ≠ 0 → exec (.fsvcDeliver core w0) s =
        .next ((s.handTo thr (laneCore (s.seatOf thr).1) th.id.ctx x.recVa (s.seatOf thr).2.1.trapv).svcResult 0))) ∧
    (Serves s core 2 w0 thr th x → exec (.fsvcTerminate core w0) s =
      .next ((s.terminate (s.laneOf thr) thr (some x.recVa)).svcResult 0))) ∧
  (core < 32 → bits w0 31 30 = 3 → CtlOk s (ctlMid core) 0x2410 → exec (.fsvcInvalid core w0) s = .next (s.svcResult 1)) ∧
  (core < 32 → CtlOk s (ctlMid core) 0x2420 →
    let c := bits w0 63 58
    let vec := bits (s.ctlD core).vec1 54 0
    let live := (s.ctxD c).st = .live ∨ (s.ctxD c).st = .drained
    (¬ live ∨ vec % 12 ≠ 0 → exec (.vecset core w0) s = .next (s.svcResult 3)) ∧
    (live → vec % 12 = 0 → ∃ t : State, exec (.vecset core w0) s = .next (t.svcResult 0) ∧ (t.ctxD c).vec = vec ∧
      (∀ r ∈ t.ress, r.2.ctx = c → isChard r.2.core = true → r.2.trapv = vec) ∧ t.thrs = s.thrs ∧ t.mem = s.mem)) ∧
  (core < 32 → CtlOk s mid (0x700 + 8 * core) → s.sys.bootFail = 0 →
    let k := s.ctlD core
    (k.st = .halted → exec (.wake mid core v) s = .next (s.modCtl core (fun k => { k with st := .running }))) ∧
    (k.st = .stopped ∨ k.st = .exited → exec (.wake mid core v) s =
      .next ((s.modCtl core (fun k => { k with st := .running })).startSolo (512 + core) k.ctx (bits v 54 0) k.trapv [])))


/-! ### What every word shares -/

/-- R161, R163, R320: a false guard pushes the word's entries as not written and does nothing else. R363, R428: where the word fills
entries for its set, it still fills them at the issue of the set's last thread; RAST's token is noted whatever the guard. -/
def Obligations.FalseGuard : Prop := (∀ (i : Instr) (g : Guard) (st : State), ¬ Fires g st →
  (guarded i = some g → exec i st = .next (st.unwritten (Instr.pushes i))) ∧
  (joining i = some g → st.iss.stalled = false → ∃ op, xgOpOf i = some op ∧ Instr.pushes i = 1 ∧ exec i st =
    .next (if st.iss.last then (st.unwritten 1).fillXg st.iss.lane st.iss.word op else st.unwritten 1))) ∧
  (∀ (hd : Hd) (a : Src) (n : Fin 4) (c : Cull) (st s : State), noteToken a st = .ok () s → ¬ Fires hd.gd s → s.iss.stalled = false →
    exec (.rast hd a n c) st =
      .next (if s.iss.last then (s.unwritten 3).fillXg s.iss.lane s.iss.word (.rast n.val c) else s.unwritten 3))

/-- R323, R324, R326, R160, R170, R172, R208, Table 13.4: what each source code stands for.
The model's own choices that it rests on: log entry 44. -/
def Obligations.Sources : Prop := ∀ (s : State),
  (∀ i : Fin 32, (s.cur.reg i.val).pend = none → (s.cur.reg i.val).uncorr = false → (s.cur.reg i.val).poison = false →
    s.cur.link = none → src32 (.n i) s = .ok (s.cur.reg i.val).v s ∧
    (i.val % 2 = 0 → (s.cur.reg (i.val + 1)).pend = none → (s.cur.reg (i.val + 1)).uncorr = false →
      (s.cur.reg (i.val + 1)).poison = false →
      src64 (.n i) s = .ok ((s.cur.reg (i.val + 1)).v ++ (s.cur.reg i.val).v) s)) ∧
  (∀ (k : Fin 16) (e : QEnt), s.iss.q0[k.val]? = some e →
    (e.st = .full → src32 (.q k) s = .ok (e.v.setWidth 32) s ∧ src64 (.q k) s = .ok e.v s) ∧
    (e.st = .notWritten → src32 (.q k) s = .ok 0 s ∧ src64 (.q k) s = .ok 0 s) ∧
    (∀ a, e.st = .pending a → src32 (.q k) s = .error .stall s)) ∧
  (∀ i : Fin 8, src32 (.gw i) s = .ok (s.curGrp.g.getD (s.curGrp.ub + i.val) 0) s) ∧
  src32 .zero s = .ok 0 s ∧ src64 .zero s = .ok 0 s ∧
  (∀ w r, s.iss.lits = w :: r → src32 .lit s = .ok w { s with iss := { s.iss with lits := r } }) ∧
  (∀ w x r, s.iss.lits = w :: x :: r → src64 .lit s = .ok (x ++ w) { s with iss := { s.iss with lits := r } }) ∧
  src32 .tid s = .ok (BitVec.ofNat 32 s.cur.tid) s ∧ src32 .iid s = .ok (s.cur.id.iid.setWidth 32) s ∧ src64 .iid s = .ok s.cur.id.iid s ∧
  (∀ (k : Fin 4) (r p v : Nat) (t : State), alGet s.curGrp.heads k.val = some r → alGet s.cur.spos k.val = some (r, p) →
    streamElem s.curRecs (alGetD s.curRecs r 0) s.cur.tid p s = .ok v t →
    src64 (.h k) s = .ok (BitVec.ofNat 64 v) (t.modCur (fun th => { th with spos := alSet th.spos k.val (r, p + 1) })))

/-- R161 to R167: a word that only computes changes nothing but its thread's run state, predicates and stream positions: no register,
no program counter, no flag, no special register, no byte of memory. A stall leaves all as it was; a fault or a refusal is taken in
such a state, and a control core goes on after a refusal.
The model's own choices that it rests on: log entries 7, 51. -/
def Obligations.ComputeFrame : Prop := ∀ (i : Instr) (g : Guard) (st t : State), computing i = some g → exec i st = .next t →
  (∃ u, Quiet st u ∧ (t = u ∨ (∃ e, t = u.takeDeny st.iss.thr e) ∨ (∃ e, Quiet (applyDeny u e) t) ∨ ∃ f e, t = (applyDeny u e).takeFault st.iss.thr f ∨
    t = { applyDeny u e with iss := { (applyDeny u e).iss with faulted := some f } })) ∨
  t = { st with iss := { st.iss with stalled := true } }

/-- R100, R101, R105, R121, R180, R195, R379: ST to glb or stk puts its bytes into its core's buffer, which drains first when it has no room for one
more line, and otherwise changes no byte of memory but those of a line that the core has buffered under another key id; ST to loc, rng,
am or frm writes the bytes at the place its address names, no other byte there or in any other storage, and no memory. A read
of a line that no cache holds gives the home's bytes and changes no byte; an atomic operation (R132) reads and writes its own bytes there.
Reading the operands is what a word that only computes does.
The model's own choices that it rests on: log entries 2, 14. -/
def Obligations.StoreFrame : Prop := (∀ (hd : Hd) (a b : Src) (p : Space) (w : Width) (st u v : State) (va x : Nat), Fires hd.gd st →
  addrOf p a st = .ok va u → dataOf w b u = .ok x v → Quiet st v ∧ (va % Width.bytes' w = 0 →
  let n := Width.bytes' w
  (∀ (pa key cp ca : Nat) (q : State), va < 2 ^ 55 →
    p = .glb ∨ (p = .stk ∧ v.cur.stkl.toNat ≤ va ∧ va + n ≤ v.cur.stkb.toNat) →
    translate v.curWho .write va v = .ok (pa, key, cp, ca) q → ownedLine q pa = false → reach v.curWho .write pa ca q = .ok () q →
    let core := v.curCore
    let ctx := v.cur.id.ctx
    let u := q.underKey core ctx (lineOf pa) key
    let wcb := (u.coreD core).wcb
    let room := wcb.length < 64 ∨ wcb.any (fun l => l.ctx == ctx && l.pa == lineOf pa) = true
    let put (s : State) : State := s.modCore core (fun c =>
      wcbPut c ctx (lineOf pa) key ((2 ^ n - 1) * 2 ^ (pa % 64)) (x % 256 ^ n * 256 ^ (pa % 64)))
    (room → exec (.st hd a b p w) st = .next (put u)) ∧
    (¬ room → exec (.st hd a b p w) st = .next (put (u.drainCore core))) ∧
    (∀ c, c < lineOf pa ∨ lineOf pa + 64 ≤ c ∨
        (∀ l ∈ (q.coreD core).wcb, l.ctx = ctx → l.pa = lineOf pa → l.key = key) →
      byteAt (put u).mem.cells c = byteAt v.mem.cells c)) ∧
  (∀ (pl : Place) (q : State), p = .loc ∨ p = .rng ∨ p = .am ∨ p = .frm → curPlace p va n v = .ok pl q →
    waitScore pl n false q = .ok () q → allowMarrow q.curWho .write pl q = .ok () q →
    (p ≠ .am ∨ (v.arrD (coreQuad v.curCore)).owner = some v.cur.id.ctx → q = v) ∧
    ∃ t : State, exec (.st hd a b p w) st = .next t ∧ t.mem = q.mem ∧ t.thrs = q.thrs ∧
      ∀ (o : Store) (c : Nat), (∀ k, o = .sram k → 512 ≤ k) → o.byte t c = if o = pl.st ∧ pl.a ≤ c ∧ c < pl.a + n then
        BitVec.ofNat 8 (x / 256 ^ (c - pl.a)) else o.byte q c))) ∧
  (∀ (who : Who) (core va n pa key cp ca : Nat) (s q : State), who.core = some core → ownedLine q pa = false →
    (q.coreD core).wcb.any (fun l => l.pa == lineOf pa) = false → lineOf pa ∉ q.mem.poison → alGet q.mem.flaws (lineOf pa) = none →
    let k := keyMat q.mem key
    (translate who .read va s = .ok (pa, key, cp, ca) q → reach who .read (lineOf pa) (ca / 64 * 64) q = .ok () q →
      inCapacity q.mem (lineOf pa) = true → l1Find (q.coreD core) who.ctx (lineOf pa) = none → ∃ t, loadV who .read va n s =
        .ok (memRead q.mem k (lineOf pa) 64 / 256 ^ (pa % 64) % 256 ^ n, false) t ∧ t.mem = q.mem ∧ t.thrs = q.thrs) ∧
    (∀ f, translate who .atomic va s = .ok (pa, key, cp, ca) q → reach who .atomic pa ca q = .ok () q →
      inCapacity q.mem pa = true → ∃ t, atomV who va n f s = .ok (memRead q.mem k pa n, false) t ∧
        t.mem = memWrite q.mem k pa n (f (memRead q.mem k pa n)) ∧ t.thrs = q.thrs))

/-- R100, R101, R295, Table 12.1: where an access faults: an address beyond 55 bits takes XLATE with cause NONCANON, one that is no
multiple of the width ALIGN, one outside the stack STACK, each with the address in the record, and the word does nothing else.
The model's own choices that it rests on: log entry 48. -/
def Obligations.AccessFaults : Prop := ∀ (hd : Hd) (a b : Src) (p : Space) (w : Width) (st t s : State) (va : Nat),
  Fires hd.gd st → st.iss.chained = false →
  let n := Width.bytes' w
  let takes (u : State) (cls cause : Nat) : Out :=
    .next (u.takeFault st.iss.thr ⟨cls, cause, BitVec.ofNat 64 va, u.iss.word, u.iss.instr, false⟩)
  let bad (u : State) (cls cause : Nat) : Prop :=
    (wideSpace p = true ∧ 2 ^ 55 ≤ va ∧ cls = 6 ∧ cause = 1) ∨
    ((wideSpace p = true → va < 2 ^ 55) ∧ va % n ≠ 0 ∧ cls = 4 ∧ cause = 0) ∨
    (p = .stk ∧ va < 2 ^ 55 ∧ va % n = 0 ∧ ¬ (u.cur.stkl.toNat ≤ va ∧ va + n ≤ u.cur.stkb.toNat) ∧ cls = 7 ∧ cause = 0)
  (addrOff p a b st = .ok va t → (p = .cst → t.curRun.bind (fun r => r.bcast.find? (fun e => e.1 == (t.iss.word, va, n))) = none) →
    ∀ cls cause, bad t cls cause →
    exec (.ld hd a b p w) st = takes t cls cause ∧ exec (.ldS hd a b p w) st = takes t cls cause) ∧
  (addrOf p a st = .ok va t → ∀ cls cause, bad s cls cause →
    (∀ v, dataOf w b t = .ok v s → ∀ i ∈ [Instr.st hd a b p w, .atomAdd hd a b p w, .atomFadd hd a b p w, .atomMin hd a b p w,
      .atomMax hd a b p w, .atomAnd hd a b p w, .atomOr hd a b p w, .atomXor hd a b p w, .atomSwap hd a b p w, .redAdd hd a b p w,
      .redFadd hd a b p w, .redMin hd a b p w, .redMax hd a b p w, .redAnd hd a b p w, .redOr hd a b p w, .redXor hd a b p w],
      exec i st = takes s cls cause) ∧
    (∀ v, dataPair w b t = .ok v s → exec (.cas hd a b p w) st = takes s cls cause)) ∧
  (∀ (x : DWord) (v : Nat × Nat), src64 a st = .ok x t → dataPair w b t = .ok v s → x.toNat = va →
    ∀ i ∈ [Instr.reddAdd hd a b w, .reddFadd hd a b w, .reddMin hd a b w, .reddMax hd a b w, .reddMinU hd a b w, .reddMaxU hd a b w,
      .reddOr hd a b w],
      (2 ^ 55 ≤ va → exec i st = takes s 6 1) ∧ (va < 2 ^ 55 → va % n ≠ 0 → exec i st = takes s 4 0))

/-- R4, R120, R121: bytes of memory under a key. A write of the bytes that a mask names is read back under its key; every other byte reads
as before, under every key in another line and under the write's key in its own; wider reads are little-endian.
The model's own choices that it rests on: log entry 14. -/
def Obligations.MemoryBytes : Prop := ∀ (m : Memory) (key other : Option (BitVec 512)) (la mask d a n : Nat), la % 64 = 0 →
  let m' := memWriteMasked m key la mask d
  (m.wf → m'.wf) ∧
  (lineOf a = la → memRead m' key a 1 = if mask.testBit (a % 64) then d / 256 ^ (a % 64) % 256 else memRead m key a 1) ∧
  (lineOf a ≠ la → memRead m' other a 1 = memRead m other a 1) ∧
  (a % 64 + n ≤ 64 → memRead m key a n = ((List.range n).map (fun i => memRead m key (a + i) 1 * 256 ^ i)).sum)

/-- R162, R165, R245, R247: what a thread's registers are after its commits: a full entry's value, two registers for a wide commit, the
last commit of a register; flags join FST; the generator moves on; every other register and the predicates stay. -/
def Obligations.Commits : Prop := ∀ th : Thr,
  let t := th.step1
  t.fst = th.fst ||| th.rt.flags ∧ t.srs = th.rt.srs ∧ t.p = th.p ∧ t.pc = th.pc ∧ t.sp = th.sp ∧ t.mst = th.mst ∧
  (∀ i, (∀ c ∈ th.rt.commits, c.d ≠ i ∧ (c.wide = true → c.d + 1 ≠ i)) →
    t.val i = th.val i ∧ (t.reg i).pend = (th.reg i).pend ∧ (t.reg i).poison = (th.reg i).poison) ∧
  (∀ cs c, th.rt.commits = cs ++ [c] → th.regs.length = 32 → c.d < 32 →
    (c.ent.st = .full → (c.wide = false → t.val c.d = (c.ent.v : DWord).setWidth 32 ∧ (t.reg c.d).pend = none ∧ (t.reg c.d).poison = false) ∧
      (c.wide = true → c.d < 31 → t.val c.d = c.ent.v.setWidth 32 ∧ t.val (c.d + 1) = c.ent.v.extractLsb' 32 32)) ∧
    (∀ a, c.ent.st = .pending a → (t.reg c.d).pend = some (a, false)))

/-- R25, R167, R295 to R302, R306, R308, R309: taking a fault. A region-entry class abandons the run, and the fault is held for the end
of its run; then its record is written, and the fault is serviced, delivered to the handler of the residency, or terminates its thread.
The model's own choices that it rests on: log entries 22, 51, 52, 95, 97. -/
def Obligations.FaultEntry : Prop := ∀ (s : State) (t rpc : Nat) (th : Thr) (f : FaultInfo), s.thr? t = some th →
  let lane := (s.seatOf t).1
  let core := laneCore lane
  let reg := regionClass f.cls
  (isRoot core = true → s.takeFaultAt t f rpc = s.stopRoot t core .fault f.cls (th.pc % 2 ^ 18)) ∧
  (isRoot core = false → isCtl core = false ∨ (s.ctxD th.id.ctx).st ≠ .free →
    let a := if reg then s.abandon t else s
    let n := (a.coreD core).fseq + 1
    let b := a.modCore core (fun c => { c with fseq := n })
    let v : Svc := {
      core := core, fseq := n.toNat, recVa := 0, info := f, resume := if reg then th.rentry else th.pc, st := .held
      svc := (faultRoute b (s.seatOf t).2.1 th f).1, pc := rpc }
    s.takeFaultAt t f rpc = ((b.modThr t (fun th => { th with svc := some v })).settle lane).giveFaults core) ∧
  (∀ (v : Svc) (ts : List Nat), th.svc = some v → s.faultDue t = true →
    let u := s.settleFault t v.fseq v.info v.pc v.resume
    s.giveGroup (t :: ts) = if (u.thr? t).any Thr.unrecorded then u else u.giveGroup ts) ∧
  (f.cls ≠ 10 → f.cls ≠ 11 → reg = true) ∧
  (∃ x, (s.abandon t).thr? t = some x ∧ x.p = th.rt.chk ∧ x.regs = th.regs ∧ x.rt = .empty ∧ x.pc = th.pc ∧ x.fst = th.fst) ∧
  (∀ fseq resume g tid, s.seatOf t = (lane, g, tid) →
    (th.reg 0).pend = none → (th.reg 1).pend = none →
    let r := faultRoute s g th f
    ∀ u va idx, putRecord (recWho s core th.id.ctx) (s.ctxD th.id.ctx).flta
        (faultWords lane g tid th f rpc resume fseq r.1 (!r.1 && !r.2.1) r.2.2) s = (u, .at_ va idx) →
      let u := (u.drainCore core).modThr t (fun th => { th with svc := none })
      (r.2.2 = true → s.settleFault t fseq f rpc resume = u.doubleFault core th.id.ctx th.id.launch va) ∧
      (r = (true, false, false) → s.settleFault t fseq f rpc resume = (u.notice core th.id.ctx idx).modThr t (fun th =>
        { th with svc := some ⟨core, fseq, va, f, resume, .written, true, rpc⟩ })) ∧
      (r = (false, true, false) → s.settleFault t fseq f rpc resume = u.handTo t core th.id.ctx va g.trapv) ∧
      (r = (false, false, false) → s.settleFault t fseq f rpc resume = u.terminate lane t (some va)))

/-- R296, R301, R304, R306 to R308: which outcome a fault has, and the thread as its handler finds it; IRET gives n0 and n1, the
predicates and the PC of the record back and leaves the handler; every other register stays.
The model's own choices that it rests on: log entry 51. -/
def Obligations.FaultRoute : Prop := (∀ (s : State) (g : Grp) (th : Thr) (f : FaultInfo) (va tv : Nat), th.dblFetch = false →
  (64 ≤ th.restarts ∨ f.fatal = true → faultRoute s g th f = (false, false, false)) ∧
  (th.restarts < 64 → f.fatal = false → 1 ≤ f.cls → f.cls ≤ 11 → (s.ctxD th.id.ctx).route.testBit f.cls = true → faultRoute s g th f = (true, false, false)) ∧
  (th.restarts < 64 → f.fatal = false → (s.ctxD th.id.ctx).route.testBit f.cls = false →
    (g.trapv ≠ 0 → th.inTrap = false → faultRoute s g th f = (false, true, false)) ∧
    (g.trapv = 0 ∨ th.inTrap = true → faultRoute s g th f = (false, false, false))) ∧
  (f.cls = 4 ∨ f.cls = 6 ∨ f.cls = 8 → faultRoute s g { th with dblFetch := true } f = (false, false, true)) ∧
  (let d := th.deliver va tv
   d.pc = tv ∧ d.rentry = tv ∧ d.rgnc = th.rgnc + 1 ∧ d.inTrap = true ∧ d.dblFetch = true ∧ d.p = th.p ∧ d.fst = th.fst ∧ d.sp = th.sp ∧
   (th.regs.length = 32 → d.val 0 = BitVec.ofNat 32 va ∧ d.val 1 = BitVec.ofNat 32 (va / 2 ^ 32)) ∧ ∀ i, 2 ≤ i → d.reg i = th.reg i)) ∧
  (∀ (th : Thr) (f3 f6 f7 : Nat),
    let d := th.leaveTrap (f3, f6, f7)
    d.pc = f3 % 2 ^ 55 ∧ d.rentry = f3 % 2 ^ 55 ∧ d.rgnc = th.rgnc + 1 ∧ d.inTrap = false ∧ d.p = BitVec.ofNat 7 (f6 / 2 ^ 17) ∧
    (th.regs.length = 32 → d.val 0 = BitVec.ofNat 32 f7 ∧ d.val 1 = BitVec.ofNat 32 (f7 / 2 ^ 32)) ∧ (∀ i, 2 ≤ i → d.reg i = th.reg i) ∧
    d.fst = th.fst ∧ d.sp = th.sp ∧ d.srs = th.srs)

/-! ### Steps, encodings, reset -/

/-- R157, R164, R321: a lane that issues runs the instruction that its word at hand decodes to, for the next thread of its set: step is
exec of it, then the set's bookkeeping, a clock of the die and the waits that end. R318, R319: what a run that starts consists of:
whole packets, eight at most, from a PC that is a multiple of 12, without a decode fault.
The model's own choices that it rests on: log entries 3, 46. -/
def Obligations.StepRunsWord : Prop := (∀ (s u : State) (lane tid t : Nat) (tids : List Nat) (rest : List Act) (r : Run) (g : Grp)
    (w : Word) (i : Instr),
  s.pkg.powered = true → s.agenda = .issue lane :: rest → (s.laneD lane).run = some r → r.todo = tid :: tids →
  s.grp? r.grp = some g → alGet g.mem tid = some t → r.words[r.wi]? = some w → decodeWord w = .ok i → w.getLsbD 31 = false →
  fld w.toNat 30 25 ≠ 0x3F →
  let x : State := { s with
    agenda := rest
    iss := { issueFor lane r.grp tid t with
      last := tids.isEmpty, word := r.wi, instr := w, lits := (r.words.drop (r.wi + 1)).take (Instr.lits i)
      q0 := (s.thr? t).elim [] (fun th => th.rt.q) } }
  exec i x = .next u → u.iss.stalled = false → u.iss.faulted = none →
    let v := u.issued lane r.grp tid r.slot
    step s = .next (({ v with iss := { v.iss with lane := lane } } : State).tickIssue (coreDie (laneCore lane))).pollAll) ∧
  (∀ (s t : State) (pc : Nat) (ws : List Word),
    (pc % 12 ≠ 0 → loadRun pc s = (s, .error (.fault ⟨4, 0, BitVec.ofNat 64 pc, 0, 0, false⟩))) ∧
    (loadRun pc s = (t, .ok ws) → pc % 12 = 0 ∧ ws.length % 3 = 0 ∧ ws.length ≤ 24 ∧
      runFault (decEnv t t.curCore t.curLaunch t.cur.id.ctx) ws true = none))

/-- R316 to R327: the decoder gives every well-formed instruction back from the word its encoding has. -/
def Obligations.RoundTrip : Prop := ∀ i : Instr, i.isWord = true → i.wf = true →
  decodeWord (BitVec.ofNat 32 (encodeNat i)) = .ok i ∧ encodeNat i < 2 ^ 32

/-- R319: the decoder takes no word but those: what it reads, the encoder writes, bit for bit, so that a reserved bit that is set is
refused. -/
def Obligations.DecodeExact : Prop := ∀ (w : Word) (i : Instr), decodeWord w = .ok i → i.isWord = true ∧ i.wf = true ∧ encodeNat i = w.toNat

/-- A step keeps the memory in its canonical form (the model's own form, log entry 14), from every state that has it. -/
def Obligations.StepKeepsMemory : Prop := ∀ s t : State, s.mem.wf → step s = .next t → t.mem.wf

/-- R11, R12, R32, R36, R42, R43, R46, R53, R193, R202: the machine after reset, where the manual gives the values; its memory is in
its canonical form.
The model's own choices that it rests on: log entries 3, 11, 14, 19. -/
def Obligations.ResetState : Prop :=
  let s := State.reset
  s.mem.wf ∧ (∀ d, s.cyc d = 0) ∧ s.pkg.qclk = 0 ∧ s.pkg.hv.tlive = 0xFF ∧ s.pkg.hv.mlive = 0x3FF ∧ s.pkg.hv.slive = 0xFFFF ∧
  s.pkg.hv.msrv = 0 ∧ s.pkg.hv.pend = 0 ∧ s.pkg.hv.gen = 0 ∧ s.sys.bootStage = 0 ∧ s.sys.bootFail = 0 ∧ s.sys.viol = .empty ∧
  (∀ m, s.isFrozen m = false) ∧ (s.ctlD 0).st = .running ∧ (∀ k, 1 ≤ k → k < 32 → (s.ctlD k).st = .held) ∧
  (∀ t i, alGetD (s.table t) i 0 = 0) ∧ (∀ c, (s.ctxD c).st = .free) ∧ (∀ c q, s.queueD c q = .empty) ∧
  (∀ q k, (alGetD (s.quadD q).rings k .empty).v = false ∧ (alGetD (s.quadD q).counts k .empty).cnt = 0) ∧
  s.launches = [] ∧ s.thrs = [] ∧ s.arrivals = [] ∧ s.agenda = []

/-- R320, R321, R323, R326, R328, R330: words that the manual writes out stand for the instructions it says, and words that it calls
ILLEGAL decode to none: OP 0, the guard that never holds, a run-end kind that is not assigned, a width code above 4. -/
def Obligations.DecodeWords : Prop :=
  let hd (c : Bool) : Hd := ⟨c, ⟨false, 7⟩⟩
  let no (w : Word) : Prop := ∀ i, decodeWord w ≠ .ok i
  decodeWord 0xB0E27010#32 = .ok (.ld (hd true) (.n 4) .zero .glb .b32) ∧
  decodeWord 0x7E09B000#32 = .ok (.nsPrefix 4 (.sub .nb 3) (.whole 0) (.whole 0) false) ∧
  decodeWord 0x0EE20A10#32 = .ok (.fmul (hd false) (.n 4) (.n 5) .rne) ∧
  decodeWord 0x48E28025#32 = .ok (.commit ⟨false, 7⟩ 1 8 false 0 9 false true) ∧
  decodeWord 0x61240003#32 = .ok (.bra ⟨true, 1⟩ 3) ∧
  decodeWord 0x1CE21084#32 = .ok (.reduce (hd false) (.n 4) (.n 8) .add .f32) ∧
  decodeWord 0x1CFCF060#32 = .ok (.vote (hd false) .lit .zero .ballot) ∧
  decodeWord 0x02F07098#32 = .ok (.popc (hd false) (.q 0) false) ∧
  decodeWord 0x3CFC9000#32 = .ok (.spawn (hd false) .lit (.n 8)) ∧
  decodeWord 0x3EE24002#32 = .ok (.marm (hd false) (.n 4) (.q 0) 2) ∧
  decodeWord 0x60F40000#32 = .ok (.await ⟨false, 7⟩) ∧ decodeWord 0x4C000000#32 = .ok .nop ∧
  no 0x00000000#32 ∧ no 0x0FE20A10#32 ∧ no 0x62EC0000#32 ∧ no 0x30E27028#32
end

