-- ==== Sys2Proof/Laws/Encoding.lean ====
section
/-! SUPPORT. Small lemmas of the encoding: bounds of the field codes, codes decoded, fields cut off a word one by one. -/
namespace Sys2Proof.Laws

/-! ### Codes -/

theorem b2n_lt (b : Bool) : b2n b < 2 := by cases b <;> decide
theorem src_lt (x : Src) : x.enc < 64 := by
  cases x <;> simp only [Src.enc] <;> omega
theorem src_dec_enc (x : Src) : Src.dec x.enc = x := by
  cases x with
  | n i => revert i; decide
  | q i => revert i; decide
  | gw i => revert i; decide
  | h i => revert i; decide
  | _ => rfl
theorem bit_of {n i : Nat} {b : Bool} (h : fld n i i = b2n b) : bit n i = b := by
  unfold fld at h
  rw [show i + 1 - i = 1 by omega] at h
  unfold bit
  rw [show n / 2 ^ i % 2 = b2n b from h]; cases b <;> decide
theorem rm_lt (x : RM) : x.enc < 6 := by cases x <;> decide
theorem rm_dec_enc (x : RM) : RM.dec x.enc = .ok x := by cases x <;> rfl
theorem rel_lt (x : Rel) : x.enc < 6 := by cases x <;> decide
theorem rel_dec_enc (x : Rel) : Rel.dec x.enc = .ok x := by cases x <;> rfl
theorem frel_lt (x : FRel) : x.enc < 8 := by cases x <;> decide
theorem frel_dec_enc (x : FRel) : FRel.dec x.enc = x := by cases x <;> rfl
theorem numTy_lt (x : NumTy) : x.enc < 8 := by cases x <;> decide
theorem numTy_dec_enc (x : NumTy) : NumTy.dec x.enc = x := by cases x <;> rfl
theorem xmode_lt (x : XMode) : x.enc < 4 := by cases x <;> decide
theorem xmode_dec_enc (x : XMode) : XMode.dec x.enc = x := by cases x <;> rfl
theorem voteForm_lt (x : VoteForm) : x.enc < 4 := by cases x <;> decide
theorem voteForm_dec_enc (x : VoteForm) : VoteForm.dec x.enc = x := by cases x <;> rfl
theorem scanOp_lt (x : ScanOp) : x.enc < 7 := by cases x <;> decide
theorem scanOp_dec_enc (x : ScanOp) : ScanOp.dec x.enc = .ok x := by cases x <;> rfl
theorem scanTy_lt (x : ScanTy) : x.enc < 8 := by cases x <;> decide
theorem scanTy_dec_enc (x : ScanTy) : ScanTy.dec x.enc = x := by cases x <;> rfl
theorem intfOp_lt (x : IntfOp) : x.enc < 15 := by cases x <;> decide
theorem intfOp_dec_enc (x : IntfOp) : IntfOp.dec x.enc = .ok x := by cases x <;> rfl
theorem fltfOp_lt (x : FltfOp) : x.enc < 5 := by cases x <;> decide
theorem fltfOp_dec_enc (x : FltfOp) : FltfOp.dec x.enc = .ok x := by cases x <;> rfl
theorem space_lt (x : Space) : x.enc < 8 := by cases x <;> decide
theorem space_dec_enc (x : Space) : Space.dec x.enc = x := by cases x <;> rfl
theorem width_lt (x : Width) : x.enc < 5 := by cases x <;> decide
theorem width_dec_enc (x : Width) : Width.dec x.enc = .ok x := by cases x <;> rfl
theorem boxMode_lt (x : BoxMode) : x.enc < 4 := by cases x <;> decide
theorem boxMode_dec_enc (x : BoxMode) : BoxMode.dec x.enc = .ok x := by cases x <;> rfl
theorem cull_lt (x : Cull) : x.enc < 4 := by cases x <;> decide
theorem cull_dec_enc (x : Cull) : Cull.dec x.enc = .ok x := by cases x <;> rfl
theorem subW_lt (x : SubW) : x.enc < 4 := by cases x <;> decide
theorem subW_dec_enc (x : SubW) : SubW.dec x.enc = .ok x := by cases x <;> rfl
theorem sel_lt (x : Sel) : x.enc < 32 := by
  cases x with
  | whole i => have := i.isLt; simp only [Sel.enc]; omega
  | sub w i => have := i.isLt; have := subW_lt w; simp only [Sel.enc]; omega
theorem sel_dec_enc (x : Sel) : Sel.dec x.enc = x := by
  cases x with
  | whole i => revert i; decide
  | sub w i => cases w <;> revert i <;> decide

/-! ### Fields -/

/-- Cuts the field from bit k to bit hi off what n holds up to bit hi. -/
theorem cut {n M K : Nat} (hi k A r : Nat) {x : Nat} (e : n % M = x) (hM : M = 2 ^ (hi + 1)) (hK : K = 2 ^ k) (hk : k ≤ hi)
    (hx : x = A * K + r) (hr : r < K) : fld n hi k = A ∧ n % K = r := by
  subst hM hK
  have h0 : 0 < 2 ^ k := Nat.pow_pos (by decide)
  have h2 : 2 ^ (hi + 1) = 2 ^ k * 2 ^ (hi + 1 - k) := by rw [← Nat.pow_add]; congr 1; omega
  rw [hx, Nat.mul_comm] at e
  constructor
  · unfold fld
    rw [← Nat.mod_mul_right_div_self, ← h2, e, Nat.mul_add_div h0, Nat.div_eq_of_lt hr, Nat.add_zero]
  · rw [← Nat.mod_mod_of_dvd n (show 2 ^ k ∣ 2 ^ (hi + 1) from h2 ▸ Nat.dvd_mul_right _ _), e, Nat.mul_add_mod, Nat.mod_eq_of_lt hr]

theorem mk_of {i : Instr} (h : i.wf = true) : mk i = .ok i := by simp [mk, h]
theorem ok_bind {α β ε : Type} (a : α) (f : α → Except ε β) : (Except.ok a >>= f) = f a := rfl
theorem hdOf_of {n : Nat} {hd : Hd} (h1 : fld n 31 31 = b2n hd.c) (h2 : fld n 24 24 = b2n hd.gd.neg)
    (h3 : fld n 23 21 = hd.gd.p.val) : hdOf n = hd := by
  obtain ⟨c, g, p⟩ := hd
  simp only [hdOf, gdOf, bit_of h1, bit_of h2, h3, Fin.ofNat_val_eq_self]
theorem gdOf_of {n : Nat} {gd : Guard} (h2 : fld n 24 24 = b2n gd.neg) (h3 : fld n 23 21 = gd.p.val) : gdOf n = gd := by
  obtain ⟨g, p⟩ := gd
  simp only [gdOf, bit_of h2, h3, Fin.ofNat_val_eq_self]

/-- The top of a word with a chain bit and a guard: its major and what is below bit 21. -/
theorem top {n op r : Nat} (hd : Hd) (e : n = op * 33554432 + hd.enc + r) (ho : op < 64) (hr : r < 2097152) :
    fld n 30 25 = op ∧ hdOf n = hd ∧ n % 2097152 = r := by
  have hp := hd.gd.p.isLt
  have hc := b2n_lt hd.c
  have hg := b2n_lt hd.gd.neg
  simp only [Hd.enc, Guard.enc] at e
  have e0 : n % 4294967296 = n := Nat.mod_eq_of_lt (by omega)
  obtain ⟨h1, m1⟩ := cut (K := 2147483648) 31 31 (b2n hd.c)
    (op * 33554432 + (b2n hd.gd.neg * 16777216 + hd.gd.p.val * 2097152) + r) e0 (by norm_num) (by norm_num) (by omega) (by rw [e]; ring) (by omega)
  obtain ⟨h2, m2⟩ := cut (K := 33554432) 30 25 op (b2n hd.gd.neg * 16777216 + hd.gd.p.val * 2097152 + r) m1 (by norm_num) (by norm_num)
    (by omega) (by omega) (by omega)
  obtain ⟨h3, m3⟩ := cut (K := 16777216) 24 24 (b2n hd.gd.neg) (hd.gd.p.val * 2097152 + r) m2 (by norm_num) (by norm_num) (by omega) (by omega) (by omega)
  obtain ⟨h4, m4⟩ := cut (K := 2097152) 23 21 hd.gd.p.val r m3 (by norm_num) (by norm_num) (by omega) (by omega) (by omega)
  exact ⟨h2, hdOf_of h1 h3 h4, m4⟩
/-- The top of a word with a guard and no chain bit. -/
theorem topg {n op r : Nat} (gd : Guard) (e : n = op * 33554432 + gd.enc + r) (ho : op < 64) (hr : r < 2097152) :
    fld n 30 25 = op ∧ fld n 31 31 = 0 ∧ gdOf n = gd ∧ n % 2097152 = r := by
  have hp := gd.p.isLt
  have hg := b2n_lt gd.neg
  simp only [Guard.enc] at e
  have e0 : n % 4294967296 = n := Nat.mod_eq_of_lt (by omega)
  obtain ⟨h1, m1⟩ := cut (K := 2147483648) 31 31 0 n e0 (by norm_num) (by norm_num) (by omega) (by rw [Nat.zero_mul, Nat.zero_add]) (by omega)
  obtain ⟨h2, m2⟩ := cut (K := 33554432) 30 25 op (b2n gd.neg * 16777216 + gd.p.val * 2097152 + r) m1 (by norm_num) (by norm_num)
    (by omega) (by rw [e]; ring) (by clear m1; omega)
  obtain ⟨h3, m3⟩ := cut (K := 16777216) 24 24 (b2n gd.neg) (gd.p.val * 2097152 + r) m2 (by norm_num) (by norm_num) (by omega) (by omega) (by omega)
  obtain ⟨h4, m4⟩ := cut (K := 2097152) 23 21 gd.p.val r m3 (by norm_num) (by norm_num) (by omega) (by omega) (by omega)
  exact ⟨h2, h1, gdOf_of h3 h4, m4⟩
/-- The top of a word with neither. -/
theorem topx {n op r : Nat} (e : n = op * 33554432 + r) (ho : op < 64) (hr : r < 33554432) :
    fld n 30 25 = op ∧ fld n 31 31 = 0 ∧ n % 33554432 = r := by
  have e0 : n % 4294967296 = n := Nat.mod_eq_of_lt (by omega)
  obtain ⟨h1, m1⟩ := cut (K := 2147483648) 31 31 0 n e0 (by norm_num) (by norm_num) (by omega) (by rw [Nat.zero_mul, Nat.zero_add]) (by omega)
  obtain ⟨h2, m2⟩ := cut (K := 33554432) 30 25 op r m1 (by norm_num) (by norm_num) (by omega) (by rw [e]) (by clear m1; omega)
  exact ⟨h2, h1, m2⟩

/-! ### Majors -/

theorem decInt2_of {n : Nat} (h : fld n 30 25 = 1) : decodeNat n = decInt2 n := by unfold decodeNat; rw [h]; rfl
theorem decInt3_of {n : Nat} (h : fld n 30 25 = 2) : decodeNat n = decInt3 n := by unfold decodeNat; rw [h]; rfl
theorem decInti_of {n : Nat} (h : fld n 30 25 = 3) : decodeNat n = decInti n := by unfold decodeNat; rw [h]; rfl
theorem decCmp_of {n : Nat} (h : fld n 30 25 = 4) : decodeNat n = decCmp n := by unfold decodeNat; rw [h]; rfl
theorem decFcmp_of {n : Nat} (h : fld n 30 25 = 5) : decodeNat n = decFcmp n := by unfold decodeNat; rw [h]; rfl
theorem decPred_of {n : Nat} (h : fld n 30 25 = 6) : decodeNat n = decPred n := by unfold decodeNat; rw [h]; rfl
theorem decFalu2_of {n : Nat} (h : fld n 30 25 = 7) : decodeNat n = decFalu2 n := by unfold decodeNat; rw [h]; rfl
theorem decFalu3_of {n : Nat} (h : fld n 30 25 = 8) : decodeNat n = decFalu3 n := by unfold decodeNat; rw [h]; rfl
theorem decHalu3_of {n : Nat} (h : fld n 30 25 = 9) : decodeNat n = decHalu3 n := by unfold decodeNat; rw [h]; rfl
theorem decDalu2_of {n : Nat} (h : fld n 30 25 = 10) : decodeNat n = decDalu2 n := by unfold decodeNat; rw [h]; rfl
theorem decDalu3_of {n : Nat} (h : fld n 30 25 = 11) : decodeNat n = decDalu3 n := by unfold decodeNat; rw [h]; rfl
theorem decCvt_of {n : Nat} (h : fld n 30 25 = 12) : decodeNat n = decCvt n := by unfold decodeNat; rw [h]; rfl
theorem decSfu_of {n : Nat} (h : fld n 30 25 = 13) : decodeNat n = decSfu n := by unfold decodeNat; rw [h]; rfl
theorem decXgrp_of {n : Nat} (h : fld n 30 25 = 14) : decodeNat n = decXgrp n := by unfold decodeNat; rw [h]; rfl
theorem decIntf_of {n : Nat} (h : fld n 30 25 = 15) : decodeNat n = decIntf n := by unfold decodeNat; rw [h]; rfl
theorem decFltf_of {n : Nat} (h : fld n 30 25 = 16) : decodeNat n = decFltf n := by unfold decodeNat; rw [h]; rfl
theorem decUni_of {n : Nat} (h : fld n 30 25 = 17) : decodeNat n = decUni n := by unfold decodeNat; rw [h]; rfl
theorem decUld_of {n : Nat} (h : fld n 30 25 = 18) : decodeNat n = decUld n := by unfold decodeNat; rw [h]; rfl
theorem decLd_of {n : Nat} (h : fld n 30 25 = 24) : decodeNat n = decLd n := by unfold decodeNat; rw [h]; rfl
theorem decSt_of {n : Nat} (h : fld n 30 25 = 25) : decodeNat n = decSt n := by unfold decodeNat; rw [h]; rfl
theorem decAtom_of {n : Nat} (h : fld n 30 25 = 26) : decodeNat n = decAtom n := by unfold decodeNat; rw [h]; rfl
theorem decRed_of {n : Nat} (h : fld n 30 25 = 27) : decodeNat n = decRed n := by unfold decodeNat; rw [h]; rfl
theorem decMctl_of {n : Nat} (h : fld n 30 25 = 28) : decodeNat n = decMctl n := by unfold decodeNat; rw [h]; rfl
theorem decRing_of {n : Nat} (h : fld n 30 25 = 29) : decodeNat n = decRing n := by unfold decodeNat; rw [h]; rfl
theorem decEdge_of {n : Nat} (h : fld n 30 25 = 30) : decodeNat n = decEdge n := by unfold decodeNat; rw [h]; rfl
theorem decEngm_of {n : Nat} (h : fld n 30 25 = 31) : decodeNat n = decEngm n := by unfold decodeNat; rw [h]; rfl
theorem decEngc_of {n : Nat} (h : fld n 30 25 = 32) : decodeNat n = decEngc n := by unfold decodeNat; rw [h]; rfl
theorem decGfx_of {n : Nat} (h : fld n 30 25 = 33) : decodeNat n = decGfx n := by unfold decodeNat; rw [h]; rfl
theorem decTexi_of {n : Nat} (h : fld n 30 25 = 34) : decodeNat n = decTexi n := by unfold decodeNat; rw [h]; rfl
theorem decSys_of {n : Nat} (h : fld n 30 25 = 35) : decodeNat n = decSys n := by unfold decodeNat; rw [h]; rfl
theorem decCommit_of {n : Nat} (h : fld n 30 25 = 36) : decodeNat n = decCommit n := by unfold decodeNat; rw [h]; rfl
theorem decRej_of {n : Nat} (h : fld n 30 25 = 37) : decodeNat n = decRej n := by unfold decodeNat; rw [h]; rfl
theorem decNop_of {n : Nat} (h : fld n 30 25 = 38) : decodeNat n = decNop n := by unfold decodeNat; rw [h]; rfl
theorem decCtrl_of {n : Nat} (h : fld n 30 25 = 48) : decodeNat n = decCtrl n := by unfold decodeNat; rw [h]; rfl
theorem decCtrlx_of {n : Nat} (h : fld n 30 25 = 49) : decodeNat n = decCtrlx n := by unfold decodeNat; rw [h]; rfl
theorem decXword_of {n : Nat} (h : fld n 30 25 = 63) : decodeNat n = decXword n := by unfold decodeNat; rw [h]; rfl

end Sys2Proof.Laws
end

