-- ==== Sys2Proof/Laws/Memory.lean ====
section
/-! SUPPORT. Sparse tables and byte memories: a read after a write, other places unchanged, the canonical form kept by every
memory operation. -/
namespace Sys2Proof.Laws
open Sys2Proof.Machine

/-! ### Sparse tables -/

/-- Keys strictly rise. -/
abbrev Rising {α : Type} (l : AL α) : Prop := l.Pairwise (fun a b => a.1 < b.1)

theorem alGet_of_lt {α : Type} {l : AL α} {k : Nat} (h : ∀ c ∈ l, k < c.1) : alGet l k = none := by
  induction l with
  | nil => rfl
  | cons a r ih =>
    have := h a (by simp)
    rw [alGet, if_neg (by omega), ih (fun c hc => h c (by simp [hc]))]

@[simp] theorem alGet_alSet_same {α : Type} (l : AL α) (k : Nat) (v : α) : alGet (alSet l k v) k = some v := by
  induction l with
  | nil => simp [alSet, alGet]
  | cons a r ih =>
    obtain ⟨j, w⟩ := a
    unfold alSet
    split
    · simp [alGet]
    · split
      · simp [alGet]
      · rename_i h; simp [alGet, Ne.symm h, ih]

theorem alGet_alSet_ne {α : Type} (l : AL α) {k j : Nat} (v : α) (h : j ≠ k) : alGet (alSet l k v) j = alGet l j := by
  induction l with
  | nil => simp [alSet, alGet, h.symm]
  | cons a r ih =>
    obtain ⟨i, w⟩ := a
    unfold alSet
    split
    · simp [alGet, h.symm]
    · split
      · rename_i _ h2; subst h2; simp [alGet, h.symm]
      · simp [alGet, ih]

theorem alGet_alAdj {α : Type} (l : AL α) (k j : Nat) (f : α → α) :
    alGet (alAdj l k f) j = if j = k then (alGet l j).map f else alGet l j := by
  induction l with
  | nil => simp [alAdj, alGet]
  | cons a r ih =>
    obtain ⟨i, w⟩ := a
    have ih : alGet (List.map (fun e : Nat × α => if e.1 = k then (e.1, f e.2) else e) r) j =
      if j = k then (alGet r j).map f else alGet r j := ih
    by_cases hi : i = j
    · subst hi; by_cases hk : i = k <;> simp [alAdj, alGet, hk]
    · by_cases hk : i = k
      · subst hk; simp [alAdj, alGet, hi, ih]
      · simp [alAdj, alGet, hk, hi, ih]

theorem alDel_sub {α : Type} (l : AL α) (k : Nat) : (alDel l k).Sublist l := by
  induction l with
  | nil => exact .refl _
  | cons a r ih =>
    unfold alDel
    split
    · exact ih.trans (List.sublist_cons_self ..)
    · exact ih.cons_cons a

theorem alGet_alDel {α : Type} (l : AL α) (k j : Nat) : alGet (alDel l k) j = if j = k then none else alGet l j := by
  induction l with
  | nil => simp [alDel, alGet]
  | cons a r ih =>
    obtain ⟨i, w⟩ := a
    by_cases hk : k = i
    · subst hk
      by_cases hj : j = k
      · subst hj; simp [alDel, ih]
      · simp [alDel, alGet, ih, hj, Ne.symm hj]
    · by_cases hi : i = j
      · subst hi; simp [alDel, alGet, hk, Ne.symm hk]
      · simp [alDel, alGet, hk, hi, ih]

theorem mem_alSet {α : Type} {l : AL α} {k : Nat} {v : α} {c : Nat × α} (h : c ∈ alSet l k v) : c = (k, v) ∨ c ∈ l := by
  induction l with
  | nil => simpa [alSet] using h
  | cons a r ih =>
    obtain ⟨j, w⟩ := a
    unfold alSet at h
    split at h
    · simpa using h
    · split at h
      · rcases List.mem_cons.1 h with h | h
        · exact .inl h
        · exact .inr (List.mem_cons_of_mem _ h)
      · rcases List.mem_cons.1 h with h | h
        · exact .inr (h ▸ List.mem_cons_self ..)
        · exact (ih h).imp_right (List.mem_cons_of_mem _)

theorem rising_alSet {α : Type} {l : AL α} (hl : Rising l) (k : Nat) (v : α) : Rising (alSet l k v) := by
  induction l with
  | nil => simp [alSet, Rising]
  | cons a r ih =>
    obtain ⟨j, w⟩ := a
    have hr := List.pairwise_cons.1 hl
    unfold alSet
    split
    · rename_i h
      refine List.pairwise_cons.2 ⟨fun c hc => ?_, hl⟩
      rcases List.mem_cons.1 hc with h' | h'
      · subst h'; exact h
      · exact Nat.lt_trans h (hr.1 c h')
    · split
      · rename_i h; subst h
        exact List.pairwise_cons.2 ⟨hr.1, hr.2⟩
      · rename_i h1 h2
        refine List.pairwise_cons.2 ⟨fun c hc => ?_, ih hr.2⟩
        rcases mem_alSet hc with h' | h'
        · subst h'; show j < k; omega
        · exact hr.1 c h'

theorem rising_alDel {α : Type} {l : AL α} (hl : Rising l) (k : Nat) : Rising (alDel l k) := hl.sublist (alDel_sub l k)

/-! ### Bytes -/

theorem canon_setByte {m : AL Byte} (hm : canon m) (a : Nat) (b : Byte) : canon (setByte m a b) := by
  unfold setByte
  split
  · exact ⟨rising_alDel hm.1 a, fun c hc => hm.2 c ((alDel_sub m a).subset hc)⟩
  · rename_i h
    refine ⟨rising_alSet hm.1 a b, fun c hc => ?_⟩
    rcases mem_alSet hc with h' | h'
    · subst h'; exact h
    · exact hm.2 c h'

theorem byteAt_setByte (m : AL Byte) (a c : Nat) (b : Byte) :
    byteAt (setByte m a b) c = if c = a then b else byteAt m c := by
  unfold setByte byteAt alGetD
  split
  · rename_i h
    rw [alGet_alDel]
    split <;> simp [h]
  · by_cases hc : c = a
    · subst hc; simp
    · simp [alGet_alSet_ne _ _ hc, hc]

theorem canon_wrBytes {m : AL Byte} (hm : canon m) (a n v : Nat) : canon (wrBytes m a n v) := by
  induction n generalizing m a v with
  | zero => exact hm
  | succ n ih => exact ih (canon_setByte hm _ _) _ _

theorem canon_wrMasked {m : AL Byte} (hm : canon m) (a n mask v : Nat) : canon (wrMasked m a n mask v) := by
  induction n generalizing m a mask v with
  | zero => exact hm
  | succ n ih =>
    refine ih ?_ _ _ _
    split
    · exact canon_setByte hm _ _
    · exact hm

theorem byteAt_wrBytes (m : AL Byte) (a n v c : Nat) :
    byteAt (wrBytes m a n v) c = if a ≤ c ∧ c < a + n then BitVec.ofNat 8 (v / 256 ^ (c - a)) else byteAt m c := by
  induction n generalizing m a v with
  | zero => simp [wrBytes, show ¬ (a ≤ c ∧ c < a) by omega]
  | succ n ih =>
    rw [wrBytes, ih, byteAt_setByte]
    by_cases h1 : c = a
    · subst h1; simp
    · by_cases h2 : a + 1 ≤ c ∧ c < a + 1 + n
      · rw [if_pos h2, if_pos (by omega), Nat.div_div_eq_div_mul, ← Nat.pow_succ', show (c - (a + 1)).succ = c - a by omega]
      · rw [if_neg h2, if_neg h1, if_neg (by omega)]

theorem byteAt_wrMasked (m : AL Byte) (a n mask v c : Nat) : byteAt (wrMasked m a n mask v) c =
    if a ≤ c ∧ c < a + n ∧ mask.testBit (c - a) then BitVec.ofNat 8 (v / 256 ^ (c - a)) else byteAt m c := by
  induction n generalizing m a mask v with
  | zero => simp [wrMasked, show ¬ (a ≤ c ∧ c < a ∧ mask.testBit (c - a)) by omega]
  | succ n ih =>
    rw [wrMasked, ih]
    by_cases h1 : c = a
    · subst h1
      by_cases h2 : mask % 2 = 1 <;> simp [byteAt_setByte, h2, Nat.testBit_zero]
    · have e : byteAt (if mask % 2 = 1 then setByte m a (BitVec.ofNat 8 v) else m) c = byteAt m c := by
        split
        · rw [byteAt_setByte, if_neg h1]
        · rfl
      rw [e]
      by_cases h2 : a + 1 ≤ c
      · have hk : c - a = (c - (a + 1)) + 1 := by omega
        rw [hk, Nat.testBit_succ, Nat.pow_succ', ← Nat.div_div_eq_div_mul]
        simp only [show a ≤ c by omega, h2, show (c < a + 1 + n) ↔ (c < a + (n + 1)) by omega]
      · simp [h2, show ¬ a ≤ c by omega]

/-! ### The memory's operations keep its form -/

theorem wf_reset : Memory.wf Memory.reset := by decide

theorem wf_setTag {m : Memory} (h : m.wf) (k : Option (BitVec 512)) (la : Nat) : (setTag m k la).wf := by
  unfold setTag; split <;> exact h

theorem wf_memWriteMasked {m : Memory} (h : m.wf) (k : Option (BitVec 512)) (la mask d : Nat) : (memWriteMasked m k la mask d).wf := by
  unfold memWriteMasked
  have h1 : ∀ c : Bool, Memory.wf (if c then { m with poison := m.poison.filter (· != la), l2p := m.l2p.filter (· != la), flaws := alDel m.flaws la } else m) := by
    intro c; cases c <;> exact h
  by_cases hc : mask = 2 ^ 64 - 1
  · simp only [hc, if_true]
    split
    · exact canon_wrMasked h _ _ _ _
    · exact wf_setTag (canon_wrBytes h _ _ _) _ _
  · simp only [hc, if_false]
    split
    · exact canon_wrMasked h _ _ _ _
    · exact wf_setTag (canon_wrBytes h _ _ _) _ _

theorem wf_memWrite {m : Memory} (h : m.wf) (k : Option (BitVec 512)) (pa n v : Nat) : (memWrite m k pa n v).wf :=
  wf_memWriteMasked h _ _ _ _

theorem wf_drainLine {m : Memory} (h : m.wf) (p : Pkg) (die : Nat) (l : WLine) : (drainLine p die m l).wf := by
  unfold drainLine
  split
  · exact wf_memWriteMasked h _ _ _ _
  · exact h

end Sys2Proof.Laws
end

