-- ==== Sys2Proof/Laws/Keep.lean ====
section
/-! SUPPORT. Keeping the memory's canonical form: what each shape of meaning owes for it, and how the shapes compose. The files
Keep<File> prove it of every operation of Machine/<File>. -/
namespace Sys2Proof.Laws
open Sys2Proof.Machine

/-- A byte memory in its canonical form. -/
def Good (m : List Host.Cell) : Prop := canon m

/-- What an action of the meanings leaves, however it ends, is canonical. -/
def ResGood {α : Type} : EStateM.Result Exc State α → Prop
  | .ok _ t => Good t.mem.cells
  | .error _ t => Good t.mem.cells
/-- An action keeps the memory canonical. -/
def Keeps {α : Type} (x : X α) : Prop := ∀ s, Good s.mem.cells → ResGood (x s)
/-- A next state is canonical. -/
def OutGood : Host.Outcome State Fault Refusal → Prop
  | .next t => Good t.mem.cells
  | _ => True

@[simp] theorem resGood_ok {α : Type} (a : α) (t : State) : ResGood (.ok a t) ↔ Good t.mem.cells := .rfl
@[simp] theorem resGood_error {α : Type} (e : Exc) (t : State) : ResGood (α := α) (.error e t) ↔ Good t.mem.cells := .rfl
@[simp] theorem outGood_next (t : State) : OutGood (.next t) ↔ Good t.mem.cells := .rfl
@[simp] theorem outGood_fault (f : Fault) : OutGood (.fault f) ↔ True := .rfl
@[simp] theorem outGood_refused (r : Refusal) : OutGood (.refused r) ↔ True := .rfl

theorem keeps_run {α : Type} {x : X α} (h : Keeps x) {s : State} (hs : Good s.mem.cells) : ResGood (x s) := h s hs
theorem ok_good {α : Type} {x : X α} {s t : State} {a : α} (e : x s = .ok a t) (h : Keeps x) (hs : Good s.mem.cells) :
    Good t.mem.cells := by have := h s hs; rwa [e] at this
theorem error_good {α : Type} {x : X α} {s t : State} {r : Exc} (e : x s = .error r t) (h : Keeps x) (hs : Good s.mem.cells) :
    Good t.mem.cells := by have := h s hs; rwa [e] at this

/-- What an operation that may fail gives is canonical. -/
def OptGood {β : Type} (o : Option (β × State)) : Prop := ∀ r, o = some r → Good r.2.mem.cells
def OptGood1 (o : Option State) : Prop := ∀ t, o = some t → Good t.mem.cells
@[simp] theorem optGood_none {β : Type} : OptGood (none : Option (β × State)) := by intro _ h; cases h
@[simp] theorem optGood_of {β : Type} (b : β) (t : State) : OptGood (some (b, t)) ↔ Good t.mem.cells :=
  ⟨fun h => h _ rfl, fun h r e => by cases e; exact h⟩
@[simp] theorem optGood1_none : OptGood1 none := by intro _ h; cases h
@[simp] theorem optGood1_of (t : State) : OptGood1 (some t) ↔ Good t.mem.cells :=
  ⟨fun h => h _ rfl, fun h r e => by cases e; exact h⟩
theorem next_good {o : Host.Outcome State Fault Refusal} {t : State} (e : o = .next t) (h : OutGood o) : Good t.mem.cells := by
  rw [e] at h; exact h
theorem some_good {β : Type} {o : Option (β × State)} {b : β} {t : State} (e : o = some (b, t)) (h : OptGood o) :
    Good t.mem.cells := h _ e
theorem some_good1 {o : Option State} {t : State} (e : o = some t) (h : OptGood1 o) : Good t.mem.cells := h _ e
theorem fst_good {β : Type} {p : State × β} {b : β} {t : State} (e : p = (t, b)) (h : Good p.1.mem.cells) : Good t.mem.cells := by
  subst e; exact h
theorem snd_good {β : Type} {p : β × State} {b : β} {t : State} (e : p = (b, t)) (h : Good p.2.mem.cells) : Good t.mem.cells := by
  subst e; exact h

@[simp] theorem keeps_pure {α : Type} (a : α) : Keeps (pure a : X α) := fun _ h => h
@[simp] theorem keeps_throw {α : Type} (e : Exc) : Keeps (throw e : X α) := fun _ h => h
@[simp] theorem keeps_get : Keeps (get : X State) := fun _ h => h
theorem keeps_bind {α β : Type} {x : X α} {f : α → X β} (hx : Keeps x) (hf : ∀ a, Keeps (f a)) : Keeps (x >>= f) := by
  intro s hs
  show ResGood (EStateM.bind x f s)
  unfold EStateM.bind
  have h := hx s hs
  split
  · rename_i a t e; rw [e] at h; exact hf a t h
  · rename_i e t e'; rw [e'] at h; exact h
theorem keeps_get_bind {β : Type} {f : State → X β} (hf : ∀ s, Good s.mem.cells → Keeps (f s)) : Keeps (get >>= f) :=
  fun s hs => hf s hs s hs
@[simp] theorem keeps_set {s : State} (h : Good s.mem.cells) : Keeps (set s : X PUnit) := fun _ _ => h
@[simp] theorem keeps_modify {f : State → State} (h : ∀ s, Good s.mem.cells → Good (f s).mem.cells) : Keeps (modify f : X PUnit) :=
  fun s hs => h s hs
theorem keeps_fun {α : Type} {x : State → EStateM.Result Exc State α} (h : ∀ s, Good s.mem.cells → ResGood (x s)) :
    Keeps (fun s => x s : X α) := h
@[simp] theorem keeps_ite {α : Type} {c : Prop} [Decidable c] {x y : X α} (hx : Keeps x) (hy : Keeps y) : Keeps (if c then x else y) := by
  split <;> assumption
@[simp] theorem good_ite {c : Prop} [Decidable c] {s t : State} (hs : Good s.mem.cells) (ht : Good t.mem.cells) :
    Good (if c then s else t).mem.cells := by split <;> assumption
@[simp] theorem good_foldl {α : Type} {f : State → α → State} (hf : ∀ s a, Good s.mem.cells → Good (f s a).mem.cells) :
    ∀ (l : List α) {s : State}, Good s.mem.cells → Good (l.foldl f s).mem.cells
  | [], _, h => h
  | a :: r, s, h => good_foldl hf r (hf s a h)

@[simp] theorem good_memWriteMasked {m : Memory} (h : Good m.cells) (k : Option (BitVec 512)) (la mask d : Nat) :
    Good (memWriteMasked m k la mask d).cells := wf_memWriteMasked h _ _ _ _
@[simp] theorem good_memWrite {m : Memory} (h : Good m.cells) (k : Option (BitVec 512)) (pa n v : Nat) :
    Good (memWrite m k pa n v).cells := wf_memWrite h _ _ _ _
@[simp] theorem good_drainLine {m : Memory} (h : Good m.cells) (p : Pkg) (die : Nat) (l : WLine) :
    Good (drainLine p die m l).cells := wf_drainLine h p die l
@[simp] theorem good_drainLines {m : Memory} (h : Good m.cells) (p : Pkg) (die : Nat) (ls : List WLine) :
    Good (ls.foldl (drainLine p die) m).cells := by
  induction ls generalizing m with
  | nil => exact h
  | cons a r ih => exact ih (good_drainLine h p die a)
@[simp] theorem good_mfold {α : Type} {f : Memory → α → Memory} (hf : ∀ m a, Good m.cells → Good (f m a).cells) :
    ∀ (l : List α) {m : Memory}, Good m.cells → Good (l.foldl f m).cells
  | [], _, h => h
  | a :: r, m, h => good_mfold hf r (hf m a h)
theorem good_reset : Good State.reset.mem.cells := wf_reset

end Sys2Proof.Laws
end

