-- ==== Sys2Proof/Laws/KeepBase.lean ====
section
/-! SUPPORT. Every operation of Machine/Base.lean keeps the memory canonical. -/
namespace Sys2Proof.Laws
open Sys2Proof.Machine

@[simp] theorem State_modCore_keeps (s : State) (c : Nat) (f : Core → Core) (hs : Good s.mem.cells) :
    Good (State.modCore s c f).mem.cells := by
  unfold State.modCore
  simp +contextual [*]
@[simp] theorem State_modLane_keeps (s : State) (l : Nat) (f : Lane → Lane) (hs : Good s.mem.cells) :
    Good (State.modLane s l f).mem.cells := by
  unfold State.modLane
  simp +contextual [*]
@[simp] theorem State_modQuad_keeps (s : State) (q : Nat) (f : Quad → Quad) (hs : Good s.mem.cells) :
    Good (State.modQuad s q f).mem.cells := by
  unfold State.modQuad
  simp +contextual [*]
@[simp] theorem State_modArr_keeps (s : State) (a : Nat) (f : Arr → Arr) (hs : Good s.mem.cells) :
    Good (State.modArr s a f).mem.cells := by
  unfold State.modArr
  simp +contextual [*]
@[simp] theorem State_modCtx_keeps (s : State) (c : Nat) (f : Ctx → Ctx) (hs : Good s.mem.cells) :
    Good (State.modCtx s c f).mem.cells := by
  unfold State.modCtx
  simp +contextual [*]
@[simp] theorem State_modCtl_keeps (s : State) (k : Nat) (f : Ctl → Ctl) (hs : Good s.mem.cells) :
    Good (State.modCtl s k f).mem.cells := by
  unfold State.modCtl
  simp +contextual [*]
@[simp] theorem State_modStack_keeps (s : State) (k : Nat) (f : Stack → Stack) (hs : Good s.mem.cells) :
    Good (State.modStack s k f).mem.cells := by
  unfold State.modStack
  simp +contextual [*]
@[simp] theorem State_modThr_keeps (s : State) (t : Nat) (f : Thr → Thr) (hs : Good s.mem.cells) :
    Good (State.modThr s t f).mem.cells := by
  unfold State.modThr
  simp +contextual [*]
@[simp] theorem State_modGrp_keeps (s : State) (g : Nat) (f : Grp → Grp) (hs : Good s.mem.cells) :
    Good (State.modGrp s g f).mem.cells := by
  unfold State.modGrp
  simp +contextual [*]
@[simp] theorem State_modRes_keeps (s : State) (r : Nat) (f : Res → Res) (hs : Good s.mem.cells) :
    Good (State.modRes s r f).mem.cells := by
  unfold State.modRes
  simp +contextual [*]
@[simp] theorem State_modLaunch_keeps (s : State) (l : Nat) (f : Launch → Launch) (hs : Good s.mem.cells) :
    Good (State.modLaunch s l f).mem.cells := by
  unfold State.modLaunch
  simp +contextual [*]
@[simp] theorem State_modFrame_keeps (s : State) (k : Nat) (f : Frame → Frame) (hs : Good s.mem.cells) :
    Good (State.modFrame s k f).mem.cells := by
  unfold State.modFrame
  simp +contextual [*]
@[simp] theorem State_newId_keeps (s : State) (hs : Good s.mem.cells) :
    Good (State.newId s).2.mem.cells := by
  unfold State.newId
  simp +contextual [*]
@[simp] theorem State_newFree_keeps (s : State) (hs : Good s.mem.cells) :
    Good (State.newFree s).2.mem.cells := by
  unfold State.newFree
  simp +contextual [*]
@[simp] theorem raise_keeps {α : Type} (cls : Nat) (cause : Nat) (addr : Nat) :
    Keeps (raise cls cause addr : X α) := by
  unfold raise
  repeat' (first | (simp +contextual [*]; done) | (with_reducible refine keeps_fun ?_))
@[simp] theorem operand_keeps {α : Type} :
    Keeps (operand : X α) := by
  unfold operand
  simp +contextual [*]
@[simp] theorem stallX_keeps {α : Type} :
    Keeps (stallX : X α) := by
  unfold stallX
  simp +contextual [*]
@[simp] theorem ensure_keeps (c : Bool) (cls : Nat) (cause : Nat) (addr : Nat) :
    Keeps (ensure c cls cause addr : X Unit) := by
  unfold ensure
  simp +contextual [*]
@[simp] theorem freeX_keeps :
    Keeps (freeX : X DWord) := by
  unfold freeX
  repeat' (first | (simp +contextual [*]; done) | (with_reducible refine keeps_fun ?_))
@[simp] theorem freshX_keeps :
    Keeps (freshX : X Nat) := by
  unfold freshX
  repeat' (first | (simp +contextual [*]; done) | (with_reducible refine keeps_fun ?_))
@[simp] theorem forX_keeps {α : Type} (f : α → X Unit) (x2 : List α) (hf : ∀ v0, Keeps (f v0)) :
    Keeps (forX f x2 : X Unit) := by
  fun_induction forX <;> repeat' (first | (simp +contextual [*]; done) | (with_reducible refine keeps_bind ?_ ?_))
@[simp] theorem mapX_keeps {α : Type} {β : Type} (f : α → X β) (x3 : List α) (hf : ∀ v0, Keeps (f v0)) :
    Keeps (mapX f x3 : X (List β)) := by
  fun_induction mapX <;> repeat' (first | (simp +contextual [*]; done) | (with_reducible refine keeps_bind ?_ ?_) | (with_reducible intro _))

end Sys2Proof.Laws
end

