-- ==== Sys2Proof/Laws/KeepErrors.lean ====
section
/-! SUPPORT. Every operation of Machine/Errors.lean keeps the memory canonical. -/
namespace Sys2Proof.Laws
open Sys2Proof.Machine

@[simp] theorem State_markPending_keeps (s : State) (u : HwUnit) (hs : Good s.mem.cells) :
    Good (State.markPending s u).mem.cells := by
  unfold State.markPending
  repeat' (first | (simp (maxDischargeDepth := 99) +contextual [*]; done) | (rename_i e; replace e := ok_good e (by clear e; simp (maxDischargeDepth := 99) +contextual [*]) (by clear e; simp (maxDischargeDepth := 99) +contextual [*])) | (rename_i e; replace e := error_good e (by clear e; simp (maxDischargeDepth := 99) +contextual [*]) (by clear e; simp (maxDischargeDepth := 99) +contextual [*])) | (rename_i e; replace e := some_good e (by clear e; simp (maxDischargeDepth := 99) +contextual [*])) | (rename_i e; replace e := next_good e (by clear e; simp (maxDischargeDepth := 99) +contextual [*])) | (rename_i e; replace e := some_good1 e (by clear e; simp (maxDischargeDepth := 99) +contextual [*])) | (rename_i e; replace e := fst_good e (by clear e; simp (maxDischargeDepth := 99) +contextual [*])) | (rename_i e; replace e := snd_good e (by clear e; simp (maxDischargeDepth := 99) +contextual [*])) | (with_reducible refine keeps_get_bind ?_) | (with_reducible refine keeps_bind ?_ ?_) | (with_reducible intro _)  | (with_reducible refine forX_keeps _ _ ?_) | (with_reducible refine mapX_keeps _ _ ?_) | (with_reducible refine attempt_keeps _ _ ?_ ?_) | (with_reducible refine onCtl_keeps _ _ ?_ ?_) | (with_reducible refine applyX_keeps _ _ ?_ ?_) | (with_reducible refine runWord_keeps _ _ _ _ ?_ ?_) | (with_reducible refine onceVal_keeps _ ?_) | (with_reducible refine onceX_keeps _ ?_) | (with_reducible refine onceLate_keeps _ ?_) | (with_reducible refine runXgN_keeps _ _ _ _ _ ?_ ?_) | (with_reducible refine runXg_keeps _ _ _ _ ?_ ?_) | (with_reducible refine tryUnit_keeps _ _ ?_) | (with_reducible refine onUnit_keeps _ _ _ _ ?_) | (with_reducible refine holding_keeps _ _ ?_) | (with_reducible refine rayX_keeps _ _ ?_) | (with_reducible refine runK_keeps _ _ _ ?_ ?_) | (with_reducible refine after_keeps _ _ ?_ ?_) | (with_reducible refine issueItem_keeps _ _ _ _ _ ?_ ?_) | (with_reducible refine issueItems_keeps _ _ _ _ _ ?_ ?_) | (with_reducible refine issueLane_keeps _ _ _ ?_ ?_) | (with_reducible refine State_ctlWrite_keeps _ _ _ _ ?_ ?_) | (with_reducible refine State_ctxCmd_keeps _ _ _ _ ?_ ?_) | (with_reducible refine State_throughArena_keeps _ _ _ _ _ ?_ ?_) | (with_reducible refine State_stackReq_keeps _ _ _ _ _ _ ?_ ?_) | (with_reducible refine State_rootReq_keeps _ _ _ _ _ _ _ ?_ ?_) | (with_reducible refine issueAct_keeps _ _ _ ?_ ?_) | (with_reducible refine doAct_keeps _ _ _ ?_ ?_) | (with_reducible refine State_defaultAct_keeps _ _ ?_ ?_) | (with_reducible refine polled_keeps _ ?_) | (with_reducible refine stepWith_keeps _ _ ?_ ?_) | (with_reducible refine keeps_modify ?_) | (with_reducible refine keeps_set ?_) | (with_reducible refine State_modLane_keeps _ _ _ ?_) | (with_reducible refine State_modThr_keeps _ _ _ ?_) | (with_reducible refine State_modCore_keeps _ _ _ ?_) | (with_reducible refine State_modLaunch_keeps _ _ _ ?_) | (with_reducible refine State_modGrp_keeps _ _ _ ?_) | (with_reducible refine State_modQuad_keeps _ _ _ ?_) | (with_reducible refine State_modArr_keeps _ _ _ ?_) | (with_reducible refine State_modCtx_keeps _ _ _ ?_) | (with_reducible refine good_foldl ?_ _ ?_) | (dsimp only) | split | (with_reducible refine keeps_fun ?_))
@[simp] theorem State_countErr_keeps (s : State) (u : HwUnit) (hs : Good s.mem.cells) :
    Good (State.countErr s u).mem.cells := by
  unfold State.countErr
  repeat' (first | (simp (maxDischargeDepth := 99) +contextual [*]; done) | (rename_i e; replace e := ok_good e (by clear e; simp (maxDischargeDepth := 99) +contextual [*]) (by clear e; simp (maxDischargeDepth := 99) +contextual [*])) | (rename_i e; replace e := error_good e (by clear e; simp (maxDischargeDepth := 99) +contextual [*]) (by clear e; simp (maxDischargeDepth := 99) +contextual [*])) | (rename_i e; replace e := some_good e (by clear e; simp (maxDischargeDepth := 99) +contextual [*])) | (rename_i e; replace e := next_good e (by clear e; simp (maxDischargeDepth := 99) +contextual [*])) | (rename_i e; replace e := some_good1 e (by clear e; simp (maxDischargeDepth := 99) +contextual [*])) | (rename_i e; replace e := fst_good e (by clear e; simp (maxDischargeDepth := 99) +contextual [*])) | (rename_i e; replace e := snd_good e (by clear e; simp (maxDischargeDepth := 99) +contextual [*])) | (with_reducible refine keeps_get_bind ?_) | (with_reducible refine keeps_bind ?_ ?_) | (with_reducible intro _)  | (with_reducible refine forX_keeps _ _ ?_) | (with_reducible refine mapX_keeps _ _ ?_) | (with_reducible refine attempt_keeps _ _ ?_ ?_) | (with_reducible refine onCtl_keeps _ _ ?_ ?_) | (with_reducible refine applyX_keeps _ _ ?_ ?_) | (with_reducible refine runWord_keeps _ _ _ _ ?_ ?_) | (with_reducible refine onceVal_keeps _ ?_) | (with_reducible refine onceX_keeps _ ?_) | (with_reducible refine onceLate_keeps _ ?_) | (with_reducible refine runXgN_keeps _ _ _ _ _ ?_ ?_) | (with_reducible refine runXg_keeps _ _ _ _ ?_ ?_) | (with_reducible refine tryUnit_keeps _ _ ?_) | (with_reducible refine onUnit_keeps _ _ _ _ ?_) | (with_reducible refine holding_keeps _ _ ?_) | (with_reducible refine rayX_keeps _ _ ?_) | (with_reducible refine runK_keeps _ _ _ ?_ ?_) | (with_reducible refine after_keeps _ _ ?_ ?_) | (with_reducible refine issueItem_keeps _ _ _ _ _ ?_ ?_) | (with_reducible refine issueItems_keeps _ _ _ _ _ ?_ ?_) | (with_reducible refine issueLane_keeps _ _ _ ?_ ?_) | (with_reducible refine State_ctlWrite_keeps _ _ _ _ ?_ ?_) | (with_reducible refine State_ctxCmd_keeps _ _ _ _ ?_ ?_) | (with_reducible refine State_throughArena_keeps _ _ _ _ _ ?_ ?_) | (with_reducible refine State_stackReq_keeps _ _ _ _ _ _ ?_ ?_) | (with_reducible refine State_rootReq_keeps _ _ _ _ _ _ _ ?_ ?_) | (with_reducible refine issueAct_keeps _ _ _ ?_ ?_) | (with_reducible refine doAct_keeps _ _ _ ?_ ?_) | (with_reducible refine State_defaultAct_keeps _ _ ?_ ?_) | (with_reducible refine polled_keeps _ ?_) | (with_reducible refine stepWith_keeps _ _ ?_ ?_) | (with_reducible refine keeps_modify ?_) | (with_reducible refine keeps_set ?_) | (with_reducible refine State_modLane_keeps _ _ _ ?_) | (with_reducible refine State_modThr_keeps _ _ _ ?_) | (with_reducible refine State_modCore_keeps _ _ _ ?_) | (with_reducible refine State_modLaunch_keeps _ _ _ ?_) | (with_reducible refine State_modGrp_keeps _ _ _ ?_) | (with_reducible refine State_modQuad_keeps _ _ _ ?_) | (with_reducible refine State_modArr_keeps _ _ _ ?_) | (with_reducible refine State_modCtx_keeps _ _ _ ?_) | (with_reducible refine good_foldl ?_ _ ?_) | (dsimp only) | split | (with_reducible refine keeps_fun ?_))
@[simp] theorem State_errReport_keeps (s : State) (stk : Nat) (kind : Nat) (tag : Nat) (mid : Nat) (addr : Nat) (sym : Nat) (hs : Good s.mem.cells) :
    Good (State.errReport s stk kind tag mid addr sym).mem.cells := by
  unfold State.errReport
  repeat' (first | (simp (maxDischargeDepth := 99) +contextual [*]; done) | (rename_i e; replace e := ok_good e (by clear e; simp (maxDischargeDepth := 99) +contextual [*]) (by clear e; simp (maxDischargeDepth := 99) +contextual [*])) | (rename_i e; replace e := error_good e (by clear e; simp (maxDischargeDepth := 99) +contextual [*]) (by clear e; simp (maxDischargeDepth := 99) +contextual [*])) | (rename_i e; replace e := some_good e (by clear e; simp (maxDischargeDepth := 99) +contextual [*])) | (rename_i e; replace e := next_good e (by clear e; simp (maxDischargeDepth := 99) +contextual [*])) | (rename_i e; replace e := some_good1 e (by clear e; simp (maxDischargeDepth := 99) +contextual [*])) | (rename_i e; replace e := fst_good e (by clear e; simp (maxDischargeDepth := 99) +contextual [*])) | (rename_i e; replace e := snd_good e (by clear e; simp (maxDischargeDepth := 99) +contextual [*])) | (with_reducible refine keeps_get_bind ?_) | (with_reducible refine keeps_bind ?_ ?_) | (with_reducible intro _)  | (with_reducible refine forX_keeps _ _ ?_) | (with_reducible refine mapX_keeps _ _ ?_) | (with_reducible refine attempt_keeps _ _ ?_ ?_) | (with_reducible refine onCtl_keeps _ _ ?_ ?_) | (with_reducible refine applyX_keeps _ _ ?_ ?_) | (with_reducible refine runWord_keeps _ _ _ _ ?_ ?_) | (with_reducible refine onceVal_keeps _ ?_) | (with_reducible refine onceX_keeps _ ?_) | (with_reducible refine onceLate_keeps _ ?_) | (with_reducible refine runXgN_keeps _ _ _ _ _ ?_ ?_) | (with_reducible refine runXg_keeps _ _ _ _ ?_ ?_) | (with_reducible refine tryUnit_keeps _ _ ?_) | (with_reducible refine onUnit_keeps _ _ _ _ ?_) | (with_reducible refine holding_keeps _ _ ?_) | (with_reducible refine rayX_keeps _ _ ?_) | (with_reducible refine runK_keeps _ _ _ ?_ ?_) | (with_reducible refine after_keeps _ _ ?_ ?_) | (with_reducible refine issueItem_keeps _ _ _ _ _ ?_ ?_) | (with_reducible refine issueItems_keeps _ _ _ _ _ ?_ ?_) | (with_reducible refine issueLane_keeps _ _ _ ?_ ?_) | (with_reducible refine State_ctlWrite_keeps _ _ _ _ ?_ ?_) | (with_reducible refine State_ctxCmd_keeps _ _ _ _ ?_ ?_) | (with_reducible refine State_throughArena_keeps _ _ _ _ _ ?_ ?_) | (with_reducible refine State_stackReq_keeps _ _ _ _ _ _ ?_ ?_) | (with_reducible refine State_rootReq_keeps _ _ _ _ _ _ _ ?_ ?_) | (with_reducible refine issueAct_keeps _ _ _ ?_ ?_) | (with_reducible refine doAct_keeps _ _ _ ?_ ?_) | (with_reducible refine State_defaultAct_keeps _ _ ?_ ?_) | (with_reducible refine polled_keeps _ ?_) | (with_reducible refine stepWith_keeps _ _ ?_ ?_) | (with_reducible refine keeps_modify ?_) | (with_reducible refine keeps_set ?_) | (with_reducible refine State_modLane_keeps _ _ _ ?_) | (with_reducible refine State_modThr_keeps _ _ _ ?_) | (with_reducible refine State_modCore_keeps _ _ _ ?_) | (with_reducible refine State_modLaunch_keeps _ _ _ ?_) | (with_reducible refine State_modGrp_keeps _ _ _ ?_) | (with_reducible refine State_modQuad_keeps _ _ _ ?_) | (with_reducible refine State_modArr_keeps _ _ _ ?_) | (with_reducible refine State_modCtx_keeps _ _ _ ?_) | (with_reducible refine good_foldl ?_ _ ?_) | (dsimp only) | split | (with_reducible refine keeps_fun ?_))
@[simp] theorem State_meetLine_keeps (s : State) (mid : Nat) (tag : Nat) (la : Nat) (hs : Good s.mem.cells) :
    Good (State.meetLine s mid tag la).mem.cells := by
  unfold State.meetLine
  repeat' (first | (simp (maxDischargeDepth := 99) +contextual [*]; done) | (rename_i e; replace e := ok_good e (by clear e; simp (maxDischargeDepth := 99) +contextual [*]) (by clear e; simp (maxDischargeDepth := 99) +contextual [*])) | (rename_i e; replace e := error_good e (by clear e; simp (maxDischargeDepth := 99) +contextual [*]) (by clear e; simp (maxDischargeDepth := 99) +contextual [*])) | (rename_i e; replace e := some_good e (by clear e; simp (maxDischargeDepth := 99) +contextual [*])) | (rename_i e; replace e := next_good e (by clear e; simp (maxDischargeDepth := 99) +contextual [*])) | (rename_i e; replace e := some_good1 e (by clear e; simp (maxDischargeDepth := 99) +contextual [*])) | (rename_i e; replace e := fst_good e (by clear e; simp (maxDischargeDepth := 99) +contextual [*])) | (rename_i e; replace e := snd_good e (by clear e; simp (maxDischargeDepth := 99) +contextual [*])) | (with_reducible refine keeps_get_bind ?_) | (with_reducible refine keeps_bind ?_ ?_) | (with_reducible intro _)  | (with_reducible refine forX_keeps _ _ ?_) | (with_reducible refine mapX_keeps _ _ ?_) | (with_reducible refine attempt_keeps _ _ ?_ ?_) | (with_reducible refine onCtl_keeps _ _ ?_ ?_) | (with_reducible refine applyX_keeps _ _ ?_ ?_) | (with_reducible refine runWord_keeps _ _ _ _ ?_ ?_) | (with_reducible refine onceVal_keeps _ ?_) | (with_reducible refine onceX_keeps _ ?_) | (with_reducible refine onceLate_keeps _ ?_) | (with_reducible refine runXgN_keeps _ _ _ _ _ ?_ ?_) | (with_reducible refine runXg_keeps _ _ _ _ ?_ ?_) | (with_reducible refine tryUnit_keeps _ _ ?_) | (with_reducible refine onUnit_keeps _ _ _ _ ?_) | (with_reducible refine holding_keeps _ _ ?_) | (with_reducible refine rayX_keeps _ _ ?_) | (with_reducible refine runK_keeps _ _ _ ?_ ?_) | (with_reducible refine after_keeps _ _ ?_ ?_) | (with_reducible refine issueItem_keeps _ _ _ _ _ ?_ ?_) | (with_reducible refine issueItems_keeps _ _ _ _ _ ?_ ?_) | (with_reducible refine issueLane_keeps _ _ _ ?_ ?_) | (with_reducible refine State_ctlWrite_keeps _ _ _ _ ?_ ?_) | (with_reducible refine State_ctxCmd_keeps _ _ _ _ ?_ ?_) | (with_reducible refine State_throughArena_keeps _ _ _ _ _ ?_ ?_) | (with_reducible refine State_stackReq_keeps _ _ _ _ _ _ ?_ ?_) | (with_reducible refine State_rootReq_keeps _ _ _ _ _ _ _ ?_ ?_) | (with_reducible refine issueAct_keeps _ _ _ ?_ ?_) | (with_reducible refine doAct_keeps _ _ _ ?_ ?_) | (with_reducible refine State_defaultAct_keeps _ _ ?_ ?_) | (with_reducible refine polled_keeps _ ?_) | (with_reducible refine stepWith_keeps _ _ ?_ ?_) | (with_reducible refine keeps_modify ?_) | (with_reducible refine keeps_set ?_) | (with_reducible refine State_modLane_keeps _ _ _ ?_) | (with_reducible refine State_modThr_keeps _ _ _ ?_) | (with_reducible refine State_modCore_keeps _ _ _ ?_) | (with_reducible refine State_modLaunch_keeps _ _ _ ?_) | (with_reducible refine State_modGrp_keeps _ _ _ ?_) | (with_reducible refine State_modQuad_keeps _ _ _ ?_) | (with_reducible refine State_modArr_keeps _ _ _ ?_) | (with_reducible refine State_modCtx_keeps _ _ _ ?_) | (with_reducible refine good_foldl ?_ _ ?_) | (dsimp only) | split | (with_reducible refine keeps_fun ?_))

end Sys2Proof.Laws
end

