-- ==== Sys2Proof/Laws/KeepMem.lean ====
section
/-! SUPPORT. Every operation of Machine/Mem.lean keeps the memory canonical. -/
namespace Sys2Proof.Laws
open Sys2Proof.Machine

@[simp] theorem State_machineCheck_keeps (s : State) (kind : Nat) (mid : Nat) (ctx : Nat) (info : Nat) (hs : Good s.mem.cells) :
    Good (State.machineCheck s kind mid ctx info).mem.cells := by
  unfold State.machineCheck
  simp +contextual [*]
@[simp] theorem State_packageReset_keeps (s : State) : Good (State.packageReset s).mem.cells := good_reset
@[simp] theorem State_freezeLines_keeps (s : State) (mid : Nat) (hs : Good s.mem.cells) :
    Good (State.freezeLines s mid).mem.cells := by
  unfold State.freezeLines
  simp [*]
@[simp] theorem State_freezeMaster_keeps (s : State) (mid : Nat) (hs : Good s.mem.cells) :
    Good (State.freezeMaster s mid).mem.cells := by
  unfold State.freezeMaster
  simp [*]
@[simp] theorem State_refuse_keeps (s : State) (mid : Nat) (tgt : Nat) (cls : ReqClass) (addr : Nat) (why : Nat) (entry : Nat) (hs : Good s.mem.cells) :
    Good (State.refuse s mid tgt cls addr why entry).mem.cells := by
  unfold State.refuse
  simp (maxDischargeDepth := 99) +contextual [*]
@[simp] theorem allow_keeps (who : Who) (tgt : Nat) (cls : ReqClass) (addr : Nat) :
    Keeps (allow who tgt cls addr : X Unit) := by
  unfold allow
  repeat' (first | (simp [*]; done) | (with_reducible intro _) | split | (with_reducible refine keeps_fun ?_))
@[simp] theorem State_beyondAt_keeps (s : State) (mid : Nat) (pa : Nat) (hs : Good s.mem.cells) :
    Good (State.beyondAt s mid pa).mem.cells := by
  unfold State.beyondAt
  simp [*]
@[simp] theorem walk_keeps (who : Who) (va : Nat) (x2 : Nat) (x3 : List Nat) (x4 : State) (hx4 : Good x4.mem.cells) :
    Good (walk who va x2 x3 x4).1.mem.cells := by
  fun_induction walk <;> simp_all (maxDischargeDepth := 99) +contextual +zetaDelta
@[simp] theorem applyDeny_keeps (s : State) (x1 : Exc) (hs : Good s.mem.cells) :
    Good (applyDeny s x1).mem.cells := by
  unfold applyDeny
  repeat' (first | (simp [*]; done) | split)
@[simp] theorem translate_keeps (who : Who) (cls : ReqClass) (va : Nat) :
    Keeps (Machine.translate who cls va : X (Nat × Nat × Nat × Nat)) := by
  unfold Machine.translate
  repeat' (first | (simp [*]; done) | (rename_i e; replace e := fst_good e (by clear e; simp [*])) | (with_reducible intro _) | (dsimp only) | split | (with_reducible refine keeps_fun ?_))
@[simp] theorem freeBytes_keeps (x0 : Nat) :
    Keeps (freeBytes x0 : X Nat) := by
  fun_induction freeBytes <;> repeat' (first | (simp +contextual [*]; done) | (with_reducible refine keeps_bind ?_ ?_) | (with_reducible intro _))
@[simp] theorem reach_keeps (who : Who) (cls : ReqClass) (pa : Nat) (ca : Nat) :
    Keeps (reach who cls pa ca : X Unit) := by
  unfold reach
  repeat' (first | (simp [*]; done) | (with_reducible refine keeps_bind ?_ ?_) | (with_reducible intro _))
@[simp] theorem meetX_keeps (who : Who) (la : Nat) :
    Keeps (meetX who la : X Unit) := by
  unfold meetX
  repeat' (first | (simp [*]; done) | (with_reducible refine keeps_bind ?_ ?_) | (with_reducible intro _) | (with_reducible refine keeps_modify ?_) | split)
@[simp] theorem beyondX_keeps (who : Who) (pa : Nat) :
    Keeps (beyondX who pa : X Unit) := by
  unfold beyondX
  simp +contextual [*]
@[simp] theorem homeRead_keeps (who : Who) (cls : ReqClass) (pa : Nat) (ca : Nat) (key : Nat) (n : Nat) :
    Keeps (homeRead who cls pa ca key n : X (Nat × Bool)) := by
  unfold homeRead
  repeat' (first | (simp [*]; done) | (with_reducible refine keeps_bind ?_ ?_) | (with_reducible intro _) | split)
@[simp] theorem homeWrite_keeps (who : Who) (cls : ReqClass) (pa : Nat) (ca : Nat) (key : Nat) (n : Nat) (v : Nat) :
    Keeps (homeWrite who cls pa ca key n v : X Unit) := by
  unfold homeWrite
  repeat' (first | (simp (maxDischargeDepth := 99) +contextual [*]; done) | (with_reducible refine keeps_bind ?_ ?_) | (with_reducible intro _))
@[simp] theorem waitOwned_keeps (pa : Nat) :
    Keeps (waitOwned pa : X Unit) := by
  unfold waitOwned
  repeat' (first | (simp +contextual [*]; done) | (with_reducible refine keeps_get_bind ?_))
@[simp] theorem State_drainReport_keeps (s : State) (core : Nat) (l : WLine) (hs : Good s.mem.cells) :
    Good (State.drainReport s core l).mem.cells := by
  unfold State.drainReport
  simp [*]
@[simp] theorem State_drainIf_keeps (s : State) (core : Nat) (p : WLine → Bool) (hs : Good s.mem.cells) :
    Good (State.drainIf s core p).mem.cells := by
  unfold State.drainIf
  simp (maxDischargeDepth := 99) +contextual [*]
@[simp] theorem State_drainCore_keeps (s : State) (core : Nat) (hs : Good s.mem.cells) :
    Good (State.drainCore s core).mem.cells := by
  unfold State.drainCore
  simp +contextual [*]
@[simp] theorem State_invalidate_keeps (s : State) (core : Nat) (ctx : Nat) (hs : Good s.mem.cells) :
    Good (State.invalidate s core ctx).mem.cells := by
  unfold State.invalidate
  simp +contextual [*]
@[simp] theorem State_recall_keeps (s : State) (la : Nat) (hs : Good s.mem.cells) :
    Good (State.recall s la).mem.cells := by
  unfold State.recall
  simp (maxDischargeDepth := 99) +contextual [*]
@[simp] theorem State_keepL1_keeps (s : State) (core : Nat) (put : Nat → Core → Core) (hs : Good s.mem.cells) :
    Good (State.keepL1 s core put).mem.cells := by
  unfold State.keepL1
  repeat' (first | (simp [*]; done) | split)
@[simp] theorem State_keepLine_keeps (s : State) (core : Nat) (ctx : Nat) (la : Nat) (d : Nat) (hs : Good s.mem.cells) :
    Good (State.keepLine s core ctx la d).mem.cells := by
  unfold State.keepLine
  simp [*]
@[simp] theorem State_dropGrans_keeps (s : State) (core : Nat) (gs : List Nat) (hs : Good s.mem.cells) :
    Good (State.dropGrans s core gs).mem.cells := by
  unfold State.dropGrans
  simp [*]
@[simp] theorem State_underKey_keeps (s : State) (core : Nat) (ctx : Nat) (la : Nat) (key : Nat) (hs : Good s.mem.cells) :
    Good (State.underKey s core ctx la key).mem.cells := by
  unfold State.underKey
  simp (maxDischargeDepth := 99) +contextual [*]
@[simp] theorem loadV_keeps (who : Who) (cls : ReqClass) (va : Nat) (n : Nat) :
    Keeps (loadV who cls va n : X (Nat × Bool)) := by
  unfold loadV
  repeat' (first | (simp [*]; done) | (with_reducible refine keeps_bind ?_ ?_) | (with_reducible intro _) | (with_reducible refine keeps_modify ?_) | (dsimp only) | split)
@[simp] theorem storeV_keeps (who : Who) (va : Nat) (n : Nat) (v : Nat) :
    Keeps (storeV who va n v : X Unit) := by
  unfold storeV
  repeat' (first | (simp [*]; done) | (with_reducible refine keeps_get_bind ?_) | (with_reducible refine keeps_bind ?_ ?_) | (with_reducible intro _) | (with_reducible refine keeps_modify ?_) | (with_reducible refine keeps_set ?_) | split)
@[simp] theorem atomV_keeps (who : Who) (va : Nat) (n : Nat) (f : Nat → Nat) :
    Keeps (atomV who va n f : X (Nat × Bool)) := by
  unfold atomV
  repeat' (first | (simp [*]; done) | (with_reducible refine keeps_get_bind ?_) | (with_reducible refine keeps_bind ?_ ?_) | (with_reducible intro _) | (with_reducible refine keeps_modify ?_) | split)
@[simp] theorem readLines_keeps (who : Who) (cls : ReqClass) (va : Nat) (x3 : Nat) (x4 : Nat) :
    Keeps (readLines who cls va x3 x4 : X (Nat × Bool)) := by
  fun_induction readLines <;> repeat' (first | (simp +contextual [*]; done) | (with_reducible refine keeps_bind ?_ ?_) | (with_reducible intro _))
@[simp] theorem writeLines_keeps (who : Who) (va : Nat) (x2 : Nat) (x3 : Nat) (x4 : Nat) :
    Keeps (writeLines who va x2 x3 x4 : X Unit) := by
  fun_induction writeLines <;> repeat' (first | (simp +contextual [*]; done) | (with_reducible refine keeps_bind ?_ ?_) | (with_reducible intro _))

end Sys2Proof.Laws
end

