-- ==== Sys2Proof/Laws/KeepThread.lean ====
section
/-! SUPPORT. Every operation of Machine/Thread.lean keeps the memory canonical. -/
namespace Sys2Proof.Laws
open Sys2Proof.Machine

@[simp] theorem State_dropRings_keeps (s : State) (launch : Nat) (core : Nat) (rid : Nat) (hs : Good s.mem.cells) :
    Good (State.dropRings s launch core rid).mem.cells := by
  unfold State.dropRings
  simp [*]
@[simp] theorem State_freed_keeps (s : State) (core : Nat) (key : Nat) (n : Nat) (hs : Good s.mem.cells) :
    Good (State.freed s core key n).mem.cells := by
  unfold State.freed
  simp [*]
@[simp] theorem State_took_keeps (s : State) (core : Nat) (key : Nat) (left : Nat) (lk : Nat × Nat × Nat) (hs : Good s.mem.cells) :
    Good (State.took s core key left lk).mem.cells := by
  unfold State.took
  simp [*]
@[simp] theorem State_endRes_keeps (s : State) (rid : Nat) (hs : Good s.mem.cells) :
    Good (State.endRes s rid).mem.cells := by
  unfold State.endRes
  repeat' (first | (simp (maxDischargeDepth := 99) +contextual [*]; done) | split)
@[simp] theorem State_checkRes_keeps (s : State) (rid : Nat) (hs : Good s.mem.cells) :
    Good (State.checkRes s rid).mem.cells := by
  unfold State.checkRes
  repeat' (first | (simp [*]; done) | split)
@[simp] theorem State_leaveBars_keeps (s : State) (t : Nat) (hs : Good s.mem.cells) :
    Good (State.leaveBars s t).mem.cells := by
  unfold State.leaveBars
  simp [*]
@[simp] theorem State_leaveSeat_keeps (s : State) (t : Nat) (hs : Good s.mem.cells) :
    Good (State.leaveSeat s t).mem.cells := by
  unfold State.leaveSeat
  repeat' (first | (simp (maxDischargeDepth := 99) +contextual [*]; done) | split)
@[simp] theorem State_leaveGrp_keeps (s : State) (t : Nat) (hs : Good s.mem.cells) :
    Good (State.leaveGrp s t).mem.cells := by
  unfold State.leaveGrp
  repeat' (first | (simp [*]; done) | split)
@[simp] theorem State_publish_keeps (s : State) (t : Nat) (hs : Good s.mem.cells) :
    Good (State.publish s t).mem.cells := by
  unfold State.publish
  repeat' (first | (simp (maxDischargeDepth := 99) +contextual [*]; done) | split)
@[simp] theorem State_sealBin_keeps (s : State) (core : Nat) (bin : Nat) (hs : Good s.mem.cells) :
    Good (State.sealBin s core bin).mem.cells := by
  unfold State.sealBin
  simp [*]
@[simp] theorem State_file_keeps (s : State) (core : Nat) (k : BinKind) (launch : Nat) (key : Nat) (target : Nat) (e : BinEnt) (hs : Good s.mem.cells) :
    OptGood (State.file s core k launch key target e) := by
  unfold State.file
  repeat' (first | (simp (maxDischargeDepth := 99) +contextual [*]; done) | (dsimp only) | split)
@[simp] theorem State_makeRoom_keeps (s : State) (core : Nat) (hs : Good s.mem.cells) :
    Good (State.makeRoom s core).mem.cells := by
  unfold State.makeRoom
  repeat' (first | (simp [*]; done) | (dsimp only) | split)
@[simp] theorem State_fileCont_keeps (s : State) (lane : Nat) (t : Nat) (hs : Good s.mem.cells) :
    Good (State.fileCont s lane t).mem.cells := by
  unfold State.fileCont
  repeat' (first | (simp [*]; done) | (rename_i e; replace e := some_good e (by clear e; simp [*])) | (dsimp only) | split)
@[simp] theorem State_retryConts_keeps (s : State) (hs : Good s.mem.cells) :
    Good (State.retryConts s).mem.cells := by
  unfold State.retryConts
  repeat' (first | (simp [*]; done) | (with_reducible intro _) | (with_reducible refine good_foldl ?_ _ ?_) | split)
@[simp] theorem State_freeStack_keeps (s : State) (th : Thr) (hs : Good s.mem.cells) :
    Good (State.freeStack s th).mem.cells := by
  unfold State.freeStack
  simp [*]
@[simp] theorem State_endThr_keeps (s : State) (lane : Nat) (x2 : Nat) (x3 : Nat) (hs : Good s.mem.cells) :
    Good (State.endThr s lane x2 x3).mem.cells := by
  induction x2 generalizing s x3 with
  | zero => exact hs
  | succ f ih =>
    unfold State.endThr
    split
    · exact hs
    · dsimp only
      have h : ∀ (o : Option Nat) (u : State), Good u.mem.cells →
          Good (match o with | some r => u.checkRes r | none => u).mem.cells := by
        intro o u hu; cases o <;> simp (maxDischargeDepth := 99) [hu]
      refine h _ _ ?_
      split
      · simp (maxDischargeDepth := 99) [hs]
      split
      · simp (maxDischargeDepth := 99) [hs]
      split
      · split
        · split
          · exact ih _ _ (by simp (maxDischargeDepth := 99) [hs])
          all_goals simp (maxDischargeDepth := 99) [hs]
        · simp (maxDischargeDepth := 99) [hs]
      · simp (maxDischargeDepth := 99) [hs]
@[simp] theorem State_endThread_keeps (s : State) (lane : Nat) (t : Nat) (hs : Good s.mem.cells) :
    Good (State.endThread s lane t).mem.cells := by
  unfold State.endThread
  simp [*]
@[simp] theorem State_endAt_keeps (s : State) (lane : Nat) (t : Nat) (hs : Good s.mem.cells) :
    Good (State.endAt s lane t).mem.cells := by
  unfold State.endAt
  simp (maxDischargeDepth := 99) +contextual [*]
@[simp] theorem State_park_keeps (s : State) (lane : Nat) (t : Nat) (exit : Bool) (hs : Good s.mem.cells) :
    Good (State.park s lane t exit).mem.cells := by
  unfold State.park
  simp (maxDischargeDepth := 99) +contextual [*]
@[simp] theorem State_tookLane_keeps (s : State) (lane : Nat) (lk : Nat × Nat × Nat) (hs : Good s.mem.cells) :
    Good (State.tookLane s lane lk).mem.cells := by
  unfold State.tookLane
  simp [*]
@[simp] theorem State_seat_keeps (s : State) (lane : Nat) (g : Nat) (x3 : Nat) (x4 : List Nat) (hs : Good s.mem.cells) :
    Good (State.seat s lane g x3 x4).mem.cells := by
  fun_induction State.seat <;> simp_all (maxDischargeDepth := 99) +contextual +zetaDelta
@[simp] theorem State_place_keeps (s : State) (launch : Option Nat) (ctx : Nat) (res : Nat) (lane : Nat) (no : Word) (role : Nat) (ts : List Nat) (hs : Good s.mem.cells) :
    Good (State.place s launch ctx res lane no role ts).2.mem.cells := by
  unfold State.place
  simp (maxDischargeDepth := 99) +contextual [*]
@[simp] theorem State_modCur_keeps (s : State) (f : Thr → Thr) (hs : Good s.mem.cells) :
    Good (State.modCur s f).mem.cells := by
  unfold State.modCur
  simp [*]
@[simp] theorem State_modRun_keeps (s : State) (f : Run → Run) (hs : Good s.mem.cells) :
    Good (State.modRun s f).mem.cells := by
  unfold State.modRun
  simp [*]

end Sys2Proof.Laws
end

