-- ==== Sys2Proof/Laws/KeepLaunch.lean ====
section
/-! SUPPORT. Every operation of Machine/Launch.lean keeps the memory canonical. -/
namespace Sys2Proof.Laws
open Sys2Proof.Machine

@[simp] theorem attempt_keeps {α : Type} (x : X α) (s : State) (hx : Keeps x) (hs : Good s.mem.cells) :
    Good (attempt x s).1.mem.cells := by
  unfold attempt
  repeat' (first | (simp [*]; done) | (rename_i e; replace e := ok_good e (by clear e; simp [*]) (by clear e; simp [*])) | (rename_i e; replace e := error_good e (by clear e; simp [*]) (by clear e; simp [*])) | split)
@[simp] theorem freeLine_keeps (who : Who) (va : Nat) (s : State) (hs : Good s.mem.cells) :
    Good (freeLine who va s).1.mem.cells := by
  unfold freeLine
  repeat' (first | (simp [*]; done) | (rename_i e; replace e := ok_good e (by clear e; simp [*]) (by clear e; simp [*])) | (rename_i e; replace e := error_good e (by clear e; simp [*]) (by clear e; simp [*])) | (dsimp only) | split)
@[simp] theorem feRead_keeps (who : Who) (va f n : Nat) (s : State) (hs : Good s.mem.cells) :
    Good (feRead who va f n s).1.mem.cells := by
  induction f generalizing va n s with
  | zero => exact hs
  | succ f ih =>
    unfold feRead
    dsimp only
    split
    · exact hs
    split
    · rename_i e; exact applyDeny_keeps _ _ (error_good e (by simp) hs)
    · rename_i e
      have h := ok_good e (by simp) hs
      split
      · exact h
      split <;> (rename_i e2; exact fst_good e2 (ih _ _ _ h))
@[simp] theorem feWrite_keeps (who : Who) (va : Nat) (n : Nat) (v : Nat) (s : State) (hs : Good s.mem.cells) :
    Good (feWrite who va n v s).1.mem.cells := by
  unfold feWrite
  repeat' (first | (simp [*]; done) | (rename_i e; replace e := ok_good e (by clear e; simp [*]) (by clear e; simp [*])) | (rename_i e; replace e := error_good e (by clear e; simp [*]) (by clear e; simp [*])) | split)
@[simp] theorem putRecord_keeps (who : Who) (flta : Nat) (ws : List Nat) (s : State) (hs : Good s.mem.cells) :
    Good (putRecord who flta ws s).1.mem.cells := by
  unfold putRecord
  repeat' (first | (simp [*]; done) | (rename_i e; replace e := fst_good e (by clear e; simp [*])) | (dsimp only) | split)
@[simp] theorem State_asyncRecord_keeps (s : State) (who : Who) (flta : Nat) (ws : List Nat) (hs : Good s.mem.cells) :
    Good (State.asyncRecord s who flta ws).1.mem.cells := by
  unfold State.asyncRecord
  repeat' (first | (simp [*]; done) | (rename_i e; replace e := fst_good e (by clear e; simp [*])) | split)
@[simp] theorem State_launchRecord_keeps (s : State) (ctx : Nat) (cause : Nat) (slot : Nat) (addr : Nat) (w0 : Nat) (hs : Good s.mem.cells) :
    Good (State.launchRecord s ctx cause slot addr w0).1.mem.cells := by
  unfold State.launchRecord
  simp [*]
@[simp] theorem State_writeCompl_keeps (s : State) (l : Launch) (n : Nat) (v : Nat) (hs : Good s.mem.cells) :
    Good (State.writeCompl s l n v).mem.cells := by
  unfold State.writeCompl
  repeat' (first | (simp [*]; done) | (rename_i e; replace e := fst_good e (by clear e; simp [*])) | split)
@[simp] theorem State_writeStatus_keeps (s : State) (l : Launch) (st : Nat) (hs : Good s.mem.cells) :
    Good (State.writeStatus s l st).mem.cells := by
  unfold State.writeStatus
  simp [*]
@[simp] theorem State_writeFinal_keeps (s : State) (l : Launch) (st : Nat) (hs : Good s.mem.cells) :
    Good (State.writeFinal s l st).mem.cells := by
  unfold State.writeFinal
  simp [*]
@[simp] theorem State_closeBatch_keeps (s : State) (b : Batch) (hs : Good s.mem.cells) :
    Good (State.closeBatch s b).mem.cells := by
  unfold State.closeBatch
  simp (maxDischargeDepth := 99) +contextual [*]
@[simp] theorem State_closeBatches_keeps (s : State) (l : Nat) (hs : Good s.mem.cells) :
    Good (State.closeBatches s l).mem.cells := by
  unfold State.closeBatches
  simp (maxDischargeDepth := 99) +contextual [*]
@[simp] theorem State_modDeps_keeps (s : State) (f : Dep → Dep) (hs : Good s.mem.cells) :
    Good (State.modDeps s f).mem.cells := by
  unfold State.modDeps
  simp [*]
@[simp] theorem State_complete_keeps (s : State) (l : Nat) (st : Nat) (hs : Good s.mem.cells) :
    Good (State.complete s l st).mem.cells := by
  unfold State.complete
  repeat' (first | (simp (maxDischargeDepth := 99) +contextual [*]; done) | (dsimp only) | split)
@[simp] theorem State_fireTrigger_keeps (s : State) (l : Nat) (hs : Good s.mem.cells) :
    Good (State.fireTrigger s l).mem.cells := by
  unfold State.fireTrigger
  repeat' (first | (simp (maxDischargeDepth := 99) +contextual [*]; done) | split)
@[simp] theorem State_launchFault_keeps (s : State) (l : Option Nat) (rec_ : Option Nat) (hs : Good s.mem.cells) :
    Good (State.launchFault s l rec_).mem.cells := by
  unfold State.launchFault
  repeat' (first | (simp [*]; done) | split)
@[simp] theorem State_freedGrp_keeps (s : State) (g : Grp) (hs : Good s.mem.cells) :
    Good (State.freedGrp s g).mem.cells := by
  unfold State.freedGrp
  simp (maxDischargeDepth := 99) +contextual [*]
@[simp] theorem State_clearThreads_keeps (s : State) (c : Nat) (hs : Good s.mem.cells) :
    Good (State.clearThreads s c).mem.cells := by
  unfold State.clearThreads
  simp (maxDischargeDepth := 99) +contextual [*]
@[simp] theorem State_modCreg_keeps (s : State) (quad : Nat) (c : Nat) (f : Creg → Creg) (hs : Good s.mem.cells) :
    Good (State.modCreg s quad c f).mem.cells := by
  unfold State.modCreg
  simp [*]
@[simp] theorem State_clearEngines_keeps (s : State) (c : Nat) (hs : Good s.mem.cells) :
    Good (State.clearEngines s c).mem.cells := by
  unfold State.clearEngines
  simp [*]
@[simp] theorem State_trimMsrv_keeps (s : State) (hs : Good s.mem.cells) :
    Good (State.trimMsrv s).mem.cells := by
  unfold State.trimMsrv
  simp [*]
@[simp] theorem State_endPending_keeps (s : State) (c : Nat) (hs : Good s.mem.cells) :
    Good (State.endPending s c).mem.cells := by
  unfold State.endPending
  repeat' (first | (simp [*]; done) | (with_reducible intro _) | (with_reducible refine good_foldl ?_ _ ?_) | split)
@[simp] theorem State_destroyCtx_keeps (s : State) (c : Nat) (dbl : Option (Nat × Option Nat)) (hs : Good s.mem.cells) :
    Good (State.destroyCtx s c dbl).mem.cells := by
  unfold State.destroyCtx
  repeat' (first | (simp (maxDischargeDepth := 99) +contextual [*]; done) | split)

end Sys2Proof.Laws
end

