-- ==== Sys2Proof/Laws/KeepSave.lean ====
section
/-! SUPPORT. Every operation of Machine/Save.lean keeps the memory canonical. -/
namespace Sys2Proof.Laws
open Sys2Proof.Machine

@[simp] theorem State_newRes_keeps (s : State) (lid : Nat) (core : Nat) (l : Launch) (hs : Good s.mem.cells) :
    Good (State.newRes s lid core l).2.mem.cells := by
  unfold State.newRes
  simp (maxDischargeDepth := 99) +contextual [*]
@[simp] theorem State_saveRes_keeps (s : State) (rid : Nat) (hs : Good s.mem.cells) :
    Good (State.saveRes s rid).mem.cells := by
  unfold State.saveRes
  repeat' (first | (simp (maxDischargeDepth := 99) +contextual [*]; done) | split)
@[simp] theorem State_reseat_keeps (s : State) (lane : Nat) (x2 : List Nat) (hs : Good s.mem.cells) :
    Good (State.reseat s lane x2).mem.cells := by
  fun_induction State.reseat <;> simp_all (maxDischargeDepth := 99) +contextual +zetaDelta
@[simp] theorem State_restoreRes_keeps (s : State) (rid : Nat) (hs : Good s.mem.cells) :
    Good (State.restoreRes s rid).mem.cells := by
  unfold State.restoreRes
  repeat' (first | (simp (maxDischargeDepth := 99) +contextual [*]; done) | split)
@[simp] theorem State_reserveRoom_keeps (s : State) (ctx : Nat) (id : Nat) (n : Nat) (hs : Good s.mem.cells) :
    Good (State.reserveRoom s ctx id n).mem.cells := by
  unfold State.reserveRoom
  simp [*]
@[simp] theorem writeArena_keeps (who : Who) (x1 : List Nat) (x2 : State) (hx2 : Good x2.mem.cells) :
    Good (writeArena who x1 x2).1.mem.cells := by
  fun_induction writeArena with
  | case1 => exact hx2
  | case2 _ _ _ _ e ih => exact ih (fst_good e (freeLine_keeps _ _ _ hx2))
  | case3 => exact freeLine_keeps _ _ _ hx2
@[simp] theorem readArena_keeps (who : Who) (x1 : List Nat) (x2 : State) (hx2 : Good x2.mem.cells) :
    Good (readArena who x1 x2).1.mem.cells := by
  induction x1 generalizing x2 with
  | nil => exact hx2
  | cons va r ih =>
    unfold readArena
    split
    · rename_i e
      have h := ok_good e (by simp) hx2
      split
      · exact h
      · exact ih _ h
    · rename_i e; exact applyDeny_keeps _ _ (error_good e (by simp) hx2)
@[simp] theorem State_outRoom_keeps (s : State) (ctx : Nat) (id : Nat) (x3 : Option Nat) (hs : Good s.mem.cells) :
    Good (State.outRoom s ctx id x3).mem.cells := by
  unfold State.outRoom
  repeat' (first | (simp [*]; done) | split)
@[simp] theorem State_spill_keeps (s : State) (who : Who) (ctx : Nat) (tile : Nat) (rid : Nat) (x5 : Nat) (hs : Good s.mem.cells) :
    Good (State.spill s who ctx tile rid x5).1.mem.cells := by
  fun_induction State.spill with
  | case1 => exact hs
  | case2 => exact hs
  | case3 => exact hs
  | case4 _ _ _ _ _ _ _ _ _ _ e ih =>
    exact ih (State_modCtx_keeps _ _ _ (fst_good e (writeArena_keeps _ _ _ (State_outRoom_keeps _ _ _ _ hs))))
  | case5 => exact writeArena_keeps _ _ _ (State_outRoom_keeps _ _ _ _ hs)
@[simp] theorem State_makeWay_keeps (s : State) (core : Nat) (ctx : Nat) (id : Nat) (hs : Good s.mem.cells) :
    Good (State.makeWay s core ctx id).mem.cells := by
  exact State_spill_keeps _ _ _ _ _ _ (State_modCtx_keeps _ _ _ hs)

end Sys2Proof.Laws
end

