-- ==== Sys2Proof/Laws/KeepLocal.lean ====
section
/-! SUPPORT. Every operation of Machine/Local.lean keeps the memory canonical. -/
namespace Sys2Proof.Laws
open Sys2Proof.Machine

@[simp] theorem Store_write_keeps (s : State) (a : Nat) (n : Nat) (v : Nat) (x4 : Store) (hs : Good s.mem.cells) :
    Good (Store.write s a n v x4).mem.cells := by
  unfold Store.write
  repeat' (first | (simp [*]; done) | split)
@[simp] theorem Store_poison_keeps (s : State) (a n : Nat) (x : Store) (hs : Good s.mem.cells) :
    Good (Store.poison s a n x).mem.cells := by cases x <;> simp [Store.poison, hs]
@[simp] theorem ringOf_keeps (quad : Nat) (k : Nat) (launch : Option Nat) (addr : Nat) :
    Keeps (ringOf quad k launch addr : X Ring) := by
  unfold ringOf
  repeat' (first | (simp [*]; done) | (with_reducible refine keeps_get_bind ?_))
@[simp] theorem ringPlace_keeps (quad : Nat) (launch : Option Nat) (va : Nat) (n : Nat) :
    Keeps (ringPlace quad launch va n : X Place) := by
  unfold ringPlace
  repeat' (first | (simp [*]; done) | (with_reducible refine keeps_bind ?_ ?_) | (with_reducible intro _) | (dsimp only) | split)
@[simp] theorem locPlace_keeps (rid : Nat) (off : Nat) (n : Nat) (addr : Nat) :
    Keeps (locPlace rid off n addr : X Place) := by
  unfold locPlace
  repeat' (first | (simp [*]; done) | (with_reducible refine keeps_get_bind ?_) | (with_reducible intro _) | split)
@[simp] theorem State_amOut_keeps (s : State) (arr : Nat) (n : Nat) (hs : Good s.mem.cells) :
    Good (State.amOut s arr n).mem.cells := by
  unfold State.amOut
  repeat' (first | (simp [*]; done) | split)
@[simp] theorem State_amIn_keeps (s : State) (arr : Nat) (ctx : Nat) (n : Nat) (hs : Good s.mem.cells) :
    Good (State.amIn s arr ctx n).mem.cells := by
  unfold State.amIn
  repeat' (first | (simp [*]; done) | (rename_i e; replace e := fst_good e (by clear e; simp [*])) | split)
@[simp] theorem State_amOwn_keeps (s : State) (arr : Nat) (ctx : Nat) (hs : Good s.mem.cells) :
    Good (State.amOwn s arr ctx).mem.cells := by
  unfold State.amOwn
  simp (maxDischargeDepth := 99) +contextual [*]
@[simp] theorem amPlace_keeps (quad : Nat) (ctx : Nat) (off : Nat) (n : Nat) (addr : Nat) :
    Keeps (amPlace quad ctx off n addr : X Place) := by
  unfold amPlace
  repeat' (first | (simp [*]; done) | (with_reducible refine keeps_get_bind ?_) | (with_reducible refine keeps_bind ?_ ?_) | (with_reducible intro _) | split)
@[simp] theorem frmPlace_keeps (th : Thr) (off : Nat) (n : Nat) :
    Keeps (frmPlace th off n : X Place) := by
  unfold frmPlace
  repeat' (first | (simp [*]; done) | (with_reducible refine keeps_get_bind ?_) | (dsimp only) | split)
@[simp] theorem curPlace_keeps (sp : Space) (va : Nat) (n : Nat) :
    Keeps (curPlace sp va n : X Place) := by
  unfold curPlace
  repeat' (first | (simp [*]; done) | (with_reducible refine keeps_get_bind ?_) | split)
@[simp] theorem waitScore_keeps (p : Place) (n : Nat) (load : Bool) :
    Keeps (waitScore p n load : X Unit) := by
  unfold waitScore
  repeat' (first | (simp [*]; done) | (with_reducible refine keeps_get_bind ?_) | split)
@[simp] theorem crossBridge_keeps (who : Who) (arr : Nat) (cls : ReqClass) (addr : Nat) :
    Keeps (crossBridge who arr cls addr : X Unit) := by
  unfold crossBridge
  repeat' (first | (simp [*]; done) | (with_reducible refine keeps_bind ?_ ?_) | (with_reducible intro _))
@[simp] theorem allowMarrow_keeps (who : Who) (cls : ReqClass) (p : Place) :
    Keeps (allowMarrow who cls p : X Unit) := by
  unfold allowMarrow
  repeat' (first | (simp [*]; done) | split)
@[simp] theorem alignX_keeps (va : Nat) (n : Nat) :
    Keeps (alignX va n : X Unit) := by
  unfold alignX
  simp [*]
@[simp] theorem checkAccess_keeps (sp : Space) (va : Nat) (n : Nat) :
    Keeps (checkAccess sp va n : X Unit) := by
  unfold checkAccess
  repeat' (first | (simp [*]; done) | (with_reducible refine keeps_get_bind ?_) | split)
@[simp] theorem spaceLoad_keeps (sp : Space) (va : Nat) (n : Nat) :
    Keeps (spaceLoad sp va n : X (Nat × Bool)) := by
  unfold spaceLoad
  repeat' (first | (simp [*]; done) | (with_reducible refine keeps_bind ?_ ?_) | (with_reducible intro _) | split)
@[simp] theorem spaceStore_keeps (sp : Space) (va : Nat) (n : Nat) (v : Nat) :
    Keeps (spaceStore sp va n v : X Unit) := by
  unfold spaceStore
  repeat' (first | (simp [*]; done) | (with_reducible refine keeps_bind ?_ ?_) | (with_reducible intro _) | (with_reducible refine keeps_modify ?_) | split)
@[simp] theorem spaceAtom_keeps (sp : Space) (va : Nat) (n : Nat) (f : Nat → Nat) :
    Keeps (spaceAtom sp va n f : X (Nat × Bool)) := by
  unfold spaceAtom
  repeat' (first | (simp [*]; done) | (with_reducible refine keeps_get_bind ?_) | (with_reducible refine keeps_bind ?_ ?_) | (with_reducible intro _) | split)
@[simp] theorem loadElem_keeps (r : BitVec 256) (a : Int) :
    Keeps (loadElem r a : X (Nat × Bool)) := by
  unfold loadElem
  simp [*]
@[simp] theorem needClean_keeps (addr : Nat) (v : Nat × Bool) :
    Keeps (needClean addr v : X Nat) := by
  unfold needClean
  simp [*]
@[simp] theorem streamElem_keeps (recs : AL (BitVec 256)) (r : BitVec 256) (tid : Nat) (i : Nat) :
    Keeps (streamElem recs r tid i : X Nat) := by
  unfold streamElem
  repeat' (first | (simp [*]; done) | (with_reducible refine keeps_bind ?_ ?_) | (with_reducible intro _) | (dsimp only) | split)
@[simp] theorem popHead_keeps (k : Nat) :
    Keeps (popHead k : X DWord) := by
  unfold popHead
  repeat' (first | (simp [*]; done) | (with_reducible refine keeps_bind ?_ ?_) | (with_reducible intro _) | (with_reducible refine keeps_modify ?_) | split)

end Sys2Proof.Laws
end

