-- ==== Sys2Proof/Laws/KeepOps.lean ====
section
/-! SUPPORT. Every operation of Machine/Ops.lean keeps the memory canonical. -/
namespace Sys2Proof.Laws
open Sys2Proof.Machine

@[simp] theorem State_abandon_keeps (s : State) (t : Nat) (hs : Good s.mem.cells) :
    Good (State.abandon s t).mem.cells := by
  unfold State.abandon
  repeat' (first | (simp [*]; done) | (dsimp only) | split)
@[simp] theorem State_latentRec_keeps (s : State) (kind : Nat) (ctx : Nat) (die : Nat) (core : Nat) (slot : Nat) (reg : Nat) (gran : Nat) (word : Nat) (hs : Good s.mem.cells) :
    Good (State.latentRec s kind ctx die core slot reg gran word).mem.cells := by
  unfold State.latentRec
  simp [*]
@[simp] theorem State_latentReg_keeps (s : State) (ctx : Nat) (lane : Nat) (slot : Nat) (reg : Nat) (rg : List Nat) (hs : Good s.mem.cells) :
    Good (State.latentReg s ctx lane slot reg rg).mem.cells := by
  unfold State.latentReg
  simp (maxDischargeDepth := 99) +contextual [*]
@[simp] theorem State_tellRegs_keeps (s : State) (lane : Nat) (t : Nat) (hs : Good s.mem.cells) :
    Good (State.tellRegs s lane t).mem.cells := by
  unfold State.tellRegs
  repeat' (first | (simp [*]; done) | (with_reducible intro _) | (with_reducible refine State_modThr_keeps _ _ _ ?_) | (with_reducible refine good_foldl ?_ _ ?_) | split)
@[simp] theorem State_rootReport_keeps (s : State) (core : Nat) (hs : Good s.mem.cells) :
    Good (State.rootReport s core).mem.cells := by
  unfold State.rootReport
  simp [*]
@[simp] theorem State_stopRoot_keeps (s : State) (t : Nat) (core : Nat) (st : RootSt) (cls : Nat) (pc : Nat) (hs : Good s.mem.cells) :
    Good (State.stopRoot s t core st cls pc).mem.cells := by
  unfold State.stopRoot
  simp (maxDischargeDepth := 99) +contextual [*]
@[simp] theorem State_endOrPark_keeps (s : State) (lane : Nat) (t : Nat) (hs : Good s.mem.cells) :
    Good (State.endOrPark s lane t).mem.cells := by
  unfold State.endOrPark
  repeat' (first | (simp (maxDischargeDepth := 99) +contextual [*]; done) | split)
@[simp] theorem State_notice_keeps (s : State) (core : Nat) (ctx : Nat) (idx : Nat) (hs : Good s.mem.cells) :
    Good (State.notice s core ctx idx).mem.cells := by
  unfold State.notice
  simp [*]
@[simp] theorem State_endDouble_keeps (s : State) (core : Nat) (hs : Good s.mem.cells) :
    Good (State.endDouble s core).mem.cells := by
  unfold State.endDouble
  simp (maxDischargeDepth := 99) +contextual [*]
@[simp] theorem State_doubleFault_keeps (s : State) (core : Nat) (ctx : Nat) (l : Option Nat) (recVa : Nat) (hs : Good s.mem.cells) :
    Good (State.doubleFault s core ctx l recVa).mem.cells := by
  unfold State.doubleFault
  simp (maxDischargeDepth := 99) +contextual [*]
@[simp] theorem State_terminate_keeps (s : State) (lane : Nat) (t : Nat) (recVa : Option Nat) (hs : Good s.mem.cells) :
    Good (State.terminate s lane t recVa).mem.cells := by
  unfold State.terminate
  repeat' (first | (simp [*]; done) | split)
@[simp] theorem State_handTo_keeps (s : State) (t : Nat) (core : Nat) (ctx : Nat) (recVa : Nat) (trapv : Nat) (hs : Good s.mem.cells) :
    Good (State.handTo s t core ctx recVa trapv).mem.cells := by
  unfold State.handTo
  simp [*]
@[simp] theorem State_settleFault_keeps (s : State) (t : Nat) (fseq : Nat) (f : FaultInfo) (pc : Nat) (resume : Nat) (hs : Good s.mem.cells) :
    Good (State.settleFault s t fseq f pc resume).mem.cells := by
  unfold State.settleFault
  repeat' (first | (simp (maxDischargeDepth := 99) +contextual [*]; done) | (rename_i e; replace e := fst_good e (by clear e; simp (maxDischargeDepth := 99) +contextual [*])) | (dsimp only) | split)
@[simp] theorem State_giveGroup_keeps (s : State) (x1 : List Nat) (hs : Good s.mem.cells) :
    Good (State.giveGroup s x1).mem.cells := by
  fun_induction State.giveGroup <;> simp_all (maxDischargeDepth := 99) +contextual +zetaDelta
@[simp] theorem State_giveFaults_keeps (s : State) (core : Nat) (hs : Good s.mem.cells) :
    Good (State.giveFaults s core).mem.cells := by
  unfold State.giveFaults
  simp (maxDischargeDepth := 99) +contextual [*]
@[simp] theorem State_runOver_keeps (s : State) (lane : Nat) (g : Nat) (hs : Good s.mem.cells) :
    Good (State.runOver s lane g).mem.cells := by
  unfold State.runOver
  repeat' (first | (simp [*]; done) | (with_reducible refine State_modGrp_keeps _ _ _ ?_) | (dsimp only) | split)
@[simp] theorem State_settle_keeps (s : State) (lane : Nat) (hs : Good s.mem.cells) :
    Good (State.settle s lane).mem.cells := by
  unfold State.settle
  repeat' (first | (simp [*]; done) | split)
@[simp] theorem State_takeFaultAt_keeps (s : State) (t : Nat) (f : FaultInfo) (rpc : Nat) (hs : Good s.mem.cells) :
    Good (State.takeFaultAt s t f rpc).mem.cells := by
  unfold State.takeFaultAt
  repeat' (first | (simp (maxDischargeDepth := 99) +contextual [*]; done) | split)
@[simp] theorem State_takeFault_keeps (s : State) (t : Nat) (f : FaultInfo) (hs : Good s.mem.cells) :
    Good (State.takeFault s t f).mem.cells := by
  unfold State.takeFault
  simp [*]
@[simp] theorem State_takeDeny_keeps (s : State) (t : Nat) (e : Exc) (hs : Good s.mem.cells) :
    Good (State.takeDeny s t e).mem.cells := by
  unfold State.takeDeny
  repeat' (first | (simp (maxDischargeDepth := 99) +contextual [*]; done) | split)
@[simp] theorem onCtl_keeps {α : Type} (other x : X α) (hother : Keeps other) (hx : Keeps x) :
    Keeps (onCtl other x : X α) := by
  intro s hs
  have h := hx s hs
  show ResGood (match x s with
    | .error (.deny mid tgt cls addr why e) s' =>
      if isCtl s.curCore then other (applyDeny s' (.deny mid tgt cls addr why e)) else .error (.deny mid tgt cls addr why e) s'
    | r => r)
  split
  · rename_i e
    rw [e] at h
    split
    · exact hother _ (applyDeny_keeps _ _ h)
    · exact h
  · exact h
@[simp] theorem recWord_keeps (va : Nat) :
    Keeps (recWord va : X Nat) := by
  unfold recWord
  repeat' (first | (simp [*]; done) | (with_reducible refine keeps_bind ?_ ?_) | (with_reducible intro _))
@[simp] theorem iretRead_keeps (va : Nat) :
    Keeps (iretRead va : X (Nat × Nat × Nat)) := by
  unfold iretRead
  repeat' (first | (simp [*]; done) | (with_reducible refine keeps_bind ?_ ?_) | (with_reducible intro _))
@[simp] theorem pushEnt_keeps (e : QEnt) :
    Keeps (pushEnt e : X Unit) := by
  unfold pushEnt
  simp +contextual [*]
@[simp] theorem push64_keeps (v : DWord) :
    Keeps (push64 v : X Unit) := by
  unfold push64
  simp [*]
@[simp] theorem push32_keeps (v : Word) :
    Keeps (push32 v : X Unit) := by
  unfold push32
  simp [*]
@[simp] theorem pushNot_keeps (x0 : Nat) :
    Keeps (pushNot x0 : X Unit) := by
  fun_induction pushNot <;> repeat' (first | (simp_all (maxDischargeDepth := 99) +contextual +zetaDelta; done) | (with_reducible refine keeps_bind ?_ ?_))
@[simp] theorem raiseFlags_keeps (f : Word) :
    Keeps (raiseFlags f : X Unit) := by
  unfold raiseFlags
  simp (maxDischargeDepth := 99) +contextual [*]
@[simp] theorem drawSR_keeps (rm : RM) :
    Keeps (drawSR rm : X Nat) := by
  unfold drawSR
  repeat' (first | (simp [*]; done) | (with_reducible refine keeps_bind ?_ ?_) | (with_reducible intro _) | (with_reducible refine keeps_modify ?_) | split)
@[simp] theorem applyX_keeps (x : X Unit) (s : State) (hx : Keeps x) (hs : Good s.mem.cells) :
    Good (applyX x s).mem.cells := by
  unfold applyX
  repeat' (first | (simp [*]; done) | (rename_i e; replace e := ok_good e (by clear e; simp [*]) (by clear e; simp [*])) | (rename_i e; replace e := error_good e (by clear e; simp [*]) (by clear e; simp [*])) | split)
@[simp] theorem pushFree_keeps (x0 : Nat) :
    Keeps (pushFree x0 : X Unit) := by
  fun_induction pushFree <;> repeat' (first | (simp_all (maxDischargeDepth := 99) +contextual +zetaDelta; done) | (with_reducible refine keeps_bind ?_ ?_) | (with_reducible intro _))
@[simp] theorem runWord_keeps (g : Guard) (n : Nat) (x : X Unit) (s : State) (hx : Keeps x) (hs : Good s.mem.cells) :
    OutGood (runWord g n x s) := by
  unfold runWord
  simp (maxDischargeDepth := 99) +contextual [*]

end Sys2Proof.Laws
end

