-- ==== Sys2Proof/Laws/KeepOperands.lean ====
section
/-! SUPPORT. Every operation of Machine/Operands.lean keeps the memory canonical. -/
namespace Sys2Proof.Laws
open Sys2Proof.Machine

@[simp] theorem readReg_keeps (i : Nat) :
    Keeps (readReg i : X Word) := by
  unfold readReg
  repeat' (first | (simp [*]; done) | (with_reducible refine keeps_bind ?_ ?_) | (with_reducible intro _) | (with_reducible refine keeps_modify ?_) | (dsimp only) | split)
@[simp] theorem readQ_keeps (k : Nat) :
    Keeps (readQ k : X DWord) := by
  unfold readQ
  repeat' (first | (simp [*]; done) | (with_reducible refine keeps_get_bind ?_) | (with_reducible intro _) | split)
@[simp] theorem readLit_keeps :
    Keeps (readLit : X Word) := by
  unfold readLit
  repeat' (first | (simp [*]; done) | (with_reducible refine keeps_get_bind ?_) | (with_reducible refine keeps_bind ?_ ?_) | (with_reducible intro _) | split)
@[simp] theorem src32_keeps (x0 : Src) :
    Keeps (src32 x0 : X Word) := by
  unfold src32
  repeat' (first | (simp [*]; done) | (with_reducible refine keeps_bind ?_ ?_) | split)
@[simp] theorem src64_keeps (x0 : Src) :
    Keeps (src64 x0 : X DWord) := by
  unfold src64
  repeat' (first | (simp [*]; done) | (with_reducible refine keeps_bind ?_ ?_) | (with_reducible intro _) | split)
@[simp] theorem srcI_keeps (i : Nat) (x : Src) :
    Keeps (srcI i x : X Word) := by
  unfold srcI
  repeat' (first | (simp [*]; done) | (with_reducible refine keeps_bind ?_ ?_) | (with_reducible intro _) | split)
@[simp] theorem srcF_keeps (i : Nat) (x : Src) :
    Keeps (srcF i x : X Word) := by
  unfold srcF
  repeat' (first | (simp [*]; done) | (with_reducible refine keeps_bind ?_ ?_) | (with_reducible intro _) | (dsimp only) | split)
@[simp] theorem srcN_keeps (w64 : Bool) (i : Nat) (x : Src) :
    Keeps (srcN w64 i x : X Nat) := by
  unfold srcN
  repeat' (first | (simp [*]; done) | (with_reducible refine keeps_bind ?_ ?_) | split)
@[simp] theorem pushN_keeps (w64 : Bool) (v : Nat) :
    Keeps (pushN w64 v : X Unit) := by
  unfold pushN
  simp [*]
@[simp] theorem pushNarrow_keeps (nd : NdP) (base : Word) (v : NVal) :
    Keeps (pushNarrow nd base v : X Unit) := by
  unfold pushNarrow
  repeat' (first | (simp [*]; done) | (with_reducible refine keeps_bind ?_ ?_) | (with_reducible intro _))
@[simp] theorem pushIntNd_keeps (exact : Int) (plain : Word) :
    Keeps (pushIntNd exact plain : X Unit) := by
  unfold pushIntNd
  repeat' (first | (simp [*]; done) | (with_reducible refine keeps_get_bind ?_) | (with_reducible intro _) | split)
@[simp] theorem pushFused_keeps (f : IFmt) (rm : RM) (ts : List (FV × FV)) :
    Keeps (pushFused f rm ts : X Unit) := by
  unfold pushFused
  repeat' (first | (simp [*]; done) | (with_reducible refine keeps_bind ?_ ?_) | (with_reducible intro _) | split)
@[simp] theorem readFwd_keeps (n : Nat) (k : Nat) :
    Keeps (readFwd n k : X Word) := by
  unfold readFwd
  repeat' (first | (simp [*]; done) | (with_reducible refine keeps_get_bind ?_) | (with_reducible intro _) | (dsimp only) | split)
@[simp] theorem pushArrival_keeps (kind : Nat) (vs : List DWord) (poison : Bool) (score : List (Nat × Nat)) :
    Keeps (pushArrival kind vs poison score : X Unit) := by
  unfold pushArrival
  repeat' (first | (simp [*]; done) | (with_reducible refine keeps_get_bind ?_) | (with_reducible refine keeps_bind ?_ ?_) | (with_reducible intro _))
@[simp] theorem pushLate_keeps (v : DWord) (poison : Bool) :
    Keeps (pushLate v poison : X Unit) := by
  unfold pushLate
  simp [*]
@[simp] theorem writePred_keeps (i : Nat) (b : Bool) :
    Keeps (writePred i b : X Unit) := by
  unfold writePred
  simp +contextual [*]
@[simp] theorem readPred_keeps (i : Nat) :
    Keeps (readPred i : X Bool) := by
  unfold readPred
  repeat' (first | (simp [*]; done) | (with_reducible refine keeps_get_bind ?_))
@[simp] theorem onceVal_keeps (x : X (List QEnt)) (hx : Keeps x) :
    Keeps (onceVal x : X (List QEnt)) := by
  unfold onceVal
  repeat' (first | (simp [*]; done) | (rename_i e; replace e := ok_good e (by clear e; simp [*]) (by clear e; simp [*])) | (rename_i e; replace e := error_good e (by clear e; simp [*]) (by clear e; simp [*])) | (with_reducible refine keeps_get_bind ?_) | (with_reducible intro _) | (dsimp only) | split | (with_reducible refine keeps_fun ?_))
@[simp] theorem onceX_keeps (x : X (List QEnt)) (hx : Keeps x) :
    Keeps (onceX x : X Unit) := by
  unfold onceX
  repeat' (first | (simp [*]; done) | (with_reducible refine keeps_bind ?_ ?_))
@[simp] theorem onceLate_keeps (x : X DWord) (hx : Keeps x) :
    Keeps (onceLate x : X Unit) := by
  unfold onceLate
  exact keeps_bind (onceVal_keeps _ (keeps_bind hx fun _ => by simp)) fun _ => by simp

end Sys2Proof.Laws
end

