-- ==== Sys2Proof/Laws/KeepInt.lean ====
section
/-! SUPPORT. Every operation of Machine/Int.lean keeps the memory canonical. -/
namespace Sys2Proof.Laws
open Sys2Proof.Machine

@[simp] theorem intBin_keeps (w : Bool) (a : Src) (b : Src) (f : Nat → Nat → Nat) :
    Keeps (intBin w a b f : X Unit) := by
  unfold intBin
  repeat' (first | (simp [*]; done) | (with_reducible refine keeps_bind ?_ ?_) | (with_reducible intro _))
@[simp] theorem intLate_keeps (w : Bool) (a : Src) (b : Src) (f : Nat → Nat → Nat) :
    Keeps (intLate w a b f : X Unit) := by
  unfold intLate
  repeat' (first | (simp [*]; done) | (with_reducible refine keeps_bind ?_ ?_) | (with_reducible intro _))
@[simp] theorem intUn_keeps (w : Bool) (a : Src) (f : Nat → Nat) :
    Keeps (intUn w a f : X Unit) := by
  unfold intUn
  repeat' (first | (simp [*]; done) | (with_reducible refine keeps_bind ?_ ?_))
@[simp] theorem intUn32_keeps (w : Bool) (a : Src) (f : Nat → Nat) :
    Keeps (intUn32 w a f : X Unit) := by
  unfold intUn32
  repeat' (first | (simp [*]; done) | (with_reducible refine keeps_bind ?_ ?_))
@[simp] theorem intShift_keeps (w : Bool) (a : Src) (b : Src) (f : Nat → Nat → Nat) :
    Keeps (intShift w a b f : X Unit) := by
  unfold intShift
  repeat' (first | (simp [*]; done) | (with_reducible refine keeps_bind ?_ ?_) | (with_reducible intro _))
@[simp] theorem intSat_keeps (w : Bool) (s : Bool) (u : Bool) (a : Src) (b : Src) (f : Int → Int → Int) :
    Keeps (intSat w s u a b f : X Unit) := by
  unfold intSat
  repeat' (first | (simp [*]; done) | (with_reducible refine keeps_bind ?_ ?_) | (with_reducible intro _))
@[simp] theorem intSat1_keeps (w : Bool) (s : Bool) (a : Src) (f : Int → Int) :
    Keeps (intSat1 w s a f : X Unit) := by
  unfold intSat1
  repeat' (first | (simp [*]; done) | (with_reducible refine keeps_bind ?_ ?_) | (with_reducible intro _))
@[simp] theorem int3_keeps (a : Src) (b : Src) (d : Src) (f : Nat → Nat → Nat → Nat) :
    Keeps (int3 a b d f : X Unit) := by
  unfold int3
  repeat' (first | (simp [*]; done) | (with_reducible refine keeps_bind ?_ ?_) | (with_reducible intro _))
@[simp] theorem intImm_keeps (a : Src) (i : BitVec 12) (f : Nat → Nat → Nat) :
    Keeps (intImm a i f : X Unit) := by
  unfold intImm
  repeat' (first | (simp [*]; done) | (with_reducible refine keeps_bind ?_ ?_))
@[simp] theorem execAdd_keeps (hd : Hd) (a : Src) (b : Src) (w : Bool) (s : Bool) (u : Bool) (st : State) (hst : Good st.mem.cells) :
    OutGood (execAdd hd a b w s u st) := by
  unfold execAdd
  simp [*]
@[simp] theorem execSub_keeps (hd : Hd) (a : Src) (b : Src) (w : Bool) (s : Bool) (u : Bool) (st : State) (hst : Good st.mem.cells) :
    OutGood (execSub hd a b w s u st) := by
  unfold execSub
  simp [*]
@[simp] theorem execMul_keeps (hd : Hd) (a : Src) (b : Src) (w : Bool) (v : Bool) (u : Bool) (st : State) (hst : Good st.mem.cells) :
    OutGood (execMul hd a b w v u st) := by
  unfold execMul
  repeat' (first | (simp [*]; done) | (with_reducible refine keeps_bind ?_ ?_) | (with_reducible intro _) | (with_reducible refine runWord_keeps _ _ _ _ ?_ ?_))
@[simp] theorem execMulh_keeps (hd : Hd) (a : Src) (b : Src) (w : Bool) (u : Bool) (st : State) (hst : Good st.mem.cells) :
    OutGood (execMulh hd a b w u st) := by
  unfold execMulh
  simp [*]
@[simp] theorem execDiv_keeps (hd : Hd) (a : Src) (b : Src) (w : Bool) (u : Bool) (st : State) (hst : Good st.mem.cells) :
    OutGood (execDiv hd a b w u st) := by
  unfold execDiv
  simp [*]
@[simp] theorem execRem_keeps (hd : Hd) (a : Src) (b : Src) (w : Bool) (u : Bool) (st : State) (hst : Good st.mem.cells) :
    OutGood (execRem hd a b w u st) := by
  unfold execRem
  simp [*]
@[simp] theorem execMin_keeps (hd : Hd) (a : Src) (b : Src) (w : Bool) (u : Bool) (st : State) (hst : Good st.mem.cells) :
    OutGood (execMin hd a b w u st) := by
  unfold execMin
  simp [*]
@[simp] theorem execMax_keeps (hd : Hd) (a : Src) (b : Src) (w : Bool) (u : Bool) (st : State) (hst : Good st.mem.cells) :
    OutGood (execMax hd a b w u st) := by
  unfold execMax
  simp [*]
@[simp] theorem execAbs_keeps (hd : Hd) (a : Src) (w : Bool) (s : Bool) (st : State) (hst : Good st.mem.cells) :
    OutGood (execAbs hd a w s st) := by
  unfold execAbs
  simp [*]
@[simp] theorem execNeg_keeps (hd : Hd) (a : Src) (w : Bool) (s : Bool) (st : State) (hst : Good st.mem.cells) :
    OutGood (execNeg hd a w s st) := by
  unfold execNeg
  simp [*]
@[simp] theorem execAnd_keeps (hd : Hd) (a : Src) (b : Src) (w : Bool) (st : State) (hst : Good st.mem.cells) :
    OutGood (execAnd hd a b w st) := by
  unfold execAnd
  simp [*]
@[simp] theorem execOr_keeps (hd : Hd) (a : Src) (b : Src) (w : Bool) (st : State) (hst : Good st.mem.cells) :
    OutGood (execOr hd a b w st) := by
  unfold execOr
  simp [*]
@[simp] theorem execXor_keeps (hd : Hd) (a : Src) (b : Src) (w : Bool) (st : State) (hst : Good st.mem.cells) :
    OutGood (execXor hd a b w st) := by
  unfold execXor
  simp [*]
@[simp] theorem execAndn_keeps (hd : Hd) (a : Src) (b : Src) (w : Bool) (st : State) (hst : Good st.mem.cells) :
    OutGood (execAndn hd a b w st) := by
  unfold execAndn
  simp [*]
@[simp] theorem execNot_keeps (hd : Hd) (a : Src) (w : Bool) (st : State) (hst : Good st.mem.cells) :
    OutGood (execNot hd a w st) := by
  unfold execNot
  simp [*]
@[simp] theorem execShl_keeps (hd : Hd) (a : Src) (b : Src) (w : Bool) (st : State) (hst : Good st.mem.cells) :
    OutGood (execShl hd a b w st) := by
  unfold execShl
  simp [*]
@[simp] theorem execShr_keeps (hd : Hd) (a : Src) (b : Src) (w : Bool) (st : State) (hst : Good st.mem.cells) :
    OutGood (execShr hd a b w st) := by
  unfold execShr
  simp [*]
@[simp] theorem execSar_keeps (hd : Hd) (a : Src) (b : Src) (w : Bool) (st : State) (hst : Good st.mem.cells) :
    OutGood (execSar hd a b w st) := by
  unfold execSar
  simp [*]
@[simp] theorem execRot_keeps (hd : Hd) (a : Src) (b : Src) (w : Bool) (st : State) (hst : Good st.mem.cells) :
    OutGood (execRot hd a b w st) := by
  unfold execRot
  simp [*]
@[simp] theorem execPopc_keeps (hd : Hd) (a : Src) (w : Bool) (st : State) (hst : Good st.mem.cells) :
    OutGood (execPopc hd a w st) := by
  unfold execPopc
  simp [*]
@[simp] theorem execClz_keeps (hd : Hd) (a : Src) (w : Bool) (st : State) (hst : Good st.mem.cells) :
    OutGood (execClz hd a w st) := by
  unfold execClz
  simp [*]
@[simp] theorem execCtz_keeps (hd : Hd) (a : Src) (w : Bool) (st : State) (hst : Good st.mem.cells) :
    OutGood (execCtz hd a w st) := by
  unfold execCtz
  simp [*]
@[simp] theorem execBrev_keeps (hd : Hd) (a : Src) (w : Bool) (st : State) (hst : Good st.mem.cells) :
    OutGood (execBrev hd a w st) := by
  unfold execBrev
  simp [*]
@[simp] theorem execMov_keeps (hd : Hd) (a : Src) (w : Bool) (st : State) (hst : Good st.mem.cells) :
    OutGood (execMov hd a w st) := by
  unfold execMov
  simp [*]
@[simp] theorem execSel_keeps (hd : Hd) (a : Src) (b : Src) (p : Fin 8) (st : State) (hst : Good st.mem.cells) :
    OutGood (execSel hd a b p st) := by
  unfold execSel
  repeat' (first | (simp [*]; done) | (with_reducible refine keeps_bind ?_ ?_) | (with_reducible intro _) | (with_reducible refine runWord_keeps _ _ _ _ ?_ ?_))
@[simp] theorem execSel64_keeps (hd : Hd) (a : Src) (b : Src) (p : Fin 8) (st : State) (hst : Good st.mem.cells) :
    OutGood (execSel64 hd a b p st) := by
  unfold execSel64
  repeat' (first | (simp [*]; done) | (with_reducible refine keeps_bind ?_ ?_) | (with_reducible intro _) | (with_reducible refine runWord_keeps _ _ _ _ ?_ ?_))
@[simp] theorem execBfx_keeps (hd : Hd) (a : Src) (b : Src) (x : Bool) (st : State) (hst : Good st.mem.cells) :
    OutGood (execBfx hd a b x st) := by
  unfold execBfx
  simp [*]
@[simp] theorem execDot4_keeps (hd : Hd) (a : Src) (b : Src) (u : Bool) (st : State) (hst : Good st.mem.cells) :
    OutGood (execDot4 hd a b u st) := by
  unfold execDot4
  simp [*]
@[simp] theorem execDotn_keeps (hd : Hd) (a : Src) (b : Src) (u : Bool) (st : State) (hst : Good st.mem.cells) :
    OutGood (execDotn hd a b u st) := by
  unfold execDotn
  simp [*]
@[simp] theorem execUnpackp_keeps (hd : Hd) (a : Src) (b : Src) (st : State) (hst : Good st.mem.cells) :
    OutGood (execUnpackp hd a b st) := by
  unfold execUnpackp
  repeat' (first | (simp [*]; done) | (with_reducible refine keeps_bind ?_ ?_) | (with_reducible intro _) | (with_reducible refine runWord_keeps _ _ _ _ ?_ ?_))
@[simp] theorem execMad_keeps (hd : Hd) (a : Src) (b : Src) (d : Src) (st : State) (hst : Good st.mem.cells) :
    OutGood (execMad hd a b d st) := by
  unfold execMad
  simp [*]
@[simp] theorem execMadw_keeps (hd : Hd) (a : Src) (b : Src) (d : Src) (st : State) (hst : Good st.mem.cells) :
    OutGood (execMadw hd a b d st) := by
  unfold execMadw
  repeat' (first | (simp [*]; done) | (with_reducible refine keeps_bind ?_ ?_) | (with_reducible intro _) | (with_reducible refine runWord_keeps _ _ _ _ ?_ ?_))
@[simp] theorem execAddc_keeps (hd : Hd) (a : Src) (b : Src) (d : Src) (st : State) (hst : Good st.mem.cells) :
    OutGood (execAddc hd a b d st) := by
  unfold execAddc
  repeat' (first | (simp [*]; done) | (with_reducible refine keeps_bind ?_ ?_) | (with_reducible intro _) | (with_reducible refine runWord_keeps _ _ _ _ ?_ ?_))
@[simp] theorem execSubb_keeps (hd : Hd) (a : Src) (b : Src) (d : Src) (st : State) (hst : Good st.mem.cells) :
    OutGood (execSubb hd a b d st) := by
  unfold execSubb
  repeat' (first | (simp [*]; done) | (with_reducible refine keeps_bind ?_ ?_) | (with_reducible intro _) | (with_reducible refine runWord_keeps _ _ _ _ ?_ ?_))
@[simp] theorem execShf_keeps (hd : Hd) (a : Src) (b : Src) (d : Src) (st : State) (hst : Good st.mem.cells) :
    OutGood (execShf hd a b d st) := by
  unfold execShf
  simp [*]
@[simp] theorem execBfi_keeps (hd : Hd) (a : Src) (b : Src) (d : Src) (st : State) (hst : Good st.mem.cells) :
    OutGood (execBfi hd a b d st) := by
  unfold execBfi
  simp [*]
@[simp] theorem execPerm_keeps (hd : Hd) (a : Src) (b : Src) (d : Src) (st : State) (hst : Good st.mem.cells) :
    OutGood (execPerm hd a b d st) := by
  unfold execPerm
  simp [*]
@[simp] theorem execLea_keeps (hd : Hd) (a : Src) (b : Src) (d : Src) (st : State) (hst : Good st.mem.cells) :
    OutGood (execLea hd a b d st) := by
  unfold execLea
  repeat' (first | (simp [*]; done) | (with_reducible refine keeps_bind ?_ ?_) | (with_reducible intro _) | (with_reducible refine runWord_keeps _ _ _ _ ?_ ?_))
@[simp] theorem execAddImm_keeps (hd : Hd) (a : Src) (i : BitVec 12) (st : State) (hst : Good st.mem.cells) :
    OutGood (execAddImm hd a i st) := by
  unfold execAddImm
  simp [*]
@[simp] theorem execAndImm_keeps (hd : Hd) (a : Src) (i : BitVec 12) (st : State) (hst : Good st.mem.cells) :
    OutGood (execAndImm hd a i st) := by
  unfold execAndImm
  simp [*]
@[simp] theorem execOrImm_keeps (hd : Hd) (a : Src) (i : BitVec 12) (st : State) (hst : Good st.mem.cells) :
    OutGood (execOrImm hd a i st) := by
  unfold execOrImm
  simp [*]
@[simp] theorem execXorImm_keeps (hd : Hd) (a : Src) (i : BitVec 12) (st : State) (hst : Good st.mem.cells) :
    OutGood (execXorImm hd a i st) := by
  unfold execXorImm
  simp [*]
@[simp] theorem execShlImm_keeps (hd : Hd) (a : Src) (i : BitVec 12) (st : State) (hst : Good st.mem.cells) :
    OutGood (execShlImm hd a i st) := by
  unfold execShlImm
  simp [*]
@[simp] theorem execShrImm_keeps (hd : Hd) (a : Src) (i : BitVec 12) (st : State) (hst : Good st.mem.cells) :
    OutGood (execShrImm hd a i st) := by
  unfold execShrImm
  simp [*]
@[simp] theorem execSarImm_keeps (hd : Hd) (a : Src) (i : BitVec 12) (st : State) (hst : Good st.mem.cells) :
    OutGood (execSarImm hd a i st) := by
  unfold execSarImm
  simp [*]
@[simp] theorem execMulImm_keeps (hd : Hd) (a : Src) (i : BitVec 12) (st : State) (hst : Good st.mem.cells) :
    OutGood (execMulImm hd a i st) := by
  unfold execMulImm
  simp [*]
@[simp] theorem putRel_keeps (p : Nat) (n : Bool) (t : Bool) :
    Keeps (putRel p n t : X Unit) := by
  unfold putRel
  repeat' (first | (simp [*]; done) | (with_reducible refine keeps_bind ?_ ?_))
@[simp] theorem execCmp_keeps (hd : Hd) (a : Src) (b : Src) (p : Fin 8) (r : Rel) (u : Bool) (w : Bool) (n : Bool) (st : State) (hst : Good st.mem.cells) :
    OutGood (execCmp hd a b p r u w n st) := by
  unfold execCmp
  repeat' (first | (simp [*]; done) | (with_reducible refine keeps_bind ?_ ?_) | (with_reducible intro _) | (with_reducible refine runWord_keeps _ _ _ _ ?_ ?_))
@[simp] theorem execPlop_keeps (hd : Hd) (x : Fin 8) (y : Fin 8) (p : Fin 8) (t : BitVec 8) (st : State) (hst : Good st.mem.cells) :
    OutGood (execPlop hd x y p t st) := by
  unfold execPlop
  repeat' (first | (simp [*]; done) | (with_reducible refine keeps_bind ?_ ?_) | (with_reducible intro _) | (with_reducible refine runWord_keeps _ _ _ _ ?_ ?_))
@[simp] theorem execPackp_keeps (hd : Hd) (st : State) (hst : Good st.mem.cells) :
    OutGood (execPackp hd st) := by
  unfold execPackp
  repeat' (first | (simp [*]; done) | (with_reducible refine keeps_get_bind ?_) | (with_reducible refine runWord_keeps _ _ _ _ ?_ ?_))

end Sys2Proof.Laws
end

