-- ==== Sys2Proof/Laws/KeepMemOps.lean ====
section
/-! SUPPORT. Every operation of Machine/MemOps.lean keeps the memory canonical. -/
namespace Sys2Proof.Laws
open Sys2Proof.Machine

@[simp] theorem addrOf_keeps (sp : Space) (a : Src) :
    Keeps (addrOf sp a : X Nat) := by
  unfold addrOf
  repeat' (first | (simp [*]; done) | (with_reducible refine keeps_bind ?_ ?_) | split)
@[simp] theorem addrOff_keeps (sp : Space) (a : Src) (b : Src) :
    Keeps (addrOff sp a b : X Nat) := by
  unfold addrOff
  repeat' (first | (simp [*]; done) | (with_reducible refine keeps_bind ?_ ?_) | (with_reducible intro _))
@[simp] theorem readQuad_keeps (b : Src) :
    Keeps (readQuad b : X Nat) := by
  unfold readQuad
  repeat' (first | (simp [*]; done) | (with_reducible refine keeps_bind ?_ ?_) | (with_reducible intro _) | split)
@[simp] theorem dataOf_keeps (w : Width) (b : Src) :
    Keeps (dataOf w b : X Nat) := by
  unfold dataOf
  repeat' (first | (simp [*]; done) | (with_reducible refine keeps_bind ?_ ?_) | split)
@[simp] theorem dataPair_keeps (w : Width) (b : Src) :
    Keeps (dataPair w b : X (Nat × Nat)) := by
  unfold dataPair
  repeat' (first | (simp [*]; done) | (with_reducible refine keeps_bind ?_ ?_) | split)
@[simp] theorem cstLoad_keeps (va : Nat) (n : Nat) :
    Keeps (cstLoad va n : X (Nat × Bool)) := by
  unfold cstLoad
  repeat' (first | (simp [*]; done) | (with_reducible refine keeps_bind ?_ ?_) | (with_reducible intro _) | (with_reducible refine keeps_modify ?_) | (dsimp only) | split)
@[simp] theorem loadWord_keeps (a : Src) (b : Src) (p : Space) (w : Width) (f : Nat → Nat) :
    Keeps (loadWord a b p w f : X Unit) := by
  unfold loadWord
  repeat' (first | (simp [*]; done) | (with_reducible refine keeps_bind ?_ ?_) | (with_reducible intro _) | split)
@[simp] theorem execLd_keeps (hd : Hd) (a : Src) (b : Src) (p : Space) (w : Width) (st : State) (hst : Good st.mem.cells) :
    OutGood (execLd hd a b p w st) := by
  unfold execLd
  simp [*]
@[simp] theorem execLdS_keeps (hd : Hd) (a : Src) (b : Src) (p : Space) (w : Width) (st : State) (hst : Good st.mem.cells) :
    OutGood (execLdS hd a b p w st) := by
  unfold execLdS
  simp [*]
@[simp] theorem execPref_keeps (hd : Hd) (a : Src) (_p : Space) (st : State) (hst : Good st.mem.cells) :
    OutGood (execPref hd a _p st) := by
  unfold execPref
  refine runWord_keeps _ _ _ _ ?_ hst
  refine keeps_bind (by simp) fun x => keeps_fun fun s h => ?_
  split
  · rename_i e; exact ok_good e (by simp) h
  · rename_i e; exact error_good e (by simp) h
  · rename_i e; exact error_good e (by simp) h
@[simp] theorem execCache_keeps (hd : Hd) (a : Src) (b : Src) (_p : Space) (st : State) (hst : Good st.mem.cells) :
    OutGood (execCache hd a b _p st) := by
  unfold execCache
  repeat' (first | (simp (maxDischargeDepth := 99) +contextual [*]; done) | (with_reducible refine keeps_bind ?_ ?_) | (with_reducible intro _) | (with_reducible refine runWord_keeps _ _ _ _ ?_ ?_))
@[simp] theorem execSt_keeps (hd : Hd) (a : Src) (b : Src) (p : Space) (w : Width) (st : State) (hst : Good st.mem.cells) :
    OutGood (execSt hd a b p w st) := by
  unfold execSt
  repeat' (first | (simp [*]; done) | (with_reducible refine keeps_bind ?_ ?_) | (with_reducible intro _) | (with_reducible refine runWord_keeps _ _ _ _ ?_ ?_))
@[simp] theorem atomWord_keeps (o : AtomOp) (a : Src) (b : Src) (p : Space) (w : Width) :
    Keeps (atomWord o a b p w : X Unit) := by
  unfold atomWord
  repeat' (first | (simp [*]; done) | (with_reducible refine keeps_bind ?_ ?_) | (with_reducible intro _))
@[simp] theorem redWord_keeps (o : AtomOp) (a : Src) (b : Src) (p : Space) (w : Width) :
    Keeps (redWord o a b p w : X Unit) := by
  unfold redWord
  repeat' (first | (simp [*]; done) | (with_reducible refine keeps_bind ?_ ?_) | (with_reducible intro _))
@[simp] theorem execAtomAdd_keeps (hd : Hd) (a : Src) (b : Src) (p : Space) (w : Width) (st : State) (hst : Good st.mem.cells) :
    OutGood (execAtomAdd hd a b p w st) := by
  unfold execAtomAdd
  simp [*]
@[simp] theorem execAtomFadd_keeps (hd : Hd) (a : Src) (b : Src) (p : Space) (w : Width) (st : State) (hst : Good st.mem.cells) :
    OutGood (execAtomFadd hd a b p w st) := by
  unfold execAtomFadd
  simp [*]
@[simp] theorem execAtomMin_keeps (hd : Hd) (a : Src) (b : Src) (p : Space) (w : Width) (st : State) (hst : Good st.mem.cells) :
    OutGood (execAtomMin hd a b p w st) := by
  unfold execAtomMin
  simp [*]
@[simp] theorem execAtomMax_keeps (hd : Hd) (a : Src) (b : Src) (p : Space) (w : Width) (st : State) (hst : Good st.mem.cells) :
    OutGood (execAtomMax hd a b p w st) := by
  unfold execAtomMax
  simp [*]
@[simp] theorem execAtomAnd_keeps (hd : Hd) (a : Src) (b : Src) (p : Space) (w : Width) (st : State) (hst : Good st.mem.cells) :
    OutGood (execAtomAnd hd a b p w st) := by
  unfold execAtomAnd
  simp [*]
@[simp] theorem execAtomOr_keeps (hd : Hd) (a : Src) (b : Src) (p : Space) (w : Width) (st : State) (hst : Good st.mem.cells) :
    OutGood (execAtomOr hd a b p w st) := by
  unfold execAtomOr
  simp [*]
@[simp] theorem execAtomXor_keeps (hd : Hd) (a : Src) (b : Src) (p : Space) (w : Width) (st : State) (hst : Good st.mem.cells) :
    OutGood (execAtomXor hd a b p w st) := by
  unfold execAtomXor
  simp [*]
@[simp] theorem execAtomSwap_keeps (hd : Hd) (a : Src) (b : Src) (p : Space) (w : Width) (st : State) (hst : Good st.mem.cells) :
    OutGood (execAtomSwap hd a b p w st) := by
  unfold execAtomSwap
  simp [*]
@[simp] theorem execRedAdd_keeps (hd : Hd) (a : Src) (b : Src) (p : Space) (w : Width) (st : State) (hst : Good st.mem.cells) :
    OutGood (execRedAdd hd a b p w st) := by
  unfold execRedAdd
  simp [*]
@[simp] theorem execRedFadd_keeps (hd : Hd) (a : Src) (b : Src) (p : Space) (w : Width) (st : State) (hst : Good st.mem.cells) :
    OutGood (execRedFadd hd a b p w st) := by
  unfold execRedFadd
  simp [*]
@[simp] theorem execRedMin_keeps (hd : Hd) (a : Src) (b : Src) (p : Space) (w : Width) (st : State) (hst : Good st.mem.cells) :
    OutGood (execRedMin hd a b p w st) := by
  unfold execRedMin
  simp [*]
@[simp] theorem execRedMax_keeps (hd : Hd) (a : Src) (b : Src) (p : Space) (w : Width) (st : State) (hst : Good st.mem.cells) :
    OutGood (execRedMax hd a b p w st) := by
  unfold execRedMax
  simp [*]
@[simp] theorem execRedAnd_keeps (hd : Hd) (a : Src) (b : Src) (p : Space) (w : Width) (st : State) (hst : Good st.mem.cells) :
    OutGood (execRedAnd hd a b p w st) := by
  unfold execRedAnd
  simp [*]
@[simp] theorem execRedOr_keeps (hd : Hd) (a : Src) (b : Src) (p : Space) (w : Width) (st : State) (hst : Good st.mem.cells) :
    OutGood (execRedOr hd a b p w st) := by
  unfold execRedOr
  simp [*]
@[simp] theorem execRedXor_keeps (hd : Hd) (a : Src) (b : Src) (p : Space) (w : Width) (st : State) (hst : Good st.mem.cells) :
    OutGood (execRedXor hd a b p w st) := by
  unfold execRedXor
  simp [*]
@[simp] theorem execCas_keeps (hd : Hd) (a : Src) (b : Src) (p : Space) (w : Width) (st : State) (hst : Good st.mem.cells) :
    OutGood (execCas hd a b p w st) := by
  unfold execCas
  repeat' (first | (simp [*]; done) | (with_reducible refine keeps_bind ?_ ?_) | (with_reducible intro _) | (with_reducible refine runWord_keeps _ _ _ _ ?_ ?_))
@[simp] theorem reddWord_keeps (fn : Nat) (a : Src) (b : Src) (w : Width) :
    Keeps (reddWord fn a b w : X Unit) := by
  unfold reddWord
  repeat' (first | (simp [*]; done) | (with_reducible refine keeps_bind ?_ ?_) | (with_reducible intro _) | split)
@[simp] theorem execReddAdd_keeps (hd : Hd) (a : Src) (b : Src) (w : Width) (st : State) (hst : Good st.mem.cells) :
    OutGood (execReddAdd hd a b w st) := by
  unfold execReddAdd
  simp [*]
@[simp] theorem execReddFadd_keeps (hd : Hd) (a : Src) (b : Src) (w : Width) (st : State) (hst : Good st.mem.cells) :
    OutGood (execReddFadd hd a b w st) := by
  unfold execReddFadd
  simp [*]
@[simp] theorem execReddMin_keeps (hd : Hd) (a : Src) (b : Src) (w : Width) (st : State) (hst : Good st.mem.cells) :
    OutGood (execReddMin hd a b w st) := by
  unfold execReddMin
  simp [*]
@[simp] theorem execReddMax_keeps (hd : Hd) (a : Src) (b : Src) (w : Width) (st : State) (hst : Good st.mem.cells) :
    OutGood (execReddMax hd a b w st) := by
  unfold execReddMax
  simp [*]
@[simp] theorem execReddMinU_keeps (hd : Hd) (a : Src) (b : Src) (w : Width) (st : State) (hst : Good st.mem.cells) :
    OutGood (execReddMinU hd a b w st) := by
  unfold execReddMinU
  simp [*]
@[simp] theorem execReddMaxU_keeps (hd : Hd) (a : Src) (b : Src) (w : Width) (st : State) (hst : Good st.mem.cells) :
    OutGood (execReddMaxU hd a b w st) := by
  unfold execReddMaxU
  simp [*]
@[simp] theorem execReddOr_keeps (hd : Hd) (a : Src) (b : Src) (w : Width) (st : State) (hst : Good st.mem.cells) :
    OutGood (execReddOr hd a b w st) := by
  unfold execReddOr
  simp [*]
@[simp] theorem execTagq_keeps (hd : Hd) (a : Src) (st : State) (hst : Good st.mem.cells) :
    OutGood (execTagq hd a st) := by
  unfold execTagq
  repeat' (first | (simp [*]; done) | (with_reducible refine keeps_bind ?_ ?_) | (with_reducible intro _) | (with_reducible refine runWord_keeps _ _ _ _ ?_ ?_) | split)
@[simp] theorem execTagset_keeps (hd : Hd) (a : Src) (b : Src) (st : State) (hst : Good st.mem.cells) :
    OutGood (execTagset hd a b st) := by
  unfold execTagset
  repeat' (first | (simp [*]; done) | (with_reducible refine keeps_bind ?_ ?_) | (with_reducible intro _) | (with_reducible refine runWord_keeps _ _ _ _ ?_ ?_) | (with_reducible refine keeps_modify ?_) | (dsimp only) | split)
@[simp] theorem execTagclr_keeps (hd : Hd) (a : Src) (st : State) (hst : Good st.mem.cells) :
    OutGood (execTagclr hd a st) := by
  unfold execTagclr
  repeat' (first | (simp [*]; done) | (with_reducible refine keeps_bind ?_ ?_) | (with_reducible intro _) | (with_reducible refine runWord_keeps _ _ _ _ ?_ ?_) | (with_reducible refine keeps_modify ?_) | split)
@[simp] theorem putScfg_keeps (e : ScfgEff) :
    Keeps (putScfg e : X (List QEnt)) := by
  unfold putScfg
  repeat' (first | (simp +contextual [*]; done) | (with_reducible refine keeps_bind ?_ ?_))
@[simp] theorem readImg_keeps (va : Nat) (n : Nat) :
    Keeps (readImg va n : X Nat) := by
  unfold readImg
  repeat' (first | (simp [*]; done) | (with_reducible refine keeps_bind ?_ ?_) | (with_reducible intro _))
@[simp] theorem scfgRing_keeps (va : Nat) (k : Nat) :
    Keeps (scfgRing va k : X (List QEnt)) := by
  unfold scfgRing
  repeat' (first | (simp [*]; done) | (with_reducible refine keeps_bind ?_ ?_) | (with_reducible intro _) | split)
@[simp] theorem scfgStream_keeps (va : Nat) (r : Nat) :
    Keeps (scfgStream va r : X (List QEnt)) := by
  unfold scfgStream
  repeat' (first | (simp [*]; done) | (with_reducible refine keeps_bind ?_ ?_))
@[simp] theorem execScfg_keeps (hd : Hd) (a : Src) (b : Src) (p : Space) (st : State) (hst : Good st.mem.cells) :
    OutGood (execScfg hd a b p st) := by
  unfold execScfg
  repeat' (first | (simp [*]; done) | (with_reducible refine keeps_bind ?_ ?_) | (with_reducible intro _) | (with_reducible refine runWord_keeps _ _ _ _ ?_ ?_) | (with_reducible refine onceX_keeps _ ?_) | (dsimp only) | split)
@[simp] theorem execMapl_keeps (hd : Hd) (a : Src) (b : Src) (st : State) (hst : Good st.mem.cells) :
    OutGood (execMapl hd a b st) := by
  unfold execMapl
  repeat' (first | (simp (maxDischargeDepth := 99) +contextual [*]; done) | (with_reducible refine keeps_bind ?_ ?_) | (with_reducible intro _) | (with_reducible refine runWord_keeps _ _ _ _ ?_ ?_))

end Sys2Proof.Laws
end

