-- ==== Sys2Proof/Laws/KeepRingOps.lean ====
section
/-! SUPPORT. Every operation of Machine/RingOps.lean keeps the memory canonical. -/
namespace Sys2Proof.Laws
open Sys2Proof.Machine

@[simp] theorem State_setRing_keeps (s : State) (quad : Nat) (k : Nat) (r : Ring) (hs : Good s.mem.cells) :
    Good (State.setRing s quad k r).mem.cells := by
  unfold State.setRing
  simp [*]
@[simp] theorem State_engineRelease_keeps (s : State) (quad : Nat) (launch : Nat) (rng : Nat) (cons : Bool) (ph : Bool) (w : Nat) (hs : Good s.mem.cells) :
    Good (State.engineRelease s quad launch rng cons ph w).mem.cells := by
  unfold State.engineRelease
  repeat' (first | (simp [*]; done) | (dsimp only) | split)
@[simp] theorem claimX_keeps (a : Src) (cons : Bool) :
    Keeps (claimX a cons : X DWord) := by
  unfold claimX
  repeat' (first | (simp [*]; done) | (with_reducible refine keeps_bind ?_ ?_) | (with_reducible intro _) | (with_reducible refine keeps_modify ?_) | split)
@[simp] theorem racq_keeps (a : Src) (cons : Bool) :
    Keeps (racq a cons : X Unit) := by
  unfold racq
  repeat' (first | (simp [*]; done) | (with_reducible refine keeps_bind ?_ ?_))
@[simp] theorem racqU_keeps (a : Src) (cons : Bool) :
    Keeps (racqU a cons : X Unit) := by
  unfold racqU
  repeat' (first | (simp [*]; done) | (with_reducible refine keeps_bind ?_ ?_) | (with_reducible refine onceX_keeps _ ?_))
@[simp] theorem execRacqP_keeps (hd : Hd) (a : Src) (st : State) (hst : Good st.mem.cells) :
    OutGood (execRacqP hd a st) := by
  unfold execRacqP
  simp [*]
@[simp] theorem execRacqC_keeps (hd : Hd) (a : Src) (st : State) (hst : Good st.mem.cells) :
    OutGood (execRacqC hd a st) := by
  unfold execRacqC
  simp [*]
@[simp] theorem execRacqPU_keeps (hd : Hd) (a : Src) (st : State) (hst : Good st.mem.cells) :
    OutGood (execRacqPU hd a st) := by
  unfold execRacqPU
  simp [*]
@[simp] theorem execRacqCU_keeps (hd : Hd) (a : Src) (st : State) (hst : Good st.mem.cells) :
    OutGood (execRacqCU hd a st) := by
  unfold execRacqCU
  simp [*]
@[simp] theorem execRrel_keeps (hd : Hd) (a : Src) (b : Src) (st : State) (hst : Good st.mem.cells) :
    OutGood (execRrel hd a b st) := by
  unfold execRrel
  repeat' (first | (simp [*]; done) | (with_reducible refine keeps_bind ?_ ?_) | (with_reducible intro _) | (with_reducible refine runWord_keeps _ _ _ _ ?_ ?_) | (with_reducible refine keeps_modify ?_) | split)
@[simp] theorem addWait_keeps (w : Wait) :
    Keeps (addWait w : X Unit) := by
  unfold addWait
  simp +contextual [*]
@[simp] theorem execRwait_keeps (hd : Hd) (a : Src) (b : Src) (st : State) (hst : Good st.mem.cells) :
    OutGood (execRwait hd a b st) := by
  unfold execRwait
  repeat' (first | (simp (maxDischargeDepth := 99) +contextual [*]; done) | (rename_i e; replace e := ok_good e (by clear e; simp (maxDischargeDepth := 99) +contextual [*]) (by clear e; simp (maxDischargeDepth := 99) +contextual [*])) | (rename_i e; replace e := error_good e (by clear e; simp (maxDischargeDepth := 99) +contextual [*]) (by clear e; simp (maxDischargeDepth := 99) +contextual [*])) | (rename_i e; replace e := some_good e (by clear e; simp (maxDischargeDepth := 99) +contextual [*])) | (rename_i e; replace e := next_good e (by clear e; simp (maxDischargeDepth := 99) +contextual [*])) | (rename_i e; replace e := some_good1 e (by clear e; simp (maxDischargeDepth := 99) +contextual [*])) | (rename_i e; replace e := fst_good e (by clear e; simp (maxDischargeDepth := 99) +contextual [*])) | (rename_i e; replace e := snd_good e (by clear e; simp (maxDischargeDepth := 99) +contextual [*])) | (with_reducible refine keeps_get_bind ?_) | (with_reducible refine keeps_bind ?_ ?_) | (with_reducible intro _)  | (with_reducible refine forX_keeps _ _ ?_) | (with_reducible refine mapX_keeps _ _ ?_) | (with_reducible refine attempt_keeps _ _ ?_ ?_) | (with_reducible refine onCtl_keeps _ _ ?_ ?_) | (with_reducible refine applyX_keeps _ _ ?_ ?_) | (with_reducible refine runWord_keeps _ _ _ _ ?_ ?_) | (with_reducible refine onceVal_keeps _ ?_) | (with_reducible refine onceX_keeps _ ?_) | (with_reducible refine onceLate_keeps _ ?_) | (with_reducible refine runXgN_keeps _ _ _ _ _ ?_ ?_) | (with_reducible refine runXg_keeps _ _ _ _ ?_ ?_) | (with_reducible refine tryUnit_keeps _ _ ?_) | (with_reducible refine onUnit_keeps _ _ _ _ ?_) | (with_reducible refine holding_keeps _ _ ?_) | (with_reducible refine rayX_keeps _ _ ?_) | (with_reducible refine runK_keeps _ _ _ ?_ ?_) | (with_reducible refine after_keeps _ _ ?_ ?_) | (with_reducible refine issueItem_keeps _ _ _ _ _ ?_ ?_) | (with_reducible refine issueItems_keeps _ _ _ _ _ ?_ ?_) | (with_reducible refine issueLane_keeps _ _ _ ?_ ?_) | (with_reducible refine State_ctlWrite_keeps _ _ _ _ ?_ ?_) | (with_reducible refine State_ctxCmd_keeps _ _ _ _ ?_ ?_) | (with_reducible refine State_throughArena_keeps _ _ _ _ _ ?_ ?_) | (with_reducible refine State_stackReq_keeps _ _ _ _ _ _ ?_ ?_) | (with_reducible refine State_rootReq_keeps _ _ _ _ _ _ _ ?_ ?_) | (with_reducible refine issueAct_keeps _ _ _ ?_ ?_) | (with_reducible refine doAct_keeps _ _ _ ?_ ?_) | (with_reducible refine State_defaultAct_keeps _ _ ?_ ?_) | (with_reducible refine polled_keeps _ ?_) | (with_reducible refine stepWith_keeps _ _ ?_ ?_) | (with_reducible refine keeps_modify ?_) | (with_reducible refine keeps_set ?_) | (with_reducible refine State_modLane_keeps _ _ _ ?_) | (with_reducible refine State_modThr_keeps _ _ _ ?_) | (with_reducible refine State_modCore_keeps _ _ _ ?_) | (with_reducible refine State_modLaunch_keeps _ _ _ ?_) | (with_reducible refine State_modGrp_keeps _ _ _ ?_) | (with_reducible refine State_modQuad_keeps _ _ _ ?_) | (with_reducible refine State_modArr_keeps _ _ _ ?_) | (with_reducible refine State_modCtx_keeps _ _ _ ?_) | (with_reducible refine good_foldl ?_ _ ?_) | (dsimp only) | split | (with_reducible refine keeps_fun ?_))
@[simp] theorem nameCount_keeps (quad : Nat) (k : Nat) (l : Option Nat) :
    Keeps (nameCount quad k l : X CountObj) := by
  unfold nameCount
  repeat' (first | (simp [*]; done) | (with_reducible refine keeps_get_bind ?_))
@[simp] theorem State_setCount_keeps (s : State) (quad : Nat) (k : Nat) (c : CountObj) (hs : Good s.mem.cells) :
    Good (State.setCount s quad k c).mem.cells := by
  unfold State.setCount
  simp [*]
@[simp] theorem execCarm_keeps (hd : Hd) (a : Src) (b : Src) (st : State) (hst : Good st.mem.cells) :
    OutGood (execCarm hd a b st) := by
  unfold execCarm
  repeat' (first | (simp [*]; done) | (with_reducible refine keeps_bind ?_ ?_) | (with_reducible intro _) | (with_reducible refine runWord_keeps _ _ _ _ ?_ ?_) | (with_reducible refine keeps_modify ?_) | (dsimp only) | split)
@[simp] theorem execCwait_keeps (hd : Hd) (a : Src) (st : State) (hst : Good st.mem.cells) :
    OutGood (execCwait hd a st) := by
  unfold execCwait
  repeat' (first | (simp [*]; done) | (with_reducible refine keeps_bind ?_ ?_) | (with_reducible intro _) | (with_reducible refine runWord_keeps _ _ _ _ ?_ ?_) | split)

end Sys2Proof.Laws
end

