-- ==== Sys2Proof/Laws/KeepCopy.lean ====
section
/-! SUPPORT. Every operation of Machine/Copy.lean keeps the memory canonical. -/
namespace Sys2Proof.Laws
open Sys2Proof.Machine

@[simp] theorem CopyOp_place_keeps (o : CopyOp) (quad : Nat) (sp : Space) (va : Nat) (n : Nat) :
    Keeps (CopyOp.place o quad sp va n : X Place) := by
  unfold CopyOp.place
  repeat' (first | (simp [*]; done) | split)
@[simp] theorem CopyOp_read_keeps (o : CopyOp) (quad : Nat) (sp : Space) (va : Nat) (n : Nat) :
    Keeps (CopyOp.read o quad sp va n : X (Nat × Bool)) := by
  unfold CopyOp.read
  repeat' (first | (simp [*]; done) | (with_reducible refine keeps_bind ?_ ?_) | (with_reducible intro _) | split)
@[simp] theorem CopyOp_write_keeps (o : CopyOp) (quad : Nat) (va : Nat) (n : Nat) (v : Nat) (po : Bool) :
    Keeps (CopyOp.write o quad va n v po : X Unit) := by
  unfold CopyOp.write
  repeat' (first | (simp [*]; done) | (with_reducible refine keeps_bind ?_ ?_) | (with_reducible intro _) | (with_reducible refine keeps_modify ?_) | split)
@[simp] theorem rowAt_keeps (r : BitVec 256) (a : Int) :
    Keeps (rowAt r a : X Nat) := by
  unfold rowAt
  simp [*]
@[simp] theorem CopyOp_row_keeps (o : CopyOp) (quad : Nat) (i : Nat) :
    Keeps (CopyOp.row o quad i : X Nat) := by
  unfold CopyOp.row
  repeat' (first | (simp [*]; done) | (with_reducible refine keeps_bind ?_ ?_) | (with_reducible intro _) | (dsimp only) | split)
@[simp] theorem CopyOp_rowInside_keeps (o : CopyOp) (quad : Nat) (r : Nat) :
    Keeps (CopyOp.rowInside o quad r : X Unit) := by
  unfold CopyOp.rowInside
  repeat' (first | (simp [*]; done) | (with_reducible refine keeps_bind ?_ ?_) | split)
@[simp] theorem CopyOp_bytes_keeps (o : CopyOp) (quad : Nat) (x2 : Nat) (x3 : Nat) (x4 : Nat) :
    Keeps (CopyOp.bytes o quad x2 x3 x4 : X (Nat × Bool)) := by
  induction x2 generalizing x3 x4 with
  | zero => exact keeps_pure _
  | succ f ih =>
    unfold CopyOp.bytes
    split
    · exact keeps_pure _
    refine keeps_bind ?_ fun p => ?_
    · split <;> first | exact keeps_pure _ | exact keeps_bind (by simp) fun _ => keeps_bind (by simp) fun _ => keeps_pure _
    · refine keeps_bind (by simp) fun p => ?_
      exact keeps_bind (ih _ _) fun q => keeps_pure _
@[simp] theorem State_modCopy_keeps (s : State) (quad : Nat) (id : Nat) (f : CopyOp → CopyOp) (hs : Good s.mem.cells) :
    Good (State.modCopy s quad id f).mem.cells := by
  unfold State.modCopy
  simp [*]
@[simp] theorem CopyOp_run_keeps (o : CopyOp) (quad : Nat) (x2 : Nat) (x3 : Nat) :
    Keeps (CopyOp.run o quad x2 x3 : X Unit) := by
  fun_induction CopyOp.run <;> repeat' (first | (simp_all (maxDischargeDepth := 99) +contextual +zetaDelta; done) | (with_reducible refine keeps_bind ?_ ?_) | (with_reducible intro _))
@[simp] theorem CopyOp_frame_keeps (o : CopyOp) (quad : Nat) (w : Window) (l : Nat × Nat × Nat) (po : Bool) :
    Keeps (CopyOp.frame o quad w l po : X Unit) := by
  unfold CopyOp.frame
  repeat' (first | (simp [*]; done) | (with_reducible refine keeps_bind ?_ ?_))
@[simp] theorem CopyOp_sendLines_keeps (o : CopyOp) (quad : Nat) (w : Window) (x3 : Nat) (x4 : Nat) :
    Keeps (CopyOp.sendLines o quad w x3 x4 : X Unit) := by
  fun_induction CopyOp.sendLines <;> repeat' (first | (simp_all (maxDischargeDepth := 99) +contextual +zetaDelta; done) | (with_reducible refine keeps_bind ?_ ?_) | (with_reducible intro _))
@[simp] theorem CopyOp_send_keeps (o : CopyOp) (quad : Nat) (rc : Bool) :
    Keeps (CopyOp.send o quad rc : X Unit) := by
  unfold CopyOp.send
  repeat' (first | (simp [*]; done) | (with_reducible refine keeps_bind ?_ ?_) | (with_reducible intro _) | (with_reducible refine keeps_modify ?_) | split)
@[simp] theorem CopyOp_sendWord_keeps (o : CopyOp) (quad : Nat) :
    Keeps (CopyOp.sendWord o quad : X Unit) := by
  unfold CopyOp.sendWord
  repeat' (first | (simp [*]; done) | (with_reducible refine keeps_bind ?_ ?_) | (with_reducible intro _) | (with_reducible refine keeps_modify ?_) | split)
@[simp] theorem State_dropCopy_keeps (s : State) (quad : Nat) (o : CopyOp) (hs : Good s.mem.cells) :
    Good (State.dropCopy s quad o).mem.cells := by
  unfold State.dropCopy
  simp +contextual [*]
@[simp] theorem State_signalCopy_keeps (s : State) (quad : Nat) (o : CopyOp) (hs : Good s.mem.cells) :
    Good (State.signalCopy s quad o).mem.cells := by
  unfold State.signalCopy
  dsimp only
  split <;> simp [hs]
@[simp] theorem State_doCopy_keeps (s : State) (quad : Nat) (o : CopyOp) (hs : Good s.mem.cells) :
    Good (State.doCopy s quad o).1.mem.cells := by
  have h : ∀ {x : X Unit}, Keeps x → ∀ (b : Bool), Good (match x s with
      | .ok _ s' => (s', if b then CopyOut.sent else .done)
      | .error (.fault f) s' => (s', .failed f)
      | .error .stall s' => (s', .denied)
      | .error e s' => (applyDeny s' e, .denied)).1.mem.cells := by
    intro x hx b
    have := hx s hs
    split <;> (rename_i e; rw [e] at this) <;> simp_all
  unfold State.doCopy
  refine h ?_ _
  split
  · split
    · simp
    · split <;> simp
  · simp
@[simp] theorem State_startCopy_keeps (s : State) (quad : Nat) (hs : Good s.mem.cells) :
    Good (State.startCopy s quad).mem.cells := by
  unfold State.startCopy
  repeat' (first | (simp [*]; done) | split)
@[simp] theorem State_completeCopy_keeps (s : State) (quad : Nat) (id : Nat) (hs : Good s.mem.cells) :
    Good (State.completeCopy s quad id).mem.cells := by
  unfold State.completeCopy
  repeat' (first | (simp [*]; done) | (rename_i e; replace e := fst_good e (by clear e; simp [*])) | split)
@[simp] theorem State_copyError_keeps (s : State) (quad : Nat) (o : CopyOp) (f : FaultInfo) (hs : Good s.mem.cells) :
    Good (State.copyError s quad o f).mem.cells := by
  unfold State.copyError
  simp (maxDischargeDepth := 99) +contextual [*]
@[simp] theorem State_forgetFrame_keeps (s : State) (frame : Nat) (hs : Good s.mem.cells) :
    Good (State.forgetFrame s frame).mem.cells := by
  unfold State.forgetFrame
  simp [*]
@[simp] theorem State_lineLost_keeps (s : State) (o : CopyOp) (p : PodFrame) (hs : Good s.mem.cells) :
    Good (State.lineLost s o p).mem.cells := by
  unfold State.lineLost
  simp [*]
@[simp] theorem State_failCopy_keeps (s : State) (quad : Nat) (id : Nat) (hs : Good s.mem.cells) :
    Good (State.failCopy s quad id).mem.cells := by
  unfold State.failCopy
  repeat' (first | (simp [*]; done) | (rename_i e; replace e := fst_good e (by clear e; simp [*])) | split)
@[simp] theorem State_undelivered_keeps (s : State) (frame : Nat) (hs : Good s.mem.cells) :
    Good (State.undelivered s frame).mem.cells := by
  unfold State.undelivered
  repeat' (first | (simp [*]; done) | split)
@[simp] theorem State_discardCopies_keeps (s : State) (quad : Nat) (hs : Good s.mem.cells) :
    Good (State.discardCopies s quad).mem.cells := by
  unfold State.discardCopies
  simp (maxDischargeDepth := 99) +contextual [*]
@[simp] theorem State_ownLines_keeps (s : State) (quad : Nat) (o : CopyOp) (hs : Good s.mem.cells) :
    Good (State.ownLines s quad o).mem.cells := by
  unfold State.ownLines
  repeat' (first | (simp [*]; done) | (with_reducible intro _) | (with_reducible refine good_foldl ?_ _ ?_) | split)
@[simp] theorem State_resumeCopies_keeps (s : State) (quad : Nat) (hs : Good s.mem.cells) :
    Good (State.resumeCopies s quad).mem.cells := by
  unfold State.resumeCopies
  simp +contextual [*]
@[simp] theorem rangePlace_keeps (sp : Space) (va : Nat) (n : Nat) :
    Keeps (rangePlace sp va n : X (Option Place)) := by
  unfold rangePlace
  repeat' (first | (simp [*]; done) | (with_reducible refine keeps_bind ?_ ?_) | split)
@[simp] theorem State_unscore_keeps (s : State) (l : List (Nat × Nat)) (hs : Good s.mem.cells) :
    Good (State.unscore s l).mem.cells := by
  unfold State.unscore
  simp +contextual [*]
@[simp] theorem takeScore_keeps (p : Option Place) (inDir : Bool) (n : Nat) :
    Keeps (takeScore p inDir n : X (List (Nat × Nat))) := by
  unfold takeScore
  repeat' (first | (simp [*]; done) | (with_reducible refine keeps_bind ?_ ?_) | (with_reducible intro _) | (with_reducible refine keeps_modify ?_) | split)
@[simp] theorem takeRows_keeps (kind : CopyKind) (rec_ : BitVec 256) (len : Nat) :
    Keeps (takeRows kind rec_ len : X (List (Nat × Nat))) := by
  unfold takeRows
  repeat' (first | (simp [*]; done) | (with_reducible refine keeps_get_bind ?_) | (with_reducible intro _) | (dsimp only) | split)
@[simp] theorem queueCopy_keeps (o : CopyOp) (sp : Option Place) (dp : Option Place) :
    Keeps (queueCopy o sp dp : X Unit) := by
  unfold queueCopy
  repeat' (first | (simp (maxDischargeDepth := 99) +contextual [*]; done) | (with_reducible refine keeps_bind ?_ ?_) | (with_reducible intro _) | (dsimp only) | split)
@[simp] theorem canonX_keeps (sp : Space) (a : Nat) :
    Keeps (canonX sp a : X Unit) := by
  unfold canonX
  repeat' (first | (simp [*]; done) | split)
@[simp] theorem countOk_keeps (t : Nat) :
    Keeps (countOk t : X Unit) := by
  unfold countOk
  repeat' (first | (simp [*]; done) | (with_reducible refine keeps_bind ?_ ?_) | (with_reducible intro _) | split)
@[simp] theorem copyX_keeps (a : Src) (b : Src) (sp : Space) (dp : Space) (rc : Option Bool) :
    Keeps (copyX a b sp dp rc : X Unit) := by
  unfold copyX
  refine keeps_bind (by simp) fun x => keeps_bind (by simp) fun q => keeps_get_bind fun s _ => ?_
  dsimp only
  split
  · simp
  split
  · simp
  refine keeps_bind (by simp) fun _ => keeps_bind (by simp) fun _ => ?_
  split
  · simp
  split
  · simp
  exact keeps_bind (by simp) fun _ => keeps_bind (by simp) fun _ => keeps_bind (by simp) fun _ => by simp
@[simp] theorem rowsX_keeps (a : Src) (b : Src) (dp : Space) (kind : CopyKind) :
    Keeps (rowsX a b dp kind : X Unit) := by
  unfold rowsX
  refine keeps_bind (by simp) fun x => keeps_bind (by simp) fun q => keeps_get_bind fun s _ => ?_
  dsimp only
  split
  · simp
  split
  · simp
  split
  · simp
  refine keeps_bind (by simp) fun _ => ?_
  split
  · simp
  exact keeps_bind (by simp) fun _ => keeps_bind (by simp) fun _ => by simp
@[simp] theorem execCpy_keeps (hd : Hd) (a : Src) (b : Src) (s : Space) (d : Space) (st : State) (hst : Good st.mem.cells) :
    OutGood (execCpy hd a b s d st) := by
  unfold execCpy
  simp [*]
@[simp] theorem execCpys_keeps (hd : Hd) (a : Src) (b : Src) (d : Space) (st : State) (hst : Good st.mem.cells) :
    OutGood (execCpys hd a b d st) := by
  unfold execCpys
  simp [*]
@[simp] theorem execGath_keeps (hd : Hd) (a : Src) (b : Src) (d : Space) (st : State) (hst : Good st.mem.cells) :
    OutGood (execGath hd a b d st) := by
  unfold execGath
  simp [*]
@[simp] theorem execCpyr_keeps (hd : Hd) (a : Src) (b : Src) (s : Space) (r : Bool) (st : State) (hst : Good st.mem.cells) :
    OutGood (execCpyr hd a b s r st) := by
  unfold execCpyr
  simp [*]

end Sys2Proof.Laws
end

