-- ==== Sys2Proof/Laws/KeepFp.lean ====
section
/-! SUPPORT. Every operation of Machine/Fp.lean keeps the memory canonical. -/
namespace Sys2Proof.Laws
open Sys2Proof.Machine

@[simp] theorem valF_keeps (i : Nat) (x : Src) :
    Keeps (valF i x : X FV) := by
  unfold valF
  repeat' (first | (simp [*]; done) | (with_reducible refine keeps_bind ?_ ?_))
@[simp] theorem valD_keeps (x : Src) :
    Keeps (valD x : X FV) := by
  unfold valD
  repeat' (first | (simp [*]; done) | (with_reducible refine keeps_bind ?_ ?_))
@[simp] theorem f32Bin_keeps (a : Src) (b : Src) (r : RM) (f : FV → FV → List (FV × FV)) :
    Keeps (f32Bin a b r f : X Unit) := by
  unfold f32Bin
  repeat' (first | (simp [*]; done) | (with_reducible refine keeps_bind ?_ ?_) | (with_reducible intro _))
@[simp] theorem f64Bin_keeps (a : Src) (b : Src) (r : RM) (f : FV → FV → List (FV × FV)) :
    Keeps (f64Bin a b r f : X Unit) := by
  unfold f64Bin
  repeat' (first | (simp [*]; done) | (with_reducible refine keeps_bind ?_ ?_) | (with_reducible intro _))
@[simp] theorem pushFl_keeps (w64 : Bool) (r : Nat × Word) :
    Keeps (pushFl w64 r : X Unit) := by
  unfold pushFl
  repeat' (first | (simp [*]; done) | (with_reducible refine keeps_bind ?_ ?_))
@[simp] theorem f32Mm_keeps (a : Src) (b : Src) (isMax : Bool) (num : Bool) :
    Keeps (f32Mm a b isMax num : X Unit) := by
  unfold f32Mm
  repeat' (first | (simp [*]; done) | (with_reducible refine keeps_bind ?_ ?_) | (with_reducible intro _))
@[simp] theorem f64Mm_keeps (a : Src) (b : Src) (isMax : Bool) :
    Keeps (f64Mm a b isMax : X Unit) := by
  unfold f64Mm
  repeat' (first | (simp [*]; done) | (with_reducible refine keeps_bind ?_ ?_) | (with_reducible intro _))
@[simp] theorem halves_keeps (r : RM) (f : Nat → List (FV × FV)) :
    Keeps (halves r f : X Unit) := by
  unfold halves
  repeat' (first | (simp [*]; done) | (with_reducible refine keeps_bind ?_ ?_) | (with_reducible intro _))
@[simp] theorem execFadd_keeps (hd : Hd) (a : Src) (b : Src) (r : RM) (st : State) (hst : Good st.mem.cells) :
    OutGood (execFadd hd a b r st) := by
  unfold execFadd
  simp [*]
@[simp] theorem execFsub_keeps (hd : Hd) (a : Src) (b : Src) (r : RM) (st : State) (hst : Good st.mem.cells) :
    OutGood (execFsub hd a b r st) := by
  unfold execFsub
  simp [*]
@[simp] theorem execFmul_keeps (hd : Hd) (a : Src) (b : Src) (r : RM) (st : State) (hst : Good st.mem.cells) :
    OutGood (execFmul hd a b r st) := by
  unfold execFmul
  simp [*]
@[simp] theorem execFmin_keeps (hd : Hd) (a : Src) (b : Src) (st : State) (hst : Good st.mem.cells) :
    OutGood (execFmin hd a b st) := by
  unfold execFmin
  simp [*]
@[simp] theorem execFmax_keeps (hd : Hd) (a : Src) (b : Src) (st : State) (hst : Good st.mem.cells) :
    OutGood (execFmax hd a b st) := by
  unfold execFmax
  simp [*]
@[simp] theorem execFminn_keeps (hd : Hd) (a : Src) (b : Src) (st : State) (hst : Good st.mem.cells) :
    OutGood (execFminn hd a b st) := by
  unfold execFminn
  simp [*]
@[simp] theorem execFmaxn_keeps (hd : Hd) (a : Src) (b : Src) (st : State) (hst : Good st.mem.cells) :
    OutGood (execFmaxn hd a b st) := by
  unfold execFmaxn
  simp [*]
@[simp] theorem execFrnd_keeps (hd : Hd) (a : Src) (r : RM) (st : State) (hst : Good st.mem.cells) :
    OutGood (execFrnd hd a r st) := by
  unfold execFrnd
  repeat' (first | (simp [*]; done) | (with_reducible refine keeps_bind ?_ ?_) | (with_reducible intro _) | (with_reducible refine runWord_keeps _ _ _ _ ?_ ?_))
@[simp] theorem execFscale_keeps (hd : Hd) (a : Src) (b : Src) (r : RM) (st : State) (hst : Good st.mem.cells) :
    OutGood (execFscale hd a b r st) := by
  unfold execFscale
  repeat' (first | (simp [*]; done) | (with_reducible refine keeps_bind ?_ ?_) | (with_reducible intro _) | (with_reducible refine runWord_keeps _ _ _ _ ?_ ?_))
@[simp] theorem execFgetx_keeps (hd : Hd) (a : Src) (st : State) (hst : Good st.mem.cells) :
    OutGood (execFgetx hd a st) := by
  unfold execFgetx
  repeat' (first | (simp [*]; done) | (with_reducible refine keeps_bind ?_ ?_) | (with_reducible intro _) | (with_reducible refine runWord_keeps _ _ _ _ ?_ ?_))
@[simp] theorem execFclass_keeps (hd : Hd) (a : Src) (st : State) (hst : Good st.mem.cells) :
    OutGood (execFclass hd a st) := by
  unfold execFclass
  repeat' (first | (simp [*]; done) | (with_reducible refine keeps_bind ?_ ?_) | (with_reducible refine runWord_keeps _ _ _ _ ?_ ?_))
@[simp] theorem execHadd2_keeps (hd : Hd) (a : Src) (b : Src) (r : RM) (st : State) (hst : Good st.mem.cells) :
    OutGood (execHadd2 hd a b r st) := by
  unfold execHadd2
  repeat' (first | (simp [*]; done) | (with_reducible refine keeps_bind ?_ ?_) | (with_reducible intro _) | (with_reducible refine runWord_keeps _ _ _ _ ?_ ?_))
@[simp] theorem execHmul2_keeps (hd : Hd) (a : Src) (b : Src) (r : RM) (st : State) (hst : Good st.mem.cells) :
    OutGood (execHmul2 hd a b r st) := by
  unfold execHmul2
  repeat' (first | (simp [*]; done) | (with_reducible refine keeps_bind ?_ ?_) | (with_reducible intro _) | (with_reducible refine runWord_keeps _ _ _ _ ?_ ?_))
@[simp] theorem execFfma_keeps (hd : Hd) (a : Src) (b : Src) (d : Src) (r : RM) (st : State) (hst : Good st.mem.cells) :
    OutGood (execFfma hd a b d r st) := by
  unfold execFfma
  repeat' (first | (simp [*]; done) | (with_reducible refine keeps_bind ?_ ?_) | (with_reducible intro _) | (with_reducible refine runWord_keeps _ _ _ _ ?_ ?_))
@[simp] theorem dot2_keeps (h : IFmt) (a : Src) (b : Src) (d : Src) :
    Keeps (dot2 h a b d : X Unit) := by
  unfold dot2
  repeat' (first | (simp [*]; done) | (with_reducible refine keeps_bind ?_ ?_) | (with_reducible intro _))
@[simp] theorem execFdot2_keeps (hd : Hd) (a : Src) (b : Src) (d : Src) (st : State) (hst : Good st.mem.cells) :
    OutGood (execFdot2 hd a b d st) := by
  unfold execFdot2
  simp [*]
@[simp] theorem execFdot2Bf_keeps (hd : Hd) (a : Src) (b : Src) (d : Src) (st : State) (hst : Good st.mem.cells) :
    OutGood (execFdot2Bf hd a b d st) := by
  unfold execFdot2Bf
  simp [*]
@[simp] theorem execHfma2_keeps (hd : Hd) (a : Src) (b : Src) (d : Src) (r : RM) (st : State) (hst : Good st.mem.cells) :
    OutGood (execHfma2 hd a b d r st) := by
  unfold execHfma2
  repeat' (first | (simp [*]; done) | (with_reducible refine keeps_bind ?_ ?_) | (with_reducible intro _) | (with_reducible refine runWord_keeps _ _ _ _ ?_ ?_))
@[simp] theorem execDadd_keeps (hd : Hd) (a : Src) (b : Src) (r : RM) (st : State) (hst : Good st.mem.cells) :
    OutGood (execDadd hd a b r st) := by
  unfold execDadd
  simp [*]
@[simp] theorem execDsub_keeps (hd : Hd) (a : Src) (b : Src) (r : RM) (st : State) (hst : Good st.mem.cells) :
    OutGood (execDsub hd a b r st) := by
  unfold execDsub
  simp [*]
@[simp] theorem execDmul_keeps (hd : Hd) (a : Src) (b : Src) (r : RM) (st : State) (hst : Good st.mem.cells) :
    OutGood (execDmul hd a b r st) := by
  unfold execDmul
  simp [*]
@[simp] theorem execDmin_keeps (hd : Hd) (a : Src) (b : Src) (st : State) (hst : Good st.mem.cells) :
    OutGood (execDmin hd a b st) := by
  unfold execDmin
  simp [*]
@[simp] theorem execDmax_keeps (hd : Hd) (a : Src) (b : Src) (st : State) (hst : Good st.mem.cells) :
    OutGood (execDmax hd a b st) := by
  unfold execDmax
  simp [*]
@[simp] theorem execDrnd_keeps (hd : Hd) (a : Src) (r : RM) (st : State) (hst : Good st.mem.cells) :
    OutGood (execDrnd hd a r st) := by
  unfold execDrnd
  repeat' (first | (simp [*]; done) | (with_reducible refine keeps_bind ?_ ?_) | (with_reducible intro _) | (with_reducible refine runWord_keeps _ _ _ _ ?_ ?_))
@[simp] theorem execDscale_keeps (hd : Hd) (a : Src) (b : Src) (r : RM) (st : State) (hst : Good st.mem.cells) :
    OutGood (execDscale hd a b r st) := by
  unfold execDscale
  repeat' (first | (simp [*]; done) | (with_reducible refine keeps_bind ?_ ?_) | (with_reducible intro _) | (with_reducible refine runWord_keeps _ _ _ _ ?_ ?_))
@[simp] theorem execDgetx_keeps (hd : Hd) (a : Src) (st : State) (hst : Good st.mem.cells) :
    OutGood (execDgetx hd a st) := by
  unfold execDgetx
  repeat' (first | (simp [*]; done) | (with_reducible refine keeps_bind ?_ ?_) | (with_reducible intro _) | (with_reducible refine runWord_keeps _ _ _ _ ?_ ?_))
@[simp] theorem execDclass_keeps (hd : Hd) (a : Src) (st : State) (hst : Good st.mem.cells) :
    OutGood (execDclass hd a st) := by
  unfold execDclass
  repeat' (first | (simp [*]; done) | (with_reducible refine keeps_bind ?_ ?_) | (with_reducible refine runWord_keeps _ _ _ _ ?_ ?_))
@[simp] theorem execDfma_keeps (hd : Hd) (a : Src) (b : Src) (d : Src) (r : RM) (st : State) (hst : Good st.mem.cells) :
    OutGood (execDfma hd a b d r st) := by
  unfold execDfma
  repeat' (first | (simp [*]; done) | (with_reducible refine keeps_bind ?_ ?_) | (with_reducible intro _) | (with_reducible refine runWord_keeps _ _ _ _ ?_ ?_))
@[simp] theorem putFrel_keeps (p : Nat) (r : FRel) (n : Bool) (x : FV) (y : FV) :
    Keeps (putFrel p r n x y : X Unit) := by
  unfold putFrel
  repeat' (first | (simp [*]; done) | (with_reducible refine keeps_bind ?_ ?_) | (with_reducible intro _))
@[simp] theorem execFcmp_keeps (hd : Hd) (a : Src) (b : Src) (p : Fin 8) (r : FRel) (n : Bool) (st : State) (hst : Good st.mem.cells) :
    OutGood (execFcmp hd a b p r n st) := by
  unfold execFcmp
  repeat' (first | (simp [*]; done) | (with_reducible refine keeps_bind ?_ ?_) | (with_reducible intro _) | (with_reducible refine runWord_keeps _ _ _ _ ?_ ?_))
@[simp] theorem execDcmp_keeps (hd : Hd) (a : Src) (b : Src) (p : Fin 8) (r : FRel) (n : Bool) (st : State) (hst : Good st.mem.cells) :
    OutGood (execDcmp hd a b p r n st) := by
  unfold execDcmp
  repeat' (first | (simp [*]; done) | (with_reducible refine keeps_bind ?_ ?_) | (with_reducible intro _) | (with_reducible refine runWord_keeps _ _ _ _ ?_ ?_))
@[simp] theorem execFcmpH_keeps (hd : Hd) (a : Src) (b : Src) (p : Fin 8) (r : FRel) (n : Bool) (st : State) (hst : Good st.mem.cells) :
    OutGood (execFcmpH hd a b p r n st) := by
  unfold execFcmpH
  repeat' (first | (simp [*]; done) | (with_reducible refine keeps_bind ?_ ?_) | (with_reducible intro _) | (with_reducible refine runWord_keeps _ _ _ _ ?_ ?_))

end Sys2Proof.Laws
end

