-- ==== Sys2Proof/Laws/KeepXgrp.lean ====
section
/-! SUPPORT. Every operation of Machine/Xgrp.lean keeps the memory canonical. -/
namespace Sys2Proof.Laws
open Sys2Proof.Machine

@[simp] theorem State_fillXg_keeps (s : State) (lane : Nat) (word : Nat) (op : XgOp) (hs : Good s.mem.cells) :
    Good (State.fillXg s lane word op).mem.cells := by
  unfold State.fillXg
  repeat' (first | (simp [*]; done) | (with_reducible intro _) | (with_reducible refine State_modLane_keeps _ _ _ ?_) | (with_reducible refine good_foldl ?_ _ ?_) | split)
@[simp] theorem runXgN_keeps (g : Guard) (n : Nat) (op : XgOp) (x : X (Bool × DWord × Word)) (st : State) (hx : Keeps x) (hst : Good st.mem.cells) :
    OutGood (runXgN g n op x st) := by
  unfold runXgN
  generalize hq : runWord g n _ st = q
  have h : OutGood q := by
    rw [← hq]
    refine runWord_keeps _ _ _ _ ?_ hst
    refine keeps_bind hx fun a => ?_
    split
    refine keeps_get_bind fun s _ => keeps_bind (keeps_modify fun t ht => by simp [ht]) fun _ => ?_
    exact forX_keeps _ _ fun _ => by simp
  split
  · simp only [outGood_next] at h ⊢
    split <;> simp [h]
  · exact h
@[simp] theorem runXg_keeps (g : Guard) (op : XgOp) (x : X (Bool × DWord × Word)) (st : State) (hx : Keeps x) (hst : Good st.mem.cells) :
    OutGood (runXg g op x st) := by
  unfold runXg
  simp [*]
@[simp] theorem xgOne_keeps (a : Src) :
    Keeps (xgOne a : X (Bool × DWord × Word)) := by
  unfold xgOne
  repeat' (first | (simp [*]; done) | (with_reducible refine keeps_bind ?_ ?_))
@[simp] theorem xgTwo_keeps (a : Src) (b : Src) :
    Keeps (xgTwo a b : X (Bool × DWord × Word)) := by
  unfold xgTwo
  repeat' (first | (simp [*]; done) | (with_reducible refine keeps_bind ?_ ?_) | (with_reducible intro _))
@[simp] theorem xgScan_keeps (t : ScanTy) (a : Src) (b : Src) :
    Keeps (xgScan t a b : X (Bool × DWord × Word)) := by
  unfold xgScan
  repeat' (first | (simp [*]; done) | (with_reducible refine keeps_bind ?_ ?_) | (with_reducible intro _) | split)
@[simp] theorem execXshuf_keeps (hd : Hd) (a : Src) (b : Src) (m : XMode) (st : State) (hst : Good st.mem.cells) :
    OutGood (execXshuf hd a b m st) := by
  unfold execXshuf
  simp [*]
@[simp] theorem execVote_keeps (hd : Hd) (a : Src) (b : Src) (m : VoteForm) (st : State) (hst : Good st.mem.cells) :
    OutGood (execVote hd a b m st) := by
  unfold execVote
  simp [*]
@[simp] theorem execReduce_keeps (hd : Hd) (a : Src) (b : Src) (o : ScanOp) (t : ScanTy) (st : State) (hst : Good st.mem.cells) :
    OutGood (execReduce hd a b o t st) := by
  unfold execReduce
  simp [*]
@[simp] theorem execScan_keeps (hd : Hd) (a : Src) (b : Src) (o : ScanOp) (t : ScanTy) (st : State) (hst : Good st.mem.cells) :
    OutGood (execScan hd a b o t st) := by
  unfold execScan
  simp [*]
@[simp] theorem execScanX_keeps (hd : Hd) (a : Src) (b : Src) (o : ScanOp) (t : ScanTy) (st : State) (hst : Good st.mem.cells) :
    OutGood (execScanX hd a b o t st) := by
  unfold execScanX
  simp [*]
@[simp] theorem execMatchX_keeps (hd : Hd) (a : Src) (w : Bool) (st : State) (hst : Good st.mem.cells) :
    OutGood (execMatchX hd a w st) := by
  unfold execMatchX
  repeat' (first | (simp [*]; done) | (with_reducible refine keeps_bind ?_ ?_) | (with_reducible refine runXg_keeps _ _ _ _ ?_ ?_) | split)
@[simp] theorem execElect_keeps (hd : Hd) (st : State) (hst : Good st.mem.cells) :
    OutGood (execElect hd st) := by
  unfold execElect
  simp [*]
@[simp] theorem execIntf_keeps (hd : Hd) (a : Src) (f : Fin 32) (k : Fin 8) (o : IntfOp) (v : Bool) (st : State) (hst : Good st.mem.cells) :
    OutGood (execIntf hd a f k o v st) := by
  unfold execIntf
  repeat' (first | (simp [*]; done) | (with_reducible refine keeps_bind ?_ ?_) | (with_reducible intro _) | (with_reducible refine runWord_keeps _ _ _ _ ?_ ?_))
@[simp] theorem execFltf_keeps (hd : Hd) (a : Src) (f : Fin 32) (k : Fin 8) (o : FltfOp) (v : Bool) (r : RM) (st : State) (hst : Good st.mem.cells) :
    OutGood (execFltf hd a f k o v r st) := by
  unfold execFltf
  repeat' (first | (simp [*]; done) | (with_reducible refine keeps_bind ?_ ?_) | (with_reducible intro _) | (with_reducible refine runWord_keeps _ _ _ _ ?_ ?_) | split)

end Sys2Proof.Laws
end

