-- ==== Sys2Proof/Laws/KeepRender.lean ====
section
/-! SUPPORT. Every operation of Machine/Render.lean keeps the memory canonical. -/
namespace Sys2Proof.Laws
open Sys2Proof.Machine

@[simp] theorem unitRead_keeps (who : Who) (va : Nat) (n : Nat) :
    Keeps (unitRead who va n : X Nat) := by
  unfold unitRead
  repeat' (first | (simp [*]; done) | (with_reducible refine keeps_bind ?_ ?_))
@[simp] theorem enterItem_keeps (who : Who) (x : Nat) (spill : Nat) (w : RayWalk) (it : RayItem) :
    Keeps (enterItem who x spill w it : X (RayWalk × Option RayOut)) := by
  unfold enterItem
  repeat' (first | (simp (maxDischargeDepth := 99) +contextual [*]; done) | (rename_i e; replace e := ok_good e (by clear e; simp (maxDischargeDepth := 99) +contextual [*]) (by clear e; simp (maxDischargeDepth := 99) +contextual [*])) | (rename_i e; replace e := error_good e (by clear e; simp (maxDischargeDepth := 99) +contextual [*]) (by clear e; simp (maxDischargeDepth := 99) +contextual [*])) | (rename_i e; replace e := some_good e (by clear e; simp (maxDischargeDepth := 99) +contextual [*])) | (rename_i e; replace e := next_good e (by clear e; simp (maxDischargeDepth := 99) +contextual [*])) | (rename_i e; replace e := some_good1 e (by clear e; simp (maxDischargeDepth := 99) +contextual [*])) | (rename_i e; replace e := fst_good e (by clear e; simp (maxDischargeDepth := 99) +contextual [*])) | (rename_i e; replace e := snd_good e (by clear e; simp (maxDischargeDepth := 99) +contextual [*])) | (with_reducible refine keeps_get_bind ?_) | (with_reducible refine keeps_bind ?_ ?_) | (with_reducible intro _)  | (with_reducible refine forX_keeps _ _ ?_) | (with_reducible refine mapX_keeps _ _ ?_) | (with_reducible refine attempt_keeps _ _ ?_ ?_) | (with_reducible refine onCtl_keeps _ _ ?_ ?_) | (with_reducible refine applyX_keeps _ _ ?_ ?_) | (with_reducible refine runWord_keeps _ _ _ _ ?_ ?_) | (with_reducible refine onceVal_keeps _ ?_) | (with_reducible refine onceX_keeps _ ?_) | (with_reducible refine onceLate_keeps _ ?_) | (with_reducible refine runXgN_keeps _ _ _ _ _ ?_ ?_) | (with_reducible refine runXg_keeps _ _ _ _ ?_ ?_) | (with_reducible refine tryUnit_keeps _ _ ?_) | (with_reducible refine onUnit_keeps _ _ _ _ ?_) | (with_reducible refine holding_keeps _ _ ?_) | (with_reducible refine rayX_keeps _ _ ?_) | (with_reducible refine runK_keeps _ _ _ ?_ ?_) | (with_reducible refine after_keeps _ _ ?_ ?_) | (with_reducible refine issueItem_keeps _ _ _ _ _ ?_ ?_) | (with_reducible refine issueItems_keeps _ _ _ _ _ ?_ ?_) | (with_reducible refine issueLane_keeps _ _ _ ?_ ?_) | (with_reducible refine State_ctlWrite_keeps _ _ _ _ ?_ ?_) | (with_reducible refine State_ctxCmd_keeps _ _ _ _ ?_ ?_) | (with_reducible refine State_throughArena_keeps _ _ _ _ _ ?_ ?_) | (with_reducible refine State_stackReq_keeps _ _ _ _ _ _ ?_ ?_) | (with_reducible refine State_rootReq_keeps _ _ _ _ _ _ _ ?_ ?_) | (with_reducible refine issueAct_keeps _ _ _ ?_ ?_) | (with_reducible refine doAct_keeps _ _ _ ?_ ?_) | (with_reducible refine State_defaultAct_keeps _ _ ?_ ?_) | (with_reducible refine polled_keeps _ ?_) | (with_reducible refine stepWith_keeps _ _ ?_ ?_) | (with_reducible refine keeps_modify ?_) | (with_reducible refine keeps_set ?_) | (with_reducible refine State_modLane_keeps _ _ _ ?_) | (with_reducible refine State_modThr_keeps _ _ _ ?_) | (with_reducible refine State_modCore_keeps _ _ _ ?_) | (with_reducible refine State_modLaunch_keeps _ _ _ ?_) | (with_reducible refine State_modGrp_keeps _ _ _ ?_) | (with_reducible refine State_modQuad_keeps _ _ _ ?_) | (with_reducible refine State_modArr_keeps _ _ _ ?_) | (with_reducible refine State_modCtx_keeps _ _ _ ?_) | (with_reducible refine good_foldl ?_ _ ?_) | (dsimp only) | split | (with_reducible refine keeps_fun ?_))
@[simp] theorem leafRecord_keeps (who : Who) (x : Nat) (w : RayWalk) (it : RayItem) (k : Nat) :
    Keeps (leafRecord who x w it k : X (RayWalk × Option RayOut)) := by
  unfold leafRecord
  repeat' (first | (simp (maxDischargeDepth := 99) +contextual [*]; done) | (rename_i e; replace e := ok_good e (by clear e; simp (maxDischargeDepth := 99) +contextual [*]) (by clear e; simp (maxDischargeDepth := 99) +contextual [*])) | (rename_i e; replace e := error_good e (by clear e; simp (maxDischargeDepth := 99) +contextual [*]) (by clear e; simp (maxDischargeDepth := 99) +contextual [*])) | (rename_i e; replace e := some_good e (by clear e; simp (maxDischargeDepth := 99) +contextual [*])) | (rename_i e; replace e := next_good e (by clear e; simp (maxDischargeDepth := 99) +contextual [*])) | (rename_i e; replace e := some_good1 e (by clear e; simp (maxDischargeDepth := 99) +contextual [*])) | (rename_i e; replace e := fst_good e (by clear e; simp (maxDischargeDepth := 99) +contextual [*])) | (rename_i e; replace e := snd_good e (by clear e; simp (maxDischargeDepth := 99) +contextual [*])) | (with_reducible refine keeps_get_bind ?_) | (with_reducible refine keeps_bind ?_ ?_) | (with_reducible intro _)  | (with_reducible refine forX_keeps _ _ ?_) | (with_reducible refine mapX_keeps _ _ ?_) | (with_reducible refine attempt_keeps _ _ ?_ ?_) | (with_reducible refine onCtl_keeps _ _ ?_ ?_) | (with_reducible refine applyX_keeps _ _ ?_ ?_) | (with_reducible refine runWord_keeps _ _ _ _ ?_ ?_) | (with_reducible refine onceVal_keeps _ ?_) | (with_reducible refine onceX_keeps _ ?_) | (with_reducible refine onceLate_keeps _ ?_) | (with_reducible refine runXgN_keeps _ _ _ _ _ ?_ ?_) | (with_reducible refine runXg_keeps _ _ _ _ ?_ ?_) | (with_reducible refine tryUnit_keeps _ _ ?_) | (with_reducible refine onUnit_keeps _ _ _ _ ?_) | (with_reducible refine holding_keeps _ _ ?_) | (with_reducible refine rayX_keeps _ _ ?_) | (with_reducible refine runK_keeps _ _ _ ?_ ?_) | (with_reducible refine after_keeps _ _ ?_ ?_) | (with_reducible refine issueItem_keeps _ _ _ _ _ ?_ ?_) | (with_reducible refine issueItems_keeps _ _ _ _ _ ?_ ?_) | (with_reducible refine issueLane_keeps _ _ _ ?_ ?_) | (with_reducible refine State_ctlWrite_keeps _ _ _ _ ?_ ?_) | (with_reducible refine State_ctxCmd_keeps _ _ _ _ ?_ ?_) | (with_reducible refine State_throughArena_keeps _ _ _ _ _ ?_ ?_) | (with_reducible refine State_stackReq_keeps _ _ _ _ _ _ ?_ ?_) | (with_reducible refine State_rootReq_keeps _ _ _ _ _ _ _ ?_ ?_) | (with_reducible refine issueAct_keeps _ _ _ ?_ ?_) | (with_reducible refine doAct_keeps _ _ _ ?_ ?_) | (with_reducible refine State_defaultAct_keeps _ _ ?_ ?_) | (with_reducible refine polled_keeps _ ?_) | (with_reducible refine stepWith_keeps _ _ ?_ ?_) | (with_reducible refine keeps_modify ?_) | (with_reducible refine keeps_set ?_) | (with_reducible refine State_modLane_keeps _ _ _ ?_) | (with_reducible refine State_modThr_keeps _ _ _ ?_) | (with_reducible refine State_modCore_keeps _ _ _ ?_) | (with_reducible refine State_modLaunch_keeps _ _ _ ?_) | (with_reducible refine State_modGrp_keeps _ _ _ ?_) | (with_reducible refine State_modQuad_keeps _ _ _ ?_) | (with_reducible refine State_modArr_keeps _ _ _ ?_) | (with_reducible refine State_modCtx_keeps _ _ _ ?_) | (with_reducible refine good_foldl ?_ _ ?_) | (dsimp only) | split | (with_reducible refine keeps_fun ?_))
@[simp] theorem traverse_keeps (who : Who) (x : Nat) (spill : Nat) (x3 : Nat) (x4 : RayWalk) :
    Keeps (Machine.traverse who x spill x3 x4 : X (RayWalk × RayOut)) := by
  induction x3 generalizing x4 with
  | zero => exact keeps_pure _
  | succ f ih =>
    unfold Machine.traverse
    refine keeps_bind ?_ fun a => ?_
    · split
      · split <;> simp
      · simp
      · simp
    · split
      split
      · simp
      · exact ih _
@[simp] theorem rayError_keeps (code : Nat) :
    Keeps (rayError code : X (List DWord)) := by
  unfold rayError
  repeat' (first | (simp [*]; done) | (with_reducible refine keeps_bind ?_ ?_))
@[simp] theorem freeSpill_keeps (rid : Nat) (off : Nat) (x2 : Nat) :
    Keeps (freeSpill rid off x2 : X Unit) := by
  fun_induction freeSpill <;> repeat' (first | (simp_all (maxDischargeDepth := 99) +contextual +zetaDelta; done) | (with_reducible refine keeps_bind ?_ ?_) | (with_reducible intro _))
@[simp] theorem freeSpillSlots_keeps (rid : Nat) (off : Nat) (x2 : List Nat) :
    Keeps (freeSpillSlots rid off x2 : X Unit) := by
  fun_induction freeSpillSlots <;> repeat' (first | (simp_all (maxDischargeDepth := 99) +contextual +zetaDelta; done) | (rename_i e; replace e := ok_good e (by clear e; simp (maxDischargeDepth := 99) +contextual [*]) (by clear e; simp (maxDischargeDepth := 99) +contextual [*])) | (rename_i e; replace e := error_good e (by clear e; simp (maxDischargeDepth := 99) +contextual [*]) (by clear e; simp (maxDischargeDepth := 99) +contextual [*])) | (rename_i e; replace e := some_good e (by clear e; simp (maxDischargeDepth := 99) +contextual [*])) | (rename_i e; replace e := next_good e (by clear e; simp (maxDischargeDepth := 99) +contextual [*])) | (rename_i e; replace e := some_good1 e (by clear e; simp (maxDischargeDepth := 99) +contextual [*])) | (rename_i e; replace e := fst_good e (by clear e; simp (maxDischargeDepth := 99) +contextual [*])) | (rename_i e; replace e := snd_good e (by clear e; simp (maxDischargeDepth := 99) +contextual [*])) | (with_reducible refine keeps_get_bind ?_) | (with_reducible refine keeps_bind ?_ ?_) | (with_reducible intro _)  | (with_reducible refine forX_keeps _ _ ?_) | (with_reducible refine mapX_keeps _ _ ?_) | (with_reducible refine attempt_keeps _ _ ?_ ?_) | (with_reducible refine onCtl_keeps _ _ ?_ ?_) | (with_reducible refine applyX_keeps _ _ ?_ ?_) | (with_reducible refine runWord_keeps _ _ _ _ ?_ ?_) | (with_reducible refine onceVal_keeps _ ?_) | (with_reducible refine onceX_keeps _ ?_) | (with_reducible refine onceLate_keeps _ ?_) | (with_reducible refine runXgN_keeps _ _ _ _ _ ?_ ?_) | (with_reducible refine runXg_keeps _ _ _ _ ?_ ?_) | (with_reducible refine tryUnit_keeps _ _ ?_) | (with_reducible refine onUnit_keeps _ _ _ _ ?_) | (with_reducible refine holding_keeps _ _ ?_) | (with_reducible refine rayX_keeps _ _ ?_) | (with_reducible refine runK_keeps _ _ _ ?_ ?_) | (with_reducible refine after_keeps _ _ ?_ ?_) | (with_reducible refine issueItem_keeps _ _ _ _ _ ?_ ?_) | (with_reducible refine issueItems_keeps _ _ _ _ _ ?_ ?_) | (with_reducible refine issueLane_keeps _ _ _ ?_ ?_) | (with_reducible refine State_ctlWrite_keeps _ _ _ _ ?_ ?_) | (with_reducible refine State_ctxCmd_keeps _ _ _ _ ?_ ?_) | (with_reducible refine State_throughArena_keeps _ _ _ _ _ ?_ ?_) | (with_reducible refine State_stackReq_keeps _ _ _ _ _ _ ?_ ?_) | (with_reducible refine State_rootReq_keeps _ _ _ _ _ _ _ ?_ ?_) | (with_reducible refine issueAct_keeps _ _ _ ?_ ?_) | (with_reducible refine doAct_keeps _ _ _ ?_ ?_) | (with_reducible refine State_defaultAct_keeps _ _ ?_ ?_) | (with_reducible refine polled_keeps _ ?_) | (with_reducible refine stepWith_keeps _ _ ?_ ?_) | (with_reducible refine keeps_modify ?_) | (with_reducible refine keeps_set ?_) | (with_reducible refine State_modLane_keeps _ _ _ ?_) | (with_reducible refine State_modThr_keeps _ _ _ ?_) | (with_reducible refine State_modCore_keeps _ _ _ ?_) | (with_reducible refine State_modLaunch_keeps _ _ _ ?_) | (with_reducible refine State_modGrp_keeps _ _ _ ?_) | (with_reducible refine State_modQuad_keeps _ _ _ ?_) | (with_reducible refine State_modArr_keeps _ _ _ ?_) | (with_reducible refine State_modCtx_keeps _ _ _ ?_) | (with_reducible refine good_foldl ?_ _ ?_) | (dsimp only) | split | (with_reducible refine keeps_fun ?_))
@[simp] theorem spillPieces_keeps (rid : Nat) (off : Nat) (x2 : List Nat) :
    Keeps (spillPieces rid off x2 : X (List (Nat × Nat))) := by
  fun_induction spillPieces <;> repeat' (first | (simp_all (maxDischargeDepth := 99) +contextual +zetaDelta; done) | (rename_i e; replace e := ok_good e (by clear e; simp (maxDischargeDepth := 99) +contextual [*]) (by clear e; simp (maxDischargeDepth := 99) +contextual [*])) | (rename_i e; replace e := error_good e (by clear e; simp (maxDischargeDepth := 99) +contextual [*]) (by clear e; simp (maxDischargeDepth := 99) +contextual [*])) | (rename_i e; replace e := some_good e (by clear e; simp (maxDischargeDepth := 99) +contextual [*])) | (rename_i e; replace e := next_good e (by clear e; simp (maxDischargeDepth := 99) +contextual [*])) | (rename_i e; replace e := some_good1 e (by clear e; simp (maxDischargeDepth := 99) +contextual [*])) | (rename_i e; replace e := fst_good e (by clear e; simp (maxDischargeDepth := 99) +contextual [*])) | (rename_i e; replace e := snd_good e (by clear e; simp (maxDischargeDepth := 99) +contextual [*])) | (with_reducible refine keeps_get_bind ?_) | (with_reducible refine keeps_bind ?_ ?_) | (with_reducible intro _)  | (with_reducible refine forX_keeps _ _ ?_) | (with_reducible refine mapX_keeps _ _ ?_) | (with_reducible refine attempt_keeps _ _ ?_ ?_) | (with_reducible refine onCtl_keeps _ _ ?_ ?_) | (with_reducible refine applyX_keeps _ _ ?_ ?_) | (with_reducible refine runWord_keeps _ _ _ _ ?_ ?_) | (with_reducible refine onceVal_keeps _ ?_) | (with_reducible refine onceX_keeps _ ?_) | (with_reducible refine onceLate_keeps _ ?_) | (with_reducible refine runXgN_keeps _ _ _ _ _ ?_ ?_) | (with_reducible refine runXg_keeps _ _ _ _ ?_ ?_) | (with_reducible refine tryUnit_keeps _ _ ?_) | (with_reducible refine onUnit_keeps _ _ _ _ ?_) | (with_reducible refine holding_keeps _ _ ?_) | (with_reducible refine rayX_keeps _ _ ?_) | (with_reducible refine runK_keeps _ _ _ ?_ ?_) | (with_reducible refine after_keeps _ _ ?_ ?_) | (with_reducible refine issueItem_keeps _ _ _ _ _ ?_ ?_) | (with_reducible refine issueItems_keeps _ _ _ _ _ ?_ ?_) | (with_reducible refine issueLane_keeps _ _ _ ?_ ?_) | (with_reducible refine State_ctlWrite_keeps _ _ _ _ ?_ ?_) | (with_reducible refine State_ctxCmd_keeps _ _ _ _ ?_ ?_) | (with_reducible refine State_throughArena_keeps _ _ _ _ _ ?_ ?_) | (with_reducible refine State_stackReq_keeps _ _ _ _ _ _ ?_ ?_) | (with_reducible refine State_rootReq_keeps _ _ _ _ _ _ _ ?_ ?_) | (with_reducible refine issueAct_keeps _ _ _ ?_ ?_) | (with_reducible refine doAct_keeps _ _ _ ?_ ?_) | (with_reducible refine State_defaultAct_keeps _ _ ?_ ?_) | (with_reducible refine polled_keeps _ ?_) | (with_reducible refine stepWith_keeps _ _ ?_ ?_) | (with_reducible refine keeps_modify ?_) | (with_reducible refine keeps_set ?_) | (with_reducible refine State_modLane_keeps _ _ _ ?_) | (with_reducible refine State_modThr_keeps _ _ _ ?_) | (with_reducible refine State_modCore_keeps _ _ _ ?_) | (with_reducible refine State_modLaunch_keeps _ _ _ ?_) | (with_reducible refine State_modGrp_keeps _ _ _ ?_) | (with_reducible refine State_modQuad_keeps _ _ _ ?_) | (with_reducible refine State_modArr_keeps _ _ _ ?_) | (with_reducible refine State_modCtx_keeps _ _ _ ?_) | (with_reducible refine good_foldl ?_ _ ?_) | (dsimp only) | split | (with_reducible refine keeps_fun ?_))
@[simp] theorem heldRay_keeps (ctx : Nat) (rid : Nat) (off : Nat) (x3 : List SuspRay) :
    Keeps (heldRay ctx rid off x3 : X (Option SuspRay)) := by
  fun_induction heldRay <;> repeat' (first | (simp_all (maxDischargeDepth := 99) +contextual +zetaDelta; done) | (rename_i e; replace e := ok_good e (by clear e; simp (maxDischargeDepth := 99) +contextual [*]) (by clear e; simp (maxDischargeDepth := 99) +contextual [*])) | (rename_i e; replace e := error_good e (by clear e; simp (maxDischargeDepth := 99) +contextual [*]) (by clear e; simp (maxDischargeDepth := 99) +contextual [*])) | (rename_i e; replace e := some_good e (by clear e; simp (maxDischargeDepth := 99) +contextual [*])) | (rename_i e; replace e := next_good e (by clear e; simp (maxDischargeDepth := 99) +contextual [*])) | (rename_i e; replace e := some_good1 e (by clear e; simp (maxDischargeDepth := 99) +contextual [*])) | (rename_i e; replace e := fst_good e (by clear e; simp (maxDischargeDepth := 99) +contextual [*])) | (rename_i e; replace e := snd_good e (by clear e; simp (maxDischargeDepth := 99) +contextual [*])) | (with_reducible refine keeps_get_bind ?_) | (with_reducible refine keeps_bind ?_ ?_) | (with_reducible intro _)  | (with_reducible refine forX_keeps _ _ ?_) | (with_reducible refine mapX_keeps _ _ ?_) | (with_reducible refine attempt_keeps _ _ ?_ ?_) | (with_reducible refine onCtl_keeps _ _ ?_ ?_) | (with_reducible refine applyX_keeps _ _ ?_ ?_) | (with_reducible refine runWord_keeps _ _ _ _ ?_ ?_) | (with_reducible refine onceVal_keeps _ ?_) | (with_reducible refine onceX_keeps _ ?_) | (with_reducible refine onceLate_keeps _ ?_) | (with_reducible refine runXgN_keeps _ _ _ _ _ ?_ ?_) | (with_reducible refine runXg_keeps _ _ _ _ ?_ ?_) | (with_reducible refine tryUnit_keeps _ _ ?_) | (with_reducible refine onUnit_keeps _ _ _ _ ?_) | (with_reducible refine holding_keeps _ _ ?_) | (with_reducible refine rayX_keeps _ _ ?_) | (with_reducible refine runK_keeps _ _ _ ?_ ?_) | (with_reducible refine after_keeps _ _ ?_ ?_) | (with_reducible refine issueItem_keeps _ _ _ _ _ ?_ ?_) | (with_reducible refine issueItems_keeps _ _ _ _ _ ?_ ?_) | (with_reducible refine issueLane_keeps _ _ _ ?_ ?_) | (with_reducible refine State_ctlWrite_keeps _ _ _ _ ?_ ?_) | (with_reducible refine State_ctxCmd_keeps _ _ _ _ ?_ ?_) | (with_reducible refine State_throughArena_keeps _ _ _ _ _ ?_ ?_) | (with_reducible refine State_stackReq_keeps _ _ _ _ _ _ ?_ ?_) | (with_reducible refine State_rootReq_keeps _ _ _ _ _ _ _ ?_ ?_) | (with_reducible refine issueAct_keeps _ _ _ ?_ ?_) | (with_reducible refine doAct_keeps _ _ _ ?_ ?_) | (with_reducible refine State_defaultAct_keeps _ _ ?_ ?_) | (with_reducible refine polled_keeps _ ?_) | (with_reducible refine stepWith_keeps _ _ ?_ ?_) | (with_reducible refine keeps_modify ?_) | (with_reducible refine keeps_set ?_) | (with_reducible refine State_modLane_keeps _ _ _ ?_) | (with_reducible refine State_modThr_keeps _ _ _ ?_) | (with_reducible refine State_modCore_keeps _ _ _ ?_) | (with_reducible refine State_modLaunch_keeps _ _ _ ?_) | (with_reducible refine State_modGrp_keeps _ _ _ ?_) | (with_reducible refine State_modQuad_keeps _ _ _ ?_) | (with_reducible refine State_modArr_keeps _ _ _ ?_) | (with_reducible refine State_modCtx_keeps _ _ _ ?_) | (with_reducible refine good_foldl ?_ _ ?_) | (dsimp only) | split | (with_reducible refine keeps_fun ?_))
@[simp] theorem State_dropRay_keeps (s : State) (rid : Nat) (off : Nat) (hs : Good s.mem.cells) :
    Good (State.dropRay s rid off).mem.cells := by
  unfold State.dropRay
  repeat' (first | (simp (maxDischargeDepth := 99) +contextual [*]; done) | (rename_i e; replace e := ok_good e (by clear e; simp (maxDischargeDepth := 99) +contextual [*]) (by clear e; simp (maxDischargeDepth := 99) +contextual [*])) | (rename_i e; replace e := error_good e (by clear e; simp (maxDischargeDepth := 99) +contextual [*]) (by clear e; simp (maxDischargeDepth := 99) +contextual [*])) | (rename_i e; replace e := some_good e (by clear e; simp (maxDischargeDepth := 99) +contextual [*])) | (rename_i e; replace e := next_good e (by clear e; simp (maxDischargeDepth := 99) +contextual [*])) | (rename_i e; replace e := some_good1 e (by clear e; simp (maxDischargeDepth := 99) +contextual [*])) | (rename_i e; replace e := fst_good e (by clear e; simp (maxDischargeDepth := 99) +contextual [*])) | (rename_i e; replace e := snd_good e (by clear e; simp (maxDischargeDepth := 99) +contextual [*])) | (with_reducible refine keeps_get_bind ?_) | (with_reducible refine keeps_bind ?_ ?_) | (with_reducible intro _)  | (with_reducible refine forX_keeps _ _ ?_) | (with_reducible refine mapX_keeps _ _ ?_) | (with_reducible refine attempt_keeps _ _ ?_ ?_) | (with_reducible refine onCtl_keeps _ _ ?_ ?_) | (with_reducible refine applyX_keeps _ _ ?_ ?_) | (with_reducible refine runWord_keeps _ _ _ _ ?_ ?_) | (with_reducible refine onceVal_keeps _ ?_) | (with_reducible refine onceX_keeps _ ?_) | (with_reducible refine onceLate_keeps _ ?_) | (with_reducible refine runXgN_keeps _ _ _ _ _ ?_ ?_) | (with_reducible refine runXg_keeps _ _ _ _ ?_ ?_) | (with_reducible refine tryUnit_keeps _ _ ?_) | (with_reducible refine onUnit_keeps _ _ _ _ ?_) | (with_reducible refine holding_keeps _ _ ?_) | (with_reducible refine rayX_keeps _ _ ?_) | (with_reducible refine runK_keeps _ _ _ ?_ ?_) | (with_reducible refine after_keeps _ _ ?_ ?_) | (with_reducible refine issueItem_keeps _ _ _ _ _ ?_ ?_) | (with_reducible refine issueItems_keeps _ _ _ _ _ ?_ ?_) | (with_reducible refine issueLane_keeps _ _ _ ?_ ?_) | (with_reducible refine State_ctlWrite_keeps _ _ _ _ ?_ ?_) | (with_reducible refine State_ctxCmd_keeps _ _ _ _ ?_ ?_) | (with_reducible refine State_throughArena_keeps _ _ _ _ _ ?_ ?_) | (with_reducible refine State_stackReq_keeps _ _ _ _ _ _ ?_ ?_) | (with_reducible refine State_rootReq_keeps _ _ _ _ _ _ _ ?_ ?_) | (with_reducible refine issueAct_keeps _ _ _ ?_ ?_) | (with_reducible refine doAct_keeps _ _ _ ?_ ?_) | (with_reducible refine State_defaultAct_keeps _ _ ?_ ?_) | (with_reducible refine polled_keeps _ ?_) | (with_reducible refine stepWith_keeps _ _ ?_ ?_) | (with_reducible refine keeps_modify ?_) | (with_reducible refine keeps_set ?_) | (with_reducible refine State_modLane_keeps _ _ _ ?_) | (with_reducible refine State_modThr_keeps _ _ _ ?_) | (with_reducible refine State_modCore_keeps _ _ _ ?_) | (with_reducible refine State_modLaunch_keeps _ _ _ ?_) | (with_reducible refine State_modGrp_keeps _ _ _ ?_) | (with_reducible refine State_modQuad_keeps _ _ _ ?_) | (with_reducible refine State_modArr_keeps _ _ _ ?_) | (with_reducible refine State_modCtx_keeps _ _ _ ?_) | (with_reducible refine good_foldl ?_ _ ?_) | (dsimp only) | split | (with_reducible refine keeps_fun ?_))
@[simp] theorem settleRay_keeps (rid : Nat) (spoff : Nat) (spill : Nat) (ctx : Nat) (tmax : Nat) (w : RayWalk) (out : RayOut) :
    Keeps (settleRay rid spoff spill ctx tmax w out : X (List DWord)) := by
  unfold settleRay
  repeat' (first | (simp (maxDischargeDepth := 99) +contextual [*]; done) | (rename_i e; replace e := ok_good e (by clear e; simp (maxDischargeDepth := 99) +contextual [*]) (by clear e; simp (maxDischargeDepth := 99) +contextual [*])) | (rename_i e; replace e := error_good e (by clear e; simp (maxDischargeDepth := 99) +contextual [*]) (by clear e; simp (maxDischargeDepth := 99) +contextual [*])) | (rename_i e; replace e := some_good e (by clear e; simp (maxDischargeDepth := 99) +contextual [*])) | (rename_i e; replace e := next_good e (by clear e; simp (maxDischargeDepth := 99) +contextual [*])) | (rename_i e; replace e := some_good1 e (by clear e; simp (maxDischargeDepth := 99) +contextual [*])) | (rename_i e; replace e := fst_good e (by clear e; simp (maxDischargeDepth := 99) +contextual [*])) | (rename_i e; replace e := snd_good e (by clear e; simp (maxDischargeDepth := 99) +contextual [*])) | (with_reducible refine keeps_get_bind ?_) | (with_reducible refine keeps_bind ?_ ?_) | (with_reducible intro _)  | (with_reducible refine forX_keeps _ _ ?_) | (with_reducible refine mapX_keeps _ _ ?_) | (with_reducible refine attempt_keeps _ _ ?_ ?_) | (with_reducible refine onCtl_keeps _ _ ?_ ?_) | (with_reducible refine applyX_keeps _ _ ?_ ?_) | (with_reducible refine runWord_keeps _ _ _ _ ?_ ?_) | (with_reducible refine onceVal_keeps _ ?_) | (with_reducible refine onceX_keeps _ ?_) | (with_reducible refine onceLate_keeps _ ?_) | (with_reducible refine runXgN_keeps _ _ _ _ _ ?_ ?_) | (with_reducible refine runXg_keeps _ _ _ _ ?_ ?_) | (with_reducible refine tryUnit_keeps _ _ ?_) | (with_reducible refine onUnit_keeps _ _ _ _ ?_) | (with_reducible refine holding_keeps _ _ ?_) | (with_reducible refine rayX_keeps _ _ ?_) | (with_reducible refine runK_keeps _ _ _ ?_ ?_) | (with_reducible refine after_keeps _ _ ?_ ?_) | (with_reducible refine issueItem_keeps _ _ _ _ _ ?_ ?_) | (with_reducible refine issueItems_keeps _ _ _ _ _ ?_ ?_) | (with_reducible refine issueLane_keeps _ _ _ ?_ ?_) | (with_reducible refine State_ctlWrite_keeps _ _ _ _ ?_ ?_) | (with_reducible refine State_ctxCmd_keeps _ _ _ _ ?_ ?_) | (with_reducible refine State_throughArena_keeps _ _ _ _ _ ?_ ?_) | (with_reducible refine State_stackReq_keeps _ _ _ _ _ _ ?_ ?_) | (with_reducible refine State_rootReq_keeps _ _ _ _ _ _ _ ?_ ?_) | (with_reducible refine issueAct_keeps _ _ _ ?_ ?_) | (with_reducible refine doAct_keeps _ _ _ ?_ ?_) | (with_reducible refine State_defaultAct_keeps _ _ ?_ ?_) | (with_reducible refine polled_keeps _ ?_) | (with_reducible refine stepWith_keeps _ _ ?_ ?_) | (with_reducible refine keeps_modify ?_) | (with_reducible refine keeps_set ?_) | (with_reducible refine State_modLane_keeps _ _ _ ?_) | (with_reducible refine State_modThr_keeps _ _ _ ?_) | (with_reducible refine State_modCore_keeps _ _ _ ?_) | (with_reducible refine State_modLaunch_keeps _ _ _ ?_) | (with_reducible refine State_modGrp_keeps _ _ _ ?_) | (with_reducible refine State_modQuad_keeps _ _ _ ?_) | (with_reducible refine State_modArr_keeps _ _ _ ?_) | (with_reducible refine State_modCtx_keeps _ _ _ ?_) | (with_reducible refine good_foldl ?_ _ ?_) | (dsimp only) | split | (with_reducible refine keeps_fun ?_))
@[simp] theorem rayPlace_keeps (off : Nat) :
    Keeps (rayPlace off : X Place) := by
  unfold rayPlace
  repeat' (first | (simp [*]; done) | (with_reducible refine keeps_get_bind ?_))
@[simp] theorem rayRecord_keeps (off : Nat) (p : Place) :
    Keeps (rayRecord off p : X Nat) := by
  unfold rayRecord
  repeat' (first | (simp [*]; done) | (with_reducible refine keeps_bind ?_ ?_) | (with_reducible intro _))
@[simp] theorem tryUnit_keeps {α : Type} (mid : Nat) (x : X α) (hx : Keeps x) :
    Keeps (tryUnit mid x : X (Option α)) := by
  unfold tryUnit
  refine keeps_get_bind fun s _ => keeps_ite (by simp) (keeps_fun fun s h => ?_)
  have h' := hx s h
  split <;> (rename_i e; rw [e] at h'; first | exact h' | exact applyDeny_keeps _ _ h')
@[simp] theorem onUnit_keeps (mid : Nat) (n : Nat) (kind : Nat) (x : X (List DWord × Bool × List (Nat × Nat))) (hx : Keeps x) :
    Keeps (onUnit mid n kind x : X Unit) := by
  unfold onUnit
  repeat' (first | (simp [*]; done) | (with_reducible refine keeps_bind ?_ ?_) | (with_reducible intro _) | split)
@[simp] theorem holding_keeps {α : Type} (sc : List (Nat × Nat)) (x : X α) (hx : Keeps x) :
    Keeps (holding sc x : X α) := by
  unfold holding
  repeat' (first | (simp (maxDischargeDepth := 99) +contextual [*]; done) | (rename_i e; replace e := ok_good e (by clear e; simp (maxDischargeDepth := 99) +contextual [*]) (by clear e; simp (maxDischargeDepth := 99) +contextual [*])) | (rename_i e; replace e := error_good e (by clear e; simp (maxDischargeDepth := 99) +contextual [*]) (by clear e; simp (maxDischargeDepth := 99) +contextual [*])) | (rename_i e; replace e := some_good e (by clear e; simp (maxDischargeDepth := 99) +contextual [*])) | (rename_i e; replace e := next_good e (by clear e; simp (maxDischargeDepth := 99) +contextual [*])) | (rename_i e; replace e := some_good1 e (by clear e; simp (maxDischargeDepth := 99) +contextual [*])) | (rename_i e; replace e := fst_good e (by clear e; simp (maxDischargeDepth := 99) +contextual [*])) | (rename_i e; replace e := snd_good e (by clear e; simp (maxDischargeDepth := 99) +contextual [*])) | (with_reducible refine keeps_get_bind ?_) | (with_reducible refine keeps_bind ?_ ?_) | (with_reducible intro _)  | (with_reducible refine forX_keeps _ _ ?_) | (with_reducible refine mapX_keeps _ _ ?_) | (with_reducible refine attempt_keeps _ _ ?_ ?_) | (with_reducible refine onCtl_keeps _ _ ?_ ?_) | (with_reducible refine applyX_keeps _ _ ?_ ?_) | (with_reducible refine runWord_keeps _ _ _ _ ?_ ?_) | (with_reducible refine onceVal_keeps _ ?_) | (with_reducible refine onceX_keeps _ ?_) | (with_reducible refine onceLate_keeps _ ?_) | (with_reducible refine runXgN_keeps _ _ _ _ _ ?_ ?_) | (with_reducible refine runXg_keeps _ _ _ _ ?_ ?_) | (with_reducible refine tryUnit_keeps _ _ ?_) | (with_reducible refine onUnit_keeps _ _ _ _ ?_) | (with_reducible refine holding_keeps _ _ ?_) | (with_reducible refine rayX_keeps _ _ ?_) | (with_reducible refine runK_keeps _ _ _ ?_ ?_) | (with_reducible refine after_keeps _ _ ?_ ?_) | (with_reducible refine issueItem_keeps _ _ _ _ _ ?_ ?_) | (with_reducible refine issueItems_keeps _ _ _ _ _ ?_ ?_) | (with_reducible refine issueLane_keeps _ _ _ ?_ ?_) | (with_reducible refine State_ctlWrite_keeps _ _ _ _ ?_ ?_) | (with_reducible refine State_ctxCmd_keeps _ _ _ _ ?_ ?_) | (with_reducible refine State_throughArena_keeps _ _ _ _ _ ?_ ?_) | (with_reducible refine State_stackReq_keeps _ _ _ _ _ _ ?_ ?_) | (with_reducible refine State_rootReq_keeps _ _ _ _ _ _ _ ?_ ?_) | (with_reducible refine issueAct_keeps _ _ _ ?_ ?_) | (with_reducible refine doAct_keeps _ _ _ ?_ ?_) | (with_reducible refine State_defaultAct_keeps _ _ ?_ ?_) | (with_reducible refine polled_keeps _ ?_) | (with_reducible refine stepWith_keeps _ _ ?_ ?_) | (with_reducible refine keeps_modify ?_) | (with_reducible refine keeps_set ?_) | (with_reducible refine State_modLane_keeps _ _ _ ?_) | (with_reducible refine State_modThr_keeps _ _ _ ?_) | (with_reducible refine State_modCore_keeps _ _ _ ?_) | (with_reducible refine State_modLaunch_keeps _ _ _ ?_) | (with_reducible refine State_modGrp_keeps _ _ _ ?_) | (with_reducible refine State_modQuad_keeps _ _ _ ?_) | (with_reducible refine State_modArr_keeps _ _ _ ?_) | (with_reducible refine State_modCtx_keeps _ _ _ ?_) | (with_reducible refine good_foldl ?_ _ ?_) | (dsimp only) | split | (with_reducible refine keeps_fun ?_))
@[simp] theorem rayGo_keeps (x : Nat) (rid : Nat) (spill : Nat) (ctx : Nat) (hit : Option (Nat × Bool)) :
    Keeps (rayGo x rid spill ctx hit : X (List DWord × Bool × List (Nat × Nat))) := by
  unfold rayGo
  repeat' (first | (simp (maxDischargeDepth := 99) +contextual [*]; done) | (rename_i e; replace e := ok_good e (by clear e; simp (maxDischargeDepth := 99) +contextual [*]) (by clear e; simp (maxDischargeDepth := 99) +contextual [*])) | (rename_i e; replace e := error_good e (by clear e; simp (maxDischargeDepth := 99) +contextual [*]) (by clear e; simp (maxDischargeDepth := 99) +contextual [*])) | (rename_i e; replace e := some_good e (by clear e; simp (maxDischargeDepth := 99) +contextual [*])) | (rename_i e; replace e := next_good e (by clear e; simp (maxDischargeDepth := 99) +contextual [*])) | (rename_i e; replace e := some_good1 e (by clear e; simp (maxDischargeDepth := 99) +contextual [*])) | (rename_i e; replace e := fst_good e (by clear e; simp (maxDischargeDepth := 99) +contextual [*])) | (rename_i e; replace e := snd_good e (by clear e; simp (maxDischargeDepth := 99) +contextual [*])) | (with_reducible refine keeps_get_bind ?_) | (with_reducible refine keeps_bind ?_ ?_) | (with_reducible intro _)  | (with_reducible refine forX_keeps _ _ ?_) | (with_reducible refine mapX_keeps _ _ ?_) | (with_reducible refine attempt_keeps _ _ ?_ ?_) | (with_reducible refine onCtl_keeps _ _ ?_ ?_) | (with_reducible refine applyX_keeps _ _ ?_ ?_) | (with_reducible refine runWord_keeps _ _ _ _ ?_ ?_) | (with_reducible refine onceVal_keeps _ ?_) | (with_reducible refine onceX_keeps _ ?_) | (with_reducible refine onceLate_keeps _ ?_) | (with_reducible refine runXgN_keeps _ _ _ _ _ ?_ ?_) | (with_reducible refine runXg_keeps _ _ _ _ ?_ ?_) | (with_reducible refine tryUnit_keeps _ _ ?_) | (with_reducible refine onUnit_keeps _ _ _ _ ?_) | (with_reducible refine holding_keeps _ _ ?_) | (with_reducible refine rayX_keeps _ _ ?_) | (with_reducible refine runK_keeps _ _ _ ?_ ?_) | (with_reducible refine after_keeps _ _ ?_ ?_) | (with_reducible refine issueItem_keeps _ _ _ _ _ ?_ ?_) | (with_reducible refine issueItems_keeps _ _ _ _ _ ?_ ?_) | (with_reducible refine issueLane_keeps _ _ _ ?_ ?_) | (with_reducible refine State_ctlWrite_keeps _ _ _ _ ?_ ?_) | (with_reducible refine State_ctxCmd_keeps _ _ _ _ ?_ ?_) | (with_reducible refine State_throughArena_keeps _ _ _ _ _ ?_ ?_) | (with_reducible refine State_stackReq_keeps _ _ _ _ _ _ ?_ ?_) | (with_reducible refine State_rootReq_keeps _ _ _ _ _ _ _ ?_ ?_) | (with_reducible refine issueAct_keeps _ _ _ ?_ ?_) | (with_reducible refine doAct_keeps _ _ _ ?_ ?_) | (with_reducible refine State_defaultAct_keeps _ _ ?_ ?_) | (with_reducible refine polled_keeps _ ?_) | (with_reducible refine stepWith_keeps _ _ ?_ ?_) | (with_reducible refine keeps_modify ?_) | (with_reducible refine keeps_set ?_) | (with_reducible refine State_modLane_keeps _ _ _ ?_) | (with_reducible refine State_modThr_keeps _ _ _ ?_) | (with_reducible refine State_modCore_keeps _ _ _ ?_) | (with_reducible refine State_modLaunch_keeps _ _ _ ?_) | (with_reducible refine State_modGrp_keeps _ _ _ ?_) | (with_reducible refine State_modQuad_keeps _ _ _ ?_) | (with_reducible refine State_modArr_keeps _ _ _ ?_) | (with_reducible refine State_modCtx_keeps _ _ _ ?_) | (with_reducible refine good_foldl ?_ _ ?_) | (dsimp only) | split | (with_reducible refine keeps_fun ?_))
@[simp] theorem rayX_keeps (a : Src) (hitr : Option (X (Nat × Bool))) (hhitr : ∀ y, hitr = some y → Keeps y) :
    Keeps (rayX a hitr : X Unit) := by
  unfold rayX
  refine keeps_bind (by simp) fun off => keeps_bind (by simp) fun p => keeps_bind ?_ fun v =>
    keeps_bind (keeps_modify fun s h => by simp [h]) fun _ => keeps_get_bind fun s _ => ?_
  · split
    · exact keeps_pure _
    · exact keeps_bind (hhitr _ rfl) fun _ => keeps_pure _
  refine keeps_bind (by simp) fun x => ?_
  split <;> simp
@[simp] theorem execTrace_keeps (hd : Hd) (a : Src) (st : State) (hst : Good st.mem.cells) :
    OutGood (execTrace hd a st) := by
  unfold execTrace
  exact runWord_keeps _ _ _ _ (rayX_keeps _ _ (by simp)) hst
@[simp] theorem execHitr_keeps (hd : Hd) (a : Src) (b : Src) (st : State) (hst : Good st.mem.cells) :
    OutGood (execHitr hd a b st) := by
  unfold execHitr
  refine runWord_keeps _ _ _ _ (rayX_keeps _ _ fun y e => ?_) hst
  cases e
  refine keeps_bind (by simp) fun h => ?_
  split <;> simp
@[simp] theorem noteToken_keeps (a : Src) (st : State) (hst : Good st.mem.cells) :
    ResGood (noteToken a st) := by
  unfold noteToken
  dsimp only
  split
  · exact hst
  · have h := src32_keeps a st hst
    split <;> (rename_i e; rw [e] at h; first | exact h | exact State_modRun_keeps _ _ h)
@[simp] theorem execRast_keeps (hd : Hd) (a : Src) (n : Fin 4) (l : Cull) (st : State) (hst : Good st.mem.cells) :
    OutGood (execRast hd a n l st) := by
  unfold execRast
  split
  · simp [hst]
  · rename_i e
    refine runXgN_keeps _ _ _ _ _ ?_ (ok_good e (noteToken_keeps a) hst)
    refine keeps_get_bind fun s _ => ?_
    split <;> simp
@[simp] theorem execBoxu_keeps (hd : Hd) (a : Src) (b : Src) (m : BoxMode) (st : State) (hst : Good st.mem.cells) :
    OutGood (execBoxu hd a b m st) := by
  unfold execBoxu
  repeat' (first | (simp [*]; done) | (with_reducible refine keeps_bind ?_ ?_) | (with_reducible intro _) | (with_reducible refine runWord_keeps _ _ _ _ ?_ ?_) | (with_reducible refine runXg_keeps _ _ _ _ ?_ ?_) | split)
@[simp] theorem execSah_keeps (hd : Hd) (a : Src) (b : Src) (r : RM) (st : State) (hst : Good st.mem.cells) :
    OutGood (execSah hd a b r st) := by
  unfold execSah
  repeat' (first | (simp [*]; done) | (with_reducible refine keeps_bind ?_ ?_) | (with_reducible intro _) | (with_reducible refine runWord_keeps _ _ _ _ ?_ ?_) | (dsimp only) | split)
@[simp] theorem execNpack_keeps (hd : Hd) (a : Src) (b : Src) (st : State) (hst : Good st.mem.cells) :
    OutGood (execNpack hd a b st) := by
  unfold execNpack
  repeat' (first | (simp [*]; done) | (with_reducible refine keeps_bind ?_ ?_) | (with_reducible intro _) | (with_reducible refine runWord_keeps _ _ _ _ ?_ ?_))

end Sys2Proof.Laws
end

