-- ==== Sys2Proof/Laws/KeepEdge.lean ====
section
/-! SUPPORT. Every operation of Machine/Edge.lean keeps the memory canonical. -/
namespace Sys2Proof.Laws
open Sys2Proof.Machine

@[simp] theorem argRegs_keeps (b : Src) (x1 : Nat) (x2 : Nat) :
    Keeps (argRegs b x1 x2 : X (List Word)) := by
  fun_induction argRegs <;> repeat' (first | (simp_all (maxDischargeDepth := 99) +contextual +zetaDelta; done) | (with_reducible refine keeps_bind ?_ ?_) | (with_reducible intro _) | split)
@[simp] theorem needFrame_keeps :
    Keeps (needFrame : X Nat) := by
  unfold needFrame
  refine keeps_get_bind fun s _ => ?_
  split
  · exact keeps_pure _
  dsimp only
  split
  · exact keeps_bind (by simp) fun f => keeps_bind (keeps_modify fun t ht => State_makeWay_keeps _ _ _ _ (State_modCur_keeps _ _
      (State_modCtx_keeps t s.cur.id.ctx (fun x => { x with nextFrame := (t.ctxD s.cur.id.ctx).nextFrame + 1 }) ht))) fun _ => keeps_pure _
  · simp
@[simp] theorem execSpawn_keeps (hd : Hd) (a : Src) (b : Src) (st : State) (hst : Good st.mem.cells) :
    OutGood (execSpawn hd a b st) := by
  unfold execSpawn
  repeat' (first | (simp [*]; done) | (rename_i e; replace e := some_good e (by clear e; simp [*])) | (with_reducible refine keeps_get_bind ?_) | (with_reducible refine keeps_bind ?_ ?_) | (with_reducible intro _) | (with_reducible refine runWord_keeps _ _ _ _ ?_ ?_) | (with_reducible refine keeps_modify ?_) | (with_reducible refine keeps_set ?_) | (dsimp only) | split)
@[simp] theorem execTrig_keeps (hd : Hd) (st : State) (hst : Good st.mem.cells) :
    OutGood (execTrig hd st) := by
  unfold execTrig
  repeat' (first | (simp [*]; done) | (with_reducible intro _) | (with_reducible refine runWord_keeps _ _ _ _ ?_ ?_) | (with_reducible refine keeps_modify ?_) | (with_reducible refine State_modLaunch_keeps _ _ _ ?_) | (dsimp only) | split)
@[simp] theorem execPub_keeps (hd : Hd) (st : State) (hst : Good st.mem.cells) :
    OutGood (execPub hd st) := by
  unfold execPub
  repeat' (first | (simp (maxDischargeDepth := 99) +contextual [*]; done) | (with_reducible refine keeps_get_bind ?_) | (with_reducible refine runWord_keeps _ _ _ _ ?_ ?_))
@[simp] theorem execBar_keeps (hd : Hd) (a : Src) (b : Src) (l : Fin 8) (st : State) (hst : Good st.mem.cells) :
    OutGood (execBar hd a b l st) := by
  unfold execBar
  repeat' (first | (simp (maxDischargeDepth := 99) +contextual [*]; done) | (with_reducible refine keeps_bind ?_ ?_) | (with_reducible intro _) | (with_reducible refine runWord_keeps _ _ _ _ ?_ ?_))
@[simp] theorem postList_keeps (id : Nat) (ws : List Word) :
    Keeps (postList id ws : X Unit) := by
  unfold postList
  simp (maxDischargeDepth := 99) +contextual [*]
@[simp] theorem State_appendList_keeps (s : State) (core : Nat) (l : Nat) (id : Nat) (es : List BinEnt) (hs : Good s.mem.cells) :
    OptGood1 (State.appendList s core l id es) := by
  unfold State.appendList
  repeat' (first | (simp [*]; done) | (dsimp only) | split)
@[simp] theorem State_packLists_keeps (s : State) (lane : Nat) (l : Nat) (posts : List (Nat × List Word)) (hs : Good s.mem.cells) :
    Good (State.packLists s lane l posts).mem.cells := by
  unfold State.packLists
  repeat' (first | (simp [*]; done) | (rename_i e; replace e := some_good1 e (by clear e; simp [*])) | (with_reducible intro _) | (with_reducible refine good_foldl ?_ _ ?_) | split)
@[simp] theorem State_packPosts_keeps (s : State) (lane : Nat) (hs : Good s.mem.cells) :
    Good (State.packPosts s lane).mem.cells := by
  unfold State.packPosts
  repeat' (first | (simp [*]; done) | split)
@[simp] theorem postNode_keeps (nl : Nat) (ws : List Word) :
    Keeps (postNode nl ws : X Unit) := by
  unfold postNode
  repeat' (first | (simp [*]; done) | (rename_i e; replace e := some_good e (by clear e; simp [*])) | (with_reducible refine keeps_get_bind ?_) | (with_reducible refine keeps_bind ?_ ?_) | (with_reducible intro _) | (with_reducible refine keeps_modify ?_) | (dsimp only) | split)
@[simp] theorem execPost_keeps (hd : Hd) (a : Src) (b : Src) (s : Bool) (n : Fin 8) (st : State) (hst : Good st.mem.cells) :
    OutGood (execPost hd a b s n st) := by
  unfold execPost
  repeat' (first | (simp [*]; done) | (with_reducible refine keeps_bind ?_ ?_) | (with_reducible intro _) | (with_reducible refine runWord_keeps _ _ _ _ ?_ ?_) | split)
@[simp] theorem takeRecord_keeps (s : State) (core : Nat) (l : Nat) (id : Nat) (hs : Good s.mem.cells) :
    ∀ r, takeRecord s core l id = some r → Good r.2.2.mem.cells := by
  intro r e
  obtain ⟨c, -, e⟩ := List.exists_of_findSome?_eq_some e
  split at e
  · split at e
    · cases e
      dsimp only
      split <;> simp [hs]
    · cases e
  · cases e
@[simp] theorem execPick_keeps (hd : Hd) (a : Src) (n : Fin 8) (st : State) (hst : Good st.mem.cells) :
    OutGood (execPick hd a n st) := by
  unfold execPick
  refine runWord_keeps _ _ _ _ ?_ hst
  refine keeps_bind (by simp) fun x => keeps_get_bind fun s hs => ?_
  split
  · simp
  split
  · simp
  split
  · exact keeps_bind (forX_keeps _ _ fun _ => by simp) fun _ => by simp
  · rename_i e
    have h := takeRecord_keeps _ _ _ _ hs _ e
    refine keeps_bind (keeps_set ?_) fun _ => keeps_bind (forX_keeps _ _ fun _ => by simp) fun _ => by simp
    split <;> simp [h]
@[simp] theorem execQwait_keeps (hd : Hd) (a : Src) (s : Bool) (st : State) (hst : Good st.mem.cells) :
    OutGood (execQwait hd a s st) := by
  unfold execQwait
  repeat' (first | (simp [*]; done) | (with_reducible refine keeps_bind ?_ ?_) | (with_reducible intro _) | (with_reducible refine runWord_keeps _ _ _ _ ?_ ?_))
@[simp] theorem execNode_keeps (hd : Hd) (a : Src) (s : Bool) (st : State) (hst : Good st.mem.cells) :
    OutGood (execNode hd a s st) := by
  unfold execNode
  repeat' (first | (simp [*]; done) | (with_reducible refine keeps_get_bind ?_) | (with_reducible refine keeps_bind ?_ ?_) | (with_reducible intro _) | (with_reducible refine runWord_keeps _ _ _ _ ?_ ?_) | (with_reducible refine onceX_keeps _ ?_) | split)

end Sys2Proof.Laws
end

