-- ==== Sys2Proof/Laws/KeepRunEnd.lean ====
section
/-! SUPPORT. Every operation of Machine/RunEnd.lean keeps the memory canonical. -/
namespace Sys2Proof.Laws
open Sys2Proof.Machine

@[simp] theorem State_applyScfg_keeps (s : State) (g : Nat) (gr : Grp) (e : ScfgEff) (hs : Good s.mem.cells) :
    Good (State.applyScfg s g gr e).mem.cells := by
  unfold State.applyScfg
  repeat' (first | (simp [*]; done) | (with_reducible intro _) | (with_reducible refine State_modGrp_keeps _ _ _ ?_) | (with_reducible refine good_foldl ?_ _ ?_) | split)
@[simp] theorem State_earlyReports_keeps (s : State) (ctx : Nat) (id : Nat) (count : Nat) (hs : Good s.mem.cells) :
    Good (State.earlyReports s ctx id count).2.mem.cells := by
  unfold State.earlyReports
  repeat' (first | (simp [*]; done) | (dsimp only) | split)
@[simp] theorem State_joinBar_keeps (s : State) (t : Nat) (lvl : Nat) (id : Nat) (count : Nat) (hs : Good s.mem.cells) :
    OptGood (State.joinBar s t lvl id count) := by
  unfold State.joinBar
  repeat' (first | (simp (maxDischargeDepth := 99) +contextual [*]; done) | (dsimp only) | split)
@[simp] theorem State_arriveAt_keeps (s : State) (t : Nat) (w : PWait) (hs : Good s.mem.cells) :
    Good (State.arriveAt s t w).mem.cells := by
  unfold State.arriveAt
  repeat' (first | (simp [*]; done) | (rename_i e; replace e := some_good e (by clear e; simp [*])) | split)
@[simp] theorem State_arrive_keeps (s : State) (t : Nat) (hs : Good s.mem.cells) :
    Good (State.arrive s t).mem.cells := by
  unfold State.arrive
  repeat' (first | (simp [*]; done) | (with_reducible intro _) | (with_reducible refine good_foldl ?_ _ ?_) | split)
@[simp] theorem State_arriveGone_keeps (s : State) (t : Nat) (x2 : List (Nat × Nat × Nat)) (hs : Good s.mem.cells) :
    Good (State.arriveGone s t x2).2.mem.cells := by
  induction x2 generalizing s with
  | nil => exact hs
  | cons a r ih =>
    obtain ⟨lvl, id, n⟩ := a
    unfold State.arriveGone
    split
    · rename_i e
      exact ih _ (by simpa using some_good e (State_joinBar_keeps _ _ _ _ _ hs))
    · exact hs
@[simp] theorem State_rootExit_keeps (s : State) (t : Nat) (core : Nat) (hs : Good s.mem.cells) :
    Good (State.rootExit s t core).mem.cells := by
  unfold State.rootExit
  simp (maxDischargeDepth := 99) +contextual [*]
@[simp] theorem State_waitGone_keeps (s : State) (t : Nat) (bars : List (Nat × Nat × Nat)) (k : KKind) (next : Nat) (hs : Good s.mem.cells) :
    Good (State.waitGone s t bars k next).mem.cells := by
  unfold State.waitGone
  simp [*]
@[simp] theorem State_reformThr_keeps (s : State) (lane : Nat) (t : Nat) (kind : Nat) (key : Nat) (pc : Nat) (next : Nat) (hs : Good s.mem.cells) :
    Good (State.reformThr s lane t kind key pc next).mem.cells := by
  unfold State.reformThr
  repeat' (first | (simp (maxDischargeDepth := 99) +contextual [*]; done) | (rename_i e; replace e := some_good e (by clear e; simp (maxDischargeDepth := 99) +contextual [*])) | (dsimp only) | split)
@[simp] theorem State_step6_keeps (s : State) (lane : Nat) (t : Nat) (next : Nat) (k : KKind) (hs : Good s.mem.cells) :
    Good (State.step6 s lane t next k).mem.cells := by
  unfold State.step6
  repeat' (first | (simp [*]; done) | (dsimp only) | split)
@[simp] theorem State_stepGone_keeps (s : State) (lane : Nat) (t : Nat) (next : Nat) (k : KKind) (rest : List (Nat × Nat × Nat)) (hs : Good s.mem.cells) :
    Good (State.stepGone s lane t next k rest).mem.cells := by
  unfold State.stepGone
  simp [*]
@[simp] theorem State_goStep6_keeps (s : State) (lane : Nat) (t : Nat) (next : Nat) (k : KKind) (bars : List (Nat × Nat × Nat)) (hs : Good s.mem.cells) :
    Good (State.goStep6 s lane t next k bars).mem.cells := by
  unfold State.goStep6
  repeat' (first | (simp [*]; done) | (dsimp only) | split)
@[simp] theorem State_retryReforms_keeps (s : State) (lane : Nat) (x2 : List Nat) (hs : Good s.mem.cells) :
    Good (State.retryReforms s lane x2).mem.cells := by
  fun_induction State.retryReforms <;> simp_all (maxDischargeDepth := 99) +contextual +zetaDelta
@[simp] theorem State_forSet_keeps (s : State) (ts : List (Nat × Nat)) (f : State → Nat → Thr → State) (hs : Good s.mem.cells) (hf : ∀ s v0 v1, Good s.mem.cells → Good (f s v0 v1).mem.cells) :
    Good (State.forSet s ts f).mem.cells := by
  unfold State.forSet
  repeat' (first | (simp [*]; done) | (with_reducible intro _) | (with_reducible refine good_foldl ?_ _ ?_) | split)
@[simp] theorem State_commitRun_keeps (s : State) (lane : Nat) (r : Run) (gr : Grp) (ts : List (Nat × Nat)) (hs : Good s.mem.cells) :
    Good (State.commitRun s lane r gr ts).mem.cells := by
  unfold State.commitRun
  simp (maxDischargeDepth := 99) +contextual [*]
@[simp] theorem State_fileRun_keeps (s : State) (lane : Nat) (r : Run) (ts : List (Nat × Nat)) (hs : Good s.mem.cells) :
    Good (State.fileRun s lane r ts).mem.cells := by
  unfold State.fileRun
  simp (maxDischargeDepth := 99) +contextual [*]
@[simp] theorem State_parkRun_keeps (s : State) (lane : Nat) (ts : List (Nat × Nat)) (hs : Good s.mem.cells) :
    Good (State.parkRun s lane ts).mem.cells := by
  unfold State.parkRun
  repeat' (first | (simp (maxDischargeDepth := 99) +contextual [*]; done) | (dsimp only) | split)
@[simp] theorem State_trapRun_keeps (s : State) (r : Run) (ts : List (Nat × Nat)) (hs : Good s.mem.cells) :
    Good (State.trapRun s r ts).mem.cells := by
  unfold State.trapRun
  refine State_forSet_keeps _ _ _ hs fun s t th h => ?_
  split
  · split <;> simp [h]
  · exact h
@[simp] theorem State_boundary_keeps (s : State) (lane : Nat) (ts : List (Nat × Nat)) (hs : Good s.mem.cells) :
    Good (State.boundary s lane ts).mem.cells := by
  unfold State.boundary
  repeat' (first | (simp [*]; done) | split)
@[simp] theorem State_runEnd_keeps (s : State) (lane : Nat) (hs : Good s.mem.cells) :
    Good (State.runEnd s lane).mem.cells := by
  unfold State.runEnd
  repeat' (first | (simp (maxDischargeDepth := 99) +contextual [*]; done) | split)

end Sys2Proof.Laws
end

