-- ==== Sys2Proof/Laws/KeepControl.lean ====
section
/-! SUPPORT. Every operation of Machine/Control.lean keeps the memory canonical. -/
namespace Sys2Proof.Laws
open Sys2Proof.Machine

@[simp] theorem commitPair_keeps (k : Nat) (d : Nat) (wide : Bool) :
    Keeps (commitPair k d wide : X Unit) := by
  unfold commitPair
  repeat' (first | (simp [*]; done) | (with_reducible refine keeps_get_bind ?_) | (with_reducible intro _) | (with_reducible refine keeps_modify ?_) | (dsimp only) | split)
@[simp] theorem execCommit_keeps (g : Guard) (a : Fin 16) (n : Fin 32) (w : Bool) (b : Fin 16) (m : Fin 32) (x : Bool) (v : Bool) (st : State) (hst : Good st.mem.cells) :
    OutGood (execCommit g a n w b m x v st) := by
  unfold execCommit
  repeat' (first | (simp [*]; done) | (with_reducible refine keeps_bind ?_ ?_) | (with_reducible refine runWord_keeps _ _ _ _ ?_ ?_))
@[simp] theorem execRej_keeps (g : Guard) (d : BitVec 18) (st : State) (hst : Good st.mem.cells) :
    OutGood (execRej g d st) := by
  unfold execRej
  simp (maxDischargeDepth := 99) +contextual [*]
@[simp] theorem execNop_keeps (st : State) (hst : Good st.mem.cells) :
    OutGood (execNop st) := by
  unfold execNop
  simp [*]
@[simp] theorem execNsPrefix_keeps (t : Fin 16) (a : Sel) (b : Sel) (d : Sel) (x : Bool) (st : State) (hst : Good st.mem.cells) :
    OutGood (execNsPrefix t a b d x st) := by
  unfold execNsPrefix
  simp [*]
@[simp] theorem execNdPrefix_keeps (w : SubW) (i : Fin 8) (r : RM) (s : Bool) (t : Fin 16) (n : Bool) (q : Bool) (st : State) (hst : Good st.mem.cells) :
    OutGood (execNdPrefix w i r s t n q st) := by
  unfold execNdPrefix
  simp [*]
@[simp] theorem runK_keeps (g : Guard) (x : X KKind) (st : State) (hx : Keeps x) (hst : Good st.mem.cells) :
    OutGood (runK g x st) := by
  unfold runK
  have h : Keeps (do
      let k ← (if guardOf g st.cur then onCtl (pure KKind.next) x else pure KKind.next)
      modify (fun s => s.modCur (fun th => { th with rt := { th.rt with k := some (s.iss.word, k) } })) : X Unit) := by
    refine keeps_bind (keeps_ite (onCtl_keeps _ _ (by simp) hx) (by simp)) fun k => keeps_modify fun s hs => by simp [hs]
  have h' := applyX_keeps _ _ h hst
  exact good_ite (State_runEnd_keeps _ _ h') h'
@[simp] theorem branchTo_keeps (t : Int) :
    Keeps (branchTo t : X Nat) := by
  unfold branchTo
  simp [*]
@[simp] theorem registerTarget_keeps (v : Nat) :
    Keeps (registerTarget v : X Nat) := by
  unfold registerTarget
  simp [*]
@[simp] theorem noLink_keeps :
    Keeps (noLink : X Unit) := by
  unfold noLink
  repeat' (first | (simp [*]; done) | (with_reducible refine keeps_get_bind ?_))
@[simp] theorem fetchWord_keeps (va : Nat) :
    Keeps (fetchWord va : X Nat) := by
  unfold fetchWord
  repeat' (first | (simp [*]; done) | (with_reducible refine keeps_bind ?_ ?_) | (with_reducible intro _) | split)
@[simp] theorem frameSize_keeps (pc : Nat) :
    Keeps (frameSize pc : X Nat) := by
  unfold frameSize
  repeat' (first | (simp [*]; done) | (with_reducible refine keeps_bind ?_ ?_) | (with_reducible intro _))
@[simp] theorem stkStore_keeps (th : Thr) (va : Nat) (v : Nat) :
    Keeps (stkStore th va v : X Unit) := by
  unfold stkStore
  repeat' (first | (simp [*]; done) | (with_reducible refine keeps_get_bind ?_) | split)
@[simp] theorem stkLoad_keeps (th : Thr) (va : Nat) :
    Keeps (stkLoad th va : X Nat) := by
  unfold stkLoad
  repeat' (first | (simp [*]; done) | (with_reducible refine keeps_bind ?_ ?_) | (with_reducible intro _) | split)
@[simp] theorem callTo_keeps (pc : Nat) :
    Keeps (callTo pc : X KKind) := by
  unfold callTo
  repeat' (first | (simp [*]; done) | (with_reducible refine keeps_bind ?_ ?_) | (with_reducible intro _) | (dsimp only) | split)
@[simp] theorem retTo_keeps :
    Keeps (retTo : X KKind) := by
  unfold retTo
  repeat' (first | (simp [*]; done) | (with_reducible refine keeps_bind ?_ ?_) | (with_reducible intro _) | (dsimp only) | split)
@[simp] theorem execNext_keeps (g : Guard) (st : State) (hst : Good st.mem.cells) :
    OutGood (execNext g st) := by
  unfold execNext
  simp [*]
@[simp] theorem execBra_keeps (g : Guard) (d : BitVec 18) (st : State) (hst : Good st.mem.cells) :
    OutGood (execBra g d st) := by
  unfold execBra
  repeat' (first | (simp [*]; done) | (with_reducible refine keeps_bind ?_ ?_) | (with_reducible intro _) | (with_reducible refine runK_keeps _ _ _ ?_ ?_))
@[simp] theorem execCall_keeps (g : Guard) (d : BitVec 18) (st : State) (hst : Good st.mem.cells) :
    OutGood (execCall g d st) := by
  unfold execCall
  repeat' (first | (simp [*]; done) | (with_reducible refine keeps_bind ?_ ?_) | (with_reducible intro _) | (with_reducible refine runK_keeps _ _ _ ?_ ?_))
@[simp] theorem execRet_keeps (g : Guard) (st : State) (hst : Good st.mem.cells) :
    OutGood (execRet g st) := by
  unfold execRet
  simp [*]
@[simp] theorem execExit_keeps (g : Guard) (st : State) (hst : Good st.mem.cells) :
    OutGood (execExit g st) := by
  unfold execExit
  simp [*]
@[simp] theorem execAwait_keeps (g : Guard) (st : State) (hst : Good st.mem.cells) :
    OutGood (execAwait g st) := by
  unfold execAwait
  repeat' (first | (simp [*]; done) | (with_reducible refine keeps_bind ?_ ?_) | (with_reducible refine runK_keeps _ _ _ ?_ ?_))
@[simp] theorem execReform_keeps (g : Guard) (d : BitVec 18) (st : State) (hst : Good st.mem.cells) :
    OutGood (execReform g d st) := by
  unfold execReform
  repeat' (first | (simp [*]; done) | (with_reducible refine keeps_bind ?_ ?_) | (with_reducible intro _) | (with_reducible refine runK_keeps _ _ _ ?_ ?_))
@[simp] theorem execIret_keeps (g : Guard) (st : State) (hst : Good st.mem.cells) :
    OutGood (execIret g st) := by
  unfold execIret
  refine runK_keeps _ _ _ (keeps_get_bind fun s hs => keeps_ite (by simp) (keeps_ite (by simp) (keeps_ite (by simp)
    (keeps_ite (by simp) (keeps_fun fun s' h => ?_))))) hst
  split
  · rename_i e; exact ok_good e (by simp) h
  · rename_i e; exact error_good e (by simp) h
  · rename_i e; exact error_good e (by simp) h
@[simp] theorem execBrx_keeps (g : Guard) (a : Src) (st : State) (hst : Good st.mem.cells) :
    OutGood (execBrx g a st) := by
  unfold execBrx
  repeat' (first | (simp [*]; done) | (with_reducible refine keeps_bind ?_ ?_) | (with_reducible intro _) | (with_reducible refine runK_keeps _ _ _ ?_ ?_))
@[simp] theorem execCallx_keeps (g : Guard) (a : Src) (st : State) (hst : Good st.mem.cells) :
    OutGood (execCallx g a st) := by
  unfold execCallx
  repeat' (first | (simp [*]; done) | (with_reducible refine keeps_bind ?_ ?_) | (with_reducible intro _) | (with_reducible refine runK_keeps _ _ _ ?_ ?_))
@[simp] theorem execReformK_keeps (g : Guard) (a : Src) (st : State) (hst : Good st.mem.cells) :
    OutGood (execReformK g a st) := by
  unfold execReformK
  repeat' (first | (simp [*]; done) | (with_reducible refine keeps_bind ?_ ?_) | (with_reducible intro _) | (with_reducible refine runK_keeps _ _ _ ?_ ?_))

end Sys2Proof.Laws
end

