-- ==== Sys2Proof/Laws/KeepArray.lean ====
section
/-! SUPPORT. Every operation of Machine/Array.lean keeps the memory canonical. -/
namespace Sys2Proof.Laws
open Sys2Proof.Machine

@[simp] theorem State_modOp_keeps (s : State) (id : Nat) (f : MOp → MOp) (hs : Good s.mem.cells) :
    Good (State.modOp s id f).mem.cells := by
  unfold State.modOp
  simp [*]
@[simp] theorem State_modEntry_keeps (s : State) (arr : Nat) (id : Nat) (f : MOp → MOp) (hs : Good s.mem.cells) :
    Good (State.modEntry s arr id f).mem.cells := by
  unfold State.modEntry
  simp [*]
@[simp] theorem State_dropOp_keeps (s : State) (id : Nat) (hs : Good s.mem.cells) :
    Good (State.dropOp s id).mem.cells := by
  unfold State.dropOp
  simp [*]
@[simp] theorem State_failOp_keeps (s : State) (id : Nat) (err : Nat) (hs : Good s.mem.cells) :
    Good (State.failOp s id err).mem.cells := by
  unfold State.failOp
  simp [*]
@[simp] theorem State_appendOp_keeps (s : State) (quad : Nat) (c : Nat) (launch : Nat) (ctx : Nat) (hs : Good s.mem.cells) :
    Good (State.appendOp s quad c launch ctx).1.mem.cells := by
  unfold State.appendOp
  repeat' (first | (simp [*]; done) | (rename_i e; replace e := fst_good e (by clear e; simp [*])) | (with_reducible intro _) | (with_reducible refine good_foldl ?_ _ ?_) | (dsimp only) | split)
@[simp] theorem State_releaseChunk_keeps (s : State) (o : MOp) (c : Nat) (hs : Good s.mem.cells) :
    Good (State.releaseChunk s o c).mem.cells := by
  unfold State.releaseChunk
  repeat' (first | (simp [*]; done) | (with_reducible intro _) | (with_reducible refine good_foldl ?_ _ ?_) | split)
@[simp] theorem State_endAtChunk_keeps (s : State) (o : MOp) (err : Nat) (hs : Good s.mem.cells) :
    Good (State.endAtChunk s o err).mem.cells := by
  unfold State.endAtChunk
  simp (maxDischargeDepth := 99) +contextual [*]
@[simp] theorem freeLinesAt_keeps (who : Who) (va : Nat) (x2 : Nat) (x3 : State) (hx3 : Good x3.mem.cells) :
    Good (freeLinesAt who va x2 x3).mem.cells := by
  fun_induction freeLinesAt <;> simp_all (maxDischargeDepth := 99) +contextual +zetaDelta
@[simp] theorem State_cellsTo_keeps (s : State) (arr : Nat) (o : MOp) (hs : Good s.mem.cells) :
    Good (State.cellsTo s arr o).mem.cells := by
  unfold State.cellsTo
  repeat' (first | (simp [*]; done) | (dsimp only) | split)
@[simp] theorem State_serveChunk_keeps (s : State) (arr : Nat) (hs : Good s.mem.cells) :
    Good (State.serveChunk s arr).mem.cells := by
  unfold State.serveChunk
  repeat' (first | (simp (maxDischargeDepth := 99) +contextual [*]; done) | split)
@[simp] theorem State_settleOp_keeps (s : State) (o : MOp) (norm : Nat) (st : DWord) (trip : Bool) (hs : Good s.mem.cells) :
    Good (State.settleOp s o norm st trip).mem.cells := by
  unfold State.settleOp
  split
  · exact State_modOp_keeps _ _ _ hs
  refine State_modOp_keeps _ _ _ ?_
  have h3 : Good (if o.nmon && !trip then s.modCreg o.quad o.creg (fun r => { r with ref := dw norm }) else s).mem.cells := by
    split
    · exact State_modCreg_keeps _ _ _ _ hs
    · exact hs
  split
  · exact good_foldl (fun s a h => by simp [h]) _ h3
  · exact h3
@[simp] theorem State_drainOp_keeps (s : State) (arr : Nat) (hs : Good s.mem.cells) :
    Good (State.drainOp s arr).mem.cells := by
  unfold State.drainOp
  repeat' (first | (simp (maxDischargeDepth := 99) +contextual [*]; done) | split)
@[simp] theorem State_finishOp_keeps (s : State) (arr : Nat) (hs : Good s.mem.cells) :
    Good (State.finishOp s arr).mem.cells := by
  unfold State.finishOp
  repeat' (first | (simp [*]; done) | split)
@[simp] theorem State_discardOp_keeps (s : State) (arr : Nat) (hs : Good s.mem.cells) :
    Good (State.discardOp s arr).mem.cells := by
  unfold State.discardOp
  repeat' (first | (simp (maxDischargeDepth := 99) +contextual [*]; done) | (dsimp only) | split)

end Sys2Proof.Laws
end

