-- ==== Sys2Proof/Laws/KeepMatrix.lean ====
section
/-! SUPPORT. Every operation of Machine/Matrix.lean keeps the memory canonical. -/
namespace Sys2Proof.Laws
open Sys2Proof.Machine

@[simp] theorem namedCreg_keeps (c : Nat) :
    Keeps (namedCreg c : X (Nat × Creg)) := by
  unfold namedCreg
  repeat' (first | (simp [*]; done) | (with_reducible refine keeps_get_bind ?_))
@[simp] theorem execMarm_keeps (hd : Hd) (a : Src) (b : Src) (v : Fin 16) (st : State) (hst : Good st.mem.cells) :
    OutGood (execMarm hd a b v st) := by
  unfold execMarm
  refine runWord_keeps _ _ _ _ (onceLate_keeps _ ?_) hst
  refine keeps_bind (by simp) fun x => keeps_bind (by simp) fun n => keeps_bind (by simp) fun q => ?_
  dsimp only
  split
  · simp
  split
  · simp
  split
  · simp
  refine keeps_get_bind fun s hs => ?_
  generalize (if q.2.free = true then _ else q.2) = r
  split
  · simp
  · exact keeps_bind (keeps_set (State_modCreg_keeps _ _ _ _ hs)) fun _ => keeps_pure _
@[simp] theorem execMsign_keeps (hd : Hd) (a : Src) (v : Fin 16) (st : State) (hst : Good st.mem.cells) :
    OutGood (execMsign hd a v st) := by
  unfold execMsign
  repeat' (first | (simp [*]; done) | (with_reducible refine keeps_get_bind ?_) | (with_reducible refine keeps_bind ?_ ?_) | (with_reducible intro _) | (with_reducible refine runWord_keeps _ _ _ _ ?_ ?_) | (with_reducible refine keeps_modify ?_) | (with_reducible refine keeps_set ?_) | (dsimp only) | split)
@[simp] theorem execMwait_keeps (hd : Hd) (v : Fin 16) (st : State) (hst : Good st.mem.cells) :
    OutGood (execMwait hd v st) := by
  unfold execMwait
  repeat' (first | (simp [*]; done) | (with_reducible refine keeps_bind ?_ ?_) | (with_reducible refine runWord_keeps _ _ _ _ ?_ ?_))
@[simp] theorem execMdrain_keeps (hd : Hd) (a : Src) (v : Fin 16) (st : State) (hst : Good st.mem.cells) :
    OutGood (execMdrain hd a v st) := by
  unfold execMdrain
  repeat' (first | (simp [*]; done) | (with_reducible refine keeps_bind ?_ ?_) | (with_reducible intro _) | (with_reducible refine runWord_keeps _ _ _ _ ?_ ?_))
@[simp] theorem execMcfg_keeps (hd : Hd) (a : Src) (v : Fin 16) (st : State) (hst : Good st.mem.cells) :
    OutGood (execMcfg hd a v st) := by
  unfold execMcfg
  repeat' (first | (simp [*]; done) | (with_reducible refine keeps_bind ?_ ?_) | (with_reducible intro _) | (with_reducible refine runWord_keeps _ _ _ _ ?_ ?_) | (with_reducible refine onceX_keeps _ ?_) | (with_reducible refine keeps_modify ?_) | split)
@[simp] theorem execMnorm_keeps (hd : Hd) (a : Src) (v : Fin 16) (st : State) (hst : Good st.mem.cells) :
    OutGood (execMnorm hd a v st) := by
  unfold execMnorm
  repeat' (first | (simp [*]; done) | (with_reducible refine keeps_bind ?_ ?_) | (with_reducible intro _) | (with_reducible refine runWord_keeps _ _ _ _ ?_ ?_) | (with_reducible refine onceX_keeps _ ?_) | (with_reducible refine keeps_modify ?_) | split)
@[simp] theorem execMreset_keeps (hd : Hd) (v : Fin 16) (st : State) (hst : Good st.mem.cells) :
    OutGood (execMreset hd v st) := by
  unfold execMreset
  repeat' (first | (simp +contextual [*]; done) | (with_reducible refine keeps_bind ?_ ?_) | (with_reducible intro _) | (with_reducible refine runWord_keeps _ _ _ _ ?_ ?_) | (with_reducible refine onceX_keeps _ ?_))

end Sys2Proof.Laws
end

