-- ==== Sys2Proof/Laws/KeepTexture.lean ====
section
/-! SUPPORT. Every operation of Machine/Texture.lean keeps the memory canonical. -/
namespace Sys2Proof.Laws
open Sys2Proof.Machine

@[simp] theorem texDesc_keeps (a : Nat) :
    Keeps (texDesc a : X TexD) := by
  unfold texDesc
  repeat' (first | (simp [*]; done) | (with_reducible refine keeps_bind ?_ ?_) | (with_reducible intro _) | split)
@[simp] theorem texBlock_keeps (d : TexD) (n : Nat) (l : Nat) (dx : Nat) (dy : Nat) :
    Keeps (texBlock d n l dx dy : X (Nat × Bool)) := by
  unfold texBlock
  repeat' (first | (simp [*]; done) | (with_reducible refine keeps_bind ?_ ?_) | (with_reducible intro _) | (with_reducible refine mapX_keeps _ _ ?_) | (with_reducible refine keeps_modify ?_) | (dsimp only) | split)
@[simp] theorem texelAt_keeps (d : TexD) (n : Nat) (l : Nat) (x : Nat) (y : Nat) :
    Keeps (texelAt d n l x y : X (Nat × Bool)) := by
  unfold texelAt
  repeat' (first | (simp [*]; done) | (with_reducible refine keeps_bind ?_ ?_) | split)
@[simp] theorem levelTaps_keeps (d : TexD) (lin : Bool) (n : Nat) (l : Nat) (u : Q) (v : Q) (wt : Nat) :
    Keeps (levelTaps d lin n l u v wt : X (List (Nat × List OutV) × Bool)) := by
  unfold levelTaps
  repeat' (first | (simp [*]; done) | (with_reducible refine keeps_bind ?_ ?_) | (with_reducible intro _) | (with_reducible refine mapX_keeps _ _ ?_) | split)
@[simp] theorem texChannel_keeps (ts : List (Nat × List OutV)) (i : Nat) :
    Keeps (texChannel ts i : X Nat) := by
  unfold texChannel
  repeat' (first | (simp [*]; done) | (with_reducible refine keeps_bind ?_ ?_) | (dsimp only) | split)
@[simp] theorem texSample_keeps (d : TexD) (u : Nat) (v : Nat) (layer : Nat) (lam : FV) :
    Keeps (texSample d u v layer lam : X (List DWord × Bool)) := by
  unfold texSample
  repeat' (first | (simp [*]; done) | (with_reducible refine keeps_bind ?_ ?_) | (with_reducible intro _))
@[simp] theorem readOctet_keeps (b : Src) :
    Keeps (readOctet b : X Nat) := by
  unfold readOctet
  repeat' (first | (simp [*]; done) | (with_reducible refine keeps_bind ?_ ?_) | split)
@[simp] theorem texUnit_keeps :
    Keeps (texUnit : X Nat) := by
  unfold texUnit
  repeat' (first | (simp [*]; done) | (with_reducible refine keeps_get_bind ?_))
@[simp] theorem execTex_keeps (hd : Hd) (a : Src) (b : Src) (st : State) (hst : Good st.mem.cells) :
    OutGood (execTex hd a b st) := by
  unfold execTex
  repeat' (first | (simp [*]; done) | (with_reducible refine keeps_bind ?_ ?_) | (with_reducible intro _) | (with_reducible refine runWord_keeps _ _ _ _ ?_ ?_) | (with_reducible refine onUnit_keeps _ _ _ _ ?_))
@[simp] theorem execTexg_keeps (hd : Hd) (a : Src) (b : Src) (st : State) (hst : Good st.mem.cells) :
    OutGood (execTexg hd a b st) := by
  unfold execTexg
  repeat' (first | (simp [*]; done) | (with_reducible refine keeps_bind ?_ ?_) | (with_reducible intro _) | (with_reducible refine runWord_keeps _ _ _ _ ?_ ?_) | (with_reducible refine onUnit_keeps _ _ _ _ ?_))
@[simp] theorem execTexq_keeps (hd : Hd) (a : Src) (b : Src) (st : State) (hst : Good st.mem.cells) :
    OutGood (execTexq hd a b st) := by
  unfold execTexq
  repeat' (first | (simp [*]; done) | (with_reducible refine keeps_bind ?_ ?_) | (with_reducible intro _) | (with_reducible refine runWord_keeps _ _ _ _ ?_ ?_) | (with_reducible refine onUnit_keeps _ _ _ _ ?_))
@[simp] theorem imgTexel_keeps (d : TexD) (q : Nat) (w : Width) (st : Bool) :
    Keeps (imgTexel d q w st : X (Nat × Nat × Nat × Nat)) := by
  unfold imgTexel
  simp [*]
@[simp] theorem execImld_keeps (hd : Hd) (a : Src) (b : Src) (w : Width) (st : State) (hst : Good st.mem.cells) :
    OutGood (execImld hd a b w st) := by
  unfold execImld
  repeat' (first | (simp [*]; done) | (with_reducible refine keeps_bind ?_ ?_) | (with_reducible intro _) | (with_reducible refine runWord_keeps _ _ _ _ ?_ ?_) | (with_reducible refine onUnit_keeps _ _ _ _ ?_))
@[simp] theorem execImst_keeps (hd : Hd) (a : Src) (b : Src) (w : Width) (st : State) (hst : Good st.mem.cells) :
    OutGood (execImst hd a b w st) := by
  unfold execImst
  repeat' (first | (simp [*]; done) | (with_reducible refine keeps_bind ?_ ?_) | (with_reducible intro _) | (with_reducible refine runWord_keeps _ _ _ _ ?_ ?_) | (with_reducible refine tryUnit_keeps _ _ ?_) | split)

end Sys2Proof.Laws
end

