-- ==== Sys2Proof/Laws/KeepSys.lean ====
section
/-! SUPPORT. Every operation of Machine/Sys.lean keeps the memory canonical. -/
namespace Sys2Proof.Laws
open Sys2Proof.Machine

@[simp] theorem readSpecial_keeps (k : Nat) :
    Keeps (readSpecial k : X DWord) := by
  unfold readSpecial
  repeat' (first | (simp [*]; done) | (with_reducible refine keeps_bind ?_ ?_) | (with_reducible intro _) | (dsimp only) | split)
@[simp] theorem execRds_keeps (hd : Hd) (k : Fin 32) (st : State) (hst : Good st.mem.cells) :
    OutGood (execRds hd k st) := by
  unfold execRds
  repeat' (first | (simp [*]; done) | (with_reducible refine keeps_bind ?_ ?_) | (with_reducible intro _) | (with_reducible refine runWord_keeps _ _ _ _ ?_ ?_))
@[simp] theorem putWrs_keeps (k : Nat) (v : DWord) :
    Keeps (putWrs k v : X Unit) := by
  unfold putWrs
  simp +contextual [*]
@[simp] theorem execWrs_keeps (hd : Hd) (a : Src) (k : Fin 32) (st : State) (hst : Good st.mem.cells) :
    OutGood (execWrs hd a k st) := by
  unfold execWrs
  repeat' (first | (simp [*]; done) | (with_reducible refine keeps_bind ?_ ?_) | (with_reducible intro _) | (with_reducible refine runWord_keeps _ _ _ _ ?_ ?_) | split)
@[simp] theorem execTrap_keeps (hd : Hd) (a : Src) (st : State) (hst : Good st.mem.cells) :
    OutGood (execTrap hd a st) := by
  unfold execTrap
  repeat' (first | (simp +contextual [*]; done) | (with_reducible refine keeps_bind ?_ ?_) | (with_reducible refine runWord_keeps _ _ _ _ ?_ ?_))
@[simp] theorem execSleep_keeps (hd : Hd) (a : Src) (st : State) (hst : Good st.mem.cells) :
    OutGood (execSleep hd a st) := by
  unfold execSleep
  repeat' (first | (simp [*]; done) | (with_reducible refine keeps_bind ?_ ?_) | (with_reducible refine runWord_keeps _ _ _ _ ?_ ?_))
@[simp] theorem execHalt_keeps (hd : Hd) (st : State) (hst : Good st.mem.cells) :
    OutGood (execHalt hd st) := by
  unfold execHalt
  simp [*]
@[simp] theorem needCtl_keeps :
    Keeps (needCtl : X Unit) := by
  unfold needCtl
  repeat' (first | (simp [*]; done) | (with_reducible refine keeps_get_bind ?_))
@[simp] theorem execTlbi_keeps (hd : Hd) (a : Src) (b : Src) (t : Bool) (st : State) (hst : Good st.mem.cells) :
    OutGood (execTlbi hd a b t st) := by
  unfold execTlbi
  repeat' (first | (simp [*]; done) | (with_reducible refine keeps_bind ?_ ?_) | (with_reducible intro _) | (with_reducible refine runWord_keeps _ _ _ _ ?_ ?_) | (with_reducible refine keeps_modify ?_) | (with_reducible refine good_foldl ?_ _ ?_) | split)
@[simp] theorem execKeyld_keeps (hd : Hd) (a : Src) (b : Src) (st : State) (hst : Good st.mem.cells) :
    OutGood (execKeyld hd a b st) := by
  unfold execKeyld
  repeat' (first | (simp [*]; done) | (with_reducible refine keeps_bind ?_ ?_) | (with_reducible intro _) | (with_reducible refine runWord_keeps _ _ _ _ ?_ ?_) | split)
@[simp] theorem State_thaw_keeps (s : State) (mid : Nat) (discard : Bool) (hs : Good s.mem.cells) :
    Good (State.thaw s mid discard).mem.cells := by
  unfold State.thaw
  simp (maxDischargeDepth := 99) +contextual [*]
@[simp] theorem execThaw_keeps (hd : Hd) (a : Src) (b : Src) (st : State) (hst : Good st.mem.cells) :
    OutGood (execThaw hd a b st) := by
  unfold execThaw
  repeat' (first | (simp [*]; done) | (with_reducible refine keeps_get_bind ?_) | (with_reducible refine keeps_bind ?_ ?_) | (with_reducible intro _) | (with_reducible refine runWord_keeps _ _ _ _ ?_ ?_) | split)

end Sys2Proof.Laws
end

