-- ==== Sys2Proof/Laws/KeepCheck.lean ====
section
/-! SUPPORT. Every operation of Machine/Check.lean keeps the memory canonical. -/
namespace Sys2Proof.Laws
open Sys2Proof.Machine

@[simp] theorem fetchPacket_keeps (pc : Nat) :
    Keeps (fetchPacket pc : X (List Word)) := by
  unfold fetchPacket
  repeat' (first | (simp [*]; done) | (with_reducible refine keeps_bind ?_ ?_) | (with_reducible intro _))
@[simp] theorem fetchRun_keeps (pc : Nat) (x1 : Nat) (x2 : List Word) (x3 : State) (hx3 : Good x3.mem.cells) :
    Good (fetchRun pc x1 x2 x3).1.mem.cells := by
  induction x1 generalizing x2 x3 with
  | zero => exact hx3
  | succ f ih =>
    unfold fetchRun
    split
    · rename_i e; exact error_good e (by simp) hx3
    · rename_i e
      have h := ok_good e (by simp) hx3
      dsimp only
      split
      · exact h
      · exact ih _ _ h
@[simp] theorem loadRun_keeps (pc : Nat) (s : State) (hs : Good s.mem.cells) :
    Good (loadRun pc s).1.mem.cells := by
  unfold loadRun
  repeat' (first | (simp [*]; done) | (dsimp only) | split)

end Sys2Proof.Laws
end

