-- ==== Sys2Proof/Laws/KeepSched.lean ====
section
/-! SUPPORT. Every operation of Machine/Sched.lean keeps the memory canonical. -/
namespace Sys2Proof.Laws
open Sys2Proof.Machine

@[simp] theorem State_markReady_keeps (s : State) (lane : Nat) (hs : Good s.mem.cells) :
    Good (State.markReady s lane).mem.cells := by
  unfold State.markReady
  simp (maxDischargeDepth := 99) +contextual [*]
@[simp] theorem State_exchange_keeps (s : State) (lane : Nat) (a : Nat) (w : Nat) (hs : Good s.mem.cells) :
    Good (State.exchange s lane a w).mem.cells := by
  unfold State.exchange
  simp (maxDischargeDepth := 99) +contextual [*]
@[simp] theorem State_fillActive_keeps (s : State) (lane : Nat) (hs : Good s.mem.cells) :
    Good (State.fillActive s lane).mem.cells := by
  unfold State.fillActive
  repeat' (first | (simp [*]; done) | (dsimp only) | split)
@[simp] theorem State_leaveEnded_keeps (s : State) (lane : Nat) (hs : Good s.mem.cells) :
    Good (State.leaveEnded s lane).mem.cells := by
  unfold State.leaveEnded
  repeat' (first | (simp [*]; done) | (dsimp only) | split)
@[simp] theorem State_leaveIdle_keeps (s : State) (lane : Nat) (hs : Good s.mem.cells) :
    Good (State.leaveIdle s lane).mem.cells := by
  unfold State.leaveIdle
  repeat' (first | (simp [*]; done) | split)
@[simp] theorem State_displace_keeps (s : State) (lane : Nat) (hs : Good s.mem.cells) :
    Good (State.displace s lane).mem.cells := by
  unfold State.displace
  repeat' (first | (simp [*]; done) | (dsimp only) | split)
@[simp] theorem State_atBound_keeps (s : State) (lane : Nat) (hs : Good s.mem.cells) :
    Good (State.atBound s lane).mem.cells := by
  unfold State.atBound
  simp (maxDischargeDepth := 99) +contextual [*]
@[simp] theorem State_failStart_keeps (s : State) (pc : Nat) (e : Exc) (ts : List Nat) (hs : Good s.mem.cells) :
    Good (State.failStart s pc e ts).mem.cells := by
  unfold State.failStart
  repeat' (first | (simp [*]; done) | (with_reducible intro _) | (with_reducible refine good_foldl ?_ _ ?_) | split)
@[simp] theorem State_readForward_keeps (s : State) (core : Nat) (ctx : Nat) (ts : List Nat) (ws : List Word) (hs : Good s.mem.cells) :
    Good (State.readForward s core ctx ts ws).mem.cells := by
  unfold State.readForward
  repeat' (first | (simp [*]; done) | split)
@[simp] theorem State_fetched_keeps (s : State) (ts : List Nat) (hs : Good s.mem.cells) :
    Good (State.fetched s ts).mem.cells := by
  unfold State.fetched
  simp +contextual [*]
@[simp] theorem State_beginRun_keeps (s : State) (lane : Nat) (g : Nat) (pc : Nat) (tids : List Nat) (hs : Good s.mem.cells) :
    OptGood1 (State.beginRun s lane g pc tids) := by
  unfold State.beginRun
  repeat' (first | (simp (maxDischargeDepth := 99) +contextual [*]; done) | (rename_i e; replace e := fst_good e (by clear e; simp (maxDischargeDepth := 99) +contextual [*])) | (dsimp only) | split)
@[simp] theorem State_resumeRun_keeps (s : State) (lane : Nat) (g : Nat) (gr : Grp) (r : Run) (hs : Good s.mem.cells) :
    Good (State.resumeRun s lane g gr r).mem.cells := by
  unfold State.resumeRun
  repeat' (first | (simp [*]; done) | (rename_i e; replace e := fst_good e (by clear e; simp [*])) | (dsimp only) | split)
@[simp] theorem State_turn_keeps (s : State) (lane : Nat) (g : Nat) (gr : Grp) (sets : List (Nat × List Nat)) (pc : Nat) (hs : Good s.mem.cells) :
    Good (State.turn s lane g gr sets pc).mem.cells := by
  unfold State.turn
  simp (maxDischargeDepth := 99) +contextual [*]
@[simp] theorem State_runStart_keeps (s : State) (lane : Nat) (hs : Good s.mem.cells) :
    Good (State.runStart s lane).mem.cells := by
  unfold State.runStart
  dsimp only
  have h := State_markReady_keeps _ lane (State_atBound_keeps s lane hs)
  generalize (s.atBound lane).markReady lane = s' at h ⊢
  refine good_ite hs ?_
  split
  · exact h
  split
  · exact h
  split
  · simp [h]
  split
  · exact h
  rename_i pc tids _
  cases e : State.beginRun _ lane _ pc tids with
  | none => exact h
  | some t => exact State_beginRun_keeps _ _ _ _ _ (State_turn_keeps _ _ _ _ _ _ h) _ e
@[simp] theorem State_endWait_keeps (s : State) (t : Nat) (w : PWait) (edge : Bool) (hs : Good s.mem.cells) :
    Good (State.endWait s t w edge).mem.cells := by
  unfold State.endWait
  repeat' (first | (simp [*]; done) | (dsimp only) | split)
@[simp] theorem State_endMatrix_keeps (s : State) (t : Nat) (w : PWait) (r : Creg) (hs : Good s.mem.cells) :
    Good (State.endMatrix s t w r).mem.cells := by
  unfold State.endMatrix
  repeat' (first | (simp (maxDischargeDepth := 99) +contextual [*]; done) | split)
@[simp] theorem pollRead_keeps (who : Who) (va : Nat) :
    Keeps (pollRead who va : X (Nat × Bool)) := by
  unfold pollRead
  repeat' (first | (simp [*]; done) | (with_reducible refine keeps_bind ?_ ?_) | (with_reducible intro _))
@[simp] theorem pollWord_keeps (s : State) (core : Nat) (ctx : Nat) (va : Nat) (hs : Good s.mem.cells) :
    OptGood (pollWord s core ctx va) := by
  unfold pollWord
  repeat' (first | (simp [*]; done) | (rename_i e; replace e := ok_good e (by clear e; simp [*]) (by clear e; simp [*])) | split)
@[simp] theorem State_pollWait_keeps (s : State) (t : Nat) (w : PWait) (hs : Good s.mem.cells) :
    Good (State.pollWait s t w).mem.cells := by
  unfold State.pollWait
  repeat' (first | (simp (maxDischargeDepth := 99) +contextual [*]; done) | (rename_i e; replace e := some_good e (by clear e; simp (maxDischargeDepth := 99) +contextual [*])) | (dsimp only) | split)
@[simp] theorem State_pollThr_keeps (s : State) (t : Nat) (hs : Good s.mem.cells) :
    Good (State.pollThr s t).mem.cells := by
  unfold State.pollThr
  repeat' (first | (simp [*]; done) | (with_reducible intro _) | (with_reducible refine good_foldl ?_ _ ?_) | split)
@[simp] theorem State_wakeHalted_keeps (s : State) (hs : Good s.mem.cells) :
    Good (State.wakeHalted s).mem.cells := by
  unfold State.wakeHalted
  simp [*]
@[simp] theorem State_passBusy_keeps (s : State) (hs : Good s.mem.cells) :
    Good (State.passBusy s).mem.cells := by
  unfold State.passBusy
  simp [*]
@[simp] theorem State_pollAll_keeps (st : State) (hst : Good st.mem.cells) :
    Good (State.pollAll st).mem.cells := by
  unfold State.pollAll
  simp (maxDischargeDepth := 99) +contextual [*]
@[simp] theorem State_sleepEnd_keeps (s : State) (t : Nat) (hs : Good s.mem.cells) :
    Good (State.sleepEnd s t).mem.cells := by
  unfold State.sleepEnd
  repeat' (first | (simp [*]; done) | (with_reducible intro _) | (with_reducible refine good_foldl ?_ _ ?_) | split)

end Sys2Proof.Laws
end

