-- ==== Sys2Proof/Laws/KeepIssue.lean ====
section
/-! SUPPORT. Every operation of Machine/Issue.lean keeps the memory canonical. -/
namespace Sys2Proof.Laws
open Sys2Proof.Machine

theorem good_foldl_fst {α β : Type} {f : State × β → α → State × β} (hf : ∀ x a, Good x.1.mem.cells → Good (f x a).1.mem.cells) :
    ∀ (l : List α) {x : State × β}, Good x.1.mem.cells → Good (l.foldl f x).1.mem.cells
  | [], _, h => h
  | a :: r, x, h => good_foldl_fst hf r (hf x a h)
@[simp] theorem after_keeps (o : Out) (s : State) (ho : OutGood o) (hs : Good s.mem.cells) :
    Good (after o s).1.mem.cells := by
  unfold after
  split
  · exact ho
  · exact hs
@[simp] theorem prefixItem_keeps (ex : Meaning) (it : Item) (chained : Bool) (q0 : List QEnt) (s : State) (hex : ∀ i s, Good s.mem.cells → OutGood (ex i s)) (hs : Good s.mem.cells) :
    Good (prefixItem ex it chained q0 s).1.mem.cells := by
  unfold prefixItem
  dsimp only
  refine good_foldl_fst (fun x a h => ?_) _ hs
  split
  · exact after_keeps _ _ (hex _ _ h) h
  · exact h
@[simp] theorem issueItem_keeps (ex : Meaning) (it : Item) (chained : Bool) (q0 : List QEnt) (s : State) (hex : ∀ i s, Good s.mem.cells → OutGood (ex i s)) (hs : Good s.mem.cells) :
    Good (issueItem ex it chained q0 s).1.mem.cells := by
  unfold issueItem
  have h := prefixItem_keeps ex it chained q0 s hex hs
  split
  · rename_i e; exact fst_good e h
  · rename_i e
    have h' := fst_good e h
    exact after_keeps _ _ (hex _ _ h') h'
@[simp] theorem issueItems_keeps (ex : Meaning) (chained : Bool) (q0 : List QEnt) (x3 : List Item) (x4 : State) (hex : ∀ i s, Good s.mem.cells → OutGood (ex i s)) (hx4 : Good x4.mem.cells) :
    Good (issueItems ex chained q0 x3 x4).1.mem.cells := by
  induction x3 generalizing x4 with
  | nil => exact hx4
  | cons it r ih =>
    unfold issueItems
    have h := issueItem_keeps ex it chained q0 x4 hex hx4
    split
    · rename_i e; exact fst_good e h
    · rename_i e
      split
      · exact fst_good e h
      · exact ih _ (fst_good e h)
@[simp] theorem unissue_keeps (before : State) (s : State) (hbefore : Good before.mem.cells) (hs : Good s.mem.cells) :
    Good (unissue before s).mem.cells := by
  unfold unissue
  simp (maxDischargeDepth := 99) +contextual [*]
@[simp] theorem noteTokens_keeps (ex : Meaning) (items : List Item) (q0 : List QEnt) (s : State) (hex : ∀ i s, Good s.mem.cells → OutGood (ex i s)) (hs : Good s.mem.cells) :
    Good (noteTokens ex items q0 s).mem.cells := by
  unfold noteTokens
  repeat' (first | (simp [*]; done) | (with_reducible intro _) | (with_reducible refine good_foldl ?_ _ ?_) | split)
@[simp] theorem unchain_keeps (before : State) (s : State) (f : FaultInfo) (hbefore : Good before.mem.cells) (hs : Good s.mem.cells) :
    Good (unchain before s f).mem.cells := by
  unfold unchain
  simp [*]
@[simp] theorem State_fillSlot_keeps (s : State) (lane : Nat) (items : List Item) (hs : Good s.mem.cells) :
    Good (State.fillSlot s lane items).mem.cells := by
  unfold State.fillSlot
  repeat' (first | (simp [*]; done) | (with_reducible intro _) | (with_reducible refine good_foldl ?_ _ ?_) | split)
@[simp] theorem State_finishSlot_keeps (s : State) (lane : Nat) (items : List Item) (hs : Good s.mem.cells) :
    Good (State.finishSlot s lane items).mem.cells := by
  unfold State.finishSlot
  repeat' (first | (simp (maxDischargeDepth := 99) +contextual [*]; done) | (dsimp only) | split)
@[simp] theorem State_issued_keeps (s : State) (lane : Nat) (g : Nat) (tid : Nat) (items : List Item) (hs : Good s.mem.cells) :
    Good (State.issued s lane g tid items).mem.cells := by
  unfold State.issued
  split
  · exact hs
  split
  · exact hs
  · exact good_ite (State_finishSlot_keeps _ _ _ (State_modLane_keeps _ _ _ hs)) (State_modLane_keeps _ _ _ hs)
theorem after_out {o p : Out} {s t : State} (e : after o s = (t, some p)) : OutGood p := by
  unfold after at e
  split at e
  · cases e
  · rename_i h
    cases e
    cases o with
    | next t => exact absurd rfl (h t)
    | fault => trivial
    | refused => trivial
theorem prefixItem_out {ex : Meaning} {it : Item} {c : Bool} {q : List QEnt} {s t : State} {p : Out}
    (e : prefixItem ex it c q s = (t, some p)) : OutGood p := by
  have h : ∀ (l : List (Nat × Instr)) (x y : State × Option Out), (∀ o, x.2 = some o → OutGood o) →
      l.foldl (fun (x : State × Option Out) p => match x with
      | (s, none) => after (ex p.2 s) s
      | x => x) x = y → ∀ o, y.2 = some o → OutGood o := by
    intro l
    induction l with
    | nil => rintro x y hx rfl; exact hx
    | cons a r ih =>
      intro x y hx
      refine ih _ _ fun o e => ?_
      dsimp only at e
      split at e
      · exact after_out (Prod.ext rfl e)
      · exact hx o e
  exact h _ _ _ (fun o e => by cases e) e _ rfl
theorem issueItem_out {ex : Meaning} {it : Item} {c : Bool} {q : List QEnt} {s t : State} {p : Out}
    (e : issueItem ex it c q s = (t, some p)) : OutGood p := by
  unfold issueItem at e
  split at e
  · rename_i e'
    cases e
    exact prefixItem_out e'
  · exact after_out e
theorem issueItems_out {ex : Meaning} {c : Bool} {q : List QEnt} {t : State} {p : Out} :
    ∀ {l : List Item} {s : State}, issueItems ex c q l s = (t, some p) → OutGood p
  | [], _, e => by cases e
  | it :: r, s, e => by
    unfold issueItems at e
    split at e
    · rename_i e'
      cases e
      exact issueItem_out e'
    · split at e
      · cases e
      · exact issueItems_out e
@[simp] theorem issueLane_keeps (ex : Meaning) (lane : Nat) (s : State) (hex : ∀ i s, Good s.mem.cells → OutGood (ex i s))
    (hs : Good s.mem.cells) : OutGood (issueLane ex lane s) := by
  unfold issueLane
  split
  · exact hs
  dsimp only
  split
  · exact State_finishSlot_keeps _ _ _ hs
  split
  · exact State_issued_keeps _ _ _ _ _ hs
  split
  · rename_i e; exact issueItems_out e
  · rename_i e
    have h' := fst_good e (issueItems_keeps ex _ _ _ _ hex hs)
    split
    · exact unissue_keeps _ _ hs h'
    split
    · exact State_issued_keeps _ _ _ _ _ (unchain_keeps _ _ _ (noteTokens_keeps _ _ _ _ hex hs) h')
    · exact State_issued_keeps _ _ _ _ _ h'

end Sys2Proof.Laws
end

