-- ==== Sys2Proof/Laws/KeepArrive.lean ====
section
/-! SUPPORT. Every operation of Machine/Arrive.lean keeps the memory canonical. -/
namespace Sys2Proof.Laws
open Sys2Proof.Machine

@[simp] theorem execRunStart_keeps (lane : Nat) (st : State) (hst : Good st.mem.cells) :
    OutGood (execRunStart lane st) := by
  unfold execRunStart
  simp [*]
@[simp] theorem execRunEnd_keeps (lane : Nat) (st : State) (hst : Good st.mem.cells) :
    OutGood (execRunEnd lane st) := by
  unfold execRunEnd
  repeat' (first | (simp [*]; done) | split)
@[simp] theorem execActiveSetDisplace_keeps (lane : Nat) (st : State) (hst : Good st.mem.cells) :
    OutGood (execActiveSetDisplace lane st) := by
  unfold execActiveSetDisplace
  simp [*]
@[simp] theorem State_deliver_keeps (s : State) (a : Arrival) (hs : Good s.mem.cells) :
    Good (State.deliver s a).mem.cells := by
  unfold State.deliver
  repeat' (first | (simp [*]; done) | (dsimp only) | split)
@[simp] theorem State_takeArrival_keeps (s : State) (id : Nat) (k : Nat → Bool) (hs : Good s.mem.cells) :
    Good (State.takeArrival s id k).mem.cells := by
  unfold State.takeArrival
  repeat' (first | (simp [*]; done) | split)
@[simp] theorem execResultArrival_keeps (arr : Nat) (st : State) (hst : Good st.mem.cells) :
    OutGood (execResultArrival arr st) := by
  unfold execResultArrival
  simp [*]
@[simp] theorem execTraversalResult_keeps (arr : Nat) (st : State) (hst : Good st.mem.cells) :
    OutGood (execTraversalResult arr st) := by
  unfold execTraversalResult
  simp [*]
@[simp] theorem execTextureResult_keeps (arr : Nat) (st : State) (hst : Good st.mem.cells) :
    OutGood (execTextureResult arr st) := by
  unfold execTextureResult
  simp [*]
@[simp] theorem State_linkFill_keeps (s : State) (t : Nat) (hs : Good s.mem.cells) :
    Good (State.linkFill s t).mem.cells := by
  unfold State.linkFill
  repeat' (first | (simp [*]; done) | (rename_i e; replace e := ok_good e (by clear e; simp [*]) (by clear e; simp [*])) | (rename_i e; replace e := error_good e (by clear e; simp [*]) (by clear e; simp [*])) | (dsimp only) | split)
@[simp] theorem execLinkFill_keeps (thr : Nat) (st : State) (hst : Good st.mem.cells) :
    OutGood (execLinkFill thr st) := by
  unfold execLinkFill
  simp [*]
@[simp] theorem State_barDone_keeps (s : State) (k : Nat) (b : Bar) (hs : Good s.mem.cells) :
    Good (State.barDone s k b).mem.cells := by
  unfold State.barDone
  repeat' (first | (simp [*]; done) | (with_reducible intro _) | (with_reducible refine good_foldl ?_ _ ?_) | split)
@[simp] theorem State_barSend_keeps (s : State) (k : Nat) (b : Bar) (hs : Good s.mem.cells) :
    Good (State.barSend s k b).mem.cells := by
  unfold State.barSend
  simp [*]
@[simp] theorem execBarrierComplete_keeps (bar : Nat) (st : State) (hst : Good st.mem.cells) :
    OutGood (execBarrierComplete bar st) := by
  unfold execBarrierComplete
  repeat' (first | (simp [*]; done) | split)
@[simp] theorem execPodBarrierReport_keeps (src : PodSrc) (ctx : Nat) (id : Nat) (count : Nat) (st : State) (hst : Good st.mem.cells) :
    OutGood (execPodBarrierReport src ctx id count st) := by
  unfold execPodBarrierReport
  repeat' (first | (simp [*]; done) | (dsimp only) | split)
@[simp] theorem execSleepExpire_keeps (thr : Nat) (st : State) (hst : Good st.mem.cells) :
    OutGood (execSleepExpire thr st) := by
  unfold execSleepExpire
  simp [*]

end Sys2Proof.Laws
end

