-- ==== Sys2Proof/Laws/KeepEngines.lean ====
section
/-! SUPPORT. Every operation of Machine/Engines.lean keeps the memory canonical. -/
namespace Sys2Proof.Laws
open Sys2Proof.Machine

@[simp] theorem execCopyStart_keeps (quad : Nat) (st : State) (hst : Good st.mem.cells) :
    OutGood (execCopyStart quad st) := by
  unfold execCopyStart
  simp [*]
@[simp] theorem execCopyComplete_keeps (quad : Nat) (op : Nat) (st : State) (hst : Good st.mem.cells) :
    OutGood (execCopyComplete quad op st) := by
  unfold execCopyComplete
  simp [*]
@[simp] theorem execCopyEngineError_keeps (quad : Nat) (op : Nat) (st : State) (hst : Good st.mem.cells) :
    OutGood (execCopyEngineError quad op st) := by
  unfold execCopyEngineError
  simp [*]
@[simp] theorem execMatrixChunkServe_keeps (arr : Nat) (st : State) (hst : Good st.mem.cells) :
    OutGood (execMatrixChunkServe arr st) := by
  unfold execMatrixChunkServe
  simp [*]
@[simp] theorem execMatrixDrain_keeps (arr : Nat) (st : State) (hst : Good st.mem.cells) :
    OutGood (execMatrixDrain arr st) := by
  unfold execMatrixDrain
  simp [*]
@[simp] theorem execMatrixOpComplete_keeps (arr : Nat) (st : State) (hst : Good st.mem.cells) :
    OutGood (execMatrixOpComplete arr st) := by
  unfold execMatrixOpComplete
  simp [*]
@[simp] theorem State_podLine_keeps (s : State) (port : Nat) (pa : Nat) (mask : BitVec 64) (line : Line) (poison : Bool) (hs : Good s.mem.cells) :
    Good (State.podLine s port pa mask line poison).1.mem.cells := by
  unfold State.podLine
  repeat' (first | (simp [*]; done) | (dsimp only) | split)
@[simp] theorem execPodFrameReceive_keeps (port : Nat) (pa : Nat) (mask : BitVec 64) (line : Line) (kind : PodKind) (st : State) (hst : Good st.mem.cells) :
    OutGood (execPodFrameReceive port pa mask line kind st) := by
  unfold execPodFrameReceive
  repeat' (first | (simp [*]; done) | (rename_i e; replace e := fst_good e (by clear e; simp [*])) | split)
@[simp] theorem State_openWindow_keeps (s : State) (ctx : Nat) (w : Window) (hs : Good s.mem.cells) :
    Good (State.openWindow s ctx w).mem.cells := by
  unfold State.openWindow
  simp [*]
@[simp] theorem execPodFrameRetransmit_keeps (frame : Nat) (ok : Bool) (st : State) (hst : Good st.mem.cells) :
    OutGood (execPodFrameRetransmit frame ok st) := by
  unfold execPodFrameRetransmit
  simp [*]

end Sys2Proof.Laws
end

