-- ==== Sys2Proof/Laws/KeepFrontEnd.lean ====
section
/-! SUPPORT. Every operation of Machine/FrontEnd.lean keeps the memory canonical. -/
namespace Sys2Proof.Laws
open Sys2Proof.Machine

@[simp] theorem State_ctlWrite_keeps (s : State) (mid : Nat) (off : Nat) (f : State → State) (hs : Good s.mem.cells) (hf : ∀ s, Good s.mem.cells → Good (f s).mem.cells) :
    Good (State.ctlWrite s mid off f).mem.cells := by
  unfold State.ctlWrite
  repeat' (first | (simp [*]; done) | split)
@[simp] theorem State_ctxCmd_keeps (s : State) (mid : Nat) (ctx : Nat) (f : State → State × Nat) (hs : Good s.mem.cells) (hf : ∀ s, Good s.mem.cells → Good (f s).1.mem.cells) :
    Good (State.ctxCmd s mid ctx f).mem.cells := by
  unfold State.ctxCmd
  simp (maxDischargeDepth := 99) +contextual [*]
@[simp] theorem State_readNew_keeps (s : State) (ctx : Nat) (c : Ctx) (hs : Good s.mem.cells) :
    Good (State.readNew s ctx c).1.mem.cells := by
  unfold State.readNew
  repeat' (first | (simp [*]; done) | (dsimp only) | split)
@[simp] theorem State_undone_keeps (s : State) (s' : State) (hs : Good s.mem.cells) (hs' : Good s'.mem.cells) :
    Good (State.undone s s').mem.cells := by
  unfold State.undone
  simp [*]
@[simp] theorem State_create_keeps (s : State) (ctx : Nat) (desc : Nat) (hs : Good s.mem.cells) :
    Good (State.create s ctx desc).1.mem.cells := by
  unfold State.create
  repeat' (first | (simp [*]; done) | (rename_i e; replace e := fst_good e (by clear e; simp [*])) | (dsimp only) | split)
@[simp] theorem execCreate_keeps (mid : Nat) (ctx : Nat) (desc : Nat) (st : State) (hst : Good st.mem.cells) :
    OutGood (execCreate mid ctx desc st) := by
  unfold execCreate
  simp +contextual [*]
@[simp] theorem State_settleDrains_keeps (s : State) (hs : Good s.mem.cells) :
    Good (State.settleDrains s).mem.cells := by
  unfold State.settleDrains
  simp [*]
@[simp] theorem State_drainCtx_keeps (s : State) (all : Bool) (ctx : Nat) (hs : Good s.mem.cells) :
    Good (State.drainCtx s all ctx).1.mem.cells := by
  unfold State.drainCtx
  repeat' (first | (simp [*]; done) | split)
@[simp] theorem execDrain_keeps (mid : Nat) (all : Bool) (ctx : Nat) (st : State) (hst : Good st.mem.cells) :
    OutGood (execDrain mid all ctx st) := by
  unfold execDrain
  simp +contextual [*]
@[simp] theorem State_rereadHeader_keeps (s : State) (ctx : Nat) (hs : Good s.mem.cells) :
    Good (State.rereadHeader s ctx).mem.cells := by
  unfold State.rereadHeader
  repeat' (first | (simp [*]; done) | (rename_i e; replace e := fst_good e (by clear e; simp [*])) | split)
@[simp] theorem State_resumeCtx_keeps (s : State) (ctx : Nat) (hs : Good s.mem.cells) :
    Good (State.resumeCtx s ctx).mem.cells := by
  unfold State.resumeCtx
  simp [*]
@[simp] theorem execResume_keeps (mid : Nat) (ctx : Nat) (st : State) (hst : Good st.mem.cells) :
    OutGood (execResume mid ctx st) := by
  unfold execResume
  refine State_ctxCmd_keeps _ _ _ _ hst fun s h => ?_
  split <;> simp [h]
@[simp] theorem execDestroy_keeps (mid : Nat) (ctx : Nat) (st : State) (hst : Good st.mem.cells) :
    OutGood (execDestroy mid ctx st) := by
  unfold execDestroy
  refine State_ctxCmd_keeps _ _ _ _ hst fun s h => ?_
  split <;> simp [h]
@[simp] theorem execCtxcmdBadOp_keeps (mid : Nat) (op : Nat) (ctx : Nat) (st : State) (hst : Good st.mem.cells) :
    OutGood (execCtxcmdBadOp mid op ctx st) := by
  unfold execCtxcmdBadOp
  repeat' (first | (simp [*]; done) | split)
@[simp] theorem State_modQueue_keeps (s : State) (ctx : Nat) (q : Nat) (f : Queue → Queue) (hs : Good s.mem.cells) :
    Good (State.modQueue s ctx q f).mem.cells := by
  unfold State.modQueue
  simp [*]
@[simp] theorem execQcfgWrite_keeps (mid : Nat) (ctx : Nat) (q : Nat) (v : DWord) (st : State) (hst : Good st.mem.cells) :
    OutGood (execQcfgWrite mid ctx q v st) := by
  unfold execQcfgWrite
  simp +contextual [*]
@[simp] theorem execQueueDoorbell_keeps (mid : Nat) (ctx : Nat) (q : Nat) (v : DWord) (st : State) (hst : Good st.mem.cells) :
    OutGood (execQueueDoorbell mid ctx q v st) := by
  unfold execQueueDoorbell
  repeat' (first | (simp (maxDischargeDepth := 99) +contextual [*]; done) | split)
@[simp] theorem execQstsWrite_keeps (mid : Nat) (ctx : Nat) (q : Nat) (v : DWord) (st : State) (hst : Good st.mem.cells) :
    OutGood (execQstsWrite mid ctx q v st) := by
  unfold execQstsWrite
  simp +contextual [*]
@[simp] theorem State_settleAccepted_keeps (s : State) (lid : Nat) (hs : Good s.mem.cells) :
    Good (State.settleAccepted s lid).mem.cells := by
  unfold State.settleAccepted
  repeat' (first | (simp [*]; done) | split)
@[simp] theorem State_acceptPacket_keeps (s : State) (ctx : Nat) (q : Nat) (slotVa : Nat) (pkt : List DWord) (hs : Good s.mem.cells) :
    Good (State.acceptPacket s ctx q slotVa pkt).mem.cells := by
  unfold State.acceptPacket
  simp (maxDischargeDepth := 99) +contextual [*]
@[simp] theorem execSlotAccept_keeps (ctx : Nat) (q : Nat) (st : State) (hst : Good st.mem.cells) :
    OutGood (execSlotAccept ctx q st) := by
  unfold execSlotAccept
  repeat' (first | (simp [*]; done) | (rename_i e; replace e := fst_good e (by clear e; simp [*])) | (dsimp only) | split)
@[simp] theorem execDrecRead_keeps (lid : Nat) (dep : Nat) (st : State) (hst : Good st.mem.cells) :
    OutGood (execDrecRead lid dep st) := by
  unfold execDrecRead
  repeat' (first | (simp (maxDischargeDepth := 99) +contextual [*]; done) | split)
@[simp] theorem State_readFailed_keeps (s : State) (lid : Nat) (l : Launch) (f : Nat × Nat) (hs : Good s.mem.cells) :
    Good (State.readFailed s lid l f).mem.cells := by
  unfold State.readFailed
  simp (maxDischargeDepth := 99) +contextual [*]
@[simp] theorem State_launchRead_keeps (s : State) (lid : Nat) (va : Nat) (n : Nat) (due : Launch → Bool) (f : State → Launch → Nat → State) (hs : Good s.mem.cells) (hf : ∀ s v0 v1, Good s.mem.cells → Good (f s v0 v1).mem.cells) :
    Good (State.launchRead s lid va n due f).mem.cells := by
  unfold State.launchRead
  repeat' (first | (simp [*]; done) | (rename_i e; replace e := fst_good e (by clear e; simp [*])) | split)
@[simp] theorem execCountRead_keeps (lid : Nat) (st : State) (hst : Good st.mem.cells) :
    OutGood (execCountRead lid st) := by
  unfold execCountRead
  simp (maxDischargeDepth := 99) +contextual [*]
@[simp] theorem execDefaultsRead_keeps (lid : Nat) (st : State) (hst : Good st.mem.cells) :
    OutGood (execDefaultsRead lid st) := by
  unfold execDefaultsRead
  simp +contextual [*]
@[simp] theorem execUniformBlockRead_keeps (lid : Nat) (st : State) (hst : Good st.mem.cells) :
    OutGood (execUniformBlockRead lid st) := by
  unfold execUniformBlockRead
  simp +contextual [*]
@[simp] theorem execRoleTableRead_keeps (lid : Nat) (st : State) (hst : Good st.mem.cells) :
    OutGood (execRoleTableRead lid st) := by
  unfold execRoleTableRead
  simp (maxDischargeDepth := 99) +contextual [*]
@[simp] theorem execDeadlineMiss_keeps (lid : Nat) (st : State) (hst : Good st.mem.cells) :
    OutGood (execDeadlineMiss lid st) := by
  unfold execDeadlineMiss
  repeat' (first | (simp [*]; done) | split)

end Sys2Proof.Laws
end

