-- ==== Sys2Proof/Laws/KeepPlace.lean ====
section
/-! SUPPORT. Every operation of Machine/Place.lean keeps the memory canonical. -/
namespace Sys2Proof.Laws
open Sys2Proof.Machine

theorem good_foldl_snd {α β : Type} {f : β × State → α → β × State} (hf : ∀ x a, Good x.2.mem.cells → Good (f x a).2.mem.cells) :
    ∀ (l : List α) {x : β × State}, Good x.2.mem.cells → Good (l.foldl f x).2.mem.cells
  | [], _, h => h
  | a :: r, x, h => good_foldl_snd hf r (hf x a h)
@[simp] theorem State_makeThreads_keeps (s : State) (l : Launch) (ts : List (ThId × Nat × List Word)) (hs : Good s.mem.cells) :
    OptGood (State.makeThreads s l ts) := by
  unfold State.makeThreads
  split
  · exact optGood_none
  · intro r e
    rw [← Option.some.inj e]
    refine good_foldl_snd (β := List Nat) (fun x a h => ?_) _ (State_modCtx_keeps s _ _ hs)
    exact State_newId_keeps x.2 h
@[simp] theorem State_residency_keeps (s : State) (lid : Nat) (core : Nat) (l : Launch) (hs : Good s.mem.cells) :
    Good (State.residency s lid core l).2.mem.cells := by
  unfold State.residency
  repeat' (first | (simp [*]; done) | split)
@[simp] theorem State_seatGroup_keeps (s : State) (lid : Nat) (l : Launch) (core : Nat) (lane : Nat) (no : Word) (role : Nat) (ts : List Nat) (hs : Good s.mem.cells) :
    Good (State.seatGroup s lid l core lane no role ts).2.mem.cells := by
  unfold State.seatGroup
  simp (maxDischargeDepth := 99) +contextual [*]
@[simp] theorem State_writeTadm_keeps (s : State) (l : Launch) (hs : Good s.mem.cells) :
    Good (State.writeTadm s l).mem.cells := by
  unfold State.writeTadm
  repeat' (first | (simp [*]; done) | (rename_i e; replace e := fst_good e (by clear e; simp [*])) | split)
@[simp] theorem State_takeIn_keeps (s : State) (lid : Nat) (l : Launch) (hs : Good s.mem.cells) :
    Good (State.takeIn s lid l).mem.cells := by
  unfold State.takeIn
  simp (maxDischargeDepth := 99) +contextual [*]
@[simp] theorem execLaunchAdmit_keeps (lid : Nat) (st : State) (hst : Good st.mem.cells) :
    OutGood (execLaunchAdmit lid st) := by
  unfold execLaunchAdmit
  repeat' (first | (simp [*]; done) | split)
@[simp] theorem State_reserveFwd_keeps (s : State) (lid : Nat) (l : Launch) (core : Nat) (j : Nat) (hs : Good s.mem.cells) :
    Good (State.reserveFwd s lid l core j).mem.cells := by
  unfold State.reserveFwd
  simp [*]
@[simp] theorem State_placeNext_keeps (s : State) (lid : Nat) (l : Launch) (hs : Good s.mem.cells) :
    Good (State.placeNext s lid l).mem.cells := by
  unfold State.placeNext
  repeat' (first | (simp (maxDischargeDepth := 99) +contextual [*]; done) | (rename_i e; replace e := some_good e (by clear e; simp (maxDischargeDepth := 99) +contextual [*])) | (dsimp only) | split)
@[simp] theorem State_placeRole_keeps (s : State) (lid : Nat) (l : Launch) (quad : Nat) (role : Nat) (hs : Good s.mem.cells) :
    Good (State.placeRole s lid l quad role).mem.cells := by
  unfold State.placeRole
  repeat' (first | (simp [*]; done) | (rename_i e; replace e := some_good e (by clear e; simp [*])) | (with_reducible refine State_modLaunch_keeps _ _ _ ?_) | (with_reducible refine State_modCtx_keeps _ _ _ ?_) | (dsimp only) | split)
@[simp] theorem execGroupPlace_keeps (lid : Nat) (st : State) (hst : Good st.mem.cells) :
    OutGood (execGroupPlace lid st) := by
  unfold execGroupPlace
  repeat' (first | (simp [*]; done) | split)
@[simp] theorem State_evalRole_keeps (s : State) (lid : Nat) (l : Launch) (quad : Nat) (k : Nat) (e : DWord × DWord) (hs : Good s.mem.cells) :
    Good (State.evalRole s lid l quad k e).mem.cells := by
  unfold State.evalRole
  repeat' (first | (simp [*]; done) | (dsimp only) | split)
@[simp] theorem execRoleEvaluation_keeps (quad : Nat) (st : State) (hst : Good st.mem.cells) :
    OutGood (execRoleEvaluation quad st) := by
  unfold execRoleEvaluation
  simp (maxDischargeDepth := 99) +contextual [*]
@[simp] theorem execBinFlushTimeout_keeps (core : Nat) (bin : Nat) (st : State) (hst : Good st.mem.cells) :
    OutGood (execBinFlushTimeout core bin st) := by
  unfold execBinFlushTimeout
  repeat' (first | (simp [*]; done) | split)
@[simp] theorem execNodeBinTimeout_keeps (core : Nat) (bin : Nat) (st : State) (hst : Good st.mem.cells) :
    OutGood (execNodeBinTimeout core bin st) := by
  unfold execNodeBinTimeout
  repeat' (first | (simp [*]; done) | split)
@[simp] theorem State_binThreads_keeps (s : State) (l : Launch) (b : Bin) (hs : Good s.mem.cells) :
    OptGood (State.binThreads s l b) := by
  unfold State.binThreads
  repeat' (first | (simp +contextual [*]; done) | (dsimp only) | split)
@[simp] theorem State_placeBin_keeps (s : State) (core : Nat) (bin : Nat) (b : Bin) (l : Launch) (dst : Nat) (lane : Nat) (hs : Good s.mem.cells) :
    Good (State.placeBin s core bin b l dst lane).mem.cells := by
  unfold State.placeBin
  repeat' (first | (simp (maxDischargeDepth := 99) +contextual [*]; done) | (rename_i e; replace e := some_good e (by clear e; simp (maxDischargeDepth := 99) +contextual [*])) | (dsimp only) | split)
@[simp] theorem execBinPlace_keeps (core : Nat) (bin : Nat) (st : State) (hst : Good st.mem.cells) :
    OutGood (execBinPlace core bin st) := by
  unfold execBinPlace
  repeat' (first | (simp [*]; done) | split)
@[simp] theorem execBinSteal_keeps (core : Nat) (bin : Nat) (st : State) (hst : Good st.mem.cells) :
    OutGood (execBinSteal core bin st) := by
  unfold execBinSteal
  repeat' (first | (simp [*]; done) | split)
@[simp] theorem State_beginSave_keeps (s : State) (r : Nat × Res) (hs : Good s.mem.cells) :
    OptGood1 (State.beginSave s r) := by
  unfold State.beginSave
  repeat' (first | (simp [*]; done) | split)
@[simp] theorem State_beginSaves_keeps (s : State) (x1 : List (Nat × Res)) (hs : Good s.mem.cells) :
    OptGood1 (State.beginSaves s x1) := by
  induction x1 generalizing s with
  | nil => exact (optGood1_of _).2 hs
  | cons r rs ih =>
    unfold State.beginSaves
    split
    · exact optGood1_none
    · rename_i e; exact ih _ (some_good1 e (State_beginSave_keeps _ _ hs))
@[simp] theorem State_takeVictims_keeps (s : State) (lid : Nat) (x2 : Nat) (x3 : List Nat) (hs : Good s.mem.cells) :
    Good (State.takeVictims s lid x2 x3).mem.cells := by
  induction x3 generalizing s x2 with
  | nil => cases x2 <;> exact hs
  | cons c r ih =>
    cases x2 with
    | zero => exact hs
    | succ n =>
      unfold State.takeVictims
      split
      · rename_i e; exact ih _ _ (State_modLaunch_keeps _ _ _ (some_good1 e (by simp [hs])))
      · exact ih _ _ hs
@[simp] theorem execPreemptDecision_keeps (lid : Nat) (st : State) (hst : Good st.mem.cells) :
    OutGood (execPreemptDecision lid st) := by
  unfold execPreemptDecision
  simp only [outGood_next]
  split
  · exact hst
  · exact good_ite hst (State_takeVictims_keeps _ _ _ _ hst)
@[simp] theorem arenaStop_keeps (r : Res) (before : State) (s : State) (x3 : Exc) (hbefore : Good before.mem.cells) (hs : Good s.mem.cells) :
    Good (arenaStop r before s x3).mem.cells := by
  unfold arenaStop
  repeat' (first | (simp [*]; done) | split)
@[simp] theorem State_takeRoom_keeps (s : State) (rid : Nat) (r : Res) (l : Launch) (hs : Good s.mem.cells) :
    Good (State.takeRoom s rid r l).mem.cells := by
  unfold State.takeRoom
  simp (maxDischargeDepth := 99) +contextual [*]
@[simp] theorem State_saveThrough_keeps (s : State) (rid : Nat) (r : Res) (l : Launch) (hs : Good s.mem.cells) :
    Good (State.saveThrough s rid r l).mem.cells := by
  have h : ∀ (b : Bool) (x y : State × Option Exc), Good x.1.mem.cells → Good y.1.mem.cells → Good (if b then x else y).1.mem.cells := by
    intro b x y hx hy
    cases b <;> assumption
  have hu := State_takeRoom_keeps s rid r l hs
  unfold State.saveThrough
  dsimp only
  generalize s.takeRoom rid r l = t at hu ⊢
  split
  · rename_i e; exact State_saveRes_keeps _ _ (fst_good e (h _ _ _ hu (State_spill_keeps _ _ _ _ _ _ hu)))
  · rename_i e; exact arenaStop_keeps _ _ _ _ hs (fst_good e (h _ _ _ hu (State_spill_keeps _ _ _ _ _ _ hu)))
@[simp] theorem State_restoreThrough_keeps (s : State) (rid : Nat) (r : Res) (hs : Good s.mem.cells) :
    Good (State.restoreThrough s rid r).mem.cells := by
  have h : ∀ o : Option ArenaRoom, Good (match o with
      | some m => if m.out then readArena (recWho s r.core r.ctx) (m.lines (s.ctxD r.ctx).sava) s else (s, none)
      | none => (s, none)).1.mem.cells := by
    rintro (_ | m)
    · exact hs
    dsimp only
    split
    · exact readArena_keeps _ _ _ hs
    · exact hs
  unfold State.restoreThrough
  dsimp only
  split
  · rename_i e; exact State_modCtx_keeps _ _ _ (State_restoreRes_keeps _ _ (fst_good e (h _)))
  · rename_i e; exact arenaStop_keeps _ _ _ _ hs (fst_good e (h _))
@[simp] theorem execResidencySave_keeps (rid : Nat) (st : State) (hst : Good st.mem.cells) :
    OutGood (execResidencySave rid st) := by
  unfold execResidencySave
  repeat' (first | (simp [*]; done) | split)
@[simp] theorem execResidencyRestore_keeps (rid : Nat) (st : State) (hst : Good st.mem.cells) :
    OutGood (execResidencyRestore rid st) := by
  unfold execResidencyRestore
  repeat' (first | (simp [*]; done) | split)
@[simp] theorem execTriggerFire_keeps (lid : Nat) (st : State) (hst : Good st.mem.cells) :
    OutGood (execTriggerFire lid st) := by
  unfold execTriggerFire
  repeat' (first | (simp [*]; done) | split)
@[simp] theorem execLaunchComplete_keeps (lid : Nat) (st : State) (hst : Good st.mem.cells) :
    OutGood (execLaunchComplete lid st) := by
  unfold execLaunchComplete
  repeat' (first | (simp [*]; done) | split)
@[simp] theorem execQuiescenceReport_keeps (ctx : Nat) (dev : Nat) (st : State) (hst : Good st.mem.cells) :
    OutGood (execQuiescenceReport ctx dev st) := by
  unfold execQuiescenceReport
  simp (maxDischargeDepth := 99) +contextual [*]

end Sys2Proof.Laws
end

