-- ==== Sys2Proof/Laws/KeepService.lean ====
section
/-! SUPPORT. Every operation of Machine/Service.lean keeps the memory canonical. -/
namespace Sys2Proof.Laws
open Sys2Proof.Machine

@[simp] theorem execFaultAreaRoom_keeps (thr : Nat) (st : State) (hst : Good st.mem.cells) :
    OutGood (execFaultAreaRoom thr st) := by
  unfold execFaultAreaRoom
  repeat' (first | (simp [*]; done) | split)
@[simp] theorem State_svcResult_keeps (s : State) (n : Nat) (hs : Good s.mem.cells) :
    Good (State.svcResult s n).mem.cells := by
  unfold State.svcResult
  simp [*]
@[simp] theorem State_fsvc_keeps (s : State) (core : Nat) (act : Nat) (w0 : DWord) (f : State → Nat → Thr → Svc → State) (hs : Good s.mem.cells) (hf : ∀ s v0 v1 v2, Good s.mem.cells → Good (f s v0 v1 v2).mem.cells) :
    Good (State.fsvc s core act w0 f).mem.cells := by
  unfold State.fsvc
  repeat' (first | (simp (maxDischargeDepth := 99) +contextual [*]; done) | (with_reducible intro _) | (with_reducible refine State_ctlWrite_keeps _ _ _ _ ?_ ?_) | split)
@[simp] theorem State_readRecord_keeps (s : State) (core : Nat) (ctx : Nat) (va : Nat) (hs : Good s.mem.cells) :
    Good (State.readRecord s core ctx va).1.mem.cells := by
  unfold State.readRecord
  have h := feRead_keeps (recWho s core ctx) (va + 24) 2 8 s hs
  generalize feRead (recWho s core ctx) (va + 24) 2 8 s = q at h ⊢
  obtain ⟨s1, e | f3⟩ := q
  · exact h
  have h' := feRead_keeps (recWho s1 core ctx) (va + 48) 2 16 s1 h
  dsimp only
  generalize feRead (recWho s1 core ctx) (va + 48) 2 16 s1 = q at h' ⊢
  obtain ⟨s2, e | r⟩ := q
  · exact h'
  · exact h'
@[simp] theorem State_svcResume_keeps (s : State) (t : Nat) (th : Thr) (v : Svc) (hs : Good s.mem.cells) :
    Good (State.svcResume s t th v).mem.cells := by
  unfold State.svcResume
  repeat' (first | (simp [*]; done) | (rename_i e; replace e := fst_good e (by clear e; simp [*])) | split)
@[simp] theorem execFsvcResume_keeps (core : Nat) (w0 : DWord) (st : State) (hst : Good st.mem.cells) :
    OutGood (execFsvcResume core w0 st) := by
  unfold execFsvcResume
  simp +contextual [*]
@[simp] theorem execFsvcDeliver_keeps (core : Nat) (w0 : DWord) (st : State) (hst : Good st.mem.cells) :
    OutGood (execFsvcDeliver core w0 st) := by
  unfold execFsvcDeliver
  simp only [outGood_next]
  refine State_fsvc_keeps _ _ _ _ _ hst fun s t x v h => ?_
  split
  · exact h
  · split <;> simp [h]
@[simp] theorem execFsvcTerminate_keeps (core : Nat) (w0 : DWord) (st : State) (hst : Good st.mem.cells) :
    OutGood (execFsvcTerminate core w0 st) := by
  unfold execFsvcTerminate
  simp +contextual [*]
@[simp] theorem execFsvcInvalid_keeps (core : Nat) (w0 : DWord) (st : State) (hst : Good st.mem.cells) :
    OutGood (execFsvcInvalid core w0 st) := by
  unfold execFsvcInvalid
  simp (maxDischargeDepth := 99) +contextual [*]
@[simp] theorem execVecset_keeps (core : Nat) (w0 : DWord) (st : State) (hst : Good st.mem.cells) :
    OutGood (execVecset core w0 st) := by
  unfold execVecset
  simp (maxDischargeDepth := 99) +contextual [*]
@[simp] theorem State_startSolo_keeps (s : State) (core : Nat) (ctx : Nat) (pc : Nat) (trapv : Nat) (regs : List Word) (hs : Good s.mem.cells) :
    Good (State.startSolo s core ctx pc trapv regs).mem.cells := by
  unfold State.startSolo
  simp (maxDischargeDepth := 99) +contextual [*]
@[simp] theorem execWake_keeps (mid : Nat) (core : Nat) (v : DWord) (st : State) (hst : Good st.mem.cells) :
    OutGood (execWake mid core v st) := by
  unfold execWake
  simp (maxDischargeDepth := 99) +contextual [*]
@[simp] theorem State_admitNotices_keeps (s : State) (x1 : Nat) (hs : Good s.mem.cells) :
    Good (State.admitNotices s x1).mem.cells := by
  fun_induction State.admitNotices <;> simp_all (maxDischargeDepth := 99) +contextual +zetaDelta
@[simp] theorem State_writeReg_keeps (s : State) (mid : Nat) (off : Nat) (v : DWord) (hs : Good s.mem.cells) :
    Good (State.writeReg s mid off v).mem.cells := by
  unfold State.writeReg
  simp (maxDischargeDepth := 99) +contextual [*]
@[simp] theorem execRegisterWrite_keeps (mid : Nat) (off : Nat) (v : DWord) (st : State) (hst : Good st.mem.cells) :
    OutGood (execRegisterWrite mid off v st) := by
  unfold execRegisterWrite
  simp +contextual [*]
@[simp] theorem State_ctlRead_keeps (s : State) (mid : Nat) (off : Nat) (hs : Good s.mem.cells) :
    Good (State.ctlRead s mid off).mem.cells := by
  unfold State.ctlRead
  repeat' (first | (simp (maxDischargeDepth := 99) +contextual [*]; done) | (rename_i e; replace e := ok_good e (by clear e; simp (maxDischargeDepth := 99) +contextual [*]) (by clear e; simp (maxDischargeDepth := 99) +contextual [*])) | (rename_i e; replace e := error_good e (by clear e; simp (maxDischargeDepth := 99) +contextual [*]) (by clear e; simp (maxDischargeDepth := 99) +contextual [*])) | (rename_i e; replace e := some_good e (by clear e; simp (maxDischargeDepth := 99) +contextual [*])) | (rename_i e; replace e := next_good e (by clear e; simp (maxDischargeDepth := 99) +contextual [*])) | (rename_i e; replace e := some_good1 e (by clear e; simp (maxDischargeDepth := 99) +contextual [*])) | (rename_i e; replace e := fst_good e (by clear e; simp (maxDischargeDepth := 99) +contextual [*])) | (rename_i e; replace e := snd_good e (by clear e; simp (maxDischargeDepth := 99) +contextual [*])) | (with_reducible refine keeps_get_bind ?_) | (with_reducible refine keeps_bind ?_ ?_) | (with_reducible intro _)  | (with_reducible refine forX_keeps _ _ ?_) | (with_reducible refine mapX_keeps _ _ ?_) | (with_reducible refine attempt_keeps _ _ ?_ ?_) | (with_reducible refine onCtl_keeps _ _ ?_ ?_) | (with_reducible refine applyX_keeps _ _ ?_ ?_) | (with_reducible refine runWord_keeps _ _ _ _ ?_ ?_) | (with_reducible refine onceVal_keeps _ ?_) | (with_reducible refine onceX_keeps _ ?_) | (with_reducible refine onceLate_keeps _ ?_) | (with_reducible refine runXgN_keeps _ _ _ _ _ ?_ ?_) | (with_reducible refine runXg_keeps _ _ _ _ ?_ ?_) | (with_reducible refine tryUnit_keeps _ _ ?_) | (with_reducible refine onUnit_keeps _ _ _ _ ?_) | (with_reducible refine holding_keeps _ _ ?_) | (with_reducible refine rayX_keeps _ _ ?_) | (with_reducible refine runK_keeps _ _ _ ?_ ?_) | (with_reducible refine after_keeps _ _ ?_ ?_) | (with_reducible refine issueItem_keeps _ _ _ _ _ ?_ ?_) | (with_reducible refine issueItems_keeps _ _ _ _ _ ?_ ?_) | (with_reducible refine issueLane_keeps _ _ _ ?_ ?_) | (with_reducible refine State_ctlWrite_keeps _ _ _ _ ?_ ?_) | (with_reducible refine State_ctxCmd_keeps _ _ _ _ ?_ ?_) | (with_reducible refine State_throughArena_keeps _ _ _ _ _ ?_ ?_) | (with_reducible refine State_stackReq_keeps _ _ _ _ _ _ ?_ ?_) | (with_reducible refine State_rootReq_keeps _ _ _ _ _ _ _ ?_ ?_) | (with_reducible refine issueAct_keeps _ _ _ ?_ ?_) | (with_reducible refine doAct_keeps _ _ _ ?_ ?_) | (with_reducible refine State_defaultAct_keeps _ _ ?_ ?_) | (with_reducible refine polled_keeps _ ?_) | (with_reducible refine stepWith_keeps _ _ ?_ ?_) | (with_reducible refine keeps_modify ?_) | (with_reducible refine keeps_set ?_) | (with_reducible refine State_modLane_keeps _ _ _ ?_) | (with_reducible refine State_modThr_keeps _ _ _ ?_) | (with_reducible refine State_modCore_keeps _ _ _ ?_) | (with_reducible refine State_modLaunch_keeps _ _ _ ?_) | (with_reducible refine State_modGrp_keeps _ _ _ ?_) | (with_reducible refine State_modQuad_keeps _ _ _ ?_) | (with_reducible refine State_modArr_keeps _ _ _ ?_) | (with_reducible refine State_modCtx_keeps _ _ _ ?_) | (with_reducible refine good_foldl ?_ _ ?_) | (dsimp only) | split | (with_reducible refine keeps_fun ?_))
@[simp] theorem execAccessRefusal_keeps (mid : Nat) (tgt : Nat) (cls : ReqClass) (addr : Nat) (st : State) (hst : Good st.mem.cells) :
    OutGood (execAccessRefusal mid tgt cls addr st) := by
  unfold execAccessRefusal
  repeat' (first | (simp [*]; done) | split)
@[simp] theorem State_writeAcc_keeps (s : State) (mid : Nat) (tgt : Nat) (idx : Nat) (v : BitVec 128) (hs : Good s.mem.cells) :
    Good (State.writeAcc s mid tgt idx v).mem.cells := by
  unfold State.writeAcc
  exact good_ite (State_refuse_keeps _ _ _ _ _ _ _ hs) (good_ite (State_refuse_keeps _ _ _ _ _ _ _ hs) hs)
@[simp] theorem execAccessTableWrite_keeps (mid : Nat) (tgt : Nat) (idx : Nat) (v : BitVec 128) (st : State) (hst : Good st.mem.cells) :
    OutGood (execAccessTableWrite mid tgt idx v st) := by
  unfold execAccessTableWrite
  simp [*]

end Sys2Proof.Laws
end

