-- ==== Sys2Proof/Laws/KeepPower.lean ====
section
/-! SUPPORT. Every operation of Machine/Power.lean keeps the memory canonical. -/
namespace Sys2Proof.Laws
open Sys2Proof.Machine

@[simp] theorem State_bootFails_keeps (s : State) (stage : Nat) (code : Nat) (hs : Good s.mem.cells) :
    Good (State.bootFails s stage code).mem.cells := by
  unfold State.bootFails
  simp [*]
@[simp] theorem State_startImage_keeps (s : State) (k : Nat) (img : List Byte) (hs : Good s.mem.cells) :
    Good (State.startImage s k img).mem.cells := by
  unfold State.startImage
  simp [*]
@[simp] theorem State_bootStep_keeps (s : State) (hs : Good s.mem.cells) :
    Good (State.bootStep s).mem.cells := by
  unfold State.bootStep
  repeat' (first | (simp [*]; done) | split)
@[simp] theorem execPowerOn_keeps (b : BootIn) (st : State) (hst : Good st.mem.cells) :
    OutGood (execPowerOn b st) := by
  unfold execPowerOn
  repeat' (first | (simp [*]; done) | (dsimp only) | split)
@[simp] theorem execClockChange_keeps (die : Nat) (mhz : Nat) (st : State) (hst : Good st.mem.cells) :
    OutGood (execClockChange die mhz st) := by
  unfold execClockChange
  simp [*]
@[simp] theorem execPowerCap_keeps (die : Nat) (mhz : Nat) (st : State) (hst : Good st.mem.cells) :
    OutGood (execPowerCap die mhz st) := by
  unfold execPowerCap
  simp [*]
@[simp] theorem execThermalThrottle_keeps (die : Nat) (st : State) (hst : Good st.mem.cells) :
    OutGood (execThermalThrottle die st) := by
  unfold execThermalThrottle
  simp [*]
@[simp] theorem execThermalRecover_keeps (die : Nat) (st : State) (hst : Good st.mem.cells) :
    OutGood (execThermalRecover die st) := by
  unfold execThermalRecover
  simp [*]
@[simp] theorem State_checkAnon_keeps (s : State) (kind : Nat) (ctx : Nat) (hs : Good s.mem.cells) :
    Good (State.checkAnon s kind ctx).mem.cells := by
  unfold State.checkAnon
  simp [*]
@[simp] theorem State_destroyAll_keeps (s : State) (p : Nat × Ctx → Bool) (hs : Good s.mem.cells) :
    Good (State.destroyAll s p).mem.cells := by
  unfold State.destroyAll
  simp +contextual [*]
@[simp] theorem execThermalShutdown_keeps (die : Nat) (st : State) (hst : Good st.mem.cells) :
    OutGood (execThermalShutdown die st) := by
  unfold execThermalShutdown
  simp (maxDischargeDepth := 99) +contextual [*]
@[simp] theorem execCoolantFlowLow_keeps (st : State) (hst : Good st.mem.cells) :
    OutGood (execCoolantFlowLow st) := by
  unfold execCoolantFlowLow
  simp [*]
@[simp] theorem execCoolantFlowRestore_keeps (st : State) (hst : Good st.mem.cells) :
    OutGood (execCoolantFlowRestore st) := by
  unfold execCoolantFlowRestore
  simp [*]
@[simp] theorem execSramCorrectedError_keeps (unit : HwUnit) (st : State) (hst : Good st.mem.cells) :
    OutGood (execSramCorrectedError unit st) := by
  unfold execSramCorrectedError
  repeat' (first | (simp [*]; done) | split)
@[simp] theorem State_failLink_keeps (s : State) (link : Nat) (hs : Good s.mem.cells) :
    Good (State.failLink s link).mem.cells := by
  unfold State.failLink
  simp (maxDischargeDepth := 99) +contextual [*]
@[simp] theorem execFlitReplay_keeps (m : LinkModule) (st : State) (hst : Good st.mem.cells) :
    OutGood (execFlitReplay m st) := by
  unfold execFlitReplay
  simp (maxDischargeDepth := 99) +contextual [*]
@[simp] theorem execModuleRetire_keeps (m : LinkModule) (st : State) (hst : Good st.mem.cells) :
    OutGood (execModuleRetire m st) := by
  unfold execModuleRetire
  simp [*]
@[simp] theorem State_flawAt_keeps (s : State) (pa : Nat) (found : ScrubFound) (hs : Good s.mem.cells) :
    Good (State.flawAt s pa found).mem.cells := by
  unfold State.flawAt
  simp [*]
@[simp] theorem State_scrubbed_keeps (st : State) (stk : Nat) (addr : Nat) (pa : Nat) (hst : Good st.mem.cells) :
    Good (State.scrubbed st stk addr pa).mem.cells := by
  unfold State.scrubbed
  repeat' (first | (simp [*]; done) | split)
@[simp] theorem execStackScrub_keeps (stk : Nat) (line : Nat) (found : ScrubFound) (st : State) (hst : Good st.mem.cells) :
    OutGood (execStackScrub stk line found st) := by
  unfold execStackScrub
  rw [outGood_next]
  exact good_ite hst (State_scrubbed_keeps _ _ _ _ (State_flawAt_keeps _ _ _ hst))
@[simp] theorem State_harvest_keeps (s : State) (hs : Good s.mem.cells) :
    Good (State.harvest s).1.mem.cells := by
  unfold State.harvest
  simp [*]
@[simp] theorem State_dropStoreRings_keeps (s : State) (hs : Good s.mem.cells) :
    Good (State.dropStoreRings s).mem.cells := by
  unfold State.dropStoreRings
  simp [*]
@[simp] theorem State_afterHarvest_keeps (s : State) (d : HarvestOut) (hs : Good s.mem.cells) :
    Good (State.afterHarvest s d).mem.cells := by
  unfold State.afterHarvest
  simp (maxDischargeDepth := 99) +contextual [*]
@[simp] theorem execHarvestApply_keeps (st : State) (hst : Good st.mem.cells) :
    OutGood (execHarvestApply st) := by
  unfold execHarvestApply
  simp (maxDischargeDepth := 99) +contextual [*]
@[simp] theorem State_sramError_keeps (s : State) (x1 : SramPlace) (hs : Good s.mem.cells) :
    Good (State.sramError s x1).mem.cells := by
  unfold State.sramError
  repeat' (first | (simp (maxDischargeDepth := 99) +contextual [*]; done) | split)
@[simp] theorem execSramUncorrectableError_keeps (place : SramPlace) (st : State) (hst : Good st.mem.cells) :
    OutGood (execSramUncorrectableError place st) := by
  unfold execSramUncorrectableError
  simp [*]

end Sys2Proof.Laws
end

