-- ==== Sys2Proof/Laws/KeepStackLink.lean ====
section
/-! SUPPORT. Every operation of Machine/StackLink.lean keeps the memory canonical. -/
namespace Sys2Proof.Laws
open Sys2Proof.Machine

theorem good_stackPut {m : Memory} (h : Good m.cells) (keep : Bool) (ws : List (Nat × Nat × Line)) :
    Good (stackPut m keep ws).cells := by
  induction ws generalizing m with
  | nil => exact h
  | cons w r ih =>
    unfold stackPut
    refine ih ?_
    have h' := good_memWriteMasked h none w.1 w.2.1 w.2.2.toNat
    split <;> exact h'
@[simp] theorem State_respond_keeps (s : State) (stk : Nat) (h : Line) (status : Nat) (data : List Line) (hs : Good s.mem.cells) :
    Good (State.respond s stk h status data).mem.cells := by
  unfold State.respond
  simp [*]
@[simp] theorem State_reqReport_keeps (s : State) (stk : Nat) (h : Line) (kind : Nat) (hs : Good s.mem.cells) :
    Good (State.reqReport s stk h kind).mem.cells := by
  unfold State.reqReport
  simp [*]
@[simp] theorem State_malformedReq_keeps (s : State) (stk : Nat) (h : Line) (hs : Good s.mem.cells) :
    Good (State.malformedReq s stk h).mem.cells := by
  unfold State.malformedReq
  simp [*]
@[simp] theorem freeLines_keeps (x0 : Nat) :
    Keeps (freeLines x0 : X (List Line)) := by
  fun_induction freeLines <;> repeat' (first | (simp_all (maxDischargeDepth := 99) +contextual +zetaDelta; done) | (with_reducible refine keeps_bind ?_ ?_) | (with_reducible intro _))
@[simp] theorem State_beyondReq_keeps (s : State) (stk : Nat) (h : Line) (n : Nat) (hs : Good s.mem.cells) :
    Good (State.beyondReq s stk h n).mem.cells := by
  unfold State.beyondReq
  simp (maxDischargeDepth := 99) +contextual [*]
@[simp] theorem State_denyReq_keeps (s : State) (stk : Nat) (h : Line) (n : Nat) (hs : Good s.mem.cells) :
    Good (State.denyReq s stk h n).mem.cells := by
  unfold State.denyReq
  simp [*]
@[simp] theorem State_meetReq_keeps (s : State) (h : Line) (las : List Nat) (hs : Good s.mem.cells) :
    Good (State.meetReq s h las).1.mem.cells := by
  unfold State.meetReq
  simp +contextual [*]
@[simp] theorem State_stackReq_keeps (s : State) (stk : Nat) (cmd : Nat) (h : Line) (ok : Bool) (f : State → State) (hs : Good s.mem.cells) (hf : ∀ s, Good s.mem.cells → Good (f s).mem.cells) :
    Good (State.stackReq s stk cmd h ok f).mem.cells := by
  unfold State.stackReq
  simp (maxDischargeDepth := 99) +contextual [*]
@[simp] theorem execStackRead_keeps (stk : Nat) (hdr : Line) (data : List Line) (st : State) (hst : Good st.mem.cells) :
    OutGood (execStackRead stk hdr data st) := by
  unfold execStackRead
  simp (maxDischargeDepth := 99) +contextual [*]
@[simp] theorem execStackWrite_keeps (stk : Nat) (hdr : Line) (data : List Line) (st : State) (hst : Good st.mem.cells) :
    OutGood (execStackWrite stk hdr data st) := by
  unfold execStackWrite
  refine State_stackReq_keeps _ _ _ _ _ _ hst fun s h => ?_
  exact good_ite (State_beyondReq_keeps _ _ _ _ h) (State_respond_keeps _ _ _ _ _ (good_stackPut h _ _))
@[simp] theorem execStackWritem_keeps (stk : Nat) (hdr : Line) (data : List Line) (st : State) (hst : Good st.mem.cells) :
    OutGood (execStackWritem stk hdr data st) := by
  unfold execStackWritem
  refine State_stackReq_keeps _ _ _ _ _ _ hst fun s h => ?_
  exact good_ite (State_beyondReq_keeps _ _ _ _ h) (State_respond_keeps _ _ _ _ _ (good_stackPut h _ _))
@[simp] theorem execStackAtomic_keeps (stk : Nat) (hdr : Line) (data : List Line) (st : State) (hst : Good st.mem.cells) :
    OutGood (execStackAtomic stk hdr data st) := by
  unfold execStackAtomic
  simp (maxDischargeDepth := 99) +contextual [*]
@[simp] theorem State_commandTo_keeps (s : State) (stk : Nat) (h : Line) (f : State → State) (hs : Good s.mem.cells) (hf : ∀ s, Good s.mem.cells → Good (f s).mem.cells) :
    Good (State.commandTo s stk h f).mem.cells := by
  unfold State.commandTo
  repeat' (first | (simp [*]; done) | (dsimp only) | split)
@[simp] theorem State_rootReq_keeps (s : State) (stk : Nat) (sub : Nat) (h : Line) (data : List Line) (ok : Bool) (f : State → State) (hs : Good s.mem.cells) (hf : ∀ s, Good s.mem.cells → Good (f s).mem.cells) :
    Good (State.rootReq s stk sub h data ok f).mem.cells := by
  unfold State.rootReq
  simp (maxDischargeDepth := 99) +contextual [*]
@[simp] theorem execRootLoadi_keeps (stk : Nat) (hdr : Line) (data : List Line) (st : State) (hst : Good st.mem.cells) :
    OutGood (execRootLoadi stk hdr data st) := by
  unfold execRootLoadi
  simp (maxDischargeDepth := 99) +contextual [*]
@[simp] theorem State_startEdge_keeps (s : State) (stk : Nat) (mid : Nat) (hs : Good s.mem.cells) :
    Good (State.startEdge s stk mid).mem.cells := by
  unfold State.startEdge
  repeat' (first | (simp [*]; done) | split)
@[simp] theorem execRootStart_keeps (stk : Nat) (hdr : Line) (data : List Line) (st : State) (hst : Good st.mem.cells) :
    OutGood (execRootStart stk hdr data st) := by
  unfold execRootStart
  simp (maxDischargeDepth := 99) +contextual [*]
@[simp] theorem execRootStop_keeps (stk : Nat) (hdr : Line) (data : List Line) (st : State) (hst : Good st.mem.cells) :
    OutGood (execRootStop stk hdr data st) := by
  unfold execRootStop
  refine State_rootReq_keeps _ _ _ _ _ _ _ hst fun s h => State_respond_keeps _ _ _ _ _ ?_
  refine good_ite h ?_
  split
  · split <;> simp [h]
  · exact h
@[simp] theorem execRootStatus_keeps (stk : Nat) (hdr : Line) (data : List Line) (st : State) (hst : Good st.mem.cells) :
    OutGood (execRootStatus stk hdr data st) := by
  unfold execRootStatus
  simp +contextual [*]
@[simp] theorem execStackAcct_keeps (stk : Nat) (hdr : Line) (data : List Line) (st : State) (hst : Good st.mem.cells) :
    OutGood (execStackAcct stk hdr data st) := by
  unfold execStackAcct
  simp (maxDischargeDepth := 99) +contextual [*]
@[simp] theorem execStackDisc_keeps (stk : Nat) (hdr : Line) (data : List Line) (st : State) (hst : Good st.mem.cells) :
    OutGood (execStackDisc stk hdr data st) := by
  unfold execStackDisc
  simp +contextual [*]
@[simp] theorem execStackErrpoll_keeps (stk : Nat) (hdr : Line) (data : List Line) (st : State) (hst : Good st.mem.cells) :
    OutGood (execStackErrpoll stk hdr data st) := by
  unfold execStackErrpoll
  simp (maxDischargeDepth := 99) +contextual [*]
@[simp] theorem execStackResponse_keeps (stk : Nat) (tag : Nat) (st : State) (hst : Good st.mem.cells) :
    OutGood (execStackResponse stk tag st) := by
  unfold execStackResponse
  repeat' (first | (simp [*]; done) | split)

end Sys2Proof.Laws
end

