-- ==== Sys2Proof/Laws/KeepAgenda.lean ====
section
/-! SUPPORT. Every operation of Machine/Agenda.lean keeps the memory canonical. -/
namespace Sys2Proof.Laws
open Sys2Proof.Machine

@[simp] theorem State_tickDie_keeps (s : State) (die : Nat) (n : Nat) (hs : Good s.mem.cells) :
    Good (State.tickDie s die n).mem.cells := by
  unfold State.tickDie
  simp [*]
@[simp] theorem State_tickQ_keeps (s : State) (n : Nat) (hs : Good s.mem.cells) :
    Good (State.tickQ s n).mem.cells := by
  unfold State.tickQ
  simp [*]
@[simp] theorem State_tick_keeps (s : State) (die : Nat) (n : Nat) (hs : Good s.mem.cells) :
    Good (State.tick s die n).mem.cells := by
  unfold State.tick
  simp (maxDischargeDepth := 99) +contextual [*]
@[simp] theorem State_tickIssue_keeps (s : State) (die : Nat) (hs : Good s.mem.cells) :
    Good (State.tickIssue s die).mem.cells := by
  unfold State.tickIssue
  simp [*]
@[simp] theorem State_evictLine_keeps (s : State) (core : Nat) (pa : Nat) (hs : Good s.mem.cells) :
    Good (State.evictLine s core pa).mem.cells := by
  unfold State.evictLine
  simp [*]
@[simp] theorem State_forgetTlb_keeps (s : State) (die : Nat) (ctx : Nat) (va : Nat) (hs : Good s.mem.cells) :
    Good (State.forgetTlb s die ctx va).mem.cells := by
  unfold State.forgetTlb
  simp [*]
@[simp] theorem issueAct_keeps (ex : Meaning) (lane : Nat) (s : State) (hex : ∀ i s, Good s.mem.cells → OutGood (ex i s)) (hs : Good s.mem.cells) :
    OutGood (issueAct ex lane s) := by
  unfold issueAct
  repeat' (first | (simp (maxDischargeDepth := 99) +contextual [*]; done) | (rename_i e; replace e := next_good e (by clear e; simp (maxDischargeDepth := 99) +contextual [*])) | (dsimp only) | split)
@[simp] theorem doAct_keeps (ex : Meaning) (a : Act) (s : State) (hex : ∀ i s, Good s.mem.cells → OutGood (ex i s)) (hs : Good s.mem.cells) :
    OutGood (doAct ex a s) := by
  unfold doAct
  repeat' (first | (simp [*]; done) | (with_reducible intro _) | (with_reducible refine issueAct_keeps _ _ _ ?_ ?_) | split)
@[simp] theorem arrivalDue_keeps (a : Arrival) :
    ∀ s, Good s.mem.cells → OutGood (arrivalDue a s) := by
  unfold arrivalDue
  repeat' (first | (simp [*]; done) | (with_reducible intro _) | split)
/-- An event keeps the memory canonical. -/
def DueGood (d : Due) : Prop := ∀ s, Good s.mem.cells → OutGood (d s)
/-- Every event of a list does. -/
def AllGood (l : List Due) : Prop := ∀ d ∈ l, DueGood d
theorem allGood_nil : AllGood [] := fun d h => by cases h
theorem allGood_cons {d : Due} {l : List Due} (h : DueGood d) (hl : AllGood l) : AllGood (d :: l) :=
  fun e he => (List.mem_cons.1 he).elim (fun x => x ▸ h) (hl e)
theorem allGood_append {l m : List Due} (hl : AllGood l) (hm : AllGood m) : AllGood (l ++ m) :=
  fun d hd => (List.mem_append.1 hd).elim (hl d) (hm d)
theorem allGood_flatMap {α : Type} {f : α → List Due} (l : List α) (h : ∀ a, AllGood (f a)) : AllGood (l.flatMap f) :=
  fun d hd => by obtain ⟨a, -, ha⟩ := List.mem_flatMap.1 hd; exact h a d ha
theorem allGood_map {α : Type} {f : α → Due} (l : List α) (h : ∀ a, DueGood (f a)) : AllGood (l.map f) :=
  fun d hd => by obtain ⟨a, -, rfl⟩ := List.mem_map.1 hd; exact h a
theorem allGood_ite {c : Prop} [Decidable c] {l m : List Due} (hl : AllGood l) (hm : AllGood m) : AllGood (if c then l else m) := by
  split <;> assumption
theorem quadDue_good (a : Nat × Quad) : AllGood (quadDue a) := by
  unfold quadDue
  repeat' (first | exact allGood_nil | refine allGood_append ?_ ?_ | refine allGood_cons ?_ ?_ | refine allGood_ite ?_ ?_ | refine allGood_flatMap _ fun _ => ?_ | exact fun s h => by simp [h])
theorem arrDue_good (a : Nat × Arr) : AllGood (arrDue a) := by
  unfold arrDue
  repeat' (first | exact allGood_nil | refine allGood_cons ?_ ?_ | refine allGood_ite ?_ ?_ | exact fun s h => by simp [h])
theorem binDue_good (a : Nat × Core) : AllGood (binDue a) := by
  unfold binDue
  repeat' (first | exact allGood_nil | refine allGood_cons ?_ ?_ | refine allGood_ite ?_ ?_ | refine allGood_flatMap _ fun _ => ?_ | exact fun s h => by simp [h])
theorem launchDue_good (a : Nat × Launch) : AllGood (launchDue a) := by
  unfold launchDue
  repeat' (first | exact allGood_nil | refine allGood_append ?_ ?_ | refine allGood_cons ?_ ?_ | refine allGood_map _ fun _ => ?_ | exact fun s h => by simp [h])
theorem ctxDue_good (a : Nat × Ctx) : AllGood (ctxDue a) := by
  unfold ctxDue
  repeat' (first | refine allGood_append ?_ ?_ | refine allGood_map _ fun _ => ?_ | exact fun s h => by simp [h])
theorem thrDue_good (a : Nat × Thr) : AllGood (thrDue a) := by
  unfold thrDue
  repeat' (first | exact allGood_nil | refine allGood_append ?_ ?_ | refine allGood_cons ?_ ?_ | refine allGood_ite ?_ ?_ | exact fun s h => by simp [h])
theorem resDue_good (a : Nat × Res) : AllGood (resDue a) := by
  unfold resDue
  repeat' (first | exact allGood_nil | refine allGood_cons ?_ ?_ | refine allGood_ite ?_ ?_ | exact fun s h => by simp [h])
theorem dueEvs_good (s : State) : AllGood s.dueEvs := by
  unfold State.dueEvs
  repeat' (first | exact allGood_nil | refine allGood_append ?_ ?_ | refine allGood_cons ?_ ?_ | refine allGood_ite ?_ ?_ | refine allGood_flatMap _ fun _ => ?_ | refine allGood_map _ fun _ => ?_ | exact fun s h => by simp [h])
theorem firstEv_good (s : State) {d : Due} (e : s.firstEv = some d) : DueGood d :=
  dueEvs_good s d (List.mem_of_find?_eq_some e)
@[simp] theorem State_defaultAct_keeps (ex : Meaning) (s : State) (hex : ∀ i s, Good s.mem.cells → OutGood (ex i s)) :
    DueGood (State.defaultAct ex s) := by
  unfold State.defaultAct
  split
  · exact fun s hs => by simp [hs]
  split
  · exact fun s hs => arrivalDue_keeps _ s hs
  split
  · exact firstEv_good s ‹_›
  split
  · exact fun s hs => issueAct_keeps ex _ s hex hs
  · exact fun s hs => by simp [hs]
@[simp] theorem polled_keeps (o : Out) (ho : OutGood o) :
    OutGood (polled o) := by
  unfold polled
  split
  · exact State_pollAll_keeps _ ho
  · exact ho
@[simp] theorem stepWith_keeps (ex : Meaning) (s : State) (hex : ∀ i s, Good s.mem.cells → OutGood (ex i s)) (hs : Good s.mem.cells) :
    OutGood (stepWith ex s) := by
  unfold stepWith
  split
  · split
    · exact polled_keeps _ (doAct_keeps ex _ _ hex hs)
    · exact polled_keeps _ (State_defaultAct_keeps ex s hex s hs)
  · split
    · exact hex _ _ hs
    · trivial
@[simp] theorem State_load_keeps (s : State) (ws : List Word) (hs : Good s.mem.cells) :
    Good (State.load s ws).mem.cells := by
  unfold State.load
  simp [*]
@[simp] theorem State_putWord_keeps (s : State) (w : Nat) (hs : Good s.mem.cells) :
    Good (State.putWord s w).mem.cells := by
  unfold State.putWord
  repeat' (first | (simp [*]; done) | split)

end Sys2Proof.Laws
end

