-- ==== Sys2Proof/Laws/KeepCvt.lean ====
section
/-! SUPPORT. Every operation of Machine/Cvt.lean keeps the memory canonical. -/
namespace Sys2Proof.Laws
open Sys2Proof.Machine

@[simp] theorem tySrc_keeps (t : NumTy) (a : Src) :
    Keeps (tySrc t a : X Nat) := by
  unfold tySrc
  repeat' (first | (simp [*]; done) | (with_reducible refine keeps_bind ?_ ?_) | split)
@[simp] theorem execCvt_keeps (hd : Hd) (a : Src) (f : NumTy) (t : NumTy) (r : RM) (st : State) (hst : Good st.mem.cells) :
    OutGood (execCvt hd a f t r st) := by
  unfold execCvt
  repeat' (first | (simp [*]; done) | (with_reducible refine keeps_bind ?_ ?_) | (with_reducible intro _) | (with_reducible refine runWord_keeps _ _ _ _ ?_ ?_))
@[simp] theorem cvtn_keeps (t : NumTy) (a : Src) (b : Src) :
    Keeps (cvtn t a b : X Unit) := by
  unfold cvtn
  repeat' (first | (simp [*]; done) | (with_reducible refine keeps_bind ?_ ?_) | (with_reducible intro _) | split)
@[simp] theorem execCvtnI32_keeps (hd : Hd) (a : Src) (b : Src) (st : State) (hst : Good st.mem.cells) :
    OutGood (execCvtnI32 hd a b st) := by
  unfold execCvtnI32
  simp [*]
@[simp] theorem execCvtnN32_keeps (hd : Hd) (a : Src) (b : Src) (st : State) (hst : Good st.mem.cells) :
    OutGood (execCvtnN32 hd a b st) := by
  unfold execCvtnN32
  simp [*]
@[simp] theorem execCvtnF32_keeps (hd : Hd) (a : Src) (b : Src) (st : State) (hst : Good st.mem.cells) :
    OutGood (execCvtnF32 hd a b st) := by
  unfold execCvtnF32
  simp [*]
@[simp] theorem execCvtnF64_keeps (hd : Hd) (a : Src) (b : Src) (st : State) (hst : Good st.mem.cells) :
    OutGood (execCvtnF64 hd a b st) := by
  unfold execCvtnF64
  simp [*]
@[simp] theorem pk2_keeps (h : NumTy) (a : Src) (b : Src) (r : RM) :
    Keeps (pk2 h a b r : X Unit) := by
  unfold pk2
  repeat' (first | (simp [*]; done) | (with_reducible refine keeps_bind ?_ ?_) | (with_reducible intro _))
@[simp] theorem execPk2F16_keeps (hd : Hd) (a : Src) (b : Src) (r : RM) (st : State) (hst : Good st.mem.cells) :
    OutGood (execPk2F16 hd a b r st) := by
  unfold execPk2F16
  simp [*]
@[simp] theorem execPk2Bf16_keeps (hd : Hd) (a : Src) (b : Src) (r : RM) (st : State) (hst : Good st.mem.cells) :
    OutGood (execPk2Bf16 hd a b r st) := by
  unfold execPk2Bf16
  simp [*]

end Sys2Proof.Laws
end

