-- ==== Sys2Proof/Laws/KeepPort.lean ====
section
/-! SUPPORT. Every operation of Machine/Port.lean keeps the memory canonical. -/
namespace Sys2Proof.Laws
open Sys2Proof.Machine

@[simp] theorem State_send_keeps (s : State) (port : Nat) (bs : List Byte) (hs : Good s.mem.cells) :
    Good (State.send s port bs).mem.cells := by
  unfold State.send
  simp [*]
@[simp] theorem State_answer_keeps (s : State) (port : Nat) (kind : Nat) (args : List Nat) (content : List Byte) (hs : Good s.mem.cells) :
    Good (State.answer s port kind args content).mem.cells := by
  unfold State.answer
  simp [*]
@[simp] theorem execGetVersion_keeps (st : State) (hst : Good st.mem.cells) :
    OutGood (execGetVersion st) := by
  unfold execGetVersion
  simp [*]
@[simp] theorem execGetCapabilities_keeps (st : State) (hst : Good st.mem.cells) :
    OutGood (execGetCapabilities st) := by
  unfold execGetCapabilities
  simp [*]
@[simp] theorem execNegotiateAlgorithms_keeps (st : State) (hst : Good st.mem.cells) :
    OutGood (execNegotiateAlgorithms st) := by
  unfold execNegotiateAlgorithms
  simp [*]
@[simp] theorem execGetDigests_keeps (st : State) (hst : Good st.mem.cells) :
    OutGood (execGetDigests st) := by
  unfold execGetDigests
  simp [*]
@[simp] theorem execGetCertificate_keeps (off : Nat) (len : Nat) (st : State) (hst : Good st.mem.cells) :
    OutGood (execGetCertificate off len st) := by
  unfold execGetCertificate
  simp [*]
@[simp] theorem execChallenge_keeps (nonce : BitVec 256) (st : State) (hst : Good st.mem.cells) :
    OutGood (execChallenge nonce st) := by
  unfold execChallenge
  simp [*]
@[simp] theorem execGetMeasurements_keeps (r : MeasureReq) (st : State) (hst : Good st.mem.cells) :
    OutGood (execGetMeasurements r st) := by
  unfold execGetMeasurements
  repeat' (first | (simp (maxDischargeDepth := 99) +contextual [*]; done) | (rename_i e; replace e := ok_good e (by clear e; simp (maxDischargeDepth := 99) +contextual [*]) (by clear e; simp (maxDischargeDepth := 99) +contextual [*])) | (rename_i e; replace e := error_good e (by clear e; simp (maxDischargeDepth := 99) +contextual [*]) (by clear e; simp (maxDischargeDepth := 99) +contextual [*])) | (rename_i e; replace e := some_good e (by clear e; simp (maxDischargeDepth := 99) +contextual [*])) | (rename_i e; replace e := next_good e (by clear e; simp (maxDischargeDepth := 99) +contextual [*])) | (rename_i e; replace e := some_good1 e (by clear e; simp (maxDischargeDepth := 99) +contextual [*])) | (rename_i e; replace e := fst_good e (by clear e; simp (maxDischargeDepth := 99) +contextual [*])) | (rename_i e; replace e := snd_good e (by clear e; simp (maxDischargeDepth := 99) +contextual [*])) | (with_reducible refine keeps_get_bind ?_) | (with_reducible refine keeps_bind ?_ ?_) | (with_reducible intro _)  | (with_reducible refine forX_keeps _ _ ?_) | (with_reducible refine mapX_keeps _ _ ?_) | (with_reducible refine attempt_keeps _ _ ?_ ?_) | (with_reducible refine onCtl_keeps _ _ ?_ ?_) | (with_reducible refine applyX_keeps _ _ ?_ ?_) | (with_reducible refine runWord_keeps _ _ _ _ ?_ ?_) | (with_reducible refine onceVal_keeps _ ?_) | (with_reducible refine onceX_keeps _ ?_) | (with_reducible refine onceLate_keeps _ ?_) | (with_reducible refine runXgN_keeps _ _ _ _ _ ?_ ?_) | (with_reducible refine runXg_keeps _ _ _ _ ?_ ?_) | (with_reducible refine tryUnit_keeps _ _ ?_) | (with_reducible refine onUnit_keeps _ _ _ _ ?_) | (with_reducible refine holding_keeps _ _ ?_) | (with_reducible refine rayX_keeps _ _ ?_) | (with_reducible refine runK_keeps _ _ _ ?_ ?_) | (with_reducible refine after_keeps _ _ ?_ ?_) | (with_reducible refine issueItem_keeps _ _ _ _ _ ?_ ?_) | (with_reducible refine issueItems_keeps _ _ _ _ _ ?_ ?_) | (with_reducible refine issueLane_keeps _ _ _ ?_ ?_) | (with_reducible refine State_ctlWrite_keeps _ _ _ _ ?_ ?_) | (with_reducible refine State_ctxCmd_keeps _ _ _ _ ?_ ?_) | (with_reducible refine State_throughArena_keeps _ _ _ _ _ ?_ ?_) | (with_reducible refine State_stackReq_keeps _ _ _ _ _ _ ?_ ?_) | (with_reducible refine State_rootReq_keeps _ _ _ _ _ _ _ ?_ ?_) | (with_reducible refine issueAct_keeps _ _ _ ?_ ?_) | (with_reducible refine doAct_keeps _ _ _ ?_ ?_) | (with_reducible refine State_defaultAct_keeps _ _ ?_ ?_) | (with_reducible refine polled_keeps _ ?_) | (with_reducible refine stepWith_keeps _ _ ?_ ?_) | (with_reducible refine keeps_modify ?_) | (with_reducible refine keeps_set ?_) | (with_reducible refine State_modLane_keeps _ _ _ ?_) | (with_reducible refine State_modThr_keeps _ _ _ ?_) | (with_reducible refine State_modCore_keeps _ _ _ ?_) | (with_reducible refine State_modLaunch_keeps _ _ _ ?_) | (with_reducible refine State_modGrp_keeps _ _ _ ?_) | (with_reducible refine State_modQuad_keeps _ _ _ ?_) | (with_reducible refine State_modArr_keeps _ _ _ ?_) | (with_reducible refine State_modCtx_keeps _ _ _ ?_) | (with_reducible refine good_foldl ?_ _ ?_) | (dsimp only) | split | (with_reducible refine keeps_fun ?_))
@[simp] theorem execSpdmUnsupportedRequest_keeps (code : Nat) (st : State) (hst : Good st.mem.cells) :
    OutGood (execSpdmUnsupportedRequest code st) := by
  unfold execSpdmUnsupportedRequest
  simp [*]
@[simp] theorem State_chassis_keeps (s : State) (hs : Good s.mem.cells) :
    Good (State.chassis s).mem.cells := by
  unfold State.chassis
  repeat' (first | (simp (maxDischargeDepth := 99) +contextual [*]; done) | (rename_i e; replace e := ok_good e (by clear e; simp (maxDischargeDepth := 99) +contextual [*]) (by clear e; simp (maxDischargeDepth := 99) +contextual [*])) | (rename_i e; replace e := error_good e (by clear e; simp (maxDischargeDepth := 99) +contextual [*]) (by clear e; simp (maxDischargeDepth := 99) +contextual [*])) | (rename_i e; replace e := some_good e (by clear e; simp (maxDischargeDepth := 99) +contextual [*])) | (rename_i e; replace e := next_good e (by clear e; simp (maxDischargeDepth := 99) +contextual [*])) | (rename_i e; replace e := some_good1 e (by clear e; simp (maxDischargeDepth := 99) +contextual [*])) | (rename_i e; replace e := fst_good e (by clear e; simp (maxDischargeDepth := 99) +contextual [*])) | (rename_i e; replace e := snd_good e (by clear e; simp (maxDischargeDepth := 99) +contextual [*])) | (with_reducible refine keeps_get_bind ?_) | (with_reducible refine keeps_bind ?_ ?_) | (with_reducible intro _)  | (with_reducible refine forX_keeps _ _ ?_) | (with_reducible refine mapX_keeps _ _ ?_) | (with_reducible refine attempt_keeps _ _ ?_ ?_) | (with_reducible refine onCtl_keeps _ _ ?_ ?_) | (with_reducible refine applyX_keeps _ _ ?_ ?_) | (with_reducible refine runWord_keeps _ _ _ _ ?_ ?_) | (with_reducible refine onceVal_keeps _ ?_) | (with_reducible refine onceX_keeps _ ?_) | (with_reducible refine onceLate_keeps _ ?_) | (with_reducible refine runXgN_keeps _ _ _ _ _ ?_ ?_) | (with_reducible refine runXg_keeps _ _ _ _ ?_ ?_) | (with_reducible refine tryUnit_keeps _ _ ?_) | (with_reducible refine onUnit_keeps _ _ _ _ ?_) | (with_reducible refine holding_keeps _ _ ?_) | (with_reducible refine rayX_keeps _ _ ?_) | (with_reducible refine runK_keeps _ _ _ ?_ ?_) | (with_reducible refine after_keeps _ _ ?_ ?_) | (with_reducible refine issueItem_keeps _ _ _ _ _ ?_ ?_) | (with_reducible refine issueItems_keeps _ _ _ _ _ ?_ ?_) | (with_reducible refine issueLane_keeps _ _ _ ?_ ?_) | (with_reducible refine State_ctlWrite_keeps _ _ _ _ ?_ ?_) | (with_reducible refine State_ctxCmd_keeps _ _ _ _ ?_ ?_) | (with_reducible refine State_throughArena_keeps _ _ _ _ _ ?_ ?_) | (with_reducible refine State_stackReq_keeps _ _ _ _ _ _ ?_ ?_) | (with_reducible refine State_rootReq_keeps _ _ _ _ _ _ _ ?_ ?_) | (with_reducible refine issueAct_keeps _ _ _ ?_ ?_) | (with_reducible refine doAct_keeps _ _ _ ?_ ?_) | (with_reducible refine State_defaultAct_keeps _ _ ?_ ?_) | (with_reducible refine polled_keeps _ ?_) | (with_reducible refine stepWith_keeps _ _ ?_ ?_) | (with_reducible refine keeps_modify ?_) | (with_reducible refine keeps_set ?_) | (with_reducible refine State_modLane_keeps _ _ _ ?_) | (with_reducible refine State_modThr_keeps _ _ _ ?_) | (with_reducible refine State_modCore_keeps _ _ _ ?_) | (with_reducible refine State_modLaunch_keeps _ _ _ ?_) | (with_reducible refine State_modGrp_keeps _ _ _ ?_) | (with_reducible refine State_modQuad_keeps _ _ _ ?_) | (with_reducible refine State_modArr_keeps _ _ _ ?_) | (with_reducible refine State_modCtx_keeps _ _ _ ?_) | (with_reducible refine good_foldl ?_ _ ?_) | (dsimp only) | split | (with_reducible refine keeps_fun ?_))
@[simp] theorem execRedfishRequest_keeps (res : Nat) (index : Nat) (st : State) (hst : Good st.mem.cells) :
    OutGood (execRedfishRequest res index st) := by
  unfold execRedfishRequest
  repeat' (first | (simp (maxDischargeDepth := 99) +contextual [*]; done) | (rename_i e; replace e := ok_good e (by clear e; simp (maxDischargeDepth := 99) +contextual [*]) (by clear e; simp (maxDischargeDepth := 99) +contextual [*])) | (rename_i e; replace e := error_good e (by clear e; simp (maxDischargeDepth := 99) +contextual [*]) (by clear e; simp (maxDischargeDepth := 99) +contextual [*])) | (rename_i e; replace e := some_good e (by clear e; simp (maxDischargeDepth := 99) +contextual [*])) | (rename_i e; replace e := next_good e (by clear e; simp (maxDischargeDepth := 99) +contextual [*])) | (rename_i e; replace e := some_good1 e (by clear e; simp (maxDischargeDepth := 99) +contextual [*])) | (rename_i e; replace e := fst_good e (by clear e; simp (maxDischargeDepth := 99) +contextual [*])) | (rename_i e; replace e := snd_good e (by clear e; simp (maxDischargeDepth := 99) +contextual [*])) | (with_reducible refine keeps_get_bind ?_) | (with_reducible refine keeps_bind ?_ ?_) | (with_reducible intro _)  | (with_reducible refine forX_keeps _ _ ?_) | (with_reducible refine mapX_keeps _ _ ?_) | (with_reducible refine attempt_keeps _ _ ?_ ?_) | (with_reducible refine onCtl_keeps _ _ ?_ ?_) | (with_reducible refine applyX_keeps _ _ ?_ ?_) | (with_reducible refine runWord_keeps _ _ _ _ ?_ ?_) | (with_reducible refine onceVal_keeps _ ?_) | (with_reducible refine onceX_keeps _ ?_) | (with_reducible refine onceLate_keeps _ ?_) | (with_reducible refine runXgN_keeps _ _ _ _ _ ?_ ?_) | (with_reducible refine runXg_keeps _ _ _ _ ?_ ?_) | (with_reducible refine tryUnit_keeps _ _ ?_) | (with_reducible refine onUnit_keeps _ _ _ _ ?_) | (with_reducible refine holding_keeps _ _ ?_) | (with_reducible refine rayX_keeps _ _ ?_) | (with_reducible refine runK_keeps _ _ _ ?_ ?_) | (with_reducible refine after_keeps _ _ ?_ ?_) | (with_reducible refine issueItem_keeps _ _ _ _ _ ?_ ?_) | (with_reducible refine issueItems_keeps _ _ _ _ _ ?_ ?_) | (with_reducible refine issueLane_keeps _ _ _ ?_ ?_) | (with_reducible refine State_ctlWrite_keeps _ _ _ _ ?_ ?_) | (with_reducible refine State_ctxCmd_keeps _ _ _ _ ?_ ?_) | (with_reducible refine State_throughArena_keeps _ _ _ _ _ ?_ ?_) | (with_reducible refine State_stackReq_keeps _ _ _ _ _ _ ?_ ?_) | (with_reducible refine State_rootReq_keeps _ _ _ _ _ _ _ ?_ ?_) | (with_reducible refine issueAct_keeps _ _ _ ?_ ?_) | (with_reducible refine doAct_keeps _ _ _ ?_ ?_) | (with_reducible refine State_defaultAct_keeps _ _ ?_ ?_) | (with_reducible refine polled_keeps _ ?_) | (with_reducible refine stepWith_keeps _ _ ?_ ?_) | (with_reducible refine keeps_modify ?_) | (with_reducible refine keeps_set ?_) | (with_reducible refine State_modLane_keeps _ _ _ ?_) | (with_reducible refine State_modThr_keeps _ _ _ ?_) | (with_reducible refine State_modCore_keeps _ _ _ ?_) | (with_reducible refine State_modLaunch_keeps _ _ _ ?_) | (with_reducible refine State_modGrp_keeps _ _ _ ?_) | (with_reducible refine State_modQuad_keeps _ _ _ ?_) | (with_reducible refine State_modArr_keeps _ _ _ ?_) | (with_reducible refine State_modCtx_keeps _ _ _ ?_) | (with_reducible refine good_foldl ?_ _ ?_) | (dsimp only) | split | (with_reducible refine keeps_fun ?_))
@[simp] theorem execUpdateserviceImageWrite_keeps (rec : List Byte) (st : State) (hst : Good st.mem.cells) :
    OutGood (execUpdateserviceImageWrite rec st) := by
  unfold execUpdateserviceImageWrite
  simp [*]
@[simp] theorem execBootStatusFrame_keeps (st : State) (hst : Good st.mem.cells) :
    OutGood (execBootStatusFrame st) := by
  unfold execBootStatusFrame
  simp [*]
@[simp] theorem execPcieInboundRequest_keeps (port : Nat) (wr : Bool) (pa : Nat) (len : Nat) (data : List Byte) (st : State) (hst : Good st.mem.cells) :
    OutGood (execPcieInboundRequest port wr pa len data st) := by
  unfold execPcieInboundRequest
  repeat' (first | (simp [*]; done) | (rename_i e; replace e := fst_good e (by clear e; simp [*])) | (dsimp only) | split)

end Sys2Proof.Laws
end

