-- ==== Sys2Proof/Laws/KeepSfu.lean ====
section
/-! SUPPORT. Every operation of Machine/Sfu.lean keeps the memory canonical. -/
namespace Sys2Proof.Laws
open Sys2Proof.Machine

@[simp] theorem sfu32_keeps (a : Src) (f : Nat → Nat × Word) :
    Keeps (sfu32 a f : X Unit) := by
  unfold sfu32
  repeat' (first | (simp [*]; done) | (with_reducible refine keeps_bind ?_ ?_) | (with_reducible intro _))
@[simp] theorem sfu64_keeps (a : Src) (f : Nat → Nat × Word) :
    Keeps (sfu64 a f : X Unit) := by
  unfold sfu64
  repeat' (first | (simp [*]; done) | (with_reducible refine keeps_bind ?_ ?_) | (with_reducible intro _))
@[simp] theorem execRcp_keeps (hd : Hd) (a : Src) (st : State) (hst : Good st.mem.cells) :
    OutGood (execRcp hd a st) := by
  unfold execRcp
  simp [*]
@[simp] theorem execRsq_keeps (hd : Hd) (a : Src) (st : State) (hst : Good st.mem.cells) :
    OutGood (execRsq hd a st) := by
  unfold execRsq
  simp [*]
@[simp] theorem execSqrt_keeps (hd : Hd) (a : Src) (r : RM) (st : State) (hst : Good st.mem.cells) :
    OutGood (execSqrt hd a r st) := by
  unfold execSqrt
  repeat' (first | (simp [*]; done) | (with_reducible refine keeps_bind ?_ ?_) | (with_reducible intro _) | (with_reducible refine runWord_keeps _ _ _ _ ?_ ?_))
@[simp] theorem execEx2_keeps (hd : Hd) (a : Src) (st : State) (hst : Good st.mem.cells) :
    OutGood (execEx2 hd a st) := by
  unfold execEx2
  simp [*]
@[simp] theorem execLg2_keeps (hd : Hd) (a : Src) (st : State) (hst : Good st.mem.cells) :
    OutGood (execLg2 hd a st) := by
  unfold execLg2
  simp [*]
@[simp] theorem execSinpi_keeps (hd : Hd) (a : Src) (st : State) (hst : Good st.mem.cells) :
    OutGood (execSinpi hd a st) := by
  unfold execSinpi
  simp [*]
@[simp] theorem execCospi_keeps (hd : Hd) (a : Src) (st : State) (hst : Good st.mem.cells) :
    OutGood (execCospi hd a st) := by
  unfold execCospi
  simp [*]
@[simp] theorem execTanh_keeps (hd : Hd) (a : Src) (st : State) (hst : Good st.mem.cells) :
    OutGood (execTanh hd a st) := by
  unfold execTanh
  simp [*]
@[simp] theorem execDrcp_keeps (hd : Hd) (a : Src) (st : State) (hst : Good st.mem.cells) :
    OutGood (execDrcp hd a st) := by
  unfold execDrcp
  simp [*]
@[simp] theorem execDrsq_keeps (hd : Hd) (a : Src) (st : State) (hst : Good st.mem.cells) :
    OutGood (execDrsq hd a st) := by
  unfold execDrsq
  simp [*]

end Sys2Proof.Laws
end

