-- ==== Sys2Proof/Laws/KeepUniform.lean ====
section
/-! SUPPORT. Every operation of Machine/Uniform.lean keeps the memory canonical. -/
namespace Sys2Proof.Laws
open Sys2Proof.Machine

@[simp] theorem putUni_keeps (e : Nat) (v : Word) :
    Keeps (putUni e v : X (List QEnt)) := by
  unfold putUni
  repeat' (first | (simp +contextual [*]; done) | (with_reducible refine keeps_bind ?_ ?_))
@[simp] theorem uni2_keeps (a : Src) (b : Src) (e : Nat) (f : Nat → Nat → Nat) :
    Keeps (uni2 a b e f : X Unit) := by
  unfold uni2
  repeat' (first | (simp [*]; done) | (with_reducible refine keeps_bind ?_ ?_) | (with_reducible intro _) | (with_reducible refine onceX_keeps _ ?_))
@[simp] theorem execUmov_keeps (hd : Hd) (a : Src) (e : Fin 64) (st : State) (hst : Good st.mem.cells) :
    OutGood (execUmov hd a e st) := by
  unfold execUmov
  repeat' (first | (simp [*]; done) | (with_reducible refine keeps_bind ?_ ?_) | (with_reducible refine runWord_keeps _ _ _ _ ?_ ?_) | (with_reducible refine onceX_keeps _ ?_))
@[simp] theorem execUadd_keeps (hd : Hd) (a : Src) (b : Src) (e : Fin 64) (st : State) (hst : Good st.mem.cells) :
    OutGood (execUadd hd a b e st) := by
  unfold execUadd
  simp [*]
@[simp] theorem execUsub_keeps (hd : Hd) (a : Src) (b : Src) (e : Fin 64) (st : State) (hst : Good st.mem.cells) :
    OutGood (execUsub hd a b e st) := by
  unfold execUsub
  simp [*]
@[simp] theorem execUmul_keeps (hd : Hd) (a : Src) (b : Src) (e : Fin 64) (st : State) (hst : Good st.mem.cells) :
    OutGood (execUmul hd a b e st) := by
  unfold execUmul
  simp [*]
@[simp] theorem execUand_keeps (hd : Hd) (a : Src) (b : Src) (e : Fin 64) (st : State) (hst : Good st.mem.cells) :
    OutGood (execUand hd a b e st) := by
  unfold execUand
  simp [*]
@[simp] theorem execUor_keeps (hd : Hd) (a : Src) (b : Src) (e : Fin 64) (st : State) (hst : Good st.mem.cells) :
    OutGood (execUor hd a b e st) := by
  unfold execUor
  simp [*]
@[simp] theorem execUxor_keeps (hd : Hd) (a : Src) (b : Src) (e : Fin 64) (st : State) (hst : Good st.mem.cells) :
    OutGood (execUxor hd a b e st) := by
  unfold execUxor
  simp [*]
@[simp] theorem execUshl_keeps (hd : Hd) (a : Src) (b : Src) (e : Fin 64) (st : State) (hst : Good st.mem.cells) :
    OutGood (execUshl hd a b e st) := by
  unfold execUshl
  simp [*]
@[simp] theorem execUshr_keeps (hd : Hd) (a : Src) (b : Src) (e : Fin 64) (st : State) (hst : Good st.mem.cells) :
    OutGood (execUshr hd a b e st) := by
  unfold execUshr
  simp [*]
@[simp] theorem execUcmp_keeps (hd : Hd) (a : Src) (b : Src) (e : Fin 64) (st : State) (hst : Good st.mem.cells) :
    OutGood (execUcmp hd a b e st) := by
  unfold execUcmp
  simp [*]
@[simp] theorem execUsel_keeps (hd : Hd) (a : Src) (b : Src) (e : Fin 64) (st : State) (hst : Good st.mem.cells) :
    OutGood (execUsel hd a b e st) := by
  unfold execUsel
  repeat' (first | (simp [*]; done) | (with_reducible refine keeps_bind ?_ ?_) | (with_reducible intro _) | (with_reducible refine runWord_keeps _ _ _ _ ?_ ?_) | (with_reducible refine onceX_keeps _ ?_))
@[simp] theorem execUwin_keeps (hd : Hd) (a : Src) (st : State) (hst : Good st.mem.cells) :
    OutGood (execUwin hd a st) := by
  unfold execUwin
  repeat' (first | (simp [*]; done) | (with_reducible refine keeps_bind ?_ ?_) | (with_reducible intro _) | (with_reducible refine runWord_keeps _ _ _ _ ?_ ?_) | (with_reducible refine onceX_keeps _ ?_) | (with_reducible refine keeps_modify ?_) | split)
@[simp] theorem uldAt_keeps (a : Src) (n : Nat) :
    Keeps (uldAt a n : X Nat) := by
  unfold uldAt
  repeat' (first | (simp [*]; done) | (with_reducible refine keeps_bind ?_ ?_) | (with_reducible intro _))
@[simp] theorem execUld_keeps (hd : Hd) (a : Src) (e : Fin 64) (st : State) (hst : Good st.mem.cells) :
    OutGood (execUld hd a e st) := by
  unfold execUld
  repeat' (first | (simp [*]; done) | (with_reducible refine keeps_bind ?_ ?_) | (with_reducible refine runWord_keeps _ _ _ _ ?_ ?_) | (with_reducible refine onceX_keeps _ ?_))
@[simp] theorem execUld64_keeps (hd : Hd) (a : Src) (e : Fin 64) (st : State) (hst : Good st.mem.cells) :
    OutGood (execUld64 hd a e st) := by
  unfold execUld64
  repeat' (first | (simp [*]; done) | (with_reducible refine keeps_bind ?_ ?_) | (with_reducible intro _) | (with_reducible refine runWord_keeps _ _ _ _ ?_ ?_) | (with_reducible refine onceX_keeps _ ?_))

end Sys2Proof.Laws
end

