-- ==== Sys2Proof/Laws/KeepOnion.lean ====
section
/-! SUPPORT. Every operation of Machine/Onion.lean keeps the memory canonical. -/
namespace Sys2Proof.Laws
open Sys2Proof.Machine



end Sys2Proof.Laws
end

