-- ==== Sys2Proof/Laws/PerInstr.lean ====
section
/-! SUPPORT. The family RoundTrip: the word the encoder gives a well-formed instruction decodes to that instruction. One lemma
per constructor; an event has no word. -/
namespace Sys2Proof.Laws.RoundTrip

/-- Decoding of encoding is the identity (R316 to R327). -/
def Statement (i : Instr) : Prop := i.isWord = true → i.wf = true → decodeNat (encodeNat i) = .ok i

theorem add (hd : Hd) (a : Src) (b : Src) (w : Bool) (s : Bool) (u : Bool) : Statement (.add hd a b w s u) := by
  intro _ h
  obtain ⟨N, eq⟩ : ∃ N, N = encodeNat (.add hd a b w s u) := ⟨_, rfl⟩
  rw [← eq]
  replace eq : N = 0x2000000 + hd.enc + a.enc * 32768 + b.enc * 512 + b2n w * 4 + b2n s * 2 + b2n u := eq
  have la := src_lt a; have lb := src_lt b; have lw := b2n_lt w; have ls := b2n_lt s; have lu := b2n_lt u
  obtain ⟨f0, hh, mm⟩ := top (n := N) (op := 1) hd (r := a.enc * 32768 + b.enc * 512 + b2n w * 4 + b2n s * 2 + b2n u) (by omega) (by omega) (by omega)
  obtain ⟨f1, mm⟩ := cut (K := 32768) 20 15 (a.enc) (b.enc * 512 + b2n w * 4 + b2n s * 2 + b2n u) mm (by norm_num) (by norm_num) (by omega) (by omega) (by omega)
  obtain ⟨f2, mm⟩ := cut (K := 512) 14 9 (b.enc) (b2n w * 4 + b2n s * 2 + b2n u) mm (by norm_num) (by norm_num) (by omega) (by omega) (by omega)
  obtain ⟨f3, mm⟩ := cut (K := 8) 8 3 (0) (b2n w * 4 + b2n s * 2 + b2n u) mm (by norm_num) (by norm_num) (by omega) (by omega) (by omega)
  obtain ⟨f4, mm⟩ := cut (K := 4) 2 2 (b2n w) (b2n s * 2 + b2n u) mm (by norm_num) (by norm_num) (by omega) (by omega) (by omega)
  obtain ⟨f5, mm⟩ := cut (K := 2) 1 1 (b2n s) (b2n u) mm (by norm_num) (by norm_num) (by omega) (by omega) (by omega)
  obtain ⟨f6, mm⟩ := cut (K := 1) 0 0 (b2n u) (0) mm (by norm_num) (by norm_num) (by omega) (by omega) (by omega)
  rw [decInt2_of f0, decInt2, f3]
  simp [hh, f1, f2, bit_of f4, bit_of f5, bit_of f6, src_dec_enc, mk_of h]
theorem sub (hd : Hd) (a : Src) (b : Src) (w : Bool) (s : Bool) (u : Bool) : Statement (.sub hd a b w s u) := by
  intro _ h
  obtain ⟨N, eq⟩ : ∃ N, N = encodeNat (.sub hd a b w s u) := ⟨_, rfl⟩
  rw [← eq]
  replace eq : N = 0x2000008 + hd.enc + a.enc * 32768 + b.enc * 512 + b2n w * 4 + b2n s * 2 + b2n u := eq
  have la := src_lt a; have lb := src_lt b; have lw := b2n_lt w; have ls := b2n_lt s; have lu := b2n_lt u
  obtain ⟨f0, hh, mm⟩ := top (n := N) (op := 1) hd (r := a.enc * 32768 + b.enc * 512 + b2n w * 4 + b2n s * 2 + b2n u + 8) (by omega) (by omega) (by omega)
  obtain ⟨f1, mm⟩ := cut (K := 32768) 20 15 (a.enc) (b.enc * 512 + b2n w * 4 + b2n s * 2 + b2n u + 8) mm (by norm_num) (by norm_num) (by omega) (by omega) (by omega)
  obtain ⟨f2, mm⟩ := cut (K := 512) 14 9 (b.enc) (b2n w * 4 + b2n s * 2 + b2n u + 8) mm (by norm_num) (by norm_num) (by omega) (by omega) (by omega)
  obtain ⟨f3, mm⟩ := cut (K := 8) 8 3 (1) (b2n w * 4 + b2n s * 2 + b2n u) mm (by norm_num) (by norm_num) (by omega) (by omega) (by omega)
  obtain ⟨f4, mm⟩ := cut (K := 4) 2 2 (b2n w) (b2n s * 2 + b2n u) mm (by norm_num) (by norm_num) (by omega) (by omega) (by omega)
  obtain ⟨f5, mm⟩ := cut (K := 2) 1 1 (b2n s) (b2n u) mm (by norm_num) (by norm_num) (by omega) (by omega) (by omega)
  obtain ⟨f6, mm⟩ := cut (K := 1) 0 0 (b2n u) (0) mm (by norm_num) (by norm_num) (by omega) (by omega) (by omega)
  rw [decInt2_of f0, decInt2, f3]
  simp [hh, f1, f2, bit_of f4, bit_of f5, bit_of f6, src_dec_enc, mk_of h]
theorem mul (hd : Hd) (a : Src) (b : Src) (w : Bool) (v : Bool) (u : Bool) : Statement (.mul hd a b w v u) := by
  intro _ h
  obtain ⟨N, eq⟩ : ∃ N, N = encodeNat (.mul hd a b w v u) := ⟨_, rfl⟩
  rw [← eq]
  replace eq : N = 0x2000010 + hd.enc + a.enc * 32768 + b.enc * 512 + b2n w * 4 + b2n v * 2 + b2n u := eq
  have la := src_lt a; have lb := src_lt b; have lw := b2n_lt w; have lv := b2n_lt v; have lu := b2n_lt u
  obtain ⟨f0, hh, mm⟩ := top (n := N) (op := 1) hd (r := a.enc * 32768 + b.enc * 512 + b2n w * 4 + b2n v * 2 + b2n u + 16) (by omega) (by omega) (by omega)
  obtain ⟨f1, mm⟩ := cut (K := 32768) 20 15 (a.enc) (b.enc * 512 + b2n w * 4 + b2n v * 2 + b2n u + 16) mm (by norm_num) (by norm_num) (by omega) (by omega) (by omega)
  obtain ⟨f2, mm⟩ := cut (K := 512) 14 9 (b.enc) (b2n w * 4 + b2n v * 2 + b2n u + 16) mm (by norm_num) (by norm_num) (by omega) (by omega) (by omega)
  obtain ⟨f3, mm⟩ := cut (K := 8) 8 3 (2) (b2n w * 4 + b2n v * 2 + b2n u) mm (by norm_num) (by norm_num) (by omega) (by omega) (by omega)
  obtain ⟨f4, mm⟩ := cut (K := 4) 2 2 (b2n w) (b2n v * 2 + b2n u) mm (by norm_num) (by norm_num) (by omega) (by omega) (by omega)
  obtain ⟨f5, mm⟩ := cut (K := 2) 1 1 (b2n v) (b2n u) mm (by norm_num) (by norm_num) (by omega) (by omega) (by omega)
  obtain ⟨f6, mm⟩ := cut (K := 1) 0 0 (b2n u) (0) mm (by norm_num) (by norm_num) (by omega) (by omega) (by omega)
  rw [decInt2_of f0, decInt2, f3]
  simp [hh, f1, f2, bit_of f4, bit_of f5, bit_of f6, src_dec_enc, mk_of h]
theorem mulh (hd : Hd) (a : Src) (b : Src) (w : Bool) (u : Bool) : Statement (.mulh hd a b w u) := by
  intro _ h
  obtain ⟨N, eq⟩ : ∃ N, N = encodeNat (.mulh hd a b w u) := ⟨_, rfl⟩
  rw [← eq]
  replace eq : N = 0x2000018 + hd.enc + a.enc * 32768 + b.enc * 512 + b2n w * 4 + b2n u := eq
  have la := src_lt a; have lb := src_lt b; have lw := b2n_lt w; have lu := b2n_lt u
  obtain ⟨f0, hh, mm⟩ := top (n := N) (op := 1) hd (r := a.enc * 32768 + b.enc * 512 + b2n w * 4 + b2n u + 24) (by omega) (by omega) (by omega)
  obtain ⟨f1, mm⟩ := cut (K := 32768) 20 15 (a.enc) (b.enc * 512 + b2n w * 4 + b2n u + 24) mm (by norm_num) (by norm_num) (by omega) (by omega) (by omega)
  obtain ⟨f2, mm⟩ := cut (K := 512) 14 9 (b.enc) (b2n w * 4 + b2n u + 24) mm (by norm_num) (by norm_num) (by omega) (by omega) (by omega)
  obtain ⟨f3, mm⟩ := cut (K := 8) 8 3 (3) (b2n w * 4 + b2n u) mm (by norm_num) (by norm_num) (by omega) (by omega) (by omega)
  obtain ⟨f4, mm⟩ := cut (K := 4) 2 2 (b2n w) (b2n u) mm (by norm_num) (by norm_num) (by omega) (by omega) (by omega)
  obtain ⟨f5, mm⟩ := cut (K := 2) 1 1 (0) (b2n u) mm (by norm_num) (by norm_num) (by omega) (by omega) (by omega)
  obtain ⟨f6, mm⟩ := cut (K := 1) 0 0 (b2n u) (0) mm (by norm_num) (by norm_num) (by omega) (by omega) (by omega)
  rw [decInt2_of f0, decInt2, f3]
  simp [hh, f1, f2, bit_of f4, f5, bit_of f6, src_dec_enc, need, mk_of h]
theorem div (hd : Hd) (a : Src) (b : Src) (w : Bool) (u : Bool) : Statement (.div hd a b w u) := by
  intro _ h
  obtain ⟨N, eq⟩ : ∃ N, N = encodeNat (.div hd a b w u) := ⟨_, rfl⟩
  rw [← eq]
  replace eq : N = 0x2000020 + hd.enc + a.enc * 32768 + b.enc * 512 + b2n w * 4 + b2n u := eq
  have la := src_lt a; have lb := src_lt b; have lw := b2n_lt w; have lu := b2n_lt u
  obtain ⟨f0, hh, mm⟩ := top (n := N) (op := 1) hd (r := a.enc * 32768 + b.enc * 512 + b2n w * 4 + b2n u + 32) (by omega) (by omega) (by omega)
  obtain ⟨f1, mm⟩ := cut (K := 32768) 20 15 (a.enc) (b.enc * 512 + b2n w * 4 + b2n u + 32) mm (by norm_num) (by norm_num) (by omega) (by omega) (by omega)
  obtain ⟨f2, mm⟩ := cut (K := 512) 14 9 (b.enc) (b2n w * 4 + b2n u + 32) mm (by norm_num) (by norm_num) (by omega) (by omega) (by omega)
  obtain ⟨f3, mm⟩ := cut (K := 8) 8 3 (4) (b2n w * 4 + b2n u) mm (by norm_num) (by norm_num) (by omega) (by omega) (by omega)
  obtain ⟨f4, mm⟩ := cut (K := 4) 2 2 (b2n w) (b2n u) mm (by norm_num) (by norm_num) (by omega) (by omega) (by omega)
  obtain ⟨f5, mm⟩ := cut (K := 2) 1 1 (0) (b2n u) mm (by norm_num) (by norm_num) (by omega) (by omega) (by omega)
  obtain ⟨f6, mm⟩ := cut (K := 1) 0 0 (b2n u) (0) mm (by norm_num) (by norm_num) (by omega) (by omega) (by omega)
  rw [decInt2_of f0, decInt2, f3]
  simp [hh, f1, f2, bit_of f4, f5, bit_of f6, src_dec_enc, need, mk_of h]
theorem rem (hd : Hd) (a : Src) (b : Src) (w : Bool) (u : Bool) : Statement (.rem hd a b w u) := by
  intro _ h
  obtain ⟨N, eq⟩ : ∃ N, N = encodeNat (.rem hd a b w u) := ⟨_, rfl⟩
  rw [← eq]
  replace eq : N = 0x2000028 + hd.enc + a.enc * 32768 + b.enc * 512 + b2n w * 4 + b2n u := eq
  have la := src_lt a; have lb := src_lt b; have lw := b2n_lt w; have lu := b2n_lt u
  obtain ⟨f0, hh, mm⟩ := top (n := N) (op := 1) hd (r := a.enc * 32768 + b.enc * 512 + b2n w * 4 + b2n u + 40) (by omega) (by omega) (by omega)
  obtain ⟨f1, mm⟩ := cut (K := 32768) 20 15 (a.enc) (b.enc * 512 + b2n w * 4 + b2n u + 40) mm (by norm_num) (by norm_num) (by omega) (by omega) (by omega)
  obtain ⟨f2, mm⟩ := cut (K := 512) 14 9 (b.enc) (b2n w * 4 + b2n u + 40) mm (by norm_num) (by norm_num) (by omega) (by omega) (by omega)
  obtain ⟨f3, mm⟩ := cut (K := 8) 8 3 (5) (b2n w * 4 + b2n u) mm (by norm_num) (by norm_num) (by omega) (by omega) (by omega)
  obtain ⟨f4, mm⟩ := cut (K := 4) 2 2 (b2n w) (b2n u) mm (by norm_num) (by norm_num) (by omega) (by omega) (by omega)
  obtain ⟨f5, mm⟩ := cut (K := 2) 1 1 (0) (b2n u) mm (by norm_num) (by norm_num) (by omega) (by omega) (by omega)
  obtain ⟨f6, mm⟩ := cut (K := 1) 0 0 (b2n u) (0) mm (by norm_num) (by norm_num) (by omega) (by omega) (by omega)
  rw [decInt2_of f0, decInt2, f3]
  simp [hh, f1, f2, bit_of f4, f5, bit_of f6, src_dec_enc, need, mk_of h]
theorem min (hd : Hd) (a : Src) (b : Src) (w : Bool) (u : Bool) : Statement (.min hd a b w u) := by
  intro _ h
  obtain ⟨N, eq⟩ : ∃ N, N = encodeNat (.min hd a b w u) := ⟨_, rfl⟩
  rw [← eq]
  replace eq : N = 0x2000030 + hd.enc + a.enc * 32768 + b.enc * 512 + b2n w * 4 + b2n u := eq
  have la := src_lt a; have lb := src_lt b; have lw := b2n_lt w; have lu := b2n_lt u
  obtain ⟨f0, hh, mm⟩ := top (n := N) (op := 1) hd (r := a.enc * 32768 + b.enc * 512 + b2n w * 4 + b2n u + 48) (by omega) (by omega) (by omega)
  obtain ⟨f1, mm⟩ := cut (K := 32768) 20 15 (a.enc) (b.enc * 512 + b2n w * 4 + b2n u + 48) mm (by norm_num) (by norm_num) (by omega) (by omega) (by omega)
  obtain ⟨f2, mm⟩ := cut (K := 512) 14 9 (b.enc) (b2n w * 4 + b2n u + 48) mm (by norm_num) (by norm_num) (by omega) (by omega) (by omega)
  obtain ⟨f3, mm⟩ := cut (K := 8) 8 3 (6) (b2n w * 4 + b2n u) mm (by norm_num) (by norm_num) (by omega) (by omega) (by omega)
  obtain ⟨f4, mm⟩ := cut (K := 4) 2 2 (b2n w) (b2n u) mm (by norm_num) (by norm_num) (by omega) (by omega) (by omega)
  obtain ⟨f5, mm⟩ := cut (K := 2) 1 1 (0) (b2n u) mm (by norm_num) (by norm_num) (by omega) (by omega) (by omega)
  obtain ⟨f6, mm⟩ := cut (K := 1) 0 0 (b2n u) (0) mm (by norm_num) (by norm_num) (by omega) (by omega) (by omega)
  rw [decInt2_of f0, decInt2, f3]
  simp [hh, f1, f2, bit_of f4, f5, bit_of f6, src_dec_enc, need, mk_of h]
theorem max (hd : Hd) (a : Src) (b : Src) (w : Bool) (u : Bool) : Statement (.max hd a b w u) := by
  intro _ h
  obtain ⟨N, eq⟩ : ∃ N, N = encodeNat (.max hd a b w u) := ⟨_, rfl⟩
  rw [← eq]
  replace eq : N = 0x2000038 + hd.enc + a.enc * 32768 + b.enc * 512 + b2n w * 4 + b2n u := eq
  have la := src_lt a; have lb := src_lt b; have lw := b2n_lt w; have lu := b2n_lt u
  obtain ⟨f0, hh, mm⟩ := top (n := N) (op := 1) hd (r := a.enc * 32768 + b.enc * 512 + b2n w * 4 + b2n u + 56) (by omega) (by omega) (by omega)
  obtain ⟨f1, mm⟩ := cut (K := 32768) 20 15 (a.enc) (b.enc * 512 + b2n w * 4 + b2n u + 56) mm (by norm_num) (by norm_num) (by omega) (by omega) (by omega)
  obtain ⟨f2, mm⟩ := cut (K := 512) 14 9 (b.enc) (b2n w * 4 + b2n u + 56) mm (by norm_num) (by norm_num) (by omega) (by omega) (by omega)
  obtain ⟨f3, mm⟩ := cut (K := 8) 8 3 (7) (b2n w * 4 + b2n u) mm (by norm_num) (by norm_num) (by omega) (by omega) (by omega)
  obtain ⟨f4, mm⟩ := cut (K := 4) 2 2 (b2n w) (b2n u) mm (by norm_num) (by norm_num) (by omega) (by omega) (by omega)
  obtain ⟨f5, mm⟩ := cut (K := 2) 1 1 (0) (b2n u) mm (by norm_num) (by norm_num) (by omega) (by omega) (by omega)
  obtain ⟨f6, mm⟩ := cut (K := 1) 0 0 (b2n u) (0) mm (by norm_num) (by norm_num) (by omega) (by omega) (by omega)
  rw [decInt2_of f0, decInt2, f3]
  simp [hh, f1, f2, bit_of f4, f5, bit_of f6, src_dec_enc, need, mk_of h]
theorem abs (hd : Hd) (a : Src) (w : Bool) (s : Bool) : Statement (.abs hd a w s) := by
  intro _ h
  obtain ⟨N, eq⟩ : ∃ N, N = encodeNat (.abs hd a w s) := ⟨_, rfl⟩
  rw [← eq]
  replace eq : N = 0x2007040 + hd.enc + a.enc * 32768 + b2n w * 4 + b2n s * 2 := eq
  have la := src_lt a; have lw := b2n_lt w; have ls := b2n_lt s
  obtain ⟨f0, hh, mm⟩ := top (n := N) (op := 1) hd (r := a.enc * 32768 + b2n w * 4 + b2n s * 2 + 28736) (by omega) (by omega) (by omega)
  obtain ⟨f1, mm⟩ := cut (K := 32768) 20 15 (a.enc) (b2n w * 4 + b2n s * 2 + 28736) mm (by norm_num) (by norm_num) (by omega) (by omega) (by omega)
  obtain ⟨f2, mm⟩ := cut (K := 512) 14 9 (56) (b2n w * 4 + b2n s * 2 + 64) mm (by norm_num) (by norm_num) (by omega) (by omega) (by omega)
  obtain ⟨f3, mm⟩ := cut (K := 8) 8 3 (8) (b2n w * 4 + b2n s * 2) mm (by norm_num) (by norm_num) (by omega) (by omega) (by omega)
  obtain ⟨f4, mm⟩ := cut (K := 4) 2 2 (b2n w) (b2n s * 2) mm (by norm_num) (by norm_num) (by omega) (by omega) (by omega)
  obtain ⟨f5, mm⟩ := cut (K := 2) 1 1 (b2n s) (0) mm (by norm_num) (by norm_num) (by omega) (by omega) (by omega)
  obtain ⟨f6, mm⟩ := cut (K := 1) 0 0 (0) (0) mm (by norm_num) (by norm_num) (by omega) (by omega) (by omega)
  rw [decInt2_of f0, decInt2, f3]
  simp [hh, f1, f2, bit_of f4, bit_of f5, f6, src_dec_enc, need, mk_of h]
theorem neg (hd : Hd) (a : Src) (w : Bool) (s : Bool) : Statement (.neg hd a w s) := by
  intro _ h
  obtain ⟨N, eq⟩ : ∃ N, N = encodeNat (.neg hd a w s) := ⟨_, rfl⟩
  rw [← eq]
  replace eq : N = 0x2007048 + hd.enc + a.enc * 32768 + b2n w * 4 + b2n s * 2 := eq
  have la := src_lt a; have lw := b2n_lt w; have ls := b2n_lt s
  obtain ⟨f0, hh, mm⟩ := top (n := N) (op := 1) hd (r := a.enc * 32768 + b2n w * 4 + b2n s * 2 + 28744) (by omega) (by omega) (by omega)
  obtain ⟨f1, mm⟩ := cut (K := 32768) 20 15 (a.enc) (b2n w * 4 + b2n s * 2 + 28744) mm (by norm_num) (by norm_num) (by omega) (by omega) (by omega)
  obtain ⟨f2, mm⟩ := cut (K := 512) 14 9 (56) (b2n w * 4 + b2n s * 2 + 72) mm (by norm_num) (by norm_num) (by omega) (by omega) (by omega)
  obtain ⟨f3, mm⟩ := cut (K := 8) 8 3 (9) (b2n w * 4 + b2n s * 2) mm (by norm_num) (by norm_num) (by omega) (by omega) (by omega)
  obtain ⟨f4, mm⟩ := cut (K := 4) 2 2 (b2n w) (b2n s * 2) mm (by norm_num) (by norm_num) (by omega) (by omega) (by omega)
  obtain ⟨f5, mm⟩ := cut (K := 2) 1 1 (b2n s) (0) mm (by norm_num) (by norm_num) (by omega) (by omega) (by omega)
  obtain ⟨f6, mm⟩ := cut (K := 1) 0 0 (0) (0) mm (by norm_num) (by norm_num) (by omega) (by omega) (by omega)
  rw [decInt2_of f0, decInt2, f3]
  simp [hh, f1, f2, bit_of f4, bit_of f5, f6, src_dec_enc, need, mk_of h]
theorem and (hd : Hd) (a : Src) (b : Src) (w : Bool) : Statement (.and hd a b w) := by
  intro _ h
  obtain ⟨N, eq⟩ : ∃ N, N = encodeNat (.and hd a b w) := ⟨_, rfl⟩
  rw [← eq]
  replace eq : N = 0x2000050 + hd.enc + a.enc * 32768 + b.enc * 512 + b2n w * 4 := eq
  have la := src_lt a; have lb := src_lt b; have lw := b2n_lt w
  obtain ⟨f0, hh, mm⟩ := top (n := N) (op := 1) hd (r := a.enc * 32768 + b.enc * 512 + b2n w * 4 + 80) (by omega) (by omega) (by omega)
  obtain ⟨f1, mm⟩ := cut (K := 32768) 20 15 (a.enc) (b.enc * 512 + b2n w * 4 + 80) mm (by norm_num) (by norm_num) (by omega) (by omega) (by omega)
  obtain ⟨f2, mm⟩ := cut (K := 512) 14 9 (b.enc) (b2n w * 4 + 80) mm (by norm_num) (by norm_num) (by omega) (by omega) (by omega)
  obtain ⟨f3, mm⟩ := cut (K := 8) 8 3 (10) (b2n w * 4) mm (by norm_num) (by norm_num) (by omega) (by omega) (by omega)
  obtain ⟨f4, mm⟩ := cut (K := 4) 2 2 (b2n w) (0) mm (by norm_num) (by norm_num) (by omega) (by omega) (by omega)
  obtain ⟨f5, mm⟩ := cut (K := 1) 1 0 (0) (0) mm (by norm_num) (by norm_num) (by omega) (by omega) (by omega)
  rw [decInt2_of f0, decInt2, f3]
  simp [hh, f1, f2, bit_of f4, f5, src_dec_enc, need, mk_of h]
theorem or (hd : Hd) (a : Src) (b : Src) (w : Bool) : Statement (.or hd a b w) := by
  intro _ h
  obtain ⟨N, eq⟩ : ∃ N, N = encodeNat (.or hd a b w) := ⟨_, rfl⟩
  rw [← eq]
  replace eq : N = 0x2000058 + hd.enc + a.enc * 32768 + b.enc * 512 + b2n w * 4 := eq
  have la := src_lt a; have lb := src_lt b; have lw := b2n_lt w
  obtain ⟨f0, hh, mm⟩ := top (n := N) (op := 1) hd (r := a.enc * 32768 + b.enc * 512 + b2n w * 4 + 88) (by omega) (by omega) (by omega)
  obtain ⟨f1, mm⟩ := cut (K := 32768) 20 15 (a.enc) (b.enc * 512 + b2n w * 4 + 88) mm (by norm_num) (by norm_num) (by omega) (by omega) (by omega)
  obtain ⟨f2, mm⟩ := cut (K := 512) 14 9 (b.enc) (b2n w * 4 + 88) mm (by norm_num) (by norm_num) (by omega) (by omega) (by omega)
  obtain ⟨f3, mm⟩ := cut (K := 8) 8 3 (11) (b2n w * 4) mm (by norm_num) (by norm_num) (by omega) (by omega) (by omega)
  obtain ⟨f4, mm⟩ := cut (K := 4) 2 2 (b2n w) (0) mm (by norm_num) (by norm_num) (by omega) (by omega) (by omega)
  obtain ⟨f5, mm⟩ := cut (K := 1) 1 0 (0) (0) mm (by norm_num) (by norm_num) (by omega) (by omega) (by omega)
  rw [decInt2_of f0, decInt2, f3]
  simp [hh, f1, f2, bit_of f4, f5, src_dec_enc, need, mk_of h]
theorem xor (hd : Hd) (a : Src) (b : Src) (w : Bool) : Statement (.xor hd a b w) := by
  intro _ h
  obtain ⟨N, eq⟩ : ∃ N, N = encodeNat (.xor hd a b w) := ⟨_, rfl⟩
  rw [← eq]
  replace eq : N = 0x2000060 + hd.enc + a.enc * 32768 + b.enc * 512 + b2n w * 4 := eq
  have la := src_lt a; have lb := src_lt b; have lw := b2n_lt w
  obtain ⟨f0, hh, mm⟩ := top (n := N) (op := 1) hd (r := a.enc * 32768 + b.enc * 512 + b2n w * 4 + 96) (by omega) (by omega) (by omega)
  obtain ⟨f1, mm⟩ := cut (K := 32768) 20 15 (a.enc) (b.enc * 512 + b2n w * 4 + 96) mm (by norm_num) (by norm_num) (by omega) (by omega) (by omega)
  obtain ⟨f2, mm⟩ := cut (K := 512) 14 9 (b.enc) (b2n w * 4 + 96) mm (by norm_num) (by norm_num) (by omega) (by omega) (by omega)
  obtain ⟨f3, mm⟩ := cut (K := 8) 8 3 (12) (b2n w * 4) mm (by norm_num) (by norm_num) (by omega) (by omega) (by omega)
  obtain ⟨f4, mm⟩ := cut (K := 4) 2 2 (b2n w) (0) mm (by norm_num) (by norm_num) (by omega) (by omega) (by omega)
  obtain ⟨f5, mm⟩ := cut (K := 1) 1 0 (0) (0) mm (by norm_num) (by norm_num) (by omega) (by omega) (by omega)
  rw [decInt2_of f0, decInt2, f3]
  simp [hh, f1, f2, bit_of f4, f5, src_dec_enc, need, mk_of h]
theorem andn (hd : Hd) (a : Src) (b : Src) (w : Bool) : Statement (.andn hd a b w) := by
  intro _ h
  obtain ⟨N, eq⟩ : ∃ N, N = encodeNat (.andn hd a b w) := ⟨_, rfl⟩
  rw [← eq]
  replace eq : N = 0x2000068 + hd.enc + a.enc * 32768 + b.enc * 512 + b2n w * 4 := eq
  have la := src_lt a; have lb := src_lt b; have lw := b2n_lt w
  obtain ⟨f0, hh, mm⟩ := top (n := N) (op := 1) hd (r := a.enc * 32768 + b.enc * 512 + b2n w * 4 + 104) (by omega) (by omega) (by omega)
  obtain ⟨f1, mm⟩ := cut (K := 32768) 20 15 (a.enc) (b.enc * 512 + b2n w * 4 + 104) mm (by norm_num) (by norm_num) (by omega) (by omega) (by omega)
  obtain ⟨f2, mm⟩ := cut (K := 512) 14 9 (b.enc) (b2n w * 4 + 104) mm (by norm_num) (by norm_num) (by omega) (by omega) (by omega)
  obtain ⟨f3, mm⟩ := cut (K := 8) 8 3 (13) (b2n w * 4) mm (by norm_num) (by norm_num) (by omega) (by omega) (by omega)
  obtain ⟨f4, mm⟩ := cut (K := 4) 2 2 (b2n w) (0) mm (by norm_num) (by norm_num) (by omega) (by omega) (by omega)
  obtain ⟨f5, mm⟩ := cut (K := 1) 1 0 (0) (0) mm (by norm_num) (by norm_num) (by omega) (by omega) (by omega)
  rw [decInt2_of f0, decInt2, f3]
  simp [hh, f1, f2, bit_of f4, f5, src_dec_enc, need, mk_of h]
theorem not (hd : Hd) (a : Src) (w : Bool) : Statement (.not hd a w) := by
  intro _ h
  obtain ⟨N, eq⟩ : ∃ N, N = encodeNat (.not hd a w) := ⟨_, rfl⟩
  rw [← eq]
  replace eq : N = 0x2007070 + hd.enc + a.enc * 32768 + b2n w * 4 := eq
  have la := src_lt a; have lw := b2n_lt w
  obtain ⟨f0, hh, mm⟩ := top (n := N) (op := 1) hd (r := a.enc * 32768 + b2n w * 4 + 28784) (by omega) (by omega) (by omega)
  obtain ⟨f1, mm⟩ := cut (K := 32768) 20 15 (a.enc) (b2n w * 4 + 28784) mm (by norm_num) (by norm_num) (by omega) (by omega) (by omega)
  obtain ⟨f2, mm⟩ := cut (K := 512) 14 9 (56) (b2n w * 4 + 112) mm (by norm_num) (by norm_num) (by omega) (by omega) (by omega)
  obtain ⟨f3, mm⟩ := cut (K := 8) 8 3 (14) (b2n w * 4) mm (by norm_num) (by norm_num) (by omega) (by omega) (by omega)
  obtain ⟨f4, mm⟩ := cut (K := 4) 2 2 (b2n w) (0) mm (by norm_num) (by norm_num) (by omega) (by omega) (by omega)
  obtain ⟨f5, mm⟩ := cut (K := 1) 1 0 (0) (0) mm (by norm_num) (by norm_num) (by omega) (by omega) (by omega)
  rw [decInt2_of f0, decInt2, f3]
  simp [hh, f1, f2, bit_of f4, f5, src_dec_enc, need, mk_of h]
theorem shl (hd : Hd) (a : Src) (b : Src) (w : Bool) : Statement (.shl hd a b w) := by
  intro _ h
  obtain ⟨N, eq⟩ : ∃ N, N = encodeNat (.shl hd a b w) := ⟨_, rfl⟩
  rw [← eq]
  replace eq : N = 0x2000078 + hd.enc + a.enc * 32768 + b.enc * 512 + b2n w * 4 := eq
  have la := src_lt a; have lb := src_lt b; have lw := b2n_lt w
  obtain ⟨f0, hh, mm⟩ := top (n := N) (op := 1) hd (r := a.enc * 32768 + b.enc * 512 + b2n w * 4 + 120) (by omega) (by omega) (by omega)
  obtain ⟨f1, mm⟩ := cut (K := 32768) 20 15 (a.enc) (b.enc * 512 + b2n w * 4 + 120) mm (by norm_num) (by norm_num) (by omega) (by omega) (by omega)
  obtain ⟨f2, mm⟩ := cut (K := 512) 14 9 (b.enc) (b2n w * 4 + 120) mm (by norm_num) (by norm_num) (by omega) (by omega) (by omega)
  obtain ⟨f3, mm⟩ := cut (K := 8) 8 3 (15) (b2n w * 4) mm (by norm_num) (by norm_num) (by omega) (by omega) (by omega)
  obtain ⟨f4, mm⟩ := cut (K := 4) 2 2 (b2n w) (0) mm (by norm_num) (by norm_num) (by omega) (by omega) (by omega)
  obtain ⟨f5, mm⟩ := cut (K := 1) 1 0 (0) (0) mm (by norm_num) (by norm_num) (by omega) (by omega) (by omega)
  rw [decInt2_of f0, decInt2, f3]
  simp [hh, f1, f2, bit_of f4, f5, src_dec_enc, need, mk_of h]
theorem shr (hd : Hd) (a : Src) (b : Src) (w : Bool) : Statement (.shr hd a b w) := by
  intro _ h
  obtain ⟨N, eq⟩ : ∃ N, N = encodeNat (.shr hd a b w) := ⟨_, rfl⟩
  rw [← eq]
  replace eq : N = 0x2000080 + hd.enc + a.enc * 32768 + b.enc * 512 + b2n w * 4 := eq
  have la := src_lt a; have lb := src_lt b; have lw := b2n_lt w
  obtain ⟨f0, hh, mm⟩ := top (n := N) (op := 1) hd (r := a.enc * 32768 + b.enc * 512 + b2n w * 4 + 128) (by omega) (by omega) (by omega)
  obtain ⟨f1, mm⟩ := cut (K := 32768) 20 15 (a.enc) (b.enc * 512 + b2n w * 4 + 128) mm (by norm_num) (by norm_num) (by omega) (by omega) (by omega)
  obtain ⟨f2, mm⟩ := cut (K := 512) 14 9 (b.enc) (b2n w * 4 + 128) mm (by norm_num) (by norm_num) (by omega) (by omega) (by omega)
  obtain ⟨f3, mm⟩ := cut (K := 8) 8 3 (16) (b2n w * 4) mm (by norm_num) (by norm_num) (by omega) (by omega) (by omega)
  obtain ⟨f4, mm⟩ := cut (K := 4) 2 2 (b2n w) (0) mm (by norm_num) (by norm_num) (by omega) (by omega) (by omega)
  obtain ⟨f5, mm⟩ := cut (K := 1) 1 0 (0) (0) mm (by norm_num) (by norm_num) (by omega) (by omega) (by omega)
  rw [decInt2_of f0, decInt2, f3]
  simp [hh, f1, f2, bit_of f4, f5, src_dec_enc, need, mk_of h]
theorem sar (hd : Hd) (a : Src) (b : Src) (w : Bool) : Statement (.sar hd a b w) := by
  intro _ h
  obtain ⟨N, eq⟩ : ∃ N, N = encodeNat (.sar hd a b w) := ⟨_, rfl⟩
  rw [← eq]
  replace eq : N = 0x2000088 + hd.enc + a.enc * 32768 + b.enc * 512 + b2n w * 4 := eq
  have la := src_lt a; have lb := src_lt b; have lw := b2n_lt w
  obtain ⟨f0, hh, mm⟩ := top (n := N) (op := 1) hd (r := a.enc * 32768 + b.enc * 512 + b2n w * 4 + 136) (by omega) (by omega) (by omega)
  obtain ⟨f1, mm⟩ := cut (K := 32768) 20 15 (a.enc) (b.enc * 512 + b2n w * 4 + 136) mm (by norm_num) (by norm_num) (by omega) (by omega) (by omega)
  obtain ⟨f2, mm⟩ := cut (K := 512) 14 9 (b.enc) (b2n w * 4 + 136) mm (by norm_num) (by norm_num) (by omega) (by omega) (by omega)
  obtain ⟨f3, mm⟩ := cut (K := 8) 8 3 (17) (b2n w * 4) mm (by norm_num) (by norm_num) (by omega) (by omega) (by omega)
  obtain ⟨f4, mm⟩ := cut (K := 4) 2 2 (b2n w) (0) mm (by norm_num) (by norm_num) (by omega) (by omega) (by omega)
  obtain ⟨f5, mm⟩ := cut (K := 1) 1 0 (0) (0) mm (by norm_num) (by norm_num) (by omega) (by omega) (by omega)
  rw [decInt2_of f0, decInt2, f3]
  simp [hh, f1, f2, bit_of f4, f5, src_dec_enc, need, mk_of h]
theorem rot (hd : Hd) (a : Src) (b : Src) (w : Bool) : Statement (.rot hd a b w) := by
  intro _ h
  obtain ⟨N, eq⟩ : ∃ N, N = encodeNat (.rot hd a b w) := ⟨_, rfl⟩
  rw [← eq]
  replace eq : N = 0x2000090 + hd.enc + a.enc * 32768 + b.enc * 512 + b2n w * 4 := eq
  have la := src_lt a; have lb := src_lt b; have lw := b2n_lt w
  obtain ⟨f0, hh, mm⟩ := top (n := N) (op := 1) hd (r := a.enc * 32768 + b.enc * 512 + b2n w * 4 + 144) (by omega) (by omega) (by omega)
  obtain ⟨f1, mm⟩ := cut (K := 32768) 20 15 (a.enc) (b.enc * 512 + b2n w * 4 + 144) mm (by norm_num) (by norm_num) (by omega) (by omega) (by omega)
  obtain ⟨f2, mm⟩ := cut (K := 512) 14 9 (b.enc) (b2n w * 4 + 144) mm (by norm_num) (by norm_num) (by omega) (by omega) (by omega)
  obtain ⟨f3, mm⟩ := cut (K := 8) 8 3 (18) (b2n w * 4) mm (by norm_num) (by norm_num) (by omega) (by omega) (by omega)
  obtain ⟨f4, mm⟩ := cut (K := 4) 2 2 (b2n w) (0) mm (by norm_num) (by norm_num) (by omega) (by omega) (by omega)
  obtain ⟨f5, mm⟩ := cut (K := 1) 1 0 (0) (0) mm (by norm_num) (by norm_num) (by omega) (by omega) (by omega)
  rw [decInt2_of f0, decInt2, f3]
  simp [hh, f1, f2, bit_of f4, f5, src_dec_enc, need, mk_of h]
theorem popc (hd : Hd) (a : Src) (w : Bool) : Statement (.popc hd a w) := by
  intro _ h
  obtain ⟨N, eq⟩ : ∃ N, N = encodeNat (.popc hd a w) := ⟨_, rfl⟩
  rw [← eq]
  replace eq : N = 0x2007098 + hd.enc + a.enc * 32768 + b2n w * 4 := eq
  have la := src_lt a; have lw := b2n_lt w
  obtain ⟨f0, hh, mm⟩ := top (n := N) (op := 1) hd (r := a.enc * 32768 + b2n w * 4 + 28824) (by omega) (by omega) (by omega)
  obtain ⟨f1, mm⟩ := cut (K := 32768) 20 15 (a.enc) (b2n w * 4 + 28824) mm (by norm_num) (by norm_num) (by omega) (by omega) (by omega)
  obtain ⟨f2, mm⟩ := cut (K := 512) 14 9 (56) (b2n w * 4 + 152) mm (by norm_num) (by norm_num) (by omega) (by omega) (by omega)
  obtain ⟨f3, mm⟩ := cut (K := 8) 8 3 (19) (b2n w * 4) mm (by norm_num) (by norm_num) (by omega) (by omega) (by omega)
  obtain ⟨f4, mm⟩ := cut (K := 4) 2 2 (b2n w) (0) mm (by norm_num) (by norm_num) (by omega) (by omega) (by omega)
  obtain ⟨f5, mm⟩ := cut (K := 1) 1 0 (0) (0) mm (by norm_num) (by norm_num) (by omega) (by omega) (by omega)
  rw [decInt2_of f0, decInt2, f3]
  simp [hh, f1, f2, bit_of f4, f5, src_dec_enc, need, mk_of h]
theorem clz (hd : Hd) (a : Src) (w : Bool) : Statement (.clz hd a w) := by
  intro _ h
  obtain ⟨N, eq⟩ : ∃ N, N = encodeNat (.clz hd a w) := ⟨_, rfl⟩
  rw [← eq]
  replace eq : N = 0x20070a0 + hd.enc + a.enc * 32768 + b2n w * 4 := eq
  have la := src_lt a; have lw := b2n_lt w
  obtain ⟨f0, hh, mm⟩ := top (n := N) (op := 1) hd (r := a.enc * 32768 + b2n w * 4 + 28832) (by omega) (by omega) (by omega)
  obtain ⟨f1, mm⟩ := cut (K := 32768) 20 15 (a.enc) (b2n w * 4 + 28832) mm (by norm_num) (by norm_num) (by omega) (by omega) (by omega)
  obtain ⟨f2, mm⟩ := cut (K := 512) 14 9 (56) (b2n w * 4 + 160) mm (by norm_num) (by norm_num) (by omega) (by omega) (by omega)
  obtain ⟨f3, mm⟩ := cut (K := 8) 8 3 (20) (b2n w * 4) mm (by norm_num) (by norm_num) (by omega) (by omega) (by omega)
  obtain ⟨f4, mm⟩ := cut (K := 4) 2 2 (b2n w) (0) mm (by norm_num) (by norm_num) (by omega) (by omega) (by omega)
  obtain ⟨f5, mm⟩ := cut (K := 1) 1 0 (0) (0) mm (by norm_num) (by norm_num) (by omega) (by omega) (by omega)
  rw [decInt2_of f0, decInt2, f3]
  simp [hh, f1, f2, bit_of f4, f5, src_dec_enc, need, mk_of h]
theorem ctz (hd : Hd) (a : Src) (w : Bool) : Statement (.ctz hd a w) := by
  intro _ h
  obtain ⟨N, eq⟩ : ∃ N, N = encodeNat (.ctz hd a w) := ⟨_, rfl⟩
  rw [← eq]
  replace eq : N = 0x20070a8 + hd.enc + a.enc * 32768 + b2n w * 4 := eq
  have la := src_lt a; have lw := b2n_lt w
  obtain ⟨f0, hh, mm⟩ := top (n := N) (op := 1) hd (r := a.enc * 32768 + b2n w * 4 + 28840) (by omega) (by omega) (by omega)
  obtain ⟨f1, mm⟩ := cut (K := 32768) 20 15 (a.enc) (b2n w * 4 + 28840) mm (by norm_num) (by norm_num) (by omega) (by omega) (by omega)
  obtain ⟨f2, mm⟩ := cut (K := 512) 14 9 (56) (b2n w * 4 + 168) mm (by norm_num) (by norm_num) (by omega) (by omega) (by omega)
  obtain ⟨f3, mm⟩ := cut (K := 8) 8 3 (21) (b2n w * 4) mm (by norm_num) (by norm_num) (by omega) (by omega) (by omega)
  obtain ⟨f4, mm⟩ := cut (K := 4) 2 2 (b2n w) (0) mm (by norm_num) (by norm_num) (by omega) (by omega) (by omega)
  obtain ⟨f5, mm⟩ := cut (K := 1) 1 0 (0) (0) mm (by norm_num) (by norm_num) (by omega) (by omega) (by omega)
  rw [decInt2_of f0, decInt2, f3]
  simp [hh, f1, f2, bit_of f4, f5, src_dec_enc, need, mk_of h]
theorem brev (hd : Hd) (a : Src) (w : Bool) : Statement (.brev hd a w) := by
  intro _ h
  obtain ⟨N, eq⟩ : ∃ N, N = encodeNat (.brev hd a w) := ⟨_, rfl⟩
  rw [← eq]
  replace eq : N = 0x20070b0 + hd.enc + a.enc * 32768 + b2n w * 4 := eq
  have la := src_lt a; have lw := b2n_lt w
  obtain ⟨f0, hh, mm⟩ := top (n := N) (op := 1) hd (r := a.enc * 32768 + b2n w * 4 + 28848) (by omega) (by omega) (by omega)
  obtain ⟨f1, mm⟩ := cut (K := 32768) 20 15 (a.enc) (b2n w * 4 + 28848) mm (by norm_num) (by norm_num) (by omega) (by omega) (by omega)
  obtain ⟨f2, mm⟩ := cut (K := 512) 14 9 (56) (b2n w * 4 + 176) mm (by norm_num) (by norm_num) (by omega) (by omega) (by omega)
  obtain ⟨f3, mm⟩ := cut (K := 8) 8 3 (22) (b2n w * 4) mm (by norm_num) (by norm_num) (by omega) (by omega) (by omega)
  obtain ⟨f4, mm⟩ := cut (K := 4) 2 2 (b2n w) (0) mm (by norm_num) (by norm_num) (by omega) (by omega) (by omega)
  obtain ⟨f5, mm⟩ := cut (K := 1) 1 0 (0) (0) mm (by norm_num) (by norm_num) (by omega) (by omega) (by omega)
  rw [decInt2_of f0, decInt2, f3]
  simp [hh, f1, f2, bit_of f4, f5, src_dec_enc, need, mk_of h]
theorem mov (hd : Hd) (a : Src) (w : Bool) : Statement (.mov hd a w) := by
  intro _ h
  obtain ⟨N, eq⟩ : ∃ N, N = encodeNat (.mov hd a w) := ⟨_, rfl⟩
  rw [← eq]
  replace eq : N = 0x20070b8 + hd.enc + a.enc * 32768 + b2n w * 4 := eq
  have la := src_lt a; have lw := b2n_lt w
  obtain ⟨f0, hh, mm⟩ := top (n := N) (op := 1) hd (r := a.enc * 32768 + b2n w * 4 + 28856) (by omega) (by omega) (by omega)
  obtain ⟨f1, mm⟩ := cut (K := 32768) 20 15 (a.enc) (b2n w * 4 + 28856) mm (by norm_num) (by norm_num) (by omega) (by omega) (by omega)
  obtain ⟨f2, mm⟩ := cut (K := 512) 14 9 (56) (b2n w * 4 + 184) mm (by norm_num) (by norm_num) (by omega) (by omega) (by omega)
  obtain ⟨f3, mm⟩ := cut (K := 8) 8 3 (23) (b2n w * 4) mm (by norm_num) (by norm_num) (by omega) (by omega) (by omega)
  obtain ⟨f4, mm⟩ := cut (K := 4) 2 2 (b2n w) (0) mm (by norm_num) (by norm_num) (by omega) (by omega) (by omega)
  obtain ⟨f5, mm⟩ := cut (K := 1) 1 0 (0) (0) mm (by norm_num) (by norm_num) (by omega) (by omega) (by omega)
  rw [decInt2_of f0, decInt2, f3]
  simp [hh, f1, f2, bit_of f4, f5, src_dec_enc, need, mk_of h]
theorem sel (hd : Hd) (a : Src) (b : Src) (p : Fin 8) : Statement (.sel hd a b p) := by
  intro _ h
  obtain ⟨N, eq⟩ : ∃ N, N = encodeNat (.sel hd a b p) := ⟨_, rfl⟩
  rw [← eq]
  replace eq : N = 0x20000c0 + hd.enc + a.enc * 32768 + b.enc * 512 + p.val := eq
  have la := src_lt a; have lb := src_lt b; have lp := p.isLt
  obtain ⟨f0, hh, mm⟩ := top (n := N) (op := 1) hd (r := a.enc * 32768 + b.enc * 512 + p.val + 192) (by omega) (by omega) (by omega)
  obtain ⟨f1, mm⟩ := cut (K := 32768) 20 15 (a.enc) (b.enc * 512 + p.val + 192) mm (by norm_num) (by norm_num) (by omega) (by omega) (by omega)
  obtain ⟨f2, mm⟩ := cut (K := 512) 14 9 (b.enc) (p.val + 192) mm (by norm_num) (by norm_num) (by omega) (by omega) (by omega)
  obtain ⟨f3, mm⟩ := cut (K := 8) 8 3 (24) (p.val) mm (by norm_num) (by norm_num) (by omega) (by omega) (by omega)
  obtain ⟨f4, mm⟩ := cut (K := 1) 2 0 (p.val) (0) mm (by norm_num) (by norm_num) (by omega) (by omega) (by omega)
  rw [decInt2_of f0, decInt2, f3]
  simp [hh, f1, f2, f4, src_dec_enc, mk_of h]
theorem sel64 (hd : Hd) (a : Src) (b : Src) (p : Fin 8) : Statement (.sel64 hd a b p) := by
  intro _ h
  obtain ⟨N, eq⟩ : ∃ N, N = encodeNat (.sel64 hd a b p) := ⟨_, rfl⟩
  rw [← eq]
  replace eq : N = 0x20000c8 + hd.enc + a.enc * 32768 + b.enc * 512 + p.val := eq
  have la := src_lt a; have lb := src_lt b; have lp := p.isLt
  obtain ⟨f0, hh, mm⟩ := top (n := N) (op := 1) hd (r := a.enc * 32768 + b.enc * 512 + p.val + 200) (by omega) (by omega) (by omega)
  obtain ⟨f1, mm⟩ := cut (K := 32768) 20 15 (a.enc) (b.enc * 512 + p.val + 200) mm (by norm_num) (by norm_num) (by omega) (by omega) (by omega)
  obtain ⟨f2, mm⟩ := cut (K := 512) 14 9 (b.enc) (p.val + 200) mm (by norm_num) (by norm_num) (by omega) (by omega) (by omega)
  obtain ⟨f3, mm⟩ := cut (K := 8) 8 3 (25) (p.val) mm (by norm_num) (by norm_num) (by omega) (by omega) (by omega)
  obtain ⟨f4, mm⟩ := cut (K := 1) 2 0 (p.val) (0) mm (by norm_num) (by norm_num) (by omega) (by omega) (by omega)
  rw [decInt2_of f0, decInt2, f3]
  simp [hh, f1, f2, f4, src_dec_enc, mk_of h]
theorem bfx (hd : Hd) (a : Src) (b : Src) (x : Bool) : Statement (.bfx hd a b x) := by
  intro _ h
  obtain ⟨N, eq⟩ : ∃ N, N = encodeNat (.bfx hd a b x) := ⟨_, rfl⟩
  rw [← eq]
  replace eq : N = 0x20000d0 + hd.enc + a.enc * 32768 + b.enc * 512 + b2n x := eq
  have la := src_lt a; have lb := src_lt b; have lx := b2n_lt x
  obtain ⟨f0, hh, mm⟩ := top (n := N) (op := 1) hd (r := a.enc * 32768 + b.enc * 512 + b2n x + 208) (by omega) (by omega) (by omega)
  obtain ⟨f1, mm⟩ := cut (K := 32768) 20 15 (a.enc) (b.enc * 512 + b2n x + 208) mm (by norm_num) (by norm_num) (by omega) (by omega) (by omega)
  obtain ⟨f2, mm⟩ := cut (K := 512) 14 9 (b.enc) (b2n x + 208) mm (by norm_num) (by norm_num) (by omega) (by omega) (by omega)
  obtain ⟨f3, mm⟩ := cut (K := 8) 8 3 (26) (b2n x) mm (by norm_num) (by norm_num) (by omega) (by omega) (by omega)
  obtain ⟨f4, mm⟩ := cut (K := 2) 2 1 (0) (b2n x) mm (by norm_num) (by norm_num) (by omega) (by omega) (by omega)
  obtain ⟨f5, mm⟩ := cut (K := 1) 0 0 (b2n x) (0) mm (by norm_num) (by norm_num) (by omega) (by omega) (by omega)
  rw [decInt2_of f0, decInt2, f3]
  simp [hh, f1, f2, f4, bit_of f5, src_dec_enc, need, mk_of h]
theorem dot4 (hd : Hd) (a : Src) (b : Src) (u : Bool) : Statement (.dot4 hd a b u) := by
  intro _ h
  obtain ⟨N, eq⟩ : ∃ N, N = encodeNat (.dot4 hd a b u) := ⟨_, rfl⟩
  rw [← eq]
  replace eq : N = 0x20000d8 + hd.enc + a.enc * 32768 + b.enc * 512 + b2n u := eq
  have la := src_lt a; have lb := src_lt b; have lu := b2n_lt u
  obtain ⟨f0, hh, mm⟩ := top (n := N) (op := 1) hd (r := a.enc * 32768 + b.enc * 512 + b2n u + 216) (by omega) (by omega) (by omega)
  obtain ⟨f1, mm⟩ := cut (K := 32768) 20 15 (a.enc) (b.enc * 512 + b2n u + 216) mm (by norm_num) (by norm_num) (by omega) (by omega) (by omega)
  obtain ⟨f2, mm⟩ := cut (K := 512) 14 9 (b.enc) (b2n u + 216) mm (by norm_num) (by norm_num) (by omega) (by omega) (by omega)
  obtain ⟨f3, mm⟩ := cut (K := 8) 8 3 (27) (b2n u) mm (by norm_num) (by norm_num) (by omega) (by omega) (by omega)
  obtain ⟨f4, mm⟩ := cut (K := 2) 2 1 (0) (b2n u) mm (by norm_num) (by norm_num) (by omega) (by omega) (by omega)
  obtain ⟨f5, mm⟩ := cut (K := 1) 0 0 (b2n u) (0) mm (by norm_num) (by norm_num) (by omega) (by omega) (by omega)
  rw [decInt2_of f0, decInt2, f3]
  simp [hh, f1, f2, f4, bit_of f5, src_dec_enc, need, mk_of h]
theorem dotn (hd : Hd) (a : Src) (b : Src) (u : Bool) : Statement (.dotn hd a b u) := by
  intro _ h
  obtain ⟨N, eq⟩ : ∃ N, N = encodeNat (.dotn hd a b u) := ⟨_, rfl⟩
  rw [← eq]
  replace eq : N = 0x20000e0 + hd.enc + a.enc * 32768 + b.enc * 512 + b2n u := eq
  have la := src_lt a; have lb := src_lt b; have lu := b2n_lt u
  obtain ⟨f0, hh, mm⟩ := top (n := N) (op := 1) hd (r := a.enc * 32768 + b.enc * 512 + b2n u + 224) (by omega) (by omega) (by omega)
  obtain ⟨f1, mm⟩ := cut (K := 32768) 20 15 (a.enc) (b.enc * 512 + b2n u + 224) mm (by norm_num) (by norm_num) (by omega) (by omega) (by omega)
  obtain ⟨f2, mm⟩ := cut (K := 512) 14 9 (b.enc) (b2n u + 224) mm (by norm_num) (by norm_num) (by omega) (by omega) (by omega)
  obtain ⟨f3, mm⟩ := cut (K := 8) 8 3 (28) (b2n u) mm (by norm_num) (by norm_num) (by omega) (by omega) (by omega)
  obtain ⟨f4, mm⟩ := cut (K := 2) 2 1 (0) (b2n u) mm (by norm_num) (by norm_num) (by omega) (by omega) (by omega)
  obtain ⟨f5, mm⟩ := cut (K := 1) 0 0 (b2n u) (0) mm (by norm_num) (by norm_num) (by omega) (by omega) (by omega)
  rw [decInt2_of f0, decInt2, f3]
  simp [hh, f1, f2, f4, bit_of f5, src_dec_enc, need, mk_of h]
theorem unpackp (hd : Hd) (a : Src) (b : Src) : Statement (.unpackp hd a b) := by
  intro _ h
  obtain ⟨N, eq⟩ : ∃ N, N = encodeNat (.unpackp hd a b) := ⟨_, rfl⟩
  rw [← eq]
  replace eq : N = 0x20000e8 + hd.enc + a.enc * 32768 + b.enc * 512 := eq
  have la := src_lt a; have lb := src_lt b
  obtain ⟨f0, hh, mm⟩ := top (n := N) (op := 1) hd (r := a.enc * 32768 + b.enc * 512 + 232) (by omega) (by omega) (by omega)
  obtain ⟨f1, mm⟩ := cut (K := 32768) 20 15 (a.enc) (b.enc * 512 + 232) mm (by norm_num) (by norm_num) (by omega) (by omega) (by omega)
  obtain ⟨f2, mm⟩ := cut (K := 512) 14 9 (b.enc) (232) mm (by norm_num) (by norm_num) (by omega) (by omega) (by omega)
  obtain ⟨f3, mm⟩ := cut (K := 8) 8 3 (29) (0) mm (by norm_num) (by norm_num) (by omega) (by omega) (by omega)
  obtain ⟨f4, mm⟩ := cut (K := 1) 2 0 (0) (0) mm (by norm_num) (by norm_num) (by omega) (by omega) (by omega)
  rw [decInt2_of f0, decInt2, f3]
  simp [hh, f1, f2, f4, src_dec_enc, need, mk_of h]
theorem mad (hd : Hd) (a : Src) (b : Src) (d : Src) : Statement (.mad hd a b d) := by
  intro _ h
  obtain ⟨N, eq⟩ : ∃ N, N = encodeNat (.mad hd a b d) := ⟨_, rfl⟩
  rw [← eq]
  replace eq : N = 0x4000000 + hd.enc + a.enc * 32768 + b.enc * 512 + d.enc * 8 := eq
  have la := src_lt a; have lb := src_lt b; have ld := src_lt d
  obtain ⟨f0, hh, mm⟩ := top (n := N) (op := 2) hd (r := a.enc * 32768 + b.enc * 512 + d.enc * 8) (by omega) (by omega) (by omega)
  obtain ⟨f1, mm⟩ := cut (K := 32768) 20 15 (a.enc) (b.enc * 512 + d.enc * 8) mm (by norm_num) (by norm_num) (by omega) (by omega) (by omega)
  obtain ⟨f2, mm⟩ := cut (K := 512) 14 9 (b.enc) (d.enc * 8) mm (by norm_num) (by norm_num) (by omega) (by omega) (by omega)
  obtain ⟨f3, mm⟩ := cut (K := 8) 8 3 (d.enc) (0) mm (by norm_num) (by norm_num) (by omega) (by omega) (by omega)
  obtain ⟨f4, mm⟩ := cut (K := 1) 2 0 (0) (0) mm (by norm_num) (by norm_num) (by omega) (by omega) (by omega)
  rw [decInt3_of f0, decInt3, f4]
  simp [hh, f1, f2, f3, src_dec_enc, mk_of h]
theorem madw (hd : Hd) (a : Src) (b : Src) (d : Src) : Statement (.madw hd a b d) := by
  intro _ h
  obtain ⟨N, eq⟩ : ∃ N, N = encodeNat (.madw hd a b d) := ⟨_, rfl⟩
  rw [← eq]
  replace eq : N = 0x4000001 + hd.enc + a.enc * 32768 + b.enc * 512 + d.enc * 8 := eq
  have la := src_lt a; have lb := src_lt b; have ld := src_lt d
  obtain ⟨f0, hh, mm⟩ := top (n := N) (op := 2) hd (r := a.enc * 32768 + b.enc * 512 + d.enc * 8 + 1) (by omega) (by omega) (by omega)
  obtain ⟨f1, mm⟩ := cut (K := 32768) 20 15 (a.enc) (b.enc * 512 + d.enc * 8 + 1) mm (by norm_num) (by norm_num) (by omega) (by omega) (by omega)
  obtain ⟨f2, mm⟩ := cut (K := 512) 14 9 (b.enc) (d.enc * 8 + 1) mm (by norm_num) (by norm_num) (by omega) (by omega) (by omega)
  obtain ⟨f3, mm⟩ := cut (K := 8) 8 3 (d.enc) (1) mm (by norm_num) (by norm_num) (by omega) (by omega) (by omega)
  obtain ⟨f4, mm⟩ := cut (K := 1) 2 0 (1) (0) mm (by norm_num) (by norm_num) (by omega) (by omega) (by omega)
  rw [decInt3_of f0, decInt3, f4]
  simp [hh, f1, f2, f3, src_dec_enc, mk_of h]
theorem addc (hd : Hd) (a : Src) (b : Src) (d : Src) : Statement (.addc hd a b d) := by
  intro _ h
  obtain ⟨N, eq⟩ : ∃ N, N = encodeNat (.addc hd a b d) := ⟨_, rfl⟩
  rw [← eq]
  replace eq : N = 0x4000002 + hd.enc + a.enc * 32768 + b.enc * 512 + d.enc * 8 := eq
  have la := src_lt a; have lb := src_lt b; have ld := src_lt d
  obtain ⟨f0, hh, mm⟩ := top (n := N) (op := 2) hd (r := a.enc * 32768 + b.enc * 512 + d.enc * 8 + 2) (by omega) (by omega) (by omega)
  obtain ⟨f1, mm⟩ := cut (K := 32768) 20 15 (a.enc) (b.enc * 512 + d.enc * 8 + 2) mm (by norm_num) (by norm_num) (by omega) (by omega) (by omega)
  obtain ⟨f2, mm⟩ := cut (K := 512) 14 9 (b.enc) (d.enc * 8 + 2) mm (by norm_num) (by norm_num) (by omega) (by omega) (by omega)
  obtain ⟨f3, mm⟩ := cut (K := 8) 8 3 (d.enc) (2) mm (by norm_num) (by norm_num) (by omega) (by omega) (by omega)
  obtain ⟨f4, mm⟩ := cut (K := 1) 2 0 (2) (0) mm (by norm_num) (by norm_num) (by omega) (by omega) (by omega)
  rw [decInt3_of f0, decInt3, f4]
  simp [hh, f1, f2, f3, src_dec_enc, mk_of h]
theorem subb (hd : Hd) (a : Src) (b : Src) (d : Src) : Statement (.subb hd a b d) := by
  intro _ h
  obtain ⟨N, eq⟩ : ∃ N, N = encodeNat (.subb hd a b d) := ⟨_, rfl⟩
  rw [← eq]
  replace eq : N = 0x4000003 + hd.enc + a.enc * 32768 + b.enc * 512 + d.enc * 8 := eq
  have la := src_lt a; have lb := src_lt b; have ld := src_lt d
  obtain ⟨f0, hh, mm⟩ := top (n := N) (op := 2) hd (r := a.enc * 32768 + b.enc * 512 + d.enc * 8 + 3) (by omega) (by omega) (by omega)
  obtain ⟨f1, mm⟩ := cut (K := 32768) 20 15 (a.enc) (b.enc * 512 + d.enc * 8 + 3) mm (by norm_num) (by norm_num) (by omega) (by omega) (by omega)
  obtain ⟨f2, mm⟩ := cut (K := 512) 14 9 (b.enc) (d.enc * 8 + 3) mm (by norm_num) (by norm_num) (by omega) (by omega) (by omega)
  obtain ⟨f3, mm⟩ := cut (K := 8) 8 3 (d.enc) (3) mm (by norm_num) (by norm_num) (by omega) (by omega) (by omega)
  obtain ⟨f4, mm⟩ := cut (K := 1) 2 0 (3) (0) mm (by norm_num) (by norm_num) (by omega) (by omega) (by omega)
  rw [decInt3_of f0, decInt3, f4]
  simp [hh, f1, f2, f3, src_dec_enc, mk_of h]
theorem shf (hd : Hd) (a : Src) (b : Src) (d : Src) : Statement (.shf hd a b d) := by
  intro _ h
  obtain ⟨N, eq⟩ : ∃ N, N = encodeNat (.shf hd a b d) := ⟨_, rfl⟩
  rw [← eq]
  replace eq : N = 0x4000004 + hd.enc + a.enc * 32768 + b.enc * 512 + d.enc * 8 := eq
  have la := src_lt a; have lb := src_lt b; have ld := src_lt d
  obtain ⟨f0, hh, mm⟩ := top (n := N) (op := 2) hd (r := a.enc * 32768 + b.enc * 512 + d.enc * 8 + 4) (by omega) (by omega) (by omega)
  obtain ⟨f1, mm⟩ := cut (K := 32768) 20 15 (a.enc) (b.enc * 512 + d.enc * 8 + 4) mm (by norm_num) (by norm_num) (by omega) (by omega) (by omega)
  obtain ⟨f2, mm⟩ := cut (K := 512) 14 9 (b.enc) (d.enc * 8 + 4) mm (by norm_num) (by norm_num) (by omega) (by omega) (by omega)
  obtain ⟨f3, mm⟩ := cut (K := 8) 8 3 (d.enc) (4) mm (by norm_num) (by norm_num) (by omega) (by omega) (by omega)
  obtain ⟨f4, mm⟩ := cut (K := 1) 2 0 (4) (0) mm (by norm_num) (by norm_num) (by omega) (by omega) (by omega)
  rw [decInt3_of f0, decInt3, f4]
  simp [hh, f1, f2, f3, src_dec_enc, mk_of h]
theorem bfi (hd : Hd) (a : Src) (b : Src) (d : Src) : Statement (.bfi hd a b d) := by
  intro _ h
  obtain ⟨N, eq⟩ : ∃ N, N = encodeNat (.bfi hd a b d) := ⟨_, rfl⟩
  rw [← eq]
  replace eq : N = 0x4000005 + hd.enc + a.enc * 32768 + b.enc * 512 + d.enc * 8 := eq
  have la := src_lt a; have lb := src_lt b; have ld := src_lt d
  obtain ⟨f0, hh, mm⟩ := top (n := N) (op := 2) hd (r := a.enc * 32768 + b.enc * 512 + d.enc * 8 + 5) (by omega) (by omega) (by omega)
  obtain ⟨f1, mm⟩ := cut (K := 32768) 20 15 (a.enc) (b.enc * 512 + d.enc * 8 + 5) mm (by norm_num) (by norm_num) (by omega) (by omega) (by omega)
  obtain ⟨f2, mm⟩ := cut (K := 512) 14 9 (b.enc) (d.enc * 8 + 5) mm (by norm_num) (by norm_num) (by omega) (by omega) (by omega)
  obtain ⟨f3, mm⟩ := cut (K := 8) 8 3 (d.enc) (5) mm (by norm_num) (by norm_num) (by omega) (by omega) (by omega)
  obtain ⟨f4, mm⟩ := cut (K := 1) 2 0 (5) (0) mm (by norm_num) (by norm_num) (by omega) (by omega) (by omega)
  rw [decInt3_of f0, decInt3, f4]
  simp [hh, f1, f2, f3, src_dec_enc, mk_of h]
theorem perm (hd : Hd) (a : Src) (b : Src) (d : Src) : Statement (.perm hd a b d) := by
  intro _ h
  obtain ⟨N, eq⟩ : ∃ N, N = encodeNat (.perm hd a b d) := ⟨_, rfl⟩
  rw [← eq]
  replace eq : N = 0x4000006 + hd.enc + a.enc * 32768 + b.enc * 512 + d.enc * 8 := eq
  have la := src_lt a; have lb := src_lt b; have ld := src_lt d
  obtain ⟨f0, hh, mm⟩ := top (n := N) (op := 2) hd (r := a.enc * 32768 + b.enc * 512 + d.enc * 8 + 6) (by omega) (by omega) (by omega)
  obtain ⟨f1, mm⟩ := cut (K := 32768) 20 15 (a.enc) (b.enc * 512 + d.enc * 8 + 6) mm (by norm_num) (by norm_num) (by omega) (by omega) (by omega)
  obtain ⟨f2, mm⟩ := cut (K := 512) 14 9 (b.enc) (d.enc * 8 + 6) mm (by norm_num) (by norm_num) (by omega) (by omega) (by omega)
  obtain ⟨f3, mm⟩ := cut (K := 8) 8 3 (d.enc) (6) mm (by norm_num) (by norm_num) (by omega) (by omega) (by omega)
  obtain ⟨f4, mm⟩ := cut (K := 1) 2 0 (6) (0) mm (by norm_num) (by norm_num) (by omega) (by omega) (by omega)
  rw [decInt3_of f0, decInt3, f4]
  simp [hh, f1, f2, f3, src_dec_enc, mk_of h]
theorem lea (hd : Hd) (a : Src) (b : Src) (d : Src) : Statement (.lea hd a b d) := by
  intro _ h
  obtain ⟨N, eq⟩ : ∃ N, N = encodeNat (.lea hd a b d) := ⟨_, rfl⟩
  rw [← eq]
  replace eq : N = 0x4000007 + hd.enc + a.enc * 32768 + b.enc * 512 + d.enc * 8 := eq
  have la := src_lt a; have lb := src_lt b; have ld := src_lt d
  obtain ⟨f0, hh, mm⟩ := top (n := N) (op := 2) hd (r := a.enc * 32768 + b.enc * 512 + d.enc * 8 + 7) (by omega) (by omega) (by omega)
  obtain ⟨f1, mm⟩ := cut (K := 32768) 20 15 (a.enc) (b.enc * 512 + d.enc * 8 + 7) mm (by norm_num) (by norm_num) (by omega) (by omega) (by omega)
  obtain ⟨f2, mm⟩ := cut (K := 512) 14 9 (b.enc) (d.enc * 8 + 7) mm (by norm_num) (by norm_num) (by omega) (by omega) (by omega)
  obtain ⟨f3, mm⟩ := cut (K := 8) 8 3 (d.enc) (7) mm (by norm_num) (by norm_num) (by omega) (by omega) (by omega)
  obtain ⟨f4, mm⟩ := cut (K := 1) 2 0 (7) (0) mm (by norm_num) (by norm_num) (by omega) (by omega) (by omega)
  rw [decInt3_of f0, decInt3, f4]
  simp [hh, f1, f2, f3, src_dec_enc, mk_of h]
theorem addImm (hd : Hd) (a : Src) (i : BitVec 12) : Statement (.addImm hd a i) := by
  intro _ h
  obtain ⟨N, eq⟩ : ∃ N, N = encodeNat (.addImm hd a i) := ⟨_, rfl⟩
  rw [← eq]
  replace eq : N = 0x6000000 + hd.enc + a.enc * 32768 + i.toNat * 8 := eq
  have la := src_lt a; have li := i.isLt
  obtain ⟨f0, hh, mm⟩ := top (n := N) (op := 3) hd (r := a.enc * 32768 + i.toNat * 8) (by omega) (by omega) (by omega)
  obtain ⟨f1, mm⟩ := cut (K := 32768) 20 15 (a.enc) (i.toNat * 8) mm (by norm_num) (by norm_num) (by omega) (by omega) (by omega)
  obtain ⟨f2, mm⟩ := cut (K := 8) 14 3 (i.toNat) (0) mm (by norm_num) (by norm_num) (by omega) (by omega) (by omega)
  obtain ⟨f3, mm⟩ := cut (K := 1) 2 0 (0) (0) mm (by norm_num) (by norm_num) (by omega) (by omega) (by omega)
  rw [decInti_of f0, decInti, f3]
  simp [hh, f1, f2, BitVec.ofNat_toNat, BitVec.setWidth_eq, src_dec_enc, mk_of h]
theorem andImm (hd : Hd) (a : Src) (i : BitVec 12) : Statement (.andImm hd a i) := by
  intro _ h
  obtain ⟨N, eq⟩ : ∃ N, N = encodeNat (.andImm hd a i) := ⟨_, rfl⟩
  rw [← eq]
  replace eq : N = 0x6000001 + hd.enc + a.enc * 32768 + i.toNat * 8 := eq
  have la := src_lt a; have li := i.isLt
  obtain ⟨f0, hh, mm⟩ := top (n := N) (op := 3) hd (r := a.enc * 32768 + i.toNat * 8 + 1) (by omega) (by omega) (by omega)
  obtain ⟨f1, mm⟩ := cut (K := 32768) 20 15 (a.enc) (i.toNat * 8 + 1) mm (by norm_num) (by norm_num) (by omega) (by omega) (by omega)
  obtain ⟨f2, mm⟩ := cut (K := 8) 14 3 (i.toNat) (1) mm (by norm_num) (by norm_num) (by omega) (by omega) (by omega)
  obtain ⟨f3, mm⟩ := cut (K := 1) 2 0 (1) (0) mm (by norm_num) (by norm_num) (by omega) (by omega) (by omega)
  rw [decInti_of f0, decInti, f3]
  simp [hh, f1, f2, BitVec.ofNat_toNat, BitVec.setWidth_eq, src_dec_enc, mk_of h]
theorem orImm (hd : Hd) (a : Src) (i : BitVec 12) : Statement (.orImm hd a i) := by
  intro _ h
  obtain ⟨N, eq⟩ : ∃ N, N = encodeNat (.orImm hd a i) := ⟨_, rfl⟩
  rw [← eq]
  replace eq : N = 0x6000002 + hd.enc + a.enc * 32768 + i.toNat * 8 := eq
  have la := src_lt a; have li := i.isLt
  obtain ⟨f0, hh, mm⟩ := top (n := N) (op := 3) hd (r := a.enc * 32768 + i.toNat * 8 + 2) (by omega) (by omega) (by omega)
  obtain ⟨f1, mm⟩ := cut (K := 32768) 20 15 (a.enc) (i.toNat * 8 + 2) mm (by norm_num) (by norm_num) (by omega) (by omega) (by omega)
  obtain ⟨f2, mm⟩ := cut (K := 8) 14 3 (i.toNat) (2) mm (by norm_num) (by norm_num) (by omega) (by omega) (by omega)
  obtain ⟨f3, mm⟩ := cut (K := 1) 2 0 (2) (0) mm (by norm_num) (by norm_num) (by omega) (by omega) (by omega)
  rw [decInti_of f0, decInti, f3]
  simp [hh, f1, f2, BitVec.ofNat_toNat, BitVec.setWidth_eq, src_dec_enc, mk_of h]
theorem xorImm (hd : Hd) (a : Src) (i : BitVec 12) : Statement (.xorImm hd a i) := by
  intro _ h
  obtain ⟨N, eq⟩ : ∃ N, N = encodeNat (.xorImm hd a i) := ⟨_, rfl⟩
  rw [← eq]
  replace eq : N = 0x6000003 + hd.enc + a.enc * 32768 + i.toNat * 8 := eq
  have la := src_lt a; have li := i.isLt
  obtain ⟨f0, hh, mm⟩ := top (n := N) (op := 3) hd (r := a.enc * 32768 + i.toNat * 8 + 3) (by omega) (by omega) (by omega)
  obtain ⟨f1, mm⟩ := cut (K := 32768) 20 15 (a.enc) (i.toNat * 8 + 3) mm (by norm_num) (by norm_num) (by omega) (by omega) (by omega)
  obtain ⟨f2, mm⟩ := cut (K := 8) 14 3 (i.toNat) (3) mm (by norm_num) (by norm_num) (by omega) (by omega) (by omega)
  obtain ⟨f3, mm⟩ := cut (K := 1) 2 0 (3) (0) mm (by norm_num) (by norm_num) (by omega) (by omega) (by omega)
  rw [decInti_of f0, decInti, f3]
  simp [hh, f1, f2, BitVec.ofNat_toNat, BitVec.setWidth_eq, src_dec_enc, mk_of h]
theorem shlImm (hd : Hd) (a : Src) (i : BitVec 12) : Statement (.shlImm hd a i) := by
  intro _ h
  obtain ⟨N, eq⟩ : ∃ N, N = encodeNat (.shlImm hd a i) := ⟨_, rfl⟩
  rw [← eq]
  replace eq : N = 0x6000004 + hd.enc + a.enc * 32768 + i.toNat * 8 := eq
  have la := src_lt a; have li := i.isLt
  obtain ⟨f0, hh, mm⟩ := top (n := N) (op := 3) hd (r := a.enc * 32768 + i.toNat * 8 + 4) (by omega) (by omega) (by omega)
  obtain ⟨f1, mm⟩ := cut (K := 32768) 20 15 (a.enc) (i.toNat * 8 + 4) mm (by norm_num) (by norm_num) (by omega) (by omega) (by omega)
  obtain ⟨f2, mm⟩ := cut (K := 8) 14 3 (i.toNat) (4) mm (by norm_num) (by norm_num) (by omega) (by omega) (by omega)
  obtain ⟨f3, mm⟩ := cut (K := 1) 2 0 (4) (0) mm (by norm_num) (by norm_num) (by omega) (by omega) (by omega)
  rw [decInti_of f0, decInti, f3]
  simp [hh, f1, f2, BitVec.ofNat_toNat, BitVec.setWidth_eq, src_dec_enc, mk_of h]
theorem shrImm (hd : Hd) (a : Src) (i : BitVec 12) : Statement (.shrImm hd a i) := by
  intro _ h
  obtain ⟨N, eq⟩ : ∃ N, N = encodeNat (.shrImm hd a i) := ⟨_, rfl⟩
  rw [← eq]
  replace eq : N = 0x6000005 + hd.enc + a.enc * 32768 + i.toNat * 8 := eq
  have la := src_lt a; have li := i.isLt
  obtain ⟨f0, hh, mm⟩ := top (n := N) (op := 3) hd (r := a.enc * 32768 + i.toNat * 8 + 5) (by omega) (by omega) (by omega)
  obtain ⟨f1, mm⟩ := cut (K := 32768) 20 15 (a.enc) (i.toNat * 8 + 5) mm (by norm_num) (by norm_num) (by omega) (by omega) (by omega)
  obtain ⟨f2, mm⟩ := cut (K := 8) 14 3 (i.toNat) (5) mm (by norm_num) (by norm_num) (by omega) (by omega) (by omega)
  obtain ⟨f3, mm⟩ := cut (K := 1) 2 0 (5) (0) mm (by norm_num) (by norm_num) (by omega) (by omega) (by omega)
  rw [decInti_of f0, decInti, f3]
  simp [hh, f1, f2, BitVec.ofNat_toNat, BitVec.setWidth_eq, src_dec_enc, mk_of h]
theorem sarImm (hd : Hd) (a : Src) (i : BitVec 12) : Statement (.sarImm hd a i) := by
  intro _ h
  obtain ⟨N, eq⟩ : ∃ N, N = encodeNat (.sarImm hd a i) := ⟨_, rfl⟩
  rw [← eq]
  replace eq : N = 0x6000006 + hd.enc + a.enc * 32768 + i.toNat * 8 := eq
  have la := src_lt a; have li := i.isLt
  obtain ⟨f0, hh, mm⟩ := top (n := N) (op := 3) hd (r := a.enc * 32768 + i.toNat * 8 + 6) (by omega) (by omega) (by omega)
  obtain ⟨f1, mm⟩ := cut (K := 32768) 20 15 (a.enc) (i.toNat * 8 + 6) mm (by norm_num) (by norm_num) (by omega) (by omega) (by omega)
  obtain ⟨f2, mm⟩ := cut (K := 8) 14 3 (i.toNat) (6) mm (by norm_num) (by norm_num) (by omega) (by omega) (by omega)
  obtain ⟨f3, mm⟩ := cut (K := 1) 2 0 (6) (0) mm (by norm_num) (by norm_num) (by omega) (by omega) (by omega)
  rw [decInti_of f0, decInti, f3]
  simp [hh, f1, f2, BitVec.ofNat_toNat, BitVec.setWidth_eq, src_dec_enc, mk_of h]
theorem mulImm (hd : Hd) (a : Src) (i : BitVec 12) : Statement (.mulImm hd a i) := by
  intro _ h
  obtain ⟨N, eq⟩ : ∃ N, N = encodeNat (.mulImm hd a i) := ⟨_, rfl⟩
  rw [← eq]
  replace eq : N = 0x6000007 + hd.enc + a.enc * 32768 + i.toNat * 8 := eq
  have la := src_lt a; have li := i.isLt
  obtain ⟨f0, hh, mm⟩ := top (n := N) (op := 3) hd (r := a.enc * 32768 + i.toNat * 8 + 7) (by omega) (by omega) (by omega)
  obtain ⟨f1, mm⟩ := cut (K := 32768) 20 15 (a.enc) (i.toNat * 8 + 7) mm (by norm_num) (by norm_num) (by omega) (by omega) (by omega)
  obtain ⟨f2, mm⟩ := cut (K := 8) 14 3 (i.toNat) (7) mm (by norm_num) (by norm_num) (by omega) (by omega) (by omega)
  obtain ⟨f3, mm⟩ := cut (K := 1) 2 0 (7) (0) mm (by norm_num) (by norm_num) (by omega) (by omega) (by omega)
  rw [decInti_of f0, decInti, f3]
  simp [hh, f1, f2, BitVec.ofNat_toNat, BitVec.setWidth_eq, src_dec_enc, mk_of h]
theorem cmp (hd : Hd) (a : Src) (b : Src) (p : Fin 8) (r : Rel) (u : Bool) (w : Bool) (n : Bool) : Statement (.cmp hd a b p r u w n) := by
  intro _ h
  obtain ⟨N, eq⟩ : ∃ N, N = encodeNat (.cmp hd a b p r u w n) := ⟨_, rfl⟩
  rw [← eq]
  replace eq : N = 0x8000000 + hd.enc + a.enc * 32768 + b.enc * 512 + p.val * 64 + r.enc * 8 + b2n u * 4 + b2n w * 2 + b2n n := eq
  have la := src_lt a; have lb := src_lt b; have lp := p.isLt; have lr := rel_lt r; have lu := b2n_lt u; have lw := b2n_lt w; have ln := b2n_lt n
  obtain ⟨f0, hh, mm⟩ := top (n := N) (op := 4) hd (r := a.enc * 32768 + b.enc * 512 + p.val * 64 + r.enc * 8 + b2n u * 4 + b2n w * 2 + b2n n) (by omega) (by omega) (by omega)
  obtain ⟨f1, mm⟩ := cut (K := 32768) 20 15 (a.enc) (b.enc * 512 + p.val * 64 + r.enc * 8 + b2n u * 4 + b2n w * 2 + b2n n) mm (by norm_num) (by norm_num) (by omega) (by omega) (by omega)
  obtain ⟨f2, mm⟩ := cut (K := 512) 14 9 (b.enc) (p.val * 64 + r.enc * 8 + b2n u * 4 + b2n w * 2 + b2n n) mm (by norm_num) (by norm_num) (by omega) (by omega) (by omega)
  obtain ⟨f3, mm⟩ := cut (K := 64) 8 6 (p.val) (r.enc * 8 + b2n u * 4 + b2n w * 2 + b2n n) mm (by norm_num) (by norm_num) (by omega) (by omega) (by omega)
  obtain ⟨f4, mm⟩ := cut (K := 8) 5 3 (r.enc) (b2n u * 4 + b2n w * 2 + b2n n) mm (by norm_num) (by norm_num) (by omega) (by omega) (by omega)
  obtain ⟨f5, mm⟩ := cut (K := 4) 2 2 (b2n u) (b2n w * 2 + b2n n) mm (by norm_num) (by norm_num) (by omega) (by omega) (by omega)
  obtain ⟨f6, mm⟩ := cut (K := 2) 1 1 (b2n w) (b2n n) mm (by norm_num) (by norm_num) (by omega) (by omega) (by omega)
  obtain ⟨f7, mm⟩ := cut (K := 1) 0 0 (b2n n) (0) mm (by norm_num) (by norm_num) (by omega) (by omega) (by omega)
  rw [decCmp_of f0]
  simp [decCmp, hh, f1, f2, f3, f4, bit_of f5, bit_of f6, bit_of f7, rel_dec_enc, src_dec_enc, ok_bind, mk_of h]
theorem fcmp (hd : Hd) (a : Src) (b : Src) (p : Fin 8) (r : FRel) (n : Bool) : Statement (.fcmp hd a b p r n) := by
  intro _ h
  obtain ⟨N, eq⟩ : ∃ N, N = encodeNat (.fcmp hd a b p r n) := ⟨_, rfl⟩
  rw [← eq]
  replace eq : N = 0xa000000 + hd.enc + a.enc * 32768 + b.enc * 512 + p.val * 64 + r.enc * 8 + b2n n := eq
  have la := src_lt a; have lb := src_lt b; have lp := p.isLt; have lr := frel_lt r; have ln := b2n_lt n
  obtain ⟨f0, hh, mm⟩ := top (n := N) (op := 5) hd (r := a.enc * 32768 + b.enc * 512 + p.val * 64 + r.enc * 8 + b2n n) (by omega) (by omega) (by omega)
  obtain ⟨f1, mm⟩ := cut (K := 32768) 20 15 (a.enc) (b.enc * 512 + p.val * 64 + r.enc * 8 + b2n n) mm (by norm_num) (by norm_num) (by omega) (by omega) (by omega)
  obtain ⟨f2, mm⟩ := cut (K := 512) 14 9 (b.enc) (p.val * 64 + r.enc * 8 + b2n n) mm (by norm_num) (by norm_num) (by omega) (by omega) (by omega)
  obtain ⟨f3, mm⟩ := cut (K := 64) 8 6 (p.val) (r.enc * 8 + b2n n) mm (by norm_num) (by norm_num) (by omega) (by omega) (by omega)
  obtain ⟨f4, mm⟩ := cut (K := 8) 5 3 (r.enc) (b2n n) mm (by norm_num) (by norm_num) (by omega) (by omega) (by omega)
  obtain ⟨f5, mm⟩ := cut (K := 2) 2 1 (0) (b2n n) mm (by norm_num) (by norm_num) (by omega) (by omega) (by omega)
  obtain ⟨f6, mm⟩ := cut (K := 1) 0 0 (b2n n) (0) mm (by norm_num) (by norm_num) (by omega) (by omega) (by omega)
  rw [decFcmp_of f0, decFcmp, f5]
  simp [hh, f1, f2, f3, f4, bit_of f6, frel_dec_enc, src_dec_enc, mk_of h]
theorem dcmp (hd : Hd) (a : Src) (b : Src) (p : Fin 8) (r : FRel) (n : Bool) : Statement (.dcmp hd a b p r n) := by
  intro _ h
  obtain ⟨N, eq⟩ : ∃ N, N = encodeNat (.dcmp hd a b p r n) := ⟨_, rfl⟩
  rw [← eq]
  replace eq : N = 0xa000002 + hd.enc + a.enc * 32768 + b.enc * 512 + p.val * 64 + r.enc * 8 + b2n n := eq
  have la := src_lt a; have lb := src_lt b; have lp := p.isLt; have lr := frel_lt r; have ln := b2n_lt n
  obtain ⟨f0, hh, mm⟩ := top (n := N) (op := 5) hd (r := a.enc * 32768 + b.enc * 512 + p.val * 64 + r.enc * 8 + b2n n + 2) (by omega) (by omega) (by omega)
  obtain ⟨f1, mm⟩ := cut (K := 32768) 20 15 (a.enc) (b.enc * 512 + p.val * 64 + r.enc * 8 + b2n n + 2) mm (by norm_num) (by norm_num) (by omega) (by omega) (by omega)
  obtain ⟨f2, mm⟩ := cut (K := 512) 14 9 (b.enc) (p.val * 64 + r.enc * 8 + b2n n + 2) mm (by norm_num) (by norm_num) (by omega) (by omega) (by omega)
  obtain ⟨f3, mm⟩ := cut (K := 64) 8 6 (p.val) (r.enc * 8 + b2n n + 2) mm (by norm_num) (by norm_num) (by omega) (by omega) (by omega)
  obtain ⟨f4, mm⟩ := cut (K := 8) 5 3 (r.enc) (b2n n + 2) mm (by norm_num) (by norm_num) (by omega) (by omega) (by omega)
  obtain ⟨f5, mm⟩ := cut (K := 2) 2 1 (1) (b2n n) mm (by norm_num) (by norm_num) (by omega) (by omega) (by omega)
  obtain ⟨f6, mm⟩ := cut (K := 1) 0 0 (b2n n) (0) mm (by norm_num) (by norm_num) (by omega) (by omega) (by omega)
  rw [decFcmp_of f0, decFcmp, f5]
  simp [hh, f1, f2, f3, f4, bit_of f6, frel_dec_enc, src_dec_enc, mk_of h]
theorem fcmpH (hd : Hd) (a : Src) (b : Src) (p : Fin 8) (r : FRel) (n : Bool) : Statement (.fcmpH hd a b p r n) := by
  intro _ h
  obtain ⟨N, eq⟩ : ∃ N, N = encodeNat (.fcmpH hd a b p r n) := ⟨_, rfl⟩
  rw [← eq]
  replace eq : N = 0xa000004 + hd.enc + a.enc * 32768 + b.enc * 512 + p.val * 64 + r.enc * 8 + b2n n := eq
  have la := src_lt a; have lb := src_lt b; have lp := p.isLt; have lr := frel_lt r; have ln := b2n_lt n
  obtain ⟨f0, hh, mm⟩ := top (n := N) (op := 5) hd (r := a.enc * 32768 + b.enc * 512 + p.val * 64 + r.enc * 8 + b2n n + 4) (by omega) (by omega) (by omega)
  obtain ⟨f1, mm⟩ := cut (K := 32768) 20 15 (a.enc) (b.enc * 512 + p.val * 64 + r.enc * 8 + b2n n + 4) mm (by norm_num) (by norm_num) (by omega) (by omega) (by omega)
  obtain ⟨f2, mm⟩ := cut (K := 512) 14 9 (b.enc) (p.val * 64 + r.enc * 8 + b2n n + 4) mm (by norm_num) (by norm_num) (by omega) (by omega) (by omega)
  obtain ⟨f3, mm⟩ := cut (K := 64) 8 6 (p.val) (r.enc * 8 + b2n n + 4) mm (by norm_num) (by norm_num) (by omega) (by omega) (by omega)
  obtain ⟨f4, mm⟩ := cut (K := 8) 5 3 (r.enc) (b2n n + 4) mm (by norm_num) (by norm_num) (by omega) (by omega) (by omega)
  obtain ⟨f5, mm⟩ := cut (K := 2) 2 1 (2) (b2n n) mm (by norm_num) (by norm_num) (by omega) (by omega) (by omega)
  obtain ⟨f6, mm⟩ := cut (K := 1) 0 0 (b2n n) (0) mm (by norm_num) (by norm_num) (by omega) (by omega) (by omega)
  rw [decFcmp_of f0, decFcmp, f5]
  simp [hh, f1, f2, f3, f4, bit_of f6, frel_dec_enc, src_dec_enc, mk_of h]
theorem plop (hd : Hd) (x : Fin 8) (y : Fin 8) (p : Fin 8) (t : BitVec 8) : Statement (.plop hd x y p t) := by
  intro _ h
  obtain ⟨N, eq⟩ : ∃ N, N = encodeNat (.plop hd x y p t) := ⟨_, rfl⟩
  rw [← eq]
  replace eq : N = 0xc000000 + hd.enc + x.val * 262144 + y.val * 32768 + p.val * 4096 + t.toNat * 16 := eq
  have lx := x.isLt; have ly := y.isLt; have lp := p.isLt; have lt := t.isLt
  obtain ⟨f0, hh, mm⟩ := top (n := N) (op := 6) hd (r := x.val * 262144 + y.val * 32768 + p.val * 4096 + t.toNat * 16) (by omega) (by omega) (by omega)
  obtain ⟨f1, mm⟩ := cut (K := 262144) 20 18 (x.val) (y.val * 32768 + p.val * 4096 + t.toNat * 16) mm (by norm_num) (by norm_num) (by omega) (by omega) (by omega)
  obtain ⟨f2, mm⟩ := cut (K := 32768) 17 15 (y.val) (p.val * 4096 + t.toNat * 16) mm (by norm_num) (by norm_num) (by omega) (by omega) (by omega)
  obtain ⟨f3, mm⟩ := cut (K := 4096) 14 12 (p.val) (t.toNat * 16) mm (by norm_num) (by norm_num) (by omega) (by omega) (by omega)
  obtain ⟨f4, mm⟩ := cut (K := 16) 11 4 (t.toNat) (0) mm (by norm_num) (by norm_num) (by omega) (by omega) (by omega)
  obtain ⟨f5, mm⟩ := cut (K := 1) 3 0 (0) (0) mm (by norm_num) (by norm_num) (by omega) (by omega) (by omega)
  rw [decPred_of f0, decPred, f5]
  simp [hh, f1, f2, f3, f4, BitVec.ofNat_toNat, BitVec.setWidth_eq, mk_of h]
theorem packp (hd : Hd) : Statement (.packp hd) := by
  intro _ h
  obtain ⟨N, eq⟩ : ∃ N, N = encodeNat (.packp hd) := ⟨_, rfl⟩
  rw [← eq]
  replace eq : N = 0xc000001 + hd.enc := eq
  obtain ⟨f0, hh, mm⟩ := top (n := N) (op := 6) hd (r := 1) (by omega) (by omega) (by omega)
  obtain ⟨f1, mm⟩ := cut (K := 16) 20 4 (0) (1) mm (by norm_num) (by norm_num) (by omega) (by omega) (by omega)
  obtain ⟨f2, mm⟩ := cut (K := 1) 3 0 (1) (0) mm (by norm_num) (by norm_num) (by omega) (by omega) (by omega)
  rw [decPred_of f0, decPred, f2]
  simp [hh, f1, need, mk_of h]
theorem fadd (hd : Hd) (a : Src) (b : Src) (r : RM) : Statement (.fadd hd a b r) := by
  intro _ h
  obtain ⟨N, eq⟩ : ∃ N, N = encodeNat (.fadd hd a b r) := ⟨_, rfl⟩
  rw [← eq]
  replace eq : N = 0xe000000 + hd.enc + a.enc * 32768 + b.enc * 512 + r.enc := eq
  have la := src_lt a; have lb := src_lt b; have lr := rm_lt r
  obtain ⟨f0, hh, mm⟩ := top (n := N) (op := 7) hd (r := a.enc * 32768 + b.enc * 512 + r.enc) (by omega) (by omega) (by omega)
  obtain ⟨f1, mm⟩ := cut (K := 32768) 20 15 (a.enc) (b.enc * 512 + r.enc) mm (by norm_num) (by norm_num) (by omega) (by omega) (by omega)
  obtain ⟨f2, mm⟩ := cut (K := 512) 14 9 (b.enc) (r.enc) mm (by norm_num) (by norm_num) (by omega) (by omega) (by omega)
  obtain ⟨f3, mm⟩ := cut (K := 8) 8 3 (0) (r.enc) mm (by norm_num) (by norm_num) (by omega) (by omega) (by omega)
  obtain ⟨f4, mm⟩ := cut (K := 1) 2 0 (r.enc) (0) mm (by norm_num) (by norm_num) (by omega) (by omega) (by omega)
  rw [decFalu2_of f0, decFalu2, f3]
  simp [hh, f1, f2, f4, rm_dec_enc, src_dec_enc, ok_bind, mk_of h]
theorem fsub (hd : Hd) (a : Src) (b : Src) (r : RM) : Statement (.fsub hd a b r) := by
  intro _ h
  obtain ⟨N, eq⟩ : ∃ N, N = encodeNat (.fsub hd a b r) := ⟨_, rfl⟩
  rw [← eq]
  replace eq : N = 0xe000008 + hd.enc + a.enc * 32768 + b.enc * 512 + r.enc := eq
  have la := src_lt a; have lb := src_lt b; have lr := rm_lt r
  obtain ⟨f0, hh, mm⟩ := top (n := N) (op := 7) hd (r := a.enc * 32768 + b.enc * 512 + r.enc + 8) (by omega) (by omega) (by omega)
  obtain ⟨f1, mm⟩ := cut (K := 32768) 20 15 (a.enc) (b.enc * 512 + r.enc + 8) mm (by norm_num) (by norm_num) (by omega) (by omega) (by omega)
  obtain ⟨f2, mm⟩ := cut (K := 512) 14 9 (b.enc) (r.enc + 8) mm (by norm_num) (by norm_num) (by omega) (by omega) (by omega)
  obtain ⟨f3, mm⟩ := cut (K := 8) 8 3 (1) (r.enc) mm (by norm_num) (by norm_num) (by omega) (by omega) (by omega)
  obtain ⟨f4, mm⟩ := cut (K := 1) 2 0 (r.enc) (0) mm (by norm_num) (by norm_num) (by omega) (by omega) (by omega)
  rw [decFalu2_of f0, decFalu2, f3]
  simp [hh, f1, f2, f4, rm_dec_enc, src_dec_enc, ok_bind, mk_of h]
theorem fmul (hd : Hd) (a : Src) (b : Src) (r : RM) : Statement (.fmul hd a b r) := by
  intro _ h
  obtain ⟨N, eq⟩ : ∃ N, N = encodeNat (.fmul hd a b r) := ⟨_, rfl⟩
  rw [← eq]
  replace eq : N = 0xe000010 + hd.enc + a.enc * 32768 + b.enc * 512 + r.enc := eq
  have la := src_lt a; have lb := src_lt b; have lr := rm_lt r
  obtain ⟨f0, hh, mm⟩ := top (n := N) (op := 7) hd (r := a.enc * 32768 + b.enc * 512 + r.enc + 16) (by omega) (by omega) (by omega)
  obtain ⟨f1, mm⟩ := cut (K := 32768) 20 15 (a.enc) (b.enc * 512 + r.enc + 16) mm (by norm_num) (by norm_num) (by omega) (by omega) (by omega)
  obtain ⟨f2, mm⟩ := cut (K := 512) 14 9 (b.enc) (r.enc + 16) mm (by norm_num) (by norm_num) (by omega) (by omega) (by omega)
  obtain ⟨f3, mm⟩ := cut (K := 8) 8 3 (2) (r.enc) mm (by norm_num) (by norm_num) (by omega) (by omega) (by omega)
  obtain ⟨f4, mm⟩ := cut (K := 1) 2 0 (r.enc) (0) mm (by norm_num) (by norm_num) (by omega) (by omega) (by omega)
  rw [decFalu2_of f0, decFalu2, f3]
  simp [hh, f1, f2, f4, rm_dec_enc, src_dec_enc, ok_bind, mk_of h]
theorem fmin (hd : Hd) (a : Src) (b : Src) : Statement (.fmin hd a b) := by
  intro _ h
  obtain ⟨N, eq⟩ : ∃ N, N = encodeNat (.fmin hd a b) := ⟨_, rfl⟩
  rw [← eq]
  replace eq : N = 0xe000018 + hd.enc + a.enc * 32768 + b.enc * 512 := eq
  have la := src_lt a; have lb := src_lt b
  obtain ⟨f0, hh, mm⟩ := top (n := N) (op := 7) hd (r := a.enc * 32768 + b.enc * 512 + 24) (by omega) (by omega) (by omega)
  obtain ⟨f1, mm⟩ := cut (K := 32768) 20 15 (a.enc) (b.enc * 512 + 24) mm (by norm_num) (by norm_num) (by omega) (by omega) (by omega)
  obtain ⟨f2, mm⟩ := cut (K := 512) 14 9 (b.enc) (24) mm (by norm_num) (by norm_num) (by omega) (by omega) (by omega)
  obtain ⟨f3, mm⟩ := cut (K := 8) 8 3 (3) (0) mm (by norm_num) (by norm_num) (by omega) (by omega) (by omega)
  obtain ⟨f4, mm⟩ := cut (K := 1) 2 0 (0) (0) mm (by norm_num) (by norm_num) (by omega) (by omega) (by omega)
  rw [decFalu2_of f0, decFalu2, f3]
  simp [hh, f1, f2, f4, src_dec_enc, need, mk_of h]
theorem fmax (hd : Hd) (a : Src) (b : Src) : Statement (.fmax hd a b) := by
  intro _ h
  obtain ⟨N, eq⟩ : ∃ N, N = encodeNat (.fmax hd a b) := ⟨_, rfl⟩
  rw [← eq]
  replace eq : N = 0xe000020 + hd.enc + a.enc * 32768 + b.enc * 512 := eq
  have la := src_lt a; have lb := src_lt b
  obtain ⟨f0, hh, mm⟩ := top (n := N) (op := 7) hd (r := a.enc * 32768 + b.enc * 512 + 32) (by omega) (by omega) (by omega)
  obtain ⟨f1, mm⟩ := cut (K := 32768) 20 15 (a.enc) (b.enc * 512 + 32) mm (by norm_num) (by norm_num) (by omega) (by omega) (by omega)
  obtain ⟨f2, mm⟩ := cut (K := 512) 14 9 (b.enc) (32) mm (by norm_num) (by norm_num) (by omega) (by omega) (by omega)
  obtain ⟨f3, mm⟩ := cut (K := 8) 8 3 (4) (0) mm (by norm_num) (by norm_num) (by omega) (by omega) (by omega)
  obtain ⟨f4, mm⟩ := cut (K := 1) 2 0 (0) (0) mm (by norm_num) (by norm_num) (by omega) (by omega) (by omega)
  rw [decFalu2_of f0, decFalu2, f3]
  simp [hh, f1, f2, f4, src_dec_enc, need, mk_of h]
theorem fminn (hd : Hd) (a : Src) (b : Src) : Statement (.fminn hd a b) := by
  intro _ h
  obtain ⟨N, eq⟩ : ∃ N, N = encodeNat (.fminn hd a b) := ⟨_, rfl⟩
  rw [← eq]
  replace eq : N = 0xe000028 + hd.enc + a.enc * 32768 + b.enc * 512 := eq
  have la := src_lt a; have lb := src_lt b
  obtain ⟨f0, hh, mm⟩ := top (n := N) (op := 7) hd (r := a.enc * 32768 + b.enc * 512 + 40) (by omega) (by omega) (by omega)
  obtain ⟨f1, mm⟩ := cut (K := 32768) 20 15 (a.enc) (b.enc * 512 + 40) mm (by norm_num) (by norm_num) (by omega) (by omega) (by omega)
  obtain ⟨f2, mm⟩ := cut (K := 512) 14 9 (b.enc) (40) mm (by norm_num) (by norm_num) (by omega) (by omega) (by omega)
  obtain ⟨f3, mm⟩ := cut (K := 8) 8 3 (5) (0) mm (by norm_num) (by norm_num) (by omega) (by omega) (by omega)
  obtain ⟨f4, mm⟩ := cut (K := 1) 2 0 (0) (0) mm (by norm_num) (by norm_num) (by omega) (by omega) (by omega)
  rw [decFalu2_of f0, decFalu2, f3]
  simp [hh, f1, f2, f4, src_dec_enc, need, mk_of h]
theorem fmaxn (hd : Hd) (a : Src) (b : Src) : Statement (.fmaxn hd a b) := by
  intro _ h
  obtain ⟨N, eq⟩ : ∃ N, N = encodeNat (.fmaxn hd a b) := ⟨_, rfl⟩
  rw [← eq]
  replace eq : N = 0xe000030 + hd.enc + a.enc * 32768 + b.enc * 512 := eq
  have la := src_lt a; have lb := src_lt b
  obtain ⟨f0, hh, mm⟩ := top (n := N) (op := 7) hd (r := a.enc * 32768 + b.enc * 512 + 48) (by omega) (by omega) (by omega)
  obtain ⟨f1, mm⟩ := cut (K := 32768) 20 15 (a.enc) (b.enc * 512 + 48) mm (by norm_num) (by norm_num) (by omega) (by omega) (by omega)
  obtain ⟨f2, mm⟩ := cut (K := 512) 14 9 (b.enc) (48) mm (by norm_num) (by norm_num) (by omega) (by omega) (by omega)
  obtain ⟨f3, mm⟩ := cut (K := 8) 8 3 (6) (0) mm (by norm_num) (by norm_num) (by omega) (by omega) (by omega)
  obtain ⟨f4, mm⟩ := cut (K := 1) 2 0 (0) (0) mm (by norm_num) (by norm_num) (by omega) (by omega) (by omega)
  rw [decFalu2_of f0, decFalu2, f3]
  simp [hh, f1, f2, f4, src_dec_enc, need, mk_of h]
theorem frnd (hd : Hd) (a : Src) (r : RM) : Statement (.frnd hd a r) := by
  intro _ h
  obtain ⟨N, eq⟩ : ∃ N, N = encodeNat (.frnd hd a r) := ⟨_, rfl⟩
  rw [← eq]
  replace eq : N = 0xe007038 + hd.enc + a.enc * 32768 + r.enc := eq
  have la := src_lt a; have lr := rm_lt r
  obtain ⟨f0, hh, mm⟩ := top (n := N) (op := 7) hd (r := a.enc * 32768 + r.enc + 28728) (by omega) (by omega) (by omega)
  obtain ⟨f1, mm⟩ := cut (K := 32768) 20 15 (a.enc) (r.enc + 28728) mm (by norm_num) (by norm_num) (by omega) (by omega) (by omega)
  obtain ⟨f2, mm⟩ := cut (K := 512) 14 9 (56) (r.enc + 56) mm (by norm_num) (by norm_num) (by omega) (by omega) (by omega)
  obtain ⟨f3, mm⟩ := cut (K := 8) 8 3 (7) (r.enc) mm (by norm_num) (by norm_num) (by omega) (by omega) (by omega)
  obtain ⟨f4, mm⟩ := cut (K := 1) 2 0 (r.enc) (0) mm (by norm_num) (by norm_num) (by omega) (by omega) (by omega)
  rw [decFalu2_of f0, decFalu2, f3]
  simp [hh, f1, f2, f4, rm_dec_enc, src_dec_enc, need, ok_bind, mk_of h]
theorem fscale (hd : Hd) (a : Src) (b : Src) (r : RM) : Statement (.fscale hd a b r) := by
  intro _ h
  obtain ⟨N, eq⟩ : ∃ N, N = encodeNat (.fscale hd a b r) := ⟨_, rfl⟩
  rw [← eq]
  replace eq : N = 0xe000040 + hd.enc + a.enc * 32768 + b.enc * 512 + r.enc := eq
  have la := src_lt a; have lb := src_lt b; have lr := rm_lt r
  obtain ⟨f0, hh, mm⟩ := top (n := N) (op := 7) hd (r := a.enc * 32768 + b.enc * 512 + r.enc + 64) (by omega) (by omega) (by omega)
  obtain ⟨f1, mm⟩ := cut (K := 32768) 20 15 (a.enc) (b.enc * 512 + r.enc + 64) mm (by norm_num) (by norm_num) (by omega) (by omega) (by omega)
  obtain ⟨f2, mm⟩ := cut (K := 512) 14 9 (b.enc) (r.enc + 64) mm (by norm_num) (by norm_num) (by omega) (by omega) (by omega)
  obtain ⟨f3, mm⟩ := cut (K := 8) 8 3 (8) (r.enc) mm (by norm_num) (by norm_num) (by omega) (by omega) (by omega)
  obtain ⟨f4, mm⟩ := cut (K := 1) 2 0 (r.enc) (0) mm (by norm_num) (by norm_num) (by omega) (by omega) (by omega)
  rw [decFalu2_of f0, decFalu2, f3]
  simp [hh, f1, f2, f4, rm_dec_enc, src_dec_enc, ok_bind, mk_of h]
theorem fgetx (hd : Hd) (a : Src) : Statement (.fgetx hd a) := by
  intro _ h
  obtain ⟨N, eq⟩ : ∃ N, N = encodeNat (.fgetx hd a) := ⟨_, rfl⟩
  rw [← eq]
  replace eq : N = 0xe007048 + hd.enc + a.enc * 32768 := eq
  have la := src_lt a
  obtain ⟨f0, hh, mm⟩ := top (n := N) (op := 7) hd (r := a.enc * 32768 + 28744) (by omega) (by omega) (by omega)
  obtain ⟨f1, mm⟩ := cut (K := 32768) 20 15 (a.enc) (28744) mm (by norm_num) (by norm_num) (by omega) (by omega) (by omega)
  obtain ⟨f2, mm⟩ := cut (K := 512) 14 9 (56) (72) mm (by norm_num) (by norm_num) (by omega) (by omega) (by omega)
  obtain ⟨f3, mm⟩ := cut (K := 8) 8 3 (9) (0) mm (by norm_num) (by norm_num) (by omega) (by omega) (by omega)
  obtain ⟨f4, mm⟩ := cut (K := 1) 2 0 (0) (0) mm (by norm_num) (by norm_num) (by omega) (by omega) (by omega)
  rw [decFalu2_of f0, decFalu2, f3]
  simp [hh, f1, f2, f4, src_dec_enc, need, mk_of h]
theorem fclass (hd : Hd) (a : Src) : Statement (.fclass hd a) := by
  intro _ h
  obtain ⟨N, eq⟩ : ∃ N, N = encodeNat (.fclass hd a) := ⟨_, rfl⟩
  rw [← eq]
  replace eq : N = 0xe007050 + hd.enc + a.enc * 32768 := eq
  have la := src_lt a
  obtain ⟨f0, hh, mm⟩ := top (n := N) (op := 7) hd (r := a.enc * 32768 + 28752) (by omega) (by omega) (by omega)
  obtain ⟨f1, mm⟩ := cut (K := 32768) 20 15 (a.enc) (28752) mm (by norm_num) (by norm_num) (by omega) (by omega) (by omega)
  obtain ⟨f2, mm⟩ := cut (K := 512) 14 9 (56) (80) mm (by norm_num) (by norm_num) (by omega) (by omega) (by omega)
  obtain ⟨f3, mm⟩ := cut (K := 8) 8 3 (10) (0) mm (by norm_num) (by norm_num) (by omega) (by omega) (by omega)
  obtain ⟨f4, mm⟩ := cut (K := 1) 2 0 (0) (0) mm (by norm_num) (by norm_num) (by omega) (by omega) (by omega)
  rw [decFalu2_of f0, decFalu2, f3]
  simp [hh, f1, f2, f4, src_dec_enc, need, mk_of h]
theorem hadd2 (hd : Hd) (a : Src) (b : Src) (r : RM) : Statement (.hadd2 hd a b r) := by
  intro _ h
  obtain ⟨N, eq⟩ : ∃ N, N = encodeNat (.hadd2 hd a b r) := ⟨_, rfl⟩
  rw [← eq]
  replace eq : N = 0xe000058 + hd.enc + a.enc * 32768 + b.enc * 512 + r.enc := eq
  have la := src_lt a; have lb := src_lt b; have lr := rm_lt r
  obtain ⟨f0, hh, mm⟩ := top (n := N) (op := 7) hd (r := a.enc * 32768 + b.enc * 512 + r.enc + 88) (by omega) (by omega) (by omega)
  obtain ⟨f1, mm⟩ := cut (K := 32768) 20 15 (a.enc) (b.enc * 512 + r.enc + 88) mm (by norm_num) (by norm_num) (by omega) (by omega) (by omega)
  obtain ⟨f2, mm⟩ := cut (K := 512) 14 9 (b.enc) (r.enc + 88) mm (by norm_num) (by norm_num) (by omega) (by omega) (by omega)
  obtain ⟨f3, mm⟩ := cut (K := 8) 8 3 (11) (r.enc) mm (by norm_num) (by norm_num) (by omega) (by omega) (by omega)
  obtain ⟨f4, mm⟩ := cut (K := 1) 2 0 (r.enc) (0) mm (by norm_num) (by norm_num) (by omega) (by omega) (by omega)
  rw [decFalu2_of f0, decFalu2, f3]
  simp [hh, f1, f2, f4, rm_dec_enc, src_dec_enc, ok_bind, mk_of h]
theorem hmul2 (hd : Hd) (a : Src) (b : Src) (r : RM) : Statement (.hmul2 hd a b r) := by
  intro _ h
  obtain ⟨N, eq⟩ : ∃ N, N = encodeNat (.hmul2 hd a b r) := ⟨_, rfl⟩
  rw [← eq]
  replace eq : N = 0xe000060 + hd.enc + a.enc * 32768 + b.enc * 512 + r.enc := eq
  have la := src_lt a; have lb := src_lt b; have lr := rm_lt r
  obtain ⟨f0, hh, mm⟩ := top (n := N) (op := 7) hd (r := a.enc * 32768 + b.enc * 512 + r.enc + 96) (by omega) (by omega) (by omega)
  obtain ⟨f1, mm⟩ := cut (K := 32768) 20 15 (a.enc) (b.enc * 512 + r.enc + 96) mm (by norm_num) (by norm_num) (by omega) (by omega) (by omega)
  obtain ⟨f2, mm⟩ := cut (K := 512) 14 9 (b.enc) (r.enc + 96) mm (by norm_num) (by norm_num) (by omega) (by omega) (by omega)
  obtain ⟨f3, mm⟩ := cut (K := 8) 8 3 (12) (r.enc) mm (by norm_num) (by norm_num) (by omega) (by omega) (by omega)
  obtain ⟨f4, mm⟩ := cut (K := 1) 2 0 (r.enc) (0) mm (by norm_num) (by norm_num) (by omega) (by omega) (by omega)
  rw [decFalu2_of f0, decFalu2, f3]
  simp [hh, f1, f2, f4, rm_dec_enc, src_dec_enc, ok_bind, mk_of h]
theorem ffma (hd : Hd) (a : Src) (b : Src) (d : Src) (r : RM) : Statement (.ffma hd a b d r) := by
  intro _ h
  obtain ⟨N, eq⟩ : ∃ N, N = encodeNat (.ffma hd a b d r) := ⟨_, rfl⟩
  rw [← eq]
  replace eq : N = 0x10000000 + hd.enc + a.enc * 32768 + b.enc * 512 + d.enc * 8 + r.enc := eq
  have la := src_lt a; have lb := src_lt b; have ld := src_lt d; have lr := rm_lt r
  obtain ⟨f0, hh, mm⟩ := top (n := N) (op := 8) hd (r := a.enc * 32768 + b.enc * 512 + d.enc * 8 + r.enc) (by omega) (by omega) (by omega)
  obtain ⟨f1, mm⟩ := cut (K := 32768) 20 15 (a.enc) (b.enc * 512 + d.enc * 8 + r.enc) mm (by norm_num) (by norm_num) (by omega) (by omega) (by omega)
  obtain ⟨f2, mm⟩ := cut (K := 512) 14 9 (b.enc) (d.enc * 8 + r.enc) mm (by norm_num) (by norm_num) (by omega) (by omega) (by omega)
  obtain ⟨f3, mm⟩ := cut (K := 8) 8 3 (d.enc) (r.enc) mm (by norm_num) (by norm_num) (by omega) (by omega) (by omega)
  obtain ⟨f4, mm⟩ := cut (K := 1) 2 0 (r.enc) (0) mm (by norm_num) (by norm_num) (by omega) (by omega) (by omega)
  rw [decFalu3_of f0]
  cases r <;> simp [decFalu3, hh, f1, f2, f3, f4, src_dec_enc, ok_bind, RM.enc, RM.dec, mk_of h]
theorem fdot2 (hd : Hd) (a : Src) (b : Src) (d : Src) : Statement (.fdot2 hd a b d) := by
  intro _ h
  obtain ⟨N, eq⟩ : ∃ N, N = encodeNat (.fdot2 hd a b d) := ⟨_, rfl⟩
  rw [← eq]
  replace eq : N = 0x10000006 + hd.enc + a.enc * 32768 + b.enc * 512 + d.enc * 8 := eq
  have la := src_lt a; have lb := src_lt b; have ld := src_lt d
  obtain ⟨f0, hh, mm⟩ := top (n := N) (op := 8) hd (r := a.enc * 32768 + b.enc * 512 + d.enc * 8 + 6) (by omega) (by omega) (by omega)
  obtain ⟨f1, mm⟩ := cut (K := 32768) 20 15 (a.enc) (b.enc * 512 + d.enc * 8 + 6) mm (by norm_num) (by norm_num) (by omega) (by omega) (by omega)
  obtain ⟨f2, mm⟩ := cut (K := 512) 14 9 (b.enc) (d.enc * 8 + 6) mm (by norm_num) (by norm_num) (by omega) (by omega) (by omega)
  obtain ⟨f3, mm⟩ := cut (K := 8) 8 3 (d.enc) (6) mm (by norm_num) (by norm_num) (by omega) (by omega) (by omega)
  obtain ⟨f4, mm⟩ := cut (K := 1) 2 0 (6) (0) mm (by norm_num) (by norm_num) (by omega) (by omega) (by omega)
  rw [decFalu3_of f0, decFalu3, f4]
  simp [hh, f1, f2, f3, src_dec_enc, mk_of h]
theorem fdot2Bf (hd : Hd) (a : Src) (b : Src) (d : Src) : Statement (.fdot2Bf hd a b d) := by
  intro _ h
  obtain ⟨N, eq⟩ : ∃ N, N = encodeNat (.fdot2Bf hd a b d) := ⟨_, rfl⟩
  rw [← eq]
  replace eq : N = 0x10000007 + hd.enc + a.enc * 32768 + b.enc * 512 + d.enc * 8 := eq
  have la := src_lt a; have lb := src_lt b; have ld := src_lt d
  obtain ⟨f0, hh, mm⟩ := top (n := N) (op := 8) hd (r := a.enc * 32768 + b.enc * 512 + d.enc * 8 + 7) (by omega) (by omega) (by omega)
  obtain ⟨f1, mm⟩ := cut (K := 32768) 20 15 (a.enc) (b.enc * 512 + d.enc * 8 + 7) mm (by norm_num) (by norm_num) (by omega) (by omega) (by omega)
  obtain ⟨f2, mm⟩ := cut (K := 512) 14 9 (b.enc) (d.enc * 8 + 7) mm (by norm_num) (by norm_num) (by omega) (by omega) (by omega)
  obtain ⟨f3, mm⟩ := cut (K := 8) 8 3 (d.enc) (7) mm (by norm_num) (by norm_num) (by omega) (by omega) (by omega)
  obtain ⟨f4, mm⟩ := cut (K := 1) 2 0 (7) (0) mm (by norm_num) (by norm_num) (by omega) (by omega) (by omega)
  rw [decFalu3_of f0, decFalu3, f4]
  simp [hh, f1, f2, f3, src_dec_enc, mk_of h]
theorem hfma2 (hd : Hd) (a : Src) (b : Src) (d : Src) (r : RM) : Statement (.hfma2 hd a b d r) := by
  intro _ h
  obtain ⟨N, eq⟩ : ∃ N, N = encodeNat (.hfma2 hd a b d r) := ⟨_, rfl⟩
  rw [← eq]
  replace eq : N = 0x12000000 + hd.enc + a.enc * 32768 + b.enc * 512 + d.enc * 8 + r.enc := eq
  have la := src_lt a; have lb := src_lt b; have ld := src_lt d; have lr := rm_lt r
  obtain ⟨f0, hh, mm⟩ := top (n := N) (op := 9) hd (r := a.enc * 32768 + b.enc * 512 + d.enc * 8 + r.enc) (by omega) (by omega) (by omega)
  obtain ⟨f1, mm⟩ := cut (K := 32768) 20 15 (a.enc) (b.enc * 512 + d.enc * 8 + r.enc) mm (by norm_num) (by norm_num) (by omega) (by omega) (by omega)
  obtain ⟨f2, mm⟩ := cut (K := 512) 14 9 (b.enc) (d.enc * 8 + r.enc) mm (by norm_num) (by norm_num) (by omega) (by omega) (by omega)
  obtain ⟨f3, mm⟩ := cut (K := 8) 8 3 (d.enc) (r.enc) mm (by norm_num) (by norm_num) (by omega) (by omega) (by omega)
  obtain ⟨f4, mm⟩ := cut (K := 1) 2 0 (r.enc) (0) mm (by norm_num) (by norm_num) (by omega) (by omega) (by omega)
  rw [decHalu3_of f0]
  simp [decHalu3, hh, f1, f2, f3, f4, rm_dec_enc, src_dec_enc, ok_bind, mk_of h]
theorem dadd (hd : Hd) (a : Src) (b : Src) (r : RM) : Statement (.dadd hd a b r) := by
  intro _ h
  obtain ⟨N, eq⟩ : ∃ N, N = encodeNat (.dadd hd a b r) := ⟨_, rfl⟩
  rw [← eq]
  replace eq : N = 0x14000000 + hd.enc + a.enc * 32768 + b.enc * 512 + r.enc := eq
  have la := src_lt a; have lb := src_lt b; have lr := rm_lt r
  obtain ⟨f0, hh, mm⟩ := top (n := N) (op := 10) hd (r := a.enc * 32768 + b.enc * 512 + r.enc) (by omega) (by omega) (by omega)
  obtain ⟨f1, mm⟩ := cut (K := 32768) 20 15 (a.enc) (b.enc * 512 + r.enc) mm (by norm_num) (by norm_num) (by omega) (by omega) (by omega)
  obtain ⟨f2, mm⟩ := cut (K := 512) 14 9 (b.enc) (r.enc) mm (by norm_num) (by norm_num) (by omega) (by omega) (by omega)
  obtain ⟨f3, mm⟩ := cut (K := 8) 8 3 (0) (r.enc) mm (by norm_num) (by norm_num) (by omega) (by omega) (by omega)
  obtain ⟨f4, mm⟩ := cut (K := 1) 2 0 (r.enc) (0) mm (by norm_num) (by norm_num) (by omega) (by omega) (by omega)
  rw [decDalu2_of f0, decDalu2, f3]
  simp [hh, f1, f2, f4, rm_dec_enc, src_dec_enc, ok_bind, mk_of h]
theorem dsub (hd : Hd) (a : Src) (b : Src) (r : RM) : Statement (.dsub hd a b r) := by
  intro _ h
  obtain ⟨N, eq⟩ : ∃ N, N = encodeNat (.dsub hd a b r) := ⟨_, rfl⟩
  rw [← eq]
  replace eq : N = 0x14000008 + hd.enc + a.enc * 32768 + b.enc * 512 + r.enc := eq
  have la := src_lt a; have lb := src_lt b; have lr := rm_lt r
  obtain ⟨f0, hh, mm⟩ := top (n := N) (op := 10) hd (r := a.enc * 32768 + b.enc * 512 + r.enc + 8) (by omega) (by omega) (by omega)
  obtain ⟨f1, mm⟩ := cut (K := 32768) 20 15 (a.enc) (b.enc * 512 + r.enc + 8) mm (by norm_num) (by norm_num) (by omega) (by omega) (by omega)
  obtain ⟨f2, mm⟩ := cut (K := 512) 14 9 (b.enc) (r.enc + 8) mm (by norm_num) (by norm_num) (by omega) (by omega) (by omega)
  obtain ⟨f3, mm⟩ := cut (K := 8) 8 3 (1) (r.enc) mm (by norm_num) (by norm_num) (by omega) (by omega) (by omega)
  obtain ⟨f4, mm⟩ := cut (K := 1) 2 0 (r.enc) (0) mm (by norm_num) (by norm_num) (by omega) (by omega) (by omega)
  rw [decDalu2_of f0, decDalu2, f3]
  simp [hh, f1, f2, f4, rm_dec_enc, src_dec_enc, ok_bind, mk_of h]
theorem dmul (hd : Hd) (a : Src) (b : Src) (r : RM) : Statement (.dmul hd a b r) := by
  intro _ h
  obtain ⟨N, eq⟩ : ∃ N, N = encodeNat (.dmul hd a b r) := ⟨_, rfl⟩
  rw [← eq]
  replace eq : N = 0x14000010 + hd.enc + a.enc * 32768 + b.enc * 512 + r.enc := eq
  have la := src_lt a; have lb := src_lt b; have lr := rm_lt r
  obtain ⟨f0, hh, mm⟩ := top (n := N) (op := 10) hd (r := a.enc * 32768 + b.enc * 512 + r.enc + 16) (by omega) (by omega) (by omega)
  obtain ⟨f1, mm⟩ := cut (K := 32768) 20 15 (a.enc) (b.enc * 512 + r.enc + 16) mm (by norm_num) (by norm_num) (by omega) (by omega) (by omega)
  obtain ⟨f2, mm⟩ := cut (K := 512) 14 9 (b.enc) (r.enc + 16) mm (by norm_num) (by norm_num) (by omega) (by omega) (by omega)
  obtain ⟨f3, mm⟩ := cut (K := 8) 8 3 (2) (r.enc) mm (by norm_num) (by norm_num) (by omega) (by omega) (by omega)
  obtain ⟨f4, mm⟩ := cut (K := 1) 2 0 (r.enc) (0) mm (by norm_num) (by norm_num) (by omega) (by omega) (by omega)
  rw [decDalu2_of f0, decDalu2, f3]
  simp [hh, f1, f2, f4, rm_dec_enc, src_dec_enc, ok_bind, mk_of h]
theorem dmin (hd : Hd) (a : Src) (b : Src) : Statement (.dmin hd a b) := by
  intro _ h
  obtain ⟨N, eq⟩ : ∃ N, N = encodeNat (.dmin hd a b) := ⟨_, rfl⟩
  rw [← eq]
  replace eq : N = 0x14000018 + hd.enc + a.enc * 32768 + b.enc * 512 := eq
  have la := src_lt a; have lb := src_lt b
  obtain ⟨f0, hh, mm⟩ := top (n := N) (op := 10) hd (r := a.enc * 32768 + b.enc * 512 + 24) (by omega) (by omega) (by omega)
  obtain ⟨f1, mm⟩ := cut (K := 32768) 20 15 (a.enc) (b.enc * 512 + 24) mm (by norm_num) (by norm_num) (by omega) (by omega) (by omega)
  obtain ⟨f2, mm⟩ := cut (K := 512) 14 9 (b.enc) (24) mm (by norm_num) (by norm_num) (by omega) (by omega) (by omega)
  obtain ⟨f3, mm⟩ := cut (K := 8) 8 3 (3) (0) mm (by norm_num) (by norm_num) (by omega) (by omega) (by omega)
  obtain ⟨f4, mm⟩ := cut (K := 1) 2 0 (0) (0) mm (by norm_num) (by norm_num) (by omega) (by omega) (by omega)
  rw [decDalu2_of f0, decDalu2, f3]
  simp [hh, f1, f2, f4, src_dec_enc, need, mk_of h]
theorem dmax (hd : Hd) (a : Src) (b : Src) : Statement (.dmax hd a b) := by
  intro _ h
  obtain ⟨N, eq⟩ : ∃ N, N = encodeNat (.dmax hd a b) := ⟨_, rfl⟩
  rw [← eq]
  replace eq : N = 0x14000020 + hd.enc + a.enc * 32768 + b.enc * 512 := eq
  have la := src_lt a; have lb := src_lt b
  obtain ⟨f0, hh, mm⟩ := top (n := N) (op := 10) hd (r := a.enc * 32768 + b.enc * 512 + 32) (by omega) (by omega) (by omega)
  obtain ⟨f1, mm⟩ := cut (K := 32768) 20 15 (a.enc) (b.enc * 512 + 32) mm (by norm_num) (by norm_num) (by omega) (by omega) (by omega)
  obtain ⟨f2, mm⟩ := cut (K := 512) 14 9 (b.enc) (32) mm (by norm_num) (by norm_num) (by omega) (by omega) (by omega)
  obtain ⟨f3, mm⟩ := cut (K := 8) 8 3 (4) (0) mm (by norm_num) (by norm_num) (by omega) (by omega) (by omega)
  obtain ⟨f4, mm⟩ := cut (K := 1) 2 0 (0) (0) mm (by norm_num) (by norm_num) (by omega) (by omega) (by omega)
  rw [decDalu2_of f0, decDalu2, f3]
  simp [hh, f1, f2, f4, src_dec_enc, need, mk_of h]
theorem drnd (hd : Hd) (a : Src) (r : RM) : Statement (.drnd hd a r) := by
  intro _ h
  obtain ⟨N, eq⟩ : ∃ N, N = encodeNat (.drnd hd a r) := ⟨_, rfl⟩
  rw [← eq]
  replace eq : N = 0x14007028 + hd.enc + a.enc * 32768 + r.enc := eq
  have la := src_lt a; have lr := rm_lt r
  obtain ⟨f0, hh, mm⟩ := top (n := N) (op := 10) hd (r := a.enc * 32768 + r.enc + 28712) (by omega) (by omega) (by omega)
  obtain ⟨f1, mm⟩ := cut (K := 32768) 20 15 (a.enc) (r.enc + 28712) mm (by norm_num) (by norm_num) (by omega) (by omega) (by omega)
  obtain ⟨f2, mm⟩ := cut (K := 512) 14 9 (56) (r.enc + 40) mm (by norm_num) (by norm_num) (by omega) (by omega) (by omega)
  obtain ⟨f3, mm⟩ := cut (K := 8) 8 3 (5) (r.enc) mm (by norm_num) (by norm_num) (by omega) (by omega) (by omega)
  obtain ⟨f4, mm⟩ := cut (K := 1) 2 0 (r.enc) (0) mm (by norm_num) (by norm_num) (by omega) (by omega) (by omega)
  rw [decDalu2_of f0, decDalu2, f3]
  simp [hh, f1, f2, f4, rm_dec_enc, src_dec_enc, need, ok_bind, mk_of h]
theorem dscale (hd : Hd) (a : Src) (b : Src) (r : RM) : Statement (.dscale hd a b r) := by
  intro _ h
  obtain ⟨N, eq⟩ : ∃ N, N = encodeNat (.dscale hd a b r) := ⟨_, rfl⟩
  rw [← eq]
  replace eq : N = 0x14000030 + hd.enc + a.enc * 32768 + b.enc * 512 + r.enc := eq
  have la := src_lt a; have lb := src_lt b; have lr := rm_lt r
  obtain ⟨f0, hh, mm⟩ := top (n := N) (op := 10) hd (r := a.enc * 32768 + b.enc * 512 + r.enc + 48) (by omega) (by omega) (by omega)
  obtain ⟨f1, mm⟩ := cut (K := 32768) 20 15 (a.enc) (b.enc * 512 + r.enc + 48) mm (by norm_num) (by norm_num) (by omega) (by omega) (by omega)
  obtain ⟨f2, mm⟩ := cut (K := 512) 14 9 (b.enc) (r.enc + 48) mm (by norm_num) (by norm_num) (by omega) (by omega) (by omega)
  obtain ⟨f3, mm⟩ := cut (K := 8) 8 3 (6) (r.enc) mm (by norm_num) (by norm_num) (by omega) (by omega) (by omega)
  obtain ⟨f4, mm⟩ := cut (K := 1) 2 0 (r.enc) (0) mm (by norm_num) (by norm_num) (by omega) (by omega) (by omega)
  rw [decDalu2_of f0, decDalu2, f3]
  simp [hh, f1, f2, f4, rm_dec_enc, src_dec_enc, ok_bind, mk_of h]
theorem dgetx (hd : Hd) (a : Src) : Statement (.dgetx hd a) := by
  intro _ h
  obtain ⟨N, eq⟩ : ∃ N, N = encodeNat (.dgetx hd a) := ⟨_, rfl⟩
  rw [← eq]
  replace eq : N = 0x14007038 + hd.enc + a.enc * 32768 := eq
  have la := src_lt a
  obtain ⟨f0, hh, mm⟩ := top (n := N) (op := 10) hd (r := a.enc * 32768 + 28728) (by omega) (by omega) (by omega)
  obtain ⟨f1, mm⟩ := cut (K := 32768) 20 15 (a.enc) (28728) mm (by norm_num) (by norm_num) (by omega) (by omega) (by omega)
  obtain ⟨f2, mm⟩ := cut (K := 512) 14 9 (56) (56) mm (by norm_num) (by norm_num) (by omega) (by omega) (by omega)
  obtain ⟨f3, mm⟩ := cut (K := 8) 8 3 (7) (0) mm (by norm_num) (by norm_num) (by omega) (by omega) (by omega)
  obtain ⟨f4, mm⟩ := cut (K := 1) 2 0 (0) (0) mm (by norm_num) (by norm_num) (by omega) (by omega) (by omega)
  rw [decDalu2_of f0, decDalu2, f3]
  simp [hh, f1, f2, f4, src_dec_enc, need, mk_of h]
theorem dclass (hd : Hd) (a : Src) : Statement (.dclass hd a) := by
  intro _ h
  obtain ⟨N, eq⟩ : ∃ N, N = encodeNat (.dclass hd a) := ⟨_, rfl⟩
  rw [← eq]
  replace eq : N = 0x14007040 + hd.enc + a.enc * 32768 := eq
  have la := src_lt a
  obtain ⟨f0, hh, mm⟩ := top (n := N) (op := 10) hd (r := a.enc * 32768 + 28736) (by omega) (by omega) (by omega)
  obtain ⟨f1, mm⟩ := cut (K := 32768) 20 15 (a.enc) (28736) mm (by norm_num) (by norm_num) (by omega) (by omega) (by omega)
  obtain ⟨f2, mm⟩ := cut (K := 512) 14 9 (56) (64) mm (by norm_num) (by norm_num) (by omega) (by omega) (by omega)
  obtain ⟨f3, mm⟩ := cut (K := 8) 8 3 (8) (0) mm (by norm_num) (by norm_num) (by omega) (by omega) (by omega)
  obtain ⟨f4, mm⟩ := cut (K := 1) 2 0 (0) (0) mm (by norm_num) (by norm_num) (by omega) (by omega) (by omega)
  rw [decDalu2_of f0, decDalu2, f3]
  simp [hh, f1, f2, f4, src_dec_enc, need, mk_of h]
theorem dfma (hd : Hd) (a : Src) (b : Src) (d : Src) (r : RM) : Statement (.dfma hd a b d r) := by
  intro _ h
  obtain ⟨N, eq⟩ : ∃ N, N = encodeNat (.dfma hd a b d r) := ⟨_, rfl⟩
  rw [← eq]
  replace eq : N = 0x16000000 + hd.enc + a.enc * 32768 + b.enc * 512 + d.enc * 8 + r.enc := eq
  have la := src_lt a; have lb := src_lt b; have ld := src_lt d; have lr := rm_lt r
  obtain ⟨f0, hh, mm⟩ := top (n := N) (op := 11) hd (r := a.enc * 32768 + b.enc * 512 + d.enc * 8 + r.enc) (by omega) (by omega) (by omega)
  obtain ⟨f1, mm⟩ := cut (K := 32768) 20 15 (a.enc) (b.enc * 512 + d.enc * 8 + r.enc) mm (by norm_num) (by norm_num) (by omega) (by omega) (by omega)
  obtain ⟨f2, mm⟩ := cut (K := 512) 14 9 (b.enc) (d.enc * 8 + r.enc) mm (by norm_num) (by norm_num) (by omega) (by omega) (by omega)
  obtain ⟨f3, mm⟩ := cut (K := 8) 8 3 (d.enc) (r.enc) mm (by norm_num) (by norm_num) (by omega) (by omega) (by omega)
  obtain ⟨f4, mm⟩ := cut (K := 1) 2 0 (r.enc) (0) mm (by norm_num) (by norm_num) (by omega) (by omega) (by omega)
  rw [decDalu3_of f0]
  simp [decDalu3, hh, f1, f2, f3, f4, rm_dec_enc, src_dec_enc, ok_bind, mk_of h]
theorem cvt (hd : Hd) (a : Src) (f : NumTy) (t : NumTy) (r : RM) : Statement (.cvt hd a f t r) := by
  intro _ h
  obtain ⟨N, eq⟩ : ∃ N, N = encodeNat (.cvt hd a f t r) := ⟨_, rfl⟩
  rw [← eq]
  replace eq : N = 0x18007000 + hd.enc + a.enc * 32768 + f.enc * 64 + t.enc * 8 + r.enc := eq
  have la := src_lt a; have lf := numTy_lt f; have lt := numTy_lt t; have lr := rm_lt r
  obtain ⟨f0, hh, mm⟩ := top (n := N) (op := 12) hd (r := a.enc * 32768 + f.enc * 64 + t.enc * 8 + r.enc + 28672) (by omega) (by omega) (by omega)
  obtain ⟨f1, mm⟩ := cut (K := 32768) 20 15 (a.enc) (f.enc * 64 + t.enc * 8 + r.enc + 28672) mm (by norm_num) (by norm_num) (by omega) (by omega) (by omega)
  obtain ⟨f2, mm⟩ := cut (K := 512) 14 9 (56) (f.enc * 64 + t.enc * 8 + r.enc) mm (by norm_num) (by norm_num) (by omega) (by omega) (by omega)
  obtain ⟨f3, mm⟩ := cut (K := 64) 8 6 (f.enc) (t.enc * 8 + r.enc) mm (by norm_num) (by norm_num) (by omega) (by omega) (by omega)
  obtain ⟨f4, mm⟩ := cut (K := 8) 5 3 (t.enc) (r.enc) mm (by norm_num) (by norm_num) (by omega) (by omega) (by omega)
  obtain ⟨f5, mm⟩ := cut (K := 1) 2 0 (r.enc) (0) mm (by norm_num) (by norm_num) (by omega) (by omega) (by omega)
  rw [decCvt_of f0]
  have h' : (hd.gd.ok && (f != t && (!(f.isInt && t.isInt) || r == .rne))) = true := h
  have hne : f.enc ≠ t.enc := by
    intro q
    have : f = t := by rw [← numTy_dec_enc f, q, numTy_dec_enc]
    simp [this] at h'
  simp [decCvt, hh, f1, f2, f3, f4, f5, numTy_dec_enc, rm_dec_enc, src_dec_enc, need, ok_bind, hne, mk_of h]
theorem cvtnI32 (hd : Hd) (a : Src) (b : Src) : Statement (.cvtnI32 hd a b) := by
  intro _ h
  obtain ⟨N, eq⟩ : ∃ N, N = encodeNat (.cvtnI32 hd a b) := ⟨_, rfl⟩
  rw [← eq]
  replace eq : N = 0x18000000 + hd.enc + a.enc * 32768 + b.enc * 512 := eq
  have la := src_lt a; have lb := src_lt b
  obtain ⟨f0, hh, mm⟩ := top (n := N) (op := 12) hd (r := a.enc * 32768 + b.enc * 512) (by omega) (by omega) (by omega)
  obtain ⟨f1, mm⟩ := cut (K := 32768) 20 15 (a.enc) (b.enc * 512) mm (by norm_num) (by norm_num) (by omega) (by omega) (by omega)
  obtain ⟨f2, mm⟩ := cut (K := 512) 14 9 (b.enc) (0) mm (by norm_num) (by norm_num) (by omega) (by omega) (by omega)
  obtain ⟨f3, mm⟩ := cut (K := 64) 8 6 (0) (0) mm (by norm_num) (by norm_num) (by omega) (by omega) (by omega)
  obtain ⟨f4, mm⟩ := cut (K := 8) 5 3 (0) (0) mm (by norm_num) (by norm_num) (by omega) (by omega) (by omega)
  obtain ⟨f5, mm⟩ := cut (K := 1) 2 0 (0) (0) mm (by norm_num) (by norm_num) (by omega) (by omega) (by omega)
  rw [decCvt_of f0]
  simp [decCvt, hh, f1, f2, f3, f4, f5, src_dec_enc, need, mk_of h]
theorem cvtnN32 (hd : Hd) (a : Src) (b : Src) : Statement (.cvtnN32 hd a b) := by
  intro _ h
  obtain ⟨N, eq⟩ : ∃ N, N = encodeNat (.cvtnN32 hd a b) := ⟨_, rfl⟩
  rw [← eq]
  replace eq : N = 0x18000048 + hd.enc + a.enc * 32768 + b.enc * 512 := eq
  have la := src_lt a; have lb := src_lt b
  obtain ⟨f0, hh, mm⟩ := top (n := N) (op := 12) hd (r := a.enc * 32768 + b.enc * 512 + 72) (by omega) (by omega) (by omega)
  obtain ⟨f1, mm⟩ := cut (K := 32768) 20 15 (a.enc) (b.enc * 512 + 72) mm (by norm_num) (by norm_num) (by omega) (by omega) (by omega)
  obtain ⟨f2, mm⟩ := cut (K := 512) 14 9 (b.enc) (72) mm (by norm_num) (by norm_num) (by omega) (by omega) (by omega)
  obtain ⟨f3, mm⟩ := cut (K := 64) 8 6 (1) (8) mm (by norm_num) (by norm_num) (by omega) (by omega) (by omega)
  obtain ⟨f4, mm⟩ := cut (K := 8) 5 3 (1) (0) mm (by norm_num) (by norm_num) (by omega) (by omega) (by omega)
  obtain ⟨f5, mm⟩ := cut (K := 1) 2 0 (0) (0) mm (by norm_num) (by norm_num) (by omega) (by omega) (by omega)
  rw [decCvt_of f0]
  simp [decCvt, hh, f1, f2, f3, f4, f5, src_dec_enc, need, mk_of h]
theorem cvtnF32 (hd : Hd) (a : Src) (b : Src) : Statement (.cvtnF32 hd a b) := by
  intro _ h
  obtain ⟨N, eq⟩ : ∃ N, N = encodeNat (.cvtnF32 hd a b) := ⟨_, rfl⟩
  rw [← eq]
  replace eq : N = 0x180001b0 + hd.enc + a.enc * 32768 + b.enc * 512 := eq
  have la := src_lt a; have lb := src_lt b
  obtain ⟨f0, hh, mm⟩ := top (n := N) (op := 12) hd (r := a.enc * 32768 + b.enc * 512 + 432) (by omega) (by omega) (by omega)
  obtain ⟨f1, mm⟩ := cut (K := 32768) 20 15 (a.enc) (b.enc * 512 + 432) mm (by norm_num) (by norm_num) (by omega) (by omega) (by omega)
  obtain ⟨f2, mm⟩ := cut (K := 512) 14 9 (b.enc) (432) mm (by norm_num) (by norm_num) (by omega) (by omega) (by omega)
  obtain ⟨f3, mm⟩ := cut (K := 64) 8 6 (6) (48) mm (by norm_num) (by norm_num) (by omega) (by omega) (by omega)
  obtain ⟨f4, mm⟩ := cut (K := 8) 5 3 (6) (0) mm (by norm_num) (by norm_num) (by omega) (by omega) (by omega)
  obtain ⟨f5, mm⟩ := cut (K := 1) 2 0 (0) (0) mm (by norm_num) (by norm_num) (by omega) (by omega) (by omega)
  rw [decCvt_of f0]
  simp [decCvt, hh, f1, f2, f3, f4, f5, src_dec_enc, need, mk_of h]
theorem cvtnF64 (hd : Hd) (a : Src) (b : Src) : Statement (.cvtnF64 hd a b) := by
  intro _ h
  obtain ⟨N, eq⟩ : ∃ N, N = encodeNat (.cvtnF64 hd a b) := ⟨_, rfl⟩
  rw [← eq]
  replace eq : N = 0x180001f8 + hd.enc + a.enc * 32768 + b.enc * 512 := eq
  have la := src_lt a; have lb := src_lt b
  obtain ⟨f0, hh, mm⟩ := top (n := N) (op := 12) hd (r := a.enc * 32768 + b.enc * 512 + 504) (by omega) (by omega) (by omega)
  obtain ⟨f1, mm⟩ := cut (K := 32768) 20 15 (a.enc) (b.enc * 512 + 504) mm (by norm_num) (by norm_num) (by omega) (by omega) (by omega)
  obtain ⟨f2, mm⟩ := cut (K := 512) 14 9 (b.enc) (504) mm (by norm_num) (by norm_num) (by omega) (by omega) (by omega)
  obtain ⟨f3, mm⟩ := cut (K := 64) 8 6 (7) (56) mm (by norm_num) (by norm_num) (by omega) (by omega) (by omega)
  obtain ⟨f4, mm⟩ := cut (K := 8) 5 3 (7) (0) mm (by norm_num) (by norm_num) (by omega) (by omega) (by omega)
  obtain ⟨f5, mm⟩ := cut (K := 1) 2 0 (0) (0) mm (by norm_num) (by norm_num) (by omega) (by omega) (by omega)
  rw [decCvt_of f0]
  simp [decCvt, hh, f1, f2, f3, f4, f5, src_dec_enc, need, mk_of h]
theorem pk2F16 (hd : Hd) (a : Src) (b : Src) (r : RM) : Statement (.pk2F16 hd a b r) := by
  intro _ h
  obtain ⟨N, eq⟩ : ∃ N, N = encodeNat (.pk2F16 hd a b r) := ⟨_, rfl⟩
  rw [← eq]
  replace eq : N = 0x18000120 + hd.enc + a.enc * 32768 + b.enc * 512 + r.enc := eq
  have la := src_lt a; have lb := src_lt b; have lr := rm_lt r
  obtain ⟨f0, hh, mm⟩ := top (n := N) (op := 12) hd (r := a.enc * 32768 + b.enc * 512 + r.enc + 288) (by omega) (by omega) (by omega)
  obtain ⟨f1, mm⟩ := cut (K := 32768) 20 15 (a.enc) (b.enc * 512 + r.enc + 288) mm (by norm_num) (by norm_num) (by omega) (by omega) (by omega)
  obtain ⟨f2, mm⟩ := cut (K := 512) 14 9 (b.enc) (r.enc + 288) mm (by norm_num) (by norm_num) (by omega) (by omega) (by omega)
  obtain ⟨f3, mm⟩ := cut (K := 64) 8 6 (4) (r.enc + 32) mm (by norm_num) (by norm_num) (by omega) (by omega) (by omega)
  obtain ⟨f4, mm⟩ := cut (K := 8) 5 3 (4) (r.enc) mm (by norm_num) (by norm_num) (by omega) (by omega) (by omega)
  obtain ⟨f5, mm⟩ := cut (K := 1) 2 0 (r.enc) (0) mm (by norm_num) (by norm_num) (by omega) (by omega) (by omega)
  rw [decCvt_of f0]
  simp [decCvt, hh, f1, f2, f3, f4, f5, rm_dec_enc, src_dec_enc, ok_bind, mk_of h]
theorem pk2Bf16 (hd : Hd) (a : Src) (b : Src) (r : RM) : Statement (.pk2Bf16 hd a b r) := by
  intro _ h
  obtain ⟨N, eq⟩ : ∃ N, N = encodeNat (.pk2Bf16 hd a b r) := ⟨_, rfl⟩
  rw [← eq]
  replace eq : N = 0x18000168 + hd.enc + a.enc * 32768 + b.enc * 512 + r.enc := eq
  have la := src_lt a; have lb := src_lt b; have lr := rm_lt r
  obtain ⟨f0, hh, mm⟩ := top (n := N) (op := 12) hd (r := a.enc * 32768 + b.enc * 512 + r.enc + 360) (by omega) (by omega) (by omega)
  obtain ⟨f1, mm⟩ := cut (K := 32768) 20 15 (a.enc) (b.enc * 512 + r.enc + 360) mm (by norm_num) (by norm_num) (by omega) (by omega) (by omega)
  obtain ⟨f2, mm⟩ := cut (K := 512) 14 9 (b.enc) (r.enc + 360) mm (by norm_num) (by norm_num) (by omega) (by omega) (by omega)
  obtain ⟨f3, mm⟩ := cut (K := 64) 8 6 (5) (r.enc + 40) mm (by norm_num) (by norm_num) (by omega) (by omega) (by omega)
  obtain ⟨f4, mm⟩ := cut (K := 8) 5 3 (5) (r.enc) mm (by norm_num) (by norm_num) (by omega) (by omega) (by omega)
  obtain ⟨f5, mm⟩ := cut (K := 1) 2 0 (r.enc) (0) mm (by norm_num) (by norm_num) (by omega) (by omega) (by omega)
  rw [decCvt_of f0]
  simp [decCvt, hh, f1, f2, f3, f4, f5, rm_dec_enc, src_dec_enc, ok_bind, mk_of h]
theorem rcp (hd : Hd) (a : Src) : Statement (.rcp hd a) := by
  intro _ h
  obtain ⟨N, eq⟩ : ∃ N, N = encodeNat (.rcp hd a) := ⟨_, rfl⟩
  rw [← eq]
  replace eq : N = 0x1a007000 + hd.enc + a.enc * 32768 := eq
  have la := src_lt a
  obtain ⟨f0, hh, mm⟩ := top (n := N) (op := 13) hd (r := a.enc * 32768 + 28672) (by omega) (by omega) (by omega)
  obtain ⟨f1, mm⟩ := cut (K := 32768) 20 15 (a.enc) (28672) mm (by norm_num) (by norm_num) (by omega) (by omega) (by omega)
  obtain ⟨f2, mm⟩ := cut (K := 512) 14 9 (56) (0) mm (by norm_num) (by norm_num) (by omega) (by omega) (by omega)
  obtain ⟨f3, mm⟩ := cut (K := 8) 8 3 (0) (0) mm (by norm_num) (by norm_num) (by omega) (by omega) (by omega)
  obtain ⟨f4, mm⟩ := cut (K := 1) 2 0 (0) (0) mm (by norm_num) (by norm_num) (by omega) (by omega) (by omega)
  rw [decSfu_of f0, decSfu, f3]
  simp [hh, f1, f2, f4, src_dec_enc, need, mk_of h]
theorem rsq (hd : Hd) (a : Src) : Statement (.rsq hd a) := by
  intro _ h
  obtain ⟨N, eq⟩ : ∃ N, N = encodeNat (.rsq hd a) := ⟨_, rfl⟩
  rw [← eq]
  replace eq : N = 0x1a007008 + hd.enc + a.enc * 32768 := eq
  have la := src_lt a
  obtain ⟨f0, hh, mm⟩ := top (n := N) (op := 13) hd (r := a.enc * 32768 + 28680) (by omega) (by omega) (by omega)
  obtain ⟨f1, mm⟩ := cut (K := 32768) 20 15 (a.enc) (28680) mm (by norm_num) (by norm_num) (by omega) (by omega) (by omega)
  obtain ⟨f2, mm⟩ := cut (K := 512) 14 9 (56) (8) mm (by norm_num) (by norm_num) (by omega) (by omega) (by omega)
  obtain ⟨f3, mm⟩ := cut (K := 8) 8 3 (1) (0) mm (by norm_num) (by norm_num) (by omega) (by omega) (by omega)
  obtain ⟨f4, mm⟩ := cut (K := 1) 2 0 (0) (0) mm (by norm_num) (by norm_num) (by omega) (by omega) (by omega)
  rw [decSfu_of f0, decSfu, f3]
  simp [hh, f1, f2, f4, src_dec_enc, need, mk_of h]
theorem sqrt (hd : Hd) (a : Src) (r : RM) : Statement (.sqrt hd a r) := by
  intro _ h
  obtain ⟨N, eq⟩ : ∃ N, N = encodeNat (.sqrt hd a r) := ⟨_, rfl⟩
  rw [← eq]
  replace eq : N = 0x1a007010 + hd.enc + a.enc * 32768 + r.enc := eq
  have la := src_lt a; have lr := rm_lt r
  obtain ⟨f0, hh, mm⟩ := top (n := N) (op := 13) hd (r := a.enc * 32768 + r.enc + 28688) (by omega) (by omega) (by omega)
  obtain ⟨f1, mm⟩ := cut (K := 32768) 20 15 (a.enc) (r.enc + 28688) mm (by norm_num) (by norm_num) (by omega) (by omega) (by omega)
  obtain ⟨f2, mm⟩ := cut (K := 512) 14 9 (56) (r.enc + 16) mm (by norm_num) (by norm_num) (by omega) (by omega) (by omega)
  obtain ⟨f3, mm⟩ := cut (K := 8) 8 3 (2) (r.enc) mm (by norm_num) (by norm_num) (by omega) (by omega) (by omega)
  obtain ⟨f4, mm⟩ := cut (K := 1) 2 0 (r.enc) (0) mm (by norm_num) (by norm_num) (by omega) (by omega) (by omega)
  rw [decSfu_of f0, decSfu, f3]
  simp [hh, f1, f2, f4, rm_dec_enc, src_dec_enc, need, ok_bind, mk_of h]
theorem ex2 (hd : Hd) (a : Src) : Statement (.ex2 hd a) := by
  intro _ h
  obtain ⟨N, eq⟩ : ∃ N, N = encodeNat (.ex2 hd a) := ⟨_, rfl⟩
  rw [← eq]
  replace eq : N = 0x1a007018 + hd.enc + a.enc * 32768 := eq
  have la := src_lt a
  obtain ⟨f0, hh, mm⟩ := top (n := N) (op := 13) hd (r := a.enc * 32768 + 28696) (by omega) (by omega) (by omega)
  obtain ⟨f1, mm⟩ := cut (K := 32768) 20 15 (a.enc) (28696) mm (by norm_num) (by norm_num) (by omega) (by omega) (by omega)
  obtain ⟨f2, mm⟩ := cut (K := 512) 14 9 (56) (24) mm (by norm_num) (by norm_num) (by omega) (by omega) (by omega)
  obtain ⟨f3, mm⟩ := cut (K := 8) 8 3 (3) (0) mm (by norm_num) (by norm_num) (by omega) (by omega) (by omega)
  obtain ⟨f4, mm⟩ := cut (K := 1) 2 0 (0) (0) mm (by norm_num) (by norm_num) (by omega) (by omega) (by omega)
  rw [decSfu_of f0, decSfu, f3]
  simp [hh, f1, f2, f4, src_dec_enc, need, mk_of h]
theorem lg2 (hd : Hd) (a : Src) : Statement (.lg2 hd a) := by
  intro _ h
  obtain ⟨N, eq⟩ : ∃ N, N = encodeNat (.lg2 hd a) := ⟨_, rfl⟩
  rw [← eq]
  replace eq : N = 0x1a007020 + hd.enc + a.enc * 32768 := eq
  have la := src_lt a
  obtain ⟨f0, hh, mm⟩ := top (n := N) (op := 13) hd (r := a.enc * 32768 + 28704) (by omega) (by omega) (by omega)
  obtain ⟨f1, mm⟩ := cut (K := 32768) 20 15 (a.enc) (28704) mm (by norm_num) (by norm_num) (by omega) (by omega) (by omega)
  obtain ⟨f2, mm⟩ := cut (K := 512) 14 9 (56) (32) mm (by norm_num) (by norm_num) (by omega) (by omega) (by omega)
  obtain ⟨f3, mm⟩ := cut (K := 8) 8 3 (4) (0) mm (by norm_num) (by norm_num) (by omega) (by omega) (by omega)
  obtain ⟨f4, mm⟩ := cut (K := 1) 2 0 (0) (0) mm (by norm_num) (by norm_num) (by omega) (by omega) (by omega)
  rw [decSfu_of f0, decSfu, f3]
  simp [hh, f1, f2, f4, src_dec_enc, need, mk_of h]
theorem sinpi (hd : Hd) (a : Src) : Statement (.sinpi hd a) := by
  intro _ h
  obtain ⟨N, eq⟩ : ∃ N, N = encodeNat (.sinpi hd a) := ⟨_, rfl⟩
  rw [← eq]
  replace eq : N = 0x1a007028 + hd.enc + a.enc * 32768 := eq
  have la := src_lt a
  obtain ⟨f0, hh, mm⟩ := top (n := N) (op := 13) hd (r := a.enc * 32768 + 28712) (by omega) (by omega) (by omega)
  obtain ⟨f1, mm⟩ := cut (K := 32768) 20 15 (a.enc) (28712) mm (by norm_num) (by norm_num) (by omega) (by omega) (by omega)
  obtain ⟨f2, mm⟩ := cut (K := 512) 14 9 (56) (40) mm (by norm_num) (by norm_num) (by omega) (by omega) (by omega)
  obtain ⟨f3, mm⟩ := cut (K := 8) 8 3 (5) (0) mm (by norm_num) (by norm_num) (by omega) (by omega) (by omega)
  obtain ⟨f4, mm⟩ := cut (K := 1) 2 0 (0) (0) mm (by norm_num) (by norm_num) (by omega) (by omega) (by omega)
  rw [decSfu_of f0, decSfu, f3]
  simp [hh, f1, f2, f4, src_dec_enc, need, mk_of h]
theorem cospi (hd : Hd) (a : Src) : Statement (.cospi hd a) := by
  intro _ h
  obtain ⟨N, eq⟩ : ∃ N, N = encodeNat (.cospi hd a) := ⟨_, rfl⟩
  rw [← eq]
  replace eq : N = 0x1a007030 + hd.enc + a.enc * 32768 := eq
  have la := src_lt a
  obtain ⟨f0, hh, mm⟩ := top (n := N) (op := 13) hd (r := a.enc * 32768 + 28720) (by omega) (by omega) (by omega)
  obtain ⟨f1, mm⟩ := cut (K := 32768) 20 15 (a.enc) (28720) mm (by norm_num) (by norm_num) (by omega) (by omega) (by omega)
  obtain ⟨f2, mm⟩ := cut (K := 512) 14 9 (56) (48) mm (by norm_num) (by norm_num) (by omega) (by omega) (by omega)
  obtain ⟨f3, mm⟩ := cut (K := 8) 8 3 (6) (0) mm (by norm_num) (by norm_num) (by omega) (by omega) (by omega)
  obtain ⟨f4, mm⟩ := cut (K := 1) 2 0 (0) (0) mm (by norm_num) (by norm_num) (by omega) (by omega) (by omega)
  rw [decSfu_of f0, decSfu, f3]
  simp [hh, f1, f2, f4, src_dec_enc, need, mk_of h]
theorem tanh (hd : Hd) (a : Src) : Statement (.tanh hd a) := by
  intro _ h
  obtain ⟨N, eq⟩ : ∃ N, N = encodeNat (.tanh hd a) := ⟨_, rfl⟩
  rw [← eq]
  replace eq : N = 0x1a007038 + hd.enc + a.enc * 32768 := eq
  have la := src_lt a
  obtain ⟨f0, hh, mm⟩ := top (n := N) (op := 13) hd (r := a.enc * 32768 + 28728) (by omega) (by omega) (by omega)
  obtain ⟨f1, mm⟩ := cut (K := 32768) 20 15 (a.enc) (28728) mm (by norm_num) (by norm_num) (by omega) (by omega) (by omega)
  obtain ⟨f2, mm⟩ := cut (K := 512) 14 9 (56) (56) mm (by norm_num) (by norm_num) (by omega) (by omega) (by omega)
  obtain ⟨f3, mm⟩ := cut (K := 8) 8 3 (7) (0) mm (by norm_num) (by norm_num) (by omega) (by omega) (by omega)
  obtain ⟨f4, mm⟩ := cut (K := 1) 2 0 (0) (0) mm (by norm_num) (by norm_num) (by omega) (by omega) (by omega)
  rw [decSfu_of f0, decSfu, f3]
  simp [hh, f1, f2, f4, src_dec_enc, need, mk_of h]
theorem drcp (hd : Hd) (a : Src) : Statement (.drcp hd a) := by
  intro _ h
  obtain ⟨N, eq⟩ : ∃ N, N = encodeNat (.drcp hd a) := ⟨_, rfl⟩
  rw [← eq]
  replace eq : N = 0x1a007040 + hd.enc + a.enc * 32768 := eq
  have la := src_lt a
  obtain ⟨f0, hh, mm⟩ := top (n := N) (op := 13) hd (r := a.enc * 32768 + 28736) (by omega) (by omega) (by omega)
  obtain ⟨f1, mm⟩ := cut (K := 32768) 20 15 (a.enc) (28736) mm (by norm_num) (by norm_num) (by omega) (by omega) (by omega)
  obtain ⟨f2, mm⟩ := cut (K := 512) 14 9 (56) (64) mm (by norm_num) (by norm_num) (by omega) (by omega) (by omega)
  obtain ⟨f3, mm⟩ := cut (K := 8) 8 3 (8) (0) mm (by norm_num) (by norm_num) (by omega) (by omega) (by omega)
  obtain ⟨f4, mm⟩ := cut (K := 1) 2 0 (0) (0) mm (by norm_num) (by norm_num) (by omega) (by omega) (by omega)
  rw [decSfu_of f0, decSfu, f3]
  simp [hh, f1, f2, f4, src_dec_enc, need, mk_of h]
theorem drsq (hd : Hd) (a : Src) : Statement (.drsq hd a) := by
  intro _ h
  obtain ⟨N, eq⟩ : ∃ N, N = encodeNat (.drsq hd a) := ⟨_, rfl⟩
  rw [← eq]
  replace eq : N = 0x1a007048 + hd.enc + a.enc * 32768 := eq
  have la := src_lt a
  obtain ⟨f0, hh, mm⟩ := top (n := N) (op := 13) hd (r := a.enc * 32768 + 28744) (by omega) (by omega) (by omega)
  obtain ⟨f1, mm⟩ := cut (K := 32768) 20 15 (a.enc) (28744) mm (by norm_num) (by norm_num) (by omega) (by omega) (by omega)
  obtain ⟨f2, mm⟩ := cut (K := 512) 14 9 (56) (72) mm (by norm_num) (by norm_num) (by omega) (by omega) (by omega)
  obtain ⟨f3, mm⟩ := cut (K := 8) 8 3 (9) (0) mm (by norm_num) (by norm_num) (by omega) (by omega) (by omega)
  obtain ⟨f4, mm⟩ := cut (K := 1) 2 0 (0) (0) mm (by norm_num) (by norm_num) (by omega) (by omega) (by omega)
  rw [decSfu_of f0, decSfu, f3]
  simp [hh, f1, f2, f4, src_dec_enc, need, mk_of h]
theorem xshuf (hd : Hd) (a : Src) (b : Src) (m : XMode) : Statement (.xshuf hd a b m) := by
  intro _ h
  obtain ⟨N, eq⟩ : ∃ N, N = encodeNat (.xshuf hd a b m) := ⟨_, rfl⟩
  rw [← eq]
  replace eq : N = 0x1c000000 + hd.enc + a.enc * 32768 + b.enc * 512 + m.enc * 16 := eq
  have la := src_lt a; have lb := src_lt b; have lm := xmode_lt m
  obtain ⟨f0, hh, mm⟩ := top (n := N) (op := 14) hd (r := a.enc * 32768 + b.enc * 512 + m.enc * 16) (by omega) (by omega) (by omega)
  obtain ⟨f1, mm⟩ := cut (K := 32768) 20 15 (a.enc) (b.enc * 512 + m.enc * 16) mm (by norm_num) (by norm_num) (by omega) (by omega) (by omega)
  obtain ⟨f2, mm⟩ := cut (K := 512) 14 9 (b.enc) (m.enc * 16) mm (by norm_num) (by norm_num) (by omega) (by omega) (by omega)
  obtain ⟨f3, mm⟩ := cut (K := 64) 8 6 (0) (m.enc * 16) mm (by norm_num) (by norm_num) (by omega) (by omega) (by omega)
  obtain ⟨f4, mm⟩ := cut (K := 16) 5 4 (m.enc) (0) mm (by norm_num) (by norm_num) (by omega) (by omega) (by omega)
  obtain ⟨f5, mm⟩ := cut (K := 1) 3 0 (0) (0) mm (by norm_num) (by norm_num) (by omega) (by omega) (by omega)
  rw [decXgrp_of f0, decXgrp, f3]
  simp [hh, f1, f2, f4, f5, src_dec_enc, xmode_dec_enc, need, mk_of h]
theorem vote (hd : Hd) (a : Src) (b : Src) (m : VoteForm) : Statement (.vote hd a b m) := by
  intro _ h
  obtain ⟨N, eq⟩ : ∃ N, N = encodeNat (.vote hd a b m) := ⟨_, rfl⟩
  rw [← eq]
  replace eq : N = 0x1c000040 + hd.enc + a.enc * 32768 + b.enc * 512 + m.enc * 16 := eq
  have la := src_lt a; have lb := src_lt b; have lm := voteForm_lt m
  obtain ⟨f0, hh, mm⟩ := top (n := N) (op := 14) hd (r := a.enc * 32768 + b.enc * 512 + m.enc * 16 + 64) (by omega) (by omega) (by omega)
  obtain ⟨f1, mm⟩ := cut (K := 32768) 20 15 (a.enc) (b.enc * 512 + m.enc * 16 + 64) mm (by norm_num) (by norm_num) (by omega) (by omega) (by omega)
  obtain ⟨f2, mm⟩ := cut (K := 512) 14 9 (b.enc) (m.enc * 16 + 64) mm (by norm_num) (by norm_num) (by omega) (by omega) (by omega)
  obtain ⟨f3, mm⟩ := cut (K := 64) 8 6 (1) (m.enc * 16) mm (by norm_num) (by norm_num) (by omega) (by omega) (by omega)
  obtain ⟨f4, mm⟩ := cut (K := 16) 5 4 (m.enc) (0) mm (by norm_num) (by norm_num) (by omega) (by omega) (by omega)
  obtain ⟨f5, mm⟩ := cut (K := 1) 3 0 (0) (0) mm (by norm_num) (by norm_num) (by omega) (by omega) (by omega)
  rw [decXgrp_of f0, decXgrp, f3]
  simp [hh, f1, f2, f4, f5, src_dec_enc, voteForm_dec_enc, need, mk_of h]
theorem reduce (hd : Hd) (a : Src) (b : Src) (o : ScanOp) (t : ScanTy) : Statement (.reduce hd a b o t) := by
  intro _ h
  obtain ⟨N, eq⟩ : ∃ N, N = encodeNat (.reduce hd a b o t) := ⟨_, rfl⟩
  rw [← eq]
  replace eq : N = 0x1c000080 + hd.enc + a.enc * 32768 + b.enc * 512 + o.enc * 8 + t.enc := eq
  have la := src_lt a; have lb := src_lt b; have lo := scanOp_lt o; have lt := scanTy_lt t
  obtain ⟨f0, hh, mm⟩ := top (n := N) (op := 14) hd (r := a.enc * 32768 + b.enc * 512 + o.enc * 8 + t.enc + 128) (by omega) (by omega) (by omega)
  obtain ⟨f1, mm⟩ := cut (K := 32768) 20 15 (a.enc) (b.enc * 512 + o.enc * 8 + t.enc + 128) mm (by norm_num) (by norm_num) (by omega) (by omega) (by omega)
  obtain ⟨f2, mm⟩ := cut (K := 512) 14 9 (b.enc) (o.enc * 8 + t.enc + 128) mm (by norm_num) (by norm_num) (by omega) (by omega) (by omega)
  obtain ⟨f3, mm⟩ := cut (K := 64) 8 6 (2) (o.enc * 8 + t.enc) mm (by norm_num) (by norm_num) (by omega) (by omega) (by omega)
  obtain ⟨f4, mm⟩ := cut (K := 8) 5 3 (o.enc) (t.enc) mm (by norm_num) (by norm_num) (by omega) (by omega) (by omega)
  obtain ⟨f5, mm⟩ := cut (K := 1) 2 0 (t.enc) (0) mm (by norm_num) (by norm_num) (by omega) (by omega) (by omega)
  rw [decXgrp_of f0, decXgrp, f3]
  simp [hh, f1, f2, f4, f5, scanOp_dec_enc, scanTy_dec_enc, src_dec_enc, ok_bind, mk_of h]
theorem scan (hd : Hd) (a : Src) (b : Src) (o : ScanOp) (t : ScanTy) : Statement (.scan hd a b o t) := by
  intro _ h
  obtain ⟨N, eq⟩ : ∃ N, N = encodeNat (.scan hd a b o t) := ⟨_, rfl⟩
  rw [← eq]
  replace eq : N = 0x1c0000c0 + hd.enc + a.enc * 32768 + b.enc * 512 + o.enc * 8 + t.enc := eq
  have la := src_lt a; have lb := src_lt b; have lo := scanOp_lt o; have lt := scanTy_lt t
  obtain ⟨f0, hh, mm⟩ := top (n := N) (op := 14) hd (r := a.enc * 32768 + b.enc * 512 + o.enc * 8 + t.enc + 192) (by omega) (by omega) (by omega)
  obtain ⟨f1, mm⟩ := cut (K := 32768) 20 15 (a.enc) (b.enc * 512 + o.enc * 8 + t.enc + 192) mm (by norm_num) (by norm_num) (by omega) (by omega) (by omega)
  obtain ⟨f2, mm⟩ := cut (K := 512) 14 9 (b.enc) (o.enc * 8 + t.enc + 192) mm (by norm_num) (by norm_num) (by omega) (by omega) (by omega)
  obtain ⟨f3, mm⟩ := cut (K := 64) 8 6 (3) (o.enc * 8 + t.enc) mm (by norm_num) (by norm_num) (by omega) (by omega) (by omega)
  obtain ⟨f4, mm⟩ := cut (K := 8) 5 3 (o.enc) (t.enc) mm (by norm_num) (by norm_num) (by omega) (by omega) (by omega)
  obtain ⟨f5, mm⟩ := cut (K := 1) 2 0 (t.enc) (0) mm (by norm_num) (by norm_num) (by omega) (by omega) (by omega)
  rw [decXgrp_of f0, decXgrp, f3]
  simp [hh, f1, f2, f4, f5, scanOp_dec_enc, scanTy_dec_enc, src_dec_enc, ok_bind, mk_of h]
theorem scanX (hd : Hd) (a : Src) (b : Src) (o : ScanOp) (t : ScanTy) : Statement (.scanX hd a b o t) := by
  intro _ h
  obtain ⟨N, eq⟩ : ∃ N, N = encodeNat (.scanX hd a b o t) := ⟨_, rfl⟩
  rw [← eq]
  replace eq : N = 0x1c000100 + hd.enc + a.enc * 32768 + b.enc * 512 + o.enc * 8 + t.enc := eq
  have la := src_lt a; have lb := src_lt b; have lo := scanOp_lt o; have lt := scanTy_lt t
  obtain ⟨f0, hh, mm⟩ := top (n := N) (op := 14) hd (r := a.enc * 32768 + b.enc * 512 + o.enc * 8 + t.enc + 256) (by omega) (by omega) (by omega)
  obtain ⟨f1, mm⟩ := cut (K := 32768) 20 15 (a.enc) (b.enc * 512 + o.enc * 8 + t.enc + 256) mm (by norm_num) (by norm_num) (by omega) (by omega) (by omega)
  obtain ⟨f2, mm⟩ := cut (K := 512) 14 9 (b.enc) (o.enc * 8 + t.enc + 256) mm (by norm_num) (by norm_num) (by omega) (by omega) (by omega)
  obtain ⟨f3, mm⟩ := cut (K := 64) 8 6 (4) (o.enc * 8 + t.enc) mm (by norm_num) (by norm_num) (by omega) (by omega) (by omega)
  obtain ⟨f4, mm⟩ := cut (K := 8) 5 3 (o.enc) (t.enc) mm (by norm_num) (by norm_num) (by omega) (by omega) (by omega)
  obtain ⟨f5, mm⟩ := cut (K := 1) 2 0 (t.enc) (0) mm (by norm_num) (by norm_num) (by omega) (by omega) (by omega)
  rw [decXgrp_of f0, decXgrp, f3]
  simp [hh, f1, f2, f4, f5, scanOp_dec_enc, scanTy_dec_enc, src_dec_enc, ok_bind, mk_of h]
theorem matchX (hd : Hd) (a : Src) (w : Bool) : Statement (.matchX hd a w) := by
  intro _ h
  obtain ⟨N, eq⟩ : ∃ N, N = encodeNat (.matchX hd a w) := ⟨_, rfl⟩
  rw [← eq]
  replace eq : N = 0x1c007140 + hd.enc + a.enc * 32768 + b2n w * 8 := eq
  have la := src_lt a; have lw := b2n_lt w
  obtain ⟨f0, hh, mm⟩ := top (n := N) (op := 14) hd (r := a.enc * 32768 + b2n w * 8 + 28992) (by omega) (by omega) (by omega)
  obtain ⟨f1, mm⟩ := cut (K := 32768) 20 15 (a.enc) (b2n w * 8 + 28992) mm (by norm_num) (by norm_num) (by omega) (by omega) (by omega)
  obtain ⟨f2, mm⟩ := cut (K := 512) 14 9 (56) (b2n w * 8 + 320) mm (by norm_num) (by norm_num) (by omega) (by omega) (by omega)
  obtain ⟨f3, mm⟩ := cut (K := 64) 8 6 (5) (b2n w * 8) mm (by norm_num) (by norm_num) (by omega) (by omega) (by omega)
  obtain ⟨f4, mm⟩ := cut (K := 16) 5 4 (0) (b2n w * 8) mm (by norm_num) (by norm_num) (by omega) (by omega) (by omega)
  obtain ⟨f5, mm⟩ := cut (K := 8) 3 3 (b2n w) (0) mm (by norm_num) (by norm_num) (by omega) (by omega) (by omega)
  obtain ⟨f6, mm⟩ := cut (K := 1) 2 0 (0) (0) mm (by norm_num) (by norm_num) (by omega) (by omega) (by omega)
  rw [decXgrp_of f0, decXgrp, f3]
  simp [hh, f1, f2, f4, bit_of f5, f6, src_dec_enc, need, mk_of h]
theorem elect (hd : Hd) : Statement (.elect hd) := by
  intro _ h
  obtain ⟨N, eq⟩ : ∃ N, N = encodeNat (.elect hd) := ⟨_, rfl⟩
  rw [← eq]
  replace eq : N = 0x1c1c7180 + hd.enc := eq
  obtain ⟨f0, hh, mm⟩ := top (n := N) (op := 14) hd (r := 1864064) (by omega) (by omega) (by omega)
  obtain ⟨f1, mm⟩ := cut (K := 512) 20 9 (3640) (384) mm (by norm_num) (by norm_num) (by omega) (by omega) (by omega)
  obtain ⟨f2, mm⟩ := cut (K := 64) 8 6 (6) (0) mm (by norm_num) (by norm_num) (by omega) (by omega) (by omega)
  obtain ⟨f3, mm⟩ := cut (K := 1) 5 0 (0) (0) mm (by norm_num) (by norm_num) (by omega) (by omega) (by omega)
  rw [decXgrp_of f0, decXgrp, f2]
  simp [hh, f1, f3, need, mk_of h]
theorem intf (hd : Hd) (a : Src) (f : Fin 32) (k : Fin 8) (o : IntfOp) (v : Bool) : Statement (.intf hd a f k o v) := by
  intro _ h
  obtain ⟨N, eq⟩ : ∃ N, N = encodeNat (.intf hd a f k o v) := ⟨_, rfl⟩
  rw [← eq]
  replace eq : N = 0x1e000000 + hd.enc + a.enc * 32768 + f.val * 1024 + k.val * 128 + o.enc * 2 + b2n v := eq
  have la := src_lt a; have lf := f.isLt; have lk := k.isLt; have lo := intfOp_lt o; have lv := b2n_lt v
  obtain ⟨f0, hh, mm⟩ := top (n := N) (op := 15) hd (r := a.enc * 32768 + f.val * 1024 + k.val * 128 + o.enc * 2 + b2n v) (by omega) (by omega) (by omega)
  obtain ⟨f1, mm⟩ := cut (K := 32768) 20 15 (a.enc) (f.val * 1024 + k.val * 128 + o.enc * 2 + b2n v) mm (by norm_num) (by norm_num) (by omega) (by omega) (by omega)
  obtain ⟨f2, mm⟩ := cut (K := 1024) 14 10 (f.val) (k.val * 128 + o.enc * 2 + b2n v) mm (by norm_num) (by norm_num) (by omega) (by omega) (by omega)
  obtain ⟨f3, mm⟩ := cut (K := 128) 9 7 (k.val) (o.enc * 2 + b2n v) mm (by norm_num) (by norm_num) (by omega) (by omega) (by omega)
  obtain ⟨f4, mm⟩ := cut (K := 2) 6 1 (o.enc) (b2n v) mm (by norm_num) (by norm_num) (by omega) (by omega) (by omega)
  obtain ⟨f5, mm⟩ := cut (K := 1) 0 0 (b2n v) (0) mm (by norm_num) (by norm_num) (by omega) (by omega) (by omega)
  rw [decIntf_of f0]
  simp [decIntf, hh, f1, f2, f3, f4, bit_of f5, intfOp_dec_enc, src_dec_enc, ok_bind, mk_of h]
theorem fltf (hd : Hd) (a : Src) (f : Fin 32) (k : Fin 8) (o : FltfOp) (v : Bool) (r : RM) : Statement (.fltf hd a f k o v r) := by
  intro _ h
  obtain ⟨N, eq⟩ : ∃ N, N = encodeNat (.fltf hd a f k o v r) := ⟨_, rfl⟩
  rw [← eq]
  replace eq : N = 0x20000000 + hd.enc + a.enc * 32768 + f.val * 1024 + k.val * 128 + o.enc * 16 + b2n v * 8 + r.enc := eq
  have la := src_lt a; have lf := f.isLt; have lk := k.isLt; have lo := fltfOp_lt o; have lv := b2n_lt v; have lr := rm_lt r
  obtain ⟨f0, hh, mm⟩ := top (n := N) (op := 16) hd (r := a.enc * 32768 + f.val * 1024 + k.val * 128 + o.enc * 16 + b2n v * 8 + r.enc) (by omega) (by omega) (by omega)
  obtain ⟨f1, mm⟩ := cut (K := 32768) 20 15 (a.enc) (f.val * 1024 + k.val * 128 + o.enc * 16 + b2n v * 8 + r.enc) mm (by norm_num) (by norm_num) (by omega) (by omega) (by omega)
  obtain ⟨f2, mm⟩ := cut (K := 1024) 14 10 (f.val) (k.val * 128 + o.enc * 16 + b2n v * 8 + r.enc) mm (by norm_num) (by norm_num) (by omega) (by omega) (by omega)
  obtain ⟨f3, mm⟩ := cut (K := 128) 9 7 (k.val) (o.enc * 16 + b2n v * 8 + r.enc) mm (by norm_num) (by norm_num) (by omega) (by omega) (by omega)
  obtain ⟨f4, mm⟩ := cut (K := 16) 6 4 (o.enc) (b2n v * 8 + r.enc) mm (by norm_num) (by norm_num) (by omega) (by omega) (by omega)
  obtain ⟨f5, mm⟩ := cut (K := 8) 3 3 (b2n v) (r.enc) mm (by norm_num) (by norm_num) (by omega) (by omega) (by omega)
  obtain ⟨f6, mm⟩ := cut (K := 1) 2 0 (r.enc) (0) mm (by norm_num) (by norm_num) (by omega) (by omega) (by omega)
  rw [decFltf_of f0]
  simp [decFltf, hh, f1, f2, f3, f4, bit_of f5, f6, fltfOp_dec_enc, rm_dec_enc, src_dec_enc, ok_bind, mk_of h]
theorem umov (hd : Hd) (a : Src) (e : Fin 64) : Statement (.umov hd a e) := by
  intro _ h
  obtain ⟨N, eq⟩ : ∃ N, N = encodeNat (.umov hd a e) := ⟨_, rfl⟩
  rw [← eq]
  replace eq : N = 0x22007000 + hd.enc + a.enc * 32768 + e.val * 8 := eq
  have la := src_lt a; have le := e.isLt
  obtain ⟨f0, hh, mm⟩ := top (n := N) (op := 17) hd (r := a.enc * 32768 + e.val * 8 + 28672) (by omega) (by omega) (by omega)
  obtain ⟨f1, mm⟩ := cut (K := 32768) 20 15 (a.enc) (e.val * 8 + 28672) mm (by norm_num) (by norm_num) (by omega) (by omega) (by omega)
  obtain ⟨f2, mm⟩ := cut (K := 512) 14 9 (56) (e.val * 8) mm (by norm_num) (by norm_num) (by omega) (by omega) (by omega)
  obtain ⟨f3, mm⟩ := cut (K := 8) 8 3 (e.val) (0) mm (by norm_num) (by norm_num) (by omega) (by omega) (by omega)
  obtain ⟨f4, mm⟩ := cut (K := 1) 2 0 (0) (0) mm (by norm_num) (by norm_num) (by omega) (by omega) (by omega)
  rw [decUni_of f0, decUni, f4]
  simp [hh, f1, f2, f3, src_dec_enc, need, mk_of h]
theorem uadd (hd : Hd) (a : Src) (b : Src) (e : Fin 64) : Statement (.uadd hd a b e) := by
  intro _ h
  obtain ⟨N, eq⟩ : ∃ N, N = encodeNat (.uadd hd a b e) := ⟨_, rfl⟩
  rw [← eq]
  replace eq : N = 0x22000001 + hd.enc + a.enc * 32768 + b.enc * 512 + e.val * 8 := eq
  have la := src_lt a; have lb := src_lt b; have le := e.isLt
  obtain ⟨f0, hh, mm⟩ := top (n := N) (op := 17) hd (r := a.enc * 32768 + b.enc * 512 + e.val * 8 + 1) (by omega) (by omega) (by omega)
  obtain ⟨f1, mm⟩ := cut (K := 32768) 20 15 (a.enc) (b.enc * 512 + e.val * 8 + 1) mm (by norm_num) (by norm_num) (by omega) (by omega) (by omega)
  obtain ⟨f2, mm⟩ := cut (K := 512) 14 9 (b.enc) (e.val * 8 + 1) mm (by norm_num) (by norm_num) (by omega) (by omega) (by omega)
  obtain ⟨f3, mm⟩ := cut (K := 8) 8 3 (e.val) (1) mm (by norm_num) (by norm_num) (by omega) (by omega) (by omega)
  obtain ⟨f4, mm⟩ := cut (K := 1) 2 0 (1) (0) mm (by norm_num) (by norm_num) (by omega) (by omega) (by omega)
  rw [decUni_of f0, decUni, f4]
  simp [hh, f1, f2, f3, src_dec_enc, mk_of h]
theorem usub (hd : Hd) (a : Src) (b : Src) (e : Fin 64) : Statement (.usub hd a b e) := by
  intro _ h
  obtain ⟨N, eq⟩ : ∃ N, N = encodeNat (.usub hd a b e) := ⟨_, rfl⟩
  rw [← eq]
  replace eq : N = 0x22000002 + hd.enc + a.enc * 32768 + b.enc * 512 + e.val * 8 := eq
  have la := src_lt a; have lb := src_lt b; have le := e.isLt
  obtain ⟨f0, hh, mm⟩ := top (n := N) (op := 17) hd (r := a.enc * 32768 + b.enc * 512 + e.val * 8 + 2) (by omega) (by omega) (by omega)
  obtain ⟨f1, mm⟩ := cut (K := 32768) 20 15 (a.enc) (b.enc * 512 + e.val * 8 + 2) mm (by norm_num) (by norm_num) (by omega) (by omega) (by omega)
  obtain ⟨f2, mm⟩ := cut (K := 512) 14 9 (b.enc) (e.val * 8 + 2) mm (by norm_num) (by norm_num) (by omega) (by omega) (by omega)
  obtain ⟨f3, mm⟩ := cut (K := 8) 8 3 (e.val) (2) mm (by norm_num) (by norm_num) (by omega) (by omega) (by omega)
  obtain ⟨f4, mm⟩ := cut (K := 1) 2 0 (2) (0) mm (by norm_num) (by norm_num) (by omega) (by omega) (by omega)
  rw [decUni_of f0, decUni, f4]
  simp [hh, f1, f2, f3, src_dec_enc, mk_of h]
theorem umul (hd : Hd) (a : Src) (b : Src) (e : Fin 64) : Statement (.umul hd a b e) := by
  intro _ h
  obtain ⟨N, eq⟩ : ∃ N, N = encodeNat (.umul hd a b e) := ⟨_, rfl⟩
  rw [← eq]
  replace eq : N = 0x22000003 + hd.enc + a.enc * 32768 + b.enc * 512 + e.val * 8 := eq
  have la := src_lt a; have lb := src_lt b; have le := e.isLt
  obtain ⟨f0, hh, mm⟩ := top (n := N) (op := 17) hd (r := a.enc * 32768 + b.enc * 512 + e.val * 8 + 3) (by omega) (by omega) (by omega)
  obtain ⟨f1, mm⟩ := cut (K := 32768) 20 15 (a.enc) (b.enc * 512 + e.val * 8 + 3) mm (by norm_num) (by norm_num) (by omega) (by omega) (by omega)
  obtain ⟨f2, mm⟩ := cut (K := 512) 14 9 (b.enc) (e.val * 8 + 3) mm (by norm_num) (by norm_num) (by omega) (by omega) (by omega)
  obtain ⟨f3, mm⟩ := cut (K := 8) 8 3 (e.val) (3) mm (by norm_num) (by norm_num) (by omega) (by omega) (by omega)
  obtain ⟨f4, mm⟩ := cut (K := 1) 2 0 (3) (0) mm (by norm_num) (by norm_num) (by omega) (by omega) (by omega)
  rw [decUni_of f0, decUni, f4]
  simp [hh, f1, f2, f3, src_dec_enc, mk_of h]
theorem uand (hd : Hd) (a : Src) (b : Src) (e : Fin 64) : Statement (.uand hd a b e) := by
  intro _ h
  obtain ⟨N, eq⟩ : ∃ N, N = encodeNat (.uand hd a b e) := ⟨_, rfl⟩
  rw [← eq]
  replace eq : N = 0x22000004 + hd.enc + a.enc * 32768 + b.enc * 512 + e.val * 8 := eq
  have la := src_lt a; have lb := src_lt b; have le := e.isLt
  obtain ⟨f0, hh, mm⟩ := top (n := N) (op := 17) hd (r := a.enc * 32768 + b.enc * 512 + e.val * 8 + 4) (by omega) (by omega) (by omega)
  obtain ⟨f1, mm⟩ := cut (K := 32768) 20 15 (a.enc) (b.enc * 512 + e.val * 8 + 4) mm (by norm_num) (by norm_num) (by omega) (by omega) (by omega)
  obtain ⟨f2, mm⟩ := cut (K := 512) 14 9 (b.enc) (e.val * 8 + 4) mm (by norm_num) (by norm_num) (by omega) (by omega) (by omega)
  obtain ⟨f3, mm⟩ := cut (K := 8) 8 3 (e.val) (4) mm (by norm_num) (by norm_num) (by omega) (by omega) (by omega)
  obtain ⟨f4, mm⟩ := cut (K := 1) 2 0 (4) (0) mm (by norm_num) (by norm_num) (by omega) (by omega) (by omega)
  rw [decUni_of f0, decUni, f4]
  simp [hh, f1, f2, f3, src_dec_enc, mk_of h]
theorem uor (hd : Hd) (a : Src) (b : Src) (e : Fin 64) : Statement (.uor hd a b e) := by
  intro _ h
  obtain ⟨N, eq⟩ : ∃ N, N = encodeNat (.uor hd a b e) := ⟨_, rfl⟩
  rw [← eq]
  replace eq : N = 0x22000005 + hd.enc + a.enc * 32768 + b.enc * 512 + e.val * 8 := eq
  have la := src_lt a; have lb := src_lt b; have le := e.isLt
  obtain ⟨f0, hh, mm⟩ := top (n := N) (op := 17) hd (r := a.enc * 32768 + b.enc * 512 + e.val * 8 + 5) (by omega) (by omega) (by omega)
  obtain ⟨f1, mm⟩ := cut (K := 32768) 20 15 (a.enc) (b.enc * 512 + e.val * 8 + 5) mm (by norm_num) (by norm_num) (by omega) (by omega) (by omega)
  obtain ⟨f2, mm⟩ := cut (K := 512) 14 9 (b.enc) (e.val * 8 + 5) mm (by norm_num) (by norm_num) (by omega) (by omega) (by omega)
  obtain ⟨f3, mm⟩ := cut (K := 8) 8 3 (e.val) (5) mm (by norm_num) (by norm_num) (by omega) (by omega) (by omega)
  obtain ⟨f4, mm⟩ := cut (K := 1) 2 0 (5) (0) mm (by norm_num) (by norm_num) (by omega) (by omega) (by omega)
  rw [decUni_of f0, decUni, f4]
  simp [hh, f1, f2, f3, src_dec_enc, mk_of h]
theorem uxor (hd : Hd) (a : Src) (b : Src) (e : Fin 64) : Statement (.uxor hd a b e) := by
  intro _ h
  obtain ⟨N, eq⟩ : ∃ N, N = encodeNat (.uxor hd a b e) := ⟨_, rfl⟩
  rw [← eq]
  replace eq : N = 0x22000006 + hd.enc + a.enc * 32768 + b.enc * 512 + e.val * 8 := eq
  have la := src_lt a; have lb := src_lt b; have le := e.isLt
  obtain ⟨f0, hh, mm⟩ := top (n := N) (op := 17) hd (r := a.enc * 32768 + b.enc * 512 + e.val * 8 + 6) (by omega) (by omega) (by omega)
  obtain ⟨f1, mm⟩ := cut (K := 32768) 20 15 (a.enc) (b.enc * 512 + e.val * 8 + 6) mm (by norm_num) (by norm_num) (by omega) (by omega) (by omega)
  obtain ⟨f2, mm⟩ := cut (K := 512) 14 9 (b.enc) (e.val * 8 + 6) mm (by norm_num) (by norm_num) (by omega) (by omega) (by omega)
  obtain ⟨f3, mm⟩ := cut (K := 8) 8 3 (e.val) (6) mm (by norm_num) (by norm_num) (by omega) (by omega) (by omega)
  obtain ⟨f4, mm⟩ := cut (K := 1) 2 0 (6) (0) mm (by norm_num) (by norm_num) (by omega) (by omega) (by omega)
  rw [decUni_of f0, decUni, f4]
  simp [hh, f1, f2, f3, src_dec_enc, mk_of h]
theorem ushl (hd : Hd) (a : Src) (b : Src) (e : Fin 64) : Statement (.ushl hd a b e) := by
  intro _ h
  obtain ⟨N, eq⟩ : ∃ N, N = encodeNat (.ushl hd a b e) := ⟨_, rfl⟩
  rw [← eq]
  replace eq : N = 0x22000007 + hd.enc + a.enc * 32768 + b.enc * 512 + e.val * 8 := eq
  have la := src_lt a; have lb := src_lt b; have le := e.isLt
  obtain ⟨f0, hh, mm⟩ := top (n := N) (op := 17) hd (r := a.enc * 32768 + b.enc * 512 + e.val * 8 + 7) (by omega) (by omega) (by omega)
  obtain ⟨f1, mm⟩ := cut (K := 32768) 20 15 (a.enc) (b.enc * 512 + e.val * 8 + 7) mm (by norm_num) (by norm_num) (by omega) (by omega) (by omega)
  obtain ⟨f2, mm⟩ := cut (K := 512) 14 9 (b.enc) (e.val * 8 + 7) mm (by norm_num) (by norm_num) (by omega) (by omega) (by omega)
  obtain ⟨f3, mm⟩ := cut (K := 8) 8 3 (e.val) (7) mm (by norm_num) (by norm_num) (by omega) (by omega) (by omega)
  obtain ⟨f4, mm⟩ := cut (K := 1) 2 0 (7) (0) mm (by norm_num) (by norm_num) (by omega) (by omega) (by omega)
  rw [decUni_of f0, decUni, f4]
  simp [hh, f1, f2, f3, src_dec_enc, mk_of h]
theorem uld (hd : Hd) (a : Src) (e : Fin 64) : Statement (.uld hd a e) := by
  intro _ h
  obtain ⟨N, eq⟩ : ∃ N, N = encodeNat (.uld hd a e) := ⟨_, rfl⟩
  rw [← eq]
  replace eq : N = 0x24007000 + hd.enc + a.enc * 32768 + e.val * 8 := eq
  have la := src_lt a; have le := e.isLt
  obtain ⟨f0, hh, mm⟩ := top (n := N) (op := 18) hd (r := a.enc * 32768 + e.val * 8 + 28672) (by omega) (by omega) (by omega)
  obtain ⟨f1, mm⟩ := cut (K := 32768) 20 15 (a.enc) (e.val * 8 + 28672) mm (by norm_num) (by norm_num) (by omega) (by omega) (by omega)
  obtain ⟨f2, mm⟩ := cut (K := 512) 14 9 (56) (e.val * 8) mm (by norm_num) (by norm_num) (by omega) (by omega) (by omega)
  obtain ⟨f3, mm⟩ := cut (K := 8) 8 3 (e.val) (0) mm (by norm_num) (by norm_num) (by omega) (by omega) (by omega)
  obtain ⟨f4, mm⟩ := cut (K := 1) 2 0 (0) (0) mm (by norm_num) (by norm_num) (by omega) (by omega) (by omega)
  rw [decUld_of f0, decUld, f4]
  simp [hh, f1, f2, f3, src_dec_enc, need, mk_of h]
theorem uld64 (hd : Hd) (a : Src) (e : Fin 64) : Statement (.uld64 hd a e) := by
  intro _ h
  obtain ⟨N, eq⟩ : ∃ N, N = encodeNat (.uld64 hd a e) := ⟨_, rfl⟩
  rw [← eq]
  replace eq : N = 0x24007001 + hd.enc + a.enc * 32768 + e.val * 8 := eq
  have la := src_lt a; have le := e.isLt
  obtain ⟨f0, hh, mm⟩ := top (n := N) (op := 18) hd (r := a.enc * 32768 + e.val * 8 + 28673) (by omega) (by omega) (by omega)
  obtain ⟨f1, mm⟩ := cut (K := 32768) 20 15 (a.enc) (e.val * 8 + 28673) mm (by norm_num) (by norm_num) (by omega) (by omega) (by omega)
  obtain ⟨f2, mm⟩ := cut (K := 512) 14 9 (56) (e.val * 8 + 1) mm (by norm_num) (by norm_num) (by omega) (by omega) (by omega)
  obtain ⟨f3, mm⟩ := cut (K := 8) 8 3 (e.val) (1) mm (by norm_num) (by norm_num) (by omega) (by omega) (by omega)
  obtain ⟨f4, mm⟩ := cut (K := 1) 2 0 (1) (0) mm (by norm_num) (by norm_num) (by omega) (by omega) (by omega)
  rw [decUld_of f0, decUld, f4]
  simp [hh, f1, f2, f3, src_dec_enc, need, mk_of h]
theorem ushr (hd : Hd) (a : Src) (b : Src) (e : Fin 64) : Statement (.ushr hd a b e) := by
  intro _ h
  obtain ⟨N, eq⟩ : ∃ N, N = encodeNat (.ushr hd a b e) := ⟨_, rfl⟩
  rw [← eq]
  replace eq : N = 0x24000002 + hd.enc + a.enc * 32768 + b.enc * 512 + e.val * 8 := eq
  have la := src_lt a; have lb := src_lt b; have le := e.isLt
  obtain ⟨f0, hh, mm⟩ := top (n := N) (op := 18) hd (r := a.enc * 32768 + b.enc * 512 + e.val * 8 + 2) (by omega) (by omega) (by omega)
  obtain ⟨f1, mm⟩ := cut (K := 32768) 20 15 (a.enc) (b.enc * 512 + e.val * 8 + 2) mm (by norm_num) (by norm_num) (by omega) (by omega) (by omega)
  obtain ⟨f2, mm⟩ := cut (K := 512) 14 9 (b.enc) (e.val * 8 + 2) mm (by norm_num) (by norm_num) (by omega) (by omega) (by omega)
  obtain ⟨f3, mm⟩ := cut (K := 8) 8 3 (e.val) (2) mm (by norm_num) (by norm_num) (by omega) (by omega) (by omega)
  obtain ⟨f4, mm⟩ := cut (K := 1) 2 0 (2) (0) mm (by norm_num) (by norm_num) (by omega) (by omega) (by omega)
  rw [decUld_of f0, decUld, f4]
  simp [hh, f1, f2, f3, src_dec_enc, mk_of h]
theorem ucmp (hd : Hd) (a : Src) (b : Src) (e : Fin 64) : Statement (.ucmp hd a b e) := by
  intro _ h
  obtain ⟨N, eq⟩ : ∃ N, N = encodeNat (.ucmp hd a b e) := ⟨_, rfl⟩
  rw [← eq]
  replace eq : N = 0x24000003 + hd.enc + a.enc * 32768 + b.enc * 512 + e.val * 8 := eq
  have la := src_lt a; have lb := src_lt b; have le := e.isLt
  obtain ⟨f0, hh, mm⟩ := top (n := N) (op := 18) hd (r := a.enc * 32768 + b.enc * 512 + e.val * 8 + 3) (by omega) (by omega) (by omega)
  obtain ⟨f1, mm⟩ := cut (K := 32768) 20 15 (a.enc) (b.enc * 512 + e.val * 8 + 3) mm (by norm_num) (by norm_num) (by omega) (by omega) (by omega)
  obtain ⟨f2, mm⟩ := cut (K := 512) 14 9 (b.enc) (e.val * 8 + 3) mm (by norm_num) (by norm_num) (by omega) (by omega) (by omega)
  obtain ⟨f3, mm⟩ := cut (K := 8) 8 3 (e.val) (3) mm (by norm_num) (by norm_num) (by omega) (by omega) (by omega)
  obtain ⟨f4, mm⟩ := cut (K := 1) 2 0 (3) (0) mm (by norm_num) (by norm_num) (by omega) (by omega) (by omega)
  rw [decUld_of f0, decUld, f4]
  simp [hh, f1, f2, f3, src_dec_enc, mk_of h]
theorem usel (hd : Hd) (a : Src) (b : Src) (e : Fin 64) : Statement (.usel hd a b e) := by
  intro _ h
  obtain ⟨N, eq⟩ : ∃ N, N = encodeNat (.usel hd a b e) := ⟨_, rfl⟩
  rw [← eq]
  replace eq : N = 0x24000004 + hd.enc + a.enc * 32768 + b.enc * 512 + e.val * 8 := eq
  have la := src_lt a; have lb := src_lt b; have le := e.isLt
  obtain ⟨f0, hh, mm⟩ := top (n := N) (op := 18) hd (r := a.enc * 32768 + b.enc * 512 + e.val * 8 + 4) (by omega) (by omega) (by omega)
  obtain ⟨f1, mm⟩ := cut (K := 32768) 20 15 (a.enc) (b.enc * 512 + e.val * 8 + 4) mm (by norm_num) (by norm_num) (by omega) (by omega) (by omega)
  obtain ⟨f2, mm⟩ := cut (K := 512) 14 9 (b.enc) (e.val * 8 + 4) mm (by norm_num) (by norm_num) (by omega) (by omega) (by omega)
  obtain ⟨f3, mm⟩ := cut (K := 8) 8 3 (e.val) (4) mm (by norm_num) (by norm_num) (by omega) (by omega) (by omega)
  obtain ⟨f4, mm⟩ := cut (K := 1) 2 0 (4) (0) mm (by norm_num) (by norm_num) (by omega) (by omega) (by omega)
  rw [decUld_of f0, decUld, f4]
  simp [hh, f1, f2, f3, src_dec_enc, mk_of h]
theorem uwin (hd : Hd) (a : Src) : Statement (.uwin hd a) := by
  intro _ h
  obtain ⟨N, eq⟩ : ∃ N, N = encodeNat (.uwin hd a) := ⟨_, rfl⟩
  rw [← eq]
  replace eq : N = 0x24007005 + hd.enc + a.enc * 32768 := eq
  have la := src_lt a
  obtain ⟨f0, hh, mm⟩ := top (n := N) (op := 18) hd (r := a.enc * 32768 + 28677) (by omega) (by omega) (by omega)
  obtain ⟨f1, mm⟩ := cut (K := 32768) 20 15 (a.enc) (28677) mm (by norm_num) (by norm_num) (by omega) (by omega) (by omega)
  obtain ⟨f2, mm⟩ := cut (K := 8) 14 3 (3584) (5) mm (by norm_num) (by norm_num) (by omega) (by omega) (by omega)
  obtain ⟨f3, mm⟩ := cut (K := 1) 2 0 (5) (0) mm (by norm_num) (by norm_num) (by omega) (by omega) (by omega)
  rw [decUld_of f0, decUld, f3]
  simp [hh, f1, f2, src_dec_enc, need, mk_of h]
theorem ld (hd : Hd) (a : Src) (b : Src) (p : Space) (w : Width) : Statement (.ld hd a b p w) := by
  intro _ h
  obtain ⟨N, eq⟩ : ∃ N, N = encodeNat (.ld hd a b p w) := ⟨_, rfl⟩
  rw [← eq]
  replace eq : N = 0x30000000 + hd.enc + a.enc * 32768 + b.enc * 512 + p.enc * 64 + w.enc * 8 := eq
  have la := src_lt a; have lb := src_lt b; have lp := space_lt p; have lw := width_lt w
  obtain ⟨f0, hh, mm⟩ := top (n := N) (op := 24) hd (r := a.enc * 32768 + b.enc * 512 + p.enc * 64 + w.enc * 8) (by omega) (by omega) (by omega)
  obtain ⟨f1, mm⟩ := cut (K := 32768) 20 15 (a.enc) (b.enc * 512 + p.enc * 64 + w.enc * 8) mm (by norm_num) (by norm_num) (by omega) (by omega) (by omega)
  obtain ⟨f2, mm⟩ := cut (K := 512) 14 9 (b.enc) (p.enc * 64 + w.enc * 8) mm (by norm_num) (by norm_num) (by omega) (by omega) (by omega)
  obtain ⟨f3, mm⟩ := cut (K := 64) 8 6 (p.enc) (w.enc * 8) mm (by norm_num) (by norm_num) (by omega) (by omega) (by omega)
  obtain ⟨f4, mm⟩ := cut (K := 8) 5 3 (w.enc) (0) mm (by norm_num) (by norm_num) (by omega) (by omega) (by omega)
  obtain ⟨f5, mm⟩ := cut (K := 1) 2 0 (0) (0) mm (by norm_num) (by norm_num) (by omega) (by omega) (by omega)
  rw [decLd_of f0, decLd, f5]
  simp [hh, f1, f2, f3, f4, space_dec_enc, src_dec_enc, width_dec_enc, ok_bind, mk_of h]
theorem ldS (hd : Hd) (a : Src) (b : Src) (p : Space) (w : Width) : Statement (.ldS hd a b p w) := by
  intro _ h
  obtain ⟨N, eq⟩ : ∃ N, N = encodeNat (.ldS hd a b p w) := ⟨_, rfl⟩
  rw [← eq]
  replace eq : N = 0x30000001 + hd.enc + a.enc * 32768 + b.enc * 512 + p.enc * 64 + w.enc * 8 := eq
  have la := src_lt a; have lb := src_lt b; have lp := space_lt p; have lw := width_lt w
  obtain ⟨f0, hh, mm⟩ := top (n := N) (op := 24) hd (r := a.enc * 32768 + b.enc * 512 + p.enc * 64 + w.enc * 8 + 1) (by omega) (by omega) (by omega)
  obtain ⟨f1, mm⟩ := cut (K := 32768) 20 15 (a.enc) (b.enc * 512 + p.enc * 64 + w.enc * 8 + 1) mm (by norm_num) (by norm_num) (by omega) (by omega) (by omega)
  obtain ⟨f2, mm⟩ := cut (K := 512) 14 9 (b.enc) (p.enc * 64 + w.enc * 8 + 1) mm (by norm_num) (by norm_num) (by omega) (by omega) (by omega)
  obtain ⟨f3, mm⟩ := cut (K := 64) 8 6 (p.enc) (w.enc * 8 + 1) mm (by norm_num) (by norm_num) (by omega) (by omega) (by omega)
  obtain ⟨f4, mm⟩ := cut (K := 8) 5 3 (w.enc) (1) mm (by norm_num) (by norm_num) (by omega) (by omega) (by omega)
  obtain ⟨f5, mm⟩ := cut (K := 1) 2 0 (1) (0) mm (by norm_num) (by norm_num) (by omega) (by omega) (by omega)
  rw [decLd_of f0, decLd, f5]
  simp [hh, f1, f2, f3, f4, space_dec_enc, src_dec_enc, width_dec_enc, ok_bind, mk_of h]
theorem pref (hd : Hd) (a : Src) (p : Space) : Statement (.pref hd a p) := by
  intro _ h
  obtain ⟨N, eq⟩ : ∃ N, N = encodeNat (.pref hd a p) := ⟨_, rfl⟩
  rw [← eq]
  replace eq : N = 0x30007002 + hd.enc + a.enc * 32768 + p.enc * 64 := eq
  have la := src_lt a; have lp := space_lt p
  obtain ⟨f0, hh, mm⟩ := top (n := N) (op := 24) hd (r := a.enc * 32768 + p.enc * 64 + 28674) (by omega) (by omega) (by omega)
  obtain ⟨f1, mm⟩ := cut (K := 32768) 20 15 (a.enc) (p.enc * 64 + 28674) mm (by norm_num) (by norm_num) (by omega) (by omega) (by omega)
  obtain ⟨f2, mm⟩ := cut (K := 512) 14 9 (56) (p.enc * 64 + 2) mm (by norm_num) (by norm_num) (by omega) (by omega) (by omega)
  obtain ⟨f3, mm⟩ := cut (K := 64) 8 6 (p.enc) (2) mm (by norm_num) (by norm_num) (by omega) (by omega) (by omega)
  obtain ⟨f4, mm⟩ := cut (K := 8) 5 3 (0) (2) mm (by norm_num) (by norm_num) (by omega) (by omega) (by omega)
  obtain ⟨f5, mm⟩ := cut (K := 1) 2 0 (2) (0) mm (by norm_num) (by norm_num) (by omega) (by omega) (by omega)
  rw [decLd_of f0, decLd, f5]
  simp [hh, f1, f2, f3, f4, space_dec_enc, src_dec_enc, need, mk_of h]
theorem cache (hd : Hd) (a : Src) (b : Src) (p : Space) : Statement (.cache hd a b p) := by
  intro _ h
  obtain ⟨N, eq⟩ : ∃ N, N = encodeNat (.cache hd a b p) := ⟨_, rfl⟩
  rw [← eq]
  replace eq : N = 0x30000003 + hd.enc + a.enc * 32768 + b.enc * 512 + p.enc * 64 := eq
  have la := src_lt a; have lb := src_lt b; have lp := space_lt p
  obtain ⟨f0, hh, mm⟩ := top (n := N) (op := 24) hd (r := a.enc * 32768 + b.enc * 512 + p.enc * 64 + 3) (by omega) (by omega) (by omega)
  obtain ⟨f1, mm⟩ := cut (K := 32768) 20 15 (a.enc) (b.enc * 512 + p.enc * 64 + 3) mm (by norm_num) (by norm_num) (by omega) (by omega) (by omega)
  obtain ⟨f2, mm⟩ := cut (K := 512) 14 9 (b.enc) (p.enc * 64 + 3) mm (by norm_num) (by norm_num) (by omega) (by omega) (by omega)
  obtain ⟨f3, mm⟩ := cut (K := 64) 8 6 (p.enc) (3) mm (by norm_num) (by norm_num) (by omega) (by omega) (by omega)
  obtain ⟨f4, mm⟩ := cut (K := 8) 5 3 (0) (3) mm (by norm_num) (by norm_num) (by omega) (by omega) (by omega)
  obtain ⟨f5, mm⟩ := cut (K := 1) 2 0 (3) (0) mm (by norm_num) (by norm_num) (by omega) (by omega) (by omega)
  rw [decLd_of f0, decLd, f5]
  simp [hh, f1, f2, f3, f4, space_dec_enc, src_dec_enc, need, mk_of h]
theorem st (hd : Hd) (a : Src) (b : Src) (p : Space) (w : Width) : Statement (.st hd a b p w) := by
  intro _ h
  obtain ⟨N, eq⟩ : ∃ N, N = encodeNat (.st hd a b p w) := ⟨_, rfl⟩
  rw [← eq]
  replace eq : N = 0x32000000 + hd.enc + a.enc * 32768 + b.enc * 512 + p.enc * 64 + w.enc * 8 := eq
  have la := src_lt a; have lb := src_lt b; have lp := space_lt p; have lw := width_lt w
  obtain ⟨f0, hh, mm⟩ := top (n := N) (op := 25) hd (r := a.enc * 32768 + b.enc * 512 + p.enc * 64 + w.enc * 8) (by omega) (by omega) (by omega)
  obtain ⟨f1, mm⟩ := cut (K := 32768) 20 15 (a.enc) (b.enc * 512 + p.enc * 64 + w.enc * 8) mm (by norm_num) (by norm_num) (by omega) (by omega) (by omega)
  obtain ⟨f2, mm⟩ := cut (K := 512) 14 9 (b.enc) (p.enc * 64 + w.enc * 8) mm (by norm_num) (by norm_num) (by omega) (by omega) (by omega)
  obtain ⟨f3, mm⟩ := cut (K := 64) 8 6 (p.enc) (w.enc * 8) mm (by norm_num) (by norm_num) (by omega) (by omega) (by omega)
  obtain ⟨f4, mm⟩ := cut (K := 8) 5 3 (w.enc) (0) mm (by norm_num) (by norm_num) (by omega) (by omega) (by omega)
  obtain ⟨f5, mm⟩ := cut (K := 1) 2 0 (0) (0) mm (by norm_num) (by norm_num) (by omega) (by omega) (by omega)
  rw [decSt_of f0, decSt, f5]
  simp [hh, f1, f2, f3, f4, space_dec_enc, src_dec_enc, width_dec_enc, ok_bind, mk_of h]
theorem reddAdd (hd : Hd) (a : Src) (b : Src) (w : Width) : Statement (.reddAdd hd a b w) := by
  intro _ h
  obtain ⟨N, eq⟩ : ∃ N, N = encodeNat (.reddAdd hd a b w) := ⟨_, rfl⟩
  rw [← eq]
  replace eq : N = 0x32000001 + hd.enc + a.enc * 32768 + b.enc * 512 + w.enc * 8 := eq
  have la := src_lt a; have lb := src_lt b; have lw := width_lt w
  obtain ⟨f0, hh, mm⟩ := top (n := N) (op := 25) hd (r := a.enc * 32768 + b.enc * 512 + w.enc * 8 + 1) (by omega) (by omega) (by omega)
  obtain ⟨f1, mm⟩ := cut (K := 32768) 20 15 (a.enc) (b.enc * 512 + w.enc * 8 + 1) mm (by norm_num) (by norm_num) (by omega) (by omega) (by omega)
  obtain ⟨f2, mm⟩ := cut (K := 512) 14 9 (b.enc) (w.enc * 8 + 1) mm (by norm_num) (by norm_num) (by omega) (by omega) (by omega)
  obtain ⟨f3, mm⟩ := cut (K := 64) 8 6 (0) (w.enc * 8 + 1) mm (by norm_num) (by norm_num) (by omega) (by omega) (by omega)
  obtain ⟨f4, mm⟩ := cut (K := 8) 5 3 (w.enc) (1) mm (by norm_num) (by norm_num) (by omega) (by omega) (by omega)
  obtain ⟨f5, mm⟩ := cut (K := 1) 2 0 (1) (0) mm (by norm_num) (by norm_num) (by omega) (by omega) (by omega)
  rw [decSt_of f0, decSt, f5]
  simp [hh, f1, f2, f3, f4, src_dec_enc, width_dec_enc, need, ok_bind, mk_of h]
theorem reddFadd (hd : Hd) (a : Src) (b : Src) (w : Width) : Statement (.reddFadd hd a b w) := by
  intro _ h
  obtain ⟨N, eq⟩ : ∃ N, N = encodeNat (.reddFadd hd a b w) := ⟨_, rfl⟩
  rw [← eq]
  replace eq : N = 0x32000002 + hd.enc + a.enc * 32768 + b.enc * 512 + w.enc * 8 := eq
  have la := src_lt a; have lb := src_lt b; have lw := width_lt w
  obtain ⟨f0, hh, mm⟩ := top (n := N) (op := 25) hd (r := a.enc * 32768 + b.enc * 512 + w.enc * 8 + 2) (by omega) (by omega) (by omega)
  obtain ⟨f1, mm⟩ := cut (K := 32768) 20 15 (a.enc) (b.enc * 512 + w.enc * 8 + 2) mm (by norm_num) (by norm_num) (by omega) (by omega) (by omega)
  obtain ⟨f2, mm⟩ := cut (K := 512) 14 9 (b.enc) (w.enc * 8 + 2) mm (by norm_num) (by norm_num) (by omega) (by omega) (by omega)
  obtain ⟨f3, mm⟩ := cut (K := 64) 8 6 (0) (w.enc * 8 + 2) mm (by norm_num) (by norm_num) (by omega) (by omega) (by omega)
  obtain ⟨f4, mm⟩ := cut (K := 8) 5 3 (w.enc) (2) mm (by norm_num) (by norm_num) (by omega) (by omega) (by omega)
  obtain ⟨f5, mm⟩ := cut (K := 1) 2 0 (2) (0) mm (by norm_num) (by norm_num) (by omega) (by omega) (by omega)
  rw [decSt_of f0, decSt, f5]
  simp [hh, f1, f2, f3, f4, src_dec_enc, width_dec_enc, need, ok_bind, mk_of h]
theorem reddMin (hd : Hd) (a : Src) (b : Src) (w : Width) : Statement (.reddMin hd a b w) := by
  intro _ h
  obtain ⟨N, eq⟩ : ∃ N, N = encodeNat (.reddMin hd a b w) := ⟨_, rfl⟩
  rw [← eq]
  replace eq : N = 0x32000003 + hd.enc + a.enc * 32768 + b.enc * 512 + w.enc * 8 := eq
  have la := src_lt a; have lb := src_lt b; have lw := width_lt w
  obtain ⟨f0, hh, mm⟩ := top (n := N) (op := 25) hd (r := a.enc * 32768 + b.enc * 512 + w.enc * 8 + 3) (by omega) (by omega) (by omega)
  obtain ⟨f1, mm⟩ := cut (K := 32768) 20 15 (a.enc) (b.enc * 512 + w.enc * 8 + 3) mm (by norm_num) (by norm_num) (by omega) (by omega) (by omega)
  obtain ⟨f2, mm⟩ := cut (K := 512) 14 9 (b.enc) (w.enc * 8 + 3) mm (by norm_num) (by norm_num) (by omega) (by omega) (by omega)
  obtain ⟨f3, mm⟩ := cut (K := 64) 8 6 (0) (w.enc * 8 + 3) mm (by norm_num) (by norm_num) (by omega) (by omega) (by omega)
  obtain ⟨f4, mm⟩ := cut (K := 8) 5 3 (w.enc) (3) mm (by norm_num) (by norm_num) (by omega) (by omega) (by omega)
  obtain ⟨f5, mm⟩ := cut (K := 1) 2 0 (3) (0) mm (by norm_num) (by norm_num) (by omega) (by omega) (by omega)
  rw [decSt_of f0, decSt, f5]
  simp [hh, f1, f2, f3, f4, src_dec_enc, width_dec_enc, need, ok_bind, mk_of h]
theorem reddMax (hd : Hd) (a : Src) (b : Src) (w : Width) : Statement (.reddMax hd a b w) := by
  intro _ h
  obtain ⟨N, eq⟩ : ∃ N, N = encodeNat (.reddMax hd a b w) := ⟨_, rfl⟩
  rw [← eq]
  replace eq : N = 0x32000004 + hd.enc + a.enc * 32768 + b.enc * 512 + w.enc * 8 := eq
  have la := src_lt a; have lb := src_lt b; have lw := width_lt w
  obtain ⟨f0, hh, mm⟩ := top (n := N) (op := 25) hd (r := a.enc * 32768 + b.enc * 512 + w.enc * 8 + 4) (by omega) (by omega) (by omega)
  obtain ⟨f1, mm⟩ := cut (K := 32768) 20 15 (a.enc) (b.enc * 512 + w.enc * 8 + 4) mm (by norm_num) (by norm_num) (by omega) (by omega) (by omega)
  obtain ⟨f2, mm⟩ := cut (K := 512) 14 9 (b.enc) (w.enc * 8 + 4) mm (by norm_num) (by norm_num) (by omega) (by omega) (by omega)
  obtain ⟨f3, mm⟩ := cut (K := 64) 8 6 (0) (w.enc * 8 + 4) mm (by norm_num) (by norm_num) (by omega) (by omega) (by omega)
  obtain ⟨f4, mm⟩ := cut (K := 8) 5 3 (w.enc) (4) mm (by norm_num) (by norm_num) (by omega) (by omega) (by omega)
  obtain ⟨f5, mm⟩ := cut (K := 1) 2 0 (4) (0) mm (by norm_num) (by norm_num) (by omega) (by omega) (by omega)
  rw [decSt_of f0, decSt, f5]
  simp [hh, f1, f2, f3, f4, src_dec_enc, width_dec_enc, need, ok_bind, mk_of h]
theorem reddMinU (hd : Hd) (a : Src) (b : Src) (w : Width) : Statement (.reddMinU hd a b w) := by
  intro _ h
  obtain ⟨N, eq⟩ : ∃ N, N = encodeNat (.reddMinU hd a b w) := ⟨_, rfl⟩
  rw [← eq]
  replace eq : N = 0x32000005 + hd.enc + a.enc * 32768 + b.enc * 512 + w.enc * 8 := eq
  have la := src_lt a; have lb := src_lt b; have lw := width_lt w
  obtain ⟨f0, hh, mm⟩ := top (n := N) (op := 25) hd (r := a.enc * 32768 + b.enc * 512 + w.enc * 8 + 5) (by omega) (by omega) (by omega)
  obtain ⟨f1, mm⟩ := cut (K := 32768) 20 15 (a.enc) (b.enc * 512 + w.enc * 8 + 5) mm (by norm_num) (by norm_num) (by omega) (by omega) (by omega)
  obtain ⟨f2, mm⟩ := cut (K := 512) 14 9 (b.enc) (w.enc * 8 + 5) mm (by norm_num) (by norm_num) (by omega) (by omega) (by omega)
  obtain ⟨f3, mm⟩ := cut (K := 64) 8 6 (0) (w.enc * 8 + 5) mm (by norm_num) (by norm_num) (by omega) (by omega) (by omega)
  obtain ⟨f4, mm⟩ := cut (K := 8) 5 3 (w.enc) (5) mm (by norm_num) (by norm_num) (by omega) (by omega) (by omega)
  obtain ⟨f5, mm⟩ := cut (K := 1) 2 0 (5) (0) mm (by norm_num) (by norm_num) (by omega) (by omega) (by omega)
  rw [decSt_of f0, decSt, f5]
  simp [hh, f1, f2, f3, f4, src_dec_enc, width_dec_enc, need, ok_bind, mk_of h]
theorem reddMaxU (hd : Hd) (a : Src) (b : Src) (w : Width) : Statement (.reddMaxU hd a b w) := by
  intro _ h
  obtain ⟨N, eq⟩ : ∃ N, N = encodeNat (.reddMaxU hd a b w) := ⟨_, rfl⟩
  rw [← eq]
  replace eq : N = 0x32000006 + hd.enc + a.enc * 32768 + b.enc * 512 + w.enc * 8 := eq
  have la := src_lt a; have lb := src_lt b; have lw := width_lt w
  obtain ⟨f0, hh, mm⟩ := top (n := N) (op := 25) hd (r := a.enc * 32768 + b.enc * 512 + w.enc * 8 + 6) (by omega) (by omega) (by omega)
  obtain ⟨f1, mm⟩ := cut (K := 32768) 20 15 (a.enc) (b.enc * 512 + w.enc * 8 + 6) mm (by norm_num) (by norm_num) (by omega) (by omega) (by omega)
  obtain ⟨f2, mm⟩ := cut (K := 512) 14 9 (b.enc) (w.enc * 8 + 6) mm (by norm_num) (by norm_num) (by omega) (by omega) (by omega)
  obtain ⟨f3, mm⟩ := cut (K := 64) 8 6 (0) (w.enc * 8 + 6) mm (by norm_num) (by norm_num) (by omega) (by omega) (by omega)
  obtain ⟨f4, mm⟩ := cut (K := 8) 5 3 (w.enc) (6) mm (by norm_num) (by norm_num) (by omega) (by omega) (by omega)
  obtain ⟨f5, mm⟩ := cut (K := 1) 2 0 (6) (0) mm (by norm_num) (by norm_num) (by omega) (by omega) (by omega)
  rw [decSt_of f0, decSt, f5]
  simp [hh, f1, f2, f3, f4, src_dec_enc, width_dec_enc, need, ok_bind, mk_of h]
theorem reddOr (hd : Hd) (a : Src) (b : Src) (w : Width) : Statement (.reddOr hd a b w) := by
  intro _ h
  obtain ⟨N, eq⟩ : ∃ N, N = encodeNat (.reddOr hd a b w) := ⟨_, rfl⟩
  rw [← eq]
  replace eq : N = 0x32000007 + hd.enc + a.enc * 32768 + b.enc * 512 + w.enc * 8 := eq
  have la := src_lt a; have lb := src_lt b; have lw := width_lt w
  obtain ⟨f0, hh, mm⟩ := top (n := N) (op := 25) hd (r := a.enc * 32768 + b.enc * 512 + w.enc * 8 + 7) (by omega) (by omega) (by omega)
  obtain ⟨f1, mm⟩ := cut (K := 32768) 20 15 (a.enc) (b.enc * 512 + w.enc * 8 + 7) mm (by norm_num) (by norm_num) (by omega) (by omega) (by omega)
  obtain ⟨f2, mm⟩ := cut (K := 512) 14 9 (b.enc) (w.enc * 8 + 7) mm (by norm_num) (by norm_num) (by omega) (by omega) (by omega)
  obtain ⟨f3, mm⟩ := cut (K := 64) 8 6 (0) (w.enc * 8 + 7) mm (by norm_num) (by norm_num) (by omega) (by omega) (by omega)
  obtain ⟨f4, mm⟩ := cut (K := 8) 5 3 (w.enc) (7) mm (by norm_num) (by norm_num) (by omega) (by omega) (by omega)
  obtain ⟨f5, mm⟩ := cut (K := 1) 2 0 (7) (0) mm (by norm_num) (by norm_num) (by omega) (by omega) (by omega)
  rw [decSt_of f0, decSt, f5]
  simp [hh, f1, f2, f3, f4, src_dec_enc, width_dec_enc, need, ok_bind, mk_of h]
theorem atomAdd (hd : Hd) (a : Src) (b : Src) (p : Space) (w : Width) : Statement (.atomAdd hd a b p w) := by
  intro _ h
  obtain ⟨N, eq⟩ : ∃ N, N = encodeNat (.atomAdd hd a b p w) := ⟨_, rfl⟩
  rw [← eq]
  replace eq : N = 0x34000000 + hd.enc + a.enc * 32768 + b.enc * 512 + p.enc * 64 + w.enc * 8 := eq
  have la := src_lt a; have lb := src_lt b; have lp := space_lt p; have lw := width_lt w
  obtain ⟨f0, hh, mm⟩ := top (n := N) (op := 26) hd (r := a.enc * 32768 + b.enc * 512 + p.enc * 64 + w.enc * 8) (by omega) (by omega) (by omega)
  obtain ⟨f1, mm⟩ := cut (K := 32768) 20 15 (a.enc) (b.enc * 512 + p.enc * 64 + w.enc * 8) mm (by norm_num) (by norm_num) (by omega) (by omega) (by omega)
  obtain ⟨f2, mm⟩ := cut (K := 512) 14 9 (b.enc) (p.enc * 64 + w.enc * 8) mm (by norm_num) (by norm_num) (by omega) (by omega) (by omega)
  obtain ⟨f3, mm⟩ := cut (K := 64) 8 6 (p.enc) (w.enc * 8) mm (by norm_num) (by norm_num) (by omega) (by omega) (by omega)
  obtain ⟨f4, mm⟩ := cut (K := 8) 5 3 (w.enc) (0) mm (by norm_num) (by norm_num) (by omega) (by omega) (by omega)
  obtain ⟨f5, mm⟩ := cut (K := 1) 2 0 (0) (0) mm (by norm_num) (by norm_num) (by omega) (by omega) (by omega)
  rw [decAtom_of f0, decAtom, f5]
  simp [hh, f1, f2, f3, f4, space_dec_enc, src_dec_enc, width_dec_enc, ok_bind, mk_of h]
theorem atomFadd (hd : Hd) (a : Src) (b : Src) (p : Space) (w : Width) : Statement (.atomFadd hd a b p w) := by
  intro _ h
  obtain ⟨N, eq⟩ : ∃ N, N = encodeNat (.atomFadd hd a b p w) := ⟨_, rfl⟩
  rw [← eq]
  replace eq : N = 0x34000001 + hd.enc + a.enc * 32768 + b.enc * 512 + p.enc * 64 + w.enc * 8 := eq
  have la := src_lt a; have lb := src_lt b; have lp := space_lt p; have lw := width_lt w
  obtain ⟨f0, hh, mm⟩ := top (n := N) (op := 26) hd (r := a.enc * 32768 + b.enc * 512 + p.enc * 64 + w.enc * 8 + 1) (by omega) (by omega) (by omega)
  obtain ⟨f1, mm⟩ := cut (K := 32768) 20 15 (a.enc) (b.enc * 512 + p.enc * 64 + w.enc * 8 + 1) mm (by norm_num) (by norm_num) (by omega) (by omega) (by omega)
  obtain ⟨f2, mm⟩ := cut (K := 512) 14 9 (b.enc) (p.enc * 64 + w.enc * 8 + 1) mm (by norm_num) (by norm_num) (by omega) (by omega) (by omega)
  obtain ⟨f3, mm⟩ := cut (K := 64) 8 6 (p.enc) (w.enc * 8 + 1) mm (by norm_num) (by norm_num) (by omega) (by omega) (by omega)
  obtain ⟨f4, mm⟩ := cut (K := 8) 5 3 (w.enc) (1) mm (by norm_num) (by norm_num) (by omega) (by omega) (by omega)
  obtain ⟨f5, mm⟩ := cut (K := 1) 2 0 (1) (0) mm (by norm_num) (by norm_num) (by omega) (by omega) (by omega)
  rw [decAtom_of f0, decAtom, f5]
  simp [hh, f1, f2, f3, f4, space_dec_enc, src_dec_enc, width_dec_enc, ok_bind, mk_of h]
theorem atomMin (hd : Hd) (a : Src) (b : Src) (p : Space) (w : Width) : Statement (.atomMin hd a b p w) := by
  intro _ h
  obtain ⟨N, eq⟩ : ∃ N, N = encodeNat (.atomMin hd a b p w) := ⟨_, rfl⟩
  rw [← eq]
  replace eq : N = 0x34000002 + hd.enc + a.enc * 32768 + b.enc * 512 + p.enc * 64 + w.enc * 8 := eq
  have la := src_lt a; have lb := src_lt b; have lp := space_lt p; have lw := width_lt w
  obtain ⟨f0, hh, mm⟩ := top (n := N) (op := 26) hd (r := a.enc * 32768 + b.enc * 512 + p.enc * 64 + w.enc * 8 + 2) (by omega) (by omega) (by omega)
  obtain ⟨f1, mm⟩ := cut (K := 32768) 20 15 (a.enc) (b.enc * 512 + p.enc * 64 + w.enc * 8 + 2) mm (by norm_num) (by norm_num) (by omega) (by omega) (by omega)
  obtain ⟨f2, mm⟩ := cut (K := 512) 14 9 (b.enc) (p.enc * 64 + w.enc * 8 + 2) mm (by norm_num) (by norm_num) (by omega) (by omega) (by omega)
  obtain ⟨f3, mm⟩ := cut (K := 64) 8 6 (p.enc) (w.enc * 8 + 2) mm (by norm_num) (by norm_num) (by omega) (by omega) (by omega)
  obtain ⟨f4, mm⟩ := cut (K := 8) 5 3 (w.enc) (2) mm (by norm_num) (by norm_num) (by omega) (by omega) (by omega)
  obtain ⟨f5, mm⟩ := cut (K := 1) 2 0 (2) (0) mm (by norm_num) (by norm_num) (by omega) (by omega) (by omega)
  rw [decAtom_of f0, decAtom, f5]
  simp [hh, f1, f2, f3, f4, space_dec_enc, src_dec_enc, width_dec_enc, ok_bind, mk_of h]
theorem atomMax (hd : Hd) (a : Src) (b : Src) (p : Space) (w : Width) : Statement (.atomMax hd a b p w) := by
  intro _ h
  obtain ⟨N, eq⟩ : ∃ N, N = encodeNat (.atomMax hd a b p w) := ⟨_, rfl⟩
  rw [← eq]
  replace eq : N = 0x34000003 + hd.enc + a.enc * 32768 + b.enc * 512 + p.enc * 64 + w.enc * 8 := eq
  have la := src_lt a; have lb := src_lt b; have lp := space_lt p; have lw := width_lt w
  obtain ⟨f0, hh, mm⟩ := top (n := N) (op := 26) hd (r := a.enc * 32768 + b.enc * 512 + p.enc * 64 + w.enc * 8 + 3) (by omega) (by omega) (by omega)
  obtain ⟨f1, mm⟩ := cut (K := 32768) 20 15 (a.enc) (b.enc * 512 + p.enc * 64 + w.enc * 8 + 3) mm (by norm_num) (by norm_num) (by omega) (by omega) (by omega)
  obtain ⟨f2, mm⟩ := cut (K := 512) 14 9 (b.enc) (p.enc * 64 + w.enc * 8 + 3) mm (by norm_num) (by norm_num) (by omega) (by omega) (by omega)
  obtain ⟨f3, mm⟩ := cut (K := 64) 8 6 (p.enc) (w.enc * 8 + 3) mm (by norm_num) (by norm_num) (by omega) (by omega) (by omega)
  obtain ⟨f4, mm⟩ := cut (K := 8) 5 3 (w.enc) (3) mm (by norm_num) (by norm_num) (by omega) (by omega) (by omega)
  obtain ⟨f5, mm⟩ := cut (K := 1) 2 0 (3) (0) mm (by norm_num) (by norm_num) (by omega) (by omega) (by omega)
  rw [decAtom_of f0, decAtom, f5]
  simp [hh, f1, f2, f3, f4, space_dec_enc, src_dec_enc, width_dec_enc, ok_bind, mk_of h]
theorem atomAnd (hd : Hd) (a : Src) (b : Src) (p : Space) (w : Width) : Statement (.atomAnd hd a b p w) := by
  intro _ h
  obtain ⟨N, eq⟩ : ∃ N, N = encodeNat (.atomAnd hd a b p w) := ⟨_, rfl⟩
  rw [← eq]
  replace eq : N = 0x34000004 + hd.enc + a.enc * 32768 + b.enc * 512 + p.enc * 64 + w.enc * 8 := eq
  have la := src_lt a; have lb := src_lt b; have lp := space_lt p; have lw := width_lt w
  obtain ⟨f0, hh, mm⟩ := top (n := N) (op := 26) hd (r := a.enc * 32768 + b.enc * 512 + p.enc * 64 + w.enc * 8 + 4) (by omega) (by omega) (by omega)
  obtain ⟨f1, mm⟩ := cut (K := 32768) 20 15 (a.enc) (b.enc * 512 + p.enc * 64 + w.enc * 8 + 4) mm (by norm_num) (by norm_num) (by omega) (by omega) (by omega)
  obtain ⟨f2, mm⟩ := cut (K := 512) 14 9 (b.enc) (p.enc * 64 + w.enc * 8 + 4) mm (by norm_num) (by norm_num) (by omega) (by omega) (by omega)
  obtain ⟨f3, mm⟩ := cut (K := 64) 8 6 (p.enc) (w.enc * 8 + 4) mm (by norm_num) (by norm_num) (by omega) (by omega) (by omega)
  obtain ⟨f4, mm⟩ := cut (K := 8) 5 3 (w.enc) (4) mm (by norm_num) (by norm_num) (by omega) (by omega) (by omega)
  obtain ⟨f5, mm⟩ := cut (K := 1) 2 0 (4) (0) mm (by norm_num) (by norm_num) (by omega) (by omega) (by omega)
  rw [decAtom_of f0, decAtom, f5]
  simp [hh, f1, f2, f3, f4, space_dec_enc, src_dec_enc, width_dec_enc, ok_bind, mk_of h]
theorem atomOr (hd : Hd) (a : Src) (b : Src) (p : Space) (w : Width) : Statement (.atomOr hd a b p w) := by
  intro _ h
  obtain ⟨N, eq⟩ : ∃ N, N = encodeNat (.atomOr hd a b p w) := ⟨_, rfl⟩
  rw [← eq]
  replace eq : N = 0x34000005 + hd.enc + a.enc * 32768 + b.enc * 512 + p.enc * 64 + w.enc * 8 := eq
  have la := src_lt a; have lb := src_lt b; have lp := space_lt p; have lw := width_lt w
  obtain ⟨f0, hh, mm⟩ := top (n := N) (op := 26) hd (r := a.enc * 32768 + b.enc * 512 + p.enc * 64 + w.enc * 8 + 5) (by omega) (by omega) (by omega)
  obtain ⟨f1, mm⟩ := cut (K := 32768) 20 15 (a.enc) (b.enc * 512 + p.enc * 64 + w.enc * 8 + 5) mm (by norm_num) (by norm_num) (by omega) (by omega) (by omega)
  obtain ⟨f2, mm⟩ := cut (K := 512) 14 9 (b.enc) (p.enc * 64 + w.enc * 8 + 5) mm (by norm_num) (by norm_num) (by omega) (by omega) (by omega)
  obtain ⟨f3, mm⟩ := cut (K := 64) 8 6 (p.enc) (w.enc * 8 + 5) mm (by norm_num) (by norm_num) (by omega) (by omega) (by omega)
  obtain ⟨f4, mm⟩ := cut (K := 8) 5 3 (w.enc) (5) mm (by norm_num) (by norm_num) (by omega) (by omega) (by omega)
  obtain ⟨f5, mm⟩ := cut (K := 1) 2 0 (5) (0) mm (by norm_num) (by norm_num) (by omega) (by omega) (by omega)
  rw [decAtom_of f0, decAtom, f5]
  simp [hh, f1, f2, f3, f4, space_dec_enc, src_dec_enc, width_dec_enc, ok_bind, mk_of h]
theorem atomXor (hd : Hd) (a : Src) (b : Src) (p : Space) (w : Width) : Statement (.atomXor hd a b p w) := by
  intro _ h
  obtain ⟨N, eq⟩ : ∃ N, N = encodeNat (.atomXor hd a b p w) := ⟨_, rfl⟩
  rw [← eq]
  replace eq : N = 0x34000006 + hd.enc + a.enc * 32768 + b.enc * 512 + p.enc * 64 + w.enc * 8 := eq
  have la := src_lt a; have lb := src_lt b; have lp := space_lt p; have lw := width_lt w
  obtain ⟨f0, hh, mm⟩ := top (n := N) (op := 26) hd (r := a.enc * 32768 + b.enc * 512 + p.enc * 64 + w.enc * 8 + 6) (by omega) (by omega) (by omega)
  obtain ⟨f1, mm⟩ := cut (K := 32768) 20 15 (a.enc) (b.enc * 512 + p.enc * 64 + w.enc * 8 + 6) mm (by norm_num) (by norm_num) (by omega) (by omega) (by omega)
  obtain ⟨f2, mm⟩ := cut (K := 512) 14 9 (b.enc) (p.enc * 64 + w.enc * 8 + 6) mm (by norm_num) (by norm_num) (by omega) (by omega) (by omega)
  obtain ⟨f3, mm⟩ := cut (K := 64) 8 6 (p.enc) (w.enc * 8 + 6) mm (by norm_num) (by norm_num) (by omega) (by omega) (by omega)
  obtain ⟨f4, mm⟩ := cut (K := 8) 5 3 (w.enc) (6) mm (by norm_num) (by norm_num) (by omega) (by omega) (by omega)
  obtain ⟨f5, mm⟩ := cut (K := 1) 2 0 (6) (0) mm (by norm_num) (by norm_num) (by omega) (by omega) (by omega)
  rw [decAtom_of f0, decAtom, f5]
  simp [hh, f1, f2, f3, f4, space_dec_enc, src_dec_enc, width_dec_enc, ok_bind, mk_of h]
theorem atomSwap (hd : Hd) (a : Src) (b : Src) (p : Space) (w : Width) : Statement (.atomSwap hd a b p w) := by
  intro _ h
  obtain ⟨N, eq⟩ : ∃ N, N = encodeNat (.atomSwap hd a b p w) := ⟨_, rfl⟩
  rw [← eq]
  replace eq : N = 0x34000007 + hd.enc + a.enc * 32768 + b.enc * 512 + p.enc * 64 + w.enc * 8 := eq
  have la := src_lt a; have lb := src_lt b; have lp := space_lt p; have lw := width_lt w
  obtain ⟨f0, hh, mm⟩ := top (n := N) (op := 26) hd (r := a.enc * 32768 + b.enc * 512 + p.enc * 64 + w.enc * 8 + 7) (by omega) (by omega) (by omega)
  obtain ⟨f1, mm⟩ := cut (K := 32768) 20 15 (a.enc) (b.enc * 512 + p.enc * 64 + w.enc * 8 + 7) mm (by norm_num) (by norm_num) (by omega) (by omega) (by omega)
  obtain ⟨f2, mm⟩ := cut (K := 512) 14 9 (b.enc) (p.enc * 64 + w.enc * 8 + 7) mm (by norm_num) (by norm_num) (by omega) (by omega) (by omega)
  obtain ⟨f3, mm⟩ := cut (K := 64) 8 6 (p.enc) (w.enc * 8 + 7) mm (by norm_num) (by norm_num) (by omega) (by omega) (by omega)
  obtain ⟨f4, mm⟩ := cut (K := 8) 5 3 (w.enc) (7) mm (by norm_num) (by norm_num) (by omega) (by omega) (by omega)
  obtain ⟨f5, mm⟩ := cut (K := 1) 2 0 (7) (0) mm (by norm_num) (by norm_num) (by omega) (by omega) (by omega)
  rw [decAtom_of f0, decAtom, f5]
  simp [hh, f1, f2, f3, f4, space_dec_enc, src_dec_enc, width_dec_enc, ok_bind, mk_of h]
theorem redAdd (hd : Hd) (a : Src) (b : Src) (p : Space) (w : Width) : Statement (.redAdd hd a b p w) := by
  intro _ h
  obtain ⟨N, eq⟩ : ∃ N, N = encodeNat (.redAdd hd a b p w) := ⟨_, rfl⟩
  rw [← eq]
  replace eq : N = 0x36000000 + hd.enc + a.enc * 32768 + b.enc * 512 + p.enc * 64 + w.enc * 8 := eq
  have la := src_lt a; have lb := src_lt b; have lp := space_lt p; have lw := width_lt w
  obtain ⟨f0, hh, mm⟩ := top (n := N) (op := 27) hd (r := a.enc * 32768 + b.enc * 512 + p.enc * 64 + w.enc * 8) (by omega) (by omega) (by omega)
  obtain ⟨f1, mm⟩ := cut (K := 32768) 20 15 (a.enc) (b.enc * 512 + p.enc * 64 + w.enc * 8) mm (by norm_num) (by norm_num) (by omega) (by omega) (by omega)
  obtain ⟨f2, mm⟩ := cut (K := 512) 14 9 (b.enc) (p.enc * 64 + w.enc * 8) mm (by norm_num) (by norm_num) (by omega) (by omega) (by omega)
  obtain ⟨f3, mm⟩ := cut (K := 64) 8 6 (p.enc) (w.enc * 8) mm (by norm_num) (by norm_num) (by omega) (by omega) (by omega)
  obtain ⟨f4, mm⟩ := cut (K := 8) 5 3 (w.enc) (0) mm (by norm_num) (by norm_num) (by omega) (by omega) (by omega)
  obtain ⟨f5, mm⟩ := cut (K := 1) 2 0 (0) (0) mm (by norm_num) (by norm_num) (by omega) (by omega) (by omega)
  rw [decRed_of f0, decRed, f5]
  simp [hh, f1, f2, f3, f4, space_dec_enc, src_dec_enc, width_dec_enc, ok_bind, mk_of h]
theorem redFadd (hd : Hd) (a : Src) (b : Src) (p : Space) (w : Width) : Statement (.redFadd hd a b p w) := by
  intro _ h
  obtain ⟨N, eq⟩ : ∃ N, N = encodeNat (.redFadd hd a b p w) := ⟨_, rfl⟩
  rw [← eq]
  replace eq : N = 0x36000001 + hd.enc + a.enc * 32768 + b.enc * 512 + p.enc * 64 + w.enc * 8 := eq
  have la := src_lt a; have lb := src_lt b; have lp := space_lt p; have lw := width_lt w
  obtain ⟨f0, hh, mm⟩ := top (n := N) (op := 27) hd (r := a.enc * 32768 + b.enc * 512 + p.enc * 64 + w.enc * 8 + 1) (by omega) (by omega) (by omega)
  obtain ⟨f1, mm⟩ := cut (K := 32768) 20 15 (a.enc) (b.enc * 512 + p.enc * 64 + w.enc * 8 + 1) mm (by norm_num) (by norm_num) (by omega) (by omega) (by omega)
  obtain ⟨f2, mm⟩ := cut (K := 512) 14 9 (b.enc) (p.enc * 64 + w.enc * 8 + 1) mm (by norm_num) (by norm_num) (by omega) (by omega) (by omega)
  obtain ⟨f3, mm⟩ := cut (K := 64) 8 6 (p.enc) (w.enc * 8 + 1) mm (by norm_num) (by norm_num) (by omega) (by omega) (by omega)
  obtain ⟨f4, mm⟩ := cut (K := 8) 5 3 (w.enc) (1) mm (by norm_num) (by norm_num) (by omega) (by omega) (by omega)
  obtain ⟨f5, mm⟩ := cut (K := 1) 2 0 (1) (0) mm (by norm_num) (by norm_num) (by omega) (by omega) (by omega)
  rw [decRed_of f0, decRed, f5]
  simp [hh, f1, f2, f3, f4, space_dec_enc, src_dec_enc, width_dec_enc, ok_bind, mk_of h]
theorem redMin (hd : Hd) (a : Src) (b : Src) (p : Space) (w : Width) : Statement (.redMin hd a b p w) := by
  intro _ h
  obtain ⟨N, eq⟩ : ∃ N, N = encodeNat (.redMin hd a b p w) := ⟨_, rfl⟩
  rw [← eq]
  replace eq : N = 0x36000002 + hd.enc + a.enc * 32768 + b.enc * 512 + p.enc * 64 + w.enc * 8 := eq
  have la := src_lt a; have lb := src_lt b; have lp := space_lt p; have lw := width_lt w
  obtain ⟨f0, hh, mm⟩ := top (n := N) (op := 27) hd (r := a.enc * 32768 + b.enc * 512 + p.enc * 64 + w.enc * 8 + 2) (by omega) (by omega) (by omega)
  obtain ⟨f1, mm⟩ := cut (K := 32768) 20 15 (a.enc) (b.enc * 512 + p.enc * 64 + w.enc * 8 + 2) mm (by norm_num) (by norm_num) (by omega) (by omega) (by omega)
  obtain ⟨f2, mm⟩ := cut (K := 512) 14 9 (b.enc) (p.enc * 64 + w.enc * 8 + 2) mm (by norm_num) (by norm_num) (by omega) (by omega) (by omega)
  obtain ⟨f3, mm⟩ := cut (K := 64) 8 6 (p.enc) (w.enc * 8 + 2) mm (by norm_num) (by norm_num) (by omega) (by omega) (by omega)
  obtain ⟨f4, mm⟩ := cut (K := 8) 5 3 (w.enc) (2) mm (by norm_num) (by norm_num) (by omega) (by omega) (by omega)
  obtain ⟨f5, mm⟩ := cut (K := 1) 2 0 (2) (0) mm (by norm_num) (by norm_num) (by omega) (by omega) (by omega)
  rw [decRed_of f0, decRed, f5]
  simp [hh, f1, f2, f3, f4, space_dec_enc, src_dec_enc, width_dec_enc, ok_bind, mk_of h]
theorem redMax (hd : Hd) (a : Src) (b : Src) (p : Space) (w : Width) : Statement (.redMax hd a b p w) := by
  intro _ h
  obtain ⟨N, eq⟩ : ∃ N, N = encodeNat (.redMax hd a b p w) := ⟨_, rfl⟩
  rw [← eq]
  replace eq : N = 0x36000003 + hd.enc + a.enc * 32768 + b.enc * 512 + p.enc * 64 + w.enc * 8 := eq
  have la := src_lt a; have lb := src_lt b; have lp := space_lt p; have lw := width_lt w
  obtain ⟨f0, hh, mm⟩ := top (n := N) (op := 27) hd (r := a.enc * 32768 + b.enc * 512 + p.enc * 64 + w.enc * 8 + 3) (by omega) (by omega) (by omega)
  obtain ⟨f1, mm⟩ := cut (K := 32768) 20 15 (a.enc) (b.enc * 512 + p.enc * 64 + w.enc * 8 + 3) mm (by norm_num) (by norm_num) (by omega) (by omega) (by omega)
  obtain ⟨f2, mm⟩ := cut (K := 512) 14 9 (b.enc) (p.enc * 64 + w.enc * 8 + 3) mm (by norm_num) (by norm_num) (by omega) (by omega) (by omega)
  obtain ⟨f3, mm⟩ := cut (K := 64) 8 6 (p.enc) (w.enc * 8 + 3) mm (by norm_num) (by norm_num) (by omega) (by omega) (by omega)
  obtain ⟨f4, mm⟩ := cut (K := 8) 5 3 (w.enc) (3) mm (by norm_num) (by norm_num) (by omega) (by omega) (by omega)
  obtain ⟨f5, mm⟩ := cut (K := 1) 2 0 (3) (0) mm (by norm_num) (by norm_num) (by omega) (by omega) (by omega)
  rw [decRed_of f0, decRed, f5]
  simp [hh, f1, f2, f3, f4, space_dec_enc, src_dec_enc, width_dec_enc, ok_bind, mk_of h]
theorem redAnd (hd : Hd) (a : Src) (b : Src) (p : Space) (w : Width) : Statement (.redAnd hd a b p w) := by
  intro _ h
  obtain ⟨N, eq⟩ : ∃ N, N = encodeNat (.redAnd hd a b p w) := ⟨_, rfl⟩
  rw [← eq]
  replace eq : N = 0x36000004 + hd.enc + a.enc * 32768 + b.enc * 512 + p.enc * 64 + w.enc * 8 := eq
  have la := src_lt a; have lb := src_lt b; have lp := space_lt p; have lw := width_lt w
  obtain ⟨f0, hh, mm⟩ := top (n := N) (op := 27) hd (r := a.enc * 32768 + b.enc * 512 + p.enc * 64 + w.enc * 8 + 4) (by omega) (by omega) (by omega)
  obtain ⟨f1, mm⟩ := cut (K := 32768) 20 15 (a.enc) (b.enc * 512 + p.enc * 64 + w.enc * 8 + 4) mm (by norm_num) (by norm_num) (by omega) (by omega) (by omega)
  obtain ⟨f2, mm⟩ := cut (K := 512) 14 9 (b.enc) (p.enc * 64 + w.enc * 8 + 4) mm (by norm_num) (by norm_num) (by omega) (by omega) (by omega)
  obtain ⟨f3, mm⟩ := cut (K := 64) 8 6 (p.enc) (w.enc * 8 + 4) mm (by norm_num) (by norm_num) (by omega) (by omega) (by omega)
  obtain ⟨f4, mm⟩ := cut (K := 8) 5 3 (w.enc) (4) mm (by norm_num) (by norm_num) (by omega) (by omega) (by omega)
  obtain ⟨f5, mm⟩ := cut (K := 1) 2 0 (4) (0) mm (by norm_num) (by norm_num) (by omega) (by omega) (by omega)
  rw [decRed_of f0, decRed, f5]
  simp [hh, f1, f2, f3, f4, space_dec_enc, src_dec_enc, width_dec_enc, ok_bind, mk_of h]
theorem redOr (hd : Hd) (a : Src) (b : Src) (p : Space) (w : Width) : Statement (.redOr hd a b p w) := by
  intro _ h
  obtain ⟨N, eq⟩ : ∃ N, N = encodeNat (.redOr hd a b p w) := ⟨_, rfl⟩
  rw [← eq]
  replace eq : N = 0x36000005 + hd.enc + a.enc * 32768 + b.enc * 512 + p.enc * 64 + w.enc * 8 := eq
  have la := src_lt a; have lb := src_lt b; have lp := space_lt p; have lw := width_lt w
  obtain ⟨f0, hh, mm⟩ := top (n := N) (op := 27) hd (r := a.enc * 32768 + b.enc * 512 + p.enc * 64 + w.enc * 8 + 5) (by omega) (by omega) (by omega)
  obtain ⟨f1, mm⟩ := cut (K := 32768) 20 15 (a.enc) (b.enc * 512 + p.enc * 64 + w.enc * 8 + 5) mm (by norm_num) (by norm_num) (by omega) (by omega) (by omega)
  obtain ⟨f2, mm⟩ := cut (K := 512) 14 9 (b.enc) (p.enc * 64 + w.enc * 8 + 5) mm (by norm_num) (by norm_num) (by omega) (by omega) (by omega)
  obtain ⟨f3, mm⟩ := cut (K := 64) 8 6 (p.enc) (w.enc * 8 + 5) mm (by norm_num) (by norm_num) (by omega) (by omega) (by omega)
  obtain ⟨f4, mm⟩ := cut (K := 8) 5 3 (w.enc) (5) mm (by norm_num) (by norm_num) (by omega) (by omega) (by omega)
  obtain ⟨f5, mm⟩ := cut (K := 1) 2 0 (5) (0) mm (by norm_num) (by norm_num) (by omega) (by omega) (by omega)
  rw [decRed_of f0, decRed, f5]
  simp [hh, f1, f2, f3, f4, space_dec_enc, src_dec_enc, width_dec_enc, ok_bind, mk_of h]
theorem redXor (hd : Hd) (a : Src) (b : Src) (p : Space) (w : Width) : Statement (.redXor hd a b p w) := by
  intro _ h
  obtain ⟨N, eq⟩ : ∃ N, N = encodeNat (.redXor hd a b p w) := ⟨_, rfl⟩
  rw [← eq]
  replace eq : N = 0x36000006 + hd.enc + a.enc * 32768 + b.enc * 512 + p.enc * 64 + w.enc * 8 := eq
  have la := src_lt a; have lb := src_lt b; have lp := space_lt p; have lw := width_lt w
  obtain ⟨f0, hh, mm⟩ := top (n := N) (op := 27) hd (r := a.enc * 32768 + b.enc * 512 + p.enc * 64 + w.enc * 8 + 6) (by omega) (by omega) (by omega)
  obtain ⟨f1, mm⟩ := cut (K := 32768) 20 15 (a.enc) (b.enc * 512 + p.enc * 64 + w.enc * 8 + 6) mm (by norm_num) (by norm_num) (by omega) (by omega) (by omega)
  obtain ⟨f2, mm⟩ := cut (K := 512) 14 9 (b.enc) (p.enc * 64 + w.enc * 8 + 6) mm (by norm_num) (by norm_num) (by omega) (by omega) (by omega)
  obtain ⟨f3, mm⟩ := cut (K := 64) 8 6 (p.enc) (w.enc * 8 + 6) mm (by norm_num) (by norm_num) (by omega) (by omega) (by omega)
  obtain ⟨f4, mm⟩ := cut (K := 8) 5 3 (w.enc) (6) mm (by norm_num) (by norm_num) (by omega) (by omega) (by omega)
  obtain ⟨f5, mm⟩ := cut (K := 1) 2 0 (6) (0) mm (by norm_num) (by norm_num) (by omega) (by omega) (by omega)
  rw [decRed_of f0, decRed, f5]
  simp [hh, f1, f2, f3, f4, space_dec_enc, src_dec_enc, width_dec_enc, ok_bind, mk_of h]
theorem tagq (hd : Hd) (a : Src) : Statement (.tagq hd a) := by
  intro _ h
  obtain ⟨N, eq⟩ : ∃ N, N = encodeNat (.tagq hd a) := ⟨_, rfl⟩
  rw [← eq]
  replace eq : N = 0x38007000 + hd.enc + a.enc * 32768 := eq
  have la := src_lt a
  obtain ⟨f0, hh, mm⟩ := top (n := N) (op := 28) hd (r := a.enc * 32768 + 28672) (by omega) (by omega) (by omega)
  obtain ⟨f1, mm⟩ := cut (K := 32768) 20 15 (a.enc) (28672) mm (by norm_num) (by norm_num) (by omega) (by omega) (by omega)
  obtain ⟨f2, mm⟩ := cut (K := 512) 14 9 (56) (0) mm (by norm_num) (by norm_num) (by omega) (by omega) (by omega)
  obtain ⟨f3, mm⟩ := cut (K := 64) 8 6 (0) (0) mm (by norm_num) (by norm_num) (by omega) (by omega) (by omega)
  obtain ⟨f4, mm⟩ := cut (K := 8) 5 3 (0) (0) mm (by norm_num) (by norm_num) (by omega) (by omega) (by omega)
  obtain ⟨f5, mm⟩ := cut (K := 1) 2 0 (0) (0) mm (by norm_num) (by norm_num) (by omega) (by omega) (by omega)
  rw [decMctl_of f0, decMctl, f5]
  simp [hh, f1, f2, f3, f4, src_dec_enc, need, mk_of h]
theorem tagset (hd : Hd) (a : Src) (b : Src) : Statement (.tagset hd a b) := by
  intro _ h
  obtain ⟨N, eq⟩ : ∃ N, N = encodeNat (.tagset hd a b) := ⟨_, rfl⟩
  rw [← eq]
  replace eq : N = 0x38000001 + hd.enc + a.enc * 32768 + b.enc * 512 := eq
  have la := src_lt a; have lb := src_lt b
  obtain ⟨f0, hh, mm⟩ := top (n := N) (op := 28) hd (r := a.enc * 32768 + b.enc * 512 + 1) (by omega) (by omega) (by omega)
  obtain ⟨f1, mm⟩ := cut (K := 32768) 20 15 (a.enc) (b.enc * 512 + 1) mm (by norm_num) (by norm_num) (by omega) (by omega) (by omega)
  obtain ⟨f2, mm⟩ := cut (K := 512) 14 9 (b.enc) (1) mm (by norm_num) (by norm_num) (by omega) (by omega) (by omega)
  obtain ⟨f3, mm⟩ := cut (K := 64) 8 6 (0) (1) mm (by norm_num) (by norm_num) (by omega) (by omega) (by omega)
  obtain ⟨f4, mm⟩ := cut (K := 8) 5 3 (0) (1) mm (by norm_num) (by norm_num) (by omega) (by omega) (by omega)
  obtain ⟨f5, mm⟩ := cut (K := 1) 2 0 (1) (0) mm (by norm_num) (by norm_num) (by omega) (by omega) (by omega)
  rw [decMctl_of f0, decMctl, f5]
  simp [hh, f1, f2, f3, f4, src_dec_enc, need, mk_of h]
theorem tagclr (hd : Hd) (a : Src) : Statement (.tagclr hd a) := by
  intro _ h
  obtain ⟨N, eq⟩ : ∃ N, N = encodeNat (.tagclr hd a) := ⟨_, rfl⟩
  rw [← eq]
  replace eq : N = 0x38007002 + hd.enc + a.enc * 32768 := eq
  have la := src_lt a
  obtain ⟨f0, hh, mm⟩ := top (n := N) (op := 28) hd (r := a.enc * 32768 + 28674) (by omega) (by omega) (by omega)
  obtain ⟨f1, mm⟩ := cut (K := 32768) 20 15 (a.enc) (28674) mm (by norm_num) (by norm_num) (by omega) (by omega) (by omega)
  obtain ⟨f2, mm⟩ := cut (K := 512) 14 9 (56) (2) mm (by norm_num) (by norm_num) (by omega) (by omega) (by omega)
  obtain ⟨f3, mm⟩ := cut (K := 64) 8 6 (0) (2) mm (by norm_num) (by norm_num) (by omega) (by omega) (by omega)
  obtain ⟨f4, mm⟩ := cut (K := 8) 5 3 (0) (2) mm (by norm_num) (by norm_num) (by omega) (by omega) (by omega)
  obtain ⟨f5, mm⟩ := cut (K := 1) 2 0 (2) (0) mm (by norm_num) (by norm_num) (by omega) (by omega) (by omega)
  rw [decMctl_of f0, decMctl, f5]
  simp [hh, f1, f2, f3, f4, src_dec_enc, need, mk_of h]
theorem scfg (hd : Hd) (a : Src) (b : Src) (p : Space) : Statement (.scfg hd a b p) := by
  intro _ h
  obtain ⟨N, eq⟩ : ∃ N, N = encodeNat (.scfg hd a b p) := ⟨_, rfl⟩
  rw [← eq]
  replace eq : N = 0x38000003 + hd.enc + a.enc * 32768 + b.enc * 512 + p.enc * 64 := eq
  have la := src_lt a; have lb := src_lt b; have lp := space_lt p
  obtain ⟨f0, hh, mm⟩ := top (n := N) (op := 28) hd (r := a.enc * 32768 + b.enc * 512 + p.enc * 64 + 3) (by omega) (by omega) (by omega)
  obtain ⟨f1, mm⟩ := cut (K := 32768) 20 15 (a.enc) (b.enc * 512 + p.enc * 64 + 3) mm (by norm_num) (by norm_num) (by omega) (by omega) (by omega)
  obtain ⟨f2, mm⟩ := cut (K := 512) 14 9 (b.enc) (p.enc * 64 + 3) mm (by norm_num) (by norm_num) (by omega) (by omega) (by omega)
  obtain ⟨f3, mm⟩ := cut (K := 64) 8 6 (p.enc) (3) mm (by norm_num) (by norm_num) (by omega) (by omega) (by omega)
  obtain ⟨f4, mm⟩ := cut (K := 8) 5 3 (0) (3) mm (by norm_num) (by norm_num) (by omega) (by omega) (by omega)
  obtain ⟨f5, mm⟩ := cut (K := 1) 2 0 (3) (0) mm (by norm_num) (by norm_num) (by omega) (by omega) (by omega)
  rw [decMctl_of f0, decMctl, f5]
  simp [hh, f1, f2, f3, f4, space_dec_enc, src_dec_enc, need, mk_of h]
theorem mapl (hd : Hd) (a : Src) (b : Src) : Statement (.mapl hd a b) := by
  intro _ h
  obtain ⟨N, eq⟩ : ∃ N, N = encodeNat (.mapl hd a b) := ⟨_, rfl⟩
  rw [← eq]
  replace eq : N = 0x38000004 + hd.enc + a.enc * 32768 + b.enc * 512 := eq
  have la := src_lt a; have lb := src_lt b
  obtain ⟨f0, hh, mm⟩ := top (n := N) (op := 28) hd (r := a.enc * 32768 + b.enc * 512 + 4) (by omega) (by omega) (by omega)
  obtain ⟨f1, mm⟩ := cut (K := 32768) 20 15 (a.enc) (b.enc * 512 + 4) mm (by norm_num) (by norm_num) (by omega) (by omega) (by omega)
  obtain ⟨f2, mm⟩ := cut (K := 512) 14 9 (b.enc) (4) mm (by norm_num) (by norm_num) (by omega) (by omega) (by omega)
  obtain ⟨f3, mm⟩ := cut (K := 64) 8 6 (0) (4) mm (by norm_num) (by norm_num) (by omega) (by omega) (by omega)
  obtain ⟨f4, mm⟩ := cut (K := 8) 5 3 (0) (4) mm (by norm_num) (by norm_num) (by omega) (by omega) (by omega)
  obtain ⟨f5, mm⟩ := cut (K := 1) 2 0 (4) (0) mm (by norm_num) (by norm_num) (by omega) (by omega) (by omega)
  rw [decMctl_of f0, decMctl, f5]
  simp [hh, f1, f2, f3, f4, src_dec_enc, need, mk_of h]
theorem cas (hd : Hd) (a : Src) (b : Src) (p : Space) (w : Width) : Statement (.cas hd a b p w) := by
  intro _ h
  obtain ⟨N, eq⟩ : ∃ N, N = encodeNat (.cas hd a b p w) := ⟨_, rfl⟩
  rw [← eq]
  replace eq : N = 0x38000005 + hd.enc + a.enc * 32768 + b.enc * 512 + p.enc * 64 + w.enc * 8 := eq
  have la := src_lt a; have lb := src_lt b; have lp := space_lt p; have lw := width_lt w
  obtain ⟨f0, hh, mm⟩ := top (n := N) (op := 28) hd (r := a.enc * 32768 + b.enc * 512 + p.enc * 64 + w.enc * 8 + 5) (by omega) (by omega) (by omega)
  obtain ⟨f1, mm⟩ := cut (K := 32768) 20 15 (a.enc) (b.enc * 512 + p.enc * 64 + w.enc * 8 + 5) mm (by norm_num) (by norm_num) (by omega) (by omega) (by omega)
  obtain ⟨f2, mm⟩ := cut (K := 512) 14 9 (b.enc) (p.enc * 64 + w.enc * 8 + 5) mm (by norm_num) (by norm_num) (by omega) (by omega) (by omega)
  obtain ⟨f3, mm⟩ := cut (K := 64) 8 6 (p.enc) (w.enc * 8 + 5) mm (by norm_num) (by norm_num) (by omega) (by omega) (by omega)
  obtain ⟨f4, mm⟩ := cut (K := 8) 5 3 (w.enc) (5) mm (by norm_num) (by norm_num) (by omega) (by omega) (by omega)
  obtain ⟨f5, mm⟩ := cut (K := 1) 2 0 (5) (0) mm (by norm_num) (by norm_num) (by omega) (by omega) (by omega)
  rw [decMctl_of f0, decMctl, f5]
  simp [hh, f1, f2, f3, f4, space_dec_enc, src_dec_enc, width_dec_enc, ok_bind, mk_of h]
theorem racqP (hd : Hd) (a : Src) : Statement (.racqP hd a) := by
  intro _ h
  obtain ⟨N, eq⟩ : ∃ N, N = encodeNat (.racqP hd a) := ⟨_, rfl⟩
  rw [← eq]
  replace eq : N = 0x3a007000 + hd.enc + a.enc * 32768 := eq
  have la := src_lt a
  obtain ⟨f0, hh, mm⟩ := top (n := N) (op := 29) hd (r := a.enc * 32768 + 28672) (by omega) (by omega) (by omega)
  obtain ⟨f1, mm⟩ := cut (K := 32768) 20 15 (a.enc) (28672) mm (by norm_num) (by norm_num) (by omega) (by omega) (by omega)
  obtain ⟨f2, mm⟩ := cut (K := 512) 14 9 (56) (0) mm (by norm_num) (by norm_num) (by omega) (by omega) (by omega)
  obtain ⟨f3, mm⟩ := cut (K := 64) 8 6 (0) (0) mm (by norm_num) (by norm_num) (by omega) (by omega) (by omega)
  obtain ⟨f4, mm⟩ := cut (K := 8) 5 3 (0) (0) mm (by norm_num) (by norm_num) (by omega) (by omega) (by omega)
  obtain ⟨f5, mm⟩ := cut (K := 1) 2 0 (0) (0) mm (by norm_num) (by norm_num) (by omega) (by omega) (by omega)
  rw [decRing_of f0, decRing, f5]
  simp [hh, f1, f2, f3, f4, src_dec_enc, need, mk_of h]
theorem racqC (hd : Hd) (a : Src) : Statement (.racqC hd a) := by
  intro _ h
  obtain ⟨N, eq⟩ : ∃ N, N = encodeNat (.racqC hd a) := ⟨_, rfl⟩
  rw [← eq]
  replace eq : N = 0x3a007001 + hd.enc + a.enc * 32768 := eq
  have la := src_lt a
  obtain ⟨f0, hh, mm⟩ := top (n := N) (op := 29) hd (r := a.enc * 32768 + 28673) (by omega) (by omega) (by omega)
  obtain ⟨f1, mm⟩ := cut (K := 32768) 20 15 (a.enc) (28673) mm (by norm_num) (by norm_num) (by omega) (by omega) (by omega)
  obtain ⟨f2, mm⟩ := cut (K := 512) 14 9 (56) (1) mm (by norm_num) (by norm_num) (by omega) (by omega) (by omega)
  obtain ⟨f3, mm⟩ := cut (K := 64) 8 6 (0) (1) mm (by norm_num) (by norm_num) (by omega) (by omega) (by omega)
  obtain ⟨f4, mm⟩ := cut (K := 8) 5 3 (0) (1) mm (by norm_num) (by norm_num) (by omega) (by omega) (by omega)
  obtain ⟨f5, mm⟩ := cut (K := 1) 2 0 (1) (0) mm (by norm_num) (by norm_num) (by omega) (by omega) (by omega)
  rw [decRing_of f0, decRing, f5]
  simp [hh, f1, f2, f3, f4, src_dec_enc, need, mk_of h]
theorem racqPU (hd : Hd) (a : Src) : Statement (.racqPU hd a) := by
  intro _ h
  obtain ⟨N, eq⟩ : ∃ N, N = encodeNat (.racqPU hd a) := ⟨_, rfl⟩
  rw [← eq]
  replace eq : N = 0x3a007002 + hd.enc + a.enc * 32768 := eq
  have la := src_lt a
  obtain ⟨f0, hh, mm⟩ := top (n := N) (op := 29) hd (r := a.enc * 32768 + 28674) (by omega) (by omega) (by omega)
  obtain ⟨f1, mm⟩ := cut (K := 32768) 20 15 (a.enc) (28674) mm (by norm_num) (by norm_num) (by omega) (by omega) (by omega)
  obtain ⟨f2, mm⟩ := cut (K := 512) 14 9 (56) (2) mm (by norm_num) (by norm_num) (by omega) (by omega) (by omega)
  obtain ⟨f3, mm⟩ := cut (K := 64) 8 6 (0) (2) mm (by norm_num) (by norm_num) (by omega) (by omega) (by omega)
  obtain ⟨f4, mm⟩ := cut (K := 8) 5 3 (0) (2) mm (by norm_num) (by norm_num) (by omega) (by omega) (by omega)
  obtain ⟨f5, mm⟩ := cut (K := 1) 2 0 (2) (0) mm (by norm_num) (by norm_num) (by omega) (by omega) (by omega)
  rw [decRing_of f0, decRing, f5]
  simp [hh, f1, f2, f3, f4, src_dec_enc, need, mk_of h]
theorem racqCU (hd : Hd) (a : Src) : Statement (.racqCU hd a) := by
  intro _ h
  obtain ⟨N, eq⟩ : ∃ N, N = encodeNat (.racqCU hd a) := ⟨_, rfl⟩
  rw [← eq]
  replace eq : N = 0x3a007003 + hd.enc + a.enc * 32768 := eq
  have la := src_lt a
  obtain ⟨f0, hh, mm⟩ := top (n := N) (op := 29) hd (r := a.enc * 32768 + 28675) (by omega) (by omega) (by omega)
  obtain ⟨f1, mm⟩ := cut (K := 32768) 20 15 (a.enc) (28675) mm (by norm_num) (by norm_num) (by omega) (by omega) (by omega)
  obtain ⟨f2, mm⟩ := cut (K := 512) 14 9 (56) (3) mm (by norm_num) (by norm_num) (by omega) (by omega) (by omega)
  obtain ⟨f3, mm⟩ := cut (K := 64) 8 6 (0) (3) mm (by norm_num) (by norm_num) (by omega) (by omega) (by omega)
  obtain ⟨f4, mm⟩ := cut (K := 8) 5 3 (0) (3) mm (by norm_num) (by norm_num) (by omega) (by omega) (by omega)
  obtain ⟨f5, mm⟩ := cut (K := 1) 2 0 (3) (0) mm (by norm_num) (by norm_num) (by omega) (by omega) (by omega)
  rw [decRing_of f0, decRing, f5]
  simp [hh, f1, f2, f3, f4, src_dec_enc, need, mk_of h]
theorem rrel (hd : Hd) (a : Src) (b : Src) : Statement (.rrel hd a b) := by
  intro _ h
  obtain ⟨N, eq⟩ : ∃ N, N = encodeNat (.rrel hd a b) := ⟨_, rfl⟩
  rw [← eq]
  replace eq : N = 0x3a000004 + hd.enc + a.enc * 32768 + b.enc * 512 := eq
  have la := src_lt a; have lb := src_lt b
  obtain ⟨f0, hh, mm⟩ := top (n := N) (op := 29) hd (r := a.enc * 32768 + b.enc * 512 + 4) (by omega) (by omega) (by omega)
  obtain ⟨f1, mm⟩ := cut (K := 32768) 20 15 (a.enc) (b.enc * 512 + 4) mm (by norm_num) (by norm_num) (by omega) (by omega) (by omega)
  obtain ⟨f2, mm⟩ := cut (K := 512) 14 9 (b.enc) (4) mm (by norm_num) (by norm_num) (by omega) (by omega) (by omega)
  obtain ⟨f3, mm⟩ := cut (K := 64) 8 6 (0) (4) mm (by norm_num) (by norm_num) (by omega) (by omega) (by omega)
  obtain ⟨f4, mm⟩ := cut (K := 8) 5 3 (0) (4) mm (by norm_num) (by norm_num) (by omega) (by omega) (by omega)
  obtain ⟨f5, mm⟩ := cut (K := 1) 2 0 (4) (0) mm (by norm_num) (by norm_num) (by omega) (by omega) (by omega)
  rw [decRing_of f0, decRing, f5]
  simp [hh, f1, f2, f3, f4, src_dec_enc, need, mk_of h]
theorem rwait (hd : Hd) (a : Src) (b : Src) : Statement (.rwait hd a b) := by
  intro _ h
  obtain ⟨N, eq⟩ : ∃ N, N = encodeNat (.rwait hd a b) := ⟨_, rfl⟩
  rw [← eq]
  replace eq : N = 0x3a000005 + hd.enc + a.enc * 32768 + b.enc * 512 := eq
  have la := src_lt a; have lb := src_lt b
  obtain ⟨f0, hh, mm⟩ := top (n := N) (op := 29) hd (r := a.enc * 32768 + b.enc * 512 + 5) (by omega) (by omega) (by omega)
  obtain ⟨f1, mm⟩ := cut (K := 32768) 20 15 (a.enc) (b.enc * 512 + 5) mm (by norm_num) (by norm_num) (by omega) (by omega) (by omega)
  obtain ⟨f2, mm⟩ := cut (K := 512) 14 9 (b.enc) (5) mm (by norm_num) (by norm_num) (by omega) (by omega) (by omega)
  obtain ⟨f3, mm⟩ := cut (K := 64) 8 6 (0) (5) mm (by norm_num) (by norm_num) (by omega) (by omega) (by omega)
  obtain ⟨f4, mm⟩ := cut (K := 8) 5 3 (0) (5) mm (by norm_num) (by norm_num) (by omega) (by omega) (by omega)
  obtain ⟨f5, mm⟩ := cut (K := 1) 2 0 (5) (0) mm (by norm_num) (by norm_num) (by omega) (by omega) (by omega)
  rw [decRing_of f0, decRing, f5]
  simp [hh, f1, f2, f3, f4, src_dec_enc, need, mk_of h]
theorem carm (hd : Hd) (a : Src) (b : Src) : Statement (.carm hd a b) := by
  intro _ h
  obtain ⟨N, eq⟩ : ∃ N, N = encodeNat (.carm hd a b) := ⟨_, rfl⟩
  rw [← eq]
  replace eq : N = 0x3a000006 + hd.enc + a.enc * 32768 + b.enc * 512 := eq
  have la := src_lt a; have lb := src_lt b
  obtain ⟨f0, hh, mm⟩ := top (n := N) (op := 29) hd (r := a.enc * 32768 + b.enc * 512 + 6) (by omega) (by omega) (by omega)
  obtain ⟨f1, mm⟩ := cut (K := 32768) 20 15 (a.enc) (b.enc * 512 + 6) mm (by norm_num) (by norm_num) (by omega) (by omega) (by omega)
  obtain ⟨f2, mm⟩ := cut (K := 512) 14 9 (b.enc) (6) mm (by norm_num) (by norm_num) (by omega) (by omega) (by omega)
  obtain ⟨f3, mm⟩ := cut (K := 64) 8 6 (0) (6) mm (by norm_num) (by norm_num) (by omega) (by omega) (by omega)
  obtain ⟨f4, mm⟩ := cut (K := 8) 5 3 (0) (6) mm (by norm_num) (by norm_num) (by omega) (by omega) (by omega)
  obtain ⟨f5, mm⟩ := cut (K := 1) 2 0 (6) (0) mm (by norm_num) (by norm_num) (by omega) (by omega) (by omega)
  rw [decRing_of f0, decRing, f5]
  simp [hh, f1, f2, f3, f4, src_dec_enc, need, mk_of h]
theorem cwait (hd : Hd) (a : Src) : Statement (.cwait hd a) := by
  intro _ h
  obtain ⟨N, eq⟩ : ∃ N, N = encodeNat (.cwait hd a) := ⟨_, rfl⟩
  rw [← eq]
  replace eq : N = 0x3a007007 + hd.enc + a.enc * 32768 := eq
  have la := src_lt a
  obtain ⟨f0, hh, mm⟩ := top (n := N) (op := 29) hd (r := a.enc * 32768 + 28679) (by omega) (by omega) (by omega)
  obtain ⟨f1, mm⟩ := cut (K := 32768) 20 15 (a.enc) (28679) mm (by norm_num) (by norm_num) (by omega) (by omega) (by omega)
  obtain ⟨f2, mm⟩ := cut (K := 512) 14 9 (56) (7) mm (by norm_num) (by norm_num) (by omega) (by omega) (by omega)
  obtain ⟨f3, mm⟩ := cut (K := 64) 8 6 (0) (7) mm (by norm_num) (by norm_num) (by omega) (by omega) (by omega)
  obtain ⟨f4, mm⟩ := cut (K := 8) 5 3 (0) (7) mm (by norm_num) (by norm_num) (by omega) (by omega) (by omega)
  obtain ⟨f5, mm⟩ := cut (K := 1) 2 0 (7) (0) mm (by norm_num) (by norm_num) (by omega) (by omega) (by omega)
  rw [decRing_of f0, decRing, f5]
  simp [hh, f1, f2, f3, f4, src_dec_enc, need, mk_of h]
theorem spawn (hd : Hd) (a : Src) (b : Src) : Statement (.spawn hd a b) := by
  intro _ h
  obtain ⟨N, eq⟩ : ∃ N, N = encodeNat (.spawn hd a b) := ⟨_, rfl⟩
  rw [← eq]
  replace eq : N = 0x3c000000 + hd.enc + a.enc * 32768 + b.enc * 512 := eq
  have la := src_lt a; have lb := src_lt b
  obtain ⟨f0, hh, mm⟩ := top (n := N) (op := 30) hd (r := a.enc * 32768 + b.enc * 512) (by omega) (by omega) (by omega)
  obtain ⟨f1, mm⟩ := cut (K := 32768) 20 15 (a.enc) (b.enc * 512) mm (by norm_num) (by norm_num) (by omega) (by omega) (by omega)
  obtain ⟨f2, mm⟩ := cut (K := 512) 14 9 (b.enc) (0) mm (by norm_num) (by norm_num) (by omega) (by omega) (by omega)
  obtain ⟨f3, mm⟩ := cut (K := 64) 8 6 (0) (0) mm (by norm_num) (by norm_num) (by omega) (by omega) (by omega)
  obtain ⟨f4, mm⟩ := cut (K := 1) 5 0 (0) (0) mm (by norm_num) (by norm_num) (by omega) (by omega) (by omega)
  rw [decEdge_of f0, decEdge, f3]
  simp [hh, f1, f2, f4, src_dec_enc, need, mk_of h]
theorem trig (hd : Hd) : Statement (.trig hd) := by
  intro _ h
  obtain ⟨N, eq⟩ : ∃ N, N = encodeNat (.trig hd) := ⟨_, rfl⟩
  rw [← eq]
  replace eq : N = 0x3c1c7040 + hd.enc := eq
  obtain ⟨f0, hh, mm⟩ := top (n := N) (op := 30) hd (r := 1863744) (by omega) (by omega) (by omega)
  obtain ⟨f1, mm⟩ := cut (K := 512) 20 9 (3640) (64) mm (by norm_num) (by norm_num) (by omega) (by omega) (by omega)
  obtain ⟨f2, mm⟩ := cut (K := 64) 8 6 (1) (0) mm (by norm_num) (by norm_num) (by omega) (by omega) (by omega)
  obtain ⟨f3, mm⟩ := cut (K := 1) 5 0 (0) (0) mm (by norm_num) (by norm_num) (by omega) (by omega) (by omega)
  rw [decEdge_of f0, decEdge, f2]
  simp [hh, f1, f3, need, mk_of h]
theorem pub (hd : Hd) : Statement (.pub hd) := by
  intro _ h
  obtain ⟨N, eq⟩ : ∃ N, N = encodeNat (.pub hd) := ⟨_, rfl⟩
  rw [← eq]
  replace eq : N = 0x3c1c7080 + hd.enc := eq
  obtain ⟨f0, hh, mm⟩ := top (n := N) (op := 30) hd (r := 1863808) (by omega) (by omega) (by omega)
  obtain ⟨f1, mm⟩ := cut (K := 512) 20 9 (3640) (128) mm (by norm_num) (by norm_num) (by omega) (by omega) (by omega)
  obtain ⟨f2, mm⟩ := cut (K := 64) 8 6 (2) (0) mm (by norm_num) (by norm_num) (by omega) (by omega) (by omega)
  obtain ⟨f3, mm⟩ := cut (K := 1) 5 0 (0) (0) mm (by norm_num) (by norm_num) (by omega) (by omega) (by omega)
  rw [decEdge_of f0, decEdge, f2]
  simp [hh, f1, f3, need, mk_of h]
theorem bar (hd : Hd) (a : Src) (b : Src) (l : Fin 8) : Statement (.bar hd a b l) := by
  intro _ h
  obtain ⟨N, eq⟩ : ∃ N, N = encodeNat (.bar hd a b l) := ⟨_, rfl⟩
  rw [← eq]
  replace eq : N = 0x3c0000c0 + hd.enc + a.enc * 32768 + b.enc * 512 + l.val := eq
  have la := src_lt a; have lb := src_lt b; have ll := l.isLt
  obtain ⟨f0, hh, mm⟩ := top (n := N) (op := 30) hd (r := a.enc * 32768 + b.enc * 512 + l.val + 192) (by omega) (by omega) (by omega)
  obtain ⟨f1, mm⟩ := cut (K := 32768) 20 15 (a.enc) (b.enc * 512 + l.val + 192) mm (by norm_num) (by norm_num) (by omega) (by omega) (by omega)
  obtain ⟨f2, mm⟩ := cut (K := 512) 14 9 (b.enc) (l.val + 192) mm (by norm_num) (by norm_num) (by omega) (by omega) (by omega)
  obtain ⟨f3, mm⟩ := cut (K := 64) 8 6 (3) (l.val) mm (by norm_num) (by norm_num) (by omega) (by omega) (by omega)
  obtain ⟨f4, mm⟩ := cut (K := 8) 5 3 (0) (l.val) mm (by norm_num) (by norm_num) (by omega) (by omega) (by omega)
  obtain ⟨f5, mm⟩ := cut (K := 1) 2 0 (l.val) (0) mm (by norm_num) (by norm_num) (by omega) (by omega) (by omega)
  rw [decEdge_of f0, decEdge, f3]
  simp [hh, f1, f2, f4, f5, src_dec_enc, need, mk_of h]
theorem post (hd : Hd) (a : Src) (b : Src) (s : Bool) (n : Fin 8) : Statement (.post hd a b s n) := by
  intro _ h
  obtain ⟨N, eq⟩ : ∃ N, N = encodeNat (.post hd a b s n) := ⟨_, rfl⟩
  rw [← eq]
  replace eq : N = 0x3c000100 + hd.enc + a.enc * 32768 + b.enc * 512 + b2n s * 8 + n.val := eq
  have la := src_lt a; have lb := src_lt b; have ls := b2n_lt s; have ln := n.isLt
  obtain ⟨f0, hh, mm⟩ := top (n := N) (op := 30) hd (r := a.enc * 32768 + b.enc * 512 + b2n s * 8 + n.val + 256) (by omega) (by omega) (by omega)
  obtain ⟨f1, mm⟩ := cut (K := 32768) 20 15 (a.enc) (b.enc * 512 + b2n s * 8 + n.val + 256) mm (by norm_num) (by norm_num) (by omega) (by omega) (by omega)
  obtain ⟨f2, mm⟩ := cut (K := 512) 14 9 (b.enc) (b2n s * 8 + n.val + 256) mm (by norm_num) (by norm_num) (by omega) (by omega) (by omega)
  obtain ⟨f3, mm⟩ := cut (K := 64) 8 6 (4) (b2n s * 8 + n.val) mm (by norm_num) (by norm_num) (by omega) (by omega) (by omega)
  obtain ⟨f4, mm⟩ := cut (K := 16) 5 4 (0) (b2n s * 8 + n.val) mm (by norm_num) (by norm_num) (by omega) (by omega) (by omega)
  obtain ⟨f5, mm⟩ := cut (K := 8) 3 3 (b2n s) (n.val) mm (by norm_num) (by norm_num) (by omega) (by omega) (by omega)
  obtain ⟨f6, mm⟩ := cut (K := 1) 2 0 (n.val) (0) mm (by norm_num) (by norm_num) (by omega) (by omega) (by omega)
  rw [decEdge_of f0, decEdge, f3]
  simp [hh, f1, f2, f4, bit_of f5, f6, src_dec_enc, need, mk_of h]
theorem pick (hd : Hd) (a : Src) (n : Fin 8) : Statement (.pick hd a n) := by
  intro _ h
  obtain ⟨N, eq⟩ : ∃ N, N = encodeNat (.pick hd a n) := ⟨_, rfl⟩
  rw [← eq]
  replace eq : N = 0x3c007140 + hd.enc + a.enc * 32768 + n.val := eq
  have la := src_lt a; have ln := n.isLt
  obtain ⟨f0, hh, mm⟩ := top (n := N) (op := 30) hd (r := a.enc * 32768 + n.val + 28992) (by omega) (by omega) (by omega)
  obtain ⟨f1, mm⟩ := cut (K := 32768) 20 15 (a.enc) (n.val + 28992) mm (by norm_num) (by norm_num) (by omega) (by omega) (by omega)
  obtain ⟨f2, mm⟩ := cut (K := 512) 14 9 (56) (n.val + 320) mm (by norm_num) (by norm_num) (by omega) (by omega) (by omega)
  obtain ⟨f3, mm⟩ := cut (K := 64) 8 6 (5) (n.val) mm (by norm_num) (by norm_num) (by omega) (by omega) (by omega)
  obtain ⟨f4, mm⟩ := cut (K := 8) 5 3 (0) (n.val) mm (by norm_num) (by norm_num) (by omega) (by omega) (by omega)
  obtain ⟨f5, mm⟩ := cut (K := 1) 2 0 (n.val) (0) mm (by norm_num) (by norm_num) (by omega) (by omega) (by omega)
  rw [decEdge_of f0, decEdge, f3]
  simp [hh, f1, f2, f4, f5, src_dec_enc, need, mk_of h]
theorem qwait (hd : Hd) (a : Src) (s : Bool) : Statement (.qwait hd a s) := by
  intro _ h
  obtain ⟨N, eq⟩ : ∃ N, N = encodeNat (.qwait hd a s) := ⟨_, rfl⟩
  rw [← eq]
  replace eq : N = 0x3c007180 + hd.enc + a.enc * 32768 + b2n s * 8 := eq
  have la := src_lt a; have ls := b2n_lt s
  obtain ⟨f0, hh, mm⟩ := top (n := N) (op := 30) hd (r := a.enc * 32768 + b2n s * 8 + 29056) (by omega) (by omega) (by omega)
  obtain ⟨f1, mm⟩ := cut (K := 32768) 20 15 (a.enc) (b2n s * 8 + 29056) mm (by norm_num) (by norm_num) (by omega) (by omega) (by omega)
  obtain ⟨f2, mm⟩ := cut (K := 512) 14 9 (56) (b2n s * 8 + 384) mm (by norm_num) (by norm_num) (by omega) (by omega) (by omega)
  obtain ⟨f3, mm⟩ := cut (K := 64) 8 6 (6) (b2n s * 8) mm (by norm_num) (by norm_num) (by omega) (by omega) (by omega)
  obtain ⟨f4, mm⟩ := cut (K := 16) 5 4 (0) (b2n s * 8) mm (by norm_num) (by norm_num) (by omega) (by omega) (by omega)
  obtain ⟨f5, mm⟩ := cut (K := 8) 3 3 (b2n s) (0) mm (by norm_num) (by norm_num) (by omega) (by omega) (by omega)
  obtain ⟨f6, mm⟩ := cut (K := 1) 2 0 (0) (0) mm (by norm_num) (by norm_num) (by omega) (by omega) (by omega)
  rw [decEdge_of f0, decEdge, f3]
  simp [hh, f1, f2, f4, bit_of f5, f6, src_dec_enc, need, mk_of h]
theorem node (hd : Hd) (a : Src) (s : Bool) : Statement (.node hd a s) := by
  intro _ h
  obtain ⟨N, eq⟩ : ∃ N, N = encodeNat (.node hd a s) := ⟨_, rfl⟩
  rw [← eq]
  replace eq : N = 0x3c0071c0 + hd.enc + a.enc * 32768 + b2n s * 8 := eq
  have la := src_lt a; have ls := b2n_lt s
  obtain ⟨f0, hh, mm⟩ := top (n := N) (op := 30) hd (r := a.enc * 32768 + b2n s * 8 + 29120) (by omega) (by omega) (by omega)
  obtain ⟨f1, mm⟩ := cut (K := 32768) 20 15 (a.enc) (b2n s * 8 + 29120) mm (by norm_num) (by norm_num) (by omega) (by omega) (by omega)
  obtain ⟨f2, mm⟩ := cut (K := 512) 14 9 (56) (b2n s * 8 + 448) mm (by norm_num) (by norm_num) (by omega) (by omega) (by omega)
  obtain ⟨f3, mm⟩ := cut (K := 64) 8 6 (7) (b2n s * 8) mm (by norm_num) (by norm_num) (by omega) (by omega) (by omega)
  obtain ⟨f4, mm⟩ := cut (K := 16) 5 4 (0) (b2n s * 8) mm (by norm_num) (by norm_num) (by omega) (by omega) (by omega)
  obtain ⟨f5, mm⟩ := cut (K := 8) 3 3 (b2n s) (0) mm (by norm_num) (by norm_num) (by omega) (by omega) (by omega)
  obtain ⟨f6, mm⟩ := cut (K := 1) 2 0 (0) (0) mm (by norm_num) (by norm_num) (by omega) (by omega) (by omega)
  rw [decEdge_of f0, decEdge, f3]
  simp [hh, f1, f2, f4, bit_of f5, f6, src_dec_enc, need, mk_of h]
theorem marm (hd : Hd) (a : Src) (b : Src) (v : Fin 16) : Statement (.marm hd a b v) := by
  intro _ h
  obtain ⟨N, eq⟩ : ∃ N, N = encodeNat (.marm hd a b v) := ⟨_, rfl⟩
  rw [← eq]
  replace eq : N = 0x3e000000 + hd.enc + a.enc * 32768 + b.enc * 512 + v.val := eq
  have la := src_lt a; have lb := src_lt b; have lv := v.isLt
  obtain ⟨f0, hh, mm⟩ := top (n := N) (op := 31) hd (r := a.enc * 32768 + b.enc * 512 + v.val) (by omega) (by omega) (by omega)
  obtain ⟨f1, mm⟩ := cut (K := 32768) 20 15 (a.enc) (b.enc * 512 + v.val) mm (by norm_num) (by norm_num) (by omega) (by omega) (by omega)
  obtain ⟨f2, mm⟩ := cut (K := 512) 14 9 (b.enc) (v.val) mm (by norm_num) (by norm_num) (by omega) (by omega) (by omega)
  obtain ⟨f3, mm⟩ := cut (K := 64) 8 6 (0) (v.val) mm (by norm_num) (by norm_num) (by omega) (by omega) (by omega)
  obtain ⟨f4, mm⟩ := cut (K := 16) 5 4 (0) (v.val) mm (by norm_num) (by norm_num) (by omega) (by omega) (by omega)
  obtain ⟨f5, mm⟩ := cut (K := 1) 3 0 (v.val) (0) mm (by norm_num) (by norm_num) (by omega) (by omega) (by omega)
  rw [decEngm_of f0, decEngm, f3]
  simp [hh, f1, f2, f4, f5, src_dec_enc, need, mk_of h]
theorem msign (hd : Hd) (a : Src) (v : Fin 16) : Statement (.msign hd a v) := by
  intro _ h
  obtain ⟨N, eq⟩ : ∃ N, N = encodeNat (.msign hd a v) := ⟨_, rfl⟩
  rw [← eq]
  replace eq : N = 0x3e007040 + hd.enc + a.enc * 32768 + v.val := eq
  have la := src_lt a; have lv := v.isLt
  obtain ⟨f0, hh, mm⟩ := top (n := N) (op := 31) hd (r := a.enc * 32768 + v.val + 28736) (by omega) (by omega) (by omega)
  obtain ⟨f1, mm⟩ := cut (K := 32768) 20 15 (a.enc) (v.val + 28736) mm (by norm_num) (by norm_num) (by omega) (by omega) (by omega)
  obtain ⟨f2, mm⟩ := cut (K := 512) 14 9 (56) (v.val + 64) mm (by norm_num) (by norm_num) (by omega) (by omega) (by omega)
  obtain ⟨f3, mm⟩ := cut (K := 64) 8 6 (1) (v.val) mm (by norm_num) (by norm_num) (by omega) (by omega) (by omega)
  obtain ⟨f4, mm⟩ := cut (K := 16) 5 4 (0) (v.val) mm (by norm_num) (by norm_num) (by omega) (by omega) (by omega)
  obtain ⟨f5, mm⟩ := cut (K := 1) 3 0 (v.val) (0) mm (by norm_num) (by norm_num) (by omega) (by omega) (by omega)
  rw [decEngm_of f0, decEngm, f3]
  simp [hh, f1, f2, f4, f5, src_dec_enc, need, mk_of h]
theorem mwait (hd : Hd) (v : Fin 16) : Statement (.mwait hd v) := by
  intro _ h
  obtain ⟨N, eq⟩ : ∃ N, N = encodeNat (.mwait hd v) := ⟨_, rfl⟩
  rw [← eq]
  replace eq : N = 0x3e1c7080 + hd.enc + v.val := eq
  have lv := v.isLt
  obtain ⟨f0, hh, mm⟩ := top (n := N) (op := 31) hd (r := v.val + 1863808) (by omega) (by omega) (by omega)
  obtain ⟨f1, mm⟩ := cut (K := 512) 20 9 (3640) (v.val + 128) mm (by norm_num) (by norm_num) (by omega) (by omega) (by omega)
  obtain ⟨f2, mm⟩ := cut (K := 64) 8 6 (2) (v.val) mm (by norm_num) (by norm_num) (by omega) (by omega) (by omega)
  obtain ⟨f3, mm⟩ := cut (K := 16) 5 4 (0) (v.val) mm (by norm_num) (by norm_num) (by omega) (by omega) (by omega)
  obtain ⟨f4, mm⟩ := cut (K := 1) 3 0 (v.val) (0) mm (by norm_num) (by norm_num) (by omega) (by omega) (by omega)
  rw [decEngm_of f0, decEngm, f2]
  simp [hh, f1, f3, f4, need, mk_of h]
theorem mdrain (hd : Hd) (a : Src) (v : Fin 16) : Statement (.mdrain hd a v) := by
  intro _ h
  obtain ⟨N, eq⟩ : ∃ N, N = encodeNat (.mdrain hd a v) := ⟨_, rfl⟩
  rw [← eq]
  replace eq : N = 0x3e0070c0 + hd.enc + a.enc * 32768 + v.val := eq
  have la := src_lt a; have lv := v.isLt
  obtain ⟨f0, hh, mm⟩ := top (n := N) (op := 31) hd (r := a.enc * 32768 + v.val + 28864) (by omega) (by omega) (by omega)
  obtain ⟨f1, mm⟩ := cut (K := 32768) 20 15 (a.enc) (v.val + 28864) mm (by norm_num) (by norm_num) (by omega) (by omega) (by omega)
  obtain ⟨f2, mm⟩ := cut (K := 512) 14 9 (56) (v.val + 192) mm (by norm_num) (by norm_num) (by omega) (by omega) (by omega)
  obtain ⟨f3, mm⟩ := cut (K := 64) 8 6 (3) (v.val) mm (by norm_num) (by norm_num) (by omega) (by omega) (by omega)
  obtain ⟨f4, mm⟩ := cut (K := 16) 5 4 (0) (v.val) mm (by norm_num) (by norm_num) (by omega) (by omega) (by omega)
  obtain ⟨f5, mm⟩ := cut (K := 1) 3 0 (v.val) (0) mm (by norm_num) (by norm_num) (by omega) (by omega) (by omega)
  rw [decEngm_of f0, decEngm, f3]
  simp [hh, f1, f2, f4, f5, src_dec_enc, need, mk_of h]
theorem mcfg (hd : Hd) (a : Src) (v : Fin 16) : Statement (.mcfg hd a v) := by
  intro _ h
  obtain ⟨N, eq⟩ : ∃ N, N = encodeNat (.mcfg hd a v) := ⟨_, rfl⟩
  rw [← eq]
  replace eq : N = 0x3e007100 + hd.enc + a.enc * 32768 + v.val := eq
  have la := src_lt a; have lv := v.isLt
  obtain ⟨f0, hh, mm⟩ := top (n := N) (op := 31) hd (r := a.enc * 32768 + v.val + 28928) (by omega) (by omega) (by omega)
  obtain ⟨f1, mm⟩ := cut (K := 32768) 20 15 (a.enc) (v.val + 28928) mm (by norm_num) (by norm_num) (by omega) (by omega) (by omega)
  obtain ⟨f2, mm⟩ := cut (K := 512) 14 9 (56) (v.val + 256) mm (by norm_num) (by norm_num) (by omega) (by omega) (by omega)
  obtain ⟨f3, mm⟩ := cut (K := 64) 8 6 (4) (v.val) mm (by norm_num) (by norm_num) (by omega) (by omega) (by omega)
  obtain ⟨f4, mm⟩ := cut (K := 16) 5 4 (0) (v.val) mm (by norm_num) (by norm_num) (by omega) (by omega) (by omega)
  obtain ⟨f5, mm⟩ := cut (K := 1) 3 0 (v.val) (0) mm (by norm_num) (by norm_num) (by omega) (by omega) (by omega)
  rw [decEngm_of f0, decEngm, f3]
  simp [hh, f1, f2, f4, f5, src_dec_enc, need, mk_of h]
theorem mnorm (hd : Hd) (a : Src) (v : Fin 16) : Statement (.mnorm hd a v) := by
  intro _ h
  obtain ⟨N, eq⟩ : ∃ N, N = encodeNat (.mnorm hd a v) := ⟨_, rfl⟩
  rw [← eq]
  replace eq : N = 0x3e007140 + hd.enc + a.enc * 32768 + v.val := eq
  have la := src_lt a; have lv := v.isLt
  obtain ⟨f0, hh, mm⟩ := top (n := N) (op := 31) hd (r := a.enc * 32768 + v.val + 28992) (by omega) (by omega) (by omega)
  obtain ⟨f1, mm⟩ := cut (K := 32768) 20 15 (a.enc) (v.val + 28992) mm (by norm_num) (by norm_num) (by omega) (by omega) (by omega)
  obtain ⟨f2, mm⟩ := cut (K := 512) 14 9 (56) (v.val + 320) mm (by norm_num) (by norm_num) (by omega) (by omega) (by omega)
  obtain ⟨f3, mm⟩ := cut (K := 64) 8 6 (5) (v.val) mm (by norm_num) (by norm_num) (by omega) (by omega) (by omega)
  obtain ⟨f4, mm⟩ := cut (K := 16) 5 4 (0) (v.val) mm (by norm_num) (by norm_num) (by omega) (by omega) (by omega)
  obtain ⟨f5, mm⟩ := cut (K := 1) 3 0 (v.val) (0) mm (by norm_num) (by norm_num) (by omega) (by omega) (by omega)
  rw [decEngm_of f0, decEngm, f3]
  simp [hh, f1, f2, f4, f5, src_dec_enc, need, mk_of h]
theorem mreset (hd : Hd) (v : Fin 16) : Statement (.mreset hd v) := by
  intro _ h
  obtain ⟨N, eq⟩ : ∃ N, N = encodeNat (.mreset hd v) := ⟨_, rfl⟩
  rw [← eq]
  replace eq : N = 0x3e1c7180 + hd.enc + v.val := eq
  have lv := v.isLt
  obtain ⟨f0, hh, mm⟩ := top (n := N) (op := 31) hd (r := v.val + 1864064) (by omega) (by omega) (by omega)
  obtain ⟨f1, mm⟩ := cut (K := 512) 20 9 (3640) (v.val + 384) mm (by norm_num) (by norm_num) (by omega) (by omega) (by omega)
  obtain ⟨f2, mm⟩ := cut (K := 64) 8 6 (6) (v.val) mm (by norm_num) (by norm_num) (by omega) (by omega) (by omega)
  obtain ⟨f3, mm⟩ := cut (K := 16) 5 4 (0) (v.val) mm (by norm_num) (by norm_num) (by omega) (by omega) (by omega)
  obtain ⟨f4, mm⟩ := cut (K := 1) 3 0 (v.val) (0) mm (by norm_num) (by norm_num) (by omega) (by omega) (by omega)
  rw [decEngm_of f0, decEngm, f2]
  simp [hh, f1, f3, f4, need, mk_of h]
theorem cpy (hd : Hd) (a : Src) (b : Src) (s : Space) (d : Space) : Statement (.cpy hd a b s d) := by
  intro _ h
  obtain ⟨N, eq⟩ : ∃ N, N = encodeNat (.cpy hd a b s d) := ⟨_, rfl⟩
  rw [← eq]
  replace eq : N = 0x40000000 + hd.enc + a.enc * 32768 + b.enc * 512 + s.enc * 8 + d.enc := eq
  have la := src_lt a; have lb := src_lt b; have ls := space_lt s; have ld := space_lt d
  obtain ⟨f0, hh, mm⟩ := top (n := N) (op := 32) hd (r := a.enc * 32768 + b.enc * 512 + s.enc * 8 + d.enc) (by omega) (by omega) (by omega)
  obtain ⟨f1, mm⟩ := cut (K := 32768) 20 15 (a.enc) (b.enc * 512 + s.enc * 8 + d.enc) mm (by norm_num) (by norm_num) (by omega) (by omega) (by omega)
  obtain ⟨f2, mm⟩ := cut (K := 512) 14 9 (b.enc) (s.enc * 8 + d.enc) mm (by norm_num) (by norm_num) (by omega) (by omega) (by omega)
  obtain ⟨f3, mm⟩ := cut (K := 64) 8 6 (0) (s.enc * 8 + d.enc) mm (by norm_num) (by norm_num) (by omega) (by omega) (by omega)
  obtain ⟨f4, mm⟩ := cut (K := 8) 5 3 (s.enc) (d.enc) mm (by norm_num) (by norm_num) (by omega) (by omega) (by omega)
  obtain ⟨f5, mm⟩ := cut (K := 1) 2 0 (d.enc) (0) mm (by norm_num) (by norm_num) (by omega) (by omega) (by omega)
  rw [decEngc_of f0, decEngc, f3]
  simp [hh, f1, f2, f4, f5, space_dec_enc, src_dec_enc, mk_of h]
theorem cpys (hd : Hd) (a : Src) (b : Src) (d : Space) : Statement (.cpys hd a b d) := by
  intro _ h
  obtain ⟨N, eq⟩ : ∃ N, N = encodeNat (.cpys hd a b d) := ⟨_, rfl⟩
  rw [← eq]
  replace eq : N = 0x40000040 + hd.enc + a.enc * 32768 + b.enc * 512 + d.enc := eq
  have la := src_lt a; have lb := src_lt b; have ld := space_lt d
  obtain ⟨f0, hh, mm⟩ := top (n := N) (op := 32) hd (r := a.enc * 32768 + b.enc * 512 + d.enc + 64) (by omega) (by omega) (by omega)
  obtain ⟨f1, mm⟩ := cut (K := 32768) 20 15 (a.enc) (b.enc * 512 + d.enc + 64) mm (by norm_num) (by norm_num) (by omega) (by omega) (by omega)
  obtain ⟨f2, mm⟩ := cut (K := 512) 14 9 (b.enc) (d.enc + 64) mm (by norm_num) (by norm_num) (by omega) (by omega) (by omega)
  obtain ⟨f3, mm⟩ := cut (K := 64) 8 6 (1) (d.enc) mm (by norm_num) (by norm_num) (by omega) (by omega) (by omega)
  obtain ⟨f4, mm⟩ := cut (K := 8) 5 3 (0) (d.enc) mm (by norm_num) (by norm_num) (by omega) (by omega) (by omega)
  obtain ⟨f5, mm⟩ := cut (K := 1) 2 0 (d.enc) (0) mm (by norm_num) (by norm_num) (by omega) (by omega) (by omega)
  rw [decEngc_of f0, decEngc, f3]
  simp [hh, f1, f2, f4, f5, space_dec_enc, src_dec_enc, need, mk_of h]
theorem gath (hd : Hd) (a : Src) (b : Src) (d : Space) : Statement (.gath hd a b d) := by
  intro _ h
  obtain ⟨N, eq⟩ : ∃ N, N = encodeNat (.gath hd a b d) := ⟨_, rfl⟩
  rw [← eq]
  replace eq : N = 0x40000080 + hd.enc + a.enc * 32768 + b.enc * 512 + d.enc := eq
  have la := src_lt a; have lb := src_lt b; have ld := space_lt d
  obtain ⟨f0, hh, mm⟩ := top (n := N) (op := 32) hd (r := a.enc * 32768 + b.enc * 512 + d.enc + 128) (by omega) (by omega) (by omega)
  obtain ⟨f1, mm⟩ := cut (K := 32768) 20 15 (a.enc) (b.enc * 512 + d.enc + 128) mm (by norm_num) (by norm_num) (by omega) (by omega) (by omega)
  obtain ⟨f2, mm⟩ := cut (K := 512) 14 9 (b.enc) (d.enc + 128) mm (by norm_num) (by norm_num) (by omega) (by omega) (by omega)
  obtain ⟨f3, mm⟩ := cut (K := 64) 8 6 (2) (d.enc) mm (by norm_num) (by norm_num) (by omega) (by omega) (by omega)
  obtain ⟨f4, mm⟩ := cut (K := 8) 5 3 (0) (d.enc) mm (by norm_num) (by norm_num) (by omega) (by omega) (by omega)
  obtain ⟨f5, mm⟩ := cut (K := 1) 2 0 (d.enc) (0) mm (by norm_num) (by norm_num) (by omega) (by omega) (by omega)
  rw [decEngc_of f0, decEngc, f3]
  simp [hh, f1, f2, f4, f5, space_dec_enc, src_dec_enc, need, mk_of h]
theorem cpyr (hd : Hd) (a : Src) (b : Src) (s : Space) (r : Bool) : Statement (.cpyr hd a b s r) := by
  intro _ h
  obtain ⟨N, eq⟩ : ∃ N, N = encodeNat (.cpyr hd a b s r) := ⟨_, rfl⟩
  rw [← eq]
  replace eq : N = 0x400000c0 + hd.enc + a.enc * 32768 + b.enc * 512 + s.enc * 8 + b2n r := eq
  have la := src_lt a; have lb := src_lt b; have ls := space_lt s; have lr := b2n_lt r
  obtain ⟨f0, hh, mm⟩ := top (n := N) (op := 32) hd (r := a.enc * 32768 + b.enc * 512 + s.enc * 8 + b2n r + 192) (by omega) (by omega) (by omega)
  obtain ⟨f1, mm⟩ := cut (K := 32768) 20 15 (a.enc) (b.enc * 512 + s.enc * 8 + b2n r + 192) mm (by norm_num) (by norm_num) (by omega) (by omega) (by omega)
  obtain ⟨f2, mm⟩ := cut (K := 512) 14 9 (b.enc) (s.enc * 8 + b2n r + 192) mm (by norm_num) (by norm_num) (by omega) (by omega) (by omega)
  obtain ⟨f3, mm⟩ := cut (K := 64) 8 6 (3) (s.enc * 8 + b2n r) mm (by norm_num) (by norm_num) (by omega) (by omega) (by omega)
  obtain ⟨f4, mm⟩ := cut (K := 8) 5 3 (s.enc) (b2n r) mm (by norm_num) (by norm_num) (by omega) (by omega) (by omega)
  obtain ⟨f5, mm⟩ := cut (K := 2) 2 1 (0) (b2n r) mm (by norm_num) (by norm_num) (by omega) (by omega) (by omega)
  obtain ⟨f6, mm⟩ := cut (K := 1) 0 0 (b2n r) (0) mm (by norm_num) (by norm_num) (by omega) (by omega) (by omega)
  rw [decEngc_of f0, decEngc, f3]
  simp [hh, f1, f2, f4, f5, bit_of f6, space_dec_enc, src_dec_enc, need, mk_of h]
theorem rast (hd : Hd) (a : Src) (n : Fin 4) (l : Cull) : Statement (.rast hd a n l) := by
  intro _ h
  obtain ⟨N, eq⟩ : ∃ N, N = encodeNat (.rast hd a n l) := ⟨_, rfl⟩
  rw [← eq]
  replace eq : N = 0x42007000 + hd.enc + a.enc * 32768 + n.val * 16 + l.enc * 4 := eq
  have la := src_lt a; have ln := n.isLt; have ll := cull_lt l
  obtain ⟨f0, hh, mm⟩ := top (n := N) (op := 33) hd (r := a.enc * 32768 + n.val * 16 + l.enc * 4 + 28672) (by omega) (by omega) (by omega)
  obtain ⟨f1, mm⟩ := cut (K := 32768) 20 15 (a.enc) (n.val * 16 + l.enc * 4 + 28672) mm (by norm_num) (by norm_num) (by omega) (by omega) (by omega)
  obtain ⟨f2, mm⟩ := cut (K := 512) 14 9 (56) (n.val * 16 + l.enc * 4) mm (by norm_num) (by norm_num) (by omega) (by omega) (by omega)
  obtain ⟨f3, mm⟩ := cut (K := 64) 8 6 (0) (n.val * 16 + l.enc * 4) mm (by norm_num) (by norm_num) (by omega) (by omega) (by omega)
  obtain ⟨f4, mm⟩ := cut (K := 16) 5 4 (n.val) (l.enc * 4) mm (by norm_num) (by norm_num) (by omega) (by omega) (by omega)
  obtain ⟨f5, mm⟩ := cut (K := 4) 3 2 (l.enc) (0) mm (by norm_num) (by norm_num) (by omega) (by omega) (by omega)
  obtain ⟨f6, mm⟩ := cut (K := 1) 1 0 (0) (0) mm (by norm_num) (by norm_num) (by omega) (by omega) (by omega)
  rw [decGfx_of f0, decGfx, f3]
  simp [hh, f1, f2, f4, f5, f6, cull_dec_enc, src_dec_enc, need, ok_bind, mk_of h]
theorem trace (hd : Hd) (a : Src) : Statement (.trace hd a) := by
  intro _ h
  obtain ⟨N, eq⟩ : ∃ N, N = encodeNat (.trace hd a) := ⟨_, rfl⟩
  rw [← eq]
  replace eq : N = 0x42007040 + hd.enc + a.enc * 32768 := eq
  have la := src_lt a
  obtain ⟨f0, hh, mm⟩ := top (n := N) (op := 33) hd (r := a.enc * 32768 + 28736) (by omega) (by omega) (by omega)
  obtain ⟨f1, mm⟩ := cut (K := 32768) 20 15 (a.enc) (28736) mm (by norm_num) (by norm_num) (by omega) (by omega) (by omega)
  obtain ⟨f2, mm⟩ := cut (K := 512) 14 9 (56) (64) mm (by norm_num) (by norm_num) (by omega) (by omega) (by omega)
  obtain ⟨f3, mm⟩ := cut (K := 64) 8 6 (1) (0) mm (by norm_num) (by norm_num) (by omega) (by omega) (by omega)
  obtain ⟨f4, mm⟩ := cut (K := 1) 5 0 (0) (0) mm (by norm_num) (by norm_num) (by omega) (by omega) (by omega)
  rw [decGfx_of f0, decGfx, f3]
  simp [hh, f1, f2, f4, src_dec_enc, need, mk_of h]
theorem hitr (hd : Hd) (a : Src) (b : Src) : Statement (.hitr hd a b) := by
  intro _ h
  obtain ⟨N, eq⟩ : ∃ N, N = encodeNat (.hitr hd a b) := ⟨_, rfl⟩
  rw [← eq]
  replace eq : N = 0x42000080 + hd.enc + a.enc * 32768 + b.enc * 512 := eq
  have la := src_lt a; have lb := src_lt b
  obtain ⟨f0, hh, mm⟩ := top (n := N) (op := 33) hd (r := a.enc * 32768 + b.enc * 512 + 128) (by omega) (by omega) (by omega)
  obtain ⟨f1, mm⟩ := cut (K := 32768) 20 15 (a.enc) (b.enc * 512 + 128) mm (by norm_num) (by norm_num) (by omega) (by omega) (by omega)
  obtain ⟨f2, mm⟩ := cut (K := 512) 14 9 (b.enc) (128) mm (by norm_num) (by norm_num) (by omega) (by omega) (by omega)
  obtain ⟨f3, mm⟩ := cut (K := 64) 8 6 (2) (0) mm (by norm_num) (by norm_num) (by omega) (by omega) (by omega)
  obtain ⟨f4, mm⟩ := cut (K := 1) 5 0 (0) (0) mm (by norm_num) (by norm_num) (by omega) (by omega) (by omega)
  rw [decGfx_of f0, decGfx, f3]
  simp [hh, f1, f2, f4, src_dec_enc, need, mk_of h]
theorem boxu (hd : Hd) (a : Src) (b : Src) (m : BoxMode) : Statement (.boxu hd a b m) := by
  intro _ h
  obtain ⟨N, eq⟩ : ∃ N, N = encodeNat (.boxu hd a b m) := ⟨_, rfl⟩
  rw [← eq]
  replace eq : N = 0x420000c0 + hd.enc + a.enc * 32768 + b.enc * 512 + m.enc * 16 := eq
  have la := src_lt a; have lb := src_lt b; have lm := boxMode_lt m
  obtain ⟨f0, hh, mm⟩ := top (n := N) (op := 33) hd (r := a.enc * 32768 + b.enc * 512 + m.enc * 16 + 192) (by omega) (by omega) (by omega)
  obtain ⟨f1, mm⟩ := cut (K := 32768) 20 15 (a.enc) (b.enc * 512 + m.enc * 16 + 192) mm (by norm_num) (by norm_num) (by omega) (by omega) (by omega)
  obtain ⟨f2, mm⟩ := cut (K := 512) 14 9 (b.enc) (m.enc * 16 + 192) mm (by norm_num) (by norm_num) (by omega) (by omega) (by omega)
  obtain ⟨f3, mm⟩ := cut (K := 64) 8 6 (3) (m.enc * 16) mm (by norm_num) (by norm_num) (by omega) (by omega) (by omega)
  obtain ⟨f4, mm⟩ := cut (K := 16) 5 4 (m.enc) (0) mm (by norm_num) (by norm_num) (by omega) (by omega) (by omega)
  obtain ⟨f5, mm⟩ := cut (K := 1) 3 0 (0) (0) mm (by norm_num) (by norm_num) (by omega) (by omega) (by omega)
  rw [decGfx_of f0, decGfx, f3]
  simp [hh, f1, f2, f4, f5, boxMode_dec_enc, src_dec_enc, need, ok_bind, mk_of h]
theorem sah (hd : Hd) (a : Src) (b : Src) (r : RM) : Statement (.sah hd a b r) := by
  intro _ h
  obtain ⟨N, eq⟩ : ∃ N, N = encodeNat (.sah hd a b r) := ⟨_, rfl⟩
  rw [← eq]
  replace eq : N = 0x42000100 + hd.enc + a.enc * 32768 + b.enc * 512 + r.enc := eq
  have la := src_lt a; have lb := src_lt b; have lr := rm_lt r
  obtain ⟨f0, hh, mm⟩ := top (n := N) (op := 33) hd (r := a.enc * 32768 + b.enc * 512 + r.enc + 256) (by omega) (by omega) (by omega)
  obtain ⟨f1, mm⟩ := cut (K := 32768) 20 15 (a.enc) (b.enc * 512 + r.enc + 256) mm (by norm_num) (by norm_num) (by omega) (by omega) (by omega)
  obtain ⟨f2, mm⟩ := cut (K := 512) 14 9 (b.enc) (r.enc + 256) mm (by norm_num) (by norm_num) (by omega) (by omega) (by omega)
  obtain ⟨f3, mm⟩ := cut (K := 64) 8 6 (4) (r.enc) mm (by norm_num) (by norm_num) (by omega) (by omega) (by omega)
  obtain ⟨f4, mm⟩ := cut (K := 8) 5 3 (0) (r.enc) mm (by norm_num) (by norm_num) (by omega) (by omega) (by omega)
  obtain ⟨f5, mm⟩ := cut (K := 1) 2 0 (r.enc) (0) mm (by norm_num) (by norm_num) (by omega) (by omega) (by omega)
  rw [decGfx_of f0, decGfx, f3]
  simp [hh, f1, f2, f4, f5, rm_dec_enc, src_dec_enc, need, ok_bind, mk_of h]
theorem npack (hd : Hd) (a : Src) (b : Src) : Statement (.npack hd a b) := by
  intro _ h
  obtain ⟨N, eq⟩ : ∃ N, N = encodeNat (.npack hd a b) := ⟨_, rfl⟩
  rw [← eq]
  replace eq : N = 0x42000140 + hd.enc + a.enc * 32768 + b.enc * 512 := eq
  have la := src_lt a; have lb := src_lt b
  obtain ⟨f0, hh, mm⟩ := top (n := N) (op := 33) hd (r := a.enc * 32768 + b.enc * 512 + 320) (by omega) (by omega) (by omega)
  obtain ⟨f1, mm⟩ := cut (K := 32768) 20 15 (a.enc) (b.enc * 512 + 320) mm (by norm_num) (by norm_num) (by omega) (by omega) (by omega)
  obtain ⟨f2, mm⟩ := cut (K := 512) 14 9 (b.enc) (320) mm (by norm_num) (by norm_num) (by omega) (by omega) (by omega)
  obtain ⟨f3, mm⟩ := cut (K := 64) 8 6 (5) (0) mm (by norm_num) (by norm_num) (by omega) (by omega) (by omega)
  obtain ⟨f4, mm⟩ := cut (K := 1) 5 0 (0) (0) mm (by norm_num) (by norm_num) (by omega) (by omega) (by omega)
  rw [decGfx_of f0, decGfx, f3]
  simp [hh, f1, f2, f4, src_dec_enc, need, mk_of h]
theorem tex (hd : Hd) (a : Src) (b : Src) : Statement (.tex hd a b) := by
  intro _ h
  obtain ⟨N, eq⟩ : ∃ N, N = encodeNat (.tex hd a b) := ⟨_, rfl⟩
  rw [← eq]
  replace eq : N = 0x440001c0 + hd.enc + a.enc * 32768 + b.enc * 512 := eq
  have la := src_lt a; have lb := src_lt b
  obtain ⟨f0, hh, mm⟩ := top (n := N) (op := 34) hd (r := a.enc * 32768 + b.enc * 512 + 448) (by omega) (by omega) (by omega)
  obtain ⟨f1, mm⟩ := cut (K := 32768) 20 15 (a.enc) (b.enc * 512 + 448) mm (by norm_num) (by norm_num) (by omega) (by omega) (by omega)
  obtain ⟨f2, mm⟩ := cut (K := 512) 14 9 (b.enc) (448) mm (by norm_num) (by norm_num) (by omega) (by omega) (by omega)
  obtain ⟨f3, mm⟩ := cut (K := 64) 8 6 (7) (0) mm (by norm_num) (by norm_num) (by omega) (by omega) (by omega)
  obtain ⟨f4, mm⟩ := cut (K := 8) 5 3 (0) (0) mm (by norm_num) (by norm_num) (by omega) (by omega) (by omega)
  obtain ⟨f5, mm⟩ := cut (K := 1) 2 0 (0) (0) mm (by norm_num) (by norm_num) (by omega) (by omega) (by omega)
  rw [decTexi_of f0, decTexi, f5]
  simp [hh, f1, f2, f3, f4, src_dec_enc, need, mk_of h]
theorem texg (hd : Hd) (a : Src) (b : Src) : Statement (.texg hd a b) := by
  intro _ h
  obtain ⟨N, eq⟩ : ∃ N, N = encodeNat (.texg hd a b) := ⟨_, rfl⟩
  rw [← eq]
  replace eq : N = 0x440001c1 + hd.enc + a.enc * 32768 + b.enc * 512 := eq
  have la := src_lt a; have lb := src_lt b
  obtain ⟨f0, hh, mm⟩ := top (n := N) (op := 34) hd (r := a.enc * 32768 + b.enc * 512 + 449) (by omega) (by omega) (by omega)
  obtain ⟨f1, mm⟩ := cut (K := 32768) 20 15 (a.enc) (b.enc * 512 + 449) mm (by norm_num) (by norm_num) (by omega) (by omega) (by omega)
  obtain ⟨f2, mm⟩ := cut (K := 512) 14 9 (b.enc) (449) mm (by norm_num) (by norm_num) (by omega) (by omega) (by omega)
  obtain ⟨f3, mm⟩ := cut (K := 64) 8 6 (7) (1) mm (by norm_num) (by norm_num) (by omega) (by omega) (by omega)
  obtain ⟨f4, mm⟩ := cut (K := 8) 5 3 (0) (1) mm (by norm_num) (by norm_num) (by omega) (by omega) (by omega)
  obtain ⟨f5, mm⟩ := cut (K := 1) 2 0 (1) (0) mm (by norm_num) (by norm_num) (by omega) (by omega) (by omega)
  rw [decTexi_of f0, decTexi, f5]
  simp [hh, f1, f2, f3, f4, src_dec_enc, need, mk_of h]
theorem texq (hd : Hd) (a : Src) (b : Src) : Statement (.texq hd a b) := by
  intro _ h
  obtain ⟨N, eq⟩ : ∃ N, N = encodeNat (.texq hd a b) := ⟨_, rfl⟩
  rw [← eq]
  replace eq : N = 0x440001c2 + hd.enc + a.enc * 32768 + b.enc * 512 := eq
  have la := src_lt a; have lb := src_lt b
  obtain ⟨f0, hh, mm⟩ := top (n := N) (op := 34) hd (r := a.enc * 32768 + b.enc * 512 + 450) (by omega) (by omega) (by omega)
  obtain ⟨f1, mm⟩ := cut (K := 32768) 20 15 (a.enc) (b.enc * 512 + 450) mm (by norm_num) (by norm_num) (by omega) (by omega) (by omega)
  obtain ⟨f2, mm⟩ := cut (K := 512) 14 9 (b.enc) (450) mm (by norm_num) (by norm_num) (by omega) (by omega) (by omega)
  obtain ⟨f3, mm⟩ := cut (K := 64) 8 6 (7) (2) mm (by norm_num) (by norm_num) (by omega) (by omega) (by omega)
  obtain ⟨f4, mm⟩ := cut (K := 8) 5 3 (0) (2) mm (by norm_num) (by norm_num) (by omega) (by omega) (by omega)
  obtain ⟨f5, mm⟩ := cut (K := 1) 2 0 (2) (0) mm (by norm_num) (by norm_num) (by omega) (by omega) (by omega)
  rw [decTexi_of f0, decTexi, f5]
  simp [hh, f1, f2, f3, f4, src_dec_enc, need, mk_of h]
theorem imld (hd : Hd) (a : Src) (b : Src) (w : Width) : Statement (.imld hd a b w) := by
  intro _ h
  obtain ⟨N, eq⟩ : ∃ N, N = encodeNat (.imld hd a b w) := ⟨_, rfl⟩
  rw [← eq]
  replace eq : N = 0x440001c3 + hd.enc + a.enc * 32768 + b.enc * 512 + w.enc * 8 := eq
  have la := src_lt a; have lb := src_lt b; have lw := width_lt w
  obtain ⟨f0, hh, mm⟩ := top (n := N) (op := 34) hd (r := a.enc * 32768 + b.enc * 512 + w.enc * 8 + 451) (by omega) (by omega) (by omega)
  obtain ⟨f1, mm⟩ := cut (K := 32768) 20 15 (a.enc) (b.enc * 512 + w.enc * 8 + 451) mm (by norm_num) (by norm_num) (by omega) (by omega) (by omega)
  obtain ⟨f2, mm⟩ := cut (K := 512) 14 9 (b.enc) (w.enc * 8 + 451) mm (by norm_num) (by norm_num) (by omega) (by omega) (by omega)
  obtain ⟨f3, mm⟩ := cut (K := 64) 8 6 (7) (w.enc * 8 + 3) mm (by norm_num) (by norm_num) (by omega) (by omega) (by omega)
  obtain ⟨f4, mm⟩ := cut (K := 8) 5 3 (w.enc) (3) mm (by norm_num) (by norm_num) (by omega) (by omega) (by omega)
  obtain ⟨f5, mm⟩ := cut (K := 1) 2 0 (3) (0) mm (by norm_num) (by norm_num) (by omega) (by omega) (by omega)
  rw [decTexi_of f0, decTexi, f5]
  simp [hh, f1, f2, f3, f4, src_dec_enc, width_dec_enc, need, ok_bind, mk_of h]
theorem imst (hd : Hd) (a : Src) (b : Src) (w : Width) : Statement (.imst hd a b w) := by
  intro _ h
  obtain ⟨N, eq⟩ : ∃ N, N = encodeNat (.imst hd a b w) := ⟨_, rfl⟩
  rw [← eq]
  replace eq : N = 0x440001c4 + hd.enc + a.enc * 32768 + b.enc * 512 + w.enc * 8 := eq
  have la := src_lt a; have lb := src_lt b; have lw := width_lt w
  obtain ⟨f0, hh, mm⟩ := top (n := N) (op := 34) hd (r := a.enc * 32768 + b.enc * 512 + w.enc * 8 + 452) (by omega) (by omega) (by omega)
  obtain ⟨f1, mm⟩ := cut (K := 32768) 20 15 (a.enc) (b.enc * 512 + w.enc * 8 + 452) mm (by norm_num) (by norm_num) (by omega) (by omega) (by omega)
  obtain ⟨f2, mm⟩ := cut (K := 512) 14 9 (b.enc) (w.enc * 8 + 452) mm (by norm_num) (by norm_num) (by omega) (by omega) (by omega)
  obtain ⟨f3, mm⟩ := cut (K := 64) 8 6 (7) (w.enc * 8 + 4) mm (by norm_num) (by norm_num) (by omega) (by omega) (by omega)
  obtain ⟨f4, mm⟩ := cut (K := 8) 5 3 (w.enc) (4) mm (by norm_num) (by norm_num) (by omega) (by omega) (by omega)
  obtain ⟨f5, mm⟩ := cut (K := 1) 2 0 (4) (0) mm (by norm_num) (by norm_num) (by omega) (by omega) (by omega)
  rw [decTexi_of f0, decTexi, f5]
  simp [hh, f1, f2, f3, f4, src_dec_enc, width_dec_enc, need, ok_bind, mk_of h]
theorem rds (hd : Hd) (s : Fin 32) : Statement (.rds hd s) := by
  intro _ h
  obtain ⟨N, eq⟩ : ∃ N, N = encodeNat (.rds hd s) := ⟨_, rfl⟩
  rw [← eq]
  replace eq : N = 0x461c7000 + hd.enc + s.val := eq
  have ls := s.isLt
  obtain ⟨f0, hh, mm⟩ := top (n := N) (op := 35) hd (r := s.val + 1863680) (by omega) (by omega) (by omega)
  obtain ⟨f1, mm⟩ := cut (K := 512) 20 9 (3640) (s.val) mm (by norm_num) (by norm_num) (by omega) (by omega) (by omega)
  obtain ⟨f2, mm⟩ := cut (K := 32) 8 5 (0) (s.val) mm (by norm_num) (by norm_num) (by omega) (by omega) (by omega)
  obtain ⟨f3, mm⟩ := cut (K := 1) 4 0 (s.val) (0) mm (by norm_num) (by norm_num) (by omega) (by omega) (by omega)
  rw [decSys_of f0, decSys, f2]
  simp [hh, f1, f3, need, mk_of h]
theorem wrs (hd : Hd) (a : Src) (s : Fin 32) : Statement (.wrs hd a s) := by
  intro _ h
  obtain ⟨N, eq⟩ : ∃ N, N = encodeNat (.wrs hd a s) := ⟨_, rfl⟩
  rw [← eq]
  replace eq : N = 0x46007020 + hd.enc + a.enc * 32768 + s.val := eq
  have la := src_lt a; have ls := s.isLt
  obtain ⟨f0, hh, mm⟩ := top (n := N) (op := 35) hd (r := a.enc * 32768 + s.val + 28704) (by omega) (by omega) (by omega)
  obtain ⟨f1, mm⟩ := cut (K := 32768) 20 15 (a.enc) (s.val + 28704) mm (by norm_num) (by norm_num) (by omega) (by omega) (by omega)
  obtain ⟨f2, mm⟩ := cut (K := 512) 14 9 (56) (s.val + 32) mm (by norm_num) (by norm_num) (by omega) (by omega) (by omega)
  obtain ⟨f3, mm⟩ := cut (K := 32) 8 5 (1) (s.val) mm (by norm_num) (by norm_num) (by omega) (by omega) (by omega)
  obtain ⟨f4, mm⟩ := cut (K := 1) 4 0 (s.val) (0) mm (by norm_num) (by norm_num) (by omega) (by omega) (by omega)
  rw [decSys_of f0, decSys, f3]
  simp [hh, f1, f2, f4, src_dec_enc, need, mk_of h]
theorem trap (hd : Hd) (a : Src) : Statement (.trap hd a) := by
  intro _ h
  obtain ⟨N, eq⟩ : ∃ N, N = encodeNat (.trap hd a) := ⟨_, rfl⟩
  rw [← eq]
  replace eq : N = 0x46007040 + hd.enc + a.enc * 32768 := eq
  have la := src_lt a
  obtain ⟨f0, hh, mm⟩ := top (n := N) (op := 35) hd (r := a.enc * 32768 + 28736) (by omega) (by omega) (by omega)
  obtain ⟨f1, mm⟩ := cut (K := 32768) 20 15 (a.enc) (28736) mm (by norm_num) (by norm_num) (by omega) (by omega) (by omega)
  obtain ⟨f2, mm⟩ := cut (K := 512) 14 9 (56) (64) mm (by norm_num) (by norm_num) (by omega) (by omega) (by omega)
  obtain ⟨f3, mm⟩ := cut (K := 32) 8 5 (2) (0) mm (by norm_num) (by norm_num) (by omega) (by omega) (by omega)
  obtain ⟨f4, mm⟩ := cut (K := 1) 4 0 (0) (0) mm (by norm_num) (by norm_num) (by omega) (by omega) (by omega)
  rw [decSys_of f0, decSys, f3]
  simp [hh, f1, f2, f4, src_dec_enc, need, mk_of h]
theorem tlbi (hd : Hd) (a : Src) (b : Src) (t : Bool) : Statement (.tlbi hd a b t) := by
  intro _ h
  obtain ⟨N, eq⟩ : ∃ N, N = encodeNat (.tlbi hd a b t) := ⟨_, rfl⟩
  rw [← eq]
  replace eq : N = 0x46000060 + hd.enc + a.enc * 32768 + b.enc * 512 + b2n t := eq
  have la := src_lt a; have lb := src_lt b; have lt := b2n_lt t
  obtain ⟨f0, hh, mm⟩ := top (n := N) (op := 35) hd (r := a.enc * 32768 + b.enc * 512 + b2n t + 96) (by omega) (by omega) (by omega)
  obtain ⟨f1, mm⟩ := cut (K := 32768) 20 15 (a.enc) (b.enc * 512 + b2n t + 96) mm (by norm_num) (by norm_num) (by omega) (by omega) (by omega)
  obtain ⟨f2, mm⟩ := cut (K := 512) 14 9 (b.enc) (b2n t + 96) mm (by norm_num) (by norm_num) (by omega) (by omega) (by omega)
  obtain ⟨f3, mm⟩ := cut (K := 32) 8 5 (3) (b2n t) mm (by norm_num) (by norm_num) (by omega) (by omega) (by omega)
  obtain ⟨f4, mm⟩ := cut (K := 2) 4 1 (0) (b2n t) mm (by norm_num) (by norm_num) (by omega) (by omega) (by omega)
  obtain ⟨f5, mm⟩ := cut (K := 1) 0 0 (b2n t) (0) mm (by norm_num) (by norm_num) (by omega) (by omega) (by omega)
  rw [decSys_of f0, decSys, f3]
  simp [hh, f1, f2, f4, bit_of f5, src_dec_enc, need, mk_of h]
theorem sleep (hd : Hd) (a : Src) : Statement (.sleep hd a) := by
  intro _ h
  obtain ⟨N, eq⟩ : ∃ N, N = encodeNat (.sleep hd a) := ⟨_, rfl⟩
  rw [← eq]
  replace eq : N = 0x46007080 + hd.enc + a.enc * 32768 := eq
  have la := src_lt a
  obtain ⟨f0, hh, mm⟩ := top (n := N) (op := 35) hd (r := a.enc * 32768 + 28800) (by omega) (by omega) (by omega)
  obtain ⟨f1, mm⟩ := cut (K := 32768) 20 15 (a.enc) (28800) mm (by norm_num) (by norm_num) (by omega) (by omega) (by omega)
  obtain ⟨f2, mm⟩ := cut (K := 512) 14 9 (56) (128) mm (by norm_num) (by norm_num) (by omega) (by omega) (by omega)
  obtain ⟨f3, mm⟩ := cut (K := 32) 8 5 (4) (0) mm (by norm_num) (by norm_num) (by omega) (by omega) (by omega)
  obtain ⟨f4, mm⟩ := cut (K := 1) 4 0 (0) (0) mm (by norm_num) (by norm_num) (by omega) (by omega) (by omega)
  rw [decSys_of f0, decSys, f3]
  simp [hh, f1, f2, f4, src_dec_enc, need, mk_of h]
theorem halt (hd : Hd) : Statement (.halt hd) := by
  intro _ h
  obtain ⟨N, eq⟩ : ∃ N, N = encodeNat (.halt hd) := ⟨_, rfl⟩
  rw [← eq]
  replace eq : N = 0x461c70a0 + hd.enc := eq
  obtain ⟨f0, hh, mm⟩ := top (n := N) (op := 35) hd (r := 1863840) (by omega) (by omega) (by omega)
  obtain ⟨f1, mm⟩ := cut (K := 512) 20 9 (3640) (160) mm (by norm_num) (by norm_num) (by omega) (by omega) (by omega)
  obtain ⟨f2, mm⟩ := cut (K := 32) 8 5 (5) (0) mm (by norm_num) (by norm_num) (by omega) (by omega) (by omega)
  obtain ⟨f3, mm⟩ := cut (K := 1) 4 0 (0) (0) mm (by norm_num) (by norm_num) (by omega) (by omega) (by omega)
  rw [decSys_of f0, decSys, f2]
  simp [hh, f1, f3, need, mk_of h]
theorem thaw (hd : Hd) (a : Src) (b : Src) : Statement (.thaw hd a b) := by
  intro _ h
  obtain ⟨N, eq⟩ : ∃ N, N = encodeNat (.thaw hd a b) := ⟨_, rfl⟩
  rw [← eq]
  replace eq : N = 0x460000c0 + hd.enc + a.enc * 32768 + b.enc * 512 := eq
  have la := src_lt a; have lb := src_lt b
  obtain ⟨f0, hh, mm⟩ := top (n := N) (op := 35) hd (r := a.enc * 32768 + b.enc * 512 + 192) (by omega) (by omega) (by omega)
  obtain ⟨f1, mm⟩ := cut (K := 32768) 20 15 (a.enc) (b.enc * 512 + 192) mm (by norm_num) (by norm_num) (by omega) (by omega) (by omega)
  obtain ⟨f2, mm⟩ := cut (K := 512) 14 9 (b.enc) (192) mm (by norm_num) (by norm_num) (by omega) (by omega) (by omega)
  obtain ⟨f3, mm⟩ := cut (K := 32) 8 5 (6) (0) mm (by norm_num) (by norm_num) (by omega) (by omega) (by omega)
  obtain ⟨f4, mm⟩ := cut (K := 1) 4 0 (0) (0) mm (by norm_num) (by norm_num) (by omega) (by omega) (by omega)
  rw [decSys_of f0, decSys, f3]
  simp [hh, f1, f2, f4, src_dec_enc, need, mk_of h]
theorem keyld (hd : Hd) (a : Src) (b : Src) : Statement (.keyld hd a b) := by
  intro _ h
  obtain ⟨N, eq⟩ : ∃ N, N = encodeNat (.keyld hd a b) := ⟨_, rfl⟩
  rw [← eq]
  replace eq : N = 0x460000e0 + hd.enc + a.enc * 32768 + b.enc * 512 := eq
  have la := src_lt a; have lb := src_lt b
  obtain ⟨f0, hh, mm⟩ := top (n := N) (op := 35) hd (r := a.enc * 32768 + b.enc * 512 + 224) (by omega) (by omega) (by omega)
  obtain ⟨f1, mm⟩ := cut (K := 32768) 20 15 (a.enc) (b.enc * 512 + 224) mm (by norm_num) (by norm_num) (by omega) (by omega) (by omega)
  obtain ⟨f2, mm⟩ := cut (K := 512) 14 9 (b.enc) (224) mm (by norm_num) (by norm_num) (by omega) (by omega) (by omega)
  obtain ⟨f3, mm⟩ := cut (K := 32) 8 5 (7) (0) mm (by norm_num) (by norm_num) (by omega) (by omega) (by omega)
  obtain ⟨f4, mm⟩ := cut (K := 1) 4 0 (0) (0) mm (by norm_num) (by norm_num) (by omega) (by omega) (by omega)
  rw [decSys_of f0, decSys, f3]
  simp [hh, f1, f2, f4, src_dec_enc, need, mk_of h]
theorem commit (gd : Guard) (a : Fin 16) (n : Fin 32) (w : Bool) (b : Fin 16) (m : Fin 32) (x : Bool) (v : Bool) : Statement (.commit gd a n w b m x v) := by
  intro _ h
  obtain ⟨N, eq⟩ : ∃ N, N = encodeNat (.commit gd a n w b m x v) := ⟨_, rfl⟩
  rw [← eq]
  replace eq : N = 0x48000000 + gd.enc + a.val * 131072 + n.val * 4096 + b2n w * 2048 + b.val * 128 + m.val * 4 + b2n x * 2 + b2n v := eq
  have la := a.isLt; have ln := n.isLt; have lw := b2n_lt w; have lb := b.isLt; have lm := m.isLt; have lx := b2n_lt x; have lv := b2n_lt v
  obtain ⟨f0, fc, hh, mm⟩ := topg (n := N) (op := 36) gd (r := a.val * 131072 + n.val * 4096 + b2n w * 2048 + b.val * 128 + m.val * 4 + b2n x * 2 + b2n v) (by omega) (by omega) (by omega)
  obtain ⟨f1, mm⟩ := cut (K := 131072) 20 17 (a.val) (n.val * 4096 + b2n w * 2048 + b.val * 128 + m.val * 4 + b2n x * 2 + b2n v) mm (by norm_num) (by norm_num) (by omega) (by omega) (by omega)
  obtain ⟨f2, mm⟩ := cut (K := 4096) 16 12 (n.val) (b2n w * 2048 + b.val * 128 + m.val * 4 + b2n x * 2 + b2n v) mm (by norm_num) (by norm_num) (by omega) (by omega) (by omega)
  obtain ⟨f3, mm⟩ := cut (K := 2048) 11 11 (b2n w) (b.val * 128 + m.val * 4 + b2n x * 2 + b2n v) mm (by norm_num) (by norm_num) (by omega) (by omega) (by omega)
  obtain ⟨f4, mm⟩ := cut (K := 128) 10 7 (b.val) (m.val * 4 + b2n x * 2 + b2n v) mm (by norm_num) (by norm_num) (by omega) (by omega) (by omega)
  obtain ⟨f5, mm⟩ := cut (K := 4) 6 2 (m.val) (b2n x * 2 + b2n v) mm (by norm_num) (by norm_num) (by omega) (by omega) (by omega)
  obtain ⟨f6, mm⟩ := cut (K := 2) 1 1 (b2n x) (b2n v) mm (by norm_num) (by norm_num) (by omega) (by omega) (by omega)
  obtain ⟨f7, mm⟩ := cut (K := 1) 0 0 (b2n v) (0) mm (by norm_num) (by norm_num) (by omega) (by omega) (by omega)
  rw [decCommit_of f0]
  simp [decCommit, hh, fc, f1, f2, bit_of f3, f4, f5, bit_of f6, bit_of f7, need, mk_of h]
theorem rej (gd : Guard) (d : BitVec 18) : Statement (.rej gd d) := by
  intro _ h
  obtain ⟨N, eq⟩ : ∃ N, N = encodeNat (.rej gd d) := ⟨_, rfl⟩
  rw [← eq]
  replace eq : N = 0x4a000000 + gd.enc + d.toNat := eq
  have ld := d.isLt
  obtain ⟨f0, fc, hh, mm⟩ := topg (n := N) (op := 37) gd (r := d.toNat) (by omega) (by omega) (by omega)
  obtain ⟨f1, mm⟩ := cut (K := 262144) 20 18 (0) (d.toNat) mm (by norm_num) (by norm_num) (by omega) (by omega) (by omega)
  obtain ⟨f2, mm⟩ := cut (K := 1) 17 0 (d.toNat) (0) mm (by norm_num) (by norm_num) (by omega) (by omega) (by omega)
  rw [decRej_of f0]
  simp [decRej, hh, fc, f1, f2, BitVec.ofNat_toNat, BitVec.setWidth_eq, need, mk_of h]
theorem nop  : Statement (.nop) := by
  intro _ h
  obtain ⟨N, eq⟩ : ∃ N, N = encodeNat (.nop) := ⟨_, rfl⟩
  rw [← eq]
  replace eq : N = 0x4c000000 := eq
  obtain ⟨f0, fc, mm⟩ := topx (n := N) (op := 38) (r := 0) (by omega) (by omega) (by omega)
  obtain ⟨f1, mm⟩ := cut (K := 1) 24 0 (0) (0) mm (by norm_num) (by norm_num) (by omega) (by omega) (by omega)
  rw [decNop_of f0]
  simp [decNop, fc, f1, need, mk_of h]
theorem next (gd : Guard) : Statement (.next gd) := by
  intro _ h
  obtain ⟨N, eq⟩ : ∃ N, N = encodeNat (.next gd) := ⟨_, rfl⟩
  rw [← eq]
  replace eq : N = 0x60000000 + gd.enc := eq
  obtain ⟨f0, fc, hh, mm⟩ := topg (n := N) (op := 48) gd (r := 0) (by rw [eq, Nat.add_zero]) (by omega) (by omega)
  obtain ⟨f1, mm⟩ := cut (K := 262144) 20 18 (0) (0) mm (by norm_num) (by norm_num) (by omega) (by omega) (by omega)
  obtain ⟨f2, mm⟩ := cut (K := 1) 17 0 (0) (0) mm (by norm_num) (by norm_num) (by omega) (by omega) (by omega)
  rw [decCtrl_of f0, decCtrl, f1]
  simp [hh, fc, f2, need, mk_of h]
theorem bra (gd : Guard) (d : BitVec 18) : Statement (.bra gd d) := by
  intro _ h
  obtain ⟨N, eq⟩ : ∃ N, N = encodeNat (.bra gd d) := ⟨_, rfl⟩
  rw [← eq]
  replace eq : N = 0x60040000 + gd.enc + d.toNat := eq
  have ld := d.isLt
  obtain ⟨f0, fc, hh, mm⟩ := topg (n := N) (op := 48) gd (r := d.toNat + 262144) (by omega) (by omega) (by omega)
  obtain ⟨f1, mm⟩ := cut (K := 262144) 20 18 (1) (d.toNat) mm (by norm_num) (by norm_num) (by omega) (by omega) (by omega)
  obtain ⟨f2, mm⟩ := cut (K := 1) 17 0 (d.toNat) (0) mm (by norm_num) (by norm_num) (by omega) (by omega) (by omega)
  rw [decCtrl_of f0, decCtrl, f1]
  simp [hh, fc, f2, BitVec.ofNat_toNat, BitVec.setWidth_eq, need, mk_of h]
theorem call (gd : Guard) (d : BitVec 18) : Statement (.call gd d) := by
  intro _ h
  obtain ⟨N, eq⟩ : ∃ N, N = encodeNat (.call gd d) := ⟨_, rfl⟩
  rw [← eq]
  replace eq : N = 0x60080000 + gd.enc + d.toNat := eq
  have ld := d.isLt
  obtain ⟨f0, fc, hh, mm⟩ := topg (n := N) (op := 48) gd (r := d.toNat + 524288) (by omega) (by omega) (by omega)
  obtain ⟨f1, mm⟩ := cut (K := 262144) 20 18 (2) (d.toNat) mm (by norm_num) (by norm_num) (by omega) (by omega) (by omega)
  obtain ⟨f2, mm⟩ := cut (K := 1) 17 0 (d.toNat) (0) mm (by norm_num) (by norm_num) (by omega) (by omega) (by omega)
  rw [decCtrl_of f0, decCtrl, f1]
  simp [hh, fc, f2, BitVec.ofNat_toNat, BitVec.setWidth_eq, need, mk_of h]
theorem ret (gd : Guard) : Statement (.ret gd) := by
  intro _ h
  obtain ⟨N, eq⟩ : ∃ N, N = encodeNat (.ret gd) := ⟨_, rfl⟩
  rw [← eq]
  replace eq : N = 0x600c0000 + gd.enc := eq
  obtain ⟨f0, fc, hh, mm⟩ := topg (n := N) (op := 48) gd (r := 786432) (by omega) (by omega) (by omega)
  obtain ⟨f1, mm⟩ := cut (K := 262144) 20 18 (3) (0) mm (by norm_num) (by norm_num) (by omega) (by omega) (by omega)
  obtain ⟨f2, mm⟩ := cut (K := 1) 17 0 (0) (0) mm (by norm_num) (by norm_num) (by omega) (by omega) (by omega)
  rw [decCtrl_of f0, decCtrl, f1]
  simp [hh, fc, f2, need, mk_of h]
theorem exit (gd : Guard) : Statement (.exit gd) := by
  intro _ h
  obtain ⟨N, eq⟩ : ∃ N, N = encodeNat (.exit gd) := ⟨_, rfl⟩
  rw [← eq]
  replace eq : N = 0x60100000 + gd.enc := eq
  obtain ⟨f0, fc, hh, mm⟩ := topg (n := N) (op := 48) gd (r := 1048576) (by omega) (by omega) (by omega)
  obtain ⟨f1, mm⟩ := cut (K := 262144) 20 18 (4) (0) mm (by norm_num) (by norm_num) (by omega) (by omega) (by omega)
  obtain ⟨f2, mm⟩ := cut (K := 1) 17 0 (0) (0) mm (by norm_num) (by norm_num) (by omega) (by omega) (by omega)
  rw [decCtrl_of f0, decCtrl, f1]
  simp [hh, fc, f2, need, mk_of h]
theorem await (gd : Guard) : Statement (.await gd) := by
  intro _ h
  obtain ⟨N, eq⟩ : ∃ N, N = encodeNat (.await gd) := ⟨_, rfl⟩
  rw [← eq]
  replace eq : N = 0x60140000 + gd.enc := eq
  obtain ⟨f0, fc, hh, mm⟩ := topg (n := N) (op := 48) gd (r := 1310720) (by omega) (by omega) (by omega)
  obtain ⟨f1, mm⟩ := cut (K := 262144) 20 18 (5) (0) mm (by norm_num) (by norm_num) (by omega) (by omega) (by omega)
  obtain ⟨f2, mm⟩ := cut (K := 1) 17 0 (0) (0) mm (by norm_num) (by norm_num) (by omega) (by omega) (by omega)
  rw [decCtrl_of f0, decCtrl, f1]
  simp [hh, fc, f2, need, mk_of h]
theorem reform (gd : Guard) (d : BitVec 18) : Statement (.reform gd d) := by
  intro _ h
  obtain ⟨N, eq⟩ : ∃ N, N = encodeNat (.reform gd d) := ⟨_, rfl⟩
  rw [← eq]
  replace eq : N = 0x60180000 + gd.enc + d.toNat := eq
  have ld := d.isLt
  obtain ⟨f0, fc, hh, mm⟩ := topg (n := N) (op := 48) gd (r := d.toNat + 1572864) (by omega) (by omega) (by omega)
  obtain ⟨f1, mm⟩ := cut (K := 262144) 20 18 (6) (d.toNat) mm (by norm_num) (by norm_num) (by omega) (by omega) (by omega)
  obtain ⟨f2, mm⟩ := cut (K := 1) 17 0 (d.toNat) (0) mm (by norm_num) (by norm_num) (by omega) (by omega) (by omega)
  rw [decCtrl_of f0, decCtrl, f1]
  simp [hh, fc, f2, BitVec.ofNat_toNat, BitVec.setWidth_eq, need, mk_of h]
theorem iret (gd : Guard) : Statement (.iret gd) := by
  intro _ h
  obtain ⟨N, eq⟩ : ∃ N, N = encodeNat (.iret gd) := ⟨_, rfl⟩
  rw [← eq]
  replace eq : N = 0x601c0000 + gd.enc := eq
  obtain ⟨f0, fc, hh, mm⟩ := topg (n := N) (op := 48) gd (r := 1835008) (by omega) (by omega) (by omega)
  obtain ⟨f1, mm⟩ := cut (K := 262144) 20 18 (7) (0) mm (by norm_num) (by norm_num) (by omega) (by omega) (by omega)
  obtain ⟨f2, mm⟩ := cut (K := 1) 17 0 (0) (0) mm (by norm_num) (by norm_num) (by omega) (by omega) (by omega)
  rw [decCtrl_of f0, decCtrl, f1]
  simp [hh, fc, f2, need, mk_of h]
theorem brx (gd : Guard) (a : Src) : Statement (.brx gd a) := by
  intro _ h
  obtain ⟨N, eq⟩ : ∃ N, N = encodeNat (.brx gd a) := ⟨_, rfl⟩
  rw [← eq]
  replace eq : N = 0x62000000 + gd.enc + a.enc * 4096 := eq
  have la := src_lt a
  obtain ⟨f0, fc, hh, mm⟩ := topg (n := N) (op := 49) gd (r := a.enc * 4096) (by omega) (by omega) (by omega)
  obtain ⟨f1, mm⟩ := cut (K := 262144) 20 18 (0) (a.enc * 4096) mm (by norm_num) (by norm_num) (by omega) (by omega) (by omega)
  obtain ⟨f2, mm⟩ := cut (K := 4096) 17 12 (a.enc) (0) mm (by norm_num) (by norm_num) (by omega) (by omega) (by omega)
  obtain ⟨f3, mm⟩ := cut (K := 1) 11 0 (0) (0) mm (by norm_num) (by norm_num) (by omega) (by omega) (by omega)
  rw [decCtrlx_of f0, decCtrlx, f1]
  simp [hh, fc, f2, f3, src_dec_enc, need, mk_of h]
theorem callx (gd : Guard) (a : Src) : Statement (.callx gd a) := by
  intro _ h
  obtain ⟨N, eq⟩ : ∃ N, N = encodeNat (.callx gd a) := ⟨_, rfl⟩
  rw [← eq]
  replace eq : N = 0x62040000 + gd.enc + a.enc * 4096 := eq
  have la := src_lt a
  obtain ⟨f0, fc, hh, mm⟩ := topg (n := N) (op := 49) gd (r := a.enc * 4096 + 262144) (by omega) (by omega) (by omega)
  obtain ⟨f1, mm⟩ := cut (K := 262144) 20 18 (1) (a.enc * 4096) mm (by norm_num) (by norm_num) (by omega) (by omega) (by omega)
  obtain ⟨f2, mm⟩ := cut (K := 4096) 17 12 (a.enc) (0) mm (by norm_num) (by norm_num) (by omega) (by omega) (by omega)
  obtain ⟨f3, mm⟩ := cut (K := 1) 11 0 (0) (0) mm (by norm_num) (by norm_num) (by omega) (by omega) (by omega)
  rw [decCtrlx_of f0, decCtrlx, f1]
  simp [hh, fc, f2, f3, src_dec_enc, need, mk_of h]
theorem reformK (gd : Guard) (a : Src) : Statement (.reformK gd a) := by
  intro _ h
  obtain ⟨N, eq⟩ : ∃ N, N = encodeNat (.reformK gd a) := ⟨_, rfl⟩
  rw [← eq]
  replace eq : N = 0x62080000 + gd.enc + a.enc * 4096 := eq
  have la := src_lt a
  obtain ⟨f0, fc, hh, mm⟩ := topg (n := N) (op := 49) gd (r := a.enc * 4096 + 524288) (by omega) (by omega) (by omega)
  obtain ⟨f1, mm⟩ := cut (K := 262144) 20 18 (2) (a.enc * 4096) mm (by norm_num) (by norm_num) (by omega) (by omega) (by omega)
  obtain ⟨f2, mm⟩ := cut (K := 4096) 17 12 (a.enc) (0) mm (by norm_num) (by norm_num) (by omega) (by omega) (by omega)
  obtain ⟨f3, mm⟩ := cut (K := 1) 11 0 (0) (0) mm (by norm_num) (by norm_num) (by omega) (by omega) (by omega)
  rw [decCtrlx_of f0, decCtrlx, f1]
  simp [hh, fc, f2, f3, src_dec_enc, need, mk_of h]
theorem nsPrefix (t : Fin 16) (a : Sel) (b : Sel) (d : Sel) (x : Bool) : Statement (.nsPrefix t a b d x) := by
  intro _ h
  obtain ⟨N, eq⟩ : ∃ N, N = encodeNat (.nsPrefix t a b d x) := ⟨_, rfl⟩
  rw [← eq]
  replace eq : N = 0x7e000000 + t.val * 131072 + a.enc * 4096 + b.enc * 128 + d.enc * 4 + b2n x * 2 := eq
  have lt := t.isLt; have la := sel_lt a; have lb := sel_lt b; have ld := sel_lt d; have lx := b2n_lt x
  obtain ⟨f0, fc, mm⟩ := topx (n := N) (op := 63) (r := t.val * 131072 + a.enc * 4096 + b.enc * 128 + d.enc * 4 + b2n x * 2) (by omega) (by omega) (by omega)
  obtain ⟨f1, mm⟩ := cut (K := 2097152) 24 21 (0) (t.val * 131072 + a.enc * 4096 + b.enc * 128 + d.enc * 4 + b2n x * 2) mm (by norm_num) (by norm_num) (by omega) (by omega) (by omega)
  obtain ⟨f2, mm⟩ := cut (K := 131072) 20 17 (t.val) (a.enc * 4096 + b.enc * 128 + d.enc * 4 + b2n x * 2) mm (by norm_num) (by norm_num) (by omega) (by omega) (by omega)
  obtain ⟨f3, mm⟩ := cut (K := 4096) 16 12 (a.enc) (b.enc * 128 + d.enc * 4 + b2n x * 2) mm (by norm_num) (by norm_num) (by omega) (by omega) (by omega)
  obtain ⟨f4, mm⟩ := cut (K := 128) 11 7 (b.enc) (d.enc * 4 + b2n x * 2) mm (by norm_num) (by norm_num) (by omega) (by omega) (by omega)
  obtain ⟨f5, mm⟩ := cut (K := 4) 6 2 (d.enc) (b2n x * 2) mm (by norm_num) (by norm_num) (by omega) (by omega) (by omega)
  obtain ⟨f6, mm⟩ := cut (K := 2) 1 1 (b2n x) (0) mm (by norm_num) (by norm_num) (by omega) (by omega) (by omega)
  obtain ⟨f7, mm⟩ := cut (K := 1) 0 0 (0) (0) mm (by norm_num) (by norm_num) (by omega) (by omega) (by omega)
  rw [decXword_of f0, decXword, f1]
  simp [fc, f2, f3, f4, f5, bit_of f6, f7, sel_dec_enc, need, mk_of h]
theorem ndPrefix (w : SubW) (i : Fin 8) (r : RM) (s : Bool) (t : Fin 16) (n : Bool) (q : Bool) : Statement (.ndPrefix w i r s t n q) := by
  intro _ h
  obtain ⟨N, eq⟩ : ∃ N, N = encodeNat (.ndPrefix w i r s t n q) := ⟨_, rfl⟩
  rw [← eq]
  replace eq : N = 0x7e200000 + w.enc * 524288 + i.val * 65536 + r.enc * 8192 + b2n s * 4096 + t.val * 256 + b2n n * 128 + b2n q * 64 := eq
  have lw := subW_lt w; have li := i.isLt; have lr := rm_lt r; have ls := b2n_lt s; have lt := t.isLt; have ln := b2n_lt n; have lq := b2n_lt q
  obtain ⟨f0, fc, mm⟩ := topx (n := N) (op := 63) (r := w.enc * 524288 + i.val * 65536 + r.enc * 8192 + b2n s * 4096 + t.val * 256 + b2n n * 128 + b2n q * 64 + 2097152) (by omega) (by omega) (by omega)
  obtain ⟨f1, mm⟩ := cut (K := 2097152) 24 21 (1) (w.enc * 524288 + i.val * 65536 + r.enc * 8192 + b2n s * 4096 + t.val * 256 + b2n n * 128 + b2n q * 64) mm (by norm_num) (by norm_num) (by omega) (by omega) (by omega)
  obtain ⟨f2, mm⟩ := cut (K := 524288) 20 19 (w.enc) (i.val * 65536 + r.enc * 8192 + b2n s * 4096 + t.val * 256 + b2n n * 128 + b2n q * 64) mm (by norm_num) (by norm_num) (by omega) (by omega) (by omega)
  obtain ⟨f3, mm⟩ := cut (K := 65536) 18 16 (i.val) (r.enc * 8192 + b2n s * 4096 + t.val * 256 + b2n n * 128 + b2n q * 64) mm (by norm_num) (by norm_num) (by omega) (by omega) (by omega)
  obtain ⟨f4, mm⟩ := cut (K := 8192) 15 13 (r.enc) (b2n s * 4096 + t.val * 256 + b2n n * 128 + b2n q * 64) mm (by norm_num) (by norm_num) (by omega) (by omega) (by omega)
  obtain ⟨f5, mm⟩ := cut (K := 4096) 12 12 (b2n s) (t.val * 256 + b2n n * 128 + b2n q * 64) mm (by norm_num) (by norm_num) (by omega) (by omega) (by omega)
  obtain ⟨f6, mm⟩ := cut (K := 256) 11 8 (t.val) (b2n n * 128 + b2n q * 64) mm (by norm_num) (by norm_num) (by omega) (by omega) (by omega)
  obtain ⟨f7, mm⟩ := cut (K := 128) 7 7 (b2n n) (b2n q * 64) mm (by norm_num) (by norm_num) (by omega) (by omega) (by omega)
  obtain ⟨f8, mm⟩ := cut (K := 64) 6 6 (b2n q) (0) mm (by norm_num) (by norm_num) (by omega) (by omega) (by omega)
  obtain ⟨f9, mm⟩ := cut (K := 1) 5 0 (0) (0) mm (by norm_num) (by norm_num) (by omega) (by omega) (by omega)
  rw [decXword_of f0, decXword, f1]
  simp [fc, f2, f3, f4, bit_of f5, f6, bit_of f7, bit_of f8, f9, rm_dec_enc, subW_dec_enc, need, ok_bind, mk_of h]
theorem powerOn (b : BootIn) : Statement (.powerOn b) := nofun
theorem clockChange (die mhz : Nat) : Statement (.clockChange die mhz) := nofun
theorem powerCap (die mhz : Nat) : Statement (.powerCap die mhz) := nofun
theorem thermalThrottle (die : Nat) : Statement (.thermalThrottle die) := nofun
theorem thermalRecover (die : Nat) : Statement (.thermalRecover die) := nofun
theorem thermalShutdown (die : Nat) : Statement (.thermalShutdown die) := nofun
theorem coolantFlowLow : Statement (.coolantFlowLow) := nofun
theorem flitReplay (m : LinkModule) : Statement (.flitReplay m) := nofun
theorem moduleRetire (m : LinkModule) : Statement (.moduleRetire m) := nofun
theorem stackRead (stk : Nat) (hdr : Line) (data : List Line) : Statement (.stackRead stk hdr data) := nofun
theorem stackWrite (stk : Nat) (hdr : Line) (data : List Line) : Statement (.stackWrite stk hdr data) := nofun
theorem stackWritem (stk : Nat) (hdr : Line) (data : List Line) : Statement (.stackWritem stk hdr data) := nofun
theorem stackAtomic (stk : Nat) (hdr : Line) (data : List Line) : Statement (.stackAtomic stk hdr data) := nofun
theorem rootLoadi (stk : Nat) (hdr : Line) (data : List Line) : Statement (.rootLoadi stk hdr data) := nofun
theorem rootStart (stk : Nat) (hdr : Line) (data : List Line) : Statement (.rootStart stk hdr data) := nofun
theorem rootStop (stk : Nat) (hdr : Line) (data : List Line) : Statement (.rootStop stk hdr data) := nofun
theorem rootStatus (stk : Nat) (hdr : Line) (data : List Line) : Statement (.rootStatus stk hdr data) := nofun
theorem stackAcct (stk : Nat) (hdr : Line) (data : List Line) : Statement (.stackAcct stk hdr data) := nofun
theorem stackDisc (stk : Nat) (hdr : Line) (data : List Line) : Statement (.stackDisc stk hdr data) := nofun
theorem stackErrpoll (stk : Nat) (hdr : Line) (data : List Line) : Statement (.stackErrpoll stk hdr data) := nofun
theorem stackResponse (stk tag : Nat) : Statement (.stackResponse stk tag) := nofun
theorem stackScrub (stk line : Nat) (found : ScrubFound) : Statement (.stackScrub stk line found) := nofun
theorem sramCorrectedError (unit : HwUnit) : Statement (.sramCorrectedError unit) := nofun
theorem sramUncorrectableError (place : SramPlace) : Statement (.sramUncorrectableError place) := nofun
theorem harvestApply : Statement (.harvestApply) := nofun
theorem accessRefusal (mid tgt : Nat) (cls : ReqClass) (addr : Nat) : Statement (.accessRefusal mid tgt cls addr) := nofun
theorem accessTableWrite (mid tgt idx : Nat) (v : BitVec 128) : Statement (.accessTableWrite mid tgt idx v) := nofun
theorem pcieInboundRequest (port : Nat) (wr : Bool) (pa len : Nat) (data : List Byte) : Statement (.pcieInboundRequest port wr pa len data) := nofun
theorem getVersion : Statement (.getVersion) := nofun
theorem getCapabilities : Statement (.getCapabilities) := nofun
theorem negotiateAlgorithms : Statement (.negotiateAlgorithms) := nofun
theorem getDigests : Statement (.getDigests) := nofun
theorem getCertificate (off len : Nat) : Statement (.getCertificate off len) := nofun
theorem challenge (nonce : BitVec 256) : Statement (.challenge nonce) := nofun
theorem getMeasurements (r : MeasureReq) : Statement (.getMeasurements r) := nofun
theorem spdmUnsupportedRequest (code : Nat) : Statement (.spdmUnsupportedRequest code) := nofun
theorem redfishRequest (res index : Nat) : Statement (.redfishRequest res index) := nofun
theorem updateserviceImageWrite (rec : List Byte) : Statement (.updateserviceImageWrite rec) := nofun
theorem bootStatusFrame : Statement (.bootStatusFrame) := nofun
theorem create (mid ctx desc : Nat) : Statement (.create mid ctx desc) := nofun
theorem drain (mid : Nat) (all : Bool) (ctx : Nat) : Statement (.drain mid all ctx) := nofun
theorem resume (mid ctx : Nat) : Statement (.resume mid ctx) := nofun
theorem destroy (mid ctx : Nat) : Statement (.destroy mid ctx) := nofun
theorem ctxcmdBadOp (mid op ctx : Nat) : Statement (.ctxcmdBadOp mid op ctx) := nofun
theorem qcfgWrite (mid ctx q : Nat) (v : DWord) : Statement (.qcfgWrite mid ctx q v) := nofun
theorem queueDoorbell (mid ctx q : Nat) (v : DWord) : Statement (.queueDoorbell mid ctx q v) := nofun
theorem qstsWrite (mid ctx q : Nat) (v : DWord) : Statement (.qstsWrite mid ctx q v) := nofun
theorem slotAccept (ctx q : Nat) : Statement (.slotAccept ctx q) := nofun
theorem drecRead (lid dep : Nat) : Statement (.drecRead lid dep) := nofun
theorem countRead (lid : Nat) : Statement (.countRead lid) := nofun
theorem defaultsRead (lid : Nat) : Statement (.defaultsRead lid) := nofun
theorem uniformBlockRead (lid : Nat) : Statement (.uniformBlockRead lid) := nofun
theorem roleTableRead (lid : Nat) : Statement (.roleTableRead lid) := nofun
theorem launchAdmit (lid : Nat) : Statement (.launchAdmit lid) := nofun
theorem deadlineMiss (lid : Nat) : Statement (.deadlineMiss lid) := nofun
theorem groupPlace (lid : Nat) : Statement (.groupPlace lid) := nofun
theorem preemptDecision (lid : Nat) : Statement (.preemptDecision lid) := nofun
theorem residencySave (rid : Nat) : Statement (.residencySave rid) := nofun
theorem residencyRestore (rid : Nat) : Statement (.residencyRestore rid) := nofun
theorem triggerFire (lid : Nat) : Statement (.triggerFire lid) := nofun
theorem launchComplete (lid : Nat) : Statement (.launchComplete lid) := nofun
theorem quiescenceReport (ctx dev : Nat) : Statement (.quiescenceReport ctx dev) := nofun
theorem binFlushTimeout (core bin : Nat) : Statement (.binFlushTimeout core bin) := nofun
theorem nodeBinTimeout (core bin : Nat) : Statement (.nodeBinTimeout core bin) := nofun
theorem binPlace (core bin : Nat) : Statement (.binPlace core bin) := nofun
theorem binSteal (core bin : Nat) : Statement (.binSteal core bin) := nofun
theorem roleEvaluation (quad : Nat) : Statement (.roleEvaluation quad) := nofun
theorem runStart (lane : Nat) : Statement (.runStart lane) := nofun
theorem runEnd (lane : Nat) : Statement (.runEnd lane) := nofun
theorem activeSetDisplace (lane : Nat) : Statement (.activeSetDisplace lane) := nofun
theorem resultArrival (arr : Nat) : Statement (.resultArrival arr) := nofun
theorem linkFill (thr : Nat) : Statement (.linkFill thr) := nofun
theorem barrierComplete (bar : Nat) : Statement (.barrierComplete bar) := nofun
theorem sleepExpire (thr : Nat) : Statement (.sleepExpire thr) := nofun
theorem copyStart (quad : Nat) : Statement (.copyStart quad) := nofun
theorem copyComplete (quad op : Nat) : Statement (.copyComplete quad op) := nofun
theorem copyEngineError (quad op : Nat) : Statement (.copyEngineError quad op) := nofun
theorem matrixChunkServe (arr : Nat) : Statement (.matrixChunkServe arr) := nofun
theorem matrixDrain (arr : Nat) : Statement (.matrixDrain arr) := nofun
theorem matrixOpComplete (arr : Nat) : Statement (.matrixOpComplete arr) := nofun
theorem traversalResult (arr : Nat) : Statement (.traversalResult arr) := nofun
theorem textureResult (arr : Nat) : Statement (.textureResult arr) := nofun
theorem podFrameReceive (port pa : Nat) (mask : BitVec 64) (line : Line) (kind : PodKind) : Statement (.podFrameReceive port pa mask line kind) := nofun
theorem podFrameRetransmit (frame : Nat) (ok : Bool) : Statement (.podFrameRetransmit frame ok) := nofun
theorem podBarrierReport (src : PodSrc) (ctx id count : Nat) : Statement (.podBarrierReport src ctx id count) := nofun
theorem faultAreaRoom (thr : Nat) : Statement (.faultAreaRoom thr) := nofun
theorem fsvcResume (core : Nat) (w0 : DWord) : Statement (.fsvcResume core w0) := nofun
theorem fsvcDeliver (core : Nat) (w0 : DWord) : Statement (.fsvcDeliver core w0) := nofun
theorem fsvcTerminate (core : Nat) (w0 : DWord) : Statement (.fsvcTerminate core w0) := nofun
theorem fsvcInvalid (core : Nat) (w0 : DWord) : Statement (.fsvcInvalid core w0) := nofun
theorem vecset (core : Nat) (w0 : DWord) : Statement (.vecset core w0) := nofun
theorem wake (mid core : Nat) (v : DWord) : Statement (.wake mid core v) := nofun
theorem registerWrite (mid off : Nat) (v : DWord) : Statement (.registerWrite mid off v) := nofun
theorem coolantFlowRestore : Statement (.coolantFlowRestore) := nofun

end Sys2Proof.Laws.RoundTrip
end

