-- ==== Sys2Proof/Laws/State.lean ====
section
/-! SUPPORT. What each update of one part of the state leaves in every field of it, so that no proof unfolds a record. -/
namespace Sys2Proof.Machine

theorem State.modCore_eq (s : State) (c : Nat) (f : Core → Core) : s.modCore c f = { s with cores := (s.modCore c f).cores } := rfl
@[simp] theorem State.modCore_pkg (s : State) (c : Nat) (f : Core → Core) : (s.modCore c f).pkg = s.pkg := rfl
@[simp] theorem State.modCore_sys (s : State) (c : Nat) (f : Core → Core) : (s.modCore c f).sys = s.sys := rfl
@[simp] theorem State.modCore_mem (s : State) (c : Nat) (f : Core → Core) : (s.modCore c f).mem = s.mem := rfl
@[simp] theorem State.modCore_ctxs (s : State) (c : Nat) (f : Core → Core) : (s.modCore c f).ctxs = s.ctxs := rfl
@[simp] theorem State.modCore_launches (s : State) (c : Nat) (f : Core → Core) : (s.modCore c f).launches = s.launches := rfl
@[simp] theorem State.modCore_aseq (s : State) (c : Nat) (f : Core → Core) : (s.modCore c f).aseq = s.aseq := rfl
@[simp] theorem State.modCore_ress (s : State) (c : Nat) (f : Core → Core) : (s.modCore c f).ress = s.ress := rfl
@[simp] theorem State.modCore_lanes (s : State) (c : Nat) (f : Core → Core) : (s.modCore c f).lanes = s.lanes := rfl
@[simp] theorem State.modCore_grps (s : State) (c : Nat) (f : Core → Core) : (s.modCore c f).grps = s.grps := rfl
@[simp] theorem State.modCore_thrs (s : State) (c : Nat) (f : Core → Core) : (s.modCore c f).thrs = s.thrs := rfl
@[simp] theorem State.modCore_frames (s : State) (c : Nat) (f : Core → Core) : (s.modCore c f).frames = s.frames := rfl
@[simp] theorem State.modCore_bars (s : State) (c : Nat) (f : Core → Core) : (s.modCore c f).bars = s.bars := rfl
@[simp] theorem State.modCore_nodes (s : State) (c : Nat) (f : Core → Core) : (s.modCore c f).nodes = s.nodes := rfl
@[simp] theorem State.modCore_quads (s : State) (c : Nat) (f : Core → Core) : (s.modCore c f).quads = s.quads := rfl
@[simp] theorem State.modCore_arrs (s : State) (c : Nat) (f : Core → Core) : (s.modCore c f).arrs = s.arrs := rfl
@[simp] theorem State.modCore_ctls (s : State) (c : Nat) (f : Core → Core) : (s.modCore c f).ctls = s.ctls := rfl
@[simp] theorem State.modCore_stks (s : State) (c : Nat) (f : Core → Core) : (s.modCore c f).stks = s.stks := rfl
@[simp] theorem State.modCore_pods (s : State) (c : Nat) (f : Core → Core) : (s.modCore c f).pods = s.pods := rfl
@[simp] theorem State.modCore_rays (s : State) (c : Nat) (f : Core → Core) : (s.modCore c f).rays = s.rays := rfl
@[simp] theorem State.modCore_arrivals (s : State) (c : Nat) (f : Core → Core) : (s.modCore c f).arrivals = s.arrivals := rfl
@[simp] theorem State.modCore_agenda (s : State) (c : Nat) (f : Core → Core) : (s.modCore c f).agenda = s.agenda := rfl
@[simp] theorem State.modCore_free (s : State) (c : Nat) (f : Core → Core) : (s.modCore c f).free = s.free := rfl
@[simp] theorem State.modCore_fresh (s : State) (c : Nat) (f : Core → Core) : (s.modCore c f).fresh = s.fresh := rfl
@[simp] theorem State.modCore_iss (s : State) (c : Nat) (f : Core → Core) : (s.modCore c f).iss = s.iss := rfl
theorem State.modLane_eq (s : State) (l : Nat) (f : Lane → Lane) : s.modLane l f = { s with lanes := (s.modLane l f).lanes } := rfl
@[simp] theorem State.modLane_pkg (s : State) (l : Nat) (f : Lane → Lane) : (s.modLane l f).pkg = s.pkg := rfl
@[simp] theorem State.modLane_sys (s : State) (l : Nat) (f : Lane → Lane) : (s.modLane l f).sys = s.sys := rfl
@[simp] theorem State.modLane_mem (s : State) (l : Nat) (f : Lane → Lane) : (s.modLane l f).mem = s.mem := rfl
@[simp] theorem State.modLane_ctxs (s : State) (l : Nat) (f : Lane → Lane) : (s.modLane l f).ctxs = s.ctxs := rfl
@[simp] theorem State.modLane_launches (s : State) (l : Nat) (f : Lane → Lane) : (s.modLane l f).launches = s.launches := rfl
@[simp] theorem State.modLane_aseq (s : State) (l : Nat) (f : Lane → Lane) : (s.modLane l f).aseq = s.aseq := rfl
@[simp] theorem State.modLane_ress (s : State) (l : Nat) (f : Lane → Lane) : (s.modLane l f).ress = s.ress := rfl
@[simp] theorem State.modLane_cores (s : State) (l : Nat) (f : Lane → Lane) : (s.modLane l f).cores = s.cores := rfl
@[simp] theorem State.modLane_grps (s : State) (l : Nat) (f : Lane → Lane) : (s.modLane l f).grps = s.grps := rfl
@[simp] theorem State.modLane_thrs (s : State) (l : Nat) (f : Lane → Lane) : (s.modLane l f).thrs = s.thrs := rfl
@[simp] theorem State.modLane_frames (s : State) (l : Nat) (f : Lane → Lane) : (s.modLane l f).frames = s.frames := rfl
@[simp] theorem State.modLane_bars (s : State) (l : Nat) (f : Lane → Lane) : (s.modLane l f).bars = s.bars := rfl
@[simp] theorem State.modLane_nodes (s : State) (l : Nat) (f : Lane → Lane) : (s.modLane l f).nodes = s.nodes := rfl
@[simp] theorem State.modLane_quads (s : State) (l : Nat) (f : Lane → Lane) : (s.modLane l f).quads = s.quads := rfl
@[simp] theorem State.modLane_arrs (s : State) (l : Nat) (f : Lane → Lane) : (s.modLane l f).arrs = s.arrs := rfl
@[simp] theorem State.modLane_ctls (s : State) (l : Nat) (f : Lane → Lane) : (s.modLane l f).ctls = s.ctls := rfl
@[simp] theorem State.modLane_stks (s : State) (l : Nat) (f : Lane → Lane) : (s.modLane l f).stks = s.stks := rfl
@[simp] theorem State.modLane_pods (s : State) (l : Nat) (f : Lane → Lane) : (s.modLane l f).pods = s.pods := rfl
@[simp] theorem State.modLane_rays (s : State) (l : Nat) (f : Lane → Lane) : (s.modLane l f).rays = s.rays := rfl
@[simp] theorem State.modLane_arrivals (s : State) (l : Nat) (f : Lane → Lane) : (s.modLane l f).arrivals = s.arrivals := rfl
@[simp] theorem State.modLane_agenda (s : State) (l : Nat) (f : Lane → Lane) : (s.modLane l f).agenda = s.agenda := rfl
@[simp] theorem State.modLane_free (s : State) (l : Nat) (f : Lane → Lane) : (s.modLane l f).free = s.free := rfl
@[simp] theorem State.modLane_fresh (s : State) (l : Nat) (f : Lane → Lane) : (s.modLane l f).fresh = s.fresh := rfl
@[simp] theorem State.modLane_iss (s : State) (l : Nat) (f : Lane → Lane) : (s.modLane l f).iss = s.iss := rfl
theorem State.modQuad_eq (s : State) (q : Nat) (f : Quad → Quad) : s.modQuad q f = { s with quads := (s.modQuad q f).quads } := rfl
@[simp] theorem State.modQuad_pkg (s : State) (q : Nat) (f : Quad → Quad) : (s.modQuad q f).pkg = s.pkg := rfl
@[simp] theorem State.modQuad_sys (s : State) (q : Nat) (f : Quad → Quad) : (s.modQuad q f).sys = s.sys := rfl
@[simp] theorem State.modQuad_mem (s : State) (q : Nat) (f : Quad → Quad) : (s.modQuad q f).mem = s.mem := rfl
@[simp] theorem State.modQuad_ctxs (s : State) (q : Nat) (f : Quad → Quad) : (s.modQuad q f).ctxs = s.ctxs := rfl
@[simp] theorem State.modQuad_launches (s : State) (q : Nat) (f : Quad → Quad) : (s.modQuad q f).launches = s.launches := rfl
@[simp] theorem State.modQuad_aseq (s : State) (q : Nat) (f : Quad → Quad) : (s.modQuad q f).aseq = s.aseq := rfl
@[simp] theorem State.modQuad_ress (s : State) (q : Nat) (f : Quad → Quad) : (s.modQuad q f).ress = s.ress := rfl
@[simp] theorem State.modQuad_cores (s : State) (q : Nat) (f : Quad → Quad) : (s.modQuad q f).cores = s.cores := rfl
@[simp] theorem State.modQuad_lanes (s : State) (q : Nat) (f : Quad → Quad) : (s.modQuad q f).lanes = s.lanes := rfl
@[simp] theorem State.modQuad_grps (s : State) (q : Nat) (f : Quad → Quad) : (s.modQuad q f).grps = s.grps := rfl
@[simp] theorem State.modQuad_thrs (s : State) (q : Nat) (f : Quad → Quad) : (s.modQuad q f).thrs = s.thrs := rfl
@[simp] theorem State.modQuad_frames (s : State) (q : Nat) (f : Quad → Quad) : (s.modQuad q f).frames = s.frames := rfl
@[simp] theorem State.modQuad_bars (s : State) (q : Nat) (f : Quad → Quad) : (s.modQuad q f).bars = s.bars := rfl
@[simp] theorem State.modQuad_nodes (s : State) (q : Nat) (f : Quad → Quad) : (s.modQuad q f).nodes = s.nodes := rfl
@[simp] theorem State.modQuad_arrs (s : State) (q : Nat) (f : Quad → Quad) : (s.modQuad q f).arrs = s.arrs := rfl
@[simp] theorem State.modQuad_ctls (s : State) (q : Nat) (f : Quad → Quad) : (s.modQuad q f).ctls = s.ctls := rfl
@[simp] theorem State.modQuad_stks (s : State) (q : Nat) (f : Quad → Quad) : (s.modQuad q f).stks = s.stks := rfl
@[simp] theorem State.modQuad_pods (s : State) (q : Nat) (f : Quad → Quad) : (s.modQuad q f).pods = s.pods := rfl
@[simp] theorem State.modQuad_rays (s : State) (q : Nat) (f : Quad → Quad) : (s.modQuad q f).rays = s.rays := rfl
@[simp] theorem State.modQuad_arrivals (s : State) (q : Nat) (f : Quad → Quad) : (s.modQuad q f).arrivals = s.arrivals := rfl
@[simp] theorem State.modQuad_agenda (s : State) (q : Nat) (f : Quad → Quad) : (s.modQuad q f).agenda = s.agenda := rfl
@[simp] theorem State.modQuad_free (s : State) (q : Nat) (f : Quad → Quad) : (s.modQuad q f).free = s.free := rfl
@[simp] theorem State.modQuad_fresh (s : State) (q : Nat) (f : Quad → Quad) : (s.modQuad q f).fresh = s.fresh := rfl
@[simp] theorem State.modQuad_iss (s : State) (q : Nat) (f : Quad → Quad) : (s.modQuad q f).iss = s.iss := rfl
theorem State.modArr_eq (s : State) (a : Nat) (f : Arr → Arr) : s.modArr a f = { s with arrs := (s.modArr a f).arrs } := rfl
@[simp] theorem State.modArr_pkg (s : State) (a : Nat) (f : Arr → Arr) : (s.modArr a f).pkg = s.pkg := rfl
@[simp] theorem State.modArr_sys (s : State) (a : Nat) (f : Arr → Arr) : (s.modArr a f).sys = s.sys := rfl
@[simp] theorem State.modArr_mem (s : State) (a : Nat) (f : Arr → Arr) : (s.modArr a f).mem = s.mem := rfl
@[simp] theorem State.modArr_ctxs (s : State) (a : Nat) (f : Arr → Arr) : (s.modArr a f).ctxs = s.ctxs := rfl
@[simp] theorem State.modArr_launches (s : State) (a : Nat) (f : Arr → Arr) : (s.modArr a f).launches = s.launches := rfl
@[simp] theorem State.modArr_aseq (s : State) (a : Nat) (f : Arr → Arr) : (s.modArr a f).aseq = s.aseq := rfl
@[simp] theorem State.modArr_ress (s : State) (a : Nat) (f : Arr → Arr) : (s.modArr a f).ress = s.ress := rfl
@[simp] theorem State.modArr_cores (s : State) (a : Nat) (f : Arr → Arr) : (s.modArr a f).cores = s.cores := rfl
@[simp] theorem State.modArr_lanes (s : State) (a : Nat) (f : Arr → Arr) : (s.modArr a f).lanes = s.lanes := rfl
@[simp] theorem State.modArr_grps (s : State) (a : Nat) (f : Arr → Arr) : (s.modArr a f).grps = s.grps := rfl
@[simp] theorem State.modArr_thrs (s : State) (a : Nat) (f : Arr → Arr) : (s.modArr a f).thrs = s.thrs := rfl
@[simp] theorem State.modArr_frames (s : State) (a : Nat) (f : Arr → Arr) : (s.modArr a f).frames = s.frames := rfl
@[simp] theorem State.modArr_bars (s : State) (a : Nat) (f : Arr → Arr) : (s.modArr a f).bars = s.bars := rfl
@[simp] theorem State.modArr_nodes (s : State) (a : Nat) (f : Arr → Arr) : (s.modArr a f).nodes = s.nodes := rfl
@[simp] theorem State.modArr_quads (s : State) (a : Nat) (f : Arr → Arr) : (s.modArr a f).quads = s.quads := rfl
@[simp] theorem State.modArr_ctls (s : State) (a : Nat) (f : Arr → Arr) : (s.modArr a f).ctls = s.ctls := rfl
@[simp] theorem State.modArr_stks (s : State) (a : Nat) (f : Arr → Arr) : (s.modArr a f).stks = s.stks := rfl
@[simp] theorem State.modArr_pods (s : State) (a : Nat) (f : Arr → Arr) : (s.modArr a f).pods = s.pods := rfl
@[simp] theorem State.modArr_rays (s : State) (a : Nat) (f : Arr → Arr) : (s.modArr a f).rays = s.rays := rfl
@[simp] theorem State.modArr_arrivals (s : State) (a : Nat) (f : Arr → Arr) : (s.modArr a f).arrivals = s.arrivals := rfl
@[simp] theorem State.modArr_agenda (s : State) (a : Nat) (f : Arr → Arr) : (s.modArr a f).agenda = s.agenda := rfl
@[simp] theorem State.modArr_free (s : State) (a : Nat) (f : Arr → Arr) : (s.modArr a f).free = s.free := rfl
@[simp] theorem State.modArr_fresh (s : State) (a : Nat) (f : Arr → Arr) : (s.modArr a f).fresh = s.fresh := rfl
@[simp] theorem State.modArr_iss (s : State) (a : Nat) (f : Arr → Arr) : (s.modArr a f).iss = s.iss := rfl
theorem State.modCtx_eq (s : State) (c : Nat) (f : Ctx → Ctx) : s.modCtx c f = { s with ctxs := (s.modCtx c f).ctxs } := rfl
@[simp] theorem State.modCtx_pkg (s : State) (c : Nat) (f : Ctx → Ctx) : (s.modCtx c f).pkg = s.pkg := rfl
@[simp] theorem State.modCtx_sys (s : State) (c : Nat) (f : Ctx → Ctx) : (s.modCtx c f).sys = s.sys := rfl
@[simp] theorem State.modCtx_mem (s : State) (c : Nat) (f : Ctx → Ctx) : (s.modCtx c f).mem = s.mem := rfl
@[simp] theorem State.modCtx_launches (s : State) (c : Nat) (f : Ctx → Ctx) : (s.modCtx c f).launches = s.launches := rfl
@[simp] theorem State.modCtx_aseq (s : State) (c : Nat) (f : Ctx → Ctx) : (s.modCtx c f).aseq = s.aseq := rfl
@[simp] theorem State.modCtx_ress (s : State) (c : Nat) (f : Ctx → Ctx) : (s.modCtx c f).ress = s.ress := rfl
@[simp] theorem State.modCtx_cores (s : State) (c : Nat) (f : Ctx → Ctx) : (s.modCtx c f).cores = s.cores := rfl
@[simp] theorem State.modCtx_lanes (s : State) (c : Nat) (f : Ctx → Ctx) : (s.modCtx c f).lanes = s.lanes := rfl
@[simp] theorem State.modCtx_grps (s : State) (c : Nat) (f : Ctx → Ctx) : (s.modCtx c f).grps = s.grps := rfl
@[simp] theorem State.modCtx_thrs (s : State) (c : Nat) (f : Ctx → Ctx) : (s.modCtx c f).thrs = s.thrs := rfl
@[simp] theorem State.modCtx_frames (s : State) (c : Nat) (f : Ctx → Ctx) : (s.modCtx c f).frames = s.frames := rfl
@[simp] theorem State.modCtx_bars (s : State) (c : Nat) (f : Ctx → Ctx) : (s.modCtx c f).bars = s.bars := rfl
@[simp] theorem State.modCtx_nodes (s : State) (c : Nat) (f : Ctx → Ctx) : (s.modCtx c f).nodes = s.nodes := rfl
@[simp] theorem State.modCtx_quads (s : State) (c : Nat) (f : Ctx → Ctx) : (s.modCtx c f).quads = s.quads := rfl
@[simp] theorem State.modCtx_arrs (s : State) (c : Nat) (f : Ctx → Ctx) : (s.modCtx c f).arrs = s.arrs := rfl
@[simp] theorem State.modCtx_ctls (s : State) (c : Nat) (f : Ctx → Ctx) : (s.modCtx c f).ctls = s.ctls := rfl
@[simp] theorem State.modCtx_stks (s : State) (c : Nat) (f : Ctx → Ctx) : (s.modCtx c f).stks = s.stks := rfl
@[simp] theorem State.modCtx_pods (s : State) (c : Nat) (f : Ctx → Ctx) : (s.modCtx c f).pods = s.pods := rfl
@[simp] theorem State.modCtx_rays (s : State) (c : Nat) (f : Ctx → Ctx) : (s.modCtx c f).rays = s.rays := rfl
@[simp] theorem State.modCtx_arrivals (s : State) (c : Nat) (f : Ctx → Ctx) : (s.modCtx c f).arrivals = s.arrivals := rfl
@[simp] theorem State.modCtx_agenda (s : State) (c : Nat) (f : Ctx → Ctx) : (s.modCtx c f).agenda = s.agenda := rfl
@[simp] theorem State.modCtx_free (s : State) (c : Nat) (f : Ctx → Ctx) : (s.modCtx c f).free = s.free := rfl
@[simp] theorem State.modCtx_fresh (s : State) (c : Nat) (f : Ctx → Ctx) : (s.modCtx c f).fresh = s.fresh := rfl
@[simp] theorem State.modCtx_iss (s : State) (c : Nat) (f : Ctx → Ctx) : (s.modCtx c f).iss = s.iss := rfl
theorem State.modCtl_eq (s : State) (k : Nat) (f : Ctl → Ctl) : s.modCtl k f = { s with ctls := (s.modCtl k f).ctls } := rfl
@[simp] theorem State.modCtl_pkg (s : State) (k : Nat) (f : Ctl → Ctl) : (s.modCtl k f).pkg = s.pkg := rfl
@[simp] theorem State.modCtl_sys (s : State) (k : Nat) (f : Ctl → Ctl) : (s.modCtl k f).sys = s.sys := rfl
@[simp] theorem State.modCtl_mem (s : State) (k : Nat) (f : Ctl → Ctl) : (s.modCtl k f).mem = s.mem := rfl
@[simp] theorem State.modCtl_ctxs (s : State) (k : Nat) (f : Ctl → Ctl) : (s.modCtl k f).ctxs = s.ctxs := rfl
@[simp] theorem State.modCtl_launches (s : State) (k : Nat) (f : Ctl → Ctl) : (s.modCtl k f).launches = s.launches := rfl
@[simp] theorem State.modCtl_aseq (s : State) (k : Nat) (f : Ctl → Ctl) : (s.modCtl k f).aseq = s.aseq := rfl
@[simp] theorem State.modCtl_ress (s : State) (k : Nat) (f : Ctl → Ctl) : (s.modCtl k f).ress = s.ress := rfl
@[simp] theorem State.modCtl_cores (s : State) (k : Nat) (f : Ctl → Ctl) : (s.modCtl k f).cores = s.cores := rfl
@[simp] theorem State.modCtl_lanes (s : State) (k : Nat) (f : Ctl → Ctl) : (s.modCtl k f).lanes = s.lanes := rfl
@[simp] theorem State.modCtl_grps (s : State) (k : Nat) (f : Ctl → Ctl) : (s.modCtl k f).grps = s.grps := rfl
@[simp] theorem State.modCtl_thrs (s : State) (k : Nat) (f : Ctl → Ctl) : (s.modCtl k f).thrs = s.thrs := rfl
@[simp] theorem State.modCtl_frames (s : State) (k : Nat) (f : Ctl → Ctl) : (s.modCtl k f).frames = s.frames := rfl
@[simp] theorem State.modCtl_bars (s : State) (k : Nat) (f : Ctl → Ctl) : (s.modCtl k f).bars = s.bars := rfl
@[simp] theorem State.modCtl_nodes (s : State) (k : Nat) (f : Ctl → Ctl) : (s.modCtl k f).nodes = s.nodes := rfl
@[simp] theorem State.modCtl_quads (s : State) (k : Nat) (f : Ctl → Ctl) : (s.modCtl k f).quads = s.quads := rfl
@[simp] theorem State.modCtl_arrs (s : State) (k : Nat) (f : Ctl → Ctl) : (s.modCtl k f).arrs = s.arrs := rfl
@[simp] theorem State.modCtl_stks (s : State) (k : Nat) (f : Ctl → Ctl) : (s.modCtl k f).stks = s.stks := rfl
@[simp] theorem State.modCtl_pods (s : State) (k : Nat) (f : Ctl → Ctl) : (s.modCtl k f).pods = s.pods := rfl
@[simp] theorem State.modCtl_rays (s : State) (k : Nat) (f : Ctl → Ctl) : (s.modCtl k f).rays = s.rays := rfl
@[simp] theorem State.modCtl_arrivals (s : State) (k : Nat) (f : Ctl → Ctl) : (s.modCtl k f).arrivals = s.arrivals := rfl
@[simp] theorem State.modCtl_agenda (s : State) (k : Nat) (f : Ctl → Ctl) : (s.modCtl k f).agenda = s.agenda := rfl
@[simp] theorem State.modCtl_free (s : State) (k : Nat) (f : Ctl → Ctl) : (s.modCtl k f).free = s.free := rfl
@[simp] theorem State.modCtl_fresh (s : State) (k : Nat) (f : Ctl → Ctl) : (s.modCtl k f).fresh = s.fresh := rfl
@[simp] theorem State.modCtl_iss (s : State) (k : Nat) (f : Ctl → Ctl) : (s.modCtl k f).iss = s.iss := rfl
theorem State.modStack_eq (s : State) (k : Nat) (f : Stack → Stack) : s.modStack k f = { s with stks := (s.modStack k f).stks } := rfl
@[simp] theorem State.modStack_pkg (s : State) (k : Nat) (f : Stack → Stack) : (s.modStack k f).pkg = s.pkg := rfl
@[simp] theorem State.modStack_sys (s : State) (k : Nat) (f : Stack → Stack) : (s.modStack k f).sys = s.sys := rfl
@[simp] theorem State.modStack_mem (s : State) (k : Nat) (f : Stack → Stack) : (s.modStack k f).mem = s.mem := rfl
@[simp] theorem State.modStack_ctxs (s : State) (k : Nat) (f : Stack → Stack) : (s.modStack k f).ctxs = s.ctxs := rfl
@[simp] theorem State.modStack_launches (s : State) (k : Nat) (f : Stack → Stack) : (s.modStack k f).launches = s.launches := rfl
@[simp] theorem State.modStack_aseq (s : State) (k : Nat) (f : Stack → Stack) : (s.modStack k f).aseq = s.aseq := rfl
@[simp] theorem State.modStack_ress (s : State) (k : Nat) (f : Stack → Stack) : (s.modStack k f).ress = s.ress := rfl
@[simp] theorem State.modStack_cores (s : State) (k : Nat) (f : Stack → Stack) : (s.modStack k f).cores = s.cores := rfl
@[simp] theorem State.modStack_lanes (s : State) (k : Nat) (f : Stack → Stack) : (s.modStack k f).lanes = s.lanes := rfl
@[simp] theorem State.modStack_grps (s : State) (k : Nat) (f : Stack → Stack) : (s.modStack k f).grps = s.grps := rfl
@[simp] theorem State.modStack_thrs (s : State) (k : Nat) (f : Stack → Stack) : (s.modStack k f).thrs = s.thrs := rfl
@[simp] theorem State.modStack_frames (s : State) (k : Nat) (f : Stack → Stack) : (s.modStack k f).frames = s.frames := rfl
@[simp] theorem State.modStack_bars (s : State) (k : Nat) (f : Stack → Stack) : (s.modStack k f).bars = s.bars := rfl
@[simp] theorem State.modStack_nodes (s : State) (k : Nat) (f : Stack → Stack) : (s.modStack k f).nodes = s.nodes := rfl
@[simp] theorem State.modStack_quads (s : State) (k : Nat) (f : Stack → Stack) : (s.modStack k f).quads = s.quads := rfl
@[simp] theorem State.modStack_arrs (s : State) (k : Nat) (f : Stack → Stack) : (s.modStack k f).arrs = s.arrs := rfl
@[simp] theorem State.modStack_ctls (s : State) (k : Nat) (f : Stack → Stack) : (s.modStack k f).ctls = s.ctls := rfl
@[simp] theorem State.modStack_pods (s : State) (k : Nat) (f : Stack → Stack) : (s.modStack k f).pods = s.pods := rfl
@[simp] theorem State.modStack_rays (s : State) (k : Nat) (f : Stack → Stack) : (s.modStack k f).rays = s.rays := rfl
@[simp] theorem State.modStack_arrivals (s : State) (k : Nat) (f : Stack → Stack) : (s.modStack k f).arrivals = s.arrivals := rfl
@[simp] theorem State.modStack_agenda (s : State) (k : Nat) (f : Stack → Stack) : (s.modStack k f).agenda = s.agenda := rfl
@[simp] theorem State.modStack_free (s : State) (k : Nat) (f : Stack → Stack) : (s.modStack k f).free = s.free := rfl
@[simp] theorem State.modStack_fresh (s : State) (k : Nat) (f : Stack → Stack) : (s.modStack k f).fresh = s.fresh := rfl
@[simp] theorem State.modStack_iss (s : State) (k : Nat) (f : Stack → Stack) : (s.modStack k f).iss = s.iss := rfl
theorem State.modThr_eq (s : State) (t : Nat) (f : Thr → Thr) : s.modThr t f = { s with thrs := (s.modThr t f).thrs } := rfl
@[simp] theorem State.modThr_pkg (s : State) (t : Nat) (f : Thr → Thr) : (s.modThr t f).pkg = s.pkg := rfl
@[simp] theorem State.modThr_sys (s : State) (t : Nat) (f : Thr → Thr) : (s.modThr t f).sys = s.sys := rfl
@[simp] theorem State.modThr_mem (s : State) (t : Nat) (f : Thr → Thr) : (s.modThr t f).mem = s.mem := rfl
@[simp] theorem State.modThr_ctxs (s : State) (t : Nat) (f : Thr → Thr) : (s.modThr t f).ctxs = s.ctxs := rfl
@[simp] theorem State.modThr_launches (s : State) (t : Nat) (f : Thr → Thr) : (s.modThr t f).launches = s.launches := rfl
@[simp] theorem State.modThr_aseq (s : State) (t : Nat) (f : Thr → Thr) : (s.modThr t f).aseq = s.aseq := rfl
@[simp] theorem State.modThr_ress (s : State) (t : Nat) (f : Thr → Thr) : (s.modThr t f).ress = s.ress := rfl
@[simp] theorem State.modThr_cores (s : State) (t : Nat) (f : Thr → Thr) : (s.modThr t f).cores = s.cores := rfl
@[simp] theorem State.modThr_lanes (s : State) (t : Nat) (f : Thr → Thr) : (s.modThr t f).lanes = s.lanes := rfl
@[simp] theorem State.modThr_grps (s : State) (t : Nat) (f : Thr → Thr) : (s.modThr t f).grps = s.grps := rfl
@[simp] theorem State.modThr_frames (s : State) (t : Nat) (f : Thr → Thr) : (s.modThr t f).frames = s.frames := rfl
@[simp] theorem State.modThr_bars (s : State) (t : Nat) (f : Thr → Thr) : (s.modThr t f).bars = s.bars := rfl
@[simp] theorem State.modThr_nodes (s : State) (t : Nat) (f : Thr → Thr) : (s.modThr t f).nodes = s.nodes := rfl
@[simp] theorem State.modThr_quads (s : State) (t : Nat) (f : Thr → Thr) : (s.modThr t f).quads = s.quads := rfl
@[simp] theorem State.modThr_arrs (s : State) (t : Nat) (f : Thr → Thr) : (s.modThr t f).arrs = s.arrs := rfl
@[simp] theorem State.modThr_ctls (s : State) (t : Nat) (f : Thr → Thr) : (s.modThr t f).ctls = s.ctls := rfl
@[simp] theorem State.modThr_stks (s : State) (t : Nat) (f : Thr → Thr) : (s.modThr t f).stks = s.stks := rfl
@[simp] theorem State.modThr_pods (s : State) (t : Nat) (f : Thr → Thr) : (s.modThr t f).pods = s.pods := rfl
@[simp] theorem State.modThr_rays (s : State) (t : Nat) (f : Thr → Thr) : (s.modThr t f).rays = s.rays := rfl
@[simp] theorem State.modThr_arrivals (s : State) (t : Nat) (f : Thr → Thr) : (s.modThr t f).arrivals = s.arrivals := rfl
@[simp] theorem State.modThr_agenda (s : State) (t : Nat) (f : Thr → Thr) : (s.modThr t f).agenda = s.agenda := rfl
@[simp] theorem State.modThr_free (s : State) (t : Nat) (f : Thr → Thr) : (s.modThr t f).free = s.free := rfl
@[simp] theorem State.modThr_fresh (s : State) (t : Nat) (f : Thr → Thr) : (s.modThr t f).fresh = s.fresh := rfl
@[simp] theorem State.modThr_iss (s : State) (t : Nat) (f : Thr → Thr) : (s.modThr t f).iss = s.iss := rfl
theorem State.modGrp_eq (s : State) (g : Nat) (f : Grp → Grp) : s.modGrp g f = { s with grps := (s.modGrp g f).grps } := rfl
@[simp] theorem State.modGrp_pkg (s : State) (g : Nat) (f : Grp → Grp) : (s.modGrp g f).pkg = s.pkg := rfl
@[simp] theorem State.modGrp_sys (s : State) (g : Nat) (f : Grp → Grp) : (s.modGrp g f).sys = s.sys := rfl
@[simp] theorem State.modGrp_mem (s : State) (g : Nat) (f : Grp → Grp) : (s.modGrp g f).mem = s.mem := rfl
@[simp] theorem State.modGrp_ctxs (s : State) (g : Nat) (f : Grp → Grp) : (s.modGrp g f).ctxs = s.ctxs := rfl
@[simp] theorem State.modGrp_launches (s : State) (g : Nat) (f : Grp → Grp) : (s.modGrp g f).launches = s.launches := rfl
@[simp] theorem State.modGrp_aseq (s : State) (g : Nat) (f : Grp → Grp) : (s.modGrp g f).aseq = s.aseq := rfl
@[simp] theorem State.modGrp_ress (s : State) (g : Nat) (f : Grp → Grp) : (s.modGrp g f).ress = s.ress := rfl
@[simp] theorem State.modGrp_cores (s : State) (g : Nat) (f : Grp → Grp) : (s.modGrp g f).cores = s.cores := rfl
@[simp] theorem State.modGrp_lanes (s : State) (g : Nat) (f : Grp → Grp) : (s.modGrp g f).lanes = s.lanes := rfl
@[simp] theorem State.modGrp_thrs (s : State) (g : Nat) (f : Grp → Grp) : (s.modGrp g f).thrs = s.thrs := rfl
@[simp] theorem State.modGrp_frames (s : State) (g : Nat) (f : Grp → Grp) : (s.modGrp g f).frames = s.frames := rfl
@[simp] theorem State.modGrp_bars (s : State) (g : Nat) (f : Grp → Grp) : (s.modGrp g f).bars = s.bars := rfl
@[simp] theorem State.modGrp_nodes (s : State) (g : Nat) (f : Grp → Grp) : (s.modGrp g f).nodes = s.nodes := rfl
@[simp] theorem State.modGrp_quads (s : State) (g : Nat) (f : Grp → Grp) : (s.modGrp g f).quads = s.quads := rfl
@[simp] theorem State.modGrp_arrs (s : State) (g : Nat) (f : Grp → Grp) : (s.modGrp g f).arrs = s.arrs := rfl
@[simp] theorem State.modGrp_ctls (s : State) (g : Nat) (f : Grp → Grp) : (s.modGrp g f).ctls = s.ctls := rfl
@[simp] theorem State.modGrp_stks (s : State) (g : Nat) (f : Grp → Grp) : (s.modGrp g f).stks = s.stks := rfl
@[simp] theorem State.modGrp_pods (s : State) (g : Nat) (f : Grp → Grp) : (s.modGrp g f).pods = s.pods := rfl
@[simp] theorem State.modGrp_rays (s : State) (g : Nat) (f : Grp → Grp) : (s.modGrp g f).rays = s.rays := rfl
@[simp] theorem State.modGrp_arrivals (s : State) (g : Nat) (f : Grp → Grp) : (s.modGrp g f).arrivals = s.arrivals := rfl
@[simp] theorem State.modGrp_agenda (s : State) (g : Nat) (f : Grp → Grp) : (s.modGrp g f).agenda = s.agenda := rfl
@[simp] theorem State.modGrp_free (s : State) (g : Nat) (f : Grp → Grp) : (s.modGrp g f).free = s.free := rfl
@[simp] theorem State.modGrp_fresh (s : State) (g : Nat) (f : Grp → Grp) : (s.modGrp g f).fresh = s.fresh := rfl
@[simp] theorem State.modGrp_iss (s : State) (g : Nat) (f : Grp → Grp) : (s.modGrp g f).iss = s.iss := rfl
theorem State.modRes_eq (s : State) (r : Nat) (f : Res → Res) : s.modRes r f = { s with ress := (s.modRes r f).ress } := rfl
@[simp] theorem State.modRes_pkg (s : State) (r : Nat) (f : Res → Res) : (s.modRes r f).pkg = s.pkg := rfl
@[simp] theorem State.modRes_sys (s : State) (r : Nat) (f : Res → Res) : (s.modRes r f).sys = s.sys := rfl
@[simp] theorem State.modRes_mem (s : State) (r : Nat) (f : Res → Res) : (s.modRes r f).mem = s.mem := rfl
@[simp] theorem State.modRes_ctxs (s : State) (r : Nat) (f : Res → Res) : (s.modRes r f).ctxs = s.ctxs := rfl
@[simp] theorem State.modRes_launches (s : State) (r : Nat) (f : Res → Res) : (s.modRes r f).launches = s.launches := rfl
@[simp] theorem State.modRes_aseq (s : State) (r : Nat) (f : Res → Res) : (s.modRes r f).aseq = s.aseq := rfl
@[simp] theorem State.modRes_cores (s : State) (r : Nat) (f : Res → Res) : (s.modRes r f).cores = s.cores := rfl
@[simp] theorem State.modRes_lanes (s : State) (r : Nat) (f : Res → Res) : (s.modRes r f).lanes = s.lanes := rfl
@[simp] theorem State.modRes_grps (s : State) (r : Nat) (f : Res → Res) : (s.modRes r f).grps = s.grps := rfl
@[simp] theorem State.modRes_thrs (s : State) (r : Nat) (f : Res → Res) : (s.modRes r f).thrs = s.thrs := rfl
@[simp] theorem State.modRes_frames (s : State) (r : Nat) (f : Res → Res) : (s.modRes r f).frames = s.frames := rfl
@[simp] theorem State.modRes_bars (s : State) (r : Nat) (f : Res → Res) : (s.modRes r f).bars = s.bars := rfl
@[simp] theorem State.modRes_nodes (s : State) (r : Nat) (f : Res → Res) : (s.modRes r f).nodes = s.nodes := rfl
@[simp] theorem State.modRes_quads (s : State) (r : Nat) (f : Res → Res) : (s.modRes r f).quads = s.quads := rfl
@[simp] theorem State.modRes_arrs (s : State) (r : Nat) (f : Res → Res) : (s.modRes r f).arrs = s.arrs := rfl
@[simp] theorem State.modRes_ctls (s : State) (r : Nat) (f : Res → Res) : (s.modRes r f).ctls = s.ctls := rfl
@[simp] theorem State.modRes_stks (s : State) (r : Nat) (f : Res → Res) : (s.modRes r f).stks = s.stks := rfl
@[simp] theorem State.modRes_pods (s : State) (r : Nat) (f : Res → Res) : (s.modRes r f).pods = s.pods := rfl
@[simp] theorem State.modRes_rays (s : State) (r : Nat) (f : Res → Res) : (s.modRes r f).rays = s.rays := rfl
@[simp] theorem State.modRes_arrivals (s : State) (r : Nat) (f : Res → Res) : (s.modRes r f).arrivals = s.arrivals := rfl
@[simp] theorem State.modRes_agenda (s : State) (r : Nat) (f : Res → Res) : (s.modRes r f).agenda = s.agenda := rfl
@[simp] theorem State.modRes_free (s : State) (r : Nat) (f : Res → Res) : (s.modRes r f).free = s.free := rfl
@[simp] theorem State.modRes_fresh (s : State) (r : Nat) (f : Res → Res) : (s.modRes r f).fresh = s.fresh := rfl
@[simp] theorem State.modRes_iss (s : State) (r : Nat) (f : Res → Res) : (s.modRes r f).iss = s.iss := rfl
theorem State.modLaunch_eq (s : State) (l : Nat) (f : Launch → Launch) : s.modLaunch l f = { s with launches := (s.modLaunch l f).launches } := rfl
@[simp] theorem State.modLaunch_pkg (s : State) (l : Nat) (f : Launch → Launch) : (s.modLaunch l f).pkg = s.pkg := rfl
@[simp] theorem State.modLaunch_sys (s : State) (l : Nat) (f : Launch → Launch) : (s.modLaunch l f).sys = s.sys := rfl
@[simp] theorem State.modLaunch_mem (s : State) (l : Nat) (f : Launch → Launch) : (s.modLaunch l f).mem = s.mem := rfl
@[simp] theorem State.modLaunch_ctxs (s : State) (l : Nat) (f : Launch → Launch) : (s.modLaunch l f).ctxs = s.ctxs := rfl
@[simp] theorem State.modLaunch_aseq (s : State) (l : Nat) (f : Launch → Launch) : (s.modLaunch l f).aseq = s.aseq := rfl
@[simp] theorem State.modLaunch_ress (s : State) (l : Nat) (f : Launch → Launch) : (s.modLaunch l f).ress = s.ress := rfl
@[simp] theorem State.modLaunch_cores (s : State) (l : Nat) (f : Launch → Launch) : (s.modLaunch l f).cores = s.cores := rfl
@[simp] theorem State.modLaunch_lanes (s : State) (l : Nat) (f : Launch → Launch) : (s.modLaunch l f).lanes = s.lanes := rfl
@[simp] theorem State.modLaunch_grps (s : State) (l : Nat) (f : Launch → Launch) : (s.modLaunch l f).grps = s.grps := rfl
@[simp] theorem State.modLaunch_thrs (s : State) (l : Nat) (f : Launch → Launch) : (s.modLaunch l f).thrs = s.thrs := rfl
@[simp] theorem State.modLaunch_frames (s : State) (l : Nat) (f : Launch → Launch) : (s.modLaunch l f).frames = s.frames := rfl
@[simp] theorem State.modLaunch_bars (s : State) (l : Nat) (f : Launch → Launch) : (s.modLaunch l f).bars = s.bars := rfl
@[simp] theorem State.modLaunch_nodes (s : State) (l : Nat) (f : Launch → Launch) : (s.modLaunch l f).nodes = s.nodes := rfl
@[simp] theorem State.modLaunch_quads (s : State) (l : Nat) (f : Launch → Launch) : (s.modLaunch l f).quads = s.quads := rfl
@[simp] theorem State.modLaunch_arrs (s : State) (l : Nat) (f : Launch → Launch) : (s.modLaunch l f).arrs = s.arrs := rfl
@[simp] theorem State.modLaunch_ctls (s : State) (l : Nat) (f : Launch → Launch) : (s.modLaunch l f).ctls = s.ctls := rfl
@[simp] theorem State.modLaunch_stks (s : State) (l : Nat) (f : Launch → Launch) : (s.modLaunch l f).stks = s.stks := rfl
@[simp] theorem State.modLaunch_pods (s : State) (l : Nat) (f : Launch → Launch) : (s.modLaunch l f).pods = s.pods := rfl
@[simp] theorem State.modLaunch_rays (s : State) (l : Nat) (f : Launch → Launch) : (s.modLaunch l f).rays = s.rays := rfl
@[simp] theorem State.modLaunch_arrivals (s : State) (l : Nat) (f : Launch → Launch) : (s.modLaunch l f).arrivals = s.arrivals := rfl
@[simp] theorem State.modLaunch_agenda (s : State) (l : Nat) (f : Launch → Launch) : (s.modLaunch l f).agenda = s.agenda := rfl
@[simp] theorem State.modLaunch_free (s : State) (l : Nat) (f : Launch → Launch) : (s.modLaunch l f).free = s.free := rfl
@[simp] theorem State.modLaunch_fresh (s : State) (l : Nat) (f : Launch → Launch) : (s.modLaunch l f).fresh = s.fresh := rfl
@[simp] theorem State.modLaunch_iss (s : State) (l : Nat) (f : Launch → Launch) : (s.modLaunch l f).iss = s.iss := rfl
theorem State.modFrame_eq (s : State) (k : Nat) (f : Frame → Frame) : s.modFrame k f = { s with frames := (s.modFrame k f).frames } := rfl
@[simp] theorem State.modFrame_pkg (s : State) (k : Nat) (f : Frame → Frame) : (s.modFrame k f).pkg = s.pkg := rfl
@[simp] theorem State.modFrame_sys (s : State) (k : Nat) (f : Frame → Frame) : (s.modFrame k f).sys = s.sys := rfl
@[simp] theorem State.modFrame_mem (s : State) (k : Nat) (f : Frame → Frame) : (s.modFrame k f).mem = s.mem := rfl
@[simp] theorem State.modFrame_ctxs (s : State) (k : Nat) (f : Frame → Frame) : (s.modFrame k f).ctxs = s.ctxs := rfl
@[simp] theorem State.modFrame_launches (s : State) (k : Nat) (f : Frame → Frame) : (s.modFrame k f).launches = s.launches := rfl
@[simp] theorem State.modFrame_aseq (s : State) (k : Nat) (f : Frame → Frame) : (s.modFrame k f).aseq = s.aseq := rfl
@[simp] theorem State.modFrame_ress (s : State) (k : Nat) (f : Frame → Frame) : (s.modFrame k f).ress = s.ress := rfl
@[simp] theorem State.modFrame_cores (s : State) (k : Nat) (f : Frame → Frame) : (s.modFrame k f).cores = s.cores := rfl
@[simp] theorem State.modFrame_lanes (s : State) (k : Nat) (f : Frame → Frame) : (s.modFrame k f).lanes = s.lanes := rfl
@[simp] theorem State.modFrame_grps (s : State) (k : Nat) (f : Frame → Frame) : (s.modFrame k f).grps = s.grps := rfl
@[simp] theorem State.modFrame_thrs (s : State) (k : Nat) (f : Frame → Frame) : (s.modFrame k f).thrs = s.thrs := rfl
@[simp] theorem State.modFrame_bars (s : State) (k : Nat) (f : Frame → Frame) : (s.modFrame k f).bars = s.bars := rfl
@[simp] theorem State.modFrame_nodes (s : State) (k : Nat) (f : Frame → Frame) : (s.modFrame k f).nodes = s.nodes := rfl
@[simp] theorem State.modFrame_quads (s : State) (k : Nat) (f : Frame → Frame) : (s.modFrame k f).quads = s.quads := rfl
@[simp] theorem State.modFrame_arrs (s : State) (k : Nat) (f : Frame → Frame) : (s.modFrame k f).arrs = s.arrs := rfl
@[simp] theorem State.modFrame_ctls (s : State) (k : Nat) (f : Frame → Frame) : (s.modFrame k f).ctls = s.ctls := rfl
@[simp] theorem State.modFrame_stks (s : State) (k : Nat) (f : Frame → Frame) : (s.modFrame k f).stks = s.stks := rfl
@[simp] theorem State.modFrame_pods (s : State) (k : Nat) (f : Frame → Frame) : (s.modFrame k f).pods = s.pods := rfl
@[simp] theorem State.modFrame_rays (s : State) (k : Nat) (f : Frame → Frame) : (s.modFrame k f).rays = s.rays := rfl
@[simp] theorem State.modFrame_arrivals (s : State) (k : Nat) (f : Frame → Frame) : (s.modFrame k f).arrivals = s.arrivals := rfl
@[simp] theorem State.modFrame_agenda (s : State) (k : Nat) (f : Frame → Frame) : (s.modFrame k f).agenda = s.agenda := rfl
@[simp] theorem State.modFrame_free (s : State) (k : Nat) (f : Frame → Frame) : (s.modFrame k f).free = s.free := rfl
@[simp] theorem State.modFrame_fresh (s : State) (k : Nat) (f : Frame → Frame) : (s.modFrame k f).fresh = s.fresh := rfl
@[simp] theorem State.modFrame_iss (s : State) (k : Nat) (f : Frame → Frame) : (s.modFrame k f).iss = s.iss := rfl
theorem State.modCur_eq (s : State) (f : Thr → Thr) : s.modCur f = { s with thrs := (s.modCur f).thrs } := rfl
@[simp] theorem State.modCur_pkg (s : State) (f : Thr → Thr) : (s.modCur f).pkg = s.pkg := rfl
@[simp] theorem State.modCur_sys (s : State) (f : Thr → Thr) : (s.modCur f).sys = s.sys := rfl
@[simp] theorem State.modCur_mem (s : State) (f : Thr → Thr) : (s.modCur f).mem = s.mem := rfl
@[simp] theorem State.modCur_ctxs (s : State) (f : Thr → Thr) : (s.modCur f).ctxs = s.ctxs := rfl
@[simp] theorem State.modCur_launches (s : State) (f : Thr → Thr) : (s.modCur f).launches = s.launches := rfl
@[simp] theorem State.modCur_aseq (s : State) (f : Thr → Thr) : (s.modCur f).aseq = s.aseq := rfl
@[simp] theorem State.modCur_ress (s : State) (f : Thr → Thr) : (s.modCur f).ress = s.ress := rfl
@[simp] theorem State.modCur_cores (s : State) (f : Thr → Thr) : (s.modCur f).cores = s.cores := rfl
@[simp] theorem State.modCur_lanes (s : State) (f : Thr → Thr) : (s.modCur f).lanes = s.lanes := rfl
@[simp] theorem State.modCur_grps (s : State) (f : Thr → Thr) : (s.modCur f).grps = s.grps := rfl
@[simp] theorem State.modCur_frames (s : State) (f : Thr → Thr) : (s.modCur f).frames = s.frames := rfl
@[simp] theorem State.modCur_bars (s : State) (f : Thr → Thr) : (s.modCur f).bars = s.bars := rfl
@[simp] theorem State.modCur_nodes (s : State) (f : Thr → Thr) : (s.modCur f).nodes = s.nodes := rfl
@[simp] theorem State.modCur_quads (s : State) (f : Thr → Thr) : (s.modCur f).quads = s.quads := rfl
@[simp] theorem State.modCur_arrs (s : State) (f : Thr → Thr) : (s.modCur f).arrs = s.arrs := rfl
@[simp] theorem State.modCur_ctls (s : State) (f : Thr → Thr) : (s.modCur f).ctls = s.ctls := rfl
@[simp] theorem State.modCur_stks (s : State) (f : Thr → Thr) : (s.modCur f).stks = s.stks := rfl
@[simp] theorem State.modCur_pods (s : State) (f : Thr → Thr) : (s.modCur f).pods = s.pods := rfl
@[simp] theorem State.modCur_rays (s : State) (f : Thr → Thr) : (s.modCur f).rays = s.rays := rfl
@[simp] theorem State.modCur_arrivals (s : State) (f : Thr → Thr) : (s.modCur f).arrivals = s.arrivals := rfl
@[simp] theorem State.modCur_agenda (s : State) (f : Thr → Thr) : (s.modCur f).agenda = s.agenda := rfl
@[simp] theorem State.modCur_free (s : State) (f : Thr → Thr) : (s.modCur f).free = s.free := rfl
@[simp] theorem State.modCur_fresh (s : State) (f : Thr → Thr) : (s.modCur f).fresh = s.fresh := rfl
@[simp] theorem State.modCur_iss (s : State) (f : Thr → Thr) : (s.modCur f).iss = s.iss := rfl
theorem State.modRun_eq (s : State) (f : Run → Run) : s.modRun f = { s with lanes := (s.modRun f).lanes } := rfl
@[simp] theorem State.modRun_pkg (s : State) (f : Run → Run) : (s.modRun f).pkg = s.pkg := rfl
@[simp] theorem State.modRun_sys (s : State) (f : Run → Run) : (s.modRun f).sys = s.sys := rfl
@[simp] theorem State.modRun_mem (s : State) (f : Run → Run) : (s.modRun f).mem = s.mem := rfl
@[simp] theorem State.modRun_ctxs (s : State) (f : Run → Run) : (s.modRun f).ctxs = s.ctxs := rfl
@[simp] theorem State.modRun_launches (s : State) (f : Run → Run) : (s.modRun f).launches = s.launches := rfl
@[simp] theorem State.modRun_aseq (s : State) (f : Run → Run) : (s.modRun f).aseq = s.aseq := rfl
@[simp] theorem State.modRun_ress (s : State) (f : Run → Run) : (s.modRun f).ress = s.ress := rfl
@[simp] theorem State.modRun_cores (s : State) (f : Run → Run) : (s.modRun f).cores = s.cores := rfl
@[simp] theorem State.modRun_grps (s : State) (f : Run → Run) : (s.modRun f).grps = s.grps := rfl
@[simp] theorem State.modRun_thrs (s : State) (f : Run → Run) : (s.modRun f).thrs = s.thrs := rfl
@[simp] theorem State.modRun_frames (s : State) (f : Run → Run) : (s.modRun f).frames = s.frames := rfl
@[simp] theorem State.modRun_bars (s : State) (f : Run → Run) : (s.modRun f).bars = s.bars := rfl
@[simp] theorem State.modRun_nodes (s : State) (f : Run → Run) : (s.modRun f).nodes = s.nodes := rfl
@[simp] theorem State.modRun_quads (s : State) (f : Run → Run) : (s.modRun f).quads = s.quads := rfl
@[simp] theorem State.modRun_arrs (s : State) (f : Run → Run) : (s.modRun f).arrs = s.arrs := rfl
@[simp] theorem State.modRun_ctls (s : State) (f : Run → Run) : (s.modRun f).ctls = s.ctls := rfl
@[simp] theorem State.modRun_stks (s : State) (f : Run → Run) : (s.modRun f).stks = s.stks := rfl
@[simp] theorem State.modRun_pods (s : State) (f : Run → Run) : (s.modRun f).pods = s.pods := rfl
@[simp] theorem State.modRun_rays (s : State) (f : Run → Run) : (s.modRun f).rays = s.rays := rfl
@[simp] theorem State.modRun_arrivals (s : State) (f : Run → Run) : (s.modRun f).arrivals = s.arrivals := rfl
@[simp] theorem State.modRun_agenda (s : State) (f : Run → Run) : (s.modRun f).agenda = s.agenda := rfl
@[simp] theorem State.modRun_free (s : State) (f : Run → Run) : (s.modRun f).free = s.free := rfl
@[simp] theorem State.modRun_fresh (s : State) (f : Run → Run) : (s.modRun f).fresh = s.fresh := rfl
@[simp] theorem State.modRun_iss (s : State) (f : Run → Run) : (s.modRun f).iss = s.iss := rfl
@[simp] theorem State.modCore_cores (s : State) (c : Nat) (f : Core → Core) : (s.modCore c f).cores = alMod s.cores c .empty f := rfl
@[simp] theorem State.modLane_lanes (s : State) (l : Nat) (f : Lane → Lane) : (s.modLane l f).lanes = alMod s.lanes l .empty f := rfl
@[simp] theorem State.modQuad_quads (s : State) (q : Nat) (f : Quad → Quad) : (s.modQuad q f).quads = alMod s.quads q .empty f := rfl
@[simp] theorem State.modArr_arrs (s : State) (a : Nat) (f : Arr → Arr) : (s.modArr a f).arrs = alMod s.arrs a .empty f := rfl
@[simp] theorem State.modCtx_ctxs (s : State) (c : Nat) (f : Ctx → Ctx) : (s.modCtx c f).ctxs = alMod s.ctxs c .empty f := rfl
@[simp] theorem State.modCtl_ctls (s : State) (k : Nat) (f : Ctl → Ctl) : (s.modCtl k f).ctls = alMod s.ctls k .held f := rfl
@[simp] theorem State.modStack_stks (s : State) (k : Nat) (f : Stack → Stack) : (s.modStack k f).stks = alMod s.stks k .empty f := rfl
@[simp] theorem State.modThr_thrs (s : State) (t : Nat) (f : Thr → Thr) : (s.modThr t f).thrs = alAdj s.thrs t f := rfl
@[simp] theorem State.modGrp_grps (s : State) (g : Nat) (f : Grp → Grp) : (s.modGrp g f).grps = alAdj s.grps g f := rfl
@[simp] theorem State.modRes_ress (s : State) (r : Nat) (f : Res → Res) : (s.modRes r f).ress = alAdj s.ress r f := rfl
@[simp] theorem State.modLaunch_launches (s : State) (l : Nat) (f : Launch → Launch) : (s.modLaunch l f).launches = alAdj s.launches l f := rfl
@[simp] theorem State.modFrame_frames (s : State) (k : Nat) (f : Frame → Frame) : (s.modFrame k f).frames = alAdj s.frames k f := rfl
@[simp] theorem State.modCur_thrs (s : State) (f : Thr → Thr) : (s.modCur f).thrs = alAdj s.thrs s.iss.thr f := rfl
@[simp] theorem State.modCur_curWho_mid (s : State) (f : Thr → Thr) : (s.modCur f).curWho.mid = s.curWho.mid := rfl
@[simp] theorem State.modCur_curCore (s : State) (f : Thr → Thr) : (s.modCur f).curCore = s.curCore := rfl
@[simp] theorem State.modCur_curGrp (s : State) (f : Thr → Thr) : (s.modCur f).curGrp = s.curGrp := rfl

end Sys2Proof.Machine
end

