-- ==== Sys2Proof/Laws/Words.lean ====
section
/-! SUPPORT. What the shared operations of the words come to: one lemma per operation, which the proofs about words cite. -/
namespace Sys2Proof.Laws
open Sys2Proof.Machine

/-! ### The monad -/

theorem bind_ok {α β : Type} {x : X α} {f : α → X β} {s t : State} {a : α} (h : x s = .ok a t) : (x >>= f) s = f a t := by
  show EStateM.bind x f s = _
  simp only [EStateM.bind, h]
theorem bind_error {α β : Type} {x : X α} {f : α → X β} {s t : State} {e : Exc} (h : x s = .error e t) : (x >>= f) s = .error e t := by
  show EStateM.bind x f s = _
  simp only [EStateM.bind, h]
@[simp] theorem get_bind {β : Type} (f : State → X β) (s : State) : ((get : X State) >>= f) s = f s s := rfl
@[simp] theorem pure_bind' {α β : Type} (a : α) (f : α → X β) (s : State) : ((pure a : X α) >>= f) s = f a s := rfl
@[simp] theorem pure_run {α : Type} (a : α) (s : State) : (pure a : X α) s = .ok a s := rfl
@[simp] theorem modify_run (f : State → State) (s : State) : (modify f : X PUnit) s = .ok ⟨⟩ (f s) := rfl
@[simp] theorem modify_bind {β : Type} (f : State → State) (g : PUnit → X β) (s : State) : ((modify f : X PUnit) >>= g) s = g ⟨⟩ (f s) := rfl
@[simp] theorem set_run (t s : State) : (set t : X PUnit) s = .ok ⟨⟩ t := rfl
@[simp] theorem set_bind {β : Type} (t : State) (g : PUnit → X β) (s : State) : ((set t : X PUnit) >>= g) s = g ⟨⟩ t := rfl
theorem ite_run {α : Type} {c : Prop} [Decidable c] (x y : X α) (s : State) : (if c then x else y) s = if c then x s else y s := by
  split <;> rfl

/-! ### Words -/

theorem applyX_ok {x : X Unit} {s t : State} {u : Unit} (h : x s = .ok u t) : applyX x s = t := by simp only [applyX, h]
theorem applyX_stall {x : X Unit} {s t : State} (h : x s = .error .stall t) :
    applyX x s = { s with iss := { s.iss with stalled := true } } := by simp only [applyX, h]
theorem applyX_fault {x : X Unit} {s t : State} {f : FaultInfo} (h : x s = .error (.fault f) t) :
    applyX x s = if s.iss.chained then { t with iss := { t.iss with faulted := some f } } else t.takeFault s.iss.thr f := by
  simp only [applyX, h]
theorem onCtl_ok {α : Type} {other x : X α} {s t : State} {a : α} (h : x s = .ok a t) : onCtl other x s = .ok a t := by
  simp only [onCtl, h]
theorem runWord_ok {g : Guard} {n : Nat} {x : X Unit} {s t : State} {u : Unit} (hg : Fires g s) (h : x s = .ok u t) :
    runWord g n x s = .next t := by
  have hg' : guardOf g s.cur = true := hg
  simp only [runWord, hg', if_true, applyX_ok (onCtl_ok h)]
theorem pushNot_run (n : Nat) (s : State) : pushNot n s = .ok () (s.unwritten n) := by
  induction n generalizing s with
  | zero => rfl
  | succ n ih => exact ih _
theorem runWord_off {g : Guard} {n : Nat} {x : X Unit} {s : State} (hg : ¬ Fires g s) : runWord g n x s = .next (s.unwritten n) := by
  have hg' : ¬ guardOf g s.cur = true := hg
  simp only [runWord, if_neg hg', applyX_ok (pushNot_run n s)]
@[simp] theorem push64_run (v : DWord) (s : State) : push64 v s = .ok () (s.pushed v) := rfl
@[simp] theorem push32_run (v : Word) (s : State) : push32 v s = .ok () (s.pushed32 v) := by
  have : dw v.toNat = v.setWidth 64 := by
    apply BitVec.eq_of_toNat_eq
    simp [dw]
  simp only [push32, this]
  rfl
@[simp] theorem raiseFlags_run (f : Word) (s : State) : raiseFlags f s = .ok () (s.raised f) := by
  simp only [raiseFlags, State.raised]
  split <;> rfl
@[simp] theorem pushLate_run (v : DWord) (po : Bool) (s : State) : pushLate v po s = .ok () (s.sent v po) := rfl
@[simp] theorem writePred_run (i : Nat) (b : Bool) (s : State) : writePred i b s = .ok () (s.withPred i b) := rfl
@[simp] theorem readPred_run (i : Nat) (s : State) : readPred i s = .ok (s.cur.pred i) s := rfl
@[simp] theorem addWait_run (w : Wait) (s : State) : addWait w s = .ok () (s.waits w) := rfl
@[simp] theorem raised_iss (s : State) (f : Word) : (s.raised f).iss = s.iss := by unfold State.raised; split <;> rfl
@[simp] theorem pushed_iss (s : State) (v : DWord) : (s.pushed v).iss = s.iss := rfl
theorem forX_push (es : List QEnt) (s : State) : forX pushEnt es s = .ok () (s.pushedAll es) := by
  induction es generalizing s with
  | nil => rfl
  | cons e r ih => exact ih _
theorem srcN_32 {i : Nat} {a : Src} {s t : State} {x : Word} (h : srcI i a s = .ok x t) : srcN false i a s = .ok x.toNat t := by
  show (srcI i a >>= fun v => pure v.toNat) s = _
  rw [bind_ok h]; rfl
theorem srcN_64 {i : Nat} {a : Src} {s t : State} {x : DWord} (h : src64 a s = .ok x t) : srcN true i a s = .ok x.toNat t := by
  show (src64 a >>= fun v => pure v.toNat) s = _
  rw [bind_ok h]; rfl
theorem intBin_32 {a b : Src} {s t : State} {x y : Word} (h : Reads32 a b s x y t) (f : Nat → Nat → Nat) :
    intBin false a b f s = .ok () (t.pushed32 (w32 (f x.toNat y.toNat))) := by
  obtain ⟨u, h1, h2⟩ := h
  unfold intBin
  rw [bind_ok (srcN_32 h1), bind_ok (srcN_32 h2)]
  exact push32_run _ _
theorem intBin_64 {a b : Src} {s t : State} {x y : DWord} (h : Reads64 a b s x y t) (f : Nat → Nat → Nat) :
    intBin true a b f s = .ok () (t.pushed (dw (f x.toNat y.toNat))) := by
  obtain ⟨u, h1, h2⟩ := h
  unfold intBin
  rw [bind_ok (srcN_64 h1), bind_ok (srcN_64 h2)]
  rfl
/-- A once-per-set word at its first thread (R325). -/
theorem onceX_first {x : X (List QEnt)} {s t : State} {es : List QEnt} (hf : FirstOfSet s) (h : x s = .ok es t) :
    onceX x s = .ok () (t.onceDone s.iss.word es) := by
  have e : onceVal x s = .ok es (t.modRun (fun r => { r with once := alSet r.once s.iss.word (.done es) })) := by
    simp only [FirstOfSet] at hf
    simp only [onceVal, get_bind, hf, h]
  simp only [onceX, bind_ok e, forX_push]
  rfl
/-- A once-per-set word at a later thread. -/
theorem onceX_later {x : X (List QEnt)} {s : State} {es : List QEnt}
    (h : s.curRun.bind (fun r => alGet r.once s.iss.word) = some (.done es)) :
    onceX x s = .ok () (s.pushedAll es) := by
  have e : onceVal x s = .ok es s := by simp only [onceVal, get_bind, h, pure_run]
  simp only [onceX, bind_ok e, forX_push]

end Sys2Proof.Laws
end

