-- ==== Sys2Proof/Tests/Slice0.lean ====
section
/-! SUPPORT. Tests of the model: terms that well-formedness refuses, words written out from the manual's encodings, single steps with
results from the manual, and, for each statement, states and operands that meet its hypotheses. -/
namespace Sys2Proof.Tests
set_option Elab.async false
open Sys2Proof Sys2Proof.Machine

/-! ### Small states -/

/-- The guard that always holds, and a word's head with it. -/
def al : Guard := ⟨false, 7⟩
def hd : Hd := ⟨false, al⟩
/-- One thread of one group on lane 0 of core 0, at issue of a word whose literals are l. -/
def lit (l : List Word) : State := { State.reset.load [0] with iss := { issueFor 0 1 0 2 with lits := l } }
/-- The same with nothing left to read. -/
def pr : State := lit []
/-- Its next state, by one field. -/
def ans {α : Type} (o : Out) (f : State → α) : Option α := match o with | .next s => some (f s) | _ => none
/-- The newest entry of the thread at issue. -/
def top (s : State) : Option QEnt := s.cur.rt.q.head?
/-- What a word that reads the literals l pushes last. -/
def push (i : Instr) (l : List Word) : Option (Option QEnt) := ans (exec i (lit l)) top
/-- The value on its way that a long-latency word gives. -/
def late (i : Instr) (l : List Word) : Option (Option (List DWord)) := ans (exec i (lit l)) (fun s => s.arrivals.head?.map (·.vs))
/-- The action answers, with what follows. -/
def yields {α : Type} (x : X α) (s : State) (p : α → State → Bool) : Bool := match x s with | .ok a t => p a t | _ => false
/-- The action takes a fault. -/
def faults {α : Type} (x : X α) (s : State) : Bool := match x s with | .error (.fault _) _ => true | _ => false
/-- An access of the front end or of an engine answers, or fails. -/
def gives {ε α : Type} (r : State × Except ε α) (p : α → State → Bool) : Bool := match r with | (s, .ok a) => p a s | _ => false
def fails {ε α : Type} (r : State × Except ε α) : Bool := match r with | (_, .error _) => true | _ => false

/-! ### States and operands that meet the hypotheses of the statements -/

theorem wit_IntTwo32 : Fires hd.gd (lit [0x80000000, 0xFFFFFFFF]) ∧
    Reads32 .lit .lit (lit [0x80000000, 0xFFFFFFFF]) 0x80000000 0xFFFFFFFF pr ∧ pr.iss.nd = none ∧
    srcI 0 .zero pr = .ok 0 pr := ⟨rfl, ⟨_, rfl, rfl⟩, rfl, rfl⟩
theorem wit_IntTwo64 : Fires hd.gd (lit [0, 0x80000000, 0, 0]) ∧ Reads64 .lit .lit (lit [0, 0x80000000, 0, 0]) 0x8000000000000000 0 pr ∧
    ReadsShift .lit .lit (lit [1, 0, 64]) 1 64 pr := ⟨rfl, ⟨_, rfl, rfl⟩, ⟨_, rfl, rfl⟩⟩
theorem wit_IntSaturating : Fires hd.gd pr ∧ Reads32 .lit .lit (lit [0x7FFFFFFF, 1]) 0x7FFFFFFF 1 pr ∧ pr.iss.nd = none ∧
    Reads64 .lit .lit (lit [0, 0x80000000, 1, 0]) 0x8000000000000000 1 pr ∧ srcI 0 .lit (lit [0x80000000]) = .ok 0x80000000 pr ∧
    src64 .lit (lit [0, 0x80000000]) = .ok 0x8000000000000000 pr := ⟨rfl, ⟨_, rfl, rfl⟩, rfl, ⟨_, rfl, rfl⟩, rfl, rfl⟩
theorem wit_IntOne : Fires hd.gd pr ∧ srcI 0 .zero pr = .ok 0 pr ∧ src64 .zero pr = .ok 0 pr ∧
    Reads32 .lit .zero (lit [5]) 5 0 pr ∧ Reads64 .lit .zero (lit [5, 0]) 5 0 pr := ⟨rfl, rfl, rfl, ⟨_, rfl, rfl⟩, ⟨_, rfl, rfl⟩⟩
theorem wit_IntDivide : Fires hd.gd pr ∧ Reads32 .lit .zero (lit [7]) 7 0 pr ∧ Reads64 .lit .zero (lit [7, 0]) 7 0 pr :=
  ⟨rfl, ⟨_, rfl, rfl⟩, ⟨_, rfl, rfl⟩⟩
theorem wit_IntThree : Fires hd.gd pr ∧ ReadsThree .zero .zero .lit (lit [0x3F1F]) 0 0 0x3F1F pr ∧
    ReadsCarry .zero .lit .lit (lit [1, 0, 1]) 0 1 0x100000000 pr ∧ ReadsLea .zero .zero .lit (lit [7]) 0 0 7 pr ∧
    Reads32 .zero .lit (lit [0x3F1F]) 0 0x3F1F pr :=
  ⟨rfl, ⟨_, _, rfl, rfl, rfl⟩, ⟨_, _, rfl, rfl, rfl⟩, ⟨_, _, rfl, rfl, rfl⟩, ⟨_, rfl, rfl⟩⟩
theorem wit_Predicates : Fires hd.gd pr ∧ Reads32 .lit .zero (lit [0x80000000]) 0x80000000 0 pr ∧
    Reads64 .lit .zero (lit [0, 0x80000000]) 0x8000000000000000 0 pr := ⟨rfl, ⟨_, rfl, rfl⟩, ⟨_, rfl, rfl⟩⟩
theorem wit_FpSums : Fires hd.gd pr ∧ ReadsF .lit .lit (lit [0x7F800001, 0]) 0x7F800001 0 pr ∧ pr.iss.nd = none ∧
    drawSR .rne pr = .ok 0 pr ∧ (∃ n t, drawSR .sr pr = .ok n t) ∧ srcF 2 .zero pr = .ok 0 pr ∧
    Reads64 .lit .zero (lit [0, 0x7FF00000]) 0x7FF0000000000000 0 pr ∧ src64 .zero pr = .ok 0 pr :=
  ⟨rfl, ⟨_, rfl, rfl⟩, rfl, rfl, ⟨_, _, rfl⟩, rfl, ⟨_, rfl, rfl⟩, rfl⟩
theorem wit_FpSums_cases : (FV.nan true).isNan = true ∧ badProd (.inf false) (.fin false 0 0) = true ∧
    infTerm (.inf true) .one = some true ∧ infTerm (.inf false) .one = some false ∧ FV.one.isNan = false ∧ FV.one.isInf = false := by
  decide
theorem wit_FpHalves : Fires hd.gd pr ∧ ReadsRaw .lit .lit (lit [0x7C007E00, 0x3C00]) 0x7C007E00 0x3C00 pr ∧
    (∃ u, drawSR .rne pr = .ok 0 u ∧ drawSR .rne u = .ok 0 pr) ∧ (∃ n m t u, drawSR .sr pr = .ok n u ∧ drawSR .sr u = .ok m t) ∧
    src32 .zero pr = .ok 0 pr ∧ pr.iss.nd = none := ⟨rfl, ⟨_, rfl, rfl⟩, ⟨_, rfl, rfl⟩, ⟨_, _, _, _, rfl, rfl⟩, rfl, rfl⟩
theorem wit_FpMinMax : Fires hd.gd pr ∧ ReadsF .lit .zero (lit [0x80000000]) 0x80000000 0 pr ∧
    Reads64 .lit .zero (lit [0, 0x80000000]) 0x8000000000000000 0 pr := ⟨rfl, ⟨_, rfl, rfl⟩, ⟨_, rfl, rfl⟩⟩
theorem wit_FpMinMax_cases : (f32.dec 0x7F800001).isNan = true ∧ (f32.dec 0).isNan = false ∧ (f32.dec 0x80000000).isNan = false ∧
    fvLt (f32.dec 0x80000001) (f32.dec 1) = true ∧ (f32.dec 0).isZero = true ∧ (f32.dec 0x80000000).isZero = true ∧
    (f32.dec 0x80000000).neg = true ∧ (f32.dec 0).neg = false := by decide
theorem wit_FpOther : Fires hd.gd pr ∧ srcF 0 .zero pr = .ok 0 pr ∧ drawSR .rne pr = .ok 0 pr ∧ src32 .zero pr = .ok 0 pr ∧
    src64 .zero pr = .ok 0 pr := ⟨rfl, rfl, rfl, rfl, rfl⟩
theorem wit_FpOther_classes : f32.dec 0x80000000 = .fin true 0 (-149) ∧ f32.dec 1 = .fin false 1 (-149) ∧ 1 / 2 ^ f32.mb % 2 ^ f32.eb = 0 ∧
    f32.dec 0x00800000 = .fin false (2 ^ 23) (-149) ∧ 0x00800000 / 2 ^ f32.mb % 2 ^ f32.eb ≠ 0 ∧ 2 ^ 23 < 2 ^ (23 + 1) ∧
    (f32.dec 0x7FC00000).isNan = true ∧ (f32.dec 0xFF800000).isInf = true := by decide
theorem wit_FpCompare : Fires hd.gd pr ∧ ReadsF .lit .zero (lit [0x7F800001]) 0x7F800001 0 pr ∧ Reads64 .zero .zero pr 0 0 pr ∧
    ReadsRaw .lit .zero (lit [0x7E00]) 0x7E00 0 pr ∧ (f32.dec 0x7F800001).isNan = true :=
  ⟨rfl, ⟨_, rfl, rfl⟩, ⟨_, rfl, rfl⟩, ⟨_, rfl, rfl⟩, by decide⟩
theorem wit_Convert : Fires hd.gd pr ∧ tySrc .i32 .lit (lit [0x80000000]) = .ok 0x80000000 pr ∧ drawSR .rne pr = .ok 0 pr ∧
    ReadsRaw .zero .zero pr 0 0 pr ∧ (∃ u, drawSR .rne pr = .ok 0 u ∧ drawSR .rne u = .ok 0 pr) :=
  ⟨rfl, rfl, rfl, ⟨_, rfl, rfl⟩, ⟨_, rfl, rfl⟩⟩
theorem wit_Convert_cases : NumTy.i32.isInt = true ∧ NumTy.n64.isInt = true ∧ NumTy.f32.isInt = false ∧
    ((tyF .f32).dec (0x7F800001 % 2 ^ tyW .f32)).isNan = true ∧ (tyF .f32).dec (0xFF800000 % 2 ^ tyW .f32) = .inf true ∧
    (tyF .f32).dec (0x7F800000 % 2 ^ tyW .f32) = .inf false := by decide
/-- The probe with an ND prefix before the word: the uppermost nibble, signed, saturating. -/
def ndS (l : List Word) : State :=
  { lit l with iss := { (lit l).iss with nd := some ⟨.nb, 7, .rne, true, 0, true, true⟩ } }
theorem wit_Narrow : Fires hd.gd (ndS []) ∧ (ndS []).iss.nd = some ⟨.nb, 7, .rne, true, 0, true, true⟩ ∧
    drawSR .rne (ndS []) = .ok 0 (ndS []) ∧ Reads32 .lit .zero (ndS [8]) 8 0 (ndS []) ∧ ReadsF .zero .zero (ndS []) 0 0 (ndS []) ∧
    srcF 2 .zero (ndS []) = .ok 0 (ndS []) ∧ Reads64 .zero .zero (ndS []) 0 0 (ndS []) ∧ ReadsRaw .zero .zero (ndS []) 0 0 (ndS []) ∧
    (∃ u, srcI 0 .lit (ndS [8]) = .ok 8 u ∧ src32 .zero u = .ok 0 (ndS [])) ∧
    (∃ u, srcF 0 .lit (ndS [0x7F800000]) = .ok 0x7F800000 u ∧ src32 .zero u = .ok 0 (ndS [])) ∧
    ReadsWide .zero .zero (ndS []) 0 0 (ndS []) :=
  ⟨rfl, rfl, rfl, ⟨_, rfl, rfl⟩, ⟨_, rfl, rfl⟩, rfl, ⟨_, rfl, rfl⟩, ⟨_, rfl, rfl⟩, ⟨_, rfl, rfl⟩, ⟨_, rfl, rfl⟩, ⟨_, rfl, rfl⟩⟩
theorem wit_CrossGroup : Fires hd.gd pr ∧ pr.iss.stalled = false ∧ ReadsRaw .lit .lit (lit [1, 31]) 1 31 pr ∧ stW .i32 = false ∧
    stW .i64 = true ∧ ReadsWide .zero .lit (lit [1]) 0 1 pr ∧ src32 .zero pr = .ok 0 pr ∧ src64 .zero pr = .ok 0 pr :=
  ⟨rfl, rfl, ⟨_, rfl, rfl⟩, rfl, rfl, ⟨_, rfl, rfl⟩, rfl, rfl⟩
/-- Two threads of a set, the first of which reads the second. -/
def two : List XgEnt := [⟨0, 0, true, 1, 31⟩, ⟨0, 31, true, 0, 31⟩]
theorem wit_CrossResults : two ≠ [] ∧ two.Pairwise (fun x y => x.tid ≠ y.tid) ∧ (∀ e ∈ two, e.tid < 32 ∧ e.contrib = true) ∧
    31 = 0 ^^^ (31 % 32) ∧ 0 + 31 = 31 ∧ (∀ x ∈ two, x.tid ≠ 31 + 31) ∧ (∀ x ∈ two, x.tid + 31 ≠ 0) := by decide
theorem wit_IntegerReduction : two.Pairwise (fun x y => x.tid ≠ y.tid) ∧ (∀ e ∈ two, e.tid < 32 ∧ e.a.toNat < 2 ^ 32) := by decide
/-- The probe with an item of an ordered launch: KM1 is 7 and the defaults table is there. -/
def prI (l : List Word) : State := ((lit l).modThr 2 (fun th => { th with id := { th.id with item := true } })).modLaunch 0 (fun la =>
  { la with dflt := some (List.replicate 256 0x7F800001) })
theorem wit_Forwarded : Fires hd.gd (prI [8]) ∧ (∃ t, readFwd 31 8 (prI []) = .ok 0x7F800001 t) ∧ srcI 0 .lit (prI [8]) = .ok 8 (prI []) ∧
    srcF 0 .zero (prI []) = .ok 0 (prI []) ∧ (prI []).iss.nd = none ∧ drawSR .rne (prI []) = .ok 0 (prI []) := ⟨rfl, ⟨_, rfl⟩, rfl, rfl, rfl, rfl⟩
theorem wit_Uniform : Fires hd.gd pr ∧ FirstOfSet pr ∧ src32 .lit (lit [56]) = .ok 56 pr ∧ ReadsRaw .lit .lit (lit [0x80000000, 1]) 0x80000000 1 pr ∧
    src64 .zero pr = .ok 0 pr := ⟨rfl, rfl, rfl, ⟨_, rfl, rfl⟩, rfl⟩
theorem wit_Uniform_loads : yields (spaceLoad .cst 0 4) pr (fun v _ => !v.2) && yields (spaceLoad .cst 0 8) pr (fun v _ => !v.2) := by
  decide +kernel
theorem wit_Uniform_later : Fires hd.gd (pr.onceDone 0 []) ∧
    (pr.onceDone 0 []).curRun.bind (fun r => alGet r.once (pr.onceDone 0 []).iss.word) = some (.done []) := ⟨rfl, rfl⟩
theorem wit_LoadsAndStores : Fires hd.gd pr ∧ addrOff .glb .lit .lit (lit [0, 1, 0xFFFFFFFC]) = .ok 0xFFFFFFFC pr ∧
    addrOff .loc .lit .lit (lit [4, 0xFFFFFFFC]) = .ok 0 pr ∧ ReadsWide .lit .lit (lit [0, 1, 0xFFFFFFFC]) 0x100000000 0xFFFFFFFC pr ∧
    ReadsRaw .lit .lit (lit [4, 0xFFFFFFFC]) 4 0xFFFFFFFC pr ∧ addrOf .glb .zero pr = .ok 0 pr ∧ dataOf .b64 .zero pr = .ok 0 pr ∧
    src64 .zero pr = .ok 0 pr ∧ ReadsWide .zero .lit (lit [2]) 0 2 pr := ⟨rfl, rfl, rfl, ⟨_, rfl, rfl⟩, ⟨_, rfl, rfl⟩, rfl, rfl, rfl, ⟨_, rfl, rfl⟩⟩
theorem wit_LoadsAndStores_cst : yields (cstLoad 8 4) pr (fun _ t => t.iss.lane == 0) ∧
    (let r : Run := { (pr.curRun.getD ⟨1, 0, [], 0, [0], [0], [], [], [], none, [], [], [], false⟩) with bcast := [((pr.iss.word, 8, 4), (7, false))] }
     r.bcast.find? (fun e => e.1 == (pr.iss.word, 8, 4)) = some ((pr.iss.word, 8, 4), (7, false))) := by decide +kernel
theorem wit_LoadsAndStores_access : yields (spaceLoad .glb 0xFFFFFFFC 4) pr (fun _ _ => true) && yields (spaceLoad .glb 16 16) pr (fun _ _ => true) &&
    yields (spaceLoad .loc 0xFFFF 1) pr (fun _ _ => true) && yields (spaceStore .glb 0 8 0) pr (fun _ _ => true) &&
    yields (spaceStore .loc 0xFFF8 8 0) pr (fun _ _ => true) && yields (loadV pr.curWho .read 64 64) pr (fun _ _ => true) &&
    faults (loadV pr.curWho .read (2 ^ 55) 64) pr && yields (translate pr.curWho .read 0) pr (fun _ _ => true) := by decide +kernel
theorem wit_Atomics : Fires hd.gd pr ∧ addrOf .glb .zero pr = .ok 0 pr ∧ dataOf .b32 .lit (lit [0x80000000]) = .ok 0x80000000 pr ∧
    dataPair .b32 .lit (lit [1, 2]) = .ok (1, 2) pr ∧ src64 .zero pr = .ok 0 pr ∧ pr.cur.id.launch = some 0 := ⟨rfl, rfl, rfl, rfl, rfl, rfl⟩
theorem wit_Atomics_access : ([AtomOp.add, .fadd, .min, .max, .and, .or, .xor, .swap].all (fun o =>
      yields (spaceAtom .glb 0 4 (fun m => atomF o 32 m 0x80000000)) pr (fun _ _ => true))) &&
    yields (spaceAtom .loc 0xFFFC 4 (fun m => if m = 1 then 2 else m)) pr (fun _ _ => true) &&
    yields (translate pr.curWho .atomic 0) pr (fun p q => yields (reach pr.curWho .atomic p.1 p.2.2.2) q (fun _ _ => true)) := by
  decide +kernel
/-- The probe's core with a tag that its residency holds. -/
def prT (l : List Word) (n : Nat) : State := (lit l).modCore 0 (fun c => { c with
  tags := (List.range n).map (fun w => ⟨tagSet 0x12340, w, 1, 3, tagTag 0x12340 + w, 5⟩) })
theorem wit_TagWords : Fires hd.gd (prT [] 4) ∧ src64 .lit (prT [0x12340, 0] 1) = .ok 0x12340 (prT [] 1) ∧
    ReadsWide .lit .lit (prT [0x12340, 0, 0xFFC3] 1) 0x12340 0xFFC3 (prT [] 1) ∧
    ReadsWide .lit .lit (prT [0x12340, 0, 0xFFC1] 0) 0x12340 0xFFC1 (prT [] 0) := ⟨rfl, rfl, ⟨_, rfl, rfl⟩, ⟨_, rfl, rfl⟩⟩
theorem wit_TagWords_cases : (tagFind ((prT [] 1).coreD 0) 3 0x12340).isSome ∧ tagFind ((prT [] 0).coreD 0) 3 0x12340 = none ∧
    0xFFC3 / 2 ^ 19 = 0 ∧ fld 0xFFC3 5 2 = 0 ∧ 0xFFC3 % 4 ≠ 0 ∧ fld 0xFFC3 18 6 * 64 + 64 ≤ 4 * 16384 ∧
    ((prT [] 0).res? 3).map (·.sg.length) = some 4 ∧ (prT [] 0).curGrp.res = 3 ∧
    (List.range 4).find? (fun w => !((prT [] 4).coreD 0).tags.any (fun t => t.set == tagSet 0x12340 && t.way == w)) = none ∧
    (List.range 4).find? (fun w => !((prT [] 0).coreD 0).tags.any (fun t => t.set == tagSet 0x12340 && t.way == w)) = some 0 := by decide +kernel
/-- A state with n-byte values stored at addresses of glb. -/
def stored (xs : List (Nat × Nat × Nat)) (s : State) : State :=
  xs.foldl (fun s x => match storeV s.curWho x.1 x.2.1 x.2.2 s with | .ok _ t => t | _ => s) s
/-- A ring descriptor's image with V = 1: in the array's store, one slot of 64 bytes, fill and drain weight 1; a stream record's image:
loc, b32, one element. -/
def ringImg : Nat := 2 ^ 127 + 2 ^ 126 + 2 ^ 65 + 2 ^ 56
def strImg : Nat := 2 ^ 128 + 2 ^ 253 + 2 ^ 251
theorem wit_StreamSetup : Fires hd.gd pr ∧ FirstOfSet pr ∧ ReadsWide .lit .lit (lit [64, 0, 15]) 64 15 pr ∧ ReadsWide .zero .lit (lit [319]) 0 319 pr ∧
    isChard pr.curCore = true ∧ pr.cur.id.launch = some 0 ∧ ReadsWide .zero .lit (lit [767]) 0 767 pr ∧ 767 = 512 + 3 * 64 + 63 ∧
    ReadsRaw .lit .lit (lit [63, 0x118]) 63 0x118 pr ∧ 0x118 / 2 ^ 9 = 0 ∧ fld 0x118 4 0 + fld 0x118 8 5 = 32 ∧ fld 0x118 8 5 = 8 ∧
    (pr.curLaunch.map (·.ncap)) = some 32 := ⟨rfl, rfl, ⟨_, rfl, rfl⟩, ⟨_, rfl, rfl⟩, rfl, rfl, ⟨_, rfl, rfl⟩, rfl, ⟨_, rfl, rfl⟩, rfl, rfl, rfl, rfl⟩
theorem wit_StreamSetup_images : yields (readImg 64 16) (stored [(64, 16, ringImg)] pr) (fun v t => v == ringImg &&
      !(alGetD (t.quadD (coreQuad t.curCore)).rings 15 .empty).v && !ringBad t (coreQuad t.curCore) 0 (BitVec.ofNat 128 v)) &&
    yields (readImg 0 32) (stored [(0, 32, strImg)] pr) (fun v _ => srOk (BitVec.ofNat 256 v)) && srEsz (alGetD pr.curRecs 63 0) == 0 := by
  decide +kernel
/-- A ring of two slots in the probe's quad, with its first slot as given. -/
def ring (t : Slot) : Ring := { Ring.empty with v := true, nslot := 1, filln := 2, drainn := 1, slots := [(0, t)] }
def prG (l : List Word) (t : Slot) : State := (lit l).setRing 0 3 (ring t)
theorem wit_RingWords : Fires hd.gd (prG [] .empty) ∧ src32 .lit (prG [0x30000000] .empty) = .ok 0x30000000 (prG [] .empty) ∧
    FirstOfSet (prG [] .empty) ∧ (prG [] .empty).cur.id.launch = some (ring .empty).own ∧ (ring .empty).v = true ∧
    ReadsRaw .lit .lit (prG [0x30000000, 0x202] .empty) 0x30000000 0x202 (prG [] .empty) ∧
    ReadsRaw .lit .lit (prG [31, 0x1000000] .empty) 31 0x1000000 (prG [] .empty) ∧ src32 .lit (prG [31] .empty) = .ok 31 (prG [] .empty) :=
  ⟨rfl, rfl, rfl, rfl, rfl, ⟨_, rfl, rfl⟩, ⟨_, rfl, rfl⟩, rfl⟩
theorem wit_RingWords_cases : ((ring .empty).claim false).isSome ∧ ((ring .empty).claim true).isNone ∧ ((ring ⟨true, false, 0⟩).claim true).isSome ∧
    ((ring ⟨true, false, 0⟩).claim false).isNone ∧ ((ring .empty).release 0 false false 2).isSome ∧ ((ring .empty).release 0 false false 1).isSome ∧
    ((ring ⟨true, false, 0⟩).release 0 true false 1).isSome ∧ 0x202 / 2 ^ 11 = 0 ∧ fld 0x202 8 0 = 2 ∧
    fld 0x30000000 31 28 = 3 ∧ fld 0x30000000 27 16 = 0 ∧ 7 % 4 = 3 ∧
    (alGetD ((prG [] .empty).quadD 0).counts 31 .empty) = .empty ∧ (0 : Int) + 0x1000000 ≤ 2 ^ 31 - 1 := by decide +kernel
/-- The probe with a node launch under id 7, a bin of it and a list with a record on the probe's core. -/
def prN (l : List Word) : State := ({ lit l with
    launches := [(0, probeLaunch), (1, { probeLaunch with
      pkt := ((probeLaunch.pkt.set 0 (dw (2 ^ 39 + 32 * 2 ^ 32))).set 3 7).set 12 (dw (2 ^ 38)) })], nodes := [(0, 0, 1, 7)] } : State).modCore 0
  (fun c => { c with bins := [(4, ⟨.list, 0, 5, 0, false, 0, 0, [.record [9] 0]⟩), (5, ⟨.node, 1, 7, 0, false, 0, 0, [.record [9] 0]⟩)] })
theorem wit_EdgeWords : Fires hd.gd pr ∧ src64 .zero pr = .ok 0 pr ∧ ReadsRaw .lit .lit (lit [0xFFFF, 64]) 0xFFFF 64 pr ∧
    (pr.modCur (fun th => { th with id := { th.id with item := true } })).cur.id.item = true ∧ src32 .lit (prN [5]) = .ok 5 (prN []) ∧
    src32 .lit (prN [7]) = .ok 7 (prN []) ∧ (prN []).cur.id.launch = some 0 ∧ (prN []).curLaunch = some probeLaunch ∧ FirstOfSet (prN []) :=
  ⟨rfl, rfl, ⟨_, rfl, rfl⟩, rfl, rfl, rfl, rfl, rfl, rfl⟩
/-- The probe with room for one frame and one filed thread. -/
def prF : State := pr.modCtx 0 (fun c => { c with savn := 0x25000500 })
theorem wit_EdgeWords_spawn : Fires hd.gd prF ∧ yields (src64 .zero) prF (fun t u => yields (argRegs .zero 0 8) u (fun args v => yields needFrame v (fun f w =>
    match alGet w.frames f with
    | some fr =>
      let child := Thr.start ⟨w.cur.id.launch, w.cur.id.ctx, dw fr.next, w.cur.id.role, false, some f⟩ t.toNat args 0 0
      let x := (({ w with fresh := w.fresh + 1 } : State).drainCore w.curCore).modFrame f
        (fun fr => { fr with out := fr.out + 1, next := fr.next + 1 })
      let x := { x with thrs := alSet x.thrs w.fresh child }
      decide (t.toNat % 12 = 0) && decide (fr.out < 2 ^ 20) && w.partRoom fr.ctx (coreTile w.curCore) recBytes && (x.file w.curCore .spawn 0 t.toNat t.toNat (.thr w.fresh)).isSome
    | none => false))) := ⟨rfl, by decide +kernel⟩
theorem wit_EdgeWords_bins : yields (argRegs .zero 0 1) (prN []) (fun ws s =>
      let t := s.drainCore s.curCore
      (match findBin (t.coreD t.curCore) .list 0 5 with | some e => decide (e.2.ents.length < 64) | none => true) &&
      (t.file t.curCore .list 0 5 0 (.record ws 0)).isSome && (t.file t.curCore .node 1 7 0 (.record ws 0)).isSome) ∧
    nodeOf (prN []) probeLaunch 7 = some 1 ∧ ((prN []).launch? 1).map (fun k => decide (k.nrec = 1 ∧ k.nodeId = 7)) = some true ∧
    (takeRecord (prN []) 0 0 4095).isNone ∧ (takeRecord (prN []) 0 0 5).isSome ∧ (findBin ((prN []).coreD 0) .node 1 7).isSome ∧
    (findBin ((prN []).coreD 0) .node 1 6).isNone ∧ yields (translate pr.curWho .read 8) pr (fun _ _ => true) := by decide +kernel
theorem wit_MatrixWords : Fires hd.gd pr ∧ MayName pr 15 ∧ FirstOfSet pr ∧ ReadsWide .lit .lit (lit [64, 0, 4096]) 64 4096 pr ∧
    (pr.cregD 0 15).armed = false ∧ src32 .zero pr = .ok 0 pr ∧ ((pr.cregD 0 15).armseq - 0).toNat < 2 ^ 31 ∧ src32 .lit (lit [3]) = .ok 3 pr ∧
    src64 .zero pr = .ok 0 pr ∧ f64.dec (0 : DWord).toNat = .fin false 0 (-1074) :=
  ⟨rfl, ⟨by decide +kernel, .inl rfl⟩, rfl, ⟨_, rfl, rfl⟩, rfl, rfl, by decide, rfl, rfl, by decide +kernel⟩
/-- The probe with a convergence register of its launch armed for n signs. -/
def prC (n : Nat) : State := pr.modCreg 0 15 (fun _ => { Creg.empty with armed := true, own := some 0, nsig := n, armseq := 7 })
theorem wit_MatrixWords_armed : MayName (prC 1) 15 ∧ ((prC 1).cregD 0 15).armed = true ∧ ((prC 1).cregD 0 15).armseq = 7 ∧
    ((prC 1).drainCore 0).cregD 0 15 = { Creg.empty with armed := true, own := some 0, nsig := 1, armseq := 7 } ∧
    (((prC 2).drainCore 0).cregD 0 15).sigs + 1 ≠ (((prC 2).drainCore 0).cregD 0 15).nsig ∧
    (let d := (prC 1).drainCore 0
     let c := d.modCreg 0 15 (fun r => { r with sigs := r.sigs + 1 })
     (c.appendOp 0 15 0 0).2 = false ∧ (appendedTo c (c.appendOp 0 15 0 0).1).all (fun arr =>
       yields (crossBridge d.curWho arr .command (marrowAddr arr false 0)) d (fun _ _ => true)) = true) :=
  ⟨⟨by decide +kernel, .inr (.inl (by decide +kernel))⟩, by decide +kernel⟩
/-- The probe with registers n0 to n7 as given, and a word whose literals are l. -/
def prV (l ns : List Word) : State := (lit l).modThr 2 (fun th => ns.zipIdx.foldl (fun th v => th.setReg v.2 v.1) th)
theorem wit_CopyWords : Fires hd.gd pr ∧ yields (readQuad (.n 0)) (prV [] [0x1000, 0, 0x100, 0]) (fun q s0 =>
      q % 2 ^ 64 == 0x1000 && q / 2 ^ 64 % 2 ^ 32 == 0x100 && q / 2 ^ 96 == 0 && tgtOk (q / 2 ^ 96) false false false &&
      tgtOk (q / 2 ^ 96) false false true && !overlap 0 0x1000 0x100 &&
      yields (rangePlace .glb 0 0x100) s0 (fun pS s1 => yields (rangePlace .loc 0x1000 0x100) s1 (fun pD s2 => yields (countOk 0) s2 (fun _ s3 =>
        yields (queueCopy ⟨0, .cpy, s0.issuer, .glb, .loc, 0, 0x1000, 0x100, 0, 0, 0, [], false, 0⟩ pS pD) s3 (fun _ _ => true))) &&
        yields (countOk 0) s1 (fun _ s3 =>
          yields (queueCopy ⟨0, .cpyr true, s0.issuer, .glb, .glb, 0, 0x1000, 0x100, 0, 0, 0, [], false, 0⟩ pS none) s3 (fun _ _ => true)))) :=
  ⟨rfl, by decide +kernel⟩
/-- Stream records: glb, b32, 16 rows; the same with an index record 1; the index record. -/
def rowRec : BitVec 256 := BitVec.ofNat 256 (16 * 2 ^ 128 + 2 * 2 ^ 250)
def gatRec : BitVec 256 := BitVec.ofNat 256 (16 * 2 ^ 128 + 2 * 2 ^ 250 + 2 ^ 249 + 2 ^ 243)
def prW : State := (prV [] [0x1000, 0, 0x10, 0]).modRes 3 (fun r => { r with srec := [(0, rowRec), (1, rowRec), (63, gatRec)] })
theorem wit_CopyWords_rows : Fires hd.gd prW ∧ src32 .zero prW = .ok 0 prW ∧ yields (readQuad (.n 0)) prW (fun q s0 =>
      q / 2 ^ 64 % 2 ^ 32 == 0x10 && alGet s0.curRecs 0 == some rowRec && alGet s0.curRecs 63 == some gatRec && srOk rowRec && srOk gatRec &&
      srIxr gatRec == 1 && srIx gatRec && !srIx rowRec && srEsz rowRec == 2 && decide (0x10 % 2 ^ srEsz rowRec = 0) &&
      decide (srCount rowRec * 0x10 ≤ 2 ^ 24) &&
      yields (rangePlace .loc 0x1000 0x100) s0 (fun pD s1 => yields (countOk 0) s1 (fun _ s2 =>
        yields (queueCopy ⟨0, .cpys, s0.issuer, .glb, .loc, 0, 0x1000, 0x10, rowRec, 0, 0, [], false, 0⟩ none pD) s2 (fun _ _ => true) &&
        yields (queueCopy ⟨0, .gath, s0.issuer, .glb, .loc, 0, 0x1000, 0x10, gatRec, rowRec, 0, [], false, 0⟩ none pD) s2 (fun _ _ => true)))) :=
  ⟨rfl, rfl, by decide +kernel⟩
theorem wit_RenderWords : Fires hd.gd pr ∧ Reads64 .lit .lit (lit [0x3F800000, 0x7F800000, 0, 1]) 0x7F8000003F800000 0x100000000 pr ∧
    ReadsWide .lit .lit (lit [128, 0, 1]) 128 1 pr ∧ ReadsWide .lit .lit (lit [64, 0, 0x7C]) 64 0x7C pr ∧ 0x7C / 8 = 15 ∧ 0x7C % 8 = 4 ∧
    drawSR .rne pr = .ok 0 pr ∧ src32 .lit (lit [64]) = .ok 64 pr ∧ src64 .lit (lit [0x3F800000, 1]) = .ok 0x13F800000 pr ∧
    FirstOfSet pr ∧ pr.curRun.isSome = true := ⟨rfl, ⟨_, rfl, rfl⟩, ⟨_, rfl, rfl⟩, ⟨_, rfl, rfl⟩, rfl, rfl, rfl, rfl, rfl, rfl, rfl⟩
/-- The probe with a ray record at 64: direction (1, 0, 0), TMAX 1, an empty tree, a spill area at 256. -/
def prRay : State := stored [] (match spaceStore .loc 64 16 (0x3F800000 * 2 ^ 96) pr with
  | .ok _ s => (match spaceStore .loc 88 8 (0x3F800000 * 2 ^ 32) s with
    | .ok _ s => (match spaceStore .loc 108 4 256 s with | .ok _ s => s | _ => pr)
    | _ => pr)
  | _ => pr)
theorem wit_RenderWords_rays : yields (rayPlace 64) prRay (fun p v => yields (rayRecord 64 p) v (fun r w =>
      recOk r (4 * 16384) (spillOf v) && !w.isFrozen (travMid 0) && decide (v.arrivals.length < 512) &&
      yields (rayGo r v.curGrp.res (spillOf v) v.cur.id.ctx none) w (fun _ _ => true) &&
      yields (rayGo r v.curGrp.res (spillOf v) v.cur.id.ctx (some (0x3F800000, true))) w (fun _ _ => true))) := by decide +kernel
theorem wit_RenderWords_rast : Fires hd.gd (pr.noted 0 [⟨5, .full⟩]) ∧
    (pr.noted 0 [⟨5, .full⟩]).curRun.bind (fun r => alGet r.once (pr.noted 0 [⟨5, .full⟩]).iss.word) = some (.done [⟨5, .full⟩]) ∧
    (pr.noted 0 [⟨5, .full⟩]).iss.stalled = false := ⟨rfl, rfl, rfl⟩
/-- A descriptor of one texel of four bytes at 256, and the probe with it at 32. -/
def texImg : Nat := 0x03 * 2 ^ 56 + 1 * 2 ^ 8 + 2 ^ 160
def prX (ns : List Word) : State := stored [(32, 32, texImg)] (prV [] ns)
theorem wit_TextureWords : Fires hd.gd (prX []) ∧ src64 .lit (lit [32, 0]) = .ok 32 pr ∧ src32 .zero pr = .ok 0 pr :=
  ⟨by unfold Fires; decide +kernel, rfl, rfl⟩
theorem wit_TextureWords_units : (!(prX []).isFrozen (texMid 0)) && yields (readQuad (.n 0)) (prX []) (fun q u => yields (texDesc 32) u (fun d v =>
      yields (texSample d (grpReg q 0) (grpReg q 1) (grpReg q 2) (f32.dec (grpReg q 3))) v (fun _ _ => true) &&
      yields (imgTexel d q .b32 false) v (fun x z => yields (texelAt d x.2.2.1 x.2.2.2 x.1 x.2.1) z (fun _ _ => true)) && decide (0 ≤ d.vm1))) &&
    yields (readOctet (.n 0)) (prX []) (fun q u => yields (texDesc 32) u (fun d v =>
      yields (texSample d (grpReg q 0) (grpReg q 1) (grpReg q 2)
        (texLambda ((List.range 4).map (fun i => grpReg q (4 + i))) d.width d.height)) v (fun _ _ => true) &&
      yields (imgTexel d q .b32 true) v (fun x z =>
        yields (storeV z.curWho (d.blockAt x.2.2.1 x.2.2.2 x.1 x.2.1) 4 0) z (fun _ _ => true)))) := by decide +kernel
/-- The probe's word on a control core whose context is LIVE, and on Root. -/
def prK (l : List Word) (core : Nat) : State := { lit l with
  mem := { (lit l).mem with tlb := ⟨16, 0, 0, 42, 0x3F⟩ :: (lit l).mem.tlb }
  iss := { (lit l).iss with lane := coreLane core 0 }, grps := (lit l).grps.map (fun g => (g.1, { g.2 with lane := coreLane core 0 })) }
theorem wit_SystemWords : Fires hd.gd pr ∧ isRoot pr.curCore = false ∧ isChard pr.curCore = true ∧ pr.cur.frame = none ∧ isCtl (prK [] 543).curCore = true ∧
    isRoot (prK [] 559).curCore = true ∧ src32 .zero pr = .ok 0 pr ∧ src64 .zero pr = .ok 0 pr ∧ (0 : DWord).toNat % 16 = 0 ∧
    pr.cur.stkl.toNat ≤ (0 : DWord).toNat ∧ (0 : DWord).toNat ≤ pr.cur.stkb.toNat ∧ isChard (prK [] 512).curCore = false ∧
    src32 .lit (lit [1]) = .ok 1 pr := by
  refine ⟨rfl, ?_, ?_, rfl, ?_, ?_, rfl, rfl, rfl, ?_, ?_, ?_, rfl⟩ <;> decide +kernel
theorem wit_ControlWords : isCtl (prK [] 512).curCore = true ∧ src32 .lit (lit [63]) = .ok 63 pr ∧ ReadsWide .zero .lit (lit [63]) 0 63 pr ∧
    ReadsWide .lit .lit (lit [64, 0, 2047]) 64 2047 pr ∧ ReadsRaw .lit .lit (lit [0xFFFF, 0x1FFFF]) 0xFFFF 0x1FFFF pr ∧
    isCtl pr.curCore = false ∧ pr.iss.chained = false :=
  ⟨by decide +kernel, rfl, ⟨_, rfl, rfl⟩, ⟨_, rfl, rfl⟩, ⟨_, rfl, rfl⟩, by decide +kernel, rfl⟩
theorem wit_ControlWords_acts : Fires hd.gd (prK [63] 512) ∧ yields (src32 .lit) (prK [63] 512) (fun c _ => c == 63) &&
    yields (loadV (prK [] 512).curWho .read 64 64) (prK [] 512) (fun v _ => !v.2) && !(prK [] 512).isFrozen 0xFFFF &&
    ({ prK [] 512 with sys := { (prK [] 512).sys with frozen := [(0xFFFF, true)], heldSeq := [(0xFFFF, 0xFFFF)] } } : State).isFrozen 0xFFFF := by
  refine ⟨by unfold Fires; decide +kernel, by decide +kernel⟩
/-- The probe with two entries in its queue. -/
def prQ : State := pr.modCur (fun th => (th.push ⟨1, .full⟩).push ⟨2, .poison⟩)
theorem wit_SlotWords : Fires al prQ ∧ prQ.cur.link = none ∧ prQ.cur.rt.q[1]? = some ⟨1, .full⟩ ∧ prQ.cur.rt.q[0]? = some ⟨2, .poison⟩ ∧
    (prQ.thr? prQ.iss.thr).isSome := ⟨rfl, rfl, rfl, rfl, rfl⟩
/-- A stack of 64 bytes below 1,024 with a link record at its top, a thread in its handler, and a frame packet of 16 bytes at 24. -/
def prS (sp : DWord) : State := stored [(24, 4, 16), (1008, 8, 12), (1016, 8, 16)]
  (pr.modThr 2 (fun th => { th with sp := sp, stkb := 1024, stkl := 960, inTrap := true }))
theorem wit_RunEnds : Fires al pr ∧ ¬ Fires ⟨true, 7⟩ pr ∧ pr.iss.chained = false ∧ pr.iss.stalled = false ∧ noLink pr = .ok () pr ∧
    (pr.cur.pc + pr.iss.word / 3 * 12 : Int) + 12 * (0x1FFFF : BitVec 18).toInt = 1572852 ∧ src64 .lit (lit [12, 0]) = .ok 12 pr ∧
    src32 .zero pr = .ok 0 pr := ⟨rfl, by unfold Fires; decide +kernel, rfl, rfl, rfl, by decide +kernel, rfl, rfl⟩
theorem wit_RunEnds_stack : yields (frameSize 24) (prS 976) (fun fsz v =>
      let th := v.cur.atK
      fsz == 16 && decide (th.stkl.toNat + fsz ≤ th.sp.toNat) && yields (stkStore th (th.sp.toNat - fsz) v.afterRun) v (fun _ w =>
        yields (stkStore th (th.sp.toNat - fsz + 8) fsz) w (fun _ _ => true))) &&
    (let th := (prS 1008).cur.atK
     decide (th.sp.toNat + 16 ≤ th.stkb.toNat) && yields (stkLoad th th.sp.toNat) (prS 1008) (fun ra u =>
       yields (stkLoad th (th.sp.toNat + 8)) u (fun fsz _ => decide (th.sp.toNat + fsz ≤ th.stkb.toNat) && fsz % 16 == 0 && ra == 12))) &&
    (prS 1008).cur.inTrap && (List.range 2).all (fun i => let c := (prS 1008).cur.reg i; c.pend.isNone && !c.uncorr && !c.poison) &&
    yields (iretRead (pair ((prS 1008).cur.val 0) ((prS 1008).cur.val 1)).toNat) (prS 1008) (fun _ _ => true) := by decide +kernel
theorem wit_PowerEvents : 16 ∈ allDies ∧ 400 % 25 = 0 ∧ 400 ≤ clockLimit Pkg.reset 16 ∧ clockLimit Pkg.reset 16 = 2000 ∧
    400 < alGetD Pkg.reset.ceiling 15 3000 ∧ 2975 < alGetD Pkg.reset.ceiling 15 3000 ∧
    (let p : Pkg := { Pkg.reset with ceiling := (List.range 8).map (fun t => (8 + t, 2975)) }
     (∀ t < 8, alGetD p.ceiling (8 + t) 3000 < 3000) ∧ 400 < alGetD p.ceiling 7 3000) ∧
    0 ∉ Pkg.reset.throttled ∧ 0 ∈ allDies ∧ State.reset.agenda = [] := by decide +kernel
/-- A boot that stands at a stage. -/
def bootAt (n : Nat) : State := { State.reset with
  pkg := { Pkg.reset with boot := some ⟨true, none, true, List.replicate 16 48, none⟩ }, sys := { State.reset.sys with bootStage := BitVec.ofNat 8 n } }
theorem wit_PowerEvents_boot : ∀ n ∈ [1, 8], (bootAt n).pkg.boot = some ⟨true, none, true, List.replicate 16 48, none⟩ ∧
    (bootAt n).sys.bootStage.toNat < 9 := by decide +kernel
theorem wit_ErrorEvents : (∀ u ∈ [HwUnit.core 7 63, .slice 7 31, .array 7 15, .stack 15], unitOk u = true) ∧ (∀ x ∈ [(0, 0), (24, 0)], unitOk (.linkModule x.1 x.2) = true) ∧ 0 ∉ Pkg.reset.fenced ∧
    linkMin 0 ≤ linkLive Pkg.reset 0 ∧ linkLive { Pkg.reset with modules := [(0, List.range 64)] } 0 < linkMin 0 ∧
    1000 ≤ ((List.replicate 999 (0 : DWord) ++ [5]).filter (fun t => decide (t + 1000000 > 5))).length ∧ alGet State.reset.mem.flaws (directPa 15 0) = none ∧
    inCapacity State.reset.mem (directPa 15 0) = true ∧ inCapacity State.reset.mem (directPa 0 (805306367 * 64)) = true ∧ 805306367 * 64 < 2 ^ 36 ∧
    8 * 524287 < 2 ^ 22 ∧ 4 * 1048575 < 2 ^ 22 ∧ (∀ c ∈ State.reset.ctxs, c.2.st = .drained) := by decide +kernel
theorem wit_ErrorEvents_harvest :
    ({ State.reset with sys := { State.reset.sys with allDrain := true }, ctxs := [(1, { Ctx.empty with st := .drained })] } : State).sys.allDrain = true ∧
    ∀ c ∈ [(1, { Ctx.empty with st := CtxSt.drained })], c.2.st = .drained := by decide +kernel
/-- A request slot: command, size, address, master, sub-command, mask, operand. -/
def req (cmd size addr mid sub mask opnd : Nat) : Line :=
  BitVec.ofNat 512 (cmd * 2 ^ 58 + size * 2 ^ 46 + addr + mid * 2 ^ 112 + sub * 2 ^ 104 + mask * 2 ^ 128 + opnd * 2 ^ 256)
theorem wit_StackRequests :
    tagFree State.reset 15 (req 1 1 0 0 0 0 0) = true ∧ 32 + 15 ∉ State.reset.pkg.fenced ∧
    (let h := req 1 1 (2 ^ 30 * 48 - 128) 0 0 0 0
     let a := directPa 15 (2 ^ 30 * 48 - 64)
     hCmd h = 1 ∧ headOk h false false false = true ∧ sizeAligned h = true ∧ reqInside State.reset 15 h (hBytes h) = true ∧ a ∈ reqLines 15 h ∧
       State.reset.mem.poison = [] ∧ State.reset.mem.flaws = [] ∧ (let m := { Memory.reset with poison := [a] }; a ∈ m.poison ∧ a ∉ m.l2p ∧ m.flaws = [])) ∧
    (let h := req 2 0 64 0 0 0 0
     hCmd h = 2 ∧ headOk h false false false = true ∧ sizeAligned h = true ∧ hSize h + 1 = 1 ∧ reqInside State.reset 0 h (hBytes h) = true) ∧
    (let h := req 3 1 128 0 0 (2 ^ 128 - 1) 0
     hCmd h = 3 ∧ headOk h false true false = true ∧ sizeAligned h = true ∧ hSize h + 1 = 2 ∧ reqInside State.reset 0 h (hBytes h) = true) ∧
    (∀ sub ∈ [0, 10, 17], let h := req 8 0 64 0 sub 0 (if sub = 0 then 2 ^ 64 - 1 else 2 ^ 128 - 1)
     hCmd h = 8 ∧ headOk h true false true = true ∧ hSize h = 0 ∧ hSub h ≤ 17 ∧ atomZero h = true ∧ hAddr h % atomBytes (hSub h) = 0 ∧
       reqInside State.reset 0 h (atomBytes (hSub h)) = true ∧ lineOf (directPa 0 (hAddr h)) ∉ State.reset.mem.poison) := by decide +kernel
theorem wit_StackRequests_root :
    (let h := req 17 0 (63 * 64) 0x4100 0 0 0
     hCmd h = 17 ∧ headOk h false false false = true ∧ hSize h = 0 ∧ hAddr h % 64 = 0 ∧ reqInside State.reset 15 h 1 = true ∧ isCtlMid (hMid h) = true ∧
       (alGetD (State.reset.table ((32 + 15) * 1024)) 63 0).getLsbD 6 = false) ∧
    (∀ c ∈ [24, 26], let h := req c 0 0 0 0 0 0
     hCmd h = c ∧ headOk h false false false = true ∧ hSize h = 0 ∧ hAddr h = 0) ∧
    (∀ x ∈ [(1, 262144), (1, 0), (2, 262140), (3, 0), (4, 0)], let h := req 16 0 64 0x4100 x.1 0 x.2
     hCmd h = 16 ∧ rootOk h [] = true ∧ isCtlMid (hMid h) = true ∧ reqInside pr 15 h 1 = true ∧ hSub h = x.1 ∧ (pr.stackD 15).root ≠ .running ∧
       accCheck (pr.table (endpointOf (directPa 15 (hAddr h)))) (hMid h) .command (directPa 15 (hAddr h)) = none ∧
       (x.1 = 1 → hOpnd h % 2 ^ 32 % 64 = 0 ∧ hOpnd h % 2 ^ 32 ≤ 262144 ∧ reqInside pr 15 h (hOpnd h % 2 ^ 32) = true) ∧
       (x.1 = 2 → hOpnd h % 2 ^ 18 % 12 = 0)) := by decide +kernel
/-- A stack whose Root runs its thread, with a response on its way. -/
def prRt (busy : Bool) : State := { prK [] 544 with
  stks := [(0, { Stack.empty with root := .running, resps := [(5, [0])] })], lanes := [(16416, { Lane.empty with
    slots := [(0, 2)], run := if busy then some ⟨1, 0, [0], 0, [0], [0], [], [], [], none, [], [], [], false⟩ else none })] }
theorem wit_StackRequests_running : ((prRt true).stackD 0).root = .running ∧ (rootThread (prRt true) 0).map (·.1) = some 2 ∧
    ((prRt true).laneD (coreLane 544 0)).run.isSome = true ∧ ((prRt false).laneD (coreLane 544 0)).run = none ∧
    (rootThread (prRt false) 0).map (·.1) = some 2 ∧
    ((prRt true).stackD 0).resps.find? (fun r => r.1 == 5) = some (5, [0]) := by decide +kernel
/-- The probe after the boot. -/
def prB : State := { pr with sys := { pr.sys with bootStage := 0x0F } }
theorem wit_PortEvents : Answers prB ∧ booted pr = false ∧ pr.isFrozen (pcieMid 15) = false ∧ 2 ^ 49 + 64 ≤ 2 ^ 50 ∧ 0 ∉ spdmCodes ∧
    recType [1, 0] = 1 ∧ recType [2, 0] = 2 ∧ yields (writeLines ⟨pcieMid 15, 16, 0, none, false, some 0⟩ (2 ^ 49) 3 64 7) pr (fun _ _ => true) ∧
    yields (readLines ⟨pcieMid 15, 16, 0, none, false, some 0⟩ .read (2 ^ 49) 3 64) pr (fun _ _ => true) := by
  refine ⟨⟨by decide +kernel, by decide +kernel⟩, by decide +kernel, by decide +kernel, by decide, by decide +kernel, by decide +kernel, ?_, ?_⟩ <;>
    decide +kernel
/-- The probe with its context in a state, and a queue. -/
def prCx (st : CtxSt) (q : Queue) : State := { (pr.modCtx 0 (fun c => { c with st := st, queues := [(63, q)] })) with launches := [] }
theorem wit_ControlSpace : CmdOk (prCx .live .empty) 0x4100 0 ∧ CmdOk (prCx .drained .empty) 0x411F 63 ∧ pr.sys.busy = 0 ∧ ((prCx .live .empty).ctxD 0).st = .live ∧
    (∀ l ∈ (prCx .live .empty).launches, l.2.ctx = 0 → l.2.phase ≠ .admitted) ∧ ((prCx .drained .empty).ctxD 0).st = .drained ∧
    CtlOk (prCx .live .empty) 0x41C0 (queueOff 0 63 8) ∧ CtlOk (prCx .live .empty) 0 (queueOff 0 63 16) ∧ CtlOk pr 0x4100 0x2010 := by
  refine ⟨⟨⟨?_, ?_⟩, ?_, ?_, ?_⟩, ⟨⟨?_, ?_⟩, ?_, ?_, ?_⟩, ?_, ?_, ?_, ?_, ⟨?_, ?_⟩, ⟨?_, ?_⟩, ⟨?_, ?_⟩⟩ <;> decide +kernel
theorem wit_ControlSpace_refusals : accCheck (State.reset.table 1024) 0 .write 64 = some (1, 255) ∧ isCtlMid 0x0 = false ∧ isCtlMid 0x4100 = true ∧
    63 < tableSize (8 * 1024) ∧ (alGetD (State.reset.table (8 * 1024)) 63 0).getLsbD 6 = false ∧
    (alGetD ({ State.reset with mem := { State.reset.mem with acc := [(8, [(63, 64)])] } : State }.table (8 * 1024)) 63 0).getLsbD 6 = true ∧
    feMid < 2 ^ 16 ∧ isCtlMid feMid = false := by decide +kernel
/-- A state in which the front end reaches every page of context 0. -/
def fe (s : State) : State := { s with mem := { s.mem with tlb := ⟨16, 0, 0, 42, 0x3F⟩ :: s.mem.tlb } }
/-- The probe with a queue whose slot 0 is ready, at base va. -/
def prD (va : Nat) : State := fe (prCx .live { Queue.empty with base := va, en := true, logsz := 1, ready := [0] })
theorem wit_LaunchReads : (∀ va ∈ [0, 2 ^ 43], let x := (prD va).queueD 0 63
     ((prD va).ctxD 0).st ≠ .free ∧ x.en = true ∧ x.stall = false ∧ x.head ∈ x.ready ∧ (prD va).launches.length < 4096) ∧
    gives (feRead (feWho 0) 0 3 128 (prD 0)) (fun _ _ => true) ∧ fails (feRead (feWho 0) (2 ^ 43) 3 128 (prD (2 ^ 43))) := by decide +kernel
/-- An accepted launch with a first dependence, tables to read, and a deadline of 5 in a dropping queue; the probe with it as launch 1. -/
def accL (d : Dep) : Launch := { probeLaunch with
  pkt := (probeLaunch.pkt.set 15 (dw (2 ^ 61))).set 8 5, drop := true, phase := .accepted, deps := [d, .none], count := none, uni := none
  dflt := none, roles := none }
def prA (l : Launch) (now : DWord) : State := fe { pr with
  pkg := { pr.pkg with qclk := now }, launches := pr.launches ++ [(1, l)], ctxs := pr.ctxs.map (fun c => (c.1, { c.2 with devs := [[0]] })) }
theorem wit_LaunchReads_tables : (prA (accL .toRead) 5).launch? 1 = some (accL .toRead) ∧
    (accL .toRead).phase = .accepted ∧ (accL .toRead).deps.getD 0 .none = .toRead ∧
    (accL .none).readsDue 5 = true ∧ (accL .none).count = none ∧ (accL .none).dflt = none ∧ (accL .none).uni = none ∧ (accL .none).roles = none ∧
    (accL .none).missed 6 = true ∧ gives (feRead (feWho 0) 0 2 8 (prA (accL .toRead) 5)) (fun _ _ => true) := by decide +kernel
/-- An accepted launch of two groups with its tables read; the same admitted, with groups to place from j on. -/
def rdyL : Launch := { probeLaunch with pkt := probeLaunch.pkt.set 3 33, phase := .accepted, count := some 33, nextGrp := 0 }
def admL (j : Nat) : Launch := { rdyL with phase := .admitted, nextGrp := j }
theorem wit_LaunchLife : (prA rdyL 0).launch? 1 = some rdyL ∧ eligible (prA rdyL 0) rdyL = true ∧ earlierEligible (prA rdyL 0) rdyL = [] ∧
    deviceTiles (prA rdyL 0) rdyL = [0] ∧ admitFits (prA rdyL 0) 1 rdyL = true ∧ rdyL.typ ≠ 2 ∧
    ((prA rdyL 0).launches.filter (fun x => x.2.ctx == 0 && x.2.dev == 0 && x.2.phase == .admitted)).length < 256 ∧
    (let s := { prA rdyL 0 with ctxs := (prA rdyL 0).ctxs.map (fun c => (c.1, { c.2 with devs := [[]] })) }
     eligible s rdyL = true ∧ earlierEligible s rdyL = [] ∧ deviceTiles s rdyL = []) ∧
    (let l : Launch := { rdyL with pkt := rdyL.pkt.set 0 (dw (32 * 2 ^ 32 + 63 * 2 ^ 26 + 4 * 2 ^ 20 + 1)) }
     eligible (prA l 0) l = true ∧ admitFits (prA l 0) 1 l = false) := by decide +kernel
theorem wit_LaunchLife_ends : (admL 2).phase = .admitted ∧ (admL 2).ngroups ≤ (admL 2).nextGrp ∧ (admL 2).trigd = false ∧
    (∀ t ∈ (prA (admL 2) 0).thrs, t.2.id.launch ≠ some 1) ∧ (admL 2).typ ≠ 2 ∧ probeLaunch.ngroups ≤ probeLaunch.nextGrp ∧
    (let s := (pr.modThr 2 (fun th => { th with trig := true })).modLaunch 0 (fun l => { l with trigs := true })
     (s.launch? 0).any (·.trigs) ∧ startedOf s 0 ≠ [] ∧ (∀ th ∈ startedOf s 0, th.trig = true) ∧
       ∀ c ∈ s.coresOf 0, s.isFrozen (coreMid c) = false) ∧
    Dep.failed ∈ (accL .failed).deps ∧ (accL .failed).phase = .accepted ∧
    (let l : Launch := { rdyL with count := some 0 }
     l.depsDone = true ∧ l.count = some 0 ∧ l.typ ≠ 2 ∧ l.missed 0 = false ∧ l.phase = .accepted) := by decide +kernel
theorem wit_LaunchLife_nodes : (let s := { prN [] with thrs := [], cores := [] }
    quiescent s 0 0 = true ∧ s.launches.filter (fun x => x.2.ctx == 0 && x.2.dev == 0 && x.2.typ == 2 && x.2.phase == .admitted) ≠ []) := by
  decide +kernel
theorem wit_Placement : (∀ j ∈ [0, 1], let s := prA (admL j) 0
    s.launch? 1 = some (admL j) ∧ (admL j).phase = .admitted ∧ (admL j).typ ≠ 2 ∧ (admL j).nextGrp < (admL j).ngroups ∧
    oldestSaved s 1 (admL j) = false ∧ (placeSpot s 1 (admL j) ((admL j).groupSize j)).any (fun x => fwdFits s (admL j) x.1) = true ∧
    (s.makeThreads (admL j) (groupThreads 1 (admL j) j)).isSome) := by decide +kernel
/-- The admitted launch, all its groups of role 0 placed and one still running, with a second role of one group. -/
def rolL : Launch := { probeLaunch with pkt := probeLaunch.pkt.set 15 (dw (2 ^ 62)), roles := some [(0, 0), (dw (2 ^ 48), dw (2 ^ 60))] }
theorem wit_Placement_roles : (let s := { pr with launches := [(0, rolL)], quads := [(0, { Quad.empty with roleExtra := [(1, 1)] })] }
    s.launch? 0 = some rolL ∧ rolL.phase = .admitted ∧ oldestSaved s 0 rolL = false ∧ rolL.nrole ≠ 0 ∧ roleZero s 0 rolL = true ∧
    roleShort s 0 rolL = some (0, 1)) := by decide +kernel
/-- The probe's launch with a later deadline, held for 50 µs, and a blocked launch of an earlier one. -/
def prP : State := { prA { rdyL with pkt := (rdyL.pkt.set 0 (dw (32 * 2 ^ 32 + 63 * 2 ^ 26 + 1))).set 8 1, blocked := some 40000 } 50000 with
  ress := [(3, probeRes)] }
theorem wit_Scheduling_preempt : (prP.launch? 1).any (fun l => l.blocked == some 40000 && decide (40000 + 10000 ≤ prP.qclk) && l.deadline != 0 &&
      eligible prP l && prP.launches.all (fun x => !x.2.blocked.isSome || !keyLt x.2.key l.key)) := by
  decide +kernel
/-- The probe whose residency is to be saved, with a room of one line, where its context has a partition or none. -/
def prRm (whole : Bool) : State := (pr.modRes 3 (fun r => { r with saving := true })).modCtx 0 (fun c => { c with
  room := [(3, ⟨[(0, 64)], false, 0⟩)], desc := if whole then c.desc.set 1 (dw (2 ^ 29)) else c.desc })
theorem wit_Scheduling_saves : (∀ whole : Bool, let s := prRm whole
     (s.res? 3).any (fun r => (s.launch? r.launch).any (fun l => r.saving && !r.saved && saveReady s 3 r.core &&
       (s.coreD r.core).dbl.isEmpty && !s.isFrozen (coreMid r.core) && (let u := s.takeRoom 3 r l
         u.absorbs r.ctx (coreTile r.core) 3 == whole &&
           (u.spill (recWho s r.core r.ctx) r.ctx (coreTile r.core) 3 (u.held r.ctx (coreTile r.core) 3).length).2.isNone))) = true) ∧
    (let s := pr.modCtx 0 (fun c => { c with room := [(3, ⟨[(0, 64)], true, 0⟩)] })
     (alGet (s.ctxD 0).room 3).any (fun m => m.out && (readArena (recWho s 0 0) (m.lines (s.ctxD 0).sava) s).2.isNone)) = true ∧
    (let s := { pr with ress := [(3, { probeRes with saved := true })], grps := [], lanes := [], cores := [] }
     (s.res? 3).any (fun r => (s.launch? r.launch).any (fun l => restoreFits s r l && !workAhead s l r.core && !s.isFrozen (coreMid r.core) && (s.ctxD r.ctx).room.isEmpty &&
       (List.range Config.lanesPerCore).all (fun k => laneTakes s 3 l r.core (coreLane r.core k)) &&
       decide (l.grans + reserved s l r.core r.core ≤ (s.coreD r.core).freeGrans.length)))) := by decide +kernel
/-- The probe's core with one bin of its launch, at a time. -/
def prBin (k : BinKind) (sealed : Bool) (tSeal now : Nat) : State := { pr with
  pkg := { pr.pkg with cyc := [(0, dw now)] }
  cores := [(0, { Core.empty with bins := [(5, ⟨k, 0, 0, 0, sealed, 0, tSeal, [.record [1] 0]⟩)] })]
  launches := [(0, { probeLaunch with pkt := probeLaunch.pkt.set 12 (dw (2 ^ 42)) })] }
theorem wit_Scheduling_roles : (let s := { pr with pkg := { pr.pkg with cyc := [(0, 4096)] }, launches := [(0, rolL)] }
    (s.quadD 0).lastEval + 4096 ≤ s.cyc (0 / 16) ∧ (0, rolL) ∈ s.launches ∧ rolL.nrole ≠ 0 ∧ rolL.phase = .admitted ∧
    (3, probeRes) ∈ s.ress ∧ probeRes.launch = 0 ∧ coreQuad probeRes.core = 0) := by decide +kernel
/-- The probe with no run on its lane. -/
def prE : State := pr.modLane 0 (fun l => { l with run := none })
theorem wit_LaneEvents_start : (prE.laneD 0).run = none ∧ (prE.laneD 0).active ≠ [] ∧ coreRuns prE (laneCore 0) = true ∧
    prE.laneFiling 0 = false ∧ (let u := (prE.atBound 0).markReady 0
     chooseGroup u 0 = some 1 ∧ (u.grp? 1).any (fun gr => gr.srun.isNone && (chooseSet { gr with rejoin := popRej u gr gr.rejoin } (setsOf u (readyOf u 0 1))).isSome)) ∧
    (let s := prE.modGrp 1 (fun g => { g with srun := (pr.laneD 0).run })
     let u := (s.atBound 0).markReady 0
     chooseGroup u 0 = some 1 ∧ (u.grp? 1).any (fun gr => gr.srun.isSome)) := by decide +kernel
theorem wit_LaneEvents_end : (let s := pr.modRun (fun r => { r with words := [0x60F40000], todo := [] })
    (s.laneD 0).run.any (fun r => r.todo == [] && r.posts == [] && slotHasK r.slot)) := by decide +kernel
/-- Eight active groups without threads and a waiting one with the probe's thread, at cycle 8,192. -/
def prL : State := { prE with
  pkg := { prE.pkg with cyc := [(0, 8192)] }
  grps := prE.grps.flatMap (fun g => (List.range 9).map (fun i => (i + 1, { g.2 with mem := if i = 8 then [(0, 2)] else [], readySince := some 0 })))
  thrs := prE.thrs.map (fun t => (t.1, { t.2 with loc := .grp 9 0 }))
  lanes := [(0, { Lane.empty with active := List.range' 1 8, waiting := [9] })] }
theorem wit_LaneEvents_displace : (prL.laneD 0).run = none ∧ coreStalled prL 0 = false ∧ Config.activePerLane ≤ (prL.laneD 0).active.length ∧
    (let u := prL.markReady 0
     leastBy (fun g => match u.grp? g with | some gr => gr.readySince.getD 0 | none => 0) ((prL.laneD 0).waiting.filter (placeDue u 0)) = some 9 ∧
     oldestActive u 0 = some 1) := by decide +kernel
theorem wit_LaneEvents_arrivals : ∀ k ∈ [0, 1, 2], let a : Arrival := ⟨9, 2, 0, 0, 0, k, [7], false, []⟩
    ({ pr with arrivals := [a] } : State).arrivals.filter (fun b => b.id == a.id) = [a] := by decide +kernel
/-- The probe with a mapping of two registers, the second to be filled next from record 0. -/
def prM : State := (pr.modThr 2 (fun th => { th with link := some ⟨30, 2, 0, 1, 0, none⟩ })).modRes 3 (fun r => { r with
  srec := [(0, BitVec.ofNat 256 strImg)] })
theorem wit_LaneEvents_link : (prM.thr? 2).any (fun th => th.loc == .grp 1 0 && (th.link.any (fun m => m.held.isNone && m.count != 0)) &&
      !(th.reg 31).full) ∧ prM.isFrozen (coreMid 0) = false ∧
    (prM.res? (prM.seatOf 2).2.1.res).any (fun r => !r.saved && srEsz (alGetD r.srec 0 0) != 3 &&
      yields (streamElem r.srec (alGetD r.srec 0 0) 0 0) { prM with iss := issueFor 0 1 0 2 } (fun _ _ => true)) := by decide +kernel
theorem wit_LaneEvents_barriers : (∀ x ∈ [(1, 0, [], false), (5, 0, [], false), (6, 2, [], false), (6, 1, [], true), (6, 64, List.range 63, true)],
     let b : Bar := ⟨0, x.1, 0, [], [2], 7, x.2.1, x.2.2.1, x.2.2.2⟩
     b.left = [] ∧ b.launch ≠ podEarly ∧ alGet ({ pr with bars := [(5, b)] } : State).bars 5 = some b) ∧
    pr.launch? 0 = some probeLaunch ∧ probeLaunch.ctx = 0 ∧
    (let s := { pr with pkg := { pr.pkg with cyc := [(0, 100)] } }.modThr 2 (fun th => { th with waits := [⟨0, 0, 0, .sleep 100 (some 100)⟩] })
     (s.thr? 2).map (·.waits) = some [⟨0, 0, 0, .sleep 100 (some 100)⟩] ∧ s.frozenThr 2 = false ∧ 100 ≤ laneNow s (s.laneOf 2)) := by decide +kernel
theorem wit_LaneEvents_reports : (let b : Bar := ⟨0, 6, 0, [3], [2], 7, 2, [], false⟩
    let s : State := { pr with bars := [(5, b)] }
    s.isFrozen (podMid 8) = false ∧ (5, b) ∈ s.bars ∧ b.lvl = 6 ∧ b.launch ≠ podEarly ∧ ∀ c ∈ s.bars, c = (5, b)) := by decide +kernel
theorem wit_Scheduling_bins : (let s := prBin .reform false 0 16384
     (alGet (s.coreD 0).bins 5).any (fun b => flushDue s 0 b && (s.coreD 0).bins.all (fun x => !flushDue s 0 x.2 || !flushLt x.2 b))) ∧
    (let s := prBin .node false 0 1024
     (alGet (s.coreD 0).bins 5).any (fun b => b.kind == .node && !b.sealed && !b.ents.isEmpty &&
       (s.launch? 0).any (fun l => l.ntimer != 0 && decide (b.tOpen + l.ntimer * 1024 ≤ s.cyc (coreDie 0))))) ∧
    (let s := { prBin .spawn true 0 4096 with grps := [] }
     (alGet (s.coreD 0).bins 5).any (fun b => b.sealed && !s.isFrozen (coreMid 0) && !binHeld s 0 b && !b.ents.isEmpty && decide (b.tSeal + 4096 ≤ s.cyc (coreDie 0)) &&
       (s.launch? 0).any (fun l => (coreSpot s 0 l 1 0).isSome && !oldestSaved s 0 l))) := by decide +kernel
/-- A copy of 64 bytes from glb 0 to glb 4,096 at the probe's quad, started; the same to a remote window, or from no address. -/
def cpOp (k : CopyKind) (src dst : Nat) (pos : Nat) : CopyOp := {
  id := 9, kind := k, by_ := ⟨0, 0, 0, 0, 0, 0, 0, 0, 0, 0, 0, 0, 0, 0, 0, 3⟩, sSp := .glb, dSp := .glb, src := src, dst := dst, len := 64
  record := 0, ixRec := 0, tgt := 0, score := [], started := true, pos := pos }
def prCp (o : CopyOp) : State := (pr.modCtx 0 (fun c => { c with windows := [⟨2 ^ 40, 4096, 1, 0⟩] })).modQuad 0 (fun q => { q with copyq := [o] })
def outOf (r : State × CopyOut) : Nat := match r.2 with | .done => 0 | .sent => 1 | .failed _ => 2 | .denied => 3
theorem wit_EngineEvents_copies : (∀ x ∈ [(cpOp .cpy 0 4096 0, 0), (cpOp (.cpyr false) 0 (2 ^ 40) 0, 1), (cpOp (.cpyr false) 0 (2 ^ 41) 0, 2)],
      let s := prCp x.1
      s.isFrozen (copyMid 0) = false ∧ (s.quadD 0).copyq.find? (fun o => o.id == 9 && o.started) = some x.1 ∧ (∀ p ∈ s.pods, p.op ≠ 9) ∧
      outOf (s.doCopy 0 x.1) = x.2) ∧
    (let o := { cpOp .cpy 0 4096 0 with started := false }
     ((prCp o).quadD 0).copyq.find? (fun o => !o.started) = some o) ∧
    (let p : PodFrame := ⟨4, 0, 9, 2 ^ 40, 1, 0, 1, 0, false, true⟩
     let s : State := { prCp (cpOp (.cpyr false) 0 (2 ^ 40) 1) with pods := [p] }
     s.pods.find? (fun p => p.id == 4) = some p ∧ p.quad = 0 ∧ p.op = 9 ∧ s.pods.find? (fun p => p.op == 9 && p.failed) = some p) := by
  decide +kernel
/-- A matrix operation of the probe's launch on array 0: a conversion of 1 by 1 elements of f16 from AM to AM; or a product whose second
operand streams from ring 3; or one whose descriptor is all zeros. -/
def cvD : Desc := [dw (2 ^ 60 + 16 * 2 ^ 55), dw (31 * 2 ^ 21 + 31 * 2 ^ 5), dw (2 ^ 63 + 16 * 2 ^ 42 + 2 ^ 31), 0, dw (16 * 2 ^ 59 + 2 ^ 30), 0, 0, 0]
def mmD (gb : Nat) : Desc := [dw (16 * 2 ^ 55 + gb * 2 ^ 46), dw (31 * 2 ^ 21 + 31 * 2 ^ 5), dw (2 ^ 63 + 16 * 2 ^ 42 + 2 ^ 31), dw (3 * 2 ^ 59 + 2 ^ 37),
  dw (16 * 2 ^ 59 + 2 ^ 30), 0, 0, 0]
def mOp (d : Desc) (stage : Nat) : MOp := ⟨9, 0, 0, 0, 15, 7, d, 0, stage, 0, [], 0, 0, false, 0, 0⟩
def prO (o : MOp) (rg : Ring) (f : Arr → Arr) : State :=
  ((pr.modArr 0 (fun a => f { a with q := [o] })).modQuad 0 (fun q => { q with rings := [(3, rg)] })).modCreg 0 15 (fun _ => { Creg.empty with own := some 0 })
/-- A ring of one FULL slot of 256 bytes in ring store. -/
def opR : Ring := { Ring.empty with v := true, store := true, slsz := 3, slots := [(0, ⟨true, false, 0⟩)] }
theorem wit_EngineEvents_matrix : (arrMid 0 ≠ copyMid 0) ∧ pr.isFrozen (arrMid 0) = false ∧
    (pickOp (prO (mOp cvD 0) .empty id) 0 = some (mOp cvD 0) ∧ opCheck (prO (mOp cvD 0) .empty id) (mOp cvD 0) = 0) ∧
    (pickOp (prO (mOp [] 0) .empty id) 0 = some (mOp [] 0) ∧ opCheck (prO (mOp [] 0) .empty id) (mOp [] 0) ≠ 0) ∧
    (∀ x ∈ [(cvD, Ring.empty, false, false, 1), (mmD 0, Ring.empty, true, false, 0), (mmD 0, opR, false, false, 0), (mmD 3, opR, false, true, 0)],
      let o := mOp x.1 1
      let s := prO o x.2.1 id
      pickOp s 0 = some o ∧ o.subM 0 = 1 ∧ o.subN 0 = 1 ∧ o.opc = x.2.2.2.2 ∧
      (let t := ((s.cellsTo 0 o).amOwn 0 0).amOwn 0 0
       ringLost t o = x.2.2.1 ∧ chunkPoison t o = false ∧ chunkBadScale t o = x.2.2.2.1)) := by decide +kernel
theorem wit_EngineEvents_ends : (let s := prO (mOp (mmD 0) 1) opR (fun a => { a with ringPoison := [0] })
     chunkPoison (((s.cellsTo 0 (mOp (mmD 0) 1)).amOwn 0 0).amOwn 0 0) (mOp (mmD 0) 1) = true) ∧
    (let o := mOp (cvD.set 0 (dw (2 ^ 60 + 16 * 2 ^ 55 + 2 * 2 ^ 38))) 1
     let s : State := { prO o .empty id with arrs := [(0, { Arr.empty with q := [o] }), (1, { Arr.empty with q := [o] })] }
     pickOp s 1 = some o ∧ o.subN 1 = 0) ∧
    (∀ st ∈ [2, 3], let o := mOp cvD st
     let s := prO o .empty id
     (s.arrD 0).q.find? (fun o => o.stage == st && !opHalted s o && (s.entries o.id).all (fun e => e.stage == st)) = some o ∧
     (s.arrD 0).q.find? (fun e => e.id == o.id) = some o) ∧
    pr.isFrozen (podMid 8) = false ∧ 2 ^ 49 / 2 ^ 49 = 1 ∧ accCheck (pr.table (endpointOf (2 ^ 49))) (podMid 8) .write (2 ^ 49) = none ∧
    inCapacity pr.mem (2 ^ 49) = true ∧ fencedOff pr.pkg 16 (paStack (2 ^ 49)) = false ∧ State.reset.isFrozen (podMid 8) = false ∧
    accCheck (State.reset.table (endpointOf (2 ^ 49))) (podMid 8) .write (2 ^ 49) = some (1, 255) := by decide +kernel
/-- The probe's thread with a fault on core 0 that waits for service or for room, its record at va. -/
def fx : FaultInfo := ⟨5, 1, 0, 1, 0, false⟩
def prSv (room : Bool) (va tv : Nat) : State := (pr.modThr 2 (fun th => { th with
  svc := some ⟨0, 1, va, fx, 0, if room then .noRoom else .written, true, 0⟩ })).modGrp 1
  (fun g => { g with trapv := tv })
/-- FSVC's word 0 for that fault. -/
def fw (act : Nat) : DWord := dw (coreMid 0 * 2 ^ 48 + 2 ^ 32 + act * 2 ^ 30)
theorem wit_FaultService : ((prSv true 64 0).thr? 2).any (fun th => th.svc.any (·.st == .noRoom)) = true ∧
    (∀ act ∈ [0, 1, 2], ∀ va ∈ [64, 2 ^ 43], let s := prSv false va 0
      bits (fw act) 31 30 = act ∧ s.isFrozen (ctlMid 31) = false ∧ accCheck (s.table ctlTgt) (ctlMid 31) .write 0x2410 = none ∧
      (svcThread s (fw act)).map (·.1) = some 2 ∧ bits (s.ctlD 31).fsvc1 54 0 = 0) ∧
    ((prSv false 64 0).seatOf 2).2.1.trapv = 0 ∧ ((prSv false 64 12).seatOf 2).2.1.trapv ≠ 0 ∧ bits (fw 3) 31 30 = 3 := by decide +kernel
theorem wit_FaultService_record : ((prSv false 64 0).readRecord 0 0 64).2.isSome = true := by decide +kernel
theorem wit_FaultService_none : ((prSv false (2 ^ 43) 0).readRecord 0 0 (2 ^ 43)).2.isNone = true := by decide +kernel
theorem wit_FaultService_control : (∀ off ∈ [0x2410, 0x2420, 0x700 + 8 * 31], pr.isFrozen (ctlMid 31) = false ∧
      accCheck (pr.table ctlTgt) (ctlMid 31) .write off = none) ∧ pr.sys.bootFail = 0 ∧ (pr.ctxD 0).st = .live ∧ (pr.ctxD 63).st = .free := by decide +kernel
theorem wit_FaultService_cores : ∀ (st : CtlSt) (v : DWord), ((pr.modCtl 31 (fun k => { k with st := st, vec1 := v })).ctlD 31).st = st ∧
    ((pr.modCtl 31 (fun k => { k with st := st, vec1 := v })).ctlD 31).vec1 = v := fun _ _ => ⟨rfl, rfl⟩
theorem wit_FalseGuard : guarded (.halt ⟨false, ⟨true, 7⟩⟩) = some ⟨true, 7⟩ ∧ guarded (.add ⟨false, ⟨false, 0⟩⟩ .zero .zero false false false) = some ⟨false, 0⟩ ∧
    ¬ Fires ⟨true, 7⟩ pr ∧ ¬ Fires ⟨false, 0⟩ pr := ⟨rfl, rfl, by unfold Fires; decide +kernel, by unfold Fires; decide +kernel⟩
theorem wit_FalseGuard_sets : joining (.elect ⟨false, ⟨true, 7⟩⟩) = some ⟨true, 7⟩ ∧ joining (.boxu ⟨false, ⟨false, 0⟩⟩ .zero .zero .set) = some ⟨false, 0⟩ ∧
    pr.iss.stalled = false ∧ (match noteToken .zero pr with | .ok _ s => !guardOf ⟨true, 7⟩ s.cur && !s.iss.stalled | _ => false) = true :=
  ⟨rfl, rfl, rfl, by decide +kernel⟩
/-- The probe with entries of every state in its queue's copy at issue. -/
def prQ0 : State := { pr with iss := { pr.iss with q0 := [⟨1, .full⟩, ⟨2, .notWritten⟩, ⟨3, .pending 9⟩] } }
theorem wit_Sources : (∀ i < 32, let r := pr.cur.reg i
      r.pend = none ∧ r.uncorr = false ∧ r.poison = false) ∧ pr.cur.link = none ∧ prQ0.iss.q0[0]?.map (·.st) = some .full ∧
    prQ0.iss.q0[1]?.map (·.st) = some .notWritten ∧ prQ0.iss.q0[2]?.map (·.st) = some (.pending 9) ∧ (lit [1, 2]).iss.lits = [1, 2] ∧
    (let s := (pr.modRes 3 (fun r => { r with srec := [(0, BitVec.ofNat 256 strImg)] })).modThr 2 (fun th => { th with spos := [(3, (0, 0))] })
     let s := s.modGrp 1 (fun g => { g with heads := [(3, 0)] })
     alGet s.curGrp.heads 3 = some 0 ∧ alGet s.cur.spos 3 = some (0, 0) ∧
       yields (streamElem s.curRecs (alGetD s.curRecs 0 0) s.cur.tid 0) s (fun _ _ => true) = true) := by decide +kernel
theorem wit_ComputeFrame : computing (.add hd .zero .zero false false false) = some al ∧
    (match exec (.add hd .zero .zero false false false) pr with | .next _ => true | _ => false) = true := ⟨rfl, by decide +kernel⟩
/-- A core whose buffer holds 64 lines. -/
def prW64 : State := pr.modCore 0 (fun c => { c with wcb := (List.range 64).map (fun i => ⟨0, 4096 + 64 * i, 0, 1, 0⟩) })
theorem wit_StoreFrame : (∀ s ∈ [pr, prW64], yields (addrOf .glb .zero) s (fun va u => va == 0 && yields (dataOf .b32 .zero) u (fun _ v =>
      decide (va % 4 = 0) && yields (translate v.curWho .write va) v (fun r q => !ownedLine q r.1 &&
        yields (reach v.curWho .write r.1 r.2.2.2) q (fun _ q => decide ((q.coreD v.curCore).wcb.length < 64) == decide (s = pr)))) )) ∧
    prW64.mem.cells = pr.mem.cells := by decide +kernel
/-- The probe with a stack of 64 bytes, a frame, a ring of its launch and AM of its context; and a line buffered under another key id. -/
def prSt : State := { (((pr.modThr 2 (fun th => { th with stkb := 64, stkl := 0, frame := some 7 })).modQuad 0 (fun q =>
    { q with rings := [(3, { Ring.empty with v := true, store := true, slsz := 3 })] })).modArr 0 (fun a => { a with owner := some 0 })).modCore 0
    (fun c => { c with wcb := [⟨0, 2 ^ 49, 5, 1, 0⟩] }) with frames := [(7, ⟨0, 0, 2, 0, 0, 0, []⟩)] }
theorem wit_StoreFrame_stack : prSt.cur.stkl.toNat ≤ 60 ∧ 60 + 4 ≤ prSt.cur.stkb.toNat ∧ addrOf .stk .lit (lit [60, 0]) = .ok 60 pr ∧
    yields (translate prSt.curWho .write 60) prSt (fun r q => !ownedLine q r.1 && yields (reach prSt.curWho .write r.1 r.2.2.2) q (fun _ q =>
      (q.coreD 0).wcb.any (fun l => l.ctx == 0 && l.pa == lineOf r.1 && l.key != r.2.1))) = true := by
  refine ⟨?_, ?_, rfl, ?_⟩ <;> decide +kernel
theorem wit_StoreFrame_spaces : (∀ x ∈ [(Space.loc, 0xFFFC), (.rng, 3 * 2 ^ 28 + 252), (.am, 2 ^ 22 - 4), (.frm, 252)], x.2 % 4 = 0 ∧
    yields (curPlace x.1 x.2 4) prSt (fun pl q => yields (waitScore pl 4 false) q (fun _ q =>
      yields (allowMarrow q.curWho .write pl) q (fun _ _ => true))) = true) ∧
    (prSt.arrD (coreQuad prSt.curCore)).owner = some prSt.cur.id.ctx := by decide +kernel
theorem wit_StoreFrame_reads : (∀ cls ∈ [ReqClass.read, .atomic], yields (translate pr.curWho cls 0) pr (fun r q => !ownedLine q r.1 &&
      (q.coreD 0).wcb.all (fun l => l.pa != lineOf r.1) && !q.mem.poison.contains (lineOf r.1) && (alGet q.mem.flaws (lineOf r.1)).isNone &&
      inCapacity q.mem (lineOf r.1) && (l1Find (q.coreD 0) 0 (lineOf r.1)).isNone &&
      yields (reach pr.curWho cls (lineOf r.1) (r.2.2.2 / 64 * 64)) q (fun _ _ => true))) ∧ pr.curWho.core = some 0 := by decide +kernel
theorem wit_AccessFaults : Fires hd.gd pr ∧ pr.iss.chained = false ∧ addrOff .glb .lit .zero (lit [0, 0x800000]) = .ok (2 ^ 55) pr ∧
    addrOff .loc .lit .zero (lit [2]) = .ok 2 pr ∧ 2 % Width.bytes' .b32 ≠ 0 ∧ addrOff .stk .zero .zero pr = .ok 0 pr ∧
    ¬ (pr.cur.stkl.toNat ≤ 0 ∧ 0 + 4 ≤ pr.cur.stkb.toNat) ∧ addrOf .glb .lit (lit [1, 0]) = .ok 1 pr ∧
    dataOf .b32 .zero pr = .ok 0 pr ∧ dataPair .b32 .lit (lit [1, 2]) = .ok (1, 2) pr ∧ addrOff .cst .lit .zero (lit [2, 0]) = .ok 2 pr ∧
    pr.curRun.bind (fun r => r.bcast.find? (fun e => e.1 == (pr.iss.word, 2, 4))) = none ∧ src64 .lit (lit [0, 0x800000]) = .ok (2 ^ 55) pr :=
  ⟨rfl, rfl, rfl, rfl, by decide, rfl, by decide +kernel, rfl, rfl, rfl, rfl, rfl, rfl⟩
theorem wit_MemoryBytes : Memory.reset.wf ∧ 64 % 64 = 0 ∧ lineOf 127 = 64 ∧ lineOf 128 ≠ 64 ∧ 63 % 64 + 1 ≤ 64 := by decide +kernel
theorem wit_Commits : (let th := { pr.cur with rt := { pr.cur.rt with commits := [⟨⟨5, .full⟩, 1, false⟩, ⟨⟨7, .full⟩, 30, true⟩] } }
    th.regs.length = 32 ∧ (∀ c ∈ th.rt.commits, c.d ≠ 0 ∧ (c.wide = true → c.d + 1 ≠ 0)) ∧ 30 < 31) := by decide +kernel
theorem wit_FaultEntry : pr.thr? 2 = some pr.cur ∧ isRoot (laneCore (pr.seatOf 2).1) = false ∧ isCtl (laneCore (pr.seatOf 2).1) = false ∧
    isRoot 544 = true ∧ (pr.cur.reg 0).pend = none ∧ (pr.cur.reg 1).pend = none := by decide +kernel
/-- The probe whose fault area has room for records, its handler and its services as given. -/
def prFt (tv route : Nat) (rs : Nat) (tr : Bool) : State := ((pr.modCtx 0 (fun c => { c with route := route })).modGrp 1
  (fun g => { g with trapv := tv })).modThr 2 (fun th => { th with restarts := rs, inTrap := tr })
theorem wit_FaultEntry_outcomes : (∀ x ∈ [(prFt 12 0 0 false, false, true, false), (prFt 0 0 0 false, false, false, false), (prFt 12 32 0 false, true, false, false),
      (prFt 12 32 64 false, false, false, false), (prFt 12 0 0 true, false, false, false)],
      let s := x.1
      s.seatOf 2 = (0, (s.seatOf 2).2.1, 0) ∧ faultRoute s (s.seatOf 2).2.1 s.cur fx = x.2) ∧ pr.cur.dblFetch = false ∧
    (let s := prE.modThr 2 (fun th => { th with svc := some ⟨0, 1, 0, fx, 0, .held, true, 0⟩ })
     (s.thr? 2).any (·.svc.isSome) ∧ s.faultDue 2 = true) := by decide +kernel
theorem wit_FaultEntry_double : (let s := prFt 12 0 0 true
    faultRoute s (s.seatOf 2).2.1 { s.cur with dblFetch := true } ⟨6, 3, 12, 0, 0, false⟩ = (false, false, true)) := by decide +kernel
theorem wit_FaultEntry_record : (match (putRecord (recWho pr 0 0) (pr.ctxD 0).flta [1, 2, 3, 4, 5, 6, 7, 8] pr).2 with | .at_ _ i => i == 0 | _ => false) = true := by
  decide +kernel
theorem wit_FaultRoute : (∀ th : Thr, th = pr.cur → th.regs.length = 32) ∧ (prFt 0 32 0 false).cur.restarts < 64 ∧ 1 ≤ fx.cls ∧ fx.cls ≤ 11 ∧ fx.fatal = false ∧
    ((prFt 0 32 0 false).ctxD 0).route.testBit fx.cls = true ∧ ((prFt 0 0 0 false).ctxD 0).route.testBit fx.cls = false :=
  ⟨fun _ h => h ▸ by decide +kernel, by decide +kernel⟩
/-- A lane about to issue the word ADD n0, n0 for its one thread. -/
def prStep : State := (State.reset.load [0x02000000]).withFetchWord 32 (encodeNat (.add hd (.n 0) (.n 0) false false false))
theorem wit_StepRunsWord : (let s := prStep
    s.pkg.powered = true ∧ s.agenda = [.issue 0] ∧ (s.laneD 0).run.any (fun r => r.todo == [0] && (s.grp? r.grp).any (fun g => alGet g.mem 0 == some 2) &&
      (r.words[r.wi]?).any (fun w => (match decodeWord w with | .ok i => i == .add hd (.n 0) (.n 0) false false false | _ => false) && !w.getLsbD 31 &&
        fld w.toNat 30 25 != 0x3F)) = true) := by decide +kernel
theorem wit_StepRunsWord_run : 1 % 12 ≠ 0 ∧
    (match (loadRun 48 (stored [(48, 8, 0x4C0000004C000000), (56, 4, 0x60F40000)] pr)).2 with | .ok ws => ws.length % 3 == 0 | .error _ => false) = true := by decide +kernel
theorem wit_RoundTrip : Instr.isWord (.add hd .zero .zero false false false) = true ∧ (Instr.add hd .zero .zero false false false).wf = true ∧
    decodeWord 0x4C000000#32 = .ok .nop := by decide +kernel
theorem wit_StepKeepsMemory : State.reset.mem.wf ∧ (match step { State.reset with agenda := [.tick 0 1] } with | .next _ => true | _ => false) = true := by
  decide +kernel

/-! ### Words written out from the encodings of chapters 13 to 16 -/

/-- INT2, INT3, INTI (formats A2, A3, AI). -/
theorem test_decode_integer : decodeWord 0x02FC0606#32 = .ok (.add hd .zero (.n 3) true true false) ∧
    decodeWord 0x85505FD4#32 = .ok (.shf ⟨true, true, 2⟩ (.q 0) (.q 15) .tid) ∧
    decodeWord 0x06EFFFF8#32 = .ok (.addImm hd (.n 31) (-1)) := by decide +kernel
/-- CMP, FCMP, PRED (formats PC, PL). -/
theorem test_decode_compare : decodeWord 0x08F87955#32 = .ok (.cmp hd (.gw 0) (.h 0) 5 .lt true false true) ∧
    decodeWord 0x8B4085F0#32 = .ok (.fcmp ⟨true, true, 2⟩ (.n 1) (.n 2) 7 .un false) ∧
    decodeWord 0x0CE53960#32 = .ok (.plop hd 1 2 3 0x96) := by decide +kernel
/-- FALU2, FALU3, HALU3, DALU2, DALU3. -/
theorem test_decode_float : decodeWord 0x0EE20A11#32 = .ok (.fmul hd (.n 4) (.n 5) .rtz) ∧
    decodeWord 0x91420A35#32 = .ok (.ffma ⟨true, true, 2⟩ (.n 4) (.n 5) (.n 6) .sr) ∧
    decodeWord 0x12E20BC2#32 = .ok (.hfma2 hd (.n 4) (.n 5) .zero .rup) ∧
    decodeWord 0x14E20C03#32 = .ok (.dadd hd (.n 4) (.n 6) .rdn) ∧
    decodeWord 0x16E20C44#32 = .ok (.dfma hd (.n 4) (.n 6) (.n 8) .rna) := by decide +kernel
/-- CVT, SFU, XGRP, INTF, FLTF, UNI, ULD. -/
theorem test_decode_convert : decodeWord 0x18E4F038#32 = .ok (.cvt hd (.n 9) .i32 .f64 .rne) ∧
    decodeWord 0x9B507000#32 = .ok (.rcp ⟨true, true, 2⟩ (.q 0)) ∧
    decodeWord 0x1CE0F060#32 = .ok (.vote hd (.n 1) .zero .ballot) ∧
    decodeWord 0x1EE0A701#32 = .ok (.intf hd (.n 1) 9 6 .add true) ∧
    decodeWord 0x20E0A421#32 = .ok (.fltf hd (.n 1) 9 0 .fmul false .rtz) ∧
    decodeWord 0x22FDF1F8#32 = .ok (.umov hd .iid 63) ∧
    decodeWord 0xA5427040#32 = .ok (.uld ⟨true, true, 2⟩ (.n 4) 8) := by decide +kernel
/-- LD, ST, ATOM, RED, MCTL, RING (format M). -/
theorem test_decode_memory : decodeWord 0x30E27160#32 = .ok (.ld hd (.n 4) .zero .stk .b128) ∧
    decodeWord 0xB3427EC0#32 = .ok (.st ⟨true, true, 2⟩ (.n 4) (.h 3) .am .b8) ∧
    decodeWord 0x34E20A50#32 = .ok (.atomAdd hd (.n 4) (.n 5) .loc .b32) ∧
    decodeWord 0x36E20C18#32 = .ok (.redAdd hd (.n 4) (.n 6) .glb .b64) ∧
    decodeWord 0x38FC0603#32 = .ok (.scfg hd .zero (.n 3) .glb) ∧
    decodeWord 0x3AE18805#32 = .ok (.rwait hd (.n 3) (.n 4)) := by decide +kernel
/-- EDGE, ENGM, ENGC, GFX, TEXI, SYS. -/
theorem test_decode_edges : decodeWord 0x3CE188C6#32 = .ok (.bar hd (.n 3) (.n 4) 6) ∧
    decodeWord 0x3EE2400F#32 = .ok (.marm hd (.n 4) (.q 0) 15) ∧
    decodeWord 0xC1421002#32 = .ok (.cpy ⟨true, true, 2⟩ (.n 4) (.n 8) .glb .rng) ∧
    decodeWord 0x42E210E0#32 = .ok (.boxu hd (.n 4) (.n 8) .set) ∧
    decodeWord 0x44E211C0#32 = .ok (.tex hd (.n 4) (.n 8)) ∧
    decodeWord 0x44E211DC#32 = .ok (.imst hd (.n 4) (.n 8) .b64) ∧
    decodeWord 0x46E27032#32 = .ok (.wrs hd (.n 4) 18) ∧
    decodeWord 0x46E210E0#32 = .ok (.keyld hd (.n 4) (.n 8)) := by decide +kernel
/-- COMMIT, REJ, NOP, CTRL, CTRLX, X-words. -/
theorem test_decode_slots : decodeWord 0x48E09FFD#32 = .ok (.commit al 0 9 true 15 31 false true) ∧
    decodeWord 0x4AE3FFFF#32 = .ok (.rej al (-1)) ∧
    decodeWord 0x61460000#32 = .ok (.bra ⟨true, 2⟩ 0x20000) ∧
    decodeWord 0x62E20000#32 = .ok (.brx al (.q 0)) ∧
    decodeWord 0x7E06B07C#32 = .ok (.nsPrefix 3 (.sub .by 3) (.whole 0) (.sub .nb 7) false) ∧
    decodeWord 0x7E34B0C0#32 = .ok (.ndPrefix .sx 4 .sr true 0 true true) := by decide +kernel
/-- Words that R320 to R331 call ILLEGAL. -/
theorem test_decode_illegal : [0x00000000#32, 0x03E00000#32, 0x26E00000#32, 0x4C000001#32, 0x7E200000#32, 0x7E400000#32, 0x62EC0000#32, 0xC8E00000#32].all
    (fun w => (decodeWord w).toOption.isNone) = true := by decide +kernel

/-! ### Terms that well-formedness refuses -/

theorem smoke_guard : (Instr.add ⟨false, true, 7⟩ .zero .zero false false false).wf = false := by decide
theorem smoke_unsigned_without_saturation : (Instr.add hd .zero .zero false false true).wf = false := by decide
theorem smoke_mul : (Instr.mul hd .zero .zero true true false).wf = false ∧ (Instr.mul hd .zero .zero false false true).wf = false := by decide
theorem smoke_cvt : (Instr.cvt hd .zero .f32 .f32 .rne).wf = false ∧ (Instr.cvt hd .zero .i32 .n64 .rtz).wf = false := by decide
theorem smoke_vote : (Instr.vote hd .zero (.n 0) .all).wf = false := by decide
theorem smoke_scan : (Instr.reduce hd .zero .zero .and .f32).wf = false := by decide
theorem smoke_forwarded_move : (Instr.intf hd (.n 0) 0 0 .mov false).wf = false ∧ (Instr.intf hd .zero 0 0 .mov true).wf = false := by decide
theorem smoke_forwarded_minimum : (Instr.fltf hd .zero 0 0 .fmin false .rtz).wf = false := by decide
theorem smoke_bar : (Instr.bar hd (.n 0) .zero 1).wf = false := by decide
theorem smoke_tlbi : (Instr.tlbi hd (.n 0) .zero false).wf = false := by decide
theorem smoke_commit : (Instr.commit al 0 0 false 1 0 false false).wf = false := by decide
theorem smoke_prefixes : (Instr.nsPrefix 0 (.whole 1) (.whole 0) (.whole 0) false).wf = false ∧
    (Instr.nsPrefix 0 (.sub .by 4) (.whole 0) (.whole 0) false).wf = false ∧ (Instr.ndPrefix .by 4 .rne false 0 false false).wf = false ∧
    (Instr.ndPrefix .by 0 .rne false 1 true false).wf = false ∧ (Instr.ndPrefix .by 0 .rne false 0 false true).wf = false := by decide

/-! ### Single steps, with results from the manual -/

/-- R346: addition wraps. -/
theorem test_add_wraps : push (.add hd .lit .lit false false false) [0xFFFFFFFF, 2] = some (some ⟨1, .full⟩) := by decide +kernel
/-- R245, R346: saturation at the most negative number. -/
theorem test_sub_saturates : push (.sub hd .lit .lit false true false) [0x80000000, 1] = some (some ⟨0x80000000, .full⟩) := by decide +kernel
/-- R346: a remainder by zero is the dividend. -/
theorem test_rem_by_zero : late (.rem hd .lit .zero false false) [7] = some (some [7]) := by decide +kernel
/-- R355: 1.5 + 2^-24 rounds to even. -/
theorem test_fadd_ties : push (.fadd hd .lit .lit .rne) [0x3FC00000, 0x33800000] = some (some ⟨0x3FC00000, .full⟩) := by decide +kernel
/-- R356: the minimum of +0 and −0 is −0. -/
theorem test_fmin_zeros : push (.fmin hd .zero .lit) [0x80000000] = some (some ⟨0x80000000, .full⟩) := by decide +kernel
/-- R359: a NaN converts to the integer 0. -/
theorem test_cvt_nan : push (.cvt hd .lit .f32 .i32 .rtz) [0x7FC00000] = some (some ⟨0, .full⟩) := by decide +kernel
/-- R351: a signed comparison. -/
theorem test_cmp_signed : ans (exec (.cmp hd .lit .zero 3 .lt false false false) (lit [0x80000000])) (fun s => s.cur.p) = some 8 := by decide +kernel
/-- R376, R379: a byte stored to the scratchpad is read back sign-extended. -/
theorem test_byte_back : (match exec (.st hd .zero .lit .loc .b8) (lit [0x1FF]) with
    | .next s => (match exec (.ldS hd .zero .zero .loc .b8) s with
      | .next t => t.arrivals.head?.map (·.vs) == some [0xFFFFFFFF]
      | _ => false)
    | _ => false) = true := by decide +kernel
/-- R381: an atomic addition gives the old word; the next one finds the sum. -/
theorem test_atomic_sum : (match exec (.atomAdd hd .zero .lit .glb .b32) (lit [5]) with
    | .next s => (match exec (.atomAdd hd .zero .zero .glb .b32) s with
      | .next t => t.arrivals.map (·.vs) == [[0], [5]]
      | _ => false)
    | _ => false) = true := by decide +kernel
/-- R295, R406: TLBI on a Chard core takes PRIV: the thread's fault reaches no handler and terminates it. -/
theorem test_tlbi_privileged : ans (exec (.tlbi hd .zero .zero false) pr) (fun s => (s.thr? 2).isNone) = some true := by decide +kernel
/-- R36: a self test that fails ends the boot with failure code 1 at stage 1. -/
theorem test_self_test : ans (exec (.powerOn ⟨false, none, true, [], none⟩) State.reset) (fun s => (s.sys.bootStage, s.sys.bootFail)) = some (1, 1) := by
  decide +kernel
/-- R34: without power nothing but POWER_ON happens. -/
theorem test_no_power : step { State.reset with pkg := { State.reset.pkg with powered := false } } = .fault .noPower := rfl
/-- R30: the 32nd corrected error of a core within the window makes it pending. -/
theorem test_core_pending : ans (exec (.sramCorrectedError (.core 7 63)) { State.reset with pkg := { State.reset.pkg with
    errs := [(unitKey (.core 7 63), List.replicate 31 0)] } }) (fun s => s.pkg.pending) = some [.core 7 63] := by decide +kernel
/-- R42: with no entry the table refuses an access with WHY 1. -/
theorem test_no_entry : accCheck [] 0 .read 0 = some (1, 255) := by decide +kernel
/-- R330: a branch back by one packet from packet 12. -/
theorem test_branch_back : ans (exec (.bra al (-1)) { (pr.modThr 2 (fun th => { th with pc := 12 })) with iss := { pr.iss with last := false } })
    (fun s => s.cur.rt.k) = some (some (0, .goto 0)) := by decide +kernel

end Sys2Proof.Tests
end

