-- ==== Sys2Proof/Proofs/MemoryBytes.lean ====
section
/-! PROOFS. Bytes of memory under a key (R4, R120, R121): what a masked write of a line leaves in the cells and the tags, a read of one
byte in the two cases of the line's tag, and wider reads as sums of bytes. -/
namespace Sys2Proof.Proofs
open Sys2Proof.Machine Sys2Proof.Laws

/-! ### Bytes and digits -/

@[simp] theorem rdBytes_one (m : AL Byte) (a : Nat) : rdBytes m a 1 = (byteAt m a).toNat := by simp [rdBytes]

theorem rdBytes_eq_sum (m : AL Byte) (a n : Nat) :
    rdBytes m a n = ((List.range n).map (fun i => (byteAt m (a + i)).toNat * 256 ^ i)).sum := by
  induction n generalizing a with
  | zero => rfl
  | succ n ih =>
    rw [rdBytes, ih, List.range_succ_eq_map, List.map_cons, List.sum_cons, ← List.sum_map_mul_left, List.map_map]
    have e : ∀ i, 256 * ((byteAt m (a + 1 + i)).toNat * 256 ^ i) = (byteAt m (a + (i + 1))).toNat * 256 ^ (i + 1) := by
      intro i; rw [show a + 1 + i = a + (i + 1) by omega, Nat.pow_succ]; ring
    simp [Function.comp_def, e]

theorem rdBytes_congr {m m' : AL Byte} {a n : Nat} (h : ∀ i < n, byteAt m' (a + i) = byteAt m (a + i)) :
    rdBytes m' a n = rdBytes m a n := by
  rw [rdBytes_eq_sum, rdBytes_eq_sum]
  exact congrArg List.sum (List.map_congr_left fun i hi => by rw [h i (List.mem_range.1 hi)])

theorem mod_pow_eq_sum_digits (v n : Nat) : v % 256 ^ n = ((List.range n).map (fun i => v / 256 ^ i % 256 * 256 ^ i)).sum := by
  induction n with
  | zero => simp [Nat.mod_one]
  | succ n ih => rw [Nat.mod_pow_succ, ih, Nat.mul_comm]; simp [List.range_succ]

theorem mergeBytes_digit {n i : Nat} (mask new old : Nat) (h : i < n) : mergeBytes n mask new old / 256 ^ i % 256 =
    if mask.testBit i then new / 256 ^ i % 256 else old / 256 ^ i % 256 := by
  induction n generalizing i mask new old with
  | zero => omega
  | succ n ih =>
    have low : (if mask % 2 = 1 then new % 256 else old % 256) < 256 := by split <;> omega
    rw [mergeBytes]
    cases i with
    | zero => rw [Nat.pow_zero, Nat.div_one, Nat.add_mul_mod_self_left, Nat.mod_eq_of_lt low]; simp [Nat.testBit_zero]
    | succ i =>
      simp only [Nat.pow_succ', ← Nat.div_div_eq_div_mul, Nat.testBit_succ]
      rw [Nat.add_mul_div_left _ _ (by decide), Nat.div_eq_of_lt low, Nat.zero_add]
      exact ih _ _ _ (by omega)

/-! ### Lines -/

theorem lineOf_add {a i : Nat} (h : a % 64 + i < 64) : lineOf (a + i) = lineOf a := by unfold lineOf; omega
theorem lineOf_line_add {a i : Nat} (h : i < 64) : lineOf (lineOf a + i) = lineOf a := by unfold lineOf; omega
theorem add_mod_line {a i : Nat} (h : a % 64 + i < 64) : (a + i) % 64 = a % 64 + i := by omega
/-- The bytes from a line's start that lie within its 64 bytes are those whose line it is. -/
theorem within_line_iff {la : Nat} (hla : la % 64 = 0) (c : Nat) : (la ≤ c ∧ c < la + 64) ↔ lineOf c = la := by unfold lineOf; omega
theorem sub_line {la c : Nat} (h : lineOf c = la) : c - la = c % 64 := by unfold lineOf at h; omega

/-! ### A read within one line -/

theorem memRead_of_tag {m : Memory} {key : Option (BitVec 512)} {a : Nat} (h : alGet m.tags (lineOf a) = key) (n : Nat) :
    memRead m key a n = rdBytes m.cells a n := if_pos h

theorem memRead_of_tag_ne {m : Memory} {key : Option (BitVec 512)} {a : Nat} (h : alGet m.tags (lineOf a) ≠ key) (n : Nat) :
    memRead m key a n = viewLine m key (lineOf a) / 256 ^ (a % 64) % 256 ^ n := if_neg h

/-- A line shows what its cells and its tag give it: nothing else of the memory matters. -/
theorem viewLine_congr {m m' : Memory} {la : Nat} (key : Option (BitVec 512)) (ht : alGet m'.tags la = alGet m.tags la)
    (hc : ∀ i < 64, byteAt m'.cells (la + i) = byteAt m.cells (la + i)) : viewLine m' key la = viewLine m key la := by
  simp only [viewLine, ht, rdBytes_congr hc]

theorem memRead_byte_congr {m m' : Memory} {a : Nat} (key : Option (BitVec 512))
    (ht : alGet m'.tags (lineOf a) = alGet m.tags (lineOf a)) (hc : ∀ c, lineOf c = lineOf a → byteAt m'.cells c = byteAt m.cells c) :
    memRead m' key a 1 = memRead m key a 1 := by
  have hv : viewLine m' key (lineOf a) = viewLine m key (lineOf a) :=
    viewLine_congr key ht fun i hi => hc _ (lineOf_line_add hi)
  simp only [memRead, ht, hv, rdBytes_one, hc a rfl]

/-- R4: a wider read of a line is little-endian. -/
theorem memRead_eq_sum_bytes (m : Memory) (key : Option (BitVec 512)) {a n : Nat} (h : a % 64 + n ≤ 64) :
    memRead m key a n = ((List.range n).map (fun i => memRead m key (a + i) 1 * 256 ^ i)).sum := by
  by_cases ht : alGet m.tags (lineOf a) = key
  · rw [memRead_of_tag ht, rdBytes_eq_sum]
    refine congrArg List.sum (List.map_congr_left fun i hi => ?_)
    have hi := List.mem_range.1 hi
    rw [memRead_of_tag (by rw [lineOf_add (by omega), ht]), rdBytes_one]
  · rw [memRead_of_tag_ne ht, mod_pow_eq_sum_digits]
    refine congrArg List.sum (List.map_congr_left fun i hi => ?_)
    have hi := List.mem_range.1 hi
    have hl : lineOf (a + i) = lineOf a := lineOf_add (by omega)
    rw [memRead_of_tag_ne (by rwa [hl]), hl, add_mod_line (by omega), Nat.pow_add, Nat.div_div_eq_div_mul, Nat.pow_one]

/-! ### A masked write of a line -/

section
variable (m : Memory) (mask d : Nat)

@[simp] theorem cells_setTag (key : Option (BitVec 512)) (la : Nat) : (setTag m key la).cells = m.cells := by cases key <;> rfl

theorem alGet_tags_setTag (key : Option (BitVec 512)) (la l : Nat) :
    alGet (setTag m key la).tags l = if l = la then key else alGet m.tags l := by
  cases key with
  | none => exact alGet_alDel m.tags la l
  | some k =>
    by_cases h : l = la
    · subst h; simp [setTag]
    · simp [setTag, h, alGet_alSet_ne]

theorem cells_memWriteMasked (key : Option (BitVec 512)) (la : Nat) : (memWriteMasked m key la mask d).cells =
    if alGet m.tags la = key then wrMasked m.cells la 64 mask d
    else wrBytes m.cells la 64 (mergeBytes 64 mask d (viewLine m key la)) := by
  unfold memWriteMasked
  by_cases hm : mask = 2 ^ 64 - 1 <;> by_cases h : alGet m.tags la = key <;> simp only [hm, h, if_true, if_false, cells_setTag]
  -- a full line's poison is no part of what the line shows
  rfl

theorem alGet_tags_memWriteMasked (key : Option (BitVec 512)) (la l : Nat) :
    alGet (memWriteMasked m key la mask d).tags l = if l = la then key else alGet m.tags l := by
  have same : alGet m.tags la = key → alGet m.tags l = if l = la then key else alGet m.tags l := by
    intro h; split
    · subst l; exact h
    · rfl
  unfold memWriteMasked
  by_cases hm : mask = 2 ^ 64 - 1 <;> by_cases h : alGet m.tags la = key <;>
    simp only [hm, h, if_true, if_false, alGet_tags_setTag]
  all_goals exact same h

variable {la : Nat} (hla : la % 64 = 0)
include hla

/-- A write leaves every cell of another line as it was. -/
theorem byteAt_memWriteMasked_other (key : Option (BitVec 512)) {c : Nat} (hc : lineOf c ≠ la) :
    byteAt (memWriteMasked m key la mask d).cells c = byteAt m.cells c := by
  have out : ¬ (la ≤ c ∧ c < la + 64) := (within_line_iff hla c).not.2 hc
  by_cases h : alGet m.tags la = key
  · rw [cells_memWriteMasked, if_pos h, byteAt_wrMasked, if_neg fun hb => out ⟨hb.1, hb.2.1⟩]
  · rw [cells_memWriteMasked, if_neg h, byteAt_wrBytes, if_neg out]

/-- R4, R120, R121: the bytes that the mask names are read back under the write's key, the others of the line as before. -/
theorem memRead_memWriteMasked_line (key : Option (BitVec 512)) {a : Nat} (ha : lineOf a = la) :
    memRead (memWriteMasked m key la mask d) key a 1 =
      if mask.testBit (a % 64) then d / 256 ^ (a % 64) % 256 else memRead m key a 1 := by
  have ht : alGet (memWriteMasked m key la mask d).tags (lineOf a) = key := by rw [alGet_tags_memWriteMasked, if_pos ha]
  have hb := (within_line_iff hla a).2 ha
  rw [memRead_of_tag ht, rdBytes_one]
  by_cases h : alGet m.tags la = key
  · rw [cells_memWriteMasked, if_pos h, byteAt_wrMasked, memRead_of_tag (by rwa [ha]), rdBytes_one, sub_line ha]
    by_cases hk : mask.testBit (a % 64) = true <;> simp [hb, hk]
  · rw [cells_memWriteMasked, if_neg h, byteAt_wrBytes, if_pos hb, sub_line ha, BitVec.toNat_ofNat,
      memRead_of_tag_ne (by rwa [ha]), ha, Nat.pow_one]
    exact mergeBytes_digit mask d _ (Nat.mod_lt a (by decide))

/-- Every byte of another line reads as before, under every key. -/
theorem memRead_memWriteMasked_other (key other : Option (BitVec 512)) {a : Nat} (ha : lineOf a ≠ la) :
    memRead (memWriteMasked m key la mask d) other a 1 = memRead m other a 1 :=
  memRead_byte_congr other (by rw [alGet_tags_memWriteMasked, if_neg ha]) fun _ hc =>
    byteAt_memWriteMasked_other m mask d hla key (hc ▸ ha)

end

/-- Settles O51, by the two cases of the line's tag: the write's key or another. -/
theorem memoryBytes : Obligations.MemoryBytes := by
  unfold Obligations.MemoryBytes
  intro m key other la mask d a n hla
  exact ⟨fun h => wf_memWriteMasked h key la mask d, memRead_memWriteMasked_line m mask d hla key,
    memRead_memWriteMasked_other m mask d hla key other, memRead_eq_sum_bytes m key⟩

end Sys2Proof.Proofs
end

