-- ==== Sys2Proof/Proofs/StepKeepsMemory.lean ====
section
/-! PROOFS. Every step keeps the memory in its canonical form. -/
namespace Sys2Proof.Proofs
open Sys2Proof.Machine Sys2Proof.Laws

/-- Settles O58: a step is `stepWith` over the meanings of the instructions, each of which keeps the form. -/
theorem stepKeepsMemory : Obligations.StepKeepsMemory := by
  unfold Obligations.StepKeepsMemory
  intro s t hs hstep
  have hout : OutGood (step s) := stepWith_keeps exec s exec_keeps hs
  exact next_good hstep hout

end Sys2Proof.Proofs
end

