-- ==== Sys2Proof/Proofs/Tables.lean ====
section
/-! PROOFS. Sparse tables read with a default, and the entry of a stack, core, array or control core after a change of it. -/
namespace Sys2Proof.Proofs
open Sys2Proof.Machine Sys2Proof.Laws

section
variable {α : Type} (l : AL α) (k : Nat) (d d' v : α) (f : α → α)

@[simp] theorem alGetD_nil : alGetD [] k d = d := rfl
@[simp] theorem alGetD_alSet_same : alGetD (alSet l k v) k d = v := by simp [alGetD]
theorem alGetD_alSet_ne {j : Nat} (h : j ≠ k) : alGetD (alSet l k v) j d = alGetD l j d := by
  rw [alGetD, alGet_alSet_ne l v h, alGetD]
@[simp] theorem alGetD_alMod_same : alGetD (alMod l k d f) k d' = f (alGetD l k d) := alGetD_alSet_same ..

/-- A table that lists a value for every key below n. -/
theorem alGetD_map_range (g : Nat → α) {n : Nat} (h : k < n) :
    alGetD ((List.range n).map (fun i => (i, g i))) k d = g k := by
  have listed : ∀ is : List Nat, k ∈ is → alGet (is.map (fun i => (i, g i))) k = some (g k) := by
    intro is
    induction is with
    | nil => simp
    | cons i is ih =>
      intro hk
      by_cases hi : i = k
      · simp [alGet, hi]
      · simpa [alGet, hi] using ih ((List.mem_cons.1 hk).resolve_left (Ne.symm hi))
  rw [alGetD, listed _ (List.mem_range.2 h), Option.getD_some]

end

@[simp] theorem stackD_modStack (s : State) (k : Nat) (f : Stack → Stack) : (s.modStack k f).stackD k = f (s.stackD k) :=
  alGetD_alMod_same ..
@[simp] theorem coreD_modCore (s : State) (c : Nat) (f : Core → Core) : (s.modCore c f).coreD c = f (s.coreD c) := alGetD_alMod_same ..
@[simp] theorem arrD_modArr (s : State) (a : Nat) (f : Arr → Arr) : (s.modArr a f).arrD a = f (s.arrD a) := alGetD_alMod_same ..

theorem thr?_modThr (s : State) (t : Nat) (f : Thr → Thr) {th : Thr} (h : s.thr? t = some th) : (s.modThr t f).thr? t = some (f th) := by
  have h' : alGet s.thrs t = some th := h
  show alGet (alAdj s.thrs t f) t = _
  rw [alGet_alAdj, if_pos rfl, h', Option.map_some]

end Sys2Proof.Proofs
end

