-- ==== Sys2Proof/Proofs/ResetState.lean ====
section
/-! PROOFS. The machine after reset. -/
namespace Sys2Proof.Proofs
open Sys2Proof.Machine Sys2Proof.Laws

/-- R36: every control core but core 0 is held. -/
theorem ctlD_reset_held {k : Nat} (h : 1 ≤ k) : (State.reset.ctlD k).st = .held := by
  have hk : 0 ≠ k := by omega
  simp [State.ctlD, State.reset, alGetD, alGet, hk, Ctl.held]

/-- Settles O59: every table of the reset machine is empty, so what a reader finds is the default; control core 0 alone is listed. -/
theorem resetState : Obligations.ResetState := by
  unfold Obligations.ResetState
  exact ⟨wf_reset, fun _ => rfl, rfl, rfl, rfl, rfl, rfl, rfl, rfl, rfl, rfl, rfl, fun _ => rfl, rfl,
    fun _ h _ => ctlD_reset_held h, fun _ _ => rfl, fun _ => rfl, fun _ _ => rfl, fun _ _ => ⟨rfl, rfl⟩, rfl, rfl, rfl, rfl⟩

end Sys2Proof.Proofs
end

