-- ==== Sys2Proof/Proofs/FaultEntry.lean ====
section
/-! PROOFS. Taking a fault (R295 to R309): what an abandoned run leaves, how a fault comes to be held, and the outcome that its route
gives it once its record is written. -/
namespace Sys2Proof.Proofs
open Sys2Proof.Machine Sys2Proof.Laws

/-! ### The run abandoned (R167) -/

/-- A thread as its run abandoned leaves it. -/
def unrun (th : Thr) : Thr := { th with
  p := th.rt.chk, spos := th.rt.spos0, rt := .empty, waits := [], link := th.link.map (fun m => { m with held := none }) }

/-- An abandoned run changes the table of threads and, if the thread stands in a group, its lane. -/
theorem abandon_eq (s : State) {t : Nat} {th : Thr} (h : s.thr? t = some th) :
    ∃ lanes, s.abandon t = { s with thrs := alAdj s.thrs t (fun x => unrun x), lanes := lanes } := by
  unfold State.abandon
  simp only [h]
  split
  · split
    · exact ⟨_, rfl⟩
    · exact ⟨_, rfl⟩
  · exact ⟨_, rfl⟩

theorem thr?_abandon {s : State} {t : Nat} {th : Thr} (h : s.thr? t = some th) : (s.abandon t).thr? t = some (unrun th) := by
  obtain ⟨lanes, e⟩ := abandon_eq s h
  rw [e]
  exact thr?_modThr s t _ h

theorem ctxs_abandon {s : State} {t : Nat} {th : Thr} (h : s.thr? t = some th) : (s.abandon t).ctxs = s.ctxs := by
  obtain ⟨lanes, e⟩ := abandon_eq s h
  rw [e]

/-! ### The fault held (R296) -/

/-- R25: a Root engine stops with the class of its fault. -/
theorem takeFaultAt_root {s : State} {t rpc : Nat} {th : Thr} {f : FaultInfo} (h : s.thr? t = some th)
    (hr : isRoot (laneCore (s.seatOf t).1) = true) :
    s.takeFaultAt t f rpc = s.stopRoot t (laneCore (s.seatOf t).1) .fault f.cls (th.pc % 2 ^ 18) := by
  simp only [State.takeFaultAt, h, hr, if_true]

/-- The state in which a thread's fault is counted: its run abandoned where the class asks for it, FSEQ of its core moved on. -/
def faultCounted (s : State) (t core : Nat) (f : FaultInfo) : State :=
  let a := if regionClass f.cls then s.abandon t else s
  a.modCore core (fun c => { c with fseq := (a.coreD core).fseq + 1 })

theorem ctxD_faultCounted {s : State} {t : Nat} {th : Thr} (h : s.thr? t = some th) (core : Nat) (f : FaultInfo) (c : Nat) :
    (faultCounted s t core f).ctxD c = s.ctxD c := by
  have e : (faultCounted s t core f).ctxs = s.ctxs := by
    show (if regionClass f.cls then s.abandon t else s).ctxs = s.ctxs
    split
    · exact ctxs_abandon h
    · rfl
  rw [State.ctxD, e, State.ctxD]

/-- A control core without a context apart, the fault is held for the end of its run. -/
theorem takeFaultAt_held {s : State} {t rpc : Nat} {th : Thr} {f : FaultInfo} (h : s.thr? t = some th)
    (hr : isRoot (laneCore (s.seatOf t).1) = false)
    (hc : isCtl (laneCore (s.seatOf t).1) = false ∨ (s.ctxD th.id.ctx).st ≠ .free) :
    let core := laneCore (s.seatOf t).1
    let a := if regionClass f.cls then s.abandon t else s
    let b := faultCounted s t core f
    let v : Svc := {
      core := core, fseq := ((a.coreD core).fseq + 1).toNat, recVa := 0, info := f
      resume := if regionClass f.cls then th.rentry else th.pc, st := .held
      svc := (faultRoute b (s.seatOf t).2.1 th f).1, pc := rpc }
    s.takeFaultAt t f rpc = ((b.modThr t (fun th => { th with svc := some v })).settle (s.seatOf t).1).giveFaults core := by
  intro core a b v
  have hfree : (isCtl core && ((faultCounted s t core f).ctxD th.id.ctx).st == .free) = false := by
    rw [ctxD_faultCounted h]
    rcases hc with hc | hc
    · rw [hc, Bool.false_and]
    · rw [Bool.and_eq_false_iff]; exact .inr (beq_false_of_ne hc)
  simp only [faultCounted] at hfree
  simp only [State.takeFaultAt, h, hr, Bool.false_eq_true, if_false, hfree, core]
  rfl

/-! ### The outcome (R296) -/

/-- A held fault that is due gets its record and its outcome, and the next thread's turn comes unless the record still waits. -/
theorem giveGroup_due {s : State} {t : Nat} {th : Thr} {v : Svc} (ts : List Nat) (h : s.thr? t = some th) (hv : th.svc = some v)
    (hd : s.faultDue t = true) :
    let u := s.settleFault t v.fseq v.info v.pc v.resume
    s.giveGroup (t :: ts) = if (u.thr? t).any Thr.unrecorded then u else u.giveGroup ts := by
  simp only [State.giveGroup, h, Option.bind_some, hv, hd, Bool.not_true, Bool.false_eq_true, if_false]

/-- A fault whose record is written at an address gets the outcome of its route. -/
theorem settleFault_written {s u : State} {t fseq rpc resume lane tid va idx : Nat} {th : Thr} {f : FaultInfo} {g : Grp}
    (h : s.thr? t = some th) (hs : s.seatOf t = (lane, g, tid)) (h0 : (th.reg 0).pend = none) (h1 : (th.reg 1).pend = none)
    (hp : let r := faultRoute s g th f
      putRecord (recWho s (laneCore lane) th.id.ctx) (s.ctxD th.id.ctx).flta
        (faultWords lane g tid th f rpc resume fseq r.1 (!r.1 && !r.2.1) r.2.2) s = (u, .at_ va idx)) :
    let r := faultRoute s g th f
    let u := (u.drainCore (laneCore lane)).modThr t (fun th => { th with svc := none })
    s.settleFault t fseq f rpc resume =
      if r.2.2 then u.doubleFault (laneCore lane) th.id.ctx th.id.launch va
      else if r.1 then (u.notice (laneCore lane) th.id.ctx idx).modThr t (fun th =>
        { th with svc := some ⟨laneCore lane, fseq, va, f, resume, .written, true, rpc⟩ })
      else if r.2.1 then u.handTo t (laneCore lane) th.id.ctx va g.trapv
      else u.terminate lane t (some va) := by
  simp only [State.settleFault, h, hs, h0, h1, hp, Option.isSome_none, Bool.or_self, Bool.false_eq_true, if_false]

theorem regionClass_of_ne {cls : Nat} (h10 : cls ≠ 10) (h11 : cls ≠ 11) : regionClass cls = true := by
  simp [regionClass, cMATRIX, cTRAP, h10, h11]

/-- Settles O53: the fault is held by `takeFaultAt_held`, given at its turn, and its outcome is that of its route. -/
theorem faultEntry : Obligations.FaultEntry := by
  unfold Obligations.FaultEntry
  intro s t rpc th f h lane core reg
  refine ⟨takeFaultAt_root h, takeFaultAt_held h, fun v ts hv hd => giveGroup_due ts h hv hd, regionClass_of_ne,
    ⟨_, thr?_abandon h, rfl, rfl, rfl, rfl, rfl⟩, ?_⟩
  intro fseq resume g tid hs h0 h1 r u va idx hp
  have e := settleFault_written h hs h0 h1 hp
  refine ⟨fun hr => ?_, fun hr => ?_, fun hr => ?_, fun hr => ?_⟩
  · exact e.trans (if_pos hr)
  all_goals exact e.trans (by simp only [show faultRoute s g th f = _ from hr]; rfl)

end Sys2Proof.Proofs
end

