-- ==== Sys2Proof/Proofs/PortEvents.lean ====
section
/-! PROOFS. The management port, boot-status frames and PCIe requests (R28, R41, R45). -/
namespace Sys2Proof.Proofs
open Sys2Proof.Machine Sys2Proof.Laws

/-- A port that answers sends one message (R45). -/
theorem answer_eq {s : State} (h : Answers s) (port kind : Nat) (args : List Nat) (c : List Byte) :
    s.answer port kind args c = s.send port (Config.portReply kind (netOf s port ++ args) c) := by
  obtain ⟨hb, hf⟩ := h
  simp only [State.answer, hb, hf, Bool.not_false, Bool.and_self, if_true]

@[simp] theorem length_bytesOf (n v : Nat) : (bytesOf n v).length = n := by
  induction n generalizing v with
  | zero => rfl
  | succ n ih => rw [bytesOf, List.length_cons, ih]

/-- Free bytes move the counter of free values and nothing else (log entry 4). -/
theorem freeBytes_run (n : Nat) (s : State) : ∃ v k, freeBytes n s = .ok v { s with free := k } := by
  induction n generalizing s with
  | zero => exact ⟨0, s.free, rfl⟩
  | succ n ih =>
    obtain ⟨v, k, e⟩ := ih { s with free := s.free + 1 }
    refine ⟨(Config.freeWord s.free).toNat + 2 ^ 64 * v, k, ?_⟩
    have h1 : freeX s = .ok (Config.freeWord s.free) { s with free := s.free + 1 } := rfl
    rw [freeBytes, bind_ok h1, bind_ok e]
    rfl

/-! ### Requests of the management port -/

/-- A measurement request for all blocks gets the four one after the other (R41). -/
theorem measureBlocks_all (p : Pkg) : ([1, 2, 3, 4] : List Nat).flatMap (measureBlock p) =
    measureBlock p 1 ++ measureBlock p 2 ++ measureBlock p 3 ++ measureBlock p 4 := by simp

theorem getMeasurements_block {s : State} (h : Answers s) {i : Nat} (m : Bool) (hi : i ≤ 4) :
    exec (.getMeasurements ⟨i, m⟩) s = .next (s.send 1 (Config.portReply 0xE0 (netOf s 1 ++ [i, 4])
      (if m then measureBlock s.pkg i ++ aliasSign s.pkg (Config.portReply 0xE0 [i, 4] (measureBlock s.pkg i))
        else measureBlock s.pkg i))) := by
  have hne : i ≠ 255 := by omega
  show execGetMeasurements ⟨i, m⟩ s = _
  simp only [execGetMeasurements, hne, if_false, answer_eq h]

theorem getMeasurements_all {s : State} (h : Answers s) (m : Bool) :
    let c := measureBlock s.pkg 1 ++ measureBlock s.pkg 2 ++ measureBlock s.pkg 3 ++ measureBlock s.pkg 4
    exec (.getMeasurements ⟨255, m⟩) s = .next (s.send 1 (Config.portReply 0xE0 (netOf s 1 ++ [255, 4])
      (if m then c ++ aliasSign s.pkg (Config.portReply 0xE0 [255, 4] c) else c))) := by
  show execGetMeasurements ⟨255, m⟩ s = _
  simp only [execGetMeasurements, if_true, measureBlocks_all, answer_eq h]

theorem spdmUnsupported_answers {s : State} (h : Answers s) {c : Nat} (hc : c ∉ spdmCodes) :
    exec (.spdmUnsupportedRequest c) s = .next (s.send 1 (Config.portReply 0x7F (netOf s 1 ++ [c]) [])) := by
  show execSpdmUnsupportedRequest c s = _
  simp only [execSpdmUnsupportedRequest, List.contains_iff_mem, hc, if_false, answer_eq h]

theorem redfish_answers {s : State} (h : Answers s) {r i : Nat} (hr : (r = 1 ∧ i < 8) ∨ (r = 2 ∧ i < 16)) :
    exec (.redfishRequest r i) s = .next (s.send 2 (Config.portReply r (netOf s 2 ++ [i]) (redfishData s r i))) := by
  have hne : ¬ (r = 0 ∧ i = 0) := by omega
  show execRedfishRequest r i s = _
  simp only [execRedfishRequest, hne, if_false, hr, if_true, answer_eq h]

theorem redfish_chassis {s : State} (h : Answers s) : ∃ v k, exec (.redfishRequest 0 0) s =
    .next (({ s with free := k } : State).send 2 (Config.portReply 0 (netOf s 2 ++ [0]) (bytesOf (8 * allDies.length) v))) := by
  obtain ⟨v, k, e⟩ := freeBytes_run allDies.length s
  have hk : Answers { s with free := k } := h
  refine ⟨v, k, ?_⟩
  show execRedfishRequest 0 0 s = _
  simp only [execRedfishRequest, and_self, if_true, State.chassis, e, answer_eq hk]
  rfl

/-! ### Images (R38, R45) -/

/-- The store without the records of a type in a slot. -/
def norWithout (p : Pkg) (slot typ : Nat) : List (Nat × List Byte) := p.nor.filter (fun e => !(e.1 == slot && recType e.2 == typ))

@[simp] theorem nor_answer (s : State) (port kind : Nat) (args : List Nat) (c : List Byte) :
    (s.answer port kind args c).pkg.nor = s.pkg.nor := by
  unfold State.answer; split <;> rfl

/-- An image written goes into the inactive slot, in place of its type there. -/
theorem imageWrite_nor {s : State} (h : Answers s) {r : List Byte} (ht : recType r = 1 ∨ recType r = 2) :
    ∃ t : State, exec (.updateserviceImageWrite r) s = .next t ∧
      t.pkg.nor = (({ s.pkg with nor := norWithout s.pkg (1 - s.pkg.slot) (recType r) } : Pkg).norAdd (1 - s.pkg.slot) r).nor := by
  obtain ⟨hb, hf⟩ := h
  have taken : ¬ (!booted s || s.isFrozen mgmtMid || (recType r != 1 && recType r != 2)) = true := by
    rcases ht with ht | ht <;> simp [hb, hf, ht]
  exact ⟨_, congrArg Host.Outcome.next (if_neg taken), nor_answer ..⟩

theorem mem_nor_norAdd_of_mem {p : Pkg} {slot : Nat} {r : List Byte} {e : Nat × List Byte} (h : e ∈ p.nor) :
    e ∈ (p.norAdd slot r).nor := by
  unfold Pkg.norAdd
  split
  · exact List.mem_append_left _ h
  · exact h

theorem mem_nor_norAdd_of_fits {p : Pkg} {slot : Nat} {r : List Byte}
    (h : (p.nor.map (fun e => e.2.length)).foldl (· + ·) r.length ≤ 2 ^ 26) : (slot, r) ∈ (p.norAdd slot r).nor := by
  rw [Pkg.norAdd, norBytes, if_pos h]
  exact List.mem_append_right _ (List.mem_singleton_self _)

/-- Records of the active slot stay, and one that fits is there. -/
theorem imageWrite_keeps_active {s : State} (h : Answers s) {r : List Byte} (ht : recType r = 1 ∨ recType r = 2) :
    ∃ t : State, exec (.updateserviceImageWrite r) s = .next t ∧
      (∀ e ∈ s.pkg.nor, e.1 = s.pkg.slot → s.pkg.slot ≤ 1 → e ∈ t.pkg.nor) ∧
      (((norWithout s.pkg (1 - s.pkg.slot) (recType r)).map (fun e => e.2.length)).foldl (· + ·) r.length ≤ 2 ^ 26 →
        (1 - s.pkg.slot, r) ∈ t.pkg.nor) := by
  obtain ⟨t, e, hn⟩ := imageWrite_nor h ht
  refine ⟨t, e, fun x hx hslot hle => ?_, fun hfit => ?_⟩
  · rw [hn]
    have hne : x.1 ≠ 1 - s.pkg.slot := by omega
    exact mem_nor_norAdd_of_mem (List.mem_filter.2 ⟨hx, by simp [hne]⟩)
  · rw [hn]
    exact mem_nor_norAdd_of_fits hfit

/-! ### Boot-status frames (Table 2.5) -/

/-- The bytes of a frame. -/
def bootFrame (s : State) : List Byte :=
  bytesNet 6 (2 ^ 48 - 1) ++ bytesNet 6 (macOf s) ++ bytesNet 2 0x88B5 ++ bytesOf 1 1 ++ bytesOf 1 1 ++ bytesOf 2 56 ++
    bytesOf 8 (s.sys.bootStage.toNat * 256 + s.sys.bootFail.toNat) ++ bytesOf 32 s.pkg.devPub.toNat ++
    bytesOf 8 s.pkg.fseq.toNat ++ bytesOf 8 0

theorem length_bootFrame (s : State) : (bootFrame s).length = 74 := by simp [bootFrame, bytesNet]

theorem bootStatusFrame_sends {s : State} (h : booted s = false) : exec .bootStatusFrame s =
    .next (({ s with pkg := { s.pkg with fseq := s.pkg.fseq + 1 } } : State).send 0 (bootFrame s)) :=
  congrArg Host.Outcome.next (if_neg (by rw [h]; exact Bool.false_ne_true))

/-! ### PCIe (R28) -/

section
variable {s t : State} {port pa len : Nat} (hp : port < 16) (hf : s.isFrozen (pcieMid port) = false) (ha : pa + len ≤ 2 ^ 50)
include hp hf ha

theorem pcie_taken : (port ≥ 16 || s.isFrozen (pcieMid port) || pa + len > 2 ^ 50 : Bool) = false := by
  simp only [hf, Bool.or_false, Bool.or_eq_false_iff, decide_eq_false_iff_not]
  omega

theorem pcie_write {bs : List Byte}
    (h : writeLines ⟨pcieMid port, 16, 0, none, false, some 0⟩ pa (len / 64 + 2) len (numOf (bs.take len)) s = .ok () t) :
    exec (.pcieInboundRequest port true pa len bs) s = .next t := by
  show execPcieInboundRequest port true pa len bs s = _
  simp only [execPcieInboundRequest, pcie_taken hp hf ha, Bool.false_eq_true, if_false, if_true, attempt, h]

theorem pcie_read {v : Nat} {po : Bool} (bs : List Byte)
    (h : readLines ⟨pcieMid port, 16, 0, none, false, some 0⟩ .read pa (len / 64 + 2) len s = .ok (v, po) t) :
    exec (.pcieInboundRequest port false pa len bs) s = .next (t.send (4 + port) (bytesOf len v)) := by
  show execPcieInboundRequest port false pa len bs s = _
  simp only [execPcieInboundRequest, pcie_taken hp hf ha, Bool.false_eq_true, if_false, attempt, h]

end

/-- Settles O37: every request of the management port is `answer_eq`, a PCIe request is what its lines come to. -/
theorem portEvents : Obligations.PortEvents := by
  unfold Obligations.PortEvents
  intro s sent signed
  refine ⟨fun h => ?_, fun h => ⟨_, _, bootStatusFrame_sends h, length_bootFrame s, rfl⟩, fun port pa len t v hp hf ha =>
    ⟨fun bs => pcie_write hp hf ha, fun po bs => pcie_read hp hf ha bs⟩⟩
  have plain : ∀ kind args c, Host.Outcome.next (s.answer 1 kind args c) = sent 1 kind args c := fun kind args c => by
    rw [answer_eq h]; rfl
  refine ⟨plain .., plain .., plain .., plain .., fun _ _ => plain .., fun _ => plain .., fun i m _ hi => getMeasurements_block h m hi,
    getMeasurements_all h, fun c => spdmUnsupported_answers h, fun r i => redfish_answers h, ?_, fun r => imageWrite_keeps_active h⟩
  obtain ⟨v, k, e⟩ := redfish_chassis h
  exact ⟨_, _, e, length_bytesOf .., rfl⟩

end Sys2Proof.Proofs
end

