-- ==== Sys2Proof/Proofs/StackRequests.lean ====
section
/-! PROOFS. Requests to a base die (R21 to R27): a well-formed one passes its checks once, and what each command then does. -/
namespace Sys2Proof.Proofs
open Sys2Proof.Machine Sys2Proof.Laws

/-! ### What the DRAM finds at the lines of a request (R27) -/

/-- Nothing stands in a line. -/
def Sound (m : Memory) (a : Nat) : Prop := alGet m.flaws a = none ∧ a ∉ m.poison

theorem meetLine_sound {s : State} {a : Nat} (h : Sound s.mem a) (mid tag : Nat) : s.meetLine mid tag a = s := by
  obtain ⟨hf, hp⟩ := h
  simp [State.meetLine, hf, hp]

/-- A line without an error in the DRAM is reported if it is poisoned: the memory stays. -/
theorem mem_meetLine_of_flawless {s : State} {a : Nat} (h : alGet s.mem.flaws a = none) (mid tag : Nat) :
    (s.meetLine mid tag a).mem = s.mem := by
  simp only [State.meetLine, h]
  split <;> rfl

theorem foldl_meetLine_sound {s : State} {las : List Nat} (h : ∀ a ∈ las, Sound s.mem a) (mid tag : Nat) :
    las.foldl (fun s a => s.meetLine mid tag a) s = s := by
  induction las with
  | nil => rfl
  | cons a las ih =>
    rw [List.foldl_cons, meetLine_sound (h a (List.mem_cons_self ..))]
    exact ih fun b hb => h b (List.mem_cons_of_mem _ hb)

theorem mem_foldl_meetLine_flawless {s : State} {las : List Nat} (h : ∀ a ∈ las, alGet s.mem.flaws a = none) (mid tag : Nat) :
    (las.foldl (fun s a => s.meetLine mid tag a) s).mem = s.mem := by
  induction las generalizing s with
  | nil => rfl
  | cons a las ih =>
    have e := mem_meetLine_of_flawless (h a (List.mem_cons_self ..)) mid tag
    rw [List.foldl_cons, ih (by rw [e]; exact fun b hb => h b (List.mem_cons_of_mem _ hb)), e]

/-- Status OK and no change where nothing stands in the lines. -/
theorem meetReq_sound {s : State} {las : List Nat} (h : ∀ a ∈ las, Sound s.mem a) (hd : Line) : s.meetReq hd las = (s, 0) := by
  have ue : las.any (fun a => s.mem.poison.contains a && !s.mem.l2p.contains a) = false :=
    List.any_eq_false.2 fun a ha => by simp [(h a ha).2]
  have ce : las.any (fun a => match alGet s.mem.flaws a with | some (.corrected _) => true | _ => false) = false :=
    List.any_eq_false.2 fun a ha => by simp [(h a ha).1]
  simp only [State.meetReq, foldl_meetLine_sound h, ue, Bool.false_eq_true, if_false]
  exact congrArg (Prod.mk s) (if_neg (by rw [Bool.not_eq_true]; exact ce))

/-- Status UE where a line is poisoned in the DRAM. -/
theorem meetReq_poisoned {s : State} {las : List Nat} (h : ∃ a ∈ las, a ∈ s.mem.poison ∧ a ∉ s.mem.l2p)
    (hf : ∀ a ∈ las, alGet s.mem.flaws a = none) (hd : Line) : ∃ t, s.meetReq hd las = (t, 2) := by
  obtain ⟨a, ha, hp, hl⟩ := h
  have ue : las.any (fun a => s.mem.poison.contains a && !s.mem.l2p.contains a) = true :=
    List.any_eq_true.2 ⟨a, ha, by simp [hp, hl]⟩
  refine ⟨las.foldl (fun s a => s.meetLine (hMid hd) (hTag hd) a) s, ?_⟩
  simp only [State.meetReq, mem_foldl_meetLine_flawless hf, ue, if_true]

/-! ### The data slot of an ERRPOLL (R27) -/

/-- Reports one above the other, the first lowest. -/
def packed : List (BitVec 128) → Nat
  | [] => 0
  | e :: es => e.toNat + 2 ^ 128 * packed es

/-- The data slot: up to four reports, the oldest lowest. -/
def pollLine (es : List (BitVec 128)) : Line :=
  BitVec.ofNat 512 (((es.take 4).zipIdx.map (fun e => e.1.toNat * 2 ^ (128 * e.2))).foldl (· + ·) 0)

theorem sum_zipIdx_eq_packed (es : List (BitVec 128)) (k : Nat) :
    ((es.zipIdx k).map (fun e => e.1.toNat * 2 ^ (128 * e.2))).sum = 2 ^ (128 * k) * packed es := by
  induction es generalizing k with
  | nil => rfl
  | cons e es ih => rw [List.zipIdx_cons, List.map_cons, List.sum_cons, ih, packed, Nat.mul_add_one, Nat.pow_add]; ring

theorem packed_lt (es : List (BitVec 128)) : packed es < 2 ^ (128 * es.length) := by
  induction es with
  | nil => decide
  | cons e es ih =>
    have he := e.isLt
    rw [packed, List.length_cons, Nat.mul_add_one, Nat.pow_add]
    calc e.toNat + 2 ^ 128 * packed es < 2 ^ 128 * (packed es + 1) := by omega
      _ ≤ 2 ^ 128 * 2 ^ (128 * es.length) := Nat.mul_le_mul_left _ ih
      _ = _ := Nat.mul_comm ..

theorem packed_digit (es : List (BitVec 128)) (i : Nat) : packed es / 2 ^ (128 * i) % 2 ^ 128 = (es.getD i 0).toNat := by
  induction es generalizing i with
  | nil => simp [packed]
  | cons e es ih =>
    cases i with
    | zero => rw [packed, Nat.mul_zero, Nat.pow_zero, Nat.div_one, Nat.add_mul_mod_self_left, Nat.mod_eq_of_lt e.isLt]; rfl
    | succ i =>
      rw [packed, Nat.mul_add_one, Nat.add_comm (128 * i), Nat.pow_add, ← Nat.div_div_eq_div_mul,
        Nat.add_mul_div_left _ _ (by decide), Nat.div_eq_of_lt e.isLt, Nat.zero_add, ih]
      rfl

theorem pollLine_report (es : List (BitVec 128)) {i : Nat} (h : i < 4) :
    (pollLine es).extractLsb' (128 * i) 128 = es.getD i 0 := by
  have four : 128 * (es.take 4).length ≤ 512 := by have := List.length_take_le 4 es; omega
  have hlt := Nat.lt_of_lt_of_le (packed_lt (es.take 4)) (Nat.pow_le_pow_right (by decide) four)
  apply BitVec.eq_of_toNat_eq
  rw [BitVec.extractLsb'_toNat, pollLine, ← List.sum_eq_foldl, sum_zipIdx_eq_packed, Nat.mul_zero, Nat.pow_zero, Nat.one_mul,
    BitVec.toNat_ofNat, Nat.mod_eq_of_lt hlt, Nat.shiftRight_eq_div_pow, packed_digit]
  simp [List.getD_eq_getElem?_getD, h]

/-! ### The checks of a request -/

section
variable {s : State} {stk : Nat} {h : Line} {data : List Line} (hs : stk < 16) (hl : 32 + stk ∉ s.pkg.fenced)
  (ht : tagFree s stk h = true)
include hs hl ht

/-- A well-formed request has its effect (R21, R22). -/
theorem stackReq_ok {cmd : Nat} {ok : Bool} (hc : hCmd h = cmd) (hok : ok = true) (f : State → State) :
    s.stackReq stk cmd h ok f = f s := by
  have open_ : ¬ (stk ≥ 16 || s.pkg.fenced.contains (32 + stk) || !tagFree s stk h) = true := by simp [hs, hl, ht]
  simp only [State.stackReq, if_neg open_]
  rw [if_neg (by simp [hc]), if_neg (by simp [hc, hok])]

/-- A well-formed ROOT command of a control core that the endpoint passes on has its effect (R25, R42). -/
theorem rootReq_ok {sub : Nat} {ok : Bool} (hc : hCmd h = 16) (hsub : hSub h = sub) (hr : rootOk h data = true) (hok : ok = true)
    (hm : isCtlMid (hMid h) = true) (hi : reqInside s stk h 1 = true)
    (ha : accCheck (s.table (endpointOf (directPa stk (hAddr h)))) (hMid h) .command (directPa stk (hAddr h)) = none)
    (f : State → State) : s.rootReq stk sub h data ok f = f s := by
  have own : ¬ (hCmd h = 16 ∧ hSub h ≠ sub ∧ 1 ≤ hSub h ∧ hSub h ≤ 4) := fun x => x.2.1 hsub
  rw [State.rootReq, if_neg own, stackReq_ok hs hl ht hc (by simp [hr, hsub, hok])]
  simp only [hm, hi, Bool.not_true, Bool.false_eq_true, if_false, State.commandTo, ha]

/-! ### Memory commands (R22, R24) -/

section
variable (hi : reqInside s stk h (hBytes h) = true)
include hi

theorem stackRead_meets (hc : hCmd h = 1) (hh : headOk h false false false = true) (hz : sizeAligned h = true) (hd : data = [])
    {t : State} {status : Nat} (hm : s.meetReq h (reqLines stk h) = (t, status)) :
    exec (.stackRead stk h data) s = .next (t.respond stk h status
      ((reqLines stk h).map (fun a => BitVec.ofNat 512 (memRead s.mem none a 64)))) := by
  show execStackRead stk h data s = _
  rw [execStackRead, stackReq_ok hs hl ht hc (by simp [hh, hz, hd])]
  simp only [hi, Bool.not_true, Bool.false_eq_true, if_false, hm]

theorem stackWrite_ok (hc : hCmd h = 2) (hh : headOk h false false false = true) (hz : sizeAligned h = true)
    (hd : data.length = hSize h + 1) : exec (.stackWrite stk h data) s = .next (({ s with
      mem := stackPut s.mem false (((reqLines stk h).zip data).map (fun x => (x.1, 2 ^ 64 - 1, x.2))) } : State).respond stk h 0 []) := by
  show execStackWrite stk h data s = _
  rw [execStackWrite, stackReq_ok hs hl ht hc (by simp [hh, hz, hd])]
  simp only [hi, Bool.not_true, Bool.false_eq_true, if_false]

theorem stackWritem_ok (hc : hCmd h = 3) (hh : headOk h false true false = true) (hz : sizeAligned h = true)
    (hd : data.length = hSize h + 1) : exec (.stackWritem stk h data) s = .next (({ s with
      mem := stackPut s.mem true (((reqLines stk h).zip data).zipIdx.map
        (fun x => (x.1.1, hMask h / 2 ^ (64 * x.2) % 2 ^ 64, x.1.2))) } : State).respond stk h 0 []) := by
  show execStackWritem stk h data s = _
  rw [execStackWritem, stackReq_ok hs hl ht hc (by simp [hh, hz, hd])]
  simp only [hi, Bool.not_true, Bool.false_eq_true, if_false]

end

theorem stackAtomic_ok (hc : hCmd h = 8) (hh : headOk h true false true = true) (h0 : hSize h = 0) (hsub : hSub h ≤ 17)
    (hz : atomZero h = true) (hal : hAddr h % atomBytes (hSub h) = 0) (hd : data = [])
    (hi : reqInside s stk h (atomBytes (hSub h)) = true) (hm : Sound s.mem (lineOf (directPa stk (hAddr h)))) :
    let n := atomBytes (hSub h)
    let pa := directPa stk (hAddr h)
    let old := memRead s.mem none pa n
    exec (.stackAtomic stk h data) s = .next (({ s with
      mem := memWrite s.mem none pa n (atomNew (hSub h) old (hOpnd h % 2 ^ 64) (hOpnd h / 2 ^ 64)) } : State).respond
        stk h 0 [BitVec.ofNat 512 old]) := by
  have met : s.meetReq h [lineOf (directPa stk (hAddr h))] = (s, 0) := meetReq_sound (by simpa using hm) h
  show execStackAtomic stk h data s = _
  rw [execStackAtomic, stackReq_ok hs hl ht hc (by simp [hh, h0, hsub, hz, hal, hd])]
  simp only [hi, Bool.not_true, Bool.false_eq_true, if_false, met]
  exact congrArg Host.Outcome.next (if_neg (by simp [hm.2]))

/-! ### Access table, geometry, reports (R26, R27, R42) -/

theorem stackAcct_ok (hc : hCmd h = 17) (hh : headOk h false false false = true) (h0 : hSize h = 0) (hal : hAddr h % 64 = 0)
    (hi : reqInside s stk h 1 = true) (hm : isCtlMid (hMid h) = true) {d : Line} (hd : data = [d]) (hw : d.toNat < 2 ^ 128)
    (hk : (alGetD (s.table ((32 + stk) * 1024)) (hAddr h / 64 % 64) 0).getLsbD 6 = false) :
    exec (.stackAcct stk h data) s = .next ((s.writeAcc (hMid h) ((32 + stk) * 1024) (hAddr h / 64 % 64)
      (BitVec.ofNat 128 d.toNat)).respond stk h 0 []) := by
  subst hd
  show execStackAcct stk h [d] s = _
  rw [execStackAcct, stackReq_ok hs hl ht hc (by simpa [hh, h0, hal] using hw)]
  simp only [hi, hm, hk, Bool.not_true, Bool.not_false, Bool.and_self, Bool.false_eq_true, if_false, if_true, List.headD_cons]

section
variable (hh : headOk h false false false = true) (h0 : hSize h = 0) (ha : hAddr h = 0) (hd : data = [])
include hh h0 ha hd

theorem stackDisc_ok (hc : hCmd h = 24) : exec (.stackDisc stk h data) s = .next (s.respond stk h 0 [discPage s.mem stk]) := by
  show execStackDisc stk h data s = _
  rw [execStackDisc, stackReq_ok hs hl ht hc (by simp [hh, h0, ha, hd])]

theorem stackErrpoll_ok (hc : hCmd h = 26) : exec (.stackErrpoll stk h data) s =
    .next ((s.modStack stk (fun k => { k with errs := k.errs.drop 4 })).respond stk h 0 [pollLine (s.stackD stk).errs]) := by
  show execStackErrpoll stk h data s = _
  rw [execStackErrpoll, stackReq_ok hs hl ht hc (by simp [hh, h0, ha, hd])]
  rfl

end

/-! ### Root commands (R25, Table 1.8) -/

section
variable (hc : hCmd h = 16) (hr : rootOk h [] = true) (hm : isCtlMid (hMid h) = true) (hi : reqInside s stk h 1 = true)
  (ha : accCheck (s.table (endpointOf (directPa stk (hAddr h)))) (hMid h) .command (directPa stk (hAddr h)) = none)
include hc hr hm hi ha

theorem rootLoadi_ok (hsub : hSub h = 1) (hrun : rootRuns s stk = false) (h64 : hOpnd h % 2 ^ 32 % 64 = 0)
    (hfit : hOpnd h % 2 ^ 32 ≤ 262144) (hin : reqInside s stk h (hOpnd h % 2 ^ 32) = true) :
    let ls := (List.range (hOpnd h % 2 ^ 32 / 64)).map (fun i => directPa stk (hAddr h) + 64 * i)
    (∀ a ∈ ls, Sound s.mem a) → exec (.rootLoadi stk h []) s = .next ((s.modStack stk (fun k => { k with
      sram := ls.zipIdx.foldl (fun m a => wrBytes m (64 * a.2) 64 (memRead s.mem none a.1 64)) (s.stackD stk).sram })).respond
        stk h 0 [0]) := by
  intro ls hls
  have fits : (hOpnd h % 2 ^ 32 % 64 == 0 && decide (hOpnd h % 2 ^ 32 ≤ Config.sramBytes)) = true :=
    Bool.and_eq_true_iff.2 ⟨beq_iff_eq.2 h64, decide_eq_true hfit⟩
  have met : s.meetReq h ls = (s, 0) := meetReq_sound hls h
  show execRootLoadi stk h [] s = _
  rw [execRootLoadi, rootReq_ok hs hl ht hc hsub hr fits hm hi ha]
  simp only [hrun, hin, Bool.not_true, Bool.false_eq_true, if_false]
  simp only [show s.meetReq h ((List.range (hOpnd h % 2 ^ 32 / 64)).map (fun i => directPa stk (hAddr h) + 64 * i)) = (s, 0) from met]
  rfl

theorem rootStart_ok (hsub : hSub h = 2) (hrun : rootRuns s stk = false) (h12 : hOpnd h % 2 ^ 18 % 12 = 0) :
    exec (.rootStart stk h []) s = .next ((((s.startEdge stk (hMid h)).modStack stk (fun k => { k with
      root := .running, cls := 0, pcOff := hOpnd h % 2 ^ 18, stopReq := false, compl := hAddr h })).startSolo (544 + stk) 0
        (hOpnd h % 2 ^ 18) 0 [w32 (hOpnd h), w32 (hOpnd h / 2 ^ 32)]).respond stk h 0 [0]) := by
  show execRootStart stk h [] s = _
  rw [execRootStart, rootReq_ok hs hl ht hc hsub hr (by rw [h12]; rfl) hm hi ha]
  simp only [hrun, Bool.false_eq_true, if_false]

theorem rootStop_idle (hsub : hSub h = 3) (hrun : rootRuns s stk = false) :
    exec (.rootStop stk h []) s = .next (s.respond stk h 0 [0]) := by
  show execRootStop stk h [] s = _
  rw [execRootStop, rootReq_ok hs hl ht hc hsub hr rfl hm hi ha]
  simp only [hrun, Bool.not_false, if_true]

theorem rootStop_inRun (hsub : hSub h = 3) (hrun : rootRuns s stk = true) {t : Nat} {th : Thr} (hth : rootThread s stk = some (t, th))
    (hin : (s.laneD (coreLane (544 + stk) 0)).run.isSome = true) : exec (.rootStop stk h []) s =
      .next ((s.modStack stk (fun k => { k with stopReq := true })).respond stk h 0 [0]) := by
  have inRun : (s.laneD (coreLane (544 + stk) 0)).run.isNone = false := by rw [← Option.not_isSome, hin]; rfl
  show execRootStop stk h [] s = _
  rw [execRootStop, rootReq_ok hs hl ht hc hsub hr rfl hm hi ha]
  simp only [hrun, Bool.not_true, hth, inRun, Bool.false_eq_true, if_false]

theorem rootStop_between (hsub : hSub h = 3) (hrun : rootRuns s stk = true) {t : Nat} {th : Thr} (hth : rootThread s stk = some (t, th))
    (hout : (s.laneD (coreLane (544 + stk) 0)).run = none) : exec (.rootStop stk h []) s =
      .next ((s.stopRoot t (544 + stk) .stopped 0 (th.pc % 2 ^ 18)).respond stk h 0 [0]) := by
  show execRootStop stk h [] s = _
  rw [execRootStop, rootReq_ok hs hl ht hc hsub hr rfl hm hi ha]
  simp only [hrun, Bool.not_true, hth, hout, Option.isNone_none, Bool.false_eq_true, if_false, if_true]

theorem rootStatus_ok (hsub : hSub h = 4) :
    exec (.rootStatus stk h []) s = .next (s.respond stk h 0 [BitVec.ofNat 512 (rootWord s stk)]) := by
  show execRootStatus stk h [] s = _
  rw [execRootStatus, rootReq_ok hs hl ht hc hsub hr rfl hm hi ha]

end

end

/-! ### Responses (R23) -/

/-- A response that waits with the tag leaves its stack, and the reports that it brings go on to Celeriac. -/
theorem stackResponse_delivers {s : State} {stk tag : Nat} {r : Nat × List Line}
    (h : (s.stackD stk).resps.find? (fun r => r.1 == tag) = some r) : exec (.stackResponse stk tag) s =
    .next ({ s.modStack stk (fun k => { k with resps := k.resps.erase r }) with
      sys := { s.sys with reports := s.sys.reports ++ (pollReports r.2).map (fun e => (stk, e)) } }) := by
  show execStackResponse stk tag s = _
  simp only [execStackResponse, h]
  rfl

/-- Settles O36: each command passes its checks by `stackReq_ok` or `rootReq_ok`; reads turn on `meetReq`. -/
theorem stackRequests : Obligations.StackRequests := by
  unfold Obligations.StackRequests
  intro s stk h data hs hl ht sound ls
  refine ⟨fun hc hh hz hd hi => ⟨fun hls => ?_, fun hp hf => ?_⟩, fun hc hh hz hd hi => stackWrite_ok hs hl ht hi hc hh hz hd,
    fun hc hh hz hd hi => stackWritem_ok hs hl ht hi hc hh hz hd,
    fun hc hh h0 hsub hz hal hd hi hm => stackAtomic_ok hs hl ht hc hh h0 hsub hz hal hd hi hm,
    fun hc hh h0 hal hi hm d hd hw hk => stackAcct_ok hs hl ht hc hh h0 hal hi hm hd hw hk,
    fun hh h0 ha hd => ⟨fun hc => stackDisc_ok hs hl ht hh h0 ha hd hc, fun hc => ?_⟩,
    fun tag r hr => ⟨_, stackResponse_delivers hr, rfl, rfl⟩, fun hc hr hm hi ha => ⟨fun hsub hrun h64 hfit hin => ?_,
      fun hsub hrun h12 => ?_, fun hsub => ⟨fun hrun => ?_, fun hrun t th hth => ⟨fun hin => ?_, fun hout => ?_⟩⟩, fun hsub => ?_⟩⟩
  · exact stackRead_meets hs hl ht hi hc hh hz hd (meetReq_sound hls h)
  · obtain ⟨t, hm⟩ := meetReq_poisoned hp hf h
    exact ⟨t, stackRead_meets hs hl ht hi hc hh hz hd hm⟩
  · exact ⟨_, _, stackErrpoll_ok hs hl ht hh h0 ha hd hc, by simp [State.respond], rfl, fun i => pollLine_report _⟩
  · exact rootLoadi_ok hs hl ht hc hr hm hi ha hsub (beq_false_of_ne hrun) h64 hfit hin
  · exact ⟨_, rootStart_ok hs hl ht hc hr hm hi ha hsub (beq_false_of_ne hrun) h12, rfl⟩
  · exact rootStop_idle hs hl ht hc hr hm hi ha hsub (beq_false_of_ne hrun)
  · exact rootStop_inRun hs hl ht hc hr hm hi ha hsub (beq_iff_eq.2 hrun) hth hin
  · exact rootStop_between hs hl ht hc hr hm hi ha hsub (beq_iff_eq.2 hrun) hth hout
  · exact rootStatus_ok hs hl ht hc hr hm hi ha hsub

end Sys2Proof.Proofs
end

