-- ==== Sys2Proof/Proofs/Outline.lean ====
section
/-! PROOFS. The outline of the package: the links that are fenced and where the boot stands. Threads that start or end, residencies
that end, lines that drain, the front end's records and contexts that are destroyed leave it as it was: one lemma per operation, in the
order of the model's files. -/
namespace Sys2Proof.Proofs
open Sys2Proof.Machine Sys2Proof.Laws

/-- The fenced links, the boot in progress, and its stage and failure codes. -/
def outline (s : State) : List Nat × Option BootIn × BitVec 8 × BitVec 8 :=
  (s.pkg.fenced, s.pkg.boot, s.sys.bootStage, s.sys.bootFail)

theorem outline_foldl {α : Type} {f : State → α → State} (h : ∀ s a, outline (f s a) = outline s) (l : List α) (s : State) :
    outline (l.foldl f s) = outline s := by
  induction l generalizing s with
  | nil => rfl
  | cons a l ih => rw [List.foldl_cons, ih, h]

/-- Whatever is put in place of the rest of the state, package and control space alone count. -/
theorem outline_mk (s : State) (mem ctxs launches aseq ress cores lanes grps thrs frames bars nodes quads arrs ctls stks pods rays arrivals
    agenda free fresh iss) : outline ⟨s.pkg, s.sys, mem, ctxs, launches, aseq, ress, cores, lanes, grps, thrs, frames, bars, nodes, quads,
      arrs, ctls, stks, pods, rays, arrivals, agenda, free, fresh, iss⟩ = outline s := rfl
theorem outline_of_fst {β : Type} {p : State × β} {s t : State} {b : β} (e : p = (t, b)) (h : outline p.1 = outline s) :
    outline t = outline s := by rwa [e] at h

/-! ### Errors and reports -/

theorem outline_markPending (s : State) (u : HwUnit) : outline (s.markPending u) = outline s := by
  unfold State.markPending; split <;> rfl
theorem outline_countErr (s : State) (u : HwUnit) : outline (s.countErr u) = outline s := by
  unfold State.countErr
  dsimp only
  split
  · exact outline_markPending ..
  · rfl
theorem outline_meetLine (s : State) (mid tag la : Nat) : outline (s.meetLine mid tag la) = outline s := by
  unfold State.meetLine
  dsimp only
  split
  · exact outline_countErr ..
  · rfl
  · split <;> rfl
theorem outline_beyondAt (s : State) (mid pa : Nat) : outline (s.beyondAt mid pa) = outline s := by
  unfold outline State.beyondAt State.errReport; rfl
theorem outline_drainReport (s : State) (core : Nat) (l : WLine) : outline (s.drainReport core l) = outline s := by
  unfold State.drainReport
  split
  · rfl
  · exact outline_beyondAt ..

/-! ### Draining -/

theorem outline_drainIf (s : State) (core : Nat) (p : WLine → Bool) : outline (s.drainIf core p) = outline s :=
  (outline_foldl (fun s l => outline_drainReport s core l) _ { s with mem := _ }).trans rfl
theorem outline_drainCore (s : State) (core : Nat) : outline (s.drainCore core) = outline s := by
  unfold State.drainCore
  split
  · rfl
  · exact outline_drainIf ..
theorem outline_invalidate (s : State) (core ctx : Nat) : outline (s.invalidate core ctx) = outline s := by
  unfold State.invalidate; dsimp only; split <;> rfl

/-! ### Refusals of the front end's own requests -/

/-- A refusal of the front end freezes nothing (R58). -/
theorem outline_refuse_frontEnd (s : State) (tgt : Nat) (cls : ReqClass) (addr why e : Nat) :
    outline (s.refuse feMid tgt cls addr why e) = outline s := by
  simp only [State.refuse, if_true]
  rfl

/-- An exception that leaves the outline alone when its refusal is applied. -/
def Harmless (e : Exc) : Prop := ∀ s, outline (applyDeny s e) = outline s

/-- The state that an action leaves, with the refusal that it may end in applied. -/
def leftBy {α : Type} : EStateM.Result Exc State α → State
  | .ok _ t => t
  | .error e t => applyDeny t e

/-- An action leaves the outline as it was. -/
def Steady {α : Type} (x : X α) : Prop := ∀ s, outline (leftBy (x s)) = outline s

section
variable {α β : Type}

theorem Steady.ok {x : X α} {s t : State} {a : α} (h : Steady x) (e : x s = .ok a t) : outline t = outline s := by
  have := h s; rwa [e] at this
theorem Steady.error {x : X α} {s t : State} {r : Exc} (h : Steady x) (e : x s = .error r t) :
    outline (applyDeny t r) = outline s := by
  have := h s; rwa [e] at this
theorem steady_pure (a : α) : Steady (pure a : X α) := fun _ => rfl
theorem steady_stall : Steady (stallX : X α) := fun _ => rfl
theorem steady_modify {f : State → State} (h : ∀ s, outline (f s) = outline s) : Steady (modify f : X PUnit) := h
theorem steady_bind {x : X α} {f : α → X β} (hx : Steady x) (hf : ∀ a, Steady (f a)) : Steady (x >>= f) := by
  intro s
  cases e : x s with
  | ok a t => rw [bind_ok e, hf a t, hx.ok e]
  | error r t => rw [bind_error e]; exact hx.error e
theorem steady_get_bind {f : State → X β} (hf : ∀ s, Steady (f s)) : Steady (get >>= f) := fun s => hf s s
theorem steady_ite {c : Prop} [Decidable c] {x y : X α} (hx : Steady x) (hy : Steady y) : Steady (if c then x else y) := by
  split <;> assumption

end

theorem steady_freeX : Steady freeX := fun _ => rfl
theorem steady_freeBytes (n : Nat) : Steady (freeBytes n) := by
  induction n with
  | zero => exact steady_pure _
  | succ n ih => exact steady_bind steady_freeX fun _ => steady_bind ih fun _ => steady_pure _

section
variable {who : Who} (hw : who.mid = feMid)
include hw

theorem harmless_deny {tgt addr why e : Nat} {cls : ReqClass} : Harmless (.deny who.mid tgt cls addr why e) := fun s => by
  rw [hw]; exact outline_refuse_frontEnd ..

theorem steady_allow {tgt addr : Nat} {cls : ReqClass} : Steady (allow who tgt cls addr) := by
  intro s
  unfold allow
  split
  · rfl
  · exact harmless_deny hw s

theorem steady_reach {cls : ReqClass} {pa ca : Nat} : Steady (reach who cls pa ca) :=
  steady_bind (steady_allow hw) fun _ => steady_get_bind fun _ => steady_ite steady_stall (steady_pure _)

omit hw in
theorem steady_meetX (la : Nat) : Steady (meetX who la) :=
  steady_get_bind fun _ => steady_ite (steady_pure _)
    (steady_bind steady_freeX fun _ => steady_modify fun s => outline_meetLine s ..)

theorem steady_homeRead (cls : ReqClass) (pa ca key n : Nat) : Steady (homeRead who cls pa ca key n) :=
  steady_bind (steady_reach hw) fun _ => steady_get_bind fun _ => steady_ite
    (steady_bind (steady_meetX _) fun _ => steady_get_bind fun _ => steady_pure _)
    (steady_bind (steady_modify fun s => outline_beyondAt s ..) fun _ => steady_bind (steady_freeBytes _) fun _ => steady_pure _)

theorem steady_homeWrite (cls : ReqClass) (pa ca key n v : Nat) : Steady (homeWrite who cls pa ca key n v) :=
  steady_bind (steady_reach hw) fun _ => steady_get_bind fun _ => steady_ite (steady_modify fun _ => rfl)
    (steady_modify fun s => outline_beyondAt s ..)

/-- A walk's answer leaves the outline, and the refusal that it may end in does. -/
def Walked (s : State) (r : State × Except (Nat × Option Exc) (DWord × Nat)) : Prop :=
  outline r.1 = outline s ∧ ∀ c e, r.2 = .error (c, some e) → Harmless e

omit hw in
theorem walked_none {s t : State} (h : outline t = outline s) (c : Nat) : Walked s (t, .error (c, none)) :=
  ⟨h, fun _ _ e => by cases e⟩
omit hw in
theorem walked_some {s : State} {e : Exc} (h : Harmless e) (c : Nat) : Walked s (s, .error (c, some e)) :=
  ⟨rfl, fun _ _ e => by cases e; exact h⟩

theorem walked_walk (va : Nat) (shs : List Nat) (tbl : Nat) (s : State) : Walked s (walk who va tbl shs s) := by
  induction shs generalizing tbl s with
  | nil => exact walked_none rfl 3
  | cons sh shs ih =>
    have met := outline_meetLine s who.mid 0 (lineOf (tbl + va / 2 ^ sh % 8192 * 8))
    unfold walk
    refine iteInduction (fun _ => walked_some (harmless_deny hw) 7) fun _ => ?_
    simp only []
    split
    · exact walked_some (harmless_deny hw) 7
    refine iteInduction (fun _ => walked_some (fun _ => rfl) 7) fun _ => iteInduction (fun _ => walked_none (outline_beyondAt ..) 7)
      fun _ => iteInduction (fun _ => walked_none met 7) fun _ => iteInduction (fun _ => walked_none met 2)
      fun _ => iteInduction (fun _ => walked_none met 3) fun _ => iteInduction (fun _ => ⟨met, fun _ _ e => by cases e⟩) fun _ => ?_
    exact ⟨(ih _ _).1.trans met, (ih _ _).2⟩

theorem steady_translate (cls : ReqClass) (va : Nat) : Steady (Machine.translate who cls va) := by
  intro s
  unfold Machine.translate
  split
  · split
    · rfl
    split
    · rfl
    split
    · exact harmless_deny hw s
    · rfl
  split
  · rfl
  extract_lets bad refused c fin
  have faults : ∀ k t, outline (leftBy (bad k t)) = outline t := fun _ _ => rfl
  have ends : ∀ e sh t, outline (leftBy (fin e sh t)) = outline t := by
    intro e sh t
    simp only [fin]
    split
    · split
      · rfl
      · exact harmless_deny hw t
    · exact faults ..
  have kept := walked_walk hw va [42, 29, 16] c.ptroot s
  clear_value bad refused fin c
  split
  · exact faults ..
  generalize tlbHit s.mem who.die who.ctx va = hit
  generalize walk who va c.ptroot [42, 29, 16] s = r at kept ⊢
  obtain ⟨same, harmless⟩ := kept
  cases hit with
  | some t => exact ends ..
  | none =>
    obtain ⟨t, ⟨cause, _ | e⟩ | ⟨e, sh⟩⟩ := r
    · exact (faults ..).trans same
    · cases e with
      | stall => exact same
      | _ => exact (faults ..).trans ((harmless _ _ rfl _).trans same)
    · exact ((ends ..).trans (outline_mk ..)).trans same

theorem steady_readLines (cls : ReqClass) (fuel va n : Nat) : Steady (readLines who cls va fuel n) := by
  induction fuel generalizing va n with
  | zero => exact steady_pure _
  | succ fuel ih =>
    exact steady_ite (steady_pure _) (steady_bind (steady_translate hw _ _) fun _ => steady_bind (steady_homeRead hw _ _ _ _ _) fun _ =>
      steady_bind (ih _ _) fun _ => steady_pure _)

end

/-! ### The front end's reads, writes and records (R297, R298, R452) -/

section
variable {who : Who} (hw : who.mid = feMid)
include hw

theorem outline_feRead (va fuel n : Nat) (s : State) : outline (feRead who va fuel n s).1 = outline s := by
  induction fuel generalizing va n s with
  | zero => rfl
  | succ fuel ih =>
    unfold feRead
    dsimp only
    split
    · rfl
    have kept := steady_readLines hw .read 2 va (min n (64 - va % 64))
    split <;> rename_i e
    · exact kept.error e
    have read := kept.ok e
    split
    · exact read
    · split <;> rename_i e' <;> exact (outline_of_fst e' (ih ..)).trans read

theorem outline_feWrite (va n v : Nat) (s : State) : outline (feWrite who va n v s).1 = outline s := by
  have kept := steady_translate hw .write va
  unfold feWrite
  split <;> rename_i e
  · exact kept.error e
  split
  · exact kept.ok e
  split <;> rename_i e'
  · exact ((steady_homeWrite hw _ _ _ _ _ _).error e').trans (kept.ok e)
  · exact ((steady_homeWrite hw _ _ _ _ _ _).ok e').trans (kept.ok e)

theorem outline_putRecord (flta : Nat) (ws : List Nat) (s : State) : outline (putRecord who flta ws s).1 = outline s := by
  have written := outline_feWrite hw
  unfold putRecord
  split <;> rename_i e <;> have read := outline_of_fst e (outline_feRead hw ..)
  · exact read
  simp only []
  split
  · exact read
  split <;> rename_i e' <;> have put := (outline_of_fst e' (written ..)).trans read
  · exact put
  split <;> rename_i e'' <;> exact (outline_of_fst e'' (written ..)).trans put

theorem outline_asyncRecord (s : State) (flta : Nat) (ws : List Nat) : outline (s.asyncRecord who flta ws).1 = outline s := by
  unfold State.asyncRecord
  split <;> rename_i e <;> have put := outline_of_fst e (outline_putRecord hw ..)
  · exact put
  split <;> rename_i e' <;> have read := (outline_of_fst e' (outline_feRead hw ..)).trans put
  · exact read
  · exact (outline_feWrite hw ..).trans read

end

theorem outline_launchRecord (s : State) (ctx cause slot addr w0 : Nat) : outline (s.launchRecord ctx cause slot addr w0).1 = outline s :=
  outline_asyncRecord rfl ..

theorem outline_writeCompl (s : State) (l : Launch) (n v : Nat) : outline (s.writeCompl l n v) = outline s := by
  unfold State.writeCompl
  split <;> rename_i e <;> have written := outline_of_fst e (outline_feWrite rfl ..)
  · exact written
  · exact (outline_launchRecord ..).trans written

theorem outline_writeFinal (s : State) (l : Launch) (st : Nat) : outline (s.writeFinal l st) = outline s := outline_writeCompl ..

/-! ### Launches completed (R69, R142 to R146) -/

theorem outline_modDeps (s : State) (f : Dep → Dep) : outline (s.modDeps f) = outline s := rfl

theorem outline_closeBatch (s : State) (b : Batch) : outline (s.closeBatch b) = outline s := by
  unfold State.closeBatch
  dsimp only
  split
  · rfl
  split
  · rfl
  split
  · exact outline_meetLine ..
  · exact outline_meetLine ..

theorem outline_closeBatches (s : State) (l : Nat) : outline (s.closeBatches l) = outline s := by
  unfold State.closeBatches
  split
  · exact outline_foldl outline_closeBatch ..
  · rfl

theorem outline_complete (s : State) (l st : Nat) : outline (s.complete l st) = outline s := by
  have closed : outline (((s.coresOf l).foldl State.drainCore s).closeBatches l) = outline s :=
    (outline_closeBatches ..).trans (outline_foldl outline_drainCore ..)
  unfold State.complete
  split
  · rfl
  simp only []
  split
  · exact closed
  · rw [outline_mk, outline_modDeps, outline_writeFinal]
    exact closed

theorem outline_launchFault (s : State) (l r : Option Nat) : outline (s.launchFault l r) = outline s := by
  unfold State.launchFault; split <;> rfl

/-! ### Threads and residencies that end (R80, R183, R184) -/

theorem outline_modCtx (s : State) (c : Nat) (f : Ctx → Ctx) : outline (s.modCtx c f) = outline s := rfl
theorem outline_modLane (s : State) (l : Nat) (f : Lane → Lane) : outline (s.modLane l f) = outline s := rfl
theorem outline_modGrp (s : State) (g : Nat) (f : Grp → Grp) : outline (s.modGrp g f) = outline s := rfl
theorem outline_modCore (s : State) (c : Nat) (f : Core → Core) : outline (s.modCore c f) = outline s := rfl
theorem outline_dropRings (s : State) (l c r : Nat) : outline (s.dropRings l c r) = outline s := rfl
theorem outline_dropGrans (s : State) (c : Nat) (gs : List Nat) : outline (s.dropGrans c gs) = outline s := rfl
theorem outline_freed (s : State) (core key n : Nat) : outline (s.freed core key n) = outline s := by
  unfold State.freed; split <;> rfl

theorem outline_endRes (s : State) (rid : Nat) : outline (s.endRes rid) = outline s := by
  unfold State.endRes
  split
  · rfl
  · rw [outline_freed]
    simp only [outline_mk, outline_modCtx, outline_dropRings, outline_modCore, outline_dropGrans, outline_drainIf]

theorem outline_checkRes (s : State) (rid : Nat) : outline (s.checkRes rid) = outline s := by
  unfold State.checkRes
  split
  · rfl
  split
  · rfl
  · exact outline_endRes ..

theorem outline_leaveSeat (s : State) (t : Nat) : outline (s.leaveSeat t) = outline s := by
  unfold State.leaveSeat
  split
  · rfl
  split
  · split
    · rfl
    simp only []
    split
    · rw [outline_mk, outline_modLane, outline_freed, outline_freed, outline_modLane]
    · rw [outline_modGrp, outline_freed, outline_modLane]
  · rfl

theorem outline_leaveGrp (s : State) (t : Nat) : outline (s.leaveGrp t) = outline s := by
  unfold State.leaveGrp
  split
  · exact (outline_checkRes ..).trans (outline_leaveSeat ..)
  · exact outline_leaveSeat ..

theorem outline_publish (s : State) (t : Nat) : outline (s.publish t) = outline s := by
  unfold State.publish
  split
  · rfl
  split
  · split
    · split
      · exact outline_drainCore ..
      · rfl
    · rfl
  · rfl

theorem outline_file {s : State} {core launch key target : Nat} {k : BinKind} {e : BinEnt} {r : Nat × State}
    (h : s.file core k launch key target e = some r) : outline r.2 = outline s := by
  unfold State.file at h
  dsimp only at h
  split at h
  · cases h; dsimp only; split <;> rfl
  · split at h
    · cases h; dsimp only; split <;> rfl
    · cases h

theorem outline_makeRoom (s : State) (core : Nat) : outline (s.makeRoom core) = outline s := by
  unfold State.makeRoom
  dsimp only
  split
  · rfl
  split <;> rfl

theorem outline_fileCont (s : State) (lane t : Nat) : outline (s.fileCont lane t) = outline s := by
  unfold State.fileCont
  split
  · rfl
  dsimp only
  split <;> rename_i e
  · exact outline_file e
  · exact outline_makeRoom ..

theorem outline_freeStack (s : State) (th : Thr) : outline (s.freeStack th) = outline s := by
  unfold State.freeStack; split <;> rfl

theorem outline_leaveBars (s : State) (t : Nat) : outline (s.leaveBars t) = outline s := rfl
theorem outline_modLaunch (s : State) (l : Nat) (f : Launch → Launch) : outline (s.modLaunch l f) = outline s := rfl
theorem outline_modCtl (s : State) (k : Nat) (f : Ctl → Ctl) : outline (s.modCtl k f) = outline s := rfl
theorem outline_modFrame (s : State) (k : Nat) (f : Frame → Frame) : outline (s.modFrame k f) = outline s := rfl

/-- The residency that a thread has left is looked at. -/
theorem outline_checkLeft (s : State) (r : Option Nat) :
    outline (match r with | some r => s.checkRes r | none => s) = outline s := by
  cases r with
  | none => rfl
  | some r => exact outline_checkRes ..

theorem outline_endThr (s : State) (lane fuel t : Nat) : outline (s.endThr lane fuel t) = outline s := by
  induction fuel generalizing s t with
  | zero => rfl
  | succ fuel ih =>
    unfold State.endThr
    split
    · rfl
    refine (outline_checkLeft _ _).trans ?_
    have left : ∀ th fs, outline { State.leaveSeat (State.leaveBars { State.freeStack ((s.publish t).drainCore (laneCore lane)) th with
        frames := fs } t) t with thrs := alDel (State.leaveSeat (State.leaveBars { State.freeStack ((s.publish t).drainCore (laneCore lane)) th with
        frames := fs } t) t).thrs t } = outline s := by
      intro th fs
      rw [outline_mk, outline_leaveSeat, outline_leaveBars, outline_mk, outline_freeStack, outline_drainCore, outline_publish]
    split
    · exact left ..
    split
    · exact left ..
    simp only []
    split
    · split
      · split
        · rw [ih, outline_modFrame]; exact left ..
        · rw [outline_fileCont, outline_modFrame]; exact left ..
        · rw [outline_modFrame]; exact left ..
      · rw [outline_modFrame]; exact left ..
    · rw [outline_modFrame]; exact left ..

theorem outline_endAt (s : State) (lane t : Nat) : outline (s.endAt lane t) = outline s := by
  unfold State.endAt State.endThread
  simp only []
  split
  · rw [outline_modCtl, outline_endThr]
  · exact outline_endThr ..

/-! ### A thread that starts (R153, R402) -/

theorem outline_seat (s : State) (lane g n : Nat) (ts : List Nat) : outline (s.seat lane g n ts) = outline s := by
  induction ts generalizing s n with
  | nil => rfl
  | cons t ts ih =>
    unfold State.seat
    split
    · rfl
    · exact (ih ..).trans rfl

theorem outline_place (s : State) (launch : Option Nat) (ctx res lane : Nat) (no : Word) (role : Nat) (ts : List Nat) :
    outline (s.place launch ctx res lane no role ts).2 = outline s := by
  unfold State.place
  simp only [State.newId]
  rw [outline_modLane, outline_seat, outline_mk, outline_mk]

theorem outline_startSolo (s : State) (core ctx pc trapv : Nat) (regs : List Word) :
    outline (s.startSolo core ctx pc trapv regs) = outline s := by
  unfold State.startSolo
  simp only [State.newId]
  rw [outline_place, outline_modLane, outline_mk, outline_mk]
  refine outline_foldl (fun s t => ?_) _ s
  rw [outline_mk, outline_leaveGrp]

theorem outline_startImage (s : State) (k : Nat) (img : List Byte) : outline (s.startImage k img) = outline s :=
  (outline_startSolo ..).trans rfl

/-! ### A context destroyed (R47) -/

theorem outline_endPending (s : State) (c : Nat) : outline (s.endPending c) = outline s := by
  refine outline_foldl (fun s t => ?_) _ s
  split
  · rfl
  simp only []
  split
  · exact outline_launchFault ..
  · exact (outline_endAt ..).trans (outline_launchFault ..)

theorem outline_clearEngines (s : State) (c : Nat) : outline (s.clearEngines c) = outline s := rfl

theorem outline_freedGrp (s : State) (g : Grp) : outline (s.freedGrp g) = outline s := by
  unfold State.freedGrp
  split_ifs
  · rfl
  · rw [outline_freed, outline_freed]

theorem outline_clearThreads (s : State) (c : Nat) : outline (s.clearThreads c) = outline s := by
  unfold State.clearThreads
  simp only []
  rw [outline_mk, outline_foldl fun s (r : Nat × Res) => outline_endRes s r.1,
    outline_foldl fun s (g : Nat × Grp) => outline_freedGrp s g.2,
    outline_foldl fun s (r : Nat × Res) => outline_drainIf s r.2.core _]

theorem outline_trimMsrv (s : State) : outline s.trimMsrv = outline s := by unfold outline State.trimMsrv; rfl

theorem outline_destroyCtx (s : State) (c : Nat) (dbl : Option (Nat × Option Nat)) : outline (s.destroyCtx c dbl) = outline s := by
  unfold State.destroyCtx
  simp only []
  rw [outline_trimMsrv, outline_mk, outline_mk,
    outline_foldl fun s (k : Nat × Core) => (outline_invalidate ..).trans (outline_drainIf s k.1 (·.ctx == c)),
    outline_foldl, outline_clearThreads, outline_clearEngines, outline_endPending]
  intro s l
  split
  · split
    · rw [outline_complete, outline_modLaunch]
    · rw [outline_complete]
  · rw [outline_complete]

theorem outline_destroyAll (s : State) (p : Nat × Ctx → Bool) : outline (s.destroyAll p) = outline s := by
  unfold State.destroyAll
  rw [outline_foldl fun s (c : Nat × Ctx) => outline_destroyCtx s c.1 none]

theorem outline_checkAnon (s : State) (kind ctx : Nat) : outline (s.checkAnon kind ctx) = outline s := by
  unfold outline State.checkAnon State.machineCheck; rfl

end Sys2Proof.Proofs
end

