-- ==== Sys2Proof/Proofs/ErrorEvents.lean ====
section
/-! PROOFS. Errors that are counted, links that fail, errors of the DRAM and of SRAMs, and the harvest (R18, R27, R30, R48, R122, R123). -/
namespace Sys2Proof.Proofs
open Sys2Proof.Machine Sys2Proof.Laws

/-- A place joins a list of places unless it is there. -/
theorem mem_join (l : List Nat) (a : Nat) : a ∈ if l.contains a then l else l ++ [a] := by
  split
  · simp_all
  · exact List.mem_append_right _ (List.mem_singleton_self a)

/-! ### Counted errors (R30) -/

theorem mem_pending_markPending (s : State) (u : HwUnit) : u ∈ (s.markPending u).pkg.pending := by
  unfold State.markPending
  split
  · simp_all
  · exact List.mem_append_right _ (List.mem_singleton_self u)

@[simp] theorem errs_markPending (s : State) (u : HwUnit) : (s.markPending u).pkg.errs = s.pkg.errs := by
  unfold State.markPending; split <;> rfl
@[simp] theorem mem_markPending (s : State) (u : HwUnit) : (s.markPending u).mem = s.mem := by
  unfold State.markPending; split <;> rfl
@[simp] theorem mem_countErr (s : State) (u : HwUnit) : (s.countErr u).mem = s.mem := by
  unfold State.countErr
  dsimp only
  split
  · exact mem_markPending ..
  · rfl

/-- The times that a unit's count holds after an error now. -/
def counted (s : State) (u : HwUnit) : List Nat :=
  (alGetD s.pkg.errs (unitKey u) [] ++ [s.qclk]).filter (fun t => decide (t + (unitLimit u).2 > s.qclk))

theorem errs_countErr (s : State) (u : HwUnit) : alGetD (s.countErr u).pkg.errs (unitKey u) [] = counted s u := by
  unfold State.countErr
  dsimp only
  split
  · rw [errs_markPending]; exact alGetD_alSet_same ..
  · exact alGetD_alSet_same ..

/-- A time stays in a window that has just opened. -/
theorem now_mem_window (ts : List Nat) (q : Nat) {n : Nat} (h : 0 < n) : q ∈ (ts ++ [q]).filter (fun t => decide (t + n > q)) :=
  List.mem_filter.2 ⟨List.mem_append_right _ (List.mem_singleton_self q), by simpa using h⟩

theorem now_mem_countErr (s : State) (u : HwUnit) : s.qclk ∈ alGetD (s.countErr u).pkg.errs (unitKey u) [] := by
  rw [errs_countErr]
  exact now_mem_window _ _ (by cases u <;> simp [unitLimit])

/-- At its threshold a unit is pending. -/
theorem countErr_pending {s : State} {u : HwUnit}
    (h : (unitLimit u).1 ≤ (alGetD (s.countErr u).pkg.errs (unitKey u) []).length) : u ∈ (s.countErr u).pkg.pending := by
  rw [errs_countErr] at h
  have full : s.countErr u = ({ s with pkg := { s.pkg with errs := alSet s.pkg.errs (unitKey u) (counted s u) } } : State).markPending u :=
    if_pos h
  rw [full]
  exact mem_pending_markPending ..

/-- R122: a corrected error of a unit other than a link's module is counted. -/
theorem sramCorrectedError_counts {u : HwUnit} (hu : unitOk u = true) (hl : ∀ l m, u ≠ .linkModule l m) (s : State) :
    exec (.sramCorrectedError u) s = .next (s.countErr u) := by
  show execSramCorrectedError u s = _
  cases u with
  | linkModule l m => exact absurd rfl (hl l m)
  | _ => exact congrArg Host.Outcome.next (if_pos hu)

/-! ### Links (R18) -/

section
variable {s : State} {k m : Nat} (hu : unitOk (.linkModule k m) = true) (hf : k ∉ s.pkg.fenced)

/-- The times of a module's replays within a millisecond, with one now. -/
def replayTimes (s : State) (k m : Nat) : List Nat :=
  (alGetD s.pkg.replays (64 * k + m) [] ++ [s.qclk]).filter (fun t => decide (t + 1000000 > s.qclk))
/-- A replay noted and counted for its module. -/
def replayed (s : State) (k m : Nat) : State :=
  ({ s with pkg := { s.pkg with replays := alSet s.pkg.replays (64 * k + m) (replayTimes s k m) } } : State).countErr (.linkModule k m)

include hu hf

theorem flitReplay_eq : exec (.flitReplay ⟨k, m⟩) s = .next (if 1000 ≤ (replayTimes s k m).length then
    ({ replayed s k m with pkg := (replayed s k m).pkg.loseModule k m } : State).failLink k else replayed s k m) := by
  have taken : (unitOk (.linkModule k m) && !s.pkg.fenced.contains k) = true := by simp [hu, hf]
  show execFlitReplay ⟨k, m⟩ s = _
  exact congrArg Host.Outcome.next (if_pos taken)

theorem moduleRetire_eq : exec (.moduleRetire ⟨k, m⟩) s = .next (({ s with pkg := s.pkg.loseModule k m } : State).failLink k) := by
  have taken : ¬ (!unitOk (.linkModule k m) || s.pkg.fenced.contains k) = true := by simp [hu, hf]
  show execModuleRetire ⟨k, m⟩ s = _
  exact congrArg Host.Outcome.next (if_neg taken)

end

theorem mem_modules_loseModule (p : Pkg) (k m : Nat) : m ∈ alGetD (p.loseModule k m).modules k [] := by
  unfold Pkg.loseModule
  split
  · simp_all
  · exact (alGetD_alMod_same p.modules k [] [] (· ++ [m])).symm ▸ List.mem_append_right _ (List.mem_singleton_self m)

theorem failLink_of_live {s : State} {k : Nat} (h : linkMin k ≤ linkLive s.pkg k) : s.failLink k = s :=
  if_pos (by simp [h])

/-- A link below its minimum is fenced, and stays so while the contexts on it end. -/
theorem fenced_failLink {s : State} {k : Nat} (hf : k ∉ s.pkg.fenced) (h : linkLive s.pkg k < linkMin k) :
    k ∈ (s.failLink k).pkg.fenced := by
  have falls : ¬ (s.pkg.fenced.contains k || decide (linkLive s.pkg k ≥ linkMin k)) = true := by simp [hf, h]
  have kept : ∀ (u : State) (p : Nat × Ctx → Bool), (u.destroyAll p).pkg.fenced = u.pkg.fenced :=
    fun u p => congrArg Prod.fst (outline_destroyAll u p)
  rw [State.failLink, if_neg falls, kept]
  exact List.mem_append_right _ (List.mem_singleton_self k)

/-! ### Errors of the DRAM (R27) -/

section
variable {s : State} {stk line : Nat} (hs : stk < 16) (hl : line * 64 < 2 ^ 36)
  (hc : inCapacity s.mem (directPa stk (line * 64)) = true)

theorem lineOf_directPa (stk line : Nat) : lineOf (directPa stk (line * 64)) = directPa stk (line * 64) := by
  unfold lineOf directPa; omega

include hs hl hc

theorem stackScrub_eq (found : ScrubFound) : exec (.stackScrub stk line found) s =
    .next ((s.flawAt (directPa stk (line * 64)) found).scrubbed stk (line * 64) (directPa stk (line * 64))) := by
  have taken : ¬ (decide (stk ≥ 16) || !inCapacity s.mem (directPa stk (line * 64)) || decide (line * 64 ≥ 2 ^ 36)) = true := by
    simp only [hc, Bool.not_true, Bool.or_false, Bool.or_eq_true, decide_eq_true_eq]
    omega
  show execStackScrub stk line found s = _
  exact congrArg Host.Outcome.next (if_neg taken)

omit hs hl in
/-- What arises in a line stands in it. -/
theorem flawAt_eq {found : ScrubFound} (hne : found ≠ .clean) : s.flawAt (directPa stk (line * 64)) found =
    { s with mem := { s.mem with flaws := alSet s.mem.flaws (directPa stk (line * 64)) found } } := by
  simp only [State.flawAt, lineOf_directPa, hc, Bool.not_true, Bool.false_or, beq_iff_eq, hne, if_false]

theorem stackScrub_clean (hf : alGet s.mem.flaws (directPa stk (line * 64)) = none) :
    exec (.stackScrub stk line .clean) s = .next s := by
  have same : s.flawAt (directPa stk (line * 64)) .clean = s := if_pos (by rw [beq_self_eq_true, Bool.or_true])
  rw [stackScrub_eq hs hl hc, same, State.scrubbed, hf]

theorem stackScrub_uncorrectable (sym : Nat) : ∃ t, exec (.stackScrub stk line (.uncorrectable sym)) s = .next t ∧
    directPa stk (line * 64) ∈ t.mem.poison ∧ .stack stk ∈ t.pkg.pending := by
  refine ⟨_, stackScrub_eq hs hl hc _, ?_⟩
  rw [flawAt_eq hc (by simp)]
  simp only [State.scrubbed, alGet_alSet_same, mem_pending_markPending, and_true, mem_markPending]
  show directPa stk (line * 64) ∈ if s.mem.poison.contains (directPa stk (line * 64)) then s.mem.poison else
    s.mem.poison ++ [directPa stk (line * 64)]
  exact mem_join ..

theorem stackScrub_corrected (sym : Nat) : ∃ t, exec (.stackScrub stk line (.corrected sym)) s = .next t ∧
    s.qclk ∈ alGetD t.pkg.errs (unitKey (.stack stk)) [] ∧ t.mem.cells = s.mem.cells ∧ t.mem.poison = s.mem.poison := by
  refine ⟨_, stackScrub_eq hs hl hc _, ?_⟩
  rw [flawAt_eq hc (by simp)]
  simp only [State.scrubbed, alGet_alSet_same, mem_countErr]
  exact ⟨now_mem_countErr .., rfl, rfl⟩

end

/-! ### Uncorrectable errors of SRAMs (R122) -/

theorem coreD_latentRec (s : State) (kind ctx die core slot reg gran word c : Nat) :
    (s.latentRec kind ctx die core slot reg gran word).coreD c = s.coreD c := rfl
theorem arrD_latentRec (s : State) (kind ctx die core slot reg gran word a : Nat) :
    (s.latentRec kind ctx die core slot reg gran word).arrD a = s.arrD a := rfl

theorem scratchError_poisons (s : State) {core gran word : Nat} (hc : core < 512) (hg : gran < 64) (hw : word < 4096) :
    ∃ t, exec (.sramUncorrectableError (.scratch core gran word)) s = .next t ∧ gran * 16384 + 4 * word ∈ (t.coreD core).poison := by
  have taken : ¬ (core ≥ 512 ∨ gran ≥ 64 ∨ word ≥ 4096) := by omega
  refine ⟨_, congrArg Host.Outcome.next (if_neg taken), ?_⟩
  rw [coreD_latentRec, coreD_modCore]
  exact mem_join ..

theorem ringStoreError_poisons (s : State) {arr word : Nat} (ha : arr < 128) (hw : 8 * word < 2 ^ 22) :
    ∃ t, exec (.sramUncorrectableError (.ringStore arr word)) s = .next t ∧ 8 * word ∈ (t.arrD arr).ringPoison := by
  have taken : ¬ (arr ≥ 128 ∨ 8 * word ≥ Config.arrBytes) := by unfold Config.arrBytes; omega
  refine ⟨_, congrArg Host.Outcome.next (if_neg taken), ?_⟩
  rw [arrD_latentRec, arrD_modArr]
  exact mem_join ..

/-- An array with a word of a context's accumulator memory poisoned. -/
def poisonAcc (c : Option Nat) (word : Nat) (a : Arr) : Arr :=
  { a with amPoison := alMod a.amPoison (c.getD 0) [] (fun l => if l.contains word then l else l ++ [word]) }

theorem mem_poisonAcc (a : Arr) (c : Option Nat) (word : Nat) : word ∈ alGetD (poisonAcc c word a).amPoison (c.getD 0) [] := by
  rw [poisonAcc, alGetD_alMod_same]
  exact mem_join ..

theorem accMemError_poisons (s : State) {arr word : Nat} (ha : arr < 128) (hw : 4 * word < 2 ^ 22) :
    ∃ t, exec (.sramUncorrectableError (.accMem arr word)) s = .next t ∧
      4 * word ∈ alGetD (t.arrD arr).amPoison ((s.arrD arr).owner.getD 0) [] := by
  have taken : ¬ (arr ≥ 128 ∨ 4 * word ≥ Config.arrBytes) := by unfold Config.arrBytes; omega
  refine ⟨_, congrArg Host.Outcome.next (if_neg taken), ?_⟩
  rw [arrD_latentRec, arrD_modArr]
  exact mem_poisonAcc (s.arrD arr) (s.arrD arr).owner (4 * word)

/-! ### The harvest (R48) -/

theorem norAdd_keeps (p : Pkg) (slot : Nat) (r : List Byte) :
    (p.norAdd slot r).pending = p.pending ∧ (p.norAdd slot r).hv = p.hv := by
  unfold Pkg.norAdd; split <;> exact ⟨rfl, rfl⟩

/-- The record of a retirement changes neither the pending units nor the registers, where one is written. -/
theorem writeHarvest_keeps (changed : Bool) (p : Pkg) :
    (if changed then p.writeHarvest else p).pending = p.pending ∧ (if changed then p.writeHarvest else p).hv = p.hv := by
  have written : p.writeHarvest.pending = p.pending ∧ p.writeHarvest.hv = p.hv := by
    unfold Pkg.writeHarvest
    extract_lets gen
    split
    · exact ⟨rfl, rfl⟩
    · exact norAdd_keeps ..
  cases changed
  · exact ⟨rfl, rfl⟩
  · exact written

/-- The harvest leaves no unit pending and no drain, and touches neither contexts nor memory. -/
theorem harvest_ends (s : State) : s.harvest.1.pkg.pending = [] ∧ s.harvest.1.pkg.hv.pend = 0 ∧ s.harvest.1.sys.allDrain = false ∧
    s.harvest.1.ctxs = s.ctxs ∧ s.harvest.1.mem = s.mem := by
  unfold State.harvest
  extract_lets
  exact ⟨(writeHarvest_keeps ..).1, congrArg Harvest.pend (writeHarvest_keeps ..).2, rfl, rfl, rfl⟩

theorem harvestApply_eq {s : State} (hd : s.sys.allDrain = true) (hc : ∀ c ∈ s.ctxs, c.2.st = .drained) :
    exec .harvestApply s = .next (s.harvest.1.afterHarvest s.harvest.2) := by
  have drained : s.ctxs.all (fun c => c.2.st == .drained) = true := List.all_eq_true.2 fun c h => beq_iff_eq.2 (hc c h)
  have taken : ¬ (!s.sys.allDrain || !s.ctxs.all (fun c => c.2.st == .drained)) = true := by simp only [hd, drained]; decide
  exact congrArg Host.Outcome.next (if_neg taken)

/-- Settles O35: counts by `now_mem_countErr` and `countErr_pending`, links by `fenced_failLink`, the rest event by event. -/
theorem errorEvents : Obligations.ErrorEvents := by
  unfold Obligations.ErrorEvents
  intro s
  refine ⟨fun u hu hl => ⟨_, sramCorrectedError_counts hu hl s, now_mem_countErr s u, countErr_pending⟩,
    fun k m hu hf => ⟨⟨now_mem_window _ _ (by decide), now_mem_countErr _ _, fun h => ?_, fun h => ?_⟩, moduleRetire_eq hu hf,
      mem_modules_loseModule s.pkg k m, failLink_of_live, fenced_failLink hf⟩,
    fun stk line sym hs hl hc => ⟨stackScrub_clean hs hl hc, stackScrub_uncorrectable hs hl hc sym, stackScrub_corrected hs hl hc sym⟩,
    fun core gran word => scratchError_poisons s, fun arr word ha => ⟨ringStoreError_poisons s ha, accMemError_poisons s ha⟩,
    fun hd hc => ⟨harvestApply_eq hd hc, harvest_ends s⟩⟩
  · exact (flitReplay_eq hu hf).trans (congrArg _ (if_neg (Nat.not_le.2 h)))
  · exact (flitReplay_eq hu hf).trans (congrArg _ (if_pos h))

end Sys2Proof.Proofs
end

