-- ==== Sys2Proof/Proofs/PowerEvents.lean ====
section
/-! PROOFS. Clocks, ceilings, temperature and coolant (R10, R15, R33, R34), power (R34, R36), and the stages of a boot (Table 2.1). -/
namespace Sys2Proof.Proofs
open Sys2Proof.Machine Sys2Proof.Laws

/-! ### Clocks (R10, R15, R33, R34) -/

/-- The clock that a die runs at: its highest one unless a change is listed. -/
def topClock (p : Pkg) (d : Nat) : Nat := alGetD p.clock d (maxClock d)

theorem topClock_clamp (p : Pkg) (d : Nat) : topClock (p.clamp d) d = min (topClock p d) (clockLimit p d) := alGetD_alSet_same ..
theorem topClock_clamp_ne (p : Pkg) {d e : Nat} (h : e ≠ d) : topClock (p.clamp d) e = topClock p e := alGetD_alSet_ne _ _ _ _ h

/-- Coming down to its limit, a die's clock is no higher than a bound on the limit. -/
theorem topClock_clamp_le {p : Pkg} {d n : Nat} (h : clockLimit p d ≤ n) : topClock (p.clamp d) d ≤ n :=
  topClock_clamp p d ▸ (Nat.min_le_right ..).trans h

theorem clockLimit_le_ceiling {p : Pkg} {d mhz : Nat} (h : 400 ≤ mhz) (hc : alGetD p.ceiling d (maxClock d) = mhz) :
    clockLimit p d ≤ mhz := by
  unfold clockLimit
  split
  · exact h
  · exact hc ▸ Nat.min_le_right ..

theorem clockLimit_of_throttled {p : Pkg} {d : Nat} (h : d ∈ p.throttled) : clockLimit p d = 400 := if_pos (by simp [h])
theorem clockLimit_of_coolantLow {p : Pkg} (h : p.coolantLow = true) (d : Nat) : clockLimit p d = 400 := if_pos (by simp [h])

/-- With the coolant low, every die of a list comes down to 400 MHz, and none of another rises. -/
theorem foldl_clamp_coolantLow {p : Pkg} (h : p.coolantLow = true) (ds : List Nat) {d : Nat} (hd : d ∈ ds ∨ topClock p d ≤ 400) :
    topClock (ds.foldl Pkg.clamp p) d ≤ 400 := by
  induction ds generalizing p with
  | nil => exact hd.resolve_left (by simp)
  | cons e ds ih =>
    refine ih (p := p.clamp e) h ?_
    by_cases he : d = e
    · exact .inr (he ▸ topClock_clamp_le (clockLimit_of_coolantLow h _).le)
    · rw [topClock_clamp_ne p he]
      exact hd.imp_left fun hd => (List.mem_cons.1 hd).resolve_left he

theorem clockChange_takes {s : State} {die mhz : Nat} (hd : die ∈ allDies) (h25 : mhz % 25 = 0) (h400 : 400 ≤ mhz)
    (hl : mhz ≤ clockLimit s.pkg die) :
    exec (.clockChange die mhz) s = .next { s with pkg := { s.pkg with clock := alSet s.pkg.clock die mhz } } := by
  have taken : (allDies.contains die && mhz % 25 == 0 && decide (400 ≤ mhz) && decide (mhz ≤ clockLimit s.pkg die)) = true := by
    simp only [List.contains_iff_mem.2 hd, h25, h400, hl]; decide
  exact congrArg Host.Outcome.next (if_pos taken)

/-- R33: a Chard's ceiling comes down once those of the Marrows have. -/
theorem powerCap_lowers {s : State} {die mhz : Nat} (hd : die < 16)
    (hm : die < 8 → ∀ t < 8, alGetD s.pkg.ceiling (8 + t) 3000 < 3000) (h25 : mhz % 25 = 0) (h400 : 400 ≤ mhz)
    (hc : mhz < alGetD s.pkg.ceiling die 3000) : exec (.powerCap die mhz) s =
      .next { s with pkg := ({ s.pkg with ceiling := alSet s.pkg.ceiling die mhz } : Pkg).clamp die } := by
  have first : (decide (8 ≤ die) || (List.range 8).all (fun t => decide (alGetD s.pkg.ceiling (8 + t) 3000 < 3000))) = true := by
    rcases Nat.lt_or_ge die 8 with h | h
    · rw [List.all_eq_true.2 fun t ht => decide_eq_true (hm h t (List.mem_range.1 ht)), Bool.or_true]
    · rw [decide_eq_true h, Bool.true_or]
  have taken : (decide (die < 16) && (decide (8 ≤ die) || (List.range 8).all (fun t => decide (alGetD s.pkg.ceiling (8 + t) 3000 < 3000))) &&
      mhz % 25 == 0 && decide (400 ≤ mhz) && decide (mhz < alGetD s.pkg.ceiling die 3000)) = true := by
    simp only [first, hd, h25, h400, hc]; decide
  exact congrArg Host.Outcome.next (if_pos taken)

theorem thermalThrottle_takes {s : State} {die : Nat} (hd : die ∈ allDies) (ht : die ∉ s.pkg.throttled) :
    exec (.thermalThrottle die) s = .next { s with pkg := ({ s.pkg with throttled := s.pkg.throttled ++ [die] } : Pkg).clamp die } := by
  have taken : (allDies.contains die && !s.pkg.throttled.contains die) = true := by simp [hd, ht]
  exact congrArg Host.Outcome.next (if_pos taken)

/-! ### Power down (R34) -/

/-- Without power a step does nothing, unless the agenda names POWER_ON. -/
theorem step_noPower {s : State} (hp : s.pkg.powered = false) (ha : ∀ b r, s.agenda ≠ .ev (.powerOn b) :: r) :
    step s = .fault .noPower := by
  simp only [step, stepWith, hp, Bool.false_eq_true, if_false]

theorem thermalShutdown_powersDown {s : State} {die : Nat} (hd : die ∈ allDies) :
    ∃ t, exec (.thermalShutdown die) s = .next t ∧ t.pkg.powered = false :=
  ⟨_, congrArg Host.Outcome.next (if_pos (List.contains_iff_mem.2 hd)), rfl⟩

/-! ### The boot (R36 to R40, Table 2.1) -/

/-- A boot that fails holds its codes, and every control core stops. -/
theorem ctlD_bootFails (s : State) (stage code : Nat) {k : Nat} (h : k < 32) : ((s.bootFails stage code).ctlD k).st = .stopped := by
  rw [State.bootFails, State.ctlD, alGetD_map_range _ _ _ h]

/-- The boot has gone a stage further, or is over. -/
def Advanced (s t : State) (b : BootIn) : Prop :=
  t.sys.bootFail = s.sys.bootFail ∧ (t.pkg.boot = some b ∧ t.sys.bootStage = s.sys.bootStage + 1 ∨
    s.sys.bootStage = 8 ∧ t.pkg.boot = none ∧ t.sys.bootStage = 0x0F)
/-- The boot has failed, at its stage or the next. -/
def Failed (s t : State) : Prop :=
  t.pkg.boot = none ∧ t.sys.bootFail ≠ 0 ∧ s.sys.bootStage.toNat ≤ t.sys.bootStage.toNat ∧ ∀ k < 32, (t.ctlD k).st = .stopped

theorem failed_bootFails {s u : State} {stage code : Nat} (hs : s.sys.bootStage.toNat ≤ stage) (h9 : stage < 9)
    (hc : 0 < code) (hc9 : code < 9) : Failed s (u.bootFails stage code) := by
  refine ⟨rfl, fun h => ?_, ?_, fun k => ctlD_bootFails u stage code⟩
  · have := congrArg BitVec.toNat (show BitVec.ofNat 8 code = 0 from h)
    simp only [BitVec.toNat_ofNat] at this
    have : code % 2 ^ 8 = 0 := this
    omega
  · show s.sys.bootStage.toNat ≤ (BitVec.ofNat 8 stage).toNat
    rw [BitVec.toNat_ofNat]
    omega

theorem pickImage_error {p : Pkg} {typ c : Nat} (h : pickImage p typ = .error c) : 0 < c ∧ c < 9 := by
  unfold pickImage at h
  split at h
  · cases h
  · split at h
    · cases h
    · cases h
      split <;> decide

theorem boot_underRecs (p : Pkg) : p.underRecs.boot = p.boot := by
  have one : ∀ (p : Pkg) r, (p.underRec r).boot = p.boot := fun p r => by unfold Pkg.underRec; dsimp only; split <;> rfl
  have all : ∀ (rs : List (List Byte)) (p : Pkg), (rs.foldl Pkg.underRec p).boot = p.boot := by
    intro rs
    induction rs with
    | nil => exact fun _ => rfl
    | cons r rs ih => exact fun p => (ih _).trans (one p r)
  exact all ..

/-- The stage entered. -/
theorem stage_succ {x : BitVec 8} {n : Nat} (h : x.toNat = n) : BitVec.ofNat 8 (n + 1) = x + 1 := by
  subst h
  apply BitVec.eq_of_toNat_eq
  simp

section
variable {s t u : State} {b : BootIn} {n : Nat} (hn : s.sys.bootStage.toNat = n)
include hn

/-- The next stage entered, with the boot still in progress, whatever else starts meanwhile. -/
theorem advanced_of_outline (ht : outline t = outline u) (hy : u.sys = { s.sys with bootStage := BitVec.ofNat 8 (n + 1) })
    (hb : u.pkg.boot = some b) : Advanced s t b ∨ Failed s t := by
  have boot : t.pkg.boot = u.pkg.boot := congrArg (fun o => o.2.1) ht
  have stage : t.sys.bootStage = u.sys.bootStage := congrArg (fun o => o.2.2.1) ht
  have fail : t.sys.bootFail = u.sys.bootFail := congrArg (fun o => o.2.2.2) ht
  exact .inl ⟨by rw [fail, hy], .inl ⟨boot.trans hb, by rw [stage, hy]; exact stage_succ hn⟩⟩

theorem failed_next {code : Nat} (h8 : n < 8) (hc : 0 < code) (hc9 : code < 9) (b : BootIn) :
    Advanced s (u.bootFails (n + 1) code) b ∨ Failed s (u.bootFails (n + 1) code) :=
  .inr (failed_bootFails (by omega) (by omega) hc hc9)

end

/-- Table 2.1: a step of a boot, stage by stage. -/
theorem bootStep_advances {s : State} {b : BootIn} (hb : s.pkg.boot = some b) (h9 : s.sys.bootStage.toNat < 9) :
    Advanced s s.bootStep b ∨ Failed s s.bootStep := by
  generalize hn : s.sys.bootStage.toNat = n at h9
  interval_cases n <;> simp only [State.bootStep, hb, hn]
  · split
    · exact advanced_of_outline hn rfl rfl hb
    · exact failed_next hn (by decide) (by decide) (by decide) b
  · split
    · exact failed_next hn (by decide) (by decide) (by decide) b
    · split
      · exact failed_next hn (by decide) (by decide) (by decide) b
      · exact advanced_of_outline hn rfl rfl rfl
  · exact advanced_of_outline hn rfl rfl hb
  · split
    · rename_i e
      obtain ⟨hc, hc9⟩ := pickImage_error e
      exact failed_next hn (by decide) hc hc9 b
    · exact advanced_of_outline hn rfl rfl rfl
  · split
    · exact advanced_of_outline hn (outline_startImage ..) rfl rfl
    · exact .inr (failed_bootFails hn.le (by decide) (by decide) (by decide))
  · split
    · exact failed_next hn (by decide) (by decide) (by decide) b
    · split
      · exact failed_next hn (by decide) (by decide) (by decide) b
      · exact advanced_of_outline hn rfl rfl hb
  · split
    · exact failed_next hn (by decide) (by decide) (by decide) b
    · exact advanced_of_outline hn rfl rfl ((boot_underRecs s.pkg).trans hb)
  · split
    · rename_i e
      obtain ⟨hc, hc9⟩ := pickImage_error e
      exact failed_next hn (by decide) hc hc9 b
    · exact advanced_of_outline hn (outline_startImage ..) rfl rfl
  · exact .inl ⟨rfl, .inr ⟨BitVec.eq_of_toNat_eq hn, rfl, rfl⟩⟩

/-! ### Power on (R36) -/

/-- The machine that POWER_ON hands to the boot's first stage: a package reset, the store and the stacks that the board has. -/
theorem execPowerOn_boots (s : State) (b : BootIn) : ∃ u : State, execPowerOn b s = .next u.bootStep ∧ u.pkg.boot = some b ∧
    u.pkg.powered = true ∧ u.ctxs = [] ∧ u.launches = [] ∧ u.thrs = [] ∧ u.sys = State.reset.sys := by
  refine ⟨_, rfl, rfl, ?_, ?_, ?_, ?_, ?_⟩ <;> cases b.nor <;> dsimp only <;> split_ifs <;> rfl

/-- Stage 0: the self-test passes, or its failure ends the boot. -/
theorem bootStep_zero {s : State} {b : BootIn} (hb : s.pkg.boot = some b) (h0 : s.sys.bootStage = 0) :
    s.bootStep = if b.selfTest then { s with sys := { s.sys with bootStage := 1 } } else s.bootFails 1 1 := by
  simp only [State.bootStep, hb, h0]
  rfl

theorem powerOn_boots (s : State) (b : BootIn) : ∃ t, exec (.powerOn b) s = .next t ∧ t.pkg.powered = true ∧ t.ctxs = [] ∧
    t.launches = [] ∧ t.thrs = [] ∧ t.sys.bootStage = 1 ∧ (b.selfTest = true → t.pkg.boot = some b ∧ t.sys.bootFail = 0) ∧
    (b.selfTest = false → t.pkg.boot = none ∧ t.sys.bootFail = 1 ∧ ∀ k < 32, (t.ctlD k).st = .stopped) := by
  obtain ⟨u, next, boot, pow, ctxs, launches, thrs, sys⟩ := execPowerOn_boots s b
  refine ⟨_, next, ?_⟩
  rw [bootStep_zero boot (by rw [sys]; rfl)]
  cases h : b.selfTest with
  | true => exact ⟨pow, ctxs, launches, thrs, rfl, fun _ => ⟨boot, by simp only [if_true, sys]; rfl⟩, nofun⟩
  | false => exact ⟨pow, ctxs, launches, thrs, rfl, nofun, fun _ => ⟨rfl, rfl, fun _ => ctlD_bootFails u 1 1⟩⟩

/-! ### The obligation -/

theorem coolantLow_foldl_clamp (ds : List Nat) (p : Pkg) : (ds.foldl Pkg.clamp p).coolantLow = p.coolantLow := by
  induction ds generalizing p with
  | nil => rfl
  | cons d ds ih => exact ih _

/-- Settles O34: a clock that comes down to its limit is below every bound on the limit, and the boot goes by the stages of
Table 2.1, each of which starts the next or fails. -/
theorem powerEvents : Obligations.PowerEvents := by
  refine ⟨fun s die mhz => ⟨clockChange_takes, fun hd hm h25 h400 hc => ?cap, fun hd ht => ?throttle, ?recover, ?low, rfl,
    fun hd => ?shutdown, powerOn_boots s⟩, fun s b => bootStep_advances⟩
  case cap =>
    have set : alGetD (alSet s.pkg.ceiling die mhz) die 3000 = mhz := alGetD_alSet_same ..
    exact ⟨_, powerCap_lowers hd hm h25 h400 hc, set, topClock_clamp_le (clockLimit_le_ceiling h400 (alGetD_alSet_same ..))⟩
  case throttle =>
    exact ⟨_, thermalThrottle_takes hd ht, rfl, topClock_clamp_le (clockLimit_of_throttled (by simp)).le⟩
  case recover =>
    exact ⟨_, rfl, fun h => by simp at h, fun d hd hne => by simpa using ⟨hd, hne⟩⟩
  case low =>
    exact ⟨_, rfl, coolantLow_foldl_clamp .., fun d hd => foldl_clamp_coolantLow rfl _ (.inl hd)⟩
  case shutdown =>
    obtain ⟨t, next, off⟩ := thermalShutdown_powersDown (s := s) hd
    exact ⟨t, next, off, step_noPower off⟩

end Sys2Proof.Proofs
end

