-- ==== Sys2Proof/Proofs/ControlSpace.lean ====
section
/-! PROOFS. Control space and access tables (R42, R43): what a refusal leaves, writes that are taken, context commands (R46, R47) and
the registers of launch queues (R53 to R58). -/
namespace Sys2Proof.Proofs
open Sys2Proof.Machine Sys2Proof.Laws

/-! ### Contexts -/

/-- A table changed entry by entry, every key kept. -/
theorem alGet_map_of_fst {α : Type} {f : Nat × α → Nat × α} (h : ∀ e, (f e).1 = e.1) (l : AL α) (k : Nat) :
    alGet (l.map f) k = (alGet l k).map (fun v => (f (k, v)).2) := by
  induction l with
  | nil => rfl
  | cons e l ih =>
    have key := h e
    obtain ⟨j, v⟩ := e
    simp only [List.map_cons, alGet, ih]
    rw [show f (j, v) = ((f (j, v)).1, (f (j, v)).2) from rfl, key]
    by_cases hj : j = k
    · subst hj; simp
    · simp [hj]

@[simp] theorem ctxD_modCtx (s : State) (c : Nat) (f : Ctx → Ctx) : (s.modCtx c f).ctxD c = f (s.ctxD c) := alGetD_alMod_same ..

/-- A context that is not FREE is listed. -/
theorem alGet_ctxs_of_ne_free {s : State} {ctx : Nat} (h : (s.ctxD ctx).st ≠ .free) : alGet s.ctxs ctx = some (s.ctxD ctx) := by
  cases e : alGet s.ctxs ctx with
  | none => exact absurd (by rw [State.ctxD, alGetD, e]; rfl) h
  | some c => rw [State.ctxD, alGetD, e, Option.getD_some]

/-! ### Refusals (R43) -/

@[simp] theorem sys_freezeLines (s : State) (mid : Nat) : (s.freezeLines mid).sys = s.sys := by
  unfold State.freezeLines; split <;> rfl
@[simp] theorem thrs_freezeLines (s : State) (mid : Nat) : (s.freezeLines mid).thrs = s.thrs := by
  unfold State.freezeLines; split <;> rfl
/-- R140: of memory, a freeze changes the owners of lines alone. -/
theorem mem_freezeLines (s : State) (mid : Nat) :
    (s.freezeLines mid).mem = { s.mem with owned := (s.freezeLines mid).mem.owned } := by
  unfold State.freezeLines; split <;> rfl

/-- A master that is no control core freezes without a package reset (R309). -/
theorem freezeMaster_of_not_ctl {mid : Nat} (h : isCtlMid mid = false) (s : State) : s.freezeMaster mid =
    ({ s with sys := { s.sys with frozen := alSet s.sys.frozen mid true } } : State).freezeLines mid := by
  simp only [State.freezeMaster, h, Bool.false_and, Bool.false_eq_true, if_false]

section
variable (s : State) (tgt addr why e : Nat) (cls : ReqClass)

/-- R58: the front end's violation is recorded, and it goes on. -/
theorem refuse_frontEnd : ∃ viol, s.refuse feMid tgt cls addr why e =
    { s with sys := { s.sys with viol := viol, vseq := s.sys.vseq + 1 } } := by
  simp only [State.refuse, if_true]
  exact ⟨_, rfl⟩

/-- Any other master but a control core freezes and holds the number of its violation. -/
theorem refuse_freezes {mid : Nat} (hf : mid ≠ feMid) (hc : isCtlMid mid = false) : ∃ viol stks, s.refuse mid tgt cls addr why e =
    ({ s with
      stks := stks
      sys := { s.sys with
        viol := viol, vseq := s.sys.vseq + 1, heldSeq := alSet s.sys.heldSeq mid s.sys.vseq
        frozen := alSet s.sys.frozen mid true } } : State).freezeLines mid := by
  unfold State.refuse
  simp only [hf, if_false, freezeMaster_of_not_ctl hc]
  split
  · exact ⟨_, _, rfl⟩
  · exact ⟨_, s.stks, rfl⟩

theorem refuse_outcome {mid : Nat} (hc : isCtlMid mid = false) :
    let t := s.refuse mid tgt cls addr why e
    t.sys.vseq = s.sys.vseq + 1 ∧ (mid ≠ feMid → t.isFrozen mid = true ∧ alGetD t.sys.heldSeq mid 0 = s.sys.vseq) ∧
      (mid = feMid → t.sys.frozen = s.sys.frozen) ∧ t.mem = { s.mem with owned := t.mem.owned } ∧ t.thrs = s.thrs := by
  intro t
  by_cases hf : mid = feMid
  · subst hf
    obtain ⟨viol, eq⟩ := refuse_frontEnd s tgt addr why e cls
    simp only [t, eq]
    exact ⟨trivial, fun h => absurd rfl h, fun _ => trivial, trivial, trivial⟩
  · obtain ⟨viol, stks, eq⟩ := refuse_freezes s tgt addr why e cls hf hc
    simp only [t, eq, State.isFrozen, sys_freezeLines, thrs_freezeLines]
    exact ⟨trivial, fun _ => ⟨alGetD_alSet_same .., alGetD_alSet_same ..⟩, fun h => absurd h hf, mem_freezeLines .., trivial⟩

end

theorem accessRefusal_refuses {s : State} {mid tgt addr why e : Nat} {cls : ReqClass} (hm : mid < 2 ^ 16) (ht : tgt < 2 ^ 16)
    (h : accCheck (s.table tgt) mid cls addr = some (why, e)) :
    exec (.accessRefusal mid tgt cls addr) s = .next (s.refuse mid tgt cls addr why e) := by
  show execAccessRefusal mid tgt cls addr s = _
  simp only [execAccessRefusal, Nat.not_le.2 hm, Nat.not_le.2 ht, or_self, if_false, h]

/-! ### Access tables (R42) -/

section
variable {s : State} {mid tgt idx : Nat} (w : BitVec 128)

theorem accessTableWrite_eq (hf : s.isFrozen mid = false) (hi : idx < tableSize tgt) (hm : mid < 2 ^ 16) :
    exec (.accessTableWrite mid tgt idx w) s = .next (s.writeAcc mid tgt idx w) := by
  have taken : ¬ (s.isFrozen mid || decide (idx ≥ tableSize tgt) || decide (mid ≥ 2 ^ 16)) = true := by
    simp only [hf, Nat.not_le.2 hi, Nat.not_le.2 hm, decide_false, Bool.or_self, Bool.false_eq_true, not_false_iff]
  exact congrArg Host.Outcome.next (if_neg taken)

theorem writeAcc_of_not_ctl (hc : isCtlMid mid = false) : s.writeAcc mid tgt idx w = s.refuse mid tgt .tableWrite idx 3 255 := by
  simp only [State.writeAcc, hc, Bool.not_false, if_true]

theorem writeAcc_of_locked (hc : isCtlMid mid = true) (hl : (alGetD (s.table tgt) idx 0).getLsbD 6 = true) :
    s.writeAcc mid tgt idx w = s.refuse mid tgt .tableWrite idx 4 idx := by
  simp only [State.writeAcc, hc, hl, Bool.not_true, Bool.false_eq_true, if_false, if_true]

theorem writeAcc_of_open (hc : isCtlMid mid = true) (hl : (alGetD (s.table tgt) idx 0).getLsbD 6 = false) :
    s.writeAcc mid tgt idx w =
      { s with mem := { s.mem with acc := alSet s.mem.acc (tgt / 1024) (alSet (s.table tgt) idx (accStored w)) } } := by
  simp only [State.writeAcc, hc, hl, Bool.not_true, Bool.false_eq_true, if_false]

end

/-! ### Writes that are taken (R42, R46) -/

section
variable {s : State} {mid : Nat}

/-- A write that is taken has its effect. -/
theorem ctlWrite_taken {off : Nat} (h : CtlOk s mid off) (f : State → State) : s.ctlWrite mid off f = f s := by
  obtain ⟨hf, ha⟩ := h
  simp only [State.ctlWrite, hf, Bool.false_eq_true, if_false, ha]

/-- A command that is taken leaves its result (Table 3.1). -/
theorem ctxCmd_taken {ctx : Nat} (h : CmdOk s mid ctx) (f : State → State × Nat) :
    s.ctxCmd mid ctx f = (f s).1.resulted ctx (f s).2 := by
  obtain ⟨hw, hm, hc, hb⟩ := h
  have taken : (isCtlMid mid && decide (ctx < 64) && s.sys.busy == 0) = true := by simp [hm, hc, hb]
  rw [State.ctxCmd, ctlWrite_taken hw, if_pos taken]
  rfl

theorem registerWrite_taken {off : Nat} (h : CtlOk s mid off) (v : DWord) :
    exec (.registerWrite mid off v) s = .next (s.writeReg mid off v) := congrArg Host.Outcome.next (ctlWrite_taken h _)

theorem writeReg_frzsel (s : State) (mid : Nat) (v : DWord) :
    s.writeReg mid 0x2010 v = { s with sys := { s.sys with frzsel := v.setWidth 16 } } := by
  rw [← BitVec.ofNat_toNat]
  rfl

end

/-! ### CREATE (R47) -/

theorem create_of_ne_free {s : State} {ctx : Nat} (h : (s.ctxD ctx).st ≠ .free) (d : Nat) : s.create ctx d = (s, 2) :=
  if_pos (by simpa using h)

/-- The reads of a CREATE leave the new context's state as it was. -/
theorem st_readNew {s t : State} {ctx : Nat} {c c' : Ctx} (h : s.readNew ctx c = (t, some c')) : c'.st = c.st := by
  unfold State.readNew at h
  dsimp only at h
  split at h
  · cases h
  split at h
  · cases h
  split at h
  · cases h
  split at h
  · cases h; rfl
  · cases h

/-- RESULT 0 of a CREATE: the context is LIVE. Only the last of its branches, after the reads, gives 0. -/
theorem create_live {s : State} {ctx d : Nat} (h : (s.create ctx d).2 = 0) : ((s.create ctx d).1.ctxD ctx).st = .live := by
  revert h
  unfold State.create
  split
  · exact nofun
  split
  · exact nofun
  dsimp only
  split
  · exact nofun
  split
  · exact nofun
  split
  · exact nofun
  split
  · exact nofun
  rename_i read
  split
  · exact nofun
  split
  · exact nofun
  · intro _
    rw [State.ctxD, alGetD_alSet_same, st_readNew read]

/-! ### DRAIN (R47, R48) -/

/-- A DRAINING context with no admitted launch is DRAINED. -/
theorem settleDrains_drained {s : State} {ctx : Nat} (hd : (s.ctxD ctx).st = .draining) (ha : s.hasAdmitted ctx = false) :
    (s.settleDrains.ctxD ctx).st = .drained := by
  have listed : alGet s.ctxs ctx = some (s.ctxD ctx) := alGet_ctxs_of_ne_free (by rw [hd]; decide)
  rw [State.ctxD, alGetD, State.settleDrains, alGet_map_of_fst (by intro e; split <;> rfl), listed]
  simp [hd, ha]

/-- Settling makes no context LIVE. -/
theorem settleDrains_no_live {s : State} (h : ∀ c ∈ s.ctxs, c.2.st ≠ .live) : ∀ c ∈ s.settleDrains.ctxs, c.2.st ≠ .live := by
  intro c hc
  obtain ⟨x, hx, rfl⟩ := List.mem_map.1 hc
  dsimp only
  split
  · exact nofun
  · exact h x hx

theorem hasAdmitted_eq_false {s : State} {ctx : Nat} (h : ∀ l ∈ s.launches, l.2.ctx = ctx → l.2.phase ≠ .admitted) :
    s.hasAdmitted ctx = false :=
  List.any_eq_false.2 fun l hl => by simpa using h l hl

theorem drainCtx_one {s : State} {ctx : Nat} (h : (s.ctxD ctx).st = .live)
    (hl : ∀ l ∈ s.launches, l.2.ctx = ctx → l.2.phase ≠ .admitted) :
    ∃ t : State, s.drainCtx false ctx = (t, 0) ∧ (t.ctxD ctx).st = .drained := by
  refine ⟨(s.modCtx ctx (fun c => { c with st := .draining })).settleDrains, ?_, settleDrains_drained ?_ (hasAdmitted_eq_false hl)⟩
  · simp only [State.drainCtx, h, Bool.false_eq_true, if_false]; rfl
  · rw [ctxD_modCtx]

theorem drainCtx_all (s : State) (ctx : Nat) :
    ∃ t : State, s.drainCtx true ctx = (t, 0) ∧ t.sys.allDrain = true ∧ ∀ c ∈ t.ctxs, c.2.st ≠ .live := by
  refine ⟨_, if_pos rfl, rfl, settleDrains_no_live fun c hc => ?_⟩
  obtain ⟨x, hx, rfl⟩ := List.mem_map.1 hc
  split
  · exact nofun
  · rename_i h
    exact fun e => h (by rw [e]; rfl)

/-! ### DESTROY (R47) -/

theorem ctxD_destroyCtx (s : State) (ctx : Nat) (dbl : Option (Nat × Option Nat)) : (s.destroyCtx ctx dbl).ctxD ctx = .empty := by
  show alGetD (alDel _ ctx) ctx _ = _
  rw [alGetD, alGet_alDel, if_pos rfl, Option.getD_none]

/-! ### Context commands (R46, R47) -/

section
variable {s : State} {mid ctx : Nat} (h : CmdOk s mid ctx)
include h

theorem create_taken (d : Nat) : exec (.create mid ctx d) s = .next ((s.create ctx d).1.resulted ctx (s.create ctx d).2) :=
  congrArg Host.Outcome.next (ctxCmd_taken h _)

theorem drain_taken {all : Bool} {t : State} (ht : s.drainCtx all ctx = (t, 0)) :
    exec (.drain mid all ctx) s = .next (t.resulted ctx 0) := by
  show execDrain mid all ctx s = _
  rw [execDrain, ctxCmd_taken h, ht]

theorem resume_taken (hd : (s.ctxD ctx).st = .drained) : exec (.resume mid ctx) s = .next ((s.resumeCtx ctx).resulted ctx 0) := by
  show execResume mid ctx s = _
  rw [execResume, ctxCmd_taken h, if_pos (beq_iff_eq.2 hd)]

theorem destroy_taken (hf : (s.ctxD ctx).st ≠ .free) : exec (.destroy mid ctx) s = .next ((s.destroyCtx ctx none).resulted ctx 0) := by
  show execDestroy mid ctx s = _
  rw [execDestroy, ctxCmd_taken h, if_neg (by simpa using hf)]

theorem ctxcmdBadOp_taken {op : Nat} (ho : op = 0 ∨ 5 ≤ op) : exec (.ctxcmdBadOp mid op ctx) s = .next (s.resulted ctx 6) := by
  show execCtxcmdBadOp mid op ctx s = _
  rw [execCtxcmdBadOp, ctxCmd_taken h, if_neg (by omega)]

end

/-! ### Launch queues (R53 to R58) -/

theorem tbit_eq_getLsbD (v : DWord) (i : Nat) : tbit v i = v.getLsbD i := by
  rw [BitVec.getLsbD, Nat.testBit_eq_decide_div_mod_eq]
  rfl

/-- A queue of a context that is not FREE changes in its place. -/
theorem modQueue_eq {s : State} {ctx q : Nat} (hq : q < 64) (hc : (s.ctxD ctx).st ≠ .free) (f : Queue → Queue) :
    s.modQueue ctx q f = s.modCtx ctx (fun c => { c with queues := alSet c.queues q (f (s.queueD ctx q)) }) := by
  have kept : ¬ ((s.ctxD ctx).st == .free || decide (q ≥ 64)) = true := by simp [hc, hq]
  exact if_neg kept

/-- R55: the slot that a doorbell names becomes ready. -/
theorem ring_ready {y : Queue} {v : DWord} (he : y.en = true) (h12 : v.toNat < 4096) (hsz : v.toNat < 2 ^ y.logsz)
    (hr : v.toNat ∉ y.ready) : y.ring v = { y with ready := y.ready ++ [v.toNat] } :=
  if_neg (by simp [he, h12, hsz, hr])

/-- R55: a doorbell of a disabled queue, beyond it, or for a slot that is ready sets ERR. -/
theorem ring_err {y : Queue} {v : DWord} (h : y.en = false ∨ 4096 ≤ v.toNat ∨ 2 ^ y.logsz ≤ v.toNat ∨ v.toNat ∈ y.ready) :
    y.ring v = { y with err := true } := by
  refine if_pos ?_
  rcases h with h | h | h | h <;> simp [h]

section
variable {s : State} {mid ctx q : Nat} (v : DWord) (hq : q < 64) (hc : (s.ctxD ctx).st ≠ .free)
include hq hc

theorem qcfgWrite_taken (h : CtlOk s mid (queueOff ctx q 8)) : exec (.qcfgWrite mid ctx q v) s = .next (s.modCtx ctx (fun c =>
    { c with queues := alSet c.queues q ((s.queueD ctx q).cfg ((s.ctxD ctx).canEnable q) v) })) :=
  congrArg Host.Outcome.next ((ctlWrite_taken h _).trans (modQueue_eq hq hc _))

theorem qstsWrite_taken (h : CtlOk s mid (queueOff ctx q 24)) : exec (.qstsWrite mid ctx q v) s = .next (s.modCtx ctx (fun c =>
    { c with queues := alSet c.queues q { s.queueD ctx q with
      stall := (s.queueD ctx q).stall && !v.getLsbD 1, err := (s.queueD ctx q).err && !v.getLsbD 0 } })) := by
  show execQstsWrite mid ctx q v s = _
  rw [execQstsWrite, ctlWrite_taken h, modQueue_eq hq hc]
  simp only [tbit_eq_getLsbD]

end

/-! ### The obligation -/

/-- Settles O38: a write that the table allows has its effect by `ctlWrite_taken`, a context command by `ctxCmd_taken`, and a refusal
leaves what `refuse_outcome` says. -/
theorem controlSpace : Obligations.ControlSpace := by
  intro s mid ctx q v
  refine ⟨fun h => ⟨fun d => ⟨create_taken h d, fun hf => create_of_ne_free hf d, create_live⟩, ?drain, ?drainAll, resume_taken h,
      fun hf => ⟨_, destroy_taken h hf, congrArg Ctx.st (ctxD_destroyCtx ..)⟩, fun op => ctxcmdBadOp_taken h⟩,
    fun hq hc => ⟨qcfgWrite_taken v hq hc, fun h => congrArg Host.Outcome.next (ctlWrite_taken h _), fun y => ring_ready,
      fun y => ring_err, qstsWrite_taken v hq hc⟩,
    fun off h => ⟨registerWrite_taken h v, fun e => e ▸ writeReg_frzsel s mid v⟩, fun tgt addr why e cls => accessRefusal_refuses,
    fun tgt idx w hf hi hm => ?table, fun tgt addr why e cls _ => refuse_outcome s tgt addr why e cls⟩
  case drain =>
    intro hd hl
    obtain ⟨t, eq, st⟩ := drainCtx_one hd hl
    exact ⟨t, drain_taken h eq, st⟩
  case drainAll =>
    obtain ⟨t, eq, all⟩ := drainCtx_all s ctx
    exact ⟨t, drain_taken h eq, all⟩
  case table =>
    rw [accessTableWrite_eq w hf hi hm]
    exact ⟨fun hc => congrArg _ (writeAcc_of_not_ctl w hc), fun hc hl => congrArg _ (writeAcc_of_locked w hc hl),
      fun hc hl => congrArg _ (writeAcc_of_open w hc hl)⟩

end Sys2Proof.Proofs
end

