-- ==== Sys2Proof/Proofs/LaunchReads.lean ====
section
/-! PROOFS. The front end's reads: packets (R55, R58), completion records (R65), the tables of a launch (R61 to R63, R68, R452), and
launches that miss their deadlines (R67). -/
namespace Sys2Proof.Proofs
open Sys2Proof.Machine Sys2Proof.Laws

/-! ### Packets (R55, R58) -/

/-- A queue has a packet that the front end may accept now (R55). -/
structure SlotDue (s : State) (ctx q : Nat) : Prop where
  created : (s.ctxD ctx).st ≠ .free
  enabled : (s.queueD ctx q).en = true
  runs : (s.queueD ctx q).stall = false
  ready : (s.queueD ctx q).head ∈ (s.queueD ctx q).ready
  room : s.launches.length < 4096

/-- Where a queue's slot HEAD lies (R53). -/
def headVa (s : State) (ctx q : Nat) : Nat := (s.queueD ctx q).base + 128 * (s.queueD ctx q).head

section
variable {s t : State} {ctx q : Nat} (due : SlotDue s ctx q)
include due

theorem SlotDue.guard : ((s.ctxD ctx).st == .free || !(s.queueD ctx q).en || (s.queueD ctx q).stall ||
    !(s.queueD ctx q).ready.contains (s.queueD ctx q).head || decide (s.launches.length ≥ acceptMax)) = false := by
  obtain ⟨created, enabled, runs, ready, room⟩ := due
  simp [created, enabled, runs, ready, acceptMax, room]

theorem slotAccept_of_read {p : Nat} (h : feRead (feWho ctx) (headVa s ctx q) 3 128 s = (t, .ok p)) :
    exec (.slotAccept ctx q) s = .next (t.acceptPacket ctx q (headVa s ctx q) (wordsOf 16 p)) := by
  unfold headVa at h
  show execSlotAccept ctx q s = _
  simp only [execSlotAccept, due.guard, Bool.false_eq_true, if_false, h]
  rfl

theorem slotAccept_of_failed {c a : Nat} (h : feRead (feWho ctx) (headVa s ctx q) 3 128 s = (t, .error (c, a))) :
    exec (.slotAccept ctx q) s =
      .next ((t.modQueue ctx q (fun x => { x with stall := true })).launchRecord ctx c (headVa s ctx q) a 0).1 := by
  unfold headVa at h
  show execSlotAccept ctx q s = _
  simp only [execSlotAccept, due.guard, Bool.false_eq_true, if_false, h]
  rfl

end

/-! ### Completion records (R65) -/

/-- The read of a record found the final status OK. -/
def ReadOk (r : Except (Nat × Nat) Nat) : Prop := ∃ v, r = .ok v ∧ v / 2 ^ 56 = 2
/-- What a dependence comes to by the read of its record. -/
def depRead : Except (Nat × Nat) Nat → Dep
  | .ok v => if v / 2 ^ 56 = 2 then .satisfied else .failed
  | .error _ => .failed

theorem depRead_of_ok {r : Except (Nat × Nat) Nat} (h : ReadOk r) : depRead r = .satisfied := by
  obtain ⟨v, rfl, hv⟩ := h
  exact if_pos hv
theorem depRead_of_not_ok {r : Except (Nat × Nat) Nat} (h : ¬ ReadOk r) : depRead r = .failed := by
  cases r with
  | ok v => exact if_neg fun hv => h ⟨v, rfl, hv⟩
  | error e => rfl

section
variable {s : State} {lid : Nat} {l : Launch} (hl : s.launch? lid = some l)
include hl

theorem drecRead_settles {dep : Nat} (ha : l.phase = .accepted) (hd : l.deps.getD dep .none = .toRead) {t : State}
    {r : Except (Nat × Nat) Nat} (h : feRead (feWho l.ctx) (pf l.pkt (10 + dep) 54 6 * 64) 2 8 s = (t, r)) :
    exec (.drecRead lid dep) s =
      .next ((t.modLaunch lid (fun l => { l with deps := l.deps.set dep (depRead r) })).settleAccepted lid) := by
  have due : (l.phase != .accepted || l.deps.getD dep .none != .toRead) = false := by rw [ha, hd]; rfl
  show execDrecRead lid dep s = _
  simp only [execDrecRead, hl, due, Bool.false_eq_true, if_false, h]
  cases r <;> rfl

/-! ### The tables of a launch (R61 to R63, R68, R452) -/

theorem launchD_eq : s.launchD lid = l := by rw [State.launchD, hl, Option.getD_some]

/-- An instruction that reads n bytes for a launch puts them to use, or completes the launch FAULT where a line of them fails. -/
theorem got_of_launchRead (hr : l.readsDue s.qclk = true) (i : Instr) (va n : Launch → Nat) {due : Launch → Bool}
    {put : State → Launch → Nat → State}
    (hi : exec i s = .next (s.launchRead lid (va (s.launchD lid)) (n (s.launchD lid)) due put)) (hd : due l = true) :
    (∀ t v, feRead (feWho l.ctx) (va l) (n l / 64 + 2) (n l) s = (t, .ok v) → exec i s = .next (put t l v)) ∧
    (∀ t e, feRead (feWho l.ctx) (va l) (n l / 64 + 2) (n l) s = (t, .error e) → exec i s = .next (t.readFailed lid l e)) := by
  rw [launchD_eq hl] at hi
  constructor <;> intro t x h <;> rw [hi] <;> simp only [State.launchRead, hl, hr, hd, h, Bool.and_self, if_true]

theorem deadlineMiss_completes (hm : l.missed s.qclk = true) : exec (.deadlineMiss lid) s = .next (s.complete lid 3) := by
  show execDeadlineMiss lid s = _
  simp only [execDeadlineMiss, hl, hm, if_true]

end

/-! ### The obligation -/

theorem countFits_iff {l : Launch} {v : Nat} : countFits l v = true ↔ v ≤ 2 ^ 48 ∧ l.baseidx + v ≤ 2 ^ 64 := by
  simp only [countFits, Bool.and_eq_true, decide_eq_true_eq]

/-- Settles O39: each read has its two outcomes, by `slotAccept_of_read` and `slotAccept_of_failed` for packets, by
`drecRead_settles` for completion records and by `got_of_launchRead` for tables. -/
theorem launchReads : Obligations.LaunchReads := by
  intro s lid ctx q l
  refine ⟨fun created enabled runs ready room => ?packet, fun hl => ⟨fun dep ha hd t r h => ?record, fun hr => ?tables,
    deadlineMiss_completes hl⟩⟩
  case packet =>
    have due : SlotDue s ctx q := ⟨created, enabled, runs, ready, room⟩
    exact ⟨fun t p => slotAccept_of_read due, fun t c a => slotAccept_of_failed due⟩
  case record =>
    rw [drecRead_settles hl ha hd h]
    exact ⟨fun ok => by rw [depRead_of_ok ok], fun nok => by rw [depRead_of_not_ok nok]⟩
  case tables =>
    refine ⟨fun unread => ?_, fun unread => ?_, fun unread => ?_, fun unread => ?_⟩
    · have got := got_of_launchRead hl hr (.countRead lid) (fun l => bits l.countW 54 0) (fun _ => 8) rfl (by rw [unread]; rfl)
      simpa only [countFits_iff] using got
    · exact got_of_launchRead hl hr (.defaultsRead lid) Launch.deft (fun l => 128 * (l.km1 + 1)) rfl (by rw [unread]; rfl)
    · exact got_of_launchRead hl hr (.uniformBlockRead lid) Launch.ublk (fun l => 4 * l.ucnt) rfl (by rw [unread]; rfl)
    · exact got_of_launchRead hl hr (.roleTableRead lid) Launch.rtab (fun l => 16 * l.nrole) rfl (by rw [unread]; rfl)

end Sys2Proof.Proofs
end

