-- ==== Sys2Proof/Proofs/LaunchLife.lean ====
section
/-! PROOFS. A launch's life: admission in key order (R72 to R75), its trigger (R66, R391), its end (R65, R69, R70, R75) and the
quiescence of a device (R64, R94). -/
namespace Sys2Proof.Proofs
open Sys2Proof.Machine Sys2Proof.Laws

section
variable {s : State} {lid : Nat} {l : Launch}

/-! ### Admission (R72 to R75) -/

/-- The launches of earlier keys let a launch go before them (R74): each is blocked, does not fit, and does not hold a launch without a
deadline back by a deadline of its own. -/
def Backfills (s : State) (l : Launch) : Prop :=
  ∀ x ∈ earlierEligible s l, x.2.blocked.isSome ∧ admitFits s x.1 x.2 = false ∧ (l.deadline = 0 → x.2.deadline = 0)

theorem Backfills.none_holds_back (h : Backfills s l) : (earlierEligible s l).any (fun x => x.2.blocked.isNone || admitFits s x.1 x.2 ||
    (l.deadline == 0 && x.2.deadline != 0)) = false := by
  refine List.any_eq_false.2 fun x hx => ?_
  obtain ⟨blocked, full, deadline⟩ := h x hx
  simpa [full, Option.isSome_iff_ne_none.1 blocked] using deadline

/-- Launches of a launch's device that are admitted. -/
def admittedBeside (s : State) (l : Launch) : List (Nat × Launch) :=
  s.launches.filter (fun x => x.2.ctx == l.ctx && x.2.dev == l.dev && x.2.phase == .admitted)

section
variable (hl : s.launch? lid = some l) (he : eligible s l = true) (hb : Backfills s l)
include hl he hb

/-- LAUNCH_ADMIT for a launch whose turn it is. -/
theorem launchAdmit_eq : exec (.launchAdmit lid) s = .next (
    if (deviceTiles s l).isEmpty then s.complete lid 7
    else if (admittedBeside s l).length ≥ admitMax then s
    else if admitFits s lid l then s.takeIn lid l
    else s.modLaunch lid (fun x => { x with blocked := x.blocked.orElse (fun _ => some s.qclk) })) := by
  show execLaunchAdmit lid s = _
  simp only [execLaunchAdmit, hl, he, hb.none_holds_back, Bool.not_true, Bool.or_self, Bool.false_eq_true, if_false]
  rfl

/-- R48: a device that has no tile left ends its launches. -/
theorem launchAdmit_of_no_tile (h : deviceTiles s l = []) : exec (.launchAdmit lid) s = .next (s.complete lid 7) := by
  rw [launchAdmit_eq hl he hb, h]
  rfl

variable (ht : deviceTiles s l ≠ []) (hn : (admittedBeside s l).length < 256)
include ht hn

theorem launchAdmit_of_fits (h : admitFits s lid l = true) : exec (.launchAdmit lid) s = .next (s.takeIn lid l) := by
  rw [launchAdmit_eq hl he hb, if_neg (by simpa using ht), if_neg (show ¬ _ ≥ admitMax from Nat.not_le.2 hn), if_pos h]

theorem launchAdmit_of_not_fits (h : admitFits s lid l = false) : exec (.launchAdmit lid) s =
    .next (s.modLaunch lid (fun x => { x with blocked := x.blocked.orElse (fun _ => some s.qclk) })) := by
  rw [launchAdmit_eq hl he hb, if_neg (by simpa using ht), if_neg (show ¬ _ ≥ admitMax from Nat.not_le.2 hn), if_neg (by simp [h])]

end

/-! ### The trigger and the last thread's end (R66, R69, R70, R391) -/

section
variable (hl : s.launch? lid = some l) (ha : l.phase = .admitted) (hg : l.ngroups ≤ l.nextGrp)
include hl ha hg

theorem triggerFire_fires (hd : l.trigd = false) (ht : l.trigs = true) (hs : ∀ th ∈ startedOf s lid, th.trig = true)
    (hf : ∀ c ∈ s.coresOf lid, s.isFrozen (coreMid c) = false) : exec (.triggerFire lid) s = .next (s.fireTrigger lid) := by
  have all : (startedOf s lid).all (·.trig) = true := List.all_eq_true.2 hs
  have thawed : (s.coresOf lid).any (fun c => s.isFrozen (coreMid c)) = false := List.any_eq_false.2 fun c hc => by simp [hf c hc]
  show execTriggerFire lid s = _
  simp [execTriggerFire, hl, ha, hd, ht, hg, all, thawed]

theorem launchComplete_of_admitted (ht : l.typ ≠ 2) (hn : ∀ t ∈ s.thrs, t.2.id.launch ≠ some lid) :
    exec (.launchComplete lid) s = .next ((s.complete lid (if l.faulted then 4 else 2)).settleDrains) := by
  have gone : s.thrs.any (fun t => t.2.id.launch == some lid) = false := List.any_eq_false.2 fun t h => by simpa using hn t h
  show execLaunchComplete lid s = _
  simp [execLaunchComplete, hl, ha, ht, hg, gone]

end

/-! ### The ends that need no thread (R65, R67, R68, R75) -/

theorem depFailed_of_mem (h : Dep.failed ∈ l.deps) : l.depFailed = true := List.any_eq_true.2 ⟨_, h, rfl⟩

/-- Of dependences that let a launch run, none has failed. -/
theorem not_depFailed_of_depsDone (h : l.depsDone = true) : l.depFailed = false :=
  List.any_eq_false.2 fun d hd => by
    have done := List.all_eq_true.1 h d hd
    cases d with
    | failed => cases done
    | _ => exact Bool.false_ne_true

section
variable (hl : s.launch? lid = some l) (ha : l.phase = .accepted)
include hl ha

theorem launchComplete_of_accepted : exec (.launchComplete lid) s = .next (s.settleAccepted lid) := by
  show execLaunchComplete lid s = _
  simp only [execLaunchComplete, hl, ha]
  rfl

/-- R65, R67: a failed dependence ends a launch, MISSED before DEPFAIL. -/
theorem settleAccepted_of_failed (hd : Dep.failed ∈ l.deps) :
    s.settleAccepted lid = s.complete lid (if l.missed s.qclk then 3 else 8) := by
  simp only [State.settleAccepted, hl, ha, depFailed_of_mem hd, bne_self_eq_false, Bool.false_eq_true, if_false, if_true]
  split <;> rfl

/-- R68: a launch of no threads is OK once its dependences let it run. -/
theorem settleAccepted_of_empty (hd : l.depsDone = true) (hc : l.count = some 0) (ht : l.typ ≠ 2) (hm : l.missed s.qclk = false) :
    s.settleAccepted lid = s.complete lid 2 := by
  simp [State.settleAccepted, hl, ha, not_depFailed_of_depsDone hd, hd, hc, ht, hm]

end

end

/-! ### Quiescence (R64, R94) -/

/-- The node launches of a device that are admitted. -/
def nodesOf (s : State) (ctx dev : Nat) : List (Nat × Launch) :=
  s.launches.filter (fun x => x.2.ctx == ctx && x.2.dev == dev && x.2.typ == 2 && x.2.phase == .admitted)

theorem quiescenceReport_completes {s : State} {ctx dev : Nat} (hq : quiescent s ctx dev = true) (hn : nodesOf s ctx dev ≠ []) :
    exec (.quiescenceReport ctx dev) s =
      .next ((nodesOf s ctx dev).foldl (fun s x => s.complete x.1 (if x.2.faulted then 4 else 2)) s).settleDrains :=
  congrArg Host.Outcome.next ((if_pos hq).trans (if_neg (mt List.isEmpty_iff.1 hn)))

/-! ### The obligation -/

/-- Settles O40: a launch whose turn it is goes by `launchAdmit_eq`; it ends with its last thread, or by `settleAccepted` without one,
and a node launch with its device's quiescence. -/
theorem launchLife : Obligations.LaunchLife := by
  intro s lid ctx dev l
  refine ⟨fun hl => ⟨fun he hb => ⟨launchAdmit_of_no_tile hl he hb, fun ht hn _ =>
      ⟨launchAdmit_of_fits hl he hb ht hn, launchAdmit_of_not_fits hl he hb ht hn⟩⟩,
    fun ha hg => ⟨triggerFire_fires hl ha hg, launchComplete_of_admitted hl ha hg⟩, fun ha => ?accepted⟩,
    quiescenceReport_completes⟩
  rw [launchComplete_of_accepted hl ha]
  exact ⟨fun hd => congrArg _ (settleAccepted_of_failed hl ha hd),
    fun hd hc ht hm => congrArg _ (settleAccepted_of_empty hl ha hd hc ht hm)⟩

end Sys2Proof.Proofs
end

