-- ==== Sys2Proof/Proofs/Placement.lean ====
section
/-! PROOFS. A thread as it starts (Table 7.3, R154), the threads that a launch starts (R61), and where the next group of a launch goes
(R82, R84, R95). -/
namespace Sys2Proof.Proofs
open Sys2Proof.Machine Sys2Proof.Laws

/-! ### A thread as it starts (R154) -/

section
variable (id : ThId) (pc : Nat) (args : List Word) (top low : Nat)

theorem reg_start {i : Nat} (h : i < 32) : (Thr.start id pc args top low).reg i = { NReg.zero with v := args.getD i 0 } := by
  simp [Thr.start, Thr.reg, h]

/-- The stochastic-rounding state that a thread starts with, before a 0 is replaced (R154). -/
def srsSeed (iid : DWord) : DWord := (iid + 1) * 0x9E3779B97F4A7C15#64

theorem toNat_add_one_mul (x y : DWord) : ((x + 1) * y).toNat = (x.toNat + 1) * y.toNat % 2 ^ 64 := by
  rw [BitVec.toNat_mul, BitVec.toNat_add, Nat.mod_mul_mod]
  rfl
theorem toNat_srsSeed (iid : DWord) : (srsSeed iid).toNat = (iid.toNat + 1) * 0x9E3779B97F4A7C15 % 2 ^ 64 := toNat_add_one_mul ..

theorem srs_start : (Thr.start id pc args top low).srs = if srsSeed id.iid = 0 then 1 else srsSeed id.iid := by
  have word : dw ((id.iid.toNat + 1) * 0x9E3779B97F4A7C15 % 2 ^ 64) = srsSeed id.iid := by
    rw [← toNat_srsSeed, dw, BitVec.ofNat_toNat, BitVec.setWidth_eq]
  have zero : (id.iid.toNat + 1) * 0x9E3779B97F4A7C15 % 2 ^ 64 = 0 ↔ srsSeed id.iid = 0 := by
    rw [← toNat_srsSeed, ← BitVec.toNat_inj]; rfl
  simp only [Thr.start, zero, word]

theorem srs_start_ne_zero : (Thr.start id pc args top low).srs ≠ 0 := by
  rw [srs_start]
  split
  · decide
  · assumption

end

/-! ### The threads that a launch starts (R61) -/

theorem takeStacks_length {c c' : Ctx} {kb n : Nat} {ks : List (Nat × Nat)} (h : takeStacks c kb n = some (ks, c')) : ks.length = n := by
  induction n generalizing c ks c' with
  | zero => cases h; rfl
  | succ n ih =>
    unfold takeStacks at h
    split at h
    · cases h
    · obtain ⟨⟨ks₁, c₁⟩, more, e⟩ := Option.map_eq_some_iff.1 h
      cases e
      rw [List.length_cons, ih more]

/-- What a thread is made of: its identity, its PC, its registers and the bounds of its stack. -/
abbrev ThreadPlan := (ThId × Nat × List Word) × (Nat × Nat)
/-- The thread of a plan. -/
def ThreadPlan.thr (p : ThreadPlan) : Thr := Thr.start p.1.1 p.1.2.1 p.1.2.2 p.2.2 p.2.1
/-- Makes a thread under a new name, which goes after the names given so far. -/
def makeOne (r : List Nat × State) (p : ThreadPlan) : List Nat × State :=
  (r.1 ++ [r.2.fresh], { r.2 with fresh := r.2.fresh + 1, thrs := alSet r.2.thrs r.2.fresh p.thr })

/-- A name given before keeps its thread. -/
theorem thr?_foldl_makeOne_of_lt (ps : List ThreadPlan) (r : List Nat × State) {j : Nat} (h : j < r.2.fresh) :
    (ps.foldl makeOne r).2.thr? j = r.2.thr? j := by
  induction ps generalizing r with
  | nil => rfl
  | cons p ps ih =>
    rw [List.foldl_cons, ih (makeOne r p) (Nat.lt_succ_of_lt h)]
    exact alGet_alSet_ne _ _ (Nat.ne_of_lt h)

/-- The names are the next ones, in order. -/
theorem foldl_makeOne_names (ps : List ThreadPlan) (r : List Nat × State) :
    (ps.foldl makeOne r).1 = r.1 ++ List.range' r.2.fresh ps.length := by
  induction ps generalizing r with
  | nil => simp
  | cons p ps ih => rw [List.foldl_cons, ih, List.length_cons, List.range'_succ]; simp [makeOne]

/-- The k-th name is that of the k-th plan's thread. -/
theorem thr?_foldl_makeOne (ps : List ThreadPlan) (r : List Nat × State) {k : Nat} (h : k < ps.length) :
    (ps.foldl makeOne r).2.thr? (r.2.fresh + k) = some ps[k].thr := by
  induction ps generalizing r k with
  | nil => exact absurd h (Nat.not_lt_zero k)
  | cons p ps ih =>
    rw [List.foldl_cons]
    cases k with
    | zero => exact (thr?_foldl_makeOne_of_lt ps (makeOne r p) (Nat.lt_succ_self _)).trans (alGet_alSet_same ..)
    | succ k =>
      have next := ih (makeOne r p) (Nat.lt_of_succ_lt_succ h)
      rwa [show (makeOne r p).2.fresh + k = r.2.fresh + (k + 1) from by simp only [makeOne]; omega] at next

section
variable {s t : State} {l : Launch} {ths : List (ThId × Nat × List Word)} {ts : List Nat}

/-- Threads made stand under new names, each on a stack of its own. -/
theorem makeThreads_eq (h : s.makeThreads l ths = some (ts, t)) : ∃ ks c, ks.length = ths.length ∧
    (ts, t) = (ths.zip ks).foldl makeOne ([], s.modCtx l.ctx (fun _ => c)) := by
  unfold State.makeThreads at h
  split at h
  · cases h
  · rename_i ks c taken
    exact ⟨ks, c, takeStacks_length taken, (Option.some.inj h).symm⟩

theorem makeThreads_started (h : s.makeThreads l ths = some (ts, t)) : ts.length = ths.length ∧
    ∀ k (hk : k < ts.length) (hk' : k < ths.length), ∃ top low,
      t.thr? ts[k] = some (Thr.start ths[k].1 ths[k].2.1 ths[k].2.2 top low) := by
  obtain ⟨ks, c, len, e⟩ := makeThreads_eq h
  have plans : (ths.zip ks).length = ths.length := by simp [len]
  have names : ts = List.range' s.fresh ths.length := by
    rw [← plans]
    exact (congrArg Prod.fst e).trans (foldl_makeOne_names ..)
  subst names
  refine ⟨by simp, fun k hk hk' => ⟨(ks[k]'(len ▸ hk')).2, (ks[k]'(len ▸ hk')).1, ?_⟩⟩
  rw [show t = _ from congrArg Prod.snd e, List.getElem_range', Nat.one_mul]
  exact (thr?_foldl_makeOne _ _ (plans ▸ hk')).trans (by rw [List.getElem_zip]; rfl)

end

/-! ### The next group (R82, R84) -/

theorem args_getD (l : Launch) {i : Nat} (h : i < 8) : l.args.getD i 0 = l.arg i := by simp [Launch.args, h]

theorem length_groupThreads (lid : Nat) (l : Launch) (j : Nat) : (groupThreads lid l j).length = l.groupSize j := by simp [groupThreads]

/-- The threads of group j are numbered on from the launch's first, and start at its entry with its arguments. -/
theorem groupThreads_started {s t : State} {lid j : Nat} {l : Launch} {ts : List Nat}
    (h : s.makeThreads l (groupThreads lid l j) = some (ts, t)) : ts.length = l.groupSize j ∧
    ∀ k (hk : k < ts.length), ∃ th, t.thr? ts[k] = some th ∧ th.id.iid = BitVec.ofNat 64 (l.baseidx + Config.width * j + k) ∧
      th.pc = l.entry ∧ ∀ i < 8, th.val i = l.arg i := by
  obtain ⟨len, started⟩ := makeThreads_started h
  refine ⟨len.trans (length_groupThreads ..), fun k hk => ?_⟩
  obtain ⟨top, low, found⟩ := started k hk (len ▸ hk)
  refine ⟨_, found, ?_, ?_, fun i hi => ?_⟩
  · simp [groupThreads, Thr.start, dw]
  · simp [groupThreads, Thr.start]
  · rw [Thr.val, reg_start _ _ _ _ _ (by omega)]
    simp [groupThreads, ← args_getD l hi]

section
variable {s : State} {lid : Nat} {l : Launch} (hl : s.launch? lid = some l) (ha : l.phase = .admitted)
  (ho : oldestSaved s lid l = false)
include hl ha ho

theorem groupPlace_of_role (hn : l.nrole ≠ 0) (hz : roleZero s lid l = true) {q k : Nat} (hr : roleShort s lid l = some (q, k)) :
    exec (.groupPlace lid) s = .next (s.placeRole lid l q k) := by
  show execGroupPlace lid s = _
  simp [execGroupPlace, hl, ha, ho, hr, hz, hn]

theorem groupPlace_of_next (hj : l.nextGrp < l.ngroups) (hr : l.nrole = 0 ∨ roleZero s lid l = false ∨ roleShort s lid l = none) :
    exec (.groupPlace lid) s = .next (s.placeNext lid l) := by
  have noRole : (if (l.nrole ≠ 0 && roleZero s lid l) = true then roleShort s lid l else none) = none := by
    rcases hr with h | h | h <;> simp [h]
  show execGroupPlace lid s = _
  simp only [execGroupPlace, hl, ha, ho, noRole, hj, bne_self_eq_false, Bool.or_self, Bool.false_eq_true, if_false, if_true]

end

theorem placeNext_eq {s t : State} {lid : Nat} {l : Launch} {core lane : Nat} {ts : List Nat}
    (hp : placeSpot s lid l (l.groupSize l.nextGrp) = some (core, lane)) (hf : fwdFits s l core = true)
    (hm : s.makeThreads l (groupThreads lid l l.nextGrp) = some (ts, t)) :
    s.placeNext lid l = ((t.seatGroup lid l core lane (BitVec.ofNat 32 l.nextGrp) 0 ts).2.modLaunch lid (fun x =>
      { x with nextGrp := l.nextGrp + 1, nthr := x.nthr + ts.length, blocked := none, resv := [] })).reserveFwd lid l core l.nextGrp := by
  simp only [State.placeNext, hp, hf, hm, Bool.not_true, Bool.false_eq_true, if_false]
  rfl

/-! ### The obligation -/

/-- Settles O41: `makeThreads_started` says which threads a group has, since each of their names is new when it is given, and
`reg_start` and `srs_start` what they start with. -/
theorem placement : Obligations.Placement := by
  refine ⟨fun s lid l hl ha => ⟨fun hj ho hr core lane ts t hp hf hm => ?next, fun ho hn hz q k => groupPlace_of_role hl ha ho hn hz⟩,
    fun id pc args top low => ⟨rfl, rfl, rfl, rfl, rfl, rfl, rfl, rfl, rfl, rfl, rfl, rfl, rfl, rfl, srs_start_ne_zero _ _ _ _ _,
      srs_start .., by simp [Thr.start], fun i hi => ?reg⟩⟩
  case next =>
    exact ⟨(groupPlace_of_next hl ha ho hj hr).trans (congrArg _ (placeNext_eq hp hf hm)), groupThreads_started hm⟩
  case reg =>
    rw [Thr.val, reg_start _ _ _ _ _ hi]
    exact ⟨rfl, rfl, rfl⟩

end Sys2Proof.Proofs
end

