-- ==== Sys2Proof/Proofs/Scheduling.lean ====
section
/-! PROOFS. Pre-emption (R76, R77), saves and restorations (R78, R310 to R312), bins that are sealed, placed or stolen (R64, R87 to
R91) and the evaluation of roles (R95). -/
namespace Sys2Proof.Proofs
open Sys2Proof.Machine Sys2Proof.Laws

/-! ### Pre-emption (R76, R77) -/

/-- R76: a launch with a deadline that has been blocked for 10,000 ticks, the earliest such of its device, takes its victims. -/
theorem preemptDecision_takes {s : State} {lid : Nat} {l : Launch} {since : Nat} (hl : s.launch? lid = some l)
    (hb : l.blocked = some since) (hs : since + 10000 ≤ s.qclk) (hd : l.deadline ≠ 0) (he : eligible s l = true)
    (hf : ∀ x ∈ s.launches, x.2.ctx = l.ctx → x.2.dev = l.dev → x.2.blocked.isSome → keyLt x.2.key l.key = false) :
    exec (.preemptDecision lid) s = .next (s.takeVictims lid (victimNeed s lid l)
      (isort (fun a b => !victimLt s b a) (((deviceTiles s l).flatMap (tileCores s)).filter (candidate s l)))) := by
  have first : s.launches.any (fun x => x.2.ctx == l.ctx && x.2.dev == l.dev && x.2.blocked.isSome && keyLt x.2.key l.key) = false := by
    refine List.any_eq_false.2 fun x hx => ?_
    simpa only [Bool.and_eq_true, beq_iff_eq, not_and, Bool.not_eq_true, and_imp] using hf x hx
  show execPreemptDecision lid s = _
  simp [execPreemptDecision, hl, hb, hs, hd, he, first]

/-! ### Saves (R310 to R312) -/

section
variable (s : State) (rid : Nat) (r : Res) (l : Launch)

theorem isFrozen_takeRoom (mid : Nat) : (s.takeRoom rid r l).isFrozen mid = s.isFrozen mid := by
  unfold State.takeRoom
  dsimp only
  split <;> rfl

/-- Taking room changes nothing of the context but its rooms. -/
theorem st_takeRoom : ((s.takeRoom rid r l).ctxD r.ctx).st = (s.ctxD r.ctx).st := by
  have reserved (n : Nat) : ((s.reserveRoom r.ctx rid n).ctxD r.ctx).st = (s.ctxD r.ctx).st := by
    simp only [State.reserveRoom, ctxD_modCtx]
  simp only [State.takeRoom, ctxD_modCtx, Ctx.modRoom]
  split
  · exact reserved _
  · rfl

theorem recWho_takeRoom (core : Nat) : recWho (s.takeRoom rid r l) core r.ctx = recWho s core r.ctx := by
  simp only [recWho, State.who, st_takeRoom]

end

/-- A partition that holds what is saved writes nothing out. -/
theorem spill_of_absorbs {s : State} {ctx tile rid : Nat} (h : s.absorbs ctx tile rid = true) (who : Who) (n : Nat) :
    s.spill who ctx tile rid n = (s, none) := by
  cases n with
  | zero => rfl
  | succ n => rw [State.spill, if_pos h]

section
variable {s : State} {rid : Nat} {r : Res} {l : Launch}

theorem saveThrough_of_absorbs (h : (s.takeRoom rid r l).absorbs r.ctx (coreTile r.core) rid = true) :
    s.saveThrough rid r l = (s.takeRoom rid r l).saveRes rid := by
  simp [State.saveThrough, h, spill_of_absorbs h]

theorem saveThrough_of_spill {t : State} (hf : s.isFrozen (coreMid r.core) = false)
    (h : (s.takeRoom rid r l).spill (recWho s r.core r.ctx) r.ctx (coreTile r.core) rid
      ((s.takeRoom rid r l).held r.ctx (coreTile r.core) rid).length = (t, none)) :
    s.saveThrough rid r l = t.saveRes rid := by
  simp [State.saveThrough, isFrozen_takeRoom, hf, recWho_takeRoom, h]

variable (hr : s.res? rid = some r) (hl : s.launch? r.launch = some l)
include hr hl

/-- R310: the save of a residency whose groups stand at a boundary. -/
theorem residencySave_eq (hg : r.saving = true) (hs : r.saved = false) (hy : saveReady s rid r.core = true)
    (hd : ∀ d ∈ (s.coreD r.core).dbl, d.1 ≠ r.ctx) : exec (.residencySave rid) s = .next (s.saveThrough rid r l) := by
  have calm : (s.coreD r.core).dbl.any (·.1 == r.ctx) = false := List.any_eq_false.2 fun d h => by simpa using hd d h
  show execResidencySave rid s = _
  simp [execResidencySave, hr, hl, hg, hs, hy, calm]

/-! ### Restorations (R78, R312) -/

/-- R78: the restoration of a residency that its core has room for before work of later keys. -/
theorem residencyRestore_eq (hs : restoreFits s r l = true) (ha : workAhead s l r.core = false) (hf : s.isFrozen (coreMid r.core) = false)
    (hg : l.grans + reserved s l r.core r.core ≤ (s.coreD r.core).freeGrans.length)
    (ht : ∀ k < Config.lanesPerCore, laneTakes s rid l r.core (coreLane r.core k) = true) :
    exec (.residencyRestore rid) s = .next (s.restoreThrough rid r) := by
  have lanes : ((List.range Config.lanesPerCore).map (coreLane r.core)).all (laneTakes s rid l r.core) = true := by
    simpa using ht
  show execResidencyRestore rid s = _
  simp only [execResidencyRestore, hr, hl, hs, lanes, ha, hf, hg, decide_true, Bool.not_false, Bool.and_self, if_true]

end

section
variable {s : State} {rid : Nat} {r : Res}

theorem restoreThrough_of_in (h : ∀ m, alGet (s.ctxD r.ctx).room rid = some m → m.out = false) :
    s.restoreThrough rid r = (s.restoreRes rid).modCtx r.ctx (fun c => { c with room := alDel c.room rid }) := by
  cases hm : alGet (s.ctxD r.ctx).room rid with
  | none => simp only [State.restoreThrough, hm]
  | some m => simp only [State.restoreThrough, hm, h m hm, Bool.false_eq_true, if_false]

theorem restoreThrough_of_out {m : ArenaRoom} {t : State} (hm : alGet (s.ctxD r.ctx).room rid = some m) (ho : m.out = true)
    (h : readArena (recWho s r.core r.ctx) (m.lines (s.ctxD r.ctx).sava) s = (t, none)) :
    s.restoreThrough rid r = (t.restoreRes rid).modCtx r.ctx (fun c => { c with room := alDel c.room rid }) := by
  simp only [State.restoreThrough, hm, ho, if_true, h]

end

/-! ### Bins (R64, R87 to R91) -/

section
variable {s : State} {core bin : Nat} {b : Bin} (hb : alGet (s.coreD core).bins bin = some b)
include hb

/-- R90: of the bins of a core that are due, the first is sealed. -/
theorem binFlushTimeout_seals (hd : flushDue s core b = true)
    (hf : ∀ x ∈ (s.coreD core).bins, flushDue s core x.2 = true → flushLt x.2 b = false) :
    exec (.binFlushTimeout core bin) s = .next (s.sealBin core bin) := by
  have first : (s.coreD core).bins.any (fun x => flushDue s core x.2 && flushLt x.2 b) = false :=
    List.any_eq_false.2 fun x hx => by simpa using hf x hx
  show execBinFlushTimeout core bin s = _
  simp [execBinFlushTimeout, hb, hd, first]

variable {l : Launch} (hl : s.launch? b.launch = some l)
include hl

/-- R64, R87: a node bin is sealed when its time is over or no thread of its device runs. -/
theorem nodeBinTimeout_seals (he : b.ents ≠ []) (hk : b.kind = .node) (hs : b.sealed = false)
    (hd : (l.ntimer ≠ 0 ∧ b.tOpen + l.ntimer * 1024 ≤ s.cyc (coreDie core)) ∨ deviceRuns s l.ctx l.dev = false) :
    exec (.nodeBinTimeout core bin) s = .next (s.sealBin core bin) := by
  have due : ((l.ntimer != 0 && decide (b.tOpen + l.ntimer * 1024 ≤ s.cyc (coreDie core))) || !deviceRuns s l.ctx l.dev) = true := by
    simpa using hd
  have listed : b.ents.isEmpty = false := by simpa using he
  show execNodeBinTimeout core bin s = _
  simp only [execNodeBinTimeout, hb, hl, hk, hs, listed, ge_iff_le, due, beq_self_eq_true, Bool.not_false, Bool.and_self, if_true]

variable (hs : b.sealed = true) (hf : s.isFrozen (coreMid core) = false) (hh : binHeld s core b = false)
  (ho : oldestSaved s b.launch l = false)
include hs hf hh ho

theorem sealedBin_eq : sealedBin s core bin = some (b, l) := by
  simp [sealedBin, hb, hl, hs, hf, hh, ho]

theorem binPlace_places {lane : Nat} (h : coreSpot s b.launch l b.ents.length core = some lane) :
    exec (.binPlace core bin) s = .next (s.placeBin core bin b l core lane) := by
  show execBinPlace core bin s = _
  simp only [execBinPlace, sealedBin_eq hb hl hs hf hh ho, h]

/-- R91: after 4,096 cycles the first core with room takes the bin. -/
theorem binSteal_places (ht : b.tSeal + 4096 ≤ s.cyc (coreDie core)) {c lane : Nat} {pre post : List Nat}
    (hc : coreSpot s b.launch l b.ents.length c = some lane) (hp : core :: stealOrder s core = pre ++ c :: post)
    (hn : ∀ d ∈ pre, coreSpot s b.launch l b.ents.length d = none) :
    exec (.binSteal core bin) s = .next (s.placeBin core bin b l c lane) := by
  have noneBefore : pre.findSome? (fun d => (coreSpot s b.launch l b.ents.length d).map (fun x => (d, x))) = none :=
    List.findSome?_eq_none_iff.2 fun d hd => by rw [hn d hd, Option.map_none]
  have first : (core :: stealOrder s core).findSome? (fun d => (coreSpot s b.launch l b.ents.length d).map (fun x => (d, x))) =
      some (c, lane) := by
    rw [hp, List.findSome?_append, noneBefore, Option.none_or, List.findSome?_cons, hc, Option.map_some]
  show execBinSteal core bin s = _
  simp only [execBinSteal, sealedBin_eq hb hl hs hf hh ho, if_neg (Nat.not_lt.2 ht), first]

end

/-! ### The evaluation of roles (R95) -/

/-- Nothing but the quads has changed. -/
structure OnlyQuads (s t : State) : Prop where
  eq : t = { s with quads := t.quads }

theorem OnlyQuads.refl (s : State) : OnlyQuads s s := ⟨rfl⟩
theorem OnlyQuads.trans {s t u : State} (h : OnlyQuads s t) (g : OnlyQuads t u) : OnlyQuads s u := ⟨by rw [g.eq, h.eq]⟩
theorem onlyQuads_modQuad (s : State) (q : Nat) (f : Quad → Quad) : OnlyQuads s (s.modQuad q f) := ⟨State.modQuad_eq s q f⟩

theorem onlyQuads_foldl {α : Type} {f : State → α → State} (h : ∀ s a, OnlyQuads s (f s a)) (as : List α) (s : State) :
    OnlyQuads s (as.foldl f s) := by
  induction as generalizing s with
  | nil => exact .refl s
  | cons a as ih => exact (h s a).trans (ih _)

theorem onlyQuads_evalRole (s : State) (lid : Nat) (l : Launch) (quad k : Nat) (e : DWord × DWord) :
    OnlyQuads s (s.evalRole lid l quad k e) := by
  unfold State.evalRole
  split
  · exact .refl s
  · dsimp only
    split_ifs
    · exact onlyQuads_modQuad ..
    · exact onlyQuads_modQuad ..
    · split
      · exact (onlyQuads_modQuad ..).trans (onlyQuads_modQuad ..)
      · exact onlyQuads_modQuad ..
    · exact onlyQuads_modQuad ..
    · exact onlyQuads_modQuad ..

@[simp] theorem quadD_modQuad (s : State) (q : Nat) (f : Quad → Quad) : (s.modQuad q f).quadD q = f (s.quadD q) := alGetD_alMod_same ..

/-- The admitted launches with roles that a quad holds a residency of. -/
def roleLaunches (s : State) (quad : Nat) : List (Nat × Launch) :=
  s.launches.filter (fun x => x.2.nrole != 0 && x.2.phase == .admitted && s.ress.any (fun r => r.2.launch == x.1 && coreQuad r.2.core == quad))
/-- The change of every role of those launches, in order. -/
def evalRoles (s : State) (quad : Nat) : State :=
  (roleLaunches s quad).foldl (fun s x => (x.2.roles.getD []).zipIdx.foldl (fun s e => s.evalRole x.1 x.2 quad (e.2 + 1) e.1) s) s

theorem onlyQuads_evalRoles (s : State) (quad : Nat) : OnlyQuads s (evalRoles s quad) := by
  unfold evalRoles
  refine onlyQuads_foldl (fun t x => ?_) _ _
  refine onlyQuads_foldl (fun u e => ?_) _ _
  exact onlyQuads_evalRole u x.1 x.2 quad (e.2 + 1) e.1

/-- R95: every 4,096 cycles a quad evaluates the roles of the launches it holds a residency of. -/
theorem roleEvaluation_eq {s : State} {quad : Nat} (hq : quad < 128) (ht : (s.quadD quad).lastEval + 4096 ≤ s.cyc (quad / 16))
    (hn : roleLaunches s quad ≠ []) : exec (.roleEvaluation quad) s =
      .next ((evalRoles s quad).modQuad quad (fun q => { q with lastEval := s.cyc (quad / 16) })) := by
  have due : (decide (quad ≥ 128) || decide (s.cyc (quad / 16) < (s.quadD quad).lastEval + 4096)) = false := by simp [hq, ht]
  exact congrArg Host.Outcome.next ((if_neg (by simp [due])).trans (if_neg (mt List.isEmpty_iff.1 hn)))

theorem mem_roleLaunches {s : State} {lid rid quad : Nat} {l : Launch} {r : Res} (hl : (lid, l) ∈ s.launches) (hn : l.nrole ≠ 0)
    (ha : l.phase = .admitted) (hr : (rid, r) ∈ s.ress) (hlid : r.launch = lid) (hq : coreQuad r.core = quad) :
    (lid, l) ∈ roleLaunches s quad := by
  have held : s.ress.any (fun r => r.2.launch == lid && coreQuad r.2.core == quad) = true := List.any_eq_true.2 ⟨_, hr, by simp [hlid, hq]⟩
  exact List.mem_filter.2 ⟨hl, by simp [hn, ha, held]⟩

/-! ### The obligation -/

/-- Settles O42: each event is due by its hypotheses, and goes by its own equation; of a save or a restoration, `saveThrough` and
`restoreThrough` say whether the save arena is written or read; the roles' changes leave all but the quads alone. -/
theorem scheduling : Obligations.Scheduling := by
  intro s lid rid core bin quad
  refine ⟨fun l since => preemptDecision_takes, fun r l hr hl => ⟨fun hg hs hy hd => ?save, fun hs ha hf hg ht => ?restore⟩,
    fun b hb => ⟨binFlushTimeout_seals hb, fun l hl he => ⟨nodeBinTimeout_seals hb hl he, fun hs hf hh ho =>
      ⟨fun lane => binPlace_places hb hl hs hf hh ho, fun ht c lane hc ⟨pre, post, hp, hn⟩ =>
        binSteal_places hb hl hs hf hh ho ht hc hp hn⟩⟩⟩,
    fun l r hq ht hl hn ha hr hlid hc => ?roles⟩
  case save =>
    rw [residencySave_eq hr hl hg hs hy hd]
    exact ⟨fun h => congrArg _ (saveThrough_of_absorbs h), fun _ hf t h => congrArg _ (saveThrough_of_spill hf h)⟩
  case restore =>
    rw [residencyRestore_eq hr hl hs ha hf hg ht]
    exact ⟨fun h => congrArg _ (restoreThrough_of_in h), fun m t hm ho h => congrArg _ (restoreThrough_of_out hm ho h)⟩
  case roles =>
    have same := (onlyQuads_evalRoles s quad).trans (onlyQuads_modQuad _ quad fun q => { q with lastEval := s.cyc (quad / 16) })
    refine ⟨_, roleEvaluation_eq hq ht (List.ne_nil_of_mem (mem_roleLaunches hl hn ha hr hlid hc)), ?_, ?_, ?_, ?_⟩
    · rw [quadD_modQuad]
    all_goals rw [same.eq]

end Sys2Proof.Proofs
end

