-- ==== Sys2Proof/Proofs/LaneEvents.lean ====
section
/-! PROOFS. The events of a lane: runs and places in the active set (R96 to R98), results (R153, R165), link registers (R210),
barriers (R393) and sleeps (R407). -/
namespace Sys2Proof.Proofs
open Sys2Proof.Machine Sys2Proof.Laws

/-! ### Runs (R96 to R98) -/

section
variable {s u : State} {lane : Nat} (hr : (s.laneD lane).run = none) (ha : (s.laneD lane).active ≠ [] ∨ (s.laneD lane).waiting ≠ [])
  (hc : coreRuns s (laneCore lane) = true) (hf : s.laneFiling lane = false)
include hr ha hc hf

/-- A lane with groups and no run may start one where its core lets it. -/
theorem runStart_guard : ((s.laneD lane).run.isSome || ((s.laneD lane).active.isEmpty && (s.laneD lane).waiting.isEmpty) ||
    !coreRuns s (laneCore lane) || s.laneFiling lane) = false := by
  simpa [hr, hc, hf, imp_iff_not_or] using ha

variable (hu : (s.atBound lane).markReady lane = u) {g : Nat} {gr : Grp} (hg : chooseGroup u lane = some g) (hgr : u.grp? g = some gr)
include hu hg hgr

/-- R310: the chosen group goes on in the run that its save stopped. -/
theorem runStart_resumes {r : Run} (h : gr.srun = some r) : exec (.runStart lane) s = .next (u.resumeRun lane g gr r) := by
  show execRunStart lane s = _
  simp only [execRunStart, State.runStart, runStart_guard hr ha hc hf, hu, hg, hgr, h, Bool.false_eq_true, if_false]

/-- R97, R98: the chosen group begins a run for the chosen set. -/
theorem runStart_begins {pc : Nat} {tids : List Nat} (hs : gr.srun = none)
    (h : chooseSet { gr with rejoin := popRej u gr gr.rejoin } (setsOf u (readyOf u lane g)) = some (pc, tids)) :
    exec (.runStart lane) s = .next (((u.turn lane g gr (setsOf u (readyOf u lane g)) pc).beginRun lane g pc tids).getD u) := by
  show execRunStart lane s = _
  rw [hs] at h
  simp only [execRunStart, State.runStart, runStart_guard hr ha hc hf, hu, hg, hgr, hs, h, Bool.false_eq_true, if_false]

end

theorem runEnd_ends {s : State} {lane : Nat} {r : Run} (hr : (s.laneD lane).run = some r) (ht : r.todo = []) (hp : r.posts = [])
    (hk : slotHasK r.slot = true) : exec (.runEnd lane) s = .next (s.runEnd lane) := by
  show execRunEnd lane s = _
  simp only [execRunEnd, hr, ht, hp, hk, List.isEmpty_nil, Bool.and_self, if_true]

/-- Since when a group is ready. -/
def readyKey (s : State) (g : Nat) : Nat :=
  match s.grp? g with
  | some gr => gr.readySince.getD 0
  | none => 0

/-- R96: the waiting group that is due, ready earliest, and the group longest in a full set change places. -/
theorem activeSetDisplace_exchanges {s : State} {lane a w : Nat} (hr : (s.laneD lane).run = none)
    (hc : coreStalled s (laneCore lane) = false) (hn : Config.activePerLane ≤ (s.laneD lane).active.length)
    (hw : leastBy (readyKey (s.markReady lane)) ((s.laneD lane).waiting.filter (placeDue (s.markReady lane) lane)) = some w)
    (ha : oldestActive (s.markReady lane) lane = some a) :
    exec (.activeSetDisplace lane) s = .next ((s.markReady lane).exchange lane a w) := by
  have full : ¬ ((s.laneD lane).run.isSome || coreStalled s (laneCore lane) ||
      decide ((s.laneD lane).active.length < Config.activePerLane)) = true := by simp [hr, hc, hn]
  have due : s.displace lane =
      match leastBy (readyKey (s.markReady lane)) ((s.laneD lane).waiting.filter (placeDue (s.markReady lane) lane)),
        oldestActive (s.markReady lane) lane with
      | some w, some a => (s.markReady lane).exchange lane a w
      | _, _ => s := (if_neg full).trans rfl
  show Host.Outcome.next (s.displace lane) = _
  rw [due, hw, ha]

/-! ### Results that arrive (R153, R165) -/

section
variable {s : State} {a : Arrival}

/-- The one arrival of a name is found under every test of its kind that it passes. -/
theorem takeArrival_eq (h : s.arrivals.filter (fun b => b.id == a.id) = [a]) {k : Nat → Bool} (hk : k a.kind = true) :
    s.takeArrival a.id k = s.deliver a := by
  have found : s.arrivals.find? (fun b => b.id == a.id && k b.kind) = some a := by
    rw [← List.head?_filter, List.filter_congr fun b _ => Bool.and_comm _ _, ← List.filter_filter, h, List.filter_singleton, hk]
    rfl
  simp only [State.takeArrival, found]

theorem traversalResult_delivers (h : s.arrivals.filter (fun b => b.id == a.id) = [a]) (hk : a.kind = 1) :
    exec (.traversalResult a.id) s = .next (s.deliver a) := congrArg Host.Outcome.next (takeArrival_eq (k := (· == 1)) h (beq_iff_eq.2 hk))
theorem textureResult_delivers (h : s.arrivals.filter (fun b => b.id == a.id) = [a]) (hk : a.kind = 2) :
    exec (.textureResult a.id) s = .next (s.deliver a) := congrArg Host.Outcome.next (takeArrival_eq (k := (· == 2)) h (beq_iff_eq.2 hk))
theorem resultArrival_delivers (h : s.arrivals.filter (fun b => b.id == a.id) = [a]) (h1 : a.kind ≠ 1) (h2 : a.kind ≠ 2) :
    exec (.resultArrival a.id) s = .next (s.deliver a) := congrArg Host.Outcome.next (takeArrival_eq h (by simp [h1, h2]))

end

/-- Scoreboard entries stand in the cores. -/
theorem unscore_cores (s : State) (l : List (Nat × Nat)) : ∃ cs, s.unscore l = { s with cores := cs } := by
  unfold State.unscore
  induction l generalizing s with
  | nil => exact ⟨s.cores, rfl⟩
  | cons e l ih =>
    obtain ⟨cs, h⟩ := ih (s.modCore e.1 (fun c => { c with score := c.score.filter (·.id != e.2) }))
    exact ⟨cs, h⟩

theorem not_mem_arrivals_deliver (s : State) (a : Arrival) : a ∉ (s.deliver a).arrivals := by
  obtain ⟨cs, h⟩ := unscore_cores { s with arrivals := s.arrivals.filter (·.id != a.id) } a.score
  have kept : (s.deliver a).arrivals = s.arrivals.filter (·.id != a.id) := by
    simp only [State.deliver, h]
    split
    · split <;> rfl
    · rfl
  simp [kept]

/-- R153: a value goes to its thread where the slot's generation is the one it was asked under, and is dropped else. -/
theorem thr?_deliver {s : State} {a : Arrival} {th : Thr} (h : s.thr? a.thr = some th) :
    (s.deliver a).thr? a.thr = some (if th.gen = a.gen then th.arrive a else th) := by
  obtain ⟨cs, hu⟩ := unscore_cores { s with arrivals := s.arrivals.filter (·.id != a.id) } a.score
  have same : ({ s with arrivals := s.arrivals.filter (·.id != a.id), cores := cs } : State).thr? a.thr = some th := h
  simp only [State.deliver, hu, same]
  split
  · exact thr?_modThr _ _ _ same
  · exact same

/-! ### Link registers (R210) -/

theorem linkFill_fills {s t : State} {thr g tid v : Nat} {th : Thr} {m : LinkMap} {gr : Grp} {r : Res} (hth : s.thr? thr = some th)
    (hm : th.link = some m) (hloc : th.loc = .grp g tid) (hg : s.grp? g = some gr) (hr : s.res? (s.seatOf thr).2.1.res = some r)
    (hs : r.saved = false) (hf : s.isFrozen (coreMid (laneCore gr.lane)) = false) (hh : m.held = none) (hc : m.count ≠ 0)
    (hz : srEsz (alGetD r.srec m.record 0) ≠ 3) (he : (th.reg (m.first + m.fills % m.count)).full = false)
    (hv : streamElem r.srec (alGetD r.srec m.record 0) tid m.pos { s with iss := issueFor gr.lane g tid thr } = .ok v t) :
    exec (.linkFill thr) s = .next { t.modThr thr (fun th => { th.fillLink (m.first + m.fills % m.count) (BitVec.ofNat 32 v) with
      link := some { m with fills := m.fills + 1, pos := m.pos + 1 } }) with iss := s.iss } := by
  have narrow : (srEsz (alGetD r.srec m.record 0) == 3) = false := by simpa using hz
  have round : max m.count 1 = m.count := by omega
  have low : lo32 (dw v) = BitVec.ofNat 32 v := by
    apply BitVec.eq_of_toNat_eq
    simp [lo32, dw]
  show Host.Outcome.next (s.linkFill thr) = _
  simp only [State.linkFill, hth, hm, hloc, hg, hr, round, hs, hf, hh, hc, he, narrow, hv, low, Option.isSome_none, decide_false,
    Bool.or_self, Bool.false_and, Bool.false_eq_true, if_false]

/-! ### Barriers (R135, R393) -/

section
variable {s : State} {bar : Nat} {b : Bar} (hb : alGet s.bars bar = some b) (hl : b.left = []) (he : b.launch ≠ podEarly)
include hb hl he

/-- Every participant has arrived; a pod barrier has its report sent, and waits for those of the other packages. -/
theorem barrierComplete_eq : exec (.barrierComplete bar) s = .next (
    if b.lvl = 6 then
      if b.reports.length + 1 ≥ b.count then (if b.sent then s else s.barSend bar b).barDone bar b
      else if b.sent then s else s.barSend bar b
    else s.barDone bar b) := by
  show execBarrierComplete bar s = _
  simp [execBarrierComplete, hb, hl, he]

theorem barrierComplete_done (h : b.lvl ≠ 6) : exec (.barrierComplete bar) s = .next (s.barDone bar b) := by
  rw [barrierComplete_eq hb hl he, if_neg h]
theorem barrierComplete_sends (h : b.lvl = 6) (hs : b.sent = false) (hn : b.reports.length + 1 < b.count) :
    exec (.barrierComplete bar) s = .next (s.barSend bar b) := by
  rw [barrierComplete_eq hb hl he, if_pos h, if_neg (Nat.not_le.2 hn), hs]
  rfl
theorem barrierComplete_reported (h : b.lvl = 6) (hs : b.sent = true) (hn : b.count ≤ b.reports.length + 1) :
    exec (.barrierComplete bar) s = .next (s.barDone bar b) := by
  rw [barrierComplete_eq hb hl he, if_pos h, if_pos hn, hs]
  rfl

end

/-- R393: a package's report counts once toward the one open barrier of its id. -/
theorem podBarrierReport_counts {s : State} {bar : Nat} {b : Bar} {src : PodSrc} (hp : src.port ≤ 8)
    (hf : s.isFrozen (podMid src.port) = false) (hb : (bar, b) ∈ s.bars) (h6 : b.lvl = 6) (he : b.launch ≠ podEarly)
    (h1 : ∀ c ∈ s.bars, c.2.lvl = 6 → c.2.id = b.id → c.2.unit = b.unit → c = (bar, b)) :
    exec (.podBarrierReport src b.unit b.id b.count) s = .next { s with bars := alSet s.bars bar { b with
      reports := if src.package ∈ b.reports then b.reports else b.reports ++ [src.package] } } := by
  have found : s.bars.find? (fun c => c.2.lvl == 6 && c.2.id == b.id && c.2.launch != podEarly && c.2.unit == b.unit) = some (bar, b) := by
    cases h : s.bars.find? (fun c => c.2.lvl == 6 && c.2.id == b.id && c.2.launch != podEarly && c.2.unit == b.unit) with
    | none => exact absurd (List.find?_eq_none.1 h _ hb) (by simp [h6, he])
    | some c =>
      have fits := List.find?_some h
      simp only [Bool.and_eq_true, beq_iff_eq] at fits
      obtain ⟨⟨⟨hlvl, hid⟩, -⟩, hunit⟩ := fits
      rw [h1 c (List.mem_of_find?_eq_some h) hlvl hid hunit]
  show execPodBarrierReport src b.unit b.id b.count s = _
  simp only [execPodBarrierReport, found, hf, addReport, List.contains_iff_mem, if_true, Nat.not_lt.2 hp, decide_false, Bool.or_self,
    Bool.false_eq_true, if_false]

/-! ### Sleeps (R407) -/

section
variable {s : State} {thr : Nat} {th : Thr} {w : PWait} {n u : Nat}

/-- The sleep that is over leaves the waits of every entry that the table lists under the thread's name, and no other wait does. -/
theorem sleepExpire_eq (h : s.thr? thr = some th) (hw : th.waits = [w]) (hs : w.w = .sleep n (some u)) (hf : s.frozenThr thr = false)
    (hu : u ≤ laneNow s (s.laneOf thr)) :
    exec (.sleepExpire thr) s = .next (s.modThr thr (fun x => { x with waits := x.waits.filter (· != w) })) := by
  have woken := thr?_modThr s thr (fun x => { x with waits := x.waits.filter (· != w) }) h
  show Host.Outcome.next (s.sleepEnd thr) = _
  simp only [State.sleepEnd, h, hf, hw, List.foldl_cons, List.foldl_nil, hs, hu, State.endWait, woken, Bool.false_eq_true, if_false, if_true]

end

/-- What the obligation says of a thread's sleep: once it is over, no wait is left under the thread's name. -/
def SleepLeavesNoWait (s : State) (thr : Nat) : Prop := ∀ (th : Thr) (w : PWait) (n u : Nat), s.thr? thr = some th → th.waits = [w] →
  w.w = .sleep n (some u) → s.frozenThr thr = false → u ≤ laneNow s (s.laneOf thr) →
  exec (.sleepExpire thr) s = .next (s.modThr thr (fun th => { th with waits := [] }))

/-- It holds where the table of threads lists the name once. -/
theorem sleepLeavesNoWait_of_listed_once {s : State} {thr : Nat} (h : ∀ e ∈ s.thrs, e.1 = thr → s.thr? thr = some e.2) :
    SleepLeavesNoWait s thr := by
  intro th w n u hth hw hs hf hu
  have one : alAdj s.thrs thr (fun x => { x with waits := x.waits.filter (· != w) }) = alAdj s.thrs thr (fun x => { x with waits := [] }) := by
    refine List.map_congr_left fun e he => ?_
    by_cases name : e.1 = thr
    · obtain rfl : th = e.2 := Option.some.inj (hth.symm.trans (h e he name))
      simp [name, hw]
    · simp only [name, if_false]
  rw [sleepExpire_eq hth hw hs hf hu, State.modThr, one]
  rfl

/-- A sleep that is over, and another wait. -/
def overSleep : PWait := ⟨0, 0, 0, .sleep 0 (some 0)⟩
def otherWait : PWait := ⟨0, 0, 0, .halt⟩
/-- A state, which no run reaches, whose table of threads lists the name 0 twice: one entry sleeps, the other waits for something else. -/
def listedTwice : State := { State.reset with
  thrs := [(0, { Thr.absent with waits := [overSleep] }), (0, { Thr.absent with waits := [otherWait] })] }

theorem not_sleepLeavesNoWait_listedTwice : ¬ SleepLeavesNoWait listedTwice 0 := by
  intro h
  have gone := h _ overSleep 0 0 rfl rfl rfl (by decide) (Nat.zero_le _)
  rw [sleepExpire_eq (th := { Thr.absent with waits := [overSleep] }) rfl rfl rfl (by decide) (Nat.zero_le _)] at gone
  have waits := congrArg (fun s : State => s.thrs.map (·.2.waits)) (Host.Outcome.next.inj gone)
  exact absurd waits (by decide)

/-! ### The obligation -/

/-- The events of a lane are as the obligation says but for what a sleep leaves behind. -/
theorem laneEvents_iff_sleepLeavesNoWait : Obligations.LaneEvents ↔ ∀ s thr, SleepLeavesNoWait s thr := by
  refine ⟨fun h s thr => ?sleep, fun hsleep s lane thr bar => ⟨fun hr ha hc hf g gr hg hgr =>
      ⟨fun r => runStart_resumes hr ha hc hf rfl hg hgr, fun hs pc tids => runStart_begins hr ha hc hf rfl hg hgr hs⟩,
    fun r => runEnd_ends, fun hr hc hn a w => activeSetDisplace_exchanges hr hc hn,
    fun a h => ⟨traversalResult_delivers h, textureResult_delivers h, resultArrival_delivers h, not_mem_arrivals_deliver s a,
      fun th => thr?_deliver⟩,
    fun th m g tid gr r v t => linkFill_fills,
    fun b hb hl he => ⟨barrierComplete_done hb hl he, barrierComplete_sends hb hl he, barrierComplete_reported hb hl he⟩,
    ?report, hsleep s thr⟩⟩
  case sleep =>
    obtain ⟨-, -, -, -, -, -, -, sleep⟩ := h s 0 thr 0
    exact sleep
  case report =>
    rintro src _ _ _ b hp hf hb h6 rfl he rfl rfl h1
    exact podBarrierReport_counts hp hf hb h6 he h1

/-- Refutes O43: the sleep that ends takes itself from the waits of every entry under the thread's name, where the statement has them all
gone; in `listedTwice` an entry that waits for something else keeps its wait. -/
theorem not_laneEvents : ¬ Obligations.LaneEvents :=
  fun h => not_sleepLeavesNoWait_listedTwice (laneEvents_iff_sleepLeavesNoWait.1 h listedTwice 0)

end Sys2Proof.Proofs
end

