-- ==== Sys2Proof/Proofs/Accesses.lean ====
section
/-! PROOFS. Loads, stores, prefetches and cache words (R100 to R102, R375 to R380), and the faults that an access takes before it does
anything (R100, R101, R295). -/
namespace Sys2Proof.Proofs
open Sys2Proof.Machine Sys2Proof.Laws

/-! ### Numbers of addresses and of extended values -/

/-- An offset of 32 bits is added with its sign and wraps at 64 bits. -/
theorem modW_add_signExtend (x : DWord) (y : Word) : modW 64 ((x.toNat : Int) + y.toInt) = (x + y.signExtend 64).toNat := by
  simp only [modW, BitVec.toNat_add, BitVec.signExtend, BitVec.toNat_ofInt]
  omega

/-- An offset of 32 bits wraps at 32 bits. -/
theorem modW_add_offset (x y : Word) : modW 32 ((x.toNat : Int) + y.toInt) = (x + y).toNat := by
  simp only [modW, BitVec.toNat_add, BitVec.toInt_eq_toNat_bmod, Int.bmod_def]
  omega

theorem sx_eq_toInt {w : Nat} (hw : 0 < w) (v : Nat) : sx w v = (BitVec.ofNat w v).toInt := by
  obtain ⟨k, rfl⟩ : ∃ k, w = k + 1 := ⟨w - 1, by omega⟩
  have two : 2 ^ (k + 1) = 2 * 2 ^ k := Nat.pow_succ'
  simp only [sx, BitVec.toInt_eq_toNat_cond, BitVec.toNat_ofNat, Nat.add_sub_cancel]
  by_cases h : 2 ^ k ≤ v % 2 ^ (k + 1)
  · rw [if_pos h, if_neg (by omega)]; push_cast; rfl
  · rw [if_neg h, if_pos (by omega)]

/-- A value of w bits sign-extended to 32 bits, as the low half of an entry. -/
theorem dw_modW_sx {w : Nat} (hw : 0 < w) (v : Nat) :
    dw (modW 32 (sx w v)) = ((BitVec.ofNat w v).signExtend 32).setWidth 64 := by
  apply BitVec.eq_of_toNat_eq
  rw [sx_eq_toInt hw, BitVec.toNat_setWidth, BitVec.signExtend, BitVec.toNat_ofInt, dw, BitVec.toNat_ofNat, modW]
  rfl

theorem dw_mod (v : Nat) : dw (v % 2 ^ 64) = dw v := by
  apply BitVec.eq_of_toNat_eq; simp [dw]

theorem bytes'_pos (w : Width) : 0 < Width.bytes' w := by cases w <;> decide

/-! ### Addresses (R100, R375) -/

theorem addrOff_wide {p : Space} {a b : Src} {st s : State} {x : DWord} {y : Word} (h : ReadsWide a b st x y s)
    (hp : wideSpace p = true) : addrOff p a b st = .ok (x + y.signExtend 64).toNat s := by
  obtain ⟨u, hx, hy⟩ := h
  have hx' : addrOf p a st = .ok x.toNat u := by
    simp only [addrOf, hp, if_true]; rw [bind_ok hx]; rfl
  rw [addrOff, bind_ok hx', bind_ok hy, if_pos hp, modW_add_signExtend]; rfl

theorem addrOff_narrow {p : Space} {a b : Src} {st s : State} {x y : Word} (h : ReadsRaw a b st x y s)
    (hp : wideSpace p = false) : addrOff p a b st = .ok (x + y).toNat s := by
  obtain ⟨u, hx, hy⟩ := h
  have hx' : addrOf p a st = .ok x.toNat u := by
    simp only [addrOf, hp, Bool.false_eq_true, if_false]; rw [bind_ok hx]; rfl
  rw [addrOff, bind_ok hx', bind_ok hy, if_neg (by simp [hp]), modW_add_offset]; rfl

/-! ### Loads (R102, R376) -/

section
variable {hd : Hd} {a b : Src} {p : Space} {w : Width} {st t s : State} {va v : Nat} {po : Bool}

/-- R102: a load of constants gets what the run's first load of the address got. -/
theorem cstLoad_later {r : Run} {n : Nat} {k : Nat × Nat × Nat} {v : Nat × Bool} (hr : st.curRun = some r)
    (hk : r.bcast.find? (fun e => e.1 == (st.iss.word, va, n)) = some (k, v)) : cstLoad va n st = .ok v st := by
  simp only [cstLoad, get_bind, hr, Option.bind_some, hk, Option.map_some, pure_run]

variable (ha : addrOff p a b st = .ok va t)
  (hl : (if p = .cst then cstLoad va (Width.bytes' w) else spaceLoad p va (Width.bytes' w)) t = .ok (v, po) s)
include ha hl

/-- A load of up to 64 bits sends its value, extended. -/
theorem loadWord_sends (hw : w ≠ .b128) (f : Nat → Nat) : loadWord a b p w f st = .ok () (s.sent (dw (f v)) po) := by
  rw [loadWord, bind_ok ha, bind_ok hl]
  cases w with
  | b128 => exact absurd rfl hw
  | _ => rfl

/-- A load of 128 bits sends its low half first. -/
theorem loadWord_sends_halves (hw : w = .b128) (f : Nat → Nat) :
    loadWord a b p w f st = .ok () ((s.sent (dw v) po).sent (dw (v / 2 ^ 64)) po) := by
  rw [loadWord, bind_ok ha, bind_ok hl, hw, ← dw_mod v]
  rfl

end

/-! ### The words that read and write by address -/

section
variable {hd : Hd} {a b : Src} {p : Space} {w : Width} {st t u s : State} {va v : Nat} {x : DWord} (hf : Fires hd.gd st)
include hf

theorem exec_st (ha : addrOf p a st = .ok va t) (hv : dataOf w b t = .ok v u)
    (hs : spaceStore p va (Width.bytes' w) v u = .ok () s) : exec (.st hd a b p w) st = .next s := by
  refine runWord_ok hf (u := ()) ?_
  rw [bind_ok ha, bind_ok hv, hs]

/-- R380: a prefetch reads its line or, where that faults, is dropped. -/
theorem exec_pref (hx : src64 a st = .ok x t) (hl : (∃ v, loadV t.curWho .read (x.toNat / 64 * 64) 64 t = .ok v s) ∨
    ∃ f, loadV t.curWho .read (x.toNat / 64 * 64) 64 t = .error (.fault f) s) : exec (.pref hd a p) st = .next s := by
  refine runWord_ok hf (u := ()) ?_
  refine (bind_ok hx).trans ?_
  obtain ⟨v, hl⟩ | ⟨f, hl⟩ := hl <;> simp only [hl]

variable {y : Word} {pa : Nat} {r : Nat × Nat × Nat} (hr : ReadsWide a b st x y t)
  (ht : Machine.translate t.curWho .read (x.toNat / 64 * 64) t = .ok (pa, r) s)
include hr ht

/-- R380: CACHE 0 drops the core's copy of the line. -/
theorem exec_cache_drop (hy : y = 0) : exec (.cache hd a b p) st = .next (s.modCore s.curCore (fun c =>
    { c with l1 := c.l1.filter (fun l => !(l.ctx == s.cur.id.ctx && l.pa == lineOf pa)) })) := by
  obtain ⟨q, hx, hy'⟩ := hr
  refine runWord_ok hf (u := ()) ?_
  rw [bind_ok hx, bind_ok hy', get_bind, bind_ok ht, hy]
  rfl

/-- CACHE 1 and 2 change no value here (log entry 2). -/
theorem exec_cache_writeBack (hy : y = 1 ∨ y = 2) : exec (.cache hd a b p) st = .next s := by
  obtain ⟨q, hx, hy'⟩ := hr
  refine runWord_ok hf (u := ()) ?_
  rw [bind_ok hx, bind_ok hy', get_bind, bind_ok ht]
  obtain rfl | rfl := hy <;> rfl

end

/-- Settles O20: each word is what its reads give it, run through; the extended value is `dw_modW_sx`, the address `addrOff_wide` or
`addrOff_narrow`. -/
theorem loadsAndStores : Obligations.LoadsAndStores := by
  unfold Obligations.LoadsAndStores
  intro hd a b p w st t s va x hf
  refine ⟨fun v po ha hl => ⟨fun hw => ⟨?_, ?_⟩, fun hw => ?_⟩, fun r n k v hr hk => cstLoad_later hr hk,
    fun u v ha hv hs => exec_st hf ha hv hs, fun x y hr hp => addrOff_wide hr hp, fun x y hr hp => addrOff_narrow hr hp,
    fun hx => ⟨fun v hl => exec_pref hf hx (.inl ⟨v, hl⟩), fun f hl => exec_pref hf hx (.inr ⟨f, hl⟩)⟩,
    fun y pa r hr ht => ⟨exec_cache_drop hf hr ht, exec_cache_writeBack hf hr ht⟩⟩
  · exact runWord_ok hf (loadWord_sends ha hl hw id)
  · rw [← dw_modW_sx (by have := bytes'_pos w; omega)]
    exact runWord_ok hf (loadWord_sends ha hl hw _)
  · exact runWord_ok hf (loadWord_sends_halves ha hl hw id)

/-! ### Faults before the access (R100, R101, R295) -/

/-- The record of a fault at the word at hand with an address. -/
def accessFault (s : State) (cls cause va : Nat) : FaultInfo := ⟨cls, cause, BitVec.ofNat 64 va, s.iss.word, s.iss.instr, false⟩

/-- An access of n bytes faults with a class and a cause: NONCANON, ALIGN or STACK, in this order (log entry 48). -/
def Misaccess (p : Space) (va n : Nat) (s : State) (cls cause : Nat) : Prop :=
  (wideSpace p = true ∧ 2 ^ 55 ≤ va ∧ cls = 6 ∧ cause = 1) ∨
  ((wideSpace p = true → va < 2 ^ 55) ∧ va % n ≠ 0 ∧ cls = 4 ∧ cause = 0) ∨
  (p = .stk ∧ va < 2 ^ 55 ∧ va % n = 0 ∧ ¬ (s.cur.stkl.toNat ≤ va ∧ va + n ≤ s.cur.stkb.toNat) ∧ cls = 7 ∧ cause = 0)

theorem runWord_fault {g : Guard} {n : Nat} {x : X Unit} {s t : State} {f : FaultInfo} (hg : Fires g s) (hc : s.iss.chained = false)
    (h : x s = .error (.fault f) t) : runWord g n x s = .next (t.takeFault s.iss.thr f) := by
  have hg' : guardOf g s.cur = true := hg
  have h' : onCtl (pushFree n) x s = .error (.fault f) t := by simp only [onCtl, h]
  rw [runWord, if_pos hg', applyX_fault h', if_neg (by simp [hc])]

section
variable {p : Space} {va n : Nat} {s : State} {cls cause : Nat} (h : Misaccess p va n s cls cause)
include h

theorem checkAccess_fault : checkAccess p va n s = .error (.fault (accessFault s cls cause va)) s := by
  unfold checkAccess
  obtain ⟨hp, hva, rfl, rfl⟩ | ⟨hva, hn, rfl, rfl⟩ | ⟨rfl, hva, hn, hs, rfl, rfl⟩ := h
  · rw [if_pos ⟨hp, hva⟩]; rfl
  · rw [if_neg fun c => absurd (hva c.1) (Nat.not_lt.2 c.2), if_pos hn]; rfl
  · rw [if_neg fun c => absurd hva (Nat.not_lt.2 c.2), if_neg (not_not.2 hn)]
    simp only [get_bind, if_neg hs]
    rfl

theorem spaceLoad_fault : spaceLoad p va n s = .error (.fault (accessFault s cls cause va)) s := bind_error (checkAccess_fault h)
theorem spaceStore_fault (v : Nat) : spaceStore p va n v s = .error (.fault (accessFault s cls cause va)) s :=
  bind_error (checkAccess_fault h)
theorem spaceAtom_fault (f : Nat → Nat) : spaceAtom p va n f s = .error (.fault (accessFault s cls cause va)) s :=
  bind_error (checkAccess_fault h)

/-- R102: the first load of constants at its address faults as any load does. -/
theorem cstLoad_fault (hp : p = .cst) (hb : s.curRun.bind (fun r => r.bcast.find? (fun e => e.1 == (s.iss.word, va, n))) = none) :
    cstLoad va n s = .error (.fault (accessFault s cls cause va)) s := by
  subst hp
  have first : s.curRun.bind (fun r => (r.bcast.find? (fun e => e.1 == (s.iss.word, va, n))).map (·.2)) = none := by
    rw [Option.bind_eq_none_iff] at hb ⊢
    exact fun r hr => by rw [hb r hr, Option.map_none]
  simp only [cstLoad, get_bind, first]
  exact bind_error (spaceLoad_fault h)

end

section
variable {hd : Hd} {a b : Src} {p : Space} {w : Width} {st t s : State} {va cls cause : Nat}

theorem loadWord_fault (ha : addrOff p a b st = .ok va t) (h : Misaccess p va (Width.bytes' w) t cls cause)
    (hb : p = .cst → t.curRun.bind (fun r => r.bcast.find? (fun e => e.1 == (t.iss.word, va, Width.bytes' w))) = none) (f : Nat → Nat) :
    loadWord a b p w f st = .error (.fault (accessFault t cls cause va)) t := by
  rw [loadWord, bind_ok ha]
  refine bind_error ?_
  by_cases hp : p = .cst
  · rw [if_pos hp]; exact cstLoad_fault h hp (hb hp)
  · rw [if_neg hp]; exact spaceLoad_fault h

variable (ha : addrOf p a st = .ok va t) (h : Misaccess p va (Width.bytes' w) s cls cause)
include ha h

section
variable {v : Nat} (hv : dataOf w b t = .ok v s)
include hv

theorem atomWord_fault (o : AtomOp) : atomWord o a b p w st = .error (.fault (accessFault s cls cause va)) s := by
  rw [atomWord, bind_ok ha, bind_ok hv]
  exact bind_error (spaceAtom_fault h _)
theorem redWord_fault (o : AtomOp) : redWord o a b p w st = .error (.fault (accessFault s cls cause va)) s := by
  rw [redWord, bind_ok ha, bind_ok hv]
  exact bind_error (spaceAtom_fault h _)
theorem exec_st_fault (hf : Fires hd.gd st) (hc : st.iss.chained = false) :
    exec (.st hd a b p w) st = .next (s.takeFault st.iss.thr (accessFault s cls cause va)) := by
  refine runWord_fault hf hc ?_
  rw [bind_ok ha, bind_ok hv, spaceStore_fault h]

end

theorem exec_cas_fault {v : Nat × Nat} (hv : dataPair w b t = .ok v s) (hf : Fires hd.gd st) (hc : st.iss.chained = false) :
    exec (.cas hd a b p w) st = .next (s.takeFault st.iss.thr (accessFault s cls cause va)) := by
  refine runWord_fault hf hc ?_
  rw [bind_ok ha, bind_ok hv]
  exact bind_error (spaceAtom_fault h _)

end

/-- R384: a REDD checks its address as glb's. -/
theorem reddWord_fault {a b : Src} {w : Width} {st t s : State} {x : DWord} {v : Nat × Nat} {cls cause : Nat} (fn : Nat)
    (hx : src64 a st = .ok x t) (hv : dataPair w b t = .ok v s)
    (h : alignX x.toNat (Width.bytes' w) s = .error (.fault (accessFault s cls cause x.toNat)) s) :
    reddWord fn a b w st = .error (.fault (accessFault s cls cause x.toNat)) s := by
  rw [reddWord, bind_ok hx, bind_ok hv]
  exact bind_error h

theorem alignX_noncanon {va n : Nat} (h : 2 ^ 55 ≤ va) (s : State) : alignX va n s = .error (.fault (accessFault s 6 1 va)) s := by
  rw [alignX, if_pos h]; rfl
theorem alignX_unaligned {va n : Nat} (h : va < 2 ^ 55) (hn : va % n ≠ 0) (s : State) :
    alignX va n s = .error (.fault (accessFault s 4 0 va)) s := by
  rw [alignX, if_neg (Nat.not_le.2 h), if_pos hn]; rfl

/-- Settles O50: what `checkAccess` or, for REDD, `alignX` finds is the fault of every word that makes the access. -/
theorem accessFaults : Obligations.AccessFaults := by
  unfold Obligations.AccessFaults
  intro hd a b p w st t s va hf hc
  refine ⟨fun ha hb cls cause h => ⟨?_, ?_⟩, fun ha cls cause h => ⟨fun v hv => ?_, fun v hv => exec_cas_fault ha h hv hf hc⟩,
    fun x v hx hv hva => ?_⟩
  · exact runWord_fault hf hc (loadWord_fault ha h hb id)
  · exact runWord_fault hf hc (loadWord_fault ha h hb _)
  · have atom := fun o => runWord_fault (n := 1) hf hc (atomWord_fault ha h hv o)
    have red := fun o => runWord_fault (n := 0) hf hc (redWord_fault ha h hv o)
    simp only [List.forall_mem_cons]
    exact ⟨exec_st_fault ha h hv hf hc, atom .add, atom .fadd, atom .min, atom .max, atom .and, atom .or, atom .xor, atom .swap,
      red .add, red .fadd, red .min, red .max, red .and, red .or, red .xor, fun _ hi => absurd hi List.not_mem_nil⟩
  · subst hva
    have canon := fun fn h => runWord_fault (n := 0) hf hc (reddWord_fault fn hx hv (alignX_noncanon h s))
    have aligned := fun fn h hn => runWord_fault (n := 0) hf hc (reddWord_fault fn hx hv (alignX_unaligned h hn s))
    simp only [List.forall_mem_cons]
    exact ⟨⟨canon 0, aligned 0⟩, ⟨canon 1, aligned 1⟩, ⟨canon 2, aligned 2⟩, ⟨canon 3, aligned 3⟩, ⟨canon 4, aligned 4⟩,
      ⟨canon 5, aligned 5⟩, ⟨canon 6, aligned 6⟩, fun _ hi => absurd hi List.not_mem_nil⟩

end Sys2Proof.Proofs
end

