-- ==== Sys2Proof/Proofs/TagTable.lean ====
section
/-! PROOFS. The words of the tag table (R112, R385). -/
namespace Sys2Proof.Proofs
open Sys2Proof.Machine Sys2Proof.Laws

section
variable {hd : Hd} {a b : Src} {st s : State} {x : DWord} (hf : Fires hd.gd st)
include hf

/-- TAGQ reports the entry that holds the tag, or 0. -/
theorem exec_tagq (hx : src64 a st = .ok x s) : exec (.tagq hd a) st = .next (s.pushed (
    match tagFind (s.coreD s.curCore) s.curGrp.res x.toNat with
    | some t => dw (2 ^ 34 + t.st * 2 ^ 32 + t.loc * 64 + t.way)
    | none => 0)) := by
  refine runWord_ok hf (u := ()) ?_
  rw [bind_ok hx, get_bind]
  cases tagFind (s.coreD s.curCore) s.curGrp.res x.toNat <;> rfl

/-- TAGCLR frees it. -/
theorem exec_tagclr (hx : src64 a st = .ok x s) : exec (.tagclr hd a) st = .next (
    match tagFind (s.coreD s.curCore) s.curGrp.res x.toNat with
    | some t => (s.modCore s.curCore (fun k => tagPut k { t with st := 0 })).pushed 1
    | none => s.pushed 0) := by
  refine runWord_ok hf (u := ()) ?_
  rw [bind_ok hx, get_bind]
  cases tagFind (s.coreD s.curCore) s.curGrp.res x.toNat <;> rfl

/-- TAGSET with a control word and a place that R385 allows: it changes the entry that holds the tag, else takes a free way of the
tag's set, else pushes 0. -/
theorem exec_tagset {y : Word} {r : Res} (hr : ReadsWide a b st x y s) (h19 : y.toNat / 2 ^ 19 = 0) (h5 : fld y.toNat 5 2 = 0)
    (hst : y.toNat % 4 ≠ 0) (hres : s.res? s.curGrp.res = some r) (hlim : fld y.toNat 18 6 * 64 + 64 ≤ r.sg.length * 16384) :
    exec (.tagset hd a b) st = .next (
      match tagFind (s.coreD s.curCore) s.curGrp.res x.toNat with
      | some t => (s.modCore s.curCore (fun k => tagPut k { t with st := y.toNat % 4, loc := fld y.toNat 18 6 })).pushed 3
      | none =>
        match (List.range 4).find? (fun w => !(s.coreD s.curCore).tags.any (fun t => t.set == tagSet x.toNat && t.way == w)) with
        | none => s.pushed 0
        | some w => (s.modCore s.curCore (fun k =>
            tagPut k ⟨tagSet x.toNat, w, y.toNat % 4, s.curGrp.res, tagTag x.toNat, fld y.toNat 18 6⟩)).pushed 1) := by
  obtain ⟨u, hx, hy⟩ := hr
  refine runWord_ok hf (u := ()) ?_
  rw [bind_ok hx, bind_ok hy, get_bind]
  have control : ¬ (y.toNat / 2 ^ 19 ≠ 0 ∨ fld y.toNat 5 2 ≠ 0 ∨ y.toNat % 4 = 0) :=
    not_or.2 ⟨not_not.2 h19, not_or.2 ⟨not_not.2 h5, hst⟩⟩
  have place : ¬ fld y.toNat 18 6 * 64 + 64 > r.sg.length * Config.granBytes := Nat.not_lt.2 hlim
  simp only [if_neg control, hres, if_neg place]
  cases tagFind (s.coreD s.curCore) s.curGrp.res x.toNat with
  | some t => rfl
  | none =>
    dsimp only
    cases (List.range 4).find? (fun w => !(s.coreD s.curCore).tags.any (fun t => t.set == tagSet x.toNat && t.way == w)) <;> rfl

end

/-- Settles O22: each word by the entry that is found. -/
theorem tagWords : Obligations.TagWords := by
  unfold Obligations.TagWords
  intro hd a b st s x hf find
  refine ⟨fun hx => ?query, fun y r hr h19 h5 hst hres hlim => ?set⟩
  case query =>
    have q := exec_tagq hf hx
    have c := exec_tagclr hf hx
    refine ⟨fun h => ?_, fun t h => ?_⟩
    all_goals
      rw [show tagFind _ _ _ = _ from h] at q c
      exact ⟨q, c⟩
  case set =>
    have e := exec_tagset hf hr h19 h5 hst hres hlim
    refine ⟨fun t h => ?_, fun h => ⟨fun hw => ?_, fun w hw => ?_⟩⟩
    · rwa [show tagFind _ _ _ = _ from h] at e
    all_goals rwa [show tagFind _ _ _ = _ from h, show List.find? _ _ = _ from hw] at e

end Sys2Proof.Proofs
end

