-- ==== Sys2Proof/Proofs/Changes.lean ====
section
/-! PROOFS. What actions may change: a kind of change is a relation of states that composes, and an action makes only changes of a kind.
Reads at a home make only reports; whatever reads an operand leaves all but what `Calm` allows. -/
namespace Sys2Proof.Proofs
open Sys2Proof.Machine Sys2Proof.Laws

/-! ### Kinds of change -/

/-- A kind of change: a relation of a state to a later one that holds where nothing changed and composes. -/
structure Change where
  rel : State → State → Prop
  refl : ∀ s, rel s s
  trans : ∀ {s t u}, rel s t → rel t u → rel s u

/-- From s an action that gives a value makes only changes of a kind. -/
structure Makes {α : Type} (C : Change) (x : X α) (s : State) : Prop where
  of_ok : ∀ {a t}, x s = .ok a t → C.rel s t

/-- No change. -/
def Change.none : Change := ⟨fun s t => t = s, fun _ => rfl, fun h g => g.trans h⟩

/-- An action that gives a value gave one at each of its parts. -/
theorem of_bind_ok {α β : Type} {x : X α} {f : α → X β} {s t : State} {b : β} (h : (x >>= f) s = .ok b t) :
    ∃ a u, x s = .ok a u ∧ f a u = .ok b t := by
  cases e : x s with
  | ok a u => exact ⟨a, u, rfl, (bind_ok e).symm.trans h⟩
  | error r u => rw [bind_error e] at h; cases h

section
variable {α β : Type} {C : Change} {s : State}

theorem makes_pure (a : α) : Makes C (pure a : X α) s := ⟨by rintro _ _ ⟨⟩; exact C.refl s⟩
theorem makes_raise (cls cause addr : Nat) : Makes C (raise cls cause addr : X α) s := ⟨by rintro _ _ ⟨⟩⟩
theorem makes_operand : Makes C (operand : X α) s := makes_raise ..
theorem makes_stallX : Makes C (stallX : X α) s := ⟨by rintro _ _ ⟨⟩⟩
theorem makes_modify {f : State → State} (h : C.rel s (f s)) : Makes C (modify f : X PUnit) s := ⟨by rintro _ _ ⟨⟩; exact h⟩
theorem makes_bind {x : X α} {f : α → X β} (hx : Makes C x s) (hf : ∀ a t, C.rel s t → Makes C (f a) t) : Makes C (x >>= f) s := by
  refine ⟨fun h => ?_⟩
  obtain ⟨a, u, hu, ht⟩ := of_bind_ok h
  exact C.trans (hx.of_ok hu) ((hf a u (hx.of_ok hu)).of_ok ht)
theorem makes_get_bind {f : State → X β} (h : Makes C (f s) s) : Makes C (get >>= f) s := ⟨h.of_ok⟩
theorem makes_ite {c : Prop} [Decidable c] {x y : X α} (hx : Makes C x s) (hy : Makes C y s) : Makes C (if c then x else y) s := by
  split <;> assumption
/-- An action that changes nothing makes changes of every kind. -/
theorem Makes.ofNone {x : X α} (h : Makes .none x s) : Makes C x s := ⟨fun e => (h.of_ok e : _ = _) ▸ C.refl s⟩

end

/-! ### Reports of a home (R27, R119) -/

/-- The state without what a read at a home may change: counted errors, errors and poison of lines, cached translations, the stacks with
their reports, free values. -/
def sansReports (s : State) : State := { s with
  pkg := { s.pkg with errs := [], pending := [], hv := { s.pkg.hv with pend := 0 } }
  mem := { s.mem with poison := [], l2p := [], flaws := [], tlb := [] }
  stks := [], free := 0 }

/-- A stack is as it was but for its error reports. -/
def OnlyErrs (x y : Stack) : Prop := y = { x with errs := y.errs }

theorem OnlyErrs.trans {x y z : Stack} (h : OnlyErrs x y) (g : OnlyErrs y z) : OnlyErrs x z := by
  rw [OnlyErrs] at *
  rw [g, h]

/-- What a read at a home leaves. -/
structure Reports (s u : State) : Prop where
  rest : sansReports u = sansReports s
  stack : ∀ k, OnlyErrs (s.stackD k) (u.stackD k)

theorem Reports.refl (s : State) : Reports s s := ⟨rfl, fun _ => rfl⟩
theorem Reports.trans {s t u : State} (h : Reports s t) (g : Reports t u) : Reports s u :=
  ⟨g.rest.trans h.rest, fun k => (h.stack k).trans (g.stack k)⟩

/-- Reads at a home. -/
def Change.reports : Change := ⟨Reports, Reports.refl, Reports.trans⟩

section
variable {s u : State} (h : Reports s u)
include h

theorem Reports.cells : u.mem.cells = s.mem.cells := congrArg (·.mem.cells) h.rest
theorem Reports.tags : u.mem.tags = s.mem.tags := congrArg (·.mem.tags) h.rest
theorem Reports.cores : u.cores = s.cores := congrArg (·.cores) h.rest
theorem Reports.thrs : u.thrs = s.thrs := congrArg (·.thrs) h.rest

end

theorem reports_foldl {α : Type} {f : State → α → State} (h : ∀ s a, Reports s (f s a)) (l : List α) (s : State) :
    Reports s (l.foldl f s) := by
  induction l generalizing s with
  | nil => exact .refl s
  | cons a l ih => exact (h s a).trans (ih _)

theorem alGetD_alMod_ne {α : Type} (l : AL α) {k j : Nat} (d : α) (f : α → α) (h : j ≠ k) : alGetD (alMod l k d f) j d = alGetD l j d :=
  alGetD_alSet_ne l k d _ h

theorem stackD_modStack_ne (s : State) {k j : Nat} (f : Stack → Stack) (h : j ≠ k) : (s.modStack k f).stackD j = s.stackD j :=
  alGetD_alMod_ne _ _ _ h
theorem coreD_modCore_ne (s : State) {c j : Nat} (f : Core → Core) (h : j ≠ c) : (s.modCore c f).coreD j = s.coreD j :=
  alGetD_alMod_ne _ _ _ h

theorem reports_errReport (s : State) (stk kind tag mid addr sym : Nat) : Reports s (s.errReport stk kind tag mid addr sym) := by
  refine ⟨rfl, fun k => ?_⟩
  by_cases hk : k = stk
  · rw [hk, State.errReport, stackD_modStack]; rfl
  · rw [State.errReport, stackD_modStack_ne _ _ hk]; rfl

theorem reports_markPending (s : State) (u : HwUnit) : Reports s (s.markPending u) := by
  unfold State.markPending
  split <;> exact ⟨rfl, fun _ => rfl⟩

theorem reports_countErr (s : State) (u : HwUnit) : Reports s (s.countErr u) := by
  unfold State.countErr
  dsimp only
  split
  · refine Reports.trans ?_ (reports_markPending ..)
    exact ⟨rfl, fun _ => rfl⟩
  · exact ⟨rfl, fun _ => rfl⟩

theorem reports_meetLine (s : State) (mid tag la : Nat) : Reports s (s.meetLine mid tag la) := by
  unfold State.meetLine
  dsimp only
  split
  · refine Reports.trans (Reports.trans ?_ (reports_errReport ..)) (reports_countErr ..)
    exact ⟨rfl, fun _ => rfl⟩
  · refine Reports.trans ?_ (reports_errReport ..)
    exact ⟨rfl, fun _ => rfl⟩
  · split
    · exact reports_errReport ..
    · exact .refl s

theorem reports_beyondAt (s : State) (mid pa : Nat) : Reports s (s.beyondAt mid pa) :=
  Reports.trans (t := { s with free := s.free + 1 }) ⟨rfl, fun _ => rfl⟩ (reports_errReport ..)

theorem reports_drainReport (s : State) (core : Nat) (l : WLine) : Reports s (s.drainReport core l) := by
  unfold State.drainReport
  split
  · exact .refl s
  · exact reports_beyondAt ..

theorem reports_walk (who : Who) (va tbl : Nat) (shs : List Nat) (s : State) : Reports s (walk who va tbl shs s).1 := by
  induction shs generalizing tbl s with
  | nil => exact .refl s
  | cons sh shs ih =>
    have met := reports_meetLine s who.mid 0 (lineOf (tbl + va / 2 ^ sh % 8192 * 8))
    have same := Reports.refl s
    unfold walk
    dsimp only
    split
    · exact same
    split
    · exact same
    split
    · exact same
    split
    · exact reports_beyondAt ..
    split
    · exact met
    split
    · exact met
    split
    · exact met
    split
    · exact met
    · exact met.trans (ih _ _)

theorem makes_translate (who : Who) (cls : ReqClass) (va : Nat) (s : State) : Makes .reports (Machine.translate who cls va) s := by
  refine ⟨fun {r t} h => ?_⟩
  unfold Machine.translate at h
  extract_lets bad refused c fin at h
  have ends : ∀ {e sh} {u : State}, fin e sh u = .ok r t → t = u := by
    intro e sh u hu
    simp only [fin] at hu
    split at hu
    · split at hu <;> cases hu
      rfl
    · cases hu
  split at h
  · split at h
    · cases h; exact .refl s
    split at h
    · cases h
    split at h <;> cases h
    exact .refl s
  split at h
  · cases h
  split at h
  · cases h
  split at h
  · exact ends h ▸ .refl s
  split at h
  · cases h
  · cases h
  · rename_i q e sh hq
    have walked : Reports s q := by simpa only [hq] using reports_walk who va c.ptroot [42, 29, 16] s
    rw [ends h]
    exact walked.trans ⟨rfl, fun _ => rfl⟩

theorem makes_allow (who : Who) (tgt : Nat) (cls : ReqClass) (addr : Nat) (s : State) : Makes .none (allow who tgt cls addr) s := by
  refine ⟨fun h => ?_⟩
  unfold allow at h
  split at h <;> cases h
  rfl

theorem makes_reach (who : Who) (cls : ReqClass) (pa ca : Nat) (s : State) : Makes .none (reach who cls pa ca) s :=
  makes_bind (makes_allow ..) fun _ _ _ => makes_get_bind (makes_ite makes_stallX (makes_pure _))

theorem makes_waitOwned (pa : Nat) (s : State) : Makes .none (waitOwned pa) s :=
  makes_get_bind (makes_ite makes_stallX (makes_pure _))

theorem makes_freeX (s : State) : Makes .reports freeX s := ⟨by rintro _ _ ⟨⟩; exact ⟨rfl, fun _ => rfl⟩⟩

theorem makes_freeBytes (n : Nat) (s : State) : Makes .reports (freeBytes n) s := by
  refine ⟨fun h => ?_⟩
  obtain ⟨v', k, e⟩ := freeBytes_run n s
  cases e.symm.trans h
  exact ⟨rfl, fun _ => rfl⟩

theorem makes_meetX (who : Who) (la : Nat) (s : State) : Makes .reports (meetX who la) s :=
  makes_get_bind (makes_ite (makes_pure _)
    (makes_bind (makes_freeX s) fun _ t _ => makes_modify (reports_meetLine t ..)))

theorem makes_homeRead (who : Who) (cls : ReqClass) (pa ca key n : Nat) (s : State) :
    Makes .reports (homeRead who cls pa ca key n) s :=
  makes_bind (makes_reach ..).ofNone fun _ t _ => makes_get_bind (makes_ite
    (makes_bind (makes_meetX who _ t) fun _ _ _ => makes_get_bind (makes_pure _))
    (makes_bind (makes_modify (reports_beyondAt t ..)) fun _ _ _ => makes_bind (makes_freeBytes ..) fun _ _ _ => makes_pure _))

/-! ### What reading an operand leaves -/

/-- The state without what reading operands may change: what a read at a home may, bytes and tags of lines, caches and buffers, threads,
the literals at hand. -/
def sansReads (s : State) : State :=
  let r := sansReports s
  { r with mem := { r.mem with cells := [], tags := [] }, cores := [], thrs := [], iss := { r.iss with lits := [] } }

/-- A core is as it was but for its caches and its buffer, in which nothing is new. -/
structure CoreCalm (x y : Core) : Prop where
  eq : y = { x with l1 := y.l1, tex := y.tex, wcb := y.wcb }
  wcb : ∀ l ∈ y.wcb, l ∈ x.wcb

theorem CoreCalm.refl (x : Core) : CoreCalm x x := ⟨rfl, fun _ h => h⟩
theorem CoreCalm.trans {x y z : Core} (h : CoreCalm x y) (g : CoreCalm y z) : CoreCalm x z :=
  ⟨by rw [g.eq, h.eq], fun l hl => h.wcb l (g.wcb l hl)⟩

/-- A thread is as it was but for its run's state, its predicates and its stream positions. -/
def ThrCalm (x y : Thr) : Prop := ∃ rt p pos, y = { x with rt := rt, p := p, spos := pos }

/-- What reading the operands of the word at hand leaves. -/
structure Calm (s u : State) : Prop where
  rest : sansReads u = sansReads s
  stack : ∀ k, OnlyErrs (s.stackD k) (u.stackD k)
  bytes : ∀ a, (∀ l ∈ (s.coreD s.curCore).wcb, a < l.pa ∨ l.pa + 64 ≤ a) →
    byteAt u.mem.cells a = byteAt s.mem.cells a ∧ alGet u.mem.tags a = alGet s.mem.tags a
  cores : ∀ c, CoreCalm (s.coreD c) (u.coreD c) ∧ (c ≠ s.curCore → (u.coreD c).wcb = (s.coreD c).wcb)
  others : ∀ k, k ≠ s.iss.thr → u.thr? k = s.thr? k
  thread : ∀ th, s.thr? s.iss.thr = some th → ∃ th', u.thr? s.iss.thr = some th' ∧ ThrCalm th th'

theorem Calm.curCore {s u : State} (h : Calm s u) : u.curCore = s.curCore := by
  show (sansReads u).curCore = (sansReads s).curCore
  rw [h.rest]
theorem Calm.curThr {s u : State} (h : Calm s u) : u.iss.thr = s.iss.thr := congrArg (·.iss.thr) h.rest

theorem Calm.trans {s t u : State} (h : Calm s t) (g : Calm t u) : Calm s u where
  rest := g.rest.trans h.rest
  stack k := (h.stack k).trans (g.stack k)
  bytes a ha := by
    obtain ⟨hb, ht⟩ := h.bytes a ha
    obtain ⟨gb, gt⟩ := g.bytes a fun l hl => ha l ((h.cores _).1.wcb l (h.curCore ▸ hl))
    exact ⟨gb.trans hb, gt.trans ht⟩
  cores c := ⟨(h.cores c).1.trans (g.cores c).1, fun hc => ((g.cores c).2 (h.curCore ▸ hc)).trans ((h.cores c).2 hc)⟩
  others k hk := (g.others k (h.curThr ▸ hk)).trans (h.others k hk)
  thread th hth := by
    obtain ⟨th₁, h₁, rt₁, p₁, pos₁, rfl⟩ := h.thread th hth
    obtain ⟨th₂, h₂, rt₂, p₂, pos₂, rfl⟩ := g.thread _ (h.curThr ▸ h₁)
    exact ⟨_, h.curThr ▸ h₂, rt₂, p₂, pos₂, rfl⟩

/-- A calm change is what a word that only computes may leave. -/
theorem Calm.quiet {s u : State} (h : Calm s u) : Quiet s u := by
  have pkg : u.pkg = { s.pkg with errs := u.pkg.errs, pending := u.pkg.pending, hv := { s.pkg.hv with pend := u.pkg.hv.pend } } :=
    calc u.pkg = { (sansReads u).pkg with
            errs := u.pkg.errs, pending := u.pkg.pending, hv := { (sansReads u).pkg.hv with pend := u.pkg.hv.pend } } := rfl
      _ = _ := by rw [h.rest]; rfl
  have mem : u.mem = { s.mem with
      cells := u.mem.cells, tags := u.mem.tags, tlb := u.mem.tlb, flaws := u.mem.flaws, poison := u.mem.poison, l2p := u.mem.l2p } :=
    calc u.mem = { (sansReads u).mem with
            cells := u.mem.cells, tags := u.mem.tags, tlb := u.mem.tlb, flaws := u.mem.flaws, poison := u.mem.poison
            l2p := u.mem.l2p } := rfl
      _ = _ := by rw [h.rest]; rfl
  have part : ∀ {α : Type} (f : State → α), f (sansReads u) = f (sansReads s) := fun f => congrArg f h.rest
  refine ⟨pkg, part State.sys, part State.ctxs, part State.launches, part State.nodes, part State.ress, part State.grps,
    part State.lanes, part State.frames, part State.bars, part State.quads, part State.arrs, part State.ctls, part State.pods,
    part State.rays, part State.agenda, mem, h.bytes, h.stack, fun c => ?_, h.others, fun th hth => ?_⟩
  · obtain ⟨⟨eq, wcb⟩, other⟩ := h.cores c
    exact ⟨eq, wcb, other⟩
  · obtain ⟨_, hu, rt, p, pos, rfl⟩ := h.thread th hth
    exact ⟨rt, p, pos, hu⟩

theorem Reports.calm {s u : State} (h : Reports s u) : Calm s u where
  rest := by simp only [sansReads, h.rest]
  stack := h.stack
  bytes a _ := by rw [h.cells, h.tags]; exact ⟨rfl, rfl⟩
  cores c := by
    have e : u.coreD c = s.coreD c := by rw [State.coreD, h.cores]; rfl
    rw [e]
    exact ⟨.refl _, fun _ => rfl⟩
  others k _ := by rw [State.thr?, h.thrs]; rfl
  thread th hth := ⟨th, by rwa [State.thr?, h.thrs], _, _, _, rfl⟩

theorem Calm.refl (s : State) : Calm s s := (Reports.refl s).calm

/-- Reading operands. -/
def Change.reading : Change := ⟨Calm, Calm.refl, Calm.trans⟩

theorem Makes.ofReports {α : Type} {x : X α} {s : State} (h : Makes .reports x s) : Makes .reading x s :=
  ⟨fun e => (h.of_ok e : Reports _ _).calm⟩

/-! ### Calm changes -/

theorem calm_modCore (s : State) {f : Core → Core} (h : CoreCalm (s.coreD s.curCore) (f (s.coreD s.curCore))) :
    Calm s (s.modCore s.curCore f) where
  rest := rfl
  stack _ := rfl
  bytes _ _ := ⟨rfl, rfl⟩
  cores c := by
    by_cases hc : c = s.curCore
    · rw [hc, coreD_modCore]; exact ⟨h, fun n => absurd rfl n⟩
    · rw [coreD_modCore_ne _ _ hc]; exact ⟨.refl _, fun _ => rfl⟩
  others _ _ := rfl
  thread th hth := ⟨th, hth, _, _, _, rfl⟩

theorem calm_modCur (s : State) {f : Thr → Thr} (h : ∀ th, ThrCalm th (f th)) : Calm s (s.modCur f) where
  rest := rfl
  stack _ := rfl
  bytes _ _ := ⟨rfl, rfl⟩
  cores _ := ⟨.refl _, fun _ => rfl⟩
  others k hk := by rw [State.thr?, State.modCur_thrs, alGet_alAdj, if_neg hk]; rfl
  thread th hth := ⟨f th, thr?_modThr s _ f hth, h th⟩

theorem calm_lits (s : State) (r : List Word) : Calm s { s with iss := { s.iss with lits := r } } where
  rest := rfl
  stack _ := rfl
  bytes _ _ := ⟨rfl, rfl⟩
  cores _ := ⟨.refl _, fun _ => rfl⟩
  others _ _ := rfl
  thread th hth := ⟨th, hth, _, _, _, rfl⟩

/-! ### Lines that drain (R121, R136) -/

/-- Memory without what a drained line may change. -/
def sansLines (m : Memory) : Memory := { m with cells := [], tags := [], poison := [], l2p := [], flaws := [] }

theorem sansLines_setTag (m : Memory) (key : Option (BitVec 512)) (la : Nat) : sansLines (setTag m key la) = sansLines m := by
  cases key <;> rfl

theorem sansLines_memWriteMasked (m : Memory) (key : Option (BitVec 512)) (la mask d : Nat) :
    sansLines (memWriteMasked m key la mask d) = sansLines m := by
  unfold memWriteMasked
  dsimp only
  split
  · split
    · rfl
    · rw [sansLines_setTag]; rfl
  · split
    · rfl
    · rw [sansLines_setTag]; rfl

/-- A write leaves every byte outside its line, and the tags there. -/
theorem memWriteMasked_outside (m : Memory) (key : Option (BitVec 512)) {la : Nat} (mask d : Nat) {a : Nat} (h : a < la ∨ la + 64 ≤ a) :
    byteAt (memWriteMasked m key la mask d).cells a = byteAt m.cells a ∧
      alGet (memWriteMasked m key la mask d).tags a = alGet m.tags a := by
  constructor
  · rw [cells_memWriteMasked]
    split
    · rw [byteAt_wrMasked, if_neg (by omega)]
    · rw [byteAt_wrBytes, if_neg (by omega)]
  · rw [alGet_tags_memWriteMasked, if_neg (by omega)]

section
variable (p : Pkg) (die : Nat)

theorem sansLines_drainLines (ls : List WLine) (m : Memory) : sansLines (ls.foldl (drainLine p die) m) = sansLines m := by
  induction ls generalizing m with
  | nil => rfl
  | cons l ls ih =>
    rw [List.foldl_cons, ih, drainLine]
    split
    · exact sansLines_memWriteMasked ..
    · rfl

/-- Lines that drain leave every byte outside them. -/
theorem drainLines_outside {ls : List WLine} {a : Nat} (h : ∀ l ∈ ls, a < l.pa ∨ l.pa + 64 ≤ a) (m : Memory) :
    byteAt (ls.foldl (drainLine p die) m).cells a = byteAt m.cells a ∧ alGet (ls.foldl (drainLine p die) m).tags a = alGet m.tags a := by
  induction ls generalizing m with
  | nil => exact ⟨rfl, rfl⟩
  | cons l ls ih =>
    obtain ⟨hl, hls⟩ := List.forall_mem_cons.1 h
    obtain ⟨hb, ht⟩ := ih hls (drainLine p die m l)
    have one : byteAt (drainLine p die m l).cells a = byteAt m.cells a ∧ alGet (drainLine p die m l).tags a = alGet m.tags a := by
      unfold drainLine
      split
      · exact memWriteMasked_outside m _ _ _ hl
      · exact ⟨rfl, rfl⟩
    exact ⟨hb.trans one.1, ht.trans one.2⟩

end

/-- The memory after lines of a buffer have drained. -/
def drainedMem (s : State) (core : Nat) (p : WLine → Bool) : Memory :=
  ((s.coreD core).wcb.filter p).foldl (drainLine s.pkg (coreDie core)) s.mem

theorem calm_drainedMem (s : State) (p : WLine → Bool) : Calm s { s with mem := drainedMem s s.curCore p } where
  rest := by
    have lines : sansLines (drainedMem s s.curCore p) = sansLines s.mem := sansLines_drainLines ..
    have mem : (sansReads { s with mem := drainedMem s s.curCore p }).mem = (sansReads s).mem :=
      congrArg (fun m : Memory => { m with tlb := [] }) lines
    calc sansReads { s with mem := drainedMem s s.curCore p }
        = { sansReads s with mem := (sansReads { s with mem := drainedMem s s.curCore p }).mem } := rfl
      _ = sansReads s := by rw [mem]
  stack _ := rfl
  bytes a ha := drainLines_outside _ _ (fun l hl => ha l (List.mem_of_mem_filter hl)) _
  cores _ := ⟨.refl _, fun _ => rfl⟩
  others _ _ := rfl
  thread th hth := ⟨th, hth, _, _, _, rfl⟩

/-- The state in which drained lines are written and what lies beyond capacity is reported. -/
def drainReported (s : State) (core : Nat) (p : WLine → Bool) : State :=
  ((s.coreD core).wcb.filter p).foldl (fun s l => s.drainReport core l) { s with mem := drainedMem s core p }

theorem reports_drainReported (s : State) (core : Nat) (p : WLine → Bool) :
    Reports { s with mem := drainedMem s core p } (drainReported s core p) := reports_foldl (fun s l => reports_drainReport s core l) _ _

theorem cells_drainIf (s : State) (core : Nat) (p : WLine → Bool) : (s.drainIf core p).mem.cells = (drainedMem s core p).cells :=
  (reports_drainReported s core p).cells

theorem calm_drainIf (s : State) (p : WLine → Bool) : Calm s (s.drainIf s.curCore p) := by
  have reported := (calm_drainedMem s p).trans (reports_drainReported s s.curCore p).calm
  have emptied : Calm (drainReported s s.curCore p) (s.drainIf s.curCore p) := by
    have h := calm_modCore (drainReported s s.curCore p) (f := fun c => { c with wcb := c.wcb.filter (fun l => !p l) })
      ⟨rfl, fun l hl => List.mem_of_mem_filter hl⟩
    rwa [reported.curCore] at h
  exact reported.trans emptied

theorem calm_underKey (s : State) (ctx la key : Nat) : Calm s (s.underKey s.curCore ctx la key) := by
  unfold State.underKey
  split
  · have drained := calm_drainIf s (·.pa == la)
    refine drained.trans ?_
    have copies := calm_modCore (s.drainIf s.curCore (·.pa == la)) (f := fun c => { c with l1 := c.l1.filter (·.pa != la) })
      ⟨rfl, fun _ h => h⟩
    rwa [drained.curCore] at copies
  · exact .refl s

/-! ### Loads through an L1 (R105, R128) -/

theorem l1Place_core {s : State} {core g : Nat} {c : Core} (h : s.l1Place core = some (g, c)) :
    c = { s.coreD core with l1 := c.l1, tex := c.tex } := by
  unfold State.l1Place at h
  dsimp only at h
  split at h <;> cases h <;> rfl

/-- A line is kept in its core's L1, or nowhere. -/
theorem keepLine_eq (s : State) (core ctx la d : Nat) : s.keepLine core ctx la d = s ∨
    ∃ f l1 tex, s.keepLine core ctx la d = s.modCore core f ∧ f (s.coreD core) = { s.coreD core with l1 := l1, tex := tex } := by
  unfold State.keepLine State.keepL1
  split
  · split
    · rename_i g c hc
      refine .inr ⟨_, ⟨ctx, la, g, BitVec.ofNat 512 d⟩ :: c.l1, c.tex, rfl, ?_⟩
      dsimp only
      rw [l1Place_core hc]
    · exact .inl rfl
  · exact .inr ⟨_, _, _, rfl, rfl⟩

theorem calm_keepLine (s : State) (ctx la d : Nat) : Calm s (s.keepLine s.curCore ctx la d) := by
  obtain e | ⟨f, l1, tex, e, hf⟩ := keepLine_eq s s.curCore ctx la d
  · rw [e]; exact .refl s
  · rw [e]; exact calm_modCore s (by rw [hf]; exact ⟨rfl, fun _ h => h⟩)

theorem makes_loadV {who : Who} {s : State} (hc : who.core = some s.curCore) (cls : ReqClass) (va n : Nat) :
    Makes .reading (loadV who cls va n) s := by
  unfold loadV
  refine makes_bind (makes_translate ..).ofReports fun r t ht => makes_bind (makes_waitOwned ..).ofNone fun _ u hu => ?_
  have here : u.curCore = s.curCore := (ht.trans hu).curCore
  rw [hc, ← here]
  refine makes_bind (makes_modify (calm_underKey ..)) fun _ q hq => makes_get_bind ?_
  dsimp only
  split
  · exact makes_pure _
  · refine makes_bind (makes_homeRead ..).ofReports fun d w hw => makes_ite
      (makes_bind (makes_modify ?_) fun _ _ _ => makes_pure _) (makes_pure _)
    rw [show u.curCore = w.curCore from (hq.trans hw).curCore.symm]
    exact calm_keepLine ..

/-! ### Places of the other spaces -/

theorem makes_checkAccess (p : Space) (va n : Nat) (s : State) : Makes .none (checkAccess p va n) s := by
  refine makes_ite (makes_raise ..) (makes_ite (makes_raise ..) ?_)
  cases p with
  | stk => exact makes_get_bind (makes_ite (makes_pure _) (makes_raise ..))
  | _ => exact makes_pure _

theorem makes_ringPlace (quad : Nat) (launch : Option Nat) (va n : Nat) (s : State) : Makes .none (ringPlace quad launch va n) s := by
  refine makes_bind (makes_get_bind (makes_ite (makes_pure _) (makes_raise ..))) fun r t _ =>
    makes_ite (makes_raise ..) (makes_ite (makes_pure _) (makes_get_bind ?_))
  split
  · exact makes_raise ..
  · exact makes_ite (makes_pure _) (makes_pure _)

theorem makes_locPlace (rid off n addr : Nat) (s : State) : Makes .none (locPlace rid off n addr) s := by
  refine makes_get_bind ?_
  split
  · exact makes_raise ..
  · exact makes_ite (makes_raise ..) (makes_pure _)

theorem makes_frmPlace (th : Thr) (off n : Nat) (s : State) : Makes .none (frmPlace th off n) s := by
  refine makes_get_bind ?_
  dsimp only
  split
  · exact makes_raise ..
  · exact makes_ite (makes_raise ..) (makes_pure _)

/-- Only accumulator memory may have to pass to the context first (R237). -/
theorem makes_curPlace {p : Space} (hp : p ≠ .am) (va n : Nat) (s : State) : Makes .none (curPlace p va n) s := by
  refine makes_get_bind ?_
  cases p with
  | loc => exact makes_ite (makes_locPlace ..) (makes_ite (makes_raise ..) (makes_pure _))
  | rng => exact makes_ringPlace ..
  | am => exact absurd rfl hp
  | frm => exact makes_frmPlace ..
  | _ => exact makes_operand

theorem makes_waitScore (pl : Place) (n : Nat) (load : Bool) (s : State) : Makes .none (waitScore pl n load) s := by
  unfold waitScore
  split
  · exact makes_pure _
  · exact makes_get_bind (makes_ite makes_stallX (makes_pure _))

theorem makes_crossBridge (who : Who) (arr : Nat) (cls : ReqClass) (addr : Nat) (s : State) :
    Makes .none (crossBridge who arr cls addr) s :=
  makes_bind (makes_allow ..) fun _ _ _ => makes_get_bind (makes_ite makes_stallX (makes_pure _))

theorem makes_allowMarrow (who : Who) (cls : ReqClass) (pl : Place) (s : State) : Makes .none (allowMarrow who cls pl) s := by
  unfold allowMarrow
  split
  · exact makes_crossBridge ..
  · exact makes_crossBridge ..
  · exact makes_pure _

theorem makes_spaceLoad {p : Space} (hp : p ≠ .am) (va n : Nat) (s : State) : Makes .reading (spaceLoad p va n) s := by
  refine makes_bind (makes_checkAccess ..).ofNone fun _ t _ => ?_
  have elsewhere : Makes .reading (do
      let pl ← curPlace p va n
      waitScore pl n true
      let s ← get
      allowMarrow s.curWho .read pl
      let s ← get
      pure (pl.st.read s pl.a n, pl.st.poisoned s pl.a n)) t :=
    makes_bind (makes_curPlace hp ..).ofNone fun _ _ _ => makes_bind (makes_waitScore ..).ofNone fun _ _ _ => makes_get_bind
      (makes_bind (makes_allowMarrow ..).ofNone fun _ _ _ => makes_get_bind (makes_pure _))
  cases p with
  | glb | cst | stk => exact makes_get_bind (makes_loadV rfl ..)
  | _ => exact elsewhere

/-! ### Heads of streams (R208) -/

theorem srSpace_ne_am (r : BitVec 256) : srSpace r ≠ .am := by unfold srSpace; split <;> decide

theorem makes_loadElem (r : BitVec 256) (a : Int) (s : State) : Makes .reading (loadElem r a) s :=
  makes_ite (makes_ite (makes_raise ..) (makes_raise ..)) (makes_spaceLoad (srSpace_ne_am r) ..)

theorem makes_needClean (addr : Nat) (v : Nat × Bool) (s : State) : Makes .reading (needClean addr v) s :=
  makes_ite (makes_raise ..) (makes_pure _)

theorem makes_streamElem (recs : AL (BitVec 256)) (r : BitVec 256) (tid i : Nat) (s : State) :
    Makes .reading (streamElem recs r tid i) s := by
  refine makes_ite (makes_raise ..) (makes_bind (makes_ite ?indexed (makes_pure _)) fun a t _ =>
    makes_bind (makes_loadElem ..) fun v u _ => makes_needClean ..)
  exact makes_ite makes_operand (makes_ite (makes_raise ..) (makes_bind (makes_loadElem ..) fun _ _ _ =>
    makes_bind (makes_needClean ..) fun _ _ _ => makes_pure _))

theorem makes_popHead (k : Nat) (s : State) : Makes .reading (popHead k) s := by
  refine makes_get_bind ?_
  split
  · exact makes_operand
  · exact makes_bind (makes_streamElem ..) fun _ t _ => makes_bind (makes_modify (calm_modCur t fun th => ⟨_, _, _, rfl⟩))
      fun _ _ _ => makes_pure _

/-! ### Sources (R323, R324) -/

theorem makes_readReg (i : Nat) (s : State) : Makes .reading (readReg i) s := by
  have noted : ∀ v : Word, Makes .reading (do
      modify (fun s => s.modCur (fun th => { th with rt := { th.rt with linkRead := th.rt.linkRead ++ [i] } }))
      pure v) s :=
    fun v => makes_bind (makes_modify (calm_modCur s fun th => ⟨_, _, _, rfl⟩)) fun _ _ _ => makes_pure _
  refine makes_get_bind (makes_ite makes_stallX (makes_ite (makes_raise ..) (makes_ite (makes_raise ..) ?_)))
  split
  · exact makes_pure _
  · refine makes_ite ?_ (makes_pure _)
    split
    · exact makes_ite (makes_raise ..) (noted _)
    · exact noted _

theorem makes_readQ (k : Nat) (s : State) : Makes .reading (readQ k) s := by
  refine makes_get_bind ?_
  split
  · exact makes_operand
  · split
    · exact makes_pure _
    · exact makes_pure _
    · exact makes_stallX
    · exact makes_raise ..

theorem makes_readLit (s : State) : Makes .reading readLit s := by
  refine makes_get_bind ?_
  split
  · exact makes_operand
  · exact makes_bind ⟨by rintro _ _ ⟨⟩; exact calm_lits s _⟩ fun _ _ _ => makes_pure _

theorem makes_src32 (a : Src) (s : State) : Makes .reading (src32 a) s := by
  cases a with
  | n i => exact makes_readReg ..
  | q k => exact makes_bind (makes_readQ ..) fun _ _ _ => makes_pure _
  | lit => exact makes_readLit s
  | h i => exact makes_bind (makes_popHead ..) fun _ _ _ => makes_pure _
  | zero => exact makes_pure _
  | gw i | tid | iid => exact makes_get_bind (makes_pure _)

theorem makes_src64 (a : Src) (s : State) : Makes .reading (src64 a) s := by
  cases a with
  | n i =>
    exact makes_ite makes_operand (makes_bind (makes_readReg ..) fun _ _ _ => makes_bind (makes_readReg ..) fun _ _ _ => makes_pure _)
  | q k => exact makes_readQ ..
  | gw i => exact makes_get_bind (makes_ite makes_operand (makes_pure _))
  | lit => exact makes_bind (makes_readLit s) fun _ t _ => makes_bind (makes_readLit t) fun _ _ _ => makes_pure _
  | h i => exact makes_popHead ..
  | zero => exact makes_pure _
  | tid | iid => exact makes_get_bind (makes_pure _)

theorem makes_readQuad (b : Src) (s : State) : Makes .reading (readQuad b) s := by
  cases b with
  | n i =>
    exact makes_ite makes_operand (makes_bind (makes_readReg ..) fun _ _ _ => makes_bind (makes_readReg ..) fun _ _ _ =>
      makes_bind (makes_readReg ..) fun _ _ _ => makes_bind (makes_readReg ..) fun _ _ _ => makes_pure _)
  | _ => exact makes_operand

theorem makes_addrOf (p : Space) (a : Src) (s : State) : Makes .reading (addrOf p a) s :=
  makes_ite (makes_bind (makes_src64 ..) fun _ _ _ => makes_pure _) (makes_bind (makes_src32 ..) fun _ _ _ => makes_pure _)

theorem makes_dataOf (w : Width) (b : Src) (s : State) : Makes .reading (dataOf w b) s := by
  cases w with
  | b128 => exact makes_readQuad ..
  | b64 => exact makes_bind (makes_src64 ..) fun _ _ _ => makes_pure _
  | _ => exact makes_bind (makes_src32 ..) fun _ _ _ => makes_pure _

end Sys2Proof.Proofs
end

