-- ==== Sys2Proof/Proofs/StoreFrame.lean ====
section
/-! PROOFS. The frame of memory and of the storages beside it (R100, R101, R105, R121, R132, R180, R195, R379): what a store puts into its
core's buffer or writes, and what a read and an atomic operation do at a home. -/
namespace Sys2Proof.Proofs
open Sys2Proof.Machine Sys2Proof.Laws

theorem checkAccess_ok {p : Space} {va n : Nat} {s : State} (hva : wideSpace p = true → va < 2 ^ 55) (hn : va % n = 0)
    (hs : p = .stk → s.cur.stkl.toNat ≤ va ∧ va + n ≤ s.cur.stkb.toNat) : checkAccess p va n s = .ok () s := by
  unfold checkAccess
  rw [if_neg fun c => absurd (hva c.1) (Nat.not_lt.2 c.2), if_neg (not_not.2 hn)]
  cases p with
  | stk => simp only [get_bind, if_pos (hs rfl), pure_run]
  | _ => rfl

theorem waitOwned_ok {s : State} {pa : Nat} (h : ownedLine s pa = false) : waitOwned pa s = .ok () s := by
  simp only [waitOwned, get_bind, h, Bool.false_eq_true, if_false, pure_run]

/-! ### Stores through the buffer (R105, R121) -/

/-- The bytes of a store put into its core's buffer. -/
def buffered (core ctx pa key n v : Nat) (s : State) : State := s.modCore core (fun c =>
  wcbPut c ctx (lineOf pa) key ((2 ^ n - 1) * 2 ^ (pa % 64)) (v % 256 ^ n * 256 ^ (pa % 64)))

section
variable {who : Who} {core va n v pa key cp ca : Nat} {s q : State} (hc : who.core = some core)
  (ht : Machine.translate who .write va s = .ok (pa, key, cp, ca) q) (ho : ownedLine q pa = false)
  (hr : reach who .write pa ca q = .ok () q)
include hc ht ho hr

/-- A store drains its core's buffer first where it starts a line of which the buffer has no room, and puts its bytes there. -/
theorem storeV_buffers : storeV who va n v s =
    let u := q.underKey core who.ctx (lineOf pa) key
    let wcb := (u.coreD core).wcb
    .ok () (buffered core who.ctx pa key n v
      (if !wcb.any (fun l => l.ctx == who.ctx && l.pa == lineOf pa) && decide (wcb.length ≥ 64) then u.drainCore core else u)) := by
  rw [storeV, bind_ok ht]
  dsimp only
  rw [bind_ok (waitOwned_ok ho), hc]
  dsimp only
  rw [bind_ok hr, modify_bind, get_bind]
  rfl

theorem storeV_with_room (h : let wcb := ((q.underKey core who.ctx (lineOf pa) key).coreD core).wcb
      wcb.length < 64 ∨ wcb.any (fun l => l.ctx == who.ctx && l.pa == lineOf pa) = true) :
    storeV who va n v s = .ok () (buffered core who.ctx pa key n v (q.underKey core who.ctx (lineOf pa) key)) := by
  rw [storeV_buffers hc ht ho hr]
  dsimp only at h ⊢
  rw [if_neg]
  obtain h | h := h
  · simp [h]
  · simp [h]

theorem storeV_without_room (h : let wcb := ((q.underKey core who.ctx (lineOf pa) key).coreD core).wcb
      ¬ (wcb.length < 64 ∨ wcb.any (fun l => l.ctx == who.ctx && l.pa == lineOf pa) = true)) :
    storeV who va n v s =
      .ok () (buffered core who.ctx pa key n v ((q.underKey core who.ctx (lineOf pa) key).drainCore core)) := by
  rw [storeV_buffers hc ht ho hr]
  dsimp only at h ⊢
  obtain ⟨full, fresh⟩ := not_or.1 h
  rw [if_pos]
  simp [eq_false_of_ne_true fresh, Nat.not_lt.1 full]

end

/-- R121: an access under a key id changes no byte but those of its line, where the core has buffered some under another id. -/
theorem byteAt_underKey (s : State) (core ctx : Nat) {la key c : Nat} (h : c < la ∨ la + 64 ≤ c ∨
    ∀ l ∈ (s.coreD core).wcb, l.ctx = ctx → l.pa = la → l.key = key) :
    byteAt (s.underKey core ctx la key).mem.cells c = byteAt s.mem.cells c := by
  unfold State.underKey
  split
  · rename_i other
    obtain ⟨l, hl, hk⟩ := List.any_eq_true.1 other
    have outside : c < la ∨ la + 64 ≤ c := by
      rcases h with h | h | h
      · exact .inl h
      · exact .inr h
      · simp only [Bool.and_eq_true, beq_iff_eq, bne_iff_ne] at hk
        exact absurd (h l hl hk.1.1 hk.1.2) hk.2
    rw [State.modCore_mem, cells_drainIf]
    refine (drainLines_outside _ _ (fun l hl => ?_) _).1
    rwa [beq_iff_eq.1 (List.mem_filter.1 hl).2]
  · rfl

theorem spaceStore_memory {p : Space} {va n : Nat} {s : State} (hva : va < 2 ^ 55) (hn : va % n = 0)
    (hp : p = .glb ∨ (p = .stk ∧ s.cur.stkl.toNat ≤ va ∧ va + n ≤ s.cur.stkb.toNat)) (v : Nat) :
    spaceStore p va n v s = storeV s.curWho va n v s := by
  have ok : checkAccess p va n s = .ok () s := by
    refine checkAccess_ok (fun _ => hva) hn fun h => ?_
    obtain hp | ⟨-, hs⟩ := hp
    · rw [h] at hp; cases hp
    · exact hs
  unfold spaceStore
  rw [bind_ok ok]
  obtain rfl | ⟨rfl, -⟩ := hp <;> rfl

/-! ### Stores to the other storages (R180, R195, R379) -/

theorem ofNat_mod_div {x n i : Nat} (h : i < n) : BitVec.ofNat 8 (x % 256 ^ n / 256 ^ i) = BitVec.ofNat 8 (x / 256 ^ i) := by
  obtain ⟨k, rfl⟩ : ∃ k, n = i + (k + 1) := ⟨n - i - 1, by omega⟩
  apply BitVec.eq_of_toNat_eq
  simp only [BitVec.toNat_ofNat]
  rw [Nat.pow_add, Nat.mod_mul_right_div_self]
  exact Nat.mod_mod_of_dvd _ ⟨256 ^ k, Nat.pow_succ'⟩

/-- The state has the storage: a residency or a frame is listed, an SRAM is that of a control core or a Root engine. -/
def Stands (s : State) : Store → Prop
  | .spare r => (s.res? r).isSome
  | .frame f => (alGet s.frames f).isSome
  | .sram c => 512 ≤ c
  | .pool _ | .ring _ | .am _ _ => True

theorem write_sram (s : State) (a n v c : Nat) : (Store.sram c).write s a n v =
    if isRoot c then s.modStack (c - 544) (fun k => { k with sram := wrBytes k.sram a n v })
    else s.modCtl (c - 512) (fun k => { k with sram := wrBytes k.sram a n v }) := rfl

theorem write_mem (s : State) (a n v : Nat) (st : Store) : (st.write s a n v).mem = s.mem := by
  cases st with
  | sram c => rw [write_sram]; split <;> rfl
  | _ => rfl
theorem write_thrs (s : State) (a n v : Nat) (st : Store) : (st.write s a n v).thrs = s.thrs := by
  cases st with
  | sram c => rw [write_sram]; split <;> rfl
  | _ => rfl

@[simp] theorem ctlD_modCtl (s : State) (k : Nat) (f : Ctl → Ctl) : (s.modCtl k f).ctlD k = f (s.ctlD k) := alGetD_alMod_same ..
theorem ctlD_modCtl_ne (s : State) {k j : Nat} (f : Ctl → Ctl) (h : j ≠ k) : (s.modCtl k f).ctlD j = s.ctlD j := alGetD_alMod_ne _ _ _ h
theorem arrD_modArr_ne (s : State) {k j : Nat} (f : Arr → Arr) (h : j ≠ k) : (s.modArr k f).arrD j = s.arrD j := alGetD_alMod_ne _ _ _ h
theorem res?_modRes (s : State) (k j : Nat) (f : Res → Res) :
    (s.modRes k f).res? j = if j = k then (s.res? j).map f else s.res? j := alGet_alAdj ..
theorem alGet_modFrame (s : State) (k j : Nat) (f : Frame → Frame) :
    alGet (s.modFrame k f).frames j = if j = k then (alGet s.frames j).map f else alGet s.frames j := alGet_alAdj ..

/-- A write to a storage that stands writes its own bytes there. -/
theorem byte_write_same {s : State} {st : Store} (h : Stands s st) (a n v c : Nat) : st.byte (st.write s a n v) c =
    if a ≤ c ∧ c < a + n then BitVec.ofNat 8 (v / 256 ^ (c - a)) else st.byte s c := by
  cases st with
  | pool k => simp only [Store.byte, Store.write, coreD_modCore, byteAt_wrBytes]
  | spare k =>
    obtain ⟨r, hr⟩ := Option.isSome_iff_exists.1 h
    simp only [Store.byte, Store.write, res?_modRes, if_true, hr, Option.map_some, byteAt_wrBytes]
  | sram k =>
    by_cases root : isRoot k = true
    · simp only [Store.byte, Store.write, root, if_true, stackD_modStack, byteAt_wrBytes]
    · simp only [Store.byte, Store.write, root, Bool.false_eq_true, if_false, ctlD_modCtl, byteAt_wrBytes]
  | ring k => simp only [Store.byte, Store.write, arrD_modArr, byteAt_wrBytes]
  | am k ctx => simp only [Store.byte, Store.write, arrD_modArr, alGetD_alMod_same, byteAt_wrBytes]
  | frame k =>
    obtain ⟨fr, hfr⟩ := Option.isSome_iff_exists.1 h
    simp only [Store.byte, Store.write, alGet_modFrame, if_true, hfr, Option.map_some, byteAt_wrBytes]

/-- A write to a storage leaves every byte of another. -/
theorem byte_write_ne {s : State} {st o : Store} (h : Stands s st) (ho : ∀ k, o = .sram k → 512 ≤ k) (hne : o ≠ st) (a n v c : Nat) :
    o.byte (st.write s a n v) c = o.byte s c := by
  cases st with
  | pool k =>
    cases o with
    | pool j =>
      have hj : j ≠ k := fun e => hne (congrArg _ e)
      simp only [Store.byte, Store.write, coreD_modCore_ne _ _ hj]
    | _ => rfl
  | spare k =>
    cases o with
    | spare j =>
      have hj : j ≠ k := fun e => hne (congrArg _ e)
      simp only [Store.byte, Store.write, res?_modRes, if_neg hj]
    | _ => rfl
  | sram k =>
    cases o with
    | sram j =>
      have hj : j ≠ k := fun e => hne (congrArg _ e)
      have hk : 512 ≤ k := h
      have h512 : 512 ≤ j := ho j rfl
      have root : ∀ i, isRoot i = true → 544 ≤ i := fun i h => of_decide_eq_true h
      by_cases rk : isRoot k = true <;> by_cases rj : isRoot j = true <;>
        simp only [Store.byte, Store.write, rk, rj, if_true, if_false, Bool.false_eq_true]
      · rw [stackD_modStack_ne _ _ (by have := root k rk; have := root j rj; omega)]
      · rfl
      · rfl
      · rw [ctlD_modCtl_ne _ _ (by omega)]
    | _ => rw [write_sram]; split <;> rfl
  | ring k =>
    cases o with
    | ring j =>
      have hj : j ≠ k := fun e => hne (congrArg _ e)
      simp only [Store.byte, Store.write, arrD_modArr_ne _ _ hj]
    | am j ctx =>
      by_cases hj : j = k
      · simp only [Store.byte, Store.write, hj, arrD_modArr]
      · simp only [Store.byte, Store.write, arrD_modArr_ne _ _ hj]
    | _ => rfl
  | am k ctx =>
    cases o with
    | ring j =>
      by_cases hj : j = k
      · simp only [Store.byte, Store.write, hj, arrD_modArr]
      · simp only [Store.byte, Store.write, arrD_modArr_ne _ _ hj]
    | am j ctx' =>
      by_cases hj : j = k
      · have hc : ctx' ≠ ctx := fun e => hne (by rw [hj, e])
        simp only [Store.byte, Store.write, hj, arrD_modArr, alGetD_alMod_ne _ _ _ hc]
      · simp only [Store.byte, Store.write, arrD_modArr_ne _ _ hj]
    | _ => rfl
  | frame k =>
    cases o with
    | frame j =>
      have hj : j ≠ k := fun e => hne (congrArg _ e)
      simp only [Store.byte, Store.write, alGet_modFrame, if_neg hj]
    | _ => rfl

/-- R4: a write of the low n bytes of a number to a storage that stands changes those bytes of all storages alone. -/
theorem byte_write {s : State} {st o : Store} (h : Stands s st) (ho : ∀ k, o = .sram k → 512 ≤ k) (a n x c : Nat) :
    o.byte (st.write s a n (x % 256 ^ n)) c =
      if o = st ∧ a ≤ c ∧ c < a + n then BitVec.ofNat 8 (x / 256 ^ (c - a)) else o.byte s c := by
  by_cases e : o = st
  · rw [e, byte_write_same h]
    by_cases hc : a ≤ c ∧ c < a + n
    · rw [if_pos hc, if_pos ⟨rfl, hc⟩, ofNat_mod_div (by omega)]
    · rw [if_neg hc, if_neg fun g => hc g.2]
  · rw [if_neg fun g => e g.1]
    exact byte_write_ne h ho e a n _ c

/-! ### Where an address lies (R100, R180, R195) -/

/-- An action that gives a place gives one of a storage that stands. -/
def GivesStanding (x : X Place) (s : State) : Prop := ∀ {pl t}, x s = .ok pl t → Stands t pl.st

theorem alGet_isSome_of_mem {α : Type} {l : AL α} {e : Nat × α} (h : e ∈ l) : (alGet l e.1).isSome := by
  induction l with
  | nil => cases h
  | cons a l ih =>
    unfold alGet
    split
    · rfl
    · exact ih ((List.mem_cons.1 h).resolve_left fun c => ‹¬ _› (by rw [c]))

theorem stands_ringPlace (quad : Nat) (launch : Option Nat) (va n : Nat) (s : State) : GivesStanding (ringPlace quad launch va n) s := by
  intro pl t h
  obtain ⟨r, u, -, h⟩ := of_bind_ok h
  dsimp only at h
  split at h
  · cases h
  split at h
  · cases h; trivial
  rw [get_bind] at h
  cases hres : ringRes u quad r with
  | none => simp only [hres] at h; cases h
  | some e =>
    simp only [hres] at h
    split at h <;> cases h
    · exact alGet_isSome_of_mem (List.mem_of_find?_eq_some hres)
    · trivial

theorem stands_curPlace {p : Space} (hp : p = .loc ∨ p = .rng ∨ p = .am ∨ p = .frm) (va n : Nat) (s : State) :
    GivesStanding (curPlace p va n) s := by
  intro pl t h
  unfold curPlace at h
  rw [get_bind] at h
  obtain rfl | rfl | rfl | rfl := hp <;> dsimp only at h
  · split at h
    · unfold locPlace at h
      rw [get_bind] at h
      cases hres : s.res? s.curGrp.res with
      | none => simp only [hres] at h; cases h
      | some r =>
        simp only [hres] at h
        split at h <;> cases h
        trivial
    · rename_i chard
      split at h <;> cases h
      exact Nat.not_lt.1 fun c => chard (decide_eq_true c)
  · exact stands_ringPlace _ _ _ _ _ h
  · unfold amPlace at h
    rw [get_bind] at h
    split at h
    · cases h
    · rw [set_bind] at h
      cases h
      trivial
  · unfold frmPlace at h
    rw [get_bind] at h
    cases hf : (if va / 2 ^ 31 = 1 then s.cur.id.parent else s.cur.frame) with
    | none => simp only [hf] at h; cases h
    | some f =>
      simp only [hf] at h
      split at h
      · cases h
      · rename_i listed
        cases h
        exact Option.isSome_iff_ne_none.2 fun c => listed (.inr (Option.isNone_iff_eq_none.2 c))

/-- R237: a place is found without a change, unless accumulator memory has to pass to the context. -/
theorem curPlace_keeps {p : Space} {va n : Nat} {s t : State} {pl : Place} (h : curPlace p va n s = .ok pl t)
    (hp : p ≠ .am ∨ (s.arrD (coreQuad s.curCore)).owner = some s.cur.id.ctx) : t = s := by
  by_cases am : p = .am
  · subst am
    have owned := hp.resolve_left fun n => n rfl
    unfold curPlace at h
    rw [get_bind] at h
    dsimp only at h
    unfold amPlace at h
    rw [get_bind] at h
    split at h
    · cases h
    · rw [set_bind, State.amOwn, if_pos owned] at h
      cases h
      rfl
  · exact (makes_curPlace am va n s).of_ok h

theorem spaceStore_local {p : Space} {va n : Nat} {s q : State} {pl : Place} (hp : p = .loc ∨ p = .rng ∨ p = .am ∨ p = .frm)
    (hn : va % n = 0) (hpl : curPlace p va n s = .ok pl q) (hw : waitScore pl n false q = .ok () q)
    (ha : allowMarrow q.curWho .write pl q = .ok () q) (v : Nat) :
    spaceStore p va n v s = .ok () (pl.st.write q pl.a n (v % 256 ^ n)) := by
  have ok : checkAccess p va n s = .ok () s :=
    checkAccess_ok (fun h => by obtain rfl | rfl | rfl | rfl := hp <;> cases h) hn
      fun h => by obtain rfl | rfl | rfl | rfl := hp <;> cases h
  have run : (do
      let pl ← curPlace p va n
      waitScore pl n false
      let s ← get
      allowMarrow s.curWho .write pl
      modify (fun s => pl.st.write s pl.a n (v % 256 ^ n)) : X Unit) s = .ok () (pl.st.write q pl.a n (v % 256 ^ n)) := by
    rw [bind_ok hpl, bind_ok hw, get_bind, bind_ok ha, modify_run]
  unfold spaceStore
  rw [bind_ok ok]
  obtain rfl | rfl | rfl | rfl := hp <;> exact run

/-! ### Reads and atomic operations at a home (R105, R132) -/

theorem mergeBytes_no_mask (n new old : Nat) : mergeBytes n 0 new old = old % 256 ^ n := by
  induction n generalizing new old with
  | zero => rw [mergeBytes, Nat.pow_zero, Nat.mod_one]
  | succ n ih =>
    rw [mergeBytes, if_neg (by decide), Nat.zero_div, ih, Nat.pow_succ', Nat.mod_mul]

theorem rdBytes_lt (m : AL Byte) (a n : Nat) : rdBytes m a n < 256 ^ n := by
  induction n generalizing a with
  | zero => exact Nat.one_pos
  | succ n ih =>
    have low := (byteAt m a).isLt
    have high := ih (a + 1)
    rw [rdBytes, Nat.pow_succ']
    omega

theorem memRead_lt (m : Memory) (key : Option (BitVec 512)) (pa n : Nat) : memRead m key pa n < 256 ^ n := by
  unfold memRead
  split
  · exact rdBytes_lt ..
  · exact Nat.mod_lt _ (Nat.pow_pos (by decide))

theorem lineOf_lineOf (pa : Nat) : lineOf (lineOf pa) = lineOf pa := by unfold lineOf; omega

theorem underKey_unbuffered {s : State} {core la : Nat} (h : (s.coreD core).wcb.any (·.pa == la) = false) (ctx key : Nat) :
    s.underKey core ctx la key = s := by
  have none : ¬ (s.coreD core).wcb.any (fun l => l.ctx == ctx && l.pa == la && l.key != key) = true := fun c => by
    obtain ⟨l, hl, hk⟩ := List.any_eq_true.1 c
    simp only [Bool.and_eq_true] at hk
    exact absurd hk.1.2 (List.any_eq_false.1 h l hl)
  rw [State.underKey, if_neg none]

theorem wcbFind_unbuffered {c : Core} {la : Nat} (h : c.wcb.any (·.pa == la) = false) (ctx : Nat) : wcbFind c ctx la = (0, 0) := by
  have none : c.wcb.find? (fun l => l.ctx == ctx && l.pa == la) = .none := List.find?_eq_none.2 fun l hl hk => by
    simp only [Bool.and_eq_true] at hk
    exact absurd hk.2 (List.any_eq_false.1 h l hl)
  rw [wcbFind, none]

/-- Nothing to report where nothing stands in the line (R27). -/
theorem meetX_sound {s : State} {la : Nat} (h : Sound s.mem la) (who : Who) : meetX who la s = .ok () s := by
  obtain ⟨hf, hp⟩ := h
  have sound : ((alGet s.mem.flaws la).isNone && !s.mem.poison.contains la) = true := by simp [hf, hp]
  rw [meetX, get_bind, if_pos sound, pure_run]

theorem poison_contains_sound {m : Memory} {la : Nat} (h : Sound m la) : m.poison.contains la = false := by simp [h.2]

theorem homeRead_sound {who : Who} {cls : ReqClass} {pa ca : Nat} {s : State} (hr : reach who cls pa ca s = .ok () s)
    (hc : inCapacity s.mem pa = true) (h : Sound s.mem (lineOf pa)) (key n : Nat) :
    homeRead who cls pa ca key n s = .ok (memRead s.mem (keyMat s.mem key) pa n, false) s := by
  rw [homeRead, bind_ok hr, get_bind, if_pos hc, bind_ok (meetX_sound h who), get_bind, poison_contains_sound h, pure_run]

theorem keepLine_mem (s : State) (core ctx la d : Nat) : (s.keepLine core ctx la d).mem = s.mem := by
  obtain e | ⟨f, l1, tex, e, -⟩ := keepLine_eq s core ctx la d <;> rw [e]
  rfl
theorem keepLine_thrs (s : State) (core ctx la d : Nat) : (s.keepLine core ctx la d).thrs = s.thrs := by
  obtain e | ⟨f, l1, tex, e, -⟩ := keepLine_eq s core ctx la d <;> rw [e]
  rfl

section
variable {who : Who} {core va n pa key cp ca : Nat} {s q : State} (hc : who.core = some core) (ho : ownedLine q pa = false)
  (hw : (q.coreD core).wcb.any (·.pa == lineOf pa) = false) (hs : Sound q.mem (lineOf pa))
include hc ho hw hs

/-- A read of a line that no cache of the core holds gives the home's bytes and changes none. -/
theorem loadV_home (ht : Machine.translate who .read va s = .ok (pa, key, cp, ca) q)
    (hr : reach who .read (lineOf pa) (ca / 64 * 64) q = .ok () q) (hcap : inCapacity q.mem (lineOf pa) = true)
    (hl : l1Find (q.coreD core) who.ctx (lineOf pa) = none) : ∃ t, loadV who .read va n s =
      .ok (memRead q.mem (keyMat q.mem key) (lineOf pa) 64 / 256 ^ (pa % 64) % 256 ^ n, false) t ∧ t.mem = q.mem ∧ t.thrs = q.thrs := by
  have read := homeRead_sound hr hcap (by rwa [lineOf_lineOf]) key 64
  unfold loadV
  rw [bind_ok ht]
  dsimp only
  rw [bind_ok (waitOwned_ok ho), hc]
  dsimp only
  rw [modify_bind, underKey_unbuffered hw, get_bind]
  simp only [hl, ite_self]
  rw [bind_ok read]
  simp only [wcbFind_unbuffered hw, mergeBytes_no_mask, Nat.mod_eq_of_lt (memRead_lt ..)]
  split
  · exact ⟨_, rfl, keepLine_mem .., keepLine_thrs ..⟩
  · exact ⟨_, rfl, rfl, rfl⟩

/-- R132: an atomic operation reads and writes its own bytes at the home. -/
theorem atomV_home (ht : Machine.translate who .atomic va s = .ok (pa, key, cp, ca) q)
    (hr : reach who .atomic pa ca q = .ok () q) (hcap : inCapacity q.mem pa = true) (f : Nat → Nat) :
    let k := keyMat q.mem key
    ∃ t, atomV who va n f s = .ok (memRead q.mem k pa n, false) t ∧
      t.mem = memWrite q.mem k pa n (f (memRead q.mem k pa n)) ∧ t.thrs = q.thrs := by
  unfold atomV
  rw [bind_ok ht]
  dsimp only
  rw [bind_ok (waitOwned_ok ho), bind_ok hr, hc]
  dsimp only
  rw [modify_bind, if_neg (by rw [hw]; decide), get_bind]
  obtain ⟨u, hu, mem, thrs⟩ : ∃ u, q.modCore core (fun c => { c with l1 := c.l1.filter (·.pa != lineOf pa) }) = u ∧
    u.mem = q.mem ∧ u.thrs = q.thrs := ⟨_, rfl, rfl, rfl⟩
  rw [hu, if_neg (by simp [mem, hcap]), bind_ok (meetX_sound (by rwa [mem]) who), get_bind,
    if_neg (by rw [mem, poison_contains_sound hs]; decide), ← mem]
  exact ⟨_, rfl, rfl, thrs⟩

end

/-- Settles O49: what reads the operands is calm, what a store does is `storeV_buffers` or `spaceStore_local`, and `byteAt_underKey` and
`byte_write` say which bytes that changes; reads and atomic operations are `loadV_home` and `atomV_home`. -/
theorem storeFrame : Obligations.StoreFrame := by
  unfold Obligations.StoreFrame
  refine ⟨fun hd a b p w st u v va x hf ha hv => ⟨?quiet, ?store⟩, ?home⟩
  case quiet => exact (Calm.trans ((makes_addrOf p a st).of_ok ha) ((makes_dataOf w b u).of_ok hv)).quiet
  case store =>
    intro hn n
    refine ⟨?memory, fun pl q hp hpl hw hm => ?other⟩
    case memory =>
      intro pa key cp ca q hva hp ht ho hr core ctx t wcb room put
      have run := spaceStore_memory hva hn hp x
      have cells : q.mem.cells = v.mem.cells := Reports.cells ((makes_translate ..).of_ok ht)
      exact ⟨fun h => exec_st hf ha hv (run.trans (storeV_with_room rfl ht ho hr h)),
        fun h => exec_st hf ha hv (run.trans (storeV_without_room rfl ht ho hr h)),
        fun c h => (byteAt_underKey q core ctx h).trans (by rw [cells])⟩
    case other =>
      exact ⟨curPlace_keeps hpl, _, exec_st hf ha hv (spaceStore_local hp hn hpl hw hm x), write_mem .., write_thrs ..,
        fun o c ho => byte_write (stands_curPlace hp va n v hpl) ho _ _ _ _⟩
  case home =>
    intro who core va n pa key cp ca s q hc ho hw hp hfl k
    exact ⟨loadV_home hc ho hw ⟨hfl, hp⟩, fun f ht hr hcap => atomV_home hc ho hw ⟨hfl, hp⟩ ht hr hcap f⟩

end Sys2Proof.Proofs
end

