-- ==== Sys2Proof/Proofs/EngineEvents.lean ====
section
/-! PROOFS. The events of the engines: copies (R203, R423 to R426), matrix operations (R220 to R234) and frames between packages (R149,
R150). -/
namespace Sys2Proof.Proofs
open Sys2Proof.Machine Sys2Proof.Laws

/-! ### Copies (R203, R423 to R426) -/

section
variable {s : State} {quad op : Nat} {o : CopyOp} (hf : s.isFrozen (copyMid quad) = false)
include hf

theorem copyStart_starts (h : (s.quadD quad).copyq.find? (fun o => !o.started) = some o) :
    exec (.copyStart quad) s = .next (s.modCopy quad o.id (fun o => { o with started := true })) := by
  show Host.Outcome.next (s.startCopy quad) = _
  simp only [State.startCopy, hf, h, Bool.false_eq_true, if_false]

theorem copyNamed_of_thawed (h : (s.quadD quad).copyq.find? (fun o => o.id == op && o.started) = some o) :
    copyNamed s quad op = some o := by
  simp only [copyNamed, hf, h, Bool.false_eq_true, if_false]

end

/-- No line of the operation is on its way, and none is left that the port gave up. -/
theorem no_frame {s : State} {op : Nat} (hp : ∀ p ∈ s.pods, p.op ≠ op) :
    s.pods.any (·.op == op) = false ∧ s.pods.find? (fun p => p.op == op && p.failed) = none :=
  ⟨List.any_eq_false.2 fun p hm => by simp [hp p hm], List.find?_eq_none.2 fun p hm => by simp [hp p hm]⟩

section
variable {s t : State} {quad op : Nat} {o : CopyOp} (hn : copyNamed s quad op = some o)
include hn

section
variable (hp : ∀ p ∈ s.pods, p.op ≠ op)
include hp

theorem copyComplete_done (h : s.doCopy quad o = (t, .done)) :
    exec (.copyComplete quad op) s = .next ((t.signalCopy quad o).dropCopy quad o) := by
  show Host.Outcome.next (s.completeCopy quad op) = _
  simp only [State.completeCopy, hn, no_frame hp, h, Bool.false_eq_true, if_false]

theorem copyComplete_sent (h : s.doCopy quad o = (t, .sent)) : exec (.copyComplete quad op) s = .next t := by
  show Host.Outcome.next (s.completeCopy quad op) = _
  simp only [State.completeCopy, hn, no_frame hp, h, Bool.false_eq_true, if_false]

theorem copyEngineError_fails {f : FaultInfo} (h : s.doCopy quad o = (t, .failed f)) :
    exec (.copyEngineError quad op) s = .next (t.copyError quad o f) := by
  show Host.Outcome.next (s.failCopy quad op) = _
  simp only [State.failCopy, hn, no_frame hp, h, Bool.false_eq_true, if_false]

end

/-- R149, R426: a line that the port gave up while the engine was frozen fails its copy now. -/
theorem copyEngineError_lineLost {p : PodFrame} (h : s.pods.find? (fun p => p.op == op && p.failed) = some p) :
    exec (.copyEngineError quad op) s = .next (s.lineLost o p) := by
  show Host.Outcome.next (s.failCopy quad op) = _
  simp only [State.failCopy, hn, h]

/-- R149, R426: a line that cannot be delivered fails its copy at once where the engine runs. -/
theorem podFrameRetransmit_lineLost {frame : Nat} {p : PodFrame} (h : s.pods.find? (fun p => p.id == frame) = some p)
    (hq : p.quad = quad) (ho : p.op = op) : exec (.podFrameRetransmit frame false) s = .next (s.lineLost o p) := by
  subst hq ho
  show Host.Outcome.next (s.undelivered frame) = _
  simp only [State.undelivered, h, hn]

end

/-! ### Matrix operations (R220 to R234) -/

section
variable {s : State} {arr : Nat} {o : MOp} (hf : s.isFrozen (arrMid arr) = false)
include hf

section
variable (hp : pickOp s arr = some o)
include hp

/-- R222: an operation whose descriptor and rings are in order is served from now on. -/
theorem matrixChunkServe_accepts (h0 : o.stage = 0) (h : opCheck s o = 0) :
    exec (.matrixChunkServe arr) s = .next (s.modOp o.id (fun o => { o with stage := 1 })) := by
  show Host.Outcome.next (s.serveChunk arr) = _
  simp only [State.serveChunk, hf, hp, h0, h, Bool.false_eq_true, if_false, if_true]

theorem matrixChunkServe_rejects (h0 : o.stage = 0) (h : opCheck s o ≠ 0) :
    exec (.matrixChunkServe arr) s = .next (s.failOp o.id (opCheck s o)) := by
  obtain ⟨err, hr⟩ := Nat.exists_eq_succ_of_ne_zero h
  show Host.Outcome.next (s.serveChunk arr) = _
  simp only [State.serveChunk, hf, hp, h0, hr, Bool.false_eq_true, if_false, if_true]

theorem matrixChunkServe_idle (h0 : o.stage ≠ 0) (h : o.subM arr = 0 ∨ o.subN arr = 0) :
    exec (.matrixChunkServe arr) s = .next (s.modEntry arr o.id (fun o => { o with stage := 2, chunk := o.chunks })) := by
  have idle : o.idleAt arr = true := by simpa [MOp.idleAt] using h
  show Host.Outcome.next (s.serveChunk arr) = _
  simp only [State.serveChunk, hf, hp, h0, idle, Bool.false_eq_true, if_false, if_true]

/-- R225 to R228: a member with work serves a chunk in its own cells and AM, or ends its operation there. -/
theorem matrixChunkServe_chunk (h0 : o.stage ≠ 0) (hM : o.subM arr ≠ 0) (hN : o.subN arr ≠ 0) {t : State}
    (ht : ((s.cellsTo arr o).amOwn arr o.ctx).amOwn o.quad o.ctx = t) :
    let v := t.modEntry arr o.id (fun _ => runChunk t o arr)
    exec (.matrixChunkServe arr) s = .next (
      if ringLost t o then t.failOp o.id 6
      else if chunkPoison t o then t.endAtChunk o 4
      else if o.opc = 1 then t.modEntry arr o.id (fun _ => runConv t o arr)
      else if chunkBadScale t o then t.endAtChunk o 1
      else if v.lowChunk o > t.lowChunk o ∧ o.fv = false then v.releaseChunk o (t.lowChunk o) else v) := by
  have works : o.idleAt arr = false := by simp [MOp.idleAt, hM, hN]
  show Host.Outcome.next (s.serveChunk arr) = _
  simp only [State.serveChunk, hf, hp, h0, works, ht, Bool.false_eq_true, if_false, Bool.and_eq_true, decide_eq_true_eq, Bool.not_eq_true']

end

/-- R229 to R233: the tile drains into the home's AM, by the operation as the home holds it. -/
theorem matrixDrain_settles {o0 : MOp}
    (h0 : (s.arrD arr).q.find? (fun o => o.stage == 2 && !opHalted s o && (s.entries o.id).all (fun e => e.stage == 2)) = some o0)
    (h : (s.arrD o0.quad).q.find? (fun e => e.id == o0.id) = some o) :
    let t := s.amOwn o.quad o.ctx
    let tile := tileFx t o
    let d := drainVals (s.ctxD o.ctx) o tile
    let norm := normOf d.vals
    exec (.matrixDrain arr) s = .next ((t.modArr o.quad (fun a => { a with
      am := alMod a.am o.ctx [] (drainWrite (s.ctxD o.ctx) o d norm)
      amPoison := alMod a.amPoison o.ctx [] (drainClears (s.ctxD o.ctx) o) })).settleOp o norm.1
        (opStatus o (s.entries o0.id) tile d) (normTrips o (t.cregD o.quad o.creg).ref norm.1)) := by
  show Host.Outcome.next (s.drainOp arr) = _
  simp only [State.drainOp, hf, h0, h, Option.getD_some, Bool.false_eq_true, if_false]

theorem matrixOpComplete_merges (h : (s.arrD arr).q.find? (fun o => o.stage == 3 && !opHalted s o) = some o) :
    exec (.matrixOpComplete arr) s = .next ((s.dropOp o.id).modCreg o.quad o.creg (fun r => r.complete o.seq (some o.status))) := by
  show Host.Outcome.next (s.finishOp arr) = _
  simp only [State.finishOp, hf, h, Bool.false_eq_true, if_false]

end

/-! ### Frames between packages (R149, R150) -/

section
variable {s : State} {port pa : Nat} {mask : BitVec 64} {line : Line} (hp : port ≤ 8) (hf : s.isFrozen (podMid port) = false)
include hp hf

theorem podFrameReceive_guard : (decide (port > 8) || s.isFrozen (podMid port)) = false := by
  simp [hf, Nat.not_lt.2 hp]

theorem podFrameReceive_ack :
    exec (.podFrameReceive port pa mask line .ack) s = .next { s with pods := s.pods.filter (fun p => p.failed || p.id != pa) } := by
  show execPodFrameReceive port pa mask line .ack s = _
  simp only [execPodFrameReceive, podFrameReceive_guard hp hf, beq_self_eq_true, Bool.false_eq_true, if_false, if_true]

variable {k : PodKind} (hk : k ≠ .ack)
include hk

/-- R115: the placed window is not for other packages. -/
theorem podFrameReceive_placed (ha : pa < 2 ^ 49) :
    exec (.podFrameReceive port pa mask line k) s = .next (s.refuse (podMid port) (16 * 1024) .write pa 1 255) := by
  have direct : ¬ pa ≥ 2 ^ 50 := by omega
  show execPodFrameReceive port pa mask line k s = _
  simp only [execPodFrameReceive, podFrameReceive_guard hp hf, beq_eq_false_iff_ne.2 hk, direct, Nat.div_eq_of_lt ha, Bool.false_eq_true,
    if_false, if_true]

/-- R149, R150: a line is acknowledged once it has taken effect, and only then. -/
theorem podFrameReceive_line (ha : pa / 2 ^ 49 = 1) {t : State} {taken : Bool}
    (h : s.podLine port pa mask line (k == .poisoned) = (t, taken)) : exec (.podFrameReceive port pa mask line k) s =
      .next (if taken then { t with pkg := { t.pkg with outbox := t.pkg.outbox ++ [(podAck, bytesOf 8 pa)] } } else t) := by
  have direct : ¬ pa ≥ 2 ^ 50 := by omega
  show execPodFrameReceive port pa mask line k s = _
  simp only [execPodFrameReceive, podFrameReceive_guard hp hf, beq_eq_false_iff_ne.2 hk, direct, ha, Nat.one_ne_zero, h,
    Bool.false_eq_true, if_false]
  cases taken <;> rfl

end

section
variable {s : State} {port pa : Nat} {mask : BitVec 64} {line : Line} {poison : Bool}

theorem podLine_refused {why e : Nat}
    (h : accCheck (s.table (endpointOf (lineOf pa))) (podMid port) .write (lineOf pa) = some (why, e)) :
    s.podLine port pa mask line poison = (s.refuse (podMid port) (endpointOf (lineOf pa)) .write (lineOf pa) why e, false) := by
  simp only [State.podLine, h]

/-- R149, R426: the bytes that the mask names take effect whole, poisoned where their source was. -/
theorem podLine_taken (h : accCheck (s.table (endpointOf (lineOf pa))) (podMid port) .write (lineOf pa) = none)
    (hc : inCapacity s.mem (lineOf pa) = true) (hl : fencedOff s.pkg 16 (paStack (lineOf pa)) = false) :
    let m := memWriteMasked s.mem (keyMat s.mem 0) (lineOf pa) mask.toNat line.toNat
    s.podLine port pa mask line poison =
      ({ s with mem := if poison then { m with poison := lineOf pa :: m.poison } else m }, true) := by
  simp only [State.podLine, h, hc, hl, Bool.not_true, Bool.false_eq_true, if_false]

end

/-! ### The obligation -/

/-- Settles O44: a copy goes by what `doCopy` comes to, its frames by `lineLost`; a matrix operation by the checks of `serveChunk` in their
order; a line from another package by `podLine`. -/
theorem engineEvents : Obligations.EngineEvents := by
  intro s quad op arr
  refine ⟨fun hf => ⟨fun o => copyStart_starts hf, fun o h => ?copy⟩, fun frame => rfl, fun hf => ⟨fun o hp => ?serve,
    fun o0 o => matrixDrain_settles hf, fun o => matrixOpComplete_merges hf⟩, fun port pa mask line hp hf => ⟨podFrameReceive_ack hp hf,
    fun k hk => ⟨podFrameReceive_placed hp hf hk, fun ha => ⟨fun why e h => ?refused, fun h hc hl => ?taken⟩⟩⟩⟩
  case copy =>
    have hn := copyNamed_of_thawed hf h
    exact ⟨fun hp => ⟨fun t => copyComplete_done hn hp, fun t => copyComplete_sent hn hp⟩,
      fun hp t f => copyEngineError_fails hn hp, fun p => copyEngineError_lineLost hn, fun frame p => podFrameRetransmit_lineLost hn⟩
  case serve =>
    refine ⟨matrixChunkServe_accepts hf hp, matrixChunkServe_rejects hf hp, matrixChunkServe_idle hf hp, fun h0 hM hN => ?_⟩
    have chunk := matrixChunkServe_chunk hf hp h0 hM hN rfl
    refine ⟨fun lost => ?_, fun held poison => ?_, fun held sound => ⟨fun conv => ?_, fun mul bad => ?_, fun mul good => ?_⟩⟩
    · rw [chunk, if_pos lost]
    · simp only [chunk, held, poison, Bool.false_eq_true, if_false, if_true]
    · simp only [chunk, held, sound, conv, Bool.false_eq_true, if_false, if_true]
    · simp only [chunk, held, sound, mul, bad, Bool.false_eq_true, if_false, if_true]
    · simp only [chunk, held, sound, mul, good, Bool.false_eq_true, if_false]
  case refused => exact podFrameReceive_line hp hf hk ha (podLine_refused h)
  case taken => simpa only [beq_iff_eq, podAck, if_true] using podFrameReceive_line hp hf hk ha (podLine_taken h hc hl)

end Sys2Proof.Proofs
end

