-- ==== Sys2Proof/Proofs/SlotWords.lean ====
section
/-! PROOFS. The words of a slot that stand outside the pipes: COMMIT, REJ, NOP and the prefixes (R162, R169, R318, R326 to R330). -/
namespace Sys2Proof.Proofs
open Sys2Proof.Machine Sys2Proof.Laws

/-- A pair of a COMMIT captured for run end. -/
def captured (s : State) (e : QEnt) (d : Nat) (wide : Bool) : State :=
  s.modCur (fun th => { th with rt := { th.rt with commits := th.rt.commits ++ [⟨e, d, wide⟩] } })

theorem cur_modCur {s : State} {th : Thr} (h : s.thr? s.iss.thr = some th) (f : Thr → Thr) : (s.modCur f).cur = f s.cur := by
  simp only [State.cur, h, Option.getD_some]
  exact congrArg (·.getD .absent) (thr?_modThr s _ f h)

/-- R162: a pair of a COMMIT whose thread maps no register captures the entry that its age names. -/
theorem commitPair_captures {s : State} {k : Nat} {e : QEnt} (hl : s.cur.link = none) (he : s.cur.rt.q[k]? = some e)
    (hn : e.st ≠ .notWritten) (d : Nat) (wide : Bool) : commitPair k d wide s = .ok () (captured s e d wide) := by
  have written : (e.st == .notWritten) = false := by simpa using hn
  simp only [commitPair, get_bind, he, hl, Bool.or_false, Bool.and_false, written, Bool.false_eq_true, if_false, modify_run]
  rfl

section
variable {g : Guard} {st : State} {a b : Fin 16} {n m : Fin 32} {w x : Bool} {e f : QEnt} (hf : Fires g st)
  (hl : st.cur.link = none) (he : st.cur.rt.q[a.val]? = some e) (hn : e.st ≠ .notWritten)
include hf hl he hn

theorem exec_commit_one : exec (.commit g a n w b m x false) st = .next (captured st e n.val w) := by
  refine runWord_ok hf (u := ()) ?_
  rw [bind_ok (commitPair_captures hl he hn n.val w)]
  rfl

theorem exec_commit_two {th : Thr} (ht : st.thr? st.iss.thr = some th) (hq : st.cur.rt.q[b.val]? = some f)
    (hm : f.st ≠ .notWritten) :
    exec (.commit g a n w b m x true) st = .next (captured (captured st e n.val w) f m.val x) := by
  refine runWord_ok hf (u := ()) ?_
  have cur : (captured st e n.val w).cur = _ := cur_modCur ht _
  rw [bind_ok (commitPair_captures hl he hn n.val w), if_pos rfl]
  exact commitPair_captures (by rw [cur]; exact hl) (by rw [cur]; exact hq) hm _ _

end

/-- Settles O32: a pair is captured by `commitPair_captures`; REJ, NOP and the prefixes are their effects. -/
theorem slotWords : Obligations.SlotWords := by
  intro g st
  refine ⟨fun hf => ⟨fun d => runWord_ok hf (u := ()) rfl, fun a n w b m x e f hl he hn => ⟨exec_commit_one hf hl he hn,
    fun th ht hq hm => exec_commit_two hf hl he hn ht hq hm⟩⟩, rfl, fun _ _ _ _ _ => rfl, fun _ _ _ _ _ _ _ => rfl⟩

end Sys2Proof.Proofs
end

