-- ==== Sys2Proof/Proofs/RunEnds.lean ====
section
/-! PROOFS. The run-end kinds (R161, R164, R188 to R190, R330, R399 to R402): what a K word settles for its thread, and the run that ends
with the last thread's issue. -/
namespace Sys2Proof.Proofs
open Sys2Proof.Machine Sys2Proof.Laws

/-- What the K word at hand comes to for a thread of st: its part is settled, and the run ends if the thread is the last (R164). -/
def settles (st s : State) (k : KKind) : Out :=
  .next (if st.iss.last then (s.settledK k).runEnd st.iss.lane else s.settledK k)

/-- The kind that a K word comes to for its thread: NEXT where its guard is false (R161). -/
def kindOf (g : Guard) (x : X KKind) (st : State) : X KKind :=
  if guardOf g st.cur then onCtl (pure .next) x else pure .next

section
variable {g : Guard} {st s : State} {x : X KKind} {k : KKind}

theorem kindOf_fires (hf : Fires g st) (h : x st = .ok k s) : kindOf g x st st = .ok k s := by
  have true_guard : guardOf g st.cur = true := hf
  rw [kindOf, if_pos true_guard, onCtl_ok h]

theorem kindOf_off (hf : ¬ Fires g st) : kindOf g x st st = .ok .next st := by
  have false_guard : ¬ guardOf g st.cur = true := hf
  rw [kindOf, if_neg false_guard]
  rfl

/-- R164: a K word settles the kind that it comes to. -/
theorem runK_settles (hc : st.iss.chained = false) (hs : s.iss.stalled = false) (h : kindOf g x st st = .ok k s) :
    runK g x st = settles st s k := by
  have run : applyX (kindOf g x st >>= fun k =>
      modify (fun s => s.modCur (fun th => { th with rt := { th.rt with k := some (s.iss.word, k) } }))) st = s.settledK k :=
    applyX_ok (bind_ok h)
  have going : (s.settledK k).iss.stalled = false := hs
  unfold runK
  unfold kindOf at run
  simp only [run, hc, going, Bool.not_false, Bool.and_true]
  rfl

end

/-! ### Targets (R188 to R190, R330, R399) -/

theorem branchTo_ok {t : Int} {pc : Nat} (h : t = pc) (hpc : pc < 2 ^ 55) (s : State) : branchTo t s = .ok pc s := by
  have inside : ¬ (t < 0 ∨ t ≥ 2 ^ 55) := by omega
  rw [branchTo, if_neg inside, h]
  rfl

theorem registerTarget_ok {v : Nat} (hv : v < 2 ^ 55) (ha : v % 12 = 0) (s : State) : registerTarget v s = .ok v s := by
  rw [registerTarget, if_neg (by omega), if_neg (by omega)]
  rfl

/-- R189: a CALL pushes its link record below the frame of the caller. -/
theorem callTo_ok {pc fsz : Nat} {u v w s : State} (hz : frameSize pc u = .ok fsz v)
    (hb : v.cur.atK.stkl.toNat + fsz ≤ v.cur.atK.sp.toNat)
    (hr : stkStore v.cur.atK (v.cur.atK.sp.toNat - fsz) v.afterRun v = .ok () w)
    (hf : stkStore v.cur.atK (v.cur.atK.sp.toNat - fsz + 8) fsz w = .ok () s) :
    callTo pc u = .ok (.frame (v.cur.atK.sp.toNat - fsz) (pc + 12)) s := by
  rw [callTo, bind_ok hz, get_bind, if_neg (by omega), bind_ok hr, bind_ok hf]
  rfl

/-- R190: RET pops it. -/
theorem retTo_ok {ra fsz : Nat} {st u s : State} (hb : st.cur.atK.sp.toNat + 16 ≤ st.cur.atK.stkb.toNat)
    (hr : stkLoad st.cur.atK st.cur.atK.sp.toNat st = .ok ra u)
    (hz : stkLoad st.cur.atK (st.cur.atK.sp.toNat + 8) u = .ok fsz s)
    (ht : st.cur.atK.sp.toNat + fsz ≤ st.cur.atK.stkb.toNat) (hs : fsz % 16 = 0) (ha : ra % 12 = 0) :
    retTo st = .ok (.frame (st.cur.atK.sp.toNat + fsz) ra) s := by
  rw [retTo, get_bind, if_neg (by omega), bind_ok hr, bind_ok hz, if_neg (by omega), if_neg (by omega)]
  rfl

/-- Settles O33: `runK_fires` and `runK_off` say what a kind settles, the lemmas on targets what its checks give. -/
theorem runEnds : Obligations.RunEnds := by
  intro g a st s hc hs res pk
  have fires := fun (hf : Fires g st) {x : X KKind} {k} (h : x st = .ok k s) => runK_settles hc hs (kindOf_fires hf h)
  refine ⟨fun hf hst d => ?off, fun hf => ⟨fun hst => ⟨?next, ?exit, ?await, fun d pc hpc h55 => ⟨?bra, ?reform⟩⟩, fun x hx h55 ha => ?brx,
    fun x hx hl => ?reformK, fun pc fsz u v w hz hb hr hfz => ⟨fun d hu hpc h55 => ?call, fun x hx hpc h55 ha => ?callx⟩,
    fun ra fsz u hb hr hz ht h16 ha => ?ret, fun r hi h0 h1 hr => ?iret⟩⟩
  case off =>
    subst hst
    have off := fun x => runK_settles (x := x) hc hs (kindOf_off hf)
    simp only [List.forall_mem_cons]
    exact ⟨off _, off _, off _, off _, off _, off _, off _, off _, off _, off _, off _, fun _ hi => absurd hi List.not_mem_nil⟩
  case next => subst hst; exact fires hf rfl
  case exit => subst hst; exact fires hf rfl
  case await => subst hst; exact fun hl => fires hf (bind_ok hl)
  case bra => subst hst; exact fires hf (bind_ok (branchTo_ok hpc h55 s))
  case reform => subst hst; exact fun hl => fires hf ((bind_ok (branchTo_ok hpc h55 s)).trans (bind_ok hl))
  case brx => exact fires hf ((bind_ok hx).trans (bind_ok (registerTarget_ok h55 ha s)))
  case reformK => exact fires hf ((bind_ok hx).trans (bind_ok hl))
  case call => subst hu; exact fires hf ((bind_ok (branchTo_ok hpc h55 u)).trans (callTo_ok hz hb hr hfz))
  case callx =>
    subst hpc
    exact fires hf ((bind_ok hx).trans ((bind_ok (registerTarget_ok h55 ha u)).trans (callTo_ok hz hb hr hfz)))
  case ret => exact fires hf (retTo_ok hb hr hz ht h16 ha)
  case iret =>
    obtain ⟨p0, u0, o0⟩ := h0
    obtain ⟨p1, u1, o1⟩ := h1
    refine fires hf ?_
    rw [get_bind, if_neg (by simp [hi]), if_neg (by simp [p0, p1]), if_neg (by simp [u0, u1])]
    refine (congrFun (if_neg (by simp [o0, o1])) st).trans ?_
    simp only [hr]

end Sys2Proof.Proofs
end

