-- ==== Sys2Proof/Proofs/SystemWords.lean ====
section
/-! PROOFS. The words of SYS that any core may run (R155, R403 to R405, R407): RDS reads, WRS, TRAP, SLEEP and HALT are held for run end. -/
namespace Sys2Proof.Proofs
open Sys2Proof.Machine Sys2Proof.Laws

/-- A WRS held for run end (step 2 of Table 7.5). -/
def heldWrs (s : State) (k : Nat) (v : DWord) : State :=
  s.modCur (fun th => { th with rt := { th.rt with wrs := th.rt.wrs ++ [(k, v)] } })

theorem setWidth_eq_dw (v : Word) : v.setWidth 64 = dw v.toNat := by
  apply BitVec.eq_of_toNat_eq
  simp [dw]

section
variable {hd : Hd} {a : Src} {k : Fin 32} {st s : State} {v : DWord} (hf : Fires hd.gd st)
include hf

/-- R404: RDS of a core that is not Root reads the special register. -/
theorem exec_rds (hr : isRoot st.curCore = false) (h : readSpecial k.val st = .ok v s) :
    exec (.rds hd k) st = .next (s.pushed v) := by
  refine runWord_ok hf (u := ()) ?_
  rw [get_bind, if_neg (by simp [hr]), bind_ok h]
  rfl

/-- R404: on Root WIDTH reads 1 and every other number 0. -/
theorem exec_rds_root (hr : isRoot st.curCore = true) :
    exec (.rds hd k) st = .next (st.pushed (if k.val = 0 then 1 else 0)) := by
  refine runWord_ok hf (u := ()) ?_
  rw [get_bind, if_pos hr]
  rfl

/-- R404: a WRS of 64 bits that Table 7.2 lets any core make. -/
theorem exec_wrs_wide (h : src64 a st = .ok v s) (hk : k.val = 8 ∨ k.val = 18) :
    exec (.wrs hd a k) st = .next (heldWrs s k.val v) := by
  refine runWord_ok hf (u := ()) ?_
  rw [get_bind]
  obtain hk | hk := hk <;> rw [hk] <;> exact bind_ok h

theorem exec_wrs_flags {w : Word} (h : src32 a st = .ok w s) :
    exec (.wrs hd a 9) st = .next (heldWrs s 9 (w.setWidth 64)) := by
  rw [setWidth_eq_dw]
  exact runWord_ok hf (u := ()) (bind_ok h)

/-- R155: a new SP is a multiple of 16 within the stack. -/
theorem exec_wrs_sp (h : src64 a st = .ok v s) (h16 : v.toNat % 16 = 0) (hl : st.cur.stkl.toNat ≤ v.toNat)
    (hb : v.toNat ≤ st.cur.stkb.toNat) : exec (.wrs hd a 10) st = .next (heldWrs s 10 v) := by
  refine runWord_ok hf (u := ()) ((bind_ok h).trans ?_)
  rw [if_neg (by omega)]
  rfl

/-- R404: TRAPV is protected on Chard cores alone. -/
theorem exec_wrs_trapv (h : src64 a st = .ok v s) (hc : isChard st.curCore = false) :
    exec (.wrs hd a 16) st = .next (heldWrs s 16 v) := by
  refine runWord_ok hf (u := ()) ?_
  refine (congrFun (if_neg (by simp [hc])) st).trans (bind_ok h)

theorem exec_trap (h : src64 a st = .ok v s) : exec (.trap hd a) st = .next (s.modCur (fun th =>
    { th with rt := { th.rt with trap := some (s.iss.word, v) } })) := runWord_ok hf (u := ()) (bind_ok h)

/-- R407: SLEEP 0 completes at once; another waits from run end. -/
theorem exec_sleep {w : Word} (h : src32 a st = .ok w s) :
    exec (.sleep hd a) st = .next (if w = 0 then s else s.waits (.sleep w.toNat none)) := by
  refine runWord_ok hf (u := ()) ((bind_ok h).trans ?_)
  have zero : w.toNat = 0 ↔ w = 0 := by rw [← BitVec.toNat_inj]; rfl
  simp only [zero]
  split <;> rfl

end

/-- Settles O30: each register of Table 7.2 is what `readSpecial` gives for its number. -/
theorem systemWords : Obligations.SystemWords := by
  intro hd a st s hf core th rds
  have reads := fun (hr : isRoot core = false) {k : Fin 32} {v : DWord} => exec_rds (k := k) (s := st) (v := v) hf hr
  refine ⟨fun hr => ⟨reads hr ?width, reads hr rfl, reads hr rfl, reads hr rfl, reads hr rfl, fun hc => reads hr ?tile, reads hr rfl,
      reads hr rfl, reads hr rfl, reads hr rfl, reads hr rfl, reads hr rfl, reads hr rfl, fun hn => reads hr ?frame, reads hr rfl,
      reads hr rfl, reads hr rfl, reads hr rfl, reads hr rfl, fun hc => reads hr ?clock⟩,
    fun hr => ⟨exec_rds_root hf hr, exec_rds_root hf hr⟩,
    ⟨fun v h => exec_wrs_flags hf h, fun v h => ⟨exec_wrs_wide hf h (.inl rfl), exec_wrs_wide hf h (.inr rfl), exec_wrs_sp hf h,
      exec_wrs_trapv hf h, exec_trap hf h⟩⟩,
    fun v h => ⟨fun hz => ?asleep, fun hz => ?awake⟩, runWord_ok hf (u := ()) rfl⟩
  case width => rfl
  case tile => exact (ite_run ..).trans (if_pos hc)
  case frame =>
    show (pure (dw (match th.frame with | some f => _ | none => 0)) : X DWord) st = _
    rw [hn]
    rfl
  case clock => exact (ite_run ..).trans (if_pos hc)
  case asleep => rw [exec_sleep hf h, if_pos hz]
  case awake => rw [exec_sleep hf h, if_neg hz]

end Sys2Proof.Proofs
end

