-- ==== Sys2Proof/Proofs/EdgeWords.lean ====
section
/-! PROOFS. The edge words (R178 to R181, R389 to R397): what each leaves at issue, given what its operands read. -/
namespace Sys2Proof.Proofs
open Sys2Proof.Machine Sys2Proof.Laws

/-- The record of a SPAWN's child: it runs at the target with the arguments, its parent's frame counts it. -/
def spawnChild (w : State) (f : Nat) (fr : Frame) (pc : Nat) (args : List Word) : Thr :=
  .start ⟨w.cur.id.launch, w.cur.id.ctx, dw fr.next, w.cur.id.role, false, some f⟩ pc args 0 0

/-- The state in which a SPAWN's child waits to be filed: the core's buffer has drained, the frame has counted it (R178, R181). -/
def withChild (w : State) (f : Nat) (child : Thr) : State :=
  let x := (({ w with fresh := w.fresh + 1 } : State).drainCore w.curCore).modFrame f
    (fun fr => { fr with out := fr.out + 1, next := fr.next + 1 })
  { x with thrs := alSet x.thrs w.fresh child }

theorem alignX_ok {va n : Nat} (hva : va < 2 ^ 55) (hn : va % n = 0) (s : State) : alignX va n s = .ok () s := by
  rw [alignX, if_neg (by omega), if_neg (by omega), pure_run]

section
variable {hd : Hd} {a b : Src} {st u s : State} (hf : Fires hd.gd st)
include hf

/-! ### SPAWN, TRIG, PUB (R389 to R392) -/

/-- R181, R390: SPAWN files its child into the bin of its target. -/
theorem exec_spawn {v w y : State} {t : DWord} {args : List Word} {f l bin : Nat} {fr : Frame} (ht : src64 a st = .ok t u)
    (ha : argRegs b 0 8 u = .ok args v) (h12 : t.toNat % 12 = 0) (hn : needFrame v = .ok f w) (hfr : alGet w.frames f = some fr)
    (out : fr.out < 2 ^ 20) (room : w.partRoom fr.ctx (coreTile w.curCore) recBytes = true) (hl : w.cur.id.launch = some l)
    (filed : (withChild w f (spawnChild w f fr t.toNat args)).file w.curCore .spawn l t.toNat t.toNat (.thr w.fresh) = some (bin, y)) :
    exec (.spawn hd a b) st =
      .next ((y.modThr w.fresh (fun th => { th with loc := .filed w.curCore bin })).makeWay w.curCore fr.ctx w.fresh) := by
  have fits : ¬ (decide (fr.out ≥ maxChildren) || !w.partRoom fr.ctx (coreTile w.curCore) recBytes) = true := by
    simpa [room, maxChildren] using out
  have placed : (withChild w f (spawnChild w f fr t.toNat args)).file w.curCore .spawn (w.cur.id.launch.getD 0) t.toNat t.toNat
      (.thr w.fresh) = some (bin, y) := by rw [hl]; exact filed
  refine runWord_ok hf (u := ()) ?_
  rw [bind_ok ht, bind_ok ha, if_neg (not_not.2 h12), bind_ok hn, get_bind]
  simp only [hfr]
  rw [if_neg fits, bind_ok (show freshX w = .ok w.fresh { w with fresh := w.fresh + 1 } from rfl), modify_bind, get_bind]
  unfold withChild spawnChild at placed
  dsimp only at placed ⊢
  rw [placed]
  rfl

/-- R391: TRIG, after its thread's source action. -/
theorem exec_trig : exec (.trig hd) st = .next (
    let t := (st.drainCore st.curCore).modCur (fun th => { th with trig := true })
    match t.cur.id.launch with
    | some l => t.modLaunch l (fun la => { la with trigs := true })
    | none => t) := runWord_ok hf (u := ()) rfl

/-- R392: an item publishes at run end. -/
theorem exec_pub (hi : st.cur.id.item = true) :
    exec (.pub hd) st = .next (st.modCur (fun th => { th with rt := { th.rt with pub := true } })) := by
  refine runWord_ok hf (u := ()) ?_
  rw [get_bind, if_pos hi, modify_run]

/-! ### BAR (R393) -/

section
variable {x y : Word} {l : Fin 8} (hr : ReadsRaw a b st x y s)
include hr

theorem exec_bar_none (hl : l.val = 0) : exec (.bar hd a b l) st = .next s := by
  obtain ⟨t, hx, hy⟩ := hr
  refine runWord_ok hf (u := ()) ?_
  rw [bind_ok hx, bind_ok hy, if_neg (by omega), if_pos hl, pure_run]

theorem exec_bar_unit (h1 : 1 ≤ l.val) (h5 : l.val ≤ 5) : exec (.bar hd a b l) st = .next (s.waits (.bar l.val 0 0)) := by
  obtain ⟨t, hx, hy⟩ := hr
  refine runWord_ok hf (u := ()) ?_
  rw [bind_ok hx, bind_ok hy, if_neg (by omega), if_neg (by omega), if_neg (by omega), addWait_run]

theorem exec_bar_pod (hl : l.val = 6) (hx16 : x.toNat < 2 ^ 16) (h1 : 1 ≤ y.toNat) (h64 : y.toNat ≤ 64) :
    exec (.bar hd a b l) st = .next (s.waits (.bar 6 x.toNat y.toNat)) := by
  obtain ⟨t, hx, hy⟩ := hr
  refine runWord_ok hf (u := ()) ?_
  rw [bind_ok hx, bind_ok hy, if_neg (by omega), if_neg (by omega), if_pos hl, if_neg (by omega), addWait_run]

end

/-! ### POST and PICK (R93, R394, R395) -/

section
variable {n : Fin 8} {x : Word} {ws : List Word} {la : Launch} (hx : src32 a st = .ok x u)
  (hw : argRegs b 0 (n.val + 1) u = .ok ws s) (hla : s.curLaunch = some la) (h12 : x.toNat < 4096)
include hx hw hla h12

/-- A POST to a list is held for the end of its slot. -/
theorem exec_post_list : exec (.post hd a b false n) st =
    .next ((s.drainCore s.curCore).modRun (fun r => { r with posts := r.posts ++ [(x.toNat, ws)] })) := by
  refine runWord_ok hf (u := ()) ?_
  rw [bind_ok hx, bind_ok hw, get_bind]
  simp only [hla]
  rw [if_neg (by omega)]
  rfl

/-- A POST to a node files its record, which takes its IID there. -/
theorem exec_post_node {nl bin : Nat} {k : Launch} {y : State} (hn : nodeOf s la x.toNat = some nl) (hk : s.launch? nl = some k)
    (hd' : (s.drainCore s.curCore).launch? nl = some k) (hc : k.nrec = n.val + 1)
    (filed : (s.drainCore s.curCore).file (s.drainCore s.curCore).curCore .node nl k.nodeId 0
      (.record ws (dw (recIid k (s.drainCore s.curCore).curCore))) = some (bin, y)) :
    exec (.post hd a b true n) st =
      .next (y.modLaunch nl (fun la => { la with iidNext := alMod la.iidNext (s.drainCore s.curCore).curCore 0 (· + 1) })) := by
  refine runWord_ok hf (u := ()) ?_
  rw [bind_ok hx, bind_ok hw, get_bind]
  simp only [hla, hn, hk, hc, ne_eq, not_true_eq_false, if_true, if_false]
  rw [if_neg (by omega), postNode, modify_bind, get_bind]
  simp only [hd', filed]
  rfl

end

section
variable {n : Fin 8} {x : Word} {l : Nat} (hx : src32 a st = .ok x s) (hl : s.cur.id.launch = some l) (h12 : x.toNat < 4096)
include hx hl h12

/-- PICK finds no record of its list on its tile. -/
theorem exec_pick_none (hp : takeRecord s s.curCore l x.toNat = none) :
    exec (.pick hd a n) st = .next ((s.pushedAll (recEnts [] (n.val + 1))).pushed 0) := by
  refine runWord_ok hf (u := ()) ?_
  rw [bind_ok hx, get_bind]
  simp only [hl]
  rw [if_neg (by omega)]
  simp only [hp]
  rw [bind_ok (forX_push _ s), push64_run]

/-- PICK takes a record; of another core's it is the target of the edge. -/
theorem exec_pick_some {c : Nat} {ws : List Word} {t : State} (hp : takeRecord s s.curCore l x.toNat = some (c, ws, t)) :
    exec (.pick hd a n) st = .next (((if c = s.curCore then t else t.invalidate s.curCore s.cur.id.ctx).pushedAll
      (recEnts ws (n.val + 1))).pushed 1) := by
  refine runWord_ok hf (u := ()) ?_
  rw [bind_ok hx, get_bind]
  simp only [hl]
  rw [if_neg (by omega)]
  simp only [hp]
  rw [set_bind, bind_ok (forX_push ..), push64_run]

end

/-! ### QWAIT and NODE (R396, R397) -/

/-- R396: QWAIT's word is checked as a read is. -/
theorem exec_qwait {nz : Bool} {x : DWord} {r : Nat × Nat × Nat × Nat} (hx : src64 a st = .ok x u) (hva : x.toNat < 2 ^ 55)
    (h8 : x.toNat % 8 = 0) (ht : translate u.curWho .read x.toNat u = .ok r s) :
    exec (.qwait hd a nz) st = .next (s.waits (.word x.toNat nz)) := by
  refine runWord_ok hf (u := ()) ?_
  rw [bind_ok hx, bind_ok (alignX_ok hva h8 u), get_bind, bind_ok ht, addWait_run]

section
variable {x : Word} {la : Launch} {nl : Nat} (first : FirstOfSet st) (hx : src32 a st = .ok x s) (hla : s.curLaunch = some la)
  (hn : nodeOf s la x.toNat = some nl)
include first hx hla hn

/-- NODE.cnt counts the node's records on its core. -/
theorem exec_node_count : exec (.node hd a true) st =
    .next (s.onceDone st.iss.word [⟨dw (nodeCount (s.coreD s.curCore) nl), .full⟩]) := by
  refine runWord_ok hf (onceX_first first ?_)
  rw [bind_ok hx, get_bind]
  simp only [hla, hn, if_true, pure_run]

/-- NODE.flush seals the node's open bin on its core, where it has one. -/
theorem exec_node_flush : exec (.node hd a false) st = .next ((match findBin (s.coreD s.curCore) .node nl x.toNat with
    | some e => s.sealBin s.curCore e.1
    | none => s).onceDone st.iss.word []) := by
  refine runWord_ok hf (onceX_first first ?_)
  rw [bind_ok hx, get_bind]
  simp only [hla, hn, Bool.false_eq_true, if_false]
  cases findBin (s.coreD s.curCore) .node nl x.toNat <;> rfl

end
end

/-- Settles O25: each word is what its operands give it, run through. -/
theorem edgeWords : Obligations.EdgeWords := by
  intro hd a b st u s hf
  refine ⟨fun v w t args f fr ht ha h12 hn hfr out room l bin y hl hy =>
      exec_spawn hf ht ha h12 hn hfr out room hl hy,
    exec_trig hf, exec_pub hf,
    fun x y l hr => ⟨exec_bar_none hf hr, exec_bar_unit hf hr, exec_bar_pod hf hr⟩,
    fun n x ws l la hx hw hl hla h12 => ⟨exec_post_list hf hx hw hla h12,
      fun nl bin k y hn hk hd' hc filed => exec_post_node hf hx hw hla h12 hn hk hd' hc filed⟩,
    fun n x l hx hl h12 => ⟨exec_pick_none hf hx hl h12, fun c ws t => exec_pick_some hf hx hl h12⟩,
    fun nz x r hx hva h8 ht => exec_qwait hf hx hva h8 ht,
    fun x la nl first hx hla hn => ⟨exec_node_count hf first hx hla hn, fun none => ?_, fun e some => ?_⟩⟩
  · rw [exec_node_flush hf first hx hla hn, none]
  · rw [exec_node_flush hf first hx hla hn, some]

end Sys2Proof.Proofs
end

