-- ==== Sys2Proof/Proofs/StepWord.lean ====
section
/-! PROOFS. A lane's issue (R157, R164, R318, R319, R321): the word at hand as the only item of its slot, the issue of that item, and what
a run that starts consists of. -/
namespace Sys2Proof.Proofs
open Sys2Proof.Machine Sys2Proof.Laws

/-! ### A word on its own (R321, R325, R332) -/

theorem bit_toNat (w : Word) (i : Nat) : bit w.toNat i = w.getLsbD i := by
  rw [bit, BitVec.getLsbD, Nat.testBit_eq_decide_div_mod_eq]
  rfl

/-- The item of a word with neither NS nor ND before it that opens no chain. -/
def loneItem (ws : List Word) (k : Nat) (w : Word) (i : Instr) : Item :=
  ⟨k, [], k, w, i, (ws.drop (k + 1)).take (Instr.lits i), k + 1 + Instr.lits i⟩

theorem slotAt_lone {ws : List Word} {k : Nat} {w : Word} {i : Instr} (hw : ws[k]? = some w) (hi : decodeWord w = .ok i)
    (h31 : w.getLsbD 31 = false) (hx : fld w.toNat 30 25 ≠ 0x3F) (f : Nat) : slotAt ws (f + 1) k = [loneItem ws k w i] := by
  have at_ : instrAt ws k = some i := by simp only [instrAt, hw, hi]
  have word : ws.getD k 0 = w := by rw [List.getD_eq_getElem?_getD, hw, Option.getD_some]
  have item : itemAt ws k 3 k [] = some (loneItem ws k w i) := by
    simp only [itemAt, at_, word, opOf, if_neg hx]
    rfl
  have closed : ¬ bit w.toNat 31 = true := by rw [bit_toNat, h31]; decide
  simp only [slotAt, item]
  exact if_neg closed

/-- The state in which the word at hand means what it does for a thread of its lane's set. -/
def atWord (s : State) (lane g tid t word : Nat) (last : Bool) (w : Word) (lits : List Word) : State :=
  { s with iss := { issueFor lane g tid t with
      last := last, word := word, instr := w, lits := lits, q0 := (s.thr? t).elim [] (fun th => th.rt.q) } }

/-- R157: the issue of a word on its own is the word's meaning, then the set's bookkeeping. -/
theorem issueLane_lone {ex : Meaning} {s u : State} {lane tid t : Nat} {tids : List Nat} {r : Run} {g : Grp} {w : Word} {i : Instr}
    (hr : (s.laneD lane).run = some r) (ht : r.todo = tid :: tids) (hg : s.grp? r.grp = some g) (hm : alGet g.mem tid = some t)
    (hs : r.slot = [loneItem r.words r.wi w i])
    (hu : ex i (atWord s lane r.grp tid t r.wi tids.isEmpty w ((r.words.drop (r.wi + 1)).take (Instr.lits i))) = .next u)
    (going : u.iss.stalled = false) (sound : u.iss.faulted = none) :
    issueLane ex lane s = .next (u.issued lane r.grp tid r.slot) := by
  have item : issueItem ex (loneItem r.words r.wi w i) false ((s.thr? t).elim [] (fun th => th.rt.q))
      { s with iss := { issueFor lane r.grp tid t with last := tids.isEmpty } } = (u, none) := congrArg (after · _) hu
  have items : ∀ q0, q0 = (s.thr? t).elim [] (fun th => th.rt.q) → issueItems ex false q0 [loneItem r.words r.wi w i]
      { s with iss := { issueFor lane r.grp tid t with last := tids.isEmpty } } = (u, none) := by
    rintro q0 rfl
    simp only [issueItems, item, ite_self]
  unfold issueLane
  simp only [hr, ht, hg, hm, Option.bind_some, hs, List.length_singleton, gt_iff_lt, Nat.lt_irrefl, decide_false] at items ⊢
  rw [items _ (by cases s.thr? t <;> rfl)]
  simp only [going, sound, Bool.false_eq_true, if_false]

/-! ### What a run consists of (R316, R318, R319) -/

theorem fetchPacket_length {pc : Nat} {s t : State} {p : List Word} (h : fetchPacket pc s = .ok p t) : p.length = 3 := by
  obtain ⟨_, _, _, h⟩ := of_bind_ok h
  obtain ⟨_, _, _, h⟩ := of_bind_ok h
  obtain ⟨_, _, _, h⟩ := of_bind_ok h
  cases h
  rfl

/-- The words fetched are whole packets, no more than there were tries. -/
theorem fetchRun_packets (pc f : Nat) (ws : List Word) (s : State) {t : State} {vs : List Word} {e : Option Exc}
    (h : fetchRun pc f ws s = (t, vs, e)) : vs.length % 3 = ws.length % 3 ∧ vs.length ≤ ws.length + 3 * f := by
  induction f generalizing ws s with
  | zero => cases h; exact ⟨rfl, Nat.le_refl _⟩
  | succ f ih =>
    unfold fetchRun at h
    split at h
    · cases h
      exact ⟨rfl, by omega⟩
    · rename_i p u hp
      have three : p.length = 3 := fetchPacket_length hp
      dsimp only at h
      split at h
      · cases h
        rw [List.length_append, three]
        omega
      · have := ih _ _ h
        rw [List.length_append, three] at this
        omega

/-- R316, R318, R319: a run starts from a PC that is a multiple of 12; what it consists of are whole packets, eight at most, without a
decode fault. -/
theorem loadRun_ok {pc : Nat} {s t : State} {ws : List Word} (h : loadRun pc s = (t, .ok ws)) : pc % 12 = 0 ∧ ws.length % 3 = 0 ∧
    ws.length ≤ 24 ∧ runFault (decEnv t t.curCore t.curLaunch t.cur.id.ctx) ws true = none := by
  unfold loadRun at h
  by_cases aligned : pc % 12 = 0
  · rw [if_neg (not_not.2 aligned)] at h
    cases hf : fetchRun pc 8 [] s with
    | mk u fetched =>
      obtain ⟨vs, stop⟩ := fetched
      have packets := fetchRun_packets pc 8 [] s hf
      simp only [hf] at h
      split at h
      · cases h
      · rename_i sound
        split at h
        · cases h
        · cases h
        · cases h
          exact ⟨aligned, packets.1, packets.2, sound⟩
  · rw [if_pos aligned] at h
    cases h

/-- Settles O55: a word at hand with neither NS nor ND before it that opens no chain is the only item of its slot (`slotAt_lone`), whose
issue is its meaning (`issueLane_lone`). -/
theorem stepRunsWord : Obligations.StepRunsWord := by
  refine ⟨fun s u lane tid t tids rest r g w i on ha hr ht hg hm hw hi h31 hx hu going sound => ?step,
    fun s t pc ws => ⟨fun misaligned => if_pos misaligned, loadRun_ok⟩⟩
  case step =>
    have slot : r.slot = [loneItem r.words r.wi w i] := slotAt_lone hw hi h31 hx 4
    have issue : issueLane exec lane { s with agenda := rest } = .next (u.issued lane r.grp tid r.slot) :=
      issueLane_lone (s := { s with agenda := rest }) hr ht hg hm slot hu going sound
    have idle : ¬ (({ s with agenda := rest } : State).laneD lane).run.isNone = true := by
      rw [show (({ s with agenda := rest } : State).laneD lane).run = some r from hr]
      exact Bool.false_ne_true
    have act : issueAct exec lane { s with agenda := rest } = .next
        (State.tickIssue { u.issued lane r.grp tid r.slot with
          iss := { (u.issued lane r.grp tid r.slot).iss with lane := lane } } (coreDie (laneCore lane))) := by
      simp only [issueAct, if_neg idle, issue]
    rw [step, stepWith, if_pos on, ha]
    show polled (issueAct exec lane { s with agenda := rest }) = _
    rw [act]
    rfl

end Sys2Proof.Proofs
end

