-- ==== Sys2Proof/Proofs/GuardedWords.lean ====
section
/-! PROOFS. What a false guard leaves of a word (R161, R163, R320, R363, R428). -/
namespace Sys2Proof.Proofs
open Sys2Proof.Machine Sys2Proof.Laws

/-- Every guarded word is an action under its guard that pushes the word's entries. -/
theorem exec_guarded {i : Instr} {g : Guard} (h : guarded i = some g) : ∃ x, exec i = runWord g (Instr.pushes i) x := by
  cases i with
  | boxu hd a b m => cases m <;> cases h <;> exact ⟨_, rfl⟩
  | _ => cases h <;> exact ⟨_, rfl⟩

/-- Every word in which the threads of a set join is such an action under its guard, with one entry. -/
theorem exec_joining {i : Instr} {g : Guard} (h : joining i = some g) :
    ∃ op x, xgOpOf i = some op ∧ Instr.pushes i = 1 ∧ exec i = runXgN g 1 op x := by
  cases i with
  | boxu hd a b m =>
    cases m <;> cases h
    exact ⟨_, _, rfl, rfl, rfl⟩
  | _ => cases h <;> exact ⟨_, _, rfl, rfl, rfl⟩

theorem unwritten_iss (s : State) (n : Nat) : (s.unwritten n).iss = s.iss := by
  induction n generalizing s with
  | zero => rfl
  | succ n ih => exact (ih _).trans rfl

/-- R363: the issue of the set's last thread fills the word's entries, whatever its guard. -/
theorem runXgN_off {g : Guard} {n : Nat} {op : XgOp} {x : X (Bool × DWord × Word)} {s : State} (hg : ¬ Fires g s)
    (hs : s.iss.stalled = false) : runXgN g n op x s =
      .next (if s.iss.last then (s.unwritten n).fillXg s.iss.lane s.iss.word op else s.unwritten n) := by
  unfold runXgN
  rw [runWord_off hg]
  simp only [unwritten_iss, hs, Bool.not_false, Bool.and_true]

/-- Settles O46: `runWord_off` for the guarded words, `runXgN_off` for those in which the threads of a set join. -/
theorem falseGuard : Obligations.FalseGuard := by
  refine ⟨fun i g st hg => ⟨fun h => ?guarded, fun h hs => ?joining⟩, fun hd a n c st s hn hg hs => ?rast⟩
  case guarded =>
    obtain ⟨x, hx⟩ := exec_guarded h
    rw [hx, runWord_off hg]
  case joining =>
    obtain ⟨op, x, hop, one, hx⟩ := exec_joining h
    exact ⟨op, hop, one, by rw [hx, runXgN_off hg hs]⟩
  case rast =>
    show execRast hd a n c st = _
    rw [execRast, hn]
    exact runXgN_off hg hs

end Sys2Proof.Proofs
end

