-- ==== Sys2Proof/Proofs/BreakingOff.lean ====
section
/-! PROOFS. The state in which an action breaks off. Whatever reads an operand breaks off where it has changed no more than it may; a fault
of translation may come with the refusal of the walk's own read (R43, R118). -/
namespace Sys2Proof.Proofs
open Sys2Proof.Machine Sys2Proof.Laws

/-! ### Breaking off -/

/-- What an action that breaks off leaves: a stall anything, which its word discards (R166); a refusal changes of a kind; a fault such
changes, then perhaps what a refusal does; no bin is sought. -/
def Broken (C : Change) (s t : State) : Exc → Prop
  | .stall => True
  | .noBin => False
  | .fault _ => ∃ u e, C.rel s u ∧ t = applyDeny u e
  | .deny .. => C.rel s t

/-- From s an action that breaks off does so after changes of a kind only. -/
structure Breaks {α : Type} (C : Change) (x : X α) (s : State) : Prop where
  of_error : ∀ {r t}, x s = .error r t → Broken C s t r

section
variable {C : Change} {s t u : State}

/-- What broke off after an earlier part of its action. -/
theorem Broken.after {r : Exc} (h : Broken C t u r) (g : C.rel s t) : Broken C s u r := by
  cases r with
  | stall => trivial
  | noBin => exact h
  | fault f =>
    obtain ⟨q, e, hq, hu⟩ := h
    exact ⟨q, e, C.trans g hq, hu⟩
  | deny => exact C.trans g h

theorem Broken.mono {D : Change} {r : Exc} (h : Broken C s t r) (le : ∀ {u}, C.rel s u → D.rel s u) : Broken D s t r := by
  cases r with
  | stall => trivial
  | noBin => exact h
  | fault f =>
    obtain ⟨q, e, hq, ht⟩ := h
    exact ⟨q, e, le hq, ht⟩
  | deny => exact le h

end

section
variable {α β : Type} {C : Change} {s : State}

theorem breaks_ok {x : X α} {a : α} {t : State} (h : x s = .ok a t) : Breaks C x s := ⟨fun e => by cases h.symm.trans e⟩
theorem breaks_pure (a : α) : Breaks C (pure a : X α) s := breaks_ok rfl
theorem breaks_modify (f : State → State) : Breaks C (modify f : X PUnit) s := breaks_ok rfl
theorem breaks_freeX : Breaks C freeX s := breaks_ok rfl
theorem breaks_raise (cls cause addr : Nat) : Breaks C (raise cls cause addr : X α) s :=
  ⟨by rintro _ _ ⟨⟩; exact ⟨s, .stall, C.refl s, rfl⟩⟩
theorem breaks_operand : Breaks C (operand : X α) s := breaks_raise ..
theorem breaks_stallX : Breaks C (stallX : X α) s := ⟨by rintro _ _ ⟨⟩; trivial⟩
theorem breaks_bind {x : X α} {f : α → X β} (mx : Makes C x s) (bx : Breaks C x s) (bf : ∀ a t, C.rel s t → Breaks C (f a) t) :
    Breaks C (x >>= f) s := by
  refine ⟨fun {r t} h => ?_⟩
  cases e : x s with
  | ok a u => exact ((bf a u (mx.of_ok e)).of_error ((bind_ok e).symm.trans h)).after (mx.of_ok e)
  | error r' u =>
    cases (bind_error e).symm.trans h
    exact bx.of_error e
theorem breaks_get_bind {f : State → X β} (h : Breaks C (f s) s) : Breaks C (get >>= f) s := ⟨h.of_error⟩
theorem breaks_ite {c : Prop} [Decidable c] {x y : X α} (hx : Breaks C x s) (hy : Breaks C y s) : Breaks C (if c then x else y) s := by
  split <;> assumption
theorem Breaks.ofNone {x : X α} (h : Breaks .none x s) : Breaks C x s :=
  ⟨fun e => (h.of_error e).mono fun same => (same : _ = _) ▸ C.refl s⟩
theorem Breaks.ofReports {x : X α} (h : Breaks .reports x s) : Breaks .reading x s :=
  ⟨fun e => (h.of_error e).mono fun r => (r : Reports _ _).calm⟩

end

/-! ### Requests -/

theorem breaks_translate (who : Who) (cls : ReqClass) (va : Nat) (s : State) : Breaks .reports (Machine.translate who cls va) s := by
  refine ⟨fun {r t} h => ?_⟩
  unfold Machine.translate at h
  extract_lets bad refused c fin at h
  have same := Reports.refl s
  have faults : ∀ {cause u}, Reports s u → bad cause u = .error r t → Broken .reports s t r := by
    rintro _ _ hu ⟨⟩
    exact ⟨_, .stall, hu, rfl⟩
  have denies : ∀ {pa u}, Reports s u → refused pa u = .error r t → Broken .reports s t r := by
    rintro _ _ hu ⟨⟩
    exact hu
  have ends : ∀ {e sh u}, Reports s u → fin e sh u = .error r t → Broken .reports s t r := by
    intro e sh u hu ht
    simp only [fin] at ht
    split at ht
    · split at ht
      · cases ht
      · exact denies hu ht
    · exact faults hu ht
  split at h
  · split at h
    · cases h
    split at h
    · exact faults same h
    split at h
    · exact denies same h
    · cases h
  split at h
  · exact faults same h
  split at h
  · exact faults same h
  split at h
  · exact ends same h
  have walked := reports_walk who va c.ptroot [42, 29, 16] s
  split at h
  · cases h; trivial
  · rename_i q cause d _ hq
    rw [hq] at walked
    cases d with
    | none => exact faults walked h
    | some e =>
      cases h
      exact ⟨q, e, walked, rfl⟩
  · rename_i q e sh hq
    rw [hq] at walked
    refine ends (u := { q with mem := { q.mem with tlb := _ :: q.mem.tlb } }) ?_ h
    exact walked.trans ⟨rfl, fun _ => rfl⟩

theorem breaks_allow (who : Who) (tgt : Nat) (cls : ReqClass) (addr : Nat) (s : State) : Breaks .none (allow who tgt cls addr) s := by
  refine ⟨fun h => ?_⟩
  unfold allow at h
  split at h <;> cases h
  rfl

theorem breaks_reach (who : Who) (cls : ReqClass) (pa ca : Nat) (s : State) : Breaks .none (reach who cls pa ca) s :=
  breaks_bind (makes_allow ..) (breaks_allow ..) fun _ _ _ => breaks_get_bind (breaks_ite breaks_stallX (breaks_pure _))

theorem breaks_waitOwned (pa : Nat) (s : State) : Breaks .none (waitOwned pa) s :=
  breaks_get_bind (breaks_ite breaks_stallX (breaks_pure _))

theorem breaks_freeBytes (C : Change) (n : Nat) (s : State) : Breaks C (freeBytes n) s := by
  obtain ⟨_, _, e⟩ := freeBytes_run n s
  exact breaks_ok e

theorem breaks_meetX (who : Who) (la : Nat) (s : State) : Breaks .reports (meetX who la) s :=
  breaks_get_bind (breaks_ite (breaks_pure _) (breaks_bind (makes_freeX s) breaks_freeX fun _ _ _ => breaks_modify _))

theorem breaks_homeRead (who : Who) (cls : ReqClass) (pa ca key n : Nat) (s : State) :
    Breaks .reports (homeRead who cls pa ca key n) s :=
  breaks_bind (makes_reach ..).ofNone (breaks_reach ..).ofNone fun _ t _ => breaks_get_bind (breaks_ite
    (breaks_bind (makes_meetX who _ t) (breaks_meetX who _ t) fun _ _ _ => breaks_get_bind (breaks_pure _))
    (breaks_bind (makes_modify (reports_beyondAt t ..)) (breaks_modify _) fun _ _ _ =>
      breaks_bind (makes_freeBytes ..) (breaks_freeBytes ..) fun _ _ _ => breaks_pure _))

theorem breaks_loadV {who : Who} {s : State} (hc : who.core = some s.curCore) (cls : ReqClass) (va n : Nat) :
    Breaks .reading (loadV who cls va n) s := by
  unfold loadV
  refine breaks_bind (makes_translate ..).ofReports (breaks_translate ..).ofReports fun r t ht =>
    breaks_bind (makes_waitOwned ..).ofNone (breaks_waitOwned ..).ofNone fun _ u hu => ?_
  have here : u.curCore = s.curCore := (ht.trans hu).curCore
  rw [hc, ← here]
  refine breaks_bind (makes_modify (calm_underKey ..)) (breaks_modify _) fun _ q _ => breaks_get_bind ?_
  dsimp only
  split
  · exact breaks_pure _
  · refine breaks_bind (makes_homeRead ..).ofReports (breaks_homeRead ..).ofReports fun d w _ => ?_
    split <;> exact breaks_ok rfl

/-! ### Places of the other spaces -/

theorem breaks_checkAccess (p : Space) (va n : Nat) (s : State) : Breaks .none (checkAccess p va n) s := by
  refine breaks_ite (breaks_raise ..) (breaks_ite (breaks_raise ..) ?_)
  cases p with
  | stk => exact breaks_get_bind (breaks_ite (breaks_pure _) (breaks_raise ..))
  | _ => exact breaks_pure _

theorem makes_ringOf (quad k : Nat) (launch : Option Nat) (addr : Nat) (s : State) : Makes .none (ringOf quad k launch addr) s :=
  makes_get_bind (makes_ite (makes_pure _) (makes_raise ..))
theorem breaks_ringOf (quad k : Nat) (launch : Option Nat) (addr : Nat) (s : State) : Breaks .none (ringOf quad k launch addr) s :=
  breaks_get_bind (breaks_ite (breaks_pure _) (breaks_raise ..))

theorem breaks_ringPlace (quad : Nat) (launch : Option Nat) (va n : Nat) (s : State) : Breaks .none (ringPlace quad launch va n) s := by
  refine breaks_bind (makes_ringOf ..) (breaks_ringOf ..) fun r t _ =>
    breaks_ite (breaks_raise ..) (breaks_ite (breaks_pure _) (breaks_get_bind ?_))
  split
  · exact breaks_raise ..
  · exact breaks_ite (breaks_pure _) (breaks_pure _)

theorem breaks_locPlace (rid off n addr : Nat) (s : State) : Breaks .none (locPlace rid off n addr) s := by
  refine breaks_get_bind ?_
  split
  · exact breaks_raise ..
  · exact breaks_ite (breaks_raise ..) (breaks_pure _)

theorem breaks_frmPlace (th : Thr) (off n : Nat) (s : State) : Breaks .none (frmPlace th off n) s := by
  refine breaks_get_bind ?_
  dsimp only
  split
  · exact breaks_raise ..
  · exact breaks_ite (breaks_raise ..) (breaks_pure _)

theorem breaks_curPlace {p : Space} (hp : p ≠ .am) (va n : Nat) (s : State) : Breaks .none (curPlace p va n) s := by
  refine breaks_get_bind ?_
  cases p with
  | loc => exact breaks_ite (breaks_locPlace ..) (breaks_ite (breaks_raise ..) (breaks_pure _))
  | rng => exact breaks_ringPlace ..
  | am => exact absurd rfl hp
  | frm => exact breaks_frmPlace ..
  | _ => exact breaks_operand

theorem breaks_waitScore (pl : Place) (n : Nat) (load : Bool) (s : State) : Breaks .none (waitScore pl n load) s := by
  unfold waitScore
  split
  · exact breaks_pure _
  · exact breaks_get_bind (breaks_ite breaks_stallX (breaks_pure _))

theorem breaks_crossBridge (who : Who) (arr : Nat) (cls : ReqClass) (addr : Nat) (s : State) :
    Breaks .none (crossBridge who arr cls addr) s :=
  breaks_bind (makes_allow ..) (breaks_allow ..) fun _ _ _ => breaks_get_bind (breaks_ite breaks_stallX (breaks_pure _))

theorem breaks_allowMarrow (who : Who) (cls : ReqClass) (pl : Place) (s : State) : Breaks .none (allowMarrow who cls pl) s := by
  unfold allowMarrow
  split
  · exact breaks_crossBridge ..
  · exact breaks_crossBridge ..
  · exact breaks_pure _

theorem breaks_spaceLoad {p : Space} (hp : p ≠ .am) (va n : Nat) (s : State) : Breaks .reading (spaceLoad p va n) s := by
  refine breaks_bind (makes_checkAccess ..).ofNone (breaks_checkAccess ..).ofNone fun _ t _ => ?_
  have elsewhere : Breaks .reading (do
      let pl ← curPlace p va n
      waitScore pl n true
      let s ← get
      allowMarrow s.curWho .read pl
      let s ← get
      pure (pl.st.read s pl.a n, pl.st.poisoned s pl.a n)) t :=
    breaks_bind (makes_curPlace hp ..).ofNone (breaks_curPlace hp ..).ofNone fun _ _ _ =>
      breaks_bind (makes_waitScore ..).ofNone (breaks_waitScore ..).ofNone fun _ _ _ => breaks_get_bind
        (breaks_bind (makes_allowMarrow ..).ofNone (breaks_allowMarrow ..).ofNone fun _ _ _ => breaks_get_bind (breaks_pure _))
  cases p with
  | glb | cst | stk => exact breaks_get_bind (breaks_loadV rfl ..)
  | _ => exact elsewhere

/-! ### Heads of streams (R208) -/

theorem breaks_loadElem (r : BitVec 256) (a : Int) (s : State) : Breaks .reading (loadElem r a) s :=
  breaks_ite (breaks_ite (breaks_raise ..) (breaks_raise ..)) (breaks_spaceLoad (srSpace_ne_am r) ..)

theorem breaks_needClean (addr : Nat) (v : Nat × Bool) (s : State) : Breaks .reading (needClean addr v) s :=
  breaks_ite (breaks_raise ..) (breaks_pure _)

theorem breaks_streamElem (recs : AL (BitVec 256)) (r : BitVec 256) (tid i : Nat) (s : State) :
    Breaks .reading (streamElem recs r tid i) s := by
  refine breaks_ite (breaks_raise ..) (breaks_bind (makes_ite ?made (makes_pure _)) (breaks_ite ?broken (breaks_pure _)) fun a t _ =>
    breaks_bind (makes_loadElem ..) (breaks_loadElem ..) fun v u _ => breaks_needClean ..)
  · exact makes_ite makes_operand (makes_ite (makes_raise ..) (makes_bind (makes_loadElem ..) fun _ _ _ =>
      makes_bind (makes_needClean ..) fun _ _ _ => makes_pure _))
  · exact breaks_ite breaks_operand (breaks_ite (breaks_raise ..) (breaks_bind (makes_loadElem ..) (breaks_loadElem ..) fun _ _ _ =>
      breaks_bind (makes_needClean ..) (breaks_needClean ..) fun _ _ _ => breaks_pure _))

theorem breaks_popHead (k : Nat) (s : State) : Breaks .reading (popHead k) s := by
  refine breaks_get_bind ?_
  split
  · exact breaks_operand
  · exact breaks_bind (makes_streamElem ..) (breaks_streamElem ..) fun _ _ _ => breaks_ok rfl

/-! ### Sources (R323, R324) -/

theorem breaks_readReg (i : Nat) (s : State) : Breaks .reading (readReg i) s := by
  refine breaks_get_bind (breaks_ite breaks_stallX (breaks_ite (breaks_raise ..) (breaks_ite (breaks_raise ..) ?_)))
  split
  · exact breaks_pure _
  · refine breaks_ite ?_ (breaks_pure _)
    split
    · exact breaks_ite (breaks_raise ..) (breaks_ok rfl)
    · exact breaks_ok rfl

theorem breaks_readQ (k : Nat) (s : State) : Breaks .reading (readQ k) s := by
  refine breaks_get_bind ?_
  split
  · exact breaks_operand
  · split
    · exact breaks_pure _
    · exact breaks_pure _
    · exact breaks_stallX
    · exact breaks_raise ..

theorem breaks_readLit (s : State) : Breaks .reading readLit s := by
  refine breaks_get_bind ?_
  split
  · exact breaks_operand
  · exact breaks_ok rfl

theorem breaks_src32 (a : Src) (s : State) : Breaks .reading (src32 a) s := by
  cases a with
  | n i => exact breaks_readReg ..
  | q k => exact breaks_bind (makes_readQ ..) (breaks_readQ ..) fun _ _ _ => breaks_pure _
  | lit => exact breaks_readLit s
  | h i => exact breaks_bind (makes_popHead ..) (breaks_popHead ..) fun _ _ _ => breaks_pure _
  | zero => exact breaks_pure _
  | gw i | tid | iid => exact breaks_get_bind (breaks_pure _)

theorem breaks_src64 (a : Src) (s : State) : Breaks .reading (src64 a) s := by
  cases a with
  | n i =>
    exact breaks_ite breaks_operand (breaks_bind (makes_readReg ..) (breaks_readReg ..) fun _ _ _ =>
      breaks_bind (makes_readReg ..) (breaks_readReg ..) fun _ _ _ => breaks_pure _)
  | q k => exact breaks_readQ ..
  | gw i => exact breaks_get_bind (breaks_ite breaks_operand (breaks_pure _))
  | lit =>
    exact breaks_bind (makes_readLit s) (breaks_readLit s) fun _ t _ =>
      breaks_bind (makes_readLit t) (breaks_readLit t) fun _ _ _ => breaks_pure _
  | h i => exact breaks_popHead ..
  | zero => exact breaks_pure _
  | tid | iid => exact breaks_get_bind (breaks_pure _)

end Sys2Proof.Proofs
end

