-- ==== Sys2Proof/Proofs/ComputingActions.lean ====
section
/-! PROOFS. Words that only compute (R161 to R167): what each of their actions leaves, where it gives a value and where it breaks off. -/
namespace Sys2Proof.Proofs
open Sys2Proof.Machine Sys2Proof.Laws

/-! ### What computing leaves -/

/-- The state without names and results on their way. -/
def sansNames (s : State) : State := { s with fresh := 0, arrivals := [] }

/-- Computing: what reading operands leaves, names and results on their way apart. -/
def Change.computing : Change := ⟨fun s u => Calm (sansNames s) (sansNames u), fun _ => .refl _, Calm.trans⟩

theorem Calm.computing {s u : State} (h : Calm s u) : Change.computing.rel s u :=
  ⟨congrArg sansNames h.rest, h.stack, h.bytes, h.cores, h.others, h.thread⟩

/-- Names and results on their way are not of what a word that only computes must leave. -/
theorem quiet_of_computing {s u : State} (h : Change.computing.rel s u) : Quiet s u := Calm.quiet (s := sansNames s) (u := sansNames u) h

/-- From every state an action changes only what computing may, and breaks off only there. -/
structure Computes {α : Type} (x : X α) : Prop where
  makes : ∀ s, Makes .computing x s
  breaks : ∀ s, Breaks .computing x s

section
variable {α β : Type}

theorem computes_of_reading {x : X α} (m : ∀ s, Makes .reading x s) (b : ∀ s, Breaks .reading x s) : Computes x :=
  ⟨fun s => ⟨fun e => ((m s).of_ok e : Calm _ _).computing⟩, fun s => ⟨fun e => ((b s).of_error e).mono Calm.computing⟩⟩

theorem computes_pure (a : α) : Computes (pure a : X α) := ⟨fun _ => makes_pure a, fun _ => breaks_pure a⟩
theorem computes_raise (cls cause addr : Nat) : Computes (raise cls cause addr : X α) :=
  ⟨fun _ => makes_raise .., fun _ => breaks_raise ..⟩
theorem computes_operand : Computes (operand : X α) := computes_raise ..
theorem computes_stallX : Computes (stallX : X α) := ⟨fun _ => makes_stallX, fun _ => breaks_stallX⟩
theorem computes_modCur {f : Thr → Thr} (h : ∀ th, ThrCalm th (f th)) : Computes (modify (fun s => s.modCur f) : X PUnit) :=
  ⟨fun s => makes_modify (calm_modCur s h).computing, fun _ => breaks_modify _⟩
theorem computes_bind {x : X α} {f : α → X β} (hx : Computes x) (hf : ∀ a, Computes (f a)) : Computes (x >>= f) :=
  ⟨fun s => makes_bind (hx.makes s) fun a t _ => (hf a).makes t,
    fun s => breaks_bind (hx.makes s) (hx.breaks s) fun a t _ => (hf a).breaks t⟩
theorem computes_get_bind {f : State → X β} (h : ∀ s, Computes (f s)) : Computes (get >>= f) :=
  ⟨fun s => makes_get_bind ((h s).makes s), fun s => breaks_get_bind ((h s).breaks s)⟩
theorem computes_ite {c : Prop} [Decidable c] {x y : X α} (hx : Computes x) (hy : Computes y) : Computes (if c then x else y) := by
  split <;> assumption
theorem computes_forX {f : α → X Unit} (h : ∀ a, Computes (f a)) : ∀ l, Computes (forX f l)
  | [] => computes_pure _
  | a :: l => computes_bind (h a) fun _ => computes_forX h l

end

/-! ### Sources -/

section
variable (i : Nat) (w : Bool) (a b d : Src)

theorem computes_freeX : Computes freeX := computes_of_reading (fun s => (makes_freeX s).ofReports) fun _ => breaks_freeX
theorem computes_src32 : Computes (src32 a) := computes_of_reading (makes_src32 a) (breaks_src32 a)
theorem computes_src64 : Computes (src64 a) := computes_of_reading (makes_src64 a) (breaks_src64 a)

theorem computes_srcI : Computes (srcI i a) := by
  refine computes_bind (computes_src32 a) fun v => computes_get_bind fun s => ?_
  dsimp only
  split <;> exact computes_pure _

/-! ### Results -/

theorem computes_pushEnt (e : QEnt) : Computes (pushEnt e) := computes_modCur fun _ => ⟨_, _, _, rfl⟩
theorem computes_push64 (v : DWord) : Computes (push64 v) := computes_pushEnt _
theorem computes_push32 (v : Word) : Computes (push32 v) := computes_pushEnt _
theorem computes_pushN (v : Nat) : Computes (pushN w v) := computes_ite (computes_push64 _) (computes_push32 _)

theorem computes_pushNot : ∀ n, Computes (pushNot n)
  | 0 => computes_pure _
  | n + 1 => computes_bind (computes_pushEnt _) fun _ => computes_pushNot n

theorem computes_pushFree : ∀ n, Computes (pushFree n)
  | 0 => computes_pure _
  | n + 1 => computes_bind computes_freeX fun _ => computes_bind (computes_push64 _) fun _ => computes_pushFree n

theorem computes_raiseFlags (f : Word) : Computes (raiseFlags f) :=
  computes_ite (computes_pure _) (computes_modCur fun _ => ⟨_, _, _, rfl⟩)

theorem computes_drawSR (r : RM) : Computes (drawSR r) :=
  computes_ite
    (computes_get_bind fun _ => computes_bind (computes_modCur fun _ => ⟨_, _, _, rfl⟩) fun _ => computes_pure _)
    (computes_pure _)

theorem computes_pushNarrow (nd : NdP) (base : Word) (v : NVal) : Computes (pushNarrow nd base v) :=
  computes_get_bind fun _ => computes_bind (computes_drawSR _) fun _ => computes_bind (computes_raiseFlags _) fun _ => computes_push32 _

theorem computes_pushIntNd (x : Int) (v : Word) : Computes (pushIntNd x v) := by
  refine computes_get_bind fun s => ?_
  split
  · exact computes_pushNarrow ..
  · exact computes_push32 _

theorem computes_pushFused (f : IFmt) (r : RM) (ts : List (FV × FV)) : Computes (pushFused f r ts) := by
  refine computes_get_bind fun s => ?_
  split
  · exact computes_pushNarrow ..
  · exact computes_bind (computes_drawSR r) fun _ => computes_bind (computes_raiseFlags _) fun _ => computes_pushN ..

/-- A name is taken and a result sent on its way (R165). -/
theorem computes_pushLate (v : DWord) (poison : Bool) : Computes (pushLate v poison) :=
  ⟨fun s => ⟨by
      rintro _ _ ⟨⟩
      exact calm_modCur (sansNames s) (f := fun th => th.push ⟨0, .pending s.fresh⟩) fun _ => ⟨_, _, _, rfl⟩⟩,
    fun s => breaks_ok (pushLate_run v poison s)⟩

theorem computes_writePred (p : Bool) : Computes (writePred i p) := computes_modCur fun _ => ⟨_, _, _, rfl⟩
theorem computes_readPred : Computes (readPred i) := computes_get_bind fun _ => computes_pure _

/-! ### Sources as numbers -/

theorem computes_srcF : Computes (srcF i a) := by
  refine computes_bind (computes_src32 a) fun v => computes_get_bind fun s => ?_
  dsimp only
  split
  · split
    · exact computes_pure _
    · exact computes_pure _
    · exact computes_bind (computes_raiseFlags _) fun _ => computes_pure _
  · exact computes_pure _

theorem computes_srcN : Computes (srcN w i a) :=
  computes_ite (computes_bind (computes_src64 a) fun _ => computes_pure _) (computes_bind (computes_srcI i a) fun _ => computes_pure _)

theorem computes_valF : Computes (valF i a) := computes_bind (computes_srcF i a) fun _ => computes_pure _
theorem computes_valD : Computes (valD a) := computes_bind (computes_src64 a) fun _ => computes_pure _

theorem computes_tySrc (t : NumTy) : Computes (tySrc t a) := by
  cases t with
  | i64 | n64 | f64 => exact computes_bind (computes_src64 a) fun _ => computes_pure _
  | f32 => exact computes_bind (computes_srcF 0 a) fun _ => computes_pure _
  | i32 | n32 => exact computes_bind (computes_srcI 0 a) fun _ => computes_pure _
  | f16 | bf16 => exact computes_bind (computes_src32 a) fun _ => computes_pure _

theorem computes_readFwd (n k : Nat) : Computes (readFwd n k) := by
  refine computes_get_bind fun s => ?_
  split
  · refine computes_ite (computes_pure _) ?_
    split
    · exact computes_pure _
    · exact computes_stallX
  · exact computes_operand

theorem computes_readSpecial (k : Nat) : Computes (readSpecial k) := by
  refine computes_get_bind fun s => ?_
  dsimp only
  split
  case h_6 => exact computes_ite (computes_pure _) (computes_bind computes_freeX fun _ => computes_pure _)
  case h_20 => exact computes_ite (computes_pure _) computes_operand
  case h_21 => exact computes_operand
  all_goals exact computes_pure _

/-! ### Shapes of integer words (R346 to R351) -/

theorem computes_intBin (f : Nat → Nat → Nat) : Computes (intBin w a b f) :=
  computes_bind (computes_srcN ..) fun _ => computes_bind (computes_srcN ..) fun _ => computes_pushN ..
theorem computes_intLate (f : Nat → Nat → Nat) : Computes (intLate w a b f) :=
  computes_bind (computes_srcN ..) fun _ => computes_bind (computes_srcN ..) fun _ => computes_pushLate ..
theorem computes_intUn (f : Nat → Nat) : Computes (intUn w a f) := computes_bind (computes_srcN ..) fun _ => computes_pushN ..
theorem computes_intUn32 (f : Nat → Nat) : Computes (intUn32 w a f) := computes_bind (computes_srcN ..) fun _ => computes_push32 _
theorem computes_intShift (f : Nat → Nat → Nat) : Computes (intShift w a b f) :=
  computes_bind (computes_srcN ..) fun _ => computes_bind (computes_srcI ..) fun _ => computes_pushN ..
theorem computes_intSat (s u : Bool) (f : Int → Int → Int) : Computes (intSat w s u a b f) :=
  computes_bind (computes_srcN ..) fun _ => computes_bind (computes_srcN ..) fun _ => computes_bind (computes_raiseFlags _) fun _ =>
    computes_ite (computes_push64 _) (computes_pushIntNd ..)
theorem computes_intSat1 (s : Bool) (f : Int → Int) : Computes (intSat1 w s a f) :=
  computes_bind (computes_srcN ..) fun _ => computes_bind (computes_raiseFlags _) fun _ => computes_pushN ..
theorem computes_int3 (f : Nat → Nat → Nat → Nat) : Computes (int3 a b d f) :=
  computes_bind (computes_srcI ..) fun _ => computes_bind (computes_srcI ..) fun _ => computes_bind (computes_srcI ..) fun _ =>
    computes_push32 _
theorem computes_intImm (k : BitVec 12) (f : Nat → Nat → Nat) : Computes (intImm a k f) :=
  computes_bind (computes_srcI ..) fun _ => computes_push32 _
theorem computes_putRel (p : Nat) (n t : Bool) : Computes (putRel p n t) :=
  computes_bind (computes_readPred p) fun _ => computes_writePred ..

/-! ### Shapes of floating words (R352, R355 to R360) -/

theorem computes_pushFl (r : Nat × Word) : Computes (pushFl w r) := computes_bind (computes_raiseFlags _) fun _ => computes_pushN ..
theorem computes_f32Bin (r : RM) (f : FV → FV → List (FV × FV)) : Computes (f32Bin a b r f) :=
  computes_bind (computes_valF ..) fun _ => computes_bind (computes_valF ..) fun _ => computes_pushFused ..
theorem computes_f64Bin (r : RM) (f : FV → FV → List (FV × FV)) : Computes (f64Bin a b r f) :=
  computes_bind (computes_valD _) fun _ => computes_bind (computes_valD _) fun _ => computes_pushFused ..
theorem computes_f32Mm (isMax num : Bool) : Computes (f32Mm a b isMax num) :=
  computes_bind (computes_srcF ..) fun _ => computes_bind (computes_srcF ..) fun _ => computes_pushFl ..
theorem computes_f64Mm (isMax : Bool) : Computes (f64Mm a b isMax) :=
  computes_bind (computes_src64 _) fun _ => computes_bind (computes_src64 _) fun _ => computes_pushFl ..
theorem computes_halves (r : RM) (f : Nat → List (FV × FV)) : Computes (halves r f) :=
  computes_bind (computes_drawSR r) fun _ => computes_bind (computes_drawSR r) fun _ => computes_bind (computes_raiseFlags _) fun _ =>
    computes_push32 _
theorem computes_dot2 (h : IFmt) : Computes (dot2 h a b d) :=
  computes_bind (computes_src32 _) fun _ => computes_bind (computes_src32 _) fun _ => computes_bind (computes_src32 _) fun _ =>
    computes_pushFused ..
theorem computes_putFrel (p : Nat) (r : FRel) (n : Bool) (x y : FV) : Computes (putFrel p r n x y) :=
  computes_bind (computes_raiseFlags _) fun _ => computes_bind (computes_readPred p) fun _ => computes_writePred ..
theorem computes_cvtn (t : NumTy) : Computes (cvtn t a b) := by
  refine computes_bind (computes_tySrc a t) fun _ => computes_bind (computes_src32 b) fun _ => computes_get_bind fun s => ?_
  split
  · exact computes_raise ..
  · exact computes_ite (computes_pushNarrow ..) (computes_pushNarrow ..)
theorem computes_pk2 (h : NumTy) (r : RM) : Computes (pk2 h a b r) :=
  computes_bind (computes_src32 _) fun _ => computes_bind (computes_src32 _) fun _ => computes_bind (computes_drawSR r) fun _ =>
    computes_bind (computes_drawSR r) fun _ => computes_bind (computes_raiseFlags _) fun _ => computes_push32 _
theorem computes_sfu32 (f : Nat → Nat × Word) : Computes (sfu32 a f) :=
  computes_bind (computes_srcF ..) fun _ => computes_bind (computes_raiseFlags _) fun _ => computes_pushLate ..
theorem computes_sfu64 (f : Nat → Nat × Word) : Computes (sfu64 a f) :=
  computes_bind (computes_src64 _) fun _ => computes_bind (computes_raiseFlags _) fun _ => computes_pushLate ..

end

end Sys2Proof.Proofs
end

