-- ==== Sys2Proof/Proofs/ComputeFrame.lean ====
section
/-! PROOFS. The frame of the words that only compute (R161 to R167): every such word is an action under its guard that computes. -/
namespace Sys2Proof.Proofs
open Sys2Proof.Machine Sys2Proof.Laws

/-! ### The words -/

section
variable (hd : Hd) (a b : Src)

theorem computes_fltf (f : Fin 32) (k : Fin 8) (o : FltfOp) (v : Bool) (r : RM) :
    ∃ x, Computes x ∧ execFltf hd a f k o v r = runWord hd.gd 1 x := by
  refine ⟨_, computes_bind (computes_srcF 0 a) fun x => computes_bind (computes_readFwd f.val (k.val + 1)) fun y => ?_, rfl⟩
  cases o with
  | fadd | fsub | fmul => exact computes_pushFused ..
  | fmin | fmax => exact computes_pushFl ..

theorem computes_sah (r : RM) : ∃ x, Computes x ∧ execSah hd a b r = runWord hd.gd 1 x := by
  refine ⟨_, computes_bind (computes_src64 a) fun x => computes_bind (computes_src64 b) fun y =>
    computes_bind (computes_drawSR r) fun u => ?_, rfl⟩
  refine computes_ite ?nan (computes_ite (computes_push32 _) (computes_ite (computes_push32 _) ?area))
  · exact computes_bind (computes_raiseFlags _) fun _ => computes_push32 _
  · exact computes_bind (computes_raiseFlags _) fun _ => computes_push32 _

end

/-- Every word that only computes is an action under its guard that computes. -/
theorem exec_computing {i : Instr} {g : Guard} (h : computing i = some g) : ∃ n x, Computes x ∧ exec i = runWord g n x := by
  cases i with
  | add hd a b w s u | sub hd a b w s u => cases h; exact ⟨1, _, computes_intSat .., rfl⟩
  | mul hd a b w v u =>
    cases h
    exact ⟨1, _, computes_bind (computes_srcN 0 w a) fun _ => computes_bind (computes_srcN 1 w b) fun _ =>
      computes_ite (computes_push64 _) (computes_ite (computes_push64 _) (computes_pushIntNd ..)), rfl⟩
  | mulh | min | max | and | or | xor | andn | bfx | dot4 | dotn => cases h; exact ⟨1, _, computes_intBin .., rfl⟩
  | div | rem => cases h; exact ⟨1, _, computes_intLate .., rfl⟩
  | abs | neg => cases h; exact ⟨1, _, computes_intSat1 .., rfl⟩
  | not | brev | mov => cases h; exact ⟨1, _, computes_intUn .., rfl⟩
  | shl | shr | sar | rot => cases h; exact ⟨1, _, computes_intShift .., rfl⟩
  | popc | clz | ctz => cases h; exact ⟨1, _, computes_intUn32 .., rfl⟩
  | mad | shf | bfi | perm => cases h; exact ⟨1, _, computes_int3 .., rfl⟩
  | addImm | andImm | orImm | xorImm | shlImm | shrImm | sarImm | mulImm => cases h; exact ⟨1, _, computes_intImm .., rfl⟩
  | sel hd a b p =>
    cases h
    exact ⟨1, _, computes_bind (computes_srcI 0 a) fun _ => computes_bind (computes_srcI 1 b) fun _ =>
      computes_bind (computes_readPred _) fun _ => computes_push32 _, rfl⟩
  | sel64 hd a b p =>
    cases h
    exact ⟨1, _, computes_bind (computes_src64 a) fun _ => computes_bind (computes_src64 b) fun _ =>
      computes_bind (computes_readPred _) fun _ => computes_push64 _, rfl⟩
  | unpackp hd a b =>
    cases h
    exact ⟨0, _, computes_bind (computes_srcI 0 a) fun _ => computes_bind (computes_srcI 1 b) fun _ =>
      computes_forX (fun _ => computes_writePred ..) _, rfl⟩
  | madw hd a b d | addc hd a b d | subb hd a b d =>
    cases h
    exact ⟨1, _, computes_bind (computes_srcI 0 a) fun _ => computes_bind (computes_srcI 1 b) fun _ =>
      computes_bind (computes_src64 d) fun _ => computes_push64 _, rfl⟩
  | lea hd a b d =>
    cases h
    exact ⟨1, _, computes_bind (computes_src64 a) fun _ => computes_bind (computes_srcI 1 b) fun _ =>
      computes_bind (computes_srcI 2 d) fun _ => computes_push64 _, rfl⟩
  | cmp hd a b p r u w n =>
    cases h
    exact ⟨0, _, computes_bind (computes_srcN 0 w a) fun _ => computes_bind (computes_srcN 1 w b) fun _ => computes_putRel .., rfl⟩
  | plop hd x y p t =>
    cases h
    exact ⟨0, _, computes_bind (computes_readPred _) fun _ => computes_bind (computes_readPred _) fun _ =>
      computes_bind (computes_readPred _) fun _ => computes_writePred .., rfl⟩
  | packp hd => cases h; exact ⟨1, _, computes_get_bind fun _ => computes_push32 _, rfl⟩
  | fcmp hd a b p r n =>
    cases h
    exact ⟨0, _, computes_bind (computes_valF 0 a) fun _ => computes_bind (computes_valF 1 b) fun _ => computes_putFrel .., rfl⟩
  | dcmp hd a b p r n =>
    cases h
    exact ⟨0, _, computes_bind (computes_valD a) fun _ => computes_bind (computes_valD b) fun _ => computes_putFrel .., rfl⟩
  | fcmpH hd a b p r n =>
    cases h
    exact ⟨0, _, computes_bind (computes_src32 a) fun _ => computes_bind (computes_src32 b) fun _ => computes_putFrel .., rfl⟩
  | fadd | fsub | fmul => cases h; exact ⟨1, _, computes_f32Bin .., rfl⟩
  | fmin | fmax | fminn | fmaxn => cases h; exact ⟨1, _, computes_f32Mm .., rfl⟩
  | dadd | dsub | dmul => cases h; exact ⟨1, _, computes_f64Bin .., rfl⟩
  | dmin | dmax => cases h; exact ⟨1, _, computes_f64Mm .., rfl⟩
  | frnd hd a r =>
    cases h
    exact ⟨1, _, computes_bind (computes_srcF 0 a) fun _ => computes_bind (computes_drawSR r) fun _ => computes_pushFl .., rfl⟩
  | drnd hd a r =>
    cases h
    exact ⟨1, _, computes_bind (computes_src64 a) fun _ => computes_bind (computes_drawSR r) fun _ => computes_pushFl .., rfl⟩
  | fscale hd a b r =>
    cases h
    exact ⟨1, _, computes_bind (computes_valF 0 a) fun _ => computes_bind (computes_src32 b) fun _ =>
      computes_bind (computes_drawSR r) fun _ => computes_pushFl .., rfl⟩
  | dscale hd a b r =>
    cases h
    exact ⟨1, _, computes_bind (computes_valD a) fun _ => computes_bind (computes_src32 b) fun _ =>
      computes_bind (computes_drawSR r) fun _ => computes_pushFl .., rfl⟩
  | fgetx hd a =>
    cases h
    exact ⟨1, _, computes_bind (computes_srcF 0 a) fun _ => computes_bind (computes_raiseFlags _) fun _ => computes_push32 _, rfl⟩
  | dgetx hd a =>
    cases h
    exact ⟨1, _, computes_bind (computes_src64 a) fun _ => computes_bind (computes_raiseFlags _) fun _ => computes_push32 _, rfl⟩
  | fclass hd a => cases h; exact ⟨1, _, computes_bind (computes_srcF 0 a) fun _ => computes_push32 _, rfl⟩
  | dclass hd a => cases h; exact ⟨1, _, computes_bind (computes_src64 a) fun _ => computes_push32 _, rfl⟩
  | hadd2 hd a b r | hmul2 hd a b r =>
    cases h
    exact ⟨1, _, computes_bind (computes_src32 a) fun _ => computes_bind (computes_src32 b) fun _ => computes_halves .., rfl⟩
  | hfma2 hd a b d r =>
    cases h
    exact ⟨1, _, computes_bind (computes_src32 a) fun _ => computes_bind (computes_src32 b) fun _ =>
      computes_bind (computes_src32 d) fun _ => computes_halves .., rfl⟩
  | ffma hd a b d r =>
    cases h
    exact ⟨1, _, computes_bind (computes_valF 0 a) fun _ => computes_bind (computes_valF 1 b) fun _ =>
      computes_bind (computes_valF 2 d) fun _ => computes_pushFused .., rfl⟩
  | dfma hd a b d r =>
    cases h
    exact ⟨1, _, computes_bind (computes_valD a) fun _ => computes_bind (computes_valD b) fun _ =>
      computes_bind (computes_valD d) fun _ => computes_pushFused .., rfl⟩
  | fdot2 | fdot2Bf => cases h; exact ⟨1, _, computes_dot2 .., rfl⟩
  | cvt hd a f t r =>
    cases h
    exact ⟨1, _, computes_bind (computes_tySrc a f) fun _ => computes_bind (computes_drawSR r) fun _ =>
      computes_bind (computes_raiseFlags _) fun _ => computes_pushN .., rfl⟩
  | cvtnI32 | cvtnN32 | cvtnF32 | cvtnF64 => cases h; exact ⟨1, _, computes_cvtn .., rfl⟩
  | pk2F16 | pk2Bf16 => cases h; exact ⟨1, _, computes_pk2 .., rfl⟩
  | rcp | rsq | ex2 | lg2 | sinpi | cospi | tanh => cases h; exact ⟨1, _, computes_sfu32 .., rfl⟩
  | drcp | drsq => cases h; exact ⟨1, _, computes_sfu64 .., rfl⟩
  | sqrt hd a r =>
    cases h
    exact ⟨1, _, computes_bind (computes_srcF 0 a) fun _ => computes_bind (computes_drawSR r) fun _ =>
      computes_bind (computes_raiseFlags _) fun _ => computes_pushLate .., rfl⟩
  | intf hd a f k o v =>
    cases h
    exact ⟨1, _, computes_bind (computes_srcI 0 a) fun _ => computes_bind (computes_readFwd ..) fun _ => computes_push32 _, rfl⟩
  | fltf hd a f k o v r => cases h; exact ⟨1, computes_fltf ..⟩
  | boxu hd a b m =>
    cases m with
    | u =>
      cases h
      exact ⟨1, _, computes_bind (computes_src64 a) fun _ => computes_bind (computes_src64 b) fun _ => computes_push64 _, rfl⟩
    | p =>
      cases h
      exact ⟨1, _, computes_bind (computes_src64 a) fun _ => computes_bind (computes_src32 b) fun _ => computes_push64 _, rfl⟩
    | set => cases h
  | sah hd a b r => cases h; exact ⟨1, computes_sah ..⟩
  | npack hd a b =>
    cases h
    exact ⟨1, _, computes_bind (computes_src64 a) fun _ => computes_bind (computes_src32 b) fun _ =>
      computes_ite computes_operand (computes_push64 _), rfl⟩
  | rds hd k =>
    cases h
    exact ⟨1, _, computes_get_bind fun _ => computes_bind (computes_ite (computes_pure _) (computes_readSpecial _)) fun _ =>
      computes_push64 _, rfl⟩
  | _ => cases h

/-! ### What a word comes to -/

section
variable {α : Type} {other x : X α} {s t : State}

theorem onCtl_stall (h : x s = .error .stall t) : onCtl other x s = .error .stall t := by simp only [onCtl, h]
theorem onCtl_fault {f : FaultInfo} (h : x s = .error (.fault f) t) : onCtl other x s = .error (.fault f) t := by simp only [onCtl, h]
theorem onCtl_deny {mid tgt : Nat} {cls : ReqClass} {addr why entry : Nat} (h : x s = .error (.deny mid tgt cls addr why entry) t) :
    onCtl other x s = if isCtl s.curCore then other (applyDeny t (.deny mid tgt cls addr why entry))
      else .error (.deny mid tgt cls addr why entry) t := by simp only [onCtl, h]

end

theorem applyX_deny {x : X Unit} {s t : State} {mid tgt : Nat} {cls : ReqClass} {addr why entry : Nat}
    (h : x s = .error (.deny mid tgt cls addr why entry) t) :
    applyX x s = t.takeDeny s.iss.thr (.deny mid tgt cls addr why entry) := by simp only [applyX, h]

theorem pushFree_run (n : Nat) (s : State) : ∃ u, pushFree n s = .ok () u := by
  induction n generalizing s with
  | zero => exact ⟨s, rfl⟩
  | succ n ih => exact ih _

/-- Settles O48: every word that only computes is an action that computes (`exec_computing`); it ends, stalls, faults or is refused where
it has changed no more than computing may. -/
theorem computeFrame : Obligations.ComputeFrame := by
  intro i g st t hi ht
  obtain ⟨n, x, hx, hword⟩ := exec_computing hi
  rw [hword] at ht
  obtain rfl : applyX (if guardOf g st.cur then onCtl (pushFree n) x else pushNot n) st = t := Host.Outcome.next.inj ht
  by_cases fires : guardOf g st.cur = true
  case neg =>
    rw [if_neg fires]
    exact .inl ⟨_, quiet_of_computing (((computes_pushNot n).makes st).of_ok (pushNot_run n st)), .inl (applyX_ok (pushNot_run n st))⟩
  rw [if_pos fires]
  cases hr : x st with
  | ok a u => exact .inl ⟨u, quiet_of_computing ((hx.makes st).of_ok hr), .inl (applyX_ok (onCtl_ok hr))⟩
  | error r v =>
    have broken := (hx.breaks st).of_error hr
    cases r with
    | stall => exact .inr (applyX_stall (onCtl_stall hr))
    | noBin => exact broken.elim
    | fault f =>
      obtain ⟨u, e, hu, rfl⟩ := broken
      refine .inl ⟨u, quiet_of_computing hu, .inr (.inr (.inr ⟨f, e, ?_⟩))⟩
      rw [applyX_fault (onCtl_fault hr)]
      split
      · exact .inr rfl
      · exact .inl rfl
    | deny mid tgt cls addr why entry =>
      refine .inl ⟨v, quiet_of_computing broken, ?_⟩
      by_cases ctl : isCtl st.curCore = true
      · obtain ⟨w, hw⟩ := pushFree_run n (applyDeny v (.deny mid tgt cls addr why entry))
        rw [applyX_ok ((onCtl_deny hr).trans ((if_pos ctl).trans hw))]
        exact .inr (.inr (.inl ⟨_, quiet_of_computing (((computes_pushFree n).makes _).of_ok hw)⟩))
      · rw [applyX_deny ((onCtl_deny hr).trans (if_neg ctl))]
        exact .inr (.inl ⟨_, rfl⟩)

end Sys2Proof.Proofs
end

