-- ==== Sys2Proof/Proofs/StreamSetup.lean ====
section
/-! PROOFS. SCFG and MAPL (R193, R206, R207, R386, R387): what each holds for run end. SCFG's bind form takes no source: a word
that gives it one is ILLEGAL (R322). -/
namespace Sys2Proof.Proofs
open Sys2Proof.Machine Sys2Proof.Laws

/-! ### SCFG (R386) -/

/-- The state s with an effect of SCFG held for run end, by a word at issue in st that acts once for its set. -/
def heldScfg (st s : State) (e : ScfgEff) : State := (s.modRun (fun r => { r with scfg := r.scfg ++ [e] })).onceDone st.iss.word []

theorem putScfg_run (e : ScfgEff) (s : State) : putScfg e s = .ok [] (s.modRun (fun r => { r with scfg := r.scfg ++ [e] })) := rfl

section
variable {hd : Hd} {a b : Src} {p : Space} {st u s : State} {x : DWord} {y : Word}

section
variable (hf : Fires hd.gd st) (first : FirstOfSet st) (hr : ReadsWide a b st x y u)
include hf first hr

/-- R193, R194: the ring form, for a descriptor that no other launch holds. -/
theorem exec_scfg_ring {v l : Nat} (hk : y.toNat < 16) (chard : isChard u.curCore = true) (hv : readImg x.toNat 16 u = .ok v s)
    (hl : s.cur.id.launch = some l)
    (own : let old := alGetD (s.quadD (coreQuad s.curCore)).rings y.toNat .empty; old.v = true → old.own = l)
    (sound : v.testBit 127 = true → ringBad s (coreQuad s.curCore) l (BitVec.ofNat 128 v) = false) :
    exec (.scfg hd a b p) st = .next (heldScfg st s (.ring y.toNat (BitVec.ofNat 128 v))) := by
  obtain ⟨t, hx, hy⟩ := hr
  have form : fld y.toNat 9 8 = 0 := by simp only [fld]; omega
  have k : fld y.toNat 3 0 = y.toNat := by simp only [fld]; omega
  have clean : ¬ (y.toNat / 2 ^ 10 ≠ 0 ∨ fld y.toNat 7 4 ≠ 0 ∨ (!isChard u.curCore) = true) := by simp [fld, chard]; omega
  have good : ¬ (v.testBit 127 && ringBad s (coreQuad s.curCore) l (BitVec.ofNat 128 v)) = true := by simpa using sound
  refine runWord_ok hf (u := ()) (onceX_first first ?_)
  rw [bind_ok hx, bind_ok hy, get_bind]
  simp only [form, k]
  rw [if_neg clean, scfgRing, bind_ok hv, get_bind]
  simp only [hl]
  rw [if_neg (fun c => c.2 (own c.1)), if_neg good, putScfg_run]

/-- R206: the stream form. -/
theorem exec_scfg_stream {r v : Nat} (hy : y.toNat = 256 + r) (hr64 : r < 64) (hv : readImg x.toNat 32 u = .ok v s)
    (ok : srOk (BitVec.ofNat 256 v) = true) :
    exec (.scfg hd a b p) st = .next (heldScfg st s (.stream r (BitVec.ofNat 256 v))) := by
  obtain ⟨t, hx, hc⟩ := hr
  have form : fld y.toNat 9 8 = 1 := by simp only [fld]; omega
  have k : fld y.toNat 5 0 = r := by simp only [fld]; omega
  have clean : ¬ (y.toNat / 2 ^ 10 ≠ 0 ∨ fld y.toNat 7 6 ≠ 0) := by simp only [fld]; omega
  refine runWord_ok hf (u := ()) (onceX_first first ?_)
  rw [bind_ok hx, bind_ok hc, get_bind]
  simp only [form, k]
  rw [if_neg clean, scfgStream, bind_ok hv, if_pos ok, putScfg_run]

end

/-- The bind form holds its binding or its end with a as its source. -/
def BindsWith (a : Src) : Prop := ∀ (hd : Hd) (b : Src) (st s : State) (x : DWord) (y : Word) (h r : Nat), Fires hd.gd st →
  FirstOfSet st → ReadsWide a b st x y s → h < 4 → r < 64 →
  (y.toNat = 512 + h * 64 + r → exec (.scfg hd a b .glb) st = .next (heldScfg st s (.bind h r))) ∧
  (y.toNat = 1536 + h * 64 + r → exec (.scfg hd a b .glb) st = .next (heldScfg st s (.unbind h)))

/-- R207: the bind form as the manual has it, with its source field at 56. -/
theorem bindsWith_zero : BindsWith .zero := by
  intro hd b st s x y h r hf first hr hh hr64
  obtain ⟨t, hx, hc⟩ := hr
  have run : ∀ e, fld y.toNat 9 8 = 2 → y.toNat / 2 ^ 11 = 0 →
      (if y.toNat.testBit 10 then .unbind (fld y.toNat 7 6) else .bind (fld y.toNat 7 6) (fld y.toNat 5 0)) = e →
      exec (.scfg hd .zero b .glb) st = .next (heldScfg st s e) := by
    intro e form high he
    refine runWord_ok hf (u := ()) (onceX_first first ?_)
    rw [bind_ok hx, bind_ok hc, get_bind]
    simp only [form]
    rw [if_neg (fun c => c rfl), if_neg (fun c => c.elim (fun c => c high) (fun c => c rfl)), he, putScfg_run]
  have fields : fld (512 + h * 64 + r) 9 8 = 2 ∧ fld (1536 + h * 64 + r) 9 8 = 2 ∧ fld (512 + h * 64 + r) 7 6 = h ∧
      fld (1536 + h * 64 + r) 7 6 = h ∧ fld (512 + h * 64 + r) 5 0 = r := by simp only [fld]; omega
  obtain ⟨fb, fu, hb, hu, rb⟩ := fields
  refine ⟨fun hy => run _ (hy ▸ fb) (by omega) ?_, fun hy => run _ (hy ▸ fu) (by omega) ?_⟩
  · have bit : (512 + h * 64 + r).testBit 10 = false := Nat.testBit_lt_two_pow (by omega)
    rw [hy, bit, hb, rb]
    rfl
  · have bit : (1536 + h * 64 + r).testBit 10 = true := by
      rw [Nat.testBit_eq_decide_div_mod_eq]
      exact decide_eq_true (by omega)
    rw [hy, bit, hu]
    rfl

/-! ### MAPL (R387) -/

theorem exec_mapl {x : Word} (hf : Fires hd.gd st) (hr : ReadsRaw a b st x y s) (high : y.toNat / 2 ^ 9 = 0) (hx64 : x.toNat < 64)
    (hn : fld y.toNat 8 5 ≤ 8) (hcap : ∀ l, s.curLaunch = some l → fld y.toNat 4 0 + fld y.toNat 8 5 ≤ l.ncap)
    (h32 : fld y.toNat 4 0 + fld y.toNat 8 5 ≤ 32)
    (pairs : srEsz (alGetD s.curRecs x.toNat 0) = 3 → fld y.toNat 4 0 % 2 = 0 ∧ fld y.toNat 8 5 % 2 = 0) :
    exec (.mapl hd a b) st = .next (s.modCur (fun th => { th with rt := { th.rt with
      mapl := if fld y.toNat 8 5 = 0 then none else some ⟨fld y.toNat 4 0, fld y.toNat 8 5, x.toNat, 0, 0, none⟩
      unmap := fld y.toNat 8 5 == 0 } })) := by
  obtain ⟨t, hx, hy⟩ := hr
  have record : x.toNat % 64 = x.toNat := Nat.mod_eq_of_lt hx64
  have cap : fld y.toNat 4 0 + fld y.toNat 8 5 ≤ (match s.curLaunch with | some l => l.ncap | none => 32) := by
    cases hl : s.curLaunch with
    | none => exact h32
    | some l => exact hcap l hl
  have even : ¬ ((srEsz (alGetD s.curRecs x.toNat 0) == 3) = true ∧ (fld y.toNat 4 0 % 2 = 1 ∨ fld y.toNat 8 5 % 2 = 1)) := fun c => by
    obtain ⟨hd2, hn2⟩ := pairs (beq_iff_eq.1 c.1)
    omega
  refine runWord_ok hf (u := ()) ?_
  rw [bind_ok hx, bind_ok hy, get_bind, record, if_neg, modify_run]
  rintro (c | c | c | c | c)
  · exact c high
  · exact absurd hx64 (Nat.not_lt.2 c)
  · exact absurd hn (Nat.not_le.2 c)
  · exact absurd cap (Nat.not_le.2 c)
  · exact even c

end

/-! ### The obligation -/

/-- SCFG and MAPL are as the obligation says but for what it says of a bind form that is given a source. -/
theorem streamSetup_iff_bindsWith : Obligations.StreamSetup ↔ ∀ a, a ≠ .zero → BindsWith a := by
  refine ⟨fun h a _ hd b st s x y k r hf first hr hk hr64 => ?binds, fun binds hd a b st u s hf => ⟨fun p x y first hr =>
    ⟨?ring, ?stream, ?bind⟩, fun x y hr high hx64 hn hcap h32 pairs => exec_mapl hf hr high hx64 hn hcap h32 pairs⟩⟩
  case binds =>
    obtain ⟨scfg, -⟩ := h hd a b st s s hf
    obtain ⟨-, -, bind⟩ := scfg .glb x y first hr
    exact bind k r rfl rfl hk hr64
  case ring =>
    rintro _ l v rfl hk chard hv hl _ own sound
    exact exec_scfg_ring hf first hr hk chard hv hl own sound
  case stream => exact fun r v hy hr64 hv ok => exec_scfg_stream hf first hr hy hr64 hv ok
  case bind =>
    rintro k r rfl rfl hk hr64
    by_cases zero : a = .zero
    · subst zero
      exact bindsWith_zero hd b st u x y k r hf first hr hk hr64
    · exact binds a zero hd b st u x y k r hf first hr hk hr64

/-- One thread on lane 0 of core 0 at issue of a word whose literals are l. -/
def withLits (l : List Word) : State := { State.reset.load [0] with iss := { issueFor 0 1 0 2 with lits := l } }
/-- The guard that always holds. -/
def unguarded : Hd := ⟨false, ⟨false, 7⟩⟩
/-- Where the thread at issue stands after a word. -/
def placeAfter : Out → Option Where
  | .next s => some s.cur.loc
  | _ => none

/-- A word that binds head 0 to record 0 with a literal as its source is ILLEGAL: it ends its thread, which a binding held for run end
leaves in its group. -/
theorem not_bindsWith_lit : ¬ BindsWith .lit := by
  intro h
  obtain ⟨bind, -⟩ := h unguarded .lit (withLits [0, 0, 512]) (withLits []) 0 512 0 0 rfl rfl ⟨_, rfl, rfl⟩ (by decide) (by decide)
  have ended : placeAfter (exec (.scfg unguarded .lit .lit .glb) (withLits [0, 0, 512])) = some .ended := by decide +kernel
  have stays : placeAfter (.next (heldScfg (withLits [0, 0, 512]) (withLits []) (.bind 0 0))) = some (.grp 1 0) := by decide +kernel
  rw [bind rfl, stays] at ended
  cases ended

/-- Refutes O23: the statement lets the bind form's source be any, where the form takes none (R322, R386); with a literal it is ILLEGAL. -/
theorem not_streamSetup : ¬ Obligations.StreamSetup :=
  fun h => not_bindsWith_lit (streamSetup_iff_bindsWith.1 h .lit (by decide))

end Sys2Proof.Proofs
end

