-- ==== Sys2Proof/Proofs/RingWords.lean ====
section
/-! PROOFS. The words of rings and count objects (R196 to R200, R202): what claims, releases and waits leave at issue, and how a claim and a
release move a descriptor (Table 8.2). -/
namespace Sys2Proof.Proofs
open Sys2Proof.Machine Sys2Proof.Laws

/-! ### How claims and releases move a descriptor (Table 8.2) -/

/-- A claim takes the slot at its side's pointer, which is ready in the side's phase, and moves the pointer alone. -/
theorem claim_some {r r' : Ring} {cons q : Bool} {n : Nat} (h : r.claim cons = some (q, n, r')) :
    let k := if cons then r.tail else r.head
    let ph := if cons then r.tph else r.hph
    q = ph ∧ n = k ∧ (r.slot k).full = cons ∧ (r.slot k).ph = ph ∧
      r' = if cons then { r with tail := (r.advance k ph).1, tph := (r.advance k ph).2 }
        else { r with head := (r.advance k ph).1, hph := (r.advance k ph).2 } := by
  unfold Ring.claim at h
  cases cons with
  | true =>
    rw [if_pos rfl] at h
    split at h
    · rename_i ready
      cases h
      simp only [Ring.canDrain, Bool.and_eq_true, beq_iff_eq] at ready
      exact ⟨rfl, rfl, ready.1, ready.2, rfl⟩
    · cases h
  | false =>
    rw [if_neg Bool.false_ne_true] at h
    split at h
    · rename_i ready
      cases h
      simp only [Ring.canFill, Bool.and_eq_true, Bool.not_eq_true', beq_iff_eq] at ready
      exact ⟨rfl, rfl, ready.1, ready.2, rfl⟩
    · cases h

theorem advance_eq (r : Ring) (k : Nat) (ph : Bool) :
    r.advance k ph = (if k + 1 > r.nslot then 0 else k + 1, if k + 1 > r.nslot then !ph else ph) := by
  unfold Ring.advance
  split <;> rfl

/-- The slots with one of them changed: an empty one in phase 0 is not listed. -/
def putSlot (l : AL Slot) (n : Nat) (t : Slot) : AL Slot := if t = .empty then alDel l n else alSet l n t

theorem alGetD_putSlot_same (l : AL Slot) (n : Nat) (t : Slot) : alGetD (putSlot l n t) n .empty = t := by
  unfold putSlot
  split
  · rename_i e
    rw [alGetD, alGet_alDel, if_pos rfl, e, Option.getD_none]
  · exact alGetD_alSet_same ..

theorem alGetD_putSlot_ne (l : AL Slot) {n m : Nat} (t : Slot) (h : m ≠ n) :
    alGetD (putSlot l n t) m .empty = alGetD l m .empty := by
  unfold putSlot
  split
  · rw [alGetD, alGet_alDel, if_neg h, alGetD]
  · exact alGetD_alSet_ne _ _ _ _ h

/-- A slot after a release of weight w on a side whose full weight is lim: complete, it turns over. -/
def releasedSlot (t : Slot) (cons : Bool) (lim w : Nat) : Slot :=
  if t.cnt + w = lim then ⟨!cons, if cons then !t.ph else t.ph, 0⟩ else { t with cnt := t.cnt + w }

/-- A release finds its slot in the state and the phase that it names, with room for its weight, and changes that slot alone. -/
theorem release_some {r r' : Ring} {n w : Nat} {cons q : Bool} (h : r.release n cons q w = some r') :
    let lim := if cons then r.drainn else r.filln
    n ≤ r.nslot ∧ (r.slot n).full = cons ∧ (r.slot n).ph = q ∧ (r.slot n).cnt + w ≤ lim ∧
      r' = { r with slots := putSlot r.slots n (releasedSlot (r.slot n) cons lim w) } := by
  intro lim
  unfold Ring.release at h
  by_cases may : n ≤ r.nslot ∧ (r.slot n).full = cons ∧ (r.slot n).ph = q ∧ (r.slot n).cnt + w ≤ lim
  · have made := Option.some.inj ((if_pos may).symm.trans h)
    obtain ⟨hn, full, ph, room⟩ := may
    exact ⟨hn, full, ph, room, made.symm⟩
  · cases (if_neg may).symm.trans h

/-! ### Claims (R197, R200) -/

/-- The ring that a slot address names in the quad of the word at hand. -/
def namedRing (s : State) (x : Word) : Ring := alGetD (s.quadD (coreQuad s.curCore)).rings (fld x.toNat 31 28) .empty
/-- That ring is valid and the launch's (R193). -/
def OwnRing (s : State) (x : Word) : Prop := (namedRing s x).v = true ∧ s.cur.id.launch = some (namedRing s x).own
/-- The entry of a claim of slot n in phase ph of a ring. -/
def claimEntry (x : Word) (ph : Bool) (n : Nat) : DWord :=
  dw (2 ^ 33 + (if ph then 2 ^ 32 else 0) + fld x.toNat 31 28 * 2 ^ 28 + n * 2 ^ 16)
/-- The state after a claim: the descriptor has moved, and the core's lines of the context are gone. -/
def afterClaim (s : State) (x : Word) (r : Ring) : State :=
  (s.setRing (coreQuad s.curCore) (fld x.toNat 31 28) r).invalidate s.curCore s.cur.id.ctx

theorem ringOf_own {s : State} {x : Word} (own : OwnRing s x) (addr : Nat) :
    ringOf (coreQuad s.curCore) (fld x.toNat 31 28) s.cur.id.launch addr s = .ok (namedRing s x) s := by
  obtain ⟨valid, launch⟩ := own
  have may : ((namedRing s x).v && s.cur.id.launch == some (namedRing s x).own) = true := by simp [valid, launch]
  unfold ringOf
  rw [get_bind]
  exact if_pos may ▸ rfl

section
variable {hd : Hd} {a b : Src} {st s : State} {x y : Word} (hf : Fires hd.gd st)

section
variable {cons : Bool} (hx : src32 a st = .ok x s) (own : OwnRing s x)
include hx own

theorem claimX_none (h : (namedRing s x).claim cons = none) : claimX a cons st = .ok 0 s := by
  unfold claimX
  rw [bind_ok hx, get_bind]
  rw [bind_ok (ringOf_own own _)]
  simp only [h, pure_run]

theorem claimX_some {ph : Bool} {n : Nat} {r' : Ring} (h : (namedRing s x).claim cons = some (ph, n, r')) :
    claimX a cons st = .ok (claimEntry x ph n) (afterClaim s x r') := by
  unfold claimX
  rw [bind_ok hx, get_bind]
  rw [bind_ok (ringOf_own own _)]
  simp only [h, modify_bind, pure_run]
  rfl

end

section
variable {cons : Bool} {v : DWord} {t : State} (h : claimX a cons st = .ok v t)
include hf h

/-- A claim per thread: its entry arrives later. -/
theorem exec_racq : exec (if cons then .racqC hd a else .racqP hd a) st = .next (t.sent v false) := by
  have run : racq a cons st = .ok () (t.sent v false) := by rw [racq, bind_ok h, pushLate_run]
  cases cons with
  | true => exact runWord_ok hf run
  | false => exact runWord_ok hf run

/-- One claim for the set. -/
theorem exec_racqU (first : FirstOfSet st) :
    exec (if cons then .racqCU hd a else .racqPU hd a) st = .next (t.onceDone st.iss.word [⟨v, .full⟩]) := by
  have run : racqU a cons st = .ok () (t.onceDone st.iss.word [⟨v, .full⟩]) := onceX_first first (by rw [bind_ok h, pure_run])
  cases cons with
  | true => exact runWord_ok hf run
  | false => exact runWord_ok hf run

end

/-! ### Releases and waits (R198, R199) -/

section
variable (hr : ReadsRaw a b st x y s) (own : OwnRing s x)
include hf hr own

/-- R136, R198: a release takes effect after its thread's source action. -/
theorem exec_rrel (high : y.toNat / 2 ^ 11 = 0) (pos : 1 ≤ fld y.toNat 8 0) (le : fld y.toNat 8 0 ≤ 256) {r' : Ring}
    (h : (namedRing s x).release (fld x.toNat 27 16) (y.toNat.testBit 10) (y.toNat.testBit 9) (fld y.toNat 8 0) = some r') :
    exec (.rrel hd a b) st = .next ((s.drainCore s.curCore).setRing (coreQuad s.curCore) (fld x.toNat 31 28) r') := by
  obtain ⟨u, hx, hy⟩ := hr
  have slot := (release_some h).1
  refine runWord_ok hf (u := ()) ?_
  rw [bind_ok hx, bind_ok hy, get_bind]
  rw [bind_ok (ringOf_own own _), if_neg (by omega), if_neg (by omega)]
  simp only [h, modify_run]

theorem exec_rwait_head (hy2 : y.toNat < 2) : exec (.rwait hd a b) st = .next (s.waits (.ringHead (fld x.toNat 31 28) (y == 1))) := by
  obtain ⟨u, hx, hy⟩ := hr
  have form : y.toNat % 4 = y.toNat := by omega
  have cons : (y.toNat == 1) = (y == 1) := by rw [Bool.eq_iff_iff, beq_iff_eq, beq_iff_eq]; exact BitVec.toNat_inj (y := 1)
  have low : y.toNat.testBit 2 = false := Nat.testBit_lt_two_pow (by omega)
  refine runWord_ok hf (u := ()) ?_
  rw [bind_ok hx, bind_ok hy, get_bind]
  rw [bind_ok (ringOf_own own _), form, cons, low, if_neg (by simp; omega), if_neg (by omega), if_pos hy2, addWait_run]

theorem exec_rwait_slot (hy8 : y.toNat < 8) (form : 2 ≤ y.toNat % 4) (slot : fld x.toNat 27 16 ≤ (namedRing s x).nslot) :
    exec (.rwait hd a b) st =
      .next (s.waits (.ringSlot (fld x.toNat 31 28) (fld x.toNat 27 16) (y.toNat % 4 == 2) (y.toNat.testBit 2))) := by
  obtain ⟨u, hx, hy⟩ := hr
  refine runWord_ok hf (u := ()) ?_
  rw [bind_ok hx, bind_ok hy, get_bind]
  rw [bind_ok (ringOf_own own _), if_neg (by omega), if_neg (by omega), if_neg (by omega), addWait_run]

end

/-! ### Count objects (R202) -/

/-- A count object that is at rest or the launch's own may be named, and is then the launch's. -/
theorem nameCount_ok {quad k : Nat} {l : Option Nat} {c : CountObj} (hc : alGetD (s.quadD quad).counts k .empty = c)
    (may : (c.cnt = 0 ∧ c.pend = 0) ∨ c.own = l) : nameCount quad k l s = .ok { c with own := l } s := by
  unfold nameCount
  rw [get_bind]
  simp only [hc]
  by_cases rest : c.cnt = 0 ∧ c.pend = 0
  · rw [if_pos rest, pure_run]
  · have own := may.resolve_left rest
    rw [if_neg rest, if_pos own, pure_run, ← own]

/-- The count object of that number in the quad of the word at hand. -/
def namedCount (s : State) (x : Word) : CountObj := alGetD (s.quadD (coreQuad s.curCore)).counts x.toNat .empty

section
variable (may : ((namedCount s x).cnt = 0 ∧ (namedCount s x).pend = 0) ∨ (namedCount s x).own = s.cur.id.launch) (hx32 : x.toNat < 32)
include hf may hx32

theorem exec_carm (hr : ReadsRaw a b st x y s) (pos : 1 ≤ y.toNat) (le : y.toNat ≤ 2 ^ 24)
    (room : (namedCount s x).cnt + y.toNat ≤ 2 ^ 31 - 1) :
    exec (.carm hd a b) st = .next (s.setCount (coreQuad s.curCore) x.toNat
      { namedCount s x with own := s.cur.id.launch, cnt := (namedCount s x).cnt + y.toNat }) := by
  obtain ⟨u, hx, hy⟩ := hr
  refine runWord_ok hf (u := ()) ?_
  rw [bind_ok hx, bind_ok hy, get_bind]
  rw [if_neg (by omega), bind_ok (nameCount_ok rfl may)]
  exact if_neg (not_lt.2 room) ▸ rfl

theorem exec_cwait (hx : src32 a st = .ok x s) : exec (.cwait hd a) st = .next (s.waits (.count x.toNat)) := by
  refine runWord_ok hf (u := ()) ?_
  rw [bind_ok hx, get_bind, if_neg (by omega), bind_ok (nameCount_ok rfl may), addWait_run]

end
end

/-- Settles O24: each word is what its operands give it, run through; `claim_some` and `release_some` say how a descriptor
moves. -/
theorem ringWords : Obligations.RingWords := by
  refine ⟨fun hd a b st s x hf => ⟨fun hx own cons => ⟨fun none => ?none, fun ph n r' some => ?some⟩,
    fun y hr => ⟨?release, ?wait, ?arm⟩, fun hx hx32 may => exec_cwait hf may hx32 hx⟩, fun r cons => ⟨?claims, ?releases⟩⟩
  case none =>
    have h := claimX_none hx own none
    exact ⟨exec_racq hf h, exec_racqU hf h⟩
  case some =>
    have h := claimX_some hx own some
    exact ⟨exec_racq hf h, exec_racqU hf h⟩
  case release => exact fun own high pos le r' h => exec_rrel hf hr own high pos le h
  case wait => exact fun own => ⟨exec_rwait_head hf hr own, exec_rwait_slot hf hr own⟩
  case arm => exact fun hx32 pos le may room => exec_carm hf may hx32 hr pos le room
  case claims =>
    intro q n r' h
    obtain ⟨hq, hn, full, ph, rfl⟩ := claim_some h
    rw [advance_eq]
    refine ⟨hq, hn, full, ph, ?_⟩
    cases cons <;> exact ⟨rfl, rfl, rfl, rfl⟩
  case releases =>
    intro n q w r' h
    obtain ⟨hn, full, rfl, room, rfl⟩ := release_some h
    exact ⟨hn, full, rfl, room, fun m hm => alGetD_putSlot_ne _ _ hm, rfl, rfl, alGetD_putSlot_same ..⟩

end Sys2Proof.Proofs
end

