-- ==== Sys2Proof/Proofs/CopyWords.lean ====
section
/-! PROOFS. The copy words (R203, R422): a copy that passes its checks joins its quad's queue, at the end. -/
namespace Sys2Proof.Proofs
open Sys2Proof.Machine Sys2Proof.Laws

/-! ### What joins the queue -/

/-- The operation that a copy word asks for, from the register quad that holds its destination, length and completion word (R420, R421). -/
def askedCopy (by_ : Issuer) (k : CopyKind) (sSp dSp : Space) (src quad : Nat) (record ixRec : BitVec 256) : CopyOp where
  id := 0
  kind := k
  by_ := by_
  sSp := sSp
  dSp := dSp
  src := src
  dst := quad % 2 ^ 64
  len := quad / 2 ^ 64 % 2 ^ 32
  record := record
  ixRec := ixRec
  tgt := w32 (quad / 2 ^ 96)
  score := []
  started := false
  pos := 0

/-- The kind of CPYR in a form, or of CPY. -/
def wholeKind : Option Bool → CopyKind
  | some rc => .cpyr rc
  | none => .cpy

theorem canonX_ok {sp : Space} {a : Nat} (h : a < if wideSpace sp then 2 ^ 55 else 2 ^ 32) (s : State) : canonX sp a s = .ok () s := by
  cases sp with
  | glb | cst =>
    have low : ¬ a ≥ 2 ^ 55 := Nat.not_le.2 h
    rw [canonX, if_neg low, pure_run]
  | _ => rfl

/-- An address that its space takes is not too wide for a narrow one. -/
theorem narrow_fits {sp : Space} {a : Nat} (h : a < if wideSpace sp then 2 ^ 55 else 2 ^ 32) :
    ¬ ((!wideSpace sp) = true ∧ a ≥ 2 ^ 32) := by
  rintro ⟨narrow, ge⟩
  rw [if_neg (by simpa using narrow)] at h
  omega

/-- What the operands of CPY, or of CPYR in a form, must meet (R422, Table 16.5). -/
structure WholePasses (form : Option Bool) (sp dp : Space) (src dst len tgt : Nat) : Prop where
  some_len : 1 ≤ len
  max_len : len ≤ 2 ^ 24
  len_words : len % 4 = 0
  src_words : src % 4 = 0
  dst_words : dst % 4 = 0
  src_fits : src < if wideSpace sp then 2 ^ 55 else 2 ^ 32
  dst_fits : dst < if wideSpace dp then 2 ^ 55 else 2 ^ 32
  tgt_ok : tgtOk tgt (sp == .rng) (dp == .rng) form.isSome = true
  apart : form = none → sp = dp → overlap src dst len = false

/-- What the operands and the stream record of CPYS or GATH must meet (R422, Table 16.5). -/
structure RowsPass (kind : CopyKind) (dp : Space) (r ir : BitVec 256) (dst len tgt : Nat) : Prop where
  sound : srOk r = true
  some_len : 1 ≤ len
  max_len : len ≤ 65536
  len_elems : len % 2 ^ srEsz r = 0
  total : srCount r * len ≤ 2 ^ 24
  dst_words : dst % 4 = 0
  dst_fits : dst < if wideSpace dp then 2 ^ 55 else 2 ^ 32
  tgt_ok : tgtOk tgt (srSpace r == .rng) (dp == .rng) false = true
  indexed : srIx r = decide (kind = .gath)
  index : kind = .gath → srOk ir = true ∧ srIx ir = false ∧ 2 ≤ srEsz ir

section
variable {a b : Src} {sp dp : Space} {st u s0 s1 s2 s3 s : State} {q : Nat} {pS pD : Option Place} (hq : readQuad b u = .ok q s0)
include hq

/-- R422: CPY and CPYR that pass their checks. -/
theorem copyX_queues {form : Option Bool} {x : DWord} (hx : src64 a st = .ok x u)
    (passes : WholePasses form sp dp x.toNat (q % 2 ^ 64) (q / 2 ^ 64 % 2 ^ 32) (q / 2 ^ 96))
    (hS : rangePlace sp x.toNat (q / 2 ^ 64 % 2 ^ 32) s0 = .ok pS s1)
    (hD : rangePlace dp (q % 2 ^ 64) (q / 2 ^ 64 % 2 ^ 32) s1 = .ok pD s2) (hc : countOk (q / 2 ^ 96) s2 = .ok () s3)
    (queued : queueCopy (askedCopy s0.issuer (wholeKind form) sp dp x.toNat q 0 0) pS pD s3 = .ok () s) :
    copyX a b sp dp form st = .ok () s := by
  obtain ⟨some_len, max_len, len_words, src_words, dst_words, src_fits, dst_fits, tgt_ok, apart⟩ := passes
  have disjoint : ¬ ((!form.isSome) = true ∧ sp = dp ∧ overlap x.toNat (q % 2 ^ 64) (q / 2 ^ 64 % 2 ^ 32) = true) := by
    rintro ⟨whole, same, shared⟩
    rw [apart (by simpa using whole) same] at shared
    cases shared
  unfold copyX
  rw [bind_ok hx, bind_ok hq, get_bind, if_neg, if_neg disjoint, bind_ok (canonX_ok src_fits s0), bind_ok (canonX_ok dst_fits s0),
    if_neg (not_not.2 src_words), if_neg (not_not.2 dst_words), bind_ok hS, bind_ok hD, bind_ok hc]
  · exact queued
  · rintro (c | c | c | c | c | c)
    · omega
    · omega
    · exact c len_words
    · exact narrow_fits src_fits c
    · exact narrow_fits dst_fits c
    · rw [tgt_ok] at c; cases c

/-- R422: CPYS and GATH that pass their checks. -/
theorem rowsX_queues {kind : CopyKind} {x : Word} {r : BitVec 256} (hx : src32 a st = .ok x u) (hx64 : x.toNat < 64)
    (hr : alGet s0.curRecs x.toNat = some r)
    (passes : RowsPass kind dp r (alGetD s0.curRecs (srIxr r) 0) (q % 2 ^ 64) (q / 2 ^ 64 % 2 ^ 32) (q / 2 ^ 96))
    (hD : rangePlace dp (q % 2 ^ 64) (srCount r * (q / 2 ^ 64 % 2 ^ 32)) s0 = .ok pD s1) (hc : countOk (q / 2 ^ 96) s1 = .ok () s2)
    (queued : queueCopy (askedCopy s0.issuer kind (srSpace r) dp (srBase r) q r
      (if decide (kind = .gath) then alGetD s0.curRecs (srIxr r) 0 else 0)) none pD s2 = .ok () s) :
    rowsX a b dp kind st = .ok () s := by
  obtain ⟨sound, some_len, max_len, len_elems, total, dst_words, dst_fits, tgt_ok, indexed, index⟩ := passes
  unfold rowsX
  rw [bind_ok hx, bind_ok hq, get_bind]
  simp only [hr]
  rw [if_neg, if_neg, bind_ok (canonX_ok dst_fits s0), if_neg (not_not.2 dst_words), bind_ok hD, bind_ok hc]
  · exact queued
  · rintro (c | c | c | ⟨gath, c⟩)
    · rw [indexed, bne_self_eq_false] at c; cases c
    · rw [sound] at c; cases c
    · omega
    · obtain ⟨ir_sound, ir_plain, ir_wide⟩ := index (of_decide_eq_true gath)
      obtain c | c | c := c
      · rw [ir_plain] at c; cases c
      · omega
      · rw [ir_sound] at c; cases c
  · rintro (c | c | c | c | c | c)
    · omega
    · omega
    · omega
    · exact c len_elems
    · exact narrow_fits dst_fits c
    · rw [tgt_ok] at c; cases c

end

/-! ### The queue after an operation has joined it (R203) -/

/-- Rings, count objects and queues stay. -/
def Change.quads : Change := ⟨fun s t => t.quads = s.quads, fun _ => rfl, fun h g => g.trans h⟩

theorem quads_foldl {α : Type} {f : State → α → State} (h : ∀ s a, (f s a).quads = s.quads) (l : List α) (s : State) :
    (l.foldl f s).quads = s.quads := by
  induction l generalizing s with
  | nil => rfl
  | cons a l ih => exact (ih _).trans (h s a)

theorem quads_drainIf (s : State) (core : Nat) (p : WLine → Bool) : (s.drainIf core p).quads = s.quads :=
  congrArg (·.quads) (reports_drainReported s core p).rest

theorem drainCore_eq (s : State) : (s.drainCore s.curCore).quads = s.quads ∧ (s.drainCore s.curCore).curCore = s.curCore := by
  unfold State.drainCore
  split
  · exact ⟨rfl, rfl⟩
  · exact ⟨quads_drainIf .., (calm_drainIf s _).curCore⟩

theorem quads_recall (s : State) (la : Nat) : (s.recall la).quads = s.quads := by
  refine quads_foldl (fun s c => ?_) _ s
  dsimp only
  split_ifs
  · exact quads_drainIf ..
  · rfl
  · exact quads_drainIf ..
  · rfl

theorem quads_ownLines (s : State) (quad : Nat) (o : CopyOp) : (s.ownLines quad o).quads = s.quads := by
  unfold State.ownLines
  split_ifs
  · refine quads_foldl (fun s i => ?_) _ s
    dsimp only
    split
    · rfl
    · split
      · exact quads_recall ..
      · rfl
  · rfl

theorem makes_takeScore (p : Option Place) (inDir : Bool) (n : Nat) (s : State) : Makes .quads (takeScore p inDir n) s := by
  unfold takeScore
  split
  · exact makes_pure _
  · exact makes_get_bind (makes_ite makes_stallX (makes_bind ⟨by rintro _ _ ⟨⟩; rfl⟩ fun _ t _ =>
      makes_bind (makes_modify rfl) fun _ _ _ => makes_pure _))

theorem makes_takeRows (kind : CopyKind) (r : BitVec 256) (len : Nat) (s : State) : Makes .quads (takeRows kind r len) s := by
  unfold takeRows
  refine makes_get_bind ?_
  dsimp only
  have whole : ∀ c rid, Makes .quads (match s.res? rid with
      | some r => takeScore (some ⟨.pool c, 0, some (c, rid, 0)⟩) false (s.spadGrans r * Config.granBytes)
      | none => pure []) s := by
    intro c rid
    split
    · exact makes_takeScore ..
    · exact makes_pure _
  split
  · exact makes_ite (makes_takeScore ..) (whole ..)
  · refine makes_ite ?_ (makes_pure _)
    split
    · exact makes_ite (makes_takeScore ..) (whole ..)
    · exact makes_pure _
  · exact makes_pure _

theorem copyq_setCount (s : State) (quad k : Nat) (c : CountObj) : ((s.setCount quad k c).quadD quad).copyq = (s.quadD quad).copyq := by
  rw [State.setCount, quadD_modQuad]

theorem copyq_congr {s t : State} (h : t.quads = s.quads) (quad : Nat) : (t.quadD quad).copyq = (s.quadD quad).copyq := by
  rw [State.quadD, h, State.quadD]

/-- R203: an operation that is queued, with its name and its scoreboard entries, is the last of its quad's queue. -/
theorem queueCopy_joins {o : CopyOp} {pS pD : Option Place} {u s : State} (h : queueCopy o pS pD u = .ok () s) :
    ∃ id sc, (s.quadD (coreQuad u.curCore)).copyq = (u.quadD (coreQuad u.curCore)).copyq ++ [{ o with id := id, score := sc }] := by
  obtain ⟨drained, core⟩ := drainCore_eq u
  unfold queueCopy at h
  rw [modify_bind, get_bind] at h
  dsimp only at h
  rw [core] at h
  split at h
  · cases h
  obtain ⟨out, v, hv, h⟩ := of_bind_ok h
  obtain ⟨inn, w, hw, h⟩ := of_bind_ok h
  obtain ⟨id, z, hz, h⟩ := of_bind_ok h
  have rows : Makes .quads (match o.kind with
      | .cpys | .gath => takeRows o.kind o.record o.len
      | _ => takeScore pS false o.len) (u.drainCore u.curCore) := by
    split
    · exact makes_takeRows ..
    · exact makes_takeRows ..
    · exact makes_takeScore ..
  have before : z.quads = u.quads := by
    cases hz
    exact ((makes_takeScore ..).of_ok hw).trans ((rows.of_ok hv).trans drained)
  refine ⟨id, out ++ inn, ?_⟩
  cases h
  rw [copyq_congr (quads_ownLines ..), ← copyq_congr before]
  split
  · rw [copyq_setCount, quadD_modQuad]
  · rw [quadD_modQuad]

/-- Settles O27: a word that passes its checks queues the operation it asks for (`copyX_queues`, `rowsX_queues`), and what is queued is
last (`queueCopy_joins`). -/
theorem copyWords : Obligations.CopyWords := by
  refine ⟨fun hd a b sp dp st u s0 s1 s2 s3 s x q pS pD hf => ?whole, fun hd a b dp st u s0 s1 s2 s x q r pD hf => ?rows,
    fun o pS pD u s h => queueCopy_joins h⟩
  case whole =>
    intro dst len t op hx hq pos le len4 src4 dst4 src hS hc
    refine ⟨fun hdst tgt apart hD queued => ?cpy, fun form hdst tgt same queued => ?cpyr⟩
    case cpy =>
      have passes : WholePasses none sp dp x.toNat dst len t := ⟨pos, le, len4, src4, dst4, src, hdst, tgt, fun _ => apart⟩
      exact runWord_ok hf (copyX_queues hq hx passes hS hD hc queued)
    case cpyr =>
      have passes : WholePasses (some form) sp .glb x.toNat dst len t := ⟨pos, le, len4, src4, dst4, src, hdst, tgt, nofun⟩
      exact runWord_ok hf (copyX_queues hq hx passes hS (same ▸ rfl) hc queued)
  case rows =>
    intro dst len t ir op hx hq hx64 hr sound pos le elems total dst4 hdst tgt hD hc
    refine ⟨fun plain queued => ?cpys, fun indexed irSound irPlain irWide queued => ?gath⟩
    case cpys =>
      have passes : RowsPass .cpys dp r ir dst len t := ⟨sound, pos, le, elems, total, dst4, hdst, tgt, plain, nofun⟩
      exact runWord_ok hf (rowsX_queues hq hx hx64 hr passes hD hc queued)
    case gath =>
      have passes : RowsPass .gath dp r ir dst len t :=
        ⟨sound, pos, le, elems, total, dst4, hdst, tgt, indexed, fun _ => ⟨irSound, irPlain, irWide⟩⟩
      exact runWord_ok hf (rowsX_queues hq hx hx64 hr passes hD hc queued)

end Sys2Proof.Proofs
end

