-- ==== Sys2Proof/Proofs/MatrixWords.lean ====
section
/-! PROOFS. The words of the convergence registers (R221, R415 to R419): what each one does to the register that it names. -/
namespace Sys2Proof.Proofs
open Sys2Proof.Machine Sys2Proof.Laws

/-! ### A word that acts once for its set (R325) -/

theorem onceVal_first {x : X (List QEnt)} {s t : State} {es : List QEnt} (first : FirstOfSet s) (h : x s = .ok es t) :
    onceVal x s = .ok es (t.noted s.iss.word es) := by
  simp only [FirstOfSet] at first
  simp only [onceVal, get_bind, first, h]
  rfl

/-- The entry of the first thread that does the word arrives later. -/
theorem onceLate_first {x : X DWord} {s t : State} {v : DWord} (first : FirstOfSet s) (h : x s = .ok v t) :
    onceLate x s = .ok () ((t.noted s.iss.word [⟨v, .full⟩]).sent v false) := by
  have entry : (x >>= fun v => pure [(⟨v, .full⟩ : QEnt)]) s = .ok [⟨v, .full⟩] t := by rw [bind_ok h, pure_run]
  rw [onceLate, bind_ok (onceVal_first first entry), forX, bind_ok (pushLate_run ..), forX, pure_run]

theorem forX_stays {α : Type} {f : α → X Unit} {s : State} {as : List α} (h : ∀ a ∈ as, f a s = .ok () s) : forX f as s = .ok () s := by
  induction as with
  | nil => rfl
  | cons a as ih => rw [forX, bind_ok (h a List.mem_cons_self), ih fun b hb => h b (List.mem_cons_of_mem a hb)]

/-! ### The register at hand (R415, R416) -/

/-- The convergence register of that number in the quad of the word at hand. -/
def namedReg (s : State) (c : Nat) : Creg := s.cregD (coreQuad s.curCore) c

/-- A change of that register. -/
def modNamed (s : State) (c : Nat) (f : Creg → Creg) : State := s.modCreg (coreQuad s.curCore) c f

theorem namedCreg_ok {s : State} {c : Nat} (may : MayName s c) : namedCreg c s = .ok (coreQuad s.curCore, namedReg s c) s := by
  obtain ⟨live, own⟩ := may
  have allowed : ((namedReg s c).own.isSome && (namedReg s c).own != s.cur.id.launch && !(namedReg s c).free) = false := by
    obtain none | mine | free := own
    · simp [namedReg, none]
    · simp [namedReg, mine]
    · simp [namedReg, free]
  unfold namedCreg
  rw [get_bind]
  simp only [live, Bool.not_true, Bool.false_eq_true, if_false]
  rw [← namedReg, allowed]
  rfl

/-- A free register passes to the launch that arms it, its status and reference clear (R415). -/
def takenBy (r : Creg) (l : Option Nat) : Creg := if r.free && r.own != l then { r with own := l, cst := 0, ref := 0 } else r

/-- A register that a launch has armed for n signatures, the descriptor at an address (R416). -/
def armedFor (r : Creg) (l : Option Nat) (addr n : Nat) : Creg :=
  { takenBy r l with armed := true, daddr := addr, nsig := n, sigs := 0, armseq := r.armseq + 1 }

/-- The entry of an arm: bit 32, and below it the sequence number that the arm gets (R416). -/
def armEntry (r : Creg) : DWord := dw (2 ^ 32 + (r.armseq + 1).toNat)

theorem takenBy_eq (r : Creg) (l : Option Nat) :
    (if r.free then (if r.own = l then r else { r with own := l, cst := 0, ref := 0 }) else r) = takenBy r l := by
  unfold takenBy
  by_cases own : r.own = l
  · simp [own]
  · simp [own]

@[simp] theorem takenBy_armed (r : Creg) (l : Option Nat) : (takenBy r l).armed = r.armed := by
  unfold takenBy; split <;> rfl
@[simp] theorem takenBy_armseq (r : Creg) (l : Option Nat) : (takenBy r l).armseq = r.armseq := by
  unfold takenBy; split <;> rfl

section
variable {hd : Hd} {a b : Src} {c : Fin 16} {st s : State} (hf : Fires hd.gd st) (may : MayName s c.val)
include hf may

/-! ### MARM (R416) -/

section
variable {x : DWord} {n : Word} (first : FirstOfSet st) (hr : ReadsWide a b st x n s) (pos : 1 ≤ n.toNat) (le : n.toNat ≤ 4096)
  (canon : x.toNat < 2 ^ 55) (aligned : x.toNat % 64 = 0)
include first hr pos le canon aligned

/-- A register that is armed stays as it is, and the entry is 0. -/
theorem exec_marm_armed (armed : (namedReg s c.val).armed = true) :
    exec (.marm hd a b c) st = .next ((s.noted st.iss.word [⟨0, .full⟩]).sent 0 false) := by
  obtain ⟨u, hx, hn⟩ := hr
  refine runWord_ok hf (onceLate_first first ?_)
  rw [bind_ok hx, bind_ok hn, bind_ok (namedCreg_ok may)]
  dsimp only
  rw [if_neg (by omega), if_neg (by omega), if_neg (by omega), get_bind, takenBy_eq, if_pos (by rw [takenBy_armed, armed]), pure_run]

/-- A register at rest is armed, and the entry carries its new sequence number. -/
theorem exec_marm_idle (idle : (namedReg s c.val).armed = false) :
    exec (.marm hd a b c) st =
      .next (((modNamed s c.val (fun _ => armedFor (namedReg s c.val) s.cur.id.launch x.toNat n.toNat)).noted st.iss.word
        [⟨armEntry (namedReg s c.val), .full⟩]).sent (armEntry (namedReg s c.val)) false) := by
  obtain ⟨u, hx, hn⟩ := hr
  refine runWord_ok hf (onceLate_first first ?_)
  rw [bind_ok hx, bind_ok hn, bind_ok (namedCreg_ok may)]
  dsimp only
  rw [if_neg (by omega), if_neg (by omega), if_neg (by omega), get_bind, takenBy_eq, if_neg (by simp [idle]), set_bind, pure_run,
    takenBy_armseq]
  rfl

end

/-! ### MSIGN (R417) -/

section
variable {t : Word} (ht : src32 a st = .ok t s)
include ht

section
variable {d w : State} {q : Creg} (drained : s.drainCore s.curCore = d) (hq : d.cregD (coreQuad s.curCore) c.val = q)
  (signed : d.modCreg (coreQuad s.curCore) c.val (fun r => { r with sigs := r.sigs + 1 }) = w)
  (armed : q.armed = true) (ticket : t = q.armseq)
include drained hq signed armed ticket

/-- A signature before the last one only counts, after its thread's source action. -/
theorem exec_msign_counts (more : q.sigs + 1 ≠ q.nsig) : exec (.msign hd a c) st = .next w := by
  refine runWord_ok hf (u := ()) ?_
  rw [bind_ok ht, bind_ok (namedCreg_ok may)]
  dsimp only
  rw [modify_bind, get_bind, drained, hq, if_neg (by simp [armed, ticket]), if_neg more, set_run, signed]

/-- The last signature appends the operation, if the queues have room and Marrow's tables pass the command. -/
theorem exec_msign_appends (last : q.sigs + 1 = q.nsig) {y : State}
    (room : w.appendOp (coreQuad s.curCore) c.val (w.cur.id.launch.getD 0) w.cur.id.ctx = (y, false))
    (passes : ∀ arr ∈ appendedTo w y, crossBridge w.curWho arr .command (marrowAddr arr false 0) d = .ok () d) :
    exec (.msign hd a c) st = .next y := by
  refine runWord_ok hf (u := ()) ?_
  rw [bind_ok ht, bind_ok (namedCreg_ok may)]
  dsimp only
  rw [modify_bind, get_bind, drained, hq, if_neg (by simp [armed, ticket]), if_pos last, signed, room]
  dsimp only
  rw [if_neg Bool.false_ne_true, bind_ok (forX_stays passes), set_run]

end

/-! ### MDRAIN, MCFG, MNORM, MWAIT and MRESET (R221, R418, R419) -/

/-- A ticket that is not ahead of every arm is waited for. -/
theorem exec_mdrain (behind : ((namedReg s c.val).armseq - t).toNat < 2 ^ 31) :
    exec (.mdrain hd a c) st = .next (s.waits (.mdrain c.val t)) := by
  refine runWord_ok hf (u := ()) ?_
  rw [bind_ok ht, bind_ok (namedCreg_ok may)]
  dsimp only
  rw [if_neg (Nat.not_le.2 behind), addWait_run]

theorem exec_mcfg (first : FirstOfSet st) (mode : t.toNat ≤ 3) :
    exec (.mcfg hd a c) st =
      .next ((modNamed s c.val (fun r => { r with trapm := BitVec.ofNat 2 t.toNat })).onceDone st.iss.word []) := by
  refine runWord_ok hf (onceX_first first ?_)
  rw [bind_ok ht, bind_ok (namedCreg_ok may)]
  dsimp only
  rw [if_neg (by omega), modify_bind, pure_run]
  rfl

end

/-- A reference that is finite and not below zero is taken; either zero is taken as 0. -/
theorem exec_mnorm {x : DWord} {neg : Bool} {m : Nat} {e : Int} (first : FirstOfSet st) (hx : src64 a st = .ok x s)
    (finite : f64.dec x.toNat = .fin neg m e) (sign : neg = false ∨ m = 0) :
    exec (.mnorm hd a c) st =
      .next ((modNamed s c.val (fun r => { r with ref := if m = 0 then 0 else x })).onceDone st.iss.word []) := by
  have notBelow : ¬ (neg && m != 0) = true := by
    obtain rfl | rfl := sign <;> simp
  refine runWord_ok hf (onceX_first first ?_)
  rw [bind_ok hx, bind_ok (namedCreg_ok may)]
  simp only [finite, if_neg notBelow, modify_bind, pure_run]
  rfl

end

section
variable {hd : Hd} {c : Fin 16} {s : State} (hf : Fires hd.gd s) (may : MayName s c.val)
include hf may

theorem exec_mwait : exec (.mwait hd c) s = .next (s.waits (.mwait c.val none)) := by
  refine runWord_ok hf (u := ()) ?_
  rw [bind_ok (namedCreg_ok may), addWait_run]

/-- A register after MRESET: an arm not yet signed is cancelled and completes, status and reference clear. -/
def clearedReg (r : Creg) : Creg :=
  { (if r.armed then ({ r with armed := false } : Creg).complete r.armseq none else r) with cst := 0, ref := 0 }

theorem exec_mreset (first : FirstOfSet s) :
    exec (.mreset hd c) s = .next ((modNamed s c.val clearedReg).onceDone s.iss.word []) := by
  refine runWord_ok hf (onceX_first first ?_)
  rw [bind_ok (namedCreg_ok may)]
  rfl

end

/-- Settles O26: each word, once its operands are read and its register may be named (`namedCreg_ok`), is run through. -/
theorem matrixWords : Obligations.MatrixWords := by
  intro hd a b c st s hf may
  refine ⟨fun x n first hr pos le canon aligned => ⟨fun armed => ?armed, fun idle => ?idle⟩, fun t ht => ⟨?sign, ?drain, ?config⟩, ?norm,
    ?reset⟩
  case armed => exact exec_marm_armed hf may first hr pos le canon aligned armed
  case idle => exact exec_marm_idle hf may first hr pos le canon aligned idle
  case sign =>
    exact fun armed ticket => ⟨exec_msign_counts hf may ht rfl rfl rfl armed ticket,
      fun last y => exec_msign_appends hf may ht rfl rfl rfl armed ticket last⟩
  case drain => exact exec_mdrain hf may ht
  case config => exact exec_mcfg hf may ht
  case norm => exact fun x neg m e first hx finite sign => exec_mnorm hf may first hx finite sign
  case reset =>
    rintro rfl
    exact ⟨exec_mwait hf may, exec_mreset hf may⟩

end Sys2Proof.Proofs
end

