-- ==== Sys2Proof/Proofs/IntegerReduction.lean ====
section
/-! PROOFS. REDUCE.add of the 32-bit integers (R265, R267): a slot of the tree, absent or a number, is read as an element of
`WithZero (BitVec 32)`, in which absent operands are 0 and two numbers add modulo 2^32. Every level keeps the total of the slots. -/
namespace Sys2Proof.Proofs
open Sys2Proof.Machine Sys2Proof.Laws

/-- What a slot of the tree holds: its value modulo 2^32, or 0, which is no number, where it is absent. -/
def slotVal : Option XV → WithZero (BitVec 32)
  | none => 0
  | some x => (BitVec.ofNat 32 x.v : BitVec 32)

@[simp] theorem slotVal_none : slotVal none = 0 := rfl
@[simp] theorem slotVal_some (x : XV) : slotVal (some x) = (BitVec.ofNat 32 x.v : BitVec 32) := rfl

/-- The total of the first n slots. -/
def slotSum (v : List (Option XV)) (n : Nat) : WithZero (BitVec 32) := ∑ t ∈ Finset.range n, slotVal (v.getD t none)

/-- The step of a level's loop at position t. -/
def levelStep (o : ScanOp) (ty : ScanTy) (d : Nat) (acc : List (Option XV) × AL DWord) (t : Nat) : List (Option XV) × AL DWord :=
  let r := treeStep o ty t acc.2 (acc.1.getD t none) (acc.1.getD (t + d) none)
  (acc.1.set t r.1, r.2)

theorem redLevel_eq_foldl (o : ScanOp) (ty : ScanTy) (d : Nat) (v : List (Option XV)) (srs : AL DWord) :
    redLevel o ty d v srs = (List.range d).foldl (levelStep o ty d) (v, srs) := rfl

/-! ### The 32-bit integer types -/

section
variable {ty : ScanTy} (int : ty = .i32 ∨ ty = .n32)
include int

theorem scanStep_add (u x y : Nat) : (scanStep .add ty u x y).1 = (x + y) % 2 ^ 32 := by
  obtain rfl | rfl := int <;> rfl

/-- One step adds what its operands hold, absent operands passed through. -/
theorem slotVal_treeStep (t : Nat) (srs : AL DWord) (x y : Option XV) :
    slotVal (treeStep .add ty t srs x y).1 = slotVal x + slotVal y := by
  cases x with
  | none => rw [treeStep, slotVal_none, zero_add]
  | some x =>
    cases y with
    | none => exact (add_zero (slotVal (some x))).symm
    | some y =>
      have step (u : Nat) : BitVec.ofNat 32 (scanStep .add ty u x.v y.v).1 = BitVec.ofNat 32 x.v + BitVec.ofNat 32 y.v := by
        rw [scanStep_add int, BitVec.ofNat_add_ofNat]
        exact BitVec.eq_of_toNat_eq (by simp)
      simp only [treeStep, slotVal_some, step, WithZero.coe_add]

/-! ### A level and the tree -/

/-- After the loop's first k positions these hold the sums, and the other positions what they held before. -/
theorem foldl_levelStep {d k : Nat} (v : List (Option XV)) (srs : AL DWord) (hk : k ≤ d) (hd : d ≤ v.length) :
    let w := ((List.range k).foldl (levelStep .add ty d) (v, srs)).1
    w.length = v.length ∧ ∀ t, (t < k → slotVal (w.getD t none) = slotVal (v.getD t none) + slotVal (v.getD (t + d) none)) ∧
      (k ≤ t → w.getD t none = v.getD t none) := by
  induction k with
  | zero => simp
  | succ k ih =>
    obtain ⟨len, slots⟩ := ih (by omega)
    simp only [List.range_succ, List.foldl_append, List.foldl_cons, List.foldl_nil, levelStep]
    generalize (List.range k).foldl _ (v, srs) = acc at len slots
    have elsewhere {t : Nat} (x : Option XV) (ht : t ≠ k) : (acc.1.set k x).getD t none = acc.1.getD t none := by
      simp only [List.getD_eq_getElem?_getD, List.getElem?_set_ne ht.symm]
    refine ⟨by simp [len], fun t => ⟨fun ht => ?_, fun ht => ?_⟩⟩
    · obtain rfl | below : t = k ∨ t < k := by omega
      · have own := (slots t).2 le_rfl
        have partner := (slots (t + d)).2 (by omega)
        rw [List.getD_eq_getElem?_getD, List.getElem?_set_self (by omega), Option.getD_some, slotVal_treeStep int, own, partner]
      · rw [elsewhere _ (by omega), (slots t).1 below]
    · rw [elsewhere _ (by omega), (slots t).2 (by omega)]

/-- A level folds the upper half of the slots onto the lower and keeps their total. -/
theorem slotSum_redLevel {d : Nat} (v : List (Option XV)) (srs : AL DWord) (hd : d ≤ v.length) :
    (redLevel .add ty d v srs).1.length = v.length ∧ slotSum (redLevel .add ty d v srs).1 d = slotSum v (d + d) := by
  obtain ⟨len, slots⟩ := foldl_levelStep int v srs le_rfl hd
  rw [redLevel_eq_foldl]
  refine ⟨len, ?_⟩
  calc slotSum ((List.range d).foldl (levelStep .add ty d) (v, srs)).1 d
      = ∑ t ∈ Finset.range d, (slotVal (v.getD t none) + slotVal (v.getD (t + d) none)) :=
        Finset.sum_congr rfl fun t ht => (slots t).1 (Finset.mem_range.1 ht)
    _ = slotSum v (d + d) := by simp only [slotSum, Finset.sum_add_distrib, Finset.sum_range_add, Nat.add_comm d]

/-- The tree of k levels leaves the total of the 2^k slots in slot 0 (R265). -/
theorem slotVal_redTree {k : Nat} (v : List (Option XV)) (srs : AL DWord) (hv : 2 ^ k ≤ v.length) :
    slotVal ((redTree .add ty ((List.range k).map (2 ^ ·)).reverse v srs).1.getD 0 none) = slotSum v (2 ^ k) := by
  induction k generalizing v srs with
  | zero => simp [redTree, slotSum]
  | succ k ih =>
    have halves : 2 ^ (k + 1) = 2 ^ k + 2 ^ k := by omega
    obtain ⟨len, total⟩ := slotSum_redLevel int v srs (d := 2 ^ k) (by omega)
    rw [halves, ← total, ← ih _ (redLevel .add ty (2 ^ k) v srs).2 (by omega), List.range_succ, List.map_append, List.reverse_append]
    rfl

/-- The entry of a slot: its number with bit 32 set, or 0, the identity of add, where it is absent (R267). -/
theorem scanEntry_add (x : Option XV) :
    scanEntry .add ty x = (slotVal x).recZeroCoe 0 (fun b => dw (b.toNat + 2 ^ 32)) := by
  have narrow : stW ty = false := by obtain rfl | rfl := int <;> rfl
  have identity : identOf .add ty = 0 := by obtain rfl | rfl := int <;> rfl
  cases x with
  | none => simp [scanEntry, identity, dw]
  | some x => simp [scanEntry, narrow]

end

/-! ### The contributions -/

/-- What a thread of the set adds to the total. -/
def contribution (e : XgEnt) : WithZero (BitVec 32) := if e.contrib then (BitVec.ofNat 32 e.a.toNat : BitVec 32) else 0

/-- What the tree starts with at a position. -/
def heldAt (es : List XgEnt) (t : Nat) : WithZero (BitVec 32) := slotVal ((xgAt es t).map fun e => ⟨e.a.toNat, 0, [t]⟩)

theorem xgAt_cons (e : XgEnt) (es : List XgEnt) (t : Nat) :
    xgAt (e :: es) t = if e.contrib = true ∧ e.tid = t then some e else xgAt es t := by
  by_cases h : e.contrib = true ∧ e.tid = t <;> simp [xgAt, h]

theorem xgAt_eq_none {es : List XgEnt} {t : Nat} (h : ∀ e ∈ es, e.tid ≠ t) : xgAt es t = none := by
  simpa [xgAt] using fun e he _ => h e he

/-- A thread contributes at its own position, which no other thread has. -/
theorem heldAt_cons {e : XgEnt} {es : List XgEnt} (h : ∀ x ∈ es, e.tid ≠ x.tid) (t : Nat) :
    heldAt (e :: es) t = (if e.tid = t then contribution e else 0) + heldAt es t := by
  rw [heldAt, xgAt_cons]
  by_cases own : e.tid = t
  · have alone : xgAt es t = none := xgAt_eq_none fun x hx => own ▸ (h x hx).symm
    by_cases c : e.contrib <;> simp [own, c, alone, heldAt, contribution]
  · simp [own, heldAt]

/-- The tree starts with every contribution at one position. -/
theorem sum_heldAt {es : List XgEnt} {n : Nat} (distinct : es.Pairwise (fun x y => x.tid ≠ y.tid)) (below : ∀ e ∈ es, e.tid < n) :
    ∑ t ∈ Finset.range n, heldAt es t = (es.map contribution).sum := by
  induction es with
  | nil => exact Finset.sum_eq_zero fun _ _ => rfl
  | cons e es ih =>
    obtain ⟨apart, distinct⟩ := List.pairwise_cons.1 distinct
    obtain ⟨low, below⟩ := List.forall_mem_cons.1 below
    rw [List.map_cons, List.sum_cons, ← ih distinct below, Finset.sum_congr rfl fun t _ => heldAt_cons apart t,
      Finset.sum_add_distrib, Finset.sum_ite_eq, if_pos (Finset.mem_range.2 low)]

/-- Contributions add up to the sum of their numbers; without one, the total is absent. -/
theorem sum_contributions (es : List XgEnt) : (es.map contribution).sum =
    if es.any (·.contrib) then
      ((BitVec.ofNat 32 ((es.filter (·.contrib)).map (·.a.toNat)).sum : BitVec 32) : WithZero (BitVec 32))
    else 0 := by
  induction es with
  | nil => rfl
  | cons e es ih =>
    rw [List.map_cons, List.sum_cons, ih, contribution]
    cases c : e.contrib with
    | false => simp [c]
    | true =>
      cases rest : es.any (·.contrib) with
      | true => simp [c, BitVec.ofNat_add]
      | false =>
        have noContrib : es.filter (·.contrib) = [] := by simpa using rest
        simp [c, noContrib]

/-! ### REDUCE.add -/

/-- The slots that the tree of w positions starts with (R366). -/
def startSlots (w : Nat) (es : List XgEnt) : List (Option XV) :=
  (List.range w).map fun (t : Nat) => (xgAt es (t : Int)).map fun e => ⟨e.a.toNat, 0, [t]⟩

/-- Slot 0 after the last level. -/
def treeRoot (w : Nat) (o : ScanOp) (ty : ScanTy) (es : List XgEnt) (srs : AL DWord) : Option XV :=
  (redTree o ty (levels w).reverse (startSlots w es) srs).1.getD 0 none

/-- Every thread of the set gets the entry and the flags of slot 0. -/
theorem xgResults_red (w : Nat) (set : List Nat) (g : List Word) (es : List XgEnt) (o : ScanOp) (ty : ScanTy) (srs : AL DWord) :
    (xgResults w set g es (.red o ty) srs).1 =
      es.map fun e => (e.tid, [scanEntry o ty (treeRoot w o ty es srs)], ((treeRoot w o ty es srs).map (·.fl)).getD 0) := rfl

theorem slotSum_startSlots (w : Nat) (es : List XgEnt) : slotSum (startSlots w es) w = ∑ t ∈ Finset.range w, heldAt es t := by
  refine Finset.sum_congr rfl fun t ht => ?_
  simp [startSlots, heldAt, List.getD_eq_getElem?_getD, Finset.mem_range.1 ht]

theorem levels_32 : levels 32 = (List.range 5).map (2 ^ ·) := by decide

/-- The tree of a set of at most 32 threads holds the total of its contributions in slot 0. -/
theorem slotVal_treeRoot {ty : ScanTy} {es : List XgEnt} (srs : AL DWord) (int : ty = .i32 ∨ ty = .n32)
    (distinct : es.Pairwise (fun x y => x.tid ≠ y.tid)) (below : ∀ e ∈ es, e.tid < 32) :
    slotVal (treeRoot 32 .add ty es srs) = (es.map contribution).sum := by
  rw [treeRoot, levels_32, slotVal_redTree int _ _ (by simp [startSlots]), ← sum_heldAt distinct below]
  exact slotSum_startSlots 32 es

/-- Settles O17: the five levels of the tree leave the total of the contributions in slot 0, which every thread of the set gets. -/
theorem integerReduction : Obligations.IntegerReduction := by
  intro set g es srs ty int distinct bounds e he
  have total := slotVal_treeRoot srs int distinct fun e he => (bounds e he).1
  have entry : scanEntry .add ty (treeRoot 32 .add ty es srs) =
      if es.any (·.contrib) then dw (((es.filter (·.contrib)).map (·.a.toNat)).sum % 2 ^ 32 + 2 ^ 32) else 0 := by
    rw [scanEntry_add int, total, sum_contributions]
    split
    · rw [WithZero.recZeroCoe_coe, BitVec.toNat_ofNat]
    · rfl
  rw [xgResults_red, ← entry]
  exact ⟨_, List.mem_map.2 ⟨e, he, rfl⟩⟩

end Sys2Proof.Proofs
end

