-- ==== Sys2Proof/Proofs/DecodedWords.lean ====
section
/-! PROOFS. The decoder and the encoder (R316 to R327). What the decoder takes for an instruction is that instruction's encoding, bit
for bit: the fields of a format, written as the list of their lowest bits, add up to the word, and every row of a major takes or fixes
each of them. -/
namespace Sys2Proof.Proofs
open Sys2Proof.Laws

/-! ### Fields of a word -/

/-- A field is its upper part and its lower part. -/
theorem fld_split (n : Nat) {hi mid lo : Nat} (h₁ : lo ≤ mid) (h₂ : mid ≤ hi) :
    fld n hi lo = fld n hi (mid + 1) * 2 ^ (mid + 1 - lo) + fld n mid lo := by
  have width : hi + 1 - lo = mid + 1 - lo + (hi - mid) := by omega
  have base : 2 ^ (mid + 1) = 2 ^ lo * 2 ^ (mid + 1 - lo) := by rw [← Nat.pow_add]; congr 1; omega
  unfold fld
  rw [width, Nat.pow_add, Nat.mod_mul, Nat.add_sub_add_right, base, ← Nat.div_div_eq_div_mul]
  ring

/-- The bits of n up to bit hi, cut into fields whose lowest bits are given from the top down. -/
def cutAt (n : Nat) : Nat → List Nat → Nat
  | hi, [] => fld n hi 0
  | hi, lo :: los => fld n hi lo * 2 ^ lo + cutAt n (lo - 1) los

/-- The cuts of a field from bit hi down lie below its top, above bit 0 and in descending order. -/
theorem cutAt_eq (n : Nat) (los : List Nat) (hi : Nat) (h : ((hi + 1) :: (los ++ [0])).Pairwise (· > ·)) : cutAt n hi los = fld n hi 0 := by
  induction los generalizing hi with
  | nil => rfl
  | cons lo los ih =>
    obtain ⟨top, h⟩ := List.pairwise_cons.1 h
    have pos := (List.pairwise_cons.1 h).1 0 (by simp)
    have le := top lo (by simp)
    obtain ⟨mid, rfl⟩ := Nat.exists_eq_add_of_lt pos
    rw [Nat.zero_add] at *
    rw [cutAt, Nat.add_sub_cancel, ih mid h, fld_split n (Nat.zero_le mid) (by omega : mid ≤ hi)]
    rfl

/-- A word is the sum of its fields. -/
theorem word_cut (n : Nat) (los : List Nat) (h : (32 :: (los ++ [0])).Pairwise (· > ·)) : n % 2 ^ 32 = cutAt n 31 los := by
  rw [cutAt_eq n los 31 h]
  simp [fld]

@[simp] theorem fld_lt {n hi lo m : Nat} (h : 2 ^ (hi + 1 - lo) ≤ m) : fld n hi lo < m := (Nat.mod_lt _ (by positivity)).trans_le h
@[simp] theorem fld_mod {n hi lo m : Nat} (h : 2 ^ (hi + 1 - lo) ≤ m) : fld n hi lo % m = fld n hi lo := Nat.mod_eq_of_lt (fld_lt h)

/-! ### Codes of what is decoded -/

@[simp] theorem b2n_bit (n i : Nat) : b2n (bit n i) = fld n i i := by
  unfold bit fld
  rw [show i + 1 - i = 1 by omega, pow_one]
  obtain h | h := Nat.mod_two_eq_zero_or_one (n / 2 ^ i) <;> rw [h] <;> rfl

@[simp] theorem gdOf_enc (n : Nat) : (gdOf n).enc = fld n 24 24 * 16777216 + fld n 23 21 * 2097152 := by simp [gdOf, Guard.enc]
@[simp] theorem hdOf_enc (n : Nat) : (hdOf n).enc = fld n 31 31 * 2147483648 + (gdOf n).enc := by simp [hdOf, Hd.enc]

@[simp] theorem src_enc_dec {c : Nat} (h : c < 64) : (Src.dec c).enc = c := by interval_cases c <;> rfl
@[simp] theorem frel_enc_dec {c : Nat} (h : c < 8) : (FRel.dec c).enc = c := by interval_cases c <;> rfl
@[simp] theorem numTy_enc_dec {c : Nat} (h : c < 8) : (NumTy.dec c).enc = c := by interval_cases c <;> rfl
@[simp] theorem xmode_enc_dec {c : Nat} (h : c < 4) : (XMode.dec c).enc = c := by interval_cases c <;> rfl
@[simp] theorem voteForm_enc_dec {c : Nat} (h : c < 4) : (VoteForm.dec c).enc = c := by interval_cases c <;> rfl
@[simp] theorem scanTy_enc_dec {c : Nat} (h : c < 8) : (ScanTy.dec c).enc = c := by interval_cases c <;> rfl
@[simp] theorem space_enc_dec {c : Nat} (h : c < 8) : (Space.dec c).enc = c := by interval_cases c <;> rfl
@[simp] theorem sel_enc_dec {c : Nat} (h : c < 32) : (Sel.dec c).enc = c := by interval_cases c <;> rfl
@[simp] theorem rm_dec_ok {c : Nat} {x : RM} : RM.dec c = .ok x ↔ c = x.enc := by
  refine ⟨fun h => ?_, fun h => h ▸ rm_dec_enc x⟩
  unfold RM.dec at h
  split at h <;> cases h <;> rfl
@[simp] theorem rel_dec_ok {c : Nat} {x : Rel} : Rel.dec c = .ok x ↔ c = x.enc := by
  refine ⟨fun h => ?_, fun h => h ▸ rel_dec_enc x⟩
  unfold Rel.dec at h
  split at h <;> cases h <;> rfl
@[simp] theorem scanOp_dec_ok {c : Nat} {x : ScanOp} : ScanOp.dec c = .ok x ↔ c = x.enc := by
  refine ⟨fun h => ?_, fun h => h ▸ scanOp_dec_enc x⟩
  unfold ScanOp.dec at h
  split at h <;> cases h <;> rfl
@[simp] theorem intfOp_dec_ok {c : Nat} {x : IntfOp} : IntfOp.dec c = .ok x ↔ c = x.enc := by
  refine ⟨fun h => ?_, fun h => h ▸ intfOp_dec_enc x⟩
  unfold IntfOp.dec at h
  split at h <;> cases h <;> rfl
@[simp] theorem fltfOp_dec_ok {c : Nat} {x : FltfOp} : FltfOp.dec c = .ok x ↔ c = x.enc := by
  refine ⟨fun h => ?_, fun h => h ▸ fltfOp_dec_enc x⟩
  unfold FltfOp.dec at h
  split at h <;> cases h <;> rfl
@[simp] theorem width_dec_ok {c : Nat} {x : Width} : Width.dec c = .ok x ↔ c = x.enc := by
  refine ⟨fun h => ?_, fun h => h ▸ width_dec_enc x⟩
  unfold Width.dec at h
  split at h <;> cases h <;> rfl
@[simp] theorem boxMode_dec_ok {c : Nat} {x : BoxMode} : BoxMode.dec c = .ok x ↔ c = x.enc := by
  refine ⟨fun h => ?_, fun h => h ▸ boxMode_dec_enc x⟩
  unfold BoxMode.dec at h
  split at h <;> cases h <;> rfl
@[simp] theorem cull_dec_ok {c : Nat} {x : Cull} : Cull.dec c = .ok x ↔ c = x.enc := by
  refine ⟨fun h => ?_, fun h => h ▸ cull_dec_enc x⟩
  unfold Cull.dec at h
  split at h <;> cases h <;> rfl
@[simp] theorem subW_dec_ok {c : Nat} {x : SubW} : SubW.dec c = .ok x ↔ c = x.enc := by
  refine ⟨fun h => ?_, fun h => h ▸ subW_dec_enc x⟩
  unfold SubW.dec at h
  split at h <;> cases h <;> rfl

/-! ### What a decoder gives -/

/-- What r decodes is a well-formed instruction word whose encoding is the word that n holds in its low 32 bits. -/
def Exact (n : Nat) (r : Except DecErr Instr) : Prop := ∀ i, r = .ok i → i.isWord = true ∧ i.wf = true ∧ encodeNat i = n % 2 ^ 32
@[simp] theorem exact_error (n : Nat) (e : DecErr) : Exact n (.error e) := fun _ h => by cases h
@[simp] theorem exact_mk {n : Nat} {j : Instr} : Exact n (mk j) ↔ (j.wf = true → j.isWord = true ∧ encodeNat j = n % 2 ^ 32) := by
  unfold Exact mk
  split <;> simp_all
@[simp] theorem exact_need {n : Nat} {c : Bool} {e : DecErr} {r : Except DecErr Instr} :
    Exact n (need c e r) ↔ (c = true → Exact n r) := by
  cases c with
  | true => simp [need]
  | false =>
    simp only [need, Bool.false_eq_true, if_false, false_imp_iff, iff_true]
    split <;> exact exact_error n _
@[simp] theorem exact_bind {n : Nat} {α : Type} {x : Except DecErr α} {f : α → Except DecErr Instr} :
    Exact n (x >>= f) ↔ ∀ a, x = .ok a → Exact n (f a) := by
  cases x with
  | ok a => simp [ok_bind]
  | error e => exact ⟨fun _ _ h => (by cases h), fun _ => exact_error n e⟩


/-! ### The majors (Table 13.1): each row's fields make up the word -/

section
variable {n : Nat}

theorem exact_decInt2 (op : fld n 30 25 = 1) : Exact n (decInt2 n) := by
  have cut := word_cut n [31, 25, 24, 21, 15, 9, 3] (by decide)
  have cut₂ := word_cut n [31, 25, 24, 21, 15, 9, 3, 1] (by decide)
  have cut₃ := word_cut n [31, 25, 24, 21, 15, 9, 3, 2] (by decide)
  have cut₄ := word_cut n [31, 25, 24, 21, 15, 9, 3, 2, 1] (by decide)
  simp [cutAt, op] at cut cut₂ cut₃ cut₄
  unfold decInt2
  split <;> simp
  all_goals intros; exact ⟨rfl, by simp [encodeNat]; omega⟩

theorem exact_decInt3 (op : fld n 30 25 = 2) : Exact n (decInt3 n) := by
  have cut := word_cut n [31, 25, 24, 21, 15, 9, 3] (by decide)
  simp [cutAt, op] at cut
  unfold decInt3
  split <;> simp
  all_goals intros; exact ⟨rfl, by simp [encodeNat]; omega⟩

theorem exact_decInti (op : fld n 30 25 = 3) : Exact n (decInti n) := by
  have cut := word_cut n [31, 25, 24, 21, 15, 3] (by decide)
  simp [cutAt, op] at cut
  unfold decInti
  split <;> simp
  all_goals intros; exact ⟨rfl, by simp [encodeNat]; omega⟩

theorem exact_decCmp (op : fld n 30 25 = 4) : Exact n (decCmp n) := by
  have cut := word_cut n [31, 25, 24, 21, 15, 9, 6, 3, 2, 1] (by decide)
  simp [cutAt, op] at cut
  unfold decCmp
  simp
  all_goals intros; exact ⟨rfl, by simp [encodeNat]; omega⟩

theorem exact_decFcmp (op : fld n 30 25 = 5) : Exact n (decFcmp n) := by
  have cut := word_cut n [31, 25, 24, 21, 15, 9, 6, 3, 1] (by decide)
  simp [cutAt, op] at cut
  unfold decFcmp
  split <;> simp
  all_goals intros; exact ⟨rfl, by simp [encodeNat]; omega⟩

theorem exact_decPred (op : fld n 30 25 = 6) : Exact n (decPred n) := by
  have cut := word_cut n [31, 25, 24, 21, 18, 15, 12, 4] (by decide)
  have cut₂ := word_cut n [31, 25, 24, 21, 4] (by decide)
  simp [cutAt, op] at cut cut₂
  unfold decPred
  split <;> simp
  all_goals intros; exact ⟨rfl, by simp [encodeNat]; omega⟩

theorem exact_decFalu2 (op : fld n 30 25 = 7) : Exact n (decFalu2 n) := by
  have cut := word_cut n [31, 25, 24, 21, 15, 9, 3] (by decide)
  simp [cutAt, op] at cut
  unfold decFalu2
  split <;> simp
  all_goals intros; exact ⟨rfl, by simp [encodeNat]; omega⟩

theorem exact_decFalu3 (op : fld n 30 25 = 8) : Exact n (decFalu3 n) := by
  have cut := word_cut n [31, 25, 24, 21, 15, 9, 3] (by decide)
  simp [cutAt, op] at cut
  unfold decFalu3
  split <;> simp
  all_goals intros; exact ⟨rfl, by simp [encodeNat]; omega⟩

theorem exact_decHalu3 (op : fld n 30 25 = 9) : Exact n (decHalu3 n) := by
  have cut := word_cut n [31, 25, 24, 21, 15, 9, 3] (by decide)
  simp [cutAt, op] at cut
  unfold decHalu3
  simp
  all_goals intros; exact ⟨rfl, by simp [encodeNat]; omega⟩

theorem exact_decDalu2 (op : fld n 30 25 = 10) : Exact n (decDalu2 n) := by
  have cut := word_cut n [31, 25, 24, 21, 15, 9, 3] (by decide)
  simp [cutAt, op] at cut
  unfold decDalu2
  split <;> simp
  all_goals intros; exact ⟨rfl, by simp [encodeNat]; omega⟩

theorem exact_decDalu3 (op : fld n 30 25 = 11) : Exact n (decDalu3 n) := by
  have cut := word_cut n [31, 25, 24, 21, 15, 9, 3] (by decide)
  simp [cutAt, op] at cut
  unfold decDalu3
  simp
  all_goals intros; exact ⟨rfl, by simp [encodeNat]; omega⟩

theorem exact_decCvt (op : fld n 30 25 = 12) : Exact n (decCvt n) := by
  have cut := word_cut n [31, 25, 24, 21, 15, 9, 6, 3] (by decide)
  simp [cutAt, op] at cut
  unfold decCvt
  split <;> [split; skip] <;> simp
  all_goals intros; exact ⟨rfl, by simp [encodeNat]; omega⟩

theorem exact_decSfu (op : fld n 30 25 = 13) : Exact n (decSfu n) := by
  have cut := word_cut n [31, 25, 24, 21, 15, 9, 3] (by decide)
  simp [cutAt, op] at cut
  unfold decSfu
  split <;> simp
  all_goals intros; exact ⟨rfl, by simp [encodeNat]; omega⟩

theorem exact_decXgrp (op : fld n 30 25 = 14) : Exact n (decXgrp n) := by
  have cut := word_cut n [31, 25, 24, 21, 15, 9, 6, 4] (by decide)
  have cut₂ := word_cut n [31, 25, 24, 21, 15, 9, 6, 3] (by decide)
  have cut₃ := word_cut n [31, 25, 24, 21, 15, 9, 6, 4, 3] (by decide)
  have cut₄ := word_cut n [31, 25, 24, 21, 9, 6] (by decide)
  simp [cutAt, op] at cut cut₂ cut₃ cut₄
  unfold decXgrp
  split <;> simp
  all_goals intros; exact ⟨rfl, by simp [encodeNat]; omega⟩

theorem exact_decIntf (op : fld n 30 25 = 15) : Exact n (decIntf n) := by
  have cut := word_cut n [31, 25, 24, 21, 15, 10, 7, 1] (by decide)
  simp [cutAt, op] at cut
  unfold decIntf
  simp
  all_goals intros; exact ⟨rfl, by simp [encodeNat]; omega⟩

theorem exact_decFltf (op : fld n 30 25 = 16) : Exact n (decFltf n) := by
  have cut := word_cut n [31, 25, 24, 21, 15, 10, 7, 4, 3] (by decide)
  simp [cutAt, op] at cut
  unfold decFltf
  simp
  all_goals intros; exact ⟨rfl, by simp [encodeNat]; omega⟩

theorem exact_decUni (op : fld n 30 25 = 17) : Exact n (decUni n) := by
  have cut := word_cut n [31, 25, 24, 21, 15, 9, 3] (by decide)
  simp [cutAt, op] at cut
  unfold decUni
  split <;> simp
  all_goals intros; exact ⟨rfl, by simp [encodeNat]; omega⟩

theorem exact_decUld (op : fld n 30 25 = 18) : Exact n (decUld n) := by
  have cut := word_cut n [31, 25, 24, 21, 15, 9, 3] (by decide)
  have cut₂ := word_cut n [31, 25, 24, 21, 15, 3] (by decide)
  simp [cutAt, op] at cut cut₂
  unfold decUld
  split <;> simp
  all_goals intros; exact ⟨rfl, by simp [encodeNat]; omega⟩

theorem exact_decLd (op : fld n 30 25 = 24) : Exact n (decLd n) := by
  have cut := word_cut n [31, 25, 24, 21, 15, 9, 6, 3] (by decide)
  simp [cutAt, op] at cut
  unfold decLd
  split <;> simp
  all_goals intros; exact ⟨rfl, by simp [encodeNat]; omega⟩

theorem exact_decSt (op : fld n 30 25 = 25) : Exact n (decSt n) := by
  have cut := word_cut n [31, 25, 24, 21, 15, 9, 6, 3] (by decide)
  simp [cutAt, op] at cut
  unfold decSt
  split <;> simp
  all_goals intros; exact ⟨rfl, by simp [encodeNat]; omega⟩

theorem exact_decAtom (op : fld n 30 25 = 26) : Exact n (decAtom n) := by
  have cut := word_cut n [31, 25, 24, 21, 15, 9, 6, 3] (by decide)
  simp [cutAt, op] at cut
  unfold decAtom
  split <;> simp
  all_goals intros; exact ⟨rfl, by simp [encodeNat]; omega⟩

theorem exact_decRed (op : fld n 30 25 = 27) : Exact n (decRed n) := by
  have cut := word_cut n [31, 25, 24, 21, 15, 9, 6, 3] (by decide)
  simp [cutAt, op] at cut
  unfold decRed
  split <;> simp
  all_goals intros; exact ⟨rfl, by simp [encodeNat]; omega⟩

theorem exact_decMctl (op : fld n 30 25 = 28) : Exact n (decMctl n) := by
  have cut := word_cut n [31, 25, 24, 21, 15, 9, 6, 3] (by decide)
  simp [cutAt, op] at cut
  unfold decMctl
  split <;> simp
  all_goals intros; exact ⟨rfl, by simp [encodeNat]; omega⟩

theorem exact_decRing (op : fld n 30 25 = 29) : Exact n (decRing n) := by
  have cut := word_cut n [31, 25, 24, 21, 15, 9, 6, 3] (by decide)
  simp [cutAt, op] at cut
  unfold decRing
  split <;> simp
  all_goals intros; exact ⟨rfl, by simp [encodeNat]; omega⟩

theorem exact_decEdge (op : fld n 30 25 = 30) : Exact n (decEdge n) := by
  have cut := word_cut n [31, 25, 24, 21, 15, 9, 6] (by decide)
  have cut₂ := word_cut n [31, 25, 24, 21, 9, 6] (by decide)
  have cut₃ := word_cut n [31, 25, 24, 21, 15, 9, 6, 3] (by decide)
  have cut₄ := word_cut n [31, 25, 24, 21, 15, 9, 6, 4, 3] (by decide)
  simp [cutAt, op] at cut cut₂ cut₃ cut₄
  unfold decEdge
  split <;> simp
  all_goals intros; exact ⟨rfl, by simp [encodeNat]; omega⟩

theorem exact_decEngm (op : fld n 30 25 = 31) : Exact n (decEngm n) := by
  have cut := word_cut n [31, 25, 24, 21, 15, 9, 6, 4] (by decide)
  have cut₂ := word_cut n [31, 25, 24, 21, 9, 6, 4] (by decide)
  simp [cutAt, op] at cut cut₂
  unfold decEngm
  split <;> simp
  all_goals intros; exact ⟨rfl, by simp [encodeNat]; omega⟩

theorem exact_decEngc (op : fld n 30 25 = 32) : Exact n (decEngc n) := by
  have cut := word_cut n [31, 25, 24, 21, 15, 9, 6, 3] (by decide)
  have cut₂ := word_cut n [31, 25, 24, 21, 15, 9, 6, 3, 1] (by decide)
  simp [cutAt, op] at cut cut₂
  unfold decEngc
  split <;> simp
  all_goals intros; exact ⟨rfl, by simp [encodeNat]; omega⟩

theorem exact_decGfx (op : fld n 30 25 = 33) : Exact n (decGfx n) := by
  have cut := word_cut n [31, 25, 24, 21, 15, 9, 6] (by decide)
  have cut₂ := word_cut n [31, 25, 24, 21, 15, 9, 6, 3] (by decide)
  have cut₃ := word_cut n [31, 25, 24, 21, 15, 9, 6, 4] (by decide)
  have cut₄ := word_cut n [31, 25, 24, 21, 15, 9, 6, 4, 2] (by decide)
  simp [cutAt, op] at cut cut₂ cut₃ cut₄
  unfold decGfx
  split <;> simp
  all_goals intros; exact ⟨rfl, by simp [encodeNat]; omega⟩

theorem exact_decTexi (op : fld n 30 25 = 34) : Exact n (decTexi n) := by
  have cut := word_cut n [31, 25, 24, 21, 15, 9, 6, 3] (by decide)
  simp [cutAt, op] at cut
  unfold decTexi
  split <;> simp
  all_goals intros; exact ⟨rfl, by simp [encodeNat]; omega⟩

theorem exact_decSys (op : fld n 30 25 = 35) : Exact n (decSys n) := by
  have cut := word_cut n [31, 25, 24, 21, 15, 9, 5] (by decide)
  have cut₂ := word_cut n [31, 25, 24, 21, 9, 5] (by decide)
  have cut₃ := word_cut n [31, 25, 24, 21, 15, 9, 5, 1] (by decide)
  simp [cutAt, op] at cut cut₂ cut₃
  unfold decSys
  split <;> simp
  all_goals intros; exact ⟨rfl, by simp [encodeNat]; omega⟩

theorem exact_decCommit (op : fld n 30 25 = 36) : Exact n (decCommit n) := by
  have cut := word_cut n [31, 25, 24, 21, 17, 12, 11, 7, 2, 1] (by decide)
  simp [cutAt, op] at cut
  unfold decCommit
  simp
  all_goals intros; exact ⟨rfl, by simp [encodeNat]; omega⟩

theorem exact_decRej (op : fld n 30 25 = 37) : Exact n (decRej n) := by
  have cut := word_cut n [31, 25, 24, 21, 18] (by decide)
  simp [cutAt, op] at cut
  unfold decRej
  simp
  all_goals intros; exact ⟨rfl, by simp [encodeNat]; omega⟩

theorem exact_decNop (op : fld n 30 25 = 38) : Exact n (decNop n) := by
  have cut := word_cut n [31, 25] (by decide)
  simp [cutAt, op] at cut
  unfold decNop
  simp
  all_goals intros; exact ⟨rfl, by simp [encodeNat]; omega⟩

theorem exact_decCtrl (op : fld n 30 25 = 48) : Exact n (decCtrl n) := by
  have cut := word_cut n [31, 25, 24, 21, 18] (by decide)
  simp [cutAt, op] at cut
  unfold decCtrl
  split <;> simp
  all_goals intros; exact ⟨rfl, by simp [encodeNat]; omega⟩

theorem exact_decCtrlx (op : fld n 30 25 = 49) : Exact n (decCtrlx n) := by
  have cut := word_cut n [31, 25, 24, 21, 18, 12] (by decide)
  simp [cutAt, op] at cut
  unfold decCtrlx
  split <;> simp
  all_goals intros; exact ⟨rfl, by simp [encodeNat]; omega⟩

theorem exact_decXword (op : fld n 30 25 = 63) : Exact n (decXword n) := by
  have cut := word_cut n [31, 25, 21, 17, 12, 7, 2, 1] (by decide)
  have cut₂ := word_cut n [31, 25, 21, 19, 16, 13, 12, 8, 7, 6] (by decide)
  simp [cutAt, op] at cut cut₂
  unfold decXword
  split <;> simp
  all_goals intros; exact ⟨rfl, by simp [encodeNat]; omega⟩

end

theorem exact_decodeNat (n : Nat) : Exact n (decodeNat n) := by
  unfold decodeNat
  split <;> simp [*, exact_decInt2, exact_decInt3, exact_decInti, exact_decCmp, exact_decFcmp, exact_decPred, exact_decFalu2, exact_decFalu3,
    exact_decHalu3, exact_decDalu2, exact_decDalu3, exact_decCvt, exact_decSfu, exact_decXgrp, exact_decIntf, exact_decFltf, exact_decUni,
    exact_decUld, exact_decLd, exact_decSt, exact_decAtom, exact_decRed, exact_decMctl, exact_decRing, exact_decEdge, exact_decEngm,
    exact_decEngc, exact_decGfx, exact_decTexi, exact_decSys, exact_decCommit, exact_decRej, exact_decNop, exact_decCtrl, exact_decCtrlx,
    exact_decXword]

/-- Settles O57: in every row of every major, the fields that the row takes and those that it fixes make up the word. -/
theorem decodeExact : Obligations.DecodeExact := by
  intro w i h
  obtain ⟨word, wf, enc⟩ := exact_decodeNat w.toNat i h
  exact ⟨word, wf, enc.trans (Nat.mod_eq_of_lt w.isLt)⟩

/-- Every constructor's own law (Laws/PerInstr.lean). -/
theorem decode_encode (i : Instr) : RoundTrip.Statement i := by
  cases i with
  | add => apply RoundTrip.add | sub => apply RoundTrip.sub | mul => apply RoundTrip.mul | mulh => apply RoundTrip.mulh
  | div => apply RoundTrip.div | rem => apply RoundTrip.rem | min => apply RoundTrip.min | max => apply RoundTrip.max
  | abs => apply RoundTrip.abs | neg => apply RoundTrip.neg | and => apply RoundTrip.and | or => apply RoundTrip.or
  | xor => apply RoundTrip.xor | andn => apply RoundTrip.andn | not => apply RoundTrip.not | shl => apply RoundTrip.shl
  | shr => apply RoundTrip.shr | sar => apply RoundTrip.sar | rot => apply RoundTrip.rot | popc => apply RoundTrip.popc
  | clz => apply RoundTrip.clz | ctz => apply RoundTrip.ctz | brev => apply RoundTrip.brev | mov => apply RoundTrip.mov
  | sel => apply RoundTrip.sel | sel64 => apply RoundTrip.sel64 | bfx => apply RoundTrip.bfx | dot4 => apply RoundTrip.dot4
  | dotn => apply RoundTrip.dotn | unpackp => apply RoundTrip.unpackp | mad => apply RoundTrip.mad | madw => apply RoundTrip.madw
  | addc => apply RoundTrip.addc | subb => apply RoundTrip.subb | shf => apply RoundTrip.shf | bfi => apply RoundTrip.bfi
  | perm => apply RoundTrip.perm | lea => apply RoundTrip.lea | addImm => apply RoundTrip.addImm | andImm => apply RoundTrip.andImm
  | orImm => apply RoundTrip.orImm | xorImm => apply RoundTrip.xorImm | shlImm => apply RoundTrip.shlImm
  | shrImm => apply RoundTrip.shrImm | sarImm => apply RoundTrip.sarImm | mulImm => apply RoundTrip.mulImm | cmp => apply RoundTrip.cmp
  | fcmp => apply RoundTrip.fcmp | dcmp => apply RoundTrip.dcmp | fcmpH => apply RoundTrip.fcmpH | plop => apply RoundTrip.plop
  | packp => apply RoundTrip.packp | fadd => apply RoundTrip.fadd | fsub => apply RoundTrip.fsub | fmul => apply RoundTrip.fmul
  | fmin => apply RoundTrip.fmin | fmax => apply RoundTrip.fmax | fminn => apply RoundTrip.fminn | fmaxn => apply RoundTrip.fmaxn
  | frnd => apply RoundTrip.frnd | fscale => apply RoundTrip.fscale | fgetx => apply RoundTrip.fgetx | fclass => apply RoundTrip.fclass
  | hadd2 => apply RoundTrip.hadd2 | hmul2 => apply RoundTrip.hmul2 | ffma => apply RoundTrip.ffma | fdot2 => apply RoundTrip.fdot2
  | fdot2Bf => apply RoundTrip.fdot2Bf | hfma2 => apply RoundTrip.hfma2 | dadd => apply RoundTrip.dadd | dsub => apply RoundTrip.dsub
  | dmul => apply RoundTrip.dmul | dmin => apply RoundTrip.dmin | dmax => apply RoundTrip.dmax | drnd => apply RoundTrip.drnd
  | dscale => apply RoundTrip.dscale | dgetx => apply RoundTrip.dgetx | dclass => apply RoundTrip.dclass | dfma => apply RoundTrip.dfma
  | cvt => apply RoundTrip.cvt | cvtnI32 => apply RoundTrip.cvtnI32 | cvtnN32 => apply RoundTrip.cvtnN32
  | cvtnF32 => apply RoundTrip.cvtnF32 | cvtnF64 => apply RoundTrip.cvtnF64 | pk2F16 => apply RoundTrip.pk2F16
  | pk2Bf16 => apply RoundTrip.pk2Bf16 | rcp => apply RoundTrip.rcp | rsq => apply RoundTrip.rsq | sqrt => apply RoundTrip.sqrt
  | ex2 => apply RoundTrip.ex2 | lg2 => apply RoundTrip.lg2 | sinpi => apply RoundTrip.sinpi | cospi => apply RoundTrip.cospi
  | tanh => apply RoundTrip.tanh | drcp => apply RoundTrip.drcp | drsq => apply RoundTrip.drsq | xshuf => apply RoundTrip.xshuf
  | vote => apply RoundTrip.vote | reduce => apply RoundTrip.reduce | scan => apply RoundTrip.scan | scanX => apply RoundTrip.scanX
  | matchX => apply RoundTrip.matchX | elect => apply RoundTrip.elect | intf => apply RoundTrip.intf | fltf => apply RoundTrip.fltf
  | umov => apply RoundTrip.umov | uadd => apply RoundTrip.uadd | usub => apply RoundTrip.usub | umul => apply RoundTrip.umul
  | uand => apply RoundTrip.uand | uor => apply RoundTrip.uor | uxor => apply RoundTrip.uxor | ushl => apply RoundTrip.ushl
  | uld => apply RoundTrip.uld | uld64 => apply RoundTrip.uld64 | ushr => apply RoundTrip.ushr | ucmp => apply RoundTrip.ucmp
  | usel => apply RoundTrip.usel | uwin => apply RoundTrip.uwin | ld => apply RoundTrip.ld | ldS => apply RoundTrip.ldS
  | pref => apply RoundTrip.pref | cache => apply RoundTrip.cache | st => apply RoundTrip.st | reddAdd => apply RoundTrip.reddAdd
  | reddFadd => apply RoundTrip.reddFadd | reddMin => apply RoundTrip.reddMin | reddMax => apply RoundTrip.reddMax
  | reddMinU => apply RoundTrip.reddMinU | reddMaxU => apply RoundTrip.reddMaxU | reddOr => apply RoundTrip.reddOr
  | atomAdd => apply RoundTrip.atomAdd | atomFadd => apply RoundTrip.atomFadd | atomMin => apply RoundTrip.atomMin
  | atomMax => apply RoundTrip.atomMax | atomAnd => apply RoundTrip.atomAnd | atomOr => apply RoundTrip.atomOr
  | atomXor => apply RoundTrip.atomXor | atomSwap => apply RoundTrip.atomSwap | redAdd => apply RoundTrip.redAdd
  | redFadd => apply RoundTrip.redFadd | redMin => apply RoundTrip.redMin | redMax => apply RoundTrip.redMax
  | redAnd => apply RoundTrip.redAnd | redOr => apply RoundTrip.redOr | redXor => apply RoundTrip.redXor | tagq => apply RoundTrip.tagq
  | tagset => apply RoundTrip.tagset | tagclr => apply RoundTrip.tagclr | scfg => apply RoundTrip.scfg | mapl => apply RoundTrip.mapl
  | cas => apply RoundTrip.cas | racqP => apply RoundTrip.racqP | racqC => apply RoundTrip.racqC | racqPU => apply RoundTrip.racqPU
  | racqCU => apply RoundTrip.racqCU | rrel => apply RoundTrip.rrel | rwait => apply RoundTrip.rwait | carm => apply RoundTrip.carm
  | cwait => apply RoundTrip.cwait | spawn => apply RoundTrip.spawn | trig => apply RoundTrip.trig | pub => apply RoundTrip.pub
  | bar => apply RoundTrip.bar | post => apply RoundTrip.post | pick => apply RoundTrip.pick | qwait => apply RoundTrip.qwait
  | node => apply RoundTrip.node | marm => apply RoundTrip.marm | msign => apply RoundTrip.msign | mwait => apply RoundTrip.mwait
  | mdrain => apply RoundTrip.mdrain | mcfg => apply RoundTrip.mcfg | mnorm => apply RoundTrip.mnorm | mreset => apply RoundTrip.mreset
  | cpy => apply RoundTrip.cpy | cpys => apply RoundTrip.cpys | gath => apply RoundTrip.gath | cpyr => apply RoundTrip.cpyr
  | rast => apply RoundTrip.rast | trace => apply RoundTrip.trace | hitr => apply RoundTrip.hitr | boxu => apply RoundTrip.boxu
  | sah => apply RoundTrip.sah | npack => apply RoundTrip.npack | tex => apply RoundTrip.tex | texg => apply RoundTrip.texg
  | texq => apply RoundTrip.texq | imld => apply RoundTrip.imld | imst => apply RoundTrip.imst | rds => apply RoundTrip.rds
  | wrs => apply RoundTrip.wrs | trap => apply RoundTrip.trap | tlbi => apply RoundTrip.tlbi | sleep => apply RoundTrip.sleep
  | halt => apply RoundTrip.halt | thaw => apply RoundTrip.thaw | keyld => apply RoundTrip.keyld | commit => apply RoundTrip.commit
  | rej => apply RoundTrip.rej | nop => apply RoundTrip.nop | next => apply RoundTrip.next | bra => apply RoundTrip.bra
  | call => apply RoundTrip.call | ret => apply RoundTrip.ret | exit => apply RoundTrip.exit | await => apply RoundTrip.await
  | reform => apply RoundTrip.reform | iret => apply RoundTrip.iret | brx => apply RoundTrip.brx | callx => apply RoundTrip.callx
  | reformK => apply RoundTrip.reformK | nsPrefix => apply RoundTrip.nsPrefix | ndPrefix => apply RoundTrip.ndPrefix
  | _ => exact nofun

/-- Settles O56: each word decodes to its instruction, and since what is decoded encodes to n modulo 2^32, its encoding is below that. -/
theorem roundTrip : Obligations.RoundTrip := by
  intro i word wf
  have decoded := decode_encode i word wf
  obtain ⟨-, -, enc⟩ := exact_decodeNat (encodeNat i) i decoded
  have lt : encodeNat i < 2 ^ 32 := enc ▸ Nat.mod_lt _ (by decide)
  refine ⟨?_, lt⟩
  rw [decodeWord, BitVec.toNat_ofNat, Nat.mod_eq_of_lt lt, decoded]

/-- Settles O60: each word is decoded. -/
theorem decodeWords : Obligations.DecodeWords := by
  have refused {w : Word} {e : DecErr} (h : decodeWord w = .error e) (i : Instr) : decodeWord w ≠ .ok i := by simp [h]
  exact ⟨rfl, rfl, rfl, rfl, rfl, rfl, rfl, rfl, rfl, rfl, rfl, rfl, refused rfl, refused rfl, refused rfl, refused rfl⟩

end Sys2Proof.Proofs
end

