-- ==== Sys2Proof/Proofs/IntegerValues.lean ====
section
/-! PROOFS. The integer operations (R346 to R350), which the model computes on numbers, as operations of bit vectors of every width. -/
namespace Sys2Proof.Proofs
open Sys2Proof.Machine

section
variable {w : Nat}

/-! ### Numbers and bit vectors -/

@[simp] theorem sx_toNat (x : BitVec w) : sx w x.toNat = x.toInt := by
  cases w with
  | zero => simp [x.eq_nil, sx]
  | succ w =>
    have half : 2 ^ (w + 1) = 2 * 2 ^ w := by ring
    have lt := x.isLt
    rw [sx, BitVec.toInt_eq_toNat_cond, Nat.add_sub_cancel]
    norm_cast
    rw [Nat.mod_eq_of_lt lt]
    split <;> split <;> omega

@[simp] theorem ofNat_modW (z : Int) : BitVec.ofNat w (modW w z) = BitVec.ofInt w z := by
  apply BitVec.eq_of_toNat_eq
  have lt : modW w z < 2 ^ w := by
    have := Int.emod_lt_of_pos z (show (0 : Int) < 2 ^ w by positivity)
    zify
    unfold modW
    omega
  rw [BitVec.toNat_ofNat, Nat.mod_eq_of_lt lt, BitVec.toNat_ofInt]
  simp [modW]

@[simp] theorem asInt_signed (x : BitVec w) : asInt w false x.toNat = x.toInt := sx_toNat x
@[simp] theorem asInt_unsigned (x : BitVec w) : asInt w true x.toNat = x.toNat := by
  simp only [asInt, if_true, Nat.mod_eq_of_lt x.isLt]
/-- Either reading of a bit vector stands for it modulo 2^w. -/
@[simp] theorem ofInt_asInt (u : Bool) (x : BitVec w) : BitVec.ofInt w (asInt w u x.toNat) = x := by
  cases u <;> simp

/-! ### Sums and products -/

theorem ofInt_asInt_add (u : Bool) (x y : BitVec w) : BitVec.ofInt w (asInt w u x.toNat + asInt w u y.toNat) = x + y := by
  simp [BitVec.ofInt_add]
theorem ofInt_asInt_sub (u : Bool) (x y : BitVec w) : BitVec.ofInt w (asInt w u x.toNat - asInt w u y.toNat) = x - y := by
  rw [sub_eq_add_neg, BitVec.ofInt_add, BitVec.ofInt_neg, ofInt_asInt, ofInt_asInt, BitVec.sub_eq_add_neg]
theorem ofInt_asInt_mul (u : Bool) (x y : BitVec w) : BitVec.ofInt w (asInt w u x.toNat * asInt w u y.toNat) = x * y := by
  simp [BitVec.ofInt_mul]

/-- Saturation: the nearest of the type's values, and whether it is another one (R346). -/
theorem satOr_sat (u : Bool) (z : Int) (h : minInt w u ≤ maxInt w u) :
    BitVec.ofNat w (satOr w true u z).1 = BitVec.ofInt w (max (minInt w u) (min (maxInt w u) z)) ∧
    (satOr w true u z).2 = if minInt w u ≤ z ∧ z ≤ maxInt w u then 0 else fSATN := by
  have clamp : satI z (minInt w u) (maxInt w u) = max (minInt w u) (min (maxInt w u) z) := by unfold satI; split <;> [skip; split] <;> omega
  refine ⟨by simp only [satOr, if_true, ofNat_modW, clamp], ?_⟩
  have same : satI z (minInt w u) (maxInt w u) = z ↔ minInt w u ≤ z ∧ z ≤ maxInt w u := by rw [clamp]; omega
  simp only [satOr, if_true, flag, ← same, ne_eq, decide_eq_true_eq, ite_not]
theorem minInt_le_maxInt (w : Nat) (u : Bool) : minInt w u ≤ maxInt w u := by
  have pos : (0 : Int) < 2 ^ w := by positivity
  have pos' : (0 : Int) < 2 ^ (w - 1) := by positivity
  unfold minInt maxInt
  split <;> omega

/-- Saturation of what no negative limit stands in the way of. -/
theorem satOr_above {z : Int} (h : minInt w false ≤ z) :
    BitVec.ofNat w (satOr w true false z).1 = BitVec.ofInt w (min (maxInt w false) z) ∧
    (satOr w true false z).2 = if z ≤ maxInt w false then 0 else fSATN := by
  have le := minInt_le_maxInt w false
  obtain ⟨value, flags⟩ := satOr_sat false z le
  exact ⟨by rw [value, max_eq_right (le_min le h)], by rw [flags]; simp only [h, true_and]⟩
theorem minInt_le_neg (x : BitVec w) : minInt w false ≤ -x.toInt := by
  have := x.toInt_lt
  simp only [minInt, Bool.false_eq_true, if_false]
  omega
theorem minInt_le_natAbs (z : Int) : minInt w false ≤ (z.natAbs : Int) := by
  have pos : (0 : Int) < 2 ^ (w - 1) := by positivity
  simp only [minInt, Bool.false_eq_true, if_false]
  omega

theorem ofInt_natAbs (x : BitVec w) : BitVec.ofInt w (x.toInt.natAbs : Int) = x.abs := by
  have sign := x.msb_eq_toInt
  rw [BitVec.abs, sign]
  split
  case isTrue h => rw [Int.ofNat_natAbs_of_nonpos (by simpa using (of_decide_eq_true h).le), BitVec.ofInt_neg, BitVec.ofInt_toInt]; rfl
  case isFalse h => rw [Int.natAbs_of_nonneg (by simpa using h), BitVec.ofInt_toInt]

theorem setWidth_ofInt {v : Nat} (h : w ≤ v) (z : Int) : (BitVec.ofInt v z).setWidth w = BitVec.ofInt w z := by
  apply BitVec.eq_of_toNat_eq
  have dvd : ((2 ^ w : Nat) : Int) ∣ ((2 ^ v : Nat) : Int) := Int.natCast_dvd_natCast.2 (Nat.pow_dvd_pow 2 h)
  rw [BitVec.toNat_setWidth, BitVec.toNat_ofInt, BitVec.toNat_ofInt]
  zify
  rw [Int.toNat_of_nonneg (Int.emod_nonneg _ (by positivity)), Int.toNat_of_nonneg (Int.emod_nonneg _ (by positivity))]
  exact_mod_cast Int.emod_emod_of_dvd z dvd

/-- The exact product fits twice the width. -/
theorem toInt_signExtend_mul {v : Nat} (pos : 0 < w) (h : w + w ≤ v) (x y : BitVec w) :
    (x.signExtend v * y.signExtend v).toInt = x.toInt * y.toInt := by
  have bound : (2 * 2 ^ (w * 2 - 2) : Int) < (2 ^ v : Nat) := by
    rw [← pow_succ']
    exact_mod_cast Nat.pow_lt_pow_right (by decide) (by omega)
  have upper := @BitVec.toInt_mul_toInt_le w x y
  have lower := @BitVec.le_toInt_mul_toInt w x y
  rw [BitVec.toInt_mul, BitVec.toInt_signExtend_of_le (by omega), BitVec.toInt_signExtend_of_le (by omega)]
  exact Int.bmod_eq_of_le_mul_two (by linarith) (by linarith)

theorem ofNat_mulhI_signed {v : Nat} (pos : 0 < w) (h : w + w ≤ v) (x y : BitVec w) :
    BitVec.ofNat w (mulhI w false x.toNat y.toNat) = ((x.signExtend v * y.signExtend v).sshiftRight w).setWidth w := by
  rw [BitVec.sshiftRight_eq, toInt_signExtend_mul pos h, setWidth_ofInt (by omega), Int.shiftRight_eq_div_pow, mulhI, ofNat_modW,
    asInt_signed, asInt_signed]
  norm_cast
theorem ofNat_mulhI_unsigned {v : Nat} (h : w + w ≤ v) (x y : BitVec w) :
    BitVec.ofNat w (mulhI w true x.toNat y.toNat) = ((x.setWidth v * y.setWidth v) >>> w).setWidth w := by
  have fits : x.toNat * y.toNat < 2 ^ v := calc
    x.toNat * y.toNat < 2 ^ w * 2 ^ w := Nat.mul_lt_mul'' x.isLt y.isLt
    _ ≤ 2 ^ v := by rw [← Nat.pow_add]; exact Nat.pow_le_pow_right (by decide) h
  have le : w ≤ v := by omega
  apply BitVec.eq_of_toNat_eq
  rw [mulhI, ofNat_modW, asInt_unsigned, asInt_unsigned]
  simp [BitVec.toNat_setWidth_of_le le, Nat.mod_eq_of_lt fits, Nat.shiftRight_eq_div_pow]
  norm_cast

/-! ### Minimum and maximum -/

theorem ofNat_minI_signed (x y : BitVec w) : BitVec.ofNat w (minI w false x.toNat y.toNat) = if x.sle y then x else y := by
  simp only [minI, asInt_signed, BitVec.sle_iff_toInt_le]
  split <;> simp
theorem ofNat_minI_unsigned (x y : BitVec w) : BitVec.ofNat w (minI w true x.toNat y.toNat) = if x ≤ y then x else y := by
  simp only [minI, asInt_unsigned, Nat.cast_le, ← BitVec.le_def]
  split <;> simp
theorem ofNat_maxI_signed (x y : BitVec w) : BitVec.ofNat w (maxI w false x.toNat y.toNat) = if y.sle x then x else y := by
  simp only [maxI, asInt_signed, BitVec.sle_iff_toInt_le]
  split <;> simp
theorem ofNat_maxI_unsigned (x y : BitVec w) : BitVec.ofNat w (maxI w true x.toNat y.toNat) = if y ≤ x then x else y := by
  simp only [maxI, asInt_unsigned, ge_iff_le, Nat.cast_le, ← BitVec.le_def]
  split <;> simp

/-! ### Bitwise operations and shifts -/

theorem notI_toNat (x : BitVec w) : notI w x.toNat = (~~~ x).toNat := BitVec.toNat_not.symm
theorem ofNat_notI (x : BitVec w) : BitVec.ofNat w (notI w x.toNat) = ~~~ x := by rw [notI_toNat, BitVec.ofNat_toNat, BitVec.setWidth_eq]
theorem ofNat_and (x y : BitVec w) : BitVec.ofNat w (x.toNat &&& y.toNat) = x &&& y := by
  rw [← BitVec.toNat_and, BitVec.ofNat_toNat, BitVec.setWidth_eq]
theorem ofNat_or (x y : BitVec w) : BitVec.ofNat w (x.toNat ||| y.toNat) = x ||| y := by
  rw [← BitVec.toNat_or, BitVec.ofNat_toNat, BitVec.setWidth_eq]
theorem ofNat_xor (x y : BitVec w) : BitVec.ofNat w (x.toNat ^^^ y.toNat) = x ^^^ y := by
  rw [← BitVec.toNat_xor, BitVec.ofNat_toNat, BitVec.setWidth_eq]
theorem ofNat_andn (x y : BitVec w) : BitVec.ofNat w (x.toNat &&& notI w y.toNat) = x &&& ~~~ y := by
  rw [notI_toNat, ofNat_and]

theorem ofNat_shlI (x : BitVec w) (n : Nat) : BitVec.ofNat w (shlI w x.toNat n) = x <<< n := by
  apply BitVec.eq_of_toNat_eq
  rw [BitVec.toNat_shiftLeft, shlI, Nat.shiftLeft_eq]
  split
  case isTrue h =>
    have dvd : 2 ^ w ∣ x.toNat * 2 ^ n := (Nat.pow_dvd_pow 2 h).mul_left _
    simp [Nat.mod_eq_zero_of_dvd dvd]
  case isFalse => simp
theorem ofNat_shrI (x : BitVec w) (n : Nat) : BitVec.ofNat w (shrI w x.toNat n) = x >>> n := by
  apply BitVec.eq_of_toNat_eq
  have zero (h : n ≥ w) : x.toNat / 2 ^ n = 0 := Nat.div_eq_of_lt (x.isLt.trans_le (Nat.pow_le_pow_right (by decide) h))
  have same : shrI w x.toNat n = x.toNat / 2 ^ n := by
    unfold shrI
    split
    case isTrue h => exact (zero h).symm
    case isFalse => rfl
  rw [same, BitVec.toNat_ushiftRight, Nat.shiftRight_eq_div_pow, BitVec.toNat_ofNat]
  exact Nat.mod_eq_of_lt ((Nat.div_le_self ..).trans_lt x.isLt)
/-- A shift by the width or more leaves the sign alone. -/
theorem ediv_pow_of_le {z : Int} {n : Nat} (lower : -(2 ^ w) ≤ z) (upper : z < 2 ^ w) (h : w ≤ n) : z / 2 ^ n = z / 2 ^ w := by
  have le : (2 ^ w : Int) ≤ 2 ^ n := pow_le_pow_right₀ (by decide) h
  have pos : (0 : Int) < 2 ^ w := by positivity
  obtain nonneg | neg := le_or_gt 0 z
  · rw [Int.ediv_eq_zero_of_lt nonneg (by omega), Int.ediv_eq_zero_of_lt nonneg upper]
  · rw [Int.ediv_eq_neg_one_of_neg_of_le neg (by omega), Int.ediv_eq_neg_one_of_neg_of_le neg (by omega)]

theorem ofNat_sarI (x : BitVec w) (n : Nat) : BitVec.ofNat w (sarI w x.toNat n) = x.sshiftRight n := by
  have upper := @BitVec.two_mul_toInt_lt w x
  have lower := @BitVec.le_two_mul_toInt w x
  have same : x.toInt / 2 ^ min n w = x.toInt / 2 ^ n := by
    obtain h | h := le_total n w
    · rw [min_eq_left h]
    · rw [min_eq_right h, ediv_pow_of_le (by linarith) (by linarith) h]
  rw [BitVec.sshiftRight_eq, sarI, ofNat_modW, sx_toNat, same, Int.shiftRight_eq_div_pow]
  norm_cast

theorem ofNat_rotI (x : BitVec w) (n : Nat) : BitVec.ofNat w (rotI w x.toNat n) = x.rotateLeft n := by
  obtain rfl | pos := Nat.eq_zero_or_pos w
  · exact Subsingleton.elim _ _
  have split_w : 2 ^ w = 2 ^ (n % w) * 2 ^ (w - n % w) := by
    rw [← Nat.pow_add, Nat.add_sub_cancel' (Nat.mod_lt n pos).le]
  have low : x.toNat / 2 ^ (w - n % w) < 2 ^ (n % w) := Nat.div_lt_of_lt_mul (by rw [Nat.mul_comm, ← split_w]; exact x.isLt)
  have sum_eq_or : rotI w x.toNat n = (x.rotateLeft n).toNat := by
    rw [BitVec.toNat_rotateLeft, rotI, Nat.shiftLeft_eq, Nat.shiftRight_eq_div_pow, split_w, Nat.mul_comm x.toNat, Nat.mul_mod_mul_left,
      Nat.two_pow_add_eq_or_of_lt low]
  rw [sum_eq_or, BitVec.ofNat_toNat, BitVec.setWidth_eq]

end

end Sys2Proof.Proofs
end

