-- ==== Sys2Proof/Proofs/IntegerWords.lean ====
section
/-! PROOFS. The integer words (R346 to R350): each shape of word completes with its operation's value, and the value is that of the
bit-vector operation. -/
namespace Sys2Proof.Proofs
open Sys2Proof.Machine Sys2Proof.Laws

@[simp] theorem raised_zero (s : State) : s.raised 0 = s := rfl

section
variable {hd : Hd} {a b : Src} {st s : State} (hf : Fires hd.gd st)

/-! ### Two sources of one width -/

section
variable {x y z : Word} (reads : Reads32 a b st x y s)
include reads

include hf in
theorem intBin_next32 {f : Nat → Nat → Nat} (value : BitVec.ofNat 32 (f x.toNat y.toNat) = z) :
    runWord hd.gd 1 (intBin false a b f) st = .next (s.pushed32 z) :=
  value ▸ runWord_ok hf (intBin_32 reads f)

/-- ADD and SUB whose result is not narrowed. -/
theorem intSat_32 (sat u : Bool) (f : Int → Int → Int) (nd : s.iss.nd = none) :
    let r := satOr 32 sat u (f (asInt 32 u x.toNat) (asInt 32 u y.toNat))
    intSat false sat u a b f st = .ok () ((s.raised r.2).pushed32 (w32 r.1)) := by
  obtain ⟨t, hx, hy⟩ := reads
  intro r
  refine (bind_ok (srcN_32 hx)).trans ((bind_ok (srcN_32 hy)).trans ((bind_ok (raiseFlags_run ..)).trans ?_))
  refine Eq.trans (congrFun (if_neg Bool.false_ne_true) _) ?_
  rw [pushIntNd, get_bind, raised_iss, nd]
  exact push32_run _ _

include hf in
theorem intSat_next32 {u : Bool} {f : Int → Int → Int} (nd : s.iss.nd = none)
    (value : BitVec.ofInt 32 (f (asInt 32 u x.toNat) (asInt 32 u y.toNat)) = z) :
    runWord hd.gd 1 (intSat false false u a b f) st = .next (s.pushed32 z) := by
  rw [runWord_ok hf (intSat_32 reads false u f nd), ← value, ← ofNat_modW]
  rfl

end

section
variable {x y z : DWord} (reads : Reads64 a b st x y s)
include reads

include hf in
theorem intBin_next64 {f : Nat → Nat → Nat} (value : BitVec.ofNat 64 (f x.toNat y.toNat) = z) :
    runWord hd.gd 1 (intBin true a b f) st = .next (s.pushed z) :=
  value ▸ runWord_ok hf (intBin_64 reads f)

theorem intSat_64 (sat u : Bool) (f : Int → Int → Int) :
    let r := satOr 64 sat u (f (asInt 64 u x.toNat) (asInt 64 u y.toNat))
    intSat true sat u a b f st = .ok () ((s.raised r.2).pushed (dw r.1)) := by
  obtain ⟨t, hx, hy⟩ := reads
  intro r
  exact (bind_ok (srcN_64 hx)).trans ((bind_ok (srcN_64 hy)).trans (bind_ok (raiseFlags_run ..)))

include hf in
theorem intSat_next64 {u : Bool} {f : Int → Int → Int}
    (value : BitVec.ofInt 64 (f (asInt 64 u x.toNat) (asInt 64 u y.toNat)) = z) :
    runWord hd.gd 1 (intSat true false u a b f) st = .next (s.pushed z) := by
  rw [runWord_ok hf (intSat_64 reads false u f), ← value, ← ofNat_modW]
  rfl

end

/-! ### MUL -/

include hf in
/-- MUL wraps the product of its sources, or under .w extends it to 64 bits. -/
theorem exec_mul32 {x y : Word} (reads : Reads32 a b st x y s) (nd : s.iss.nd = none) (w u : Bool) :
    exec (.mul hd a b false w u) st = .next (if w then
      s.pushed (BitVec.ofInt 64 (asInt 32 u x.toNat * asInt 32 u y.toNat)) else s.pushed32 (x * y)) := by
  obtain ⟨t, hx, hy⟩ := reads
  refine runWord_ok hf (u := ()) ((bind_ok (srcN_32 hx)).trans ((bind_ok (srcN_32 hy)).trans ?_))
  cases w
  case false =>
    show pushIntNd _ _ s = _
    rw [pushIntNd, get_bind, nd, if_neg Bool.false_ne_true, ← ofInt_asInt_mul u, ← ofNat_modW]
    exact push32_run _ _
  case true =>
    rw [if_pos rfl, ← ofNat_modW]
    rfl

include hf in
theorem exec_mul64 {x y : DWord} (reads : Reads64 a b st x y s) (u : Bool) :
    exec (.mul hd a b true false u) st = .next (s.pushed (x * y)) := by
  obtain ⟨t, hx, hy⟩ := reads
  rw [← ofInt_asInt_mul u, ← ofNat_modW]
  exact runWord_ok hf (u := ()) ((bind_ok (srcN_64 hx)).trans (bind_ok (srcN_64 hy)))

/-! ### Shifts and immediates -/

include hf in
theorem intShift_next64 {x z : DWord} {n : Word} {f : Nat → Nat → Nat} (reads : ReadsShift a b st x n s)
    (value : BitVec.ofNat 64 (f x.toNat n.toNat) = z) : runWord hd.gd 1 (intShift true a b f) st = .next (s.pushed z) := by
  obtain ⟨t, hx, hn⟩ := reads
  rw [← value]
  exact runWord_ok hf (u := ()) ((bind_ok (srcN_64 hx)).trans (bind_ok hn))

include hf in
theorem intShift_next32 {x y z : Word} {f : Nat → Nat → Nat} (reads : Reads32 a b st x y s)
    (value : BitVec.ofNat 32 (f x.toNat y.toNat) = z) : runWord hd.gd 1 (intShift false a b f) st = .next (s.pushed32 z) := by
  obtain ⟨t, hx, hy⟩ := reads
  rw [← value]
  exact runWord_ok hf (u := ()) ((bind_ok (srcN_32 hx)).trans ((bind_ok hy).trans (push32_run _ _)))

include hf in
theorem intImm_next {x z : Word} {i : BitVec 12} {f : Nat → Nat → Nat} (hx : srcI 0 a st = .ok x s)
    (value : BitVec.ofNat 32 (f x.toNat (i.signExtend 32).toNat) = z) : runWord hd.gd 1 (intImm a i f) st = .next (s.pushed32 z) := by
  rw [← value]
  exact runWord_ok hf (u := ()) ((bind_ok hx).trans (push32_run _ _))

end

/-- Settles O1: every word is of a shape above, and its operation that of the bit vectors. -/
theorem intTwo32 : Obligations.IntTwo32 := by
  intro hd a b i st s x y u hf
  refine ⟨fun r nd => ⟨intSat_next32 hf r nd (ofInt_asInt_add u x y), intSat_next32 hf r nd (ofInt_asInt_sub u x y),
    exec_mul32 hf r nd false u, ?_, ?_,
    intBin_next32 hf r (ofNat_mulhI_signed (by decide) (by decide) x y), intBin_next32 hf r (ofNat_mulhI_unsigned (by decide) x y),
    intBin_next32 hf r (ofNat_minI_signed x y), intBin_next32 hf r (ofNat_minI_unsigned x y),
    intBin_next32 hf r (ofNat_maxI_signed x y), intBin_next32 hf r (ofNat_maxI_unsigned x y),
    intBin_next32 hf r (ofNat_and x y), intBin_next32 hf r (ofNat_or x y), intBin_next32 hf r (ofNat_xor x y),
    intBin_next32 hf r (ofNat_andn x y), intShift_next32 hf r (ofNat_shlI x _), intShift_next32 hf r (ofNat_shrI x _),
    intShift_next32 hf r (ofNat_sarI x _), intShift_next32 hf r (ofNat_rotI x _)⟩,
    fun h => ⟨intImm_next hf h ?_, intImm_next hf h (ofNat_and ..), intImm_next hf h (ofNat_or ..), intImm_next hf h (ofNat_xor ..),
      intImm_next hf h (ofNat_shlI ..), intImm_next hf h (ofNat_shrI ..), intImm_next hf h (ofNat_sarI ..), intImm_next hf h ?_⟩⟩
  · rw [exec_mul32 hf r nd true false, if_pos rfl, asInt_signed, asInt_signed, BitVec.ofInt_mul]
    rfl
  · rw [exec_mul32 hf r nd true true, if_pos rfl, asInt_unsigned, asInt_unsigned, BitVec.ofInt_mul, BitVec.ofInt_natCast,
      BitVec.ofInt_natCast, BitVec.ofNat_toNat, BitVec.ofNat_toNat]
  · simp [BitVec.ofNat_add]
  · simp [BitVec.ofNat_mul]

/-- Settles O2: every word is of a shape above, and its operation that of the bit vectors. -/
theorem intTwo64 : Obligations.IntTwo64 := by
  intro hd a b st s x y n u hf
  exact ⟨fun r => ⟨intSat_next64 hf r (ofInt_asInt_add u x y), intSat_next64 hf r (ofInt_asInt_sub u x y), exec_mul64 hf r u,
    intBin_next64 hf r (ofNat_mulhI_signed (by decide) (by decide) x y), intBin_next64 hf r (ofNat_mulhI_unsigned (by decide) x y),
    intBin_next64 hf r (ofNat_minI_signed x y), intBin_next64 hf r (ofNat_minI_unsigned x y),
    intBin_next64 hf r (ofNat_maxI_signed x y), intBin_next64 hf r (ofNat_maxI_unsigned x y),
    intBin_next64 hf r (ofNat_and x y), intBin_next64 hf r (ofNat_or x y), intBin_next64 hf r (ofNat_xor x y),
    intBin_next64 hf r (ofNat_andn x y)⟩,
    fun r => ⟨intShift_next64 hf r (ofNat_shlI x _), intShift_next64 hf r (ofNat_shrI x _),
      intShift_next64 hf r (ofNat_sarI x _), intShift_next64 hf r (ofNat_rotI x _)⟩⟩

/-! ### Saturation -/

section
variable {w : Nat}

theorem asInt_eq_ite (u : Bool) (x : BitVec w) : asInt w u x.toNat = if u then (x.toNat : Int) else x.toInt := by cases u <;> simp

end

section
variable {hd : Hd} {a b : Src} {st s : State} (hf : Fires hd.gd st)
include hf

theorem intSat_sat32 {x y : Word} (reads : Reads32 a b st x y s) (nd : s.iss.nd = none) (u : Bool) (f : Int → Int → Int) (e : Int)
    (exact_ : f (asInt 32 u x.toNat) (asInt 32 u y.toNat) = e) :
    runWord hd.gd 1 (intSat false true u a b f) st = .next ((s.raised (if minInt 32 u ≤ e ∧ e ≤ maxInt 32 u then 0 else fSATN)).pushed32
      (BitVec.ofInt 32 (max (minInt 32 u) (min (maxInt 32 u) e)))) := by
  obtain ⟨value, flags⟩ := satOr_sat (w := 32) u e (minInt_le_maxInt 32 u)
  rw [runWord_ok hf (intSat_32 reads true u f nd), exact_, ← value, ← flags]
  rfl
theorem intSat_sat64 {x y : DWord} (reads : Reads64 a b st x y s) (u : Bool) (f : Int → Int → Int) (e : Int)
    (exact_ : f (asInt 64 u x.toNat) (asInt 64 u y.toNat) = e) :
    runWord hd.gd 1 (intSat true true u a b f) st = .next ((s.raised (if minInt 64 u ≤ e ∧ e ≤ maxInt 64 u then 0 else fSATN)).pushed
      (BitVec.ofInt 64 (max (minInt 64 u) (min (maxInt 64 u) e)))) := by
  obtain ⟨value, flags⟩ := satOr_sat (w := 64) u e (minInt_le_maxInt 64 u)
  rw [runWord_ok hf (intSat_64 reads true u f), exact_, ← value, ← flags]
  rfl

/-- ABS and NEG (R346). -/
theorem intSat1_next32 {x : Word} (h : srcI 0 a st = .ok x s) (sat : Bool) (f : Int → Int) :
    let r := satOr 32 sat false (f x.toInt)
    runWord hd.gd 1 (intSat1 false sat a f) st = .next ((s.raised r.2).pushed32 (w32 r.1)) := by
  intro r
  have signed : asInt 32 false x.toNat = x.toInt := asInt_signed x
  refine runWord_ok hf (u := ()) ((bind_ok (srcN_32 h)).trans ?_)
  simp only [wid, Bool.false_eq_true, if_false, signed]
  exact (bind_ok (raiseFlags_run ..)).trans (push32_run _ _)
theorem intSat1_next64 {x : DWord} (h : src64 a st = .ok x s) (sat : Bool) (f : Int → Int) :
    let r := satOr 64 sat false (f x.toInt)
    runWord hd.gd 1 (intSat1 true sat a f) st = .next ((s.raised r.2).pushed (dw r.1)) := by
  intro r
  have signed : asInt 64 false x.toNat = x.toInt := asInt_signed x
  refine runWord_ok hf (u := ()) ((bind_ok (srcN_64 h)).trans ?_)
  simp only [wid, if_true, signed]
  exact bind_ok (raiseFlags_run ..)

theorem intSat1_sat32 {x : Word} (h : srcI 0 a st = .ok x s) {f : Int → Int} (above : minInt 32 false ≤ f x.toInt) :
    runWord hd.gd 1 (intSat1 false true a f) st = .next ((s.raised (if f x.toInt ≤ maxInt 32 false then 0 else fSATN)).pushed32
      (BitVec.ofInt 32 (min (maxInt 32 false) (f x.toInt)))) := by
  obtain ⟨value, flags⟩ := satOr_above above
  rw [intSat1_next32 hf h true f, ← value, ← flags]
  rfl
theorem intSat1_sat64 {x : DWord} (h : src64 a st = .ok x s) {f : Int → Int} (above : minInt 64 false ≤ f x.toInt) :
    runWord hd.gd 1 (intSat1 true true a f) st = .next ((s.raised (if f x.toInt ≤ maxInt 64 false then 0 else fSATN)).pushed
      (BitVec.ofInt 64 (min (maxInt 64 false) (f x.toInt)))) := by
  obtain ⟨value, flags⟩ := satOr_above above
  rw [intSat1_next64 hf h true f, ← value, ← flags]
  rfl
theorem intSat1_plain32 {x z : Word} (h : srcI 0 a st = .ok x s) {f : Int → Int} (value : BitVec.ofInt 32 (f x.toInt) = z) :
    runWord hd.gd 1 (intSat1 false false a f) st = .next (s.pushed32 z) := by
  rw [intSat1_next32 hf h false f, ← value, ← ofNat_modW]
  rfl
theorem intSat1_plain64 {x z : DWord} (h : src64 a st = .ok x s) {f : Int → Int} (value : BitVec.ofInt 64 (f x.toInt) = z) :
    runWord hd.gd 1 (intSat1 true false a f) st = .next (s.pushed z) := by
  rw [intSat1_next64 hf h false f, ← value, ← ofNat_modW]
  rfl

end

theorem ofInt_neg_toInt {w : Nat} (x : BitVec w) : BitVec.ofInt w (-x.toInt) = -x := by rw [BitVec.ofInt_neg, BitVec.ofInt_toInt]

/-- Settles O3: saturation is `satOr_sat`; ABS and NEG come to nothing below the least number. -/
theorem intSaturating : Obligations.IntSaturating := by
  intro hd a b st s u hf
  refine ⟨fun x y r nd => ?add32, fun x y r => ?add64, fun x h => ?one32, fun x h => ?one64⟩
  case add32 =>
    exact ⟨intSat_sat32 hf r nd u _ _ (by rw [asInt_eq_ite, asInt_eq_ite]), intSat_sat32 hf r nd u _ _ (by rw [asInt_eq_ite, asInt_eq_ite])⟩
  case add64 =>
    exact ⟨intSat_sat64 hf r u _ _ (by rw [asInt_eq_ite, asInt_eq_ite]), intSat_sat64 hf r u _ _ (by rw [asInt_eq_ite, asInt_eq_ite])⟩
  case one32 =>
    intro r
    rw [← Int.natCast_natAbs x.toInt]
    exact ⟨intSat1_sat32 hf h (f := fun z => (z.natAbs : Int)) (minInt_le_natAbs x.toInt), intSat1_sat32 hf h (minInt_le_neg x),
      intSat1_plain32 hf h (ofInt_natAbs x), intSat1_plain32 hf h (ofInt_neg_toInt x)⟩
  case one64 =>
    intro r
    rw [← Int.natCast_natAbs x.toInt]
    exact ⟨intSat1_sat64 hf h (f := fun z => (z.natAbs : Int)) (minInt_le_natAbs x.toInt), intSat1_sat64 hf h (minInt_le_neg x),
      intSat1_plain64 hf h (ofInt_natAbs x), intSat1_plain64 hf h (ofInt_neg_toInt x)⟩

end Sys2Proof.Proofs
end

