-- ==== Sys2Proof/Proofs/IntegerFields.lean ====
section
/-! PROOFS. Counts, reversal, division and bit fields of numbers (R346 to R349) as operations of bit vectors. -/
namespace Sys2Proof.Proofs
open Sys2Proof.Machine

section
variable {w : Nat}

/-! ### Counts and reversal -/

theorem brevI_lt (n : Nat) : brevI w n < 2 ^ w := by
  induction w generalizing n with
  | zero => simp [brevI]
  | succ w ih =>
    have := ih (n / 2)
    have bit : n % 2 * 2 ^ w ≤ 1 * 2 ^ w := Nat.mul_le_mul_right _ (by omega)
    have double : 2 ^ (w + 1) = 2 ^ w + 2 ^ w := by ring
    simp only [brevI]
    omega
theorem testBit_brevI (n i : Nat) : (brevI w n).testBit i = (decide (i < w) && n.testBit (w - 1 - i)) := by
  induction w generalizing n with
  | zero => simp [brevI]
  | succ w ih =>
    rw [brevI, Nat.mul_comm, Nat.testBit_two_pow_mul_add _ (brevI_lt _)]
    obtain h | rfl | h := Nat.lt_trichotomy i w
    · have next : w - i = w - 1 - i + 1 := by omega
      simp [h, ih, Nat.lt_succ_of_lt h, next, Nat.testBit_succ]
    · simp
    · have bit : n % 2 < 2 ^ (i - w) := (Nat.mod_lt n (by decide)).trans_le (Nat.le_self_pow (by omega) 2)
      simp [h.not_gt, Nat.testBit_lt_two_pow bit, show ¬ i < w + 1 by omega]
theorem ofNat_brevI (x : BitVec w) : BitVec.ofNat w (brevI w x.toNat) = x.reverse := by
  refine BitVec.eq_of_getLsbD_eq fun i hi => ?_
  rw [BitVec.getLsbD_ofNat, testBit_brevI, BitVec.getLsbD_reverse, BitVec.getMsbD, BitVec.testBit_toNat]
  simp [hi]

theorem popN_eq (n : Nat) : popN w n = ((List.range w).filter n.testBit).length := by
  induction w generalizing n with
  | zero => rfl
  | succ w ih =>
    have tail : ((List.range w).map Nat.succ).filter n.testBit = ((List.range w).filter (n / 2).testBit).map Nat.succ := by
      rw [List.filter_map]
      congr 1
      exact List.filter_congr fun i _ => Nat.testBit_succ n i
    rw [popN, ih, List.range_succ_eq_map, List.filter_cons, tail]
    obtain h | h := Nat.mod_two_eq_zero_or_one n <;> simp [h, Nat.testBit_zero, Nat.add_comm]

/-- Leading zeros: the bits above the count are clear, and the one below it, if any, is set. -/
theorem clzI_spec (x : BitVec w) : clzI w x.toNat ≤ w ∧ x.toNat < 2 ^ (w - clzI w x.toNat) ∧
    (clzI w x.toNat < w → x.getLsbD (w - 1 - clzI w x.toNat) = true) := by
  unfold clzI
  split
  case isTrue h => simp [h]
  case isFalse h =>
    have lt := (Nat.log2_lt h).2 x.isLt
    have above : w - (w - 1 - Nat.log2 x.toNat) = Nat.log2 x.toNat + 1 := by omega
    have below : w - 1 - (w - 1 - Nat.log2 x.toNat) = Nat.log2 x.toNat := by omega
    exact ⟨by omega, above ▸ Nat.lt_log2_self, fun _ => by rw [below]; exact Nat.testBit_log2 h⟩

/-- Trailing zeros: the bits below the count are clear, and the one at it, if any, is set. -/
theorem ctzI_spec (n : Nat) : ctzI w n ≤ w ∧ (∀ j < ctzI w n, n.testBit j = false) ∧ (ctzI w n < w → n.testBit (ctzI w n) = true) := by
  induction w generalizing n with
  | zero => simp [ctzI]
  | succ w ih =>
    obtain ⟨le, clear, set⟩ := ih (n / 2)
    rw [ctzI]
    split
    case isTrue h => simp [h]
    case isFalse h =>
      rw [Nat.add_comm 1]
      refine ⟨by omega, fun j hj => ?_, fun hw => ?_⟩
      · cases j with
        | zero => simpa using h
        | succ j => rw [Nat.testBit_succ]; exact clear j (by omega)
      · rw [Nat.testBit_succ]
        exact set (by omega)

/-! ### Division -/

theorem modW_eq_toNat (z : Int) : modW w z = (BitVec.ofInt w z).toNat := by
  rw [BitVec.toNat_ofInt]
  simp [modW]

theorem toNat_neg_one : (-1 : BitVec w).toNat = 2 ^ w - 1 := by
  rw [← BitVec.toNat_allOnes, ← BitVec.neg_one_eq_allOnes]
  rfl
theorem toNat_eq_zero {y : BitVec w} : y.toNat = 0 ↔ y = 0 := (BitVec.toNat_eq (y := 0#w)).symm

theorem divI_signed (x y : BitVec w) : divI w false x.toNat y.toNat = (if y = 0 then -1 else x.sdiv y).toNat := by
  simp only [divI, toNat_eq_zero]
  split
  case isTrue => exact toNat_neg_one.symm
  case isFalse h =>
    have quotient : BitVec.ofInt w (x.toInt.tdiv y.toInt) = x.sdiv y := BitVec.eq_of_toInt_eq (by rw [BitVec.toInt_ofInt, BitVec.toInt_sdiv])
    rw [modW_eq_toNat, asInt_signed, asInt_signed, quotient]
theorem divI_unsigned (x y : BitVec w) : divI w true x.toNat y.toNat = (if y = 0 then -1 else x / y).toNat := by
  simp only [divI, toNat_eq_zero]
  split
  case isTrue => exact toNat_neg_one.symm
  case isFalse =>
    rw [modW_eq_toNat, asInt_unsigned, asInt_unsigned, ← Int.ofNat_tdiv, BitVec.ofInt_natCast, ← BitVec.toNat_udiv, BitVec.ofNat_toNat,
      BitVec.setWidth_eq]
theorem remI_signed (x y : BitVec w) : remI w false x.toNat y.toNat = (if y = 0 then x else x.srem y).toNat := by
  simp only [remI, toNat_eq_zero]
  split
  case isTrue => rfl
  case isFalse => rw [modW_eq_toNat, asInt_signed, asInt_signed, ← BitVec.toInt_srem, BitVec.ofInt_toInt]
theorem remI_unsigned (x y : BitVec w) : remI w true x.toNat y.toNat = (if y = 0 then x else x % y).toNat := by
  simp only [remI, toNat_eq_zero]
  split
  case isTrue => rfl
  case isFalse =>
    rw [modW_eq_toNat, asInt_unsigned, asInt_unsigned, ← Int.ofNat_tmod, BitVec.ofInt_natCast, ← BitVec.toNat_umod, BitVec.ofNat_toNat,
      BitVec.setWidth_eq]

end

/-! ### Bit fields -/

/-- The low n bits set. -/
theorem toNat_mask (n : Nat) (h : n ≤ 32) : (((1#64 <<< n) - 1).setWidth 32 : Word).toNat = 2 ^ n - 1 := by
  interval_cases n <;> rfl

theorem and_mask {n : Nat} (h : n ≤ 32) (v : Word) : (v &&& ((1#64 <<< n) - 1).setWidth 32).toNat = v.toNat % 2 ^ n := by
  rw [BitVec.toNat_and, toNat_mask n h, Nat.and_two_pow_sub_one_eq_mod]

theorem fld_le {n hi lo : Nat} : fld n hi lo ≤ 2 ^ (hi + 1 - lo) - 1 := Nat.le_sub_one_of_lt (Nat.mod_lt _ (by positivity))

/-- BFX without .x: the field at the position that the control word names. -/
theorem ofNat_bfxI_zero (x : Word) (c : Nat) : BitVec.ofNat 32 (bfxI false x.toNat c) =
    (x >>> fld c 4 0) &&& ((1#64 <<< min (fld c 13 8) 32) - 1).setWidth 32 := by
  apply BitVec.eq_of_toNat_eq
  have lt : x.toNat / 2 ^ fld c 4 0 % 2 ^ min (fld c 13 8) 32 < 2 ^ 32 :=
    (Nat.mod_lt _ (by positivity)).trans_le (Nat.pow_le_pow_right (by decide) (min_le_right _ _))
  rw [and_mask (min_le_right _ _), bfxI, BitVec.toNat_ushiftRight, Nat.shiftRight_eq_div_pow, BitVec.toNat_ofNat, Bool.false_and,
    if_neg Bool.false_ne_true, Nat.mod_eq_of_lt lt]

/-- A field of n bits moved to the top and back takes the sign of its highest bit. -/
theorem ofInt_sx (f : Word) {n : Nat} (h : n ≤ 32) (pos : 0 < n) (lt : f.toNat < 2 ^ n) :
    BitVec.ofInt 32 (sx n f.toNat) = (f <<< (32 - n)).sshiftRight (32 - n) := by
  obtain ⟨m, rfl⟩ := Nat.exists_eq_succ_of_ne_zero pos.ne'
  obtain ⟨k, hk⟩ := Nat.exists_eq_add_of_le h
  have width : 2 ^ 32 = 2 ^ (m + 1) * 2 ^ k := by rw [hk, Nat.pow_add]
  have half : 2 ^ (m + 1) = 2 * 2 ^ m := Nat.pow_succ'
  have top : 0 < 2 ^ k := by positivity
  have moved : (f <<< k).toInt = sx (m + 1) f.toNat * (2 ^ k : Nat) := by
    have small : f.toNat * 2 ^ k < 2 ^ 32 := width ▸ Nat.mul_lt_mul_of_pos_right lt top
    have sign : 2 * (f.toNat * 2 ^ k) < 2 ^ 32 ↔ ¬ 2 ^ m ≤ f.toNat := by
      rw [width, ← Nat.mul_assoc, Nat.mul_lt_mul_right top]
      omega
    rw [BitVec.toInt_eq_toNat_cond, BitVec.toNat_shiftLeft, Nat.shiftLeft_eq, Nat.mod_eq_of_lt small, sx]
    norm_cast
    rw [Nat.mod_eq_of_lt lt, Nat.add_sub_cancel]
    simp only [sign, ge_iff_le, Int.subNatNat_eq_coe]
    by_cases neg : 2 ^ m ≤ f.toNat
    · rw [if_neg (not_not.2 neg), if_pos neg, width]; push_cast; ring
    · rw [if_pos neg, if_neg neg]; push_cast; ring
  rw [show 32 - m.succ = k by omega, BitVec.sshiftRight_eq, moved, Int.shiftRight_eq_div_pow, Int.mul_ediv_cancel _ (by positivity)]

theorem ofNat_bfxI_sign (x : Word) (c : Nat) :
    let len := min (fld c 13 8) 32
    let f : Word := (x >>> fld c 4 0) &&& ((1#64 <<< len) - 1).setWidth 32
    BitVec.ofNat 32 (bfxI true x.toNat c) = (f <<< (32 - len)).sshiftRight (32 - len) := by
  intro len f
  have field : x.toNat / 2 ^ fld c 4 0 % 2 ^ len = f.toNat := by
    rw [and_mask (min_le_right _ _), BitVec.toNat_ushiftRight, Nat.shiftRight_eq_div_pow]
  have lt : f.toNat < 2 ^ len := field ▸ Nat.mod_lt _ (by positivity)
  have value : bfxI true x.toNat c = if len ≥ 1 then modW 32 (sx len f.toNat) else f.toNat := by
    simp only [bfxI, Bool.true_and, decide_eq_true_eq]
    rw [field]
  rw [value]
  split
  case isTrue pos => rw [ofNat_modW, ofInt_sx f (min_le_right _ _) pos lt]
  case isFalse none =>
    have zero : f = 0 := BitVec.eq_of_toNat_eq (by simpa [show len = 0 by omega] using lt)
    simp [zero]

/-- DOT4 and DOTN: the sum of the products of n fields of k bits. -/
theorem dotI_eq (k : Nat) (u : Bool) (a b n : Nat) : dotI k u a b n =
    ((List.range n).map fun i => asInt k u (a / 2 ^ (k * i) % 2 ^ k) * asInt k u (b / 2 ^ (k * i) % 2 ^ k)).sum := by
  induction n generalizing a b with
  | zero => rfl
  | succ n ih =>
    have next (v i : Nat) : v / 2 ^ k / 2 ^ (k * i) = v / 2 ^ (k * (i + 1)) := by
      rw [Nat.div_div_eq_div_mul, ← Nat.pow_add, Nat.mul_succ, Nat.add_comm]
    rw [dotI, ih, List.range_succ_eq_map, List.map_cons, List.sum_cons, List.map_map]
    simp only [next]
    simp
    rfl

theorem extract_toNat (v : Word) (k i : Nat) : v.toNat / 2 ^ (k * i) % 2 ^ k = (v.extractLsb' (k * i) k).toNat := by
  rw [BitVec.extractLsb'_toNat, Nat.shiftRight_eq_div_pow]

theorem dotI_signed (k n : Nat) (x y : Word) : dotI k false x.toNat y.toNat n =
    ((List.range n).map fun i => (x.extractLsb' (k * i) k).toInt * (y.extractLsb' (k * i) k).toInt).sum := by
  simp only [dotI_eq, extract_toNat, asInt_signed]
theorem dotI_unsigned (k n : Nat) (x y : Word) : dotI k true x.toNat y.toNat n =
    (((List.range n).map fun i => (x.extractLsb' (k * i) k).toNat * (y.extractLsb' (k * i) k).toNat).sum : Nat) := by
  simp only [dotI_eq, extract_toNat, asInt_unsigned]
  simp [Nat.cast_list_sum]
  rfl

theorem ofNat_bfiI (x y : Word) (c : Nat) :
    let m : Word := ((1#64 <<< min (fld c 13 8) 32) - 1).setWidth 32 <<< fld c 4 0
    BitVec.ofNat 32 (bfiI x.toNat y.toNat c) = (x &&& ~~~ m) ||| ((y <<< fld c 4 0) &&& m) := by
  intro m
  have mask : (2 ^ min (fld c 13 8) 32 - 1) * 2 ^ fld c 4 0 % 2 ^ 32 = m.toNat := by
    rw [BitVec.toNat_shiftLeft, toNat_mask _ (min_le_right _ _), Nat.shiftLeft_eq]
  have moved : BitVec.ofNat 32 (y.toNat * 2 ^ fld c 4 0) = y <<< fld c 4 0 := by
    apply BitVec.eq_of_toNat_eq
    rw [BitVec.toNat_shiftLeft, BitVec.toNat_ofNat, Nat.shiftLeft_eq]
  have compl : 2 ^ 32 - 1 - m.toNat = (~~~ m).toNat := BitVec.toNat_not.symm
  simp only [bfiI, mask, compl, BitVec.ofNat_or, BitVec.ofNat_and, moved, BitVec.ofNat_toNat, BitVec.setWidth_eq]

theorem toNat_append_add {m n : Nat} (y : BitVec m) (x : BitVec n) : (y ++ x).toNat = y.toNat * 2 ^ n + x.toNat := by
  rw [BitVec.toNat_append, ← Nat.shiftLeft_add_eq_or_of_lt x.isLt, Nat.shiftLeft_eq]

theorem ofNat_shf (x y : Word) (n : Nat) : BitVec.ofNat 32 ((y.toNat * 2 ^ 32 + x.toNat) / 2 ^ n) = ((y ++ x) >>> n).setWidth 32 := by
  apply BitVec.eq_of_toNat_eq
  rw [← toNat_append_add, BitVec.toNat_ofNat, BitVec.toNat_setWidth, BitVec.toNat_ushiftRight, Nat.shiftRight_eq_div_pow]

/-- The byte of y:x that nibble i of the control word names, or its sign (R349). -/
def permutedByte (x y z : Word) (i : Nat) : Byte :=
  let v : Byte := (y ++ x).extractLsb' (8 * fld z.toNat (4 * i + 2) (4 * i)) 8
  if z.getLsbD (4 * i + 3) then (if v.msb then -1 else 0) else v

theorem permByte_eq (x y z : Word) (i : Nat) : permByte (y.toNat * 2 ^ 32 + x.toNat) z.toNat i = (permutedByte x y z i).toNat := by
  have low : z.toNat / 2 ^ (4 * i) % 16 % 8 = fld z.toNat (4 * i + 2) (4 * i) := by
    rw [fld, show 4 * i + 2 + 1 - 4 * i = 3 by omega]
    omega
  have high : z.toNat / 2 ^ (4 * i) % 16 ≥ 8 ↔ z.getLsbD (4 * i + 3) = true := by
    rw [← BitVec.testBit_toNat, Nat.testBit_eq_decide_div_mod_eq, Nat.pow_add, ← Nat.div_div_eq_div_mul, decide_eq_true_eq]
    omega
  have byte : (y.toNat * 2 ^ 32 + x.toNat) / 2 ^ (8 * fld z.toNat (4 * i + 2) (4 * i)) % 256 =
      ((y ++ x).extractLsb' (8 * fld z.toNat (4 * i + 2) (4 * i)) 8).toNat := by
    rw [BitVec.extractLsb'_toNat, toNat_append_add, Nat.shiftRight_eq_div_pow]
  simp only [permByte, permutedByte, low, high, byte]
  generalize (y ++ x).extractLsb' (8 * fld z.toNat (4 * i + 2) (4 * i)) 8 = v
  have sign : v.toNat ≥ 128 ↔ v.msb = true := by
    rw [BitVec.msb_eq_decide, decide_eq_true_eq]
  simp only [sign]
  split
  · split <;> rfl
  · rfl

theorem ofNat_permI (x y z : Word) : BitVec.ofNat 32 (permI x.toNat y.toNat z.toNat) =
    permutedByte x y z 3 ++ permutedByte x y z 2 ++ permutedByte x y z 1 ++ permutedByte x y z 0 := by
  apply BitVec.eq_of_toNat_eq
  simp only [permI, permByte_eq, toNat_append_add, BitVec.toNat_ofNat]
  have b₀ := (permutedByte x y z 0).isLt
  have b₁ := (permutedByte x y z 1).isLt
  have b₂ := (permutedByte x y z 2).isLt
  have b₃ := (permutedByte x y z 3).isLt
  omega

theorem carry_toNat (z : DWord) : (z >>> 32 &&& 1).toNat = z.toNat / 2 ^ 32 % 2 := by
  rw [BitVec.toNat_and, BitVec.toNat_ushiftRight, Nat.shiftRight_eq_div_pow]
  exact Nat.and_one_is_mod _

theorem ofNat_addc (x y : Word) (z : DWord) : BitVec.ofNat 64 (x.toNat + y.toNat + z.toNat / 2 ^ 32 % 2) =
    x.setWidth 64 + y.setWidth 64 + (z >>> 32 &&& 1) := by
  apply BitVec.eq_of_toNat_eq
  have hx := x.isLt
  have hy := y.isLt
  simp only [BitVec.toNat_ofNat, BitVec.toNat_add, carry_toNat, BitVec.toNat_setWidth]
  omega
theorem ofInt_subb (x y : Word) (z : DWord) :
    let t : Int := (x.toNat : Int) - y.toNat - (z.toNat / 2 ^ 32 % 2 : Nat)
    BitVec.ofNat 64 (modW 32 t + (if t < 0 then 2 ^ 32 else 0)) =
      (x.setWidth 64 - y.setWidth 64 - (z >>> 32 &&& 1)) &&& 0x1FFFFFFFF := by
  intro t
  apply BitVec.eq_of_toNat_eq
  have hx := x.isLt
  have hy := y.isLt
  have low (v : DWord) : (v &&& 0x1FFFFFFFF).toNat = v.toNat % 2 ^ 33 := Nat.and_two_pow_sub_one_eq_mod v.toNat 33
  simp only [low, BitVec.toNat_ofNat, BitVec.toNat_sub, carry_toNat, BitVec.toNat_setWidth, modW]
  split <;> omega
end Sys2Proof.Proofs
end

