-- ==== Sys2Proof/Proofs/IntegerForms.lean ====
section
/-! PROOFS. The one-operand and three-operand integer words, division, selection and predicates (R346 to R353). -/
namespace Sys2Proof.Proofs
open Sys2Proof.Machine Sys2Proof.Laws

section
variable {hd : Hd} {a b d : Src} {st s : State} (hf : Fires hd.gd st)
include hf

/-! ### Shapes of words -/

theorem intUn_next32 {x z : Word} {f : Nat → Nat} (h : srcI 0 a st = .ok x s) (value : BitVec.ofNat 32 (f x.toNat) = z) :
    runWord hd.gd 1 (intUn false a f) st = .next (s.pushed32 z) :=
  value ▸ runWord_ok hf (u := ()) ((bind_ok (srcN_32 h)).trans (push32_run _ _))
theorem intUn_next64 {x z : DWord} {f : Nat → Nat} (h : src64 a st = .ok x s) (value : BitVec.ofNat 64 (f x.toNat) = z) :
    runWord hd.gd 1 (intUn true a f) st = .next (s.pushed z) :=
  value ▸ runWord_ok hf (u := ()) (bind_ok (srcN_64 h))
/-- Counts, which are 32-bit results at both widths. -/
theorem intUn32_next32 {x : Word} (f : Nat → Nat) (h : srcI 0 a st = .ok x s) :
    runWord hd.gd 1 (intUn32 false a f) st = .next (s.pushed32 (BitVec.ofNat 32 (f x.toNat))) :=
  runWord_ok hf (u := ()) ((bind_ok (srcN_32 h)).trans (push32_run _ _))
theorem intUn32_next64 {x : DWord} (f : Nat → Nat) (h : src64 a st = .ok x s) :
    runWord hd.gd 1 (intUn32 true a f) st = .next (s.pushed32 (BitVec.ofNat 32 (f x.toNat))) :=
  runWord_ok hf (u := ()) ((bind_ok (srcN_64 h)).trans (push32_run _ _))

theorem intLate_next32 {x y z : Word} {f : Nat → Nat → Nat} (reads : Reads32 a b st x y s) (value : f x.toNat y.toNat = z.toNat) :
    runWord hd.gd 1 (intLate false a b f) st = .next (s.sent (z.setWidth 64) false) := by
  obtain ⟨t, hx, hy⟩ := reads
  rw [setWidth_eq_dw, ← value]
  exact runWord_ok hf (u := ()) ((bind_ok (srcN_32 hx)).trans (bind_ok (srcN_32 hy)))
theorem intLate_next64 {x y z : DWord} {f : Nat → Nat → Nat} (reads : Reads64 a b st x y s) (value : f x.toNat y.toNat = z.toNat) :
    runWord hd.gd 1 (intLate true a b f) st = .next (s.sent z false) := by
  obtain ⟨t, hx, hy⟩ := reads
  have same : z = dw (f x.toNat y.toNat) := by rw [value, dw, BitVec.ofNat_toNat, BitVec.setWidth_eq]
  rw [same]
  exact runWord_ok hf (u := ()) ((bind_ok (srcN_64 hx)).trans (bind_ok (srcN_64 hy)))

theorem int3_next {x y z v : Word} {f : Nat → Nat → Nat → Nat} (reads : ReadsThree a b d st x y z s)
    (value : BitVec.ofNat 32 (f x.toNat y.toNat z.toNat) = v) : runWord hd.gd 1 (int3 a b d f) st = .next (s.pushed32 v) := by
  obtain ⟨t, u, hx, hy, hz⟩ := reads
  rw [← value]
  exact runWord_ok hf (u := ()) ((bind_ok hx).trans ((bind_ok hy).trans ((bind_ok hz).trans (push32_run _ _))))
/-- MADW, ADDC and SUBB: two 32-bit sources and a 64-bit one. -/
theorem carry_next {x y : Word} {z v : DWord} {f : Word → Word → DWord → DWord} (reads : ReadsCarry a b d st x y z s)
    (value : f x y z = v) : runWord hd.gd 1 (do
      let x ← srcI 0 a
      let y ← srcI 1 b
      let z ← src64 d
      push64 (f x y z)) st = .next (s.pushed v) := by
  obtain ⟨t, u, hx, hy, hz⟩ := reads
  rw [← value]
  exact runWord_ok hf (u := ()) ((bind_ok hx).trans ((bind_ok hy).trans (bind_ok hz)))

/-! ### LEA and SEL -/

theorem exec_lea {x : DWord} {y z : Word} (reads : ReadsLea a b d st x y z s) :
    exec (.lea hd a b d) st = .next (s.pushed (x + (y.signExtend 64 <<< (z.toNat % 8)))) := by
  obtain ⟨t, u, hx, hy, hz⟩ := reads
  have value : dw (modW 64 ((x.toNat : Int) + y.toInt * 2 ^ (z.toNat % 8))) = x + (y.signExtend 64 <<< (z.toNat % 8)) := by
    have power : (2 ^ (z.toNat % 8) : Int) = (2 ^ (z.toNat % 8) : Nat) := by norm_cast
    rw [dw, ofNat_modW, BitVec.ofInt_add, BitVec.ofInt_mul, BitVec.ofInt_natCast, BitVec.ofNat_toNat, BitVec.setWidth_eq,
      BitVec.shiftLeft_eq_mul_twoPow, power, BitVec.ofInt_natCast]
    congr 2
    exact BitVec.eq_of_toNat_eq (by simp)
  rw [← value]
  exact runWord_ok hf (u := ()) ((bind_ok hx).trans ((bind_ok hy).trans (bind_ok hz)))

theorem exec_sel {x y : Word} (reads : Reads32 a b st x y s) (p : Fin 8) :
    exec (.sel hd a b p) st = .next (s.pushed32 (if s.cur.pred p.val then x else y)) := by
  obtain ⟨t, hx, hy⟩ := reads
  exact runWord_ok hf (u := ()) ((bind_ok hx).trans ((bind_ok hy).trans (push32_run _ _)))
theorem exec_sel64 {x y : DWord} (reads : Reads64 a b st x y s) (p : Fin 8) :
    exec (.sel64 hd a b p) st = .next (s.pushed (if s.cur.pred p.val then x else y)) := by
  obtain ⟨t, hx, hy⟩ := reads
  exact runWord_ok hf (u := ()) ((bind_ok hx).trans (bind_ok hy))

end

/-- Settles O4: counts by `popN_eq`, `clzI_spec` and `ctzI_spec`. -/
theorem intOne : Obligations.IntOne := by
  intro hd a st s hf
  refine ⟨fun x h => ⟨intUn_next32 hf h (ofNat_notI x), intUn_next32 hf h (ofNat_brevI x), intUn_next32 hf h ?_, ?_,
      ⟨_, (clzI_spec x).1, intUn32_next32 hf _ h, (clzI_spec x).2⟩,
      ⟨_, (ctzI_spec x.toNat).1, intUn32_next32 hf _ h, (ctzI_spec x.toNat).2⟩⟩,
    fun x h => ⟨intUn_next64 hf h (ofNat_notI x), intUn_next64 hf h (ofNat_brevI x), intUn_next64 hf h ?_, ?_,
      ⟨_, (clzI_spec x).1, intUn32_next64 hf _ h, (clzI_spec x).2⟩,
      ⟨_, (ctzI_spec x.toNat).1, intUn32_next64 hf _ h, (ctzI_spec x.toNat).2⟩⟩,
    fun b p x y r => exec_sel hf r p, fun b p x y r => exec_sel64 hf r p⟩
  · simp
  · exact popN_eq (w := 32) x.toNat ▸ intUn32_next32 hf _ h
  · simp
  · exact popN_eq (w := 64) x.toNat ▸ intUn32_next64 hf _ h

/-- Settles O5: quotient and remainder are those of bit vectors, but for a divisor of 0. -/
theorem intDivide : Obligations.IntDivide := by
  intro hd a b st s hf
  exact ⟨fun x y r => ⟨intLate_next32 hf r (divI_signed x y), intLate_next32 hf r (divI_unsigned x y),
      intLate_next32 hf r (remI_signed x y), intLate_next32 hf r (remI_unsigned x y)⟩,
    fun x y r => ⟨intLate_next64 hf r (divI_signed x y), intLate_next64 hf r (divI_unsigned x y),
      intLate_next64 hf r (remI_signed x y), intLate_next64 hf r (remI_unsigned x y)⟩⟩

/-- Settles O6: each word is of a shape above, and its operation is that of the bit vectors. -/
theorem intThree : Obligations.IntThree := by
  intro hd a b d st s hf
  refine ⟨fun x y z r => ⟨int3_next hf r ?mad, int3_next hf r (ofNat_shf ..), int3_next hf r (ofNat_bfiI ..), int3_next hf r (ofNat_permI ..)⟩,
    fun x y z r => ⟨carry_next hf r ?madw, carry_next hf r (ofNat_addc ..), carry_next hf r (ofInt_subb ..)⟩,
    fun x y z r => exec_lea hf r,
    fun x y r => ⟨⟨intBin_next32 hf r (ofNat_bfxI_zero ..), intBin_next32 hf r (ofNat_bfxI_sign ..)⟩,
      intBin_next32 hf r ?dot4, intBin_next32 hf r ?dot4u, intBin_next32 hf r ?dotn, intBin_next32 hf r ?dotnu⟩⟩
  case mad => simp [BitVec.ofNat_add, BitVec.ofNat_mul]
  case madw =>
    rw [dw, ofNat_modW, BitVec.ofInt_add, BitVec.ofInt_mul, BitVec.ofInt_natCast, BitVec.ofNat_toNat, BitVec.setWidth_eq]
    rfl
  case dot4 => rw [dotI_signed, ofNat_modW]
  case dot4u => rw [dotI_unsigned, ofNat_modW, BitVec.ofInt_natCast]
  case dotn => rw [dotI_signed, ofNat_modW]
  case dotnu => rw [dotI_unsigned, ofNat_modW, BitVec.ofInt_natCast]

/-! ### Predicates -/

section
variable {hd : Hd} {a b : Src} {st s : State} (hf : Fires hd.gd st)

theorem relI_eq (r : Rel) (x y : Int) : relI r x y = match r with
    | .eq => x == y | .ne => x != y | .lt => decide (x < y) | .le => decide (x ≤ y) | .gt => decide (y < x) | .ge => decide (y ≤ x) := by
  cases r
  case eq => rfl
  case ne => exact decide_not
  all_goals rfl

include hf in
theorem exec_cmp32 {x y : Word} (reads : Reads32 a b st x y s) (p : Fin 8) (r : Rel) (u n : Bool) :
    exec (.cmp hd a b p r u false n) st = .next (s.withPred p.val (if n then s.cur.pred p.val &&
      relI r (asInt 32 u x.toNat) (asInt 32 u y.toNat) else relI r (asInt 32 u x.toNat) (asInt 32 u y.toNat))) := by
  obtain ⟨t, hx, hy⟩ := reads
  exact runWord_ok hf (u := ()) ((bind_ok (srcN_32 hx)).trans (bind_ok (srcN_32 hy)))
include hf in
theorem exec_cmp64 {x y : DWord} (reads : Reads64 a b st x y s) (p : Fin 8) (r : Rel) (u n : Bool) :
    exec (.cmp hd a b p r u true n) st = .next (s.withPred p.val (if n then s.cur.pred p.val &&
      relI r (asInt 64 u x.toNat) (asInt 64 u y.toNat) else relI r (asInt 64 u x.toNat) (asInt 64 u y.toNat))) := by
  obtain ⟨t, hx, hy⟩ := reads
  exact runWord_ok hf (u := ()) ((bind_ok (srcN_64 hx)).trans (bind_ok (srcN_64 hy)))

theorem forX_writePred (f : Nat → Bool) (is : List Nat) (s : State) :
    forX (fun i => writePred i (f i)) is s = .ok () (is.foldl (fun s i => s.withPred i (f i)) s) := by
  induction is generalizing s with
  | nil => rfl
  | cons i is ih => exact ih _

include hf in
theorem exec_unpackp {x m : Word} (reads : Reads32 a b st x m s) : exec (.unpackp hd a b) st =
    .next (((List.range 7).filter m.getLsbD).foldl (fun s i => s.withPred i (x.getLsbD i)) s) := by
  obtain ⟨t, hx, hm⟩ := reads
  have list : bitList 7 m.toNat = (List.range 7).filter m.getLsbD := List.filter_congr fun i _ => bit_toNat m i
  refine runWord_ok hf (u := ()) ((bind_ok hx).trans ((bind_ok hm).trans ?_))
  rw [list, forX_writePred]

include hf in
theorem exec_packp : exec (.packp hd) st = .next (st.pushed32 (st.cur.p.setWidth 32)) := by
  rw [← BitVec.ofNat_toNat]
  exact runWord_ok hf (u := ()) (push32_run _ _)

end

theorem alAdj_self {α : Type} (l : AL α) (k : Nat) {f : α → α} (h : ∀ a, f a = a) : alAdj l k f = l := by
  rw [alAdj, List.map_congr_left (g := id) fun e _ => ?_, List.map_id]
  simp only [h]
  split <;> rfl
theorem withPred_seven (s : State) (b : Bool) : s.withPred 7 b = s := by
  rw [State.withPred, State.modCur_eq, State.modCur_thrs, alAdj_self]
  exact fun th => rfl

/-- Words of PRED other than PLOP, and PACKP with a reserved bit. -/
theorem decPred_illegal {n : Nat} (h : 2 ≤ fld n 3 0 ∨ (fld n 3 0 = 1 ∧ fld n 20 4 ≠ 0)) : decPred n = .error .illegal := by
  unfold decPred
  obtain h | ⟨one, reserved⟩ := h
  · split <;> [omega; omega; rfl]
  · rw [one]
    have no : (fld n 20 4 == 0) = false := beq_false_of_ne reserved
    simp only [need, no, Bool.false_eq_true, if_false]
    split <;> rfl

/-- Settles O7: each word is what its operands give it; p7 takes no write. -/
theorem predicates : Obligations.Predicates := by
  intro hd st s hf
  refine ⟨fun a b p r u n => ⟨fun x y reads => ?_, fun x y reads => ?_⟩, fun x y p t => runWord_ok hf (u := ()) rfl, exec_packp hf,
    fun a b x m reads => exec_unpackp hf reads, fun p v => ⟨fun h => h ▸ withPred_seven st v, rfl⟩, fun w op h => (decPred_of op).trans (decPred_illegal h)⟩
  · rw [exec_cmp32 hf reads]
    cases u <;> simp only [asInt_signed, asInt_unsigned, relI_eq] <;> rfl
  · rw [exec_cmp64 hf reads]
    cases u <;> simp only [asInt_signed, asInt_unsigned, relI_eq] <;> rfl

end Sys2Proof.Proofs
end

