-- ==== Sys2Proof/Proofs/Sources.lean ====
section
/-! PROOFS. What each source code stands for (Table 13.4). -/
namespace Sys2Proof.Proofs
open Sys2Proof.Machine Sys2Proof.Laws

/-- A 64-bit word is its high half before its low half. -/
theorem pair_eq_append (lo hi : Word) : pair lo hi = hi ++ lo :=
  BitVec.eq_of_toNat_eq (by rw [pair, toNat_append_add, BitVec.toNat_ofNat, Nat.mod_eq_of_lt (by omega)])
theorem lo32_eq_setWidth (v : DWord) : lo32 v = v.setWidth 32 := BitVec.ofNat_toNat ..

section
variable {s : State}

/-- A register that no result is on its way to, that is in order and that no link maps (R165, R123, R173). -/
theorem readReg_run {i : Nat} (pend : (s.cur.reg i).pend = none) (uncorr : (s.cur.reg i).uncorr = false)
    (poison : (s.cur.reg i).poison = false) (link : s.cur.link = none) : readReg i s = .ok (s.cur.reg i).v s := by
  rw [readReg, get_bind]
  simp only [pend, uncorr, poison, link, Option.isSome_none, Bool.false_eq_true, if_false, pure_run]

/-- An entry of the queue as it stood before the chain (R160). -/
theorem readQ_full {k : Nat} {v : DWord} (h : s.iss.q0[k]? = some ⟨v, .full⟩) : readQ k s = .ok v s := by
  rw [readQ, get_bind, h]
  rfl
theorem readQ_notWritten {k : Nat} {v : DWord} (h : s.iss.q0[k]? = some ⟨v, .notWritten⟩) : readQ k s = .ok 0 s := by
  rw [readQ, get_bind, h]
  rfl
theorem readQ_pending {k a : Nat} {v : DWord} (h : s.iss.q0[k]? = some ⟨v, .pending a⟩) : readQ k s = .error .stall s := by
  rw [readQ, get_bind, h]
  rfl

theorem readLit_run {w : Word} {r : List Word} (h : s.iss.lits = w :: r) :
    readLit s = .ok w { s with iss := { s.iss with lits := r } } := by
  rw [readLit, get_bind]
  simp only [h, set_bind, pure_run]

/-- R172, R208: a head at its place in the stream it is bound to gives the element there and moves on. -/
theorem popHead_run {k r p v : Nat} {t : State} (bound : alGet s.curGrp.heads k = some r) (pos : alGet s.cur.spos k = some (r, p))
    (elem : streamElem s.curRecs (alGetD s.curRecs r 0) s.cur.tid p s = .ok v t) :
    popHead k s = .ok (BitVec.ofNat 64 v) (t.modCur (fun th => { th with spos := alSet th.spos k (r, p + 1) })) := by
  rw [popHead, get_bind]
  simp only [bound, pos, if_true, bind_ok elem]
  rfl

end

/-- Settles O47: each code by what it reads. -/
theorem sources : Obligations.Sources := by
  intro s
  refine ⟨fun i pend uncorr poison link => ?register, fun k e h => ?entry, fun i => rfl, rfl, rfl, fun w r h => readLit_run h, ?literals, rfl,
    ?index, rfl, fun k r p v t bound pos elem => popHead_run bound pos elem⟩
  case register =>
    have low := readReg_run pend uncorr poison link
    refine ⟨low, fun even pend' uncorr' poison' => ?_⟩
    show (if i.val % 2 = 1 then operand else readReg i.val >>= fun a => readReg (i.val + 1) >>= fun b => pure (pair a b)) s = _
    rw [if_neg (by omega), bind_ok low, bind_ok (readReg_run pend' uncorr' poison' link), pair_eq_append]
    rfl
  case entry =>
    obtain ⟨v, st⟩ := e
    refine ⟨fun full => ?_, fun none => ?_, fun a pending => ?_⟩
    · obtain rfl : st = .full := full
      exact ⟨(bind_ok (readQ_full h)).trans (by rw [lo32_eq_setWidth]; rfl), readQ_full h⟩
    · obtain rfl : st = .notWritten := none
      exact ⟨bind_ok (readQ_notWritten h), readQ_notWritten h⟩
    · obtain rfl : st = .pending a := pending
      exact bind_error (readQ_pending h)
  case literals =>
    intro w x r h
    refine (bind_ok (readLit_run h)).trans ((bind_ok (readLit_run rfl)).trans ?_)
    rw [pair_eq_append]
    rfl
  case index =>
    show EStateM.Result.ok (lo32 _) s = _
    rw [lo32_eq_setWidth]

end Sys2Proof.Proofs
end

