-- ==== Sys2Proof/Proofs/FloatingValues.lean ====
section
/-! PROOFS. The floating operations on values (R352, R355 to R357) and the conversions (R359): the case that each operand falls in. -/
namespace Sys2Proof.Proofs
open Sys2Proof.Machine

/-! ### Sums of products (R355) -/

section
variable {f : IFmt} {rm : RM} {u : Nat} {ts : List (FV × FV)}

theorem any_isNan : ts.any (fun t => t.1.isNan || t.2.isNan) = true ↔ ∃ t ∈ ts, t.1.isNan = true ∨ t.2.isNan = true := by simp
theorem any_badProd : ts.any (fun t => badProd t.1 t.2) = true ↔ ∃ t ∈ ts, badProd t.1 t.2 = true := List.any_eq_true
theorem mem_infTerm {neg : Bool} :
    neg ∈ ts.filterMap (fun t => infTerm t.1 t.2) ↔ ∃ t ∈ ts, infTerm t.1 t.2 = some neg := List.mem_filterMap
/-- Infinities of both signs among the terms. -/
theorem both_infTerm : ((ts.filterMap (fun t => infTerm t.1 t.2)).any id && (ts.filterMap (fun t => infTerm t.1 t.2)).any (!·)) = true ↔
    (∃ t ∈ ts, infTerm t.1 t.2 = some true) ∧ ∃ t ∈ ts, infTerm t.1 t.2 = some false := by
  simp only [Bool.and_eq_true, List.any_eq_true, ← mem_infTerm]
  simp

theorem fusedSum_nan (nan : ∃ t ∈ ts, t.1.isNan = true ∨ t.2.isNan = true) :
    fusedSum f rm u ts = (f.dnan, if ts.any (fun t => t.1.isSig || t.2.isSig) then fIV else 0) := if_pos (any_isNan.mpr nan)
theorem fusedSum_invalid (nan : ¬ ∃ t ∈ ts, t.1.isNan = true ∨ t.2.isNan = true)
    (bad : (∃ t ∈ ts, badProd t.1 t.2 = true) ∨ (∃ t ∈ ts, infTerm t.1 t.2 = some true) ∧ ∃ t ∈ ts, infTerm t.1 t.2 = some false) :
    fusedSum f rm u ts = (f.dnan, fIV) := by
  rw [← any_badProd, ← both_infTerm, ← Bool.or_eq_true] at bad
  exact (if_neg (mt any_isNan.mp nan)).trans (if_pos bad)

/-- The terms are added up: no NaN, no 0 · inf and no infinities of both signs. -/
theorem fusedSum_valid (nan : ¬ ∃ t ∈ ts, t.1.isNan = true ∨ t.2.isNan = true) (bad : ¬ ∃ t ∈ ts, badProd t.1 t.2 = true)
    (both : ¬ ((∃ t ∈ ts, infTerm t.1 t.2 = some true) ∧ ∃ t ∈ ts, infTerm t.1 t.2 = some false)) :
    fusedSum f rm u ts = match ts.filterMap (fun t => infTerm t.1 t.2) with
      | s :: _ => (f.infCode s, 0)
      | [] => f.round rm u (zeroSign rm (ts.map (fun t => FV.fin (t.1.neg != t.2.neg) (if t.1.isZero || t.2.isZero then 0 else 1) 0)))
          (ts.foldl (fun acc t => acc.add (t.1.q.mul t.2.q)) ⟨0, 1⟩) := by
  have no : ¬ (ts.any (fun t => badProd t.1 t.2) || ((ts.filterMap (fun t => infTerm t.1 t.2)).any id &&
      (ts.filterMap (fun t => infTerm t.1 t.2)).any (!·))) = true := by
    rw [Bool.or_eq_true, any_badProd, both_infTerm]
    exact not_or.mpr ⟨bad, both⟩
  exact (if_neg (mt any_isNan.mp nan)).trans ((if_neg no).trans rfl)

theorem fusedSum_inf {neg : Bool} (nan : ¬ ∃ t ∈ ts, t.1.isNan = true ∨ t.2.isNan = true) (bad : ¬ ∃ t ∈ ts, badProd t.1 t.2 = true)
    (inf : ∃ t ∈ ts, infTerm t.1 t.2 = some neg) (other : ¬ ∃ t ∈ ts, infTerm t.1 t.2 = some !neg) :
    fusedSum f rm u ts = (f.infCode neg, 0) := by
  have both : ¬ ((∃ t ∈ ts, infTerm t.1 t.2 = some true) ∧ ∃ t ∈ ts, infTerm t.1 t.2 = some false) := by
    cases neg
    · exact fun h => other h.1
    · exact fun h => other h.2
  rw [fusedSum_valid nan bad both]
  rw [← mem_infTerm] at inf other
  split
  next n rest infs =>
    rw [infs] at other
    obtain rfl : n = neg := by
      cases n <;> cases neg <;> simp_all
    rfl
  next infs => simp [infs] at inf

theorem fusedSum_finite (finite : ∀ t ∈ ts, t.1.isNan = false ∧ t.1.isInf = false ∧ t.2.isNan = false ∧ t.2.isInf = false) :
    ∃ z, fusedSum f rm u ts = f.round rm u z (ts.foldl (fun acc t => acc.add (t.1.q.mul t.2.q)) ⟨0, 1⟩) := by
  have noInf : ∀ t ∈ ts, infTerm t.1 t.2 = none ∧ badProd t.1 t.2 = false := by
    intro t ht
    obtain ⟨-, h1, -, h2⟩ := finite t ht
    simp [infTerm, badProd, h1, h2]
  have nan : ¬ ∃ t ∈ ts, t.1.isNan = true ∨ t.2.isNan = true := by
    rintro ⟨t, ht, h⟩
    obtain ⟨n1, -, n2, -⟩ := finite t ht
    simp [n1, n2] at h
  have bad : ¬ ∃ t ∈ ts, badProd t.1 t.2 = true := by
    rintro ⟨t, ht, h⟩
    simp [(noInf t ht).2] at h
  have none : ts.filterMap (fun t => infTerm t.1 t.2) = [] := List.filterMap_eq_nil_iff.mpr fun t ht => (noInf t ht).1
  have both : ¬ ((∃ t ∈ ts, infTerm t.1 t.2 = some true) ∧ ∃ t ∈ ts, infTerm t.1 t.2 = some false) := by
    rw [← mem_infTerm, none]
    simp
  exact ⟨_, by rw [fusedSum_valid nan bad both, none]⟩

end

/-! ### Minimum and maximum (R356) -/

/-- The order of values is a strict one. -/
theorem fvLt_asymm {x y : FV} (h : fvLt x y = true) : fvLt y x = false := by
  have finite {p q : Q} (h : p.lt q = true) : q.lt p = false := by
    simp only [Q.lt, decide_eq_true_eq, decide_eq_false_iff_not] at h ⊢
    omega
  cases x with
  | nan s => cases y with
    | inf n => cases n <;> simp_all [fvLt]
    | nan t => exact finite h
    | fin n m e => exact finite h
  | inf n => cases y with
    | inf n' => cases n <;> cases n' <;> simp_all [fvLt]
    | nan t => cases n <;> simp_all [fvLt]
    | fin n' m e => cases n <;> simp_all [fvLt]
  | fin n m e => cases y with
    | inf n => cases n <;> simp_all [fvLt]
    | nan t => exact finite h
    | fin n m e => exact finite h

/-- Zeros of either sign are equal in that order. -/
theorem fvLt_zero {x y : FV} (hx : x.isZero = true) (hy : y.isZero = true) : fvLt x y = false := by
  have zero {v : FV} (h : v.isZero = true) : ∃ n e, v = .fin n 0 e := by
    unfold FV.isZero at h
    split at h
    · exact ⟨_, _, rfl⟩
    · cases h
  have numerator (n : Bool) (e : Int) : (FV.fin n 0 e).q.n = 0 := by
    simp only [FV.q, Q.dy]
    split <;> split <;> simp
  obtain ⟨n, e, rfl⟩ := zero hx
  obtain ⟨n', e', rfl⟩ := zero hy
  simp only [fvLt, Q.lt, numerator]
  simp

section
variable {f : IFmt} {mx num : Bool} {x y : Nat}

theorem fMinMax_flags : (fMinMax f mx num x y).2 = if (f.dec x).isSig || (f.dec y).isSig then fIV else 0 := by
  simp only [fMinMax, flag, apply_ite Prod.snd, ite_self]

/-- Of two numbers, the first is taken where it is the lower one and the minimum is wanted, or neither. -/
theorem fMinMax_numbers (hx : (f.dec x).isNan = false) (hy : (f.dec y).isNan = false) :
    (fMinMax f mx num x y).1 = if (fvLt (f.dec x) (f.dec y) || (fvEq (f.dec x) (f.dec y) && (f.dec x).neg)) = mx then y else x := by
  simp only [fMinMax, hx, hy, Bool.or_self, Bool.false_eq_true, if_false, bne_iff_ne, ne_eq, ite_not]

theorem fMinMax_below (hx : (f.dec x).isNan = false) (hy : (f.dec y).isNan = false) (lt : fvLt (f.dec x) (f.dec y) = true) :
    (fMinMax f mx num x y).1 = if mx then y else x := by
  rw [fMinMax_numbers hx hy, lt, Bool.true_or]
  simp only [eq_comm (a := true)]
theorem fMinMax_above (hx : (f.dec x).isNan = false) (hy : (f.dec y).isNan = false) (lt : fvLt (f.dec y) (f.dec x) = true) :
    (fMinMax f mx num x y).1 = if mx then x else y := by
  rw [fMinMax_numbers hx hy, fvEq, fvLt_asymm lt, lt]
  cases mx <;> rfl
theorem fMinMax_zeros (hx : (f.dec x).isNan = false) (hy : (f.dec y).isNan = false) (zx : (f.dec x).isZero = true)
    (zy : (f.dec y).isZero = true) : (fMinMax f mx num x y).1 = if (f.dec x).neg = mx then y else x := by
  rw [fMinMax_numbers hx hy, fvEq, fvLt_zero zx zy, fvLt_zero zy zx]
  rfl

end

/-! ### Classes, exponents, relations (R352, R357) -/

/-- Numbers of the ten classes. -/
def classNo (f : IFmt) (c : Nat) : Nat :=
  match f.dec c with
  | .inf true => 0
  | .inf false => 7
  | .nan true => 8
  | .nan false => 9
  | .fin n m _ =>
    if m = 0 then (if n then 3 else 4) else if c / 2 ^ f.mb % 2 ^ f.eb = 0 then (if n then 2 else 5) else (if n then 1 else 6)

theorem fClass_eq (f : IFmt) (c : Nat) : fClass f c = 2 ^ classNo f c := by
  unfold fClass classNo
  cases f.dec c with
  | nan s => cases s <;> rfl
  | inf n => cases n <;> rfl
  | fin n m e => cases n <;> simp only [apply_ite (2 ^ · : Nat → Nat)] <;> rfl
/-- The class of a number is none of the four of infinities and NaNs. -/
theorem classNo_fin {f : IFmt} {c : Nat} {n : Bool} {m : Nat} {e : Int} (h : f.dec c = .fin n m e) :
    classNo f c = (if m = 0 then (if n then 3 else 4) else if c / 2 ^ f.mb % 2 ^ f.eb = 0 then (if n then 2 else 5) else (if n then 1 else 6)) ∧
    1 ≤ classNo f c ∧ classNo f c ≤ 6 := by
  have eq : classNo f c = if m = 0 then (if n then 3 else 4)
      else if c / 2 ^ f.mb % 2 ^ f.eb = 0 then (if n then 2 else 5) else (if n then 1 else 6) := by rw [classNo, h]
  refine ⟨eq, ?_⟩
  rw [eq]
  split <;> [skip; split] <;> cases n <;> simp

theorem classNo_lt (f : IFmt) (c : Nat) : classNo f c < 10 := by
  cases h : f.dec c with
  | nan s => cases s <;> simp [classNo, h]
  | inf n => cases n <;> simp [classNo, h]
  | fin n m e =>
    have := (classNo_fin h).2
    omega

theorem log2_eq {m j : Nat} (lower : 2 ^ j ≤ m) (upper : m < 2 ^ (j + 1)) : Nat.log2 m = j :=
  (Nat.log2_eq_iff (by have := Nat.two_pow_pos j; omega)).mpr ⟨lower, upper⟩

theorem fRel_unordered (r : FRel) {x y : FV} (h : (x.isNan || y.isNan) = true) : (fRel r x y).1 = (r == .ne || r == .un) ∧
    ((fRel r x y).2 = if r == .lt || r == .le || r == .gt || r == .ge || x.isSig || y.isSig then fIV else 0) := by
  simp only [fRel, flag, h]
  cases r <;> exact ⟨rfl, by simp⟩

/-! ### Conversions (R359) -/

section
variable {f g : NumTy} {r : RM} {u c : Nat}

/-- Between integer types the value saturates. -/
theorem cvtCode_int (hf : f.isInt = true) (hg : g.isInt = true) (lo hi : Int) (hlo : lo = if tyU g then 0 else -(2 ^ (tyW g - 1)))
    (hhi : hi = if tyU g then 2 ^ tyW g - 1 else 2 ^ (tyW g - 1) - 1) : cvtCode f g r u c =
      (modW (tyW g) (max lo (min hi (tyInt f c))), if lo ≤ tyInt f c ∧ tyInt f c ≤ hi then 0 else fSATN) := by
  have le : lo ≤ hi := by
    have pos : (0 : Int) < 2 ^ tyW g := by positivity
    have pos' : (0 : Int) < 2 ^ (tyW g - 1) := by positivity
    rw [hlo, hhi]
    split <;> omega
  have clamp : satI (tyInt f c) lo hi = max lo (min hi (tyInt f c)) := by unfold satI; split <;> [skip; split] <;> omega
  have same : satI (tyInt f c) lo hi = tyInt f c ↔ lo ≤ tyInt f c ∧ tyInt f c ≤ hi := by rw [clamp]; omega
  simp only [cvtCode, hf, hg, ← hlo, ← hhi, ← clamp, ← same, flag, ne_eq, decide_eq_true_eq, ite_not]

theorem cvtCode_toInt (hf : f.isInt = false) (hg : g.isInt = true) : cvtCode f g r u c = toInt g r u ((tyF f).dec (c % 2 ^ tyW f)) := by
  simp only [cvtCode, hf, hg]

end

end Sys2Proof.Proofs
end

