-- ==== Sys2Proof/Proofs/FloatingWords.lean ====
section
/-! PROOFS. The floating words (R352, R354 to R357, R361): each shape of word completes with its operation on the values of its
sources. -/
namespace Sys2Proof.Proofs
open Sys2Proof.Machine Sys2Proof.Laws

/-! ### Sources as values, results with flags -/

section
variable {s t u : State}

theorem valF_run {i : Nat} {a : Src} {x : Word} (h : srcF i a s = .ok x t) : valF i a s = .ok (f32.dec x.toNat) t := bind_ok h
theorem valD_run {a : Src} {x : DWord} (h : src64 a s = .ok x t) : valD a s = .ok (f64.dec x.toNat) t := bind_ok h

theorem pushFl_32 (r : Nat × Word) : pushFl false r s = .ok () ((s.raised r.2).pushed32 (w32 r.1)) :=
  (bind_ok (raiseFlags_run ..)).trans (push32_run _ _)
theorem pushFl_64 (r : Nat × Word) : pushFl true r s = .ok () ((s.raised r.2).pushed (dw r.1)) := bind_ok (raiseFlags_run ..)

/-- A sum of products that is not narrowed, rounded once to f32. -/
theorem pushFused_32 {r : RM} {n : Nat} (ts : List (FV × FV)) (nd : s.iss.nd = none) (draw : drawSR r s = .ok n t) :
    pushFused f32 r ts s = .ok () ((t.raised (fusedSum f32 r n ts).2).pushed32 (w32 (fusedSum f32 r n ts).1)) := by
  rw [pushFused, get_bind, nd]
  exact (bind_ok draw).trans ((bind_ok (raiseFlags_run ..)).trans (push32_run _ _))
/-- And to f64. -/
theorem pushFused_64 {r : RM} {n : Nat} (ts : List (FV × FV)) (nd : s.iss.nd = none) (draw : drawSR r s = .ok n t) :
    pushFused f64 r ts s = .ok () ((t.raised (fusedSum f64 r n ts).2).pushed (dw (fusedSum f64 r n ts).1)) := by
  rw [pushFused, get_bind, nd]
  exact (bind_ok draw).trans (bind_ok (raiseFlags_run ..))

/-- Two halves, each with a draw of its own. -/
theorem halves_run {r : RM} {n m : Nat} (f : Nat → List (FV × FV)) (draw : drawSR r s = .ok n u) (draw' : drawSR r u = .ok m t) :
    halves r f s = .ok () ((t.raised ((fusedSum f16 r n (f 0)).2 ||| (fusedSum f16 r m (f 1)).2)).pushed32
      (w32 ((fusedSum f16 r n (f 0)).1 + 2 ^ 16 * (fusedSum f16 r m (f 1)).1))) :=
  (bind_ok draw).trans ((bind_ok draw').trans ((bind_ok (raiseFlags_run ..)).trans (push32_run _ _)))

theorem thr?_modCur (s : State) (f : Thr → Thr) : (s.modCur f).thr? s.iss.thr = (s.thr? s.iss.thr).map f :=
  (alGet_alAdj ..).trans (if_pos rfl)
/-- Flags leave the predicates of the thread at issue as they are. -/
theorem raised_pred (s : State) (f : Word) (p : Nat) : (s.raised f).cur.pred p = s.cur.pred p := by
  unfold State.raised
  split
  · rfl
  · rw [State.cur, State.modCur_iss, thr?_modCur, State.cur]
    cases s.thr? s.iss.thr <;> rfl

theorem putFrel_run (p : Nat) (r : FRel) (n : Bool) (x y : FV) : putFrel p r n x y s =
    .ok () ((s.raised (fRel r x y).2).withPred p (if n then s.cur.pred p && (fRel r x y).1 else (fRel r x y).1)) := by
  rw [← raised_pred s (fRel r x y).2 p]
  exact bind_ok (raiseFlags_run ..)

end

/-! ### Shapes of words -/

section
variable {hd : Hd} {a b d : Src} {r : RM} {st s t u : State} (hf : Fires hd.gd st)
include hf

theorem f32Bin_next {x y : Word} {f : FV → FV → List (FV × FV)} (reads : ReadsF a b st x y s)
    (push : pushFused f32 r (f (f32.dec x.toNat) (f32.dec y.toNat)) s = .ok () t) : runWord hd.gd 1 (f32Bin a b r f) st = .next t := by
  obtain ⟨v, hx, hy⟩ := reads
  exact runWord_ok hf ((bind_ok (valF_run hx)).trans ((bind_ok (valF_run hy)).trans push))
theorem f64Bin_next {x y : DWord} {f : FV → FV → List (FV × FV)} (reads : Reads64 a b st x y s)
    (push : pushFused f64 r (f (f64.dec x.toNat) (f64.dec y.toNat)) s = .ok () t) : runWord hd.gd 1 (f64Bin a b r f) st = .next t := by
  obtain ⟨v, hx, hy⟩ := reads
  exact runWord_ok hf ((bind_ok (valD_run hx)).trans ((bind_ok (valD_run hy)).trans push))
theorem exec_ffma {x y z : Word} (reads : ReadsF a b st x y u) (hz : srcF 2 d u = .ok z s)
    (push : pushFused f32 r [(f32.dec x.toNat, f32.dec y.toNat), (f32.dec z.toNat, .one)] s = .ok () t) :
    exec (.ffma hd a b d r) st = .next t := by
  obtain ⟨v, hx, hy⟩ := reads
  exact runWord_ok hf ((bind_ok (valF_run hx)).trans ((bind_ok (valF_run hy)).trans ((bind_ok (valF_run hz)).trans push)))
theorem exec_dfma {x y z : DWord} (reads : Reads64 a b st x y u) (hz : src64 d u = .ok z s)
    (push : pushFused f64 r [(f64.dec x.toNat, f64.dec y.toNat), (f64.dec z.toNat, .one)] s = .ok () t) :
    exec (.dfma hd a b d r) st = .next t := by
  obtain ⟨v, hx, hy⟩ := reads
  exact runWord_ok hf ((bind_ok (valD_run hx)).trans ((bind_ok (valD_run hy)).trans ((bind_ok (valD_run hz)).trans push)))
theorem dot2_next {h : IFmt} {x y z : Word} (reads : ReadsRaw a b st x y u) (hz : src32 d u = .ok z s)
    (push : pushFused f32 .rne [(f32.dec z.toNat, .one), (halfV h x 0, halfV h y 0), (halfV h x 1, halfV h y 1)] s = .ok () t) :
    runWord hd.gd 1 (dot2 h a b d) st = .next t := by
  obtain ⟨v, hx, hy⟩ := reads
  exact runWord_ok hf ((bind_ok hx).trans ((bind_ok hy).trans ((bind_ok hz).trans push)))

theorem f32Mm_next {x y : Word} (mx num : Bool) (reads : ReadsF a b st x y s) :
    runWord hd.gd 1 (f32Mm a b mx num) st = .next ((s.raised (fMinMax f32 mx num x.toNat y.toNat).2).pushed32
      (w32 (fMinMax f32 mx num x.toNat y.toNat).1)) := by
  obtain ⟨v, hx, hy⟩ := reads
  exact runWord_ok hf ((bind_ok hx).trans ((bind_ok hy).trans (pushFl_32 _)))
theorem f64Mm_next {x y : DWord} (mx : Bool) (reads : Reads64 a b st x y s) :
    runWord hd.gd 1 (f64Mm a b mx) st = .next ((s.raised (fMinMax f64 mx false x.toNat y.toNat).2).pushed
      (dw (fMinMax f64 mx false x.toNat y.toNat).1)) := by
  obtain ⟨v, hx, hy⟩ := reads
  exact runWord_ok hf ((bind_ok hx).trans ((bind_ok hy).trans (pushFl_64 _)))

theorem sfu32_next {x : Word} (h : srcF 0 a st = .ok x s) (f : Nat → Nat × Word) :
    runWord hd.gd 1 (sfu32 a f) st = .next ((s.raised (f x.toNat).2).sent (dw (f x.toNat).1) false) :=
  runWord_ok hf ((bind_ok h).trans (bind_ok (raiseFlags_run ..)))
theorem sfu64_next {x : DWord} (h : src64 a st = .ok x s) (f : Nat → Nat × Word) :
    runWord hd.gd 1 (sfu64 a f) st = .next ((s.raised (f x.toNat).2).sent (dw (f x.toNat).1) false) :=
  runWord_ok hf ((bind_ok h).trans (bind_ok (raiseFlags_run ..)))

end

/-- Settles O8: the sum's cases are those of `fusedSum`. -/
theorem fpSums : Obligations.FpSums := by
  refine ⟨fun hd a b d r st s t n hf => ⟨fun x y => ?_, fun x y => ?_⟩, fun f rm u ts =>
    ⟨fun nan => ?_, fusedSum_invalid, fun neg => fusedSum_inf, fusedSum_finite⟩⟩
  · exact ⟨fun reads nd draw => ⟨f32Bin_next hf reads (pushFused_32 _ nd draw), f32Bin_next hf reads (pushFused_32 _ nd draw),
      f32Bin_next hf reads (pushFused_32 _ nd draw)⟩, fun u z reads hz nd draw => exec_ffma hf reads hz (pushFused_32 _ nd draw)⟩
  · exact ⟨fun reads nd draw => ⟨f64Bin_next hf reads (pushFused_64 _ nd draw), f64Bin_next hf reads (pushFused_64 _ nd draw),
      f64Bin_next hf reads (pushFused_64 _ nd draw)⟩, fun u z reads hz nd draw => exec_dfma hf reads hz (pushFused_64 _ nd draw)⟩
  · rw [fusedSum_nan nan]
    exact ⟨rfl, rfl⟩

/-- Settles O9: the halves draw one after the other; FDOT2 draws nothing, for it rounds under RNE. -/
theorem fpHalves : Obligations.FpHalves := by
  intro hd a b d r st s t x y z n m hf
  refine ⟨fun ⟨v, hx, hy⟩ ⟨u, draw, draw'⟩ => ⟨?_, ?_⟩, fun p reads hz => ⟨fun ⟨u, draw, draw'⟩ => ?_, fun nd => ⟨?_, ?_⟩⟩⟩
  · exact runWord_ok hf ((bind_ok hx).trans ((bind_ok hy).trans (halves_run _ draw draw')))
  · exact runWord_ok hf ((bind_ok hx).trans ((bind_ok hy).trans (halves_run _ draw draw')))
  · obtain ⟨v, hx, hy⟩ := reads
    exact runWord_ok hf ((bind_ok hx).trans ((bind_ok hy).trans ((bind_ok hz).trans (halves_run _ draw draw'))))
  · exact dot2_next hf reads hz (pushFused_32 _ nd rfl)
  · exact dot2_next hf reads hz (pushFused_32 _ nd rfl)

/-- Settles O10. -/
theorem fpMinMax : Obligations.FpMinMax := by
  refine ⟨fun hd a b st s hf => ⟨fun x y reads => ⟨f32Mm_next hf false false reads, f32Mm_next hf true false reads,
      f32Mm_next hf false true reads, f32Mm_next hf true true reads⟩,
    fun x y reads => ⟨f64Mm_next hf false reads, f64Mm_next hf true reads⟩⟩, fun f mx num x y => ⟨fMinMax_flags, fun hx hy => ?_,
      fun hx hy => ?_, fun hx hy => ?_, fun hx hy => ⟨?_, fMinMax_below hx hy, fMinMax_above hx hy, ?_, ?_⟩⟩⟩
  · simp [fMinMax, hx, hy]
  · cases num <;> simp [fMinMax, hx, hy]
  · cases num <;> simp [fMinMax, hx, hy]
  · rw [fMinMax_numbers hx hy, or_comm]
    exact ite_eq_or_eq ..
  · intro zx zy nx ny
    rw [fMinMax_zeros hx hy zx zy, nx]
    simp only [eq_comm (a := true)]
  · intro zx zy nx ny
    rw [fMinMax_zeros hx hy zx zy, nx]
    cases mx <;> rfl

/-- Settles O11. -/
theorem fpOther : Obligations.FpOther := by
  intro hd a b r st s hf
  refine ⟨fun x h => ⟨fun n t draw => ?_, fun n t u y hy draw => ?_, ?_, ?_⟩, fun x h => ⟨fun n t draw => ?_, fun n t u y hy draw => ?_, ?_, ?_⟩,
    fun f c => ?classes, fun f c => ?exponents,
    fun x h => ⟨sfu32_next hf h _, sfu32_next hf h _, sfu32_next hf h _, sfu32_next hf h _, sfu32_next hf h _, sfu32_next hf h _,
      sfu32_next hf h _, fun r n t draw => ?_⟩, fun x h => ⟨sfu64_next hf h _, sfu64_next hf h _⟩⟩
  · exact runWord_ok hf ((bind_ok h).trans ((bind_ok draw).trans (pushFl_32 _)))
  · exact runWord_ok hf ((bind_ok (valF_run h)).trans ((bind_ok hy).trans ((bind_ok draw).trans (pushFl_32 _))))
  · exact runWord_ok hf ((bind_ok h).trans ((bind_ok (raiseFlags_run ..)).trans (push32_run _ _)))
  · exact runWord_ok hf ((bind_ok h).trans (push32_run _ _))
  · exact runWord_ok hf ((bind_ok h).trans ((bind_ok draw).trans (pushFl_64 _)))
  · exact runWord_ok hf ((bind_ok (valD_run h)).trans ((bind_ok hy).trans ((bind_ok draw).trans (pushFl_64 _))))
  · exact runWord_ok hf ((bind_ok h).trans ((bind_ok (raiseFlags_run ..)).trans (push32_run _ _)))
  · exact runWord_ok hf ((bind_ok h).trans (push32_run _ _))
  case classes =>
    refine ⟨classNo f c, classNo_lt f c, fClass_eq f c, ?_⟩
    cases h : f.dec c with
    | nan s => cases s <;> simp [classNo, h]
    | inf n => cases n <;> simp [classNo, h]
    | fin n m e =>
      obtain ⟨no, least, most⟩ := classNo_fin h
      simp only [reduceCtorEq, false_iff, FV.fin.injEq]
      refine ⟨by omega, by omega, by omega, by omega, ?_⟩
      rintro _ _ _ ⟨rfl, rfl, rfl⟩
      exact ⟨fun zero => no.trans (if_pos zero), fun pos sub => no.trans ((if_neg pos).trans (if_pos sub)),
        fun pos norm => no.trans ((if_neg pos).trans (if_neg norm))⟩
  case exponents =>
    refine ⟨fun nan => ?_, fun inf => ?_, fun n m e h => ⟨?_, fun j lower upper => ?_⟩⟩
    · unfold fGetx
      split <;> simp_all [FV.isNan]
    · unfold fGetx
      split <;> simp_all [FV.isInf]
    · rintro rfl
      simp only [fGetx, h, if_true]
    · have pos : m ≠ 0 := by have := Nat.two_pow_pos j; omega
      simp only [fGetx, h, if_neg pos, log2_eq lower upper]
  · exact runWord_ok hf ((bind_ok h).trans ((bind_ok draw).trans (bind_ok (raiseFlags_run ..))))

/-- Settles O12. -/
theorem fpCompare : Obligations.FpCompare := by
  intro hd a b p r n st s hf
  refine ⟨fun x y ⟨v, hx, hy⟩ => ?_, fun x y ⟨v, hx, hy⟩ => ?_, fun x y ⟨v, hx, hy⟩ => ?_, fun x y => fRel_unordered r⟩
  · exact runWord_ok hf ((bind_ok (valF_run hx)).trans ((bind_ok (valF_run hy)).trans (putFrel_run ..)))
  · exact runWord_ok hf ((bind_ok (valD_run hx)).trans ((bind_ok (valD_run hy)).trans (putFrel_run ..)))
  · have half (w : Word) : f16.dec (w.toNat % 2 ^ 16) = halfV f16 w 0 := by rw [halfV, halfOf, Nat.mul_zero, pow_zero, Nat.div_one]
    rw [half, half]
    exact runWord_ok hf ((bind_ok hx).trans ((bind_ok hy).trans (putFrel_run ..)))

end Sys2Proof.Proofs
end

