-- ==== Sys2Proof/Proofs/NarrowWords.lean ====
section
/-! PROOFS. Conversions, narrow results and the forwarded forms (R255, R344, R359, R360, R368). -/
namespace Sys2Proof.Proofs
open Sys2Proof.Machine Sys2Proof.Laws

/-! ### Conversions -/

section
variable {hd : Hd} {a b : Src} {r : RM} {st s t u : State} (hf : Fires hd.gd st)
include hf

theorem exec_cvt {f g : NumTy} {c n : Nat} (h : tySrc f a st = .ok c s) (draw : drawSR r s = .ok n t) :
    exec (.cvt hd a f g r) st = .next (if tyW g = 64 then (t.raised (cvtCode f g r n c).2).pushed (dw (cvtCode f g r n c).1)
      else (t.raised (cvtCode f g r n c).2).pushed32 (w32 (cvtCode f g r n c).1)) := by
  refine runWord_ok hf (u := ()) ((bind_ok h).trans ((bind_ok draw).trans ((bind_ok (raiseFlags_run ..)).trans ?_)))
  rw [pushN, ite_run]
  split
  next wide => rw [if_pos (of_decide_eq_true wide)]; rfl
  next narrow => rw [if_neg (fun w => narrow (decide_eq_true w)), push32_run]; rfl

theorem pk2_next {x y : Word} {n m : Nat} (h : NumTy) (reads : ReadsRaw a b st x y s) (draw : drawSR r s = .ok n u)
    (draw' : drawSR r u = .ok m t) : runWord hd.gd 1 (pk2 h a b r) st =
      .next ((t.raised ((cvtCode .f32 h r n x.toNat).2 ||| (cvtCode .f32 h r m y.toNat).2)).pushed32
        (w32 ((cvtCode .f32 h r n x.toNat).1 + 2 ^ 16 * (cvtCode .f32 h r m y.toNat).1))) := by
  obtain ⟨v, hx, hy⟩ := reads
  exact runWord_ok hf ((bind_ok hx).trans ((bind_ok hy).trans ((bind_ok draw).trans ((bind_ok draw').trans
    ((bind_ok (raiseFlags_run ..)).trans (push32_run _ _))))))

end

/-- Settles O13: an integer is clamped; a NaN and an infinity are the first cases of `toInt`. -/
theorem convert : Obligations.Convert := by
  refine ⟨fun hd a b r st s t hf => ⟨fun f g c n h draw => exec_cvt hf h draw,
    fun x y n m reads ⟨u, draw, draw'⟩ => ⟨pk2_next hf .f16 reads draw draw', pk2_next hf .bf16 reads draw draw'⟩⟩, fun f g r u c => ?_⟩
  intro lo hi hg
  refine ⟨fun hf => cvtCode_int hf hg lo hi rfl rfl, fun hf => ?_⟩
  rw [cvtCode_toInt hf hg]
  refine ⟨fun nan => ?_, fun inf => ?_, fun inf => ?_⟩
  · unfold toInt
    split <;> simp_all [FV.isNan]
  · rw [inf]; rfl
  · rw [inf]; rfl

/-! ### Narrow results -/

/-- What ND makes of a value under draw n: its code in the subfield of base, and its flags (R255). -/
def narrowed (s t : State) (nd : NdP) (n : Nat) (base : Word) (v : NVal) : State :=
  let fm := ftOf (s.ctxD s.cur.id.ctx) nd.ft
  let c := if nd.int then narrowInt (subBits nd.w) nd.sgn nd.sat nd.rm n v.v else fm.conv nd.rm n nd.sat v.v v.zneg
  (t.raised (v.fl ||| c.2)).pushed32 (placeSub base (subBits nd.w * nd.i) (if nd.int then subBits nd.w else fm.wid) c.1)

section
variable {s t : State} {nd : NdP} {n : Nat} (draw : drawSR nd.rm s = .ok n t)
include draw

theorem pushNarrow_run (base : Word) (v : NVal) : pushNarrow nd base v s = .ok () (narrowed s t nd n base v) := by
  refine Eq.trans (get_bind ..) ((bind_ok draw).trans ?_)
  exact (bind_ok (raiseFlags_run ..)).trans (push32_run _ _)

section
variable (hn : s.iss.nd = some nd)
include hn

theorem pushFused_narrow (f : IFmt) (rm : RM) (ts : List (FV × FV)) :
    pushFused f rm ts s = .ok () (narrowed s t nd n 0 (fusedVal nd.rm ts)) := by
  rw [pushFused, get_bind, hn]
  exact pushNarrow_run draw ..
theorem pushIntNd_narrow (e : Int) (plain : Word) : pushIntNd e plain s = .ok () (narrowed s t nd n 0 ⟨.inr (Q.ofInt e), false, 0⟩) := by
  rw [pushIntNd, get_bind, hn]
  exact pushNarrow_run draw ..

section
variable {hd : Hd} {a b : Src} {st : State} (hf : Fires hd.gd st)
include hf

theorem intSat_narrow {x y : Word} {f : Int → Int → Int} (reads : Reads32 a b st x y s) :
    runWord hd.gd 1 (intSat false false false a b f) st = .next (narrowed s t nd n 0 ⟨.inr (Q.ofInt (f x.toInt y.toInt)), false, 0⟩) := by
  obtain ⟨u, hx, hy⟩ := reads
  refine runWord_ok hf (u := ()) ((bind_ok (srcN_32 hx)).trans ((bind_ok (srcN_32 hy)).trans ((bind_ok (raiseFlags_run ..)).trans ?_)))
  refine Eq.trans (congrFun (if_neg Bool.false_ne_true) _) ((pushIntNd_narrow draw hn ..).trans ?_)
  rw [← asInt_signed x, ← asInt_signed y]
  rfl
theorem exec_mul_narrow {x y : Word} (reads : Reads32 a b st x y s) :
    exec (.mul hd a b false false false) st = .next (narrowed s t nd n 0 ⟨.inr (Q.ofInt (x.toInt * y.toInt)), false, 0⟩) := by
  obtain ⟨u, hx, hy⟩ := reads
  rw [← asInt_signed x, ← asInt_signed y]
  exact runWord_ok hf (u := ()) ((bind_ok (srcN_32 hx)).trans ((bind_ok (srcN_32 hy)).trans (pushIntNd_narrow draw hn ..)))

/-- CVTN takes an integer as it is, a floating value with IV for a signalling NaN (R360). -/
theorem cvtn_int {ty : NumTy} {c : Nat} {u : State} {y : Word} (int : ty.isInt = true) (hx : tySrc ty a st = .ok c u) (hy : src32 b u = .ok y s) :
    runWord hd.gd 1 (cvtn ty a b) st = .next (narrowed s t nd n y ⟨.inr (Q.ofInt (tyInt ty c)), false, 0⟩) := by
  refine runWord_ok hf (u := ()) ((bind_ok hx).trans ((bind_ok hy).trans ((get_bind ..).trans ?_)))
  simp only [hn, int, if_true]
  exact pushNarrow_run draw ..
theorem cvtn_float {ty : NumTy} {c : Nat} {u : State} {y : Word} (float : ty.isInt = false) (hx : tySrc ty a st = .ok c u)
    (hy : src32 b u = .ok y s) : runWord hd.gd 1 (cvtn ty a b) st = .next (narrowed s t nd n y
      ⟨.inl ((tyF ty).dec c).quiet, ((tyF ty).dec c).neg, if ((tyF ty).dec c).isSig then fIV else 0⟩) := by
  refine runWord_ok hf (u := ()) ((bind_ok hx).trans ((bind_ok hy).trans ((get_bind ..).trans ?_)))
  simp only [hn, float, Bool.false_eq_true, if_false]
  refine (pushNarrow_run draw ..).trans ?_
  cases (tyF ty).dec c <;> rfl

end
end
end

/-- Settles O14: each host pushes the value that `narrowed` narrows. -/
theorem narrow : Obligations.Narrow := by
  intro hd a b st s t nd n hf hn draw
  refine ⟨fun x y reads => ⟨intSat_narrow draw hn hf reads, intSat_narrow draw hn hf reads, exec_mul_narrow draw hn hf reads⟩,
    fun d rm => ⟨fun x y reads => ?_, fun u x y z reads hz => ?_, fun x y reads => ?_, fun u x y z reads hz => ?_, fun u x y z reads hz => ?_⟩,
    fun x y ⟨u, hx, hy⟩ => ?_, fun x y ⟨u, hx, hy⟩ => cvtn_float draw hn hf rfl (bind_ok hx) hy,
    fun x y ⟨u, hx, hy⟩ => cvtn_float draw hn hf rfl (bind_ok hx) hy⟩
  · exact ⟨f32Bin_next hf reads (pushFused_narrow draw hn ..), f32Bin_next hf reads (pushFused_narrow draw hn ..),
      f32Bin_next hf reads (pushFused_narrow draw hn ..)⟩
  · exact exec_ffma hf reads hz (pushFused_narrow draw hn ..)
  · exact ⟨f64Bin_next hf reads (pushFused_narrow draw hn ..), f64Bin_next hf reads (pushFused_narrow draw hn ..),
      f64Bin_next hf reads (pushFused_narrow draw hn ..)⟩
  · exact exec_dfma hf reads hz (pushFused_narrow draw hn ..)
  · exact ⟨dot2_next hf reads hz (pushFused_narrow draw hn ..), dot2_next hf reads hz (pushFused_narrow draw hn ..)⟩
  · have signed : tyInt .i32 x.toNat = x.toInt := sx_toNat x
    have unsigned : tyInt .n32 x.toNat = x.toNat := congrArg Nat.cast (Nat.mod_eq_of_lt x.isLt)
    rw [← signed, ← unsigned]
    exact ⟨cvtn_int draw hn hf rfl (bind_ok hx) hy, cvtn_int draw hn hf rfl (bind_ok hx) hy⟩

/-! ### Forwarded forms -/

/-- The operation of an INTF word on bit vectors (Table 14.7). -/
def forwardedOp (o : IntfOp) (p q : Word) : Word :=
  match o with
  | .add => p + q
  | .sub => p - q
  | .mul => p * q
  | .min => if p.sle q then p else q
  | .max => if q.sle p then p else q
  | .minu => if p ≤ q then p else q
  | .maxu => if q ≤ p then p else q
  | .and => p &&& q
  | .or => p ||| q
  | .xor => p ^^^ q
  | .andn => p &&& ~~~ q
  | .shl => p <<< q.toNat
  | .shr => p >>> q.toNat
  | .sar => p.sshiftRight q.toNat
  | .mov => q
theorem ofNat_intfF (o : IntfOp) (p q : Word) : w32 (intfF o p.toNat q.toNat) = forwardedOp o p q := by
  cases o with
  | add => simp [w32, intfF, forwardedOp, BitVec.ofNat_add]
  | sub =>
    rw [w32, intfF, ofNat_modW, forwardedOp, ← ofInt_asInt_sub true p q, asInt_unsigned, asInt_unsigned]
  | mul => simp [w32, intfF, forwardedOp, BitVec.ofNat_mul]
  | min => exact ofNat_minI_signed p q
  | max => exact ofNat_maxI_signed p q
  | minu => exact ofNat_minI_unsigned p q
  | maxu => exact ofNat_maxI_unsigned p q
  | and => exact ofNat_and p q
  | or => exact ofNat_or p q
  | xor => exact ofNat_xor p q
  | andn => exact ofNat_andn p q
  | shl => exact ofNat_shlI p _
  | shr => exact ofNat_shrI p _
  | sar => exact ofNat_sarI p _
  | mov => exact BitVec.ofNat_toNat .. |>.trans (BitVec.setWidth_eq q)

/-- What an FLTF word pushes from its operands in their order. -/
def fltfPush (o : FltfOp) (r : RM) (p q : Word) : X Unit :=
  match o with
  | .fadd => pushFused f32 r (tAdd (f32.dec p.toNat) (f32.dec q.toNat))
  | .fsub => pushFused f32 r (tSub (f32.dec p.toNat) (f32.dec q.toNat))
  | .fmul => pushFused f32 r (tMul (f32.dec p.toNat) (f32.dec q.toNat))
  | .fmin => pushFl false (fMinMax f32 false false p.toNat q.toNat)
  | .fmax => pushFl false (fMinMax f32 true false p.toNat q.toNat)

section
variable {hd : Hd} {a : Src} {f : Fin 32} {k : Fin 8} {st u s t : State} {x y : Word} (hf : Fires hd.gd st)
  (fwd : readFwd f.val (k.val + 1) u = .ok y s)
include hf fwd

theorem exec_intf (hx : srcI 0 a st = .ok x u) (o : IntfOp) (v : Bool) : exec (.intf hd a f k o v) st =
    .next (s.pushed32 (forwardedOp o (if v then y else x) (if v then x else y))) := by
  rw [← ofNat_intfF]
  refine runWord_ok hf (u := ()) ((bind_ok hx).trans ((bind_ok fwd).trans ?_))
  cases v <;> exact push32_run _ _

/-- FLTF by what its operation pushes from the operands in their order. -/
theorem exec_fltf {o : FltfOp} {v : Bool} {r : RM} (hx : srcF 0 a st = .ok x u)
    (push : fltfPush o r (if v then y else x) (if v then x else y) s = .ok () t) :
    exec (.fltf hd a f k o v r) st = .next t :=
  runWord_ok hf ((bind_ok hx).trans ((bind_ok fwd).trans (by cases o <;> exact push)))

end

/-- Settles O18: INTF by `forwardedOp`, FLTF as FADD, FSUB, FMUL, FMIN and FMAX. -/
theorem forwarded : Obligations.Forwarded := by
  intro hd a f k v st u s x y hf fwd
  refine ⟨fun hx => ?_, fun hx => ⟨fun rm n t nd draw => ?_, fun rm => ?_⟩⟩
  · have word (o : IntfOp) := exec_intf hf fwd hx o v
    exact ⟨word .add, word .sub, word .mul, word .min, word .max, word .minu, word .maxu, word .and, word .or, word .xor, word .andn,
      word .shl, word .shr, word .sar, word .mov⟩
  · exact ⟨exec_fltf hf fwd hx (pushFused_32 _ nd draw), exec_fltf hf fwd hx (pushFused_32 _ nd draw),
      exec_fltf hf fwd hx (pushFused_32 _ nd draw)⟩
  · exact ⟨exec_fltf hf fwd hx (pushFl_32 _), exec_fltf hf fwd hx (pushFl_32 _)⟩

end Sys2Proof.Proofs
end

