-- ==== Sys2Proof/Proofs/SetWords.lean ====
section
/-! PROOFS. The words that the threads of a set issue together: cross-group words (R363) and uniform words (R171, R325, R370 to
R372). -/
namespace Sys2Proof.Proofs
open Sys2Proof.Machine Sys2Proof.Laws

/-! ### Joining -/

theorem forX_pushEnt (f : Nat → QEnt) (ks : List Nat) (s : State) :
    forX (fun k => pushEnt (f k)) ks s = .ok () (ks.foldl (fun t k => t.modCur (fun th => th.push (f k))) s) := by
  induction ks generalizing s with
  | nil => rfl
  | cons k ks ih => exact ih _
theorem foldl_modCur_iss (f : Nat → Thr → Thr) (ks : List Nat) (s : State) : (ks.foldl (fun t k => t.modCur (f k)) s).iss = s.iss := by
  induction ks generalizing s with
  | nil => rfl
  | cons k ks ih => exact ih _
theorem joined_iss (s : State) (n : Nat) (c : Bool) (a : DWord) (b : Word) : (s.joined n c a b).iss = s.iss :=
  foldl_modCur_iss _ _ _

/-- R363: the thread joins with its operands; the issue of the set's last thread fills the entries. -/
theorem runXgN_joins {g : Guard} {n : Nat} {op : XgOp} {x : X (Bool × DWord × Word)} {st s : State} {c : Bool} {a : DWord} {b : Word}
    (hf : Fires g st) (h : x st = .ok (c, a, b) s) (going : s.iss.stalled = false) : runXgN g n op x st =
      .next (if st.iss.last then (s.joined n c a b).fillXg st.iss.lane st.iss.word op else s.joined n c a b) := by
  unfold runXgN
  rw [runWord_ok hf (u := ()) ((bind_ok h).trans (forX_pushEnt ..))]
  show Host.Outcome.next (if st.iss.last && !(s.joined n c a b).iss.stalled then _ else _) = _
  rw [joined_iss, going, Bool.not_false, Bool.and_true]
  rfl

section
variable {a b : Src} {st s : State}

theorem xgTwo_run {x y : Word} (reads : ReadsRaw a b st x y s) : xgTwo a b st = .ok (true, x.setWidth 64, y) s := by
  obtain ⟨u, hx, hy⟩ := reads
  rw [setWidth_eq_dw]
  exact (bind_ok hx).trans (bind_ok hy)
theorem xgOne_run {x : Word} (h : src32 a st = .ok x s) : xgOne a st = .ok (true, x.setWidth 64, 0) s := by
  rw [setWidth_eq_dw]
  exact bind_ok h
theorem xgScan_32 {t : ScanTy} {x y : Word} (w : stW t = false) (reads : ReadsRaw a b st x y s) :
    xgScan t a b st = .ok (y == 0, x.setWidth 64, y) s := by
  obtain ⟨u, hx, hy⟩ := reads
  rw [setWidth_eq_dw]
  refine (bind_ok (a := dw x.toNat) (t := u) ?_).trans (bind_ok hy)
  rw [w, if_neg Bool.false_ne_true]
  exact bind_ok hx
theorem xgScan_64 {t : ScanTy} {x : DWord} {y : Word} (w : stW t = true) (reads : ReadsWide a b st x y s) :
    xgScan t a b st = .ok (y == 0, x, y) s := by
  obtain ⟨u, hx, hy⟩ := reads
  refine (bind_ok (a := x) (t := u) ?_).trans (bind_ok hy)
  rw [w, if_pos rfl]
  exact hx

end

/-- Settles O15: every word joins by `runXgN_joins`. -/
theorem crossGroup : Obligations.CrossGroup := by
  intro hd a b st s hf going
  refine ⟨fun x y reads => ⟨fun m => runXgN_joins hf (xgTwo_run reads) going, fun m => runXgN_joins hf (xgTwo_run reads) going,
      fun o t w => ⟨?_, ?_, ?_⟩⟩, fun x y reads => ⟨?_, fun o t w => ⟨?_, ?_, ?_⟩⟩, fun x h => runXgN_joins hf (xgOne_run h) going,
    fun x h => runXgN_joins hf (bind_ok h) going, ?_⟩
  · exact runXgN_joins hf (xgScan_32 w reads) going
  · exact runXgN_joins hf (xgScan_32 w reads) going
  · exact runXgN_joins hf (xgScan_32 w reads) going
  · obtain ⟨u, hx, hy⟩ := reads
    exact runXgN_joins hf ((bind_ok hx).trans (bind_ok hy)) going
  · exact runXgN_joins hf (xgScan_64 w reads) going
  · exact runXgN_joins hf (xgScan_64 w reads) going
  · exact runXgN_joins hf (xgScan_64 w reads) going
  · rintro rfl
    exact runXgN_joins hf rfl going

/-! ### Uniform words -/

theorem alSet_alSet_same {α : Type} (l : AL α) (k : Nat) (v w : α) : alSet (alSet l k v) k w = alSet l k w := by
  induction l with
  | nil => simp [alSet]
  | cons a r ih =>
    obtain ⟨j, u⟩ := a
    by_cases lt : k < j
    · simp [alSet, lt]
    · by_cases eq : k = j
      · simp [alSet, eq]
      · simp [alSet, lt, eq, ih]
theorem laneD_modRun (s : State) (f : Run → Run) :
    (s.modRun f).laneD s.iss.lane = { s.laneD s.iss.lane with run := (s.laneD s.iss.lane).run.map f } :=
  alGetD_alMod_same s.lanes s.iss.lane .empty .empty (fun l => { l with run := l.run.map f })
theorem modRun_modRun (s : State) (f g : Run → Run) : (s.modRun f).modRun g = s.modRun (fun r => g (f r)) := by
  refine congrArg (fun ls => { s with lanes := ls }) ((alSet_alSet_same ..).trans (congrArg _ ?_))
  have lane : alGetD (s.modRun f).lanes s.iss.lane .empty = _ := laneD_modRun s f
  simp only [State.modRun_iss, lane, Option.map_map]
  rfl

/-- The state with a write of a uniform register held for run end (R171). -/
def heldUni (s : State) (e : Nat) (v : Word) : State := s.modRun (fun r => { r with uni := r.uni ++ [(s.iss.word, e, v)] })

section
variable {hd : Hd} {a b : Src} {e : Fin 64} {st s u : State} (hf : Fires hd.gd st)
include hf

/-- A word that a thread of the set has done already. -/
theorem uniform_later {x : X (List QEnt)} (h : st.curRun.bind (fun r => alGet r.once st.iss.word) = some (.done [])) :
    runWord hd.gd 0 (onceX x) st = .next st := runWord_ok hf (onceX_later h)

variable (first : FirstOfSet st)
include first

theorem uni2_next {x y v : Word} {f : Nat → Nat → Nat} (reads : ReadsRaw a b st x y s) (value : BitVec.ofNat 32 (f x.toNat y.toNat) = v) :
    runWord hd.gd 0 (uni2 a b e.val f) st = .next ((heldUni s e.val v).onceDone st.iss.word []) := by
  obtain ⟨u, hx, hy⟩ := reads
  rw [← value]
  exact runWord_ok hf (onceX_first first ((bind_ok hx).trans (bind_ok hy)))

theorem exec_umov {x : Word} (h : src32 a st = .ok x s) : exec (.umov hd a e) st = .next ((heldUni s e.val x).onceDone st.iss.word []) :=
  runWord_ok hf (onceX_first first (bind_ok h))
theorem exec_usel {x y : Word} (reads : ReadsRaw a b st x y s) : exec (.usel hd a b e) st =
    .next ((heldUni s e.val (if s.curGrp.uni e.val = 0 then y else x)).onceDone st.iss.word []) := by
  obtain ⟨u, hx, hy⟩ := reads
  exact runWord_ok hf (onceX_first first ((bind_ok hx).trans (bind_ok hy)))
/-- A window's base is at most 56. -/
theorem exec_uwin {x : Word} (h : src32 a st = .ok x s) (le : x.toNat ≤ 56) : exec (.uwin hd a) st =
    .next ((s.modRun (fun r => { r with uwin := laterOf r.uwin (s.iss.word, x.toNat) })).onceDone st.iss.word []) := by
  refine runWord_ok hf (onceX_first first ((bind_ok h).trans ?_))
  rw [if_neg (by omega)]
  rfl

omit hf first in
theorem uldAt_run {x : DWord} {v n : Nat} (h : src64 a st = .ok x u) (load : spaceLoad .cst x.toNat n u = .ok (v, false) s) :
    uldAt a n st = .ok v s := (bind_ok h).trans (bind_ok load)

end

/-- UCMP: the order of signed words. -/
theorem ofNat_ucmp (x y : Word) : BitVec.ofNat 32 (if sx 32 x.toNat < sx 32 y.toNat then 0xFFFFFFFF else if x.toNat = y.toNat then 0 else 1) =
    if x.slt y then -1 else if x = y then 0 else 1 := by
  simp only [sx_toNat, BitVec.slt, decide_eq_true_eq, ← BitVec.toNat_eq]
  split <;> [rfl; split] <;> rfl

/-- Settles O19: the words of two operands by `uni2_next`. -/
theorem uniform : Obligations.Uniform := by
  intro hd a b e st s hf
  refine ⟨fun first => ⟨fun x h => exec_umov hf first h, fun x y reads => ?two, fun x h le => exec_uwin hf first h le,
    fun u x v h => ⟨fun load => ?_, fun load => ?_⟩⟩, fun later => ?later⟩
  case two =>
    refine ⟨uni2_next hf first reads ?_, uni2_next hf first reads ?_, uni2_next hf first reads ?_, uni2_next hf first reads (ofNat_and x y),
      uni2_next hf first reads (ofNat_or x y), uni2_next hf first reads (ofNat_xor x y), uni2_next hf first reads (ofNat_shlI x _),
      uni2_next hf first reads (ofNat_shrI x _), uni2_next hf first reads (ofNat_ucmp x y), exec_usel hf first reads⟩
    · simp [BitVec.ofNat_add]
    · rw [ofNat_modW, ← ofInt_asInt_sub true x y, asInt_unsigned, asInt_unsigned]
    · simp [BitVec.ofNat_mul]
  · exact runWord_ok hf (onceX_first first (bind_ok (uldAt_run h load)))
  · have both : s.modRun (fun r => { r with uni := r.uni ++ [(s.iss.word, e.val, w32 v), (s.iss.word, e.val + 1, w32 (v / 2 ^ 32))] }) =
        heldUni (heldUni s e.val (w32 v)) (e.val + 1) (w32 (v / 2 ^ 32)) := by
      rw [heldUni, heldUni, modRun_modRun]
      simp only [List.append_assoc, List.cons_append, List.nil_append, State.modRun_iss]
    rw [both]
    exact runWord_ok hf (onceX_first first (bind_ok (uldAt_run h load)))
  case later =>
    intro i hi
    simp only [List.mem_cons, List.not_mem_nil, or_false] at hi
    rcases hi with rfl | rfl | rfl | rfl | rfl | rfl | rfl | rfl | rfl | rfl | rfl | rfl | rfl | rfl <;> exact uniform_later hf later

end Sys2Proof.Proofs
end

