-- ==== Sys2Proof/Proofs/SetResults.lean ====
section
/-! PROOFS. What XSHUF, VOTE, MATCH and ELECT give the threads of a set (R364, R365, R367). -/
namespace Sys2Proof.Proofs
open Sys2Proof.Machine Sys2Proof.Laws

section
variable {es : List XgEnt} (distinct : es.Pairwise (fun x y => x.tid ≠ y.tid)) (contribute : ∀ e ∈ es, e.tid < 32 ∧ e.contrib = true)

section
include distinct

/-- A sum of distinct powers of two has the bits of their exponents. -/
theorem testBit_foldl_two_pow (t : Nat) : (es.foldl (fun m (e : XgEnt) => m + 2 ^ e.tid) 0).testBit t = es.any (fun (e : XgEnt) => e.tid == t) := by
  have nodup : (es.map (·.tid)).Nodup := List.pairwise_map.mpr distinct
  have sum : es.foldl (fun m (e : XgEnt) => m + 2 ^ e.tid) 0 = ∑ i ∈ (es.map (·.tid)).toFinset, 2 ^ i := by
    rw [List.sum_toFinset _ nodup, List.sum_eq_foldl, List.map_map, List.foldl_map]
    rfl
  rw [Bool.eq_iff_iff, ← Nat.mem_bitIndices, ← List.mem_toFinset, sum, Finset.toFinset_bitIndices_sum_two_pow]
  simp

include contribute

/-- The contributors are the set's entries. -/
theorem testBit_xgMask (p : XgEnt → Bool) (t : Nat) : (xgMask es p).testBit t = es.any (fun x => x.tid == t && p x) := by
  have all : es.filter (fun e => e.contrib && p e) = es.filter p :=
    List.filter_congr fun e he => by rw [(contribute e he).2, Bool.true_and]
  rw [xgMask, all, testBit_foldl_two_pow (distinct.sublist List.filter_sublist), List.any_filter]
  simp only [Bool.and_comm]

theorem xgAt_mem {x : XgEnt} (hx : x ∈ es) : xgAt es x.tid = some x := by
  have : Std.Symm fun x y : XgEnt => x.tid ≠ y.tid := ⟨fun _ _ => Ne.symm⟩
  have same {y : XgEnt} (hy : y ∈ es) (tid : y.tid = x.tid) : y = x :=
    by_contra fun ne => distinct.forall hy hx ne tid
  rw [xgAt, if_neg (by omega), Int.toNat_natCast]
  cases h : es.find? (fun e => e.contrib && e.tid == x.tid) with
  | none =>
    have := List.find?_eq_none.mp h x hx
    simp [(contribute x hx).2] at this
  | some y =>
    have found := List.find?_some h
    simp only [Bool.and_eq_true, beq_iff_eq] at found
    rw [same (List.mem_of_find?_eq_some h) found.2]

end

theorem xgAt_none {t : Int} (h : ∀ x ∈ es, (x.tid : Int) ≠ t) : xgAt es t = none := by
  rw [xgAt]
  split
  · rfl
  · refine List.find?_eq_none.mpr fun x hx => ?_
    have := h x hx
    simp only [Bool.and_eq_true, beq_iff_eq, not_and]
    omega

/-! ### XSHUF -/

/-- The thread that a form of XSHUF reads from. -/
def shufSource (m : XMode) (e : XgEnt) : Int :=
  match m with
  | .index => (e.b.toNat % 32 : Nat)
  | .up => (e.tid : Int) - e.b.toNat
  | .down => (e.tid : Int) + e.b.toNat
  | .xor => (e.tid ^^^ (e.b.toNat % 32) : Nat)

section
variable {set : List Nat} {g : List Word} {srs : AL DWord}

theorem shuf_receivers (m : XMode) : (xgResults 32 set g es (.shuf m) srs).1.map (·.1) = es.map (·.tid) := by
  refine (List.map_map ..).trans (List.map_congr_left fun e _ => ?_)
  cases m <;> dsimp only [Function.comp_apply] <;> split <;> rfl

variable {e : XgEnt} (he : e ∈ es)
include he

include distinct contribute in
theorem shuf_found {m : XMode} {x : XgEnt} (hx : x ∈ es) (source : shufSource m e = x.tid) :
    (e.tid, [dw (x.a.toNat % 2 ^ 32 + 2 ^ 32)], 0) ∈ (xgResults 32 set g es (.shuf m) srs).1 := by
  have lt : (x.tid : Int) < (32 : Nat) := by exact_mod_cast (contribute x hx).1
  refine List.mem_map.mpr ⟨e, he, ?_⟩
  cases m <;> simp only [shufSource] at source <;> simp only [source, lt, xgAt_mem distinct contribute hx, if_true]
theorem shuf_own {m : XMode} (no : ∀ x ∈ es, (x.tid : Int) ≠ shufSource m e) :
    (e.tid, [dw (e.a.toNat % 2 ^ 32)], 0) ∈ (xgResults 32 set g es (.shuf m) srs).1 := by
  have none := xgAt_none no
  refine List.mem_map.mpr ⟨e, he, ?_⟩
  cases m <;> simp only [shufSource] at none <;> simp only [none, ite_self]

end

/-! ### ELECT -/

theorem le_foldl_min (k m : Nat) : k ≤ es.foldl (fun m (e : XgEnt) => min m e.tid) m ↔ k ≤ m ∧ ∀ x ∈ es, k ≤ x.tid := by
  induction es generalizing m with
  | nil => simp
  | cons x r ih => rw [List.foldl_cons, ih, le_min_iff, List.forall_mem_cons, and_assoc]
/-- The least thread of the set. -/
theorem tid_eq_least {e : XgEnt} (he : e ∈ es) :
    e.tid = es.foldl (fun m (e : XgEnt) => min m e.tid) ((es.head?.map (·.tid)).getD 0) ↔ ∀ x ∈ es, e.tid ≤ x.tid := by
  have least (k : Nat) : k ≤ es.foldl (fun m (e : XgEnt) => min m e.tid) ((es.head?.map (·.tid)).getD 0) ↔ ∀ x ∈ es, k ≤ x.tid := by
    rw [le_foldl_min]
    cases es with
    | nil => cases he
    | cons x r => simp
  rw [← least]
  exact ⟨le_of_eq, fun h => le_antisymm h ((least _).mp le_rfl e he)⟩

/-! ### VOTE.uni -/

theorem uniform_head {e : XgEnt} (he : e ∈ es) :
    es.all (fun x => x.a == (es.head?.map (·.a)).getD 0) = true ↔ ∀ x ∈ es, x.a = e.a := by
  cases es with
  | nil => cases he
  | cons y r =>
    simp only [List.head?_cons, Option.map_some, Option.getD_some, List.all_eq_true, beq_iff_eq]
    exact ⟨fun h x hx => (h x hx).trans (h e he).symm, fun h x hx => (h x hx).trans (h y List.mem_cons_self).symm⟩

end

/-- Settles O16: masks by `testBit_xgMask`, sources by `xgAt_mem`. -/
theorem crossResults : Obligations.CrossResults := by
  intro set g es srs ne distinct contribute get val
  have all : es.filter (·.contrib) = es := List.filter_eq_self.mpr fun e he => (contribute e he).2
  refine ⟨?receivers, fun e he => ⟨?all, ?any, ?uni, ?ballot, ?mtch, ?elect, fun x hx => ⟨fun h => ?_, fun h => ?_, fun h => ?_, fun h => ?_⟩,
    fun no => ?_, fun no => ?_⟩⟩
  case receivers =>
    intro op hop
    simp only [List.mem_cons, List.not_mem_nil, or_false] at hop
    rcases hop with rfl | rfl | rfl | rfl | rfl | rfl | rfl | rfl | rfl | rfl
    exacts [⟨List.map_map .., rfl⟩, ⟨List.map_map .., rfl⟩, ⟨List.map_map .., rfl⟩, ⟨List.map_map .., rfl⟩, ⟨List.map_map .., rfl⟩,
      ⟨List.map_map .., rfl⟩, ⟨shuf_receivers _, rfl⟩, ⟨shuf_receivers _, rfl⟩, ⟨shuf_receivers _, rfl⟩, ⟨shuf_receivers _, rfl⟩]
  case all =>
    refine List.mem_map.mpr ⟨e, he, ?_⟩
    simp [all]
  case any =>
    refine List.mem_map.mpr ⟨e, he, ?_⟩
    simp [all]
  case uni =>
    refine List.mem_map.mpr ⟨e, he, ?_⟩
    simp only [all, uniform_head he]
  case ballot =>
    refine ⟨_, List.mem_map.mpr ⟨e, he, rfl⟩, fun t lt => ?_⟩
    rw [dw, BitVec.getLsbD_ofNat, testBit_xgMask distinct contribute, decide_eq_true lt, Bool.true_and]
  case mtch =>
    refine ⟨_, List.mem_map.mpr ⟨e, he, rfl⟩, fun t lt => ?_⟩
    rw [dw, BitVec.getLsbD_ofNat, testBit_xgMask distinct contribute, decide_eq_true lt, Bool.true_and]
  case elect =>
    refine List.mem_map.mpr ⟨e, he, ?_⟩
    simp only [tid_eq_least he]
  · exact shuf_found distinct contribute he hx (by rw [shufSource, h])
  · exact shuf_found distinct contribute he hx (by rw [shufSource, h])
  · exact shuf_found distinct contribute he hx (by rw [shufSource]; omega)
  · exact shuf_found distinct contribute he hx (by rw [shufSource]; omega)
  · exact shuf_own he fun x hx => by have := no x hx; rw [shufSource]; omega
  · exact shuf_own he fun x hx => by have := no x hx; rw [shufSource]; omega

end Sys2Proof.Proofs
end

