-- ==== Sys2Proof/Proofs/AtomicWords.lean ====
section
/-! PROOFS. Atomics and reductions in memory (R142, R146, R381 to R384). -/
namespace Sys2Proof.Proofs
open Sys2Proof.Machine Sys2Proof.Laws

section
variable {hd : Hd} {a b : Src} {p : Space} {w : Width} {st s t u q : State} {va v old : Nat} {po : Bool} (hf : Fires hd.gd st)
include hf

/-! ### ATOM, RED, CAS -/

section
variable (addr : addrOf p a st = .ok va t)
include addr

theorem atomWord_next {o : AtomOp} (data : dataOf w b t = .ok v u)
    (does : spaceAtom p va (Width.bytes' w) (fun m => atomF o (8 * Width.bytes' w) m v) u = .ok (old, po) s) :
    runWord hd.gd 1 (atomWord o a b p w) st = .next (s.sent (dw old) po) :=
  runWord_ok hf ((bind_ok addr).trans ((bind_ok data).trans (bind_ok does)))
theorem redWord_next {o : AtomOp} (data : dataOf w b t = .ok v u)
    (does : spaceAtom p va (Width.bytes' w) (fun m => atomF o (8 * Width.bytes' w) m v) u = .ok (old, po) s) :
    runWord hd.gd 0 (redWord o a b p w) st = .next s :=
  runWord_ok hf ((bind_ok addr).trans ((bind_ok data).trans (bind_ok does)))
theorem exec_cas {c : Nat} (data : dataPair w b t = .ok (c, v) u)
    (does : spaceAtom p va (Width.bytes' w) (fun m => if m = c then v else m) u = .ok (old, po) s) :
    exec (.cas hd a b p w) st = .next (s.sent (dw old) po) :=
  runWord_ok hf ((bind_ok addr).trans ((bind_ok data).trans (bind_ok does)))

end

/-! ### REDD -/

/-- R384: an aligned update of a thread that has a launch is filed at the address it reaches. -/
theorem reddWord_next {x : DWord} {k l pa key cp ca : Nat} (fn : Nat) (addr : src64 a st = .ok x t) (data : dataPair w b t = .ok (v, k) u)
    (lt : x.toNat < 2 ^ 55) (aligned : x.toNat % Width.bytes' w = 0) (launch : u.cur.id.launch = some l)
    (found : translate u.curWho .atomic x.toNat u = .ok (pa, key, cp, ca) q) (reached : reach u.curWho .atomic pa ca q = .ok () s) :
    runWord hd.gd 0 (reddWord fn a b w) st = .next { s with mem := { s.mem with
      batches := fileRedd s.mem.batches l s.cur.id.ctx pa key fn (decide (Width.bytes' w = 8)) (k % 2 ^ 32) v } } := by
  refine runWord_ok hf (u := ()) ((bind_ok addr).trans ((bind_ok data).trans ((bind_ok (alignX_ok lt aligned u)).trans ?_)))
  rw [get_bind]
  simp only [launch]
  exact (bind_ok found).trans (bind_ok reached)

end

/-! ### What the location takes -/

theorem minI_toNat {w : Nat} (x y : BitVec w) : minI w false x.toNat y.toNat = (if x.sle y then x else y).toNat := by
  simp only [minI, asInt_signed, BitVec.sle_iff_toInt_le, apply_ite BitVec.toNat]
theorem maxI_toNat {w : Nat} (x y : BitVec w) : maxI w false x.toNat y.toNat = (if y.sle x then x else y).toNat := by
  simp only [maxI, asInt_signed, BitVec.sle_iff_toInt_le, apply_ite BitVec.toNat, ge_iff_le]

/-! ### The batch of an update (R142) -/

section
variable (bs : List Batch) (l c pa key fn : Nat) (w64 : Bool) (k v : Nat)

/-- The batches of one launch, address, function and width. -/
def sameBatch (l pa fn : Nat) (w64 : Bool) (b : Batch) : Bool := b.launch == l && b.pa == pa && b.fn == fn && b.w64 == w64
theorem sameBatch_iff (b : Batch) : sameBatch l pa fn w64 b = true ↔ b.launch = l ∧ b.pa = pa ∧ b.fn = fn ∧ b.w64 = w64 := by
  simp [sameBatch, and_assoc]
theorem fileRedd_eq : fileRedd bs l c pa key fn w64 k v = if bs.any (sameBatch l pa fn w64) then
    bs.map (fun b => if sameBatch l pa fn w64 b then { b with ups := b.ups ++ [(k, v)] } else b)
    else bs ++ [⟨l, c, pa, key, fn, w64, [(k, v)]⟩] := rfl

theorem fileRedd_holds : ∃ b ∈ fileRedd bs l c pa key fn w64 k v,
    b.launch = l ∧ b.pa = pa ∧ b.fn = fn ∧ b.w64 = w64 ∧ b.ups.getLast? = some (k, v) := by
  rw [fileRedd_eq]
  split
  next h =>
    obtain ⟨b, hb, same⟩ := List.any_eq_true.mp h
    refine ⟨{ b with ups := b.ups ++ [(k, v)] }, List.mem_map.mpr ⟨b, hb, if_pos same⟩, ?_⟩
    obtain ⟨h1, h2, h3, h4⟩ := (sameBatch_iff ..).mp same
    exact ⟨h1, h2, h3, h4, List.getLast?_concat⟩
  next => exact ⟨_, List.mem_append_right _ (List.mem_singleton.mpr rfl), rfl, rfl, rfl, rfl, rfl⟩
theorem mem_fileRedd_of_ne {b : Batch} (hb : b ∈ bs) (ne : ¬ (b.launch = l ∧ b.pa = pa ∧ b.fn = fn ∧ b.w64 = w64)) :
    b ∈ fileRedd bs l c pa key fn w64 k v := by
  rw [fileRedd_eq]
  split
  · exact List.mem_map.mpr ⟨b, hb, if_neg (mt (sameBatch_iff ..).mp ne)⟩
  · exact List.mem_append_left _ hb

end

/-- Settles O21. -/
theorem atomics : Obligations.Atomics := by
  refine ⟨fun hd a b p w st t u s va v old po hf addr => ⟨fun data => ?_, fun c data does => exec_cas hf addr data does, fun x y => ?values⟩,
    fun hd a b w st t u q s x v k l pa key cp ca hf addr data lt aligned launch found reached => ?_,
    fun bs l c pa key fn w64 k v => ⟨fileRedd_holds .., fun b hb => mem_fileRedd_of_ne _ _ _ _ _ _ _ _ _ hb⟩⟩
  · have both {o : AtomOp} (does : spaceAtom p va (Width.bytes' w) (fun m => atomF o (8 * Width.bytes' w) m v) u = .ok (old, po) s) :=
      And.intro (atomWord_next hf addr data does) (redWord_next hf addr data does)
    exact ⟨both, both, both, both, both, both, both, atomWord_next hf addr data⟩
  case values =>
    exact ⟨(BitVec.toNat_add ..).symm, minI_toNat x y, maxI_toNat x y, (BitVec.toNat_and ..).symm, (BitVec.toNat_or ..).symm,
      (BitVec.toNat_xor ..).symm, rfl⟩
  · have filed (fn : Nat) := reddWord_next hf fn addr data lt aligned launch found reached
    exact ⟨filed 0, filed 1, filed 2, filed 3, filed 4, filed 5, filed 6⟩

end Sys2Proof.Proofs
end

