-- ==== Sys2Proof/Proofs/ControlCoreWords.lean ====
section
/-! PROOFS. TLBI, KEYLD and THAW (R406, R408, R409). -/
namespace Sys2Proof.Proofs
open Sys2Proof.Machine Sys2Proof.Laws

section
variable {hd : Hd} {a b : Src} {st u s : State}

theorem needCtl_ok (ctl : isCtl st.curCore = true) : needCtl st = .ok () st := by
  rw [needCtl, get_bind, if_pos ctl]
  rfl
theorem needCtl_priv (ctl : isCtl st.curCore = false) : needCtl st = .error (.fault ⟨3, 0, 0, st.iss.word, st.iss.instr, false⟩) st := by
  rw [needCtl, get_bind, if_neg (by rw [ctl]; exact Bool.false_ne_true)]
  rfl

section
variable (hf : Fires hd.gd st) (ctl : isCtl st.curCore = true)
include hf ctl

/-- What TLBI leaves: the accesses made through the translations are at their homes, and those translations gone (R406). -/
theorem exec_tlbi {t : Bool} {va : DWord} {c : Word} (hva : (if t then src64 a else pure 0) st = .ok va u) (hc : src32 b u = .ok c s)
    (le : c.toNat ≤ 63) {gone : TlbEnt → Bool}
    (hgone : ∀ e, gone e = (e.ctx == c.toNat && (!t || (decide (e.va ≤ va.toNat) && decide (va.toNat < e.va + 2 ^ e.size))))) :
    exec (.tlbi hd a b t) st =
      let d := s.cores.foldl (fun s k => s.drainIf k.1 (·.ctx == c.toNat)) s
      .next (({ d with mem := { d.mem with tlb := d.mem.tlb.filter (fun e => !gone e) } } : State).sent 1 false) := by
  obtain rfl : gone = _ := funext hgone
  refine runWord_ok hf (u := ()) ((bind_ok (needCtl_ok ctl)).trans ((bind_ok hva).trans ((bind_ok hc).trans ?_)))
  exact congrFun (if_neg (by omega)) s

theorem exec_keyld {va : DWord} {id : Word} {v : Nat} (reads : ReadsWide a b st va id u) (low : 1 ≤ id.toNat) (high : id.toNat ≤ 2047)
    (lt : va.toNat < 2 ^ 55) (aligned : va.toNat % 64 = 0) (load : loadV u.curWho .read va.toNat 64 u = .ok (v, false) s) :
    exec (.keyld hd a b) st = .next (({ s with
      mem := { s.mem with keys := alSet s.mem.keys id.toNat (BitVec.ofNat 512 v) }
      cores := s.cores.map (fun (k, c) => (k, { c with l1 := [], tex := [] })) } : State).sent 1 false) := by
  obtain ⟨w, hva, hid⟩ := reads
  have named : ¬ (id = 0 ∨ id.toNat > 2047) := by
    rintro (rfl | h)
    · cases low
    · omega
  refine runWord_ok hf (u := ()) ((bind_ok (needCtl_ok ctl)).trans ((bind_ok hva).trans ((bind_ok hid).trans ?_)))
  refine (congrFun (if_neg named) u).trans ((bind_ok (alignX_ok lt aligned u)).trans ((get_bind ..).trans ((bind_ok load).trans ?_)))
  rfl

theorem exec_thaw {m q : Word} (reads : ReadsRaw a b st m q s) (hm : m.toNat < 2 ^ 16) (hq : q.toNat < 2 ^ 17) :
    exec (.thaw hd a b) st = .next (if s.isFrozen m.toNat = true ∧ (alGetD s.sys.heldSeq m.toNat 0).toNat = q.toNat % 2 ^ 16 then
      (s.thaw m.toNat (q.toNat.testBit 16)).sent 1 false else s.sent 0 false) := by
  obtain ⟨w, hm', hq'⟩ := reads
  refine runWord_ok hf (u := ()) ((bind_ok (needCtl_ok ctl)).trans ((bind_ok hm').trans ((bind_ok hq').trans ?_)))
  refine (congrFun (if_neg (by omega)) s).trans ((get_bind ..).trans ?_)
  simp only [← beq_iff_eq (b := q.toNat % 2 ^ 16), ← Bool.and_eq_true]
  rw [ite_run]
  split <;> rfl

end

/-- R406: on a core that is no control core the words take a PRIV fault before they read a source. -/
theorem priv_next {n : Nat} {x : Unit → X Unit} (hf : Fires hd.gd st) (ctl : isCtl st.curCore = false) (lone : st.iss.chained = false) :
    runWord hd.gd n (needCtl >>= x) st = .next (st.takeFault st.iss.thr ⟨3, 0, 0, st.iss.word, st.iss.instr, false⟩) :=
  runWord_fault hf lone (bind_error (needCtl_priv ctl))

end

/-- Settles O31. -/
theorem controlWords : Obligations.ControlWords := by
  intro hd a b st u s hf
  refine ⟨fun ctl => ⟨fun c le => ⟨fun hc => ?_, fun va ⟨w, hva, hc⟩ => ?_⟩, fun va id v reads low high lt aligned load =>
    exec_keyld hf ctl reads low high lt aligned load, fun m q reads hm hq => ?_⟩, fun ctl lone t i hi => ?_⟩
  · exact exec_tlbi hf ctl (t := false) (va := 0) rfl hc le fun e => (Bool.and_true _).symm
  · exact exec_tlbi hf ctl (t := true) hva hc le fun e => rfl
  · intro due
    rw [exec_thaw hf ctl reads hm hq]
    exact ⟨fun h => by rw [if_pos h], fun h => by rw [if_neg h]⟩
  · simp only [List.mem_cons, List.not_mem_nil, or_false] at hi
    rcases hi with rfl | rfl | rfl <;> exact priv_next hf ctl lone

end Sys2Proof.Proofs
end

