-- ==== Sys2Proof/Proofs/FaultService.lean ====
section
/-! PROOFS. Which outcome a fault has, handlers and their return, fault service, VECSET and WAKE (R296 to R308, R402, R407). -/
namespace Sys2Proof.Proofs
open Sys2Proof.Machine Sys2Proof.Laws

/-! ### Outcomes (R296, R301, R308) -/

section
variable {s : State} {g : Grp} {th : Thr} {f : FaultInfo}

/-- R301, R307: a thread restarted 64 times and a fault of IRET's read. -/
theorem faultRoute_forced (first : th.dblFetch = false) (h : 64 ≤ th.restarts ∨ f.fatal = true) : faultRoute s g th f = (false, false, false) := by
  have force : (decide (th.restarts ≥ 64) || f.fatal) = true := by simpa using h
  simp [faultRoute, first, force]
/-- R296: below 64 restarts a fault of a class in its route is serviced, else delivered where a handler can take it. -/
theorem faultRoute_free (first : th.dblFetch = false) (restarts : th.restarts < 64) (fatal : f.fatal = false) : faultRoute s g th f =
    let svc := decide (1 ≤ f.cls) && decide (f.cls ≤ 11) && (s.ctxD th.id.ctx).route.testBit f.cls
    (svc, !svc && decide (g.trapv ≠ 0) && !th.inTrap, false) := by
  have force : (decide (th.restarts ≥ 64) || f.fatal) = false := by simpa [fatal] using restarts
  simp [faultRoute, first, force]
/-- R308: a fault on the handler's first fetch. -/
theorem faultRoute_double (h : f.cls = 4 ∨ f.cls = 6 ∨ f.cls = 8) : faultRoute s g { th with dblFetch := true } f = (false, false, true) := by
  have double : [cALIGN, cXLATE, cPOISON].contains f.cls = true := by
    obtain h | h | h := h <;> rw [h] <;> rfl
  simp only [faultRoute, double, Bool.and_self, Bool.not_true, Bool.and_false, Bool.false_and]

end

/-! ### Registers of a record (R304, R307) -/

section
variable {th : Thr} {i j : Nat}

theorem reg_setReg_ne (h : j ≠ i) (v : Word) : (th.setReg i v).reg j = th.reg j := by
  simp only [Thr.reg, Thr.setReg, List.getD_eq_getElem?_getD, List.getElem?_set_ne h.symm]
theorem val_setReg_same (h : i < th.regs.length) (v : Word) : (th.setReg i v).val i = v := by
  simp only [Thr.val, Thr.reg, Thr.setReg, List.getD_eq_getElem?_getD, List.getElem?_set_self h, Option.getD_some]
theorem setReg_length (v : Word) : (th.setReg i v).regs.length = th.regs.length := List.length_set

/-- n0 and n1 as a record or a delivery gives them. -/
def withPair (th : Thr) (n : Nat) : Thr := (th.setReg 0 (BitVec.ofNat 32 n)).setReg 1 (BitVec.ofNat 32 (n / 2 ^ 32))
theorem withPair_val (n : Nat) (h : th.regs.length = 32) :
    (withPair th n).val 0 = BitVec.ofNat 32 n ∧ (withPair th n).val 1 = BitVec.ofNat 32 (n / 2 ^ 32) := by
  refine ⟨?_, val_setReg_same (by rw [setReg_length]; omega) _⟩
  rw [withPair, Thr.val, reg_setReg_ne (by decide)]
  exact val_setReg_same (by omega) _
theorem withPair_reg (n : Nat) (h : 2 ≤ i) : (withPair th n).reg i = th.reg i :=
  (reg_setReg_ne (by omega) _).trans (reg_setReg_ne (by omega) _)

end

/-! ### Fault service (R298, R302, R303) -/

section
variable {s t : State} {core act thr : Nat} {w0 : DWord} {th : Thr} {x : Svc}

/-- R303: a write of FSVC that names a serviced fault acts on its thread. -/
theorem fsvc_serves (h : Serves s core act w0 thr th x) {f : State → Nat → Thr → Svc → State} (acts : f s thr th x = t) :
    s.fsvc core act w0 f = t.svcResult 0 := by
  rw [← acts]
  obtain ⟨lt, named, ok, found, same⟩ := h
  rw [State.fsvc, if_neg (by omega), ctlWrite_taken ok]
  simp only [found, same, ne_eq, not_true_eq_false, false_and, if_false, if_true]

end

/-- Settles O45. -/
theorem faultService : Obligations.FaultService := by
  intro s core thr mid w0 v
  refine ⟨fun th x hth hx waits => ?room, fun th x hth => ⟨fun h => ⟨fun t f3 f6 f7 read => ?resume, fun t read => ?lost⟩,
    fun h => ⟨fun none => ?end_, fun handler => ?deliver⟩, fun h => congrArg _ (fsvc_serves h rfl)⟩, fun lt act ok => ?invalid,
    fun lt ok => ?vecset, fun lt ok booted => ?wake⟩
  case room =>
    show Host.Outcome.next _ = _
    simp only [hth, hx, waits, if_true]
  case resume =>
    refine congrArg _ (fsvc_serves h ?_)
    rw [State.svcResume, read]
    rfl
  case lost =>
    refine congrArg _ (fsvc_serves h ?_)
    rw [State.svcResume, read]
  case end_ =>
    refine congrArg _ (fsvc_serves h ?_)
    simp only [hth, none, if_true]
  case deliver =>
    refine congrArg _ (fsvc_serves h ?_)
    simp only [hth, if_neg handler]
  case invalid =>
    show Host.Outcome.next _ = _
    rw [if_neg (by omega), ctlWrite_taken ok]
  case vecset =>
    intro c vec live
    refine ⟨fun no => ?_, fun alive aligned => ?_⟩
    · show Host.Outcome.next _ = _
      rw [if_neg (by omega), ctlWrite_taken ok]
      exact congrArg _ (if_pos (by tauto))
    · have taken : ¬ (vec % 12 ≠ 0 ∨ (s.ctxD c).st ≠ .live ∧ (s.ctxD c).st ≠ .drained) := by tauto
      refine ⟨_, congrArg Host.Outcome.next ((if_neg (by omega)).trans ((ctlWrite_taken ok _).trans (if_neg taken))), ?_, ?_, rfl, rfl⟩
      · exact congrArg Ctx.vec (alGetD_alMod_same s.ctxs c .empty .empty (fun c => { c with vec := vec }))
      · intro r hr ctx chard
        obtain ⟨q, hq, rfl⟩ := List.mem_map.mp hr
        by_cases mine : (q.2.ctx == c && isChard q.2.core) = true
        · exact congrArg (fun r : Nat × Res => r.2.trapv) (if_pos mine)
        · rw [if_neg mine] at ctx chard
          exact absurd (by simp [ctx, chard]) mine
  case wake =>
    refine ⟨fun halted => ?_, fun idle => ?_⟩
    · show Host.Outcome.next _ = _
      rw [if_neg (by omega), ctlWrite_taken ok]
      simp [booted, halted]
    · show Host.Outcome.next _ = _
      rw [if_neg (by omega), ctlWrite_taken ok]
      have notHalted : ((s.ctlD core).st == .halted) = false := by obtain h | h := idle <;> rw [h] <;> rfl
      have notRunning : ((s.ctlD core).st == .running) = false := by obtain h | h := idle <;> rw [h] <;> rfl
      simp [booted, notHalted, notRunning]

/-- Settles O54. -/
theorem faultRoute : Obligations.FaultRoute := by
  refine ⟨fun s g th f va tv first => ⟨faultRoute_forced first, fun restarts fatal low high route => ?_, fun restarts fatal route => ?_,
    faultRoute_double, rfl, rfl, rfl, rfl, rfl, rfl, rfl, rfl, withPair_val va, fun i => withPair_reg va⟩,
    fun th f3 f6 f7 => ⟨rfl, rfl, rfl, rfl, rfl, withPair_val f7, fun i => withPair_reg f7, rfl, rfl, rfl⟩⟩
  · simp [faultRoute_free first restarts fatal, low, high, route]
  · refine ⟨fun handler out => ?_, fun no => ?_⟩
    · simp [faultRoute_free first restarts fatal, route, handler, out]
    · obtain none | inside := no
      · simp [faultRoute_free first restarts fatal, route, none]
      · simp [faultRoute_free first restarts fatal, route, inside]

end Sys2Proof.Proofs
end

