-- ==== Sys2Proof/Proofs/UnitWords.lean ====
section
/-! PROOFS. The words of the rendering pipe and of the texture unit (R273, R282, R427 to R436). -/
namespace Sys2Proof.Proofs
open Sys2Proof.Machine Sys2Proof.Laws

/-! ### Words of a unit (R165, R437) -/

/-- The results of a unit are on their way together, a pending entry for each. -/
theorem pushArrival_run (s : State) (kind : Nat) (vs : List DWord) (poison : Bool) (score : List (Nat × Nat)) :
    pushArrival kind vs poison score s = .ok () (s.sentAll kind vs poison score) := by
  refine (forX_pushEnt ..).trans (congrArg _ ?_)
  rw [State.sentAll, State.pushedAll, List.foldl_map]

section
variable {s t : State} {mid : Nat} (thawed : s.isFrozen mid = false)
include thawed

/-- A unit that is not frozen does its part. -/
theorem tryUnit_run {α : Type} {x : X α} {v : α} (h : x s = .ok v t) : tryUnit mid x s = .ok (some v) t := by
  refine (get_bind ..).trans ((congrFun (if_neg (by rw [thawed]; exact Bool.false_ne_true)) s).trans ?_)
  simp only [h]
theorem onUnit_run {n kind : Nat} {x : X (List DWord × Bool × List (Nat × Nat))} {vs : List DWord} {po : Bool} {sc : List (Nat × Nat)}
    (h : x s = .ok (vs, po, sc) t) : onUnit mid n kind x s = .ok () (t.sentAll kind vs po sc) :=
  (bind_ok (tryUnit_run thawed h)).trans (pushArrival_run ..)

end

/-! ### Intervals, costs, references (R430 to R432) -/

section
variable {hd : Hd} {a b : Src} {st s t u v w : State} (hf : Fires hd.gd st)
include hf

section
variable {x y : DWord} (reads : Reads64 a b st x y s)
include reads

theorem exec_boxu_union : exec (.boxu hd a b .u) st = .next (s.pushed (boxUnion [x, y])) := by
  obtain ⟨u, hx, hy⟩ := reads
  exact runWord_ok hf (u := ()) ((bind_ok hx).trans (bind_ok hy))

variable {r : RM} {n : Nat} (draw : drawSR r s = .ok n t)
include draw

/-- SAH by what it makes of its extents and its count once it has drawn (R431, R247). -/
theorem exec_sah : exec (.sah hd a b r) st =
    let ex := f32.dec (bits x 31 0)
    let ey := f32.dec (bits x 63 32)
    let ez := f32.dec (bits y 31 0)
    let neg (v : FV) : Bool := v.neg && !v.isZero
    let c := f32.round r n false ((Q.ofInt (bits y 63 32)).mul (((ex.q.mul ey.q).add (ey.q.mul ez.q)).add (ez.q.mul ex.q)))
    .next (if ex.isNan || ey.isNan || ez.isNan then (t.raised fIV).pushed32 (w32 f32.dnan)
      else if bits y 63 32 = 0 ∨ neg ex ∨ neg ey ∨ neg ez then t.pushed32 0
      else if ex.isInf || ey.isInf || ez.isInf then t.pushed32 0x7F800000
      else (t.raised c.2).pushed32 (w32 c.1)) := by
  obtain ⟨u, hx, hy⟩ := reads
  refine runWord_ok hf (u := ()) ((bind_ok hx).trans ((bind_ok hy).trans ((bind_ok draw).trans ?_)))
  dsimp only
  split <;> [skip; split <;> [skip; split]]
  · exact (bind_ok (raiseFlags_run ..)).trans (push32_run _ _)
  · exact push32_run _ _
  · exact push32_run _ _
  · exact (bind_ok (raiseFlags_run ..)).trans (push32_run _ _)

end

theorem exec_boxu_point {x : DWord} {y : Word} (reads : ReadsWide a b st x y s) :
    exec (.boxu hd a b .p) st = .next (s.pushed (boxUnion [x, if isNanC y.toNat then boxEmpty else pair y y])) := by
  obtain ⟨u, hx, hy⟩ := reads
  exact runWord_ok hf (u := ()) ((bind_ok hx).trans (bind_ok hy))

/-- R432: a reference with its type and count, whose rules its address keeps. -/
theorem exec_npack {x : DWord} {y : Word} (reads : ReadsWide a b st x y s) (count : y.toNat / 8 < 16)
    (ok : (y.toNat % 8 = 0 ∧ y.toNat / 8 = 0 ∧ x = 0) ∨ (y.toNat % 8 = 1 ∧ y.toNat / 8 = 0 ∧ x.toNat < 2 ^ 55 ∧ x.toNat % 128 = 0) ∨
      (2 ≤ y.toNat % 8 ∧ y.toNat % 8 ≤ 4 ∧ x.toNat < 2 ^ 55 ∧ x.toNat % 64 = 0)) :
    exec (.npack hd a b) st = .next (s.pushed (dw (y.toNat % 8 * 2 ^ 61 + y.toNat / 8 * 2 ^ 57 + x.toNat))) := by
  obtain ⟨u, hx, hy⟩ := reads
  rw [← toNat_eq_zero] at ok
  refine runWord_ok hf (u := ()) ((bind_ok hx).trans ((bind_ok hy).trans ?_))
  refine (congrFun (if_neg ?_) s).trans ?_
  · omega
  · rw [Nat.mod_eq_of_lt count]
    rfl

/-! ### TRACE and HITR (R429) -/

section
variable {o : Word} {p : Place} {rec_ : Nat} {vs : List DWord} {po : Bool} {sc : List (Nat × Nat)}

variable (ho : src32 a st = .ok o t) (place : rayPlace o.toNat t = .ok p u)
  (few : ((v.drainCore v.curCore).arrivals.filter (fun e => e.kind == 1 &&
    coreQuad (laneCore e.lane) == coreQuad (v.drainCore v.curCore).curCore)).length < 512)
  (record : rayRecord o.toNat p (v.drainCore v.curCore) = .ok rec_ w)
  (thawed : w.isFrozen (travMid (coreQuad (v.drainCore v.curCore).curCore)) = false)
include ho place few record thawed

theorem exec_trace (same : u = v) (go : rayGo rec_ (v.drainCore v.curCore).curGrp.res (spillOf (v.drainCore v.curCore))
      (v.drainCore v.curCore).cur.id.ctx none w = .ok (vs, po, sc) s) :
    exec (.trace hd a) st = .next (s.sentAll 1 vs po sc) := by
  subst same
  refine runWord_ok hf (u := ()) ((bind_ok ho).trans ((bind_ok place).trans ((bind_ok (x := pure none) rfl).trans ?_)))
  refine (modify_bind ..).trans ((get_bind ..).trans ((bind_ok record).trans ?_))
  exact (congrFun (if_neg (Nat.not_le.mpr few)) w).trans (onUnit_run thawed go)
theorem exec_hitr {h : DWord} (hh : src64 b u = .ok h v) (lt : h.toNat < 2 ^ 33)
    (go : rayGo rec_ (v.drainCore v.curCore).curGrp.res (spillOf (v.drainCore v.curCore)) (v.drainCore v.curCore).cur.id.ctx
      (some (bits h 31 0, tbit h 32)) w = .ok (vs, po, sc) s) : exec (.hitr hd a b) st = .next (s.sentAll 1 vs po sc) := by
  have hit : ((src64 b >>= fun h => if h.toNat / 2 ^ 33 ≠ 0 then operand else pure (bits h 31 0, tbit h 32)) >>= fun v => pure (some v)) u =
      .ok (some (bits h 31 0, tbit h 32)) v :=
    bind_ok (t := v) ((bind_ok hh).trans (congrFun (if_neg (not_not.mpr (Nat.div_eq_of_lt lt))) v))
  refine runWord_ok hf (u := ()) ((bind_ok ho).trans ((bind_ok place).trans ((bind_ok hit).trans ?_)))
  refine (modify_bind ..).trans ((get_bind ..).trans ((bind_ok record).trans ?_))
  exact (congrFun (if_neg (Nat.not_le.mpr few)) w).trans (onUnit_run thawed go)

end

/-! ### RAST (R428) -/

omit hf in
/-- RAST joins with the token that the set's lowest thread has noted. -/
theorem rast_joins {n : Fin 4} {c : Cull} {e : QEnt} {es : List QEnt} {v : DWord} (note : noteToken a st = .ok () s) (value : e.v = v)
    (token : s.curRun.bind (fun r => alGet r.once s.iss.word) = some (.done (e :: es))) (fires : Fires hd.gd s) (going : s.iss.stalled = false) :
    exec (.rast hd a n c) st = .next (if s.iss.last then
      (s.joined 3 true v 0).fillXg s.iss.lane s.iss.word (.rast n.val c) else s.joined 3 true v 0) := by
  subst value
  show execRast hd a n c st = _
  rw [execRast, note]
  refine runXgN_joins fires ?_ going
  rw [get_bind, token]
  rfl

end

/-- A token that is noted stays. -/
theorem noteToken_noted {a : Src} {st : State} {o : Once} (h : st.curRun.bind (fun r => alGet r.once st.iss.word) = some o) :
    noteToken a st = .ok () st := by simp only [noteToken, h]
theorem noteToken_first {a : Src} {st s : State} {x : Word} (first : FirstOfSet st) (h : src32 a st = .ok x s) :
    noteToken a st = .ok () (s.noted st.iss.word [⟨dw x.toNat, .full⟩]) := by
  simp only [noteToken, show st.curRun.bind (fun r => alGet r.once st.iss.word) = none from first, h]
  rfl
theorem noted_token {s : State} {w : Nat} {es : List QEnt} (run : s.curRun.isSome = true) :
    (s.noted w es).curRun.bind (fun r => alGet r.once w) = some (.done es) := by
  obtain ⟨r, hr⟩ := Option.isSome_iff_exists.mp run
  have after : (s.noted w es).curRun = (s.curRun.map fun r => { r with once := alSet r.once w (.done es) }) :=
    congrArg Lane.run (laneD_modRun ..)
  rw [after, hr]
  exact alGet_alSet_same ..

theorem not_any {p : Prop} {a b c : Bool} (hp : ¬ p) (ha : a = false) (hb : b = false) (hc : c = false) :
    ¬ (p ∨ a = true ∨ b = true ∨ c = true) := by simp [hp, ha, hb, hc]

/-- Settles O28. -/
theorem renderWords : Obligations.RenderWords := by
  intro hd a b st s hf
  refine ⟨fun x y reads => ⟨exec_boxu_union hf reads, fun r d t draw => ?sah⟩, fun x y reads => ⟨exec_boxu_point hf reads, exec_npack hf reads⟩,
    fun o p rec_ t u v w vs po sc => ?ray, fun n c => ⟨fun e es noted going => ?later, fun x first hx same going run fires => ?first⟩⟩
  case sah =>
    rw [exec_sah hf reads draw]
    refine ⟨fun nan => congrArg _ (if_pos nan), fun num => ⟨fun zero => ?_, fun n0 e0 e1 e2 => ⟨fun inf => ?_, fun fin => ?_⟩⟩⟩
    · exact congrArg _ ((if_neg num).trans (if_pos zero))
    · exact congrArg _ ((if_neg num).trans ((if_neg (not_any n0 e0 e1 e2)).trans (if_pos inf)))
    · exact congrArg _ ((if_neg num).trans ((if_neg (not_any n0 e0 e1 e2)).trans (if_neg fin)))
  case ray =>
    intro d ho place record quad few thawed
    exact ⟨exec_trace hf ho place few record thawed, fun h hh lt go => exec_hitr hf ho place few record thawed hh lt go⟩
  case later => exact rast_joins (noteToken_noted noted) rfl noted hf going
  case first =>
    rw [setWidth_eq_dw]
    refine rast_joins (e := ⟨dw x.toNat, .full⟩) (es := []) (noteToken_first first hx) rfl ?_ fires going
    rw [← same]
    exact noted_token run

/-! ### The texture unit (R434 to R436) -/

theorem texUnit_run (s : State) : texUnit s = .ok (texMid (coreQuad s.curCore)) s := rfl

/-- Settles O29. -/
theorem textureWords : Obligations.TextureWords := by
  intro hd a b w st t u s x vs po d v hf hx thawed desc
  refine ⟨fun q hq => ⟨fun sample => ?_, fun n z X Y N L texel value => ?_⟩, fun q hq => ⟨fun sample => ?_, fun z X Y N L texel store => ?_⟩,
    fun l hl le => ?_⟩
  · exact runWord_ok hf ((bind_ok hx).trans ((bind_ok hq).trans ((bind_ok (texUnit_run u)).trans
      (onUnit_run thawed ((bind_ok desc).trans (bind_ok sample))))))
  · refine runWord_ok hf ((bind_ok hx).trans ((bind_ok hq).trans ((bind_ok (texUnit_run u)).trans
      (onUnit_run thawed ((bind_ok desc).trans ((bind_ok texel).trans ((bind_ok value).trans ?_)))))))
    cases w <;> rfl
  · exact runWord_ok hf ((bind_ok hx).trans ((bind_ok hq).trans ((bind_ok (texUnit_run u)).trans
      (onUnit_run thawed ((bind_ok desc).trans (bind_ok sample))))))
  · have unit : tryUnit (texMid (coreQuad u.curCore)) (texDesc x.toNat >>= fun d => imgTexel d q w true >>= fun t => pure (d, t)) u =
        .ok (some (d, X, Y, N, L)) z := tryUnit_run thawed ((bind_ok desc).trans (bind_ok texel))
    refine runWord_ok hf (u := ()) ((bind_ok hx).trans ((bind_ok hq).trans ((bind_ok (texUnit_run u)).trans ((bind_ok unit).trans ?_))))
    exact (get_bind ..).trans store
  · refine runWord_ok hf ((bind_ok hx).trans ((bind_ok hl).trans ((bind_ok (texUnit_run u)).trans
      (onUnit_run thawed ((bind_ok desc).trans ?_)))))
    rw [ite_run, if_neg (Nat.not_lt.mpr le), pure_run]

end Sys2Proof.Proofs
end
